-- ==== Sys2Proof/Word.lean ====
section
/-! DEFINITION. The word types of the Tsuornek module (spec/01 R10, R11, R16, R18) and the one shape in which the
model holds a sparse table: a list of numbered entries. -/

namespace Sys2Proof

/-- A byte of any memory (spec/01 R16). -/
abbrev Byte := BitVec 8

/-- A scalar register, a slot word, a status word (spec/01 R11). -/
abbrev Word := BitVec 64

/-- A vector register or an accumulator row: 256 bytes, byte 0 least significant (spec/01 R16). -/
abbrev Vec := BitVec 2048

/-- A predicate register: one bit for each byte of a vector register (spec/01 R18). -/
abbrev Pred := BitVec 256

/-- A sparse table: entries by number, numbers strictly rising, no entry equal to what an unlisted number reads as. -/
abbrev FMap (α : Type) := List (Nat × α)

end Sys2Proof
end

