-- ==== Sys2Proof/Machine/Formats.lean ====
section
/-! DEFINITION. The format codes of spec/02 R63: which codes exist, and the element width each gives. -/

namespace Sys2Proof.Machine

/-- The format codes, as numbers (R63). -/
abbrev fRaw : Nat := 0x00
abbrev fFp64 : Nat := 0x01
abbrev fFp32 : Nat := 0x02
abbrev fBf16 : Nat := 0x03
abbrev fFp16 : Nat := 0x04
abbrev fE4m3 : Nat := 0x05
abbrev fE5m2 : Nat := 0x06
abbrev fB8fp4 : Nat := 0x07
abbrev fMxfp4 : Nat := 0x08
abbrev fInt8 : Nat := 0x10
abbrev fInt16 : Nat := 0x11
abbrev fInt32 : Nat := 0x12
abbrev fInt64 : Nat := 0x13
abbrev fUint8 : Nat := 0x14
abbrev fUint16 : Nat := 0x15
abbrev fUint32 : Nat := 0x16
abbrev fUint64 : Nat := 0x17
abbrev fE3m5 : Nat := 0x20
abbrev fE8m0 : Nat := 0x21
abbrev fIx : Nat := 0x30

/-- The codes that R63 lists. -/
def fmtListed : List Nat :=
  [0x00, 0x01, 0x02, 0x03, 0x04, 0x05, 0x06, 0x07, 0x08, 0x10, 0x11, 0x12, 0x13, 0x14, 0x15, 0x16, 0x17,
   0x20, 0x21, 0x30]

/-- FP64, FP32, BF16 and FP16: the set F of R145. -/
def fmtF : List Nat := [0x01, 0x02, 0x03, 0x04]

/-- The integer codes and the index vector: 0x10 to 0x17 and 0x30 (R149). -/
def fmtInt : List Nat := [0x10, 0x11, 0x12, 0x13, 0x14, 0x15, 0x16, 0x17, 0x30]

/-- Float element formats: FP64 to E5M2 (R62). -/
def fmtFloat : List Nat := [0x01, 0x02, 0x03, 0x04, 0x05, 0x06]

/-- The packet formats (R52, R57). -/
def fmtPacket : List Nat := [0x07, 0x08]

/-- The element formats of R185: every listed code but raw and the packet formats. -/
def fmtElem : List Nat :=
  [0x01, 0x02, 0x03, 0x04, 0x05, 0x06, 0x10, 0x11, 0x12, 0x13, 0x14, 0x15, 0x16, 0x17, 0x20, 0x21, 0x30]

/-- Every listed code but the packet formats (R163). -/
def fmtNoPacket : List Nat :=
  [0x00, 0x01, 0x02, 0x03, 0x04, 0x05, 0x06, 0x10, 0x11, 0x12, 0x13, 0x14, 0x15, 0x16, 0x17, 0x20, 0x21, 0x30]

/-- The width of an element in bits: 8 for raw and 512, one packet, for the packet formats (R18, R63, R142). -/
def fmtWidth (f : Nat) : Nat :=
  match f with
  | 0x01 | 0x13 | 0x17 => 64
  | 0x02 | 0x12 | 0x16 | 0x30 => 32
  | 0x03 | 0x04 | 0x11 | 0x15 => 16
  | 0x07 | 0x08 => 512
  | _ => 8

/-- Elements of a vector register at the format's width (R142). -/
def fmtCount (f : Nat) : Nat := 2048 / fmtWidth f

/-- Bytes of one element of an element format. -/
def fmtBytes (f : Nat) : Nat := fmtWidth f / 8

/-- Signed integer formats: 0x10 to 0x13 (R150). -/
def fmtSigned (f : Nat) : Bool := 0x10 ≤ f && f ≤ 0x13

/-- Width of the random bits of one destination element under stochastic rounding (R47). -/
def fmtRandomWidth (f : Nat) : Nat :=
  match f with
  | 0x01 | 0x02 => 32
  | 0x03 | 0x04 => 16
  | 0x07 | 0x08 => 4
  | _ => 8

end Sys2Proof.Machine
end

