-- ==== Sys2Proof/Machine/Maps.lean ====
section
/-! DEFINITION. Reading and writing a sparse table (Sys2Proof.Word, FMap). -/

namespace Sys2Proof.Machine

/-- What entry `k` holds; `d` when it is not listed. -/
def look {α : Type} (d : α) : FMap α → Nat → α
  | [], _ => d
  | (j, v) :: r, k => if j = k then v else look d r k

/-- Every entry but `k`. -/
def drop {α : Type} : FMap α → Nat → FMap α
  | [], _ => []
  | (j, v) :: r, k => if j = k then drop r k else (j, v) :: drop r k

/-- An entry put in the place that its number gives it. -/
def place {α : Type} : FMap α → Nat → α → FMap α
  | [], k, v => [(k, v)]
  | (j, w) :: r, k, v => if k < j then (k, v) :: (j, w) :: r else (j, w) :: place r k v

/-- Entry `k` set to `v`: an entry equal to the default is not listed. -/
def put {α : Type} [DecidableEq α] (d : α) (m : FMap α) (k : Nat) (v : α) : FMap α :=
  if v = d then drop m k else place (drop m k) k v

/-- Entry `k` changed by a function, where it is listed. -/
def revise {α : Type} (m : FMap α) (k : Nat) (f : α → α) : FMap α := m.map fun p => if p.1 = k then (p.1, f p.2) else p

/-- Whether entry `k` is listed. -/
def listed {α : Type} (m : FMap α) (k : Nat) : Bool := m.any fun p => p.1 == k

/-- The canonical form: numbers strictly rising, no default listed. -/
def canonical {α : Type} [DecidableEq α] (d : α) : FMap α → Bool
  | [] => true
  | [(_, v)] => decide (v ≠ d)
  | (j, v) :: (k, w) :: r => decide (j < k) && decide (v ≠ d) && canonical d ((k, w) :: r)

/-- Entry `i` of a list, or the default. -/
def nth {α : Type} (d : α) (l : List α) (i : Nat) : α := (l[i]?).getD d

/-- Entry `i` of a list changed; a list too short is left as it is. -/
def setNth {α : Type} (l : List α) (i : Nat) (v : α) : List α := l.set i v

end Sys2Proof.Machine
end

