-- ==== Sys2Proof/Machine/Bits.lean ====
section
/-! DEFINITION. Bit fields, extensions, byte order and vector elements (spec/01 R16, R38, R39, R40, R41). -/

namespace Sys2Proof.Machine

/-- x[hi:lo] as a number. -/
def bits {n : Nat} (x : BitVec n) (lo len : Nat) : Nat := (x.toNat >>> lo) % 2 ^ len

/-- Bit `i` of `x`. -/
def bit {n : Nat} (x : BitVec n) (i : Nat) : Bool := x.toNat.testBit i

/-- `x` with the field of `len` bits at `lo` replaced by `v`. -/
def setBits {n : Nat} (x : BitVec n) (lo len v : Nat) : BitVec n :=
  BitVec.ofNat n (x.toNat - (bits x lo len) * 2 ^ lo + (v % 2 ^ len) * 2 ^ lo)

/-- A number of `n` bits read as two's complement. -/
def toSigned (n x : Nat) : Int := if x % 2 ^ n < 2 ^ (n - 1) then (x % 2 ^ n : Nat) else (x % 2 ^ n : Nat) - (2 ^ n : Nat)

/-- An integer reduced modulo 2^n. -/
def ofSigned (n : Nat) (x : Int) : Nat := (x % ((2 ^ n : Nat) : Int)).toNat

/-- sext(x, n) of R39 into a 64-bit word. -/
def sext64 (x n : Nat) : Word := BitVec.ofInt 64 (toSigned n x)

/-- zext(x, n) of R39. -/
def zext64 (x n : Nat) : Word := BitVec.ofNat 64 (x % 2 ^ n)

/-- sat(x, lo, hi) of R39. -/
def sat (x lo hi : Int) : Int := if x < lo then lo else if x > hi then hi else x

/-- Element i of width w (R16). -/
def elem (v : Vec) (i w : Nat) : Nat := (v.toNat >>> (w * i)) % 2 ^ w

/-- A register image from its elements of width w, element 0 first. -/
def packNat (w : Nat) : List Nat → Nat
  | [] => 0
  | x :: r => x % 2 ^ w + 2 ^ w * packNat w r

def packVec (w : Nat) (l : List Nat) : Vec := BitVec.ofNat 2048 (packNat w l)

/-- The elements of width w of a register. -/
def elems (v : Vec) (w : Nat) : List Nat := (List.range (2048 / w)).map fun i => elem v i w

/-- act(p, i, w) of R39: predicate bit i·w/8. -/
def act (p : Pred) (i w : Nat) : Bool := p.toNat.testBit (i * w / 8)

/-- The number of a list of bytes, lowest first (R16, R42). -/
def leNat (l : List Byte) : Nat := packNat 8 (l.map BitVec.toNat)

/-- The `n` bytes of a number, lowest first. -/
def leBytes (n x : Nat) : List Byte := (List.range n).map fun j => BitVec.ofNat 8 (x >>> (8 * j))

/-- One SplitMix64 step: the new state and the output (R40). -/
def smix (st : Word) : Word × Word :=
  let st := st + 0x9E3779B97F4A7C15#64
  let z := (st ^^^ (st >>> 30)) * 0xBF58476D1CE4E5B9#64
  let z := (z ^^^ (z >>> 27)) * 0x94D049BB133111EB#64
  (st, z ^^^ (z >>> 31))

/-- The 16-bit words of a byte string; an odd last byte has a zero high byte (R41). -/
def words16 : List Byte → List Nat
  | [] => []
  | [a] => [a.toNat]
  | a :: b :: r => (a.toNat + 256 * b.toNat) :: words16 r

/-- fletcher(st, bytes) of R41. -/
def fletcher (st : Nat) (bs : List Byte) : Nat :=
  let r := (words16 bs).foldl (fun (ab : Nat × Nat) w =>
    let a := (ab.1 + w) % 65535
    (a, (ab.2 + a) % 65535)) (st % 65536 % 65535, st / 65536 % 65536 % 65535)
  r.2 * 65536 + r.1

/-- The number of leading zero bits among `n` bits of x. -/
def leadingZeros : Nat → Nat → Nat
  | 0, _ => 0
  | n + 1, x => if x.testBit n then 0 else leadingZeros n x + 1

/-- The number of trailing zero bits, at most `n`, from bit `i` up. -/
def trailingZeros : Nat → Nat → Nat → Nat
  | 0, _, _ => 0
  | n + 1, i, x => if x.testBit i then 0 else trailingZeros n (i + 1) x + 1

/-- The number of one bits among the low `n`. -/
def onesCount : Nat → Nat → Nat
  | 0, _ => 0
  | n + 1, x => (if x.testBit n then 1 else 0) + onesCount n x

/-- The fields of a locator (R234). -/
def locSpace (l : Word) : Nat := bits l 62 2
def locSlot (l : Word) : Nat := bits l 58 4
def locOff (l : Word) : Nat := bits l 0 55

/-- A word with byte j moved to byte 7 - j (R128). -/
def byteSwap (x : Word) : Word := BitVec.ofNat 64 (leNat (leBytes 8 x.toNat).reverse)

/-- A list cut into pieces of `n`; `fuel` bounds their number. -/
def chunks {α : Type} (n : Nat) : Nat → List α → List (List α)
  | 0, _ => []
  | _, [] => []
  | fuel + 1, l => l.take n :: chunks n fuel (l.drop n)

end Sys2Proof.Machine
end

