-- ==== Sys2Proof/Syntax/Forms.lean ====
section
/-! DEFINITION. The instruction forms of spec/04 R89 to R96: the fields that an operation of each form carries. -/

namespace Sys2Proof

/-- Form SR (R89): destination, two sources, and SEL's condition register in c. -/
structure SR where
  d : BitVec 6
  a : BitVec 6
  b : BitVec 6
  c : BitVec 6
  deriving DecidableEq, Repr

/-- Form SI (R89): destination, source and a signed 32-bit immediate. -/
structure SI where
  d   : BitVec 6
  a   : BitVec 6
  imm : BitVec 32
  deriving DecidableEq, Repr

/-- Form SF (R89): LSB or shift count in x[5:0], WIDTH in x[12:6]. -/
structure SF where
  d     : BitVec 6
  a     : BitVec 6
  lsb   : BitVec 6
  width : BitVec 7
  deriving DecidableEq, Repr

/-- Form SB (R89, R90): link register, sources, and the direct target's BIDX and SEGOFF. -/
structure SB where
  d      : BitVec 6
  a      : BitVec 6
  b      : BitVec 6
  bidx   : BitVec 7
  segoff : BitVec 25
  deriving DecidableEq, Repr

/-- Form SS (R89, R91): x carries a semaphore, selector, code, or extent location. -/
structure SS where
  d : BitVec 6
  a : BitVec 6
  x : BitVec 32
  deriving DecidableEq, Repr

/-- Form VV (R89, R92): the fields of a vector operation; DYN is opx[15] for an operation that rounds. -/
structure VV where
  d    : BitVec 6
  a    : BitVec 6
  b    : BitVec 6
  c    : BitVec 6
  pred : BitVec 3
  zero : BitVec 1
  fmt  : BitVec 8
  rm   : BitVec 4
  opx  : BitVec 16
  deriving DecidableEq, Repr

/-- Form MP (R89, R205): a scalar register and an mp register. -/
structure MP where
  d  : BitVec 6
  a  : BitVec 6
  mp : BitVec 3
  deriving DecidableEq, Repr

/-- Form MC (R95): token, consumed tokens and the command's fields. -/
structure MC where
  d       : BitVec 6
  a       : BitVec 6
  b       : BitVec 6
  c       : BitVec 6
  prio    : BitVec 2
  routine : BitVec 7
  sigen   : BitVec 1
  sem     : BitVec 8
  quad    : BitVec 6
  deriving DecidableEq, Repr

/-- Form CC (R95, R236): token, consumed tokens and the command's fields. -/
structure CC where
  d     : BitVec 6
  a     : BitVec 6
  b     : BitVec 6
  c     : BitVec 6
  fmt   : BitVec 8
  sub   : BitVec 4
  scope : BitVec 3
  sigen : BitVec 1
  bytes : BitVec 1
  sem   : BitVec 8
  quad  : BitVec 6
  deriving DecidableEq, Repr

/-- Form LM (R89, R94): an access through an extent slot. For SCAT and SCADD, nr and size hold the predicate. -/
structure LM where
  d    : BitVec 6
  a    : BitVec 6
  b    : BitVec 6
  ord  : BitVec 1
  nr   : BitVec 1
  size : BitVec 2
  slot : BitVec 4
  disp : BitVec 28
  deriving DecidableEq, Repr

/-- Form LP (R89, R174): a scratchpad access. -/
structure LP where
  d    : BitVec 6
  a    : BitVec 6
  b    : BitVec 6
  size : BitVec 2
  off  : BitVec 20
  deriving DecidableEq, Repr

/-- Form LT (R89, R179): a tensor element through a descriptor. -/
structure LT where
  d    : BitVec 6
  a    : BitVec 6
  b    : BitVec 6
  slot : BitVec 4
  disp : BitVec 28
  deriving DecidableEq, Repr

/-- Form LX (R96): probes, streams, fences, names and NCAS; mods is c[2:0], the scope. -/
structure LX where
  d    : BitVec 6
  a    : BitVec 6
  b    : BitVec 6
  mods : BitVec 3
  slot : BitVec 4
  disp : BitVec 28
  deriving DecidableEq, Repr

/-- Form CX (R95, R250): a transform beat or XRD. -/
structure CX where
  d    : BitVec 6
  a    : BitVec 6
  fmt  : BitVec 8
  rm   : BitVec 4
  beat : BitVec 3
  deriving DecidableEq, Repr

end Sys2Proof
end

