-- ==== Sys2Proof/Syntax.lean ====
section
/-! DEFINITION. Every row of spec/opcode_table.json as one constructor: the operations of the slots with the fields of
their form (spec/04 R89), and the module's events, host commands and management commands with their operands. -/

namespace Sys2Proof

/-- One step of the module: an operation of a slot (spec/04 R97 to R100), an event (spec/95), a command of the endpoint
(spec/18 R388) or of the Headframe port (spec/19 R395). -/
inductive Instr where
  /-- BUNDLE_ISSUE (R86). A context issues one bundle: all slots read their sources at issue and commit in ascending slot order. -/
  | bundleIssue (ctx : Nat) (among : List (Nat × Nat × Bool) × List Nat)
  /-- WAIT_SATISFIED (R253). A bundle whose Y-slot wait was blocked becomes issuable once the semaphore balance reaches the threshold, acting as an acquire. -/
  | waitSatisfied (ctx : Nat)
  /-- PAUSE_END (R31). The idle issue cycles requested by a bundle's PAUSE field run out and the next bundle becomes due. -/
  | pauseEnd (ctx : Nat)
  /-- LOCK_WINDOW_END (R104). A bank-lock window or chain runs out its bundle count, and engine requests waiting on the locked banks proceed. -/
  | lockWindowEnd (ctx : Nat)
  /-- FIXED_RESULT_LAND (R32). A fixed-latency result lands in its destination when its remaining count of issue cycles reaches zero. -/
  | fixedResultLand (ctx : Nat)
  /-- SCOREBOARD_RESULT_LAND (R34). A scoreboarded result or token arrives, is written and clears the destination's pending bit. -/
  | scoreboardResultLand (ctx entry answer pages : Nat)
  /-- SEGMENT_EXPANSION (R266). Expansion of a segment into a loop-buffer half completes, with seal check, and the half becomes resident or empty. -/
  | segmentExpansion (ctx half : Nat)
  /-- LOOP_BUFFER_ERROR (R273). An uncorrectable error in a loop-buffer half empties it and the bundle is fetched again. -/
  | loopBufferError (ctx half : Nat)
  /-- TASK_RETIRE (R257). After EXIT or a halt, once all commands, deferred updates and stores are performed, the task retires and releases pins and bindings. -/
  | taskRetire (ctx : Nat)
  /-- CORRECTABLE_ERROR_FREEZE (R289). A correctable SRAM error in a core freezes its issue pipeline and engines for 24 core cycles. -/
  | correctableErrorFreeze (unit : Nat × Nat)
  /-- FREEZE_END (R289). The 24-cycle ECC freeze count expires and the core resumes. -/
  | freezeEnd (core : Nat)
  /-- UNCORRECTABLE_ERROR (R288). An uncorrectable error poisons data, marks memory units, or drops and refetches a metadata entry. -/
  | uncorrectableError (kind unit addr : Nat)
  /-- ENGINE_STARVATION (R279). An engine request that has waited 64 cycles on a scratchpad bank is served and the core freezes for that cycle. -/
  | engineStarvation (core bank : Nat)
  /-- FORCED_YIELD (R339). A context that issued 1,024 consecutive bundles while another was ready yields as by YIELD. -/
  | forcedYield (ctx : Nat)
  /-- YIELD_TURN_END (R256). A yielding context becomes eligible again after every other ready context has issued or a cycle passed with none ready. -/
  | yieldTurnEnd (ctx : Nat)
  /-- NOP (R87). Empty slot; does nothing. -/
  | nop
  /-- ADD (R122). Writes A + B modulo 2^64. -/
  | add (f : SR)
  /-- SUB (R122). Writes A - B modulo 2^64. -/
  | sub (f : SR)
  /-- MUL (R122). Writes the low 64 bits of A × B with latency 3. -/
  | mul (f : SR)
  /-- MULHS (R122). Writes the high 64 bits of the signed 128-bit product. -/
  | mulhs (f : SR)
  /-- MULHN (R122). Writes the high 64 bits of the unsigned 128-bit product. -/
  | mulhn (f : SR)
  /-- DIVS (R124). Signed division truncated toward zero, scoreboarded, with divide-by-zero handling. -/
  | divs (f : SR)
  /-- DIVN (R124). Unsigned division, scoreboarded, with divide-by-zero handling. -/
  | divn (f : SR)
  /-- REMS (R124). Signed remainder with the sign of the dividend, scoreboarded. -/
  | rems (f : SR)
  /-- REMN (R124). Unsigned remainder, scoreboarded. -/
  | remn (f : SR)
  /-- AND (R122). Writes A and B. -/
  | and (f : SR)
  /-- OR (R122). Writes A or B. -/
  | or (f : SR)
  /-- XOR (R122). Writes A xor B. -/
  | xor (f : SR)
  /-- ANDN (R122). Writes A and not B. -/
  | andn (f : SR)
  /-- SHL (R122). Shifts A left by B[5:0]. -/
  | shl (f : SR)
  /-- SHR (R122). Shifts A right logically by B[5:0]. -/
  | shr (f : SR)
  /-- SAR (R122). Shifts A right arithmetically by B[5:0]. -/
  | sar (f : SR)
  /-- ROTL (R122). Rotates A left by B[5:0]. -/
  | rotl (f : SR)
  /-- MINS (R122). Writes the signed lesser of A and B. -/
  | mins (f : SR)
  /-- MAXS (R122). Writes the signed greater of A and B. -/
  | maxs (f : SR)
  /-- MINN (R122). Writes the unsigned lesser of A and B. -/
  | minn (f : SR)
  /-- MAXN (R122). Writes the unsigned greater of A and B. -/
  | maxn (f : SR)
  /-- MOV (R122). Copies A to d. -/
  | mov (f : SR)
  /-- ADDI (R126). Writes A plus the sign-extended immediate. -/
  | addi (f : SI)
  /-- MULI (R126). Writes the low 64 bits of A times the sign-extended immediate. -/
  | muli (f : SI)
  /-- ANDI (R126). Writes A and the sign-extended immediate. -/
  | andi (f : SI)
  /-- ORI (R126). Writes A or the sign-extended immediate. -/
  | ori (f : SI)
  /-- XORI (R126). Writes A xor the sign-extended immediate. -/
  | xori (f : SI)
  /-- LI (R126). Loads the sign-extended 32-bit immediate. -/
  | li (f : SI)
  /-- LIH (R126). Places the immediate in bits 63:32 and keeps the old low half. -/
  | lih (f : SI)
  /-- SHLI (R128). Shifts A left by the immediate count. -/
  | shli (f : SF)
  /-- SHRI (R128). Shifts A right logically by the immediate count. -/
  | shri (f : SF)
  /-- SARI (R128). Shifts A right arithmetically by the immediate count. -/
  | sari (f : SF)
  /-- ROTLI (R128). Rotates A left by the immediate count. -/
  | rotli (f : SF)
  /-- CLZ (R128). Counts leading zero bits of A. -/
  | clz (f : SF)
  /-- CTZ (R128). Counts trailing zero bits of A. -/
  | ctz (f : SF)
  /-- POPC (R128). Counts the one bits of A. -/
  | popc (f : SF)
  /-- BSWAP (R128). Reverses the bytes of A. -/
  | bswap (f : SF)
  /-- BFX (R128). Extracts a bit field of A, zero-extended. -/
  | bfx (f : SF)
  /-- BFI (R128). Inserts the low bits of A into a field of the old d. -/
  | bfi (f : SF)
  /-- SEXT (R128). Sign-extends the low WIDTH bits of A. -/
  | sext (f : SF)
  /-- ZEXT (R128). Zero-extends the low WIDTH bits of A. -/
  | zext (f : SF)
  /-- SEQ (R129). Writes 1 if A = B, else 0. -/
  | seq (f : SR)
  /-- SNE (R129). Writes 1 if A ≠ B, else 0. -/
  | sne (f : SR)
  /-- SLT (R129). Writes 1 if A < B signed. -/
  | slt (f : SR)
  /-- SLE (R129). Writes 1 if A ≤ B signed. -/
  | sle (f : SR)
  /-- SLTN (R129). Writes 1 if A < B unsigned. -/
  | sltn (f : SR)
  /-- SLEN (R129). Writes 1 if A ≤ B unsigned. -/
  | slen (f : SR)
  /-- SEL (R129). Writes A if C ≠ 0, else B. -/
  | sel (f : SR)
  /-- BEQ (R135). Branches after three delay bundles when A = B. -/
  | beq (f : SB)
  /-- BNE (R135). Branches when A ≠ B. -/
  | bne (f : SB)
  /-- BLT (R135). Branches when A < B signed. -/
  | blt (f : SB)
  /-- BGE (R135). Branches when A ≥ B signed. -/
  | bge (f : SB)
  /-- BLTN (R135). Branches when A < B unsigned. -/
  | bltn (f : SB)
  /-- BGEN (R135). Branches when A ≥ B unsigned. -/
  | bgen (f : SB)
  /-- BZ (R135). Branches when A = 0. -/
  | bz (f : SB)
  /-- BNZ (R135). Branches when A ≠ 0. -/
  | bnz (f : SB)
  /-- LOOP (R136). Decrements the counter and branches while the result is nonzero. -/
  | loop (f : SB)
  /-- JMP (R138). Jumps to a direct target after three delay bundles. -/
  | jmp (f : SB)
  /-- JMPI (R138). Jumps to the code pointer in A after checking it. -/
  | jmpi (f : SB)
  /-- CALL (R138). Writes the return link and jumps to a direct target. -/
  | call (f : SB)
  /-- CALLI (R138). Writes the return link and jumps to the pointer in A. -/
  | calli (f : SB)
  /-- RET (R138). Returns through the link register in A. -/
  | ret (f : SB)
  /-- CHK (R139). Diverts to the recovery target when the tested register is poisoned. -/
  | chk (f : SB)
  /-- PCLR (R140). Writes zero and clears the poison bit of a scalar register. -/
  | pclr (f : SR)
  /-- SARM (R254). Adds a signed amount to a semaphore when slot 0 commits. -/
  | sarm (f : SS)
  /-- SSET (R254). Sets a semaphore's balance and clears its mark. -/
  | sset (f : SS)
  /-- SGET (R254). Reads a semaphore's balance and mark, scoreboarded. -/
  | sget (f : SS)
  /-- YIELD (R256). Gives up the context's turn until the other ready contexts have issued. -/
  | yield (f : SS)
  /-- EXIT (R257). Ends the task after its bundle commits, with an exit code. -/
  | exit (f : SS)
  /-- TRAP (R258). Commits slot 0 and takes the trap TRAPI with the trap code. -/
  | trap (f : SS)
  /-- ERET (R259). Returns from a handler, restoring CSW and re-entering the trapped bundle at SLOTRES. -/
  | eret (f : SS)
  /-- CSRD (R260). Reads a control register at issue. -/
  | csrd (f : SS)
  /-- CSWR (R260). Writes a control register at commit of slot 0, per the field access rules. -/
  | cswr (f : SS)
  /-- ENQ (R261). Submits a device-built launch record to a launch queue and returns a token. -/
  | enq (f : SS)
  /-- TIME (R262). Reads the module timebase. -/
  | time (f : SS)
  /-- RNDX (R263). Steps a SplitMix64 generator, writing output and new state. -/
  | rndx (f : SS)
  /-- PEND (R264). Writes a mask of the scalar registers pending at issue. -/
  | pend (f : SS)
  /-- VADD (R146). Elementwise floating-point addition. -/
  | vadd (f : VV)
  /-- VSUB (R146). Elementwise floating-point subtraction. -/
  | vsub (f : VV)
  /-- VMUL (R146). Elementwise floating-point multiplication. -/
  | vmul (f : VV)
  /-- VFMA (R146). Fused multiply-add with the old destination as addend. -/
  | vfma (f : VV)
  /-- VFMS (R146). Fused A × B - D. -/
  | vfms (f : VV)
  /-- VFNMA (R146). Fused -(A × B) + D. -/
  | vfnma (f : VV)
  /-- VMIN (R148). Elementwise minimumNumber. -/
  | vmin (f : VV)
  /-- VMAX (R148). Elementwise maximumNumber. -/
  | vmax (f : VV)
  /-- VMINP (R148). Elementwise NaN-propagating minimum. -/
  | vminp (f : VV)
  /-- VMAXP (R148). Elementwise NaN-propagating maximum. -/
  | vmaxp (f : VV)
  /-- VABS (R148). Clears the sign bit of each element. -/
  | vabs (f : VV)
  /-- VNEG (R148). Inverts the sign bit of each element. -/
  | vneg (f : VV)
  /-- VDIV (R146). Elementwise correctly rounded division. -/
  | vdiv (f : VV)
  /-- VSQRT (R146). Elementwise correctly rounded square root. -/
  | vsqrt (f : VV)
  /-- VRCP (R147). Elementwise correctly rounded reciprocal. -/
  | vrcp (f : VV)
  /-- VRSQ (R147). Elementwise correctly rounded reciprocal square root. -/
  | vrsq (f : VV)
  /-- VEXP2 (R147). Elementwise FP32 2^A. -/
  | vexp2 (f : VV)
  /-- VLOG2 (R147). Elementwise FP32 log2 A. -/
  | vlog2 (f : VV)
  /-- VIADD (R150). Elementwise integer addition modulo 2^w. -/
  | viadd (f : VV)
  /-- VISUB (R150). Elementwise integer subtraction modulo 2^w. -/
  | visub (f : VV)
  /-- VIMUL (R150). Elementwise integer multiplication modulo 2^w. -/
  | vimul (f : VV)
  /-- VIMAD (R150). Elementwise integer multiply-add with the old destination. -/
  | vimad (f : VV)
  /-- VIMIN (R150). Elementwise integer minimum. -/
  | vimin (f : VV)
  /-- VIMAX (R150). Elementwise integer maximum. -/
  | vimax (f : VV)
  /-- VAND (R150). Elementwise bitwise and. -/
  | vand (f : VV)
  /-- VOR (R150). Elementwise bitwise or. -/
  | vor (f : VV)
  /-- VXOR (R150). Elementwise bitwise xor. -/
  | vxor (f : VV)
  /-- VSHL (R151). Elementwise left shift. -/
  | vshl (f : VV)
  /-- VSHR (R151). Elementwise logical right shift. -/
  | vshr (f : VV)
  /-- VSAR (R151). Elementwise arithmetic right shift. -/
  | vsar (f : VV)
  /-- VRNDX (R152). Steps 32 SplitMix64 generators, writing outputs and states. -/
  | vrndx (f : VV)
  /-- VCMP (R153). Compares elements and writes predicate bits. -/
  | vcmp (f : VV)
  /-- VSEL (R154). Selects elements of A or B by predicate. -/
  | vsel (f : VV)
  /-- VPAND (R155). Predicate and. -/
  | vpand (f : VV)
  /-- VPOR (R155). Predicate or. -/
  | vpor (f : VV)
  /-- VPXOR (R155). Predicate xor. -/
  | vpxor (f : VV)
  /-- VPNOT (R155). Predicate not. -/
  | vpnot (f : VV)
  /-- VPCNT (R156). Counts selected predicate elements into a scalar. -/
  | vpcnt (f : VV)
  /-- VPFIRST (R156). Writes the lowest selected element index. -/
  | vpfirst (f : VV)
  /-- VCVT (R157). Converts elements between formats. -/
  | vcvt (f : VV)
  /-- VQNT (R158). Quantises source elements into B8FP4 or MXFP4 packets. -/
  | vqnt (f : VV)
  /-- VDQNT (R159). Decodes packet elements into a float register. -/
  | vdqnt (f : VV)
  /-- VTAG (R160). Copies bits with a new format tag. -/
  | vtag (f : VV)
  /-- VGTAG (R160). Reads a vector register's tag and poison into a scalar. -/
  | vgtag (f : VV)
  /-- VREDA (R161). Tree-reduces active elements by addition into element 0. -/
  | vreda (f : VV)
  /-- VREDM (R161). Tree-reduces active elements by max or min. -/
  | vredm (f : VV)
  /-- VSCAN (R162). Forms inclusive or exclusive running sums. -/
  | vscan (f : VV)
  /-- VPERM (R164). Permutes elements by an index vector. -/
  | vperm (f : VV)
  /-- VBCAST (R164). Broadcasts a scalar into every active element. -/
  | vbcast (f : VV)
  /-- VZIP (R164). Interleaves halves of two vectors. -/
  | vzip (f : VV)
  /-- VUNZIP (R164). De-interleaves two vectors. -/
  | vunzip (f : VV)
  /-- VSLIDE (R164). Slides elements by a signed count. -/
  | vslide (f : VV)
  /-- VIDX (R164). Writes base + i × stride into each element. -/
  | vidx (f : VV)
  /-- VMOV (R164). Copies active elements. -/
  | vmov (f : VV)
  /-- VINS (R164). Inserts a scalar into one element. -/
  | vins (f : VV)
  /-- VEXT (R164). Extracts one element into a scalar. -/
  | vext (f : VV)
  /-- ACCRD (R165). Reads an accumulator row into a vector, freezing the core while the bank is owned. -/
  | accrd (f : VV)
  /-- ACCWR (R165). Writes active elements of a vector into an accumulator row after 3 cycles. -/
  | accwr (f : VV)
  /-- VSQ (R167). Pops one entry from a stream's data FIFO. -/
  | vsq (f : VV)
  /-- MPW (R206). Writes a matrix parameter register. -/
  | mpw (f : MP)
  /-- MPR (R206). Reads a matrix parameter register. -/
  | mpr (f : MP)
  /-- MCALL (R208). Copies mp registers, takes a queue entry and bank ownership, and queues a matrix routine. -/
  | mcall (f : MC)
  /-- WBLD (R210). Queues a load of bytes into the weight buffer. -/
  | wbld (f : MC)
  /-- WBCLR (R210). Queues a clear of the whole weight buffer. -/
  | wbclr (f : MC)
  /-- ACCZ (R211). Takes masked banks and queues their zeroing. -/
  | accz (f : MC)
  /-- GEVAL (R213). Queues a grammar evaluation on the Lode engine. -/
  | geval (f : MC)
  /-- MQSTAT (R212). Samples the matrix and Lode queue status into a token. -/
  | mqstat (f : MC)
  /-- LDS (R175). Scalar scratchpad load. -/
  | lds (f : LP)
  /-- LDSV (R175). Vector scratchpad load. -/
  | ldsv (f : LP)
  /-- STS (R175). Scalar scratchpad store. -/
  | sts (f : LP)
  /-- STSV (R175). Vector scratchpad store. -/
  | stsv (f : LP)
  /-- LDM (R177). Scalar load through an extent, scoreboarded. -/
  | ldm (f : LM)
  /-- LDMV (R177). Vector load through an extent, scoreboarded. -/
  | ldmv (f : LM)
  /-- STM (R177). Scalar store through an extent. -/
  | stm (f : LM)
  /-- STMV (R177). Vector store through an extent. -/
  | stmv (f : LM)
  /-- LDMS (R178). Speculative scalar load that returns poison instead of faulting. -/
  | ldms (f : LM)
  /-- LDMVS (R178). Speculative vector load that returns poison instead of faulting. -/
  | ldmvs (f : LM)
  /-- LDT (R180). Loads a tensor element through a descriptor. -/
  | ldt (f : LT)
  /-- STT (R180). Stores a tensor element through a descriptor, with symmetry handling. -/
  | stt (f : LT)
  /-- PROBE (R182). Starts migration of deep-tier pages of a range, traps once, and pins the range. -/
  | probe (f : LX)
  /-- SQSET (R183). Starts an indirect stream. -/
  | sqset (f : LX)
  /-- SQCLR (R183). Clears a stream to its reset value. -/
  | sqclr (f : LX)
  /-- FENCE (R187). Blocks until earlier accesses are performed at the scope. -/
  | fence (f : LX)
  /-- FLUSH (R187). Writes back dirty lines of a range to the scope's point of coherence. -/
  | flush (f : LX)
  /-- INVAL (R187). Writes back and discards cached copies of a range. -/
  | inval (f : LX)
  /-- NRES (R194). Resolves a claim name and binds it to an extent slot. -/
  | nres (f : LX)
  /-- NSTAT (R195). Looks a claim name up without change. -/
  | nstat (f : LX)
  /-- NKILL (R196). Removes a live name from the name table and shoots it down. -/
  | nkill (f : LX)
  /-- AADD (R189). Atomic integer add. -/
  | aadd (f : LM)
  /-- AFADD (R189). Atomic floating-point add with RNE. -/
  | afadd (f : LM)
  /-- AMINS (R189). Atomic signed minimum. -/
  | amins (f : LM)
  /-- AMAXS (R189). Atomic signed maximum. -/
  | amaxs (f : LM)
  /-- AMINN (R189). Atomic unsigned minimum. -/
  | aminn (f : LM)
  /-- AMAXN (R189). Atomic unsigned maximum. -/
  | amaxn (f : LM)
  /-- AFMIN (R189). Atomic floating-point minimumNumber. -/
  | afmin (f : LM)
  /-- AFMAX (R189). Atomic floating-point maximumNumber. -/
  | afmax (f : LM)
  /-- AFMINP (R189). Atomic NaN-propagating floating-point minimum. -/
  | afminp (f : LM)
  /-- AFMAXP (R189). Atomic NaN-propagating floating-point maximum. -/
  | afmaxp (f : LM)
  /-- AAND (R189). Atomic bitwise and. -/
  | aand (f : LM)
  /-- AOR (R189). Atomic bitwise or. -/
  | aor (f : LM)
  /-- AXOR (R189). Atomic bitwise xor. -/
  | axor (f : LM)
  /-- AXCHG (R189). Atomic exchange. -/
  | axchg (f : LM)
  /-- ACAS (R189). Atomic compare-and-swap. -/
  | acas (f : LM)
  /-- NCAS (R192). 128-bit atomic compare-and-swap. -/
  | ncas (f : LX)
  /-- SCAT (R186). Scatters vector elements to indexed locations, highest element winning. -/
  | scat (f : LM)
  /-- SCADD (R186). Adds vector elements to indexed locations as deferred updates. -/
  | scadd (f : LM)
  /-- CPY (R238). Queues a plain copy with optional inline checksum. -/
  | cpy (f : CC)
  /-- CPYR (R241). Queues a copy into a named object on a remote module. -/
  | cpyr (f : CC)
  /-- CPYT_CONVERT (R243). Queues a converting copy between formats. -/
  | cpytConvert (f : CC)
  /-- CPYT_TRANSPOSE (R244). Queues a transposing copy. -/
  | cpytTranspose (f : CC)
  /-- CPYT_EXPAND (R245). Queues decoding of a compressed block into the scratchpad. -/
  | cpytExpand (f : CC)
  /-- CPYT_COMPRESS (R245). Queues compression of scratchpad bytes into a block. -/
  | cpytCompress (f : CC)
  /-- GATH (R248). Queues a gather of indexed elements. -/
  | gath (f : CC)
  /-- SCAE (R248). Queues an engine scatter-add to indexed locations. -/
  | scae (f : CC)
  /-- CRED (R249). Queues an elementwise reduction into a destination, local or remote. -/
  | cred (f : CC)
  /-- XPOSE (R251). Stages a row; beat 7 lands the 8-row transpose in the transform buffer. -/
  | xpose (f : CX)
  /-- XCVT (R251). Converts a vector into a transform-buffer row. -/
  | xcvt (f : CX)
  /-- XEXP (R251). Decodes packet elements into transform-buffer rows. -/
  | xexp (f : CX)
  /-- XRD (R251). Reads a transform-buffer row into a vector. -/
  | xrd (f : CX)
  /-- ENGINE_COMMAND_START (R232). A queued copy-engine command starts once its consumed tokens complete, or completes CANCELLED. -/
  | engineCommandStart (core id : Nat) (lag : List (Nat × Nat))
  /-- COPY_COMMAND_COMPLETION (R235). A copy-engine command's writes become visible, its semaphore is signalled and its token lands. -/
  | copyCommandCompletion (core id answer : Nat) (ops : List (Bool × Nat))
  /-- MMA (R218). The matrix engine runs a dense tile multiply-accumulate routine. -/
  | mma (core id : Nat) (reads : List Nat) (go : Bool)
  /-- MMA_NM (R218). The matrix engine runs a tile multiply with a transposable 2:4 B. -/
  | mmaNm (core id : Nat) (reads : List Nat) (go : Bool)
  /-- MMA_NMT (R218). The matrix engine runs a tile multiply with the transpose of a 2:4 matrix. -/
  | mmaNmt (core id : Nat) (reads : List Nat) (go : Bool)
  /-- MMA_COOP (R222). The matrix engine computes one tile of a cooperative 512 × 512 product. -/
  | mmaCoop (core id : Nat) (reads : List Nat) (go : Bool)
  /-- CONTRACT (R224). The matrix engine performs a symmetric tensor contraction by orbit walk. -/
  | contract (core id : Nat) (reads : List (Nat × Nat) × List Nat) (go : Bool)
  /-- ACC_EXPORT (R226). The matrix engine exports an accumulator tile to the scratchpad. -/
  | accExport (core id : Nat) (units : List Nat) (go : Bool)
  /-- ACC_SCALE (R227). The matrix engine scales an accumulator tile in place. -/
  | accScale (core id : Nat) (reads : List Nat) (go : Bool)
  /-- MATRIX_COMMAND_START (R200). A queued WBLD, WBCLR, ACCZ or MQSTAT starts when its tokens and hazards clear. -/
  | matrixCommandStart (core id : Nat) (lag : List (Nat × Nat))
  /-- MATRIX_COMMAND_COMPLETION (R204). A matrix or Lode command's writes are performed, its semaphore signalled and its token lands. -/
  | matrixCommandCompletion (core id : Nat) (reads : List Nat) (go : Bool)
  /-- LODE_EVALUATION (R374). The Lode engine starts a grammar evaluation and writes rows level by level. -/
  | lodeEvaluation (core id : Nat) (lag : List (Nat × Nat)) (reads writes : List Nat) (go : Bool)
  /-- STREAM_FETCH (R184). The stream engine fetches indexed elements into a FIFO entry. -/
  | streamFetch (ctx stream count : Nat) (reads : List (Nat × Nat) × List Nat)
  /-- DEFERRED_UPDATE_APPLY (R305). A deferred update is applied at its location's point of execution. -/
  | deferredUpdateApply (id : Nat)
  /-- UPDATE_ONLY_MERGE (R306). An update-only line merges its gathered updates into memory on eviction, access, flush or release. -/
  | updateOnlyMerge (core line : Nat) (first : List Nat)
  /-- ORDERED_UPDATE_ARRIVAL (R321). An ordered or outsider update arrives at the home slice and is applied, held, or refused. -/
  | orderedUpdateArrival (id : Nat)
  /-- ORDERED_UPDATE_RESEND (R321). A refused ordered update is sent again after at least 64 core cycles. -/
  | orderedUpdateResend (id : Nat)
  /-- PAGE_MIGRATION (R293). A 64 KiB page migrates between HBM and the deep tier. -/
  | pageMigration (frame target : Nat)
  /-- NAME_SHOOTDOWN (R297). A name cache or remote holder receives a shoot-down, drops the name and acknowledges. -/
  | nameShootdown (holder : Nat) (name : BitVec 128)
  /-- REMOTE_NAME_RESOLVE (R390). A home module resolves a name for a remote requester. -/
  | remoteNameResolve (serial asid : Nat) (name : BitVec 128) (kind : Nat) (place : Nat × Nat × Nat)
  /-- REMOTE_DELIVERY (R241). A remote copy's bytes are written into the target object. -/
  | remoteDelivery (serial asid : Nat) (name : BitVec 128) (off : Nat) (data : List (BitVec 8)) (poison : List Bool) (signal : Option (Nat × Nat × Nat))
  /-- REMOTE_CRED_UPDATE (R392). A remote CRED element update is applied at the target's atomic units. -/
  | remoteCredUpdate (serial asid : Nat) (name : BitVec 128) (off : Nat) (value : BitVec 64) (poison : Bool) (fmt sub : Nat) (last : Bool × Option (Nat × Nat × Nat))
  /-- PACKET_RETRANSMIT (R385). An unacknowledged fabric packet is sent again by the transport. -/
  | packetRetransmit (peer n : Nat)
  /-- PEER_UNREACHABLE (R385). A peer unacknowledged for 1 second is declared unreachable and its commands complete UNREACHABLE. -/
  | peerUnreachable (lost : Nat × List Nat)
  /-- EXPONENT_LIST_RESET (R386). A link CRC failure on a coded flit resets both exponent lists and the flit is resent uncoded. -/
  | exponentListReset (channel : Nat × Bool)
  /-- SWAP_PERIOD (R343). At the end of each 65,536-cycle swap period the Overman may swap an eligible team for a ready one. -/
  | swapPeriod (ended : Nat)
  /-- BIND (R338). A BIND record resolves ranges, writes initial state and starts each task of a team. -/
  | bind (cluster record seq node team : Nat) (tasks : BitVec 64 × List Nat)
  /-- SWAPOUT (R341). A SWAPOUT record swaps out an eligible team, keeping its state in place. -/
  | swapout (cluster record : Nat)
  /-- SWAPIN (R342). A SWAPIN record places a swapped team on contexts and restores its semaphores. -/
  | swapin (cluster : Nat) (records : List Nat) (home : Nat) (homeRecords : List Nat) (masks : List (BitVec 64))
  /-- BIND_ABORT (R337). An ABORT bind record stops a bound team. -/
  | bindAbort (cluster record : Nat)
  /-- LAUNCH_START (R329). A queued launch begins once its predecessor on the queue has completed. -/
  | launchStart (seq : Nat)
  /-- NODE_READY (R334). A node whose predecessors completed becomes ready and its teams may be bound. -/
  | nodeReady (seq node : Nat)
  /-- LAUNCH_COMPLETE (R347). Once all nodes finish and task records are performed, the launch completion record is written. -/
  | launchComplete (seq : Nat)
  /-- CAPRD (R388). Endpoint command returning DIECAP0–DIECAP3. -/
  | caprd (host : Nat) (msg : List (BitVec 8))
  /-- MEMWR (R388). Endpoint command writing data into an address space. -/
  | memwr (host : Nat) (msg : List (BitVec 8))
  /-- MEMRD (R388). Endpoint command reading bytes from an address space. -/
  | memrd (host : Nat) (msg : List (BitVec 8))
  /-- IMGLD (R111). Endpoint command loading an image, which the Assayer checks, relocates and seals. -/
  | imgld (host : Nat) (msg : List (BitVec 8))
  /-- IMGUL (R388). Endpoint command unloading an image not in use. -/
  | imgul (host : Nat) (msg : List (BitVec 8))
  /-- LIBLD (R228). Endpoint command loading a signed routine library. -/
  | libld (host : Nat) (msg : List (BitVec 8)) (version : Option Nat)
  /-- QSET (R327). Endpoint command writing a launch queue's configuration word. -/
  | qset (host : Nat) (msg : List (BitVec 8))
  /-- LAUNCH (R328). Endpoint command submitting a launch record to a queue. -/
  | launch (host : Nat) (msg : List (BitVec 8))
  /-- ABORT (R348). Endpoint command aborting a launch by sequence number. -/
  | abort (host : Nat) (msg : List (BitVec 8))
  /-- WATCH (R355). Endpoint command writing a task's watch register. -/
  | watch (host : Nat) (msg : List (BitVec 8))
  /-- MAPUPD (R291). Endpoint command updating page-table entries and dropping stale translations. -/
  | mapupd (host : Nat) (msg : List (BitVec 8))
  /-- OBJNEW (R295). Endpoint command allocating an object and issuing a claim name. -/
  | objnew (host : Nat) (msg : List (BitVec 8)) (base : Nat)
  /-- ASSET (R388). Endpoint command setting an address space's level-1 root. -/
  | asset (host : Nat) (msg : List (BitVec 8))
  /-- STATUS (R399). Headframe command returning the signed status and attestation body. -/
  | status (msg : List (BitVec 8))
  /-- PCAP (R402). Headframe command setting the power cap. -/
  | pcap (msg : List (BitVec 8))
  /-- RESET (R395). Headframe command that replies OK and then resets the module. -/
  | reset (msg : List (BitVec 8))
  /-- FWUPD (R395). Headframe command installing firmware, a management key or a host list. -/
  | fwupd (msg : List (BitVec 8))
  /-- ZEROISE (R397). Headframe command erasing sealing key, management key and host list, then resetting. -/
  | zeroise (msg : List (BitVec 8))
  /-- MODULE_RESET (R401). The module stops, verifies firmware, raises rails, self-tests, zeroes memories and reopens the endpoint. -/
  | moduleReset (overman fireboss : Bool) (failed : List (Nat × Nat))
  /-- SENSOR_SAMPLE (R396). Every 100 µs the Fireboss samples rails, clocks, temperatures and the package mesh. -/
  | sensorSample (rail clk tj inlet power : Nat) (broken : Bool)
  /-- CLOCK_THROTTLE (R402). When average power exceeds the cap or temperature is high, clocks step down or back up by 1/16. -/
  | clockThrottle
  /-- UNIT_REMOVAL (R403). The Overman removes a failing unit, clearing its present bit and failing its bound launches. -/
  | unitRemoval (kind unit : Nat)
  /-- FLUSH_INVAL_COMPLETION (R187). A FLUSH or INVAL completes its write-back or discard some time after it issued, and the context's next bundle holding a memory access, blocked on it, may issue. -/
  | flushInvalCompletion (ctx : Nat)
  /-- LINK_TRAINING (R386). A fabric link comes up and is trained, the ends advertise exponent coding, and each channel's exponent list starts as 0 to 255 in order. -/
  | linkTraining (link peer : Nat) (coded : Bool)
  /-- ENDPOINT_UNLISTED_OP (R388). A command-endpoint message with an OP that is not listed arrives and receives a BADPARAM reply. -/
  | endpointUnlistedOp (host : Nat) (msg : List (BitVec 8))
  /-- HEADFRAME_UNLISTED_OP (R395). A Headframe message with an OP that is not listed arrives and is answered with BADPARAM. -/
  | headframeUnlistedOp (msg : List (BitVec 8))
  deriving DecidableEq, Repr

end Sys2Proof
end

