-- ==== Sys2Proof/Machine/State.lean ====
section
/-! DEFINITION. The state of the module: every register, memory, queue and table that the spec gives it, as plain data, and
the state after module reset. -/

namespace Sys2Proof.Machine

/-- Why a step cannot go on. -/
inductive Fault where
  /-- Raised by a step whose issuing bundle holds a slot word that is no instruction. The Assayer lets no such word into a
  loop buffer (R114), so no run meets it. Safe. -/
  | illegalSlot (slot : Nat)
  deriving DecidableEq, Repr

/-- Why a step has no meaning here. -/
inductive Refusal where
  /-- Raised by an arm of `exec` whose instruction has not been given its meaning. Safe. -/
  | notModelled (mnemonic : String)
  deriving DecidableEq, Repr

/-- A byte-addressed memory: its bytes in canonical form (unlisted bytes are zero, R281, R401), and the poison mark of each
aligned 8-byte unit, by unit number (R288). -/
structure Mem where
  cells : List Host.Cell := []
  marks : FMap Bool := []
  deriving DecidableEq, Repr

/-- A scalar register (R11); its pending bit is held by the scoreboard. -/
structure SReg where
  val : Word := 0
  psn : Bool := false
  deriving DecidableEq, Repr

/-- A vector register, or a row of the transform buffer: bits, format tag, poison (R10, R17). -/
structure VReg where
  bits : Vec := 0
  tag  : Nat := 0
  psn  : Bool := false
  deriving DecidableEq, Repr

/-- An accumulator row and its poison mark (R165). -/
structure AccRow where
  bits : Vec := 0
  psn  : Bool := false
  deriving DecidableEq, Repr

/-- One entry of a stream's data FIFO (R167). -/
structure FifoEntry where
  bits : Vec
  psn  : Bool
  deriving DecidableEq, Repr

/-- An element that the stream engine has read, by the count of REMAIN at its turn: whether its index could be read, the index unless it
was poisoned, the value and its poison (R184, R312). -/
structure Fetched where
  at_  : Nat
  good : Bool := true
  idx  : Option Nat := none
  val  : Nat := 0
  psn  : Bool := false
  deriving DecidableEq, Repr

/-- A stream register (R21) with its FIFO; FILL is the FIFO's length. `part` holds the elements fetched of the entry that is being
built, with their poison (R184), and `seen` what has been read for that entry and later ones (R312). -/
structure Stream where
  remain : BitVec 32 := 0
  ixoff  : BitVec 48 := 0
  ixslot : BitVec 4 := 0
  dslot  : BitVec 4 := 0
  ixw    : BitVec 2 := 0
  esz    : BitVec 3 := 0
  state  : BitVec 2 := 0
  fifo   : List FifoEntry := []
  part   : List (Nat × Bool) := []
  seen   : List Fetched := []
  deriving DecidableEq, Repr

/-- A pending redirect (R131): its target, the delay bundles still to commit, whether the target pointer was bad (R132), and
the transfer's own bundle (R406). -/
structure Redirect where
  target : Word
  left   : Nat
  bad    : Bool
  src    : Word
  deriving DecidableEq, Repr

/-- Where a fixed-latency result lands (R35): each destination counts as one result. -/
inductive FlightDst where
  | s (n : Nat) (v : SReg)
  | v (n : Nat) (v : VReg)
  | p (n : Nat) (bits mask : Pred)
  | mp (n : Nat) (v : Word)
  | acc (bank row : Nat) (bits mask : Vec) (psn full : Bool)
  | x (row : Nat) (v : VReg)
  deriving DecidableEq, Repr

/-- A fixed-latency result in flight (R32): the schedule position at which it lands, or for a parked result its remaining
count (R35), and the order in which the core issued it. -/
structure Flight where
  due : Nat
  seq : Nat
  dst : FlightDst
  deriving DecidableEq, Repr

/-- The destination of a scoreboarded result (R12). -/
inductive SbDst where
  | s (n : Nat)
  | v (n : Nat)
  | pair (n : Nat)
  deriving DecidableEq, Repr

/-- A page of the runs of an extent slot, a name or a command, as the translator resolved it (R292): its virtual page number, its
frame, its CLASS, OWNER, MSA and W, and the address of its leaf entry. A run is a maximal sequence of such pages. -/
structure Page where
  vp    : Nat
  frame : Nat
  at_   : Nat := 0
  cls   : Nat := 0
  owner : Nat := 0
  msa   : Bool := false
  w     : Bool := true
  deriving DecidableEq, Repr

/-- What a scoreboarded result waits for, and what lands (R34). -/
inductive Payload where
  | scalar (v : SReg)
  | vector (v : VReg)
  | pair (lo hi : Word) (psn : Bool)
  | update (id : Nat)
  | token (core id : Nat)
  | late (id : Nat)
  | sget (sem upto : Nat)
  | probe (pages : List Page)
  | nres (slot : Nat) (name : BitVec 128)
  | nstat (name : BitVec 128)
  | nkill (name : BitVec 128) (removed : Bool)
  | enq (queue : Nat) (record : List Byte) (status upto : Nat)
  deriving DecidableEq, Repr

/-- One scoreboard entry: its destination is pending until it lands (R12). -/
structure SbEntry where
  dst : SbDst
  what : Payload
  deriving DecidableEq, Repr

/-- An aligned 8-byte unit of an access: by virtual and by physical number, with its page's attributes. -/
structure URef where
  vu  : Nat
  pu  : Nat
  sc  : Bool
  msa : Bool
  deriving DecidableEq, Repr

/-- What a load makes of the bytes that it reads (R171): a scalar, a vector under a tag, or the element of a tensor (R180): its format, its
place in its packet where it has one, whether its sign is turned, and the bytes whose poison counts. -/
inductive LoadForm where
  | scalar
  | vector (tag : Nat)
  | elem (fmt : Nat) (inPacket : Option Nat) (neg : Bool) (ranges : List (Nat × Nat))
  deriving DecidableEq, Repr

/-- What a core access does at its point in T (R303): a load, with whether it is speculative; a store; a scatter's element stores, each
by its address; an NCAS; or an atomic that returns a value, which stands among the updates. -/
inductive LateOp where
  | load (form : LoadForm) (spec : Bool)
  | store (bs : List Byte) (psn : Bool)
  | scatter (els : List (Nat × List Byte)) (psn : Bool)
  | ncas (cmpLo cmpHi newLo newHi : Word) (psn : Bool)
  | atomic
  deriving DecidableEq, Repr

/-- A core access that has been made and whose point in T has not come (R303): its number, its units and its bytes. `old` says that
it misses an engine's write that does not have to be visible to it (R310). (DEDUCED: log entry 14) -/
structure Late where
  id   : Nat
  refs : List URef
  va   : Nat := 0
  n    : Nat := 0
  op   : LateOp
  old  : Bool := false
  deriving DecidableEq, Repr

/-- A half of the loop buffer (R265). -/
inductive Half where
  | empty
  | expanding (seg : Nat) (target : Bool)
  | resident (seg : Nat) (last : Bool) (next : Word) (bundles : List (List Word))
  deriving DecidableEq, Repr

/-- A bank-lock window (R104): its mask, the bundles left in it, the bundles left in its chain, and the steps at which the chain and the
window itself opened. -/
structure Window where
  mask  : BitVec 16
  left  : Nat
  chain : Nat
  born  : Nat := 0
  opened : Nat := 0
  deriving DecidableEq, Repr

/-- A Y-slot signal that waits for earlier deferred updates and flushes, named by their numbers (R304); `born` is the model's
number of the moment at which it was asked for. -/
structure PendSig where
  born  : Nat
  sem   : Nat
  inc   : Int
  waits : List Nat
  deriving DecidableEq, Repr

/-- A FLUSH or INVAL that has not completed (R187): the parts of its range on software-coherent pages, each as its first
physical unit and the number of units. -/
structure FlushOp where
  id    : Nat
  inval : Bool
  parts : List (Nat × Nat)
  deriving DecidableEq, Repr

/-- An engine, matrix or Lode command that a task issued, for its completion record (R346). -/
structure CmdRec where
  id     : Nat
  slot   : Nat
  op     : Nat
  cycle  : Nat
  status : Option Nat
  deriving DecidableEq, Repr

/-- What the task is: a number of the model's own (0: no task), and the coordinates and rights of R26, R330, R331 and R337 that its context works under. -/
structure TaskInfo where
  uid     : Nat := 0
  seq     : Nat := 0
  node    : Nat := 0
  team    : Nat := 0
  task    : Nat := 0
  stage   : Nat := 0
  phase   : Nat := 0
  key     : Nat := 0
  asid    : Nat := 0
  image   : Nat := 0
  group   : Nat := 0
  det     : Bool := false
  fuse    : Bool := false
  gsem    : Bool := false
  ctest   : Bool := false
  record  : Bool := false
  replay  : Bool := false
  deriving DecidableEq, Repr

/-- The architectural state of a task (R10), with the counters and pins that go with it across a swap (R292, R341). `eBad` are the
extent slots that an error in the extent cache has poisoned (R288). (DESIGN CHOICE: log entry 6) -/
structure Arch where
  s   : FMap SReg := []
  v   : FMap VReg := []
  p   : FMap Pred := []
  mp  : FMap Word := []
  q   : FMap Stream := []
  e   : FMap (BitVec 128) := []
  eBad : List Nat := []
  csw : Word := 0
  taskid : Word := 0
  trappc : Word := 0
  trapcsw : Word := 0
  trapcause : Word := 0
  trapinfo : Word := 0
  trapvec : Word := 0
  cycle : Word := 0
  lib : Word := 0
  flight : List Flight := []
  parked : List Flight := []
  xbuf : FMap VReg := []
  xstage : FMap VReg := []
  pos : Word := 0
  redirect : Option Redirect := none
  savedRedirect : Option Redirect := none
  at_ : Nat := 0
  savedAt : Nat := 0
  savedCycle : Word := 0
  savedUnissued : Bool := false
  reenter : Option Nat := none
  exitReq : Option Nat := none
  savedExit : Option Nat := none
  names : FMap (BitVec 128) := []
  watch : FMap (BitVec 128) := []
  info : TaskInfo := {}
  accs : FMap (FMap AccRow) := []
  pins : List Nat := []
  holds : List Nat := []
  wrote : List (Nat × Nat) := []
  runs : List (List Page) := []
  ePages : FMap (List Page) := []
  migrating : List Nat := []
  migrated : List Nat := []
  fetches : Nat := 0
  poisons : Nat := 0
  cmds : List CmdRec := []
  ordN : Nat := 0
  logN : Nat := 0
  deriving DecidableEq, Repr

/-- How a task that issues nothing more ended (R257, R359). -/
structure Ending where
  status   : Nat
  exitCode : Nat
  faultPc  : Word
  deriving DecidableEq, Repr

/-- The bundle that a context is in the middle of (R86): its latched words, the slot to examine next, and what was read at
its issue. `fresh` says that it is the first bundle issued from its segment (R267), `since` is how many scoreboard entries stood at its
issue, and `gaps` are the device's choices for its slots (R9): slot j, before which other agents' accesses come; 8 + j, where the access of
slot j has a later point in T; and 16 + j, where it misses an engine's write that it may miss. -/
structure Cur where
  open_  : Bool := false
  ctx    : Nat := 0
  slot   : Nat := 0
  words  : List Word := []
  pc     : Word := 0
  t      : Nat := 0
  clock  : Word := 0
  csw    : Word := 0
  pend   : List Nat := []
  since  : Nat := 0
  fresh  : Bool := false
  gaps   : List Nat := []
  deriving DecidableEq, Repr

/-- A hardware context: the task bound to it and the task's standing on its core. `blocked` says that its due bundle has blocked,
`aside` is a bundle that has issued and is between two of its slots, `late` holds the core accesses whose points in T are still to
come, in program order (R303), and `watchNew` holds the watch registers that take effect at the next bundle boundary (R355). (DESIGN
CHOICE: log entry 6) -/
structure Ctx where
  bound   : Bool := false
  arch    : Arch := {}
  ending  : Option Ending := none
  sb      : List SbEntry := []
  halfA   : Half := .empty
  halfB   : Half := .empty
  current : Bool := false
  waitMet : Bool := false
  blocked : Bool := false
  pause   : Nat := 0
  window  : Option Window := none
  yielding : Option (List Nat) := none
  signals : List PendSig := []
  flushes : List FlushOp := []
  eretReq : Bool := false
  unwatched : Option Nat := none
  aside   : Option Cur := none
  late    : List Late := []
  watchNew : FMap (BitVec 128) := []
  deriving DecidableEq, Repr

/-- A token that a command consumes (R232): the value sampled, or the register whose result it waits for. -/
inductive TokVal where
  | have_ (w : Word) (psn : Bool)
  | await (reg : Nat)
  deriving DecidableEq, Repr

/-- A tuple of CONTRACT's destination whose value has been formed and not yet written or compared: its representative, none for a
structurally zero tuple, the tuple, whether it is the canonical one, the value and its poison (R366, R367). -/
structure Formed where
  k   : Option Nat
  idx : List Nat
  canon : Bool
  val : Nat
  psn : Bool
  deriving DecidableEq, Repr

/-- An engine, matrix or Lode command from issue to its token (R199, R213, R231). `lacks` says that the loaded library did not contain
an MCALL's routine when it issued (R208); `point` is the place of CONTRACT in its pass (R365), `dst` is the address of element 0 of a reduction or a scatter, `chunkNo` the chunk that a
gather or a scatter is in, and `skipped` counts the elements that it left out (R248). -/
structure Cmd where
  id      : Nat
  ctx     : Nat
  slot    : Nat
  op      : Nat
  d       : Nat
  toks    : List TokVal
  fmt     : Nat := 0
  sub     : Nat := 0
  scope   : Nat := 0
  sigen   : Bool := false
  bytes   : Bool := false
  sem     : Nat := 0
  quad    : List Word := []
  mp      : List Word := []
  routine : Nat := 0
  lacks   : Bool := false
  prio    : Nat := 0
  banks   : List Nat := []
  born    : Nat := 0
  block   : List Byte := []
  blockPsn : Bool := false
  started : Bool := false
  running : Bool := false
  extents : FMap (BitVec 128) := []
  pages   : FMap (List Page) := []
  levels  : FMap Nat := []
  dst     : Nat := 0
  chunkNo : Nat := 0
  skipped : Nat := 0
  info    : TaskInfo := {}
  core    : Nat := 0
  src     : FMap (Option (Word × Bool)) := []
  todo    : List Nat := []
  whole   : Bool := false
  phase   : Nat := 0
  progress : Nat := 0
  out     : List Byte := []
  outPsn  : List Bool := []
  psn     : Bool := false
  flags   : Nat := 0
  status  : Nat := 0
  result  : Nat := 0
  written : Nat := 0
  finished : Bool := false
  remote  : Nat := 0
  ordLo   : Nat := 0
  ordHi   : Nat := 0
  logLo   : Nat := 0
  lag     : List (Nat × Nat) := []
  values  : FMap (BitVec 32) := []
  conds   : Nat := 0
  sums    : List (Nat × Bool) := []
  point   : Nat := 0
  formed  : List Formed := []
  deriving DecidableEq, Repr

/-- An 8-byte unit of a software-coherent page in a core's L1 (R283): whether the L1 holds it, its value, its mark and
whether it is dirty. -/
structure L1Unit where
  here  : Bool := false
  val   : Word := 0
  psn   : Bool := false
  dirty : Bool := false
  deriving DecidableEq, Repr

/-- An engine request that waits on a locked scratchpad bank (R280): the command and the unit, and the step at which a chain that it
waited on ended. -/
structure Waiting where
  cmd  : Nat
  unit : Nat
  freed : Option Nat := none
  deriving DecidableEq, Repr

/-- A core: its memories, its engines' queues and the standing of its issue pipeline. `starved` holds the time at which the wait count of
a bank last restarted (R279, R280). -/
structure Core where
  spm    : Mem := {}
  acc    : FMap AccRow := []
  accBy  : FMap Nat := []
  wb     : Mem := {}
  cq     : List Cmd := []
  mq     : List Cmd := []
  lq     : List Cmd := []
  mqstat : List Cmd := []
  frozen : Nat := 0
  pipeFrozen : Bool := false
  holder : Option Nat := none
  streak : Nat := 0
  starved : FMap Nat := []
  waits  : List Waiting := []
  l1     : FMap L1Unit := []
  lines  : List (Nat × List Nat) := []
  deriving DecidableEq, Repr

/-- A semaphore: its balance and its saturation mark (R252). -/
structure Sem where
  bal  : BitVec 32 := 0
  mark : Bool := false
  deriving DecidableEq, Repr

/-- A bind record of a cluster's slot table (R337), with the contexts of its tasks in order. The rest is the hardware's: the tasks that
have not started, the contexts of those not reported yet, the state that a swapped team left in place (R341) and the moment at which it
became ready (R343), whether a done team's record no longer stands because its group has left the cluster, the eight argument words that
the record's ARGS names (R334, R338), and what R340 asks of the last swap period: `since` is the team's issue count at the last period's end, where its conditions then held. -/
structure BindRec where
  op      : Nat := 0
  state   : Nat := 0
  info    : TaskInfo := {}
  tasks   : Nat := 0
  mask    : BitVec 64 := 0
  nodeRec : Nat := 0
  spill   : Nat := 0
  ptRoot  : Nat := 0
  args    : Nat := 0
  argWords : List Word := []
  ctxs    : List Nat := []
  toStart : List Nat := []
  left    : List Nat := []
  failed  : Bool := false
  saved   : FMap Ctx := []
  sems    : FMap Sem := []
  readyAt : Option Nat := none
  gone    : Bool := false
  since   : Option Nat := none
  eligible : Bool := false
  deriving DecidableEq, Repr

/-- A cluster: its store, semaphores, name cache and slot table. `keptFor` is the node for whose ready team a SWAPOUT has freed it (R343). -/
structure Cluster where
  store : Mem := {}
  sems  : FMap Sem := []
  names : List (BitVec 128) := []
  slots : FMap BindRec := []
  lastAsid : Option Nat := none
  keptFor : Option (Nat × Nat) := none
  deriving DecidableEq, Repr

/-- Where an update stands: on its way, held in the ordered-atomic buffer, refused by it (R321), in an update-only line (R318), or
behind the merge of that line (R319). -/
inductive UpdStatus where
  | transit | waiting | refused | line | behind
  deriving DecidableEq, Repr

/-- The read-modify-write operations (R189, R249). -/
inductive Rmw where
  | add | fadd | mins | maxs | minn | maxn | fmin | fmax | fminp | fmaxp | and_ | or_ | xor_ | xchg | cas
  deriving DecidableEq, Repr

/-- A deferred or ordered update, or an atomic that waits for one (R305, R320): `group` numbers its deferred-update entry
(R316), `n` its place in the key (R190), `logN` its issue number (R324); `owner` is the issuing context, `cmd` the issuing
engine command; `pa` is the physical address of its location; `merged` says that the merge of an update-only line has sent it, and `before` names the
agents whose accesses made that merge and begin after it (R319): a context (0), a command (1), the stream engine of a context (2), the
fabric or the device (3). `sender` is the serial of the module that sent an element of a remote CRED (R392), and `hi` the second aligned 8-byte unit of an
element that crosses into one. -/
structure Update where
  id     : Nat
  owner  : Option Nat := none
  cmd    : Option (Nat × Nat) := none
  group  : Nat := 0
  core   : Nat := 0
  pa     : Nat := 0
  hi     : Option Nat := none
  va     : Nat := 0
  op     : Rmw := .add
  fmt    : Nat := 0
  val    : Nat := 0
  cmp    : Nat := 0
  psn    : Bool := false
  info   : TaskInfo := {}
  n      : Option Nat := none
  logN   : Nat := 0
  ret    : Bool := false
  status : UpdStatus := .transit
  merged : Bool := false
  before : List (Nat × Nat) := []
  sender : Option Nat := none
  born   : Nat := 0
  deriving DecidableEq, Repr

/-- An open sequence of ordered updates: of one node, in one phase, to one line (R320). -/
structure OpenSeq where
  seq   : Nat
  node  : Nat
  phase : Nat
  line  : Nat
  det   : Bool
  deriving DecidableEq, Repr

/-- A write of an engine command that some agents may still miss (R301, R310): the unit and what it held before, the command's
context, its SCOPE and its number, whether its token has landed, and the agents that have read the write or a later one. (DEDUCED:
log entries 15 and 16) -/
structure Hidden where
  unit   : Nat
  old    : Word
  psn    : Bool
  ctx    : Nat
  scope  : Nat
  cmd    : Nat
  landed : Bool := false
  seen   : List (Nat × Nat) := []
  deriving DecidableEq, Repr

/-- An order-log entry (R324). -/
structure LogEntry where
  va   : Nat
  n    : Nat
  team : Nat
  task : Nat
  kind : Nat
  node : Nat
  deriving DecidableEq, Repr

/-- The report of a task: its status, its exit code, and the other bytes of its completion record (R345, R346). -/
structure TaskReport where
  status : Nat
  exitCode : Nat
  rest   : List Byte
  deriving DecidableEq, Repr

/-- A node of an accepted launch (R331, R334). `mayOut` and `mayIn` say that the Overman has not yet swapped a team of the node out, or in,
at the end of the last swap period, and `overdue` counts the periods that a ready team has waited in while another was eligible (R343). -/
structure Node where
  entry   : Nat := 0
  gx      : Nat := 1
  gy      : Nat := 1
  gz      : Nat := 1
  tasks   : Nat := 1
  stages  : Nat := 1
  det     : Bool := false
  fuse    : Bool := false
  gsem    : Bool := false
  enables : Nat := 0
  rmode   : Nat := 0
  argsel  : Nat := 0
  preds   : List Nat := []
  pteams  : Nat := 0
  carryout : Nat := 0
  trec    : Nat := 0
  args    : List Word := []
  ranges  : List (List Byte) := []
  ready   : Bool := false
  complete : Bool := false
  cancelled : Bool := false
  ran     : Bool := false
  boundTeams : List Nat := []
  reports : FMap TaskReport := []
  retired : List Nat := []
  gsems   : FMap Sem := []
  mayOut  : Bool := false
  mayIn   : Bool := false
  overdue : Nat := 0
  deriving DecidableEq, Repr

/-- An accepted launch (R328, R330). `askers` are the hosts, with their TAGs, whose ABORT is to be answered once every task has been
reported (R348, R388). -/
structure Launch where
  seq     : Nat
  queue   : Nat
  asid    : Nat
  prio    : Nat := 0
  host    : Option Nat := none
  tag     : Nat := 0
  record  : Bool := false
  replay  : Bool := false
  ctest   : Bool := false
  cplmsg  : Bool := false
  image   : Nat := 0
  cpl     : Nat := 0
  logAddr : Nat := 0
  logLen  : Nat := 0
  dataVa  : Nat := 0
  carry   : List Word := []
  nodes   : FMap Node := []
  nnodes  : Nat := 0
  started : Bool := false
  done    : Bool := false
  aborted : Bool := false
  askers  : List (Nat × Nat) := []
  preempted : Bool := false
  lost    : Bool := false
  overflow : Bool := false
  logUsed : Nat := 0
  diverge : Nat := 0
  log     : List LogEntry := []
  skipped : List Nat := []
  dataFail : Option Nat := none
  deriving DecidableEq, Repr

/-- A loaded, sealed image (R109, R114); `segs` lists its segments, each by address with its bundle count. -/
structure Image where
  asid   : Nat
  base   : Nat
  entry  : Word
  traptab : Word
  codesz : Nat
  datasz : Nat
  libdecl : Nat
  pages  : List Nat
  segs   : List (Nat × Nat) := []
  deriving DecidableEq, Repr

/-- An entry of the name table (R296): the object's storage as a range of an address space, its length and its runs, the rights by
module serial and address space (1 read, 3 read and write), the binding count, the remote holders, and, once the name is dead, who
has still to drop it (a cluster's name cache by number, a remote module as 32 + its serial) and the remote module that asked.
(DEDUCED: log entry 75) -/
structure NameEntry where
  base   : Nat
  len    : Nat
  asid   : Nat := 0
  pages  : List Page := []
  rights : List (Nat × Nat × Nat) := []
  count  : Nat := 0
  holders : List Nat := []
  live   : Bool := true
  shooting : List Nat := []
  killer : Option Nat := none
  deriving DecidableEq, Repr

/-- A fabric link: whether it is up, the serial of the module at its other end, and whether both ends advertised exponent coding
(R386). -/
structure Link where
  up    : Bool := false
  peer  : Nat := 0
  coded : Bool := false
  deriving DecidableEq, Repr

/-- A module at the other end of the fabric: whether it can be reached (R385), and this end's copies of the exponent lists of the
two channels, as the exponents moved to the front in the order in which they stand there (R386). `sendFlit` holds the coded elements
of the last flit sent, each by its exponent with its uncoded message, `sendDone` says that this flit is over, and `recvFlit` holds
the exponents of the flit that is arriving. (DESIGN CHOICE: log entry 67) -/
structure Peer where
  reachable : Bool := true
  sendList  : List Nat := []
  recvList  : List Nat := []
  sendFlit  : List (Nat × List Byte) := []
  sendDone  : Bool := false
  recvFlit  : List Nat := []
  deriving DecidableEq, Repr

/-- A message that leaves the module: to a host, to the management master or to another module. -/
structure OutMsg where
  kind : Nat
  dest : Nat
  body : List Byte
  deriving DecidableEq, Repr

/-- The module's fuses and identity (R4, R5, R6). (DESIGN CHOICE: log entry 8) -/
structure Part where
  serial  : Nat := 1
  shipped : FMap Nat := []
  removed : FMap Nat := []
  deriving DecidableEq, Repr

/-- What the Fireboss holds (spec/19): the STATE of R399 (`stage`), the highest alarm level since the last reset, whether level 3
has erased its keys, the power cap in force, the last samples (R396, R399), whether a temperature condition of level 1 holds, the
clocks in sixteenths of their setting (R402), the non-volatile log (the timebase and the conditions met), the private identity key,
gone once it is erased, and the public one as a point (R398, DESIGN CHOICE: log entry 99), the sealing and management keys, the host
list, the firmware images by their FWUPD type, the contents that await the next reset, and the last accepted credential counter
(R400). (DESIGN CHOICE: log entry 9) -/
structure Fireboss where
  stage   : Nat := 2
  alarm   : Nat := 0
  erased  : Bool := false
  cap     : Nat := 6400
  power   : Nat := 0
  inlet   : Nat := 0
  tjmax   : Nat := 0
  hot     : Bool := false
  step    : Nat := 16
  nvlog   : List (Nat × Nat) := []
  idKey   : Option Nat := some 1
  idPub   : Nat × Nat :=
    (0xaa87ca22be8b05378eb1c71ef320ad746e1d3b628ba79b9859f741e082542a385502f25dbf55296c3a545e3872760ab7,
     0x3617de4a96262c6f5d9e98bf9292dc29f8f41dbd289a147ce9da3113b5f0b8c00a60b1ce1d7e819d7a431d7c90ea0e5f)
  sealKey : Option Nat := some 0
  mgmtKey : Option (List Byte) := none
  hosts   : List (List Byte) := []
  firmware : FMap (List Byte) := []
  staged  : FMap (Option (List Byte)) := []
  counter : Nat := 0
  deriving DecidableEq, Repr

/-- What the Overman has counted of a unit's errors (R289, R403): the timebase of each correctable one within the last hour, and whether the
unit is due to be removed. -/
structure UnitErrors where
  recent : List Nat := []
  due    : Bool := false
  deriving DecidableEq, Repr

/-- The module. `spoiled` lists the clean L1 copies of coherent units that an error has poisoned, by core and unit (R288), `turns` holds
for each priority the number after the queue served last (R344), `region` the first frame and the number of frames of HBM that are
reserved for the translator (R291, DESIGN CHOICE: log entry 96), and `period` the time at which the last swap period ended (R343).
`hidden`, `out`, `cur`, `script`, `steps`, `draws`, `time` and `nextId` are the model's own: the engine writes that some agents may still
miss (DEDUCED: log entries 15 and 16), the messages sent (DESIGN CHOICE: log entry 5), the bundle in the middle of its slots, the order of
outside events (DESIGN CHOICE: log entry 1), and counters (DESIGN CHOICE: log entry 7). -/
structure State where
  ctxs     : FMap Ctx := []
  cores    : FMap Core := []
  clusters : FMap Cluster := []
  mem      : Mem := {}
  updates  : List Update := []
  hidden   : List Hidden := []
  spoiled  : List (Nat × Nat) := []
  openSeqs : List OpenSeq := []
  launches : FMap Launch := []
  queues   : FMap Word := []
  nextSeq  : Nat := 1
  turns    : FMap Nat := []
  period   : Nat := 0
  images   : List Image := []
  roots    : FMap Nat := []
  region   : Nat × Nat := (16, 16)
  libver   : Nat := 0
  names    : List (BitVec 128 × NameEntry) := []
  foreign  : List (BitVec 128) := []
  nameCtr  : Nat := 1
  nameHigh : Nat := 1
  errors   : FMap UnitErrors := []
  part     : Part := {}
  boss     : Fireboss := {}
  links    : FMap Link := []
  peers    : FMap Peer := []
  out      : List OutMsg := []
  cur      : Cur := {}
  script   : List Instr := []
  steps    : Nat := 0
  draws    : Nat := 0
  time     : Nat := 0
  timebase : Nat := 0
  nextId   : Nat := 0
  deriving DecidableEq, Repr

/-- The module right after reset (R401): every memory zero, every context idle, no launch, no image and no library. (DESIGN CHOICE:
log entries 6, 8, 9 and 109; DEDUCED: log entry 10) -/
def State.reset : State := {}

end Sys2Proof.Machine
end

