-- ==== Sys2Proof/Machine/Memory.lean ====
section
/-! DEFINITION. Reading and writing one memory: bytes, words in little-endian order, and the poison mark of each aligned
8-byte unit (spec/01 R16, spec/07 R171, R172, spec/11 R288). -/

namespace Sys2Proof.Machine

/-- One byte. A byte that nothing has written is zero: every memory is zeroed at reset (R281, R401). -/
def Mem.byte (m : Mem) (a : Nat) : Byte := look 0 m.cells a

/-- One byte written; the mark is left as it is. -/
def Mem.setByte (m : Mem) (a : Nat) (b : Byte) : Mem := { m with cells := put 0 m.cells a b }

/-- The poison mark of 8-byte unit `u`. -/
def Mem.mark (m : Mem) (u : Nat) : Bool := look false m.marks u

def Mem.setMark (m : Mem) (u : Nat) (b : Bool) : Mem := { m with marks := put false m.marks u b }

/-- `n` bytes from `a` up. -/
def Mem.bytes (m : Mem) (a n : Nat) : List Byte := (List.range n).map fun j => m.byte (a + j)

/-- The number held in `n` bytes at `a`. -/
def Mem.nat (m : Mem) (a n : Nat) : Nat := leNat (m.bytes a n)

/-- The 8-byte units that `n` bytes at `a` touch. -/
def unitsOf (a n : Nat) : List Nat :=
  if n = 0 then [] else (List.range ((a + n - 1) / 8 - a / 8 + 1)).map fun j => a / 8 + j

/-- Whether any of the units is marked (R171). -/
def Mem.poisoned (m : Mem) (a n : Nat) : Bool := (unitsOf a n).any m.mark

/-- Bytes written from `a` up, marks left as they are. -/
def Mem.putBytes (m : Mem) (a : Nat) : List Byte → Mem
  | [] => m
  | b :: r => (m.setByte a b).putBytes (a + 1) r

/-- The marks of the units that a store of `n` bytes at `a` covers whole are cleared (R172). -/
def Mem.clearWhole (m : Mem) (a n : Nat) : Mem :=
  (unitsOf a n).foldl (fun m u => if a ≤ 8 * u ∧ 8 * u + 8 ≤ a + n then m.setMark u false else m) m

/-- A store of unpoisoned data (R172). -/
def Mem.store (m : Mem) (a : Nat) (bs : List Byte) : Mem := (m.putBytes a bs).clearWhole a bs.length

/-- A unit poisoned: its mark set and its value bits zero (R172). -/
def Mem.poisonUnit (m : Mem) (u : Nat) : Mem := (m.putBytes (8 * u) (leBytes 8 0)).setMark u true

/-- Every unit that the access would have written is poisoned (R172). -/
def Mem.poison (m : Mem) (a n : Nat) : Mem := (unitsOf a n).foldl Mem.poisonUnit m

/-- A store of data that may be poisoned (R172). -/
def Mem.storePsn (m : Mem) (a : Nat) (bs : List Byte) (psn : Bool) : Mem :=
  if psn then m.poison a bs.length else m.store a bs

/-- A range of zeros, its marks cleared (R281). -/
def Mem.zeroed (m : Mem) (a n : Nat) : Mem :=
  { cells := m.cells.filter fun c => c.1 < a || a + n ≤ c.1,
    marks := m.marks.filter fun c => 8 * c.1 < a || a + n ≤ 8 * c.1 }

/-- The canonical form of a memory: equal memories are equal data. -/
def Mem.wf (m : Mem) : Bool := canonical 0 m.cells && canonical false m.marks

end Sys2Proof.Machine
end

