-- ==== Sys2Proof/Machine/Flags.lean ====
section
/-! DEFINITION. CSW field by field, the sticky flags and the trap enables (spec/01 R24, R25, spec/02 R48). -/

namespace Sys2Proof.Machine

/-- The flags as FLAGS of R202 codes them. -/
abbrev flInv : Nat := 1
abbrev flDz : Nat := 2
abbrev flOvf : Nat := 4
abbrev flUnf : Nat := 8
abbrev flInx : Nat := 16

/-- The bits of CSW (R24). -/
abbrev cswInh : Nat := 3
abbrev cswDet : Nat := 4
abbrev cswFdz : Nat := 9
abbrev cswFsymv : Nat := 13
abbrev cswFlock : Nat := 14
abbrev cswFpsn : Nat := 15
abbrev cswEnDz : Nat := 17
abbrev cswEnSymv : Nat := 21
abbrev cswEnPsn : Nat := 23

/-- The floating-point enables, in the order of FLAGS. -/
def cswEnables (csw : Word) : Nat := bits csw 16 5

/-- The default rounding mode. -/
def cswRmode (csw : Word) : Nat := bits csw 24 4

/-- CSW with bit `i` set. -/
def cswSet (csw : Word) (i : Nat) : Word := csw ||| BitVec.ofNat 64 (2 ^ i)

/-- CSW with floating-point flags ORed in (R48). -/
def cswRaise (csw : Word) (fl : Nat) : Word := csw ||| BitVec.ofNat 64 (fl % 32 * 256)

/-- What CSWR leaves in CSW: RMODE where its code is 0 to 4, the enables but EN_LOCK, and the sticky flags (R24, R25). -/
def cswWrite (old new : Word) : Word :=
  let mode := if bits new 24 4 ≤ 4 then bits new 24 4 else bits old 24 4
  let w := setBits (setBits old 8 8 (bits new 8 8)) 16 6 (bits new 16 6)
  setBits (setBits w 23 1 (bits new 23 1)) 24 4 mode

end Sys2Proof.Machine
end

