-- ==== Sys2Proof/Machine/Float.lean ====
section
/-! DEFINITION. Floating-point values and their one rounding (spec/02 R42 to R51, spec/01 R39). A number is held exactly, as
an integer times a power of two; every operation computes exactly and rounds once. -/

namespace Sys2Proof.Machine

/-- A binary format: exponent bits, fraction bits, bias, whether it has infinities, and how its NaNs are coded: 0 as IEEE,
1 as E4M3 (the one code of all ones), 2 none (R42, R49 to R51). -/
structure FpFmt where
  eb   : Nat
  fb   : Nat
  bias : Nat
  nans : Nat
  deriving DecidableEq, Repr

/-- FP4 E2M1 (R51). -/
def fpE2m1 : FpFmt := { eb := 2, fb := 1, bias := 1, nans := 2 }

/-- The binary format of a format code (R42, R49, R50, R63). -/
def fpOf (code : Nat) : FpFmt :=
  match code with
  | 0x01 => { eb := 11, fb := 52, bias := 1023, nans := 0 }
  | 0x02 => { eb := 8, fb := 23, bias := 127, nans := 0 }
  | 0x03 => { eb := 8, fb := 7, bias := 127, nans := 0 }
  | 0x04 => { eb := 5, fb := 10, bias := 15, nans := 0 }
  | 0x05 => { eb := 4, fb := 3, bias := 7, nans := 1 }
  | _ => { eb := 5, fb := 2, bias := 15, nans := 0 }

def FpFmt.width (f : FpFmt) : Nat := f.eb + f.fb + 1

/-- A decoded operand or an exact result. `fin neg m e sticky` is ±(m + d)·2^e with d = 0, or 0 < d < 1 when sticky. -/
inductive Fp where
  | nan (signalling : Bool) (pattern : Nat)
  | inf (neg : Bool)
  | zero (neg : Bool)
  | fin (neg : Bool) (m : Nat) (e : Int) (sticky : Bool)
  deriving DecidableEq, Repr

def Fp.isNan : Fp → Bool
  | .nan _ _ => true
  | _ => false

def Fp.isSnan : Fp → Bool
  | .nan g _ => g
  | _ => false

/-- A number that may be zero, with the sign that a zero takes. -/
def fpMake (neg : Bool) (m : Nat) (e : Int) (sticky : Bool) : Fp :=
  if m = 0 && !sticky then .zero neg else .fin neg m e sticky

/-- The value of a pattern of a format. -/
def fpDecode (f : FpFmt) (x : Nat) : Fp :=
  let neg := x.testBit (f.eb + f.fb)
  let ex := x / 2 ^ f.fb % 2 ^ f.eb
  let fr := x % 2 ^ f.fb
  let top := ex = 2 ^ f.eb - 1
  if f.nans = 0 ∧ top then
    if fr = 0 then .inf neg else .nan (!fr.testBit (f.fb - 1)) (x % 2 ^ f.width)
  else if f.nans = 1 ∧ top ∧ fr = 2 ^ f.fb - 1 then .nan false (x % 2 ^ f.width)
  else if ex = 0 then fpMake neg fr (1 - (f.bias : Int) - f.fb) false
  else .fin neg (2 ^ f.fb + fr) ((ex : Int) - f.bias - f.fb) false

/-- The sign bit in place. -/
def FpFmt.signBits (f : FpFmt) (neg : Bool) : Nat := if neg then 2 ^ (f.eb + f.fb) else 0

/-- qnan(f): the canonical positive quiet NaN (R44). -/
def FpFmt.qnan (f : FpFmt) : Nat :=
  if f.nans = 1 then 2 ^ (f.eb + f.fb) - 1 else (2 ^ f.eb - 1) * 2 ^ f.fb + 2 ^ (f.fb - 1)

/-- quiet(x): the quiet bit set, the other bits unchanged (R39). E4M3's NaNs are quiet as they stand (R49). -/
def FpFmt.quiet (f : FpFmt) (x : Nat) : Nat :=
  if f.nans = 0 && !x.testBit (f.fb - 1) then x + 2 ^ (f.fb - 1) else x

def FpFmt.infBits (f : FpFmt) (neg : Bool) : Nat := f.signBits neg + (2 ^ f.eb - 1) * 2 ^ f.fb

/-- The largest finite magnitude, as exponent field and fraction together. -/
def FpFmt.maxMag (f : FpFmt) : Nat :=
  match f.nans with
  | 0 => (2 ^ f.eb - 1) * 2 ^ f.fb - 1
  | 1 => 2 ^ (f.eb + f.fb) - 2
  | _ => 2 ^ (f.eb + f.fb) - 1

/-- Rounding modes (R46), with the random bits and their width for mode 5 (R47). -/
structure Rnd where
  mode : Nat := 0
  rb   : Nat := 0
  w    : Nat := 0
  deriving DecidableEq, Repr

def rne : Rnd := {}

/-- Whether a magnitude of `kept` units and a discarded part of `rem` / 2^shift, with more below when sticky, rounds up. -/
def roundsUp (r : Rnd) (neg : Bool) (kept rem shift : Nat) (sticky : Bool) : Bool :=
  let inexact := rem != 0 || sticky
  let half := 2 ^ (shift - 1)
  match r.mode with
  | 0 => decide (half < rem) || (rem == half && (sticky || kept % 2 == 1))
  | 1 => false
  | 2 => inexact && !neg
  | 3 => inexact && neg
  | 4 => decide (half ≤ rem)
  | _ => decide (2 ^ r.w ≤ rem * 2 ^ r.w / 2 ^ shift + r.rb)

/-- A magnitude m·2^e in units of 2^q: the rounded count and whether it is inexact. -/
def roundAt (r : Rnd) (neg : Bool) (m : Nat) (e q : Int) (sticky : Bool) : Nat × Bool :=
  if q ≤ e then
    let kept := m * 2 ^ (e - q).toNat
    (if sticky && roundsUp r neg kept 0 1 true then kept + 1 else kept, sticky)
  else
    let shift := (q - e).toNat
    let kept := m / 2 ^ shift
    let rem := m % 2 ^ shift
    (if roundsUp r neg kept rem shift sticky then kept + 1 else kept, rem != 0 || sticky)

/-- What an overflow gives (R46): the result in a format with infinities depends on the mode. -/
def overflowBits (f : FpFmt) (r : Rnd) (neg : Bool) (m : Nat) (e : Int) (sticky : Bool) : Nat :=
  let maxB := f.signBits neg + f.maxMag
  if f.nans ≠ 0 then maxB
  else
    match r.mode with
    | 1 => maxB
    | 2 => if neg then maxB else f.infBits neg
    | 3 => if neg then f.infBits neg else maxB
    | 5 =>
      -- at or below the largest finite value plus one ulp, that is 2^(emax + 1): as toward zero
      let lim : Int := (2 ^ f.eb - 1 : Nat) - (f.bias : Int)
      let le := if lim ≤ e then m == 1 && e == lim && !sticky else
        decide (m < 2 ^ (lim - e).toNat) || (m == 2 ^ (lim - e).toNat && !sticky)
      if le then maxB else f.infBits neg
    | _ => f.infBits neg

/-- rnd(x, f, m, bits) of R39: the pattern and the flags it raises (R46 to R48). -/
def fpRound (f : FpFmt) (r : Rnd) (x : Fp) : Nat × Nat :=
  match x with
  | .nan _ _ => (f.qnan, 0)
  | .inf neg =>
    if f.nans = 0 then (f.infBits neg, 0) else (f.signBits neg + f.maxMag, flOvf + flInx)
  | .zero neg => (f.signBits neg, 0)
  | .fin neg m e sticky =>
    let emin : Int := 1 - (f.bias : Int)
    let top : Int := e + (Nat.log2 m : Int)
    let q : Int := max top emin - f.fb
    let (kept, inexact) := roundAt r neg m e q sticky
    -- magnitude code: the exponent field and fraction read as one number
    let code : Nat := ((q - (emin - f.fb)).toNat) * 2 ^ f.fb + kept
    let tiny := if top < emin then
        let (k, _) := roundAt r neg m e (top - f.fb) sticky
        !(k == 2 ^ (f.fb + 1) && top + 1 == emin)
      else false
    if f.maxMag < code then (overflowBits f r neg m e sticky, flOvf + flInx)
    else (f.signBits neg + code, (if inexact then flInx else 0) + (if tiny && inexact then flUnf else 0))

/-! ### Exact arithmetic -/

def Fp.neg : Fp → Fp
  | .nan g p => .nan g p
  | .inf n => .inf (!n)
  | .zero n => .zero (!n)
  | .fin n m e k => .fin (!n) m e k

def Fp.abs : Fp → Fp
  | .nan g p => .nan g p
  | .inf _ => .inf false
  | .zero _ => .zero false
  | .fin _ m e k => .fin false m e k

/-- The signed integer of an exact number in units of 2^q, for q at or below its exponent. -/
def signedAt (neg : Bool) (m : Nat) (e q : Int) : Int :=
  let v : Int := (m * 2 ^ (e - q).toNat : Nat)
  if neg then -v else v

/-- A signed integer times 2^e. -/
def fpOfInt (v e : Int) (zeroNeg : Bool) : Fp := fpMake (if v = 0 then zeroNeg else decide (v < 0)) v.natAbs e false

/-- An exact sum of numbers that are not NaN and not opposed infinities; `down` is roundTowardNegative, under which an exact
zero sum is -0 (R146). -/
def fpAdd (down : Bool) (a b : Fp) : Fp :=
  match a, b with
  | .inf n, _ => .inf n
  | _, .inf n => .inf n
  | .zero n, .zero k => .zero (if n == k then n else down)
  | .zero _, y => y
  | x, .zero _ => x
  | .fin n m e _, .fin k p g _ =>
    let q := min e g
    fpOfInt (signedAt n m e q + signedAt k p g q) q down
  | x, _ => x

/-- An exact product of numbers that are not NaN, where no zero meets an infinity. -/
def fpMul (a b : Fp) : Fp :=
  match a, b with
  | .inf n, .inf k => .inf (n != k)
  | .inf n, .zero k => .inf (n != k)
  | .inf n, .fin k _ _ _ => .inf (n != k)
  | .zero n, .inf k => .inf (n != k)
  | .fin n _ _ _, .inf k => .inf (n != k)
  | .zero n, .zero k => .zero (n != k)
  | .zero n, .fin k _ _ _ => .zero (n != k)
  | .fin n _ _ _, .zero k => .zero (n != k)
  | .fin n m e _, .fin k p g _ => .fin (n != k) (m * p) (e + g) false
  | x, _ => x

/-- Extra bits that an inexact quotient or root carries below its own: more than any rounding or random field looks at. -/
abbrev guardBits : Nat := 192

/-- A quotient of two finite nonzero numbers, with at least `guardBits` bits and a sticky remainder. -/
def finDiv (n : Bool) (m : Nat) (e : Int) (k : Bool) (p : Nat) (g : Int) : Fp :=
  let sh := guardBits + Nat.log2 p
  let num := m * 2 ^ sh
  .fin (n != k) (num / p) (e - g - sh) (num % p != 0)

/-- The integer square root by halving digits: `n` result bits below 2^n. -/
def isqrtGo (x : Nat) : Nat → Nat → Nat
  | 0, r => r
  | n + 1, r => if (r + 2 ^ n) * (r + 2 ^ n) ≤ x then isqrtGo x n (r + 2 ^ n) else isqrtGo x n r

def isqrt (x : Nat) : Nat := isqrtGo x (Nat.log2 x / 2 + 1) 0

/-- The square root of a positive number. -/
def finSqrt (m : Nat) (e : Int) : Fp :=
  let odd := e % 2 ≠ 0
  let m' := (if odd then 2 * m else m) * 2 ^ (2 * guardBits)
  let e' := (if odd then e - 1 else e) - 2 * guardBits
  let r := isqrt m'
  .fin false r (e' / 2) (r * r != m')

/-- The reciprocal square root of a positive number. -/
def finRsqrt (m : Nat) (e : Int) : Fp :=
  let odd := e % 2 ≠ 0
  let m' := if odd then 2 * m else m
  let e' := if odd then e - 1 else e
  let sh := 2 * guardBits + 2 * Nat.log2 m'
  let r := isqrt (2 ^ sh / m')
  .fin false r (-(e' / 2) - (sh / 2 : Nat)) (r * r * m' != 2 ^ sh)

/-! ### NaN operands (R45) -/

/-- The first NaN among the operands, quieted, with invalid when any is signalling. -/
def firstNan (f : FpFmt) : List Fp → Option Nat
  | [] => none
  | .nan _ p :: _ => some (f.quiet p)
  | _ :: r => firstNan f r

/-- NaN operands by R45, or else the operation's own result. -/
def withNans (f : FpFmt) (ops : List Fp) (other : Nat × Nat) : Nat × Nat :=
  match firstNan f ops with
  | some y => (y, if ops.any Fp.isSnan then flInv else 0)
  | none => other

/-- An operation whose operands make it invalid (R146). -/
def invalidRes (f : FpFmt) : Nat × Nat := (f.qnan, flInv)

/-- a + b, rounded once (R146). -/
def opAdd (f : FpFmt) (r : Rnd) (a b : Fp) : Nat × Nat :=
  withNans f [a, b] (
    match a, b with
    | .inf n, .inf k => if n == k then (f.infBits n, 0) else invalidRes f
    | _, _ => fpRound f r (fpAdd (r.mode == 3) a b))

/-- a − b: the NaN of b keeps its sign (R45). -/
def opSub (f : FpFmt) (r : Rnd) (a b : Fp) : Nat × Nat := opAdd f r a b.neg

/-- Whether a product meets 0 × ∞. (DEDUCED: log entry 58) -/
def zeroTimesInf (a b : Fp) : Bool :=
  match a, b with
  | .zero _, .inf _ => true
  | .inf _, .zero _ => true
  | _, _ => false

/-- a × b, rounded once. -/
def opMul (f : FpFmt) (r : Rnd) (a b : Fp) : Nat × Nat :=
  withNans f [a, b] (if zeroTimesInf a b then invalidRes f else fpRound f r (fpMul a b))

/-- ±(a × b) ± d, rounded once; NaN order a, b, d (R146). -/
def opFma (f : FpFmt) (r : Rnd) (negP negD : Bool) (a b d : Fp) : Nat × Nat :=
  withNans f [a, b, d] (
    if zeroTimesInf a b then invalidRes f
    else
      let p := fpMul a b
      let p := if negP then p.neg else p
      let d := if negD then d.neg else d
      match p, d with
      | .inf n, .inf k => if n == k then (f.infBits n, 0) else invalidRes f
      | _, _ => fpRound f r (fpAdd (r.mode == 3) p d))

/-- a / b, rounded once (R146). -/
def opDiv (f : FpFmt) (r : Rnd) (a b : Fp) : Nat × Nat :=
  withNans f [a, b] (
    match a, b with
    | .inf _, .inf _ => invalidRes f
    | .zero _, .zero _ => invalidRes f
    | .inf n, .zero k => (f.infBits (n != k), 0)
    | .inf n, .fin k _ _ _ => (f.infBits (n != k), 0)
    | .fin n _ _ _, .zero k => (f.infBits (n != k), flDz)
    | .zero n, .inf k => (f.signBits (n != k), 0)
    | .zero n, .fin k _ _ _ => (f.signBits (n != k), 0)
    | .fin n _ _ _, .inf k => (f.signBits (n != k), 0)
    | .fin n m e _, .fin k p g _ => fpRound f r (finDiv n m e k p g)
    | _, _ => invalidRes f)

/-- √a (R146). -/
def opSqrt (f : FpFmt) (r : Rnd) (a : Fp) : Nat × Nat :=
  withNans f [a] (
    match a with
    | .zero n => (f.signBits n, 0)
    | .inf false => (f.infBits false, 0)
    | .fin false m e _ => fpRound f r (finSqrt m e)
    | _ => invalidRes f)

/-- 1 / a (R147). -/
def opRcp (f : FpFmt) (r : Rnd) (a : Fp) : Nat × Nat :=
  withNans f [a] (
    match a with
    | .zero n => (f.infBits n, flDz)
    | .inf n => (f.signBits n, 0)
    | .fin n m e _ => fpRound f r (finDiv false 1 0 n m e)
    | _ => invalidRes f)

/-- 1 / √a (R147). -/
def opRsq (f : FpFmt) (r : Rnd) (a : Fp) : Nat × Nat :=
  withNans f [a] (
    match a with
    | .zero n => (f.infBits n, flDz)
    | .inf false => (0, 0)
    | .fin false m e _ => fpRound f r (finRsqrt m e)
    | _ => invalidRes f)

/-! ### 2^x and log2 x (R146, R147)

Both are computed to `transBits` binary places with an error of a few units there, then cut sixteen places higher; no result
but the exact ones of R147 is a number of finitely many bits, so the part cut off is never zero. -/

abbrev transBits : Nat := 320

/-- ln 2 in units of 2^-320, rounded down. -/
def ln2Fixed : Nat := 1480553391661173448385607439722553250922680800745876974795605978609098082859138712941075737848984

/-- Σ y^k / k! from term k on, in units of 2^-320; `t` is the current term. -/
def expSeries (y : Nat) : Nat → Nat → Nat → Nat
  | 0, _, _ => 0
  | n + 1, k, t => t + expSeries y n (k + 1) (t * y / 2 ^ transBits / (k + 1))

/-- 2^f for f = frac / 2^n in [0, 1), in units of 2^-320. (DEDUCED: log entry 41) -/
def exp2Frac (frac n : Nat) : Nat := expSeries (frac * ln2Fixed / 2 ^ n) 90 0 (2 ^ transBits)

/-- Σ r^(2k+1) / (2k+1) from term k on; `t` is the current power. -/
def atanhSeries (r2 : Nat) : Nat → Nat → Nat → Nat
  | 0, _, _ => 0
  | n + 1, k, t => t / (2 * k + 1) + atanhSeries r2 n (k + 1) (t * r2 / 2 ^ transBits)

/-- log2 of m / 2^n in [1, 2), in units of 2^-320. (DEDUCED: log entry 41) -/
def log2Frac (m n : Nat) : Nat :=
  let r := (m - 2 ^ n) * 2 ^ transBits / (m + 2 ^ n)
  2 * atanhSeries (r * r / 2 ^ transBits) 110 0 r * 2 ^ transBits / ln2Fixed

/-- A positive or negative value in units of 2^-320, cut and marked as inexact. (DEDUCED: log entry 41) -/
def transResult (neg : Bool) (v : Nat) (e : Int) : Fp := .fin neg (v / 65536) (e - transBits + 16) true

/-- VEXP2 of an FP32 operand. (DEDUCED: log entry 41) -/
def opExp2 (f : FpFmt) (a : Fp) : Nat × Nat :=
  withNans f [a] (
    match a with
    | .zero _ => fpRound f rne (.fin false 1 0 false)
    | .inf neg => if neg then (0, 0) else (f.infBits false, 0)
    | .fin neg m e _ =>
      if 12 ≤ e + (Nat.log2 m : Int) then fpRound f rne (.fin false 1 (if neg then -5000 else 5000) true)
      else if 0 ≤ e then
        let n : Int := (m * 2 ^ e.toNat : Nat)
        fpRound f rne (.fin false 1 (if neg then -n else n) false)
      else
        let d := (-e).toNat
        let fl : Int := if neg then -(((m + 2 ^ d - 1) / 2 ^ d : Nat) : Int) else ((m / 2 ^ d : Nat) : Int)
        let frac := if neg then (2 ^ d - m % 2 ^ d) % 2 ^ d else m % 2 ^ d
        if frac = 0 then fpRound f rne (.fin false 1 fl false)
        else fpRound f rne (transResult false (exp2Frac frac d) fl)
    | _ => invalidRes f)

/-- VLOG2 of an FP32 operand. (DEDUCED: log entry 41) -/
def opLog2 (f : FpFmt) (a : Fp) : Nat × Nat :=
  withNans f [a] (
    match a with
    | .zero _ => (f.infBits true, flDz)
    | .inf false => (f.infBits false, 0)
    | .fin false m e _ =>
      let n := Nat.log2 m
      let ex : Int := e + n
      if m = 2 ^ n then fpRound f rne (fpOfInt ex 0 false)
      else
        let v : Int := ex * (2 ^ transBits : Nat) + (log2Frac m n : Nat)
        fpRound f rne (transResult (decide (v < 0)) v.natAbs 0)
    | _ => invalidRes f)

/-! ### Comparison, minimum and maximum (R148, R153) -/

/-- The order of R148, -0 below +0, as a key of numbers that are not NaN. -/
def orderKey (f : FpFmt) (x : Nat) : Int :=
  let mag := x % 2 ^ (f.eb + f.fb)
  if x.testBit (f.eb + f.fb) then -(mag : Int) - 1 else (mag : Int)

/-- minimumNumber and maximumNumber, or minimum and maximum when `prop`; `keepBig` selects the maximum. -/
def opMinMax (f : FpFmt) (keepBig prop : Bool) (x y : Nat) : Nat × Nat :=
  let a := fpDecode f x
  let b := fpDecode f y
  let fl := if a.isSnan || b.isSnan then flInv else 0
  if a.isNan && b.isNan then (f.qnan, fl)
  else if a.isNan || b.isNan then
    if prop then (f.qnan, fl) else (if a.isNan then y else x, fl)
  else
    let less := decide (orderKey f x < orderKey f y)
    (if less == keepBig then y else x, 0)

/-- Numeric order of two numbers that are not NaN, zeros equal. -/
def fpKey (f : FpFmt) (x : Nat) : Int :=
  let mag : Int := (x % 2 ^ (f.eb + f.fb) : Nat)
  if x.testBit (f.eb + f.fb) then -mag else mag

/-- A float comparison by the condition codes of R93, with its flags (R153). -/
def fpCompare (f : FpFmt) (cond x y : Nat) : Bool × Nat :=
  let a := fpDecode f x
  let b := fpDecode f y
  let un := a.isNan || b.isNan
  let quietCond := cond = 0 ∨ cond = 1 ∨ 6 ≤ cond
  let fl := if un && (!decide quietCond || a.isSnan || b.isSnan) then flInv else 0
  let kx := fpKey f x
  let ky := fpKey f y
  let r := match cond with
    | 0 => !un && kx == ky
    | 1 => un || kx != ky
    | 2 => !un && decide (kx < ky)
    | 3 => !un && decide (kx ≤ ky)
    | 4 => !un && decide (ky < kx)
    | 5 => !un && decide (ky ≤ kx)
    | 6 => un
    | _ => !un
  (r, fl)

end Sys2Proof.Machine
end

