-- ==== Sys2Proof/Machine/Convert.lean ====
section
/-! DEFINITION. Conversions between formats, the packet formats and quantisation (spec/02 R52 to R62). -/

namespace Sys2Proof.Machine

/-- Whether float format `dst` represents every value of `src` (R62). (DEDUCED: log entry 100) -/
def floatWider (dst src : Nat) : Bool :=
  match dst with
  | 0x01 => src != 0x01
  | 0x02 => src == 0x03 || src == 0x04 || src == 0x05 || src == 0x06
  | 0x03 | 0x04 => src == 0x05 || src == 0x06
  | _ => false

/-- A NaN carried into a wider format: sign and payload kept, aligned to the top of the fraction, and quieted (R62). E4M3's
NaN carries the fraction 7. -/
def widenNan (d s : FpFmt) (x : Nat) : Nat :=
  let neg := x.testBit (s.eb + s.fb)
  let fr := x % 2 ^ s.fb
  d.quiet (d.signBits neg + (2 ^ d.eb - 1) * 2 ^ d.fb + fr * 2 ^ (d.fb - s.fb))

/-- An element of a numeric format as an exact number; an integer is exact. -/
def numDecode (code x : Nat) : Fp :=
  if fmtFloat.contains code then fpDecode (fpOf code) x
  else
    let w := fmtWidth code
    fpOfInt (if fmtSigned code then toSigned w x else ((x % 2 ^ w : Nat) : Int)) 0 false

/-- The range of an integer format. -/
def intLo (code : Nat) : Int := if fmtSigned code then -((2 ^ (fmtWidth code - 1) : Nat) : Int) else 0
def intHi (code : Nat) : Int :=
  if fmtSigned code then ((2 ^ (fmtWidth code - 1) : Nat) : Int) - 1 else ((2 ^ fmtWidth code : Nat) : Int) - 1

/-- A number rounded to an integer in a mode: the integer and whether it is inexact. -/
def roundToInt (r : Rnd) (neg : Bool) (m : Nat) (e : Int) (sticky : Bool) : Int × Bool :=
  if 200 ≤ e then ((if neg then -1 else 1) * ((2 ^ 200 : Nat) : Int), false)
  else
    let (k, inexact) := if e + (Nat.log2 m : Int) < -4 then roundAt r neg 1 (-4) 0 true else roundAt r neg m e 0 sticky
    (if neg then -(k : Int) else (k : Int), inexact)

/-- A float to an integer format (R62). -/
def toInt (dst : Nat) (r : Rnd) (x : Fp) : Nat × Nat :=
  let w := fmtWidth dst
  match x with
  | .nan _ _ => (0, flInv)
  | .inf neg => (ofSigned w (if neg then intLo dst else intHi dst), flInv)
  | .zero _ => (0, 0)
  | .fin neg m e k =>
    let (y, inexact) := roundToInt r neg m e k
    if y < intLo dst then (ofSigned w (intLo dst), flInv)
    else if y > intHi dst then (ofSigned w (intHi dst), flInv)
    else (ofSigned w y, if inexact then flInx else 0)

/-- The conversion of one element by R62: the pattern and the flags raised. -/
def convert (dst src : Nat) (r : Rnd) (x : Nat) : Nat × Nat :=
  if fmtFloat.contains dst then
    let d := fpOf dst
    if fmtFloat.contains src then
      let v := fpDecode (fpOf src) x
      match v with
      | .nan g _ =>
        (if floatWider dst src then widenNan d (fpOf src) x else d.qnan, if g then flInv else 0)
      | v => fpRound d r v
    else fpRound d r (numDecode src x)
  else if fmtFloat.contains src then toInt dst r (fpDecode (fpOf src) x)
  else
    let w := fmtWidth src
    let v : Int := if fmtSigned src then toSigned w x else ((x % 2 ^ w : Nat) : Int)
    (ofSigned (fmtWidth dst) (sat v (intLo dst) (intHi dst)), 0)

/-! ### Packets (R52 to R58) -/

/-- The packet element numbered `n` of 0 to 95, as its 4-bit code (R53, R57). -/
def packetCode (fmt : Nat) (pkt : Nat) (n : Nat) : Nat :=
  let byte := if fmt = fB8fp4 then 4 * (n / 8) + n % 8 / 2 else 16 * (n / 32) + n % 32 / 2
  pkt / 2 ^ (8 * byte + 4 * (n % 2)) % 16

/-- The block length of a packet format. -/
def blockLen (fmt : Nat) : Nat := if fmt = fB8fp4 then 8 else 32

/-- The scale code of the block that holds element `n`. -/
def packetScale (fmt : Nat) (pkt : Nat) (n : Nat) : Nat := pkt / 2 ^ (8 * (48 + n / blockLen fmt)) % 256

/-- The value of an E3M5 code other than 0xFF (R52). -/
def e3m5 (c : Nat) : Fp :=
  let e := c / 32
  if e = 0 then fpMake false (c % 32) (-7) false else .fin false (32 + c % 32) ((e : Int) - 8) false

/-- The exact value of packet element `n` (R56, R58). A NaN block gives a quiet NaN. (DEDUCED: log entry 101) -/
def packetDecode (fmt : Nat) (pkt : Nat) (n : Nat) : Fp :=
  let v := fpDecode fpE2m1 (packetCode fmt pkt n)
  let sc := packetScale fmt pkt n
  if sc = 0xFF then .nan false 0
  else if fmt = fB8fp4 then
    match fpDecode (fpOf fBf16) (pkt / 2 ^ 480 % 65536) with
    | .nan _ _ => .nan false 0
    | bnd =>
      let x := fpMul v (e3m5 sc)
      if zeroTimesInf x bnd then .nan false 0 else fpMul x bnd
  else fpMul v (.fin false 1 ((sc : Int) - 127) false)

/-- A decoded packet element rounded to a float format: a NaN raises no flag (R62). (DEDUCED: log entry 101) -/
def packetRound (fmt : Nat) (dst : Nat) (r : Rnd) (pkt n : Nat) : Nat × Nat :=
  fpRound (fpOf dst) r (packetDecode fmt pkt n)

/-! ### Quantisation (R59, R60) -/

/-- Whether magnitude a is at most b, both exact and not NaN. -/
def magLe (a b : Fp) : Bool :=
  match a, b with
  | .zero _, _ => true
  | _, .inf _ => true
  | .inf _, _ => false
  | .fin _ _ _ _, .zero _ => false
  | .fin _ m e _, .fin _ p g _ =>
    let q := min e g
    decide (m * 2 ^ (e - q).toNat ≤ p * 2 ^ (g - q).toNat)
  | _, _ => false

/-- The greatest magnitude of a block. -/
def maxMagOf (xs : List Fp) : Fp := xs.foldl (fun m x => if magLe m x then x.abs else m) (.zero false)

/-- The greatest E2M1 magnitude. -/
def e2m1Max : Fp := .fin false 6 0 false

/-- x / y for a finite positive y, exact but for a sticky tail. -/
def fpQuot (x y : Fp) : Fp :=
  match x, y with
  | .fin n m e _, .fin k p g _ => finDiv n m e k p g
  | .zero n, _ => .zero n
  | .inf n, _ => .inf n
  | x, _ => x

/-- One block quantised: its scale code, its element codes and the flags raised. -/
structure Block where
  scale : Nat
  codes : List Nat
  flags : Nat
  deriving DecidableEq, Repr

/-- An element divided by its block's scale and rounded to E2M1: a quotient beyond 6 saturates, and raises overflow and inexact in
every mode (R59, R60). (DEDUCED: log entry 89) -/
def quantElem (r : Rnd) (q : Fp) : Nat × Nat :=
  let y := fpRound fpE2m1 r q
  (y.1, if magLe q e2m1Max then y.2 else flOvf ||| flInx)

/-- The elements of a block divided by its scale and rounded to E2M1; element `i` takes random bits `rb i`. -/
def quantElems (mode : Nat) (rb : Nat → Nat) (scale : Fp) : Nat → List Fp → List Nat × Nat
  | _, [] => ([], 0)
  | i, x :: r =>
    let y := quantElem { mode := mode, rb := rb i, w := 4 } (fpQuot x scale)
    let t := quantElems mode rb scale (i + 1) r
    (y.1 :: t.1, y.2 ||| t.2)

/-- The smallest code from `c` up whose scale times `unit` reaches `amax`; 0xFE when none does. -/
def searchScale (amax unit : Fp) : Nat → Nat → Nat
  | 0, _ => 0xFE
  | n + 1, c => if magLe amax (fpMul (e3m5 c) unit) then c else searchScale amax unit n (c + 1)

/-- quant_b8 of R59 over the real elements of a block, padded with zero codes. -/
def quantB8 (band : Nat) (mode : Nat) (rb : Nat → Nat) (xs : List Fp) : Block :=
  let n := xs.length
  let none_ := List.replicate 8 0
  let bnd := fpDecode (fpOf fBf16) band
  let bad := match bnd with
    | .fin false _ _ _ => false
    | _ => true
  if bad then { scale := 0xFF, codes := none_, flags := flInv }
  else if xs.any Fp.isNan then { scale := 0xFF, codes := none_, flags := if xs.any Fp.isSnan then flInv else 0 }
  else
    let amax := maxMagOf xs
    match amax with
    | .zero _ => { scale := 0, codes := none_, flags := 0 }
    | _ =>
      let sc := searchScale amax (fpMul (.fin false 6 0 false) bnd) 254 1
      let r := quantElems mode rb (fpMul (e3m5 sc) bnd) 0 xs
      { scale := sc, codes := r.1 ++ List.replicate (8 - n) 0, flags := r.2 }

/-- Quantisation of a block of MXFP4 (R60). -/
def quantMx (mode : Nat) (rb : Nat → Nat) (xs : List Fp) : Block :=
  let n := xs.length
  let none_ := List.replicate 32 0
  if xs.any Fp.isNan then { scale := 0xFF, codes := none_, flags := if xs.any Fp.isSnan then flInv else 0 }
  else
    match maxMagOf xs with
    | .zero _ => { scale := 0, codes := none_, flags := 0 }
    | amax =>
      let x : Int := match amax with
        | .fin _ m e _ => sat (e + (Nat.log2 m : Int) - 2) (-127) 127
        | _ => 127
      let r := quantElems mode rb (.fin false 1 x false) 0 xs
      { scale := (x + 127).toNat, codes := r.1 ++ List.replicate (32 - n) 0, flags := r.2 }

def quantBlock (fmt band mode : Nat) (rb : Nat → Nat) (xs : List Fp) : Block :=
  if fmt = fB8fp4 then quantB8 band mode rb xs else quantMx mode rb xs

/-- A number with `len` bits at `lo` replaced by `v`. -/
def natSet (x lo len v : Nat) : Nat := x - x / 2 ^ lo % 2 ^ len * 2 ^ lo + v % 2 ^ len * 2 ^ lo

/-- Block `j` of a packet replaced: its element codes and its scale byte (R53, R57). -/
def packetSetBlock (fmt : Nat) (pkt j : Nat) (b : Block) : Nat :=
  let k := blockLen fmt
  natSet (natSet pkt (4 * k * j) (4 * k) (packNat 4 b.codes)) (8 * (48 + j)) 8 b.scale

/-- The bytes of a packet beside its blocks: the band scale, and reserved bytes zero (R53, R54, R57). -/
def packetTail (fmt : Nat) (pkt band : Nat) : Nat :=
  if fmt = fB8fp4 then natSet (natSet pkt 480 16 band) 496 16 0 else natSet pkt 408 104 0

/-- A whole packet of up to 96 elements, the last blocks padded (R53, R59, R60): its 64 bytes as a number, and the flags. (DEDUCED:
log entry 42) -/
def packetOf (fmt band mode : Nat) (xs : List Fp) : Nat × Nat :=
  let k := blockLen fmt
  let blocks := (List.range (96 / k)).map fun j =>
    let part := (xs.drop (k * j)).take k
    if part = [] then ({ scale := 0, codes := List.replicate k 0, flags := 0 } : Block)
    else quantBlock fmt band mode (fun _ => 0) part
  let body := (List.range (96 / k)).foldl (fun p j =>
    packetSetBlock fmt p j (nth { scale := 0, codes := [], flags := 0 } blocks j)) 0
  (packetTail fmt body band, blocks.foldl (fun fl b => fl ||| b.flags) 0)

end Sys2Proof.Machine
end

