-- ==== Sys2Proof/Machine/Descriptor.lean ====
section
/-! DEFINITION. Tensor descriptors: their layout, the checks that need no memory, and the mapping from index tuples to
representatives (spec/03). -/

namespace Sys2Proof.Machine

/-- The kinds of a symmetry group (R69). -/
inductive SymKind where
  | free | sym | anti | cyc | even | odd
  deriving DecidableEq, Repr

/-- A descriptor's fields (R67 to R69). -/
structure Desc where
  base   : BitVec 128
  clean  : Bool
  verify : Bool
  bkind  : Bool
  rank   : Nat
  fmt    : Nat
  rcount : Nat
  sym    : Word
  ext    : List Nat
  deriving DecidableEq, Repr

/-- The descriptor in 64 bytes, byte 0 holding bits [7:0] (R67). -/
def descOf (bs : List Byte) : Desc :=
  let x := BitVec.ofNat 512 (leNat bs)
  { base := x.extractLsb' 384 128
    clean := bits x 382 2 == 0
    verify := bit x 381
    bkind := bit x 380
    rank := bits x 376 4
    fmt := bits x 368 8
    rcount := bits x 320 48
    sym := x.extractLsb' 256 64
    ext := (List.range 8).map fun j => bits x (32 * j) 32 }

def Desc.offset (d : Desc) : Nat := bits d.base 8 48
def Desc.eslot (d : Desc) : Nat := bits d.base 0 4
def Desc.extOf (d : Desc) (j : Nat) : Nat := nth 0 d.ext j

def Desc.groupKind (d : Desc) (g : Nat) : Nat := bits d.sym (16 * g + 8) 3
def Desc.groupMask (d : Desc) (g : Nat) : Nat := bits d.sym (16 * g) 8

/-- The slots of a mask, ascending. -/
def maskSlots (m : Nat) : List Nat := (List.range 8).filter m.testBit

def symKindOf (k : Nat) : SymKind :=
  match k with | 1 => .sym | 2 => .anti | 3 => .cyc | 4 => .even | 5 => .odd | _ => .free

/-- A factor: its kind, its slots and their extent (R73). -/
structure Factor where
  kind  : SymKind
  slots : List Nat
  n     : Nat
  deriving DecidableEq, Repr

/-- The factors in the order of their lowest slots (R73). -/
def Desc.factors (d : Desc) : List Factor :=
  let groups := ((List.range 4).filter fun g => d.groupKind g != 0).map fun g =>
    ({ kind := symKindOf (d.groupKind g), slots := maskSlots (d.groupMask g),
       n := d.extOf ((maskSlots (d.groupMask g)).headD 0) } : Factor)
  (List.range d.rank).flatMap fun j =>
    match groups.find? fun f => f.slots.headD 8 == j with
    | some f => [f]
    | none => if groups.any fun f => f.slots.contains j then [] else [{ kind := .free, slots := [j], n := d.extOf j }]

/-- The binomial coefficient C(x, y), 0 when x < y (R74). -/
def choose (x y : Nat) : Nat :=
  if x < y then 0 else (List.range y).foldl (fun c i => c * (x - i) / (i + 1)) 1

def factorial (n : Nat) : Nat := (List.range n).foldl (fun c i => c * (i + 1)) 1

/-- The representative count of a factor (R73). -/
def Factor.count (f : Factor) : Nat :=
  let k := f.slots.length
  match f.kind with
  | .free => f.n
  | .sym => choose (f.n + k - 1) k
  | .anti => choose f.n k
  | .cyc => f.n
  | .even => (f.n + 1) / 2
  | .odd => f.n / 2

/-- The group conditions of R70. -/
def Desc.groupOk (d : Desc) (g : Nat) : Bool :=
  let kind := d.groupKind g
  let slots := maskSlots (d.groupMask g)
  let k := slots.length
  let n := d.extOf (slots.headD 0)
  let same := slots.all fun j => d.extOf j == n
  bits d.sym (16 * g + 11) 5 == 0 && (kind == 0) == (d.groupMask g == 0) && slots.all (· < d.rank) &&
  (match kind with
   | 0 => true
   | 1 => decide (2 ≤ k) && same
   | 2 => decide (2 ≤ k) && same && decide (k ≤ n)
   | 3 => k == 2 && same
   | 4 => k == 1
   | 5 => k == 1 && decide (2 ≤ n)
   | _ => false)

def descFormats : List Nat :=
  [0x01, 0x02, 0x03, 0x04, 0x05, 0x06, 0x07, 0x08, 0x10, 0x11, 0x12, 0x13, 0x14, 0x15, 0x16, 0x17]

def Desc.packet (d : Desc) : Bool := fmtPacket.contains d.fmt

/-- The conditions of R70 that concern the descriptor's own bits. -/
def Desc.formOk (d : Desc) : Bool :=
  d.clean && (d.bkind || (bits d.base 56 72 == 0 && bits d.base 4 4 == 0)) &&
  decide (1 ≤ d.rank) && decide (d.rank ≤ 8) &&
  ((List.range 8).all fun j => if j < d.rank then d.extOf j != 0 else d.extOf j == 0) &&
  descFormats.contains d.fmt &&
  ((List.range 4).all d.groupOk) &&
  ((List.range 4).all fun g => (List.range 4).all fun h => g == h || d.groupMask g &&& d.groupMask h == 0) &&
  ((List.range 4).all fun g => !((d.groupKind g == 2 || d.groupKind g == 5) && decide (0x14 ≤ d.fmt))) &&
  (!d.packet || (decide (2 ≤ d.rank) && (List.range 4).all fun g => !(d.groupMask g).testBit 0)) &&
  (let c := d.factors.foldl (fun c f => c * f.count) 1
   d.rcount == c && decide (c < 2 ^ 48))

/-- The bytes that the storage spans (R75). -/
def Desc.span (d : Desc) : Nat :=
  if d.packet then 64 * ((d.extOf 0 + 95) / 96) * (d.rcount / d.extOf 0) else d.rcount * fmtBytes d.fmt

/-- The alignment of the storage base (R70). -/
def Desc.align (d : Desc) : Nat := if d.packet then 64 else fmtBytes d.fmt

/-! ### The representative mapping (R74) -/

/-- A number put into a list sorted non-increasing. -/
def insertDown (x : Nat) : List Nat → List Nat
  | [] => [x]
  | y :: r => if y ≤ x then x :: y :: r else y :: insertDown x r

def sortDown : List Nat → List Nat
  | [] => []
  | x :: r => insertDown x (sortDown r)

/-- The sum over t of C(u[t] + add·(k − t), k − t + 1) for a list u[1..k]. -/
def rankSum (add : Bool) : List Nat → Nat
  | [] => 0
  | u :: r => choose (if add then u + r.length else u) (r.length + 1) + rankSum add r

/-- The number of pairs a < b of a list with an ascending pair of values. -/
def ascents : List Nat → Nat
  | [] => 0
  | x :: r => (r.filter fun y => x < y).length + ascents r

def hasRepeat : List Nat → Bool
  | [] => false
  | x :: r => r.contains x || hasRepeat r

/-- What a tuple maps to: the representative index, the sign and the multiplicity; sign 0 is a structural zero. -/
structure Mapped where
  k : Nat
  s : Int
  m : Nat
  deriving DecidableEq, Repr

/-- fmap of R74. -/
def Factor.map (f : Factor) (idx : List Nat) : Mapped :=
  let v := f.slots.map fun j => nth 0 idx j
  let x := v.headD 0
  match f.kind with
  | .free => { k := x, s := 1, m := 1 }
  | .sym =>
    let u := sortDown v
    { k := rankSum true u, s := 1,
      m := factorial u.length / (u.eraseDups.foldl (fun c y => c * factorial (u.count y)) 1) }
  | .anti =>
    if hasRepeat v then { k := 0, s := 0, m := 0 }
    else { k := rankSum false (sortDown v), s := if ascents v % 2 = 0 then 1 else -1, m := factorial v.length }
  | .cyc => { k := (nth 0 v 1 + f.n - x) % f.n, s := 1, m := f.n }
  | .even =>
    let c := f.n - 1 - x
    if x = c then { k := x, s := 1, m := 1 } else { k := min x c, s := 1, m := 2 }
  | .odd =>
    let c := f.n - 1 - x
    if x = c then { k := 0, s := 0, m := 0 } else { k := min x c, s := if c < x then -1 else 1, m := 2 }

/-- map of R74 over the factors, from scale `scale` on. -/
def mapFactors (idx : List Nat) : List Factor → Nat → Mapped
  | [], _ => { k := 0, s := 1, m := 1 }
  | f :: r, scale =>
    let a := f.map idx
    let b := mapFactors idx r (scale * f.count)
    if a.s = 0 ∨ b.s = 0 then { k := 0, s := 0, m := 0 }
    else { k := a.k * scale + b.k, s := a.s * b.s, m := a.m * b.m }

def Desc.map (d : Desc) (idx : List Nat) : Mapped := mapFactors idx d.factors 1

/-- Where element `k` lies, from the storage base, with its size in bytes (R75): for a packet format, its packet. -/
def Desc.place (d : Desc) (k : Nat) : Nat × Nat :=
  if d.packet then
    let n := d.extOf 0
    (64 * (k / n * ((n + 95) / 96) + k % n / 96), 64)
  else (k * fmtBytes d.fmt, fmtBytes d.fmt)

/-- The number within its packet of element `k` of a packet tensor (R75). -/
def Desc.inPacket (d : Desc) (k : Nat) : Nat := k % d.extOf 0 % 96

/-- neg(v, f) of R79 for an element format. -/
def negElem (fmt v : Nat) : Nat :=
  let w := fmtWidth fmt
  if fmtFloat.contains fmt then v ^^^ 2 ^ (w - 1)
  else if v = 2 ^ (w - 1) then 2 ^ (w - 1) - 1 else (2 ^ w - v) % 2 ^ w

end Sys2Proof.Machine
end

