-- ==== Sys2Proof/Config.lean ====
section
/-! DEFINITION. What one part fixes, and the values that the spec leaves open: each an opaque constant, so that no proof can
know it. -/

namespace Sys2Proof.Config

/-- Core cycles that pass at the step with this number: the schedule is the device's choice (R9, R31). (DESIGN CHOICE: log entries 3
and 81) -/
opaque elapsedCycles : Nat → Nat

/-- Timebase counts that pass at the step with this number while throttling acts (R262: no relation is promised). (DEDUCED: log
entry 4) -/
opaque elapsedTimebase : Nat → Nat

/-- A value that the spec does not state, numbered by the draw counter of the state: the elements of a transform-buffer row that
XCVT's source does not fill (R157, R251), how much of a remote command has been written when its peer is lost (R241), where a coded
flit ends (R386), the Overman's own addresses in a bind record (R337), the status of an OBJNEW without storage (R388), the kind that
TRAPINFO gives a poisoned extent slot (R350), and the order of held updates (R323). (DESIGN CHOICE: log entries 39, 67, 83, 94, 98,
112 and 120) -/
opaque freeValue : Nat → Nat

/-- SLEN0 of a raw compressed block of so many bytes, which the spec does not state (R381). (DESIGN CHOICE: log entry 82) -/
opaque rawSlen : Nat → Nat

/-- Freten's public key, under which libraries, firmware and credentials are signed, as 97 bytes (R228, R395, R400). (DESIGN CHOICE:
log entry 79) -/
opaque fretenKey : List Byte

/-- Whether a firmware content carries a valid Freten signature; where it carries it is not stated (R395). (DEDUCED: log entry 72;
DESIGN CHOICE: log entry 79) -/
opaque fretenSigned : List Byte → Bool

/-- The number from which a signature of the device identity key over a message is made (R394). (DESIGN CHOICE: log entries 79 and
99) -/
opaque signNonce : List Byte → Nat

/-- Freten's signature over the public identity key and the module serial, as the number its 96 bytes hold (R398). (DESIGN CHOICE:
log entries 79 and 99) -/
opaque fretenCertificate : List Byte → Nat

/-- The sealing key of 384 bits that a bring-up with this number draws (R398). (DESIGN CHOICE: log entries 9 and 79) -/
opaque drawnKey : Nat → Nat

end Sys2Proof.Config
end

