-- ==== Sys2Proof/Machine/Translate.lean ====
section
/-! DEFINITION. The units of the part, the physical address map, the page walk and the attributes of a page (spec/00 R5, R6,
spec/11 R286, R287, R290, R291). -/

namespace Sys2Proof.Machine

/-- The kinds of unit that a capability register counts on each die (R5): deep-tier devices, clusters, HBM stacks, ports. -/
abbrev kCx : Nat := 0
abbrev kCl : Nat := 1
abbrev kHb : Nat := 2
abbrev kFp : Nat := 3

/-- Units of a kind on one die of a full part (R3). -/
def perDie (kind : Nat) : Nat := match kind with | 0 => 2 | 1 => 8 | _ => 4

/-- The shipped bits of a kind on a die; a full part unless the fuses say otherwise (R5). (DESIGN CHOICE: log entry 8) -/
def Part.shippedBits (p : Part) (die kind : Nat) : Nat := look (2 ^ perDie kind - 1) p.shipped (4 * die + kind)

/-- Whether unit `n` of a kind on a die is shipped and not removed (R6). -/
def Part.present (p : Part) (die kind n : Nat) : Bool :=
  (p.shippedBits die kind).testBit n && !(look 0 p.removed (4 * die + kind)).testBit n

/-- A unit of the part, by kind and number. -/
def unitExists (kind unit : Nat) : Bool := decide (kind < 4) && decide (unit < 4 * perDie kind)

/-- The present bits of a kind on a die (R5). -/
def Part.presentBits (p : Part) (die kind : Nat) : Nat :=
  ((List.range (perDie kind)).filter (p.present die kind)).foldl (fun x n => x + 2 ^ n) 0

/-- Present units of a kind on the whole module. -/
def Part.count (p : Part) (kind : Nat) : Nat :=
  ((List.range 4).map fun d => ((List.range (perDie kind)).filter (p.present d kind)).length).foldl (· + ·) 0

/-- The capability register of a die (R5). -/
def Part.diecap (p : Part) (die : Nat) : Nat :=
  die * 2 ^ 44 + p.shippedBits die kCx * 2 ^ 42 + p.presentBits die kCx * 2 ^ 40 + p.shippedBits die kCl * 2 ^ 32 +
  p.presentBits die kCl * 2 ^ 24 + p.shippedBits die kHb * 2 ^ 20 + p.presentBits die kHb * 2 ^ 16 +
  p.shippedBits die kFp * 2 ^ 12 + p.presentBits die kFp * 2 ^ 8

/-- Whether cluster `c` (die × 8 + cluster) is present. -/
def Part.hasCluster (p : Part) (c : Nat) : Bool := c < 32 && p.present (c / 8) kCl (c % 8)

/-- The first address of the deep tier (R287). -/
abbrev deepBase : Nat := 0x40000000000

/-- Whether a physical address is backed (R286, R287). -/
def Part.backed (p : Part) (pa : Nat) : Bool :=
  decide (pa < 80 * 2 ^ 30 * p.count kHb) ||
  (decide (deepBase ≤ pa) && decide (pa < deepBase + 384 * 2 ^ 30 * p.count kCx))

/-- Whether a physical address lies in the deep tier (R290). -/
def inDeep (pa : Nat) : Bool := decide (deepBase ≤ pa)

/-- The home L2 slice of a physical address: 16 slices on each die (R285 to R287). -/
def Part.homeSlice (p : Part) (pa : Nat) : Nat :=
  let owners (kind : Nat) : List Nat :=
    (List.range 4).flatMap fun d => ((List.range (perDie kind)).filter (p.present d kind)).map fun _ => d
  let die := if inDeep pa then nth 0 (owners kCx) ((pa - deepBase) / 65536 % p.count kCx)
             else nth 0 (owners kHb) (pa / 4096 % p.count kHb)
  16 * die + pa / 64 % 16

/-- A leaf of the radix tree: the physical address, the entry's own address, the lowest VA bit that indexes its level, and the
entry (R291). -/
structure Leaf where
  pa  : Nat
  lo  : Nat
  at_ : Nat
  pte : Nat
  deriving DecidableEq, Repr

def Leaf.msa (l : Leaf) : Bool := l.pte.testBit 8
def Leaf.cls (l : Leaf) : Nat := l.pte / 64 % 4
def Leaf.w (l : Leaf) : Bool := l.pte.testBit 5
def Leaf.owner (l : Leaf) : Nat := l.pte / 2 ^ 51 % 512

/-- A leaf as page `vp` of a run list (R292). -/
def Leaf.page (l : Leaf) (vp : Nat) : Page :=
  { vp := vp, frame := l.pa / 65536, at_ := l.at_, cls := l.cls, owner := l.owner, msa := l.msa, w := l.w }

/-- A page of a list, by its virtual number. (DEDUCED: log entry 33) -/
def pageOf (ps : List Page) (vp : Nat) : Option Page := ps.find? fun p => p.vp == vp

/-- The physical address that some pages give a virtual one; 0 where they have none: used only where an earlier check has found the
page. -/
def pagePa (ps : List Page) (va : Nat) : Nat :=
  match pageOf ps (va / 65536) with
  | some p => p.frame * 65536 + va % 65536
  | none => 0

/-- The reserved bits of an entry (R290). -/
def pteReserved (pte : Nat) : Bool :=
  pte / 2 ^ 60 != 0 || pte / 2 ^ 12 % 16 != 0 || pte.testBit 9 || pte / 4 % 8 != 0

/-- The walk from `node` through the levels that are left, each given by the lowest VA bit that it indexes (R291). (DEDUCED: log
entry 75) -/
def walkFrom (m : Mem) (va : Nat) : List Nat → Nat → Option Leaf
  | [], _ => none
  | lo :: rest, node =>
    let at_ := node + 8 * (va / 2 ^ lo % 8192)
    let pte := m.nat at_ 8
    if pte % 2 = 0 || pteReserved pte then none
    else
      let frame := pte / 65536 % 2 ^ 35 * 65536
      if pte.testBit 1 then
        if frame % 2 ^ lo = 0 then some { pa := frame + va % 2 ^ lo, lo := lo, at_ := at_, pte := pte } else none
      else walkFrom m va rest frame

/-- walk(root, va) of R291. -/
def walk (m : Mem) (root va : Nat) : Option Leaf := walkFrom m va [42, 29, 16] root

/-- The entries of a node that hold anything, by number. -/
def nodeEntries (m : Mem) (node : Nat) : List Nat :=
  ((m.cells.filter fun c => decide (node ≤ c.1) && decide (c.1 < node + 65536)).map fun c => (c.1 - node) / 8).eraseDups

/-- The leaves below a node, each with the first virtual address that it maps. -/
def leavesFrom (m : Mem) (va : Nat) : List Nat → Nat → List (Nat × Leaf)
  | [], _ => []
  | lo :: rest, node =>
    (nodeEntries m node).flatMap fun i =>
      let pte := m.nat (node + 8 * i) 8
      let frame := pte / 65536 % 2 ^ 35 * 65536
      let here := va + i * 2 ^ lo
      if pte % 2 = 0 || pteReserved pte then []
      else if pte.testBit 1 then
        (if frame % 2 ^ lo = 0 then [(here, { pa := frame, lo := lo, at_ := node + 8 * i, pte := pte })] else [])
      else leavesFrom m here rest frame

/-- The nodes below a node, itself included. -/
def nodesFrom (m : Mem) : List Nat → Nat → List Nat
  | [], _ => []
  | _ :: rest, node =>
    node :: (nodeEntries m node).flatMap fun i =>
      let pte := m.nat (node + 8 * i) 8
      if pte % 2 = 0 || pteReserved pte || pte.testBit 1 then [] else nodesFrom m rest (pte / 65536 % 2 ^ 35 * 65536)

/-- The level-1 root of an address space, where one has been set (R388); the table holds root + 1. (DEDUCED: log entry 75) -/
def State.root (s : State) (asid : Nat) : Option Nat :=
  match look 0 s.roots asid with
  | 0 => none
  | r + 1 => some r

/-- Every leaf of every address space, each with its address space and the first virtual address that it maps. -/
def State.leaves (s : State) : List (Nat × Nat × Leaf) :=
  s.roots.flatMap fun r => (leavesFrom s.mem 0 [42, 29, 16] (r.2 - 1)).map fun l => (r.1, l)

/-- Every node of every radix tree. -/
def State.nodes (s : State) : List Nat := s.roots.flatMap fun r => nodesFrom s.mem [42, 29, 16] (r.2 - 1)

/-- The translation of a virtual address in an address space (R291). (DEDUCED: log entry 75) -/
def State.translate (s : State) (asid va : Nat) : Option Leaf :=
  match s.root asid with
  | none => none
  | some r => walk s.mem r (va % 2 ^ 55)

/-- The physical address of a byte, 0 where there is none: used only where an earlier check has found the translation. -/
def State.physOf (s : State) (asid va : Nat) : Nat := match s.translate asid va with | none => 0 | some l => l.pa

/-- The 64 KiB pages that `n` bytes at `va` touch, by page number. -/
def pagesOf (va n : Nat) : List Nat :=
  if n = 0 then [] else (List.range ((va + n - 1) / 65536 - va / 65536 + 1)).map fun j => va / 65536 + j

end Sys2Proof.Machine
end

