-- ==== Sys2Proof/Machine/Ops.lean ====
section
/-! DEFINITION. The named operations over contexts, cores and registers: reading a register, putting a result in flight,
landing it, asking for a fetch, taking a trap, returning from one, and ending a task (spec/01 R32 to R35, spec/10 R268,
spec/15 R352 to R359). -/

namespace Sys2Proof.Machine

/-- The outcome type of every meaning. -/
abbrev Out := Host.Outcome State Fault Refusal

/-! ### Contexts, cores, clusters -/

def State.ctx (s : State) (k : Nat) : Ctx := look {} s.ctxs k
def State.setCtx (s : State) (k : Nat) (c : Ctx) : State := { s with ctxs := put {} s.ctxs k c }
def State.core (s : State) (k : Nat) : Core := look {} s.cores k
def State.setCore (s : State) (k : Nat) (c : Core) : State := { s with cores := put {} s.cores k c }
def State.cluster (s : State) (k : Nat) : Cluster := look {} s.clusters k
def State.setCluster (s : State) (k : Nat) (c : Cluster) : State := { s with clusters := put {} s.clusters k c }

/-- Four contexts a core, sixteen cores a cluster (R3). -/
def coreOf (ctx : Nat) : Nat := ctx / 4
def clusterOfCore (core : Nat) : Nat := core / 16
def clusterOf (ctx : Nat) : Nat := ctx / 64

/-- The context whose bundle is being executed. -/
def State.me (s : State) : Ctx := s.ctx s.cur.ctx
def State.setMe (s : State) (c : Ctx) : State := s.setCtx s.cur.ctx c
def State.arch (s : State) : Arch := s.me.arch
def State.setArch (s : State) (a : Arch) : State := s.setMe { s.me with arch := a }

/-- The core on which the executing bundle issues. -/
def State.myCore (s : State) : Nat := coreOf s.cur.ctx

/-! ### Code pointers (R28) -/

def ptrSeg (p : Word) : Nat := bits p 6 49 * 64
def ptrBidx (p : Word) : Nat := bits p 57 7
def mkPtr (seg bidx : Nat) : Word := BitVec.ofNat 64 (bidx * 2 ^ 57 + seg % 2 ^ 55)

/-- A code pointer whose reserved bits are zero (R28). -/
def ptrClean (p : Word) : Bool := bits p 55 2 == 0 && bits p 0 6 == 0

/-! ### Registers as they are read at issue (R11, R18, R32) -/

def Arch.readS (a : Arch) (n : BitVec 6) : SReg := if n = 0 then {} else look {} a.s n.toNat
def Arch.readV (a : Arch) (n : BitVec 6) : VReg := look {} a.v (n.toNat % 32)
def Arch.readP (a : Arch) (n : Nat) : Pred := if n % 8 = 0 then BitVec.allOnes 256 else look 0 a.p (n % 8)
def Arch.readMp (a : Arch) (n : BitVec 3) : Word := look 0 a.mp n.toNat

/-- An extent slot as it reads: the value bits of a poisoned one are zero, so that it is not valid (R13, R22, R288). (DESIGN CHOICE:
log entry 112) -/
def Arch.extent (a : Arch) (n : Nat) : BitVec 128 := if a.eBad.contains (n % 16) then 0 else look 0 a.e (n % 16)
/-- All extent slots as they read. (DESIGN CHOICE: log entry 112) -/
def Arch.extents (a : Arch) : FMap (BitVec 128) := a.eBad.foldl (fun e j => put 0 e j 0) a.e

/-! ### Fixed-latency results (R32, R33, R35) -/

/-- A merge of `new` into `old` under a mask of bits. -/
def maskMerge {n : Nat} (old new mask : BitVec n) : BitVec n := (old &&& ~~~mask) ||| (new &&& mask)

/-- A write to s0 or p0 is discarded at issue (R11, R18, R35). -/
def FlightDst.discarded : FlightDst → Bool
  | .s n _ => n == 0
  | .p n _ _ => n == 0
  | _ => false

/-- A result of latency `lat` of the executing bundle put in flight. -/
def State.emit (s : State) (lat : Nat) (dst : FlightDst) : State :=
  if dst.discarded then s
  else
    { s.setArch { s.arch with flight := s.arch.flight ++ [{ due := s.cur.t + lat, seq := s.nextId, dst := dst }] } with
      nextId := s.nextId + 1 }

/-- An accumulator write applied to its row of some rows (R165). -/
def writeRow (rows : FMap AccRow) (k : Nat) (bits mask : Vec) (psn full : Bool) : FMap AccRow :=
  let old := look {} rows k
  put {} rows k { bits := maskMerge old.bits bits mask, psn := if full then psn else old.psn || psn }

/-- An accumulator write applied to its row of a core's bank. -/
def Core.writeAcc (c : Core) (bank row : Nat) (bits mask : Vec) (psn full : Bool) : Core :=
  { c with acc := writeRow c.acc (bank * 128 + row) bits mask psn full }

/-- One result written to its destination (R32); an accumulator write of a task whose bank a swap has put aside goes there (R341). -/
def State.landOne (s : State) (k : Nat) (dst : FlightDst) : State :=
  let c := s.ctx k
  let a := c.arch
  match dst with
  | .s n v => s.setCtx k { c with arch := { a with s := put {} a.s n v } }
  | .v n v => s.setCtx k { c with arch := { a with v := put {} a.v n v } }
  | .p n b m => s.setCtx k { c with arch := { a with p := put 0 a.p n (maskMerge (look 0 a.p n) b m) } }
  | .mp n v => s.setCtx k { c with arch := { a with mp := put 0 a.mp n v } }
  | .x n v => s.setCtx k { c with arch := { a with xbuf := put {} a.xbuf n v } }
  | .acc bank row b m psn full =>
    if a.accs.any (fun p => p.1 == bank) then
      let rows (p : Nat × FMap AccRow) : Nat × FMap AccRow := if p.1 = bank then (bank, writeRow p.2 row b m psn full) else p
      s.setCtx k { c with arch := { a with accs := a.accs.map rows } }
    else s.setCore (coreOf k) ((s.core (coreOf k)).writeAcc bank row b m psn full)

/-- Whether two results land in one register (R33). -/
def FlightDst.rivals : FlightDst → FlightDst → Bool
  | .s m _, .s n _ => m == n
  | .v m _, .v n _ => m == n
  | .p m _ _, .p n _ _ => m == n
  | .mp m _, .mp n _ => m == n
  | .x m _, .x n _ => m == n
  | _, _ => false

/-- Results that land at one cycle, in program order: of two in one register the later takes effect, and the other is discarded
(R33). (DEDUCED: log entry 30) -/
def State.landList (s : State) (k : Nat) : List Flight → State
  | [] => s
  | f :: r => (if r.any fun g => f.dst.rivals g.dst then s else s.landOne k f.dst).landList k r

/-- The least position at which a result still in flight is due, at most `now`. -/
def nextDue (now : Nat) (l : List Flight) : Option Nat :=
  (l.filter fun f => f.due ≤ now).foldl
    (fun m f => match m with | none => some f.due | some d => some (min d f.due)) none

/-- Results due by position `now` land, position by position (R32, R33); `fuel` bounds the positions. -/
def State.landDue (s : State) (k now : Nat) : Nat → State
  | 0 => s
  | fuel + 1 =>
    let c := s.ctx k
    match nextDue now c.arch.flight with
    | none => s
    | some d =>
      let here := c.arch.flight.filter fun f => f.due = d
      let rest := c.arch.flight.filter fun f => f.due ≠ d
      ((s.setCtx k { c with arch := { c.arch with flight := rest } }).landList k here).landDue k now fuel

/-- Every result of context `k` due by position `now` lands. -/
def State.landBy (s : State) (k now : Nat) : State := s.landDue k now (s.ctx k).arch.flight.length

/-! ### Pending registers (R12) -/

def SbDst.scalars : SbDst → List Nat
  | .s n => if n = 0 then [] else [n]
  | .v _ => []
  | .pair n => [n, n + 1]

def SbDst.vectors : SbDst → List Nat
  | .v n => [n]
  | _ => []

def Ctx.pendS (c : Ctx) : List Nat := c.sb.flatMap fun e => e.dst.scalars
def Ctx.pendV (c : Ctx) : List Nat := c.sb.flatMap fun e => e.dst.vectors

/-- A scoreboarded result of the executing bundle: its destination is pending from issue (R34). (DEDUCED: log entry 20) -/
def State.emitSb (s : State) (dst : SbDst) (what : Payload) : State :=
  s.setMe { s.me with sb := s.me.sb ++ [{ dst := dst, what := what }] }

/-! ### The loop buffer (R265 to R268) -/

def Half.seg : Half → Option Nat
  | .empty => none
  | .expanding a _ => some a
  | .resident a _ _ _ => some a

def Half.residentIn (h : Half) (seg : Nat) : Bool :=
  match h with
  | .resident a _ _ _ => a == seg
  | _ => false

def Ctx.curHalf (c : Ctx) : Half := if c.current then c.halfB else c.halfA
def Ctx.idleHalf (c : Ctx) : Half := if c.current then c.halfA else c.halfB
def Ctx.setIdle (c : Ctx) (h : Half) : Ctx := if c.current then { c with halfA := h } else { c with halfB := h }
def Ctx.setCur (c : Ctx) (h : Half) : Ctx := if c.current then { c with halfB := h } else { c with halfA := h }

/-- The fetch counter, which saturates (R275). -/
def bump (n : Nat) : Nat := if n < 0xFFFFFFFF then n + 1 else n

/-- Expansion of segment `seg` into the idle half starts, abandoning what that half held (R268). -/
def Ctx.expand (c : Ctx) (seg : Nat) (target : Bool) : Ctx :=
  let c := c.setIdle (.expanding seg target)
  { c with arch := { c.arch with fetches := bump c.arch.fetches } }

/-- The fetch of a bundle of segment `seg` (R268). -/
def Ctx.request (c : Ctx) (seg : Nat) : Ctx :=
  if c.curHalf.residentIn seg then c
  else if c.idleHalf.seg = some seg then c
  else c.expand seg true

/-- Chain prefetch from the segment in the current half (R267). -/
def Ctx.prefetch (c : Ctx) : Ctx :=
  match c.curHalf with
  | .resident seg false next _ =>
    let n := ptrSeg next
    let busy := match c.idleHalf with | .expanding _ t => t | _ => false
    if n = seg || c.idleHalf.seg = some n || busy then c else c.expand n false
  | _ => c

/-- The bundle of the current half that a pointer names. -/
def Ctx.bundleAt (c : Ctx) (p : Word) : Option (List Word) :=
  let find (h : Half) : Option (List Word) :=
    match h with
    | .resident seg _ _ bs => if seg = ptrSeg p then bs[ptrBidx p]? else none
    | _ => none
  match find c.curHalf with
  | some b => some b
  | none => find c.idleHalf

/-! ### Reading memory on behalf of the hardware -/

/-- `n` bytes at a virtual address, and whether any of them is marked; none where the address is not mapped or not backed. -/
def State.readVa (s : State) (asid va n : Nat) : Option (List Byte × Bool) :=
  let at_ (j : Nat) : Option Nat :=
    match s.translate asid (va + j) with
    | none => none
    | some l => if s.part.backed l.pa then some l.pa else none
  let pas := (List.range n).map at_
  if pas.all Option.isSome then
    let ps := pas.map fun p => p.getD 0
    some (ps.map s.mem.byte, ps.any fun p => s.mem.mark (p / 8))
  else none

/-! ### Ending a task (R359) -/

def stOk : Nat := 0x0000
def stCancelled : Nat := 0x0001
def stBadparam : Nat := 0x0002
def stExtent : Nat := 0x0003
def stAlign : Nat := 0x0004
def stRdonly : Nat := 0x0005
def stPrivate : Nat := 0x0006
def stSpaddr : Nat := 0x0007
def stIndex : Nat := 0x0008
def stBaddesc : Nat := 0x0009
def stGone : Nat := 0x000A
def stNever : Nat := 0x000B
def stDenied : Nat := 0x000C
def stRemote : Nat := 0x000D
def stPinned : Nat := 0x000E
def stPoisoned : Nat := 0x000F
def stCksum : Nat := 0x0010
def stOverlap : Nat := 0x0011
def stBadstream : Nat := 0x0012
def stBadmask : Nat := 0x0013
def stTopology : Nat := 0x0014
def stRuledepth : Nat := 0x0015
def stToolarge : Nat := 0x0016
def stUnverified : Nat := 0x0017
def stSymmismatch : Nat := 0x0018
def stNoroutine : Nat := 0x0019
def stQfull : Nat := 0x001A
def stUnreachable : Nat := 0x001B
def stAborted : Nat := 0x001C
def stBadtarget : Nat := 0x0020
def stDoublefault : Nat := 0x0021
def stRejected : Nat := 0x0022
def stExited : Nat := 0x0023

/-- OK, UNVERIFIED and PINNED are successes (R230). -/
def isSuccess (code : Nat) : Bool := code == stOk || code == stUnverified || code == stPinned

/-- The status word of a token (R229). (DEDUCED: log entry 118) -/
def statusWord (cflags code result : Nat) : Word :=
  BitVec.ofNat 64 (cflags % 32 * 2 ^ 48 + code % 65536 * 2 ^ 32 + result % 2 ^ 32)

/-- Commands of context `k` that have not started complete with ABORTED (R359). -/
def abortUnstarted (k : Nat) (l : List Cmd) : List Cmd :=
  l.map fun c => if c.ctx = k && !c.started then { c with started := true, finished := true, status := stAborted } else c

/-- halt(code, pc) of R359. -/
def State.haltCtx (s : State) (k code : Nat) (pc : Word) : State :=
  let c := s.ctx k
  let s := s.setCtx k { c with
    ending := some { status := code, exitCode := 0, faultPc := pc }
    arch := { c.arch with flight := [], parked := [], exitReq := none, savedExit := none }
    window := none, eretReq := false, pause := 0, yielding := none, aside := none }
  let co := s.core (coreOf k)
  let s := s.setCore (coreOf k) { co with
    cq := abortUnstarted k co.cq, mq := abortUnstarted k co.mq, lq := abortUnstarted k co.lq,
    mqstat := abortUnstarted k co.mqstat }
  if s.cur.ctx = k then { s with cur := { s.cur with open_ := false } } else s

/-- Slot 0 of the executing bundle has been examined: chain prefetch, where the bundle is the first from its segment. A taken transfer
in that slot comes before it (R267, R268). -/
def State.prefetchMe (s : State) : State :=
  if s.cur.fresh && s.cur.slot == 0 then s.setMe s.me.prefetch else s

/-- A fatal context error of the executing bundle. -/
def State.fatal (s : State) (code : Nat) : State := s.prefetchMe.haltCtx s.cur.ctx code s.cur.pc

/-! ### Taking a trap and returning (R352, R357, R259, R354) -/

abbrev trFmt : Nat := 1
abbrev trProbe : Nat := 2
abbrev trSymv : Nat := 3
abbrev trFpx : Nat := 4
abbrev trPsn : Nat := 5
abbrev trDivz : Nat := 6
abbrev trTrapi : Nat := 7
abbrev trWatch : Nat := 8
abbrev trMchk : Nat := 9

/-- A double fault (R357): FAULTPC is TRAPPC. (DEDUCED: log entry 23) -/
def State.doubleFault (s : State) : State := s.haltCtx s.cur.ctx stDoublefault s.arch.trappc

/-- Entry `cause` of the trap table that TRAPVEC names; zero where there is none (R110, R352). (DEDUCED: log entry 24) -/
def State.trapEntry (s : State) (cause : Nat) : Word :=
  if s.arch.trapvec = 0 then 0
  else
    match s.readVa s.arch.info.asid (ptrSeg s.arch.trapvec + 8 * cause) 8 with
    | some (bs, false) => BitVec.ofNat 64 (leNat bs)
    | _ => 0

/-- The trap registers, the parked results and the handler's CSW (R352); the bundle is to be re-entered at slot `r`. (DEDUCED: log
entries 26 and 85) -/
def Arch.enterTrap (a : Arch) (cur : Cur) (unissued lock : Bool) (r cause info : Nat) : Arch :=
  let csw := if lock then cswSet a.csw cswFlock else a.csw
  { a with
    trappc := cur.pc
    trapcsw := setBits csw 0 3 r
    trapcause := BitVec.ofNat 64 (cur.slot * 256 + cause)
    trapinfo := BitVec.ofNat 64 info
    savedRedirect := a.redirect
    redirect := none
    parked := a.flight.map fun f => { f with due := f.due - cur.t }
    flight := []
    csw := setBits (cswSet (setBits csw 0 3 0) cswInh) 16 8 0
    savedAt := cur.t
    savedCycle := cur.clock
    savedUnissued := unissued
    at_ := 0
    reenter := none
    savedExit := a.exitReq
    exitReq := none }

/-- take_trap of R352, in slot `s.cur.slot` of the bundle at `s.cur.pc`, to be re-entered at slot `r`. -/
def State.trapWith (s : State) (unissued : Bool) (r cause info : Nat) : State :=
  if s.arch.csw.getLsbD cswInh then s.doubleFault
  else
    let c := s.me
    let s := s.setMe { c with
      arch := c.arch.enterTrap s.cur unissued c.window.isSome r cause info
      window := none, eretReq := false, waitMet := false, unwatched := none }
    let s := { s with cur := { s.cur with open_ := false } }
    let h := s.trapEntry cause
    if h = 0 then s.doubleFault
    else
      let c := s.me
      s.setMe ({ c with arch := { c.arch with pos := h } }.request (ptrSeg h))

/-- A precise trap of the executing bundle. -/
def State.takeTrap (s : State) (cause info : Nat) : State :=
  s.prefetchMe.trapWith false (if cause = trTrapi then s.cur.slot + 1 else s.cur.slot) cause info

/-- CSW after ERET (R259, R354). RMODE codes 5 to 15 in TRAPCSW leave the mode that CSW holds, as R25 has it. (DEDUCED: log entry
25) -/
def eretCsw (csw trapcsw : Word) (det : Bool) : Word :=
  let mode := if bits trapcsw 24 4 ≤ 4 then bits trapcsw 24 4 else bits csw 24 4
  let w := setBits (0 : Word) 8 8 (bits trapcsw 8 8 ||| bits csw 8 8)
  let w := setBits (setBits w 16 6 (bits trapcsw 16 6)) 23 1 (bits trapcsw 23 1)
  setBits (setBits w 24 4 mode) 4 1 (if det then 1 else 0)

/-- The return of R259 and R354, made when ERET's bundle has committed: the saved redirect comes back, the parked results
count on the interrupted code's schedule again, and bundle TRAPPC is next, entered at slot TRAPCSW.SLOTRES. -/
def Arch.leaveTrap (a : Arch) : Arch :=
  { a with
    csw := eretCsw a.csw a.trapcsw a.info.det
    pos := a.trappc
    redirect := a.savedRedirect
    savedRedirect := none
    flight := a.parked.map fun f => { f with due := a.savedAt + f.due }
    parked := []
    at_ := if a.savedUnissued then a.savedAt else a.savedAt + 1
    reenter := if a.savedUnissued then none else some (bits a.trapcsw 0 3)
    savedUnissued := false
    exitReq := a.savedExit
    savedExit := none }

/-- The executing bundle is set aside before slot `cur.slot`, with all that was read at its issue: it has issued, and goes on there
after accesses of other agents. (DEDUCED: log entries 13 and 18) -/
def State.setAside (s : State) : State :=
  let s := s.setMe { s.me with aside := some s.cur }
  { s with cur := { s.cur with open_ := false } }

/-! ### Accumulator banks (R341, R342) -/

/-- Rows 0 to 127 of bank `b` replaced. -/
def Core.fillBank (c : Core) (b : Nat) (rows : FMap AccRow) : Core :=
  { c with acc := (List.range 128).foldl (fun m q => put {} m (b * 128 + q) (look {} rows q)) c.acc }

/-- Rows 0 to 127 of bank `b`. -/
def Core.bankRows (c : Core) (b : Nat) : FMap AccRow :=
  (List.range 128).foldl (fun m q => put {} m q (look {} c.acc (b * 128 + q))) []

/-- The context of every live task changed: those that hold one, and those that a swap put aside. -/
def State.mapCtxs (s : State) (g : Ctx → Ctx) : State :=
  { s with
    ctxs := s.ctxs.map fun p => (p.1, if p.2.bound then g p.2 else p.2)
    clusters := s.clusters.map fun p =>
      (p.1, { p.2 with slots := p.2.slots.map fun r =>
        (r.1, { r.2 with saved := r.2.saved.map fun q => (q.1, g q.2) }) }) }

/-- Every live task changed. -/
def State.mapTasks (s : State) (f : Arch → Arch) : State := s.mapCtxs fun c => { c with arch := f c.arch }

/-- A bank's contents put aside for a task. -/
def Arch.keepBank (a : Arch) (b : Nat) (rows : FMap AccRow) : Arch := { a with accs := (b, rows) :: a.accs.filter fun p => p.1 != b }

/-- Bank `b` of a core spilled to the task that named it last, which names it no more (R342). (DEDUCED: log entry 95) -/
def State.spillBank (s : State) (core b : Nat) : State :=
  let co := s.core core
  let uid := look 0 co.accBy b
  if uid = 0 then s
  else
    (s.setCore core { co with accBy := put 0 co.accBy b 0 }).mapTasks fun a =>
      if a.info.uid = uid then a.keepBank b (co.bankRows b) else a

/-- The banks of some cores that stand in place for tasks that `f` selects by number are spilled. (DEDUCED: log entry 95) -/
def State.spillBanks (s : State) (cores : List Nat) (f : Nat → Bool) : State :=
  cores.foldl (fun s c => (List.range 8).foldl (fun s b => if f (look 0 (s.core c).accBy b) then s.spillBank c b else s) s) s

/-- Whether the task with a number stands on a context of a core. -/
def State.taskOn (s : State) (core uid : Nat) : Bool :=
  (List.range 4).any fun j => let c := s.ctx (core * 4 + j); c.bound && c.arch.info.uid == uid

/-- The task of context `k` names accumulator bank `b`. Contents that a swap put aside for it come back first, and the bank's
holder, if it is another task, has its own put aside; a holder that has left the core has them put aside in any case (R342). Tasks
that have never left share the bank as it stands (R281). (DEDUCED: log entry 95) -/
def State.nameBankFor (s : State) (k b : Nat) : State :=
  let a := (s.ctx k).arch
  let holder := look 0 (s.core (coreOf k)).accBy b
  let kept := a.accs.find? fun p => p.1 == b
  let s := if holder ≠ a.info.uid ∧ (kept.isSome ∨ !s.taskOn (coreOf k) holder) then s.spillBank (coreOf k) b else s
  let co := s.core (coreOf k)
  match kept with
  | some p =>
    let s := s.setCore (coreOf k) { co.fillBank b p.2 with accBy := put 0 co.accBy b a.info.uid }
    let c := s.ctx k
    s.setCtx k { c with arch := { c.arch with accs := c.arch.accs.filter fun p => p.1 != b } }
  | none => s.setCore (coreOf k) { co with accBy := put 0 co.accBy b a.info.uid }

/-- The executing context's task names a bank. (DEDUCED: log entry 95) -/
def State.nameBank (s : State) (b : Nat) : State := s.nameBankFor s.cur.ctx b

/-- Whether a command on a core owns a bank (R166). -/
def Core.owned (c : Core) (b : Nat) : Bool := c.mq.any fun e => e.banks.contains b

/-- A command's task names the banks that the command works in as it starts: an earlier command that owned one has completed, and no
contents change under it (R200, R342). (DEDUCED: log entry 95) -/
def State.claimBanks (s : State) (c : Cmd) : State := c.banks.foldl (fun s b => s.nameBankFor c.ctx b) s

/-! ### The result of a slot -/

/-- How a slot ends (R351): it commits, it takes a trap from the state given, it meets a fatal context error, or other agents'
accesses come before it in the state given. (DEDUCED: log entry 18) -/
inductive SlotResult where
  | ok (s : State)
  | trap (s : State) (cause info : Nat)
  | fatal (code : Nat)
  | apart (s : State)

/-- The next state that a slot's result gives. -/
def finish (s : State) : SlotResult → Out
  | .ok s' => .next s'
  | .trap s' cause info => .next (s'.takeTrap cause info)
  | .fatal code => .next (s.fatal code)
  | .apart s' => .next s'.setAside

/-- The MCHK of a poisoned scalar register at a point of consumption (R15, R350). -/
def mchkS (s : State) (r : BitVec 6) : SlotResult := .trap s trMchk r.toNat

/-- The MCHK of a poisoned vector register (R15, R350). -/
def mchkV (s : State) (r : BitVec 6) : SlotResult := .trap s trMchk (r.toNat + 64)

/-- An operation that goes through an extent slot: a poisoned slot is an address that must not be trusted, and takes MCHK. R350
gives an extent slot no kind, so that those two bits of TRAPINFO are free (R15, R288). (DESIGN CHOICE: log entry 112; DEDUCED: log
entry 114) -/
def slotKept (s : State) (slot : Nat) (k : SlotResult) : SlotResult :=
  if s.arch.eBad.contains slot then
    .trap { s with draws := s.draws + 1 } trMchk (slot % 64 + Config.freeValue s.draws % 4 * 64)
  else k

end Sys2Proof.Machine
end

