-- ==== Sys2Proof/Machine/Sync.lean ====
section
/-! DEFINITION. The Y slot's fields, the semaphores, and the moments at which a wait is tested (spec/04 R101, R102, spec/09
R252 to R254, spec/14 R336). -/

namespace Sys2Proof.Machine

/-! ### The Y slot (R101) -/

def yPause (y : Word) : Nat := bits y 0 4
def yLcnt (y : Word) : Nat := bits y 4 4
def yLmask (y : Word) : Nat := bits y 8 16
def yWen (y : Word) : Bool := bit y 24
def yWsem (y : Word) : Nat := bits y 25 8
def yWthr (y : Word) : Int := toSigned 16 (bits y 33 16)
def ySigen (y : Word) : Bool := bit y 49
def ySigsem (y : Word) : Nat := bits y 50 8
def ySiginc (y : Word) : Int := toSigned 6 (bits y 58 6)

/-- The Y word of a bundle. -/
def yOf (words : List Word) : Word := nth 0 words 7

/-! ### Balances (R252) -/

/-- The balance as a number. -/
def Sem.value (x : Sem) : Int := x.bal.toInt

/-- An addition: past a bound it leaves the bound and sets the mark (R252). -/
def Sem.add (x : Sem) (inc : Int) : Sem :=
  let v := x.value + inc
  if v < -2147483648 then { bal := BitVec.ofInt 32 (-2147483648), mark := true }
  else if v > 2147483647 then { bal := BitVec.ofInt 32 2147483647, mark := true }
  else { x with bal := BitVec.ofInt 32 v }

/-- Whether number `n` names a grid semaphore for a task (R336). -/
def TaskInfo.onGrid (i : TaskInfo) (n : Nat) : Bool := i.gsem && decide (248 ≤ n) && decide (n < 256)

/-- What a sequence number that names no launch reads as. -/
def noLaunch : Launch := { seq := 0, queue := 0, asid := 0 }

/-- Node `node` of launch `seq`. -/
def State.launchNode (s : State) (seq node : Nat) : Node :=
  look {} (look noLaunch s.launches seq).nodes node

/-- Launch `seq` changed, where it exists. -/
def State.updLaunch (s : State) (seq : Nat) (f : Launch → Launch) : State :=
  { s with launches := revise s.launches seq f }

/-- Node `node` of launch `seq` changed, where it exists. -/
def State.updNode (s : State) (seq node : Nat) (f : Node → Node) : State :=
  s.updLaunch seq fun l => { l with nodes := revise l.nodes node f }

/-- The semaphore that number `n` names for a task of a cluster (R252, R336). -/
def State.sem (s : State) (cl : Nat) (i : TaskInfo) (n : Nat) : Sem :=
  if i.onGrid n then look {} (s.launchNode i.seq i.node).gsems n else look {} (s.cluster cl).sems n

def State.setSem (s : State) (cl : Nat) (i : TaskInfo) (n : Nat) (x : Sem) : State :=
  if i.onGrid n then s.updNode i.seq i.node fun nd => { nd with gsems := put {} nd.gsems n x }
  else s.setCluster cl { s.cluster cl with sems := put {} (s.cluster cl).sems n x }

/-- Whether two tasks name one semaphore by number `n`. -/
def sameSem (cl : Nat) (i : TaskInfo) (cl' : Nat) (j : TaskInfo) (n : Nat) : Bool :=
  if i.onGrid n then j.onGrid n && i.seq == j.seq && i.node == j.node
  else !j.onGrid n && cl == cl'

/-! ### The test of a wait (R253) -/

/-- A context at a bundle boundary: it is not in the middle of a bundle, no pause is left, and it has not ended. -/
def State.between (s : State) (k : Nat) : Bool :=
  let c := s.ctx k
  c.bound && c.ending.isNone && c.pause == 0 && c.aside.isNone && !(s.cur.open_ && s.cur.ctx == k)

/-- A context whose next bundle is due and has not issued before. -/
def State.due (s : State) (k : Nat) : Bool := s.between k && (s.ctx k).arch.reenter.isNone

/-- The wait of a fetched, due bundle of context `k` is tested: once satisfied it stays satisfied (R253). The context's own earlier
signals of the semaphore come first (R252). (DEDUCED: log entries 27 and 28) -/
def State.testWait (s : State) (k : Nat) : State :=
  let c := s.ctx k
  if !s.due k || c.waitMet then s
  else
    match c.bundleAt c.arch.pos with
    | none => s
    | some ws =>
      let y := yOf ws
      if yWen y && !(c.signals.any fun p => p.sem == yWsem y) && decide (yWthr y ≤ (s.sem (clusterOf k) c.arch.info (yWsem y)).value) then
        s.setCtx k { c with waitMet := true }
      else s

/-- Whether context `k`'s next bundle, where it is fetched, waits on the semaphore. (DEDUCED: log entry 28) -/
def State.waitsOn (s : State) (cl : Nat) (i : TaskInfo) (n k : Nat) : Bool :=
  let c := s.ctx k
  match c.bundleAt c.arch.pos with
  | some ws => yWen (yOf ws) && yWsem (yOf ws) == n && sameSem cl i (clusterOf k) c.arch.info n
  | none => false

/-- The waits of every context on the semaphore that has changed are tested. -/
def State.testWaits (s : State) (cl : Nat) (i : TaskInfo) (n : Nat) : List Nat → State
  | [] => s
  | k :: r => (if s.waitsOn cl i n k then s.testWait k else s).testWaits cl i n r

/-- Whether the wait of a task that a swap put aside would now be satisfied: a grid semaphore stands with its node, the others were saved
with the team (R340). -/
def State.wouldGo (s : State) (r : BindRec) (c : Ctx) : Bool :=
  match c.bundleAt c.arch.pos with
  | some ws =>
    let n := yWsem (yOf ws)
    let x := if c.arch.info.onGrid n then s.sem 0 c.arch.info n else look {} r.sems n
    yWen (yOf ws) && decide (yWthr (yOf ws) ≤ x.value)
  | none => false

/-- A swapped team is ready to run from the moment at which a wait of one of its tasks would be satisfied (R340, R343). -/
def State.noteTeam (s : State) (r : BindRec) : BindRec :=
  if r.state != 3 then r
  else if r.saved.any fun p => s.wouldGo r p.2 then { r with readyAt := some (r.readyAt.getD s.steps) }
  else { r with readyAt := none }

/-- The readiness of every swapped team. -/
def State.noteTeams (s : State) : State :=
  { s with clusters := s.clusters.map fun p => (p.1, { p.2 with slots := p.2.slots.map fun r => (r.1, s.noteTeam r.2) }) }

/-- A change of a semaphore, with the test of every wait on it (R252, R253). -/
def State.semChange (s : State) (cl : Nat) (i : TaskInfo) (n : Nat) (f : Sem → Sem) : State :=
  let s := (s.setSem cl i n (f (s.sem cl i n))).testWaits cl i n (s.ctxs.map Prod.fst)
  if i.onGrid n then s.noteTeams else s

/-- A signal: an addition (R252). -/
def State.signal (s : State) (cl : Nat) (i : TaskInfo) (n : Nat) (inc : Int) : State :=
  s.semChange cl i n (·.add inc)

/-- The value that SGET writes: the balance, and the mark in bit 32 (R254). -/
def Sem.word (x : Sem) : Word := BitVec.ofNat 64 (x.bal.toNat + if x.mark then 2 ^ 32 else 0)

/-- An SGET of semaphore `sem` that was issued before moment `born` takes its value now: the context's own operations on one semaphore
enter its order in program order (R252). -/
def SbEntry.take (s : State) (cl : Nat) (i : TaskInfo) (sem born : Nat) (e : SbEntry) : SbEntry :=
  match e.what with
  | .sget n upto => if n = sem ∧ upto < born then { e with what := .scalar { val := (s.sem cl i n).word } } else e
  | _ => e

/-- The SGETs of context `k` of semaphore `sem` issued before moment `born` are performed. -/
def State.doGets (s : State) (k sem born : Nat) : State :=
  let c := s.ctx k
  let isGet (e : SbEntry) : Bool := match e.what with | .sget _ _ => true | _ => false
  if c.sb.any isGet then s.setCtx k { c with sb := c.sb.map (SbEntry.take s (clusterOf k) c.arch.info sem born) } else s

/-- A window whose last bundle is over ends without a flag (R104). -/
def Ctx.closeWindow (c : Ctx) : Ctx :=
  match c.window with
  | some w => if w.left = 0 then { c with window := none } else c
  | none => c

/-- The context's due bundle blocks: an open window ends with F_LOCK set (R104). -/
def Ctx.block (c : Ctx) : Ctx :=
  { c with
    blocked := true, window := none
    arch := { c.arch with csw := if c.window.isSome then cswSet c.arch.csw cswFlock else c.arch.csw } }

/-- Whether the bundle that is due is in the loop buffer (R268). -/
def Ctx.fetchedDue (c : Ctx) : Bool :=
  c.curHalf.residentIn (ptrSeg c.arch.pos) || c.idleHalf.residentIn (ptrSeg c.arch.pos)

/-- The fetch of context `k`'s due bundle is asked for: it blocks where it must wait for it, and its wait is tested when it is
fetched (R253, R268, R269). -/
def State.settle (s : State) (k : Nat) : State :=
  if s.between k then
    let c := ((s.ctx k).request (ptrSeg (s.ctx k).arch.pos)).closeWindow
    if c.fetchedDue then (s.setCtx k c).testWait k else s.setCtx k c.block
  else s

end Sys2Proof.Machine
end

