-- ==== Sys2Proof/Machine/Cache.lean ====
section
/-! DEFINITION. Memory as the cores and the engines reach it, unit by unit: the aligned 8-byte units of an access, the
software-coherent units in an L1, and the engine writes that an agent may still miss (spec/11 R283, R284, spec/12 R299 to R311). -/

namespace Sys2Proof.Machine

/-- The 64-byte line of a unit. -/
def URef.line (r : URef) : Nat := r.pu / 8

/-- A unit on a page of a run list. -/
def Page.unit (p : Page) (vu : Nat) : URef := { vu := vu, pu := p.frame * 8192 + vu % 8192, sc := p.cls == 1, msa := p.msa }

/-- The units that `n` bytes at `va` touch, in ascending order, on the pages of the slot's runs (R292). -/
def urefs (ps : List Page) (va n : Nat) : List URef :=
  (unitsOf va n).map fun vu =>
    match pageOf ps (vu / 8192) with
    | some p => p.unit vu
    | none => { vu := vu, pu := vu, sc := false, msa := false }

/-- A 64-bit mask with eight bits for each set bit of a byte mask. -/
def spreadMask (mask : Nat) : Word :=
  BitVec.ofNat 64 (packNat 8 ((List.range 8).map fun j => if mask.testBit j then 255 else 0))

/-- A unit after a store of the bytes in `mask` (R172). -/
def unitPut (old : Word × Bool) (mask : Nat) (data : Word) (psn : Bool) : Word × Bool :=
  if psn then (0, true)
  else (maskMerge old.1 data (spreadMask mask), if mask = 255 then false else old.2)

/-- A unit of memory: its value and its mark. -/
def State.unit (s : State) (pu : Nat) : Word × Bool := (BitVec.ofNat 64 (s.mem.nat (8 * pu) 8), s.mem.mark pu)

/-- A unit of memory written: copies of it that an error had spoiled are gone, and earlier writes to it are missed no more. -/
def State.setUnit (s : State) (pu : Nat) (x : Word × Bool) : State :=
  { s with
    mem := (s.mem.putBytes (8 * pu) (leBytes 8 x.1.toNat)).setMark pu x.2
    spoiled := s.spoiled.filter fun p => p.2 != pu
    hidden := s.hidden.filter fun h => h.unit != pu }

/-! ### Engine writes that an agent may still miss (R301, R310) -/

/-- The command with a number, in whatever queue. -/
def State.findCmd (s : State) (id : Nat) : Option Cmd :=
  (s.cores.flatMap fun p => p.2.cq ++ p.2.mq ++ p.2.lq).find? fun c => c.id == id

/-- The scope at which a command's writes are performed when its token lands: its SCOPE for the copy engine's (R235), the module for the
others (R204). -/
def State.scopeOf (s : State) (c : Cmd) : Nat := if (s.core c.core).cq.any fun x => x.id == c.id then c.scope else 4

/-- The core of an agent: a context (0), a command (1) or the stream engine of a context (2). -/
def State.agentCore (s : State) (a : Nat × Nat) : Nat :=
  if a.1 = 1 then (match s.findCmd a.2 with | some c => c.core | none => 0) else coreOf a.2

/-- Whether the scope of a write covers an agent (R300). -/
def Hidden.covers (h : Hidden) (a : Nat × Nat) (core : Nat) : Bool :=
  match h.scope with
  | 0 => a == (0, h.ctx)
  | 1 => core == coreOf h.ctx
  | 2 => core / 16 == coreOf h.ctx / 16
  | 3 => core / 128 == coreOf h.ctx / 128
  | _ => true

/-- Whether an agent reads a write or a later one: it has read it before, or the write is performed at a scope that covers it. -/
def State.mustSee (s : State) (a : Nat × Nat) (h : Hidden) : Bool :=
  h.seen.contains a || (h.landed && h.covers a (s.agentCore a))

/-- What follows the last write of a list that an agent must see. -/
def afterLast (f : Hidden → Bool) : List Hidden → List Hidden
  | [] => []
  | h :: r => if r.any f then afterLast f r else if f h then r else h :: r

/-- The writes to a unit that an agent may miss, oldest first. (DEDUCED: log entry 15) -/
def State.missable (s : State) (a : Nat × Nat) (pu : Nat) : List Hidden :=
  afterLast (s.mustSee a) (s.hidden.filter fun h => h.unit == pu)

/-- An agent has read the newest value of a unit. -/
def State.sees (s : State) (a : Nat × Nat) (pu : Nat) : State :=
  { s with hidden := s.hidden.map fun h => if h.unit == pu && !h.seen.contains a then { h with seen := h.seen ++ [a] } else h }

/-- A unit of memory as an agent reads it: with `old`, before the writes that it may miss. (DEDUCED: log entry 16) -/
def State.glance (s : State) (a : Nat × Nat) (old : Bool) (pu : Nat) : State × (Word × Bool) :=
  match (if old then s.missable a pu else []) with
  | [] => (s.sees a pu, s.unit pu)
  | h :: _ => (s, (h.old, h.psn))

/-- The record of the write that an agent is about to make to a unit: of an engine command's alone. -/
def State.hides (s : State) (a : Nat × Nat) (pu : Nat) : List Hidden :=
  match (if a.1 = 1 then s.findCmd a.2 else none) with
  | some c => [{ unit := pu, old := (s.unit pu).1, psn := (s.unit pu).2, ctx := c.ctx, scope := s.scopeOf c, cmd := c.id, seen := [a] }]
  | none => []

/-- The state `t` after an agent's write to some units in state `s`: an engine command's joins those that may be missed. (DEDUCED:
log entry 15) -/
def State.hiding (t s : State) (a : Nat × Nat) (pus : List Nat) : State :=
  match pus.flatMap (s.hides a) with
  | [] => t
  | l => { t with hidden := s.hidden ++ l }

/-- A command's writes are performed at its scope: those at the module's are missed no more (R310). (DEDUCED: log entry 15) -/
def State.showWrites (s : State) (id : Nat) : State :=
  { s with hidden := (s.hidden.filter fun h => !(h.cmd == id && decide (4 ≤ h.scope))).map fun h =>
      if h.cmd = id then { h with landed := true } else h }

/-! ### The L1 (R283, R284, R307) -/

/-- Whether a team bound to the core's cluster has its L1s fused (R284). -/
def State.fusedAt (s : State) (core : Nat) : Bool :=
  (List.range 64).any fun j => let c := s.ctx (clusterOfCore core * 64 + j); c.bound && c.arch.info.fuse

/-- The core whose L1 may hold a unit for `core`: under fusion the address decides (R284). (DEDUCED: log entry 77) -/
def State.l1Home (s : State) (core pu : Nat) : Nat :=
  if s.fusedAt core then
    let pa := 8 * pu
    clusterOfCore core * 16 + ((pa / 64 % 16) ^^^ (pa / 1024 % 16) ^^^ (pa / 16384 % 16) ^^^ (pa / 262144 % 16))
  else core

def Core.l1Unit (c : Core) (pu : Nat) : L1Unit := look {} c.l1 pu

def State.setL1 (s : State) (core pu : Nat) (u : L1Unit) : State :=
  s.setCore core { s.core core with l1 := put {} (s.core core).l1 pu u }

/-- The L1 of `core` writes its unit back if it is dirty, and keeps or drops it. -/
def State.l1Clean (s : State) (core pu : Nat) (discard : Bool) : State :=
  let u := (s.core core).l1Unit pu
  let s := if discard then { s with spoiled := s.spoiled.filter (· != (core, pu)) } else s
  if !u.here then s
  else
    let s := if u.dirty then s.setUnit pu (u.val, u.psn) else s
    s.setL1 core pu (if discard then {} else { u with dirty := false })

/-- Every L1 of a set of cores cleans its units that satisfy `f`. -/
def State.l1Sweep (s : State) (cores : List Nat) (f : Nat → Bool) (discard : Bool) : State :=
  let s := if discard then { s with spoiled := s.spoiled.filter fun p => !(cores.contains p.1 && f p.2) } else s
  cores.foldl (fun s c => (((s.core c).l1.map Prod.fst).filter f).foldl (fun s pu => s.l1Clean c pu discard) s) s

/-- The 8 units of a line. -/
def lineUnits (line : Nat) : List Nat := (List.range 8).map fun j => 8 * line + j

/-- What a core's L1 may hold of a unit is written back and dropped: where fusion places it, and in its own L1, where its core-private
lines stay (R283, R284). -/
def State.dropUnit (s : State) (core pu : Nat) : State := (s.l1Clean (s.l1Home core pu) pu true).l1Clean core pu true

/-- What a core's L1 may hold of a line is written back and dropped. -/
def State.dropLine (s : State) (core line : Nat) : State := (lineUnits line).foldl (fun s pu => s.dropUnit core pu) s

/-- Whether an error has spoiled the clean copy that an access of a core meets (R288): in the L1 where fusion places the unit, or in its
own, where its core-private lines stay (R284). -/
def State.spoilt (s : State) (core pu : Nat) : Bool := s.spoiled.contains (s.l1Home core pu, pu) || s.spoiled.contains (core, pu)

/-- A line of a software-coherent page brought into an L1: the units that it does not hold already (R283). (DESIGN CHOICE: log entry
17) -/
def State.fillLine (s : State) (core line : Nat) : State :=
  (lineUnits line).foldl (fun s pu =>
    if ((s.core core).l1Unit pu).here then s
    else s.setL1 core pu { here := true, val := (s.unit pu).1, psn := (s.unit pu).2 }) s

/-- An L1 takes a unit of a software-coherent page as it was before writes that context `k` may miss. -/
def State.fillOld (s : State) (k c : Nat) (old : Bool) (pu : Nat) : State :=
  match (if old && !((s.core c).l1Unit pu).here then s.missable (0, k) pu else []) with
  | [] => s.sees (0, k) pu
  | h :: _ => s.setL1 c pu { here := true, val := h.old, psn := h.psn }

/-- A core access to a unit as it is read; `old` says that it misses the engine writes that it may miss. -/
def State.readUnit (s : State) (k : Nat) (old : Bool) (r : URef) : State × (Word × Bool) :=
  if r.sc then
    let c := s.l1Home (coreOf k) r.pu
    let s := (s.fillOld k c old r.pu).fillLine c r.line
    let u := (s.core c).l1Unit r.pu
    (s, (u.val, u.psn))
  else
    let x := s.glance (0, k) old r.pu
    (x.1, if s.spoilt (coreOf k) r.pu then (0, true) else x.2)

/-- A core access to a unit as it is written. A store to a line with the memory-side-atomic attribute leaves no dirty copy
(R315). -/
def State.writeUnit (s : State) (k : Nat) (r : URef) (mask : Nat) (data : Word) (psn : Bool) : State :=
  let g := s.readUnit k false r
  if r.sc then
    let c := s.l1Home (coreOf k) r.pu
    let x := unitPut g.2 mask data psn
    let s := g.1.setL1 c r.pu { here := true, val := x.1, psn := x.2, dirty := !r.msa }
    if r.msa then s.setUnit r.pu (unitPut (s.unit r.pu) mask data psn) else s
  else g.1.setUnit r.pu (unitPut g.2 mask data psn)

/-! ### Engines (R283, R310) -/

/-- An agent reads a unit of memory; `lag` names the units whose newest engine writes it misses where it may. (DEDUCED: log entry
16) -/
def State.engineUnit (s : State) (a : Nat × Nat) (lag : List (Nat × Nat)) (pu : Nat) : State × (Word × Bool) :=
  s.glance a (lag.any fun p => p.1 == pu) pu

/-- An agent writes bytes of a unit of memory. (DEDUCED: log entries 15 and 16) -/
def State.engineSet (s : State) (a : Nat × Nat) (pu mask : Nat) (data : Word) (psn : Bool) : State :=
  (s.setUnit pu (unitPut (s.unit pu) mask data psn)).hiding s a [pu]

end Sys2Proof.Machine
end

