-- ==== Sys2Proof/Machine/Updates.lean ====
section
/-! DEFINITION. Atomic updates at memory: the read-modify-write functions, deferred and ordered updates, update-only lines, and
the order log (spec/07 R189 to R192, spec/12 R305, R306, spec/13). -/

namespace Sys2Proof.Machine

/-! ### The functions (R189, R317) -/

/-- The new value of a `w`-bit location, for a format that gives the width (R189, R317). -/
def rmwNew (op : Rmw) (fmt old val cmp : Nat) : Nat :=
  let w := fmtWidth fmt
  let f := fpOf fmt
  let sg (x : Nat) : Int := toSigned w x
  match op with
  | .add => (old + val) % 2 ^ w
  | .fadd => (opAdd f rne (fpDecode f old) (fpDecode f val)).1
  | .mins => if sg val < sg old then val else old
  | .maxs => if sg old < sg val then val else old
  | .minn => min old val
  | .maxn => max old val
  | .fmin => (opMinMax f false false old val).1
  | .fmax => (opMinMax f true false old val).1
  | .fminp => (opMinMax f false true old val).1
  | .fmaxp => (opMinMax f true true old val).1
  | .and_ => old &&& val
  | .or_ => old ||| val
  | .xor_ => old ^^^ val
  | .xchg => val
  | .cas => if old = cmp then val else old

/-- The floating-point updates that R191 orders and R324 logs. -/
def Rmw.float : Rmw → Bool
  | .fadd | .fmin | .fmax | .fminp | .fmaxp => true
  | _ => false

/-! ### Keys, frontiers and sequences (R190, R320) -/

/-- The key part of the team with linear number `l` in a grid (R190, R333). -/
def teamKey (nd : Node) (l : Nat) : Nat :=
  l % nd.gx + 1024 * (l / nd.gx % nd.gy) + 1048576 * (l / (nd.gx * nd.gy))

/-- The phase of a team: 0 in a node that is not deterministic. -/
def phaseOf (nd : Node) (l : Nat) : Nat := if nd.det && nd.pteams != 0 then l / nd.pteams else 0

/-- A task key: phase, team, task, compared as one number (R190). -/
def taskKey (nd : Node) (l t : Nat) : Nat := (phaseOf nd l * 2 ^ 30 + teamKey nd l) * 64 + t

/-- Every task of a node, as linear team and index. -/
def Node.allTasks (nd : Node) : List (Nat × Nat) :=
  (List.range (nd.gx * nd.gy * nd.gz)).flatMap fun l => (List.range nd.tasks).map fun t => (l, t)

/-- Every task of the node with a lower key has retired (R320); a task that never ran counts once it has been reported. -/
def Node.lowerRetired (nd : Node) (key : Nat) : Bool :=
  nd.allTasks.all fun p => taskKey nd p.1 p.2 ≥ key || nd.retired.contains (64 * p.1 + p.2)

def Update.ordered (u : Update) : Bool := u.n.isSome

/-- The physical unit, and the line, of an update's location. -/
def Update.unit (u : Update) : Nat := u.pa / 8
def Update.lineOf (u : Update) : Nat := u.pa / 64

/-- The units, and the lines, of an update's location: an element of a remote CRED may cross into a second unit (R392). -/
def Update.units (u : Update) : List Nat := u.unit :: u.hi.toList
def Update.lines (u : Update) : List Nat := (u.units.map (· / 8)).eraseDups

/-- Whether a reduction or a scatter that has not ended may still send an element to a line: the elements of a running reduction are
known, those of another command may fall anywhere. (DEDUCED: log entry 44) -/
def Cmd.mayReach (c : Cmd) (line : Nat) : Bool :=
  !c.finished &&
  if c.op == 6 && c.started then
    c.todo.any fun n => pagePa (look [] c.pages (locSlot (nth 0 c.quad 1))) (c.dst + n * fmtBytes c.fmt) / 64 == line
  else true

/-- Whether an engine command of the task that took lower keys at its issue may still send an element to the line (R190, R248, R249,
R320). (DEDUCED: log entry 44) -/
def State.reserved (s : State) (u : Update) : Bool :=
  s.cores.any fun p => p.2.cq.any fun c =>
    c.info.uid == u.info.uid && decide (c.ordLo < c.ordHi) && decide (c.ordHi ≤ u.n.getD 0) && u.cmd != some (p.1, c.id) &&
    c.mayReach u.lineOf

/-- An ordered update of the frontier task all of whose earlier updates to the line have been applied (R320). (DEDUCED: log entry
44) -/
def State.isHead (s : State) (u : Update) : Bool :=
  !s.reserved u &&
  (s.launchNode u.info.seq u.info.node).lowerRetired u.info.key &&
  s.updates.all fun v => !(v.ordered && v.info.seq == u.info.seq && v.info.node == u.info.node &&
    v.info.key == u.info.key && decide (v.n.getD 0 < u.n.getD 0) && v.lineOf == u.lineOf)

/-- Whether an open sequence holds an update out: it is of a deterministic node that the update is no part of, to a line of it (R323). -/
def OpenSeq.holdsOut (q : OpenSeq) (u : Update) : Bool :=
  q.det && u.lines.contains q.line && !(q.seq == u.info.seq && q.node == u.info.node)

/-- An outsider update whose line has an open sequence of a deterministic node (R323). (DEDUCED: log entry 43) -/
def State.heldOut (s : State) (u : Update) : Bool := !u.ordered && u.op.float && s.openSeqs.any fun q => q.holdsOut u

/-! ### Replay (R326) -/

/-- Whether a log entry names an update. -/
def LogEntry.names (e : LogEntry) (u : Update) : Bool :=
  e.node == u.info.node && e.team == u.info.key / 64 % 2 ^ 30 && e.task == u.info.task && e.n == u.logN

/-- The log's entries by position. -/
def Launch.entries (l : Launch) : List (Nat × LogEntry) := (List.range l.log.length).zip l.log

/-- Whether replay orders an update: an unordered float update of a launch in replay mode. -/
def Update.replays (u : Update) : Bool := u.info.replay && !u.ordered && u.op.float

/-- The entries that go before an update: for one that the log names, those before its own on that entry's line; for another, all of
its line. -/
def Launch.ahead (l : Launch) (u : Update) : List (Nat × LogEntry) :=
  match l.entries.find? fun p => p.2.names u with
  | some p => l.entries.filter fun q => q.2.va / 64 == p.2.va / 64 && decide (q.1 < p.1)
  | none => l.entries.filter fun q => q.2.va / 64 == u.va / 64

/-- Whether replay lets an update be applied now: every entry that goes before it has been applied or skipped. -/
def State.replayReady (s : State) (u : Update) : Bool :=
  !u.replays ||
    let l := look noLaunch s.launches u.info.seq
    (l.ahead u).all fun p => l.skipped.contains p.1

/-- The record that replay keeps of an applied update: its log position done, or one more divergence. -/
def State.replayDone (s : State) (u : Update) : State :=
  if !u.replays then s
  else s.updLaunch u.info.seq fun l =>
    match l.entries.find? fun p => p.2.names u with
    | some p => { l with skipped := l.skipped ++ [p.1] }
    | none => { l with diverge := bump l.diverge }

/-! ### The order log (R324, R325) -/

/-- A log entry's 32 bytes. -/
def LogEntry.bytes (e : LogEntry) : List Byte :=
  leBytes 8 (e.va % 2 ^ 55) ++ leBytes 4 e.n ++ leBytes 4 (e.team % 2 ^ 30) ++ leBytes 1 (e.task % 64) ++
  leBytes 1 e.kind ++ leBytes 2 e.node ++ leBytes 12 0

/-- The frames of the sealed images, which are pinned and take no write (R274). -/
def State.imagePages (s : State) : List Nat := s.images.flatMap Image.pages

/-- Whole units written at a virtual address by the device itself, their marks cleared: one without a backed translation, or on a page
of a sealed image (R274), is left out. -/
def State.writeWords (s : State) (asid va : Nat) (ws : List Word) : State :=
  ((List.range ws.length).zip ws).foldl (fun s p =>
    match s.translate asid (va + 8 * p.1) with
    | some l => if s.part.backed l.pa && !s.imagePages.contains (l.pa / 65536) then s.setUnit (l.pa / 8) (p.2, false) else s
    | none => s) s

/-- The application of an update is logged in record mode, as made from an update-only line where it stood in one (R324); a full region
drops the entry (R325). -/
def State.logUpdate (s : State) (u : Update) : State :=
  if !u.info.record || u.ordered || !u.op.float then s
  else
    let l := look noLaunch s.launches u.info.seq
    let e : LogEntry := { va := u.va, n := u.logN, team := u.info.key / 64 % 2 ^ 30, task := u.info.task,
                          kind := if u.merged then 2 else 1, node := u.info.node }
    if l.logUsed + 32 ≤ l.logLen then
      (s.writeWords l.asid (l.logAddr + l.logUsed) ((chunks 8 4 e.bytes).map fun b => BitVec.ofNat 64 (leNat b))).updLaunch u.info.seq fun l =>
        { l with logUsed := l.logUsed + 32 }
    else s.updLaunch u.info.seq fun l => { l with overflow := true }

/-! ### Application -/

/-- A waiting result of an update replaced by the value that lands. -/
def landUpdate (id : Nat) (v : SReg) (e : SbEntry) : SbEntry :=
  match e.what with
  | .update j => if j = id then { e with what := .scalar v } else e
  | _ => e

/-- The read-modify-write of one location in memory: a marked location is left as it is (R189), and poisoned data mark it (R172).
Answers the old value, poisoned where nothing may be known of it. (DEDUCED: log entry 37) -/
def State.applyAt (s : State) (pu off : Nat) (op : Rmw) (fmt val cmp : Nat) (psn : Bool) : State × SReg :=
  let x := s.unit pu
  let w := fmtWidth fmt
  let old := bits x.1 (8 * off) w
  if psn then (s.setUnit pu (0, true), { psn := true })
  else if x.2 then (s, { psn := true })
  else (s.setUnit pu (setBits x.1 (8 * off) w (rmwNew op fmt old val cmp), false), { val := BitVec.ofNat 64 old })

/-- The same of a location that crosses from a unit into another (R392): both are read and written. -/
def State.applyAcross (s : State) (pu hi off : Nat) (op : Rmw) (fmt val cmp : Nat) (psn : Bool) : State × SReg :=
  let x := s.unit pu
  let y := s.unit hi
  let w := fmtWidth fmt
  let both := y.1 ++ x.1
  let old := bits both (8 * off) w
  if psn then ((s.setUnit pu (0, true)).setUnit hi (0, true), { psn := true })
  else if x.2 || y.2 then (s, { psn := true })
  else
    let z := setBits both (8 * off) w (rmwNew op fmt old val cmp)
    ((s.setUnit pu (z.extractLsb' 0 64, false)).setUnit hi (z.extractLsb' 64 64, false), { val := BitVec.ofNat 64 old })

/-- An update's read-modify-write. -/
def State.applyRmw (s : State) (u : Update) : State × SReg :=
  match u.hi with
  | none => s.applyAt u.unit (u.va % 8) u.op u.fmt u.val u.cmp u.psn
  | some h => s.applyAcross u.unit h (u.va % 8) u.op u.fmt u.val u.cmp u.psn

/-- The sequence of an ordered update, opened at its first arrival (R320). -/
def State.openSeq (s : State) (u : Update) : State :=
  let q : OpenSeq := { seq := u.info.seq, node := u.info.node, phase := u.info.phase, line := u.lineOf, det := u.info.det }
  if !u.ordered || s.openSeqs.contains q then s else { s with openSeqs := s.openSeqs ++ [q] }

/-- A command one of whose elements met a marked location or brought poisoned data (R235, R248, R249). (DEDUCED: log entry 56) -/
def Core.notePoison (c : Core) (id : Nat) : Core :=
  { c with cq := c.cq.map fun x => if x.id = id then { x with psn := true } else x }

/-- An element's outcome told to the command that sent it. (DEDUCED: log entry 56) -/
def State.tellCmd (s : State) (cmd : Option (Nat × Nat)) (psn : Bool) : State :=
  match cmd, psn with
  | some (core, id), true => s.setCore core ((s.core core).notePoison id)
  | _, _ => s

/-- An update applied at its point of execution, logged, and removed; the issuing core's L1 writes back and drops the line
(R315), and the result of an atomic that returns one may land. -/
def State.applyUpdate (s : State) (u : Update) : State :=
  let s := s.openSeq u
  let s := if u.cmd.isSome || u.sender.isSome then s else s.dropLine u.core u.lineOf
  let r := s.applyRmw u
  let t := match u.cmd with | some c => r.1.hiding s (1, c.2) u.units | none => r.1
  let s := ((t.logUpdate u).replayDone u).tellCmd u.cmd r.2.psn
  let s := { s with updates := s.updates.filter fun v => v.id != u.id }
  match u.owner, u.ret with
  | some k, true => s.setCtx k { s.ctx k with sb := (s.ctx k).sb.map (landUpdate u.id r.2) }
  | _, _ => s

def State.findUpdate (s : State) (id : Nat) : Option Update := s.updates.find? fun u => u.id == id

/-! ### The ordered-atomic buffer's room (R321) -/

/-- The waiting updates of a slice. -/
def State.sliceWaiting (s : State) (slice : Nat) : List Update :=
  s.updates.filter fun u => u.status == .waiting && s.part.homeSlice u.pa == slice

/-- The sequence record that a waiting update takes: of its ordered sequence, or of its line's replay sequence (R321, R326); an
outsider that is held takes none (R323). -/
def State.recordOf (s : State) (u : Update) : Option (Nat × Nat × Nat × Nat) :=
  if u.ordered then some (u.info.seq, u.info.node + 1, u.info.phase, u.lineOf)
  else if !s.replayReady u then some (u.info.seq, 0, 0, u.lineOf)
  else none

/-- Whether the buffer of the update's slice has no room: 2,048 entries, and 64 sequence records (R321). -/
def State.bufferFull (s : State) (u : Update) : Bool :=
  let w := s.sliceWaiting (s.part.homeSlice u.pa)
  let recs := (w.filterMap s.recordOf).eraseDups
  decide (2048 ≤ w.length) ||
    match s.recordOf u with
    | some r => !recs.contains r && decide (64 ≤ recs.length)
    | none => false

/-- An update's status changed. -/
def State.setStatus (s : State) (id : Nat) (st : UpdStatus) : State :=
  { s with updates := s.updates.map fun u =>
      if u.id = id then { u with status := st, born := if st = .refused then s.time else u.born } else u }

/-- An update that must wait is held in the buffer, or refused where it has no room (R321, R323). (DEDUCED: log entry 43) -/
def State.holdUpdate (s : State) (u : Update) : State := s.setStatus u.id (if s.bufferFull u then .refused else .waiting)

/-! ### Update-only lines (R306, R318, R319) -/

/-- Updates of a line that reach their point of execution one after another, by number: one that a deterministic sequence holds out
waits (R323), any other is applied. (DEDUCED: log entry 43) -/
def State.applyAll (s : State) : List Nat → State
  | [] => s
  | id :: r =>
    (match s.findUpdate id with
     | some u => if s.heldOut u then s.holdUpdate u else s.applyUpdate u
     | none => s).applyAll r

/-- The update-only line of a core merges into memory: its updates are applied in the order `first`, then those not named. `by_` is
the agent whose access makes the merge. -/
def State.mergeLine (s : State) (by_ : Option (Nat × Nat)) (core line : Nat) (first : List Nat) : State :=
  let ids := (((s.core core).lines.filter fun p => p.1 == line).map Prod.snd).flatten
  let order := (first.filter ids.contains) ++ ids.filter fun i => !first.contains i
  let s := s.setCore core { s.core core with lines := (s.core core).lines.filter fun p => p.1 != line }
  let send (u : Update) : Update :=
    if ids.contains u.id then { u with status := .transit, merged := true, before := by_.toList } else u
  { s with updates := s.updates.map send }.applyAll order

/-- An access to a line merges every update-only copy of it first (R306). -/
def State.touchLine (s : State) (by_ : Option (Nat × Nat)) (line : Nat) : State :=
  (s.cores.map Prod.fst).foldl (fun s c =>
    if (s.core c).lines.any fun p => p.1 == line then s.mergeLine by_ c line [] else s) s

/-- Accesses to several lines, in order. (DEDUCED: log entry 35) -/
def State.touchLines (s : State) (by_ : Option (Nat × Nat)) : List Nat → State
  | [] => s
  | l :: r => (s.touchLine by_ l).touchLines by_ r

/-- Whether a merge of a line is in flight: the buffer holds one of its updates (R319). -/
def State.merging (s : State) (line : Nat) : Bool := s.updates.any fun u => u.merged && u.lineOf == line

/-- Whether an agent's access to a line has made a merge that is still in flight: the access begins after it (R306, R319). (DEDUCED:
log entry 43) -/
def State.barred (s : State) (by_ : Nat × Nat) (line : Nat) : Bool :=
  s.updates.any fun u => u.merged && u.lineOf == line && u.before.contains by_

/-- Every update-only line that holds an update of context `k` merges: a FENCE, a release or retirement of the context (R306). -/
def State.mergeOwn (s : State) (k : Nat) : State :=
  let c := coreOf k
  let mine (p : Nat × List Nat) : Bool := s.updates.any fun u => u.owner == some k && p.2.contains u.id
  ((s.core c).lines.filter mine).foldl (fun s p => s.mergeLine none c p.1 []) s

/-- Room made for an element of a line: a full line merges first, and so does the oldest line when all 32 are in use (R318). -/
def State.roomInLine (s : State) (core line : Nat) : State :=
  match ((s.core core).lines.filter fun p => p.1 == line).map fun p => p.2.length with
  | n :: _ => if 16 ≤ n then s.mergeLine none core line [] else s
  | [] =>
    match (s.core core).lines with
    | p :: _ => if 32 ≤ (s.core core).lines.length then s.mergeLine none core p.1 [] else s
    | [] => s

/-- Whether an access is an atomic that has been applied, or that waits for its point of execution as ordered, held or replayed: it keeps
no later access back but those to its location. -/
def State.lateOver (s : State) (l : Late) : Bool :=
  match l.op with
  | .atomic => match s.findUpdate l.id with | some u => u.ordered || s.heldOut u || !s.replayReady u | none => true
  | _ => false

/-- Whether a core access of the update's own context comes before it: an earlier update to the location that has not been applied,
where one of the two returns its value, or an earlier access whose point in T has not come (R302, R303, R305). (DEDUCED: log entries
18 and 37) -/
def State.afterOwn (s : State) (u : Update) : Bool :=
  (s.updates.any fun v => u.owner.isSome && v.owner == u.owner && decide (v.id < u.id) && v.unit == u.unit && (v.ret || u.ret)) ||
  match u.owner with
  | some k => (s.ctx k).late.any fun l => decide (l.id < u.id) && !s.lateOver l
  | none => false

/-- A SCADD element, one of the updates, enters an update-only line of its core (R318), or waits while a merge of its line is in
flight (R319) or an own access comes before it (R302). (DEDUCED: log entry 43) -/
def State.enterLine (s : State) (u : Update) : State :=
  let line := u.lineOf
  if s.merging line || s.afterOwn u then s.setStatus u.id .behind
  else
    let s := s.roomInLine u.core line
    if s.merging line then s.setStatus u.id .behind
    else
      let co := s.core u.core
      (s.setCore u.core { co with
        lines := if listed co.lines line then revise co.lines line (· ++ [u.id]) else co.lines ++ [(line, [u.id])] }).setStatus u.id .line

/-! ### A context's outstanding updates (R302, R305, R316) -/

/-- The updates of a context that have not been applied. (DEDUCED: log entry 18) -/
def State.ownUpdates (s : State) (k : Nat) : List Update := s.updates.filter fun u => u.owner == some k

/-- Deferred-update entries in use: one for each no-return atomic, one for a SCADD with elements that have not entered an update-only
line. -/
def State.entriesUsed (s : State) (k : Nat) : Nat :=
  (((s.ownUpdates k).filter fun u => !u.ret && u.status != .line && !u.merged).map fun u => u.group).eraseDups.length

/-- Whether an update meets the conditions of its application: its place in key order, no sequence that holds it out, its place in the
log, and its own context's earlier accesses (R302, R320, R323, R326). -/
def State.mayApply (s : State) (u : Update) : Bool :=
  (if u.ordered then s.isHead u else !s.heldOut u) && s.replayReady u && !s.afterOwn u

/-- An update applied where it stands, as an access to its line; one that must wait for a merge, or behind one, is left as it is. An
ordered update, or one sent by a merge, waits for no merge (R319, R322). -/
def State.applyFresh (s : State) (u : Update) : State :=
  if u.merged then s.applyUpdate u
  else if u.status = .behind then (if s.merging u.lineOf then s else s.applyUpdate { u with merged := true })
  else
    let by_ : Nat × Nat := match u.owner, u.cmd with
      | some k, _ => (0, k)
      | none, some c => (1, c.2)
      | none, none => (3, 0)
    let t := s.touchLines (some by_) u.lines
    if !u.ordered && u.lines.any (t.barred by_) then t else t.applyUpdate u

/-- Own updates to the units of an access, issued before it, are applied before it (R305), as far as they may be. (DEDUCED: log
entry 18) -/
def State.applyOwn (s : State) (k upto : Nat) (pus : List Nat) : State :=
  ((s.updates.filter fun u => u.owner == some k && decide (u.id < upto) && pus.contains u.unit).map fun u => u.id).foldl (fun s id =>
    match s.findUpdate id with
    | some u => if u.status != .refused && s.mayApply u then s.applyFresh u else s
    | none => s) s

/-- Whether an own update to the units of an access, issued before it, has still to be applied. (DEDUCED: log entry 18) -/
def State.ownLeft (s : State) (k upto : Nat) (pus : List Nat) : Bool :=
  s.updates.any fun u => u.owner == some k && decide (u.id < upto) && pus.contains u.unit

/-- Before the access with number `upto` of context `k`: update-only lines merge, and own updates to the location are applied; and
whether the access may go on. (DEDUCED: log entry 18) -/
def State.ready (s : State) (k upto : Nat) (us : List URef) : State × Bool :=
  let ls := (us.map URef.line).eraseDups
  let pus := us.map URef.pu
  let s := (s.touchLines (some (0, k)) ls).applyOwn k upto pus
  (s, !s.ownLeft k upto pus && !ls.any (s.barred (0, k)))

/-- The releases of context `k` whose earlier updates, accesses and flushes are done are applied, in order (R304). -/
def State.releaseFrom (s : State) (k : Nat) : List PendSig → State
  | [] => s.setCtx k { s.ctx k with signals := [] }
  | p :: r =>
    let done := p.waits.all fun id =>
      !(s.updates.any fun u => u.id == id) && !((s.ctx k).flushes.any fun f => f.id == id) && !((s.ctx k).late.any fun l => l.id == id && !s.lateOver l)
    if done then
      let s := (s.setCtx k { s.ctx k with signals := r }).doGets k p.sem p.born
      (s.signal (clusterOf k) (s.ctx k).arch.info p.sem p.inc).releaseFrom k r
    else s.setCtx k { s.ctx k with signals := p :: r }

def State.release (s : State) (k : Nat) : State := s.releaseFrom k (s.ctx k).signals

/-- The releases of every context that may go now. -/
def State.releaseAll (s : State) : State :=
  (s.ctxs.map Prod.fst).foldl (fun s k => if (s.ctx k).signals.isEmpty then s else s.release k) s

/-! ### The events of the ordered-atomic buffer (R321 to R323) -/

/-- An earlier ordered update of the same task to the same line that has not arrived, or that a command may still send (R321).
(DEDUCED: log entry 44) -/
def State.laterOf (s : State) (u : Update) : Bool :=
  u.ordered && (s.reserved u ||
    s.updates.any fun v => v.ordered && v.info.uid == u.info.uid && decide (v.n.getD 0 < u.n.getD 0) &&
      v.lineOf == u.lineOf && (v.status == .transit || v.status == .refused))

/-- Waiting head updates are applied at once when the frontier, or the replay of their line, advances, in ascending order (R321,
R326). -/
def State.drainHeads (s : State) : Nat → State
  | 0 => s
  | fuel + 1 =>
    match s.updates.find? fun u => (u.ordered || u.replays) && u.status == .waiting && s.mayApply u with
    | none => s
    | some u => (s.applyFresh u).drainHeads fuel

/-- Updates are applied in an order that the spec leaves open (R323). (DESIGN CHOICE: log entry 120) -/
def State.applyAny (s : State) : Nat → List Nat → State
  | 0, _ => s
  | fuel + 1, ids =>
    match ids[Config.freeValue s.draws % ids.length]? with
    | none => s
    | some id =>
      let s := { s with draws := s.draws + 1 }
      (match s.findUpdate id with | some u => s.applyFresh u | none => s).applyAny fuel (ids.erase id)

/-- Updates that were held out and that no sequence holds out any more, those of a node's later phases apart, are applied (R323).
(DESIGN CHOICE: log entry 120) -/
def State.freeHeld (s : State) (seq node : Nat) : State :=
  let may (u : Update) : Bool :=
    u.status == .waiting && !u.ordered && s.replayReady u &&
    !(s.openSeqs.any fun q => u.op.float && q.holdsOut u && !(q.seq == seq && q.node == node))
  let ids := (s.updates.filter may).map fun u => u.id
  s.applyAny ids.length ids

/-- Waiting updates that nothing keeps back any more are applied, and the releases that they held go. -/
def State.drain (s : State) : State := ((s.freeHeld 0 0).drainHeads s.updates.length).releaseAll

/-- UPDATE_ONLY_MERGE (R306): the line is evicted; its updates are applied in the order given. -/
def execUpdateOnlyMerge (core line : Nat) (first : List Nat) (s : State) : Out :=
  .next (s.mergeLine none core line first).releaseAll

/-- ORDERED_UPDATE_ARRIVAL (R321, R323, R326): an update reaches its home slice: it is applied, held, or refused when the buffer has no
room for it. The core holds back an ordered update while an earlier one of its task to the line has not arrived. -/
def execOrderedUpdateArrival (id : Nat) (s : State) : Out :=
  match s.findUpdate id with
  | none => .next s
  | some u =>
    if u.status != .transit || s.laterOf u || s.afterOwn u then .next s
    else
      let s := s.openSeq u
      .next (if s.mayApply u then (s.applyFresh u).drain else s.holdUpdate u)

/-- ORDERED_UPDATE_RESEND (R321): at least 64 core cycles after its refusal the update is sent again. -/
def execOrderedUpdateResend (id : Nat) (s : State) : Out :=
  match s.findUpdate id with
  | none => .next s
  | some u => .next (if u.status == .refused && decide (u.born + 64 ≤ s.time) then s.setStatus id .transit else s)

end Sys2Proof.Machine
end

