-- ==== Sys2Proof/Machine/Late.lean ====
section
/-! DEFINITION. Core accesses at their points in T: what a load, a store, a scatter and an NCAS do there, the accesses of a context whose
points are still to come, and the events by which updates and accesses reach their points (spec/07 R171 to R173, R192, spec/12 R302 to
R306). -/

namespace Sys2Proof.Machine

/-! ### Reading and writing (R171 to R173) -/

/-- The units of an access read in turn; `old` says that it misses the engine writes that it may miss. -/
def State.readUnits (s : State) (k : Nat) (old : Bool) : List URef → State × List (Word × Bool)
  | [] => (s, [])
  | r :: rest =>
    let x := s.readUnit k old r
    let t := x.1.readUnits k old rest
    (t.1, x.2 :: t.2)

/-- `n` bytes at `va` out of the units that they touch, and whether any unit is marked. -/
def unitBytes (va n : Nat) (xs : List (Word × Bool)) : List Byte × Bool :=
  (((xs.flatMap fun x => leBytes 8 x.1.toNat).drop (va % 8)).take n, xs.any fun x => x.2)

/-- The byte mask and the data of unit `vu` for bytes stored at `va`. -/
def unitPart (vu va : Nat) (bs : List Byte) : Nat × Word :=
  let at_ (j : Nat) : Option Byte := if va ≤ 8 * vu + j then bs[8 * vu + j - va]? else none
  let l := (List.range 8).map at_
  (((List.range 8).filter fun j => (at_ j).isSome).foldl (fun m j => m + 2 ^ j) 0,
   BitVec.ofNat 64 (packNat 8 (l.map fun b => (b.getD 0).toNat)))

def State.writeUnits (s : State) (k va : Nat) (bs : List Byte) (psn : Bool) : List URef → State
  | [] => s
  | r :: rest =>
    let p := unitPart r.vu va bs
    (s.writeUnit k r p.1 p.2 psn).writeUnits k va bs psn rest

/-- Before an access that bypasses the L1: the core's own copies of the lines are written back and dropped (R283, R315). -/
def State.bypass (s : State) (k : Nat) (us : List URef) : State :=
  ((us.map URef.line).eraseDups).foldl (fun s line => s.dropLine (coreOf k) line) s

/-- A store to units that bypasses the L1, as SCAT's are (R283). -/
def State.directStore (s : State) (k va : Nat) (us : List URef) (bs : List Byte) (psn : Bool) : State :=
  (s.bypass k us).writeUnits k va bs psn (us.map fun r => { r with sc := false })

/-- A scatter's element stores in ascending order, each by its address, its units and its bytes, so that the highest element of a target
stays (R186). -/
def State.scatterAll (s : State) (k : Nat) (psn : Bool) (els : List (Nat × List URef × List Byte)) : State :=
  els.foldl (fun s e => s.directStore k e.1 e.2.1 e.2.2 psn) s

/-- The compare-and-swap of two units at their point of execution; the old values, poisoned where nothing may be known. -/
def State.ncasAt (s : State) (pu : Nat) (cmpLo cmpHi newLo newHi : Word) (psn : Bool) : State × Word × Word × Bool :=
  let lo := s.unit pu
  let hi := s.unit (pu + 1)
  if psn then ((s.setUnit pu (0, true)).setUnit (pu + 1) (0, true), 0, 0, true)
  else if lo.2 || hi.2 then (s, 0, 0, true)
  else if lo.1 = cmpLo ∧ hi.1 = cmpHi then ((s.setUnit pu (newLo, false)).setUnit (pu + 1) (newHi, false), lo.1, hi.1, false)
  else (s, lo.1, hi.1, false)

/-- A scalar value that landed or was loaded; poisoned bits are zero (R13, R171). -/
def loadedS (bs : List Byte) (psn : Bool) : SReg := if psn then { psn := true } else { val := BitVec.ofNat 64 (leNat bs) }

/-- A vector value loaded under a tag (R171). -/
def loadedV (bs : List Byte) (tag : Nat) (psn : Bool) : VReg :=
  { bits := if psn then 0 else BitVec.ofNat 2048 (leNat bs), tag := tag, psn := psn }

/-- The value of a tensor's element that LDT lands (R77, R180): its bits, or the FP32 value of a packet element. (DEDUCED: log entry
110) -/
def elemValue (fmt : Nat) (inPacket : Option Nat) (neg : Bool) (bs : List Byte) : Nat :=
  match inPacket with
  | some n =>
    let x := packetDecode fmt (leNat bs) n
    (fpRound (fpOf fFp32) rne (if neg then x.neg else x)).1
  | none => if neg then negElem fmt (leNat bs) else leNat bs

/-- What a load lands as, of the units that it has read, and whether it is poisoned (R171). -/
def LoadForm.landed (form : LoadForm) (va n : Nat) (us : List URef) (xs : List (Word × Bool)) : Payload × Bool :=
  let b := unitBytes va n xs
  match form with
  | .scalar => (.scalar (loadedS b.1 b.2), b.2)
  | .vector tag => (.vector (loadedV b.1 tag b.2), b.2)
  | .elem fmt p neg ranges =>
    let psn := (us.zip xs).any fun x => x.2.2 && ranges.any fun r => (unitsOf r.1 r.2).contains x.1.vu
    (.scalar (if psn then { psn := true } else { val := BitVec.ofNat 64 (elemValue fmt p neg b.1) }), psn)

/-- The poison counter of a context counts a speculative load that returns poison (R275). -/
def State.countPoison (s : State) (k : Nat) (b : Bool) : State :=
  if b then
    let c := s.ctx k
    s.setCtx k { c with arch := { c.arch with poisons := bump c.arch.poisons } }
  else s

/-- A load of context `k` at its point in T: what it lands as. -/
def State.loadNow (s : State) (k : Nat) (old : Bool) (us : List URef) (va n : Nat) (form : LoadForm) (spec : Bool) : State × Payload :=
  let r := s.readUnits k old us
  let p := form.landed va n us r.2
  (r.1.countPoison k (spec && p.2), p.1)

/-! ### The accesses whose points in T are still to come (R303) -/

/-- A scoreboard entry whose access has had its point in T. -/
def SbEntry.fill (id : Nat) (p : Payload) (e : SbEntry) : SbEntry :=
  match e.what with
  | .late j => if j = id then { e with what := p } else e
  | _ => e

/-- The result of an access, which may land now. -/
def State.fillSb (s : State) (k id : Nat) (p : Payload) : State :=
  s.setCtx k { s.ctx k with sb := (s.ctx k).sb.map (SbEntry.fill id p) }

/-- An access of context `k` has its point in T. -/
def State.perform (s : State) (k : Nat) (l : Late) : State :=
  match l.op with
  | .load form spec =>
    let r := s.loadNow k l.old l.refs l.va l.n form spec
    r.1.fillSb k l.id r.2
  | .store bs psn => s.writeUnits k l.va bs psn l.refs
  | .scatter els psn => s.scatterAll k psn (els.map fun e => (e.1, l.refs.filter (fun r => (unitsOf e.1 e.2.length).contains r.vu), e.2))
  | .ncas cmpLo cmpHi newLo newHi psn =>
    let s := s.bypass k l.refs
    let r := s.ncasAt ((l.refs.map URef.pu).headD 0) cmpLo cmpHi newLo newHi psn
    r.1.fillSb k l.id (.pair r.2.1 r.2.2.1 r.2.2.2)
  | .atomic => match s.findUpdate l.id with | some u => s.applyFresh u | none => s

/-- The first of a context's accesses is over. -/
def State.popLate (s : State) (k : Nat) : State := s.setCtx k { s.ctx k with late := (s.ctx k).late.drop 1 }

/-- The first of a context's accesses has its point in T, where own updates and merges let it; and whether it had. (DEDUCED: log
entry 14) -/
def State.lateStep (s : State) (k : Nat) : State × Bool :=
  match (s.ctx k).late with
  | [] => (s, false)
  | l :: _ =>
    if s.lateOver l then (s.popLate k, true)
    else
      let g := s.ready k l.id l.refs
      if !g.2 then (g.1, false)
      else
        let t := g.1.perform k l
        if l.op = .atomic ∧ !t.lateOver l then (t, false) else (t.popLate k, true)

/-- Some of a context's accesses have their points in T, in program order, until one must wait. (DEDUCED: log entry 14) -/
def State.lateSteps (s : State) (k : Nat) : Nat → State
  | 0 => s
  | n + 1 =>
    let x := s.lateStep k
    if x.2 then x.1.lateSteps k n else x.1

/-- All of a context's accesses have their points in T, as far as they may. -/
def State.inOrder (s : State) (k : Nat) : State := s.lateSteps k (s.ctx k).late.length

/-- Whether a context has accesses whose points in T are still to come. -/
def State.owesLate (s : State) (k : Nat) : Bool := !(s.ctx k).late.isEmpty

/-! ### Events (R305, R319, R321) -/

/-- The contexts' accesses up to number `id` have their points in T, as far as they may. (DEDUCED: log entry 14) -/
def State.lateUpTo (s : State) (id : Nat) : State :=
  match s.ctxs.find? fun p => p.2.late.any fun l => l.id == id with
  | some p => (s.lateSteps p.1 (p.2.late.findIdx (fun l => l.id == id) + 1)).releaseAll
  | none => s

/-- DEFERRED_UPDATE_APPLY (R303, R305, R319): an update on its way, or held until its sequence closed, is applied; an element that
stood behind a merge or an own access enters a fresh line; or a core access has its point in T. (DEDUCED: log entry 14) -/
def execDeferredUpdateApply (id : Nat) (s : State) : Out :=
  match s.findUpdate id with
  | none => .next (s.lateUpTo id)
  | some u =>
    if u.status = .behind then .next (if s.merging u.lineOf || s.afterOwn u then s else s.enterLine u)
    else
      let going := u.status == .waiting || (!u.ordered && u.status == .transit)
      .next (if going && s.mayApply u then (s.applyFresh u).drain else s.lateUpTo id)

end Sys2Proof.Machine
end

