-- ==== Sys2Proof/Machine/Scalar.lean ====
section
/-! DEFINITION. The integer operations of the S slot (spec/05 R120 to R129, R140). -/

namespace Sys2Proof.Machine

/-- A source register as read at issue (R32, R120). -/
def State.rdS (s : State) (r : BitVec 6) : SReg := s.arch.readS r

/-- The result of an operation that reads `srcs`: poisoned, and zero, when any of them is poisoned (R14, R120). -/
def sResult (srcs : List SReg) (v : Word) : SReg :=
  if srcs.any SReg.psn then { val := 0, psn := true } else { val := v, psn := false }

/-- A scalar result of latency `lat` (R37, R120). -/
def State.putS (s : State) (d : BitVec 6) (lat : Nat) (r : SReg) : State := s.emit lat (.s d.toNat r)

/-- An operation of two sources (R121). -/
def binary (lat : Nat) (op : Word → Word → Word) (f : SR) (s : State) : Out :=
  let a := s.rdS f.a
  let b := s.rdS f.b
  .next (s.putS f.d lat (sResult [a, b] (op a.val b.val)))

/-- An operation of one source and constants of the word. -/
def unary (lat : Nat) (op : Word → Word) (d a : BitVec 6) (s : State) : Out :=
  let a := s.rdS a
  .next (s.putS d lat (sResult [a] (op a.val)))

def mulHigh (signed : Bool) (a b : Word) : Word :=
  if signed then BitVec.ofInt 64 (a.toInt * b.toInt / (2 ^ 64 : Int)) else BitVec.ofNat 64 (a.toNat * b.toNat / 2 ^ 64)

def shiftLeft (a : Word) (n : Nat) : Word := a <<< (n % 64)
def shiftRight (a : Word) (n : Nat) : Word := a >>> (n % 64)
def shiftArith (a : Word) (n : Nat) : Word := a.sshiftRight (n % 64)
def rotate (a : Word) (n : Nat) : Word := a.rotateLeft (n % 64)

def flag (b : Bool) : Word := if b then 1 else 0

/-- ADD (R122). -/
def execAdd (f : SR) (s : State) : Out := binary 1 (fun a b => a + b) f s
/-- SUB (R122). -/
def execSub (f : SR) (s : State) : Out := binary 1 (fun a b => a - b) f s
/-- MUL (R122): latency 3. -/
def execMul (f : SR) (s : State) : Out := binary 3 (fun a b => a * b) f s
/-- MULHS (R122). -/
def execMulhs (f : SR) (s : State) : Out := binary 3 (mulHigh true) f s
/-- MULHN (R122). -/
def execMulhn (f : SR) (s : State) : Out := binary 3 (mulHigh false) f s
/-- AND (R122). -/
def execAnd (f : SR) (s : State) : Out := binary 1 (fun a b => a &&& b) f s
/-- OR (R122). -/
def execOr (f : SR) (s : State) : Out := binary 1 (fun a b => a ||| b) f s
/-- XOR (R122). -/
def execXor (f : SR) (s : State) : Out := binary 1 (fun a b => a ^^^ b) f s
/-- ANDN (R122). -/
def execAndn (f : SR) (s : State) : Out := binary 1 (fun a b => a &&& ~~~b) f s
/-- SHL (R122): the count is B[5:0]. -/
def execShl (f : SR) (s : State) : Out := binary 1 (fun a b => shiftLeft a b.toNat) f s
/-- SHR (R122). -/
def execShr (f : SR) (s : State) : Out := binary 1 (fun a b => shiftRight a b.toNat) f s
/-- SAR (R122). -/
def execSar (f : SR) (s : State) : Out := binary 1 (fun a b => shiftArith a b.toNat) f s
/-- ROTL (R122). -/
def execRotl (f : SR) (s : State) : Out := binary 1 (fun a b => rotate a b.toNat) f s
/-- MINS (R122). -/
def execMins (f : SR) (s : State) : Out := binary 1 (fun a b => if a.slt b then a else b) f s
/-- MAXS (R122). -/
def execMaxs (f : SR) (s : State) : Out := binary 1 (fun a b => if a.slt b then b else a) f s
/-- MINN (R122). -/
def execMinn (f : SR) (s : State) : Out := binary 1 (fun a b => if a.ult b then a else b) f s
/-- MAXN (R122). -/
def execMaxn (f : SR) (s : State) : Out := binary 1 (fun a b => if a.ult b then b else a) f s
/-- MOV (R122). -/
def execMov (f : SR) (s : State) : Out := unary 1 id f.d f.a s

/-- Quotient and remainder of R124 for a divisor that is not zero. -/
def divide (signed : Bool) (a b : Word) : Word × Word :=
  if signed then
    if a = 0x8000000000000000#64 ∧ b = 0xFFFFFFFFFFFFFFFF#64 then (a, 0)
    else
      let q := Int.tdiv a.toInt b.toInt
      (BitVec.ofInt 64 q, BitVec.ofInt 64 (a.toInt - q * b.toInt))
  else (BitVec.ofNat 64 (a.toNat / b.toNat), BitVec.ofNat 64 (a.toNat % b.toNat))

/-- The four divisions (R123, R124): scoreboarded, with DIVZ or F_DZ on a zero divisor. (DEDUCED: log entry 20) -/
def division (signed quot : Bool) (f : SR) (s : State) : Out :=
  let a := s.rdS f.a
  let b := s.rdS f.b
  let pick (qr : Word × Word) : Word := if quot then qr.1 else qr.2
  finish s (
    if a.psn || b.psn then .ok (s.emitSb (.s f.d.toNat) (.scalar { val := 0, psn := true }))
    else if b.val = 0 then
      if s.cur.csw.getLsbD cswEnDz then .trap s trDivz 0
      else
        let s := s.setArch { s.arch with csw := cswSet s.arch.csw cswFdz }
        .ok (s.emitSb (.s f.d.toNat) (.scalar { val := pick (BitVec.allOnes 64, a.val) }))
    else .ok (s.emitSb (.s f.d.toNat) (.scalar { val := pick (divide signed a.val b.val) })))

/-- DIVS (R124). -/
def execDivs (f : SR) (s : State) : Out := division true true f s
/-- DIVN (R124). -/
def execDivn (f : SR) (s : State) : Out := division false true f s
/-- REMS (R124). -/
def execRems (f : SR) (s : State) : Out := division true false f s
/-- REMN (R124). -/
def execRemn (f : SR) (s : State) : Out := division false false f s

/-- The immediate of form SI, sign-extended (R126). -/
def immOf (f : SI) : Word := f.imm.signExtend 64

/-- ADDI (R126). -/
def execAddi (f : SI) (s : State) : Out := unary 1 (fun a => a + immOf f) f.d f.a s
/-- MULI (R126): latency 3. -/
def execMuli (f : SI) (s : State) : Out := unary 3 (fun a => a * immOf f) f.d f.a s
/-- ANDI (R126). -/
def execAndi (f : SI) (s : State) : Out := unary 1 (fun a => a &&& immOf f) f.d f.a s
/-- ORI (R126). -/
def execOri (f : SI) (s : State) : Out := unary 1 (fun a => a ||| immOf f) f.d f.a s
/-- XORI (R126). -/
def execXori (f : SI) (s : State) : Out := unary 1 (fun a => a ^^^ immOf f) f.d f.a s
/-- LI (R126). -/
def execLi (f : SI) (s : State) : Out := .next (s.putS f.d 1 (sResult [] (immOf f)))
/-- LIH (R126): D is read at issue, and its poison propagates. -/
def execLih (f : SI) (s : State) : Out := unary 1 (fun d => f.imm ++ d.extractLsb' 0 32) f.d f.d s

/-- SHLI (R128). -/
def execShli (f : SF) (s : State) : Out := unary 1 (fun a => shiftLeft a f.lsb.toNat) f.d f.a s
/-- SHRI (R128). -/
def execShri (f : SF) (s : State) : Out := unary 1 (fun a => shiftRight a f.lsb.toNat) f.d f.a s
/-- SARI (R128). -/
def execSari (f : SF) (s : State) : Out := unary 1 (fun a => shiftArith a f.lsb.toNat) f.d f.a s
/-- ROTLI (R128). -/
def execRotli (f : SF) (s : State) : Out := unary 1 (fun a => rotate a f.lsb.toNat) f.d f.a s
/-- CLZ (R128). -/
def execClz (f : SF) (s : State) : Out := unary 1 (fun a => BitVec.ofNat 64 (leadingZeros 64 a.toNat)) f.d f.a s
/-- CTZ (R128). -/
def execCtz (f : SF) (s : State) : Out := unary 1 (fun a => BitVec.ofNat 64 (trailingZeros 64 0 a.toNat)) f.d f.a s
/-- POPC (R128). -/
def execPopc (f : SF) (s : State) : Out := unary 1 (fun a => BitVec.ofNat 64 (onesCount 64 a.toNat)) f.d f.a s
/-- BSWAP (R128). -/
def execBswap (f : SF) (s : State) : Out := unary 1 byteSwap f.d f.a s
/-- BFX (R128). -/
def execBfx (f : SF) (s : State) : Out :=
  unary 1 (fun a => BitVec.ofNat 64 (bits a f.lsb.toNat f.width.toNat)) f.d f.a s
/-- BFI (R128): D is read at issue, and its poison propagates. -/
def execBfi (f : SF) (s : State) : Out :=
  let a := s.rdS f.a
  let d := s.rdS f.d
  let m := BitVec.ofNat 64 ((2 ^ f.width.toNat - 1) * 2 ^ f.lsb.toNat)
  .next (s.putS f.d 1 (sResult [a, d] (maskMerge d.val (a.val <<< f.lsb.toNat) m)))
/-- SEXT (R128). -/
def execSext (f : SF) (s : State) : Out := unary 1 (fun a => sext64 a.toNat f.width.toNat) f.d f.a s
/-- ZEXT (R128). -/
def execZext (f : SF) (s : State) : Out := unary 1 (fun a => zext64 a.toNat f.width.toNat) f.d f.a s

/-- SEQ (R129). -/
def execSeq (f : SR) (s : State) : Out := binary 1 (fun a b => flag (a == b)) f s
/-- SNE (R129). -/
def execSne (f : SR) (s : State) : Out := binary 1 (fun a b => flag (a != b)) f s
/-- SLT (R129). -/
def execSlt (f : SR) (s : State) : Out := binary 1 (fun a b => flag (a.slt b)) f s
/-- SLE (R129). -/
def execSle (f : SR) (s : State) : Out := binary 1 (fun a b => flag (a.sle b)) f s
/-- SLTN (R129). -/
def execSltn (f : SR) (s : State) : Out := binary 1 (fun a b => flag (a.ult b)) f s
/-- SLEN (R129). -/
def execSlen (f : SR) (s : State) : Out := binary 1 (fun a b => flag (a.ule b)) f s
/-- SEL (R129): all three sources are read, and poison of any propagates. -/
def execSel (f : SR) (s : State) : Out :=
  let a := s.rdS f.a
  let b := s.rdS f.b
  let c := s.rdS f.c
  .next (s.putS f.d 1 (sResult [a, b, c] (if c.val ≠ 0 then a.val else b.val)))
/-- PCLR (R140): d becomes zero, unpoisoned. -/
def execPclr (f : SR) (s : State) : Out := .next (s.putS f.d 1 (sResult [] 0))

/-- NOP: an empty slot does nothing (R87). -/
def execNop (s : State) : Out := .next s

end Sys2Proof.Machine
end

