-- ==== Sys2Proof/Machine/Operands.lean ====
section
/-! DEFINITION. What the vector operations share: the tag checks, the rounding mode and random bits, the merge under a
predicate, and the flags with their trap (spec/06 R141 to R144, spec/01 R17 to R19, spec/02 R47, R48). -/

namespace Sys2Proof.Machine

/-- A vector source as read at issue. (DEDUCED: log entry 31) -/
def State.rdV (s : State) (r : BitVec 6) : VReg := s.arch.readV r

/-- A vector register whose tag is checked: the codes accepted, and the one code required, 0xFF where several are (R350). -/
structure TagCheck where
  reg  : BitVec 6
  tag  : Nat
  okay : List Nat
  need : Nat
  deriving DecidableEq, Repr

/-- TRAPINFO of an FMT trap (R350). -/
def fmtInfo (kind reg tag need : Nat) : Nat := reg % 64 + kind * 64 + tag * 256 + need * 65536

/-- The first register whose tag is not accepted (R17). -/
def firstBad : List TagCheck → Option TagCheck
  | [] => none
  | c :: r => if c.okay.contains c.tag then firstBad r else some c

/-- A source that must carry one tag. -/
def State.mustBe (s : State) (r : BitVec 6) (tag : Nat) : TagCheck :=
  { reg := r, tag := (s.rdV r).tag, okay := [tag], need := tag }

/-- A source that may carry several tags. -/
def State.mayBe (s : State) (r : BitVec 6) (tags : List Nat) : TagCheck :=
  { reg := r, tag := (s.rdV r).tag, okay := tags, need := 0xFF }

/-- The tags of a random-bits register (R47). -/
def randomTags : List Nat := [0x00, 0x14, 0x15, 0x16, 0x17]

/-- The check of the random-bits register, where the operation rounds stochastically (R47). -/
def State.randomCheck (s : State) (f : VV) : List TagCheck :=
  if f.rm = 5 then [s.mayBe f.c randomTags] else []

/-- The poison of the random-bits register, where it is read (R47). -/
def State.randomPsn (s : State) (f : VV) : Bool := f.rm == 5 && (s.rdV f.c).psn

/-- The tag checks of a slot, in the order of R17: the slot goes on only when every tag is accepted. -/
def tagged (s : State) (cs : List TagCheck) (k : SlotResult) : SlotResult :=
  match firstBad cs with
  | some c => .trap s trFmt (fmtInfo 0 c.reg.toNat c.tag c.need)
  | none => k

/-- The rounding mode: RM, or RMODE of the CSW that the bundle issued under when DYN = 1 (R92, R260). -/
def State.vmode (s : State) (f : VV) : Nat := if f.opx[15] then cswRmode s.cur.csw else f.rm.toNat

/-- The rounding of destination element `i` in format `fmt`, with its random bits (R47). -/
def State.rounding (s : State) (f : VV) (fmt i : Nat) : Rnd :=
  let w := fmtRandomWidth fmt
  { mode := s.vmode f, rb := if f.rm = 5 then elem (s.rdV f.c).bits i w else 0, w := w }

/-- The predicate that the operation names. -/
def State.vpred (s : State) (f : VV) : Pred := s.arch.readP f.pred.toNat

/-- The elements of a result: bits, the flags raised, and whether any element is inactive. -/
structure Lanes where
  bits : Vec
  flags : Nat
  inactive : Bool
  deriving DecidableEq, Repr

/-- Element `i` of a destination of width `w` (R19, R142): an active element takes `y i`; one that is inactive, or that `y` does
not give, is zeroed or keeps its old bits. -/
def laneOf (p : Pred) (zero : Bool) (old : Vec) (w : Nat) (y : Nat → Option (Nat × Nat)) (i : Nat) : Nat × Nat × Bool :=
  let off := (if zero then 0 else elem old i w, 0, true)
  if act p i w then
    match y i with
    | some (v, e) => (v, e, false)
    | none => off
  else off

/-- All elements of a destination. -/
def lanes (p : Pred) (zero : Bool) (old : Vec) (w : Nat) (y : Nat → Option (Nat × Nat)) : Lanes :=
  let l := (List.range (2048 / w)).map (laneOf p zero old w y)
  { bits := packVec w (l.map fun r => r.1)
    flags := l.foldl (fun e r => e ||| r.2.1) 0
    inactive := l.any fun r => r.2.2 }

/-- A vector result of latency `lat`: poisoned bits are zero (R13). -/
def State.putV (s : State) (d : BitVec 6) (lat : Nat) (bits : Vec) (tag : Nat) (psn : Bool) : State :=
  s.emit lat (.v (d.toNat % 32) { bits := if psn then 0 else bits, tag := tag, psn := psn })

/-- A predicate result of latency 2 under a mask of bits; a write to p0 is discarded (R18). -/
def State.putP (s : State) (d : BitVec 6) (bits mask : Pred) : State := s.emit 2 (.p (d.toNat % 8) bits mask)

/-- The flags of a slot (R48, R142): FPX when one is enabled, else they are ORed into CSW and the slot goes on. -/
def flagged (s : State) (fl : Nat) (k : State → State) : SlotResult :=
  let on := fl &&& cswEnables s.cur.csw
  if on ≠ 0 then .trap s trFpx (fl + on * 256)
  else .ok (k (s.setArch { s.arch with csw := cswRaise s.arch.csw fl }))

/-- vexec of R142: the tag checks, the elements of width `w`, and a result tagged `tag` of latency `lat`. `psn` is the poison of the
sources; a merging operation adds that of the old destination when an element is inactive (R14). (DEDUCED: log entry 31) -/
def vexec (f : VV) (lat tag w : Nat) (cs : List TagCheck) (psn : Bool) (y : Nat → Option (Nat × Nat)) (s : State) : Out :=
  finish s (tagged s cs (
    let old := s.rdV f.d
    let r := lanes (s.vpred f) (f.zero == 1) old.bits w y
    let psn := psn || (f.zero == 0 && r.inactive && old.psn)
    flagged s r.flags fun s => s.putV f.d lat r.bits tag psn))

end Sys2Proof.Machine
end

