-- ==== Sys2Proof/Machine/Access.lean ====
section
/-! DEFINITION. Accesses of a context: the extent and scratchpad checks, the watch registers, poisoned store data, and the reads
and writes themselves (spec/07 R168 to R173, spec/15 R356). -/

namespace Sys2Proof.Machine

/-! ### Extent slots (R22) -/

def extBase (e : BitVec 128) : Nat := bits e 73 55
def extLen (e : BitVec 128) : Nat := bits e 25 48
def extValid (e : BitVec 128) : Bool := bit e 24
def extWr (e : BitVec 128) : Bool := bit e 23

/-- An extent slot's word (R22). -/
def mkExtent (base len : Nat) (wr : Bool) (cls : Nat) (msa named : Bool) : BitVec 128 :=
  BitVec.ofNat 128 (base % 2 ^ 55 * 2 ^ 73 + len % 2 ^ 48 * 2 ^ 25 + 2 ^ 24 + (if wr then 2 ^ 23 else 0) +
    cls % 4 * 2 ^ 21 + (if msa then 2 ^ 20 else 0) + if named then 2 ^ 19 else 0)

/-- The pages of the runs of an extent slot (R292). -/
def Arch.slotPages (a : Arch) (slot : Nat) : List Page := look [] a.ePages slot

/-- The checks of R168 for `n` bytes at offset `off` of an extent with the pages `ps`, in order; 0 when all pass. A page of a sealed
image takes no write (R274). A page that the runs do not hold ends the task as one outside the extent. (DEDUCED: log entry 33) -/
def State.checkExt (s : State) (core : Nat) (ps : List Page) (e : BitVec 128) (off : Int) (n align : Nat) (write : Bool) : Nat :=
  if !extValid e then stExtent
  else if off < 0 || decide ((extLen e : Int) < off + n) then stExtent
  else if off.toNat % align ≠ 0 then stAlign
  else if write && !extWr e then stRdonly
  else
    let pages := (pagesOf (extBase e + off.toNat) n).map (pageOf ps)
    if pages.any fun p => p.isNone then stExtent
    else if write && pages.any fun p => match p with | some p => s.imagePages.contains p.frame | none => false then stRdonly
    else if pages.any fun p => match p with | some p => p.cls == 2 && p.owner != core | none => false then stPrivate
    else stOk

/-- The offset A + sext(x[27:0], 28) of R168. -/
def offsetOf (a : Word) (disp : BitVec 28) : Int := (a + disp.signExtend 64).toInt

/-! ### Outcomes in the order of R351 -/

/-- A poisoned address, offset or length takes MCHK before anything else (R170). (DEDUCED: log entry 114) -/
def addressed (s : State) (r : BitVec 6) (k : SlotResult) : SlotResult := if (s.rdS r).psn then mchkS s r else k

/-- A failed check is a fatal context error (R168, R358). -/
def checked (code : Nat) (k : SlotResult) : SlotResult := if code = stOk then k else .fatal code

/-- The first watch register that matches one of some byte ranges, and the lowest byte matched (R355, R356): TRAPINFO. -/
def watchFrom (a : Arch) (ranges : List (Nat × Nat)) (rd wr : Bool) : Nat → Nat → Option Nat
  | 0, _ => none
  | fuel + 1, w =>
    let x := look 0 a.watch w
    let b := bits x 73 55
    let n := bits x 25 48
    let on := n != 0 && ((rd && bit x 24) || (wr && bit x 23))
    let hits := if on then ranges.filter fun r => decide (r.1 < b + n) && decide (b < r.1 + r.2) else []
    match hits with
    | [] => watchFrom a ranges rd wr fuel (w + 1)
    | h :: t =>
      let low := t.foldl (fun m r => min m (max r.1 b)) (max h.1 b)
      some (low % 2 ^ 55 + (if wr && bit x 23 then 2 ^ 55 else 0) + w * 2 ^ 56)

/-- WATCH, taken before the access is made; the first slot that ERET re-enters is not tested (R356). -/
def watching (s : State) (ranges : List (Nat × Nat)) (rd wr : Bool) (k : SlotResult) : SlotResult :=
  if s.me.unwatched = some s.cur.slot then k
  else
    match watchFrom s.arch ranges rd wr 4 0 with
    | some info => .trap s trWatch info
    | none => k

/-! ### Accesses in program order (R173, R302, R303) -/

/-- Poisoned data to be stored: PSN when it is enabled, else F_PSN is set as the slot commits (R172). -/
def storing (s : State) (psn : Bool) (reg kind : Nat) (k : State → SlotResult) : SlotResult :=
  if !psn then k s
  else if s.cur.csw.getLsbD cswEnPsn then .trap s trPsn (reg % 64 + kind * 64)
  else k (s.setArch { s.arch with csw := cswSet s.arch.csw cswFpsn })

/-- The pages of an access, each by its leaf entry and its number, are noted for the D bits set at retirement (R292). -/
def State.noteWrite (s : State) (k : Nat) (ps : List Page) (va n : Nat) : State :=
  let c := s.ctx k
  let new := (((pagesOf va n).filterMap (pageOf ps)).map fun p => (p.at_, p.vp)).filter fun p => !c.arch.wrote.contains p
  if new.isEmpty then s else s.setCtx k { c with arch := { c.arch with wrote := c.arch.wrote ++ new } }

/-- Whether the device has the access of the executing slot take a later point in T (R9). (DEDUCED: log entries 14 and 16) -/
def State.delays (s : State) : Bool := s.cur.gaps.contains (8 + s.cur.slot)

/-- Whether the access of the executing slot misses the engine writes that it may miss (R9). (DEDUCED: log entries 15 and 16) -/
def State.misses (s : State) : Bool := s.cur.gaps.contains (16 + s.cur.slot)

/-- An access of the executing slot to some units: it has its point in T at once, behind the context's earlier ones, or it joins
those whose points are still to come. (DEDUCED: log entries 14 and 18) -/
def access (s : State) (us : List URef) (now later : State → SlotResult) : SlotResult :=
  if s.delays then later s
  else
    let s := s.inOrder s.cur.ctx
    if s.owesLate s.cur.ctx then later s
    else
      let g := s.ready s.cur.ctx s.nextId us
      if g.2 then now g.1 else later g.1

/-- An access, or a step that must stand behind the context's earlier accesses, that has its point in T as its slot executes: its
bundle issued once nothing held it back; where another agent has made something do so since, other accesses come before it (R306).
(DEDUCED: log entry 18) -/
def inPlace (s : State) (us : List URef) (k : State → SlotResult) : SlotResult :=
  let s := s.inOrder s.cur.ctx
  if s.owesLate s.cur.ctx then .apart s
  else
    let g := s.ready s.cur.ctx s.nextId us
    if g.2 then k g.1 else .apart g.1

/-- An access of the executing slot whose point in T is still to come. -/
def State.pushLate (s : State) (l : Late) : State := s.setMe { s.me with late := s.me.late ++ [l] }

/-- The same with the model's next number. -/
def State.queueLate (s : State) (us : List URef) (va n : Nat) (op : LateOp) : State :=
  { s.pushLate { id := s.nextId, refs := us, va := va, n := n, op := op, old := s.misses } with nextId := s.nextId + 1 }

/-- A load of the executing slot (R171). -/
def loading (s : State) (us : List URef) (va n : Nat) (dst : SbDst) (form : LoadForm) (spec : Bool) : SlotResult :=
  access s us
    (fun s =>
      let r := s.loadNow s.cur.ctx s.misses us va n form spec
      .ok (r.1.emitSb dst r.2))
    (fun s => .ok ((s.queueLate us va n (.load form spec)).emitSb dst (.late s.nextId)))

/-- A store of the executing slot on some pages (R172). -/
def storingTo (s : State) (ps : List Page) (va : Nat) (bs : List Byte) (psn : Bool) : SlotResult :=
  let us := urefs ps va bs.length
  access s us
    (fun s => .ok ((s.noteWrite s.cur.ctx ps va bs.length).writeUnits s.cur.ctx va bs psn us))
    (fun s => .ok ((s.noteWrite s.cur.ctx ps va bs.length).queueLate us va bs.length (.store bs psn)))

/-- `n` bytes read as the slot executes, and whether any unit of them is poisoned. -/
def readingNow (s : State) (ps : List Page) (va n : Nat) (k : State → List Byte → Bool → SlotResult) : SlotResult :=
  inPlace s (urefs ps va n) fun s =>
    let r := s.readUnits s.cur.ctx s.misses (urefs ps va n)
    let b := unitBytes va n r.2
    k r.1 b.1 b.2

/-- The low bytes of a scalar. -/
def lowBytes (n : Nat) (w : Word) : List Byte := leBytes n w.toNat

/-- All 256 bytes of a vector. -/
def vecBytes (v : Vec) : List Byte := leBytes 256 v.toNat

end Sys2Proof.Machine
end

