-- ==== Sys2Proof/Machine/Loads.lean ====
section
/-! DEFINITION. Scratchpad, extent and descriptor loads and stores, scatters, fences and streams (spec/07 R174 to R187). -/

namespace Sys2Proof.Machine

/-! ### Scratchpad (R169, R174, R175) -/

/-- A scratchpad address A + x[19:0], a 64-bit sum. -/
def spAddr (a : Word) (f : LP) : Nat := (a + f.off.zeroExtend 64).toNat

/-- Whether a scratchpad access is well formed (R169). -/
def spOk (addr n align : Nat) : Nat := if addr + n ≤ 2 ^ 20 ∧ addr % align = 0 then stOk else stSpaddr

def sizeOf (size : BitVec 2) : Nat := 2 ^ size.toNat

def State.spm (s : State) : Mem := (s.core s.myCore).spm
def State.setSpm (s : State) (m : Mem) : State := s.setCore s.myCore { s.core s.myCore with spm := m }

/-- LDS (R175): latency 4. -/
def execLds (f : LP) (s : State) : Out :=
  let n := sizeOf f.size
  let addr := spAddr (s.rdS f.a).val f
  finish s (addressed s f.a (checked (spOk addr n n) (
    inPlace s [] fun s => .ok (s.putS f.d 4 (loadedS (s.spm.bytes addr n) (s.spm.poisoned addr n))))))

/-- LDSV (R175): latency 6. -/
def execLdsv (f : LP) (s : State) : Out :=
  let addr := spAddr (s.rdS f.a).val f
  finish s (addressed s f.a (checked (spOk addr 256 64) (inPlace s [] fun s =>
    let v := loadedV (s.spm.bytes addr 256) f.b.toNat (s.spm.poisoned addr 256)
    .ok (s.putV f.d 6 v.bits v.tag v.psn))))

/-- STS (R175): written as the slot commits. -/
def execSts (f : LP) (s : State) : Out :=
  let n := sizeOf f.size
  let addr := spAddr (s.rdS f.a).val f
  let b := s.rdS f.b
  finish s (addressed s f.a (checked (spOk addr n n) (
    storing s b.psn f.b.toNat 0 fun s => inPlace s [] fun s => .ok (s.setSpm (s.spm.storePsn addr (lowBytes n b.val) b.psn)))))

/-- STSV (R175): all 256 bytes, whatever the tag. -/
def execStsv (f : LP) (s : State) : Out :=
  let addr := spAddr (s.rdS f.a).val f
  let b := s.rdV f.b
  finish s (addressed s f.a (checked (spOk addr 256 64) (
    storing s b.psn f.b.toNat 1 fun s => inPlace s [] fun s => .ok (s.setSpm (s.spm.storePsn addr (vecBytes b.bits) b.psn)))))

/-! ### Extent loads and stores (R176 to R178) -/

/-- An access of form LM: its extent slot's word, its offset and its virtual address. -/
def State.lmExt (s : State) (f : LM) : BitVec 128 := s.arch.extent f.slot.toNat
def State.lmOff (s : State) (f : LM) : Int := offsetOf (s.rdS f.a).val f.disp
def State.lmVa (s : State) (f : LM) : Nat := extBase (s.lmExt f) + (s.lmOff f).toNat
def State.lmPages (s : State) (f : LM) : List Page := s.arch.slotPages f.slot.toNat

/-- The checks of R168 for an access of form LM. -/
def State.lmCheck (s : State) (f : LM) (n align : Nat) (write : Bool) : Nat :=
  s.checkExt s.myCore (s.lmPages f) (s.lmExt f) (s.lmOff f) n align write

/-- What a speculative load lands as where a check fails (R178). -/
def LoadForm.poisoned (form : LoadForm) : Payload := (form.landed 0 0 [] [(0, true)]).1

/-- A load of `n` bytes. A speculative one answers a failed check with poison (R178). -/
def extLoad (f : LM) (n align : Nat) (dst : SbDst) (form : LoadForm) (spec : Bool) (s : State) : Out :=
  let code := s.lmCheck f n align false
  finish s (addressed s f.a (slotKept s f.slot.toNat (
    if spec && code != stOk then .ok ((s.countPoison s.cur.ctx true).emitSb dst form.poisoned)
    else checked code (watching s [(s.lmVa f, n)] true false (
      loading s (urefs (s.lmPages f) (s.lmVa f) n) (s.lmVa f) n dst form spec)))))

/-- LDM (R177). -/
def execLdm (f : LM) (s : State) : Out := extLoad f (sizeOf f.size) (sizeOf f.size) (.s f.d.toNat) .scalar false s
/-- LDMV (R177). -/
def execLdmv (f : LM) (s : State) : Out := extLoad f 256 8 (.v (f.d.toNat % 32)) (.vector f.b.toNat) false s
/-- LDMS (R178). -/
def execLdms (f : LM) (s : State) : Out := extLoad f (sizeOf f.size) (sizeOf f.size) (.s f.d.toNat) .scalar true s
/-- LDMVS (R178). -/
def execLdmvs (f : LM) (s : State) : Out := extLoad f 256 8 (.v (f.d.toNat % 32)) (.vector f.b.toNat) true s

/-- A store of bytes through an extent (R172, R177). -/
def extStore (f : LM) (bs : List Byte) (align : Nat) (psn : Bool) (kind : Nat) (s : State) : Out :=
  finish s (addressed s f.a (slotKept s f.slot.toNat (checked (s.lmCheck f bs.length align true) (
    watching s [(s.lmVa f, bs.length)] false true (
      storing s psn f.b.toNat kind fun s' => storingTo s' (s.lmPages f) (s.lmVa f) bs psn)))))

/-- STM (R177). -/
def execStm (f : LM) (s : State) : Out :=
  let b := s.rdS f.b
  extStore f (lowBytes (sizeOf f.size) b.val) (sizeOf f.size) b.psn 0 s
/-- STMV (R177). -/
def execStmv (f : LM) (s : State) : Out :=
  let b := s.rdV f.b
  extStore f (vecBytes b.bits) 8 b.psn 1 s

/-! ### Descriptor access (R179, R180) -/

/-- What LDT and STT find at their descriptor: the descriptor, the mapped tuple and the element's place. -/
structure TensorAt where
  d    : Desc
  m    : Mapped
  off  : Nat
  size : Nat
  deriving DecidableEq, Repr

/-- Whether a descriptor with BKIND = 0 is well formed for a task's extent slots (R70). (DESIGN CHOICE: log entry 112) -/
def Arch.descOk (a : Arch) (d : Desc) : Bool :=
  d.formOk && !d.bkind &&
  (let e := a.extent d.eslot
   extValid e && (extBase e + d.offset) % d.align == 0 && decide (d.offset + d.span ≤ extLen e))

/-- The index tuple in a vector register. -/
def indexTuple (v : VReg) (rank : Nat) : List Nat := (List.range rank).map fun j => elem v.bits j 32

/-- The tensor checks of R180 from the descriptor's bytes: its form, its indices, and the element access. (DEDUCED: log entries 34
and 115) -/
def State.tensorAt (s : State) (bs : List Byte) (psn write : Bool) (v : VReg) : Nat × TensorAt :=
  let d := descOf bs
  let idx := indexTuple v d.rank
  let m := d.map idx
  let p := d.place m.k
  let t : TensorAt := { d := d, m := m, off := d.offset + p.1, size := p.2 }
  if psn || !s.arch.descOk d || (write && d.packet) then (stBaddesc, t)
  else if ((List.range d.rank).any fun j => decide (d.extOf j ≤ nth 0 idx j)) then (stIndex, t)
  else if m.s = 0 then (stOk, t)
  else (s.checkExt s.myCore (s.arch.slotPages d.eslot) (s.arch.extent d.eslot) t.off p.2 p.2 write, t)

/-- LDT and STT up to their element: the index vector, the descriptor's location and the tensor checks. (DEDUCED: log entry 114) -/
def tensor (f : LT) (write : Bool) (s : State) (k : State → TensorAt → SlotResult) : SlotResult :=
  let v := s.rdV f.a
  let e := s.arch.extent f.slot.toNat
  let ps := s.arch.slotPages f.slot.toNat
  let off := f.disp.toInt
  if v.psn then mchkV s f.a
  else slotKept s f.slot.toNat (tagged s [s.mayBe f.a [0x30, 0x16]] (
    checked (s.checkExt s.myCore ps e off 64 64 false) (
      readingNow s ps (extBase e + off.toNat) 64 fun s' bs psn =>
        let r := s'.tensorAt bs psn write v
        checked r.1 (k s' r.2))))

/-- The virtual address of a tensor's element. (DEDUCED: log entry 111) -/
def State.tensorVa (s : State) (t : TensorAt) : Nat := extBase (s.arch.extent t.d.eslot) + t.off

/-- The bytes whose poison counts for an element: its own, and for a packet element those of its code and its scales. -/
def tensorRanges (t : TensorAt) (va : Nat) : List (Nat × Nat) :=
  if t.d.packet then
    let n := t.d.inPacket t.m.k
    let byte := if t.d.fmt = fB8fp4 then 4 * (n / 8) + n % 8 / 2 else 16 * (n / 32) + n % 32 / 2
    [(va + byte, 1), (va + 48 + n / blockLen t.d.fmt, 1)] ++ (if t.d.fmt = fB8fp4 then [(va + 60, 2)] else [])
  else [(va, t.size)]

/-- What LDT makes of the bytes of its element (R77, R180). -/
def TensorAt.form (t : TensorAt) (va : Nat) : LoadForm :=
  .elem t.d.fmt (if t.d.packet then some (t.d.inPacket t.m.k) else none) (decide (t.m.s < 0)) (tensorRanges t va)

/-- LDT (R180): a structurally zero element is +0, with no memory access. (DEDUCED: log entries 34, 110 and 111) -/
def execLdt (f : LT) (s : State) : Out :=
  finish s (tensor f false s fun s' t =>
    if t.m.s = 0 then .ok (s'.emitSb (.s f.d.toNat) (.scalar {}))
    else
      let va := s'.tensorVa t
      watching s' ((tensorRanges t va).take 1) true false (
        loading s' (urefs (s'.arch.slotPages t.d.eslot) va t.size) va t.size (.s f.d.toNat) (t.form va) false))

/-- Whether a stored value counts as zero for R78; poisoned data do not. -/
def storesZero (fmt v : Nat) (psn : Bool) : Bool :=
  !psn && (if fmtFloat.contains fmt then v % 2 ^ (fmtWidth fmt - 1) == 0 else v == 0)

/-- STT (R78, R180). (DEDUCED: log entries 34 and 115) -/
def execStt (f : LT) (s : State) : Out :=
  let b := s.rdS f.b
  finish s (tensor f true s fun s' t =>
    let w := fmtWidth t.d.fmt
    let v := b.val.toNat % 2 ^ w
    if t.m.s = 0 then
      if storesZero t.d.fmt v b.psn then .ok s'
      else if s'.cur.csw.getLsbD cswEnSymv then
        .trap s' trSymv (f.a.toNat + f.slot.toNat * 64 + f.disp.toNat * 1024)
      else .ok (s'.setArch { s'.arch with csw := cswSet s'.arch.csw cswFsymv })
    else
      let va := s'.tensorVa t
      let v := if t.m.s < 0 then negElem t.d.fmt v else v
      watching s' [(va, t.size)] false true (
        storing s' b.psn f.b.toNat 0 fun s'' => storingTo s'' (s'.arch.slotPages t.d.eslot) va (leBytes t.size v) b.psn))

/-! ### Scatters (R185, R186) -/

def scatTags : List Nat :=
  [0x01, 0x02, 0x03, 0x04, 0x05, 0x06, 0x10, 0x11, 0x12, 0x13, 0x14, 0x15, 0x16, 0x17, 0x20, 0x21, 0x30]
def scaddTags : List Nat := [0x01, 0x02, 0x03, 0x04, 0x12, 0x13, 0x16, 0x17]

/-- The predicate of a scatter: c[2:0], which NR and SIZE hold (R94, R185). -/
def scatPred (f : LM) : Nat := f.nr.toNat * 4 + f.size.toNat

/-- The active elements of a scatter: element number and offset t_i, a signed sum (R186). -/
def State.scatOffs (s : State) (f : LM) (w : Nat) : List (Nat × Int) :=
  let p := s.arch.readP (scatPred f)
  let ix := s.rdV (f.b + 1)
  ((List.range (min (2048 / w) 64)).filter fun i => act p i w).map fun i =>
    (i, s.lmOff f + (elem ix.bits i 32 * (w / 8) : Nat))

/-- The active elements of a scatter: element number and virtual address (R186). -/
def State.scatTargets (s : State) (f : LM) (w : Nat) : List (Nat × Nat) :=
  (s.scatOffs f w).map fun t => (t.1, extBase (s.lmExt f) + t.2.toNat)

/-- The first failing check of a scatter's elements (R186). (DEDUCED: log entry 36) -/
def State.scatCheck (s : State) (f : LM) (w : Nat) : Nat :=
  let codes := (s.scatOffs f w).map fun t => s.checkExt s.myCore (s.lmPages f) (s.lmExt f) t.2 (w / 8) (w / 8) true
  (codes.find? fun c => c != stOk).getD stOk

/-- The units of the targets of a scatter, target by target. -/
def scatUnits (ps : List Page) (w : Nat) (ts : List (Nat × Nat)) : List URef := ts.flatMap fun t => urefs ps t.2 (w / 8)

/-- The checks that SCAT and SCADD share, up to their writes: address, tags, element checks, WATCH and PSN; `k` receives the width
and the targets. (DEDUCED: log entry 114) -/
def scatter (f : LM) (tags : List Nat) (s : State) (k : State → Nat → List (Nat × Nat) → SlotResult) : Out :=
  let v := s.rdV f.b
  let ix := s.rdV (f.b + 1)
  let w := fmtWidth v.tag
  let ts := s.scatTargets f w
  finish s (addressed s f.a (
    if ix.psn then mchkV s (f.b + 1)
    else slotKept s f.slot.toNat (tagged s [s.mayBe f.b tags, s.mustBe (f.b + 1) fIx] (
      checked (s.scatCheck f w) (
        watching s (ts.map fun t => (t.2, w / 8)) false true (
          storing s v.psn f.b.toNat 1 fun s => k s w ts))))))

/-- The pages of a scatter's targets are noted. -/
def State.noteScatter (s : State) (k : Nat) (ps : List Page) (w : Nat) (ts : List (Nat × Nat)) : State :=
  ts.foldl (fun s t => s.noteWrite k ps t.2 (w / 8)) s

/-- The bytes of a scatter's element. -/
def scatBytes (w : Nat) (v : VReg) (t : Nat × Nat) : List Byte := leBytes (w / 8) (elem v.bits t.1 w)

/-- A scatter's element stores (R186). -/
def scatStores (s : State) (ps : List Page) (w : Nat) (v : VReg) (ts : List (Nat × Nat)) : SlotResult :=
  access s (scatUnits ps w ts)
    (fun s => .ok ((s.noteScatter s.cur.ctx ps w ts).scatterAll s.cur.ctx v.psn
      (ts.map fun t => (t.2, urefs ps t.2 (w / 8), scatBytes w v t))))
    (fun s => .ok ((s.noteScatter s.cur.ctx ps w ts).queueLate (scatUnits ps w ts) 0 0
      (.scatter (ts.map fun t => (t.2, scatBytes w v t)) v.psn)))

/-- SCAT (R186). -/
def execScat (f : LM) (s : State) : Out := scatter f scatTags s fun s w ts => scatStores s (s.lmPages f) w (s.rdV f.b) ts

/-- Whether a float update of the executing task executes as ordered (R191). -/
def State.orders (s : State) (ord : Bool) (op : Rmw) : Bool := ord || (s.arch.info.det && op.float)

/-- An update of the executing context given its number, its place in the key and its issue number (R190, R324). -/
def State.postUpdate (s : State) (u : Update) (ord : Bool) : State × Update :=
  let a := s.arch
  let u := { u with
    id := s.nextId, owner := some s.cur.ctx, core := s.myCore, info := a.info, born := s.time,
    n := if ord then some a.ordN else none, logN := a.logN }
  let s := s.setArch { a with ordN := if ord then a.ordN + 1 else a.ordN, logN := if u.op.float then a.logN + 1 else a.logN }
  ({ s with nextId := s.nextId + 1 }, u)

/-- SCADD's elements, in ascending order: ordered ones, and float ones in replay mode, are sent alone; the others enter update-only
lines (R318). (DEDUCED: log entry 36) -/
def scaddAll (ps : List Page) (w fmt group : Nat) (ord : Bool) (v : VReg) : State → List (Nat × Nat) → State
  | s, [] => s
  | s, t :: r =>
    let op : Rmw := if fmtF.contains fmt then .fadd else .add
    let ord' := s.orders ord op
    let p := s.postUpdate
      { id := 0, group := group, pa := pagePa ps t.2, va := t.2, op := op, fmt := fmt, val := elem v.bits t.1 w } ord'
    let s := p.1.noteWrite p.1.cur.ctx ps t.2 (w / 8)
    let s := { s with updates := s.updates ++ [p.2] }
    let s := if ord' || (p.2.info.replay && op.float) then s else s.enterLine p.2
    scaddAll ps w fmt group ord v s r

/-- SCADD (R186): poisoned values mark their targets as a store would (R172). -/
def execScadd (f : LM) (s : State) : Out :=
  scatter f scaddTags s fun s w ts =>
    let v := s.rdV f.b
    if v.psn then scatStores s (s.lmPages f) w v ts else .ok (scaddAll (s.lmPages f) w v.tag s.nextId (f.ord == 1) v s ts)

/-! ### Fences, flushes and invalidations (R187) -/

/-- FENCE (R187): its bundle issued only once every earlier access had been performed, at every scope (R303). -/
def execFence (_f : LX) (s : State) : Out := finish s (inPlace s [] .ok)

def State.lxExt (s : State) (f : LX) : BitVec 128 := s.arch.extent f.slot.toNat
def State.lxOff (s : State) (f : LX) : Int := offsetOf (s.rdS f.a).val f.disp
def State.lxVa (s : State) (f : LX) : Nat := extBase (s.lxExt f) + (s.lxOff f).toNat
def State.lxPages (s : State) (f : LX) : List Page := s.arch.slotPages f.slot.toNat

/-- The parts of a range on each of its pages, in whole 64-byte lines: the page, the first physical unit and the number of units.
(DEDUCED: log entry 35) -/
def rangeParts (ps : List Page) (va n : Nat) : List (Page × Nat × Nat) :=
  ((pagesOf va n).filterMap (pageOf ps)).map fun p =>
    let lo := max va (p.vp * 65536) / 64
    let hi := (min (va + n) ((p.vp + 1) * 65536) + 63) / 64
    (p, p.frame * 8192 + lo % 1024 * 8, (hi - lo) * 8)

/-- Whether a unit lies in one of some parts. -/
def inParts (parts : List (Nat × Nat)) (pu : Nat) : Bool := parts.any fun p => decide (p.1 ≤ pu) && decide (pu < p.1 + p.2)

/-- FLUSH and INVAL (R187): with length 0 or scope CTX they do nothing. Update-only lines of the range merge in every L1 (R306);
software-coherent parts are left to their completion. (DEDUCED: log entries 35 and 114) -/
def flushOp (inval : Bool) (f : LX) (s : State) : Out :=
  let n := (s.rdS f.b).val.toNat
  finish s (addressed s f.a (addressed s f.b (
    if n = 0 ∨ f.mods = 0 then .ok s
    else slotKept s f.slot.toNat (checked (s.checkExt s.myCore (s.lxPages f) (s.lxExt f) (s.lxOff f) n 1 false) (inPlace s [] fun s =>
      let parts := rangeParts (s.lxPages f) (s.lxVa f) n
      let all := parts.map fun p => p.2
      let lines := ((s.cores.flatMap fun c => c.2.lines.map Prod.fst).filter fun l => (lineUnits l).any (inParts all)).eraseDups
      let s := s.touchLines none lines
      let sc := (parts.filter fun p => p.1.cls == 1).map fun p => p.2
      if sc.isEmpty then .ok s
      else .ok { s.setMe { s.me with flushes := s.me.flushes ++ [{ id := s.nextId, inval := inval, parts := sc }] } with
                 nextId := s.nextId + 1 })))))

/-- FLUSH (R187). -/
def execFlush (f : LX) (s : State) : Out := flushOp false f s
/-- INVAL (R187). -/
def execInval (f : LX) (s : State) : Out := flushOp true f s

/-- The cores whose L1s a context's caches are: its own, or all of its cluster when they are fused (R284). -/
def State.l1Cores (s : State) (k : Nat) : List Nat :=
  if s.fusedAt (coreOf k) then (List.range 16).map fun j => clusterOf k * 16 + j else [coreOf k]

/-- FLUSH_INVAL_COMPLETION (R187): the oldest FLUSH or INVAL of the context writes back, and an INVAL discards. -/
def execFlushInvalCompletion (ctx : Nat) (s : State) : Out :=
  match (s.ctx ctx).flushes with
  | [] => .next s
  | op :: r =>
    let s := s.l1Sweep (s.l1Cores ctx) (inParts op.parts) op.inval
    .next (s.setCtx ctx { s.ctx ctx with flushes := r }).releaseAll

/-! ### Streams (R183) -/

def streamOf (f : LX) : Nat := f.disp.toNat % 4

/-- A stream register from its two words, with the STATE that SQSET sets (R21, R183). -/
def streamFrom (a : Arch) (lo hi : Word) : Stream :=
  let q : Stream := {
    remain := hi.extractLsb' 32 32, ixoff := hi.extractLsb' 0 32 ++ lo.extractLsb' 48 16,
    ixslot := lo.extractLsb' 44 4, dslot := lo.extractLsb' 40 4, ixw := lo.extractLsb' 38 2, esz := lo.extractLsb' 35 3 }
  let bad := decide (2 ≤ q.ixw.toNat) || decide (4 ≤ q.esz.toNat) || bits lo 0 30 != 0 ||
    !extValid (a.extent q.ixslot.toNat) || !extValid (a.extent q.dslot.toNat)
  { q with state := if bad then 3 else if q.remain = 0 then 2 else 1 }

/-- SQSET (R183). -/
def execSqset (f : LX) (s : State) : Out :=
  finish s (addressed s f.a (addressed s f.b (
    .ok (s.setArch { s.arch with
      q := put {} s.arch.q (streamOf f) (streamFrom s.arch (s.rdS f.a).val (s.rdS f.b).val) }))))

/-- SQCLR (R183). -/
def execSqclr (f : LX) (s : State) : Out := .next (s.setArch { s.arch with q := put {} s.arch.q (streamOf f) {} })

end Sys2Proof.Machine
end

