-- ==== Sys2Proof/Machine/Atomics.lean ====
section
/-! DEFINITION. The L-slot atomics, NCAS, PROBE and the claim-name operations as they issue (spec/07 R181, R182, R188 to R196). -/

namespace Sys2Proof.Machine

/-! ### Atomics (R188 to R191) -/

/-- The format that gives an atomic its width and its arithmetic: FP32 or FP64, else an integer of the width (R188, R317). -/
def atomicFmt (op : Rmw) (size : BitVec 2) : Nat :=
  match op.float, size.toNat with
  | true, 3 => fFp64
  | true, _ => fFp32
  | false, 3 => fUint64
  | false, _ => fUint32

/-- An atomic that returns a value: its result is pending; it is made at once where nothing orders or holds it, else it is on its
way to its point of execution. (DEDUCED: log entry 37) -/
def State.returning (s : State) (u : Update) (d : BitVec 6) : State :=
  let s := { s.emitSb (.s d.toNat) (.update u.id) with updates := s.updates ++ [u] }
  if !u.ordered && s.mayApply u then s.applyFresh u else s

/-- Whether an atomic has its place among its context's accesses: it returns a value, and is neither ordered nor held or replayed,
which have their points of execution later (State.afterOwn). (DEDUCED: log entry 37) -/
def State.inTurn (s : State) (u : Update) : Bool := u.ret && !u.ordered && !s.heldOut u && s.replayReady u

/-- An atomic of operation `op` (R189): the checks, WATCH, poisoned operands, and the update. (DEDUCED: log entry 37) -/
def atomic (op : Rmw) (f : LM) (s : State) : Out :=
  let n := sizeOf f.size
  let b := s.rdS f.b
  let d := s.rdS f.d
  let isCas := op == .cas
  let psn := b.psn || (isCas && d.psn)
  let va := s.lmVa f
  let ps := s.lmPages f
  let us := urefs ps va n
  let fmt := atomicFmt op f.size
  let u : Update := {
    id := 0, group := s.nextId, pa := pagePa ps va, va := va, op := op, fmt := fmt
    val := b.val.toNat % 2 ^ fmtWidth fmt, cmp := d.val.toNat % 2 ^ fmtWidth fmt, psn := psn, ret := f.nr == 0 }
  let ord := s.orders (f.ord == 1) op
  let post (s : State) (k : State → Update → State) : SlotResult :=
    let p := s.postUpdate u ord
    .ok (k ((p.1.bypass s.cur.ctx us).noteWrite s.cur.ctx ps va n) p.2)
  finish s (addressed s f.a (slotKept s f.slot.toNat (checked (s.lmCheck f n n true) (
    watching s [(va, n)] true true (
      storing s psn (if b.psn then f.b else f.d).toNat 0 fun s =>
        if f.nr = 1 then post s fun s u => { s with updates := s.updates ++ [u] }
        else if !s.inTurn (s.postUpdate u ord).2 then post s fun s u => s.returning u f.d
        else access s us (fun s => post s fun s u => s.returning u f.d)
          (fun s => post s fun s u =>
            { (s.pushLate { id := u.id, refs := us, op := .atomic }).emitSb (.s f.d.toNat) (.update u.id) with updates := s.updates ++ [u] }))))))

/-- AADD (R189). -/
def execAadd (f : LM) (s : State) : Out := atomic .add f s
/-- AFADD (R189). -/
def execAfadd (f : LM) (s : State) : Out := atomic .fadd f s
/-- AMINS (R189). -/
def execAmins (f : LM) (s : State) : Out := atomic .mins f s
/-- AMAXS (R189). -/
def execAmaxs (f : LM) (s : State) : Out := atomic .maxs f s
/-- AMINN (R189). -/
def execAminn (f : LM) (s : State) : Out := atomic .minn f s
/-- AMAXN (R189). -/
def execAmaxn (f : LM) (s : State) : Out := atomic .maxn f s
/-- AFMIN (R189). -/
def execAfmin (f : LM) (s : State) : Out := atomic .fmin f s
/-- AFMAX (R189). -/
def execAfmax (f : LM) (s : State) : Out := atomic .fmax f s
/-- AFMINP (R189). -/
def execAfminp (f : LM) (s : State) : Out := atomic .fminp f s
/-- AFMAXP (R189). -/
def execAfmaxp (f : LM) (s : State) : Out := atomic .fmaxp f s
/-- AAND (R189). -/
def execAand (f : LM) (s : State) : Out := atomic .and_ f s
/-- AOR (R189). -/
def execAor (f : LM) (s : State) : Out := atomic .or_ f s
/-- AXOR (R189). -/
def execAxor (f : LM) (s : State) : Out := atomic .xor_ f s
/-- AXCHG (R189). -/
def execAxchg (f : LM) (s : State) : Out := atomic .xchg f s
/-- ACAS (R189): the expected value is D. -/
def execAcas (f : LM) (s : State) : Out := atomic .cas f s

/-! ### NCAS (R192) -/

/-- NCAS (R192): both registers of the pair at d take the old value. (DEDUCED: log entries 37 and 38) -/
def execNcas (f : LX) (s : State) : Out :=
  let va := s.lxVa f
  let ps := s.lxPages f
  let d0 := s.rdS f.d
  let d1 := s.rdS (f.d + 1)
  let b0 := s.rdS f.b
  let b1 := s.rdS (f.b + 1)
  let psnB := b0.psn || b1.psn
  let psn := psnB || d0.psn || d1.psn
  let us := urefs ps va 16
  finish s (addressed s f.a (slotKept s f.slot.toNat (checked (s.checkExt s.myCore ps (s.lxExt f) (s.lxOff f) 16 16 true) (
    watching s [(va, 16)] true true (
      storing s psn (if psnB then f.b else f.d).toNat 2 fun s => access s us
        (fun s =>
          let s := (s.bypass s.cur.ctx us).noteWrite s.cur.ctx ps va 16
          let r := s.ncasAt (pagePa ps va / 8) d0.val d1.val b0.val b1.val psn
          .ok (r.1.emitSb (.pair f.d.toNat) (.pair r.2.1 r.2.2.1 r.2.2.2)))
        (fun s => .ok (((s.noteWrite s.cur.ctx ps va 16).queueLate us va 16 (.ncas d0.val d1.val b0.val b1.val psn)).emitSb
          (.pair f.d.toNat) (.late s.nextId))))))))

/-! ### PROBE (R181, R182) -/

/-- The tasks that live: on contexts, and those that a swap put aside. -/
def State.liveTasks (s : State) : List Arch :=
  ((s.ctxs.map Prod.snd).filter fun c => c.bound).map Ctx.arch ++
  s.clusters.flatMap fun p => p.2.slots.flatMap fun r => r.2.saved.map fun q => q.2.arch

/-- Whether a live task pins a frame. -/
def State.pinned (s : State) (frame : Nat) : Bool := s.liveTasks.any fun a => a.pins.contains frame

/-- Whether a live task holds a frame. -/
def State.held (s : State) (frame : Nat) : Bool := s.liveTasks.any fun a => a.holds.contains frame

/-- The pages of a range's run list, in order (R292). -/
def rangePages (ps : List Page) (va n : Nat) : List Page := (pagesOf va n).filterMap (pageOf ps)

/-- Whether a page lies in the deep tier. -/
def Page.deep (p : Page) : Bool := inDeep (p.frame * 65536)

/-- The pages whose migration a PROBE starts: in the deep tier, free to move, and not on their way for this task already. (DEDUCED:
log entries 29 and 105) -/
def State.probeSet (s : State) (ps : List Page) (va n : Nat) : List Page :=
  (rangePages ps va n).filter fun p => p.deep && !s.pinned p.frame && !s.arch.migrating.contains p.frame

/-- PROBE (R182). (DEDUCED: log entries 29 and 114) -/
def execProbe (f : LX) (s : State) : Out :=
  let n := (s.rdS f.b).val.toNat
  let ps := s.lxPages f
  let va := s.lxVa f
  finish s (addressed s f.a (addressed s f.b (
    if n = 0 then .ok (s.emitSb (.s f.d.toNat) (.scalar { val := statusWord 0 stOk 0 }))
    else slotKept s f.slot.toNat (checked (s.checkExt s.myCore ps (s.lxExt f) (s.lxOff f) n 1 false) (
      match s.probeSet ps va n with
      | [] => .ok (s.emitSb (.s f.d.toNat) (.probe (rangePages ps va n)))
      | p :: r =>
        let s := s.setArch { s.arch with migrating := s.arch.migrating ++ ((p :: r).map Page.frame).eraseDups }
        .trap s trProbe ((p.vp * 65536 - extBase (s.lxExt f)) % 2 ^ 48 + f.slot.toNat * 2 ^ 48))))))

/-! ### Claim names (R193 to R196) -/

/-- The 128-bit name in the pair at `r` (R193); a poisoned half takes MCHK. (DEDUCED: log entry 114) -/
def named (f : LX) (s : State) (k : BitVec 128 → SlotResult) : Out :=
  finish s (addressed s f.a (addressed s (f.a + 1) (k ((s.rdS (f.a + 1)).val ++ (s.rdS f.a).val))))

/-- NRES (R194): resolved and bound when its token lands. (DEDUCED: log entry 106) -/
def execNres (f : LX) (s : State) : Out :=
  named f s fun n => .ok (s.emitSb (.s f.d.toNat) (.nres f.slot.toNat n))

/-- The module that issued a name, and its sequence number (R295). -/
def nameSerial (n : BitVec 128) : Nat := bits n 96 32
def nameSeq (n : BitVec 128) : Nat := bits n 0 96

/-! ### The ports, and what leaves by them (R384, R385) -/

/-- Whether a fabric port carries anything: its present bit is set and it has its link (R384, R385). -/
def State.carries (s : State) (port : Nat) : Bool :=
  decide (port < 16) && s.part.present (port / 4) kFp (port % 4) && (look {} s.links port).up

/-- Whether some fabric port carries anything. (DEDUCED: log entry 92) -/
def State.linked (s : State) : Bool := (List.range 16).any s.carries

/-- Whether a module can be reached: this one always, another while some port has its link and it has not been declared unreachable
(R385). (DEDUCED: log entry 92) -/
def State.reaches (s : State) (serial : Nat) : Bool :=
  serial == s.part.serial || (s.linked && (look {} s.peers serial).reachable)

/-- Whether a message of another module can come in, or one to it can go out. -/
def State.meets (s : State) (serial : Nat) : Bool := serial != s.part.serial && s.reaches serial

/-- A message leaves the module. Those of the fabric are 0x10 a name asked for, 0x11 bytes of a copy, 0x12 the end of a remote command,
0x13 an element of a reduction, 0x14 NSTAT, 0x15 NKILL, 0x16 a coded element, the answers 0x20 a lookup, 0x21 NSTAT, 0x22 NKILL, 0x23 an
acknowledged shoot-down, and 0x24 a shoot-down. -/
def State.send (s : State) (kind dest : Nat) (body : List Byte) : State :=
  { s with out := s.out ++ [{ kind := kind, dest := dest, body := body }] }

/-- A message to another module, where it can be reached. -/
def State.sendTo (s : State) (kind serial : Nat) (body : List Byte) : State := if s.meets serial then s.send kind serial body else s

/-- An operation on a name of another module asks the name's home, for the launch's address space (R298). -/
def State.askHome (s : State) (kind : Nat) (n : BitVec 128) : State :=
  s.sendTo kind (nameSerial n) (leBytes 16 n.toNat ++ leBytes 2 s.arch.info.asid)

/-- NSTAT (R195). -/
def execNstat (f : LX) (s : State) : Out := named f s fun n => .ok ((s.askHome 0x14 n).emitSb (.s f.d.toNat) (.nstat n))

/-- NKILL (R196). -/
def execNkill (f : LX) (s : State) : Out := named f s fun n => .ok ((s.askHome 0x15 n).emitSb (.s f.d.toNat) (.nkill n false))

end Sys2Proof.Machine
end

