-- ==== Sys2Proof/Machine/Control.lean ====
section
/-! DEFINITION. The control transfers (spec/05 R130 to R139). -/

namespace Sys2Proof.Machine

/-- A segment's header as it stands in memory: COUNT, LAST and NEXT (R105). -/
structure SegHead where
  count : Nat
  last  : Bool
  next  : Word
  deriving DecidableEq, Repr

/-- MAGIC of a segment header (R105). -/
abbrev segMagic : Nat := 0x5345474D

/-- Whether `seg` lies among the segments of the image that a task runs (R109, R266). -/
def State.inImage (s : State) (i : TaskInfo) (seg : Nat) : Bool :=
  s.images.any fun im => im.asid == i.asid && im.base == i.image && decide (im.base + 64 ≤ seg) &&
    decide (seg < im.base + 64 + im.codesz)

/-- What a half that holds `seg` says of it (R265). -/
def Half.head (h : Half) (seg : Nat) : Option SegHead :=
  match h with
  | .resident a last next bs => if a = seg then some { count := bs.length, last := last, next := next } else none
  | _ => none

/-- The header of `seg`: from the context's loop buffer where it is resident, else as it stands in memory, where it names a segment
of the task's image. (DEDUCED: log entry 104) -/
def State.segHead (s : State) (c : Ctx) (seg : Nat) : Option SegHead :=
  let i := c.arch.info
  match (c.curHalf.head seg).or (c.idleHalf.head seg) with
  | some h => some h
  | none =>
  if s.inImage i seg then
    match s.readVa i.asid seg 16 with
    | some (bs, false) =>
      let x := BitVec.ofNat 128 (leNat bs)
      if bits x 0 32 = segMagic then
        some { count := bits x 32 8, last := bit x 40, next := BitVec.ofNat 64 (bits x 64 64) }
      else none
    | _ => none
  else none

/-- The bundle that follows `p` in fetch order (R107), from the header of its segment; none after a LAST segment's end. -/
def SegHead.after (h : SegHead) (p : Word) : Option Word :=
  if ptrBidx p + 1 < h.count then some (mkPtr (ptrSeg p) (ptrBidx p + 1))
  else if h.last then none
  else some (mkPtr (ptrSeg h.next) 0)

/-- The `n`th bundle after `p` in fetch order. -/
def State.follow (s : State) (c : Ctx) : Nat → Word → Option Word
  | 0, p => some p
  | n + 1, p =>
    match s.segHead c (ptrSeg p) with
    | none => none
    | some h =>
      match h.after p with
      | none => none
      | some q => s.follow c n q

/-- A redirect left by a taken transfer (R131). The target's expansion starts at once, unless a delay bundle lies in another
segment (R268). -/
def State.transfer (s : State) (target : Word) (bad : Bool) : State :=
  let c := s.me
  let c := { c with arch := { c.arch with
    redirect := some { target := target, left := 4, bad := bad, src := s.cur.pc } } }
  let here := match c.curHalf with
    | .resident seg _ _ bs => seg == ptrSeg s.cur.pc && decide (ptrBidx s.cur.pc + 3 < bs.length)
    | _ => false
  s.setMe (if here && !bad then c.request (ptrSeg target) else c)

/-- A direct target (R90). -/
def directTarget (pc : Word) (f : SB) : Word :=
  BitVec.ofNat 64 (f.bidx.toNat * 2 ^ 57 + ofSigned 55 ((ptrSeg pc : Int) + 64 * toSigned 25 f.segoff.toNat))

/-- Whether an indirect pointer fails the checks made when the transfer issues (R132). -/
def State.badPointer (s : State) (p : Word) : Bool :=
  !ptrClean p ||
  (match s.segHead s.me (ptrSeg p) with
   | some h => decide (h.count ≤ ptrBidx p)
   | none => false)

/-- A conditional branch on two registers (R133, R135). (DEDUCED: log entry 103) -/
def branch2 (cond : Word → Word → Bool) (f : SB) (s : State) : Out :=
  let a := s.rdS f.a
  let b := s.rdS f.b
  finish s (
    if a.psn then mchkS s f.a
    else if b.psn then mchkS s f.b
    else if cond a.val b.val then .ok (s.transfer (directTarget s.cur.pc f) false)
    else .ok s)

/-- A conditional branch on one register (R133, R135). -/
def branch1 (cond : Word → Bool) (f : SB) (s : State) : Out :=
  let a := s.rdS f.a
  finish s (
    if a.psn then mchkS s f.a
    else if cond a.val then .ok (s.transfer (directTarget s.cur.pc f) false)
    else .ok s)

/-- BEQ (R135). -/
def execBeq (f : SB) (s : State) : Out := branch2 (fun a b => a == b) f s
/-- BNE (R135). -/
def execBne (f : SB) (s : State) : Out := branch2 (fun a b => a != b) f s
/-- BLT (R135). -/
def execBlt (f : SB) (s : State) : Out := branch2 (fun a b => a.slt b) f s
/-- BGE (R135). -/
def execBge (f : SB) (s : State) : Out := branch2 (fun a b => !a.slt b) f s
/-- BLTN (R135). -/
def execBltn (f : SB) (s : State) : Out := branch2 (fun a b => a.ult b) f s
/-- BGEN (R135). -/
def execBgen (f : SB) (s : State) : Out := branch2 (fun a b => !a.ult b) f s
/-- BZ (R135). -/
def execBz (f : SB) (s : State) : Out := branch1 (fun a => a == 0) f s
/-- BNZ (R135). -/
def execBnz (f : SB) (s : State) : Out := branch1 (fun a => a != 0) f s

/-- LOOP (R136): the counter falls by one, with latency 1, and the branch is taken while it is not zero. -/
def execLoop (f : SB) (s : State) : Out :=
  let a := s.rdS f.a
  let n := a.val - 1
  finish s (
    if a.psn then mchkS s f.a
    else
      let s' := s.putS f.a 1 (sResult [] n)
      .ok (if n ≠ 0 then s'.transfer (directTarget s.cur.pc f) false else s'))

/-- The link of a call: the fourth bundle after the transfer (R138). -/
def State.link (s : State) : Word :=
  (s.follow s.me 4 s.cur.pc).getD (mkPtr (ptrSeg s.cur.pc) (ptrBidx s.cur.pc + 4))

/-- JMP (R138). -/
def execJmp (f : SB) (s : State) : Out := .next (s.transfer (directTarget s.cur.pc f) false)

/-- A transfer to the pointer in A (R132). -/
def indirect (f : SB) (link : Bool) (s : State) : Out :=
  let a := s.rdS f.a
  finish s (
    if a.psn then mchkS s f.a
    else
      let s' := if link then s.putS f.d 1 (sResult [] s.link) else s
      .ok (s'.transfer a.val (s.badPointer a.val)))

/-- JMPI (R138). -/
def execJmpi (f : SB) (s : State) : Out := indirect f false s
/-- CALL (R138): d takes the code pointer of the return point. -/
def execCall (f : SB) (s : State) : Out :=
  .next ((s.putS f.d 1 (sResult [] s.link)).transfer (directTarget s.cur.pc f) false)
/-- CALLI (R138). -/
def execCalli (f : SB) (s : State) : Out := indirect f true s
/-- RET (R138). -/
def execRet (f : SB) (s : State) : Out := indirect f false s

/-- CHK (R139): taken when the tested register is poisoned; it writes nothing and clears no poison. -/
def execChk (f : SB) (s : State) : Out :=
  let psn := if f.b = 1 then (s.arch.readV f.a).psn else (s.rdS f.a).psn
  .next (if psn then s.transfer (directTarget s.cur.pc f) false else s)

end Sys2Proof.Machine
end

