-- ==== Sys2Proof/Machine/System.lean ====
section
/-! DEFINITION. The SS-form instructions: semaphores, turns, the ends of tasks and handlers, control registers, launches,
time and random numbers (spec/09 R252 to R264). -/

namespace Sys2Proof.Machine

/-- The low half of a stream register; FILL is what the FIFO holds (R21). -/
def Stream.lo (q : Stream) : Word :=
  BitVec.ofNat 64 (q.ixoff.toNat % 2 ^ 16 * 2 ^ 48 + q.ixslot.toNat * 2 ^ 44 + q.dslot.toNat * 2 ^ 40 +
    q.ixw.toNat * 2 ^ 38 + q.esz.toNat * 2 ^ 35 + q.fifo.length % 8 * 2 ^ 32 + q.state.toNat * 2 ^ 30)

/-- The high half of a stream register: REMAIN and the upper bits of IXOFF. -/
def Stream.hi (q : Stream) : Word := BitVec.ofNat 64 (q.remain.toNat * 2 ^ 32 + q.ixoff.toNat / 2 ^ 16)

/-- The control register that a selector names (R23). A selector that R23 does not list is in no loop buffer. -/
def State.csr (s : State) (sel : Nat) : Word :=
  let a := s.arch
  match sel with
  | 0x00 => a.csw
  | 0x01 => a.taskid
  | 0x02 => a.trappc
  | 0x03 => a.trapcsw
  | 0x04 => a.trapcause
  | 0x05 => a.trapinfo
  | 0x06 => a.trapvec
  | 0x07 => s.cur.clock
  | 0x08 => a.lib
  | n =>
    if n < 0x50 then BitVec.ofNat 64 (bits (a.extent (n - 0x40)) 0 64)
    else if n < 0x60 then BitVec.ofNat 64 (bits (a.extent (n - 0x50)) 64 64)
    else if n < 0x64 then (look {} a.q (n - 0x60)).lo
    else (look {} a.q (n - 0x64)).hi

/-- A CSWR: CSW field by field, the trap registers in a handler, nothing else (R23, R25). -/
def Arch.writeCsr (a : Arch) (sel : Nat) (v : Word) : Arch :=
  let inh := a.csw.getLsbD cswInh
  match sel with
  | 0x00 => { a with csw := cswWrite a.csw v }
  | 0x02 => if inh then { a with trappc := v } else a
  | 0x03 => if inh then { a with trapcsw := v } else a
  | _ => a

/-- SARM (R254): sext(A[31:0], 32) is added when slot 0 commits. (DEDUCED: log entry 27) -/
def execSarm (f : SS) (s : State) : Out :=
  let a := s.rdS f.a
  finish s (
    if a.psn then mchkS s f.a
    else .ok ((s.doGets s.cur.ctx (f.x.toNat % 256) s.nextId).signal (clusterOf s.cur.ctx) s.arch.info (f.x.toNat % 256) (toSigned 32 a.val.toNat)))

/-- SSET (R254): the balance becomes A[31:0] and the mark clears. (DEDUCED: log entry 27) -/
def execSset (f : SS) (s : State) : Out :=
  let a := s.rdS f.a
  finish s (
    if a.psn then mchkS s f.a
    else .ok ((s.doGets s.cur.ctx (f.x.toNat % 256) s.nextId).semChange (clusterOf s.cur.ctx) s.arch.info (f.x.toNat % 256) fun _ =>
      { bal := a.val.extractLsb' 0 32, mark := false }))

/-- SGET (R254): scoreboarded; the balance is read when it is performed after issue. (DEDUCED: log entry 27) -/
def execSget (f : SS) (s : State) : Out :=
  .next ({ s with nextId := s.nextId + 1 }.emitSb (.s f.d.toNat) (.sget (f.x.toNat % 256) s.nextId))

/-- The other contexts of the core that hold a task. -/
def State.coreMates (s : State) (k : Nat) : List Nat :=
  ((List.range 4).map fun j => coreOf k * 4 + j).filter fun j => j != k && (s.ctx j).bound && (s.ctx j).ending.isNone

/-- Context `k` gives up its turn until each of the others has issued a bundle (R256). -/
def State.yieldTurn (s : State) (k : Nat) : State :=
  s.setCtx k { s.ctx k with yielding := some (s.coreMates k) }

/-- YIELD (R256). -/
def execYield (_f : SS) (s : State) : Out := .next (s.yieldTurn s.cur.ctx)

/-- EXIT (R257): the task ends when its bundle has committed in full. -/
def execExit (f : SS) (s : State) : Out := .next (s.setArch { s.arch with exitReq := some (f.x.toNat % 65536) })

/-- TRAP (R258): slot 0 commits, then TRAPI is taken with the trap code. -/
def execTrap (f : SS) (s : State) : Out := finish s (.trap s trTrapi (f.x.toNat % 65536))

/-- ERET (R259): issued outside a handler it ends the task; in one it acts when its bundle commits. -/
def execEret (_f : SS) (s : State) : Out :=
  finish s (if s.arch.csw.getLsbD cswInh then .ok (s.setMe { s.me with eretReq := true }) else .fatal stBadtarget)

/-- The poison of a control register: that of the extent slot whose half it is (R14, R288). (DESIGN CHOICE: log entry 112) -/
def State.csrPsn (s : State) (sel : Nat) : Bool := decide (0x40 ≤ sel) && decide (sel < 0x60) && s.arch.eBad.contains (sel % 16)

/-- CSRD (R260): the named register as it stands at issue. -/
def execCsrd (f : SS) (s : State) : Out :=
  .next (s.putS f.d 1 (sResult [{ psn := s.csrPsn (f.x.toNat % 256) }] (s.csr (f.x.toNat % 256))))

/-- CSWR (R260): written at the commit of slot 0; a poisoned value is consumed (R15). -/
def execCswr (f : SS) (s : State) : Out :=
  let a := s.rdS f.a
  finish s (
    if a.psn then mchkS s f.a
    else .ok (s.setArch (s.arch.writeCsr (f.x.toNat % 256) a.val)))

/-- TIME (R262). -/
def execTime (f : SS) (s : State) : Out := .next (s.putS f.d 1 (sResult [] (BitVec.ofNat 64 s.timebase)))

/-- RNDX (R263): the output and the new state, both with the state register's poison. -/
def execRndx (f : SS) (s : State) : Out :=
  let a := s.rdS f.a
  let r := smix a.val
  .next ((s.putS f.d 1 (sResult [a] r.2)).putS f.a 1 (sResult [a] r.1))

/-- PEND (R264): the scalar registers pending at issue. -/
def execPend (f : SS) (s : State) : Out :=
  .next (s.putS f.d 1 (sResult [] (BitVec.ofNat 64
    (((List.range 64).filter fun n => n != 0 && s.cur.pend.contains n).foldl (fun x n => x + 2 ^ n) 0))))

end Sys2Proof.Machine
end

