-- ==== Sys2Proof/Machine/Vector.lean ====
section
/-! DEFINITION. The vector arithmetic, logic, comparison and predicate operations of the VA and VB slots (spec/06 R145 to
R156). -/

namespace Sys2Proof.Machine

/-! ### Floating point (R145 to R148) -/

/-- An operation of two float sources that rounds. -/
def vfloat2 (lat : Nat) (op : FpFmt → Rnd → Fp → Fp → Nat × Nat) (f : VV) (s : State) : Out :=
  let t := f.fmt.toNat
  let w := fmtWidth t
  let a := s.rdV f.a
  let b := s.rdV f.b
  vexec f lat t w ([s.mustBe f.a t, s.mustBe f.b t] ++ s.randomCheck f) (a.psn || b.psn || s.randomPsn f)
    (fun i => some (op (fpOf t) (s.rounding f t i) (fpDecode (fpOf t) (elem a.bits i w)) (fpDecode (fpOf t) (elem b.bits i w)))) s

/-- An operation of the VFMA class: the old destination is the addend (R145). -/
def vfloat3 (negP negD : Bool) (f : VV) (s : State) : Out :=
  let t := f.fmt.toNat
  let w := fmtWidth t
  let a := s.rdV f.a
  let b := s.rdV f.b
  let d := s.rdV f.d
  vexec f 4 t w ([s.mustBe f.a t, s.mustBe f.b t] ++ s.randomCheck f ++ [s.mustBe f.d t])
    (a.psn || b.psn || d.psn || s.randomPsn f)
    (fun i => some (opFma (fpOf t) (s.rounding f t i) negP negD (fpDecode (fpOf t) (elem a.bits i w))
      (fpDecode (fpOf t) (elem b.bits i w)) (fpDecode (fpOf t) (elem d.bits i w)))) s

/-- An operation of one float source that rounds. -/
def vfloat1 (lat : Nat) (op : FpFmt → Rnd → Fp → Nat × Nat) (f : VV) (s : State) : Out :=
  let t := f.fmt.toNat
  let w := fmtWidth t
  let a := s.rdV f.a
  vexec f lat t w (s.mustBe f.a t :: s.randomCheck f) (a.psn || s.randomPsn f)
    (fun i => some (op (fpOf t) (s.rounding f t i) (fpDecode (fpOf t) (elem a.bits i w)))) s

/-- An operation of two sources on patterns, which does not round. -/
def vpattern2 (lat : Nat) (op : Nat → Nat → Nat × Nat) (f : VV) (s : State) : Out :=
  let t := f.fmt.toNat
  let w := fmtWidth t
  let a := s.rdV f.a
  let b := s.rdV f.b
  vexec f lat t w [s.mustBe f.a t, s.mustBe f.b t] (a.psn || b.psn)
    (fun i => some (op (elem a.bits i w) (elem b.bits i w))) s

/-- An operation of one source on patterns. -/
def vpattern1 (op : Nat → Nat × Nat) (f : VV) (s : State) : Out :=
  let t := f.fmt.toNat
  let w := fmtWidth t
  let a := s.rdV f.a
  vexec f 2 t w [s.mustBe f.a t] a.psn (fun i => some (op (elem a.bits i w))) s

/-- VADD (R146). -/
def execVadd (f : VV) (s : State) : Out := vfloat2 2 opAdd f s
/-- VSUB (R146). -/
def execVsub (f : VV) (s : State) : Out := vfloat2 2 opSub f s
/-- VMUL (R146). -/
def execVmul (f : VV) (s : State) : Out := vfloat2 4 opMul f s
/-- VDIV (R146). -/
def execVdiv (f : VV) (s : State) : Out := vfloat2 12 opDiv f s
/-- VFMA (R146): A × B + D. -/
def execVfma (f : VV) (s : State) : Out := vfloat3 false false f s
/-- VFMS (R146): A × B − D. -/
def execVfms (f : VV) (s : State) : Out := vfloat3 false true f s
/-- VFNMA (R146): −(A × B) + D. -/
def execVfnma (f : VV) (s : State) : Out := vfloat3 true false f s
/-- VSQRT (R146). -/
def execVsqrt (f : VV) (s : State) : Out := vfloat1 12 opSqrt f s
/-- VRCP (R146, R147). -/
def execVrcp (f : VV) (s : State) : Out := vfloat1 6 opRcp f s
/-- VRSQ (R146, R147). -/
def execVrsq (f : VV) (s : State) : Out := vfloat1 6 opRsq f s
/-- VEXP2 (R146, R147): rounded to nearest even. -/
def execVexp2 (f : VV) (s : State) : Out := vfloat1 8 (fun t _ a => opExp2 t a) f s
/-- VLOG2 (R146, R147): rounded to nearest even. -/
def execVlog2 (f : VV) (s : State) : Out := vfloat1 8 (fun t _ a => opLog2 t a) f s
/-- VMIN (R148). -/
def execVmin (f : VV) (s : State) : Out := vpattern2 2 (opMinMax (fpOf f.fmt.toNat) false false) f s
/-- VMAX (R148). -/
def execVmax (f : VV) (s : State) : Out := vpattern2 2 (opMinMax (fpOf f.fmt.toNat) true false) f s
/-- VMINP (R148). -/
def execVminp (f : VV) (s : State) : Out := vpattern2 2 (opMinMax (fpOf f.fmt.toNat) false true) f s
/-- VMAXP (R148). -/
def execVmaxp (f : VV) (s : State) : Out := vpattern2 2 (opMinMax (fpOf f.fmt.toNat) true true) f s
/-- VABS (R148): the sign bit is cleared. -/
def execVabs (f : VV) (s : State) : Out := vpattern1 (fun x => (x % 2 ^ (fmtWidth f.fmt.toNat - 1), 0)) f s
/-- VNEG (R148): the sign bit is inverted. -/
def execVneg (f : VV) (s : State) : Out := vpattern1 (fun x => (x ^^^ 2 ^ (fmtWidth f.fmt.toNat - 1), 0)) f s

/-! ### Integers and logic (R149 to R152) -/

/-- An element of an integer format as a number (R150). -/
def intOf (fmt x : Nat) : Int := if fmtSigned fmt then toSigned (fmtWidth fmt) x else ((x % 2 ^ fmtWidth fmt : Nat) : Int)

/-- The lesser or the greater of two elements (R150). -/
def intPick (fmt : Nat) (big : Bool) (x y : Nat) : Nat :=
  if decide (intOf fmt x < intOf fmt y) == big then y else x

/-- VIADD (R150). -/
def execViadd (f : VV) (s : State) : Out := vpattern2 2 (fun a b => (a + b, 0)) f s
/-- VISUB (R150). -/
def execVisub (f : VV) (s : State) : Out := vpattern2 2 (fun a b => (a + 2 ^ fmtWidth f.fmt.toNat - b, 0)) f s
/-- VIMUL (R150). -/
def execVimul (f : VV) (s : State) : Out := vpattern2 4 (fun a b => (a * b, 0)) f s
/-- VIMAD (R150): the old destination is the addend. -/
def execVimad (f : VV) (s : State) : Out :=
  let t := f.fmt.toNat
  let w := fmtWidth t
  let a := s.rdV f.a
  let b := s.rdV f.b
  let d := s.rdV f.d
  vexec f 4 t w [s.mustBe f.a t, s.mustBe f.b t, s.mustBe f.d t] (a.psn || b.psn || d.psn)
    (fun i => some (elem a.bits i w * elem b.bits i w + elem d.bits i w, 0)) s
/-- VIMIN (R150). -/
def execVimin (f : VV) (s : State) : Out := vpattern2 2 (fun a b => (intPick f.fmt.toNat false a b, 0)) f s
/-- VIMAX (R150). -/
def execVimax (f : VV) (s : State) : Out := vpattern2 2 (fun a b => (intPick f.fmt.toNat true a b, 0)) f s

/-- A bitwise operation: FMT sets the width only, and the result takes the tag of a (R149). -/
def vlogic (op : Nat → Nat → Nat) (f : VV) (s : State) : Out :=
  let w := fmtWidth f.fmt.toNat
  let a := s.rdV f.a
  let b := s.rdV f.b
  vexec f 2 a.tag w [] (a.psn || b.psn) (fun i => some (op (elem a.bits i w) (elem b.bits i w), 0)) s

/-- VAND (R150). -/
def execVand (f : VV) (s : State) : Out := vlogic (fun a b => a &&& b) f s
/-- VOR (R150). -/
def execVor (f : VV) (s : State) : Out := vlogic (fun a b => a ||| b) f s
/-- VXOR (R150). -/
def execVxor (f : VV) (s : State) : Out := vlogic (fun a b => a ^^^ b) f s

/-- A shift of elements (R151): the count is OPX[6:0], or an element of b. `op` takes the width, the element and the count. -/
def vshift (op : Nat → Nat → Nat → Nat) (f : VV) (s : State) : Out :=
  let t := f.fmt.toNat
  let w := fmtWidth t
  let a := s.rdV f.a
  let b := s.rdV f.b
  if f.opx[7] then
    vexec f 2 t w [s.mustBe f.a t] a.psn (fun i => some (op w (elem a.bits i w) (f.opx.toNat % 128), 0)) s
  else
    vexec f 2 t w [s.mustBe f.a t, s.mustBe f.b t] (a.psn || b.psn)
      (fun i => some (op w (elem a.bits i w) (elem b.bits i w), 0)) s

def elemShl (w x n : Nat) : Nat := if n < w then x * 2 ^ n else 0
def elemShr (w x n : Nat) : Nat := if n < w then x / 2 ^ n else 0
def elemSar (w x n : Nat) : Nat := ofSigned w (toSigned w x / ((2 ^ min n w : Nat) : Int))

/-- VSHL (R151). -/
def execVshl (f : VV) (s : State) : Out := vshift elemShl f s
/-- VSHR (R151). -/
def execVshr (f : VV) (s : State) : Out := vshift elemShr f s
/-- VSAR (R151). -/
def execVsar (f : VV) (s : State) : Out := vshift elemSar f s

/-- VRNDX (R152): d takes the outputs and a the advanced states, each at latency 2. (DEDUCED: log entry 30) -/
def execVrndx (f : VV) (s : State) : Out :=
  let a := s.rdV f.a
  let old := s.rdV f.d
  let step (i : Nat) : Word × Word := smix (BitVec.ofNat 64 (elem a.bits i 64))
  finish s (tagged s [s.mustBe f.a fUint64] (
    let r := lanes (s.vpred f) (f.zero == 1) old.bits 64 fun i => some ((step i).2.toNat, 0)
    let g := lanes (s.vpred f) false a.bits 64 fun i => some ((step i).1.toNat, 0)
    let psn := a.psn || (f.zero == 0 && r.inactive && old.psn)
    .ok ((s.putV f.d 2 r.bits fUint64 psn).putV f.a 2 g.bits fUint64 a.psn)))

/-! ### Comparison and selection (R153, R154) -/

/-- An integer comparison by the condition codes of R93. -/
def intCompare (fmt cond x y : Nat) : Bool :=
  let a := intOf fmt x
  let b := intOf fmt y
  match cond with
  | 0 => a == b
  | 1 => a != b
  | 2 => decide (a < b)
  | 3 => decide (a ≤ b)
  | 4 => decide (b < a)
  | 5 => decide (b ≤ a)
  | 6 => false
  | _ => true

/-- Each bit of a predicate that stands for an element of width `w` set to the element's value: bit n belongs to element
n·8/w. -/
def spread (w : Nat) (g : Nat → Bool) : Pred :=
  packBits ((List.range (2048 / w)).map fun i => (i * (w / 8), if g i then 2 ^ (w / 8) - 1 else 0))
where
  packBits (l : List (Nat × Nat)) : Pred := BitVec.ofNat 256 (l.foldl (fun x p => x + p.2 * 2 ^ p.1) 0)

/-- VCMP (R153): poisoned sources are consumed; the predicate bits of active elements are written. (DEDUCED: log entry 30) -/
def execVcmp (f : VV) (s : State) : Out :=
  let t := f.fmt.toNat
  let w := fmtWidth t
  let a := s.rdV f.a
  let b := s.rdV f.b
  let cond := f.opx.toNat % 16
  let one (i : Nat) : Bool × Nat :=
    if fmtF.contains t then fpCompare (fpOf t) cond (elem a.bits i w) (elem b.bits i w)
    else (intCompare t cond (elem a.bits i w) (elem b.bits i w), 0)
  finish s (
    if a.psn then mchkV s f.a
    else if b.psn then mchkV s f.b
    else tagged s [s.mustBe f.a t, s.mustBe f.b t] (
      let on (i : Nat) : Bool := act (s.vpred f) i w
      let fl := (List.range (2048 / w)).foldl (fun e i => if on i then e ||| (one i).2 else e) 0
      flagged s fl fun s => s.putP f.d (spread w fun i => (one i).1) (spread w on)))

/-- VSEL (R154): a where the predicate is set, b elsewhere. -/
def execVsel (f : VV) (s : State) : Out :=
  let t := f.fmt.toNat
  let w := fmtWidth t
  let a := s.rdV f.a
  let b := s.rdV f.b
  finish s (tagged s [s.mustBe f.a t, s.mustBe f.b t] (
    let r := lanes (s.vpred f) false b.bits w fun i => some (elem a.bits i w, 0)
    .ok (s.putV f.d 2 r.bits t (a.psn || b.psn))))

/-! ### Predicates (R155, R156) -/

def vpredOp (op : Pred → Pred → Pred) (f : VV) (s : State) : Out :=
  .next (s.putP f.d (op (s.arch.readP f.a.toNat) (s.arch.readP f.b.toNat)) (BitVec.allOnes 256))

/-- VPAND (R155). -/
def execVpand (f : VV) (s : State) : Out := vpredOp (fun a b => a &&& b) f s
/-- VPOR (R155). -/
def execVpor (f : VV) (s : State) : Out := vpredOp (fun a b => a ||| b) f s
/-- VPXOR (R155). -/
def execVpxor (f : VV) (s : State) : Out := vpredOp (fun a b => a ^^^ b) f s
/-- VPNOT (R155). -/
def execVpnot (f : VV) (s : State) : Out := vpredOp (fun a _ => ~~~a) f s

/-- The selected elements of VPCNT and VPFIRST (R156). -/
def State.selected (s : State) (f : VV) : List Nat :=
  let w := fmtWidth f.fmt.toNat
  (List.range (2048 / w)).filter fun i => act (s.arch.readP f.a.toNat) i w && act (s.vpred f) i w

/-- VPCNT (R156). -/
def execVpcnt (f : VV) (s : State) : Out :=
  .next (s.putS f.d 2 (sResult [] (BitVec.ofNat 64 (s.selected f).length)))
/-- VPFIRST (R156): N when no element is selected. -/
def execVpfirst (f : VV) (s : State) : Out :=
  .next (s.putS f.d 2 (sResult [] (BitVec.ofNat 64 ((s.selected f).headD (fmtCount f.fmt.toNat)))))

end Sys2Proof.Machine
end

