-- ==== Sys2Proof/Machine/Lanes.lean ====
section
/-! DEFINITION. The vector conversions, quantisation, tags, reductions, scans, permutes, lane moves, accumulator ports and
stream pops (spec/06 R157 to R167). -/

namespace Sys2Proof.Machine

/-! ### Conversions and tags (R157 to R160) -/

/-- VCVT (R157): destination elements past the smaller element count are treated as inactive. -/
def execVcvt (f : VV) (s : State) : Out :=
  let dst := f.fmt.toNat
  let src := f.opx.toNat % 256
  let a := s.rdV f.a
  let n := min (fmtCount src) (fmtCount dst)
  vexec f 3 dst (fmtWidth dst) (s.mustBe f.a src :: s.randomCheck f) (a.psn || s.randomPsn f)
    (fun i => if i < n then some (convert dst src (s.rounding f dst i) (elem a.bits i (fmtWidth src))) else none) s

/-- The blocks of packet `j` that VQNT writes, by number within the packet: those that start among elements off to
off + cnt − 1 (R158). -/
def quantBlocks (k off cnt j : Nat) : List Nat :=
  (List.range (96 / k)).filter fun b => off ≤ 96 * j + k * b && decide (96 * j + k * b < off + cnt)

/-- One packet of VQNT's result with the flags raised: its written blocks, the band scale and the reserved bytes (R158). -/
def quantPacket (fmt band mode k off cnt j : Nat) (rb : Nat → Nat) (src : Nat → Fp) (pkt : Nat) : Nat × Nat :=
  let bs := quantBlocks k off cnt j
  let r := bs.foldl (fun (acc : Nat × Nat) b =>
    let e0 := 96 * j + k * b
    let n := min k (off + cnt - e0)
    let blk := quantBlock fmt band mode (fun i => rb (e0 + i)) ((List.range n).map fun i => src (e0 + i - off))
    (packetSetBlock fmt acc.1 b blk, acc.2 ||| blk.flags)) (pkt, 0)
  if bs.isEmpty then (pkt, 0) else (packetTail fmt r.1 band, r.2)

/-- VQNT (R158). -/
def execVqnt (f : VV) (s : State) : Out :=
  let dst := f.fmt.toNat
  let src := f.opx.toNat % 256
  let a := s.rdV f.a
  let b := s.rdS f.b
  let old := s.rdV f.d
  let k := blockLen dst
  let off0 := bits b.val 16 9
  let off := off0 - off0 % k
  let cnt := min (min (bits b.val 32 9) (fmtCount src)) (384 - off)
  finish s (tagged s (s.mustBe f.a src :: s.randomCheck f ++ [s.mayBe f.d [fRaw, dst]]) (
    let pkt (j : Nat) : Nat × Nat :=
      if act (s.vpred f) j 512 then
        quantPacket dst (bits b.val 0 16) (s.vmode f) k off cnt j
          (fun e => if f.rm = 5 then elem (s.rdV f.c).bits e 4 else 0)
          (fun t => fpDecode (fpOf src) (elem a.bits t (fmtWidth src))) (elem old.bits j 512)
      else (if f.zero = 1 then 0 else elem old.bits j 512, 0)
    let l := (List.range 4).map pkt
    flagged s (l.foldl (fun e r => e ||| r.2) 0) fun s =>
      s.putV f.d 6 (packVec 512 (l.map fun r => r.1)) dst (a.psn || b.psn || old.psn || s.randomPsn f)))

/-- VDQNT (R159): a NaN block gives the canonical quiet NaN and no flag. -/
def execVdqnt (f : VV) (s : State) : Out :=
  let dst := f.fmt.toNat
  let src := f.opx.toNat % 256
  let a := s.rdV f.a
  let b := s.rdS f.b
  let off := bits b.val 0 9
  let n := min (fmtCount dst) (384 - off)
  vexec f 3 dst (fmtWidth dst) (s.mustBe f.a src :: s.randomCheck f) (a.psn || b.psn || s.randomPsn f)
    (fun i =>
      if i < n then some (packetRound src dst (s.rounding f dst i) (elem a.bits ((off + i) / 96) 512) ((off + i) % 96))
      else none) s

/-- VTAG (R160): the bits of a under the tag FMT. -/
def execVtag (f : VV) (s : State) : Out :=
  let a := s.rdV f.a
  .next (s.putV f.d 2 a.bits f.fmt.toNat a.psn)

/-- VGTAG (R160): tag(a) in bits [7:0] and psn(a) in bit 8. -/
def execVgtag (f : VV) (s : State) : Out :=
  let a := s.rdV f.a
  .next (s.putS f.d 2 (sResult [] (BitVec.ofNat 64 (a.tag + if a.psn then 256 else 0))))

/-! ### Reductions and scans (R161, R162) -/

/-- One level of the tree: neighbours combined, an absent one left out; the flags raised are collected. -/
def reduceLevel (comb : Nat → Nat → Nat × Nat) : List (Option Nat) → List (Option Nat) × Nat
  | some x :: some y :: r =>
    let c := comb x y
    let t := reduceLevel comb r
    (some c.1 :: t.1, c.2 ||| t.2)
  | some x :: none :: r => let t := reduceLevel comb r; (some x :: t.1, t.2)
  | none :: y :: r => let t := reduceLevel comb r; (y :: t.1, t.2)
  | l => (l, 0)

/-- The whole tree: `n` levels. -/
def reduceTree (comb : Nat → Nat → Nat × Nat) : Nat → List (Option Nat) → Option Nat × Nat
  | 0, l => (l.headD none, 0)
  | n + 1, l =>
    let t := reduceLevel comb l
    let u := reduceTree comb n t.1
    (u.1, t.2 ||| u.2)

/-- comb of VREDA and VSCAN (R161). -/
def sumComb (fmt mode : Nat) (x y : Nat) : Nat × Nat :=
  if fmtF.contains fmt then
    opAdd (fpOf fmt) { mode := mode } (fpDecode (fpOf fmt) x) (fpDecode (fpOf fmt) y)
  else ((x + y) % 2 ^ fmtWidth fmt, 0)

/-- comb of VREDM for a kind of R93: 0 and 2 take the greater, 1 and 3 the lesser. -/
def extremeComb (fmt kind : Nat) (x y : Nat) : Nat × Nat :=
  if fmtF.contains fmt then opMinMax (fpOf fmt) (kind % 2 == 0) (2 ≤ kind) x y
  else (intPick fmt (kind % 2 == 0) x y, 0)

/-- What VREDM writes when no element is active (R161). -/
def extremeEmpty (fmt kind : Nat) : Nat :=
  let big := kind % 2 == 0
  let w := fmtWidth fmt
  if fmtF.contains fmt then (fpOf fmt).infBits big
  else if fmtSigned fmt then (if big then 2 ^ (w - 1) else 2 ^ (w - 1) - 1)
  else (if big then 0 else 2 ^ w - 1)

/-- A reduction (R161): element 0 takes the result and every other element zero. -/
def reduction (comb : Nat → Nat → Nat × Nat) (empty : Nat) (f : VV) (s : State) : Out :=
  let t := f.fmt.toNat
  let w := fmtWidth t
  let a := s.rdV f.a
  finish s (tagged s [s.mustBe f.a t] (
    let r := reduceTree comb (Nat.log2 (2048 / w)) ((List.range (2048 / w)).map fun i =>
      if act (s.vpred f) i w then some (elem a.bits i w) else none)
    flagged s r.2 fun s => s.putV f.d 6 (BitVec.ofNat 2048 (r.1.getD empty % 2 ^ w)) t a.psn))

/-- VREDA (R161). -/
def execVreda (f : VV) (s : State) : Out := reduction (sumComb f.fmt.toNat (s.vmode f)) 0 f s
/-- VREDM (R161). -/
def execVredm (f : VV) (s : State) : Out :=
  let kind := f.opx.toNat % 4
  reduction (extremeComb f.fmt.toNat kind) (extremeEmpty f.fmt.toNat kind) f s

/-- The values of VSCAN, in element order (R162): `run` is the running value. -/
def scanFrom (comb : Nat → Nat → Nat × Nat) (excl : Bool) : Option Nat → List (Option Nat) → List (Option (Nat × Nat))
  | _, [] => []
  | run, none :: r => none :: scanFrom comb excl run r
  | run, some x :: r =>
    let y := match run with | none => (x, 0) | some v => comb v x
    some (if excl then run.getD 0 else y.1, y.2) :: scanFrom comb excl (some y.1) r

/-- VSCAN (R162). -/
def execVscan (f : VV) (s : State) : Out :=
  let t := f.fmt.toNat
  let w := fmtWidth t
  let a := s.rdV f.a
  let l := scanFrom (sumComb t (s.vmode f)) f.opx[0] none ((List.range (2048 / w)).map fun i =>
    if act (s.vpred f) i w then some (elem a.bits i w) else none)
  vexec f 8 t w [s.mustBe f.a t] a.psn (fun i => nth none l i) s

/-! ### Permutes and lane moves (R163, R164) -/

/-- A permute: no tag is checked, and the result takes the tag of a. -/
def permute (lat : Nat) (two : Bool) (y : Nat → Nat → Vec → Vec → Nat → Nat) (f : VV) (s : State) : Out :=
  let w := fmtWidth f.fmt.toNat
  let a := s.rdV f.a
  let b := s.rdV f.b
  vexec f lat a.tag w [] (a.psn || (two && b.psn)) (fun i => some (y w (2048 / w) a.bits b.bits i, 0)) s

/-- VPERM (R164). -/
def execVperm (f : VV) (s : State) : Out :=
  permute 3 true (fun w n a b i => if elem b i w < n then elem a (elem b i w) w else 0) f s
/-- VZIP (R164). -/
def execVzip (f : VV) (s : State) : Out :=
  let h := if f.opx[0] then 1 else 0
  permute 3 true (fun w n a b i => elem (if i % 2 = 0 then a else b) (h * (n / 2) + i / 2) w) f s
/-- VUNZIP (R164): every second element of a followed by b. -/
def execVunzip (f : VV) (s : State) : Out :=
  let h := if f.opx[0] then 1 else 0
  permute 3 true (fun w n a b i => if 2 * i + h < n then elem a (2 * i + h) w else elem b (2 * i + h - n) w) f s
/-- VSLIDE (R164): by the signed count OPX[8:0]. -/
def execVslide (f : VV) (s : State) : Out :=
  permute 3 false (fun w n a _ i =>
    let j : Int := (i : Int) - toSigned 9 (f.opx.toNat % 512)
    if 0 ≤ j ∧ j < n then elem a j.toNat w else 0) f s
/-- VMOV (R164). -/
def execVmov (f : VV) (s : State) : Out := permute 2 false (fun w _ a _ i => elem a i w) f s

/-- VBCAST (R164). -/
def execVbcast (f : VV) (s : State) : Out :=
  let a := s.rdS f.a
  vexec f 2 f.fmt.toNat (fmtWidth f.fmt.toNat) [] a.psn (fun _ => some (a.val.toNat, 0)) s
/-- VIDX (R164). -/
def execVidx (f : VV) (s : State) : Out :=
  let a := s.rdS f.a
  let b := s.rdS f.b
  vexec f 2 f.fmt.toNat (fmtWidth f.fmt.toNat) [] (a.psn || b.psn)
    (fun i => some (a.val.toNat + i * b.val.toNat, 0)) s

/-- VINS (R164): one element replaced; the old destination carries FMT or the raw tag. -/
def execVins (f : VV) (s : State) : Out :=
  let t := f.fmt.toNat
  let w := fmtWidth t
  let a := s.rdS f.a
  let d := s.rdV f.d
  finish s (tagged s [s.mayBe f.d [fRaw, t]] (
    .ok (s.putV f.d 2 (setBits d.bits (w * (f.opx.toNat % 512)) w a.val.toNat) t (a.psn || d.psn))))
/-- VEXT (R164): its source carries the tag FMT (R17). -/
def execVext (f : VV) (s : State) : Out :=
  let a := s.rdV f.a
  let y := elem a.bits (f.opx.toNat % 512) (fmtWidth f.fmt.toNat)
  finish s (tagged s [s.mustBe f.a f.fmt.toNat] (
    .ok (s.putS f.d 2 (if a.psn then { psn := true } else { val := BitVec.ofNat 64 y }))))

/-! ### Accumulator ports (R165) -/

def accBank (f : VV) : Nat := f.opx.toNat / 8192 % 8
def accRow (f : VV) : Nat := f.opx.toNat / 64 % 128

/-- ACCRD (R165): the row as it stands at issue. -/
def execAccrd (f : VV) (s : State) : Out :=
  let s := s.nameBank (accBank f)
  let row := look {} (s.core s.myCore).acc (accBank f * 128 + accRow f)
  let w := fmtWidth f.fmt.toNat
  vexec f 5 f.fmt.toNat w [] row.psn (fun i => some (elem row.bits i w, 0)) s

/-- The bits of a row that belong to active elements of width `w`. -/
def rowMask (w : Nat) (on : Nat → Bool) : Vec :=
  packVec w ((List.range (2048 / w)).map fun i => if on i then 2 ^ w - 1 else 0)

/-- ACCWR (R165): the write lands three issue cycles after issue. -/
def execAccwr (f : VV) (s : State) : Out :=
  let t := f.fmt.toNat
  let w := fmtWidth t
  let a := s.rdV f.a
  let on (i : Nat) : Bool := act (s.vpred f) i w
  finish s (tagged s [s.mustBe f.a t] (
    let s := s.nameBank (accBank f)
    .ok (s.emit 3 (.acc (accBank f) (accRow f) a.bits (rowMask w on) a.psn ((List.range (2048 / w)).all on)))))

/-! ### Stream pops (R167) -/

def Stream.running (q : Stream) : Bool := q.state == 1

/-- VSQ (R167): the head entry is popped; a stream that has drained gives a poisoned zero; while it runs and is empty the
bundle blocks. -/
def execVsq (f : VV) (s : State) : Out :=
  let k := f.opx.toNat % 4
  let q := look {} s.arch.q k
  let w := fmtWidth f.fmt.toNat
  if w ≠ 8 * 2 ^ q.esz.toNat then finish s (.trap s trFmt (fmtInfo 1 k 0 f.fmt.toNat))
  else
    match q.fifo with
    | e :: rest =>
      vexec f 2 f.fmt.toNat w [] e.psn (fun i => some (elem e.bits i w, 0))
        (s.setArch { s.arch with q := put {} s.arch.q k { q with fifo := rest } })
    | [] => .next (if q.running then s.setAside else s.putV f.d 2 0 f.fmt.toNat true)

end Sys2Proof.Machine
end

