-- ==== Sys2Proof/Machine/Commands.lean ====
section
/-! DEFINITION. The M-slot and C-slot operations as they issue: matrix parameter registers, the commands of the engines, and the
transform beats (spec/08 R199 to R213, spec/09 R231 to R233, R240, R250, R251). -/

namespace Sys2Proof.Machine

/-! ### Consumed tokens (R200, R232) -/

/-- A consumed token as its command samples it at issue: the register's value, or the result that it is pending on. -/
def State.sample (s : State) (r : BitVec 6) : TokVal :=
  if s.cur.pend.contains r.toNat then .await r.toNat
  else .have_ (s.rdS r).val (s.rdS r).psn

/-- Whether a sampled value counts as a success (R232). -/
def TokVal.good : TokVal → Bool
  | .have_ w psn => !psn && isSuccess (bits w 32 16)
  | .await _ => false

def TokVal.arrived : TokVal → Bool
  | .have_ _ _ => true
  | .await _ => false

/-- Whether every consumed token has completed, and whether every one counts as a success. -/
def Cmd.ready (c : Cmd) : Bool := c.toks.all TokVal.arrived
def Cmd.good (c : Cmd) : Bool := c.toks.all TokVal.good

/-- A command of the executing slot, with its token and its consumed tokens. -/
def State.newCmd (s : State) (op : Nat) (d a b c : BitVec 6) : Cmd :=
  { id := s.nextId, ctx := s.cur.ctx, slot := s.cur.slot, op := op, d := d.toNat,
    toks := [s.sample a, s.sample b, s.sample c], core := s.myCore, info := s.arch.info, born := s.time }

/-- A command's number is taken, its token becomes pending, and the task keeps its record (R346). -/
def State.posted (s : State) (c : Cmd) : State :=
  let s := s.emitSb (.s c.d) (.token c.core c.id)
  let a := s.arch
  let s := s.setArch { a with
    cmds := a.cmds ++ [{ id := c.id, slot := c.slot, op := c.op, cycle := s.cur.clock.toNat % 2 ^ 32, status := none }] }
  { s with nextId := s.nextId + 1 }

/-- The scalar quad from `r` up: the first poisoned register takes MCHK (R15, R233). -/
def quadOf (s : State) (r : BitVec 6) : Nat → (List Word → SlotResult) → SlotResult
  | 0, k => k []
  | n + 1, k => if (s.rdS r).psn then mchkS s r else quadOf s (r + 1) n fun l => k ((s.rdS r).val :: l)

/-! ### Matrix parameter registers (R205, R206) -/

/-- MPW (R206). -/
def execMpw (f : MP) (s : State) : Out :=
  let a := s.rdS f.a
  finish s (if a.psn then mchkS s f.a else .ok (s.emit 1 (.mp f.mp.toNat a.val)))

/-- MPR (R206). -/
def execMpr (f : MP) (s : State) : Out := .next (s.putS f.d 1 (sResult [] (s.arch.readMp f.mp)))

/-! ### The matrix queue (R199, R208 to R213) -/

/-- The banks from `b` up that a tile of `n` columns of `e` elements takes, none past acc7 (R198, R208). -/
def tileBanks (b n e : Nat) : List Nat := (List.range ((n + e - 1) / e)).map (b + ·) |>.filter (· < 8)

/-- The banks of a bank mask. -/
def maskBanks (m : Nat) : List Nat := (List.range 8).filter m.testBit

/-- Elements in a row of a bank for a routine of the MMA family: 32 for FP64 inputs, else 64 (R198). -/
def mmaRow (mp0 : Word) : Nat := if bits mp0 40 8 = fFp64 then 32 else 64

/-- The banks that a routine's parameters name (R208). -/
def routineBanks (routine : Nat) (mp : List Word) : List Nat :=
  let mp0 := nth 0 mp 0
  let mp1 := nth 0 mp 1
  match routine with
  | 1 | 2 | 3 | 4 => tileBanks (bits mp1 36 3) (bits mp1 8 8 + 1) (mmaRow mp0)
  | 5 => maskBanks (bits mp1 0 8)
  | _ => tileBanks (bits mp1 16 3) (bits mp1 8 8 + 1) (if bits mp1 21 2 = 1 then 32 else 64)

/-- Whether the loaded library contains a routine (R100, R208): versions of major number 1 hold indices 1 to 7. -/
def State.hasRoutine (s : State) (routine : Nat) : Bool :=
  s.libver / 256 == 1 && decide (1 ≤ routine) && decide (routine ≤ 7)

/-- Whether a result is an accumulator write to one of some banks. -/
def Flight.writesBank (banks : List Nat) (f : Flight) : Bool :=
  match f.dst with
  | .acc b _ _ _ _ _ => banks.contains b
  | _ => false

/-- The results of a core's contexts put in the order of their issue. -/
def insertSeq (x : Nat × Flight) : List (Nat × Flight) → List (Nat × Flight)
  | [] => [x]
  | y :: r => if x.2.seq < y.2.seq then x :: y :: r else y :: insertSeq x r

/-- Every ACCWR of the core to one of some banks that has not landed, in flight or parked, is applied at once in issue order
(R166). -/
def State.applyAccwr (s : State) (core : Nat) (banks : List Nat) : State :=
  let ks := (List.range 4).map fun j => core * 4 + j
  let due (s : State) : List (Nat × Flight) :=
    (ks.flatMap fun k => (((s.ctx k).arch.flight ++ (s.ctx k).arch.parked).filter (Flight.writesBank banks)).map fun f => (k, f)).foldl
      (fun l x => insertSeq x l) []
  let l := due s
  if l.isEmpty then s
  else
    let s := l.foldl (fun s x => s.landOne x.1 x.2.dst) s
    ks.foldl (fun s k =>
      let c := s.ctx k
      let keep (f : Flight) : Bool := !f.writesBank banks
      if (c.arch.flight ++ c.arch.parked).all keep then s
      else s.setCtx k { c with arch := { c.arch with flight := c.arch.flight.filter keep, parked := c.arch.parked.filter keep } }) s

/-- A command takes its banks: the issuing task names them, those that an earlier command owns only as this one starts, and
accumulator writes still on their way land first (R166). (DEDUCED: log entry 95) -/
def State.takeBanks (s : State) (banks : List Nat) : State :=
  ((banks.filter fun b => !(s.core s.myCore).owned b).foldl State.nameBank s).applyAccwr s.myCore banks

/-- A matrix command enters the core's matrix queue. -/
def State.queueMatrix (s : State) (c : Cmd) : State :=
  let s := (s.takeBanks c.banks).posted c
  s.setCore s.myCore { s.core s.myCore with mq := (s.core s.myCore).mq ++ [c] }

/-- MCALL (R208): whether the library contains the routine is settled as it issues, with the banks that it takes. (DEDUCED: log
entry 60) -/
def execMcall (f : MC) (s : State) : Out :=
  let mp := (List.range 8).map fun n => s.arch.readMp (BitVec.ofNat 3 n)
  let r := f.routine.toNat
  .next (s.queueMatrix { s.newCmd 0x03 f.d f.a f.b f.c with
    routine := r, lacks := !s.hasRoutine r, prio := f.prio.toNat, mp := mp, sigen := f.sigen == 1, sem := f.sem.toNat
    banks := if s.hasRoutine r then routineBanks r mp else [] })

/-- WBLD (R209). -/
def execWbld (f : MC) (s : State) : Out :=
  finish s (quadOf s f.quad 4 fun q =>
    .ok (s.queueMatrix { s.newCmd 0x04 f.d f.a f.b f.c with quad := q, sigen := f.sigen == 1, sem := f.sem.toNat }))

/-- WBCLR (R209). -/
def execWbclr (f : MC) (s : State) : Out :=
  .next (s.queueMatrix { s.newCmd 0x05 f.d f.a f.b f.c with sigen := f.sigen == 1, sem := f.sem.toNat })

/-- ACCZ (R211): the mask is read, and its banks are taken, at issue. -/
def execAccz (f : MC) (s : State) : Out :=
  finish s (quadOf s f.quad 1 fun q =>
    .ok (s.queueMatrix { s.newCmd 0x06 f.d f.a f.b f.c with
      quad := q, sigen := f.sigen == 1, sem := f.sem.toNat, banks := maskBanks (bits (nth 0 q 0) 0 8) }))

/-- GEVAL (R213): it enters the Lode queue. -/
def execGeval (f : MC) (s : State) : Out :=
  finish s (quadOf s f.quad 4 fun q =>
    let c := { s.newCmd 0x07 f.d f.a f.b f.c with quad := q, sigen := f.sigen == 1, sem := f.sem.toNat }
    let s := s.posted c
    .ok (s.setCore s.myCore { s.core s.myCore with lq := (s.core s.myCore).lq ++ [c] }))

/-- MQSTAT (R212): it takes no queue entry. -/
def execMqstat (f : MC) (s : State) : Out :=
  let c := { s.newCmd 0x08 f.d f.a f.b f.c with sigen := f.sigen == 1, sem := f.sem.toNat }
  let s := s.posted c
  .next (s.setCore s.myCore { s.core s.myCore with mqstat := (s.core s.myCore).mqstat ++ [c] })

/-! ### The copy engine's queue (R231, R233, R240) -/

/-- The remote destination block that a locator of SPACE 3 names, read at issue with its poison (R233, R240); none where the
locator's address is no multiple of 64 below 1 MiB. (DEDUCED: log entry 87) -/
def State.remoteBlock (s : State) (l : Word) : List Byte × Bool :=
  if locSpace l = 3 ∧ locOff l % 64 = 0 ∧ locOff l + 64 ≤ 2 ^ 20 then (s.spm.bytes (locOff l) 64, s.spm.poisoned (locOff l) 64)
  else ([], false)

/-- The element updates of SCAE and CRED that go to memory: their number, and whether their format is a float format. -/
def elementUpdates (op : Nat) (fmt : Nat) (quad : List Word) : Nat :=
  if (op = 5 ∨ op = 6) ∧ locSpace (nth 0 quad 1) = 2 ∧ fmtF.contains fmt then bits (nth 0 quad 2) 0 48 else 0

/-- A copy-engine command enters the queue with its quad, its remote block, and the keys and issue numbers of its element
updates (R190, R233, R324). -/
def copyCommand (op : Nat) (f : CC) (s : State) : Out :=
  finish s (quadOf s f.quad 4 fun q =>
    let a := s.arch
    let n := elementUpdates op f.fmt.toNat q
    let ord := if a.info.det then n else 0
    let blk := s.remoteBlock (nth 0 q 1)
    let c := { s.newCmd op f.d f.a f.b f.c with
      fmt := f.fmt.toNat, sub := f.sub.toNat, scope := f.scope.toNat, sigen := f.sigen == 1, bytes := f.bytes == 1
      sem := f.sem.toNat, quad := q, block := blk.1, blockPsn := blk.2
      ordLo := a.ordN, ordHi := a.ordN + ord, logLo := a.logN }
    let s := s.posted c
    let s := s.setArch { s.arch with ordN := a.ordN + ord, logN := a.logN + n }
    .ok (s.setCore s.myCore { s.core s.myCore with cq := (s.core s.myCore).cq ++ [c] }))

/-- CPY (R237). -/
def execCpy (f : CC) (s : State) : Out := copyCommand 1 f s
/-- CPYT convert (R242). -/
def execCpytConvert (f : CC) (s : State) : Out := copyCommand 2 f s
/-- CPYT transpose (R242). -/
def execCpytTranspose (f : CC) (s : State) : Out := copyCommand 2 f s
/-- CPYT expand (R242). -/
def execCpytExpand (f : CC) (s : State) : Out := copyCommand 2 f s
/-- CPYT compress (R242). -/
def execCpytCompress (f : CC) (s : State) : Out := copyCommand 2 f s
/-- CPYR (R240). -/
def execCpyr (f : CC) (s : State) : Out := copyCommand 3 f s
/-- GATH (R247). -/
def execGath (f : CC) (s : State) : Out := copyCommand 4 f s
/-- SCAE (R247). -/
def execScae (f : CC) (s : State) : Out := copyCommand 5 f s
/-- CRED (R247). -/
def execCred (f : CC) (s : State) : Out := copyCommand 6 f s

/-! ### Transform beats (R250, R251) -/

/-- Row `u` of the transposed block of eight staged rows. -/
def transposeRow (st : FMap VReg) (w u : Nat) : Vec :=
  packVec w ((List.range (2048 / w)).map fun k => elem (look {} st (k % 8)).bits (8 * (k / 8) + u) w)

/-- Buffer rows put in flight at latency `lat`. -/
def State.putRows (s : State) (lat : Nat) : List (Nat × VReg) → State
  | [] => s
  | r :: t => (s.emit lat (.x r.1 { r.2 with bits := if r.2.psn then 0 else r.2.bits })).putRows lat t

/-- XPOSE (R251): the row is staged as the slot commits; beat 7 puts the transposed block in flight. -/
def execXpose (f : CX) (s : State) : Out :=
  let fmt := f.fmt.toNat
  let st := put {} s.arch.xstage f.beat.toNat (s.rdV f.a)
  let psn := (List.range 8).any fun i => (look {} st i).psn
  finish s (tagged s [s.mustBe f.a fmt] (
    let s := s.setArch { s.arch with xstage := st }
    .ok (if f.beat = 7 then
        s.putRows 12 ((List.range 8).map fun u => (u, { bits := transposeRow st (fmtWidth fmt) u, tag := fmt, psn := psn }))
      else s)))

/-- XCVT (R251): elements that the source does not reach are not stated. (DESIGN CHOICE: log entry 39) -/
def execXcvt (f : CX) (s : State) : Out :=
  let dst := f.fmt.toNat
  let a := s.rdV f.a
  let src := a.tag
  let n := min (fmtCount src) (fmtCount dst)
  let w := fmtWidth dst
  let y (i : Nat) : Nat :=
    if i < n then (convert dst src { mode := f.rm.toNat } (elem a.bits i (fmtWidth src))).1 else Config.freeValue (s.draws + i)
  finish s (tagged s [s.mayBe f.a ((fmtFloat ++ fmtInt).filter fun t => t != dst && t != fIx)] (
    let s := s.putRows 6 [(f.beat.toNat, { bits := packVec w ((List.range (2048 / w)).map y), tag := dst, psn := a.psn })]
    .ok { s with draws := s.draws + 2048 / w }))

/-- XEXP (R251): 384 packet elements in order into three or six rows. -/
def execXexp (f : CX) (s : State) : Out :=
  let dst := f.fmt.toNat
  let a := s.rdV f.a
  let w := fmtWidth dst
  let per := 2048 / w
  let y (e : Nat) : Nat := (packetRound a.tag dst rne (elem a.bits (e / 96) 512) (e % 96)).1
  let row (j : Nat) : Nat × VReg :=
    (f.beat.toNat + j, { bits := packVec w ((List.range per).map fun i => y (j * per + i)), tag := dst, psn := a.psn })
  finish s (tagged s [s.mayBe f.a fmtPacket] (.ok (s.putRows 10 ((List.range (384 / per)).map row))))

/-- XRD (R251): the row as it stands at issue. -/
def execXrd (f : CX) (s : State) : Out :=
  let r := look {} s.arch.xbuf f.beat.toNat
  .next (s.putV f.d 2 r.bits r.tag r.psn)

end Sys2Proof.Machine
end

