-- ==== Sys2Proof/Machine/Crypto.lean ====
section
/-! DEFINITION. The cryptography that the spec names: SHA-384, HMAC, and the verification of an ECDSA signature on P-384
(spec/04 R114, spec/08 R228, spec/19 R394 to R400). Their definitions are the published standards. -/

namespace Sys2Proof.Machine

/-! ### SHA-384 -/

/-- The largest r below 2^b above `r` whose power `k` is at most n, by bits from the highest down. -/
def rootFrom (k n : Nat) : Nat → Nat → Nat
  | 0, r => r
  | b + 1, r => rootFrom k n b (if (r + 2 ^ b) ^ k ≤ n then r + 2 ^ b else r)

/-- The first 64 bits of the fraction of the root `k` of a prime. -/
def rootFraction (k p : Nat) : Nat := rootFrom k (p * 2 ^ (64 * k)) 70 0 % 2 ^ 64

/-- The first 80 primes. -/
def shaPrimes : List Nat :=
  let small := [2, 3, 5, 7, 11, 13, 17, 19]
  (List.range 410).filter fun n => decide (2 ≤ n) && (small.contains n || small.all fun d => n % d != 0)

/-- The constants of the rounds, and the chaining value that SHA-384 starts from. -/
def shaK : List Nat := shaPrimes.map (rootFraction 3)
def shaH : List Nat := ((shaPrimes.drop 8).take 8).map (rootFraction 2)

/-- Addition and rotation of 64-bit words held as numbers. -/
def w64 (x : Nat) : Nat := x % 2 ^ 64
def rotr64 (x n : Nat) : Nat := w64 (x >>> n ||| x <<< (64 - n))

/-- The number of big-endian bytes. -/
def beNat (l : List Byte) : Nat := l.foldl (fun n b => 256 * n + b.toNat) 0
def beBytes (n x : Nat) : List Byte := (leBytes n x).reverse

/-- Three rotations of a word added without carry; with `shift` the last is a shift. -/
def shaMix (x i j k : Nat) (shift : Bool) : Nat := rotr64 x i ^^^ rotr64 x j ^^^ (if shift then x >>> k else rotr64 x k)

/-- The rounds of a block over its constants. `w` is the window of 16 message words, the oldest last; the working variables are two
histories of four values, newest first. -/
def shaRounds : List Nat → List Nat → List Nat × List Nat → List Nat × List Nat
  | [], _, v => v
  | k :: ks, w, (up, low) =>
    let a := fun i => nth 0 up i
    let e := fun i => nth 0 low i
    let chosen := (e 0 &&& e 1) ||| ((e 0 ^^^ (2 ^ 64 - 1)) &&& e 2)
    let most := (a 0 &&& a 1) ||| (a 2 &&& (a 0 ||| a 1))
    let t := e 3 + chosen + shaMix (e 0) 14 18 41 false + k + nth 0 w 15
    let next := nth 0 w 15 + nth 0 w 6 + shaMix (nth 0 w 14) 1 8 7 true + shaMix (nth 0 w 1) 19 61 6 true
    shaRounds ks (w64 next :: w.take 15) (w64 (t + most + shaMix (a 0) 28 34 39 false) :: up.take 3, w64 (a 3 + t) :: low.take 3)

/-- One block of 128 bytes. -/
def shaBlock (h : List Nat) (blk : List Byte) : List Nat :=
  let v := shaRounds shaK ((chunks 8 16 blk).map beNat).reverse (h.take 4, h.drop 4)
  (h.zip (v.1 ++ v.2)).map fun p => w64 (p.1 + p.2)

/-- SHA-384 of a byte string: 48 bytes. -/
def sha384 (msg : List Byte) : List Byte :=
  let n := msg.length
  let zeros := (239 - n % 128) % 128
  let padded := msg ++ [0x80#8] ++ List.replicate zeros 0#8 ++ beBytes 16 (8 * n)
  let h := (chunks 128 (padded.length / 128) padded).foldl shaBlock shaH
  (h.flatMap (beBytes 8)).take 48

/-- HMAC-SHA-384. -/
def hmac384 (key msg : List Byte) : List Byte :=
  let k := if 128 < key.length then sha384 key else key
  let k := k ++ List.replicate (128 - k.length) 0#8
  sha384 (k.map (· ^^^ 0x5C#8) ++ sha384 (k.map (· ^^^ 0x36#8) ++ msg))

/-! ### P-384 -/

abbrev p384 : Nat := 2 ^ 384 - 2 ^ 128 - 2 ^ 96 + 2 ^ 32 - 1
abbrev n384 : Nat :=
  0xFFFFFFFFFFFFFFFFFFFFFFFFFFFFFFFFFFFFFFFFFFFFFFFFC7634D81F4372DDF581A0DB248B0A77AECEC196ACCC52973
abbrev b384 : Nat :=
  0xb3312fa7e23ee7e4988e056be3f82d19181d9c6efe8141120314088f5013875ac656398d8a2ed19d2a85c8edd3ec2aef
abbrev gx384 : Nat :=
  0xaa87ca22be8b05378eb1c71ef320ad746e1d3b628ba79b9859f741e082542a385502f25dbf55296c3a545e3872760ab7
abbrev gy384 : Nat :=
  0x3617de4a96262c6f5d9e98bf9292dc29f8f41dbd289a147ce9da3113b5f0b8c00a60b1ce1d7e819d7a431d7c90ea0e5f

/-- x^e modulo m; `fuel` bounds the bits of e. -/
def powMod (m : Nat) : Nat → Nat → Nat → Nat → Nat
  | 0, _, _, acc => acc
  | fuel + 1, x, e, acc => if e = 0 then acc else powMod m fuel (x * x % m) (e / 2) (if e % 2 = 1 then acc * x % m else acc)

/-- The inverse modulo a prime below 2^384. -/
def invMod (m x : Nat) : Nat := powMod m 384 (x % m) (m - 2) 1

/-- A point of the curve in projective form (x/z², y/z³); z = 0 is the point at infinity. -/
structure JPoint where
  x : Nat
  y : Nat
  z : Nat
  deriving DecidableEq, Repr

def subP (a b : Nat) : Nat := (a + p384 - b % p384) % p384

def JPoint.double (q : JPoint) : JPoint :=
  if q.z = 0 ∨ q.y = 0 then { x := 1, y := 1, z := 0 }
  else
    let zz := q.z * q.z % p384
    let yy := q.y * q.y % p384
    let s := 4 * q.x * yy % p384
    let m := 3 * (subP q.x zz) * (q.x + zz) % p384
    let x := subP (m * m) (2 * s)
    { x := x, y := subP (m * subP s x) (8 * yy * yy), z := 2 * q.y * q.z % p384 }

def JPoint.add (q r : JPoint) : JPoint :=
  if q.z = 0 then r
  else if r.z = 0 then q
  else
    let z1 := q.z * q.z % p384
    let z2 := r.z * r.z % p384
    let u1 := q.x * z2 % p384
    let u2 := r.x * z1 % p384
    let s1 := q.y * z2 % p384 * r.z % p384
    let s2 := r.y * z1 % p384 * q.z % p384
    if u1 = u2 then (if s1 = s2 then q.double else { x := 1, y := 1, z := 0 })
    else
      let h := subP u2 u1
      let t := subP s2 s1
      let hh := h * h % p384
      let hhh := hh * h % p384
      let v := u1 * hh % p384
      let x := subP (subP (t * t) hhh) (2 * v)
      { x := x, y := subP (t * subP v x) (s1 * hhh), z := q.z * r.z % p384 * h % p384 }

/-- The multiple of a point by a scalar, from its bits upward. -/
def JPoint.mul : Nat → Nat → JPoint → JPoint → JPoint
  | 0, _, _, acc => acc
  | fuel + 1, k, q, acc => JPoint.mul fuel (k / 2) q.double (if k % 2 = 1 then acc.add q else acc)

/-- Whether (x, y) is a point of the curve. -/
def onCurve (x y : Nat) : Bool :=
  decide (x < p384) && decide (y < p384) && y * y % p384 == (x * x % p384 * x + b384 + (p384 - 3) * x) % p384

/-- Verification of an ECDSA P-384 signature with SHA-384 under the public key (x, y). -/
def ecdsaVerify (key : Nat × Nat) (msg : List Byte) (r s : Nat) : Bool :=
  if !onCurve key.1 key.2 || r == 0 || s == 0 || decide (n384 ≤ r) || decide (n384 ≤ s) then false
  else
    let w := invMod n384 s
    let e := beNat (sha384 msg)
    let inf : JPoint := { x := 1, y := 1, z := 0 }
    let q := (JPoint.mul 384 (e * w % n384) { x := gx384, y := gy384, z := 1 } inf).add
      (JPoint.mul 384 (r * w % n384) { x := key.1, y := key.2, z := 1 } inf)
    if q.z = 0 then false
    else
      let zi := invMod p384 q.z
      q.x * (zi * zi % p384) % p384 % n384 == r

/-- The ECDSA P-384 signature with SHA-384 of a message under the private key `d`, from the number `k` on; `fuel` bounds the numbers
tried, as one that gives a zero is passed over. (DESIGN CHOICE: log entry 79) -/
def ecdsaSign (d : Nat) (msg : List Byte) : Nat → Nat → Nat × Nat
  | 0, _ => (0, 0)
  | fuel + 1, k =>
    let q := JPoint.mul 384 k { x := gx384, y := gy384, z := 1 } { x := 1, y := 1, z := 0 }
    let zi := invMod p384 q.z
    let r := q.x * (zi * zi % p384) % p384 % n384
    let s := invMod n384 k * (beNat (sha384 msg) + r * d) % n384
    if r = 0 ∨ s = 0 then ecdsaSign d msg fuel (k + 1) else (r, s)

/-- A 96-byte signature: r then s, 48 bytes each, big-endian (R394). (DESIGN CHOICE: log entry 79) -/
def verifySig (key : Nat × Nat) (msg sig : List Byte) : Bool :=
  sig.length == 96 && ecdsaVerify key msg (beNat (sig.take 48)) (beNat (sig.drop 48))

/-- A public key of 97 bytes in uncompressed SEC1 form (R395). -/
def sec1Key (l : List Byte) : Option (Nat × Nat) :=
  match l with
  | t :: r => if t = 4 ∧ r.length = 96 then some (beNat (r.take 48), beNat (r.drop 48)) else none
  | [] => none

end Sys2Proof.Machine
end

