-- ==== Sys2Proof/Machine/Checks.lean ====
section
/-! DEFINITION. The checks that the Assayer makes of one slot word (spec/04 R88 to R96, R112, and the entries of spec/05
to spec/09): for each operation the reason codes of the checks it fails. Bits that a form leaves out are checked by the
decoder, which compares the word with the encoding of what it read. -/

namespace Sys2Proof.Machine

/-- The reason `code` unless the check holds. -/
def chk (ok : Bool) (code : Nat) : List Nat := if ok then [] else [code]

/-- A field that must be 0 (reason 0x06). -/
def chkZero {n : Nat} (x : BitVec n) : List Nat := chk (x == 0) 0x06

/-- A vector register: bit 5 is 0 (R88). -/
def chkVec (r : BitVec 6) : List Nat := chk (r.toNat < 32) 0x07

/-- A predicate register: bits [5:3] are 0 (R88). -/
def chkPred (r : BitVec 6) : List Nat := chk (r.toNat < 8) 0x07

/-- A quad base: a multiple of 4 from 4 to 60 (R88). -/
def chkQuad (r : BitVec 6) : List Nat := chk (r.toNat % 4 == 0 && r.toNat != 0) 0x07

/-- A pair base: even, from 2 to 62 (R88). -/
def chkPair (r : BitVec 6) : List Nat := chk (r.toNat % 2 == 0 && r.toNat != 0) 0x07

/-- A format code among those accepted (reason 0x08). -/
def chkFmt (f : Nat) (ok : List Nat) : List Nat := chk (ok.contains f) 0x08

/-- The control-register selectors of R23. -/
def csrListed (x : Nat) : Bool := x ≤ 0x08 || (0x40 ≤ x && x ≤ 0x67)

def srBinary (f : SR) : List Nat := chkZero f.c
def srUnary (f : SR) : List Nat := chkZero f.b ++ chkZero f.c

def sfShift (f : SF) : List Nat := chk (f.width == 0) 0x0A
def sfUnary (f : SF) : List Nat := chk (f.width == 0 && f.lsb == 0) 0x0A
def sfField (f : SF) : List Nat := chk (f.width != 0 && f.lsb.toNat + f.width.toNat ≤ 64) 0x0A
def sfExtend (f : SF) : List Nat := chk (f.width != 0 && f.lsb == 0 && f.width.toNat ≤ 64) 0x0A

def sbNoTarget (f : SB) : List Nat := chkZero f.bidx ++ chkZero f.segoff

/-- RM and DYN of an operation that rounds in any mode of `top` or below, and field c, the random bits of mode 5 (R92). -/
def vvRound (f : VV) (top : Nat) : List Nat :=
  chk (f.rm.toNat ≤ top && (f.opx[15] == false || f.rm == 0)) 0x09 ++
  (if f.rm == 5 then chkVec f.c else chkZero f.c)

/-- RM of an operation that does not round, and c unused (R92). -/
def vvNoRound (f : VV) : List Nat := chk (f.rm == 0) 0x09 ++ chkZero f.c

/-- OPX bits from `n` up to bit 14 are 0, and bit 15 too unless it is DYN (R92, R93). -/
def vvOpx (f : VV) (n : Nat) (dyn : Bool) : List Nat :=
  chk ((if dyn then f.opx.toNat % 0x8000 else f.opx.toNat) < 2 ^ n) 0x06

def vvZero0 (f : VV) : List Nat := chk (f.zero == 0) 0x0A

/-- Float arithmetic with two sources or one (R145). -/
def vvFloat (f : VV) (binary rounds : Bool) (fmts : List Nat) : List Nat :=
  chkVec f.d ++ chkVec f.a ++ (if binary then chkVec f.b else chkZero f.b) ++ chkFmt f.fmt.toNat fmts ++
  (if rounds then vvRound f 5 else vvNoRound f) ++ vvOpx f 0 rounds

/-- Integer arithmetic and logic (R149). -/
def vvInt (f : VV) (fmts : List Nat) : List Nat :=
  chkVec f.d ++ chkVec f.a ++ chkVec f.b ++ chkFmt f.fmt.toNat fmts ++ vvNoRound f ++ vvOpx f 0 false

/-- The shifts: a count in OPX[6:0], or counts from b (R93, R151). -/
def vvShift (f : VV) : List Nat :=
  chkVec f.d ++ chkVec f.a ++ chkFmt f.fmt.toNat fmtInt ++ vvNoRound f ++ vvOpx f 8 false ++
  (if f.opx[7] then chkZero f.b else chkVec f.b ++ chk (f.opx.toNat % 128 == 0) 0x06)

/-- The predicate operations (R155). -/
def vvPredOp (f : VV) (binary : Bool) : List Nat :=
  chkPred f.d ++ chkPred f.a ++ (if binary then chkPred f.b else chkZero f.b) ++ vvNoRound f ++ vvOpx f 0 false ++
  chkZero f.pred ++ chkZero f.fmt ++ vvZero0 f

/-- VPCNT and VPFIRST (R156). -/
def vvPredCount (f : VV) : List Nat :=
  chkPred f.a ++ chkZero f.b ++ vvNoRound f ++ vvOpx f 0 false ++ vvZero0 f ++ chkFmt f.fmt.toNat fmtListed

/-- VCVT, VQNT and VDQNT: source and destination formats (R157 to R159). -/
def vvConvert (f : VV) (dst src : List Nat) (scalarB : Bool) : List Nat :=
  chkVec f.d ++ chkVec f.a ++ (if scalarB then [] else chkZero f.b) ++ chkFmt f.fmt.toNat dst ++
  chkFmt (f.opx.toNat % 256) src ++ vvOpx f 8 true

/-- VREDA and VSCAN (R161, R162): float sums round in modes 0 to 4, integer sums do not round. -/
def vvSum (f : VV) (opxBits : Nat) : List Nat :=
  chkVec f.d ++ chkVec f.a ++ chkZero f.b ++ chkFmt f.fmt.toNat (fmtF ++ fmtInt) ++
  (if fmtF.contains f.fmt.toNat then vvRound { f with c := 0 } 4 ++ chkZero f.c ++ vvOpx f opxBits true
   else vvNoRound f ++ vvOpx f opxBits false)

/-- The permutes and lane moves (R163): kinds of a and b are given by the operation. -/
def vvMove (f : VV) (vecA vecB zeroB : Bool) (fmts : List Nat) (opxBits : Nat) : List Nat :=
  (if vecA then chkVec f.a else []) ++ (if zeroB then chkZero f.b else if vecB then chkVec f.b else []) ++
  chkFmt f.fmt.toNat fmts ++ vvNoRound f ++ vvOpx f opxBits false

/-- VINS and VEXT: PRED, ZERO and the element index (R164). -/
def vvElem (f : VV) : List Nat :=
  chk (f.pred == 0 && f.zero == 0) 0x0A ++ chk (f.opx.toNat % 512 < fmtCount f.fmt.toNat) 0x0A

/-- SEM, and BYTES where there is one, are 0 when SIGEN is 0 (R95). -/
def chkSig (sigen bytes : BitVec 1) (sem : BitVec 8) : List Nat :=
  chk (sigen == 1 || (bytes == 0 && sem == 0)) 0x06

/-- The MC forms other than MCALL (R209, R211 to R213). -/
def mcPlain (f : MC) (quad : Bool) : List Nat :=
  chkZero f.prio ++ chkZero f.routine ++ chkSig f.sigen 0 f.sem ++ (if quad then chkQuad f.quad else chkZero f.quad)

/-- The CC forms (R236). -/
def ccForm (f : CC) (fmts : List Nat) : List Nat :=
  chk (f.scope.toNat < 6) 0x0A ++ chkSig f.sigen f.bytes f.sem ++ chkQuad f.quad ++ chkFmt f.fmt.toNat fmts

/-- A load or store of form LM: ORD and NR are 0 (R94). -/
def lmPlain (f : LM) : List Nat := chkZero f.ord ++ chkZero f.nr

/-- The format code of a vector load (R94, R174). -/
def chkLoadFmt (b : BitVec 6) : List Nat := chkFmt b.toNat fmtListed

/-- The atomics (R188). -/
def lmAtomic (f : LM) : List Nat :=
  chk (2 ≤ f.size.toNat) 0x0A ++ (if f.nr == 1 then chkZero f.d else [])

def lxScope (f : LX) : List Nat := chk (f.mods.toNat < 6) 0x0A

/-- CX: d, a, FMT and RM unused as the operation says (R250). -/
def cxSource (f : CX) (fmts : List Nat) : List Nat := chkZero f.d ++ chkVec f.a ++ chkFmt f.fmt.toNat fmts

/-- The reason codes of R112 that the fields of `i` fail; none for a well-formed operation. Steps that are no slot operation carry
no fields that the Assayer sees. (DEDUCED: log entry 32) -/
def slotReasons (i : Instr) : List Nat :=
  match i with
  | .add f | .sub f | .mul f | .mulhs f | .mulhn f | .divs f | .divn f | .rems f | .remn f | .and f | .or f | .xor f
  | .andn f | .shl f | .shr f | .sar f | .rotl f | .mins f | .maxs f | .minn f | .maxn f
  | .seq f | .sne f | .slt f | .sle f | .sltn f | .slen f => srBinary f
  | .mov f => srUnary f
  | .sel _ => []
  | .pclr f => chkZero f.a ++ srUnary f
  | .addi _ | .muli _ | .andi _ | .ori _ | .xori _ => []
  | .li f | .lih f => chkZero f.a
  | .shli f | .shri f | .sari f | .rotli f => sfShift f
  | .clz f | .ctz f | .popc f | .bswap f => sfUnary f
  | .bfx f | .bfi f => sfField f
  | .sext f | .zext f => sfExtend f
  | .beq f | .bne f | .blt f | .bge f | .bltn f | .bgen f => chkZero f.d
  | .bz f | .bnz f => chkZero f.d ++ chkZero f.b
  | .loop f => chkZero f.d ++ chkZero f.b ++ chk (f.a != 0) 0x07
  | .jmp f => chkZero f.d ++ chkZero f.a ++ chkZero f.b
  | .jmpi f | .ret f => chkZero f.d ++ chkZero f.b ++ sbNoTarget f
  | .call f => chkZero f.a ++ chkZero f.b
  | .calli f => chkZero f.b ++ sbNoTarget f
  | .chk f => chkZero f.d ++ chk (f.b.toNat ≤ 1) 0x0A ++ (if f.b == 1 then chkVec f.a else [])
  | .sarm f | .sset f => chkZero f.d ++ chk (f.x.toNat < 256) 0x06
  | .sget f => chkZero f.a ++ chk (f.x.toNat < 256) 0x06
  | .yield f | .eret f => chkZero f.d ++ chkZero f.a ++ chkZero f.x
  | .exit f | .trap f => chkZero f.d ++ chkZero f.a ++ chk (f.x.toNat < 65536) 0x06
  | .csrd f => chkZero f.a ++ chk (f.x.toNat < 256) 0x06 ++ chk (csrListed (f.x.toNat % 256)) 0x0A
  | .cswr f => chkZero f.d ++ chk (f.x.toNat < 256) 0x06 ++ chk (csrListed (f.x.toNat % 256)) 0x0A
  | .enq _ => []
  | .time f | .pend f => chkZero f.a ++ chkZero f.x
  | .rndx f => chkZero f.x ++ chk (f.d != f.a && f.a != 0) 0x07
  | .vadd f | .vsub f | .vmul f | .vdiv f | .vfma f | .vfms f | .vfnma f => vvFloat f true true fmtF
  | .vsqrt f | .vrcp f | .vrsq f => vvFloat f false true fmtF
  | .vexp2 f | .vlog2 f => vvFloat f false false [fFp32]
  | .vmin f | .vmax f | .vminp f | .vmaxp f => vvFloat f true false fmtF
  | .vabs f | .vneg f => vvFloat f false false fmtF
  | .viadd f | .visub f | .vimul f | .vimad f | .vimin f | .vimax f => vvInt f fmtInt
  | .vand f | .vor f | .vxor f => vvInt f fmtListed
  | .vshl f | .vshr f | .vsar f => vvShift f
  | .vrndx f => chkVec f.d ++ chkVec f.a ++ chkZero f.b ++ chkFmt f.fmt.toNat [fUint64] ++ vvNoRound f ++
      vvOpx f 0 false ++ chk (f.d != f.a) 0x07
  | .vcmp f => chkPred f.d ++ chkVec f.a ++ chkVec f.b ++ chkFmt f.fmt.toNat (fmtF ++ fmtInt) ++ vvNoRound f ++
      vvOpx f 4 false ++ chk (f.opx.toNat % 16 < 8) 0x0A ++ vvZero0 f
  | .vsel f => chkVec f.d ++ vvMove f true true false fmtListed 0 ++ vvZero0 f
  | .vpand f | .vpor f | .vpxor f => vvPredOp f true
  | .vpnot f => vvPredOp f false
  | .vpcnt f | .vpfirst f => vvPredCount f
  | .vcvt f => vvConvert f (fmtFloat ++ fmtInt) (fmtFloat ++ fmtInt) false ++
      chk (f.fmt.toNat != f.opx.toNat % 256) 0x08 ++
      (if fmtInt.contains f.fmt.toNat && fmtInt.contains (f.opx.toNat % 256) then
         vvNoRound f ++ chk (f.opx[15] == false) 0x06
       else if fmtInt.contains f.fmt.toNat then vvRound f 4 else vvRound f 5)
  | .vqnt f => vvConvert f fmtPacket [fFp32, fBf16, fFp16] true ++ vvRound f 5
  | .vdqnt f => vvConvert f [fFp32, fBf16, fFp16] fmtPacket true ++ vvRound f 5
  | .vtag f => chkVec f.d ++ chkVec f.a ++ chkZero f.b ++ chkZero f.c ++ chkFmt f.fmt.toNat fmtListed ++ vvOpx f 0 false ++
      chk (f.pred == 0 && f.zero == 0 && f.rm == 0) 0x0A
  | .vgtag f => chkVec f.a ++ chkZero f.b ++ chkZero f.c ++ vvOpx f 0 false ++
      chk (f.pred == 0 && f.zero == 0 && f.rm == 0 && f.fmt == 0) 0x0A
  | .vreda f => vvSum f 0 ++ vvZero0 f
  | .vredm f => chkVec f.d ++ vvMove f true false true (fmtF ++ fmtInt) 2 ++ vvZero0 f
  | .vscan f => vvSum f 1
  | .vperm f => chkVec f.d ++ vvMove f true true false fmtNoPacket 0
  | .vbcast f => chkVec f.d ++ vvMove f false false true fmtNoPacket 0
  | .vzip f | .vunzip f => chkVec f.d ++ vvMove f true true false fmtNoPacket 1
  | .vslide f => chkVec f.d ++ vvMove f true false true fmtNoPacket 9
  | .vidx f => chkVec f.d ++ vvMove f false false false fmtInt 0
  | .vmov f => chkVec f.d ++ vvMove f true false true fmtListed 0
  | .vins f => chkVec f.d ++ vvMove f false false true fmtNoPacket 9 ++ vvElem f
  | .vext f => vvMove f true false true fmtNoPacket 9 ++ vvElem f
  | .accrd f => chkVec f.d ++ chkZero f.a ++ chkZero f.b ++ chkFmt f.fmt.toNat [fFp64, fFp32, fInt32] ++ vvNoRound f ++
      chk (f.opx.toNat % 64 == 0) 0x06
  | .accwr f => chkZero f.d ++ chkVec f.a ++ chkZero f.b ++ chkFmt f.fmt.toNat [fFp64, fFp32, fInt32] ++ vvNoRound f ++
      chk (f.opx.toNat % 64 == 0) 0x06
  | .vsq f => chkVec f.d ++ chkZero f.a ++ chkZero f.b ++ chkFmt f.fmt.toNat fmtElem ++ vvNoRound f ++ vvOpx f 2 false
  | .mpw f => chkZero f.d
  | .mpr f => chkZero f.a
  | .mcall f => chk (1 ≤ f.routine.toNat && f.routine.toNat ≤ 7) 0x0E ++ chkSig f.sigen 0 f.sem ++ chkZero f.quad
  | .wbld f | .accz f | .geval f => mcPlain f true
  | .wbclr f => mcPlain f false
  | .mqstat f => mcPlain f false ++ chkZero f.sigen
  | .lds f => chkZero f.b
  | .ldsv f => chkVec f.d ++ chkLoadFmt f.b ++ chkZero f.size
  | .sts f => chkZero f.d
  | .stsv f => chkZero f.d ++ chkVec f.b ++ chkZero f.size
  | .ldm f | .ldms f => chkZero f.b ++ lmPlain f
  | .ldmv f | .ldmvs f => chkVec f.d ++ chkLoadFmt f.b ++ chkZero f.size ++ lmPlain f
  | .stm f => chkZero f.d ++ lmPlain f
  | .stmv f => chkZero f.d ++ chkVec f.b ++ chkZero f.size ++ lmPlain f
  | .ldt f => chkVec f.a ++ chkZero f.b
  | .stt f => chkZero f.d ++ chkVec f.a
  | .probe f => chkZero f.mods
  | .sqset f => chkZero f.d ++ chkZero f.mods ++ chkZero f.slot ++ chk (f.disp.toNat < 4) 0x06
  | .sqclr f => chkZero f.d ++ chkZero f.a ++ chkZero f.b ++ chkZero f.mods ++ chkZero f.slot ++
      chk (f.disp.toNat < 4) 0x06
  | .fence f => chkZero f.d ++ chkZero f.a ++ chkZero f.b ++ chkZero f.slot ++ chkZero f.disp ++ lxScope f
  | .flush f | .inval f => chkZero f.d ++ lxScope f
  | .nres f => chkPair f.a ++ chkZero f.b ++ chkZero f.mods ++ chkZero f.disp
  | .nstat f | .nkill f => chkPair f.a ++ chkZero f.b ++ chkZero f.mods ++ chkZero f.slot ++ chkZero f.disp
  | .ncas f => chkPair f.d ++ chkPair f.b ++ chkZero f.mods
  | .aadd f | .afadd f | .amins f | .amaxs f | .aminn f | .amaxn f | .afmin f | .afmax f | .afminp f | .afmaxp f
  | .aand f | .aor f | .axor f | .axchg f => lmAtomic f
  | .acas f => lmAtomic f ++ chk (f.nr == 0) 0x0A
  | .scat f => chkZero f.d ++ chk (f.b.toNat < 32 && f.b.toNat % 2 == 0) 0x07 ++ chkZero f.ord
  | .scadd f => chkZero f.d ++ chk (f.b.toNat < 32 && f.b.toNat % 2 == 0) 0x07
  | .cpy f => ccForm f fmtListed ++ chkZero f.fmt ++ chkZero f.sub
  | .cpyr f => ccForm f fmtListed ++ chkZero f.fmt ++ chkZero f.sub ++ chk (f.scope == 5) 0x0A
  | .cpytConvert f => ccForm f (fmtFloat ++ fmtPacket ++ [0x10, 0x11, 0x12, 0x13, 0x14, 0x15, 0x16, 0x17]) ++
      chk (f.sub == 0) 0x0A
  | .cpytTranspose f => ccForm f fmtElem ++ chk (f.sub == 1) 0x0A
  | .cpytExpand f => ccForm f fmtListed ++ chkZero f.fmt ++ chk (f.sub == 2) 0x0A
  | .cpytCompress f => ccForm f fmtListed ++ chkZero f.fmt ++ chk (f.sub == 3) 0x0A
  | .gath f => ccForm f fmtElem ++ chkZero f.sub
  | .scae f => ccForm f [0x01, 0x02, 0x03, 0x04, 0x12, 0x13, 0x16, 0x17] ++ chkZero f.sub
  | .cred f => ccForm f [0x01, 0x02, 0x03, 0x04, 0x10, 0x11, 0x12, 0x13, 0x14, 0x15, 0x16, 0x17] ++
      chk (f.sub.toNat ≤ 4) 0x0A
  | .xpose f => cxSource f (fmtFloat ++ fmtInt) ++ chkZero f.rm
  | .xcvt f => cxSource f (fmtFloat ++ [0x10, 0x11, 0x12, 0x13, 0x14, 0x15, 0x16, 0x17]) ++ chk (f.rm.toNat ≤ 4) 0x09
  | .xexp f => cxSource f [fFp32, fBf16, fFp16] ++ chkZero f.rm ++
      chk (f.beat.toNat ≤ (if f.fmt == 2 then 2 else 5)) 0x0A
  | .xrd f => chkVec f.d ++ chkZero f.a ++ chkZero f.fmt ++ chkZero f.rm
  | .nop => []
  | .bundleIssue _ _ | .waitSatisfied _ | .pauseEnd _ | .lockWindowEnd _ | .fixedResultLand _
  | .scoreboardResultLand _ _ _ _ | .segmentExpansion _ _ | .loopBufferError _ _ | .taskRetire _
  | .correctableErrorFreeze _ | .freezeEnd _ | .uncorrectableError _ _ _ | .engineStarvation _ _
  | .forcedYield _ | .yieldTurnEnd _ | .engineCommandStart _ _ _ | .copyCommandCompletion _ _ _ _
  | .mma _ _ _ _ | .mmaNm _ _ _ _ | .mmaNmt _ _ _ _ | .mmaCoop _ _ _ _ | .contract _ _ _ _ | .accExport _ _ _ _
  | .accScale _ _ _ _ | .matrixCommandStart _ _ _ | .matrixCommandCompletion _ _ _ _
  | .lodeEvaluation _ _ _ _ _ _ | .streamFetch _ _ _ _ | .deferredUpdateApply _ | .updateOnlyMerge _ _ _
  | .orderedUpdateArrival _ | .orderedUpdateResend _ | .pageMigration _ _ | .nameShootdown _ _
  | .remoteNameResolve _ _ _ _ _ | .remoteDelivery _ _ _ _ _ _ _ | .remoteCredUpdate _ _ _ _ _ _ _ _ _
  | .packetRetransmit _ _ | .peerUnreachable _ | .exponentListReset _ | .swapPeriod _ | .bind _ _ _ _ _ _
  | .swapout _ _ | .swapin _ _ _ _ _ | .bindAbort _ _ | .launchStart _ | .nodeReady _ _ | .launchComplete _
  | .caprd _ _ | .memwr _ _ | .memrd _ _ | .imgld _ _ | .imgul _ _ | .libld _ _ _ | .qset _ _ | .launch _ _
  | .abort _ _ | .watch _ _ | .mapupd _ _ | .objnew _ _ _ | .asset _ _ | .status _ | .pcap _ | .reset _
  | .fwupd _ | .zeroise _ | .moduleReset _ _ _ | .sensorSample _ _ _ _ _ _ | .clockThrottle | .unitRemoval _ _
  | .flushInvalCompletion _ | .linkTraining _ _ _ | .endpointUnlistedOp _ _ | .headframeUnlistedOp _ => []

end Sys2Proof.Machine
end

