-- ==== Sys2Proof/WellFormed.lean ====
section
/-! DEFINITION. A well-formed instruction: one whose fields pass every check that the Assayer makes of a slot word
(spec/04 R112). -/

namespace Sys2Proof

/-- No check of R112 fails on the instruction's fields. -/
abbrev Instr.WellFormed (i : Instr) : Prop := Machine.slotReasons i = []

end Sys2Proof
end

