-- ==== Sys2Proof/Decode.lean ====
section
/-! DEFINITION. The slot decoder and encoder, from the tables of spec/04 R85 to R99. A slot word that is no instruction is
refused with the reason code of R112. -/

namespace Sys2Proof

open Sys2Proof.Machine

/-- The slot frame (R87). -/
def fOp (w : Word) : BitVec 8 := w.extractLsb' 56 8
def fD (w : Word) : BitVec 6 := w.extractLsb' 50 6
def fA (w : Word) : BitVec 6 := w.extractLsb' 44 6
def fB (w : Word) : BitVec 6 := w.extractLsb' 38 6
def fC (w : Word) : BitVec 6 := w.extractLsb' 32 6
def fX (w : Word) : BitVec 32 := w.extractLsb' 0 32

/-- The word of a frame (R87). -/
def frame (op : BitVec 8) (d a b c : BitVec 6) (x : BitVec 32) : Word := op ++ d ++ a ++ b ++ c ++ x

def SR.ofWord (w : Word) : SR := { d := fD w, a := fA w, b := fB w, c := fC w }
def SR.toWord (f : SR) (op : BitVec 8) : Word := frame op f.d f.a f.b f.c 0

def SI.ofWord (w : Word) : SI := { d := fD w, a := fA w, imm := fX w }
def SI.toWord (f : SI) (op : BitVec 8) : Word := frame op f.d f.a 0 0 f.imm

def SF.ofWord (w : Word) : SF :=
  { d := fD w, a := fA w, lsb := w.extractLsb' 0 6, width := w.extractLsb' 6 7 }
def SF.toWord (f : SF) (op : BitVec 8) : Word := frame op f.d f.a 0 0 ((0 : BitVec 19) ++ f.width ++ f.lsb)

def SB.ofWord (w : Word) : SB :=
  { d := fD w, a := fA w, b := fB w, bidx := w.extractLsb' 25 7, segoff := w.extractLsb' 0 25 }
def SB.toWord (f : SB) (op : BitVec 8) : Word := frame op f.d f.a f.b 0 (f.bidx ++ f.segoff)

def SS.ofWord (w : Word) : SS := { d := fD w, a := fA w, x := fX w }
def SS.toWord (f : SS) (op : BitVec 8) : Word := frame op f.d f.a 0 0 f.x

def VV.ofWord (w : Word) : VV :=
  { d := fD w, a := fA w, b := fB w, c := fC w, pred := w.extractLsb' 29 3, zero := w.extractLsb' 28 1,
    fmt := w.extractLsb' 20 8, rm := w.extractLsb' 16 4, opx := w.extractLsb' 0 16 }
def VV.toWord (f : VV) (op : BitVec 8) : Word :=
  frame op f.d f.a f.b f.c (f.pred ++ f.zero ++ f.fmt ++ f.rm ++ f.opx)

def MP.ofWord (w : Word) : MP := { d := fD w, a := fA w, mp := w.extractLsb' 0 3 }
def MP.toWord (f : MP) (op : BitVec 8) : Word := frame op f.d f.a 0 0 ((0 : BitVec 29) ++ f.mp)

def MC.ofWord (w : Word) : MC :=
  { d := fD w, a := fA w, b := fB w, c := fC w, prio := w.extractLsb' 23 2, routine := w.extractLsb' 16 7,
    sigen := w.extractLsb' 15 1, sem := w.extractLsb' 6 8, quad := w.extractLsb' 0 6 }
def MC.toWord (f : MC) (op : BitVec 8) : Word :=
  frame op f.d f.a f.b f.c ((0 : BitVec 7) ++ f.prio ++ f.routine ++ f.sigen ++ (0 : BitVec 1) ++ f.sem ++ f.quad)

def CC.ofWord (w : Word) : CC :=
  { d := fD w, a := fA w, b := fB w, c := fC w, fmt := w.extractLsb' 23 8, sub := w.extractLsb' 19 4,
    scope := w.extractLsb' 16 3, sigen := w.extractLsb' 15 1, bytes := w.extractLsb' 14 1, sem := w.extractLsb' 6 8,
    quad := w.extractLsb' 0 6 }
def CC.toWord (f : CC) (op : BitVec 8) : Word :=
  frame op f.d f.a f.b f.c
    ((0 : BitVec 1) ++ f.fmt ++ f.sub ++ f.scope ++ f.sigen ++ f.bytes ++ f.sem ++ f.quad)

def LM.ofWord (w : Word) : LM :=
  { d := fD w, a := fA w, b := fB w, ord := w.extractLsb' 35 1, nr := w.extractLsb' 34 1, size := w.extractLsb' 32 2,
    slot := w.extractLsb' 28 4, disp := w.extractLsb' 0 28 }
def LM.toWord (f : LM) (op : BitVec 8) : Word :=
  frame op f.d f.a f.b ((0 : BitVec 2) ++ f.ord ++ f.nr ++ f.size) (f.slot ++ f.disp)

def LP.ofWord (w : Word) : LP :=
  { d := fD w, a := fA w, b := fB w, size := w.extractLsb' 32 2, off := w.extractLsb' 0 20 }
def LP.toWord (f : LP) (op : BitVec 8) : Word :=
  frame op f.d f.a f.b ((0 : BitVec 4) ++ f.size) ((0 : BitVec 12) ++ f.off)

def LT.ofWord (w : Word) : LT :=
  { d := fD w, a := fA w, b := fB w, slot := w.extractLsb' 28 4, disp := w.extractLsb' 0 28 }
def LT.toWord (f : LT) (op : BitVec 8) : Word := frame op f.d f.a f.b 0 (f.slot ++ f.disp)

def LX.ofWord (w : Word) : LX :=
  { d := fD w, a := fA w, b := fB w, mods := w.extractLsb' 32 3, slot := w.extractLsb' 28 4,
    disp := w.extractLsb' 0 28 }
def LX.toWord (f : LX) (op : BitVec 8) : Word :=
  frame op f.d f.a f.b ((0 : BitVec 3) ++ f.mods) (f.slot ++ f.disp)

def CX.ofWord (w : Word) : CX :=
  { d := fD w, a := fA w, fmt := w.extractLsb' 20 8, rm := w.extractLsb' 16 4, beat := w.extractLsb' 0 3 }
def CX.toWord (f : CX) (op : BitVec 8) : Word :=
  frame op f.d f.a 0 0 ((0 : BitVec 4) ++ f.fmt ++ f.rm ++ (0 : BitVec 13) ++ f.beat)

/-- The units of the slots (R85); VA and VB share one opcode map (R98). -/
inductive SlotUnit where
  | s | v | m | l | st | c
  deriving DecidableEq, Repr

/-- The unit of slot k, for the seven slots that have opcodes (R85). -/
def unitOfSlot (k : Nat) : Option SlotUnit :=
  match k with
  | 0 => some .s
  | 1 | 2 => some .v
  | 3 => some .m
  | 4 => some .l
  | 5 => some .st
  | 6 => some .c
  | _ => none

/-- The operations of the scalar and control (R97) slot, by opcode. -/
def decodeS (w : Word) : Option Instr :=
  match (fOp w).toNat with
  | 0x01 => some (.add (SR.ofWord w))
  | 0x02 => some (.sub (SR.ofWord w))
  | 0x03 => some (.mul (SR.ofWord w))
  | 0x04 => some (.mulhs (SR.ofWord w))
  | 0x05 => some (.mulhn (SR.ofWord w))
  | 0x06 => some (.divs (SR.ofWord w))
  | 0x07 => some (.divn (SR.ofWord w))
  | 0x08 => some (.rems (SR.ofWord w))
  | 0x09 => some (.remn (SR.ofWord w))
  | 0x0A => some (.and (SR.ofWord w))
  | 0x0B => some (.or (SR.ofWord w))
  | 0x0C => some (.xor (SR.ofWord w))
  | 0x0D => some (.andn (SR.ofWord w))
  | 0x0E => some (.shl (SR.ofWord w))
  | 0x0F => some (.shr (SR.ofWord w))
  | 0x10 => some (.sar (SR.ofWord w))
  | 0x11 => some (.rotl (SR.ofWord w))
  | 0x12 => some (.mins (SR.ofWord w))
  | 0x13 => some (.maxs (SR.ofWord w))
  | 0x14 => some (.minn (SR.ofWord w))
  | 0x15 => some (.maxn (SR.ofWord w))
  | 0x16 => some (.mov (SR.ofWord w))
  | 0x20 => some (.addi (SI.ofWord w))
  | 0x21 => some (.muli (SI.ofWord w))
  | 0x22 => some (.andi (SI.ofWord w))
  | 0x23 => some (.ori (SI.ofWord w))
  | 0x24 => some (.xori (SI.ofWord w))
  | 0x25 => some (.shli (SF.ofWord w))
  | 0x26 => some (.shri (SF.ofWord w))
  | 0x27 => some (.sari (SF.ofWord w))
  | 0x28 => some (.rotli (SF.ofWord w))
  | 0x29 => some (.li (SI.ofWord w))
  | 0x2A => some (.lih (SI.ofWord w))
  | 0x30 => some (.clz (SF.ofWord w))
  | 0x31 => some (.ctz (SF.ofWord w))
  | 0x32 => some (.popc (SF.ofWord w))
  | 0x33 => some (.bswap (SF.ofWord w))
  | 0x34 => some (.bfx (SF.ofWord w))
  | 0x35 => some (.bfi (SF.ofWord w))
  | 0x36 => some (.sext (SF.ofWord w))
  | 0x37 => some (.zext (SF.ofWord w))
  | 0x40 => some (.seq (SR.ofWord w))
  | 0x41 => some (.sne (SR.ofWord w))
  | 0x42 => some (.slt (SR.ofWord w))
  | 0x43 => some (.sle (SR.ofWord w))
  | 0x44 => some (.sltn (SR.ofWord w))
  | 0x45 => some (.slen (SR.ofWord w))
  | 0x46 => some (.sel (SR.ofWord w))
  | 0x60 => some (.beq (SB.ofWord w))
  | 0x61 => some (.bne (SB.ofWord w))
  | 0x62 => some (.blt (SB.ofWord w))
  | 0x63 => some (.bge (SB.ofWord w))
  | 0x64 => some (.bltn (SB.ofWord w))
  | 0x65 => some (.bgen (SB.ofWord w))
  | 0x66 => some (.bz (SB.ofWord w))
  | 0x67 => some (.bnz (SB.ofWord w))
  | 0x68 => some (.loop (SB.ofWord w))
  | 0x69 => some (.jmp (SB.ofWord w))
  | 0x6A => some (.jmpi (SB.ofWord w))
  | 0x6B => some (.call (SB.ofWord w))
  | 0x6C => some (.calli (SB.ofWord w))
  | 0x6D => some (.ret (SB.ofWord w))
  | 0x6E => some (.chk (SB.ofWord w))
  | 0x6F => some (.pclr (SR.ofWord w))
  | 0x80 => some (.sarm (SS.ofWord w))
  | 0x81 => some (.sset (SS.ofWord w))
  | 0x82 => some (.sget (SS.ofWord w))
  | 0x83 => some (.yield (SS.ofWord w))
  | 0x84 => some (.exit (SS.ofWord w))
  | 0x85 => some (.trap (SS.ofWord w))
  | 0x86 => some (.eret (SS.ofWord w))
  | 0x87 => some (.csrd (SS.ofWord w))
  | 0x88 => some (.cswr (SS.ofWord w))
  | 0x89 => some (.enq (SS.ofWord w))
  | 0x8A => some (.time (SS.ofWord w))
  | 0x8B => some (.rndx (SS.ofWord w))
  | 0x8C => some (.pend (SS.ofWord w))
  | _ => none

/-- The operations of the vector (R98) slot, by opcode. -/
def decodeV (w : Word) : Option Instr :=
  match (fOp w).toNat with
  | 0x01 => some (.vadd (VV.ofWord w))
  | 0x02 => some (.vsub (VV.ofWord w))
  | 0x03 => some (.vmul (VV.ofWord w))
  | 0x04 => some (.vfma (VV.ofWord w))
  | 0x05 => some (.vfms (VV.ofWord w))
  | 0x06 => some (.vfnma (VV.ofWord w))
  | 0x07 => some (.vmin (VV.ofWord w))
  | 0x08 => some (.vmax (VV.ofWord w))
  | 0x09 => some (.vminp (VV.ofWord w))
  | 0x0A => some (.vmaxp (VV.ofWord w))
  | 0x0B => some (.vabs (VV.ofWord w))
  | 0x0C => some (.vneg (VV.ofWord w))
  | 0x0D => some (.vdiv (VV.ofWord w))
  | 0x0E => some (.vsqrt (VV.ofWord w))
  | 0x0F => some (.vrcp (VV.ofWord w))
  | 0x10 => some (.vrsq (VV.ofWord w))
  | 0x11 => some (.vexp2 (VV.ofWord w))
  | 0x12 => some (.vlog2 (VV.ofWord w))
  | 0x20 => some (.viadd (VV.ofWord w))
  | 0x21 => some (.visub (VV.ofWord w))
  | 0x22 => some (.vimul (VV.ofWord w))
  | 0x23 => some (.vimad (VV.ofWord w))
  | 0x24 => some (.vimin (VV.ofWord w))
  | 0x25 => some (.vimax (VV.ofWord w))
  | 0x26 => some (.vand (VV.ofWord w))
  | 0x27 => some (.vor (VV.ofWord w))
  | 0x28 => some (.vxor (VV.ofWord w))
  | 0x29 => some (.vshl (VV.ofWord w))
  | 0x2A => some (.vshr (VV.ofWord w))
  | 0x2B => some (.vsar (VV.ofWord w))
  | 0x2C => some (.vrndx (VV.ofWord w))
  | 0x40 => some (.vcmp (VV.ofWord w))
  | 0x41 => some (.vsel (VV.ofWord w))
  | 0x42 => some (.vpand (VV.ofWord w))
  | 0x43 => some (.vpor (VV.ofWord w))
  | 0x44 => some (.vpxor (VV.ofWord w))
  | 0x45 => some (.vpnot (VV.ofWord w))
  | 0x46 => some (.vpcnt (VV.ofWord w))
  | 0x47 => some (.vpfirst (VV.ofWord w))
  | 0x50 => some (.vcvt (VV.ofWord w))
  | 0x51 => some (.vqnt (VV.ofWord w))
  | 0x52 => some (.vdqnt (VV.ofWord w))
  | 0x53 => some (.vtag (VV.ofWord w))
  | 0x54 => some (.vgtag (VV.ofWord w))
  | 0x60 => some (.vreda (VV.ofWord w))
  | 0x61 => some (.vredm (VV.ofWord w))
  | 0x62 => some (.vscan (VV.ofWord w))
  | 0x63 => some (.vperm (VV.ofWord w))
  | 0x64 => some (.vbcast (VV.ofWord w))
  | 0x65 => some (.vzip (VV.ofWord w))
  | 0x66 => some (.vunzip (VV.ofWord w))
  | 0x67 => some (.vslide (VV.ofWord w))
  | 0x68 => some (.vidx (VV.ofWord w))
  | 0x69 => some (.vmov (VV.ofWord w))
  | 0x6A => some (.vins (VV.ofWord w))
  | 0x6B => some (.vext (VV.ofWord w))
  | 0x70 => some (.accrd (VV.ofWord w))
  | 0x71 => some (.accwr (VV.ofWord w))
  | 0x72 => some (.vsq (VV.ofWord w))
  | _ => none

/-- The operations of the matrix (R99) slot, by opcode. -/
def decodeM (w : Word) : Option Instr :=
  match (fOp w).toNat with
  | 0x01 => some (.mpw (MP.ofWord w))
  | 0x02 => some (.mpr (MP.ofWord w))
  | 0x03 => some (.mcall (MC.ofWord w))
  | 0x04 => some (.wbld (MC.ofWord w))
  | 0x05 => some (.wbclr (MC.ofWord w))
  | 0x06 => some (.accz (MC.ofWord w))
  | 0x07 => some (.geval (MC.ofWord w))
  | 0x08 => some (.mqstat (MC.ofWord w))
  | _ => none

/-- The operations of the load (R99) slot, by opcode. -/
def decodeL (w : Word) : Option Instr :=
  match (fOp w).toNat with
  | 0x01 => some (.lds (LP.ofWord w))
  | 0x02 => some (.ldsv (LP.ofWord w))
  | 0x03 => some (.ldm (LM.ofWord w))
  | 0x04 => some (.ldmv (LM.ofWord w))
  | 0x05 => some (.ldms (LM.ofWord w))
  | 0x06 => some (.ldmvs (LM.ofWord w))
  | 0x07 => some (.ldt (LT.ofWord w))
  | 0x08 => some (.probe (LX.ofWord w))
  | 0x09 => some (.sqset (LX.ofWord w))
  | 0x0A => some (.sqclr (LX.ofWord w))
  | 0x0B => some (.fence (LX.ofWord w))
  | 0x0C => some (.flush (LX.ofWord w))
  | 0x0D => some (.inval (LX.ofWord w))
  | 0x0E => some (.nres (LX.ofWord w))
  | 0x0F => some (.nstat (LX.ofWord w))
  | 0x10 => some (.nkill (LX.ofWord w))
  | 0x20 => some (.aadd (LM.ofWord w))
  | 0x21 => some (.afadd (LM.ofWord w))
  | 0x22 => some (.amins (LM.ofWord w))
  | 0x23 => some (.amaxs (LM.ofWord w))
  | 0x24 => some (.aminn (LM.ofWord w))
  | 0x25 => some (.amaxn (LM.ofWord w))
  | 0x26 => some (.afmin (LM.ofWord w))
  | 0x27 => some (.afmax (LM.ofWord w))
  | 0x28 => some (.afminp (LM.ofWord w))
  | 0x29 => some (.afmaxp (LM.ofWord w))
  | 0x2A => some (.aand (LM.ofWord w))
  | 0x2B => some (.aor (LM.ofWord w))
  | 0x2C => some (.axor (LM.ofWord w))
  | 0x2D => some (.axchg (LM.ofWord w))
  | 0x2E => some (.acas (LM.ofWord w))
  | 0x2F => some (.ncas (LX.ofWord w))
  | _ => none

/-- The operations of the store (R99) slot, by opcode. -/
def decodeT (w : Word) : Option Instr :=
  match (fOp w).toNat with
  | 0x01 => some (.sts (LP.ofWord w))
  | 0x02 => some (.stsv (LP.ofWord w))
  | 0x03 => some (.stm (LM.ofWord w))
  | 0x04 => some (.stmv (LM.ofWord w))
  | 0x05 => some (.stt (LT.ofWord w))
  | 0x06 => some (.scat (LM.ofWord w))
  | 0x07 => some (.scadd (LM.ofWord w))
  | _ => none

/-- The operations of the copy and transform (R99) slot, by opcode. -/
def decodeC (w : Word) : Option Instr :=
  match (fOp w).toNat with
  | 0x01 => some (.cpy (CC.ofWord w))
  | 0x02 =>
    match (CC.ofWord w).sub.toNat with
    | 0 => some (.cpytConvert (CC.ofWord w))
    | 1 => some (.cpytTranspose (CC.ofWord w))
    | 2 => some (.cpytExpand (CC.ofWord w))
    | 3 => some (.cpytCompress (CC.ofWord w))
    | _ => none
  | 0x03 => some (.cpyr (CC.ofWord w))
  | 0x04 => some (.gath (CC.ofWord w))
  | 0x05 => some (.scae (CC.ofWord w))
  | 0x06 => some (.cred (CC.ofWord w))
  | 0x10 => some (.xpose (CX.ofWord w))
  | 0x11 => some (.xcvt (CX.ofWord w))
  | 0x12 => some (.xexp (CX.ofWord w))
  | 0x13 => some (.xrd (CX.ofWord w))
  | _ => none

/-- The operation that a nonzero opcode names in a unit's map, its fields read without any check. -/
def decodeRaw (u : SlotUnit) (w : Word) : Option Instr :=
  match u with
  | .s => decodeS w
  | .v => decodeV w
  | .m => decodeM w
  | .l => decodeL w
  | .st => decodeT w
  | .c => decodeC w

/-- The slot word of an operation, and none for a step that is no slot operation. -/
def encodeSlot (i : Instr) : Option Word :=
  match i with
  | .nop => some 0
  | .add f => some (f.toWord 0x01)
  | .sub f => some (f.toWord 0x02)
  | .mul f => some (f.toWord 0x03)
  | .mulhs f => some (f.toWord 0x04)
  | .mulhn f => some (f.toWord 0x05)
  | .divs f => some (f.toWord 0x06)
  | .divn f => some (f.toWord 0x07)
  | .rems f => some (f.toWord 0x08)
  | .remn f => some (f.toWord 0x09)
  | .and f => some (f.toWord 0x0A)
  | .or f => some (f.toWord 0x0B)
  | .xor f => some (f.toWord 0x0C)
  | .andn f => some (f.toWord 0x0D)
  | .shl f => some (f.toWord 0x0E)
  | .shr f => some (f.toWord 0x0F)
  | .sar f => some (f.toWord 0x10)
  | .rotl f => some (f.toWord 0x11)
  | .mins f => some (f.toWord 0x12)
  | .maxs f => some (f.toWord 0x13)
  | .minn f => some (f.toWord 0x14)
  | .maxn f => some (f.toWord 0x15)
  | .mov f => some (f.toWord 0x16)
  | .addi f => some (f.toWord 0x20)
  | .muli f => some (f.toWord 0x21)
  | .andi f => some (f.toWord 0x22)
  | .ori f => some (f.toWord 0x23)
  | .xori f => some (f.toWord 0x24)
  | .li f => some (f.toWord 0x29)
  | .lih f => some (f.toWord 0x2A)
  | .shli f => some (f.toWord 0x25)
  | .shri f => some (f.toWord 0x26)
  | .sari f => some (f.toWord 0x27)
  | .rotli f => some (f.toWord 0x28)
  | .clz f => some (f.toWord 0x30)
  | .ctz f => some (f.toWord 0x31)
  | .popc f => some (f.toWord 0x32)
  | .bswap f => some (f.toWord 0x33)
  | .bfx f => some (f.toWord 0x34)
  | .bfi f => some (f.toWord 0x35)
  | .sext f => some (f.toWord 0x36)
  | .zext f => some (f.toWord 0x37)
  | .seq f => some (f.toWord 0x40)
  | .sne f => some (f.toWord 0x41)
  | .slt f => some (f.toWord 0x42)
  | .sle f => some (f.toWord 0x43)
  | .sltn f => some (f.toWord 0x44)
  | .slen f => some (f.toWord 0x45)
  | .sel f => some (f.toWord 0x46)
  | .beq f => some (f.toWord 0x60)
  | .bne f => some (f.toWord 0x61)
  | .blt f => some (f.toWord 0x62)
  | .bge f => some (f.toWord 0x63)
  | .bltn f => some (f.toWord 0x64)
  | .bgen f => some (f.toWord 0x65)
  | .bz f => some (f.toWord 0x66)
  | .bnz f => some (f.toWord 0x67)
  | .loop f => some (f.toWord 0x68)
  | .jmp f => some (f.toWord 0x69)
  | .jmpi f => some (f.toWord 0x6A)
  | .call f => some (f.toWord 0x6B)
  | .calli f => some (f.toWord 0x6C)
  | .ret f => some (f.toWord 0x6D)
  | .chk f => some (f.toWord 0x6E)
  | .pclr f => some (f.toWord 0x6F)
  | .sarm f => some (f.toWord 0x80)
  | .sset f => some (f.toWord 0x81)
  | .sget f => some (f.toWord 0x82)
  | .yield f => some (f.toWord 0x83)
  | .exit f => some (f.toWord 0x84)
  | .trap f => some (f.toWord 0x85)
  | .eret f => some (f.toWord 0x86)
  | .csrd f => some (f.toWord 0x87)
  | .cswr f => some (f.toWord 0x88)
  | .enq f => some (f.toWord 0x89)
  | .time f => some (f.toWord 0x8A)
  | .rndx f => some (f.toWord 0x8B)
  | .pend f => some (f.toWord 0x8C)
  | .vadd f => some (f.toWord 0x01)
  | .vsub f => some (f.toWord 0x02)
  | .vmul f => some (f.toWord 0x03)
  | .vfma f => some (f.toWord 0x04)
  | .vfms f => some (f.toWord 0x05)
  | .vfnma f => some (f.toWord 0x06)
  | .vmin f => some (f.toWord 0x07)
  | .vmax f => some (f.toWord 0x08)
  | .vminp f => some (f.toWord 0x09)
  | .vmaxp f => some (f.toWord 0x0A)
  | .vabs f => some (f.toWord 0x0B)
  | .vneg f => some (f.toWord 0x0C)
  | .vdiv f => some (f.toWord 0x0D)
  | .vsqrt f => some (f.toWord 0x0E)
  | .vrcp f => some (f.toWord 0x0F)
  | .vrsq f => some (f.toWord 0x10)
  | .vexp2 f => some (f.toWord 0x11)
  | .vlog2 f => some (f.toWord 0x12)
  | .viadd f => some (f.toWord 0x20)
  | .visub f => some (f.toWord 0x21)
  | .vimul f => some (f.toWord 0x22)
  | .vimad f => some (f.toWord 0x23)
  | .vimin f => some (f.toWord 0x24)
  | .vimax f => some (f.toWord 0x25)
  | .vand f => some (f.toWord 0x26)
  | .vor f => some (f.toWord 0x27)
  | .vxor f => some (f.toWord 0x28)
  | .vshl f => some (f.toWord 0x29)
  | .vshr f => some (f.toWord 0x2A)
  | .vsar f => some (f.toWord 0x2B)
  | .vrndx f => some (f.toWord 0x2C)
  | .vcmp f => some (f.toWord 0x40)
  | .vsel f => some (f.toWord 0x41)
  | .vpand f => some (f.toWord 0x42)
  | .vpor f => some (f.toWord 0x43)
  | .vpxor f => some (f.toWord 0x44)
  | .vpnot f => some (f.toWord 0x45)
  | .vpcnt f => some (f.toWord 0x46)
  | .vpfirst f => some (f.toWord 0x47)
  | .vcvt f => some (f.toWord 0x50)
  | .vqnt f => some (f.toWord 0x51)
  | .vdqnt f => some (f.toWord 0x52)
  | .vtag f => some (f.toWord 0x53)
  | .vgtag f => some (f.toWord 0x54)
  | .vreda f => some (f.toWord 0x60)
  | .vredm f => some (f.toWord 0x61)
  | .vscan f => some (f.toWord 0x62)
  | .vperm f => some (f.toWord 0x63)
  | .vbcast f => some (f.toWord 0x64)
  | .vzip f => some (f.toWord 0x65)
  | .vunzip f => some (f.toWord 0x66)
  | .vslide f => some (f.toWord 0x67)
  | .vidx f => some (f.toWord 0x68)
  | .vmov f => some (f.toWord 0x69)
  | .vins f => some (f.toWord 0x6A)
  | .vext f => some (f.toWord 0x6B)
  | .accrd f => some (f.toWord 0x70)
  | .accwr f => some (f.toWord 0x71)
  | .vsq f => some (f.toWord 0x72)
  | .mpw f => some (f.toWord 0x01)
  | .mpr f => some (f.toWord 0x02)
  | .mcall f => some (f.toWord 0x03)
  | .wbld f => some (f.toWord 0x04)
  | .wbclr f => some (f.toWord 0x05)
  | .accz f => some (f.toWord 0x06)
  | .geval f => some (f.toWord 0x07)
  | .mqstat f => some (f.toWord 0x08)
  | .lds f => some (f.toWord 0x01)
  | .ldsv f => some (f.toWord 0x02)
  | .sts f => some (f.toWord 0x01)
  | .stsv f => some (f.toWord 0x02)
  | .ldm f => some (f.toWord 0x03)
  | .ldmv f => some (f.toWord 0x04)
  | .stm f => some (f.toWord 0x03)
  | .stmv f => some (f.toWord 0x04)
  | .ldms f => some (f.toWord 0x05)
  | .ldmvs f => some (f.toWord 0x06)
  | .ldt f => some (f.toWord 0x07)
  | .stt f => some (f.toWord 0x05)
  | .probe f => some (f.toWord 0x08)
  | .sqset f => some (f.toWord 0x09)
  | .sqclr f => some (f.toWord 0x0A)
  | .fence f => some (f.toWord 0x0B)
  | .flush f => some (f.toWord 0x0C)
  | .inval f => some (f.toWord 0x0D)
  | .nres f => some (f.toWord 0x0E)
  | .nstat f => some (f.toWord 0x0F)
  | .nkill f => some (f.toWord 0x10)
  | .aadd f => some (f.toWord 0x20)
  | .afadd f => some (f.toWord 0x21)
  | .amins f => some (f.toWord 0x22)
  | .amaxs f => some (f.toWord 0x23)
  | .aminn f => some (f.toWord 0x24)
  | .amaxn f => some (f.toWord 0x25)
  | .afmin f => some (f.toWord 0x26)
  | .afmax f => some (f.toWord 0x27)
  | .afminp f => some (f.toWord 0x28)
  | .afmaxp f => some (f.toWord 0x29)
  | .aand f => some (f.toWord 0x2A)
  | .aor f => some (f.toWord 0x2B)
  | .axor f => some (f.toWord 0x2C)
  | .axchg f => some (f.toWord 0x2D)
  | .acas f => some (f.toWord 0x2E)
  | .ncas f => some (f.toWord 0x2F)
  | .scat f => some (f.toWord 0x06)
  | .scadd f => some (f.toWord 0x07)
  | .cpy f => some (f.toWord 0x01)
  | .cpyr f => some (f.toWord 0x03)
  | .cpytConvert f => some (f.toWord 0x02)
  | .cpytTranspose f => some (f.toWord 0x02)
  | .cpytExpand f => some (f.toWord 0x02)
  | .cpytCompress f => some (f.toWord 0x02)
  | .gath f => some (f.toWord 0x04)
  | .scae f => some (f.toWord 0x05)
  | .cred f => some (f.toWord 0x06)
  | .xpose f => some (f.toWord 0x10)
  | .xcvt f => some (f.toWord 0x11)
  | .xexp f => some (f.toWord 0x12)
  | .xrd f => some (f.toWord 0x13)
  | .bundleIssue _ _ | .waitSatisfied _ | .pauseEnd _ | .lockWindowEnd _ | .fixedResultLand _
  | .scoreboardResultLand _ _ _ _ | .segmentExpansion _ _ | .loopBufferError _ _ | .taskRetire _
  | .correctableErrorFreeze _ | .freezeEnd _ | .uncorrectableError _ _ _ | .engineStarvation _ _
  | .forcedYield _ | .yieldTurnEnd _ | .engineCommandStart _ _ _ | .copyCommandCompletion _ _ _ _
  | .mma _ _ _ _ | .mmaNm _ _ _ _ | .mmaNmt _ _ _ _ | .mmaCoop _ _ _ _ | .contract _ _ _ _ | .accExport _ _ _ _
  | .accScale _ _ _ _ | .matrixCommandStart _ _ _ | .matrixCommandCompletion _ _ _ _
  | .lodeEvaluation _ _ _ _ _ _ | .streamFetch _ _ _ _ | .deferredUpdateApply _ | .updateOnlyMerge _ _ _
  | .orderedUpdateArrival _ | .orderedUpdateResend _ | .pageMigration _ _ | .nameShootdown _ _
  | .remoteNameResolve _ _ _ _ _ | .remoteDelivery _ _ _ _ _ _ _ | .remoteCredUpdate _ _ _ _ _ _ _ _ _
  | .packetRetransmit _ _ | .peerUnreachable _ | .exponentListReset _ | .swapPeriod _ | .bind _ _ _ _ _ _
  | .swapout _ _ | .swapin _ _ _ _ _ | .bindAbort _ _ | .launchStart _ | .nodeReady _ _ | .launchComplete _
  | .caprd _ _ | .memwr _ _ | .memrd _ _ | .imgld _ _ | .imgul _ _ | .libld _ _ _ | .qset _ _ | .launch _ _
  | .abort _ _ | .watch _ _ | .mapupd _ _ | .objnew _ _ _ | .asset _ _ | .status _ | .pcap _ | .reset _
  | .fwupd _ | .zeroise _ | .moduleReset _ _ _ | .sensorSample _ _ _ _ _ _ | .clockThrottle | .unitRemoval _ _
  | .flushInvalCompletion _ | .linkTraining _ _ _ | .endpointUnlistedOp _ _ | .headframeUnlistedOp _ => none

/-- The unit whose opcode map holds the operation (R85). -/
def unitOf (i : Instr) : Option SlotUnit :=
  match i with
  | .add _ | .sub _ | .mul _ | .mulhs _ | .mulhn _ | .divs _ | .divn _ | .rems _ | .remn _ | .and _ | .or _
  | .xor _ | .andn _ | .shl _ | .shr _ | .sar _ | .rotl _ | .mins _ | .maxs _ | .minn _ | .maxn _ | .mov _
  | .seq _ | .sne _ | .slt _ | .sle _ | .sltn _ | .slen _ | .sel _ | .pclr _ | .addi _ | .muli _ | .andi _
  | .ori _ | .xori _ | .li _ | .lih _ | .shli _ | .shri _ | .sari _ | .rotli _ | .clz _ | .ctz _ | .popc _
  | .bswap _ | .bfx _ | .bfi _ | .sext _ | .zext _ | .beq _ | .bne _ | .blt _ | .bge _ | .bltn _ | .bgen _
  | .bz _ | .bnz _ | .loop _ | .jmp _ | .jmpi _ | .call _ | .calli _ | .ret _ | .chk _ | .sarm _ | .sset _
  | .sget _ | .yield _ | .exit _ | .trap _ | .eret _ | .csrd _ | .cswr _ | .enq _ | .time _ | .rndx _ | .pend _ => some .s
  | .vadd _ | .vsub _ | .vmul _ | .vfma _ | .vfms _ | .vfnma _ | .vmin _ | .vmax _ | .vminp _ | .vmaxp _
  | .vabs _ | .vneg _ | .vdiv _ | .vsqrt _ | .vrcp _ | .vrsq _ | .vexp2 _ | .vlog2 _ | .viadd _ | .visub _
  | .vimul _ | .vimad _ | .vimin _ | .vimax _ | .vand _ | .vor _ | .vxor _ | .vshl _ | .vshr _ | .vsar _
  | .vrndx _ | .vcmp _ | .vsel _ | .vpand _ | .vpor _ | .vpxor _ | .vpnot _ | .vpcnt _ | .vpfirst _ | .vcvt _
  | .vqnt _ | .vdqnt _ | .vtag _ | .vgtag _ | .vreda _ | .vredm _ | .vscan _ | .vperm _ | .vbcast _ | .vzip _
  | .vunzip _ | .vslide _ | .vidx _ | .vmov _ | .vins _ | .vext _ | .accrd _ | .accwr _ | .vsq _ => some .v
  | .mpw _ | .mpr _ | .mcall _ | .wbld _ | .wbclr _ | .accz _ | .geval _ | .mqstat _ => some .m
  | .lds _ | .ldsv _ | .ldm _ | .ldmv _ | .ldms _ | .ldmvs _ | .aadd _ | .afadd _ | .amins _ | .amaxs _
  | .aminn _ | .amaxn _ | .afmin _ | .afmax _ | .afminp _ | .afmaxp _ | .aand _ | .aor _ | .axor _ | .axchg _
  | .acas _ | .ldt _ | .probe _ | .sqset _ | .sqclr _ | .fence _ | .flush _ | .inval _ | .nres _ | .nstat _
  | .nkill _ | .ncas _ => some .l
  | .sts _ | .stsv _ | .stm _ | .stmv _ | .scat _ | .scadd _ | .stt _ => some .st
  | .cpy _ | .cpyr _ | .cpytConvert _ | .cpytTranspose _ | .cpytExpand _ | .cpytCompress _ | .gath _ | .scae _
  | .cred _ | .xpose _ | .xcvt _ | .xexp _ | .xrd _ => some .c
  | .nop | .bundleIssue _ _ | .waitSatisfied _ | .pauseEnd _ | .lockWindowEnd _ | .fixedResultLand _
  | .scoreboardResultLand _ _ _ _ | .segmentExpansion _ _ | .loopBufferError _ _ | .taskRetire _
  | .correctableErrorFreeze _ | .freezeEnd _ | .uncorrectableError _ _ _ | .engineStarvation _ _
  | .forcedYield _ | .yieldTurnEnd _ | .engineCommandStart _ _ _ | .copyCommandCompletion _ _ _ _
  | .mma _ _ _ _ | .mmaNm _ _ _ _ | .mmaNmt _ _ _ _ | .mmaCoop _ _ _ _ | .contract _ _ _ _ | .accExport _ _ _ _
  | .accScale _ _ _ _ | .matrixCommandStart _ _ _ | .matrixCommandCompletion _ _ _ _
  | .lodeEvaluation _ _ _ _ _ _ | .streamFetch _ _ _ _ | .deferredUpdateApply _ | .updateOnlyMerge _ _ _
  | .orderedUpdateArrival _ | .orderedUpdateResend _ | .pageMigration _ _ | .nameShootdown _ _
  | .remoteNameResolve _ _ _ _ _ | .remoteDelivery _ _ _ _ _ _ _ | .remoteCredUpdate _ _ _ _ _ _ _ _ _
  | .packetRetransmit _ _ | .peerUnreachable _ | .exponentListReset _ | .swapPeriod _ | .bind _ _ _ _ _ _
  | .swapout _ _ | .swapin _ _ _ _ _ | .bindAbort _ _ | .launchStart _ | .nodeReady _ _ | .launchComplete _
  | .caprd _ _ | .memwr _ _ | .memrd _ _ | .imgld _ _ | .imgul _ _ | .libld _ _ _ | .qset _ _ | .launch _ _
  | .abort _ _ | .watch _ _ | .mapupd _ _ | .objnew _ _ _ | .asset _ _ | .status _ | .pcap _ | .reset _
  | .fwupd _ | .zeroise _ | .moduleReset _ _ _ | .sensorSample _ _ _ _ _ _ | .clockThrottle | .unitRemoval _ _
  | .flushInvalCompletion _ | .linkTraining _ _ _ | .endpointUnlistedOp _ _ | .headframeUnlistedOp _ => none

/-- The reason codes of R112 that slot word `w` fails in unit `u` (R87, R111). -/
def wordReasons (u : SlotUnit) (w : Word) : List Nat :=
  if w = 0 then []
  else if fOp w = 0 then [0x06]
  else
    match decodeRaw u w with
    | none =>
      if u = .c ∧ fOp w = 0x02 then
        let f := CC.ofWord w
        chk (f.toWord 0x02 == w) 0x06 ++ ccForm f fmtListed ++ [0x0A]
      else [0x05]
    | some i => chk (decide (encodeSlot i = some w)) 0x06 ++ slotReasons i

/-- The instruction that slot word `w` holds in unit `u`, where it is one (R87, R112). -/
def decodeUnit (u : SlotUnit) (w : Word) : Option Instr :=
  if w = 0 then some .nop
  else if fOp w = 0 then none
  else
    match decodeRaw u w with
    | none => none
    | some i => if encodeSlot i = some w ∧ i.WellFormed then some i else none

/-- The instruction that slot `k` of a bundle holds. -/
def decodeSlot (k : Nat) (w : Word) : Option Instr :=
  match unitOfSlot k with
  | none => none
  | some u => decodeUnit u w

/-- Slot word `k` of a bundle of 512 bits (R85). -/
def slotWord (w k : Nat) : Word := BitVec.ofNat 64 (w >>> (64 * k))

/-- The slots of a bundle that hold a nonzero word. -/
def slotsUsed (w : Nat) : List Nat := (List.range 8).filter fun k => slotWord w k != 0

/-- The slot that a bundle holding one operation holds it in; slot 0 for a bundle of empty slots. -/
def onlySlot (w : Nat) : Option Nat :=
  match slotsUsed w with
  | [] => some 0
  | [k] => some k
  | _ => none

/-- The instruction read from one bundle that holds a single operation, `w` numbered from slot 0's bit 0 (R85). -/
def decodeTableWord (_nbits w : Nat) : Option Instr :=
  match onlySlot w with
  | none => none
  | some k => decodeSlot k (slotWord w k)

end Sys2Proof
end

