-- ==== Sys2Proof/Machine/Issue.lean ====
section
/-! DEFINITION. The issue of a bundle and its completion, the turns of a core's contexts, pauses, windows, freezes, and errors in
the core's memories (spec/04 R101 to R108, spec/10 R265 to R273, spec/11 R279, R280, R288, R289, spec/14 R339, spec/15 R351). -/

namespace Sys2Proof.Machine

/-! ### The registers that a slot names (R12) -/

/-- The registers of an operation with vector sources a and b, destination d, and random bits in c where it rounds
stochastically. -/
def vvRegs (f : VV) (b : Bool) : List Nat :=
  [f.d.toNat, f.a.toNat] ++ (if b then [f.b.toNat] else []) ++ if f.rm = 5 then [f.c.toNat] else []

/-- The scalar registers of a quad. -/
def quadRegs (q : BitVec 6) : List Nat := (List.range 4).map fun j => q.toNat + j

/-- The scalar registers and the vector registers that an operation reads or names as a destination (R12). Consumed tokens are
no reads (R200, R232). -/
def instrRegs (i : Instr) : List Nat × List Nat :=
  match i with
  | .add f | .sub f | .mul f | .mulhs f | .mulhn f | .divs f | .divn f | .rems f | .remn f | .and f | .or f | .xor f
  | .andn f | .shl f | .shr f | .sar f | .rotl f | .mins f | .maxs f | .minn f | .maxn f | .mov f
  | .seq f | .sne f | .slt f | .sle f | .sltn f | .slen f | .sel f | .pclr f =>
    ([f.d.toNat, f.a.toNat, f.b.toNat, f.c.toNat], [])
  | .addi f | .muli f | .andi f | .ori f | .xori f | .li f | .lih f => ([f.d.toNat, f.a.toNat], [])
  | .shli f | .shri f | .sari f | .rotli f | .clz f | .ctz f | .popc f | .bswap f | .bfx f | .bfi f | .sext f | .zext f =>
    ([f.d.toNat, f.a.toNat], [])
  | .beq f | .bne f | .blt f | .bge f | .bltn f | .bgen f | .bz f | .bnz f | .loop f | .jmp f | .jmpi f | .call f | .calli f
  | .ret f => ([f.d.toNat, f.a.toNat, f.b.toNat], [])
  | .chk f => if f.b = 1 then ([], [f.a.toNat]) else ([f.a.toNat], [])
  | .sarm f | .sset f | .sget f | .yield f | .exit f | .trap f | .eret f | .csrd f | .cswr f | .enq f | .time f | .rndx f
  | .pend f => ([f.d.toNat, f.a.toNat], [])
  | .vadd f | .vsub f | .vmul f | .vdiv f | .vfma f | .vfms f | .vfnma f | .vmin f | .vmax f | .vminp f | .vmaxp f
  | .viadd f | .visub f | .vimul f | .vimad f | .vimin f | .vimax f | .vand f | .vor f | .vxor f | .vsel f | .vperm f
  | .vzip f | .vunzip f => ([], vvRegs f true)
  | .vsqrt f | .vrcp f | .vrsq f | .vexp2 f | .vlog2 f | .vabs f | .vneg f | .vrndx f | .vcvt f | .vtag f | .vreda f
  | .vredm f | .vscan f | .vslide f | .vmov f => ([], vvRegs f false)
  | .vshl f | .vshr f | .vsar f => ([], vvRegs f (f.opx[7] == false))
  | .vcmp f => ([], [f.a.toNat, f.b.toNat])
  | .vpand _ | .vpor _ | .vpxor _ | .vpnot _ => ([], [])
  | .vpcnt f | .vpfirst f => ([f.d.toNat], [])
  | .vqnt f | .vdqnt f => ([f.b.toNat], vvRegs f false)
  | .vgtag f | .vext f => ([f.d.toNat], [f.a.toNat])
  | .vbcast f | .vins f => ([f.a.toNat], [f.d.toNat])
  | .vidx f => ([f.a.toNat, f.b.toNat], [f.d.toNat])
  | .accrd f | .vsq f => ([], [f.d.toNat])
  | .accwr f => ([], [f.a.toNat])
  | .mpw f | .mpr f => ([f.d.toNat, f.a.toNat], [])
  | .mcall f | .wbclr f | .mqstat f => ([f.d.toNat], [])
  | .wbld f | .geval f => (f.d.toNat :: quadRegs f.quad, [])
  | .accz f => ([f.d.toNat, f.quad.toNat], [])
  | .lds f => ([f.d.toNat, f.a.toNat], [])
  | .ldsv f => ([f.a.toNat], [f.d.toNat])
  | .sts f => ([f.a.toNat, f.b.toNat], [])
  | .stsv f => ([f.a.toNat], [f.b.toNat])
  | .ldm f | .ldms f => ([f.d.toNat, f.a.toNat], [])
  | .ldmv f | .ldmvs f => ([f.a.toNat], [f.d.toNat])
  | .stm f => ([f.a.toNat, f.b.toNat], [])
  | .stmv f => ([f.a.toNat], [f.b.toNat])
  | .ldt f => ([f.d.toNat], [f.a.toNat])
  | .stt f => ([f.b.toNat], [f.a.toNat])
  | .probe f | .sqset f | .sqclr f | .fence f | .flush f | .inval f => ([f.d.toNat, f.a.toNat, f.b.toNat], [])
  | .nres f | .nstat f | .nkill f => ([f.d.toNat, f.a.toNat, f.a.toNat + 1], [])
  | .ncas f => ([f.d.toNat, f.d.toNat + 1, f.a.toNat, f.b.toNat, f.b.toNat + 1], [])
  | .aadd f | .afadd f | .amins f | .amaxs f | .aminn f | .amaxn f | .afmin f | .afmax f | .afminp f | .afmaxp f
  | .aand f | .aor f | .axor f | .axchg f | .acas f => ([f.d.toNat, f.a.toNat, f.b.toNat], [])
  | .scat f | .scadd f => ([f.a.toNat], [f.b.toNat, f.b.toNat + 1])
  | .cpy f | .cpyr f | .cpytConvert f | .cpytTranspose f | .cpytExpand f | .cpytCompress f | .gath f | .scae f
  | .cred f => (f.d.toNat :: quadRegs f.quad, [])
  | .xpose f | .xcvt f | .xexp f => ([], [f.a.toNat])
  | .xrd f => ([], [f.d.toNat])
  | _ => ([], [])

/-- The extent slot that an operation names in its word (R194). -/
def instrSlot (i : Instr) : Option Nat :=
  match i with
  | .ldm f | .ldmv f | .ldms f | .ldmvs f | .stm f | .stmv f | .scat f | .scadd f | .aadd f | .afadd f | .amins f
  | .amaxs f | .aminn f | .amaxn f | .afmin f | .afmax f | .afminp f | .afmaxp f | .aand f | .aor f | .axor f | .axchg f
  | .acas f => some f.slot.toNat
  | .ldt f | .stt f => some f.slot.toNat
  | .probe f | .flush f | .inval f | .nres f | .ncas f => some f.slot.toNat
  | .enq f => some (f.x.toNat / 2 ^ 28)
  | .csrd f => if 0x40 ≤ f.x.toNat % 256 ∧ f.x.toNat % 256 < 0x60 then some (f.x.toNat % 16) else none
  | _ => none

/-- Whether an operation makes core accesses (R299). -/
def instrAccesses (i : Instr) : Bool :=
  match i with
  | .lds _ | .ldsv _ | .ldm _ | .ldmv _ | .ldms _ | .ldmvs _ | .ldt _ | .sts _ | .stsv _ | .stm _ | .stmv _ | .stt _
  | .scat _ | .scadd _ | .aadd _ | .afadd _ | .amins _ | .amaxs _ | .aminn _ | .amaxn _ | .afmin _ | .afmax _ | .afminp _
  | .afmaxp _ | .aand _ | .aor _ | .axor _ | .axchg _ | .acas _ | .ncas _ => true
  | _ => false

/-- Whether an operation needs a deferred-update entry (R316). -/
def instrDefers (i : Instr) : Bool :=
  match i with
  | .aadd f | .afadd f | .amins f | .amaxs f | .aminn f | .amaxn f | .afmin f | .afmax f | .afminp f | .afmaxp f
  | .aand f | .aor f | .axor f | .axchg f => f.nr == 1
  | .scadd _ => true
  | _ => false

/-- The accumulator bank that a port access names (R165). -/
def instrBank (i : Instr) : Option Nat :=
  match i with
  | .accrd f | .accwr f => some (accBank f)
  | _ => none

/-- The stream that a VSQ pops. -/
def instrPops (i : Instr) : Option Nat :=
  match i with
  | .vsq f => some (f.opx.toNat % 4)
  | _ => none

/-- The queue in which a command takes an entry: 0 the matrix queue, 1 the Lode queue, 2 the copy engine's (R199, R231). -/
def instrQueue (i : Instr) : Option Nat :=
  match i with
  | .mcall _ | .wbld _ | .wbclr _ | .accz _ => some 0
  | .geval _ => some 1
  | .cpy _ | .cpyr _ | .cpytConvert _ | .cpytTranspose _ | .cpytExpand _ | .cpytCompress _ | .gath _ | .scae _
  | .cred _ => some 2
  | _ => none

/-- The operations of slots `k0` to 6 of a bundle. -/
def slotOps (ws : List Word) (k0 : Nat) : List Instr :=
  (List.range 7).filterMap fun j => if k0 ≤ j then decodeSlot j (nth 0 ws j) else none

/-! ### What holds a bundle (R12, R31, R351) -/

/-- An engine queue of the core has no free entry for an operation. -/
def Core.full (c : Core) (i : Instr) : Bool :=
  match instrQueue i with
  | some 0 => decide (8 ≤ c.mq.length)
  | some 1 => decide (4 ≤ c.lq.length)
  | some _ => decide (16 ≤ c.cq.length)
  | none => false

/-- The extent slots whose NRES is in flight (R194). -/
def Ctx.binding (c : Ctx) : List Nat :=
  c.sb.filterMap fun e => match e.what with | .nres slot _ => some slot | _ => none

/-- A running stream whose FIFO does not cover the pops of a bundle (R167). -/
def popsWait (a : Arch) (ops : List Instr) : Bool :=
  (List.range 4).any fun q =>
    let n := (ops.filter fun i => instrPops i == some q).length
    let st := look {} a.q q
    st.running && decide (st.fifo.length < n)

/-- Whether the operations of a bundle must wait for something other than a bank (R351, step 2). (DEDUCED: log entry 106) -/
def State.holds (s : State) (k : Nat) (ops : List Instr) : Bool :=
  let c := s.ctx k
  let co := s.core (coreOf k)
  let ps := c.pendS
  let pv := c.pendV
  let eb := c.binding
  (ops.any fun i =>
    ((instrRegs i).1.any ps.contains) || ((instrRegs i).2.any pv.contains) || co.full i ||
    (match instrSlot i with | some e => eb.contains e | none => false) ||
    (instrAccesses i && !c.flushes.isEmpty) ||
    (match i with
     | .fence _ => (s.ownUpdates k).any fun u => u.status != .line || s.heldOut u
     | .sarm f | .sset f => c.signals.any fun p => p.sem == f.x.toNat % 256
     | _ => false)) ||
  popsWait c.arch ops ||
  (let n := (ops.filter instrDefers).length
   n != 0 && decide (32 < s.entriesUsed k + n))

/-- The registers as the due bundle of context `k` would read them: results due at its issue have landed (R32). -/
def State.asIssued (s : State) (k : Nat) : State :=
  let c := s.ctx k
  { (if c.arch.reenter.isSome then s else s.landBy k c.arch.at_) with cur := { s.cur with ctx := k } }

/-- The units that an operation reads as its slot executes; none for one that need not stand behind its context's accesses then. LDT
and STT read their descriptors (R72), ENQ its record (R261); the scratchpad (R173), FENCE, FLUSH and INVAL (R187) read no unit.
(DEDUCED: log entry 18) -/
def State.needs (s : State) (i : Instr) : Option (List URef) :=
  let tens (f : LT) : List URef := urefs (s.arch.slotPages f.slot.toNat) (extBase (s.arch.extent f.slot.toNat) + f.disp.toNat) 64
  match i with
  | .lds _ | .ldsv _ | .sts _ | .stsv _ | .fence _ | .flush _ | .inval _ => some []
  | .ldt f | .stt f => some (tens f)
  | .enq f =>
    let slot := f.x.toNat / 2 ^ 28
    some (urefs (s.arch.slotPages slot) (extBase (s.arch.extent slot) + f.x.toNat % 2 ^ 28) 128)
  | _ => none

/-- The units of the access of an L slot. -/
def State.lSlotUnits (s : State) (i : Instr) : List URef :=
  let at_ (f : LM) (n : Nat) : List URef := urefs (s.lmPages f) (s.lmVa f) n
  match i with
  | .ldm f | .ldms f => at_ f (sizeOf f.size)
  | .ldmv f | .ldmvs f => at_ f 256
  | .aadd f | .afadd f | .amins f | .amaxs f | .aminn f | .amaxn f | .afmin f | .afmax f | .afminp f | .afmaxp f | .aand f
  | .aor f | .axor f | .axchg f | .acas f => if f.nr = 0 then at_ f (sizeOf f.size) else []
  | .ncas f => urefs (s.lxPages f) (s.lxVa f) 16
  | .ldt f =>
    let ps := s.arch.slotPages f.slot.toNat
    let r := s.readUnits s.cur.ctx false (urefs ps (extBase (s.arch.extent f.slot.toNat) + f.disp.toNat) 64)
    let t := (s.tensorAt (unitBytes (extBase (s.arch.extent f.slot.toNat) + f.disp.toNat) 64 r.2).1 false false (s.rdV f.a)).2
    urefs (s.arch.slotPages t.d.eslot) (s.tensorVa t) t.size
  | _ => []

/-- Whether an operation of the ST slot stands behind its bundle's L slot as it executes. -/
def instrStNow (i : Instr) : Bool := match i with | .sts _ | .stsv _ | .stt _ => true | _ => false

/-- A bundle with a slot that must stand behind its context's earlier accesses: they have their points in T, own updates to what it
reads are applied, and to what an L slot before it accesses; and whether nothing keeps the bundle back. (DEDUCED: log entry 18) -/
def State.place (s : State) (k : Nat) (ops : List Instr) : State × Bool :=
  let v := s.asIssued k
  let us := ops.filterMap v.needs
  if us.isEmpty then (s, true)
  else
    let s := s.inOrder k
    let s := if ops.any fun i => match i with | .fence _ => true | _ => false then s.mergeOwn k else s
    if s.owesLate k then (s, false)
    else s.ready k s.nextId (us.flatten ++ if ops.any instrStNow then ops.flatMap v.lSlotUnits else [])

/-- Whether an accumulator port of the operations names a bank that a command owns (R166). -/
def State.bankWait (s : State) (k : Nat) (ops : List Instr) : Bool :=
  ops.any fun i => match instrBank i with
    | some b => (s.core (coreOf k)).owned b
    | none => false

/-- The operations still to be examined of the bundle that is due. -/
def Ctx.dueOps (c : Ctx) : List Instr :=
  match c.bundleAt c.arch.pos with
  | some ws => slotOps ws (c.arch.reenter.getD 0)
  | none => []

/-- Whether the issue pipeline of a core stands still: an ECC freeze, or a port access to an owned bank (R166, R289). (DEDUCED: log
entry 21) -/
def State.stopped (s : State) (core : Nat) : Bool :=
  let co := s.core core
  co.frozen != 0 ||
  (co.pipeFrozen && match co.holder with
    | some h => s.bankWait h (s.ctx h).dueOps
    | none => false)

/-- Whether nothing holds the bundle that is due: it is fetched, its wait is satisfied, and nothing that its slots name is pending
or full (R351). (DEDUCED: log entry 21) -/
def State.canIssue (s : State) (k : Nat) : Bool :=
  let c := s.ctx k
  s.between k &&
  match c.bundleAt c.arch.pos with
  | some ws =>
    let ops := slotOps ws (c.arch.reenter.getD 0)
    let p := s.place k ops
    (c.arch.reenter.isSome || !yWen (yOf ws) || c.waitMet) && p.2 && !p.1.holds k ops
  | none => false

/-- A ready context (R339): bound, not halted, not blocked, not waiting out a YIELD. (DEDUCED: log entry 21) -/
def State.ready_ (s : State) (k : Nat) : Bool := s.canIssue k && (s.ctx k).yielding.isNone

/-- Whether another context of the core is ready. (DEDUCED: log entry 21) -/
def State.rival (s : State) (k : Nat) : Bool := (s.coreMates k).any s.ready_

/-- Whether the context that issued last keeps its core: it has not blocked, yielded or ended. A pause and a bundle in progress do
not end its turn (R339). (DEDUCED: log entry 21) -/
def State.keeps (s : State) (h : Nat) : Bool :=
  let c := s.ctx h
  c.bound && c.ending.isNone && (c.aside.isSome || (c.yielding.isNone && !c.blocked && (c.pause != 0 || s.canIssue h)))

/-- Whether the turn is context `k`'s: the context that issued last keeps it until it blocks or yields, and for 1,024 bundles
(R339). (DEDUCED: log entry 21) -/
def State.turn (s : State) (k : Nat) : Bool :=
  let co := s.core (coreOf k)
  (s.ctx k).yielding.isNone &&
  match co.holder with
  | some h => if h = k then !(s.rival k && decide (1024 ≤ co.streak)) else !s.keeps h
  | none => true

/-- A bundle of context `k` blocks: an open window ends (R104, R269). -/
def State.blockCtx (s : State) (k : Nat) : State := s.setCtx k (s.ctx k).block

/-- Another context than the holder issues: a due bundle of the holder that could not has blocked. -/
def State.passTurn (s : State) (k : Nat) : State :=
  match (s.core (coreOf k)).holder with
  | some h => if h != k && s.between h && !s.canIssue h then s.blockCtx h else s
  | none => s

/-! ### The issue (R31, R86, R265, R267) -/

/-- The window after the issue, at step `now`, of a bundle with this Y word (R104). -/
def nextWindow (w : Option Window) (y : Word) (now : Nat) : Option Window :=
  let n := yLcnt y
  match w with
  | some x =>
    let chain := x.chain - 1
    if n = 0 then some { x with left := x.left - 1, chain := chain }
    else some { x with mask := BitVec.ofNat 16 (yLmask y), left := min n chain, chain := chain, opened := now }
  | none => if n = 0 then none else some { mask := BitVec.ofNat 16 (yLmask y), left := n, chain := 15, born := now, opened := now }

/-- The half of the bundle issued becomes current (R265). -/
def Ctx.enterHalf (c : Ctx) : Ctx :=
  if c.curHalf.residentIn (ptrSeg c.arch.pos) then c else { c with current := !c.current }

/-- The watch registers written since the last bundle boundary take effect (R355). -/
def Ctx.takeWatch (c : Ctx) : Ctx :=
  { c with watchNew := [], arch := { c.arch with watch := c.watchNew.foldl (fun m p => put 0 m p.1 p.2) c.arch.watch } }

/-- The other contexts of the core that wait out a YIELD note that `k` has issued (R256). (DEDUCED: log entry 21) -/
def State.noteTurn (s : State) (k : Nat) : State :=
  (s.coreMates k).foldl (fun s j =>
    let c := s.ctx j
    match c.yielding with
    | some l => s.setCtx j { c with yielding := some (l.erase k) }
    | none => s) s

/-- The issue of bundle `ws` of context `k` (R31, R86): a bundle issued before is entered again at its slot, and takes no
advance of the clock. Before the slots `gaps`, other agents' accesses come (R9). -/
def State.issue (s : State) (k : Nat) (ws : List Word) (gaps : List Nat) : State :=
  let s := s.passTurn k
  let again := (s.ctx k).arch.reenter
  let s := if again.isSome then s else s.landBy k (s.ctx k).arch.at_
  let c := (s.ctx k).takeWatch
  let a := c.arch
  let fresh := !c.curHalf.residentIn (ptrSeg a.pos)
  let cur : Cur := {
    open_ := true, ctx := k, slot := again.getD 0, words := ws, pc := a.pos, csw := a.csw, pend := c.pendS
    since := c.sb.length, fresh := fresh, gaps := gaps
    t := if again.isSome then a.savedAt else a.at_
    clock := if again.isSome then a.savedCycle else a.cycle }
  let a := if again.isSome then { a with reenter := none } else { a with cycle := a.cycle + 1, at_ := a.at_ + 1 }
  let c := { c with waitMet := false, blocked := false, window := if again.isSome then c.window else nextWindow c.window (yOf ws) s.steps }
  let c := { c with arch := a }.enterHalf
  let s := s.setCtx k (if fresh && cur.slot != 0 then c.prefetch else c)
  let co := s.core (coreOf k)
  let s := s.setCore (coreOf k) { co with
    holder := some k, pipeFrozen := false
    streak := if co.holder = some k then (if s.rival k then co.streak + 1 else co.streak) else if s.rival k then 1 else 0 }
  { s.noteTurn k with cur := cur }

/-! ### Completion of a bundle (R102, R130, R131, R257, R259) -/

/-- The Y signal of the executing bundle is asked for (R102, R304): it follows the context's accesses, deferred updates and flushes. -/
def State.askSignal (s : State) (y : Word) : State :=
  if ySigen y then
    let k := s.cur.ctx
    let s := (s.inOrder k).mergeOwn k
    let c := s.ctx k
    let waits := ((s.ownUpdates k).map fun u => u.id) ++ (c.late.map fun l => l.id) ++ c.flushes.map fun f => f.id
    let s := s.setCtx k { c with signals := c.signals ++ [{ born := s.nextId, sem := ySigsem y, inc := ySiginc y, waits := waits }] }
    { s with nextId := s.nextId + 1 }.release k
  else s

/-- The next position in fetch order, and the redirect that is left (R130, R131): a fatal error where the pointer was bad or the
segment has no successor (R107, R132). The target of a redirect that falls due is fetched at once, even where a pause follows (R268). -/
def State.advance (s : State) : State :=
  let k := s.cur.ctx
  let a := s.arch
  let on (p : Word) (r : Option Redirect) : State := s.setArch { a with pos := p, redirect := r }
  let fall (r : Option Redirect) : State :=
    match s.segHead s.me (ptrSeg s.cur.pc) with
    | some h => match h.after s.cur.pc with
      | some p => on p r
      | none => s.haltCtx k stBadtarget s.cur.pc
    | none => on (mkPtr (ptrSeg s.cur.pc) (ptrBidx s.cur.pc + 1)) r
  match a.redirect with
  | none => fall none
  | some r =>
    if r.left ≤ 1 then
      (if r.bad then s.haltCtx k stBadtarget r.src
       else let s := on r.target none; s.setMe (s.me.request (ptrSeg r.target)))
    else fall (some { r with left := r.left - 1 })

/-- The end of the task by EXIT (R257). (DEDUCED: log entry 26) -/
def State.exitTask (s : State) (code : Nat) : State :=
  let c := s.me
  s.setMe { c with
    ending := some { status := stExited, exitCode := code, faultPc := 0 }
    arch := { c.arch with flight := [], parked := [], exitReq := none, savedExit := none }
    window := none, eretReq := false, pause := 0, yielding := none }

/-- ERET acts (R259, R354): a bad TRAPPC is fatal. (DEDUCED: log entry 85) -/
def State.eret (s : State) : State :=
  let c := s.me
  if s.badPointer c.arch.trappc then s.fatal stBadtarget
  else
    let a := c.arch.leaveTrap
    s.setMe { c with arch := a, eretReq := false, waitMet := false, unwatched := a.reenter }

/-- The pause of the executing bundle starts; a bundle that returns from a handler takes no part in the interrupted code's schedule. -/
def State.startPause (s : State) (y : Word) : State :=
  let c := s.me
  s.setMe { c with
    pause := yPause y, unwatched := none
    arch := if c.eretReq then c.arch else { c.arch with at_ := c.arch.at_ + yPause y } }

/-- What comes after the executing bundle: the task's end, the return from a handler, or the next bundle. -/
def State.leaveBundle (s : State) : State :=
  match s.arch.exitReq with
  | some code => s.exitTask code
  | none => if s.me.eretReq then s.eret else s.advance

/-- The executing bundle has committed all its slots: its signal, its pause, and what comes next. An ERET whose TRAPPC is bad halts the
task before either (R259, R359). -/
def State.completeBundle (s : State) : State :=
  let y := yOf s.cur.words
  let s := { s with cur := { s.cur with open_ := false } }
  if s.arch.exitReq.isNone && s.me.eretReq && s.badPointer s.arch.trappc then s.fatal stBadtarget
  else ((s.askSignal y).startPause y).leaveBundle.settle s.cur.ctx

/-- Whether an entry of the scoreboard makes a scalar register pending. -/
def SbEntry.covers (e : SbEntry) (n : Nat) : Bool :=
  match e.dst with
  | .s m => m == n
  | .pair m => m == n || m + 1 == n
  | .v _ => false

/-- A slot above a LOOP of the same bundle has made the counter register pending: its result takes effect, and LOOP's is
discarded (R136). -/
def State.loopLoses (s : State) : State :=
  match decodeSlot 0 (nth 0 s.cur.words 0) with
  | some (.loop f) =>
    let a := s.arch
    let lost (x : Flight) : Bool := x.due == s.cur.t + 1 && x.dst.rivals (.s f.a.toNat {})
    if (s.me.sb.drop s.cur.since).any (fun e => e.covers f.a.toNat) && a.flight.any lost then s.setArch { a with flight := a.flight.filter fun x => !lost x } else s
  | _ => s

/-- A slot has ended with the bundle still open: the next slot, or the bundle's completion. (DEDUCED: log entry 13) -/
def State.afterSlot (s : State) : State :=
  if !s.cur.open_ then s
  else
    let s := s.prefetchMe.loopLoses
    let s := { s with cur := { s.cur with slot := s.cur.slot + 1 } }
    if 7 ≤ s.cur.slot then s.completeBundle
    else if s.cur.gaps.contains s.cur.slot then s.setAside
    else s

/-! ### The attempt (R351) -/

/-- What the L1s do of their own accord (R283, R307), by core: a line dropped, its dirty units going to memory; or, with `true`, a
unit taken from memory. (DESIGN CHOICE: log entry 17) -/
def State.cacheAll (s : State) (l : List (Nat × Nat × Bool)) : State :=
  l.foldl (fun s p =>
    if p.2.2 then (if ((s.core p.1).l1Unit p.2.1).here then s
      else s.setL1 p.1 p.2.1 { here := true, val := (s.unit p.2.1).1, psn := (s.unit p.2.1).2 })
    else (lineUnits p.2.1).foldl (fun s pu => s.l1Clean p.1 pu true) s) s

/-- The fetched bundle that is due, with its wait, its pending registers, its queues and its banks (R351, steps 1 and 2). -/
def State.tryBundle (s : State) (k : Nat) (ws : List Word) (gaps : List Nat) : State :=
  let c := s.ctx k
  let again := c.arch.reenter
  let ops := slotOps ws (again.getD 0)
  if again.isNone && yWen (yOf ws) && !c.waitMet then s.blockCtx k
  else
    let p := s.place k ops
    let s := p.1
    if !p.2 || s.holds k ops then s.blockCtx k
    else if s.bankWait k ops then
      let co := s.core (coreOf k)
      s.setCore (coreOf k) { co with pipeFrozen := true, holder := some k, streak := if co.holder = some k then co.streak else 0 }
    else
      let s := s.issue k ws gaps
      if 7 ≤ s.cur.slot then s.completeBundle else s

/-- A bundle that was set aside goes on at its slot. (DEDUCED: log entry 13) -/
def State.resume (s : State) (k : Nat) (cur : Cur) : State :=
  { s.setCtx k { s.ctx k with aside := none } with cur := { cur with gaps := cur.gaps.filter (cur.slot < ·) } }

/-- A context tries to issue the bundle that is due, or goes on with the one that was set aside. -/
def State.attempt (s : State) (k : Nat) (gaps : List Nat) : State :=
  let c := s.ctx k
  if s.cur.open_ || !c.bound || c.ending.isSome || c.pause != 0 || s.stopped (coreOf k) then s
  else
    match c.aside with
    | some cur => s.resume k cur
    | none =>
      if !s.turn k then s
      else
        let s := s.settle k
        let c := s.ctx k
        match c.bundleAt c.arch.pos with
        | some ws => s.tryBundle k ws gaps
        | none => if c.fetchedDue then s.haltCtx k stBadtarget c.arch.pos else s

/-- BUNDLE_ISSUE (R86): the L1s drop and take what `among` lists first, and the context issues its bundle if nothing holds it, with
other agents' accesses before the slots that it lists then. (DESIGN CHOICE: log entry 17) -/
def execBundleIssue (ctx : Nat) (among : List (Nat × Nat × Bool) × List Nat) (s : State) : Out :=
  .next ((s.cacheAll among.1).attempt ctx among.2)

/-- WAIT_SATISFIED (R253). (DEDUCED: log entry 28) -/
def execWaitSatisfied (ctx : Nat) (s : State) : Out := .next (s.testWait ctx)

/-- PAUSE_END (R31): the pause cycles have passed; results due in them have landed. (DESIGN CHOICE: log entry 2) -/
def execPauseEnd (ctx : Nat) (s : State) : Out :=
  let c := s.ctx ctx
  if c.pause = 0 || !c.bound || s.stopped (coreOf ctx) then .next s
  else
    let s := s.landBy ctx (c.arch.at_ - 1)
    let c := s.ctx ctx
    .next ((s.setCtx ctx { c with pause := 0, arch := { c.arch with cycle := c.arch.cycle + BitVec.ofNat 64 c.pause } }).settle ctx)

/-- LOCK_WINDOW_END (R104). -/
def execLockWindowEnd (ctx : Nat) (s : State) : Out :=
  if (s.cur.open_ && s.cur.ctx == ctx) || (s.ctx ctx).aside.isSome then .next s else .next (s.setCtx ctx (s.ctx ctx).closeWindow)

/-- FIXED_RESULT_LAND (R32): in a pause, the results that fall due first land. -/
def execFixedResultLand (ctx : Nat) (s : State) : Out :=
  let c := s.ctx ctx
  .next (if c.pause = 0 || !c.bound || s.stopped (coreOf ctx) then s else s.landDue ctx (c.arch.at_ - 1) 1)

/-- FORCED_YIELD (R339). (DEDUCED: log entry 21) -/
def execForcedYield (ctx : Nat) (s : State) : Out :=
  let co := s.core (coreOf ctx)
  .next (if co.holder = some ctx && decide (1024 ≤ co.streak) && s.rival ctx && !s.cur.open_ && (s.ctx ctx).aside.isNone &&
      !s.stopped (coreOf ctx) then
      (s.yieldTurn ctx).setCore (coreOf ctx) { co with holder := none, streak := 0 }
    else s)

/-- YIELD_TURN_END (R256). -/
def execYieldTurnEnd (ctx : Nat) (s : State) : Out :=
  let c := s.ctx ctx
  match c.yielding with
  | none => .next s
  | some l =>
    .next (if (l.filter s.ready_).isEmpty || !s.rival ctx then s.setCtx ctx { c with yielding := none } else s)

/-! ### Freezes and errors (R273, R279, R288, R289) -/

/-- A unit's count of errors. -/
def State.unitErrors (s : State) (kind unit : Nat) : UnitErrors := look {} s.errors (32 * kind + unit)

/-- An hour of the timebase of 2.0 GHz (R262). -/
def hourTicks : Nat := 3600 * 2000000000

/-- A correctable error counted for a unit: with more than 256 in one hour the unit is due to be removed (R289, R403). -/
def UnitErrors.correctable (e : UnitErrors) (now : Nat) : UnitErrors :=
  let l := now :: e.recent.filter fun t => decide (now < t + hourTicks)
  { recent := l, due := e.due || decide (256 < l.length) }

/-- An error counted for a unit, correctable or in its own logic (R403). (DESIGN CHOICE: log entry 74) -/
def State.countError (s : State) (kind unit : Nat) (correctable : Bool) : State :=
  let e := s.unitErrors kind unit
  { s with errors := put {} s.errors (32 * kind + unit) (if correctable then e.correctable s.timebase else { e with due := true }) }

/-- CORRECTABLE_ERROR_FREEZE (R288, R289, R403) of a unit given by its kind and its number: 1 a core, which freezes with its
engines, where overlapping freezes merge; 4 the store of a cluster; 0, 2 and 3 a unit of that kind. The last four are corrected in
place. A core's and a store's errors count for their cluster. (DESIGN CHOICE: log entry 78) -/
def execCorrectableErrorFreeze (unit : Nat × Nat) (s : State) : Out :=
  if unit.1 = kCl then
    let co := s.core unit.2
    .next ((s.setCore unit.2 { co with frozen := max co.frozen (s.time + 24) }).countError kCl (unit.2 / 16) true)
  else .next (s.countError (if unit.1 = 4 then kCl else unit.1) unit.2 true)

/-- FREEZE_END (R289): the freeze ends 24 core cycles after the last error. -/
def execFreezeEnd (core : Nat) (s : State) : Out :=
  let co := s.core core
  .next (if co.frozen != 0 && decide (co.frozen ≤ s.time) then s.setCore core { co with frozen := 0 } else s)

/-- The open bank-lock windows of a core that cover a bank (R104). -/
def State.locks (s : State) (core bank : Nat) : List Window :=
  (List.range 4).filterMap fun j =>
    match (s.ctx (core * 4 + j)).window with
    | some w => if w.mask.getLsbD bank then some w else none
    | none => none

/-- Whether a scratchpad bank of a core is under an open bank-lock window (R104). -/
def State.locked (s : State) (core bank : Nat) : Bool := !(s.locks core bank).isEmpty

/-- The bank of a scratchpad unit (R278). -/
def bankOf (unit : Nat) : Nat := unit / 8 % 16

/-- Whether a command's request to a scratchpad unit waits for a window: one that waited on a bank when a chain ended is held by no
window that opened later (R280). -/
def State.lockHolds (s : State) (core cmd unit : Nat) : Bool :=
  let ws := s.locks core (bankOf unit)
  match (s.core core).waits.find? fun x => x.cmd == cmd && x.unit == unit with
  | some { freed := some e, .. } => ws.any fun w => decide (w.opened ≤ e)
  | _ => !ws.isEmpty

/-- A command's request to a scratchpad unit: it waits, or it is served (R280). -/
def State.askUnit (s : State) (core cmd unit : Nat) : State × Bool :=
  let co := s.core core
  if s.lockHolds core cmd unit then
    (if co.waits.any fun x => x.cmd == cmd && x.unit == unit then s
     else s.setCore core { co with waits := co.waits ++ [{ cmd := cmd, unit := unit }] }, false)
  else (if co.waits.isEmpty then s else s.setCore core { co with waits := co.waits.filter fun x => !(x.cmd == cmd && x.unit == unit) }, true)

/-- A command's requests to some scratchpad units: none is made while one of them waits. -/
def State.askUnits (s : State) (core cmd : Nat) : List Nat → State × Bool
  | [] => (s, true)
  | u :: r =>
    let x := s.askUnit core cmd u
    let y := x.1.askUnits core cmd r
    (y.1, x.2 && y.2)

/-- A chain of windows of context `k` with mask `m` has ended: the requests that waited on its banks are held by no later window, and
the wait counts of its banks restart (R280). -/
def State.endChain (s : State) (k : Nat) (m : BitVec 16) : State :=
  let co := s.core (coreOf k)
  s.setCore (coreOf k) { co with
    waits := co.waits.map fun x => if x.freed.isNone && m.getLsbD (bankOf x.unit) then { x with freed := some s.steps } else x
    starved := ((List.range 16).filter fun b => m.getLsbD b).foldl (fun l b => put 0 l b s.time) co.starved }

/-- The chains of windows that were open in `old` and are not any more have ended (R104, R280). -/
def State.endLocks (s old : State) : State :=
  old.ctxs.foldl (fun s p =>
    match p.2.window with
    | some w => if (s.ctx p.1).window.map Window.born = some w.born then s else s.endChain p.1 w.mask
    | none => s) s

/-- ENGINE_STARVATION (R279): the engine's wait count on the bank restarts; the core's pipeline stands still for that cycle. -/
def execEngineStarvation (core bank : Nat) (s : State) : Out :=
  let co := s.core core
  .next (if s.locked core bank || decide (s.time < look 0 co.starved bank + 64) then s
    else s.setCore core { co with starved := put 0 co.starved bank s.time })

/-- LOOP_BUFFER_ERROR (R273): the half is emptied, and the bundle that is due is fetched again. (DESIGN CHOICE: log entry 78) -/
def execLoopBufferError (ctx half : Nat) (s : State) : Out :=
  let c := s.ctx ctx
  if !c.bound then .next s
  else .next ((s.setCtx ctx (if half = 0 then { c with halfA := .empty } else { c with halfB := .empty })).settle ctx)

/-- Marks set on some 8-byte units. -/
def Mem.markUnits (m : Mem) (us : List Nat) : Mem := us.foldl (fun m u => m.setMark u true) m

/-- An uncorrectable error in a register of a context: 4 the scalar registers, 5 the vector registers, 6 the transform buffer and
its staging rows, 7 a stream's FIFO, 13 an extent slot. (DESIGN CHOICE: log entry 112) -/
def Arch.fault (a : Arch) (kind n : Nat) : Arch :=
  match kind with
  | 13 => { a with eBad := if a.eBad.contains (n % 16) then a.eBad else a.eBad ++ [n % 16] }
  | 4 => if n % 64 = 0 then a else { a with s := put {} a.s (n % 64) { psn := true } }
  | 5 => { a with v := put {} a.v (n % 32) { bits := 0, tag := (look {} a.v (n % 32)).tag, psn := true } }
  | 6 => if n % 16 < 8 then { a with xbuf := put {} a.xbuf (n % 8) { bits := 0, tag := (look {} a.xbuf (n % 8)).tag, psn := true } }
         else { a with xstage := put {} a.xstage (n % 8) { bits := 0, tag := (look {} a.xstage (n % 8)).tag, psn := true } }
  | _ =>
    let q := look {} a.q (n / 4 % 4)
    let fifo := ((List.range q.fifo.length).zip q.fifo).map fun p => if p.1 = n % 4 then { bits := 0, psn := true } else p.2
    { a with q := put {} a.q (n / 4 % 4) { q with fifo := fifo } }

/-- UNCORRECTABLE_ERROR (R288), by the kind of memory: 0 scratchpad unit, 1 L1 unit, 2 accumulator row, 3 weight-buffer unit (of
core `unit`); 4 to 7 and 13 registers (of context `unit`); 8 cluster store, 9 L2, HBM and deep tier, by 64 bytes; 10 an entry of the
rule-value file, 8 times the rule number plus the vector; 11 name cache; 12 a unit that a coherent L1 holds dirty. In a coherent L1
(1) a clean copy is spoiled, for that core alone. 16 and up: the own logic of unit `unit` of kind `kind` - 16 (R403). Other metadata
entries are dropped and fetched again, with no effect. (DESIGN CHOICE: log entries 78 and 112) -/
def execUncorrectableError (kind unit addr : Nat) (s : State) : Out :=
  let co := s.core unit
  match kind with
  | 0 => .next (s.setCore unit { co with spm := co.spm.setMark (addr % 2 ^ 17) true })
  | 1 => .next (
      let u := co.l1Unit addr
      if u.here then s.setL1 unit addr { u with val := 0, psn := true }
      else { s with spoiled := s.spoiled ++ [(unit, addr)] })
  | 2 =>
    let row : AccRow := { bits := (look {} co.acc (addr % 1024)).bits, psn := true }
    .next (s.setCore unit { co with acc := put {} co.acc (addr % 1024) row })
  | 3 => .next (s.setCore unit { co with wb := co.wb.markUnits (lineUnits (addr % 4096)) })
  | 4 | 5 | 6 | 7 | 13 => .next (let c := s.ctx unit; if c.bound then s.setCtx unit { c with arch := c.arch.fault kind addr } else s)
  | 8 => .next (let cl := s.cluster unit; s.setCluster unit { cl with store := cl.store.markUnits (lineUnits (addr % 2 ^ 19)) })
  | 9 => .next { s with mem := s.mem.markUnits (lineUnits addr) }
  | 10 => .next (s.setCore unit { co with lq := co.lq.map fun c => if c.running then { c with values := put 0 c.values (2 * addr + 1) 1 } else c })
  | 12 => .next { s with mem := s.mem.setMark addr true }
  | 11 => .next (let cl := s.cluster unit; s.setCluster unit { cl with names := cl.names.eraseIdx addr })
  | _ => .next (if 16 ≤ kind then s.countError (kind - 16) unit false else s)

end Sys2Proof.Machine
end

