-- ==== Sys2Proof/Machine/Fetch.lean ====
section
/-! DEFINITION. The expansion of a segment into the loop buffer, its seal, and what a failed expansion does (spec/04 R105, R106,
R114, spec/10 R266, R270). -/

namespace Sys2Proof.Machine

/-- The bytes of a segment of `n` bundles whose presence bytes hold `p` bits set (R106). -/
def segBytes (n p : Nat) : Nat := 64 * ((32 + 8 * ((n + 7) / 8) + 8 * p + 63) / 64)

/-- The bits set in a list of bytes. -/
def bitCount (l : List Byte) : Nat := (l.map fun b => onesCount 8 b.toNat).foldl (· + ·) 0

/-- The bundles rebuilt from presence bytes and stored words (R106). -/
def rebuild : List Byte → List Word → List (List Word)
  | [], _ => []
  | pres :: rest, ws =>
    let n := onesCount 8 pres.toNat
    let slots := (List.range 8).map fun k =>
      if pres.toNat.testBit k then nth 0 ws (onesCount k pres.toNat) else (0 : Word)
    slots :: rebuild rest (ws.drop n)

/-- The seal of a segment: the first 128 bits of the HMAC over the image base, the segment's address and its bytes with SEAL zero
(R114). (DEDUCED: log entry 40) -/
def sealOf (key : Nat) (base addr : Nat) (bs : List Byte) : List Byte :=
  (hmac384 (leBytes 48 key) (leBytes 8 base ++ leBytes 8 addr ++ (bs.take 16 ++ List.replicate 16 0 ++ bs.drop 32))).take 16

/-- How an expansion ends. -/
inductive Expanded where
  | good (last : Bool) (next : Word) (bundles : List (List Word))
  | bad
  | poisoned
  deriving DecidableEq, Repr

/-- The segment at `addr` read, checked and rebuilt (R266, R270). A marked byte decides before any check of what was read. -/
def State.expandSeg (s : State) (i : TaskInfo) (addr : Nat) : Expanded :=
  if !s.inImage i addr then .bad
  else
    match s.readVa i.asid addr 32 with
    | none => .bad
    | some (_, true) => .poisoned
    | some (hd, false) =>
      let x := BitVec.ofNat 256 (leNat hd)
      let n := bits x 32 8
      match s.readVa i.asid (addr + 32) (8 * ((n + 7) / 8)) with
      | none => .bad
      | some (_, true) => .poisoned
      | some (pres, false) =>
        let p := bitCount (pres.take n)
        match s.readVa i.asid addr (segBytes n p) with
        | none => .bad
        | some (_, true) => .poisoned
        | some (bs, false) =>
          match s.boss.sealKey with
          | none => .bad
          | some key =>
            if bits x 0 32 ≠ segMagic || n == 0 || decide (128 < n) || sealOf key i.image addr bs ≠ (bs.drop 16).take 16 then .bad
            else
              let words := (chunks 8 p (bs.drop (32 + pres.length))).map fun w => BitVec.ofNat 64 (leNat w)
              .good (bit x 40) (BitVec.ofNat 64 (bits x 64 64)) (rebuild (pres.take n) words)

/-- The first bundle of a handler has not issued. -/
def Arch.handlerStart (a : Arch) : Bool := a.csw.getLsbD cswInh && a.at_ == 0 && a.reenter.isNone

/-- The consequence of a failed expansion for a bundle that is due and waits for it (R270, R357). A bundle that has issued before
takes no advance of the clock when it is entered again (R31). (DEDUCED: log entries 22 and 23) -/
def State.fetchFailed (s : State) (k : Nat) (psn : Bool) : State :=
  let s := s.setCtx k (s.ctx k).closeWindow
  let a := (s.ctx k).arch
  if a.handlerStart then s.haltCtx k stDoublefault a.trappc
  else if !psn then s.haltCtx k stBadtarget a.pos
  else
    let again := a.reenter.isSome
    let cur : Cur := {
      ctx := k, pc := a.pos, csw := a.csw
      t := if again then a.savedAt else a.at_
      clock := if again then a.savedCycle else a.cycle }
    { ({ s with cur := cur }).trapWith (!again) 0 trMchk 128 with cur := s.cur }

/-- SEGMENT_EXPANSION (R266, R270). -/
def execSegmentExpansion (ctx half : Nat) (s : State) : Out :=
  let c := s.ctx ctx
  let put_ (h : Half) : Ctx := if half = 0 then { c with halfA := h } else { c with halfB := h }
  match (if half = 0 then c.halfA else c.halfB) with
  | .expanding seg _ =>
    let waits := s.between ctx && ptrSeg c.arch.pos == seg && !c.curHalf.residentIn seg
    match s.expandSeg c.arch.info seg with
    | .good last next bs => .next ((s.setCtx ctx (put_ (.resident seg last next bs))).settle ctx)
    | .bad => .next (let s := s.setCtx ctx (put_ .empty); if waits then s.fetchFailed ctx false else s)
    | .poisoned => .next (let s := s.setCtx ctx (put_ .empty); if waits then s.fetchFailed ctx true else s)
  | _ => .next s

end Sys2Proof.Machine
end

