-- ==== Sys2Proof/Machine/Names.lean ====
section
/-! DEFINITION. Pins, holds and page migration, PROBE's landing, and the claim names: resolution, binding, killing and
shoot-downs (spec/07 R182, R193 to R196, spec/11 R292, R293, R295 to R298, spec/18 R390). -/

namespace Sys2Proof.Machine

/-! ### Frames (R292, R293) -/

/-- Whether a frame is mapped by some leaf. -/
def State.mapped (s : State) (frame : Nat) : Bool :=
  s.leaves.any fun l => decide (l.2.2.pa / 65536 ≤ frame) && decide (frame < l.2.2.pa / 65536 + 2 ^ (l.2.2.lo - 16))

/-- Whether a frame holds a node of a radix tree. -/
def State.isNode (s : State) (frame : Nat) : Bool := s.nodes.any fun n => n / 65536 == frame

/-- Whether a frame is the translator's own: in its region, or the place of a node; none is mapped in an address space (R291).
(DESIGN CHOICE: log entry 96) -/
def State.owned (s : State) (frame : Nat) : Bool :=
  (decide (s.region.1 ≤ frame) && decide (frame < s.region.1 + s.region.2)) || s.isNode frame

/-- The task asked by PROBE for a frame to come to HBM. -/
def State.wanted (s : State) (frame : Nat) : Bool := s.liveTasks.any fun a => a.migrating.contains frame

/-- A frame's 64 KiB copied to another with their poison marks. -/
def Mem.copyFrame (m : Mem) (old new : Nat) : Mem :=
  let z := m.zeroed (new * 65536) 65536
  { cells := (m.cells.filter fun c => c.1 / 65536 == old).foldl
      (fun l c => put 0 l (new * 65536 + c.1 % 65536) c.2) z.cells
    marks := (m.marks.filter fun c => c.1 / 8192 == old).foldl
      (fun l c => put false l (new * 8192 + c.1 % 8192) c.2) z.marks }

/-- A page of a run list after the migration of a frame (R293). (DEDUCED: log entry 76) -/
def Page.rename (old new : Nat) (p : Page) : Page := if p.frame = old then { p with frame := new } else p

/-- The runs of some slots after the migration of a frame. -/
def renamePages (old new : Nat) (m : FMap (List Page)) : FMap (List Page) := m.map fun p => (p.1, p.2.map (Page.rename old new))

/-- A task's runs and frames after the migration of one (R293). (DEDUCED: log entry 76) -/
def Arch.rename (old new : Nat) (a : Arch) : Arch :=
  let f (x : Nat) : Nat := if x = old then new else x
  { a with
    ePages := renamePages old new a.ePages
    runs := a.runs.map fun r => r.map (Page.rename old new)
    pins := a.pins.map f
    holds := a.holds.map f
    migrated := if a.migrating.contains old then (a.migrated.filter (· != old)) ++ [new] else a.migrated.map f
    migrating := a.migrating.filter (· != old) }

/-- A command's runs after the migration of a frame (R293). -/
def Cmd.rename (old new : Nat) (c : Cmd) : Cmd := { c with pages := renamePages old new c.pages }

/-- The runs of a core's commands after the migration of a frame. -/
def Core.rename (old new : Nat) (c : Core) : Core :=
  { c with
    cq := c.cq.map (Cmd.rename old new), mq := c.mq.map (Cmd.rename old new), lq := c.lq.map (Cmd.rename old new)
    mqstat := c.mqstat.map (Cmd.rename old new) }

/-- An update on its way to a page waits at the translator and goes to the new frame (R293). (DEDUCED: log entry 76) -/
def Update.rename (old new : Nat) (u : Update) : Update :=
  let hi := u.hi.map fun h => if h / 8192 = old then new * 8192 + h % 8192 else h
  if u.pa / 65536 = old then { u with pa := new * 65536 + u.pa % 65536, hi := hi } else { u with hi := hi }

/-- A PROBE's pages after the migration of a frame. -/
def SbEntry.rename (old new : Nat) (e : SbEntry) : SbEntry :=
  match e.what with
  | .probe ps => { e with what := .probe (ps.map (Page.rename old new)) }
  | _ => e

/-- An access whose point in T is still to come goes to the new frame. -/
def Late.rename (old new : Nat) (l : Late) : Late :=
  { l with refs := l.refs.map fun r => if r.pu / 8192 = old then { r with pu := new * 8192 + r.pu % 8192 } else r }

/-- A live task's context after the migration of a frame. -/
def Ctx.rename (old new : Nat) (c : Ctx) : Ctx :=
  { c with arch := c.arch.rename old new, late := c.late.map (Late.rename old new), sb := c.sb.map (SbEntry.rename old new) }

/-- Before a page moves: every cache writes back and drops its lines, update-only lines merge, and every write to it is seen (R293). -/
def State.clearFrame (s : State) (frame : Nat) : State :=
  let s := s.l1Sweep (s.cores.map Prod.fst) (fun pu => pu / 8192 == frame) true
  let lines := ((s.cores.flatMap fun p => p.2.lines.map Prod.fst).filter fun l => l / 1024 == frame).eraseDups
  let s := s.touchLines none lines
  { s with hidden := s.hidden.filter fun h => h.unit / 8192 != frame }

/-- A 64 KiB page moved from one frame to another (R293). (DEDUCED: log entry 76) -/
def State.movePage (s : State) (old new : Nat) : State :=
  let s := s.clearFrame old
  let ls := s.leaves.filter fun l => l.2.2.pa / 65536 == old
  let s := { s with mem := s.mem.copyFrame old new }
  let s := { s with mem := ls.foldl (fun (m : Mem) (l : Nat × Nat × Leaf) =>
    m.store l.2.2.at_ (leBytes 8 (natSet l.2.2.pte 16 35 new))) s.mem }
  let s := s.mapCtxs (Ctx.rename old new)
  let s : State := { s with
    cores := s.cores.map fun p => (p.1, p.2.rename old new)
    updates := s.updates.map (Update.rename old new)
    names := s.names.map fun p => (p.1, { p.2 with pages := p.2.pages.map (Page.rename old new) }) }
  { s with openSeqs := s.openSeqs.map fun (q : OpenSeq) => if q.line / 1024 = old then { q with line := new * 1024 + q.line % 1024 } else q }

/-- Whether a page may move now (R293, R274): only 64 KiB leaves name it, no live task pins it, and a held page goes only to HBM for
a task that probed it; a page of a sealed image goes only to HBM, where it stays; the new frame is backed and free. (DEDUCED: log
entries 76 and 105; DESIGN CHOICE: log entry 97) -/
def State.mayMove (s : State) (old new : Nat) : Bool :=
  let ls := s.leaves.filter fun l => decide (l.2.2.pa / 65536 ≤ old) && decide (old < l.2.2.pa / 65536 + 2 ^ (l.2.2.lo - 16))
  let up := inDeep (old * 65536)
  !ls.isEmpty && (ls.all fun l => l.2.2.lo == 16) && s.part.backed (old * 65536) && s.part.backed (new * 65536 + 65535) &&
  inDeep (old * 65536) != inDeep (new * 65536) && !s.mapped new && !s.owned new && !s.owned old &&
  !s.pinned old && (up || !s.imagePages.contains old) && (!s.held old || (up && s.wanted old))

/-- PAGE_MIGRATION (R293): frame `frame`, in HBM or in the deep tier, moves to the free frame `target` of the other tier. (DEDUCED:
log entry 76) -/
def execPageMigration (frame target : Nat) (s : State) : Out :=
  .next (if s.mayMove frame target then (s.movePage frame target).releaseAll else s)

/-! ### PROBE's landing (R182) -/

/-- Whether a PROBE's pages are all in HBM or held elsewhere: none of its deep pages is still on its way, one that another task has
pinned in the deep tier stays (R182). (DEDUCED: log entries 29 and 105) -/
def State.probeDone (s : State) (a : Arch) (ps : List Page) : Bool :=
  ps.all fun p => !(p.deep && a.migrating.contains p.frame && !s.pinned p.frame)

/-- The pins and the status word of a PROBE that is done. (DEDUCED: log entry 29) -/
def Arch.probeResult (a : Arch) (ps : List Page) : Arch × Word :=
  let moved := (ps.filter fun p => a.migrated.contains p.frame).length
  ({ a with pins := a.pins ++ (ps.filter fun p => !p.deep).map Page.frame },
   statusWord 0 (if ps.any Page.deep then stPinned else stOk) (min moved 0xFFFFFFFF))

/-! ### Resolution (R296) -/

def State.nameEntry (s : State) (n : BitVec 128) : Option NameEntry := (s.names.find? fun p => p.1 == n).map Prod.snd

def State.updName (s : State) (n : BitVec 128) (f : NameEntry → NameEntry) : State :=
  { s with names := s.names.map fun p => if p.1 = n then (p.1, f p.2) else p }

/-- The right of an address space of a module (R296): 0 none, 1 read, 3 read and write. -/
def NameEntry.right (e : NameEntry) (serial asid : Nat) : Nat :=
  match e.rights.find? fun r => r.1 == serial && r.2.1 == asid with
  | some r => r.2.2
  | none => 0

/-- What a lookup finds. -/
inductive Resolved where
  | fails (code : Nat)
  | good (e : NameEntry)
  deriving DecidableEq, Repr

/-- A lookup at the home, or in a cache that holds the name (R296). -/
def State.lookUp (s : State) (cached : Bool) (serial asid : Nat) (n : BitVec 128) : Resolved :=
  if nameSeq n = 0 ∨ s.nameCtr ≤ nameSeq n then .fails stNever
  else
    match s.nameEntry n with
    | none => .fails stGone
    | some e =>
      if !(e.live || cached) then .fails stGone
      else if e.right serial asid = 0 then .fails stDenied
      else .good e

/-- resolve(N) of R296 for a task of a cluster of this module; a hit in the cluster's cache stands even for a dead name. -/
def State.resolve (s : State) (cl asid : Nat) (n : BitVec 128) : Resolved :=
  if nameSerial n ≠ s.part.serial then .fails stRemote
  else s.lookUp ((s.cluster cl).names.contains n) s.part.serial asid n

/-- A cluster's cache takes a live name; of 512 entries the oldest goes (R296). (DESIGN CHOICE: log entry 119) -/
def State.cacheName (s : State) (cl : Nat) (n : BitVec 128) : State :=
  let c := s.cluster cl
  match s.nameEntry n with
  | some e =>
    if !e.live || c.names.contains n then s
    else s.setCluster cl { c with names := (if 512 ≤ c.names.length then c.names.drop 1 else c.names) ++ [n] }
  | none => s

/-- Whether the object still has all its pages: those of a unit that has been removed are gone (R6). -/
def NameEntry.whole (e : NameEntry) : Bool := (pagesOf e.base e.len).all fun vp => (pageOf e.pages vp).isSome

/-- The object's length in 64 KiB pages, saturated (R194). -/
def NameEntry.pageCount (e : NameEntry) : Nat := min ((e.len + 65535) / 65536) 0xFFFFFFFF

/-- Dead names whose shoot-down is complete and whose bindings are all released leave the table, and their objects are freed
(R297). -/
def State.sweepNames (s : State) : State :=
  { s with names := s.names.filter fun p => p.2.live || !p.2.shooting.isEmpty || p.2.count != 0 }

/-! ### Bindings (R194, R292) -/

/-- CLASS and MSA of an extent slot from its pages (R22). -/
def slotAttr (ps : List Page) : Nat × Bool :=
  match ps with
  | [] => (0, false)
  | p :: r => (if r.all fun q => q.cls == p.cls then p.cls else 3, ps.all Page.msa)

/-- The pages of a range of an address space as the translator gives them (R292); a page without a translation is left out. -/
def State.pagesAt (s : State) (asid va n : Nat) : List Page :=
  (pagesOf va n).filterMap fun vp => (s.translate asid (vp * 65536)).map (Leaf.page · vp)

/-- The first check of R292 that some pages fail, page after page; 0 when all pass. A range over pages of a sealed image is bound
without W, so the check of W passes them (R274). -/
def State.pagesCheck (s : State) (core : Nat) (ps : List Page) (write : Bool) : Nat :=
  let img := s.imagePages
  let one (p : Page) : Nat :=
    if !s.part.backed (p.frame * 65536) || p.cls == 3 then stExtent
    else if write && !p.w && !img.contains p.frame then stRdonly
    else if p.cls == 2 && p.owner != core then stPrivate
    else stOk
  match (ps.map one).find? (· != stOk) with
  | some c => c
  | none => stOk

/-- The first check of R292 that a range fails, page after page; there is no page at or above 2^55 (R290). -/
def State.rangeCheck (s : State) (core asid va n : Nat) (write : Bool) : Nat :=
  let all := (pagesOf va (min n (2 ^ 55 - va))).map fun vp => (s.translate asid (vp * 65536)).map (Leaf.page · vp)
  let found := (all.takeWhile Option.isSome).filterMap id
  let code := s.pagesCheck core found write
  if code ≠ stOk then code else if all.all Option.isSome && decide (va + n ≤ 2 ^ 55) then stOk else stExtent

/-- The pages of a range pinned where they lie in HBM, or where the range asks it in the deep tier, and held elsewhere; A is set in
every leaf entry (R292). -/
def State.pinPages (s : State) (a : Arch) (ps : List Page) (deep : Bool) : State × Arch :=
  let pin (p : Page) : Bool := !p.deep || deep
  let a := { a with
    pins := a.pins ++ (ps.filter pin).map Page.frame
    holds := a.holds ++ (ps.filter fun p => !pin p).map Page.frame
    runs := a.runs ++ [ps] }
  ({ s with mem := ps.foldl (fun m p => m.setByte (p.at_ + 1) (m.byte (p.at_ + 1) ||| 4)) s.mem }, a)

/-- The pins and holds that a binding brought are given back, one of each page. (DESIGN CHOICE: log entry 91) -/
def Arch.unpinPages (a : Arch) (ps : List Page) : Arch :=
  (ps.map Page.frame).foldl (fun a f =>
    if a.holds.contains f then { a with holds := a.holds.erase f } else { a with pins := a.pins.erase f }) a

/-- The binding of a slot is released (R194, R297): a named one gives its pins and holds back at once, a declared range keeps them
until the task retires. (DESIGN CHOICE: log entry 91) -/
def State.unbind (s : State) (a : Arch) (slot : Nat) : State × Arch :=
  match s.nameEntry (look 0 a.names slot) with
  | some _ =>
    if extValid (look 0 a.e slot) && bit (look 0 a.e slot) 19 then
      let n := look 0 a.names slot
      (s.updName n fun e => { e with count := e.count - 1 }, { a.unpinPages (a.slotPages slot) with names := drop a.names slot })
    else (s, a)
  | none => (s, a)

/-- A named object bound to a slot with a right, on the runs that its entry holds (R194, R296, R332). -/
def State.bindName (s : State) (a : Arch) (slot : Nat) (n : BitVec 128) (e : NameEntry) (wr deep : Bool) : State × Arch :=
  let at_ := slotAttr e.pages
  let img := s.imagePages
  let wr := wr && !(e.pages.any fun p => img.contains p.frame)
  let p := s.pinPages a e.pages deep
  let a := { p.2 with
    e := put 0 p.2.e slot (mkExtent e.base e.len wr at_.1 at_.2 true)
    eBad := p.2.eBad.filter (· != slot)
    names := put 0 p.2.names slot n
    ePages := put [] p.2.ePages slot e.pages }
  (p.1.updName n fun e => { e with count := e.count + 1 }, a)

/-! ### The three operations as their tokens land (R194 to R196) -/

/-- NRES: the state after it and the status word. An object that has lost a page to the removal of a unit fails as a range does at dispatch
(R6, R292). -/
def State.nresLand (s : State) (k slot : Nat) (n : BitVec 128) : State × Word :=
  let a := (s.ctx k).arch
  match s.resolve (clusterOf k) a.info.asid n with
  | .fails c => (s, statusWord 0 c 0)
  | .good e =>
    if !e.whole then (s, statusWord 0 stExtent 0)
    else
    let wr := e.right s.part.serial a.info.asid == 3
    let s := s.cacheName (clusterOf k) n
    let u := s.unbind a slot
    let b := u.1.bindName u.2 slot n e wr false
    let c := b.1.ctx k
    ((b.1.setCtx k { c with arch := b.2 }).sweepNames, statusWord 0 stOk e.pageCount)

/-- What the home of another module's name answers to NSTAT or NKILL: UNREACHABLE where it cannot be reached, else one of the statuses
that R193 lists (R298); none while the answer is none of them. -/
def State.foreignAnswer (s : State) (n : BitVec 128) (answer : Nat) : Option Nat :=
  if !s.reaches (nameSerial n) then some stUnreachable
  else if [stOk, stGone, stNever, stDenied, stUnreachable].contains answer then some answer
  else none

/-- NSTAT of a name of this module: the state after it and the status word. -/
def State.nstatLand (s : State) (k : Nat) (n : BitVec 128) : State × Word :=
  let a := (s.ctx k).arch
  match s.resolve (clusterOf k) a.info.asid n with
  | .fails c => (s, statusWord 0 c 0)
  | .good e => (s.cacheName (clusterOf k) n, statusWord 0 stOk e.pageCount)

/-- A live name leaves the table at its home, and the shoot-downs go out, to the name caches and to the remote holders that can be
reached (R297). -/
def State.killName (s : State) (n : BitVec 128) (killer : Option Nat) : State :=
  let cls := (s.clusters.filter fun p => p.2.names.contains n).map Prod.fst
  let far := match s.nameEntry n with | some e => e.holders.filter s.meets | none => []
  let s := s.updName n fun e => { e with live := false, shooting := cls ++ far.map (32 + ·), killer := killer }
  far.foldl (fun s m => s.send 0x24 m (leBytes 16 n.toNat)) s

/-- What NKILL meets at the home: the failing status, or none where the entry is removed (R196). -/
def State.killCheck (s : State) (serial asid : Nat) (n : BitVec 128) : Nat :=
  match s.lookUp false serial asid n with
  | .fails c => c
  | .good e => if e.right serial asid = 3 then stOk else stDenied

/-- The shoot-down of a name is complete. -/
def State.shot (s : State) (n : BitVec 128) : Bool :=
  match s.nameEntry n with
  | some e => e.live || e.shooting.isEmpty
  | none => true

/-- A dead name whose last shoot-down has been acknowledged: a remote killer's answer goes out, and the table is swept. -/
def State.shotDone (s : State) (n : BitVec 128) : State :=
  match s.nameEntry n with
  | some e =>
    if e.live || !e.shooting.isEmpty then s
    else
      match e.killer with
      | some m => ((s.updName n fun e => { e with killer := none }).sendTo 0x22 m (leBytes 16 n.toNat ++ leBytes 2 stOk)).sweepNames
      | none => s.sweepNames
  | none => s

/-- NAME_SHOOTDOWN (R297, R298): a cluster's cache (below 32) drops the name, a remote holder (32 + its serial) has acknowledged;
or this module drops a foreign name that it had cached, and acknowledges. Nothing comes in or goes out where no port carries it (R384). -/
def execNameShootdown (holder : Nat) (name : BitVec 128) (s : State) : Out :=
  if nameSerial name ≠ s.part.serial then
    .next (if s.meets (nameSerial name) && s.foreign.contains name then
        ({ s with foreign := s.foreign.erase name }).send 0x23 (nameSerial name) (leBytes 16 name.toNat)
      else s)
  else
    match s.nameEntry name with
    | none => .next s
    | some e =>
      if e.live || !e.shooting.contains holder || (decide (32 ≤ holder) && !s.meets (holder - 32)) then .next s
      else
        let s := if holder < 32 then
            s.setCluster holder { s.cluster holder with names := (s.cluster holder).names.erase name } else s
        .next ((s.updName name fun e => { e with shooting := e.shooting.erase holder }).shotDone name)

/-- The first check that a range of an object's pages fails as another agent than a core writes it: a page that the object does not
hold any more, or that no unit backs (R6, R292), one of a sealed image or without W (R274, R292), and a core-private one (R308).
(DEDUCED: log entry 52; DESIGN CHOICE: log entry 66) -/
def State.objectCheck (s : State) (ps : List Page) (va n : Nat) : Nat :=
  let img := s.imagePages
  let one (vp : Nat) : Nat :=
    match pageOf ps vp with
    | none => stExtent
    | some p =>
      if !s.part.backed (p.frame * 65536) || p.cls == 3 then stExtent
      else if !p.w || img.contains p.frame then stRdonly
      else if p.cls == 2 then stPrivate
      else stOk
  match ((pagesOf va n).map one).find? (· != stOk) with
  | some c => c
  | none => stOk

/-- The home's answer to a lookup for `len` bytes at `off` of CPYR or a remote CRED: the status, with EXTENT for a range past the
object's length (R241, R392), and that length (R390). (DEDUCED: log entry 52) -/
def State.remoteLookup (s : State) (serial asid : Nat) (n : BitVec 128) (clus off len : Nat) : Nat × Nat :=
  if !s.part.hasCluster clus then (stUnreachable, 0)
  else
    match s.lookUp false serial asid n with
    | .fails c => (c, 0)
    | .good e =>
      if e.right serial asid ≠ 3 then (stDenied, 0)
      else if e.len < off + len then (stExtent, 0)
      else
        let code := s.objectCheck e.pages (e.base + off) len
        if code ≠ stOk then (code, 0) else (stOk, e.len)

/-- REMOTE_NAME_RESOLVE (R298, R390): this module, home of a name, answers another module: kind 0 a copy or reduction whose block
names the cluster and the bytes of `place`, by offset and length, 1 NSTAT, 2 NKILL. (DESIGN CHOICE: log entry 5) -/
def execRemoteNameResolve (serial asid : Nat) (name : BitVec 128) (kind : Nat) (place : Nat × Nat × Nat) (s : State) : Out :=
  let id := leBytes 16 name.toNat
  if nameSerial name ≠ s.part.serial ∨ !s.meets serial then .next s
  else
    match kind with
    | 0 =>
      let r := s.remoteLookup serial asid name place.1 place.2.1 place.2.2
      let s := if r.1 = stOk then
          s.updName name fun e => { e with holders := if e.holders.contains serial then e.holders else e.holders ++ [serial] }
        else s
      .next (s.send 0x20 serial (id ++ leBytes 2 r.1 ++ leBytes 8 r.2))
    | 1 =>
      match s.lookUp false serial asid name with
      | .fails c => .next (s.send 0x21 serial (id ++ leBytes 2 c ++ leBytes 4 0))
      | .good e => .next (s.send 0x21 serial (id ++ leBytes 2 stOk ++ leBytes 4 e.pageCount))
    | _ =>
      let c := s.killCheck serial asid name
      .next (if c = stOk then (s.killName name (some serial)).shotDone name
        else s.send 0x22 serial (id ++ leBytes 2 c))

end Sys2Proof.Machine
end

