-- ==== Sys2Proof/Machine/Agents.lean ====
section
/-! DEFINITION. Memory as the engines and the device itself reach it: byte runs read and written unit by unit, past every L1, with
the poison of each byte (spec/07 R171, R172, spec/09 R235, spec/11 R283, spec/12 R306, R309). -/

namespace Sys2Proof.Machine

/-- One 8-byte unit of an address space; a unit without a translation has none. -/
def State.uref (s : State) (asid vu : Nat) : Option URef :=
  match s.translate asid (8 * vu) with
  | some l => if s.part.backed l.pa then some { vu := vu, pu := l.pa / 8, sc := l.cls == 1, msa := l.msa } else none
  | none => none

/-- One 8-byte unit on the pages of a command's runs. -/
def unitOn (ps : List Page) (vu : Nat) : Option URef := (pageOf ps (vu / 8192)).map fun p => p.unit vu

/-- Whether an agent's access to a unit may go on, once the update-only copies of its line have been asked to merge (R306, R319).
(DEDUCED: log entry 43) -/
def State.reach (s : State) (by_ : Nat × Nat) (r : Option URef) : State × Bool :=
  match r with
  | some r =>
    let s := s.touchLine (some by_) r.line
    (s, !s.barred by_ r.line)
  | none => (s, true)

/-- A unit read by an agent: update-only copies of its line merge first (R306). -/
def State.agentUnit (s : State) (by_ : Nat × Nat) (lag : List (Nat × Nat)) (r : Option URef) : State × (Word × Bool) :=
  match r with
  | some r => (s.touchLine (some by_) r.line).engineUnit by_ lag r.pu
  | none => (s, (0, true))

/-- Bytes of a unit written by an agent, where the unit has a translation. -/
def State.agentSet (s : State) (by_ : Nat × Nat) (r : Option URef) (mask : Nat) (data : Word) (psn : Bool) : State :=
  match r with
  | some r => (s.touchLine (some by_) r.line).engineSet by_ r.pu mask data psn
  | none => s

/-- Units read in turn. -/
def State.agentUnits (s : State) (by_ : Nat × Nat) (lag : List (Nat × Nat)) : List (Option URef) → State × List (Word × Bool)
  | [] => (s, [])
  | r :: rest =>
    let x := s.agentUnit by_ lag r
    let t := x.1.agentUnits by_ lag rest
    (t.1, x.2 :: t.2)

/-- The bytes, and each byte's poison, of `n` bytes at address `a` out of the units that they touch. -/
def spreadUnits (a n : Nat) (xs : List (Word × Bool)) : List Byte × List Bool :=
  (((xs.flatMap fun x => leBytes 8 x.1.toNat).drop (a % 8)).take n,
   ((xs.flatMap fun x => List.replicate 8 x.2).drop (a % 8)).take n)

/-- `n` bytes read by the device itself, with the poison of each. (DEDUCED: log entry 48) -/
def State.agentRead (s : State) (asid va n : Nat) : State × List Byte × List Bool :=
  let r := s.agentUnits (3, 0) [] ((unitsOf va n).map (s.uref asid))
  (r.1, spreadUnits va n r.2)

/-- `n` bytes read by an engine on the pages of its runs, with the poison of each. -/
def State.runRead (s : State) (by_ : Nat × Nat) (lag : List (Nat × Nat)) (ps : List Page) (va n : Nat) :
    State × List Byte × List Bool :=
  let r := s.agentUnits by_ lag ((unitsOf va n).map (unitOn ps))
  (r.1, spreadUnits va n r.2)

/-- Whether an agent's access to some units may go on. -/
def State.reachAll (s : State) (by_ : Nat × Nat) : List (Option URef) → State × Bool
  | [] => (s, true)
  | r :: rest =>
    let x := s.reach by_ r
    let y := x.1.reachAll by_ rest
    (y.1, x.2 && y.2)

/-- Whether no merge is in flight and no update-only line could merge: then no access waits for one. -/
def State.mergesNone (s : State) : Bool := (s.cores.all fun p => p.2.lines.isEmpty) && !(s.updates.any fun u => u.merged)

/-- Before the device's own accesses to ranges of address spaces, each by its address and its length: the update-only copies of
their lines have been asked to merge; and whether the accesses may go on (R306, R319). (DEDUCED: log entry 43) -/
def State.clears (s : State) (l : List (Nat × Nat × Nat)) : State × Bool :=
  if s.mergesNone then (s, true) else s.reachAll (3, 0) (l.flatMap fun x => (unitsOf x.2.1 x.2.2).map (s.uref x.1))

/-- Whether any of the bytes that go into unit `vu` is poisoned. -/
def unitPoison (vu va : Nat) (ps : List Bool) : Bool :=
  (List.range 8).any fun j => decide (va ≤ 8 * vu + j) && (ps[8 * vu + j - va]?).getD false

/-- Bytes written by an agent into some of the units that they touch, each by its virtual number with its place. -/
def State.agentPut (s : State) (by_ : Nat × Nat) (va : Nat) (bs : List Byte) (ps : List Bool) :
    List (Nat × Option URef) → State
  | [] => s
  | x :: rest =>
    let p := unitPart x.1 va bs
    (s.agentSet by_ x.2 p.1 p.2 (unitPoison x.1 va ps)).agentPut by_ va bs ps rest

/-- Bytes written by the device itself, unit by unit in ascending order: their places are those that its checks have found.
(DEDUCED: log entries 15, 36 and 48) -/
def State.agentWrite (s : State) (asid va : Nat) (bs : List Byte) (ps : List Bool) : State :=
  s.agentPut (3, 0) va bs ps ((unitsOf va bs.length).map fun vu => (vu, s.uref asid vu))

/-- Bytes written by an agent on the pages of some runs, unit by unit in ascending order. -/
def State.runWrite (s : State) (by_ : Nat × Nat) (pages : List Page) (va : Nat) (bs : List Byte) (ps : List Bool) : State :=
  s.agentPut by_ va bs ps ((unitsOf va bs.length).map fun vu => (vu, unitOn pages vu))

/-- A field of a record: `n` bytes at offset `off`, little-endian (R16). -/
def fld (bs : List Byte) (off n : Nat) : Nat := leNat ((bs.drop off).take n)

/-- The first check of R292 that an access of the device itself fails (R388): no core makes it, so every core-private page belongs
to another; pages of a sealed image are not written (R274). (DEDUCED: log entries 33 and 48) -/
def State.deviceCheck (s : State) (asid va n : Nat) (write : Bool) : Nat :=
  let img := s.imagePages
  let one (p : Nat) : Nat :=
    match s.translate asid (p * 65536) with
    | none => stExtent
    | some l =>
      if !s.part.backed l.pa || l.cls == 3 then stExtent
      else if write && (!l.w || img.contains (l.pa / 65536)) then stRdonly
      else if l.cls == 2 then stPrivate
      else stOk
  match ((pagesOf va (min n (2 ^ 55 - va))).map one).find? (· != stOk) with
  | some c => c
  | none => if va + n ≤ 2 ^ 55 then stOk else stExtent

end Sys2Proof.Machine
end

