-- ==== Sys2Proof/Machine/Launches.lean ====
section
/-! DEFINITION. Launches: acceptance, start, nodes, task reports, completion records and aborts (spec/09 R257, R261, spec/14 R327 to
R335, R344 to R348, spec/15 R359, R360). -/

namespace Sys2Proof.Machine

def State.theLaunch (s : State) (seq : Nat) : Launch := look noLaunch s.launches seq

/-! ### Queues (R327) -/

def State.qcfg (s : State) (q : Nat) : Word := look 0 s.queues q
def qOwner (w : Word) : Nat := bits w 16 16
def qDevopen (w : Word) : Bool := bit w 9
def qEn (w : Word) : Bool := bit w 8
def qPrio (w : Word) : Nat := bits w 0 2

/-- The launches of a queue that have not completed, the running one included. (DEDUCED: log entry 45) -/
def State.queued (s : State) (q : Nat) : Nat := (s.launches.filter fun p => p.2.queue == q && !p.2.done).length

/-! ### The launch record and the node table (R330 to R333) -/

/-- A list of `n` 8-byte words at offset `off`. -/
def fldWords (bs : List Byte) (off n : Nat) : List Word := (List.range n).map fun j => BitVec.ofNat 64 (fld bs (off + 8 * j) 8)

/-- Whether `n` bytes at an offset are all zero. -/
def fldZero (bs : List Byte) (off n : Nat) : Bool := ((bs.drop off).take n).all (· == 0)

/-- The launch flags, by bit (R330). -/
def recFlag (rec_ : List Byte) (i : Nat) : Bool := (fld rec_ 6 1).testBit i

/-- Whether a launch record keeps the rules of R330; CTEST needs a credential, and CPLMSG a host. (DEDUCED: log entry 47) -/
def recordOk (rec_ : List Byte) (host cred : Bool) : Bool :=
  fld rec_ 0 4 == 0x4C4E4348 && fld rec_ 4 2 == 1 && decide (fld rec_ 6 1 < 16) && fld rec_ 7 1 != 0 && fld rec_ 16 8 % 64 == 0 &&
  fld rec_ 24 8 % 64 == 0 && fld rec_ 40 8 % 32 == 0 && fldZero rec_ 56 8 && !(recFlag rec_ 0 && recFlag rec_ 1) &&
  (if recFlag rec_ 0 || recFlag rec_ 1 then fld rec_ 32 8 % 32 == 0 else fld rec_ 32 8 == 0) &&
  (!recFlag rec_ 2 || (host && cred)) && (!recFlag rec_ 3 || host)

/-- Whether a range declaration keeps the rules of R332. -/
def rangeOk (r : List Byte) : Bool :=
  let f := fld r 16 1
  if !f.testBit 0 then fldZero r 0 32
  else decide (f < 16) && fldZero r 17 15 &&
    (f.testBit 1 || (fld r 0 8 % 65536 == 0 && decide (1 ≤ fld r 8 8) && decide (fld r 8 8 < 2 ^ 48)))

/-- Whether an ENTRY, as an offset from the image, or the image's own where it is zero, names a bundle of it (R328). -/
def entryOf (img : Image) (e : Nat) : Option Nat :=
  let p : Word := if e = 0 then img.entry else BitVec.ofNat 64 e
  let seg := if e = 0 then ptrSeg p else ptrSeg p + img.base
  if ptrClean p && img.segs.any (fun x => x.1 == seg && decide (ptrBidx p < x.2)) then some (mkPtr seg (ptrBidx p)).toNat
  else none

/-- Whether node record `n` keeps the rules of R331 to R333. -/
def nodeOk (img : Image) (n : Nat) (r : List Byte) : Bool :=
  let gx := fld r 8 2
  let gy := fld r 10 2
  let gz := fld r 12 2
  let tasks := fld r 14 1
  let stages := fld r 15 1
  let fl := fld r 16 1
  let pteams := fld r 24 2
  let grid (g : Nat) : Bool := decide (1 ≤ g) && decide (g ≤ 1024)
  (entryOf img (fld r 0 8)).isSome && grid gx && grid gy && grid gz && decide (1 ≤ tasks) && decide (tasks ≤ 64) &&
  decide (1 ≤ stages) && decide (stages ≤ 16) && decide (stages * tasks ≤ 64) && gx % stages == 0 && decide (fl < 8) &&
  !(fld r 17 1).testBit 6 && decide (fld r 18 1 ≤ 4) &&
  ((List.range 4).all fun j => fld r (20 + j) 1 == 0xFF || decide (fld r (20 + j) 1 < n)) &&
  (if fl.testBit 0 then pteams != 0 && pteams % stages == 0 && decide ((gx * gy * gz - 1) / pteams ≤ 65535) else pteams == 0) &&
  fldZero r 26 6 && fld r 40 8 % 64 == 0 && fldZero r 48 16 &&
  ((List.range 16).all fun j => rangeOk ((r.drop (128 + 32 * j)).take 32))

/-- A node as its record gives it (R331). -/
def nodeOf (img : Image) (r : List Byte) : Node :=
  let fl := fld r 16 1
  { entry := (entryOf img (fld r 0 8)).getD 0
    gx := fld r 8 2, gy := fld r 10 2, gz := fld r 12 2, tasks := fld r 14 1, stages := fld r 15 1
    det := fl.testBit 0, fuse := fl.testBit 1, gsem := fl.testBit 2
    enables := fld r 17 1, rmode := fld r 18 1, argsel := fld r 19 1
    preds := ((List.range 4).map fun j => fld r (20 + j) 1).filter (· != 0xFF)
    pteams := fld r 24 2, carryout := fld r 32 8, trec := fld r 40 8
    args := fldWords r 64 8
    ranges := (List.range 16).map fun j => (r.drop (128 + 32 * j)).take 32 }

/-! ### Acceptance (R328) -/

/-- A launch as its record and node table give it. -/
def launchOf (seq queue : Nat) (cfg : Word) (img : Image) (rec_ tab : List Byte) : Launch :=
  let nn := fld rec_ 7 1
  { seq := seq, queue := queue, asid := qOwner cfg, prio := qPrio cfg
    record := recFlag rec_ 0, replay := recFlag rec_ 1, ctest := recFlag rec_ 2, cplmsg := recFlag rec_ 3
    image := img.base, cpl := fld rec_ 24 8, logAddr := fld rec_ 32 8, logLen := fld rec_ 40 8, dataVa := fld rec_ 48 8
    carry := fldWords rec_ 64 8
    nodes := (List.range nn).map fun n => (n, nodeOf img ((tab.drop (640 * n)).take 640))
    nnodes := nn }

/-- Where the node table of a launch record lies, in its address space (R330). -/
def tableRange (owner : Nat) (rec_ : List Byte) : Nat × Nat × Nat := (owner, fld rec_ 16 8, 640 * fld rec_ 7 1)

/-- A submission of a record already read (R328): the state, the status, and the low 32 bits of the sequence number. `dev` is the
address space of the ENQ's task. (DEDUCED: log entries 45 and 46) -/
def State.submit (s : State) (queue : Nat) (rec_ : List Byte) (dev host : Option Nat) (tag : Nat) (cred : Bool) :
    State × Nat × Nat :=
  let cfg := s.qcfg queue
  let owner := qOwner cfg
  if !qEn cfg || (match dev with | some a => !qDevopen cfg || a != owner | none => false) then (s, stDenied, 0)
  else if 256 ≤ s.queued queue then (s, stQfull, 0)
  else
    match s.images.find? fun i => i.asid == owner && i.base == fld rec_ 8 8 with
    | none => (s, stBadparam, 0)
    | some img =>
      if !recordOk rec_ dev.isNone cred then (s, stBadparam, 0)
      else
        let n := 640 * fld rec_ 7 1
        let code := s.deviceCheck owner (fld rec_ 16 8) n false
        if code ≠ stOk then (s, code, 0)
        else
          let r := s.agentRead owner (fld rec_ 16 8) n
          let s := r.1
          let tab := r.2.1
          let good := (List.range (fld rec_ 7 1)).all fun j => nodeOk img j ((tab.drop (640 * j)).take 640)
          if r.2.2.any id || !good then (s, stBadparam, 0)
          else
            let l := { launchOf s.nextSeq queue cfg img rec_ tab with host := host, tag := tag }
            ({ s with launches := put noLaunch s.launches s.nextSeq l, nextSeq := s.nextSeq + 1 }, stOk, s.nextSeq % 2 ^ 32)

/-- The extent offset of ENQ's record (R261). -/
def enqOff (f : SS) : Int := toSigned 28 (f.x.toNat % 2 ^ 28)

/-- ENQ (R261): the record is read at issue; the submission is decided when the token lands, after every earlier access. (DEDUCED:
log entries 46 and 87) -/
def execEnq (f : SS) (s : State) : Out :=
  let a := s.rdS f.a
  let slot := f.x.toNat / 2 ^ 28
  let ps := s.arch.slotPages slot
  let e := s.arch.extent slot
  let put_ (s : State) (rec_ : List Byte) (status : Nat) : State :=
    { s with nextId := s.nextId + 1 }.emitSb (.s f.d.toNat) (.enq (a.val.toNat % 64) rec_ status s.nextId)
  finish s (
    if a.psn then mchkS s f.a
    else slotKept s slot (
      if bits a.val 6 58 ≠ 0 ∨ enqOff f % 64 ≠ 0 then .ok (put_ s [] stBadparam)
      else
      let code := s.checkExt s.myCore ps e (enqOff f) 128 64 false
      if code ≠ stOk then .ok (put_ s [] code)
      else
        let s := s.l1Sweep (s.l1Cores s.cur.ctx) (fun _ => true) false
        readingNow s ps (extBase e + (enqOff f).toNat) 128 fun s bs psn => .ok (put_ s bs (if psn then stBadparam else stOk))))

/-! ### Reports (R345, R346) -/

def noReport : TaskReport := { status := 0, exitCode := 0, rest := [] }

def Node.stageOf (nd : Node) (l : Nat) : Nat := l % nd.gx % nd.stages

/-- The bytes of a task record from 4 up, for a task that never ran. -/
def restIdle (nd : Node) (l t : Nat) : List Byte :=
  leBytes 4 l ++ leBytes 1 t ++ leBytes 1 (nd.stageOf l) ++ leBytes 2 (phaseOf nd l) ++ leBytes 52 0

/-- A failed command in a task record. -/
def failEntry (c : CmdRec) : List Byte :=
  leBytes 2 (c.status.getD 0) ++ leBytes 1 (c.slot % 8) ++ leBytes 1 c.op ++ leBytes 4 c.cycle

/-- The bytes of a task record from 4 up, for a task that ran. -/
def restRan (nd : Node) (a : Arch) (faultPc : Word) : List Byte :=
  let fails := a.cmds.filter fun c => !isSuccess (c.status.getD 0)
  let m := 0xFFFFFFFF
  leBytes 4 a.info.team ++ leBytes 1 a.info.task ++ leBytes 1 (nd.stageOf a.info.team) ++ leBytes 2 (phaseOf nd a.info.team) ++
  leBytes 4 a.fetches ++ leBytes 4 a.poisons ++ leBytes 4 (min a.cmds.length m) ++ leBytes 4 (min fails.length m) ++
  leBytes 4 (min (fails.length - 3) m) ++ leBytes 8 faultPc.toNat ++
  (((fails.take 3).flatMap failEntry) ++ leBytes 24 0).take 24

/-- A task record's 64 bytes. -/
def TaskReport.bytes (r : TaskReport) : List Byte := leBytes 2 r.status ++ leBytes 2 r.exitCode ++ r.rest

/-- Whether every task of a node has been reported. -/
def Node.allReported (nd : Node) : Bool := nd.allTasks.all fun p => nd.retired.contains (64 * p.1 + p.2)

/-- Whether every task of a node EXITED. -/
def Node.allExited (nd : Node) : Bool :=
  nd.allTasks.all fun p => (look noReport nd.reports (64 * p.1 + p.2)).status == stExited

/-- The task records written at TREC; one that fails a check is dropped (R346). (DEDUCED: log entry 77) -/
def State.writeRecords (s : State) (seq node : Nat) : State :=
  let nd := s.launchNode seq node
  let asid := (s.theLaunch seq).asid
  if nd.trec = 0 then s
  else
    nd.allTasks.foldl (fun s p =>
      let va := nd.trec + 64 * (p.1 * nd.tasks + p.2)
      if s.deviceCheck asid va 64 true = stOk then
        s.agentWrite asid va (look noReport nd.reports (64 * p.1 + p.2)).bytes []
      else s.updLaunch seq fun l => { l with lost := true }) s

/-- CARRYOUT read into the carry words when every task EXITED; a failed check is the status of every task instead (R334). (DEDUCED:
log entry 49) -/
def State.carryOut (s : State) (seq node : Nat) : State :=
  let nd := s.launchNode seq node
  let asid := (s.theLaunch seq).asid
  if nd.carryout = 0 || !nd.allExited then s
  else
    let code := s.deviceCheck asid nd.carryout 64 false
    if code = stOk then
      let r := s.agentRead asid nd.carryout 64
      r.1.updLaunch seq fun l => { l with carry := fldWords r.2.1 0 8 }
    else s.updNode seq node fun nd =>
      { nd with reports := nd.reports.map fun p => (p.1, { p.2 with status := code, exitCode := 0 }) }

/-- The sequences of a node that is not deterministic close when it completes (R320). -/
def State.closeNode (s : State) (seq node : Nat) : State :=
  { s with openSeqs := s.openSeqs.filter fun q => !(q.seq == seq && q.node == node) }

/-- The sequences of a deterministic node's phase close when it commits, and what they held out is applied, before any update of a later
phase (R320, R323). -/
def State.closePhase (s : State) (seq node phase : Nat) : State :=
  { s with openSeqs := s.openSeqs.filter fun q => !(q.det && q.seq == seq && q.node == node && q.phase == phase) }.freeHeld seq node

/-- The logged updates of some tasks of a node, each by team and index, that they never issued are skipped, each one divergence
(R326). -/
def State.skipMissing (s : State) (seq node : Nat) (ts : List (Nat × Nat)) : State :=
  let nd := s.launchNode seq node
  let mine (e : LogEntry) : Bool := e.node == node && ts.any fun p => e.team == teamKey nd p.1 && e.task == p.2
  s.updLaunch seq fun l =>
    if !l.replay then l
    else
      let out := (l.entries.filter fun p => mine p.2 && !l.skipped.contains p.1).map Prod.fst
      { l with skipped := l.skipped ++ out, diverge := out.foldl (fun d _ => bump d) l.diverge }

/-- Some tasks of a node that never ran are reported with one status (R326, R334, R345). -/
def State.failTasks (s : State) (seq node code : Nat) (ts : List (Nat × Nat)) : State :=
  (s.updNode seq node fun nd =>
    { nd with
      reports := ts.foldl (fun m p => put noReport m (64 * p.1 + p.2) { status := code, exitCode := 0, rest := restIdle nd p.1 p.2 }) nd.reports
      retired := nd.retired ++ ts.map fun p => 64 * p.1 + p.2 }).skipMissing seq node ts

/-- The tasks of a node that have not been reported. -/
def Node.unreported (nd : Node) : List (Nat × Nat) := nd.allTasks.filter fun p => !nd.retired.contains (64 * p.1 + p.2)

/-- All tasks of a node that have not been reported are, with one status; their records follow. -/
def State.failNode (s : State) (seq node code : Nat) (cancelled : Bool) : State :=
  let s := s.failTasks seq node code (s.launchNode seq node).unreported
  let s := s.updNode seq node fun nd => { nd with complete := true, cancelled := cancelled }
  (s.writeRecords seq node).closeNode seq node

/-- Nodes with a failed predecessor are cancelled, and their successors in turn (R334). -/
def State.cancelPass (s : State) (seq : Nat) : State :=
  let l := s.theLaunch seq
  if l.aborted || l.dataFail.isSome then s
  else
    (List.range l.nnodes).foldl (fun s n =>
      let nd := s.launchNode seq n
      let failed (p : Nat) : Bool := let m := s.launchNode seq p; m.complete && !m.allExited
      if !nd.complete && nd.preds.any failed then s.failNode seq n stCancelled true else s) s

/-- A message of the command endpoint (R387). -/
def endpointMsg (op tag status result : Nat) (body : List Byte) : List Byte :=
  leBytes 4 0x434D4446 ++ leBytes 2 1 ++ leBytes 2 op ++ leBytes 8 tag ++ leBytes 4 body.length ++ leBytes 2 status ++
  leBytes 2 0 ++ leBytes 8 result ++ body

/-- Whether every node of a launch is over: each of its tasks has been reported. -/
def Launch.over (l : Launch) : Bool := l.nodes.all fun n => n.2.complete

/-- The hosts that have asked for the abort of a launch are answered once every task has been reported (R348, R388). (DEDUCED: log
entry 50) -/
def State.answerAborts (s : State) (seq : Nat) : State :=
  let l := s.theLaunch seq
  if l.askers.isEmpty || !l.over then s
  else
    let s := s.updLaunch seq fun l => { l with askers := [] }
    if !s.linked then s else l.askers.foldl (fun s p => s.send 0x01 p.1 (endpointMsg 0x22 p.2 stOk 0 [])) s

/-- A node every task of which has been reported completes (R334). -/
def State.nodeDone (s : State) (seq node : Nat) : State :=
  let s := (s.carryOut seq node).writeRecords seq node
  let s := (s.updNode seq node fun nd => { nd with complete := true }).closeNode seq node
  (s.cancelPass seq).answerAborts seq

/-- A task is reported (R345): its phase may commit, its node may complete, and the frontier may advance. -/
def State.report (s : State) (i : TaskInfo) (r : TaskReport) : State :=
  let k := 64 * i.team + i.task
  let s := s.skipMissing i.seq i.node [(i.team, i.task)]
  let s := s.updNode i.seq i.node fun nd => { nd with reports := put noReport nd.reports k r, retired := nd.retired ++ [k] }
  let nd := s.launchNode i.seq i.node
  let ph := phaseOf nd i.team
  let ended := nd.det && nd.allTasks.all fun p => phaseOf nd p.1 != ph || nd.retired.contains (64 * p.1 + p.2)
  let s := if ended then s.closePhase i.seq i.node ph else s
  let s := if nd.allReported && !nd.complete then s.nodeDone i.seq i.node else s
  s.drain

/-! ### Retirement (R257, R292) -/

/-- A range's pages cut into runs: virtually and physically consecutive pages of one tier and one set of attributes (R292).
(DEDUCED: log entry 51) -/
def splitRuns : List Page → List (List Page)
  | [] => []
  | x :: rest =>
    match splitRuns rest with
    | (y :: ys) :: more =>
      let same := y.vp == x.vp + 1 && y.frame == x.frame + 1 && x.deep == y.deep && x.cls == y.cls && x.owner == y.owner &&
        x.msa == y.msa && x.w == y.w
      if same then (x :: y :: ys) :: more else [x] :: (y :: ys) :: more
    | _ => [[x]]

/-- D set in every leaf entry of every run that the task wrote (R292). (DEDUCED: log entry 51) -/
def State.dirtyRuns (s : State) (a : Arch) : State :=
  let hit (run : List Page) : Bool := run.any fun p => a.wrote.contains (p.at_, p.vp)
  let ps := a.runs.flatMap fun r => ((splitRuns r).filter hit).flatten
  { s with mem := ps.foldl (fun (m : Mem) (p : Page) => m.setByte (p.at_ + 1) (m.byte (p.at_ + 1) ||| 8)) s.mem }

/-- The bindings that a task still has are released (R297). -/
def State.releaseNames (s : State) (a : Arch) : State :=
  (a.names.foldl (fun s p => s.updName p.2 fun e => { e with count := e.count - 1 }) s).sweepNames

/-- A cluster's record that ran a context loses one task; with the last, STATE becomes 4 or 5 (R338). -/
def BindRec.reported (r : BindRec) (k : Nat) (ok : Bool) : BindRec :=
  let left := r.left.filter (· != k)
  let failed := r.failed || !ok
  { r with left := left, failed := failed, state := if left.isEmpty then (if failed then 5 else 4) else r.state }

/-- The commands of a context, in every queue of its core. -/
def Core.commandsOf (c : Core) (k : Nat) : List Cmd := (c.cq ++ c.mq ++ c.lq ++ c.mqstat).filter fun x => x.ctx == k

/-- The cores of a cluster. -/
def clusterCores (cl : Nat) : List Nat := (List.range 16).map fun j => 16 * cl + j

/-- Every L1 of a cluster writes back its dirty lines and drops all its lines (R284). -/
def State.flushCluster (s : State) (cl : Nat) : State :=
  let s := s.l1Sweep (clusterCores cl) (fun _ => true) true
  (clusterCores cl).foldl (fun s c => ((s.core c).lines.map Prod.fst).foldl (fun s l => s.mergeLine none c l []) s) s

/-- Whether some team is bound to a cluster. -/
def State.teamOn (s : State) (cl : Nat) : Bool := (s.cluster cl).slots.any fun p => p.2.state == 1 || p.2.state == 2

/-- Task `t` of a bound team, which has not started, is reported with a status and never starts (R338, R348); the L1s are flushed where it is
the last of a fused team (R284). -/
def State.failTask (s : State) (cl record t code : Nat) : State :=
  let c := s.cluster cl
  let r := look {} c.slots record
  let nd := s.launchNode r.info.seq r.info.node
  let r' := { r with toStart := r.toStart.filter (· != t) }.reported (nth 0 r.ctxs t) false
  let s := s.setCluster cl { c with slots := put {} c.slots record r' }
  let s := if r.info.fuse && !s.teamOn cl then s.flushCluster cl else s
  s.report { r.info with task := t } { status := code, exitCode := 0, rest := restIdle nd r.info.team t }

/-- Whether a context still has a submission or a kill to make: each takes place whether or not its result lands (R196, R261). -/
def Ctx.owesAct (c : Ctx) (own : Nat) : Bool :=
  c.sb.any fun e => match e.what with
    | .enq _ _ _ _ => true
    | .nkill n removed => !removed && nameSerial n == own
    | _ => false

/-- Where the records of a node's tasks go. -/
def Launch.recordRange (l : Launch) (nd : Node) : List (Nat × Nat × Nat) :=
  if nd.trec = 0 then [] else [(l.asid, nd.trec, 64 * nd.allTasks.length)]

/-- What the device itself accesses as a task is reported: the carry words and the task records, with the last task of its node (R334, R346). -/
def State.endRanges (s : State) (i : TaskInfo) : List (Nat × Nat × Nat) :=
  let l := s.theLaunch i.seq
  let nd := s.launchNode i.seq i.node
  if nd.unreported.all (· == (i.team, i.task)) then
    (if nd.carryout = 0 then [] else [(l.asid, nd.carryout, 64)]) ++ l.recordRange nd
  else []

/-- TASK_RETIRE (R257, R345): the task has ended, and everything that it started has come to an end. -/
def execTaskRetire (ctx : Nat) (s : State) : Out :=
  let s0 := s
  let c := s.ctx ctx
  match c.ending with
  | none => .next s
  | some e =>
    let s := (s.inOrder ctx).mergeOwn ctx
    let c := s.ctx ctx
    if !c.bound || s.owesLate ctx || (s.cur.open_ && s.cur.ctx == ctx) || !((s.core (coreOf ctx)).commandsOf ctx).isEmpty ||
        !(s.ownUpdates ctx).isEmpty || !c.flushes.isEmpty || !c.signals.isEmpty || c.owesAct s.part.serial then .next (if c.bound then s else s0)
    else if !(s.clears (s.endRanges c.arch.info)).2 then .next (s.clears (s.endRanges c.arch.info)).1
    else
      let a := c.arch
      let nd := s.launchNode a.info.seq a.info.node
      let s := s.l1Sweep (s.l1Cores ctx) (fun _ => true) false
      let s := (s.dirtyRuns a).setCtx ctx {}
      let s := s.releaseNames a
      let cl := clusterOf ctx
      let s := s.setCluster cl { s.cluster cl with
        slots := (s.cluster cl).slots.map fun p =>
          (p.1, if p.2.state == 2 && p.2.left.contains ctx then p.2.reported ctx (e.status == stExited) else p.2) }
      let s := if a.info.fuse && !s.teamOn cl then s.flushCluster cl else s
      .next (s.report a.info { status := e.status, exitCode := e.exitCode, rest := restRan nd a e.faultPc })

/-! ### Starting launches and nodes (R329, R330, R334) -/

/-- The order log of an earlier recording (R324, R326): entries up to the first that none was written in. -/
def parseLog : List (List Byte) → List LogEntry
  | [] => []
  | b :: rest =>
    if fld b 17 1 = 1 ∨ fld b 17 1 = 2 then
      { va := fld b 0 8, n := fld b 8 4, team := fld b 12 4 % 2 ^ 30, task := fld b 16 1 % 64, kind := fld b 17 1, node := fld b 18 2 } ::
        parseLog rest
    else []

/-- The log that a launch in replay mode names; empty where its region cannot be read. -/
def State.readLog (s : State) (l : Launch) : State × List LogEntry :=
  if !l.replay || s.deviceCheck l.asid l.logAddr l.logLen false != stOk then (s, [])
  else
    let r := s.agentRead l.asid l.logAddr l.logLen
    (r.1, parseLog (chunks 32 (l.logLen / 32) r.2.1))

/-- The data section copied to DATAVA, or the check that it failed (R330). -/
def State.placeData (s : State) (l : Launch) : State × Option Nat :=
  match s.images.find? fun i => i.asid == l.asid && i.base == l.image with
  | none => (s, none)
  | some img =>
    if l.dataVa = 0 || img.datasz = 0 then (s, none)
    else
      let src := img.base + 64 + img.codesz
      let code := s.deviceCheck l.asid l.dataVa img.datasz true
      if code ≠ stOk then (s, some code)
      else
        let r := s.agentRead l.asid src img.datasz
        (r.1.agentWrite l.asid l.dataVa r.2.1 r.2.2, none)

/-- Whether an earlier launch of the same queue has not completed. -/
def State.behindAnother (s : State) (l : Launch) : Bool :=
  s.launches.any fun p => p.2.queue == l.queue && decide (p.2.seq < l.seq) && !p.2.done

/-- What the device reads and writes as a launch starts: its log in replay mode, and where its data go. -/
def State.startRanges (s : State) (l : Launch) : List (Nat × Nat × Nat) :=
  (if l.replay then [(l.asid, l.logAddr, l.logLen)] else []) ++
  match s.images.find? fun i => i.asid == l.asid && i.base == l.image with
  | some img => if l.dataVa = 0 then [] else [(l.asid, l.dataVa, img.datasz)]
  | none => []

/-- LAUNCH_START (R329, R330). (DESIGN CHOICE: log entry 11) -/
def execLaunchStart (seq : Nat) (s : State) : Out :=
  let l := s.theLaunch seq
  if l.seq = 0 || l.started || l.done || s.behindAnother l then .next s
  else if !(s.clears (s.startRanges l)).2 then .next (s.clears (s.startRanges l)).1
  else
    let g := s.readLog l
    let d := g.1.placeData l
    let s := d.1.updLaunch seq fun l => { l with started := true, log := g.2, dataFail := d.2 }
    match d.2 with
    | none => .next s
    | some code => .next ((List.range l.nnodes).foldl (fun s n => s.failNode seq n code false) s)

/-- A node with no team bound, that a launch of higher priority with a ready node keeps back (R344). -/
def State.heldBack (s : State) (l : Launch) : Bool :=
  s.launches.any fun p => decide (l.prio < p.2.prio) && p.2.started && !p.2.done && !p.2.aborted &&
    p.2.nodes.any fun n => n.2.ready && !n.2.complete && decide (n.2.boundTeams.length < n.2.gx * n.2.gy * n.2.gz)

/-- Launches kept back at a node boundary are pre-empted (R344). -/
def State.markPreempted (s : State) : State :=
  { s with launches := s.launches.map fun p =>
      let waits := p.2.started && !p.2.done && p.2.nodes.any fun n => n.2.ready && !n.2.complete && n.2.boundTeams.isEmpty
      if waits && s.heldBack p.2 then (p.1, { p.2 with preempted := true }) else p }

/-- NODE_READY (R334). (DESIGN CHOICE: log entry 11) -/
def execNodeReady (seq node : Nat) (s : State) : Out :=
  let l := s.theLaunch seq
  let nd := s.launchNode seq node
  let met (p : Nat) : Bool := let m := s.launchNode seq p; m.complete && m.allExited
  if l.seq = 0 || !l.started || l.done || l.aborted || l.dataFail.isSome || l.nnodes ≤ node || nd.ready || nd.complete ||
      !nd.preds.all met then .next s
  else .next (s.updNode seq node fun nd => { nd with ready := true }).markPreempted

/-! ### The launch completion record (R347) -/

/-- The statuses of a launch's tasks, in order of node, then team, then task. -/
def Launch.statuses (l : Launch) : List Nat :=
  (List.range l.nnodes).flatMap fun n =>
    let nd := look {} l.nodes n
    nd.allTasks.map fun p => (look noReport nd.reports (64 * p.1 + p.2)).status

/-- STATUS of the completion record. -/
def Launch.status (l : Launch) : Nat :=
  if l.aborted then stAborted
  else match l.statuses.find? (· != stExited) with
    | some c => c
    | none => stOk

/-- The completion record's bytes. (DEDUCED: log entry 77) -/
def Launch.record_ (l : Launch) (tend : Nat) : List Byte :=
  let nds := l.nodes.map Prod.snd
  let flag (b : Bool) (i : Nat) : Nat := if b then 2 ^ i else 0
  leBytes 2 l.status ++ leBytes 2 0 ++ leBytes 1 (nds.filter fun n => n.complete && !n.cancelled && n.ran).length ++
  leBytes 1 (flag l.overflow 0 + flag l.preempted 1 + flag l.aborted 2 + flag l.lost 3) ++
  leBytes 1 (nds.filter fun n => n.cancelled).length ++ leBytes 1 0 ++ leBytes 8 l.seq ++ leBytes 8 l.statuses.length ++
  leBytes 8 (l.statuses.filter (· != stExited)).length ++ leBytes 4 l.diverge ++ leBytes 4 0 ++ leBytes 8 l.logUsed ++
  leBytes 8 tend ++ leBytes 7 0 ++ leBytes 1 1

/-- The completion of a launch: its record, and its LAUNCHDONE where CPLMSG asks it and a port carries it (R347, R384, R389). -/
def State.completeLaunch (s : State) (seq : Nat) : State :=
  let l := s.theLaunch seq
  let bs := l.record_ s.timebase
  let code := s.deviceCheck l.asid l.cpl 64 true
  let s := if code = stOk then s.agentWrite l.asid l.cpl bs [] else s
  let s := s.updLaunch seq fun l => { l with done := true }
  match l.cplmsg && s.linked, l.host with
  | true, some h => s.send 0x40 h (endpointMsg 0x40 l.tag (if code = stOk then l.status else code) 0 bs)
  | _, _ => s

/-- LAUNCH_COMPLETE (R347). -/
def execLaunchComplete (seq : Nat) (s : State) : Out :=
  let l := s.theLaunch seq
  let g := s.clears [(l.asid, l.cpl, 64)]
  .next (if l.seq = 0 || l.done || !(l.started || l.aborted) || !l.over then s
    else if g.2 then s.completeLaunch seq else g.1)

/-! ### Aborts (R348, R359) -/

/-- Tasks on contexts halt with ABORTED; `f` selects them by context and task. (DEDUCED: log entry 50) -/
def State.abortContexts (s : State) (f : Nat → Arch → Bool) : State :=
  (s.ctxs.map Prod.fst).foldl (fun s k =>
    let c := s.ctx k
    if c.bound && c.ending.isNone && f k c.arch then (s.haltCtx k stAborted 0) else s) s

/-- The tasks that a swap put aside are reported with ABORTED; `f` selects them by cluster and task. (DEDUCED: log entry 50) -/
def State.abortSaved (s : State) (f : Nat → TaskInfo → Bool) : State :=
  let mine := s.clusters.flatMap fun p => p.2.slots.flatMap fun r => (r.2.saved.map fun q => q.2.arch).filter fun a => f p.1 a.info
  let end_ (cl : Nat) (r : BindRec) : BindRec :=
    let hit (q : Nat × Ctx) : Bool := f cl q.2.arch.info
    if r.state == 3 && r.saved.any hit then
      let rest := r.saved.filter fun q => !hit q
      { r with
        saved := rest, left := rest.map fun q => nth 0 r.ctxs q.1, failed := true, state := if rest.isEmpty then 5 else 3 }
    else r
  let s := { s with clusters := s.clusters.map fun p => (p.1, { p.2 with slots := p.2.slots.map fun r => (r.1, end_ p.1 r.2) }) }
  mine.foldl (fun s a =>
    let nd := s.launchNode a.info.seq a.info.node
    let s := (s.l1Sweep (s.cores.map Prod.fst) (fun _ => true) false).dirtyRuns a
    (s.releaseNames a).report a.info { status := stAborted, exitCode := 0, rest := restRan nd a 0 }) s

/-- The tasks of bound teams that have not started are reported with ABORTED (R348); `f` selects the teams by cluster and record. -/
def State.abortUnstarted (s : State) (f : Nat → TaskInfo → Bool) : State :=
  let mine := s.clusters.flatMap fun p => (p.2.slots.filter fun r => f p.1 r.2.info).flatMap fun r => r.2.toStart.map fun t => (p.1, r.1, t)
  mine.foldl (fun s x => s.failTask x.1 x.2.1 x.2.2 stAborted) s

/-- The tasks of a node that no team has brought to a context are reported with ABORTED (R348). (DEDUCED: log entry 50) -/
def State.abortUnbound (s : State) (seq node : Nat) : State :=
  let nd := s.launchNode seq node
  if nd.complete then s
  else
    let s := s.failTasks seq node stAborted (nd.unreported.filter fun p => !nd.boundTeams.contains p.1)
    if (s.launchNode seq node).allReported then s.nodeDone seq node else s

/-- The abort of a launch (R348). (DEDUCED: log entry 50) -/
def State.abortLaunch (s : State) (seq : Nat) : State :=
  let l := s.theLaunch seq
  let s := s.updLaunch seq fun l => { l with aborted := true }
  let s := { s with updates := s.updates.filter fun (u : Update) => !(u.ordered && u.info.seq == seq && u.status == UpdStatus.waiting) }
  let s := ((s.abortContexts fun _ a => a.info.seq == seq).abortSaved fun _ i => i.seq == seq).abortUnstarted fun _ i => i.seq == seq
  let s := (List.range l.nnodes).foldl (fun s n => s.abortUnbound seq n) s
  let s := s.drain
  if l.started then s else s.completeLaunch seq

end Sys2Proof.Machine
end

