-- ==== Sys2Proof/Machine/Landing.lean ====
section
/-! DEFINITION. The landing of scoreboarded results (spec/01 R34, spec/09 R232, R252, R254, R261). -/

namespace Sys2Proof.Machine

/-- A command that waits for a register of its context takes the value that lands in it (R232). -/
def Cmd.deliver (k reg : Nat) (w : Word) (psn : Bool) (c : Cmd) : Cmd :=
  if c.ctx = k then
    { c with toks := c.toks.map fun t =>
        match t with
        | .await r => if r = reg then .have_ w psn else t
        | .have_ _ _ => t }
  else c

def Core.deliver (c : Core) (k reg : Nat) (w : Word) (psn : Bool) : Core :=
  let f := Cmd.deliver k reg w psn
  { c with cq := c.cq.map f, mq := c.mq.map f, lq := c.lq.map f, mqstat := c.mqstat.map f }

/-- A bundle that was set aside sees the result that a register was pending on at its issue (R232). -/
def Ctx.notePend (c : Ctx) (reg : Nat) : Ctx :=
  { c with aside := c.aside.map fun x => { x with pend := x.pend.filter (· != reg) } }

/-- A scalar result lands: the register takes it, and so does every command that waits for it. -/
def State.landScalar (s : State) (k reg : Nat) (v : SReg) : State :=
  let c := s.ctx k
  let s := if reg = 0 then s else s.setCtx k { c.notePend reg with arch := { c.arch with s := put {} c.arch.s reg v } }
  s.setCore (coreOf k) ((s.core (coreOf k)).deliver k reg v.val v.psn)

/-- Scoreboard entry `e` of context `k` taken off the scoreboard. -/
def State.dropSb (s : State) (k e : Nat) : State :=
  let c := s.ctx k
  s.setCtx k { c with
    sb := c.sb.eraseIdx e
    aside := c.aside.map fun x => { x with since := if e < x.since then x.since - 1 else x.since } }

/-- A scoreboard entry that a bundle which was set aside has made: it lands once the bundle has gone on to its end, since its slots
read their registers as they stood at its issue (R32, R34). -/
def Ctx.held (c : Ctx) (e : Nat) : Bool :=
  match c.aside with
  | some x => decide (x.since ≤ e)
  | none => false

/-- A landed value written, and its destination's pending bit cleared (R34). -/
def State.landIn (s : State) (k e : Nat) (dst : SbDst) (lo hi : SReg) (vec : VReg) : State :=
  let s := s.dropSb k e
  match dst with
  | .s n => s.landScalar k n lo
  | .pair n => (s.landScalar k n lo).landScalar k (n + 1) hi
  | .v n =>
    let c := s.ctx k
    s.setCtx k { c with arch := { c.arch with v := put {} c.arch.v n vec } }

def State.landWord (s : State) (k e : Nat) (dst : SbDst) (w : Word) : State := s.landIn k e dst { val := w } {} {}

/-- A word that arrives for scoreboard entry `e`: it lands at once, or when the bundle that made the entry has gone on to its end. -/
def State.arriveWord (s : State) (k e : Nat) (dst : SbDst) (w : Word) : State :=
  let c := s.ctx k
  if c.held e then s.setCtx k { c with sb := c.sb.set e { dst := dst, what := .scalar { val := w } } } else s.landWord k e dst w

/-- Whether an own earlier signal of a semaphore is still to come (R252). -/
def Ctx.owes (c : Ctx) (sem upto : Nat) : Bool := c.signals.any fun p => p.sem == sem && decide (p.born < upto)

/-- SCOREBOARD_RESULT_LAND (R34): entry `entry` of the context's scoreboard lands if what it waits for has come. `answer` and
`pages` are the home's answer for a name of another module. (DESIGN CHOICE: log entry 2; DEDUCED: log entry 20) -/
def execScoreboardResultLand (ctx entry answer pages : Nat) (s : State) : Out :=
  let c := s.ctx ctx
  match c.sb[entry]? with
  | none => .next s
  | some e =>
    if c.held entry then .next s
    else
    match e.what with
    | .scalar v => .next (s.landIn ctx entry e.dst v {} {})
    | .vector v => .next (s.landIn ctx entry e.dst {} {} v)
    | .pair lo hi psn => .next (s.landIn ctx entry e.dst { val := lo, psn := psn } { val := hi, psn := psn } {})
    | .update _ | .token _ _ | .late _ => .next s
    | .sget n upto =>
      .next (if c.owes n upto then s
        else s.landWord ctx entry e.dst (s.sem (clusterOf ctx) c.arch.info n).word)
    | .probe ps =>
      .next (if !s.probeDone c.arch ps then s
        else
          let r := c.arch.probeResult ps
          (s.setCtx ctx { c with arch := r.1 }).landWord ctx entry e.dst r.2)
    | .nres slot n =>
      let r := s.nresLand ctx slot n
      .next (r.1.landWord ctx entry e.dst r.2)
    | .nstat n =>
      if nameSerial n ≠ s.part.serial then
        match s.foreignAnswer n answer with
        | some code => .next (s.landWord ctx entry e.dst (statusWord 0 code (if code = stOk then pages else 0)))
        | none => .next s
      else
        let r := s.nstatLand ctx n
        .next (r.1.landWord ctx entry e.dst r.2)
    | .nkill n removed =>
      if nameSerial n ≠ s.part.serial then
        match s.foreignAnswer n answer with
        | some code => .next (s.landWord ctx entry e.dst (statusWord 0 code 0))
        | none => .next s
      else if removed then .next (if s.shot n then s.landWord ctx entry e.dst (statusWord 0 stOk 0) else s)
      else
        let code := s.killCheck s.part.serial c.arch.info.asid n
        if code ≠ stOk then .next (s.landWord ctx entry e.dst (statusWord 0 code 0))
        else
          let s := s.killName n none
          .next (if s.shot n then (s.landWord ctx entry e.dst (statusWord 0 stOk 0)).sweepNames
            else s.setCtx ctx { c with sb := c.sb.set entry { e with what := .nkill n true } })
    | .enq queue record status upto =>
      if ((s.ownUpdates ctx).any fun u => decide (u.id < upto)) || (c.late.any fun l => decide (l.id < upto)) then .next s
      else if status ≠ stOk then .next (s.landWord ctx entry e.dst (statusWord 0 status 0))
      else
        let g := s.clears [tableRange (qOwner (s.qcfg queue)) record]
        if !g.2 then .next g.1
        else
        let r := s.submit queue record (some c.arch.info.asid) none 0 false
        .next (r.1.landWord ctx entry e.dst (statusWord 0 r.2.1 r.2.2))

end Sys2Proof.Machine
end

