-- ==== Sys2Proof/Machine/Locators.lean ====
section
/-! DEFINITION. What the engine commands share: locators and their checks, reads and writes of the three spaces, the status word, the
signal and the token of a command that completes (spec/08 R199 to R204, spec/09 R229 to R235). -/

namespace Sys2Proof.Machine

/-! ### The queues -/

/-- The copy engine's command with number `id`. -/
def Core.copyCmd (c : Core) (id : Nat) : Option Cmd := c.cq.find? fun x => x.id == id

/-- A command of the copy engine changed. -/
def State.setCopy (s : State) (core : Nat) (c : Cmd) : State :=
  s.setCore core { s.core core with cq := (s.core core).cq.map fun x => if x.id = c.id then c else x }

/-! ### One memory, by units -/

def Mem.unit (m : Mem) (u : Nat) : Word × Bool := (BitVec.ofNat 64 (m.nat (8 * u) 8), m.mark u)

def Mem.setUnit (m : Mem) (u : Nat) (x : Word × Bool) : Mem := (m.putBytes (8 * u) (leBytes 8 x.1.toNat)).setMark u x.2

/-- Some bytes of a unit written (R172). -/
def Mem.blend (m : Mem) (u mask : Nat) (data : Word) (psn : Bool) : Mem := m.setUnit u (unitPut (m.unit u) mask data psn)

/-! ### Locators (R234) -/

/-- Whether a locator's reserved bits are zero. -/
def locClean (l : Word) : Bool := bits l 55 3 == 0 && (locSpace l == 2 || locSlot l == 0)

/-- The extent of a command's slot, as it stood when the command started (R194). -/
def Cmd.extent (c : Cmd) (slot : Nat) : BitVec 128 := look 0 c.extents slot

/-- The pages of the runs of a command's slot, as they stood when the command started (R194, R297). -/
def Cmd.slotPages (c : Cmd) (slot : Nat) : List Page := look [] c.pages slot

/-- The address of a locator in its own space: a scratchpad or cluster-store address, or a virtual address. -/
def Cmd.addr (c : Cmd) (l : Word) : Nat :=
  if locSpace l = 2 then extBase (c.extent (locSlot l)) + locOff l else locOff l

/-- The checks of R234 for `n` bytes at offset `o` from a locator. (DEDUCED: log entry 33) -/
def State.locCheck (s : State) (c : Cmd) (l : Word) (o n align : Nat) (write : Bool) : Nat :=
  match locSpace l with
  | 0 => if 2 ^ 20 < locOff l + o + n then stSpaddr else stOk
  | 1 => if 2 ^ 25 < locOff l + o + n then stBadparam else stOk
  | _ => s.checkExt c.core (c.slotPages (locSlot l)) (c.extent (locSlot l)) ((locOff l + o : Nat) : Int) n align write

/-- The first failing check of a list, each by its code. -/
def firstFail (l : List Nat) : Nat :=
  match l.find? (· != stOk) with
  | some c => c
  | none => stOk

/-- A command as an agent whose access may have made a merge (R319). -/
def Cmd.agent (c : Cmd) : Nat × Nat := (1, c.id)

/-- A command's request to a unit of a locator's space, and whether it may go on: it waits for a bank-lock window (R280), or for the
merge that it has made (R306). -/
def State.locReach (s : State) (c : Cmd) (l : Word) (u : Nat) : State × Bool :=
  match locSpace l with
  | 0 => s.askUnit c.core c.id u
  | 1 => (s, true)
  | _ => s.reach c.agent (unitOn (c.slotPages (locSlot l)) u)

/-- A unit of a locator's space read by a command. -/
def State.readLoc (s : State) (c : Cmd) (l : Word) (u : Nat) : State × (Word × Bool) :=
  match locSpace l with
  | 0 => (s, (s.core c.core).spm.unit u)
  | 1 => (s, (s.cluster (clusterOf c.ctx)).store.unit u)
  | _ => s.agentUnit c.agent c.lag (unitOn (c.slotPages (locSlot l)) u)

/-- Some bytes of a unit of a locator's space written by a command. -/
def State.writeLoc (s : State) (c : Cmd) (l : Word) (u mask : Nat) (data : Word) (psn : Bool) : State :=
  match locSpace l with
  | 0 => s.setCore c.core { s.core c.core with spm := (s.core c.core).spm.blend u mask data psn }
  | 1 =>
    let cl := clusterOf c.ctx
    s.setCluster cl { s.cluster cl with store := (s.cluster cl).store.blend u mask data psn }
  | _ =>
    let ps := c.slotPages (locSlot l)
    (s.noteWrite c.ctx ps (8 * u) 8).agentSet c.agent (unitOn ps u) mask data psn

/-- The physical runs of `n` bytes at `a` on some pages, page by page: space, first byte, length (R238, R379). -/
def memRuns (ps : List Page) (a n : Nat) : List (Nat × Nat × Nat) :=
  (pagesOf a n).map fun p =>
    let lo := max a (p * 65536)
    (2, pagePa ps lo, min (a + n) (p * 65536 + 65536) - lo)

/-- The physical runs of `n` bytes at a locator. -/
def Cmd.locRuns (c : Cmd) (l : Word) (n : Nat) : List (Nat × Nat × Nat) :=
  let a := c.addr l
  if n = 0 then []
  else if locSpace l ≠ 2 then [(locSpace l, a, n)]
  else memRuns (c.slotPages (locSlot l)) a n

/-- Whether two ranges share a physical byte. -/
def runsMeet (xs ys : List (Nat × Nat × Nat)) : Bool :=
  xs.any fun x => ys.any fun y => x.1 == y.1 && decide (x.2.1 < y.2.1 + y.2.2) && decide (y.2.1 < x.2.1 + x.2.2)

/-! ### Units that a command has read -/

/-- The key under which a command keeps unit `u` of its quad's locator `k` for chunk `g`. -/
def srcKey (g k u : Nat) : Nat := 2 ^ 64 * g + 4 * u + k

def Cmd.got (c : Cmd) (k u : Nat) : Option (Word × Bool) := look none c.src (srcKey c.chunkNo k u)

def Cmd.keep (c : Cmd) (k u : Nat) (x : Word × Bool) : Cmd := { c with src := put none c.src (srcKey c.chunkNo k u) (some x) }

/-- Whether a command has read every unit of `n` bytes at address `a` of locator `k`. -/
def Cmd.hasRange (c : Cmd) (k a n : Nat) : Bool := (unitsOf a n).all fun u => (c.got k u).isSome

/-- The bytes that a command has read at address `a` of locator `k`, and each byte's poison. -/
def Cmd.bytesAt (c : Cmd) (k a n : Nat) : List Byte × List Bool :=
  spreadUnits a n ((unitsOf a n).map fun u => (c.got k u).getD (0, false))

/-! ### Completion (R204, R229, R235) -/

/-- A command that has come to its end with a status. (DEDUCED: log entries 55 and 88) -/
def Cmd.end_ (c : Cmd) (status result written : Nat) : Cmd :=
  { c with started := true, running := false, finished := true, status := status, result := result, written := written }

/-- The task's record of a command takes its status (R346). -/
def Arch.noteStatus (a : Arch) (id status : Nat) : Arch :=
  { a with cmds := a.cmds.map fun r => if r.id = id then { r with status := some status } else r }

/-- A command's token lands: it leaves its queue, and the task keeps its status (R229, R231). -/
def State.landToken (s : State) (c : Cmd) : State :=
  let out (l : List Cmd) : List Cmd := l.filter fun x => x.id != c.id
  let co := s.core c.core
  let s := s.setCore c.core { co with cq := out co.cq, mq := out co.mq, lq := out co.lq, mqstat := out co.mqstat }
  let x := s.ctx c.ctx
  let s := s.setCtx c.ctx { x with arch := x.arch.noteStatus c.id c.status }
  let w := statusWord c.flags c.status c.result
  match (s.ctx c.ctx).sb.findIdx? fun e => match e.what with | .token _ id => id == c.id | _ => false with
  | some j => s.arriveWord c.ctx j (.s c.d) w
  | none => s

/-- The completion signal: the bytes written, or one (R204, R235). -/
def State.cmdSignal (s : State) (c : Cmd) : State :=
  if c.sigen then s.signal (clusterOf c.ctx) c.info c.sem (if c.bytes then (c.written : Int) else 1) else s

/-- The writes of a finished command are performed at its scope, it signals, and then its token lands (R204, R235). -/
def State.complete (s : State) (c : Cmd) : State := ((s.showWrites c.id).cmdSignal c).landToken c

/-- Whether a core's engines stand still in an ECC freeze (R289). -/
def State.still (s : State) (core : Nat) : Bool := (s.core core).frozen != 0

/-- What a command takes from its context as it starts: its extents as they are bound then (R194, R234). -/
def State.begin_ (s : State) (c : Cmd) (lag : List (Nat × Nat)) : Cmd :=
  let a := (s.ctx c.ctx).arch
  { c with started := true, running := true, extents := a.extents, pages := a.ePages, lag := lag }

end Sys2Proof.Machine
end

