-- ==== Sys2Proof/Machine/Matrix.lean ====
section
/-! DEFINITION. The matrix queue as its engine serves it: which command starts (R200), which routine runs (R201), WBLD, WBCLR, ACCZ and
MQSTAT (R209 to R212), the tile routines (R215 to R222, R225 to R227), and completion (R204). -/

namespace Sys2Proof.Machine

/-! ### The queue -/

def Core.matrixCmd (c : Core) (id : Nat) : Option Cmd := (c.mq ++ c.mqstat).find? fun x => x.id == id

/-- A command of the matrix queue changed. -/
def State.setMatrix (s : State) (core : Nat) (c : Cmd) : State :=
  let f (x : Cmd) : Cmd := if x.id = c.id then c else x
  s.setCore core { s.core core with mq := (s.core core).mq.map f, mqstat := (s.core core).mqstat.map f }

/-- The matrix parameter register `i` as MCALL copied it. -/
def Cmd.m (c : Cmd) (i : Nat) : Word := nth 0 c.mp i

/-- One quad register of WBLD or ACCZ. -/
def Cmd.w (c : Cmd) (i : Nat) : Word := nth 0 c.quad i

/-- The bytes of `k` elements of a row, or of the packets that hold them (R217). -/
def rowBytes (fmt k : Nat) : Nat := if fmtPacket.contains fmt then 64 * ((k + 95) / 96) else k * fmtBytes fmt

abbrev wbSize : Nat := 0x40000

/-! ### Tiles (R198, R215, R221) -/

/-- A tile routine's parameters: formats, extents, first bank, and where A rows and stored B columns lie. -/
structure Tile where
  af : Nat
  bf : Nat
  m : Nat
  n : Nat
  k : Nat
  accb : Nat
  abase : Nat
  astr : Nat
  bbase : Nat
  bstr : Nat
  layout : Nat
  coop : Bool
  trans : Bool
  deriving DecidableEq, Repr

def Cmd.tile (c : Cmd) : Tile :=
  let m0 := c.m 0
  let m1 := c.m 1
  let coop := c.routine == 4
  let pos := bits (c.m 5) 8 4
  let as_ := if coop then bits (c.m 3) 25 25 else bits m0 20 20
  let bs := if coop then bits (c.m 4) 25 25 else bits (c.m 2) 18 18
  { af := bits m0 40 8, bf := bits m0 48 8, m := bits m1 0 8 + 1, n := bits m1 8 8 + 1, k := bits m1 16 20, accb := bits m1 36 3
    abase := if coop then bits (c.m 3) 0 25 + 128 * (pos / 4) * as_ else bits m0 0 20
    astr := as_
    bbase := if coop then bits (c.m 4) 0 25 + 128 * (pos % 4) * bs else bits (c.m 2) 0 18
    bstr := bs, layout := if coop then 0 else bits (c.m 2) 36 2, coop := coop, trans := c.routine == 3 }

/-- The accepted B formats of an A format (R216). -/
def pairFormats (layout af : Nat) : List Nat :=
  if layout = 0 then
    match af with
    | 0x03 => [0x03, 0x07, 0x08]
    | 0x04 => [0x04, 0x07, 0x08]
    | 0x05 | 0x06 => [0x05, 0x06, 0x07, 0x08]
    | 0x07 => [0x07]
    | 0x08 => [0x08]
    | 0x02 => [0x02]
    | 0x01 => [0x01]
    | 0x10 | 0x14 => [0x10, 0x14]
    | _ => []
  else
    match af with
    | 0x03 => [0x03]
    | 0x04 => [0x04]
    | 0x05 | 0x06 => [0x05, 0x06]
    | _ => []

/-- The k-step of an A format (R216). -/
def kStep (af : Nat) : Nat :=
  match af with
  | 0x05 | 0x06 | 0x10 | 0x14 => 128
  | 0x07 | 0x08 => 256
  | 0x01 => 8
  | _ => 64

/-- The products of one group (R64, R66). -/
def groupLen (af : Nat) : Nat :=
  match af with
  | 0x07 => 8
  | 0x08 => 32
  | 0x01 => 8
  | _ => 64

/-- The format of an accumulator element (R198). -/
def accFmt (af : Nat) : Nat := if af = fFp64 then fFp64 else if af = fInt8 ∨ af = fUint8 then fInt32 else fFp32

/-- Elements in a row of a bank. -/
def accPer (kind : Nat) : Nat := if kind = fFp64 then 32 else 64

/-- The rows and columns of the stored 2:4 matrix S (R217). -/
def Tile.u (t : Tile) : Nat := if t.trans then t.n else t.k
def Tile.w (t : Tile) : Nat := if t.trans then t.k else t.n

/-- The offset of the masks from the values of S: T of R217. -/
def Tile.maskOff (t : Tile) : Nat := 64 * ((8 * fmtBytes t.bf * (t.u * t.w / 16) + 63) / 64)

/-- The bytes of the weight buffer from B's first to its last (R219). -/
def Tile.bBytes (t : Tile) : Nat :=
  if t.layout = 0 then (t.n - 1) * t.bstr + rowBytes t.bf t.k else t.maskOff + 2 * (t.u * t.w / 16)

/-- The bank count of a tile (R198). -/
def Tile.banks (t : Tile) : Nat := (t.n + accPer (accFmt t.af) - 1) / accPer (accFmt t.af)

def mult64 (x : Nat) : Bool := x % 64 == 0

/-- BADPARAM of MMA, MMA.NM and MMA.NMT (R219). -/
def Cmd.mmaBad (c : Cmd) : Bool :=
  let t := c.tile
  bits (c.m 0) 56 8 != 0 || bits (c.m 1) 39 25 != 0 || bits (c.m 2) 38 26 != 0 || !(pairFormats t.layout t.af).contains t.bf ||
  decide (1 < t.layout) || (t.layout == 1) == (c.routine == 1) || decide (128 < t.m) || decide (128 < t.n) || t.k == 0 ||
  !mult64 t.abase || !mult64 t.astr || !mult64 t.bbase || !mult64 t.bstr || decide (8 < t.accb + t.banks) ||
  decide (2 ^ 20 < t.abase + (t.m - 1) * t.astr + rowBytes t.af t.k) || decide (wbSize < t.bbase + t.bBytes) ||
  (t.layout == 1 && (t.u % 4 != 0 || t.w % 4 != 0 || t.bstr != 0))

/-- BADPARAM of MMA.COOP (R221, R222): the whole panels are judged. (DEDUCED: log entry 59) -/
def Cmd.coopBad (c : Cmd) : Bool :=
  let t := c.tile
  let ap := bits (c.m 3) 0 25
  let bp := bits (c.m 4) 0 25
  bits (c.m 0) 56 8 != 0 || bits (c.m 0) 0 40 != 0 || bits (c.m 1) 39 25 != 0 || bits (c.m 3) 50 14 != 0 ||
  bits (c.m 4) 50 14 != 0 || bits (c.m 5) 12 52 != 0 || !(pairFormats 0 t.af).contains t.bf ||
  t.m != 128 || t.n != 128 || t.k == 0 || !mult64 ap || !mult64 t.astr || !mult64 t.bstr || decide (8 < t.accb + t.banks) ||
  decide (2 ^ 25 < ap + 511 * t.astr + rowBytes t.af t.k) || decide (2 ^ 25 < bp + 511 * t.bstr + rowBytes t.bf t.k)

/-! ### Weight-buffer hazards (R200) -/

/-- The region of the weight buffer that a command names: its first byte, its length, and whether it writes. -/
def Cmd.region (c : Cmd) : Nat × Nat × Bool :=
  match c.op with
  | 3 => if 1 ≤ c.routine ∧ c.routine ≤ 3 then (c.tile.bbase, c.tile.bBytes, false) else (0, 0, false)
  | 4 => ((c.w 1).toNat, (c.w 2).toNat, true)
  | 5 => (0, wbSize, true)
  | _ => (0, 0, false)

/-- Whether two commands may not run at once: a common bank, or overlapping regions of which one is written. -/
def Cmd.conflicts (c e : Cmd) : Bool :=
  let a := c.region
  let b := e.region
  c.banks.any (e.banks.contains ·) ||
  ((a.2.2 || b.2.2) && decide (a.1 < b.1 + b.2.1) && decide (b.1 < a.1 + a.2.1))

/-- Whether every command issued earlier that a command must wait for has completed (R200). -/
def Core.clearFor (co : Core) (c : Cmd) : Bool := co.mq.all fun e => decide (c.id ≤ e.id) || !c.conflicts e

/-! ### The routine that runs (R201) -/

/-- The effective priority of a routine. -/
def State.effPrio (s : State) (c : Cmd) : Nat := min 3 (c.prio + (s.time - c.born) / 4096)

/-- Whether a routine waits for the engine: suspended, or free to start. (DEDUCED: log entry 60) -/
def Core.readyRoutine (co : Core) (c : Cmd) : Bool :=
  c.op == 3 && !c.finished && !c.running && (c.started || (c.ready && c.good && !c.lacks && co.clearFor c))

/-- The routine of highest effective priority; of equals the one issued first. -/
def State.bestOf (s : State) : List Cmd → Option Cmd
  | [] => none
  | c :: r =>
    match s.bestOf r with
    | none => some c
    | some b => if s.effPrio b ≤ s.effPrio c then some c else some b

/-- Whether a ready routine overtakes the running one at a boundary. (DEDUCED: log entry 60) -/
def State.overtakes (s : State) (co : Core) (run c : Cmd) : Bool :=
  decide (s.effPrio run < s.effPrio c) &&
  co.mq.all fun e => e.id == c.id || e.op != 3 || !e.started || e.finished || !(c.banks.any (e.banks.contains ·))

/-- The routine that runs: WBLD does not use the array, and is none (R201, R212). -/
def Core.running (co : Core) : Option Cmd := co.mq.find? fun e => e.op == 3 && e.running

/-- The routine that the engine takes next, at a boundary of the running one or when it is idle. The engine reaches its first
boundary with its first step; while a group's or a block's writes are under way (phase 1), or a pass, it is at none. (DEDUCED: log
entry 60) -/
def State.nextRoutine (s : State) (core : Nat) : Option Cmd :=
  let co := s.core core
  let cand := co.mq.filter co.readyRoutine
  match co.running with
  | none => s.bestOf cand
  | some run => if run.progress = 0 ∨ run.phase ≠ 0 ∨ run.point ≠ 0 then none else s.bestOf (cand.filter (s.overtakes co run))

/-- The engine takes a routine; the one that ran is suspended. -/
def State.takeRoutine (s : State) (core : Nat) (c : Cmd) : State :=
  let co := s.core core
  (s.setCore core { co with mq := co.mq.map fun e => if e.op = 3 then { e with running := false } else e }).setMatrix core { c with running := true }

/-- A command that its failed token cancels: it owns nothing further (R200). (DEDUCED: log entry 60) -/
def Cmd.cancel (c : Cmd) : Cmd := { c.end_ stCancelled 0 0 with banks := [] }

/-- One move of routine `routine`'s command `id`: it is cancelled, it starts, it is taken up again, or it goes on to its next boundary. -/
def State.runRoutine (s : State) (routine core id : Nat) (start : State → Cmd → State × Cmd) (advance : State → Cmd → State × Cmd) :
    State :=
  match (s.core core).mq.find? fun x => x.id == id with
  | none => s
  | some c =>
    let taken := s.nextRoutine core
    if c.op ≠ 3 ∨ c.routine ≠ routine ∨ s.still core ∨ c.finished then s
    else if !c.started && !c.ready then s
    else if !c.started && !c.good then s.setMatrix core c.cancel
    else if !c.started && c.lacks then s.setMatrix core (c.end_ stNoroutine 0 0)
    else if c.running then
      if taken.isSome then s
      else
        let r := advance s c
        r.1.setMatrix core r.2
    else if taken ≠ some c then s
    else if c.started then s.takeRoutine core c
    else
      let r := start (s.claimBanks c) c
      if r.2.finished then r.1.setMatrix core r.2 else r.1.takeRoutine core r.2

/-- A routine that starts once its parameters have been checked (R202). -/
def startWith (bad : Cmd → Bool) (s : State) (c : Cmd) : State × Cmd :=
  (s, if bad c then c.end_ stBadparam 0 0 else s.begin_ c [])

/-! ### Reading operands -/

/-- A locator of the scratchpad or of the cluster store. -/
def spaceLoc (space : Nat) : Word := BitVec.ofNat 64 (space * 2 ^ 62)

/-- Whether a command has read some units. -/
def Cmd.pulled (c : Cmd) (k : Nat) (us : List Nat) : Bool := us.all fun u => (c.got k u).isSome

/-- Units of a locator's space read by a command as far as they can be reached, each once: the first reading stands (R9, R204). -/
def State.pull (s : State) (c : Cmd) (l : Word) (k : Nat) (us : List Nat) : State × Cmd :=
  us.foldl (fun (r : State × Cmd) u =>
    if (r.2.got k u).isSome then r
    else
      let g := r.1.locReach r.2 l u
      if !g.2 then (g.1, r.2)
      else
        let x := g.1.readLoc r.2 l u
        (x.1, r.2.keep k u x.2)) (s, c)

/-- Whether any of the units read is poisoned. -/
def Cmd.pulledPoison (c : Cmd) (k : Nat) (us : List Nat) : Bool := us.any fun u => ((c.got k u).getD (0, false)).2

/-- The units that hold elements `k0` to `k1 - 1` of a row at `base` (R53, R57, R217). -/
def elemUnits (fmt base k0 k1 : Nat) : List Nat :=
  if k1 ≤ k0 then []
  else if fmtPacket.contains fmt then
    let b := blockLen fmt
    (List.range ((k1 - 1) / 96 - k0 / 96 + 1)).flatMap fun j =>
      let p := k0 / 96 + j
      let at_ := base + 64 * p
      let lo := max k0 (96 * p) - 96 * p
      let hi := min k1 (96 * p + 96) - 1 - 96 * p
      unitsOf (at_ + lo / 2) (hi / 2 - lo / 2 + 1) ++ unitsOf (at_ + 48 + lo / b) (hi / b - lo / b + 1) ++
        (if fmt = fB8fp4 then unitsOf (at_ + 60) 2 else [])
  else unitsOf (base + k0 * fmtBytes fmt) ((k1 - k0) * fmtBytes fmt)

/-- Elements `k0` to `k1 - 1` of a row at `base`, exactly (R218). -/
def rowElems (fmt base k0 k1 : Nat) (get : Nat → Nat → List Byte) : List Fp :=
  (List.range (k1 - k0)).map fun t =>
    let k := k0 + t
    if fmtPacket.contains fmt then packetDecode fmt (leNat (get (base + 64 * (k / 96)) 64)) (k % 96)
    else numDecode fmt (leNat (get (base + k * fmtBytes fmt) (fmtBytes fmt)))

/-! ### Accumulation (R64 to R66) -/

/-- An element that a 2:4 mask omits takes part as a +0 product, whatever the element of A (R218): the pair of such a product. -/
def operandPair (a : Fp) (b : Option Fp) : Fp × Fp :=
  match b with
  | some x => (a, x)
  | none => (.zero false, .zero false)

/-- gsum of a group of operand pairs (R65). (DEDUCED: log entries 58 and 90) -/
def groupSum (ps : List (Fp × Fp)) : Fp :=
  if ps.any fun p => p.1.isNan || p.2.isNan || zeroTimesInf p.1 p.2 then .nan false 0
  else
    let q := ps.map fun p => fpMul p.1 p.2
    if q.contains (.inf true) && q.contains (.inf false) then .nan false 0
    else
      match q with
      | [] => .zero false
      | x :: r => r.foldl (fpAdd false) x

/-- An exact whole number as an integer. -/
def Fp.toWhole : Fp → Int
  | .fin neg m e _ => signedAt neg m e 0
  | _ => 0

/-- One exact sum added to an accumulator element: the new element and the flags of the rounding (R64 to R66). (DEDUCED: log entry
58) -/
def accAdd (kind acc : Nat) (x : Fp) : Nat × Nat :=
  if kind = fInt32 then (ofSigned 32 (toSigned 32 acc + x.toWhole), 0)
  else
    let f := fpOf kind
    let a := fpDecode f acc
    if a.isNan || x.isNan then (f.qnan, 0)
    else
      match a, x with
      | .inf n, .inf k => if n == k then (f.infBits n, 0) else invalidRes f
      | _, _ => fpRound f rne (fpAdd false a x)

/-- The groups of a k-step added in order. -/
def accGroups (kind : Nat) : List (List (Fp × Fp)) → Nat × Nat → Nat × Nat
  | [], r => r
  | g :: t, r =>
    let x := accAdd kind r.1 (groupSum g)
    accGroups kind t (x.1, r.2 ||| x.2)

/-- Elements of a row of a bank after a k-step: `cols` are the operand pairs of its tile columns; the other elements stay. -/
def accCols (kind grp : Nat) (olds : List Nat) (cols : List (List (Fp × Fp))) : List (Nat × Nat) :=
  (List.range olds.length).map fun e =>
    match cols[e]? with
    | some ps => accGroups kind (chunks grp ps.length ps) (nth 0 olds e, 0)
    | none => (nth 0 olds e, 0)

/-- One row of the tile after a k-step. (DEDUCED: log entry 57) -/
def Core.addRow (co : Core) (t : Tile) (i : Nat) (a : List Fp) (bs : List (List (Option Fp))) (psn : Bool) : Core × Nat × Bool :=
  let kind := accFmt t.af
  let per := accPer kind
  (List.range t.banks).foldl (fun (r : Core × Nat × Bool) q =>
    let key := (t.accb + q) * 128 + i
    let old := look {} r.1.acc key
    let xs := accCols kind (groupLen t.af) (elems old.bits (fmtWidth kind)) (((bs.drop (q * per)).take per).map fun b => a.zipWith operandPair b)
    ({ r.1 with acc := put {} r.1.acc key { bits := packVec (fmtWidth kind) (xs.map Prod.fst), psn := old.psn || psn } },
     xs.foldl (fun fl x => fl ||| x.2) r.2.1, r.2.2 || old.psn)) (co, 0, false)

/-! ### The MMA family (R217, R218) -/

/-- The k range of step `n`. -/
def Tile.stepLo (t : Tile) (n : Nat) : Nat := n * kStep t.af
def Tile.stepHi (t : Tile) (n : Nat) : Nat := min t.k ((n + 1) * kStep t.af)

/-- The blocks of S that cover a range of k, by number. -/
def Tile.blocks (t : Tile) (k0 k1 : Nat) : List Nat :=
  let ks := (List.range ((k1 + 3) / 4 - k0 / 4)).map (k0 / 4 + ·)
  if t.trans then (List.range (t.u / 4)).flatMap fun ub => ks.map fun wb => ub * (t.w / 4) + wb
  else ks.flatMap fun ub => (List.range (t.w / 4)).map fun wb => ub * (t.w / 4) + wb

/-- The mask of block `n`. -/
def Tile.mask (t : Tile) (wb : Mem) (n : Nat) : Nat := leNat (wb.bytes (t.bbase + t.maskOff + 2 * n) 2)

/-- A mask whose rows and columns hold two ones each (R217). -/
def maskValid (m : Nat) : Bool :=
  (List.range 4).all fun r =>
    onesCount 4 (m / 2 ^ (4 * r)) == 2 && ((List.range 4).filter fun q => m.testBit (4 * q + r)).length == 2

/-- Element (r, c) of S; none where the mask omits it. (DEDUCED: log entry 90) -/
def Tile.sparse (t : Tile) (wb : Mem) (r c : Nat) : Option Fp :=
  let n := r / 4 * (t.w / 4) + c / 4
  let m := t.mask wb n
  let i := 4 * (r % 4) + c % 4
  let z := fmtBytes t.bf
  if m.testBit i then some (numDecode t.bf (leNat (wb.bytes (t.bbase + 8 * z * n + z * onesCount i m) z))) else none

/-- Column `j` of B over a range of k, and whether a unit that it reads of the weight buffer is marked. -/
def Tile.column (t : Tile) (wb : Mem) (k0 k1 j : Nat) : List (Option Fp) × Bool :=
  if t.layout = 0 then
    let b := t.bbase + j * t.bstr
    ((rowElems t.bf b k0 k1 wb.bytes).map some, (elemUnits t.bf b k0 k1).any wb.mark)
  else
    ((List.range (k1 - k0)).map fun q => if t.trans then t.sparse wb j (k0 + q) else t.sparse wb (k0 + q) j, false)

/-- Whether a k-step reads a marked unit of S. -/
def Tile.sparsePoison (t : Tile) (wb : Mem) (k0 k1 : Nat) : Bool :=
  let z := fmtBytes t.bf
  t.layout == 1 && (t.blocks k0 k1).any fun n =>
    wb.poisoned (t.bbase + 8 * z * n) (8 * z) || wb.poisoned (t.bbase + t.maskOff + 2 * n) 2

/-- The units of A, and for MMA.COOP of B, that a k-step reads. -/
def Tile.aUnits (t : Tile) (k0 k1 : Nat) : List Nat :=
  ((List.range t.m).flatMap fun i => elemUnits t.af (t.abase + i * t.astr) k0 k1) ++
  (if t.coop then (List.range t.n).flatMap fun j => elemUnits t.bf (t.bbase + j * t.bstr) k0 k1 else [])

/-- The result of a routine that has come to its end (R202): steps and flags. -/
def Cmd.routineEnd (c : Cmd) (status : Nat) : Cmd := c.end_ status (min c.progress 0xFFFF * 65536 + c.conds % 32) 0

/-- A routine at its end: POISONED where it has met a mark (R203). (DEDUCED: log entry 57) -/
def Cmd.goodEnd (c : Cmd) : Cmd := c.routineEnd (if c.psn || c.blockPsn then stPoisoned else stOk)

/-- One k-step of the tile, its operands read. `c.psn` says that a marked operand unit has been read, `c.blockPsn` that a marked
accumulator row has. (DEDUCED: log entry 57) -/
def State.tileStep (s : State) (c : Cmd) (t : Tile) (k0 k1 : Nat) : State × Cmd :=
  let co := s.core c.core
  let got (a n : Nat) : List Byte := (c.bytesAt 0 a n).1
  let cols : List (List (Option Fp) × Bool) := (List.range t.n).map fun j =>
    if t.coop then ((rowElems t.bf (t.bbase + j * t.bstr) k0 k1 got).map some, false) else t.column co.wb k0 k1 j
  let psn := c.psn || c.pulledPoison 0 (t.aUnits k0 k1) || cols.any Prod.snd || t.sparsePoison co.wb k0 k1
  let r := (List.range t.m).foldl (fun (r : Core × Nat × Bool) i =>
    let x := r.1.addRow t i (rowElems t.af (t.abase + i * t.astr) k0 k1 got) (cols.map Prod.fst) psn
    (x.1, r.2.1 ||| x.2.1, r.2.2 || x.2.2)) (co, 0, false)
  (s.setCore c.core r.1,
   { c with psn := psn, blockPsn := c.blockPsn || r.2.2, conds := c.conds ||| r.2.1, progress := c.progress + 1 })

/-- A tile routine reads the units given, and with `go` performs its next k-step: an invalid mask stops it there (R218). -/
def tileAdvance (reads : List Nat) (go : Bool) (s : State) (c : Cmd) : State × Cmd :=
  let t := c.tile
  let l := spaceLoc (if t.coop then 1 else 0)
  let k0 := t.stepLo c.progress
  let k1 := t.stepHi c.progress
  let r := s.pull c l 0 (reads.filter fun u => decide (u < 2 ^ (if t.coop then 22 else 17)))
  let us := t.aUnits k0 k1
  let wb := (s.core c.core).wb
  let r := if go then r.1.pull r.2 l 0 us else r
  if !go || !r.2.pulled 0 us then r
  else if t.layout = 1 ∧ (t.blocks k0 k1).any (fun n => !maskValid (t.mask wb n)) then (r.1, r.2.routineEnd stBadmask)
  else
    let r := r.1.tileStep r.2 t k0 k1
    (r.1, if t.k ≤ k1 then r.2.goodEnd else r.2)

/-- MMA (R215 to R219). -/
def execMma (core id : Nat) (reads : List Nat) (go : Bool) (s : State) : Out :=
  .next (s.runRoutine 1 core id (startWith Cmd.mmaBad) (tileAdvance reads go))

/-- MMA.NM: B = S. -/
def execMmaNm (core id : Nat) (reads : List Nat) (go : Bool) (s : State) : Out :=
  .next (s.runRoutine 2 core id (startWith Cmd.mmaBad) (tileAdvance reads go))

/-- MMA.NMT: B = Sᵀ. -/
def execMmaNmt (core id : Nat) (reads : List Nat) (go : Bool) (s : State) : Out :=
  .next (s.runRoutine 3 core id (startWith Cmd.mmaBad) (tileAdvance reads go))

/-- MMA.COOP (R221, R222). -/
def execMmaCoop (core id : Nat) (reads : List Nat) (go : Bool) (s : State) : Out :=
  .next (s.runRoutine 4 core id (startWith Cmd.coopBad) (tileAdvance reads go))

/-! ### ACC.EXPORT and ACC.SCALE (R225 to R227) -/

/-- The accumulator format that AKIND names. -/
def akindFmt (k : Nat) : Nat := match k with | 0 => fFp32 | 1 => fFp64 | _ => fInt32

def Cmd.akind (c : Cmd) : Nat := bits (c.m 1) 21 2
def Cmd.accb (c : Cmd) : Nat := bits (c.m 1) 16 3
def Cmd.tm (c : Cmd) : Nat := bits (c.m 1) 0 8 + 1
def Cmd.tn (c : Cmd) : Nat := bits (c.m 1) 8 8 + 1
def Cmd.tbanks (c : Cmd) : Nat := (c.tn + accPer (akindFmt c.akind) - 1) / accPer (akindFmt c.akind)
def Cmd.dfmt (c : Cmd) : Nat := bits (c.m 0) 40 8
def Cmd.daddr (c : Cmd) : Nat := bits (c.m 0) 0 20
def Cmd.dstride (c : Cmd) : Nat := bits (c.m 0) 20 20
def Cmd.expRm (c : Cmd) : Nat := bits (c.m 0) 48 4

/-- What both routines refuse. (DEDUCED: log entry 61) -/
def Cmd.tileBad (c : Cmd) : Bool :=
  bits (c.m 1) 48 16 != 0 || bits (c.m 1) 24 8 != 0 || bits (c.m 1) 19 2 != 0 || c.akind == 3 || decide (128 < c.tm) ||
  decide (128 < c.tn) || decide (8 < c.accb + c.tbanks)

def exportFormats (akind : Nat) : List Nat :=
  match akind with
  | 0 => [0x01, 0x02, 0x03, 0x04, 0x05, 0x06, 0x07, 0x08]
  | 1 => [0x01, 0x02, 0x03, 0x04]
  | _ => [0x10, 0x11, 0x12, 0x02]

/-- What ACC.EXPORT refuses (R225, R226). (DEDUCED: log entry 61) -/
def Cmd.exportBad (c : Cmd) : Bool :=
  c.tileBad || bits (c.m 0) 52 12 != 0 || decide (4 < c.expRm) || !(exportFormats c.akind).contains c.dfmt ||
  !mult64 c.dstride || !mult64 c.daddr || decide (2 ^ 20 < c.daddr + (c.tm - 1) * c.dstride + rowBytes c.dfmt c.tn)

def Cmd.scaleCols (c : Cmd) : Bool := bit (c.m 0) 52
def Cmd.vaddr (c : Cmd) : Nat := bits (c.m 0) 32 20

/-- What ACC.SCALE refuses (R225, R227). (DEDUCED: log entry 61) -/
def Cmd.scaleBad (c : Cmd) : Bool :=
  c.tileBad || bits (c.m 0) 53 11 != 0 || c.akind == 2 || !mult64 c.vaddr ||
  (c.scaleCols && decide (2 ^ 20 < c.vaddr + 4 * c.tn))

/-- The elements of row `i` of a tile, and the mark of the row in each of its banks. -/
def Core.tileRow (co : Core) (c : Cmd) (i : Nat) : List Nat × List Bool :=
  let rows := (List.range c.tbanks).map fun q => look {} co.acc ((c.accb + q) * 128 + i)
  ((rows.flatMap fun r => elems r.bits (fmtWidth (akindFmt c.akind))).take c.tn, rows.map AccRow.psn)

/-- The bank, counted from the tile's first, that byte `j` of an exported row comes from: its element's, or for a byte of a packet that
of its block; none for padding, a packet's band scale and its reserved bytes. -/
def Cmd.srcBank (c : Cmd) (j : Nat) : Option Nat :=
  let k := blockLen c.dfmt
  let o := j % 64
  let b := if o < 48 then o / (k / 2) else o - 48
  let e := if fmtPacket.contains c.dfmt then (if b < 96 / k then 96 * (j / 64) + k * b else c.tn) else j / fmtBytes c.dfmt
  if e < c.tn then some (e / accPer (akindFmt c.akind)) else none

/-- Whether a unit written of a row at `base` holds a byte that comes from a marked bank row (R226). -/
def Cmd.unitMarked (c : Cmd) (marks : List Bool) (base n u : Nat) : Bool :=
  (List.range 8).any fun j =>
    decide (base ≤ 8 * u + j) && decide (8 * u + j < base + n) &&
    (match c.srcBank (8 * u + j - base) with | some q => nth false marks q | none => false)

/-- The bytes that ACC.EXPORT writes for a row of elements, and the flags of their conversions (R226). -/
def Cmd.exportRow (c : Cmd) (xs : List Nat) : List Byte × Nat :=
  let src := akindFmt c.akind
  if fmtPacket.contains c.dfmt then
    let ps := (chunks 96 xs.length (xs.map (fpDecode (fpOf src)))).map (packetOf c.dfmt (bits (c.m 1) 32 16) c.expRm)
    (ps.flatMap fun p => leBytes 64 p.1, ps.foldl (fun fl p => fl ||| p.2) 0)
  else
    let ys := xs.map (convert c.dfmt src { mode := c.expRm })
    (ys.flatMap fun y => leBytes (fmtBytes c.dfmt) y.1, ys.foldl (fun fl y => fl ||| y.2) 0)

/-- The rows of group `g`. -/
def Cmd.groupRows (c : Cmd) (g : Nat) : List Nat := (List.range c.tm).filter fun i => i / 8 == g

/-- Where ACC.EXPORT writes row `i`. -/
def Cmd.rowAt (c : Cmd) (i : Nat) : Nat := c.daddr + i * c.dstride

/-- A unit of a row still to be written: the row and the unit. -/
def exportKey (i u : Nat) : Nat := i * 2 ^ 17 + u

/-- ACC.EXPORT writes one unit, the rows of the group in order. -/
def exportWrite (r : State × Cmd) (key : Nat) : State × Cmd :=
  let s := r.1
  let c := r.2
  let u := key % 2 ^ 17
  let i := key / 2 ^ 17
  let g := s.locReach c (spaceLoc 0) u
  if (c.todo.find? fun k => k % 2 ^ 17 == u) ≠ some key then r
  else if !g.2 then (g.1, c)
  else
    let s := g.1
    let row := (s.core c.core).tileRow c i
    let bs := (c.exportRow row.1).1
    let p := unitPart u (c.rowAt i) bs
    (s.writeLoc c (spaceLoc 0) u p.1 p.2 (c.unitMarked row.2 (c.rowAt i) bs.length u), { c with todo := c.todo.erase key })

/-- A group of rows enters the work of ACC.EXPORT. -/
def Cmd.openGroup (c : Cmd) (co : Core) : Cmd :=
  let rows := c.groupRows c.progress
  { c with
    phase := 1
    todo := rows.flatMap fun i => (unitsOf (c.rowAt i) (rowBytes c.dfmt c.tn)).map (exportKey i)
    conds := rows.foldl (fun fl i => fl ||| (c.exportRow (co.tileRow c i).1).2) c.conds
    blockPsn := c.blockPsn || rows.any fun i => (co.tileRow c i).2.contains true }

/-- CLR: the tile's banks are zeroed and their marks cleared. -/
def Core.clearBanks (co : Core) (banks : List Nat) : Core :=
  { co with acc := co.acc.filter fun e => !banks.contains (e.1 / 128) }

/-- ACC.EXPORT writes the units given of its group of eight rows, and with `go` all the rest. -/
def exportAdvance (units : List Nat) (go : Bool) (s : State) (c : Cmd) : State × Cmd :=
  let c := if c.phase = 0 then c.openGroup (s.core c.core) else c
  let r := units.foldl exportWrite (s, c)
  let r := if go then r.2.todo.foldl exportWrite r else r
  if !r.2.todo.isEmpty then r
  else
    let c : Cmd := { r.2 with phase := 0, progress := r.2.progress + 1 }
    if 8 * c.progress < c.tm then (r.1, c)
    else
      let co := r.1.core c.core
      let s := if bit (c.m 1) 23 then r.1.setCore c.core (co.clearBanks (tileBanks c.accb c.tn (accPer (akindFmt c.akind)))) else r.1
      (s, c.goodEnd)

/-- The product of three factors rounded once (R227). (DEDUCED: log entry 116) -/
def scaleElem (f : FpFmt) (x a v : Fp) : Nat × Nat :=
  let l := [x, a, v]
  let zero (y : Fp) : Bool := match y with | .zero _ => true | _ => false
  let inf (y : Fp) : Bool := match y with | .inf _ => true | _ => false
  if l.any Fp.isNan then (f.qnan, 0)
  else if l.any zero && l.any inf then invalidRes f
  else fpRound f rne (fpMul (fpMul x a) v)

/-- The units of the column scales. -/
def Cmd.scaleUnits (c : Cmd) : List Nat := if c.scaleCols then unitsOf c.vaddr (4 * c.tn) else []

/-- The scale of column `j`. -/
def Cmd.scaleOf (c : Cmd) (j : Nat) : Fp :=
  if c.scaleCols then fpDecode (fpOf fFp32) (leNat (c.bytesAt 0 (c.vaddr + 4 * j) 4).1) else .fin false 1 0 false

/-- One row of the tile scaled. -/
def Core.scaleRow (co : Core) (c : Cmd) (i : Nat) (vs : List Fp) (psn : Bool) : Core × Nat × Bool :=
  let kind := akindFmt c.akind
  let f := fpOf kind
  let a := fpDecode (fpOf fFp32) (bits (c.m 0) 0 32)
  let per := accPer kind
  (List.range c.tbanks).foldl (fun (r : Core × Nat × Bool) q =>
    let key := (c.accb + q) * 128 + i
    let old := look {} r.1.acc key
    let xs := elems old.bits (fmtWidth kind)
    let ys := (List.range xs.length).map fun e =>
      match vs[q * per + e]? with
      | some v => scaleElem f (fpDecode f (nth 0 xs e)) a v
      | none => (nth 0 xs e, 0)
    ({ r.1 with acc := put {} r.1.acc key { bits := packVec (fmtWidth kind) (ys.map Prod.fst), psn := old.psn || psn } },
     ys.foldl (fun fl y => fl ||| y.2) r.2.1, r.2.2 || old.psn)) (co, 0, false)

/-- ACC.SCALE reads the units given, and with `go` scales its next eight rows. -/
def scaleAdvance (reads : List Nat) (go : Bool) (s : State) (c : Cmd) : State × Cmd :=
  let l := spaceLoc 0
  let r := s.pull c l 0 (reads.filter c.scaleUnits.contains)
  let r := if go then r.1.pull r.2 l 0 c.scaleUnits else r
  if !go || !r.2.pulled 0 c.scaleUnits then r
  else
    let c : Cmd := { r.2 with psn := r.2.psn || r.2.pulledPoison 0 c.scaleUnits }
    let vs := (List.range c.tn).map c.scaleOf
    let x := (c.groupRows c.progress).foldl (fun (x : Core × Nat × Bool) i =>
      let y := x.1.scaleRow c i vs c.psn
      (y.1, x.2.1 ||| y.2.1, x.2.2 || y.2.2)) (r.1.core c.core, 0, false)
    let c : Cmd := { c with conds := c.conds ||| x.2.1, blockPsn := c.blockPsn || x.2.2, progress := c.progress + 1 }
    (r.1.setCore c.core x.1, if 8 * c.progress < c.tm then c else c.goodEnd)

/-- ACC.EXPORT (R226). -/
def execAccExport (core id : Nat) (units : List Nat) (go : Bool) (s : State) : Out :=
  .next (s.runRoutine 6 core id (startWith Cmd.exportBad) (exportAdvance units go))

/-- ACC.SCALE (R227). -/
def execAccScale (core id : Nat) (reads : List Nat) (go : Bool) (s : State) : Out :=
  .next (s.runRoutine 7 core id (startWith Cmd.scaleBad) (scaleAdvance reads go))

/-! ### WBLD, WBCLR, ACCZ and MQSTAT (R209 to R212) -/

def Cmd.wbSp (c : Cmd) : Bool := bit (c.w 3) 4
def Cmd.wbSlot (c : Cmd) : Nat := bits (c.w 3) 0 4
def Cmd.wbOff (c : Cmd) : Nat := (c.w 1).toNat
def Cmd.wbLen (c : Cmd) : Nat := (c.w 2).toNat

/-- The limits of R209. -/
def Cmd.wbldBad (c : Cmd) : Bool :=
  bits (c.w 3) 5 59 != 0 || (!c.wbSp && c.wbSlot != 0) || !mult64 c.wbOff || decide (wbSize ≤ c.wbOff) || !mult64 c.wbLen ||
  decide (c.wbLen < 64) || decide (wbSize < c.wbLen) || decide (wbSize < c.wbOff + c.wbLen) ||
  (!c.wbSp && decide (2 ^ 20 < (c.w 0).toNat + c.wbLen))

/-- WBLD's source as a locator, and its first address. -/
def Cmd.wbLoc (c : Cmd) : Word := if c.wbSp then BitVec.ofNat 64 (2 * 2 ^ 62 + c.wbSlot * 2 ^ 58) else spaceLoc 0
/-- WBLD's first source address. (DEDUCED: log entry 62) -/
def Cmd.wbFrom (c : Cmd) : Nat :=
  if c.wbSp then (((extBase (c.extent c.wbSlot) : Nat) : Int) + (c.w 0).toInt).toNat else (c.w 0).toNat

/-- WBLD as it starts (R210). (DEDUCED: log entry 62) -/
def State.startWbld (s : State) (c : Cmd) (lag : List (Nat × Nat)) : Cmd :=
  if c.wbldBad then c.end_ stBadparam 0 0
  else
    let c := s.begin_ c lag
    let code := if c.wbSp then s.checkExt c.core (c.slotPages c.wbSlot) (c.extent c.wbSlot) (c.w 0).toInt c.wbLen 1 false else stOk
    if code ≠ stOk then c.end_ code 0 0 else c

/-- The weight buffer with WBLD's bytes in it: each 64-byte unit that took marked data is marked whole (R203, R210). -/
def Mem.loadUnits (wb : Mem) (off : Nat) (bs : List Byte) (ps : List Bool) : Mem :=
  (List.range (bs.length / 64)).foldl (fun m j =>
    let a := off + 64 * j
    let m := m.putBytes a ((bs.drop (64 * j)).take 64)
    (unitsOf a 64).foldl (fun (m : Mem) u => m.setMark u (((ps.drop (64 * j)).take 64).contains true)) m) wb

/-- WBLD with its source read. (DEDUCED: log entries 62 and 88) -/
def State.endWbld (s : State) (c : Cmd) : State × Cmd :=
  let d := c.bytesAt 0 c.wbFrom c.wbLen
  let co := s.core c.core
  (s.setCore c.core { co with wb := co.wb.loadUnits c.wbOff d.1 d.2 },
   c.end_ (if d.2.contains true then stPoisoned else stOk) (min (c.wbLen / 64) 0xFFFF * 65536) 0)

/-- MQSTAT's result (R212). -/
def State.mqResult (s : State) (core : Nat) : Nat :=
  let co := s.core core
  let owned := (List.range 8).foldl (fun n b => n + if co.owned b then 2 ^ b else 0) 0
  let begun (e : Cmd) : Bool :=
    e.op == 3 && e.started && !(e.finished && [stCancelled, stNoroutine, stAborted].contains e.status)
  let run := co.running
  co.lq.length * 2 ^ 24 + owned * 2 ^ 16 +
    (match run with | some e => 2 ^ 10 + s.effPrio e * 2 ^ 8 | none => 0) +
    (co.mq.filter begun).length * 16 + co.mq.length

/-- MATRIX_COMMAND_START (R200): WBLD, WBCLR, ACCZ or MQSTAT starts once its tokens have completed and every earlier command that it
conflicts with has completed. -/
def execMatrixCommandStart (core id : Nat) (lag : List (Nat × Nat)) (s : State) : Out :=
  match (s.core core).matrixCmd id with
  | none => .next s
  | some c =>
    let co := s.core core
    if s.still core || c.op == 3 || c.started || !c.ready then .next s
    else if !c.good then .next (s.setMatrix core c.cancel)
    else if c.op == 8 then .next (s.setMatrix core (c.end_ stOk (s.mqResult core) 0))
    else if !co.clearFor c then .next s
    else
      match c.op with
      | 4 => .next (s.setMatrix core (s.startWbld c lag))
      | 5 => .next ((s.setCore core { co with wb := {} }).setMatrix core (c.end_ stOk 0 0))
      | _ =>
        if bits (c.w 0) 8 56 != 0 then .next (s.setMatrix core (c.end_ stBadparam 0 0))
        else
          let s := s.claimBanks c
          .next ((s.setCore core ((s.core core).clearBanks c.banks)).setMatrix core (c.end_ stOk 0 0))

/-! ### Completion (R204, R222) -/

/-- MMA.COOP signals the semaphore of mp5 before its token's own signal. (DEDUCED: log entry 59) -/
def State.coopSignal (s : State) (c : Cmd) : State :=
  if c.op = 3 ∧ c.routine = 4 ∧ ¬ [stCancelled, stNoroutine, stAborted].contains c.status then
    s.signal (clusterOf c.ctx) c.info (bits (c.m 5) 0 8) 1
  else s

/-- MATRIX_COMMAND_COMPLETION (R204): WBLD reads the units given and with `go` all the rest, and its writes are performed; a command
of the matrix queue or of the Lode queue that has come to its end signals, and its token lands. (DEDUCED: log entry 88) -/
def execMatrixCommandCompletion (core id : Nat) (reads : List Nat) (go : Bool) (s : State) : Out :=
  let co := s.core core
  match (co.mq ++ co.mqstat ++ co.lq).find? fun x => x.id == id with
  | none => .next s
  | some c =>
    if s.still core then .next s
    else if c.finished then .next ((s.coopSignal c).complete c)
    else if c.op ≠ 4 ∨ !c.started then .next s
    else
      let us := unitsOf c.wbFrom c.wbLen
      let r := s.pull c c.wbLoc 0 (reads.filter us.contains)
      let r := if go then r.1.pull r.2 c.wbLoc 0 us else r
      if !go || !r.2.pulled 0 us then .next (r.1.setMatrix core r.2)
      else
        let r := r.1.endWbld r.2
        .next ((r.1.setMatrix core r.2).complete r.2)

end Sys2Proof.Machine
end

