-- ==== Sys2Proof/Machine/Contract.lean ====
section
/-! DEFINITION. CONTRACT: its parameter block and checks (spec/08 R223, R224), the orbit walk (spec/16 R362 to R368), and the symmetry
of its result (spec/03 R81 to R83). -/

namespace Sys2Proof.Machine

/-! ### The parameter block (R223) -/

def Cmd.blkAt (c : Cmd) (i : Nat) : Nat := fld c.block i 1
def Cmd.nin (c : Cmd) : Nat := c.blkAt 0
def Cmd.accf (c : Cmd) : Nat := c.blkAt 1
def Cmd.adds (c : Cmd) : Bool := (c.blkAt 2).testBit 0

/-- The descriptor of operand `i`: X, Y or Z. -/
def Cmd.desc (c : Cmd) (i : Nat) : Desc := descOf ((c.block.drop (64 + 64 * i)).take 64)

/-- The letter bytes of operand `i`, and the letters of its slots. -/
def Cmd.rawLets (c : Cmd) (i : Nat) : List Nat := (List.range 8).map fun j => c.blkAt (8 + 8 * i + j)
def Cmd.lets (c : Cmd) (i : Nat) : List Nat := (c.rawLets i).take (c.desc i).rank

/-- The operands that the command has: X, Y when NIN = 2, and Z. -/
def Cmd.operands (c : Cmd) : List Nat := if c.nin = 2 then [0, 1, 2] else [0, 2]
def Cmd.inputs (c : Cmd) : List Nat := if c.nin = 2 then [0, 1] else [0]

/-- The slots of all operands as pairs of a letter and its extent. -/
def Cmd.letterExts (c : Cmd) : List (Nat × Nat) := c.operands.flatMap fun i => (c.lets i).zip (c.desc i).ext

/-- The extent of a letter. -/
def Cmd.extentOf (c : Cmd) (l : Nat) : Nat := ((c.letterExts.find? fun p => p.1 == l).map Prod.snd).getD 0

/-- BADPARAM of the parameter block as it was read (R224). -/
def Cmd.blockBad (c : Cmd) : Bool :=
  let one := c.nin == 1
  c.blockPsn || !(one || c.nin == 2) || !(c.accf == fFp32 || c.accf == fFp64) || decide (2 ≤ c.blkAt 2) || !fldZero c.block 3 5 ||
  !fldZero c.block 32 32 || (one && (!fldZero c.block 128 64 || (c.rawLets 1).any fun l => l != 0xFF)) ||
  (c.operands.any fun i => (c.lets i).any (fun l => decide (15 < l)) || ((c.rawLets i).drop (c.desc i).rank).any fun l => l != 0xFF) ||
  hasRepeat (c.lets 2) || (c.lets 2).any (fun l => !(c.inputs.any fun i => (c.lets i).contains l)) ||
  c.letterExts.any (fun p => c.extentOf p.1 != p.2) ||
  c.operands.any (fun i => fmtInt.contains (c.desc i).fmt) ||
  !((fmtF ++ fmtPacket).contains (c.desc 2).fmt)

/-- BADPARAM of the two parameter registers. (DEDUCED: log entry 117) -/
def Cmd.contractBad (c : Cmd) : Bool :=
  let a := bits (c.m 0) 0 20
  bits (c.m 0) 20 44 != 0 || !mult64 a || decide (2 ^ 20 < a + 256) || bits (c.m 1) 8 56 != 0 || bits (c.m 1) 0 8 == 0

/-! ### Where the operands lie (R68, R70, R71) -/

/-- The storage of a descriptor as a command meets it: the pages of its runs, its first byte, or a status. (DEDUCED: log entry 63)
-/
def State.locateDesc (s : State) (c : Cmd) (i : Nat) : Except Nat (List Page × Nat) :=
  let d := c.desc i
  let bad : Bool := !d.formOk || (i == 2 && d.packet)
  if d.bkind then
    match s.resolve (clusterOf c.ctx) c.info.asid d.base with
    | .fails code => .error code
    | .good e => if bad || e.base % d.align != 0 || decide (e.len < d.span) then .error stBaddesc else .ok (e.pages, e.base)
  else
    let e := c.extent d.eslot
    let a := extBase e + d.offset
    if bad || !extValid e || a % d.align != 0 || decide (extLen e < d.offset + d.span) then .error stBaddesc
    else .ok (c.slotPages d.eslot, a)

/-- A located operand is kept beside the command's extent slots, at 16 and up. -/
def Cmd.placeOp (c : Cmd) (i : Nat) (p : List Page × Nat) : Cmd :=
  { c with extents := put 0 c.extents (16 + i) (BitVec.ofNat 128 p.2), pages := put [] c.pages (16 + i) p.1 }

def Cmd.opBase (c : Cmd) (i : Nat) : Nat := (look 0 c.extents (16 + i)).toNat
def Cmd.opPages (c : Cmd) (i : Nat) : List Page := c.slotPages (16 + i)

/-- The pages of an operand's span. -/
def Cmd.spanPages (c : Cmd) (i : Nat) : List Page := (pagesOf (c.opBase i) (c.desc i).span).filterMap (pageOf (c.opPages i))

/-- The operands located in turn: the first status that fails stands. -/
def State.locateAll (s : State) : List Nat → Cmd → Except Nat Cmd
  | [], c => .ok c
  | i :: r, c =>
    match s.locateDesc c i with
    | .error code => .error code
    | .ok p => s.locateAll r (c.placeOp i p)

/-- The checks of the destination's storage for writing (step 4 of R224); an input on a page core-private to another core gives
PRIVATE too (R308). (DEDUCED: log entry 63) -/
def State.zCheck (s : State) (c : Cmd) : Nat :=
  let d := c.desc 2
  let img := s.imagePages
  if (!d.bkind && !extWr (c.extent d.eslot)) || (c.spanPages 2).any (fun p => !p.w || img.contains p.frame) then stRdonly
  else if (c.operands.flatMap c.spanPages).any fun p => p.cls == 2 && p.owner != c.core then stPrivate
  else if d.bkind then
    match s.resolve (clusterOf c.ctx) c.info.asid d.base with
    | .good e => if e.right s.part.serial c.info.asid == 3 then stOk else stDenied
    | .fails code => code
  else stOk

/-- CONTRACT as it starts: it reads its block and its descriptors once (R72, R224). (DEDUCED: log entry 117) -/
def contractStart (lag : List (Nat × Nat)) (s : State) (c : Cmd) : State × Cmd :=
  if c.contractBad then (s, c.end_ stBadparam 0 0)
  else
    let a := bits (c.m 0) 0 20
    let c := { s.begin_ c lag with block := (s.core c.core).spm.bytes a 256, blockPsn := (s.core c.core).spm.poisoned a 256 }
    if c.blockBad then (s, c.end_ stBadparam 0 0)
    else
      match s.locateAll c.operands c with
      | .error code => (s, c.end_ code 0 0)
      | .ok c =>
        let s := c.operands.foldl (fun (s : State) i => if (c.desc i).bkind then s.cacheName (clusterOf c.ctx) (c.desc i).base else s) s
        let code := s.zCheck c
        (s, if code ≠ stOk then c.end_ code 0 0 else { c with blockPsn := false })

/-! ### Factors of the contracted letters (R362 to R364) -/

/-- A factor of the walk: its kind (0 plain, 1 symmetric orbits, 2 strictly decreasing orbits, 3 vanishing), its letters ascending, and
their extent. -/
structure WalkFactor where
  kind : Nat
  letters : List Nat
  n : Nat
  deriving DecidableEq, Repr

/-- The groups of kind 1 or 2 of a descriptor by ascending lowest slot: kind and slots. -/
def Desc.orbitGroups (d : Desc) : List (Nat × List Nat) :=
  d.factors.filterMap fun f =>
    match f.kind with
    | .sym => some (1, f.slots)
    | .anti => some (2, f.slots)
    | _ => none

/-- The contracted letters. -/
def Cmd.contracted (c : Cmd) : List Nat :=
  (List.range 16).filter fun l => (c.inputs.any fun i => (c.lets i).contains l) && !(c.lets 2).contains l

/-- The kind of the group of input `q` that holds every letter of `h` once; none where there is none (fits of R362). -/
def Cmd.holder (c : Cmd) (q : Nat) (h : List Nat) : Option Nat :=
  let ls := c.lets q
  if h.all fun l => ls.count l == 1 then
    ((c.desc q).orbitGroups.find? fun g => h.all fun l => g.2.any fun j => ls[j]? == some l).map Prod.fst
  else none

/-- The factor that group `g` of input `p` gives, when `taken` are taken. -/
def Cmd.groupFactor (c : Cmd) (p : Nat) (g : Nat × List Nat) (taken : List Nat) : Option WalkFactor :=
  let ls := c.lets p
  let h := c.contracted.filter fun l => !taken.contains l && ls.count l == 1 && g.2.any fun j => ls[j]? == some l
  let q := 1 - p
  let n := c.extentOf (h.headD 0)
  if h.length < 2 then none
  else if c.nin = 1 ∨ h.all (fun l => !(c.lets q).contains l) then some { kind := if g.1 = 1 then 1 else 3, letters := h, n := n }
  else
    match c.holder q h with
    | none => none
    | some k => some { kind := if g.1 ≠ k then 3 else g.1, letters := h, n := n }

/-- The orbit factors in the order in which R362 finds them. -/
def Cmd.orbitFactors (c : Cmd) : List (Nat × Nat × List Nat) → List WalkFactor → List WalkFactor
  | [], fs => fs
  | (p, g) :: r, fs =>
    match c.groupFactor p g (fs.flatMap WalkFactor.letters) with
    | none => c.orbitFactors r fs
    | some f => c.orbitFactors r (fs ++ [f])

/-- Every factor, by its lowest letter. -/
def Cmd.walkFactors (c : Cmd) : List WalkFactor :=
  let fs := c.orbitFactors (c.inputs.flatMap fun p => (c.desc p).orbitGroups.map fun g => (p, g)) []
  c.contracted.flatMap fun l =>
    match fs.find? fun f => f.letters.headD 16 == l with
    | some f => [f]
    | none => if fs.any fun f => f.letters.contains l then [] else [{ kind := 0, letters := [l], n := c.extentOf l }]

/-- The orbit count of a factor (R364). -/
def WalkFactor.count (f : WalkFactor) : Nat :=
  let k := f.letters.length
  match f.kind with
  | 0 => f.n
  | 1 => choose (f.n + k - 1) k
  | 2 => choose f.n k
  | _ => 0

/-- The greatest v below 2^n with C(v, j) ≤ r, built bit by bit from `v`. -/
def largestGo (j r : Nat) : Nat → Nat → Nat
  | 0, v => v
  | n + 1, v => largestGo j r n (if choose (v + 2 ^ n) j ≤ r then v + 2 ^ n else v)

/-- The tuple of rank `r` among the decreasing tuples of `k` values: non-increasing ones when `rep` (R74, R364). -/
def unrank (rep : Bool) : Nat → Nat → List Nat
  | 0, _ => []
  | k + 1, r =>
    let v := largestGo (k + 1) r 48 0
    (if rep then v - k else v) :: unrank rep k (r - choose v (k + 1))

/-- k! over the product of the factorials of the repeats. -/
def orbitMult (u : List Nat) : Nat := factorial u.length / u.eraseDups.foldl (fun c y => c * factorial (u.count y)) 1

/-- The values of a factor's letters in its orbit of rank `r`, and the orbit's multiplicity. -/
def WalkFactor.point (f : WalkFactor) (r : Nat) : List Nat × Nat :=
  match f.kind with
  | 0 => ([r], 1)
  | 1 => let u := unrank true f.letters.length r; (u, orbitMult u)
  | _ => (unrank false f.letters.length r, factorial f.letters.length)

/-- A combined orbit by its linear index: the value of every contracted letter, and the multiplicity (R364). -/
def orbitAt : List WalkFactor → Nat → List (Nat × Nat) × Nat
  | [], _ => ([], 1)
  | f :: r, o =>
    let p := f.point (o % f.count)
    let t := orbitAt r (o / f.count)
    (f.letters.zip p.1 ++ t.1, p.2 * t.2)

/-- The number of combined orbits. -/
def orbitCount (fs : List WalkFactor) : Nat := fs.foldl (fun t f => t * f.count) 1

/-! ### The tuples of the destination (R76, R366) -/

/-- The canonical values of a factor's slots for its representative `r` (R76). -/
def Factor.canon (f : Factor) (r : Nat) : List Nat :=
  match f.kind with
  | .sym => unrank true f.slots.length r
  | .anti => unrank false f.slots.length r
  | .cyc => [0, r]
  | _ => [r]

/-- The slots of a representative's canonical tuple with their values. -/
def canonFactors : List Factor → Nat → List (Nat × Nat)
  | [], _ => []
  | f :: r, k => f.slots.zip (f.canon (k % f.count)) ++ canonFactors r (k / f.count)

/-- What a letter or slot stands for. -/
def valueOf (env : List (Nat × Nat)) (l : Nat) : Nat := ((env.find? fun p => p.1 == l).map Prod.snd).getD 0

/-- The canonical tuple of representative `k`. -/
def Desc.canon (d : Desc) (k : Nat) : List Nat := (List.range d.rank).map (valueOf (canonFactors d.factors k))

/-- Every index tuple, slot 0 running fastest. -/
def allTuples : List Nat → List (List Nat)
  | [] => [[]]
  | n :: r => (allTuples r).flatMap fun t => (List.range n).map (· :: t)

/-- An index tuple read as a base-256 number, slot 0 least significant: an index above 255 counts in full (R366). (DEDUCED: log
entry 63) -/
def tupleNum (t : List Nat) : Nat := t.foldr (fun i n => i + 256 * n) 0

/-- A tuple put into a list of ascending numbers, behind those that are not greater. -/
def placeTuple (t : List Nat) : List (List Nat) → List (List Nat)
  | [] => [t]
  | u :: r => if tupleNum u ≤ tupleNum t then u :: placeTuple t r else t :: u :: r

/-- Every index tuple in ascending order of its number; where no index passes 255 that is the order of `allTuples`. -/
def sortedTuples (ext : List Nat) : List (List Nat) :=
  if ext.all (fun n => decide (n ≤ 256)) then allTuples ext else (allTuples ext).foldl (fun l t => placeTuple t l) []

/-- The tuples of a verifying command: each representative's canonical tuple, then its others; the structurally zero ones last. -/
def Desc.everyTuple (d : Desc) : List Formed :=
  let all := sortedTuples (d.ext.take d.rank)
  let of_ (k : Option Nat) (canon : Bool) (t : List Nat) : Formed := { k := k, idx := t, canon := canon, val := 0, psn := false }
  ((List.range d.rcount).flatMap fun k =>
    of_ (some k) true (d.canon k) ::
      (all.filter fun t => let m := d.map t; m.s != 0 && m.k == k && t != d.canon k).map (of_ (some k) false)) ++
  (all.filter fun t => (d.map t).s == 0).map (of_ none false)

/-! ### Guaranteed symmetries (R81, R82) -/

/-- Whether one input guarantees the letters `g` as a group of a kind of R69. -/
def Cmd.guarantees (c : Cmd) (kind : Nat) (g : List Nat) : Bool :=
  c.inputs.any fun p =>
    let ls := c.lets p
    let d := c.desc p
    g.all (fun l => ls.count l == 1) &&
    (c.inputs.all fun q => q == p || g.all fun l => !(c.lets q).contains l) &&
    (List.range 4).any fun i =>
      let held := (maskSlots (d.groupMask i)).map fun j => nth 16 ls j
      d.groupKind i == kind && g.all held.contains && ((decide (kind ≤ 2) && decide (2 ≤ g.length)) || held.all g.contains)

/-- Whether the destination declares a group that no input guarantees. -/
def Cmd.unguaranteed (c : Cmd) : Bool :=
  let d := c.desc 2
  (List.range 4).any fun i =>
    d.groupKind i != 0 && !c.guarantees (d.groupKind i) ((maskSlots (d.groupMask i)).map fun j => nth 16 (c.lets 2) j)

/-- Whether the command computes the other tuples too. -/
def Cmd.verifies (c : Cmd) : Bool := (c.desc 2).verify && c.unguaranteed

/-- The tuples of block `b`, and whether a later block follows. -/
def Cmd.blockTuples (c : Cmd) (b : Nat) : List Formed :=
  let d := c.desc 2
  if c.verifies then (d.everyTuple.drop (128 * b)).take 128
  else (List.range (min 128 (d.rcount - 128 * b))).map fun j =>
    { k := some (128 * b + j), idx := d.canon (128 * b + j), canon := true, val := 0, psn := false }

/-! ### Reading an element (R75, R77) -/

/-- The units of operand `i`'s representative `k`. -/
def Cmd.opUnits (c : Cmd) (i k : Nat) : List Nat :=
  let d := c.desc i
  let p := d.place k
  if d.packet then elemUnits d.fmt (c.opBase i + p.1) (d.inPacket k) (d.inPacket k + 1) else unitsOf (c.opBase i + p.1) p.2

/-- What a command reads at a tuple of operand `i`, exactly, with its poison; a structurally zero element is +0. -/
def Cmd.opRead (c : Cmd) (i : Nat) (idx : List Nat) : Fp × Bool :=
  let d := c.desc i
  let m := d.map idx
  if m.s = 0 then (.zero false, false)
  else
    let p := d.place m.k
    let psn := c.pulledPoison i (c.opUnits i m.k)
    let raw := if psn then 0 else leNat (c.bytesAt i (c.opBase i + p.1) p.2).1
    let v := if d.packet then packetDecode d.fmt raw (d.inPacket m.k) else fpDecode (fpOf d.fmt) raw
    (if m.s < 0 then v.neg else v, psn)

/-- The value that a unit has now put aside, beside those that the pass has read of it before (R367). -/
def Cmd.shelve (c : Cmd) (key : Nat) : Cmd :=
  match look none c.src key with
  | some x => { c with src := put none c.src (2 ^ 64 * (c.src.filter fun e => e.1 % 2 ^ 64 == key).length + key) (some x) }
  | none => c

/-- A value of a unit that the pass has put aside taken up again, and the one that stands put in its place: the reads of a pass have no
order among them (R367). -/
def Cmd.takeUp (c : Cmd) (key j : Nat) : Cmd :=
  match look none c.src (2 ^ 64 * j + key) with
  | some x => { c with src := put none (put none c.src (2 ^ 64 * j + key) (look none c.src key)) key (some x) }
  | none => c

/-- Units of operands read now, each by its key, as far as they can be reached; `again` reads those too that have been read (R367). -/
def State.pullOp (s : State) (c : Cmd) (again : Bool) (keys : List Nat) : State × Cmd :=
  keys.foldl (fun (r : State × Cmd) key =>
    let i := key % 4
    let u := key / 4
    if (r.2.got i u).isSome && !again then r
    else
      let at_ := unitOn (r.2.opPages i) u
      let g := r.1.reach r.2.agent at_
      if !g.2 then (g.1, r.2)
      else
        let x := g.1.agentUnit r.2.agent r.2.lag at_
        (x.1, (r.2.shelve key).keep i u x.2)) (s, c)

/-! ### One pass (R365, R366) -/

/-- The index tuple of operand `i`. -/
def Cmd.opIdx (c : Cmd) (i : Nat) (env : List (Nat × Nat)) : List Nat := (c.lets i).map (valueOf env)

/-- The letters of a destination tuple. -/
def Cmd.zEnv (c : Cmd) (idx : List Nat) : List (Nat × Nat) := (c.lets 2).zip idx

/-- Whether every input has a stored element at an orbit. -/
def Cmd.orbitLive (c : Cmd) (env : List (Nat × Nat)) : Bool := c.inputs.all fun i => ((c.desc i).map (c.opIdx i env)).s != 0

/-- The keys of the units that one orbit reads for one tuple. -/
def Cmd.orbitKeys (c : Cmd) (env : List (Nat × Nat)) : List Nat :=
  if c.orbitLive env then
    c.inputs.flatMap fun i => (c.opUnits i ((c.desc i).map (c.opIdx i env)).k).map (srcKey 0 i)
  else []

/-- The key of a destination tuple's prior value. -/
def Cmd.priorKeys (c : Cmd) (t : Formed) : List Nat :=
  let m := (c.desc 2).map t.idx
  if m.s = 0 then [] else (c.opUnits 2 m.k).map (srcKey 0 2)

/-- The prior value of a tuple's representative, exactly, with its poison; a structurally zero tuple has none. -/
def Cmd.priorOf (c : Cmd) (t : Formed) : Fp × Bool :=
  match t.k with
  | some k => c.opRead 2 ((c.desc 2).canon k)
  | none => (.zero false, false)

/-- The sum that a tuple starts from: the prior value of its representative in the summation format when ADD = 1 (R365). (DEDUCED:
log entry 63) -/
def Cmd.startSum (c : Cmd) (t : Formed) : Nat × Bool × Nat :=
  if c.adds then
    let v := c.priorOf t
    let f := fpOf c.accf
    match v.1 with
    | .nan g _ => (f.qnan, v.2, if g then flInv else 0)
    | x => let r := fpRound f rne x; (r.1, v.2, r.2)
  else (0, false, 0)

/-- One orbit added to one sum, with the flags raised (R365). -/
def Cmd.orbitStep (c : Cmd) (env : List (Nat × Nat)) (mult acc : Nat) (psn : Bool) : Nat × Bool × Nat :=
  if !c.orbitLive env then (acc, psn, 0)
  else
    let xs := c.inputs.map fun i => c.opRead i (c.opIdx i env)
    let vs := xs.map Prod.fst
    let inv := if vs.any Fp.isSnan then flInv else 0
    let nan := vs.any Fp.isNan
    let x := nth (.zero false) vs 0
    let y := nth (Fp.fin false 1 0 false) vs 1
    let clash := zeroTimesInf x y
    let p : Fp := if nan || clash then .nan false 0 else fpMul (.fin false mult 0 false) (fpMul x y)
    let r := accAdd c.accf acc p
    (r.1, psn || xs.any Prod.snd, r.2 ||| inv ||| (if clash && !nan then flInv else 0))

/-- The passes of a block. -/
def passesOf (t : Nat) : Nat := max 1 ((t + 63) / 64)

/-- The orbits of pass `p`. -/
def passOrbits (t p : Nat) : List Nat := (List.range (min 64 (t - 64 * p))).map (64 * p + ·)

/-- The places of a pass: for each tuple its start and its orbits. -/
def passPoints (t p tuples : Nat) : Nat := tuples * ((passOrbits t p).length + 1)

/-- The tuple and the orbit of a place; no orbit at a tuple's start. -/
def pointAt (t p n : Nat) : Nat × Option Nat :=
  let os := passOrbits t p
  (n / (os.length + 1), match n % (os.length + 1) with | 0 => none | j + 1 => os[j]?)

/-- The keys of the units that a place of a pass reads. -/
def Cmd.pointKeys (c : Cmd) (fs : List WalkFactor) (ts : List Formed) (p n : Nat) : List Nat :=
  let x := pointAt (orbitCount fs) p n
  match ts[x.1]?, x.2 with
  | some t, some o => c.orbitKeys (c.zEnv t.idx ++ (orbitAt fs o).1)
  | some t, none => if p = 0 ∧ c.adds then c.priorKeys t else []
  | none, _ => []

/-- One place of a pass, its operands read: a sum starts, or takes one orbit (R365). -/
def Cmd.pointStep (c : Cmd) (fs : List WalkFactor) (ts : List Formed) (p : Nat) : Cmd :=
  let x := pointAt (orbitCount fs) p c.point
  match ts[x.1]? with
  | none => c
  | some t =>
    let old := nth (0, false) c.sums x.1
    let r : Nat × Bool × Nat :=
      match x.2 with
      | some o => let q := orbitAt fs o; c.orbitStep (c.zEnv t.idx ++ q.1) q.2 old.1 old.2
      | none => if p = 0 then c.startSum t else (old.1, old.2, 0)
    { c with sums := setNth c.sums x.1 (r.1, r.2.1), conds := c.conds ||| r.2.2, point := c.point + 1 }

/-- The lowest bank of the workspace, which holds the partial sums between passes (R366). (DESIGN CHOICE: log entry 93) -/
def Cmd.sumBank (c : Cmd) : Nat := c.banks.foldl min 7

/-- The sums of a block put into the workspace as the pass ends, in the tuples' order; each keeps its own poison. (DESIGN CHOICE:
log entry 93) -/
def Core.putSums (co : Core) (c : Cmd) : Core :=
  let per := accPer c.accf
  (List.range ((c.sums.length + per - 1) / per)).foldl (fun (co : Core) r =>
    let xs := ((c.sums.drop (r * per)).take per).map Prod.fst
    { co with acc := put {} co.acc (c.sumBank * 128 + r) { bits := packVec (fmtWidth c.accf) xs } }) co

/-- The sums taken out of the workspace as a later pass begins; an error in a row has poisoned those that stand in it (R288).
(DESIGN CHOICE: log entry 93) -/
def Cmd.takeSums (c : Cmd) (co : Core) : Cmd :=
  let per := accPer c.accf
  { c with sums := (List.range c.sums.length).map fun i =>
      let row := look {} co.acc (c.sumBank * 128 + i / per)
      (elem row.bits (i % per) (fmtWidth c.accf), (nth (0, false) c.sums i).2 || row.psn) }

/-- A pass begins: fresh sums in a block's first pass, else those of the pass before. -/
def Cmd.openPass (c : Cmd) (co : Core) (tuples p : Nat) : Cmd :=
  if c.point ≠ 0 then c else if p = 0 then { c with sums := List.replicate tuples (0, false) } else c.takeSums co

/-- A pass ends: after a block's last one its values are formed (R366). -/
def State.closePass (s : State) (c : Cmd) (fs : List WalkFactor) (ts : List Formed) (p : Nat) : State × Cmd :=
  let c := { c with src := [], progress := c.progress + 1, point := 0 }
  if p + 1 < passesOf (orbitCount fs) then
    (s.setCore c.core ((s.core c.core).putSums c), { c with sums := c.sums.map fun x => (0, x.2) })
  else
    let zs := (ts.zip c.sums).map fun x => (x.1, x.2, convert (c.desc 2).fmt c.accf rne x.2.1)
    (s, { c with
      phase := 1
      conds := zs.foldl (fun fl x => fl ||| x.2.2.2) c.conds
      sums := []
      psn := c.psn || zs.any fun x => x.2.1.2
      formed := c.formed ++ zs.map fun x => { x.1 with val := x.2.2.1, psn := x.2.1.2 } })

/-- The next place of a pass, with what it reads and has not been read. -/
def State.passStep (s : State) (c : Cmd) (fs : List WalkFactor) (ts : List Formed) (p : Nat) : State × Cmd :=
  let keys := c.pointKeys fs ts p c.point
  let r := s.pullOp c false keys
  if keys.all fun key => (r.2.got (key % 4) (key / 4)).isSome then (r.1, r.2.pointStep fs ts p) else r

/-- Some places of a pass in turn. -/
def State.passSteps (s : State) (c : Cmd) (fs : List WalkFactor) (ts : List Formed) (p : Nat) : Nat → State × Cmd
  | 0 => (s, c)
  | n + 1 =>
    let r := s.passStep c fs ts p
    r.1.passSteps r.2 fs ts p n

/-- A pass goes on as `ops` say: 0 takes its next place, `key + 1` reads a unit, again where it has been read, and 2^64 j + `key` + 1
takes up value j of those put aside, so that each place has any value that the unit has had in the pass (R367); with `go` the pass goes
to its end. -/
def State.passOps (s : State) (c : Cmd) (fs : List WalkFactor) (ts : List Formed) (p : Nat) (ops : List Nat) (go : Bool) :
    State × Cmd :=
  let all := passPoints (orbitCount fs) p ts.length
  let wanted (key : Nat) : Bool := (List.range all).any fun n => (c.pointKeys fs ts p n).contains key
  let r := ops.foldl (fun (r : State × Cmd) o =>
    if o = 0 then r.1.passStep r.2 fs ts p
    else
      let key := (o - 1) % 2 ^ 64
      if !wanted key then r
      else if o ≤ 2 ^ 64 then r.1.pullOp r.2 true [key]
      else (r.1, r.2.takeUp key ((o - 1) / 2 ^ 64))) (s, c)
  let r := if go then r.1.passSteps r.2 fs ts p (all - r.2.point) else r
  if r.2.point = all then r.1.closePass r.2 fs ts p else r

/-! ### The end of a block (R82, R367) -/

/-- Formed tuples whose representative has none left in a later block. -/
def Cmd.dueNow (c : Cmd) (after : List Formed) : List Formed :=
  match after.head? with
  | none => c.formed
  | some t => c.formed.filter fun f => f.k.isNone || f.k != t.k

/-- The units of a representative of the destination, in memory. -/
def Cmd.repUnits (c : Cmd) (k : Nat) : List (Option URef) :=
  let n := fmtBytes (c.desc 2).fmt
  (unitsOf (c.opBase 2 + k * n) n).map (unitOn (c.opPages 2))

/-- A representative written, where its units can be reached. -/
def State.writeRep (s : State) (c : Cmd) (f : Formed) : State × Bool :=
  let n := fmtBytes (c.desc 2).fmt
  let k := f.k.getD 0
  let a := c.opBase 2 + k * n
  let g := s.reachAll c.agent (c.repUnits k)
  if !g.2 then g
  else
    ((g.1.noteWrite c.ctx (c.opPages 2) a n).runWrite c.agent (c.opPages 2) a (leBytes n f.val) (List.replicate n f.psn), true)

/-- Representatives written in turn; those written join `todo`. -/
def State.writeReps (s : State) (c : Cmd) : List Formed → State × Cmd
  | [] => (s, c)
  | f :: r =>
    let x := s.writeRep c f
    x.1.writeReps (if x.2 then { c with todo := c.todo ++ [f.k.getD 0] } else c) r

/-- Whether a computed value equals what the destination reads there (R82). -/
def sameElem (fmt a b : Nat) : Bool :=
  let f := fpOf fmt
  let zero (x : Fp) : Bool := match x with | .zero _ => true | _ => false
  a == b || (zero (fpDecode f a) && zero (fpDecode f b)) || ((fpDecode f a).isNan && (fpDecode f b).isNan)

/-- What the destination reads at a tuple (R77). (DEDUCED: log entry 113) -/
def State.readZ (s : State) (c : Cmd) (idx : List Nat) : State × Nat :=
  let d := c.desc 2
  let m := d.map idx
  if m.s = 0 then (s, 0)
  else
    let n := fmtBytes d.fmt
    let r := s.runRead c.agent c.lag (c.opPages 2) (c.opBase 2 + m.k * n) n
    (r.1, if m.s < 0 then negElem d.fmt (leNat r.2.1) else leNat r.2.1)

/-- The other tuples of a finished representative compared; `written` counts mismatches. (DEDUCED: log entries 63 and 113) -/
def State.compareZ (s : State) (c : Cmd) : List Formed → State × Cmd
  | [] => (s, c)
  | f :: r =>
    if f.canon then s.compareZ c r
    else
      let x := s.readZ c f.idx
      x.1.compareZ (if sameElem (c.desc 2).fmt f.val x.2 then c else { c with written := c.written + 1 }) r

/-- The status of a walk that has come to its end (R224). (DEDUCED: log entry 63) -/
def Cmd.walkStatus (c : Cmd) : Nat :=
  if c.psn then stPoisoned
  else if c.unguaranteed then (if c.written ≠ 0 then stSymmismatch else stUnverified)
  else stOk

/-- The representatives given are written, and with `go` all the rest; then the comparisons are made, and the next block begins or the
command ends with its workspace zeroed. -/
def State.endBlock (s : State) (c : Cmd) (fs : List WalkFactor) (which : List Nat) (go : Bool) : State × Cmd :=
  let after := c.blockTuples (c.progress / passesOf (orbitCount fs))
  let due := c.dueNow after
  let open_ := due.filter fun f => f.canon && !c.todo.contains (f.k.getD 0)
  let now := if go then open_ else open_.filter fun f => which.contains (f.k.getD 0)
  let r := s.writeReps c now
  let s := r.1
  let c := r.2
  let g := s.reachAll c.agent ((due.filterMap Formed.k).flatMap c.repUnits)
  if open_.any fun f => !c.todo.contains (f.k.getD 0) then (s, c)
  else if !g.2 then (g.1, c)
  else
    let r := g.1.compareZ c due
    let c := { r.2 with phase := 0, todo := [], formed := r.2.formed.filter fun f => !due.contains f }
    if !after.isEmpty then (r.1, c)
    else (r.1.setCore c.core ((r.1.core c.core).clearBanks c.banks), c.routineEnd c.walkStatus)

/-- CONTRACT goes on with its pass as `ops` and `go` say; between blocks it writes the representatives that `ops` name, with `go` all. -/
def contractAdvance (ops : List Nat) (go : Bool) (s : State) (c : Cmd) : State × Cmd :=
  let fs := c.walkFactors
  let n := passesOf (orbitCount fs)
  if c.phase = 1 then s.endBlock c fs ops go
  else
    let p := c.progress % n
    let ts := c.blockTuples (c.progress / n)
    s.passOps (c.openPass (s.core c.core) ts.length p) fs ts p ops go

/-- Before a CONTRACT that the engine would take starts, its parameter block must not wait for a bank-lock window (R280). -/
def State.blockAsk (s : State) (core id : Nat) : State × Bool :=
  match s.nextRoutine core with
  | some c => if c.id = id ∧ !c.started then s.askUnits core id (unitsOf (bits (c.m 0) 0 20) 256) else (s, true)
  | none => (s, true)

/-- CONTRACT (R223, R224); `reads` names the units of which it misses the engine writes that it may miss (R310), and says what it reads and
writes now. -/
def execContract (core id : Nat) (reads : List (Nat × Nat) × List Nat) (go : Bool) (s : State) : Out :=
  let w := s.blockAsk core id
  .next (if w.2 then w.1.runRoutine 5 core id (contractStart reads.1) (contractAdvance reads.2 go) else w.1)

end Sys2Proof.Machine
end

