-- ==== Sys2Proof/Machine/Compress.lean ====
section
/-! DEFINITION. The compressed block format: decoding a block, and building the one block of an input (spec/18 R381 to R383). -/

namespace Sys2Proof.Machine

/-! ### Canonical codes (R381) -/

/-- The code lengths of the 256 byte values from a length table of 128 bytes. -/
def tableLengths (tab : List Byte) : List Nat :=
  tab.flatMap fun b => [b.toNat % 16, b.toNat / 16]

/-- A code: byte value, length, code. -/
abbrev Code := Nat × Nat × Nat

/-- The values of one length get consecutive codes from `next` on. -/
def codesOf (len : Nat) : List Nat → Nat → List Code
  | [], _ => []
  | s :: r, next => (s, len, next) :: codesOf len r (next + 1)

/-- Codes assigned in ascending order of length, then of value; `next` is the code that the next value takes. -/
def assignCodes (lens : List Nat) : List Nat → Nat → List Code
  | [], _ => []
  | len :: rest, next =>
    let vals := (List.range lens.length).filter fun s => nth 0 lens s == len
    codesOf len vals next ++ assignCodes lens rest (2 * (next + vals.length))

/-- The canonical codes of a table of lengths 0 to 15. -/
def canonicalCodes (lens : List Nat) : List Code := assignCodes lens ((List.range 15).map (· + 1)) 0

/-- The Kraft sum in units of 2^-15. -/
def kraft (lens : List Nat) : Nat := ((lens.filter (· != 0)).map fun l => 2 ^ (15 - l)).foldl (· + ·) 0

/-- Whether the lengths form a code that R382 accepts. -/
def lengthsOk (lens : List Nat) : Bool :=
  kraft lens == 2 ^ 15 || (lens.filter (· != 0)) == [1]

/-! ### Bits, most significant first -/

def byteBits (b : Byte) : List Bool := (List.range 8).map fun i => b.toNat.testBit (7 - i)

def streamBits (bs : List Byte) : List Bool := bs.flatMap byteBits

/-- One code read off a bit stream, its value and what is left. -/
def readCode (codes : List Code) : Nat → Nat → Nat → List Bool → Option (Nat × List Bool)
  | 0, _, _, _ => none
  | _, _, _, [] => none
  | fuel + 1, len, code, b :: rest =>
    let len := len + 1
    let code := 2 * code + (if b then 1 else 0)
    match codes.find? fun c => c.2.1 == len && c.2.2 == code with
    | some c => some (c.1, rest)
    | none => readCode codes fuel len code rest

/-- `n` values decoded, and the bits left. -/
def readCodes (codes : List Code) : Nat → List Bool → Option (List Byte × List Bool)
  | 0, bs => some ([], bs)
  | n + 1, bs =>
    match readCode codes 15 0 0 bs with
    | none => none
    | some (v, rest) =>
      match readCodes codes n rest with
      | none => none
      | some (vs, rest) => some (BitVec.ofNat 8 v :: vs, rest)

/-- A sub-stream decoded: its bytes, where nothing but zero bits of its last byte is left over (R382). -/
def readStream (codes : List Code) (n : Nat) (bs : List Byte) : Option (List Byte) :=
  match readCodes codes n (streamBits bs) with
  | some (vs, rest) => if rest.length < 8 && rest.all (· == false) then some vs else none
  | none => none

/-! ### Blocks (R381, R382) -/

def blkRaw (h : List Byte) : Bool := fld h 3 1 == 1
def blkLen (h : List Byte) : Nat := fld h 4 4
def blkParts (h : List Byte) : Nat := 2 ^ fld h 2 1
def blkSlen (h : List Byte) (i : Nat) : Nat := fld h (8 + 3 * i) 3

/-- The sum of the sub-streams' lengths. -/
def blkCoded (h : List Byte) : Nat := ((List.range 8).map (blkSlen h)).foldl (· + ·) 0

/-- Whether a header keeps R381. -/
def headerOk (h : List Byte) : Bool :=
  fld h 0 2 == 0x4B42 && decide (fld h 2 1 ≤ 3) && decide (fld h 3 1 ≤ 1) && decide (1 ≤ blkLen h) && decide (blkLen h ≤ 65536) &&
  (!blkRaw h || fld h 2 1 == 0) && (List.range 8).all fun i => decide (i < blkParts h) || blkSlen h i == 0

/-- The bytes of a block that its decoding reads. -/
def blkUsed (h : List Byte) : Nat := if blkRaw h then 32 + blkLen h else 160 + blkCoded h

/-- The bytes that sub-stream `i` of `parts` decodes. -/
def partLen (len parts i : Nat) : Nat :=
  let part := (len + parts - 1) / parts
  min len ((i + 1) * part) - min len (i * part)

/-- Where sub-stream `i` starts in its block. -/
def partAt (h : List Byte) (i : Nat) : Nat := 160 + ((List.range i).map (blkSlen h)).foldl (· + ·) 0

/-- A block of `size` bytes decoded, with the poison of each byte; none where R382 gives BADSTREAM. -/
def decodeBlock (size : Nat) (bs : List Byte) (ps : List Bool) : Option (List Byte × List Bool) :=
  let h := bs.take 32
  let n := blkLen h
  if !headerOk h || size < blkUsed h then none
  else if blkRaw h then
    some ((bs.drop 32).take n, if (ps.take 32).any id then List.replicate n true else (ps.drop 32).take n)
  else
    let lens := tableLengths ((bs.drop 32).take 128)
    if !lengthsOk lens then none
    else
      let codes := canonicalCodes lens
      let parts := (List.range (blkParts h)).map fun i =>
        let src := (bs.drop (partAt h i)).take (blkSlen h i)
        let bad := (ps.take 160).any id || ((ps.drop (partAt h i)).take (blkSlen h i)).any id
        (readStream codes (partLen n (blkParts h) i) src).map fun vs => (vs, List.replicate vs.length bad)
      if parts.all Option.isSome then
        let l := parts.filterMap id
        some (l.flatMap Prod.fst, l.flatMap Prod.snd)
      else none

/-! ### Building a block (R383) -/

/-- A node of the code tree: weight, creation index, and its leaves with their depths. -/
structure HuffNode where
  weight : Nat
  index  : Nat
  leaves : List (Nat × Nat)
  deriving DecidableEq, Repr

/-- The node of least weight, ties to the lower creation index. -/
def leastNode : List HuffNode → Option HuffNode
  | [] => none
  | x :: r =>
    match leastNode r with
    | none => some x
    | some y => if x.weight < y.weight || (x.weight == y.weight && decide (x.index < y.index)) then some x else some y

/-- Nodes merged two by two until one is left. -/
def mergeNodes : Nat → Nat → List HuffNode → List HuffNode
  | 0, _, l => l
  | fuel + 1, next, l =>
    match leastNode l with
    | none => l
    | some x =>
      let l1 := l.filter (· != x)
      match leastNode l1 with
      | none => l
      | some y =>
        let z : HuffNode := {
          weight := x.weight + y.weight, index := next
          leaves := (x.leaves ++ y.leaves).map fun p => (p.1, p.2 + 1) }
        mergeNodes fuel (next + 1) (l1.filter (· != y) ++ [z])

/-- How often each byte value occurs. -/
def byteCounts (bs : List Byte) : List Nat := (List.range 256).map fun v => (bs.filter fun b => b.toNat == v).length

/-- The code length of each byte value of an input. -/
def buildLengths (bs : List Byte) : List Nat :=
  let counts := byteCounts bs
  let vals := (List.range 256).filter fun v => nth 0 counts v != 0
  match vals with
  | [v] => (List.range 256).map fun x => if x = v then 1 else 0
  | _ =>
    let leaves := ((List.range vals.length).zip vals).map fun p =>
      ({ weight := nth 0 counts p.2, index := p.1, leaves := [(p.2, 0)] } : HuffNode)
    let depths := (mergeNodes 256 vals.length leaves).flatMap HuffNode.leaves
    (List.range 256).map fun x => match depths.find? fun p => p.1 == x with | some p => p.2 | none => 0

/-- A code's bits, most significant first. -/
def codeBits (codes : List Code) (b : Byte) : List Bool :=
  match codes.find? fun c => c.1 == b.toNat with
  | some c => (List.range c.2.1).map fun i => c.2.2.testBit (c.2.1 - 1 - i)
  | none => []

/-- Bits packed into bytes, zero bits at the end. -/
def packBits (bs : List Bool) : List Byte :=
  (chunks 8 ((bs.length + 7) / 8) bs).map fun c =>
    BitVec.ofNat 8 (((c ++ List.replicate (8 - c.length) false).take 8).foldl (fun n b => 2 * n + if b then 1 else 0) 0)

/-- The length table's bytes. -/
def lengthTable (lens : List Nat) : List Byte :=
  (List.range 128).map fun i => BitVec.ofNat 8 (nth 0 lens (2 * i) + 16 * nth 0 lens (2 * i + 1))

/-- A block header's 32 bytes. -/
def blockHeader (nlog flags len : Nat) (slens : List Nat) : List Byte :=
  leBytes 2 0x4B42 ++ leBytes 1 nlog ++ leBytes 1 flags ++ leBytes 4 len ++ ((slens.flatMap (leBytes 3)) ++ leBytes 24 0).take 24

/-- compress() of R383, the padding apart. (DESIGN CHOICE: log entry 82) -/
def compressBlock (bs : List Byte) : List Byte :=
  let n := bs.length
  let nlog := if 4096 ≤ n then 3 else if 1024 ≤ n then 2 else if 256 ≤ n then 1 else 0
  let part := (n + 2 ^ nlog - 1) / 2 ^ nlog
  let lens := buildLengths bs
  let codes := canonicalCodes lens
  let streams := (List.range (2 ^ nlog)).map fun i => packBits (((bs.drop (i * part)).take part).flatMap (codeBits codes))
  let coded := (streams.map List.length).foldl (· + ·) 0
  if lens.any (fun l => decide (15 < l)) || decide (n ≤ 128 + coded) then
    blockHeader 0 1 n [Config.rawSlen n] ++ bs
  else blockHeader nlog 0 n (streams.map List.length) ++ lengthTable lens ++ streams.flatten

end Sys2Proof.Machine
end

