-- ==== Sys2Proof/Machine/Copies.lean ====
section
/-! DEFINITION. The plain, converting, transposing, expanding and compressing copies as the copy engine runs them: their parameters
and checks, the reading of source units and the writing of destination units (spec/09 R237 to R246, spec/18 R379, R390, R391). -/

namespace Sys2Proof.Machine

def Cmd.q (c : Cmd) (i : Nat) : Word := nth 0 c.quad i

/-- The largest byte count that a signal can carry (R235). -/
abbrev maxBytes : Nat := 2147483647

/-! ### Parameters -/

def Cmd.cken (c : Cmd) : Bool := bit (c.q 2) 63
def Cmd.ckcmp (c : Cmd) : Bool := bit (c.q 2) 62
def Cmd.cktest (c : Cmd) : Bool := bit (c.q 2) 61
def Cmd.len (c : Cmd) : Nat := bits (c.q 2) 0 48

/-- Whether a plain copy, or a converting one, computes a checksum. -/
def Cmd.checks (c : Cmd) : Bool := (c.op == 1 || c.op == 3 || (c.op == 2 && c.sub == 0)) && c.cken

/-! ### The remote block (R240, R241) -/

def Cmd.rName (c : Cmd) : BitVec 128 := BitVec.ofNat 128 (fld c.block 0 16)
def Cmd.rOff (c : Cmd) : Nat := fld c.block 16 8
def Cmd.rSem (c : Cmd) : Nat := fld c.block 24 1
def Cmd.rClus (c : Cmd) : Nat := fld c.block 25 1
def Cmd.rSigen (c : Cmd) : Bool := (fld c.block 26 1).testBit 0
def Cmd.rBytes (c : Cmd) : Bool := (fld c.block 26 1).testBit 1

/-- A remote block that was read whole, unpoisoned, with its reserved fields zero. (DEDUCED: log entry 87) -/
def Cmd.blockOk (c : Cmd) : Bool :=
  c.block.length == 64 && !c.blockPsn && decide (c.rClus < 32) && decide (fld c.block 26 1 < 4) && fldZero c.block 27 37

/-! ### Converting copies (R243) -/

def Cmd.sfmt (c : Cmd) : Nat := bits (c.q 2) 48 8

/-- Bytes of an element, or of a packet. -/
def blockBytes (fmt : Nat) : Nat := if fmtPacket.contains fmt then 64 else fmtBytes fmt

/-- A source element of a conversion as an exact value. -/
def sourceFp (fmt x : Nat) : Fp := if fmtFloat.contains fmt then fpDecode (fpOf fmt) x else numDecode fmt x

/-- A decoded packet element in a target format, rounded to nearest even (R62). -/
def fromPacket (dst pkt src n : Nat) : Nat × Nat :=
  let x := packetDecode src pkt n
  if fmtFloat.contains dst then fpRound (fpOf dst) rne x else toInt dst rne x

/-- The destination bytes of a converting copy of `n` source bytes. -/
def cvtLen (sf df n : Nat) : Nat :=
  if fmtPacket.contains df then
    (if fmtPacket.contains sf then n else 64 * ((n / fmtBytes sf + 95) / 96))
  else if fmtPacket.contains sf then n / 64 * 96 * fmtBytes df
  else n / fmtBytes sf * fmtBytes df

/-- Source elements `e` to `e + k - 1` of a conversion as values, as far as the source reaches. -/
def sourceElems (sf : Nat) (src : List Byte) (e k : Nat) : List Fp :=
  if fmtPacket.contains sf then
    ((List.range k).filter fun j => decide ((e + j) / 96 < src.length / 64)).map fun j =>
      packetDecode sf (leNat ((src.drop ((e + j) / 96 * 64)).take 64)) ((e + j) % 96)
  else
    let s := fmtBytes sf
    ((List.range k).filter fun j => decide ((e + j + 1) * s ≤ src.length)).map fun j =>
      sourceFp sf (leNat ((src.drop ((e + j) * s)).take s))

/-- The block of a packet that byte `y` of it belongs to. -/
def blockAt (df y : Nat) : Nat := if y < 48 then y / (blockLen df / 2) else y - 48

/-- Destination byte `x` of a converting copy, with the flags of the roundings behind it: those of its own block of a packet. -/
def cvtByte (sf df band : Nat) (src : List Byte) (x : Nat) : Byte × Nat :=
  if fmtPacket.contains df then
    let es := sourceElems sf src (x / 64 * 96) 96
    let own := ((List.range es.length).zip es).map fun p => if p.1 / blockLen df = blockAt df (x % 64) then p.2 else .zero false
    let r := packetOf df band 0 own
    (BitVec.ofNat 8 (r.1 / 2 ^ (8 * (x % 64))), r.2)
  else
    let w := fmtBytes df
    let e := x / w
    let r := if fmtPacket.contains sf then fromPacket df (leNat ((src.drop (e / 96 * 64)).take 64)) sf (e % 96)
             else convert df sf rne (leNat ((src.drop (e * fmtBytes sf)).take (fmtBytes sf)))
    (BitVec.ofNat 8 (r.1 / 2 ^ (8 * (x % w))), r.2)

/-- The source bytes that hold element `e` of a conversion. -/
def elemDeps (sf e : Nat) : List Nat :=
  if fmtPacket.contains sf then
    let g := 64 * (e / 96)
    let n := e % 96
    let k := blockLen sf
    [g + (k / 2) * (n / k) + n % k / 2, g + 48 + n / k] ++ (if sf = fB8fp4 then [g + 60, g + 61] else [])
  else (List.range (fmtBytes sf)).map fun j => e * fmtBytes sf + j

/-- The source bytes that destination byte `x` of a converting copy is built from. -/
def cvtDeps (sf df x : Nat) : List Nat :=
  if fmtPacket.contains df then
    let k := blockLen df
    let j := blockAt df (x % 64)
    if j * k < 96 then (List.range k).flatMap fun t => elemDeps sf (x / 64 * 96 + j * k + t) else []
  else elemDeps sf (x / fmtBytes df)

/-! ### Transposing copies (R244) -/

def Cmd.elems (c : Cmd) : Nat := bits (c.q 2) 48 16
def Cmd.rows (c : Cmd) : Nat := bits (c.q 3) 48 16
def Cmd.cols (c : Cmd) : Nat := bits (c.q 3) 32 16
def Cmd.sstr (c : Cmd) : Nat := 64 * bits (c.q 3) 16 16
def Cmd.dstr (c : Cmd) : Nat := if c.elems = 0 then 64 * bits (c.q 3) 0 16 else c.elems * fmtBytes c.fmt

/-- The bytes from a locator up to the end of its extent, scratchpad or cluster store. -/
def Cmd.room (c : Cmd) (l : Word) : Nat :=
  match locSpace l with
  | 0 => 2 ^ 20 - locOff l
  | 1 => 2 ^ 25 - locOff l
  | _ => extLen (c.extent (locSlot l)) - locOff l

/-- The bytes from the first to the last of `n` rows of `m` elements of `e` bytes, `step` bytes apart. (DEDUCED: log entry 53) -/
def spanOf (n m e step : Nat) : Nat := if n = 0 ∨ m = 0 then 0 else (n - 1) * step + m * e

/-- The bytes that a transposing copy writes: the elements that lie before the end of the destination's space. (DEDUCED: log entry
53) -/
def Cmd.xposeBytes (c : Cmd) : Nat :=
  let e := fmtBytes c.fmt
  e * ((List.range c.cols).map fun j => min c.rows ((c.room (c.q 1) - j * c.dstr) / e)).foldl (· + ·) 0

/-- The source element of destination byte `x` of a transposing copy, by its first source byte; none where no element is written. -/
def Cmd.xposeFrom (c : Cmd) (x : Nat) : Option Nat :=
  let e := fmtBytes c.fmt
  let j := x / c.dstr
  let i := x % c.dstr / e
  if j < c.cols ∧ i < c.rows ∧ j * c.dstr + (i + 1) * e ≤ c.room (c.q 1) then some (i * c.sstr + j * e) else none

/-! ### One shape for all copies -/

/-- The length of a copy's source range and of its destination range. (DEDUCED: log entry 53) -/
def Cmd.srcLen (c : Cmd) : Nat :=
  match c.op, c.sub with
  | 2, 1 => min (spanOf c.rows c.cols (fmtBytes c.fmt) c.sstr) (c.room (c.q 0))
  | 2, 2 => bits (c.q 3) 0 32
  | _, _ => c.len

def Cmd.dstLen (c : Cmd) : Nat :=
  match c.op, c.sub with
  | 2, 0 => cvtLen c.sfmt c.fmt c.len
  | 2, 1 => min (spanOf c.cols c.rows (fmtBytes c.fmt) c.dstr) (c.room (c.q 1))
  | 2, 3 => bits (c.q 3) 0 32
  | _, _ => c.len

/-- Where a copy's destination starts: an address of its space, or for CPYR an offset in the object. -/
def Cmd.dstAt (c : Cmd) : Nat := if c.op = 3 then c.rOff else c.addr (c.q 1)

def Cmd.srcAt (c : Cmd) : Nat := c.addr (c.q 0)

/-- The source bytes that destination byte `x` is built from; none where the byte is not written. -/
def Cmd.deps (c : Cmd) (x : Nat) : Option (List Nat) :=
  match c.op, c.sub with
  | 2, 0 => some (cvtDeps c.sfmt c.fmt x)
  | 2, 1 =>
    match c.xposeFrom x with
    | some y => some (if y + fmtBytes c.fmt ≤ c.room (c.q 0) then (List.range (fmtBytes c.fmt)).map (y + ·) else [])
    | none => none
  | 2, _ => some []
  | _, _ => some [x]

/-- Source byte `y` as the command has read it. -/
def Cmd.srcByte (c : Cmd) (y : Nat) : Byte × Bool :=
  let a := c.srcAt + y
  match c.got 0 (a / 8) with
  | some w => (BitVec.ofNat 8 (bits w.1 (8 * (a % 8)) 8), w.2)
  | none => (0, false)

/-- Destination byte `x`, and the flags behind it. -/
def Cmd.dstByte (c : Cmd) (x : Nat) : Byte × Nat :=
  let b : Byte × Nat :=
    match c.op, c.sub with
    | 2, 0 =>
      let g := if fmtPacket.contains c.fmt then x / 64 * 96 else x / fmtBytes c.fmt / 96 * 96
      let lo := if fmtPacket.contains c.sfmt then g / 96 * 64 else g * fmtBytes c.sfmt
      let n := min (96 * blockBytes c.sfmt) (c.len - lo)
      let n := if fmtPacket.contains c.sfmt then min 64 n else n
      let src := (List.range n).map fun j => (c.srcByte (lo + j)).1
      cvtByte c.sfmt c.fmt (bits (c.q 3) 48 16) src (x - (if fmtPacket.contains c.fmt then x / 64 * 64 else g * fmtBytes c.fmt))
    | 2, 1 =>
      match c.xposeFrom x with
      | some y =>
        (if y + fmtBytes c.fmt ≤ c.room (c.q 0) then (c.srcByte (y + x % fmtBytes c.fmt)).1 else 0, 0)
      | none => (0, 0)
    | 2, _ => (nth 0 c.out x, 0)
    | _, _ => ((c.srcByte x).1, 0)
  if x = 0 && c.checks && c.cktest then (b.1 ^^^ 1, b.2) else b

/-- Whether a source byte that goes into destination byte `x` was poisoned. -/
def Cmd.dstPsn (c : Cmd) (x : Nat) : Bool :=
  if c.op == 2 && (c.sub == 2 || c.sub == 3) then nth false c.outPsn x
  else ((c.deps x).getD []).any fun y => (c.srcByte y).2

/-- The destination bytes that lie in unit `u` and are written, each by its place in the unit. -/
def Cmd.dstIn (c : Cmd) (u : Nat) : List (Nat × Nat) :=
  ((List.range 8).filter fun j =>
    decide (c.dstAt ≤ 8 * u + j) && decide (8 * u + j < c.dstAt + c.dstLen) && (c.deps (8 * u + j - c.dstAt)).isSome).map fun j =>
    (j, 8 * u + j - c.dstAt)

/-! ### Starting a copy: the checks, in order (R241, R246) -/

/-- BADPARAM of a copy: reserved bits, spaces, checksum bits, lengths (R234, R237, R239, R242, R244, R245). (DEDUCED: log entry 54)
-/
def Cmd.copyBad (c : Cmd) : Bool :=
  let s := c.q 0
  let d := c.q 1
  let q2 := c.q 2
  let q3 := c.q 3
  let ck := (c.ckcmp || c.cktest) && !c.cken
  !locClean s || !locClean d || locSpace s == 3 ||
  (if c.op = 3 then locSpace d != 3 || !c.blockOk else locSpace d == 3) ||
  (match c.op, c.sub with
   | 2, 0 =>
     let packet := fmtPacket.contains c.fmt
     ck || bits q2 56 5 != 0 || !([1, 2, 3, 4, 5, 6, 7, 8, 16, 17, 18, 19, 20, 21, 22, 23].contains c.sfmt) || c.sfmt == c.fmt ||
     c.len % blockBytes c.sfmt != 0 || (packet && (bits q3 32 16 != 0 || c.ckcmp))
   | 2, 1 =>
     let e := fmtBytes c.fmt
     bits q2 0 48 != 0 || decide (c.sstr < c.cols * e) ||
     (if c.elems = 0 then decide (c.dstr < c.rows * e) else bits q3 0 16 != 0 || decide (c.elems < c.rows))
   | 2, _ =>
     bits q2 48 16 != 0 || bits q3 32 32 != 0 || bits q3 0 32 % 64 != 0 || c.len == 0 || decide (65536 < c.len) ||
     (if c.sub = 2 then locSpace s != 1 || locSpace d != 0 || locOff s % 64 != 0
      else locSpace s != 0 || locSpace d != 1 || locOff d % 64 != 0)
   | _, _ => ck || bits q2 48 13 != 0) ||
  (c.bytes && decide (maxBytes < if c.op == 2 && c.sub == 1 then c.xposeBytes else c.dstLen))

/-- The first failing check of a copy. -/
def State.copyCheck (s : State) (c : Cmd) : Nat :=
  if c.copyBad then stBadparam
  else if c.checks && c.cktest && !c.info.ctest then stDenied
  else if c.op == 2 && c.sub == 1 then firstFail [
    s.locCheck c (c.q 0) 0 1 1 false, s.locCheck c (c.q 0) 0 c.srcLen 1 false,
    s.locCheck c (c.q 1) 0 1 1 true, s.locCheck c (c.q 1) 0 c.dstLen 1 true]
  else firstFail [s.locCheck c (c.q 0) 0 c.srcLen 1 false, if c.op = 3 then stOk else s.locCheck c (c.q 1) 0 c.dstLen 1 true]

/-- The physical runs of `n` bytes of a remote command's object, where its home is this module. (DEDUCED: log entry 52) -/
def State.objectRuns (s : State) (c : Cmd) (n : Nat) : List (Nat × Nat × Nat) :=
  match s.nameEntry c.rName with
  | some e => if nameSerial c.rName = s.part.serial then memRuns e.pages (e.base + c.rOff) n else []
  | none => []

/-- Whether a copy's source and destination overlap in their physical runs (R238, R246, R379). (DEDUCED: log entry 53) -/
def State.copyMeets (s : State) (c : Cmd) : Bool :=
  runsMeet (c.locRuns (c.q 0) c.srcLen) (if c.op = 3 then s.objectRuns c c.dstLen else c.locRuns (c.q 1) c.dstLen)

/-- The units of a copy's destination that hold a byte to write. -/
def Cmd.dstUnits (c : Cmd) : List Nat := (unitsOf c.dstAt c.dstLen).filter fun u => !(c.dstIn u).isEmpty

/-- Whether a remote command's object is one of this module. (DEDUCED: log entry 52) -/
def State.ownObject (s : State) (c : Cmd) : Bool := nameSerial c.rName == s.part.serial

/-- The slot under which a command keeps the runs of an object of this module, besides the sixteen of its context. -/
abbrev objSlot : Nat := 16

/-- A remote command of `n` bytes to an object of this module as it starts: the lookup is made here, at once, and the command keeps
the object's runs (R241, R296). (DEDUCED: log entry 52) -/
def State.openObject (s : State) (c : Cmd) (n : Nat) : Cmd :=
  let r := s.remoteLookup s.part.serial c.info.asid c.rName c.rClus c.rOff n
  match s.nameEntry c.rName with
  | some e =>
    if r.1 = stOk then { c with
      remote := 2, pages := put [] c.pages objSlot e.pages, extents := put 0 c.extents objSlot (mkExtent e.base e.len true 0 false true) }
    else c.end_ r.1 0 0
  | none => c.end_ r.1 0 0

/-- The address of an offset of a command's object of this module, whose pages start at a whole one. (DEDUCED: log entry 52) -/
def Cmd.objectVa (c : Cmd) (off : Nat) : Nat := extBase (c.extent objSlot) + off

/-- The request that asks a name's home module for an object (R390). -/
def Cmd.askName (c : Cmd) (n : Nat) : List Byte :=
  leBytes 16 c.rName.toNat ++ leBytes 2 c.info.asid ++ leBytes 1 c.rClus ++ leBytes 8 c.rOff ++ leBytes 8 n

/-- The exponent field of an element of FP32 or BF16 (R386). -/
def exponentOf (fmt v : Nat) : Nat := if fmt = fFp32 then v / 2 ^ 23 % 256 else v / 2 ^ 7 % 256

/-- The 256 entries of a channel's list: the exponents that have been moved to its front, then the others in the starting order
(R386). -/
def listOf (moved : List Nat) : List Nat := moved ++ (List.range 256).filter fun x => !moved.contains x

/-- An exponent moved to the front of a list. -/
def toFront (l : List Nat) (x : Nat) : List Nat := x :: l.filter (· != x)

/-- A list after a flit: every exponent that it carried is moved, in the order of first appearance (R386). (DESIGN CHOICE: log entry
67) -/
def afterFlit (moved flit : List Nat) : List Nat := flit.eraseDups.foldl toFront moved

/-- The Elias-gamma code of `n`, from 1 on: as many zeros as `n` has bits behind its first, then `n` from its highest bit. -/
def eliasGamma (n : Nat) : List Bool :=
  let k := Nat.log2 n
  List.replicate k false ++ (List.range (k + 1)).map fun i => n.testBit (k - i)

/-- The code of an exponent: its position in the list, from 1 on (R386). -/
def exponentCode (moved : List Nat) (e : Nat) : List Bool := eliasGamma ((listOf moved).idxOf e + 1)

/-- The sign and fraction bits of an element: its exponent field is sent apart. -/
def besideExponent (fmt v : Nat) : Nat := v - exponentOf fmt v * (if fmt = fFp32 then 2 ^ 23 else 2 ^ 7)

/-- Whether the elements of a format go coded to and from a module (R386). -/
def State.codes (s : State) (serial fmt : Nat) : Bool :=
  (fmt == fFp32 || fmt == fBf16) &&
  (List.range 16).any fun port => let l := look {} s.links port; s.carries port && l.coded && l.peer == serial

/-- An element of a remote CRED goes out: its object and place in `head`, its bits, its operation and mark in `tail`. On a coded
channel its exponent goes as its code, and the list changes where its flit ends, which the spec does not say. (DESIGN CHOICE: log
entry 67) -/
def State.sendElem (s : State) (serial fmt v : Nat) (head tail : List Byte) : State :=
  let plain := head ++ leBytes 8 v ++ tail
  if !s.codes serial fmt then s.send 0x13 serial plain
  else
    let p := look {} s.peers serial
    let e := exponentOf fmt v
    let code := exponentCode p.sendList e
    let flit := (if p.sendDone then [] else p.sendFlit) ++ [(e, plain)]
    let ends := Config.freeValue s.draws % 2 == 1
    let p := { p with
      sendFlit := flit, sendDone := ends
      sendList := if ends then afterFlit p.sendList (flit.map Prod.fst) else p.sendList }
    let s := { s with draws := s.draws + 1, peers := put {} s.peers serial p }
    s.send 0x16 serial (head ++ leBytes 8 (besideExponent fmt v) ++ leBytes 1 code.length ++ leBytes 4 (packNat 1 (code.map Bool.toNat)) ++ tail)

/-- An element arrives: the exponent of a coded one counts for the list once its flit is over (R386). (DESIGN CHOICE: log entry 67)
-/
def State.takeElem (s : State) (serial fmt v : Nat) (coded ends : Bool) : State :=
  if !coded || !s.codes serial fmt then s
  else
    let p := look {} s.peers serial
    let flit := p.recvFlit ++ [exponentOf fmt v]
    let p := if ends then { p with recvFlit := [], recvList := afterFlit p.recvList flit } else { p with recvFlit := flit }
    { s with peers := put {} s.peers serial p }

/-- A copy as it starts: it ends with the first failing check, or its units are to be moved. (DEDUCED: log entries 52 and 55) -/
def State.planCopy (s : State) (c : Cmd) : State × Cmd :=
  let code := s.copyCheck c
  let meets := s.copyMeets c
  if code ≠ stOk then (s, c.end_ code 0 0)
  else if c.op == 2 && meets && decide (65536 < c.srcLen) then (s, c.end_ stOverlap 0 0)
  else
    let c := { c with whole := meets, todo := if c.op == 2 && (c.sub == 2 || c.sub == 3) then [] else c.dstUnits }
    if c.op = 3 then
      if s.ownObject c then (s, s.openObject c c.dstLen)
      else if !s.reaches (nameSerial c.rName) then (s, c.end_ stUnreachable 0 0)
      else (s.send 0x10 (nameSerial c.rName) (c.askName c.dstLen), { c with remote := 1 })
    else (s, c)

/-! ### Moving units -/

/-- A source unit read (R238): of the source range, not yet read, not locked; an expanding copy reads no padding (R382). -/
def State.copyRead (s : State) (c : Cmd) (u : Nat) : State × Cmd :=
  if !(unitsOf c.srcAt c.srcLen).contains u || (c.got 0 u).isSome then (s, c)
  else
    let g := s.locReach c (c.q 0) u
    if !g.2 then (g.1, c)
    else
      let r := g.1.readLoc c (c.q 0) u
      (r.1, c.keep 0 u r.2)

/-- An expanding copy whose block has been read as far as it goes decodes it whole; a compressing one builds its whole block (R245).
(DEDUCED: log entry 107) -/
def Cmd.build (c : Cmd) : Cmd :=
  if c.sub = 2 then
    if !c.hasRange 0 c.srcAt (min 32 c.srcLen) then c
    else
      let h := c.bytesAt 0 c.srcAt (min 32 c.srcLen)
      let used := if headerOk h.1 then min (blkUsed h.1) c.srcLen else min 32 c.srcLen
      if !c.hasRange 0 c.srcAt used then c
      else
        let b := c.bytesAt 0 c.srcAt used
        match decodeBlock c.srcLen b.1 b.2 with
        | some r => if r.1.length = c.len then { c with phase := 1, out := r.1, outPsn := r.2, todo := c.dstUnits }
                    else c.end_ stBadstream 0 0
        | none => c.end_ stBadstream 0 0
  else if !c.hasRange 0 c.srcAt c.srcLen then c
  else
    let b := c.bytesAt 0 c.srcAt c.srcLen
    let blk := compressBlock b.1
    if c.dstLen < blk.length then c.end_ stToolarge 0 0
    else
      { c with
        phase := 1
        out := blk ++ List.replicate (c.dstLen - blk.length) 0
        outPsn := List.replicate blk.length (b.2.contains true) ++ List.replicate (c.dstLen - blk.length) false
        todo := c.dstUnits }

/-- Whether all that goes into a unit has been read: for overlapping ranges, the whole source. -/
def Cmd.canWrite (c : Cmd) (u : Nat) : Bool :=
  if c.whole then c.hasRange 0 c.srcAt c.srcLen
  else (c.dstIn u).all fun p => ((c.deps p.2).getD []).all fun y => (c.got 0 ((c.srcAt + y) / 8)).isSome

/-- The bytes of a destination unit: mask, data, poison and flags. -/
def Cmd.unitOut (c : Cmd) (u : Nat) : Nat × Word × Bool × Nat :=
  let l := c.dstIn u
  (l.foldl (fun m p => m + 2 ^ p.1) 0,
   BitVec.ofNat 64 (l.foldl (fun x p => x + (c.dstByte p.2).1.toNat * 2 ^ (8 * p.1)) 0),
   l.any fun p => c.dstPsn p.2,
   l.foldl (fun f p => f ||| (c.dstByte p.2).2) 0)

/-- A packet of a remote copy: the unit's offset in the object, its mask, its bytes and its poison. -/
def unitPacket (c : Cmd) (u mask : Nat) (data : Word) (psn : Bool) : List Byte :=
  leBytes 16 c.rName.toNat ++ leBytes 2 c.info.asid ++ leBytes 8 (8 * u) ++ leBytes 1 mask ++ leBytes 8 data.toNat ++
  leBytes 1 (if psn then 1 else 0)

/-- A destination unit written, single-copy atomically (R238). -/
def State.copyWrite (s : State) (c : Cmd) (u : Nat) : State × Cmd :=
  if !c.todo.contains u || !c.canWrite u || (c.op == 3 && c.remote != 2) then (s, c)
  else
    let x := c.unitOut u
    let c' := { c with todo := c.todo.erase u, psn := c.psn || x.2.2.1, flags := c.flags ||| x.2.2.2 }
    if c.op = 3 ∧ s.ownObject c then
      let at_ := unitOn (c.slotPages objSlot) (c.objectVa (8 * u) / 8)
      let g := s.reach c.agent at_
      if g.2 then (g.1.agentSet c.agent at_ x.1 x.2.1 x.2.2.1, c') else (g.1, c)
    else if c.op = 3 then (s.send 0x11 (nameSerial c.rName) (unitPacket c u x.1 x.2.1 x.2.2.1), c')
    else
      let g := s.locReach c (c.q 1) u
      if g.2 then (g.1.writeLoc c (c.q 1) u x.1 x.2.1 x.2.2.1, c') else (g.1, c)

/-! ### The end of a copy -/

/-- The checksum over the delivered bytes (R239). -/
def Cmd.checksum (c : Cmd) : Nat := fletcher (bits (c.q 3) 0 32) ((List.range c.dstLen).map fun x => (c.dstByte x).1)

/-- The bytes that a copy has written when nothing is left to do. -/
def Cmd.wroteAll (c : Cmd) : Nat :=
  if c.op == 2 && c.sub == 1 then c.xposeBytes else c.dstLen

/-- A copy all of whose units are written: RESULT, and CKSUM before POISONED (R235, R239). (DEDUCED: log entry 86) -/
def Cmd.copyEnd (c : Cmd) : Cmd :=
  let n := c.wroteAll
  let r := if c.checks then (if c.len = 0 then bits (c.q 3) 0 32 else c.checksum) else min n 0xFFFFFFFF
  let code := if c.checks && c.ckcmp && r != bits (c.q 3) 32 32 then stCksum else if c.psn then stPoisoned else stOk
  c.end_ code r n

/-- The last packet of a remote command: it carries the signal to the target, which a mismatch of the checksum holds back
(R391). -/
def Cmd.lastPacket (c : Cmd) (n : Nat) (signal : Bool) : List Byte :=
  leBytes 16 c.rName.toNat ++ leBytes 2 c.info.asid ++ leBytes 1 c.rSem ++ leBytes 1 c.rClus ++
  leBytes 1 (if signal && c.rSigen then 1 else 0) ++ leBytes 8 (if c.rBytes then n else 1)

/-- The signal that ends a remote command, as its semaphore, cluster and amount: the semaphore is the cluster's own (R391). (DESIGN
CHOICE: log entry 66) -/
def State.remoteSignal (s : State) (g : Option (Nat × Nat × Nat)) : State :=
  match g with
  | none => s
  | some (sem, clus, amount) => if s.part.hasCluster clus then s.signal clus {} sem amount else s

/-- The end of the writes of a remote command to an object of this module: they are performed, and then the target is signalled,
unless a mismatch of the checksum holds that back (R241, R391). (DEDUCED: log entry 52) -/
def State.objectEnd (s : State) (c : Cmd) (n : Nat) (signal : Bool) : State :=
  (s.showWrites c.id).remoteSignal (if signal && c.rSigen then some (c.rSem, c.rClus, if c.rBytes then n else 1) else none)

/-- The codes that a home module may answer a remote command with (R241, R274, R308, R392). -/
def remoteCodes : List Nat := [stOk, stUnreachable, stGone, stNever, stDenied, stExtent, stRdonly, stPrivate]

/-- The end of a remote command whose peer cannot be reached: how many of what has been sent have been written is not stated (R241).
RESULT counts bytes for a copy and elements for a reduction. (DESIGN CHOICE: log entry 83) -/
def State.lostPeer (s : State) (c : Cmd) (sent : Nat) : State × Cmd :=
  let w := Config.freeValue s.draws % (sent + 1)
  ({ s with draws := s.draws + 1 }, c.end_ stUnreachable (w % 2 ^ 32) (if c.op = 6 then w * fmtBytes c.fmt else w))

/-- What a remote command has sent: bytes of a copy, elements of a reduction. (DESIGN CHOICE: log entry 83) -/
def Cmd.sent (c : Cmd) : Nat :=
  if c.remote < 2 then 0 else if c.op = 6 then bits (c.q 2) 0 48 - c.todo.length else c.dstLen - 8 * c.todo.length

/-- The answer of a name's home, by the phase that a remote command is in: 1 the name, 3 the delivery. (DESIGN CHOICE: log entry 5)
-/
def State.remoteAnswer (s : State) (c : Cmd) (given : Nat) (done : Cmd) : State × Cmd :=
  let code := given - 1
  if given = 0 || !remoteCodes.contains code || c.remote = 0 || s.ownObject c then (s, c)
  else if code = stUnreachable then (if c.remote = 1 then (s, c.end_ stUnreachable 0 0) else s.lostPeer c c.sent)
  else if c.remote = 1 then
    if code = stOk then ({ s with foreign := if s.foreign.contains c.rName then s.foreign else s.foreign ++ [c.rName] }, { c with remote := 2 })
    else (s, c.end_ code 0 0)
  else if c.remote = 3 && code == stOk then (s, done)
  else (s, c)

/-- A copy with nothing left to move: a remote one sends its last packet, any other ends. -/
def State.copyRest (s : State) (c : Cmd) : State × Cmd :=
  if c.finished || !c.todo.isEmpty then (s, c)
  else if c.op = 3 then
    if s.ownObject c then (s.objectEnd c c.dstLen (c.copyEnd.status != stCksum), c.copyEnd)
    else if c.remote = 2 then
      (s.send 0x12 (nameSerial c.rName) (c.lastPacket c.dstLen (c.copyEnd.status != stCksum)), { c with remote := 3 })
    else (s, c)
  else if c.op == 2 && (c.sub == 2 || c.sub == 3) && c.phase == 0 then (s, c)
  else (s, c.copyEnd)

/-- One move of a copy: `(false, u)` reads source unit `u`, `(true, u)` writes destination unit `u`, or builds a block. -/
def State.copyMove (s : State) (c : Cmd) (o : Bool × Nat) : State × Cmd :=
  if c.finished then (s, c)
  else if !o.1 then s.copyRead c o.2
  else if c.op == 2 && (c.sub == 2 || c.sub == 3) && c.phase == 0 then (s, c.build)
  else s.copyWrite c o.2

end Sys2Proof.Machine
end

