-- ==== Sys2Proof/Machine/Elements.lean ====
section
/-! DEFINITION. GATH, SCAE and CRED, and the events of the copy engine: a command's start, its moves and its completion (spec/09 R232,
R235, R247 to R249, spec/18 R379, R392). -/

namespace Sys2Proof.Machine

/-! ### Parameters (R247) -/

def Cmd.count (c : Cmd) : Nat := bits (c.q 2) 0 48
def Cmd.esize (c : Cmd) : Nat := fmtBytes c.fmt

/-- BADPARAM of GATH, SCAE and CRED (R234, R235, R247, R249). -/
def Cmd.elemBad (c : Cmd) : Bool :=
  let sp (i : Nat) : Nat := locSpace (c.q i)
  bits (c.q 2) 48 16 != 0 || !locClean (c.q 0) || !locClean (c.q 1) || sp 0 == 3 ||
  (c.bytes && decide (maxBytes < c.count * c.esize)) ||
  (match c.op with
   | 4 => !locClean (c.q 3) || sp 1 == 3 || sp 3 == 3
   | 5 => !locClean (c.q 3) || sp 1 == 0 || sp 1 == 3 || sp 3 == 3
   | _ => c.q 3 != 0 || (sp 1 == 3 && (!c.blockOk || c.scope != 5)))

/-- The first failing check of the ranges that are checked at the start. (DEDUCED: log entry 53) -/
def State.elemCheck (s : State) (c : Cmd) : Nat :=
  let n := c.count
  let e := c.esize
  if c.elemBad then stBadparam
  else
    match c.op with
    | 4 => firstFail [s.locCheck c (c.q 3) 0 (4 * n) 1 false, s.locCheck c (c.q 1) 0 (n * e) 1 true]
    | 5 => firstFail [s.locCheck c (c.q 0) 0 (n * e) 1 false, s.locCheck c (c.q 3) 0 (4 * n) 1 false]
    | _ => firstFail [s.locCheck c (c.q 0) 0 (n * e) 1 false, if locSpace (c.q 1) = 3 then stOk else s.locCheck c (c.q 1) 0 (n * e) e true]

/-- OVERLAP of R379. -/
def State.elemMeets (s : State) (c : Cmd) : Bool :=
  let n := c.count
  let e := c.esize
  match c.op with
  | 4 => runsMeet (c.locRuns (c.q 1) (n * e)) (c.locRuns (c.q 3) (4 * n))
  | 6 =>
    let a := c.locRuns (c.q 0) (n * e)
    let b := if locSpace (c.q 1) = 3 then s.objectRuns c (n * e) else c.locRuns (c.q 1) (n * e)
    a != b && runsMeet a b
  | _ => false

/-- GATH, SCAE or CRED as it starts. (DEDUCED: log entries 52 and 55) -/
def State.planElem (s : State) (c : Cmd) : State × Cmd :=
  let code := s.elemCheck c
  if code ≠ stOk then (s, c.end_ code 0 0)
  else if s.elemMeets c then (s, c.end_ stOverlap 0 0)
  else if c.op = 6 then
    let c := { c with dst := c.addr (c.q 1) }
    let c := { c with todo := List.range c.count }
    if locSpace (c.q 1) = 3 then
      if s.ownObject c then (s, s.openObject c (c.count * c.esize))
      else if !s.reaches (nameSerial c.rName) then (s, c.end_ stUnreachable 0 0)
      else (s.send 0x10 (nameSerial c.rName) (c.askName (c.count * c.esize)), { c with remote := 1 })
    else (s, c)
  else (s, c)

/-! ### Chunks (R248) -/

/-- The elements of the chunk that a command is in: the first, and how many. -/
def Cmd.chunkAt (c : Cmd) : Nat := 64 * c.chunkNo
def Cmd.chunkLen (c : Cmd) : Nat := min 64 (c.count - c.chunkAt)

/-- Where locator `k`'s bytes for element `n` lie; indices have 4 bytes, other elements the format's. -/
def Cmd.elemAt (c : Cmd) (k n : Nat) : Nat := c.addr (c.q k) + n * (if k = 3 then 4 else c.esize)

/-- A contiguous element that has been read, and its poison. -/
def Cmd.elemVal (c : Cmd) (k n : Nat) : Nat × Bool :=
  let r := c.bytesAt k (c.elemAt k n) (if k = 3 then 4 else c.esize)
  (leNat r.1, r.2.contains true)

/-- The index of element `n`, and whether it is poisoned. -/
def Cmd.indexOf (c : Cmd) (n : Nat) : Nat × Bool := c.elemVal 3 n

/-- The elements of the chunk in order. -/
def Cmd.chunk (c : Cmd) : List Nat := (List.range c.chunkLen).map (c.chunkAt + ·)

/-- Whether the chunk's indices, and for SCAE its values, have been read. -/
def Cmd.chunkRead (c : Cmd) : Bool :=
  c.hasRange 3 (c.elemAt 3 c.chunkAt) (4 * c.chunkLen) &&
  (c.op != 5 || c.hasRange 0 (c.elemAt 0 c.chunkAt) (c.esize * c.chunkLen))

/-- The locator that a chunk's indices address: GATH's data, SCAE's targets. -/
def Cmd.target (c : Cmd) : Nat := if c.op = 4 then 0 else 1

/-- The first failing check of the chunk's targets (R248); an element with a poisoned index has none. (DEDUCED: log entry 118) -/
def State.chunkCheck (s : State) (c : Cmd) : Nat :=
  firstFail (c.chunk.map fun n =>
    let i := c.indexOf n
    if i.2 then stOk else s.locCheck c (c.q c.target) (i.1 * c.esize) c.esize c.esize (c.op == 5))

/-- The address of element `n`'s target. -/
def Cmd.targetAt (c : Cmd) (n : Nat) : Nat := c.addr (c.q c.target) + (c.indexOf n).1 * c.esize

/-- The units of GATH's destination that hold bytes of the chunk. -/
def Cmd.gathUnits (c : Cmd) : List Nat := unitsOf (c.elemAt 1 c.chunkAt) (c.esize * c.chunkLen)

/-- The chunk is over; what has been read for later ones stays. (DEDUCED: log entry 108) -/
def Cmd.nextChunk (c : Cmd) : Cmd :=
  { c with chunkNo := c.chunkNo + 1, phase := 0, src := c.src.filter fun p => decide (2 ^ 64 * (c.chunkNo + 1) ≤ p.1), todo := [] }

/-- The elements that a command has completed, chunk by chunk: not those that it left out for a poisoned index. -/
def Cmd.doneElems (c : Cmd) : Nat := min c.count c.chunkAt - c.skipped

/-! ### Element updates (R248, R249, R314) -/

/-- The operation of an element update of a format, as CRED's SUB codes it (R249). -/
def elemRmw (sub fmt : Nat) : Rmw :=
  let f := fmtF.contains fmt
  let sg := fmtSigned fmt
  match sub with
  | 0 => if f then .fadd else .add
  | 1 => if f then .fmax else if sg then .maxs else .maxn
  | 2 => if f then .fmin else if sg then .mins else .minn
  | 3 => if f then .fmaxp else if sg then .maxs else .maxn
  | _ => if f then .fminp else if sg then .mins else .minn

/-- The operation of a command's element updates: SCAE adds, CRED as SUB says. -/
def Cmd.elemOp (c : Cmd) : Rmw := elemRmw (if c.op = 6 then c.sub else 0) c.fmt

/-- The update that element `n` of a command makes to memory at `va` (R190, R314, R324); none where its unit has been removed (R6). -/
def State.postElem (s : State) (c : Cmd) (n va val : Nat) (psn : Bool) : State :=
  let ps := c.slotPages (locSlot (c.q 1))
  let u : Update := {
    id := s.nextId, cmd := some (c.core, c.id), core := c.core, pa := pagePa ps va, va := va, op := c.elemOp, fmt := c.fmt
    val := val, psn := psn, info := c.info, n := if c.ordLo < c.ordHi then some (c.ordLo + n) else none, logN := c.logLo + n
    born := s.time }
  let s := s.noteWrite c.ctx ps va c.esize
  if (pageOf ps (va / 65536)).isNone then s else { s with updates := s.updates ++ [u], nextId := s.nextId + 1 }

/-- An element of a remote CRED as an update at its point of execution here: unordered and unlogged, of module `sender` or of a
command of this module (R249, R392). (DESIGN CHOICE: log entry 66) -/
def State.postRemote (s : State) (sender : Option Nat) (cmd : Option (Nat × Nat)) (ps : List Page) (va fmt sub val : Nat) (psn : Bool) :
    State × Update :=
  let u : Update := {
    id := s.nextId, cmd := cmd, core := (cmd.map Prod.fst).getD 0, pa := pagePa ps va, va := va
    hi := if va % 8 + fmtBytes fmt ≤ 8 then none else some (pagePa ps (va / 8 * 8 + 8) / 8)
    op := elemRmw sub fmt, fmt := fmt, val := val % 2 ^ fmtWidth fmt, psn := psn, sender := sender, born := s.time }
  ({ s with updates := s.updates ++ [u], nextId := s.nextId + 1 }, u)

/-- Whether updates of a command are still on their way. -/
def State.elemsOut (s : State) (c : Cmd) : Bool := s.updates.any fun u => u.cmd == some (c.core, c.id)

/-- Bytes at an address of locator `k`'s space written, unit by unit. -/
def State.writeElem (s : State) (c : Cmd) (k a : Nat) (bs : List Byte) (psn : Bool) : State :=
  (unitsOf a bs.length).foldl (fun s u =>
    let p := unitPart u a bs
    s.writeLoc c (c.q k) u p.1 p.2 psn) s

/-- A read and a write of one element that no other access to the cluster store interrupts (R248): a marked location stays as it is.
(DEDUCED: log entry 56) -/
def State.addInStore (s : State) (c : Cmd) (a val : Nat) (psn : Bool) : State × Bool :=
  let st := (s.cluster (clusterOf c.ctx)).store
  if psn then (s.writeElem c 1 a (leBytes c.esize 0) true, true)
  else if st.poisoned a c.esize then (s, true)
  else (s.writeElem c 1 a (leBytes c.esize (rmwNew c.elemOp c.fmt (st.nat a c.esize) val 0)) false, false)

/-! ### Moves of GATH and SCAE -/

/-- Whether unit `u` of locator `k` is one that a command reads in its chunk: GATH's data once the chunk's indices are known and its
targets pass their checks, an element of CRED's source, or of its destination in the scratchpad. -/
def State.elemWants (s : State) (c : Cmd) (k u : Nat) : Bool :=
  let inRange (k : Nat) : Bool := (unitsOf (c.elemAt k 0) (c.esize * c.count)).contains u
  let inChunk (k e : Nat) : Bool := (unitsOf (c.elemAt k c.chunkAt) (e * c.chunkLen)).contains u
  if c.op = 6 then (k == 0 && inRange 0) || (k == 1 && locSpace (c.q 1) == 0 && inRange 1)
  else
    (k == 3 && inChunk 3 4) || (k == 0 && c.op == 5 && inChunk 0 c.esize) ||
    (k == 0 && c.op == 4 && c.chunkRead && s.chunkCheck c == stOk &&
      c.chunk.any fun n => !(c.indexOf n).2 && (unitsOf (c.targetAt n) c.esize).contains u)

/-- A unit read, in the chunk of number `key / 2^64`: that of the command, or a later one, whose reads are unordered with an earlier
chunk's reads and writes (R248, R312). (DEDUCED: log entry 108) -/
def State.elemRead (s : State) (c : Cmd) (key : Nat) : State × Cmd :=
  let g := key / 2 ^ 64
  let k := key % 4
  let u := key % 2 ^ 64 / 4
  let x := { c with chunkNo := g }
  if decide (g < c.chunkNo) || c.phase == 2 || !s.elemWants x k u || (x.got k u).isSome then (s, c)
  else
    let w := s.locReach c (c.q k) u
    if !w.2 then (w.1, c)
    else
      let r := w.1.readLoc c (c.q k) u
      (r.1, { x.keep k u r.2 with chunkNo := c.chunkNo })

/-- The value that GATH writes for element `n`, and its poison. -/
def Cmd.gathered (c : Cmd) (n : Nat) : List Byte × Bool :=
  if (c.indexOf n).2 then (leBytes c.esize 0, true)
  else
    let r := c.bytesAt 0 (c.targetAt n) c.esize
    (r.1, r.2.contains true)

/-- GATH writes a destination unit, once the data of its elements have been read. -/
def State.gathWrite (s : State) (c : Cmd) (u : Nat) : State × Cmd :=
  let a := c.elemAt 1 c.chunkAt
  let here := c.chunk.filter fun n => (unitsOf (c.elemAt 1 n) c.esize).contains u
  let known := here.all fun n => (c.indexOf n).2 || c.hasRange 0 (c.targetAt n) c.esize
  let g := s.locReach c (c.q 1) u
  if !c.todo.contains u || !known then (s, c)
  else if !g.2 then (g.1, c)
  else
    let bs := c.chunk.flatMap fun n => if here.contains n then (c.gathered n).1 else leBytes c.esize 0
    let p := unitPart u a bs
    let psn := here.any fun n => (c.gathered n).2
    (g.1.writeLoc c (c.q 1) u p.1 p.2 psn, { c with todo := c.todo.erase u, psn := c.psn || psn })

/-- The chunk's targets are checked; SCAE's updates of memory are posted in ascending order. -/
def State.openChunk (s : State) (c : Cmd) : State × Cmd :=
  let code := s.chunkCheck c
  if !c.chunkRead then (s, c)
  else if code ≠ stOk then (s, { c with status := code, phase := 2 })
  else if c.op = 4 then (s, { c with phase := 1, todo := c.gathUnits })
  else
    let bad := c.chunk.any fun n => (c.indexOf n).2 || (c.elemVal 0 n).2
    let live := c.chunk.filter fun n => !(c.indexOf n).2
    let c := { c with psn := c.psn || bad, skipped := c.skipped + (c.chunkLen - live.length) }
    if locSpace (c.q 1) = 2 then
      (live.foldl (fun s n => s.postElem c n (c.targetAt n) (c.elemVal 0 n).1 (c.elemVal 0 n).2) s, c.nextChunk)
    else (s, { c with phase := 1, todo := live })

/-- SCAE's next element of the chunk in the cluster store. -/
def State.scaeNext (s : State) (c : Cmd) : State × Cmd :=
  match c.todo with
  | [] => (s, c)
  | n :: r =>
    let x := s.addInStore c (c.targetAt n) (c.elemVal 0 n).1 (c.elemVal 0 n).2
    (x.1, { c with todo := r, psn := c.psn || x.2 })

/-- GATH or SCAE with nothing left in its chunk goes on to the next, or ends once its updates have been applied: RESULT counts the
elements completed. (DEDUCED: log entries 108 and 118) -/
def State.chunkRest (s : State) (c : Cmd) : State × Cmd :=
  if c.finished then (s, c)
  else
    let c := if c.phase = 1 ∧ c.todo = [] then c.nextChunk else c
    let n := c.doneElems
    if (c.phase = 2 ∨ c.count ≤ c.chunkAt) ∧ !s.elemsOut c then
      (s, c.end_ (if c.phase = 2 then c.status else if c.psn then stPoisoned else stOk) n (n * c.esize))
    else (s, c)

/-! ### Moves of CRED (R249) -/

/-- One element of a CRED: in the scratchpad its location has been read before; in the cluster store it is read and written at once
(R314); in memory elements are posted in ascending order; one of an object of this module is posted, one of another's is sent.
(DEDUCED: log entry 56) -/
def State.credWrite (s : State) (c : Cmd) (n : Nat) : State × Cmd :=
  let v := c.elemVal 0 n
  let a := c.elemAt 1 n
  let sp := locSpace (c.q 1)
  if !c.todo.contains n || !c.hasRange 0 (c.elemAt 0 n) c.esize then (s, c)
  else
    let c' := { c with todo := c.todo.erase n, psn := c.psn || v.2 }
    if sp = 3 then
      if c.remote ≠ 2 then (s, c)
      else if s.ownObject c then
        ((s.postRemote none (some (c.core, c.id)) (c.slotPages objSlot) (c.objectVa (c.rOff + n * c.esize)) c.fmt c.sub v.1 v.2).1, c')
      else (s.sendElem (nameSerial c.rName) c.fmt v.1
        (leBytes 16 c.rName.toNat ++ leBytes 2 c.info.asid ++ leBytes 8 (c.rOff + n * c.esize))
        (leBytes 1 c.fmt ++ leBytes 1 c.sub ++ leBytes 1 (if v.2 then 1 else 0)), c')
    else if sp = 2 then
      if c.todo.head? = some n then (s.postElem c n a v.1 v.2, c') else (s, c)
    else if sp = 1 then
      let r := s.addInStore c a v.1 v.2
      (r.1, { c' with psn := c'.psn || r.2 })
    else if !c.hasRange 1 a c.esize then (s, c)
    else
      let g := s.askUnits c.core c.id (unitsOf a c.esize)
      if !g.2 then (g.1, c)
      else
        let o := c.elemVal 1 n
        let psn := v.2 || o.2
        (g.1.writeElem c 1 a (leBytes c.esize (rmwNew c.elemOp c.fmt o.1 v.1 0)) psn, { c' with psn := c'.psn || psn })

/-- The end of a CRED: RESULT counts the elements updated. -/
def Cmd.credEnd (c : Cmd) : Cmd := c.end_ (if c.psn then stPoisoned else stOk) (min c.count 0xFFFFFFFF) (c.count * c.esize)

/-- A CRED with nothing left to do: a remote one sends its last packet, any other ends once its updates have been applied. -/
def State.credRest (s : State) (c : Cmd) : State × Cmd :=
  if c.finished || !c.todo.isEmpty then (s, c)
  else if locSpace (c.q 1) = 3 then
    if s.ownObject c then (if s.elemsOut c then (s, c) else (s.objectEnd c (c.count * c.esize) true, c.credEnd))
    else if c.remote = 2 then
      (s.send 0x12 (nameSerial c.rName) (c.lastPacket (c.count * c.esize) true), { c with remote := 3 })
    else (s, c)
  else if s.elemsOut c then (s, c)
  else (s, c.credEnd)

/-! ### The events of the copy engine -/

/-- One move of a command. -/
def State.move (s : State) (c : Cmd) (o : Bool × Nat) : State × Cmd :=
  if c.finished then (s, c)
  else if c.op ≤ 3 then s.copyMove c o
  else if !o.1 then s.elemRead c o.2
  else if c.op = 6 then s.credWrite c o.2
  else if c.phase = 0 then s.openChunk c
  else if c.phase = 2 then (s, c)
  else if c.op = 4 then s.gathWrite c o.2
  else s.scaeNext c

/-- What a command's moves have brought to an end. -/
def State.rest_ (s : State) (c : Cmd) : State × Cmd :=
  if c.op ≤ 3 then s.copyRest c else if c.op = 6 then s.credRest c else s.chunkRest c

/-- Moves in order, each followed by what it brings to an end. -/
def State.moves (s : State) (c : Cmd) : List (Bool × Nat) → State × Cmd
  | [] => s.rest_ c
  | o :: r =>
    let x := s.move c o
    let x := x.1.rest_ x.2
    x.1.moves x.2 r

/-- The started commands of a copy engine (R232). -/
def Core.copying (c : Core) : Nat := (c.cq.filter fun x => x.started && !x.finished).length

/-- Whether an earlier command of the same task that takes keys has not started: the core sends a task's ordered updates in issue
order (R321, R322). (DEDUCED: log entry 44) -/
def Core.afterOrdered (co : Core) (c : Cmd) : Bool :=
  decide (c.ordLo < c.ordHi) && co.cq.any fun x =>
    x.info.uid == c.info.uid && decide (x.id < c.id) && decide (x.ordLo < x.ordHi) && !x.started

/-- ENGINE_COMMAND_START (R232): a command starts once every token that it consumes has completed, four at once; where one of them
counts as a failure, it ends as CANCELLED. `lag` names the units of which it misses the engine writes that it may miss (R310). -/
def execEngineCommandStart (core id : Nat) (lag : List (Nat × Nat)) (s : State) : Out :=
  match (s.core core).copyCmd id with
  | none => .next s
  | some c =>
    if s.still core || c.started || !c.ready then .next s
    else if !c.good then .next (s.setCopy core (c.end_ stCancelled 0 0))
    else if 4 ≤ (s.core core).copying || (s.core core).afterOrdered c then .next s
    else
      let c := s.begin_ c lag
      let r := if c.op ≤ 3 then s.planCopy c else s.planElem c
      .next (r.1.setCopy core r.2)

/-- COPY_COMMAND_COMPLETION (R235): a running command makes the moves given, and takes its home's answer; one that has come to its end
signals, and its token lands. -/
def execCopyCommandCompletion (core id answer : Nat) (ops : List (Bool × Nat)) (s : State) : Out :=
  match (s.core core).copyCmd id with
  | none => .next s
  | some c =>
    if s.still core || !c.started then .next s
    else if c.finished then .next (s.complete c)
    else
      let r := s.remoteAnswer c answer (if c.op = 6 then c.credEnd else c.copyEnd)
      let r := r.1.moves r.2 ops
      let s := r.1.setCopy core r.2
      .next (if r.2.finished then s.complete r.2 else s)

end Sys2Proof.Machine
end

