-- ==== Sys2Proof/Machine/Assayer.lean ====
section
/-! DEFINITION. The Assayer: the checks of an image, its relocation and its sealing (spec/01 R35 to R37, spec/04 R101, R105 to R114,
spec/10 R274). -/

namespace Sys2Proof.Machine

/-! ### What one bundle holds -/

/-- A scalar destination's result, counted when the register is not s0 (R35). -/
def latS (d : BitVec 6) (n : Nat) : List Nat := if d = 0 then [] else [n]

/-- The latencies of the fixed-latency results of an operation, one for each destination register (R35, R37). -/
def fixedLatencies (i : Instr) : List Nat :=
  match i with
  | .mul f | .mulhs f | .mulhn f => latS f.d 3
  | .muli f => latS f.d 3
  | .add f | .sub f | .and f | .or f | .xor f | .andn f | .shl f | .shr f | .sar f | .rotl f | .mins f | .maxs f | .minn f
  | .maxn f | .mov f | .seq f | .sne f | .slt f | .sle f | .sltn f | .slen f | .sel f | .pclr f => latS f.d 1
  | .addi f | .andi f | .ori f | .xori f | .li f | .lih f => latS f.d 1
  | .shli f | .shri f | .sari f | .rotli f | .clz f | .ctz f | .popc f | .bswap f | .bfx f | .bfi f | .sext f | .zext f =>
    latS f.d 1
  | .loop f => latS f.a 1
  | .call f | .calli f => latS f.d 1
  | .csrd f | .time f | .pend f => latS f.d 1
  | .rndx f => latS f.d 1 ++ latS f.a 1
  | .vmul _ | .vfma _ | .vfms _ | .vfnma _ | .vimul _ | .vimad _ => [4]
  | .vadd _ | .vsub _ | .vmin _ | .vmax _ | .vminp _ | .vmaxp _ | .vabs _ | .vneg _ | .viadd _ | .visub _ | .vimin _ | .vimax _
  | .vand _ | .vor _ | .vxor _ | .vshl _ | .vshr _ | .vsar _ | .vsel _ | .vtag _ | .vbcast _ | .vmov _ | .vins _ | .vidx _
  | .vsq _ => [2]
  | .vrndx _ => [2, 2]
  | .vcmp f | .vpand f | .vpor f | .vpxor f | .vpnot f | .vpcnt f | .vpfirst f | .vgtag f | .vext f => latS f.d 2
  | .vcvt _ | .vdqnt _ | .vperm _ | .vzip _ | .vunzip _ | .vslide _ | .accwr _ => [3]
  | .vrcp _ | .vrsq _ | .vqnt _ | .vreda _ | .vredm _ => [6]
  | .vexp2 _ | .vlog2 _ | .vscan _ => [8]
  | .vdiv _ | .vsqrt _ => [12]
  | .accrd _ => [5]
  | .mpw _ => [1]
  | .mpr f => latS f.d 1
  | .lds f => latS f.d 4
  | .ldsv _ => [6]
  | .xcvt _ => [6]
  | .xexp f => List.replicate (if f.fmt = 2 then 6 else 3) 10
  | .xpose f => if f.beat = 7 then List.replicate 8 12 else []
  | .xrd _ => [2]
  | .divs _ | .divn _ | .rems _ | .remn _ | .beq _ | .bne _ | .blt _ | .bge _ | .bltn _ | .bgen _ | .bz _ | .bnz _ | .jmp _
  | .jmpi _ | .ret _ | .chk _ | .sarm _ | .sset _ | .sget _ | .yield _ | .exit _ | .trap _ | .eret _ | .cswr _ | .enq _
  | .mcall _ | .wbld _ | .wbclr _ | .accz _ | .geval _ | .mqstat _ | .sts _ | .stsv _ | .ldm _ | .ldmv _ | .stm _ | .stmv _
  | .ldms _ | .ldmvs _ | .ldt _ | .stt _ | .probe _ | .sqset _ | .sqclr _ | .fence _ | .flush _ | .inval _ | .nres _ | .nstat _
  | .nkill _ | .aadd _ | .afadd _ | .amins _ | .amaxs _ | .aminn _ | .amaxn _ | .afmin _ | .afmax _ | .afminp _ | .afmaxp _
  | .aand _ | .aor _ | .axor _ | .axchg _ | .acas _ | .ncas _ | .scat _ | .scadd _ | .cpy _ | .cpyr _ | .cpytConvert _
  | .cpytTranspose _ | .cpytExpand _ | .cpytCompress _ | .gath _ | .scae _ | .cred _ | .nop
  | .bundleIssue _ _ | .waitSatisfied _ | .pauseEnd _ | .lockWindowEnd _ | .fixedResultLand _
  | .scoreboardResultLand _ _ _ _ | .segmentExpansion _ _ | .loopBufferError _ _ | .taskRetire _
  | .correctableErrorFreeze _ | .freezeEnd _ | .uncorrectableError _ _ _ | .engineStarvation _ _
  | .forcedYield _ | .yieldTurnEnd _ | .engineCommandStart _ _ _ | .copyCommandCompletion _ _ _ _
  | .mma _ _ _ _ | .mmaNm _ _ _ _ | .mmaNmt _ _ _ _ | .mmaCoop _ _ _ _ | .contract _ _ _ _ | .accExport _ _ _ _
  | .accScale _ _ _ _ | .matrixCommandStart _ _ _ | .matrixCommandCompletion _ _ _ _
  | .lodeEvaluation _ _ _ _ _ _ | .streamFetch _ _ _ _ | .deferredUpdateApply _ | .updateOnlyMerge _ _ _
  | .orderedUpdateArrival _ | .orderedUpdateResend _ | .pageMigration _ _ | .nameShootdown _ _
  | .remoteNameResolve _ _ _ _ _ | .remoteDelivery _ _ _ _ _ _ _ | .remoteCredUpdate _ _ _ _ _ _ _ _ _
  | .packetRetransmit _ _ | .peerUnreachable _ | .exponentListReset _ | .swapPeriod _ | .bind _ _ _ _ _ _
  | .swapout _ _ | .swapin _ _ _ _ _ | .bindAbort _ _ | .launchStart _ | .nodeReady _ _ | .launchComplete _
  | .caprd _ _ | .memwr _ _ | .memrd _ _ | .imgld _ _ | .imgul _ _ | .libld _ _ _ | .qset _ _ | .launch _ _
  | .abort _ _ | .watch _ _ | .mapupd _ _ | .objnew _ _ _ | .asset _ _ | .status _ | .pcap _ | .reset _
  | .fwupd _ | .zeroise _ | .moduleReset _ _ _ | .sensorSample _ _ _ _ _ _ | .clockThrottle | .unitRemoval _ _
  | .flushInvalCompletion _ | .linkTraining _ _ _ | .endpointUnlistedOp _ _ | .headframeUnlistedOp _ => []

/-- How the S slot of a bundle directs the path (R108, R113). -/
inductive Flow where
  | plain
  | stops
  | eret
  | trap
  | direct (cond link : Bool) (segoff bidx : Nat)
  | indirect (link : Bool)
  deriving DecidableEq, Repr

/-- The flow of an S-slot operation. -/
def flowOf (i : Option Instr) : Flow :=
  match i with
  | some (.beq f) | some (.bne f) | some (.blt f) | some (.bge f) | some (.bltn f) | some (.bgen f) | some (.bz f)
  | some (.bnz f) | some (.loop f) | some (.chk f) => .direct true false f.segoff.toNat f.bidx.toNat
  | some (.jmp f) => .direct false false f.segoff.toNat f.bidx.toNat
  | some (.call f) => .direct false true f.segoff.toNat f.bidx.toNat
  | some (.jmpi _) | some (.ret _) => .indirect false
  | some (.calli _) => .indirect true
  | some (.exit _) => .stops
  | some (.eret _) => .eret
  | some (.trap _) => .trap
  | _ => .plain

/-- Whether an operation is a control transfer (R108). -/
def Flow.transfer : Flow → Bool
  | .direct _ _ _ _ | .indirect _ => true
  | .plain | .stops | .eret | .trap => false

/-- Whether a transfer writes a link. -/
def Flow.links : Flow → Bool
  | .direct _ l _ _ | .indirect l => l
  | .plain | .stops | .eret | .trap => false

/-- The accumulator bank that a vector slot's operation accesses through the port (R112, 0x0B). -/
def accPort (i : Option Instr) : Option Nat :=
  match i with
  | some (.accrd f) | some (.accwr f) => some (f.opx.toNat / 8192)
  | _ => none

/-- Whether a Y word is inconsistent (R101). -/
def yBad (y : Word) : Bool :=
  (!bit y 24 && (bits y 25 8 != 0 || bits y 33 16 != 0)) || (!bit y 49 && (bits y 50 8 != 0 || bits y 58 6 != 0)) ||
  ((bits y 8 16 == 0) != (bits y 4 4 == 0))

/-- A bundle of an image: the offsets of its presence byte and of its slot words, its operations and its pause. -/
structure Bun where
  pres  : Nat
  words : List Word
  offs  : List Nat
  ops   : List (Option Instr)
  pause : Nat
  deriving DecidableEq, Repr

/-- A segment of an image: the offset of its header, its count, flags, NEXT, size, and its bundles. -/
structure Seg where
  off   : Nat
  count : Nat
  flags : Nat
  next  : Nat
  size  : Nat
  buns  : List Bun
  deriving DecidableEq, Repr

/-- The bundles of a segment from their presence bytes and stored words; `pres` and `at_` are the offsets of the next presence byte and
of the next word. -/
def bundlesAt (bs : List Byte) : List Byte → Nat → Nat → List Bun
  | [], _, _ => []
  | p :: rest, pres, at_ =>
    let off (k : Nat) : Nat := if p.toNat.testBit k then at_ + 8 * onesCount k p.toNat else 0
    let word (k : Nat) : Word := if p.toNat.testBit k then BitVec.ofNat 64 (fld bs (off k) 8) else 0
    { pres := pres
      words := (List.range 8).map word
      offs := (List.range 8).map off
      ops := (List.range 7).map fun k => decodeSlot k (word k)
      pause := bits (word 7) 0 4 } :: bundlesAt bs rest (pres + 1) (at_ + 8 * onesCount 8 p.toNat)

/-- The segment whose header stands at an offset (R105, R106). -/
def segAt (bs : List Byte) (o : Nat) : Seg :=
  let n := fld bs (o + 4) 1
  let pres := (bs.drop (o + 32)).take n
  { off := o, count := n, flags := fld bs (o + 5) 1, next := fld bs (o + 8) 8
    size := segBytes n (bitCount pres)
    buns := bundlesAt bs pres (o + 32) (o + 32 + 8 * ((n + 7) / 8)) }

/-! ### The walk over the segments -/

/-- What the walk finds: the segments in order, the failures met, and where it stopped when a header could not be read; `limit` is the
end of the code, and `tableAt` the offset of the trap table, 0 where there is none in it. -/
structure Walk where
  segs  : List Seg := []
  bad   : List (Nat × Nat) := []
  table : Bool := false
  stop  : Option Nat := none
  limit : Nat := 0
  tableAt : Nat := 0
  deriving DecidableEq, Repr

/-- A failure when a condition holds. -/
def failIf (c : Bool) (off reason : Nat) : List (Nat × Nat) := if c then [(off, reason)] else []

/-- The failures of a segment's own header and padding (R105, R112). (DEDUCED: log entry 80) -/
def segBad (bs : List Byte) (codesz : Nat) (g : Seg) : List (Nat × Nat) :=
  failIf (1 < g.flags) (g.off + 5) 0x02 ++ failIf (!fldZero bs (g.off + 6) 2) (g.off + 6) 0x02 ++
  ((List.range (8 * ((g.count + 7) / 8) - g.count)).flatMap fun j =>
    failIf (fld bs (g.off + 32 + g.count + j) 1 != 0) (g.off + 32 + g.count + j) 0x04) ++
  failIf (64 + codesz < g.off + g.size) codesz 0x04

/-- The segments from offset `o` up, the trap table passed over where it stands (R109, R110). -/
def walkSegs (bs : List Byte) (codesz tt : Nat) : Nat → Nat → Walk
  | 0, _ => {}
  | fuel + 1, o =>
    if 64 + codesz ≤ o then {}
    else if tt = o then { walkSegs bs codesz tt fuel (o + 128) with table := true }
    else if fld bs o 4 ≠ 0x5345474D then { bad := [(o, 0x02)], stop := some o }
    else if fld bs (o + 4) 1 = 0 ∨ 128 < fld bs (o + 4) 1 then { bad := [(o + 4, 0x02)], stop := some o }
    else
      let g := segAt bs o
      let w := walkSegs bs codesz tt fuel (o + g.size)
      { w with segs := g :: w.segs, bad := segBad bs codesz g ++ w.bad }

/-- Whether an offset lies in what the walk could not read: from the unreadable header to the end of the code, but for the trap
table. (DEDUCED: log entry 69) -/
def Walk.beyond (w : Walk) (off : Nat) : Bool :=
  match w.stop with
  | none => false
  | some o => decide (o ≤ off) && decide (off < w.limit) &&
    !(w.tableAt != 0 && decide (w.tableAt ≤ off) && decide (off < w.tableAt + 128))

/-- Whether an offset pointer names a bundle of the image (R28); a pointer into what the walk could not read is taken to name one.
(DEDUCED: log entry 69) -/
def Walk.named (w : Walk) (p : Nat) : Bool :=
  let seg := p % 2 ^ 55
  p / 2 ^ 55 % 4 == 0 && seg % 64 == 0 &&
    (match w.segs.find? fun g => g.off == seg with
    | some g => decide (p / 2 ^ 57 < g.count)
    | none => w.beyond seg)

/-- The bundle named by an offset pointer, as a number among all bundles of the image in order. -/
def bundleNo (segs : List Seg) (off bidx : Nat) : Option Nat :=
  match segs with
  | [] => none
  | g :: r =>
    if g.off = off then (if bidx < g.count then some bidx else none)
    else (bundleNo r off bidx).map (g.count + ·)

/-- The bundle that follows bundle `j` of a segment in fetch order (R107). -/
def fallOf (segs : List Seg) (g : Seg) (j : Nat) : Option Nat :=
  if j + 1 < g.count then bundleNo segs g.off (j + 1)
  else if g.flags % 2 = 1 then none else bundleNo segs (g.next % 2 ^ 55) 0

/-- A bundle in the image: what it holds, what follows it, its direct target, and whether it ends a segment with LAST = 1. -/
structure Node_ where
  bun    : Bun
  flow   : Flow
  fall   : Option Nat
  target : Option Nat
  ends   : Bool
  deriving DecidableEq, Repr

def noBun : Bun := { pres := 0, words := [], offs := [], ops := [], pause := 0 }
def noNode : Node_ := { bun := noBun, flow := .stops, fall := none, target := none, ends := true }

/-- The bundles of the image in order. -/
def nodesOf (segs : List Seg) : List Node_ :=
  segs.flatMap fun g => (List.range g.count).map fun j =>
    let b := nth noBun g.buns j
    let fl := flowOf (nth none b.ops 0)
    { bun := b, flow := fl, fall := fallOf segs g j, ends := decide (g.count ≤ j + 1) && g.flags % 2 == 1
      target := match fl with
        | .direct _ _ so bi => bundleNo segs ((Int.toNat ((g.off : Int) + 64 * toSigned 25 so))) bi
        | _ => none }

/-! ### The checks of one bundle -/

/-- The failures of a bundle's words: reasons 0x05 to 0x0B, 0x0E and 0x0F (R112). (DEDUCED: log entry 32) -/
def bunBad (major : Nat) (b : Bun) : List (Nat × Nat) :=
  let at_ (k : Nat) : Nat := nth 0 b.offs k
  ((List.range 7).flatMap fun k =>
    match unitOfSlot k with
    | some u => (wordReasons u (nth 0 b.words k)).map fun c => (at_ k, c)
    | none => []) ++
  (match nth none b.ops 3 with
    | some (.mcall _) => failIf (major != 1) (at_ 3) 0x0E
    | _ => []) ++
  (match accPort (nth none b.ops 1), accPort (nth none b.ops 2) with
    | some x, some y => failIf (x == y) (at_ 2) 0x0B
    | _, _ => []) ++
  failIf (yBad (nth 0 b.words 7)) (at_ 7) 0x0F

/-- The delay bundles of the transfer at offset `off`, `n` of them still to follow, from bundle `g` on (R108). Where a bad NEXT or an
unreadable header cuts them short, that failure is the one reported (R112). -/
def delayBad (ns : List Node_) (off : Nat) : Nat → Nat → List (Nat × Nat)
  | 0, _ => []
  | n + 1, g =>
    match (nth noNode ns g).fall with
    | none => failIf (nth noNode ns g).ends off 0x0D
    | some h =>
      let d := nth noNode ns h
      failIf (d.flow != Flow.plain) (nth 0 d.bun.offs 0) 0x0D ++ delayBad ns off n h

/-- Whether three delay bundles and a fourth bundle, the return point, follow bundle `g`: they do not where a segment with LAST = 1 ends
before (R112, R138). -/
def followed (ns : List Node_) : Nat → Nat → Bool
  | 0, _ => true
  | n + 1, g => match (nth noNode ns g).fall with | none => !(nth noNode ns g).ends | some h => followed ns n h

/-- The failures of a bundle's control transfer: reasons 0x0C and 0x0D. -/
def flowBad (w : Walk) (ns : List Node_) (seg : Nat) (g : Nat) : List (Nat × Nat) :=
  let n := nth noNode ns g
  let off := nth 0 n.bun.offs 0
  if !n.flow.transfer then []
  else
    (match n.flow with
      | .direct _ _ so _ =>
        let hd := (seg : Int) + 64 * toSigned 25 so
        failIf (n.target.isNone && !(decide (0 ≤ hd) && w.beyond hd.toNat)) off 0x0C
      | _ => []) ++
    delayBad ns off 3 g ++ failIf (n.flow.links && !followed ns 4 g) off 0x0D

/-! ### The paths (R113) -/

/-- A point of a path: a bundle about to issue, the issue cycles that its results in flight have left, a pending redirect with the
delay bundles left (its target `none` when it is indirect), and whether the bundle before ended with more than 32 results. -/
structure Point where
  g     : Nat
  fly   : List Nat
  redir : Option (Option Nat × Nat)
  late  : Bool
  deriving DecidableEq, Repr

/-- Where fetch goes after a bundle, given the redirect that was pending before it. -/
def onward (ns : List Node_) (p : Point) : List (Nat × Option (Option Nat × Nat)) :=
  match p.redir with
  | some (t, 1) => (match t with | some h => if h < ns.length then [h] else [] | none => List.range ns.length).map fun h => (h, none)
  | some (t, k) => match (nth noNode ns p.g).fall with | some h => [(h, some (t, k - 1))] | none => []
  | none => match (nth noNode ns p.g).fall with | some h => [(h, none)] | none => []

/-- The outcomes of the bundle's own transfer (R130); a taken one whose target is not known, past the `k` bundles of the image, ends
the path after its delay bundles. (DEDUCED: log entry 69) -/
def diverted (k : Nat) (n : Node_) (outs : List (Nat × Option (Option Nat × Nat))) : List (Nat × Option (Option Nat × Nat)) :=
  match n.flow with
  | .indirect _ => outs.map fun o => (o.1, some (none, 3))
  | .direct cond _ _ _ => (outs.map fun o => (o.1, some (some (n.target.getD k), 3))) ++ (if cond then outs else [])
  | .plain | .stops | .eret | .trap => outs

/-- The results that the slots below `k` produce. -/
def newResults (n : Node_) (k : Nat) : List Nat :=
  (n.bun.ops.take k).flatMap fun i => match i with | some i => fixedLatencies i | none => []

/-- A number put in its place in a rising list. -/
def insertNat (x : Nat) : List Nat → List Nat
  | [] => [x]
  | y :: r => if x ≤ y then x :: y :: r else y :: insertNat x r

/-- A list in rising order. -/
def sorted (l : List Nat) : List Nat := l.foldr insertNat []

/-- One bundle of a path: the failures that it shows (0x11 to 0x13), and the points that follow. (DEDUCED: log entry 69) -/
def pathStep (ns : List Node_) (p : Point) : List (Nat × Nat) × List Point :=
  let n := nth noNode ns p.g
  let at_ (k : Nat) : Nat := nth 0 n.bun.offs k
  let all := p.fly ++ newResults n 7
  let probe := match nth none n.bun.ops 4 with
    | some (.probe _) => failIf (!(p.fly ++ newResults n 4).isEmpty) (at_ 4) 0x13
    | _ => []
  let now := decide (32 < all.length)
  let many := failIf (now && !p.late) n.bun.pres 0x11
  match n.flow with
  | .eret => (probe ++ many ++ failIf (!all.isEmpty) (at_ 0) 0x12, [])
  | .stops => (probe ++ many, [])
  | .plain | .trap | .direct _ _ _ _ | .indirect _ =>
    let left := sorted ((all.filter fun r => decide (n.bun.pause + 1 < r)).map fun r => r - (n.bun.pause + 1))
    (probe ++ many,
     (diverted ns.length n (onward ns p)).map fun o => { g := o.1, fly := left, redir := o.2, late := now })

/-- Every path followed: `todo` holds the points to look at, `seen` those looked at. The first argument bounds the work. -/
def follow (ns : List Node_) : Nat → List Point → List Point → List (Nat × Nat)
  | 0, _, _ => []
  | _ + 1, _, [] => []
  | fuel + 1, seen, p :: todo =>
    if seen.contains p then follow ns fuel seen todo
    else
      let r := pathStep ns p
      r.1 ++ follow ns fuel (p :: seen) (r.2 ++ todo)

/-- More steps than the paths of `n` bundles can take: a point is fixed by the last thirteen bundles of its path and their redirects, as
the longest latency is 12. -/
def pathFuel (n : Nat) : Nat := (8 * (n + 2) ^ 2) ^ 16

/-- The failures of reasons 0x11 to 0x13 on the paths from some bundles. -/
def pathBad (ns : List Node_) (starts : List Nat) : List (Nat × Nat) :=
  follow ns (pathFuel ns.length) [] (starts.map fun g => { g := g, fly := [], redir := none, late := false })

/-! ### The whole image -/

/-- The fields of an image header (R109). -/
abbrev imgEntry (bs : List Byte) : Nat := fld bs 8 8
abbrev imgTable (bs : List Byte) : Nat := fld bs 16 8
abbrev imgCodesz (bs : List Byte) : Nat := fld bs 24 8
abbrev imgDatasz (bs : List Byte) : Nat := fld bs 32 8

/-- Whether TRAPTAB stands where a trap table may stand (R110). -/
def tableOk (bs : List Byte) : Bool :=
  let t := imgTable bs
  t == 0 || (decide (t < 2 ^ 55) && t % 64 == 0 && decide (64 ≤ t) && decide (t + 128 ≤ 64 + imgCodesz bs))

/-- The walk over an image's segments. (DEDUCED: log entry 69) -/
def walkOf (bs : List Byte) : Walk :=
  let tt := if tableOk bs then imgTable bs else 0
  { walkSegs bs (imgCodesz bs) tt (imgCodesz bs / 64 + 2) 64 with limit := 64 + imgCodesz bs, tableAt := tt }

/-- The failures of the chain: NEXT against LAST, and what NEXT names (R105). (DEDUCED: log entry 102) -/
def chainBad (w : Walk) (g : Seg) : List (Nat × Nat) :=
  let last := g.flags % 2 == 1
  failIf (!(((g.next == 0) == last) && (last || (g.next / 2 ^ 57 == 0 && w.named g.next)))) (g.off + 8) 0x03

/-- Whether the walk has gone past an offset at which no header stands. -/
def Walk.passed (w : Walk) (off : Nat) : Bool := match w.stop with | none => true | some o => decide (off < o)

/-- The failures of the trap table's entries (R110). -/
def tableBad (bs : List Byte) (w : Walk) : List (Nat × Nat) :=
  let t := imgTable bs
  (List.range 16).flatMap fun c =>
    let v := fld bs (t + 8 * c) 8
    failIf (v != 0 && (c == 0 || decide (9 < c) || !w.named v)) (t + 8 * c) 0x10

/-- Every failure of an image, each an offset and a reason (R112). -/
def imageBad (bs : List Byte) : List (Nat × Nat) :=
  let w := walkOf bs
  let ns := nodesOf w.segs
  let hasTable := imgTable bs != 0 && tableOk bs
  let misplaced := hasTable && !w.table && w.passed (imgTable bs)
  let starts := (imgEntry bs :: (if hasTable && !misplaced then
    (List.range 9).map fun c => fld bs (imgTable bs + 8 * (c + 1)) 8 else [])).filter fun p => p != 0 && w.named p
  let firsts := w.segs.flatMap fun g => (List.range g.count).map fun _ => g.off
  failIf (fld bs 0 4 != 0x474D494D) 0 0x01 ++ failIf (fld bs 4 2 != 1) 4 0x01 ++
  failIf (imgCodesz bs % 64 != 0) 24 0x01 ++ failIf (!fldZero bs 40 24) 40 0x01 ++
  failIf (!w.named (imgEntry bs)) 8 0x01 ++
  failIf (!tableOk bs || misplaced) 16 0x10 ++
  (if hasTable && !misplaced then tableBad bs w else []) ++
  w.bad ++ w.segs.flatMap (chainBad w) ++ ns.flatMap (fun n => bunBad (fld bs 7 1) n.bun) ++
  ((List.range ns.length).flatMap fun g => flowBad w ns (nth 0 firsts g) g) ++
  pathBad ns (starts.filterMap fun p => bundleNo w.segs (p % 2 ^ 55) (p / 2 ^ 57))

/-- Of two failures the one that is reported: the lowest offset, and there the lowest reason (R111). (DEDUCED: log entry 32) -/
def lowerBad (x y : Nat × Nat) : Nat × Nat := if x.1 < y.1 ∨ (x.1 = y.1 ∧ x.2 ≤ y.2) then x else y

/-- The failure that is reported, where there is any. (DEDUCED: log entry 69) -/
def firstFailure : List (Nat × Nat) → Option (Nat × Nat)
  | [] => none
  | x :: r => match firstFailure r with | none => some x | some y => some (lowerBad x y)

/-! ### Relocation and sealing -/

/-- Bytes of a list replaced from an offset on. -/
def patch (bs : List Byte) (off : Nat) (new : List Byte) : List Byte := bs.take off ++ new ++ bs.drop (off + new.length)

/-- A stored code pointer relocated: the base added unless it is zero (R109). -/
def relocate (base : Nat) (bs : List Byte) (off : Nat) : List Byte :=
  if fld bs off 8 = 0 then bs else patch bs off (leBytes 8 (fld bs off 8 + base))

/-- A segment sealed (R114). (DEDUCED: log entry 40) -/
def sealSeg (key base : Nat) (bs : List Byte) (g : Seg) : List Byte :=
  patch bs (g.off + 16) (sealOf key base (base + g.off) ((bs.drop g.off).take g.size))

/-- The offsets of the code pointers that an image stores (R109). -/
def relocated (bs : List Byte) (w : Walk) : List Nat :=
  let t := imgTable bs
  [8, 16] ++ (if t = 0 then [] else (List.range 16).map fun c => t + 8 * c) ++ w.segs.map fun g => g.off + 8

/-- The bytes of an image that passed, relocated and sealed. -/
def sealedImage (key base : Nat) (bs : List Byte) : List Byte :=
  let w := walkOf bs
  w.segs.foldl (sealSeg key base) ((relocated bs w).foldl (relocate base) bs)

/-- The frames of the 64 KiB pages of a range that are mapped. (DEDUCED: log entry 69) -/
def State.mappedFrames (s : State) (asid va n : Nat) : List Nat :=
  ((pagesOf va n).filterMap fun p => s.translate asid (p * 65536)).map fun l => l.pa / 65536

/-- The pages of an image's range, header, code and data (R109). -/
def imageRange (codesz datasz : Nat) : Nat := 64 + codesz + datasz

/-- Whether two ranges meet. -/
def rangesMeet (a n b m : Nat) : Bool := decide (a < b + m) && decide (b < a + n)

/-- The stored pointers and seals of an image written to memory; no other byte of it changes. (DEDUCED: log entry 69) -/
def State.writeSealed (s : State) (key asid base : Nat) (bs : List Byte) : State :=
  let w := walkOf bs
  let done := sealedImage key base bs
  let put_ (n : Nat) (s : State) (off : Nat) : State := s.agentWrite asid (base + off) ((done.drop off).take n) []
  (w.segs.map fun g => g.off + 16).foldl (put_ 16) ((relocated bs w).foldl (put_ 8) s)

/-- The load of an image (R111, R388): the state, the status and the result word. Code that carries poison marks is read as the
zeros that memory holds there. (DEDUCED: log entry 69; DESIGN CHOICE: log entry 84) -/
def State.loadImage (s : State) (asid base : Nat) : State × Nat × Nat :=
  let c0 := s.deviceCheck asid base 64 false
  if base % 65536 ≠ 0 then (s, stBadparam, 0)
  else if c0 ≠ stOk then (s, c0, 0)
  else
    let r := s.agentRead asid base 64
    let s := r.1
    let fin := 64 + imgCodesz r.2.1
    let c1 := s.deviceCheck asid base fin false
    if s.images.any (fun i => i.asid == asid &&
        rangesMeet base (fin + imgDatasz r.2.1) i.base (imageRange i.codesz i.datasz)) then (s, stDenied, 0)
    else if c1 ≠ stOk then (s, c1, 0)
    else
      let r := s.agentRead asid base fin
      let s := r.1
      let bs := r.2.1
      match firstFailure (imageBad bs), s.boss.sealKey with
      | some (off, reason), _ => (s, stRejected, off * 256 + reason)
      | none, none => (s, stRejected, 0)
      | none, some key =>
        let reloc (p : Nat) : Word := if p = 0 then 0 else BitVec.ofNat 64 (p + base)
        let img : Image := {
          asid := asid, base := base, entry := reloc (imgEntry bs), traptab := reloc (imgTable bs)
          codesz := imgCodesz bs, datasz := imgDatasz bs, libdecl := fld bs 6 2
          pages := s.mappedFrames asid base (fin + imgDatasz bs)
          segs := (walkOf bs).segs.map fun g => (base + g.off, g.count) }
        ({ s.writeSealed key asid base bs with images := s.images ++ [img] }, stOk, 0)

end Sys2Proof.Machine
end

