-- ==== Sys2Proof/Machine/Teams.lean ====
section
/-! DEFINITION. The bind records: binding a team, swapping a group out and in, and aborting a team (spec/01 R30, spec/11 R281, R284,
R292, spec/14 R333, R335 to R344). -/

namespace Sys2Proof.Machine

/-! ### Groups (R333, R337) -/

/-- The group of a team: TY, TZ and floor(TX / STAGES) as one number. -/
def Node.groupOf (nd : Node) (l : Nat) : Nat := l / nd.stages

/-- The linear numbers of a group's teams. -/
def Node.groupTeams (nd : Node) (g : Nat) : List Nat := (List.range nd.stages).map fun j => g * nd.stages + j

/-- Whether every task of a group has been reported. -/
def Node.groupOver (nd : Node) (g : Nat) : Bool :=
  (nd.groupTeams g).all fun l => (List.range nd.tasks).all fun t => nd.retired.contains (64 * l + t)

/-- A bind record's 64 bytes (R337). -/
def BindRec.bytes (r : BindRec) (nd : Node) : List Byte :=
  let flag (b : Bool) (i : Nat) : Nat := if b then 2 ^ i else 0
  let i := r.info
  leBytes 1 r.op ++ leBytes 1 r.state ++ leBytes 2 i.asid ++
  leBytes 1 (flag i.det 0 + flag i.fuse 1 + flag i.gsem 2 + flag i.ctest 3 + flag i.record 4 + flag i.replay 5) ++
  leBytes 1 r.tasks ++ leBytes 1 i.stage ++ leBytes 1 0 ++ leBytes 8 r.mask.toNat ++ leBytes 8 r.nodeRec ++
  leBytes 4 (teamKey nd i.team) ++ leBytes 2 i.phase ++ leBytes 1 i.node ++ leBytes 1 0 ++ leBytes 8 r.spill ++
  leBytes 8 i.seq ++ leBytes 8 r.ptRoot ++ leBytes 8 r.args

/-- Whether a bind record holds its cluster for its group: a team is bound, or is done while its group goes on there. -/
def State.standing (s : State) (r : BindRec) : Bool :=
  let nd := s.launchNode r.info.seq r.info.node
  r.state == 1 || r.state == 2 || ((r.state == 4 || r.state == 5) && !r.gone && !nd.groupOver (nd.groupOf r.info.team))

/-- Whether a bind record belongs to group `g` of a node. -/
def State.ofGroup (s : State) (r : BindRec) (seq node g : Nat) : Bool :=
  r.state != 0 && r.info.seq == seq && r.info.node == node && (s.launchNode seq node).groupOf r.info.team == g

/-- Whether a cluster is free for a group: it holds no other (R337). -/
def State.freeFor (s : State) (cl seq node g : Nat) : Bool :=
  (s.cluster cl).slots.all fun p => !s.standing p.2 || s.ofGroup p.2 seq node g

/-- Whether a group holds a cluster other than `cl`. -/
def State.elsewhere (s : State) (cl seq node g : Nat) : Bool :=
  s.clusters.any fun c => c.1 != cl && c.2.slots.any fun p => s.ofGroup p.2 seq node g && s.standing p.2

/-- Whether a group has been swapped out: no team of it is bound until it comes back as a whole (R333). -/
def State.groupOut (s : State) (seq node g : Nat) : Bool :=
  s.clusters.any fun c => c.2.slots.any fun p => s.ofGroup p.2 seq node g && p.2.state == 3

/-- Whether a group holds a cluster or has been swapped out. -/
def State.groupPlaced (s : State) (seq node g : Nat) : Bool :=
  s.groupOut seq node g || s.clusters.any fun c => c.2.slots.any fun p => s.ofGroup p.2 seq node g && s.standing p.2

/-- Whether a team that is or comes to a cluster lets another stand beside it there: a fused one does not (R284). -/
def State.fuseFits (s : State) (cl : Nat) (nd : Node) : Bool :=
  (s.cluster cl).slots.all fun p => !(p.2.state == 1 || p.2.state == 2) || !(nd.fuse || p.2.info.fuse)

/-- The contexts of a CTXMASK on a cluster, in the order of its tasks (R337). -/
def maskContexts (cl : Nat) (mask : BitVec 64) : List Nat := ((List.range 64).filter (bit mask)).map (64 * cl + ·)

/-- Whether contexts are free to be bound: with no task, and named by no bound team. -/
def State.freeContexts (s : State) (ks : List Nat) : Bool :=
  ks.all fun k => !(s.ctx k).bound &&
    (s.cluster (clusterOf k)).slots.all fun p => !((p.2.state == 1 || p.2.state == 2) && p.2.left.contains k)

/-! ### The state of a task at dispatch (R26, R30, R292, R338) -/

/-- One range declaration resolved for a task (R292, R338): the failing status, or the task with its slot bound. -/
def State.resolveRange (s : State) (a : Arch) (core cl j : Nat) (r : List Byte) : State × Except Nat Arch :=
  let f := fld r 16 1
  let wr := f.testBit 2
  if !f.testBit 0 then (s, .ok a)
  else if f.testBit 1 then
    let n := BitVec.ofNat 128 (fld r 0 16)
    match s.resolve cl a.info.asid n with
    | .fails c => (s, .error c)
    | .good e =>
      let s := s.cacheName cl n
      if wr && e.right s.part.serial a.info.asid != 3 then (s, .error stDenied)
      else
        let code := if e.whole then s.pagesCheck core e.pages wr else stExtent
        if code ≠ stOk then (s, .error code)
        else
          let b := s.bindName a j n e wr (f.testBit 3)
          (b.1, .ok b.2)
  else
    let va := fld r 0 8
    let len := fld r 8 8
    let code := s.rangeCheck core a.info.asid va len wr
    if code ≠ stOk then (s, .error code)
    else
      let ps := s.pagesAt a.info.asid va len
      let img := s.imagePages
      let at_ := slotAttr ps
      let p := s.pinPages a ps (f.testBit 3)
      let e := mkExtent va len (wr && !(ps.any fun p => img.contains p.frame)) at_.1 at_.2 false
      (p.1, .ok { p.2 with e := put 0 p.2.e j e, ePages := put [] p.2.ePages j ps })

/-- The ranges of a task resolved in order: with the first failure, what the task had bound is given back. -/
def State.resolveRanges (s : State) (core cl : Nat) : List (Nat × List Byte) → Arch → State × Except Nat Arch
  | [], a => (s, .ok a)
  | r :: rest, a =>
    match s.resolveRange a core cl r.1 r.2 with
    | (s, .error c) => (s.releaseNames a, .error c)
    | (s, .ok a) => s.resolveRanges core cl rest a

/-- TASKID (R26). -/
def taskId (nd : Node) (l t : Nat) : Word :=
  BitVec.ofNat 64 (teamKey nd l + t * 2 ^ 30 + nd.stageOf l * 2 ^ 36 + phaseOf nd l * 2 ^ 40)

/-- CSW at dispatch (R24, R338). -/
def bindCsw (nd : Node) : Word := BitVec.ofNat 64 (nd.enables * 2 ^ 16 + nd.rmode * 2 ^ 24 + if nd.det then 16 else 0)

/-- The argument words of a node's tasks at bind time (R334). -/
def bindArgs (l : Launch) (nd : Node) : List Word :=
  (List.range 8).map fun j => if nd.argsel.testBit j then nth 0 l.carry j else nth 0 nd.args j

/-- A task's state at dispatch, its ranges apart, with the argument words of its bind record (R30, R338). (DESIGN CHOICE: log entry
7) -/
def State.freshArch (s : State) (l : Launch) (node team t : Nat) (args : List Word) : Arch :=
  let nd := look {} l.nodes node
  let img := s.images.find? fun i => i.asid == l.asid && i.base == l.image
  { s := (List.range 8).foldl (fun m j => put {} m (j + 1) { val := nth 0 args j }) []
    csw := bindCsw nd
    taskid := taskId nd team t
    trapvec := match img with | some i => i.traptab | none => 0
    lib := match img with | some i => BitVec.ofNat 64 (i.libdecl * 2 ^ 16 + s.libver) | none => 0
    pos := BitVec.ofNat 64 nd.entry
    info := {
      uid := s.nextId + 1, seq := l.seq, node := node, team := team, task := t, stage := nd.stageOf team, phase := phaseOf nd team
      key := taskKey nd team t, asid := l.asid, image := l.image, group := nd.groupOf team, det := nd.det, fuse := nd.fuse
      gsem := nd.gsem, ctest := l.ctest, record := l.record, replay := l.replay } }

/-- A record of a cluster changed. -/
def State.updRecord (s : State) (cl record : Nat) (f : BindRec → BindRec) : State :=
  let c := s.cluster cl
  s.setCluster cl { c with slots := put {} c.slots record (f (look {} c.slots record)) }

/-- Task `t` of a bound team: it starts, or is reported with the status of the range that failed (R338). STATE moves from 1 to 2 with the
first task that starts. -/
def State.startTask (s : State) (cl record t : Nat) : State :=
  let r := look {} (s.cluster cl).slots record
  if !r.toStart.contains t then s
  else
    let l := s.theLaunch r.info.seq
    let nd := s.launchNode r.info.seq r.info.node
    let k := nth 0 r.ctxs t
    let a := s.freshArch l r.info.node r.info.team t r.argWords
    let s := { s with nextId := s.nextId + 1 }
    match s.resolveRanges (coreOf k) cl ((List.range 16).zip nd.ranges) a with
    | (s, .ok a) =>
      let s := s.updRecord cl record fun r => { r with state := if r.state = 1 then 2 else r.state, toStart := r.toStart.filter (· != t) }
      (s.setCtx k { bound := true, arch := a }).settle k
    | (s, .error c) => s.failTask cl record t c

/-- A cluster's memories zeroed before a team of another address space (R281); banks that stand there for swapped teams are spilled
first (R342). -/
def State.zeroCluster (s : State) (cl : Nat) : State :=
  let s := s.spillBanks (clusterCores cl) (· != 0)
  let s := s.setCluster cl { s.cluster cl with store := {} }
  (clusterCores cl).foldl (fun s c => s.setCore c { s.core c with spm := {}, acc := [], accBy := [], wb := {} }) s

/-- What happens before the first task of a group starts (R281, R336, R338). -/
def State.openCluster (s : State) (cl : Nat) (l : Launch) (nd : Node) : State :=
  let c := s.cluster cl
  let s := match c.lastAsid with
    | some a => if a = l.asid then s else s.zeroCluster cl
    | none => s
  let c := s.cluster cl
  s.setCluster cl { c with lastAsid := some l.asid, keptFor := none, sems := c.sems.filter fun p => nd.gsem && decide (248 ≤ p.1) }

/-! ### BIND (R338) -/

/-- Whether the phase of a team is open (R335). -/
def phaseOpen (nd : Node) (team : Nat) : Bool :=
  nd.allTasks.all fun p => decide (phaseOf nd team ≤ phaseOf nd p.1) || nd.retired.contains (64 * p.1 + p.2)

/-- Whether a node of a launch takes teams now (R329, R334, R344). -/
def State.nodeOpen (s : State) (l : Launch) (nd : Node) : Bool :=
  l.seq != 0 && l.started && !l.done && !l.aborted && l.dataFail.isNone && nd.ready && !nd.complete &&
  (!nd.boundTeams.isEmpty || !s.heldBack l)

/-- Whether a node has a team that waits for a cluster of its own: not bound, of an open phase, and of a group that is nowhere. -/
def State.teamWaits (s : State) (l : Launch) (node : Nat) : Bool :=
  let nd := look {} l.nodes node
  s.nodeOpen l nd && (List.range (nd.gx * nd.gy * nd.gz)).any fun t =>
    !nd.boundTeams.contains t && phaseOpen nd t && !s.groupPlaced l.seq node (nd.groupOf t)

/-- The swapped teams of a node, each by its cluster and record. -/
def State.teamsOut (s : State) (seq node : Nat) : List (Nat × Nat × BindRec) :=
  s.clusters.flatMap fun c => (c.2.slots.filter fun p => p.2.state == 3 && p.2.info.seq == seq && p.2.info.node == node).map fun p =>
    (c.1, p.1, p.2)

/-- Whether a node has a ready team that is not bound (R340). -/
def State.readyTeam (s : State) (seq node : Nat) : Bool :=
  s.teamWaits (s.theLaunch seq) node || (s.teamsOut seq node).any fun x => x.2.2.readyAt.isSome

/-- Whether a cluster is free for a node: a SWAPOUT has freed it for a ready team of another one no more (R343, R344). (DEDUCED: log
entry 77) -/
def State.keptFrom (s : State) (cl seq node : Nat) : Bool :=
  match (s.cluster cl).keptFor with
  | some q => q != (seq, node) && s.readyTeam q.1 q.2
  | none => false

/-- Whether a launch may be the next of its priority to have a cluster: queues are served in turn (R344). (DEDUCED: log entry 77) -/
def State.itsTurn (s : State) (l : Launch) : Bool :=
  let far (q : Nat) : Nat := (q + 64 - look 0 s.turns l.prio) % 64
  s.launches.all fun p => p.2.prio != l.prio || decide (far l.queue ≤ far p.2.queue) ||
    !(p.2.nodes.any fun n => s.teamWaits p.2 n.1)

/-- Whether the Overman's rules let a team be bound (R284, R329, R333 to R335, R337, R344). (DEDUCED: log entry 77) -/
def State.mayBind (s : State) (cl record seq node team : Nat) (mask : BitVec 64) : Bool :=
  let l := s.theLaunch seq
  let nd := s.launchNode seq node
  let g := nd.groupOf team
  let ks := maskContexts cl mask
  s.nodeOpen l nd && decide (team < nd.gx * nd.gy * nd.gz) && !nd.boundTeams.contains team && decide (record < 64) &&
  s.part.hasCluster cl && ks.length == nd.tasks && s.freeContexts ks &&
  (let r := look {} (s.cluster cl).slots record; r.state != 3 && !s.standing r) &&
  s.freeFor cl seq node g && !s.elsewhere cl seq node g && !s.groupOut seq node g && s.fuseFits cl nd &&
  !s.keptFrom cl seq node && (s.groupPlaced seq node g || (s.cluster cl).keptFor == some (seq, node) || s.itsTurn l) && phaseOpen nd team

/-- A bind record as the Overman writes it for a team: where it keeps its own copies and the spill region, no program can tell
(R337). (DESIGN CHOICE: log entry 94) -/
def State.newRecord (s : State) (l : Launch) (node team : Nat) (mask : BitVec 64) (ks : List Nat) : BindRec :=
  let nd := look {} l.nodes node
  { op := 1, state := 1, info := (s.freshArch l node team 0 []).info, tasks := nd.tasks, mask := mask
    nodeRec := Config.freeValue s.draws, spill := Config.freeValue (s.draws + 1), args := Config.freeValue (s.draws + 2)
    argWords := bindArgs l nd
    ptRoot := (s.root l.asid).getD 0, ctxs := ks, toStart := List.range nd.tasks, left := ks }

/-- The Overman writes a BIND record: with the first team of its group the cluster is opened; a fused team finds every L1 of the cluster
flushed (R284). -/
def State.bindTeam (s : State) (cl record seq node team : Nat) (mask : BitVec 64) : State :=
  let nd := s.launchNode seq node
  let l := s.theLaunch seq
  let first := !s.groupPlaced seq node (nd.groupOf team)
  let s := if first then { s.openCluster cl l nd with turns := put 0 s.turns l.prio (l.queue + 1) } else s
  let s := if nd.fuse then s.flushCluster cl else s
  let s := s.updNode seq node fun nd =>
    { nd with
      boundTeams := nd.boundTeams ++ [team], ran := true, gsems := if nd.boundTeams.isEmpty then [] else nd.gsems
      overdue := if first then 0 else nd.overdue }
  let r := s.newRecord l node team mask (maskContexts cl mask)
  { s.updRecord cl record fun _ => r with draws := s.draws + 3 }

/-- BIND (R338): the Overman has written a BIND record for team `team` of a node, with the CTXMASK of `tasks`, and the tasks that it
lists start, or for the record of a team that it wrote before, further tasks start. (DESIGN CHOICE: log entries 2 and 11; DEDUCED:
log entry 77) -/
def execBind (cluster record seq node team : Nat) (tasks : BitVec 64 × List Nat) (s : State) : Out :=
  let r := look {} (s.cluster cluster).slots record
  let go (s : State) : State := tasks.2.foldl (fun s t => s.startTask cluster record t) s
  if r.info.seq = seq ∧ r.info.node = node ∧ r.info.team = team ∧ r.toStart ≠ [] then .next (go s)
  else if s.mayBind cluster record seq node team tasks.1 then .next (go (s.bindTeam cluster record seq node team tasks.1))
  else .next s

/-! ### Swapping (R340 to R343) -/

/-- Whether a context is blocked on a Y-slot wait of its fetched bundle; answers whether the wait is grid-scope. -/
def State.yWaiting (s : State) (k : Nat) : Option Bool :=
  let c := s.ctx k
  match c.bundleAt c.arch.pos with
  | some ws =>
    let y := yOf ws
    if s.due k && yWen y && !c.waitMet then some (c.arch.info.onGrid (yWsem y)) else none
  | none => none

/-- Whether a scoreboarded result is that of a load, or of an atomic. (DEDUCED: log entry 77) -/
def SbEntry.isLoad (e : SbEntry) : Bool :=
  match e.what with
  | .scalar _ | .vector _ | .pair _ _ _ | .update _ | .late _ => true
  | _ => false

/-- The conditions of R340 at one moment for the tasks of a record that have not retired. -/
def State.idleTeam (s : State) (r : BindRec) : Bool :=
  let waits := r.left.map s.yWaiting
  r.state == 2 && r.toStart.isEmpty && r.info.gsem && waits.all Option.isSome && waits.any (· == some true) &&
  r.left.all fun k =>
    let c := s.ctx k
    ((s.core (coreOf k)).commandsOf k).isEmpty && (s.ownUpdates k).isEmpty && !s.owesLate k && !c.sb.any SbEntry.isLoad &&
    (List.range 4).all fun q => (look {} c.arch.q q).state != 1

/-- The issue cycles of a record's tasks together: a team that has issued nothing keeps the number. -/
def State.issueSum (s : State) (r : BindRec) : Nat := (r.left.map fun k => (s.ctx k).arch.cycle.toNat).foldl (· + ·) r.left.length

/-- A record at the end of a swap period: eligible when its conditions held at both ends of it and nothing issued between. -/
def State.endPeriod (s : State) (r : BindRec) : BindRec :=
  if s.idleTeam r then { r with eligible := r.since == some (s.issueSum r), since := some (s.issueSum r) }
  else { r with eligible := false, since := none }

/-- Whether a record's team may be swapped out now (R340, R341). (DEDUCED: log entry 77) -/
def State.eligible (s : State) (r : BindRec) : Bool := r.eligible && s.idleTeam r && r.since == some (s.issueSum r)

/-- The records of a cluster that hold bound teams of the group of one of them. -/
def State.groupRecords (s : State) (cl record : Nat) : List Nat :=
  let r := look {} (s.cluster cl).slots record
  let nd := s.launchNode r.info.seq r.info.node
  ((s.cluster cl).slots.filter fun p =>
    (p.2.state == 1 || p.2.state == 2) && s.ofGroup p.2 r.info.seq r.info.node (nd.groupOf r.info.team)).map Prod.fst

/-- Whether the group of a record may be swapped out: every team of it is bound and eligible, or done (R333, R340). (DEDUCED: log
entry 77) -/
def State.groupEligible (s : State) (cl record : Nat) : Bool :=
  let r := look {} (s.cluster cl).slots record
  let nd := s.launchNode r.info.seq r.info.node
  let rs := s.groupRecords cl record
  rs.contains record && ((nd.groupTeams (nd.groupOf r.info.team)).all nd.boundTeams.contains) && rs.all fun j => s.eligible (look {} (s.cluster cl).slots j)

/-- Whether some team of a node may be swapped out. -/
def State.nodeEligible (s : State) (seq node : Nat) : Bool :=
  s.clusters.any fun c => c.2.slots.any fun p =>
    p.2.info.seq == seq && p.2.info.node == node && p.2.state == 2 && s.groupEligible c.1 p.1

/-- Whether a node has waited for as long as it may: its ready team must be bound before another swap period ends (R343). -/
def State.overdue (s : State) : Bool :=
  s.launches.any fun l => l.2.nodes.any fun n => decide (64 ≤ n.2.overdue) && s.readyTeam l.1 n.1 && s.nodeEligible l.1 n.1

/-- A node at the end of a swap period. -/
def State.nodePeriod (s : State) (seq node : Nat) (nd : Node) : Node :=
  { nd with
    mayOut := true, mayIn := true
    overdue := if s.readyTeam seq node && s.nodeEligible seq node then nd.overdue + 1 else nd.overdue }

/-- SWAP_PERIOD (R340, R343): a swap period has ended at a core cycle, 65,536 after the last one. It is seen at the first step
behind that cycle that may see it; none may while a node waits that may wait no longer, whose team is bound first. (DEDUCED: log
entry 77) -/
def execSwapPeriod (ended : Nat) (s : State) : Out :=
  if ended ≠ s.period + 65536 ∨ s.time < ended ∨ s.overdue then .next s
  else
    let s : State := { s with
      period := ended
      clusters := s.clusters.map fun c => (c.1, { c.2 with slots := c.2.slots.map fun p => (p.1, s.endPeriod p.2) }) }
    .next { s with launches := s.launches.map fun l =>
      (l.1, { l.2 with nodes := l.2.nodes.map fun n => (n.1, s.nodePeriod l.1 n.1 n.2) }) }

/-- The flushes of a context that is swapped out complete, and its signals with them. (DEDUCED: log entry 77) -/
def State.endFlushes (s : State) (k : Nat) : Nat → State
  | 0 => s
  | n + 1 =>
    match execFlushInvalCompletion k s with
    | .next t => t.endFlushes k n
    | _ => s

/-- A task's state as a swap-out keeps it (R341). -/
def Ctx.kept (c : Ctx) : Ctx := { c with waitMet := false, blocked := false }

/-- A context left by a swap. -/
def State.leaveCtx (s : State) (k : Nat) : State := s.setCtx k {}

/-- The team of a record swapped out (R341). -/
def State.swapOutTeam (s : State) (cl record : Nat) : State :=
  let s := (look {} (s.cluster cl).slots record).left.foldl (fun (s : State) k => s.endFlushes k (s.ctx k).flushes.length) s
  let c := s.cluster cl
  let r := look {} c.slots record
  let kept := ((List.range r.ctxs.length).zip r.ctxs).filter fun p => r.left.contains p.2
  let r' := { r with
    op := 2, state := 3, eligible := false, since := none
    saved := kept.map fun p => (p.1, (s.ctx p.2).kept)
    sems := c.sems.filter fun p => decide (p.1 < 248) }
  let s := s.setCluster cl { c with slots := put {} c.slots record r' }
  r.left.foldl State.leaveCtx s

/-- The done teams of a group no longer hold its cluster. -/
def State.dropDone (s : State) (cl seq node g : Nat) : State :=
  let c := s.cluster cl
  let drop_ (r : BindRec) : BindRec := if s.ofGroup r seq node g && (r.state == 4 || r.state == 5) then { r with gone := true } else r
  s.setCluster cl { c with slots := c.slots.map fun p => (p.1, drop_ p.2) }

/-- SWAPOUT (R333, R341, R343): at the end of a swap period, the group of the record is swapped out as a whole, where every team of
it is eligible and its node has a ready team, for which the cluster is kept; one of a node at each end. (DEDUCED: log entry 77) -/
def execSwapout (cluster record : Nat) (s : State) : Out :=
  let r := look {} (s.cluster cluster).slots record
  let nd := s.launchNode r.info.seq r.info.node
  if s.groupEligible cluster record && nd.mayOut && s.readyTeam r.info.seq r.info.node then
    let s' := (s.groupRecords cluster record).foldl (fun s j => s.swapOutTeam cluster j) s
    let s' := s'.dropDone cluster r.info.seq r.info.node (nd.groupOf r.info.team)
    let s' := s'.updNode r.info.seq r.info.node fun nd => { nd with mayOut := false }
    let s' := s'.setCluster cluster { s'.cluster cluster with keptFor := some (r.info.seq, r.info.node) }
    .next (if r.info.fuse then s'.flushCluster cluster else s').noteTeams
  else .next s

/-- Whether a record may be taken by a team that comes back: it is its own, or it holds nothing. -/
def State.recordFree (s : State) (cl home record own : Nat) : Bool :=
  let q := look {} (s.cluster cl).slots record
  decide (record < 64) && if q.state = 3 then cl == home && record == own else !s.standing q

/-- Whether a group that `home` swapped out may come back to a cluster, each team by its record there, its record at home and its
contexts: the group as a whole, when some team of it is ready and has waited no shorter than any other ready team of the node (R333,
R337, R340, R342, R343). (DEDUCED: log entry 77) -/
def State.maySwapIn (s : State) (cl home : Nat) (ts : List (Nat × Nat × BitVec 64)) : Bool :=
  let back (x : Nat × Nat × BitVec 64) : BindRec := look {} (s.cluster home).slots x.2.1
  match ts with
  | [] => false
  | t :: _ =>
    let i := (back t).info
    let nd := s.launchNode i.seq i.node
    let g := nd.groupOf i.team
    let out := s.teamsOut i.seq i.node
    let mine := out.filter fun x => nd.groupOf x.2.2.info.team == g
    let since (l : List (Nat × Nat × BindRec)) : List Nat := l.filterMap fun x => x.2.2.readyAt
    let ks := ts.flatMap fun x => maskContexts cl x.2.2
    nd.mayIn && s.part.hasCluster cl && !s.keptFrom cl i.seq i.node && s.freeFor cl i.seq i.node g && !s.elsewhere cl i.seq i.node g &&
    !s.teamWaits (s.theLaunch i.seq) i.node &&
    (since mine).any (fun a => (since out).all fun b => decide (a ≤ b)) &&
    mine.length == ts.length && (mine.all fun x => x.1 == home && ts.any fun y => y.2.1 == x.2.1) &&
    (ts.all fun x => (maskContexts cl x.2.2).length == (back x).tasks && s.recordFree cl home x.1 x.2.1) &&
    !hasRepeat (ts.map fun x => x.1) && !hasRepeat ks && s.freeContexts ks && (!i.fuse || s.fuseFits cl nd)

/-- A kept task placed on a context; its loop buffer starts empty (R272, R342). -/
def State.placeTask (s : State) (k : Nat) (c : Ctx) : State :=
  (s.setCtx k { c with halfA := .empty, halfB := .empty, current := false }).settle k

/-- The banks that stand in place for a team's tasks on other cores than those that they come to are spilled (R342). -/
def State.bringBanks (s : State) (r : BindRec) (ks : List Nat) : State :=
  r.saved.foldl (fun s p =>
    s.spillBanks ((s.cores.map Prod.fst).filter (· != coreOf (nth 0 ks p.1))) (· == p.2.arch.info.uid)) s

/-- A team that comes back. -/
def State.swapInTeam (s : State) (cl home : Nat) (x : Nat × Nat × BitVec 64) : State :=
  let ks := maskContexts cl x.2.2
  let s := s.bringBanks (look {} (s.cluster home).slots x.2.1) ks
  let r := look {} (s.cluster home).slots x.2.1
  let s := s.updRecord home x.2.1 fun _ => {}
  let s := s.updRecord cl x.1 fun _ => { r with
    op := 3, state := 2, saved := [], sems := [], readyAt := none, mask := x.2.2, ctxs := ks, left := r.saved.map fun p => nth 0 ks p.1 }
  r.saved.foldl (fun s p => s.placeTask (nth 0 ks p.1) p.2) s

/-- The teams of a SWAPIN: the record that each takes, the record that it has at home, and its contexts. -/
def swapTeams (records homeRecords : List Nat) (masks : List (BitVec 64)) : List (Nat × Nat × BitVec 64) :=
  records.zip (homeRecords.zip masks)

/-- SWAPIN (R342): the group that cluster `home` swapped out comes back to a cluster, each of its teams by the record it takes, the
record it has at home and its contexts. (DEDUCED: log entry 77) -/
def execSwapin (cluster : Nat) (records : List Nat) (home : Nat) (homeRecords : List Nat) (masks : List (BitVec 64)) (s : State) : Out :=
  let teams := swapTeams records homeRecords masks
  if !s.maySwapIn cluster home teams then .next s
  else
    let r := look {} (s.cluster home).slots (teams.headD (0, 0, 0)).2.1
    let i := r.info
    let nd := s.launchNode i.seq i.node
    let s := s.openCluster cluster (s.theLaunch i.seq) nd
    let s := s.setCluster cluster { s.cluster cluster with sems := r.sems ++ (s.cluster cluster).sems.filter fun p => decide (248 ≤ p.1) }
    let s := if nd.fuse then s.flushCluster cluster else s
    let s := s.updNode i.seq i.node fun nd => { nd with mayIn := false, overdue := 0 }
    .next (teams.foldl (fun s x => s.swapInTeam cluster home x) s)

/-- BIND_ABORT (R337, R359): the Overman writes ABORT into the record; its team stops, and its tasks are reported with ABORTED. -/
def execBindAbort (cluster record : Nat) (s : State) : Out :=
  let r := look {} (s.cluster cluster).slots record
  let mine (i : TaskInfo) : Bool := i.seq == r.info.seq && i.node == r.info.node && i.team == r.info.team
  if r.state = 1 ∨ r.state = 2 ∨ r.state = 3 then
    let s := s.updRecord cluster record fun r => { r with op := 4 }
    .next (((s.abortContexts fun _ a => mine a.info).abortSaved fun _ i => mine i).abortUnstarted fun _ i => mine i)
  else .next s

end Sys2Proof.Machine
end

