-- ==== Sys2Proof/Machine/Endpoint.lean ====
section
/-! DEFINITION. The command endpoint: the host's commands and their replies (spec/11 R290 to R295, spec/14 R327, R328, R348, spec/15
R355, spec/18 R387 to R389, spec/19 R400). A host is named by its fabric address, as the number that its 16 bytes hold. -/

namespace Sys2Proof.Machine

/-! ### Messages (R387) -/

/-- The entry of the host list for a fabric address (R387, R395). -/
def State.hostEntry (s : State) (host : Nat) : Option (List Byte) := s.boss.hosts.find? fun e => fld e 0 16 == host

/-- Whether a host holds the conformance right (R395, R400). -/
def State.hostRight (s : State) (host : Nat) : Bool :=
  match s.hostEntry host with
  | some e => fld e 16 1 == 1
  | none => false

/-- Whether a command's header keeps the rules of R387. (DEDUCED: log entry 70) -/
def msgOk (msg : List Byte) : Bool :=
  fld msg 0 4 == 0x434D4446 && fld msg 4 2 == 1 && msg.length == 32 + fld msg 16 4 && decide (fld msg 16 4 ≤ 65504) &&
  fldZero msg 20 4 && fldZero msg 24 8

/-- What a command gives: the state after it, STATUS, RESULT and the body of its reply. -/
abbrev CmdEnd := State × Nat × Nat × List Byte

/-- A command that ends with a status and nothing else. -/
def ended (s : State) (status : Nat) : CmdEnd := (s, status, 0, [])

/-- Whether an ABORT of a host is still to be answered: its later commands take effect after it (R388, R389). (DEDUCED: log entry
50) -/
def State.abortAsked (s : State) (host : Nat) : Bool := s.launches.any fun p => p.2.askers.any fun q => q.1 == host

/-- Whether the endpoint takes up a message as command `op`: the module runs, some port carries it (R384), it comes from a host, and no
earlier command of that host is still to take effect (R389). -/
def State.hears (s : State) (host : Nat) (msg : List Byte) (op : Nat) : Bool :=
  s.boss.stage == 2 && s.linked && (s.hostEntry host).isSome && fld msg 6 2 == op && !s.abortAsked host

/-- A command of the endpoint (R387, R388, R401): a message from an address that is no host is dropped, and every command has one
reply. `k` gives the command's effect on its body. (DEDUCED: log entry 70) -/
def State.onEndpoint (s : State) (host : Nat) (msg : List Byte) (op : Nat) (k : List Byte → CmdEnd) : State :=
  if !s.hears host msg op then s
  else
    let r := if msgOk msg then k (msg.drop 32) else ended s stBadparam
    r.1.send 0x01 host (endpointMsg op (fld msg 8 8) r.2.1 r.2.2.1 r.2.2.2)

/-- A body of the right length with its reserved bytes zero (R388). (DEDUCED: log entry 70) -/
def bodyOk (b : List Byte) (len : Nat) (zeros : List (Nat × Nat)) : Bool :=
  b.length == len && zeros.all fun z => fldZero b z.1 z.2

/-! ### Reading and writing memory -/

/-- CAPRD (R5, R388). -/
def execCaprd (host : Nat) (msg : List (BitVec 8)) (s : State) : Out :=
  .next (s.onEndpoint host msg 0x01 fun b =>
    if bodyOk b 0 [] then (s, stOk, 0, (List.range 4).flatMap fun d => leBytes 8 (s.part.diecap d)) else ended s stBadparam)

/-- A command of the endpoint that accesses ranges of memory: it waits for the merges that its accesses have made (R319). -/
def State.onMemory (s : State) (host : Nat) (msg : List Byte) (op : Nat) (ranges : List (Nat × Nat × Nat)) (k : List Byte → CmdEnd) : State :=
  if s.hears host msg op && !(s.clears ranges).2 then (s.clears ranges).1 else s.onEndpoint host msg op k

/-- MEMWR (R388). -/
def execMemwr (host : Nat) (msg : List (BitVec 8)) (s : State) : Out :=
  let b := msg.drop 32
  .next (s.onMemory host msg 0x02 [(fld b 0 2, fld b 8 8, b.length - 16)] fun b =>
    let asid := fld b 0 2
    let va := fld b 8 8
    let data := b.drop 16
    let code := s.deviceCheck asid va (max 1 data.length) true
    if b.length < 16 ∨ fldZero b 2 6 = false then ended s stBadparam
    else if code ≠ stOk then ended s code
    else ended (s.agentWrite asid va data []) stOk)

/-- MEMRD (R388): a length that no reply can carry is no right length. (DEDUCED: log entry 70) -/
def execMemrd (host : Nat) (msg : List (BitVec 8)) (s : State) : Out :=
  let b := msg.drop 32
  .next (s.onMemory host msg 0x03 [(fld b 0 2, fld b 8 8, min 65504 (fld b 16 8))] fun b =>
    let asid := fld b 0 2
    let va := fld b 8 8
    let n := fld b 16 8
    let code := s.deviceCheck asid va (max 1 n) false
    if !bodyOk b 24 [(2, 6)] || decide (65504 < n) then ended s stBadparam
    else if code ≠ stOk then ended s code
    else
      let r := s.agentRead asid va n
      (r.1, stOk, 0, r.2.1))

/-! ### Images and the library -/

/-- Whether an image that a command has just loaded has a page in the deep tier that can still come to HBM: only 64 KiB pages
migrate. (DESIGN CHOICE: log entry 97) -/
def State.imageDeep (s : State) (asid base : Nat) : Bool :=
  s.images.any fun i => i.asid == asid && i.base == base && i.pages.any fun f =>
    inDeep (f * 65536) && s.leaves.any fun l => l.2.2.pa / 65536 == f && l.2.2.lo == 16

/-- Whether something on its way may still reach the pages of an image that a command has just loaded: an update, a core access, or
a command that has started (R274). (DESIGN CHOICE: log entry 97) -/
def State.imageBusy (s : State) (asid base : Nat) : Bool :=
  let fs := (s.images.filter fun i => i.asid == asid && i.base == base).flatMap Image.pages
  let meets (c : Cmd) : Bool := c.started && !c.finished && c.pages.any fun p => p.2.any fun q => fs.contains q.frame
  (s.updates.any fun u => u.units.any fun pu => fs.contains (pu / 8192)) ||
  (s.ctxs.any fun p => p.2.late.any fun l => l.refs.any fun r => fs.contains (r.pu / 8192)) ||
  s.cores.any fun p => (p.2.cq ++ p.2.mq ++ p.2.lq).any meets

/-- The bytes of the code that an image at a base declares, the header with them; of the header alone where they are out of reach. -/
def State.codeBytes (s : State) (asid base : Nat) : Nat :=
  let fin := 64 + imgCodesz (s.agentRead asid base 64).2.1
  if s.deviceCheck asid base fin false = stOk then fin else 64

/-- IMGLD (R111, R274, R388): a load waits until the pages that its image is to pin are in HBM, and until nothing that is on its way
can reach them: they take no write from its completion on. (DESIGN CHOICE: log entries 11 and 97) -/
def execImgld (host : Nat) (msg : List (BitVec 8)) (s : State) : Out :=
  let b := msg.drop 32
  let g := s.clears [(fld b 0 2, fld b 8 8, s.codeBytes (fld b 0 2) (fld b 8 8))]
  let r := s.loadImage (fld b 0 2) (fld b 8 8)
  let good := bodyOk b 16 [(2, 6)]
  if s.hears host msg 0x10 && !g.2 then .next g.1
  else if msgOk msg && good && r.2.1 == stOk && (r.1.imageDeep (fld b 0 2) (fld b 8 8) || r.1.imageBusy (fld b 0 2) (fld b 8 8)) then .next s
  else .next (s.onEndpoint host msg 0x10 fun _ => if good then (r.1, r.2.1, r.2.2, []) else ended s stBadparam)

/-- Whether a launch that has not completed uses an image (R274). -/
def State.imageUsed (s : State) (asid base : Nat) : Bool :=
  s.launches.any fun p => !p.2.done && p.2.asid == asid && p.2.image == base

/-- IMGUL (R274, R388). -/
def execImgul (host : Nat) (msg : List (BitVec 8)) (s : State) : Out :=
  .next (s.onEndpoint host msg 0x11 fun b =>
    let asid := fld b 0 2
    let base := fld b 8 8
    if !bodyOk b 16 [(2, 6)] then ended s stBadparam
    else if !(s.images.any fun i => i.asid == asid && i.base == base) then ended s stBadparam
    else if s.imageUsed asid base then ended s stDenied
    else ended { s with images := s.images.filter fun i => !(i.asid == asid && i.base == base) } stOk)

/-- LIBLD (R228, R388). The form of a signed library is Freten's own: `version` is the version of the library that the Fireboss
reads at the VA, none when its signature fails. (DESIGN CHOICE: log entry 79) -/
def execLibld (host : Nat) (msg : List (BitVec 8)) (version : Option Nat) (s : State) : Out :=
  .next (s.onEndpoint host msg 0x12 fun b =>
    let code := s.deviceCheck 0 (fld b 0 8) 1 false
    if !bodyOk b 8 [] then ended s stBadparam
    else if code ≠ stOk then ended s code
    else
      match version with
      | none => ended s stRejected
      | some v => ended { s with libver := v % 65536 } stOk)

/-! ### Launches -/

/-- The fields of QCFG that software writes; the others read zero (R327). -/
def qcfgWord (w : Nat) : Word :=
  BitVec.ofNat 64 (w / 65536 % 65536 * 65536 + w / 256 % 4 * 256 + w % 4)

/-- QSET (R327, R388). (DESIGN CHOICE: log entry 11; DEDUCED: log entry 70) -/
def execQset (host : Nat) (msg : List (BitVec 8)) (s : State) : Out :=
  .next (s.onEndpoint host msg 0x20 fun b =>
    if !bodyOk b 16 [(1, 7)] || decide (64 ≤ fld b 0 1) then ended s stBadparam
    else ended { s with queues := put 0 s.queues (fld b 0 1) (qcfgWord (fld b 8 8)) } stOk)

/-- Whether a conformance credential is accepted (R400). (DEDUCED: log entry 70) -/
def State.credentialOk (s : State) (host : Nat) (c : List Byte) : Bool :=
  fld c 0 4 == s.part.serial && fldZero c 4 4 && decide (s.boss.counter < fld c 8 8) && s.hostRight host &&
  (match sec1Key Config.fretenKey with
   | some key => verifySig key (c.take 16) (c.drop 16)
   | none => false)

/-- The launch record at a VA of a queue's address space, submitted (R328, R388). (DEDUCED: log entries 45 and 46) -/
def State.hostLaunch (s : State) (host tag queue va : Nat) (cred : List Byte) : CmdEnd :=
  let cfg := s.qcfg queue
  let owner := qOwner cfg
  let code := s.deviceCheck owner va 128 false
  if !qEn cfg then ended s stDenied
  else if !cred.isEmpty && !s.credentialOk host cred then ended s stDenied
  else if 256 ≤ s.queued queue then ended s stQfull
  else if va % 64 ≠ 0 then ended s stBadparam
  else if code ≠ stOk then ended s code
  else
    let r := s.agentRead owner va 128
    if r.2.2.any id then ended r.1 stBadparam
    else
      let t := r.1.submit queue r.2.1 none (some host) tag (!cred.isEmpty)
      let counter := if t.2.1 = stOk && !cred.isEmpty then fld cred 8 8 else s.boss.counter
      ({ t.1 with boss := { t.1.boss with counter := counter } }, t.2.1,
        if t.2.1 = stOk then r.1.nextSeq else 0, [])

/-- LAUNCH (R328, R388, R400). (DESIGN CHOICE: log entry 11) -/
def execLaunch (host : Nat) (msg : List (BitVec 8)) (s : State) : Out :=
  let b := msg.drop 32
  let owner := qOwner (s.qcfg (fld b 0 1))
  .next (s.onMemory host msg 0x21 [(owner, fld b 8 8, 128), tableRange owner (s.agentRead owner (fld b 8 8) 128).2.1] fun b =>
    if !(bodyOk b 16 [(1, 7)] || bodyOk b 128 [(1, 7)]) || decide (64 ≤ fld b 0 1) then ended s stBadparam
    else s.hostLaunch host (fld msg 8 8) (fld b 0 1) (fld b 8 8) (b.drop 16))

/-- Whether an ABORT's body names a launch that has been received since module reset (R348). -/
def State.abortNames (s : State) (b : List Byte) : Bool := bodyOk b 8 [] && fld b 0 8 != 0 && decide (fld b 0 8 < s.nextSeq)

/-- ABORT (R348, R388): it is answered once the abort has taken effect, which is when every task has been reported. (DEDUCED: log
entry 50) -/
def execAbort (host : Nat) (msg : List (BitVec 8)) (s : State) : Out :=
  let seq := fld (msg.drop 32) 0 8
  let l := s.theLaunch seq
  let g := s.clears ((l.nodes.filter fun n => !n.2.complete).flatMap fun n => l.recordRange n.2)
  let t := s.abortLaunch seq
  if s.hears host msg 0x22 && !g.2 then .next g.1
  else if s.hears host msg 0x22 && msgOk msg && s.abortNames (msg.drop 32) && !(s.theLaunch seq).done && !(t.theLaunch seq).over then
    .next (t.updLaunch seq fun l => { l with askers := l.askers ++ [(host, fld msg 8 8)] })
  else
    .next (s.onEndpoint host msg 0x22 fun b =>
      if !s.abortNames b then ended s stBadparam
      else if (s.theLaunch (fld b 0 8)).done then ended s stOk
      else ended (s.abortLaunch (fld b 0 8)) stOk)

/-- One watch register of a task. -/
def Arch.setWatch (a : Arch) (n : Nat) (v : BitVec 128) : Arch := { a with watch := put 0 a.watch n v }

/-- Whether a task is the one that a WATCH names (R355). -/
def TaskInfo.isTask (i : TaskInfo) (seq node team task : Nat) : Bool :=
  i.seq == seq && i.node == node && i.team == team && i.task == task

/-- A task's watch register written: on a context whose bundle is set aside it takes effect at the next bundle boundary (R355). -/
def State.writeWatch (s : State) (seq node team task reg : Nat) (v : BitVec 128) : State :=
  let mine (i : TaskInfo) : Bool := i.isTask seq node team task
  let t := s.mapTasks fun a => if mine a.info then a.setWatch reg v else a
  (s.ctxs.map Prod.fst).foldl (fun t k =>
    let c := s.ctx k
    if mine c.arch.info && c.aside.isSome then t.setCtx k { c with watchNew := put 0 c.watchNew reg v } else t) t

/-- WATCH (R355, R388): the task's register, where the task is on a context or put aside by a swap. Registers are cleared at
dispatch, so a write for a task that is not yet dispatched leaves nothing; a task that the launch does not have is a bad parameter.
(DEDUCED: log entry 70) -/
def execWatch (host : Nat) (msg : List (BitVec 8)) (s : State) : Out :=
  .next (s.onEndpoint host msg 0x23 fun b =>
    let seq := fld b 0 8
    let node := fld b 8 1
    let reg := fld b 9 1
    let task := fld b 10 1
    let team := fld b 12 4
    let v := BitVec.ofNat 128 (fld b 16 16)
    let nd := s.launchNode seq node
    if !bodyOk b 32 [(11, 1)] || decide (4 ≤ reg) || bits v 0 23 != 0 || seq == 0 || decide (s.nextSeq ≤ seq) ||
        decide ((s.theLaunch seq).nnodes ≤ node) || decide (nd.gx * nd.gy * nd.gz ≤ team) || decide (nd.tasks ≤ task) then
      ended s stBadparam
    else
      ended (s.writeWatch seq node team task reg v) stOk)

/-! ### The map (R290, R291, R294) -/

/-- The lowest VA bit that each level indexes, down to a level (R290). -/
def levelsTo (level : Nat) : List Nat := [42, 29, 16].take level

/-- The address of the entry of the last of some levels for a VA, walked from a node; none where the path has no node. -/
def entryAddr (m : Mem) (va : Nat) : List Nat → Nat → Option Nat
  | [], _ => none
  | [lo], node => some (node + 8 * (va / 2 ^ lo % 8192))
  | lo :: rest, node =>
    let pte := m.nat (node + 8 * (va / 2 ^ lo % 8192)) 8
    if pte % 2 = 0 || pteReserved pte || pte.testBit 1 then none
    else entryAddr m va rest (pte / 65536 % 2 ^ 35 * 65536)

/-- Whether a live task pins or holds a page that an address space maps in a VA range (R291, R292). (DEDUCED: log entry 71) -/
def State.rangeBusy (s : State) (asid va n : Nat) : Bool :=
  s.leaves.any fun l =>
    l.1 == asid && decide (va < l.2.1 + 2 ^ l.2.2.lo) && decide (l.2.1 < va + n) &&
    s.liveTasks.any fun a => (a.pins ++ a.holds).any fun f =>
      decide (l.2.2.pa / 65536 ≤ f) && decide (f < l.2.2.pa / 65536 + 2 ^ (l.2.2.lo - 16))

/-- Whether a sealed image has a mapped page in a VA range; its pages are pinned (R274). (DEDUCED: log entry 71) -/
def State.rangeSealed (s : State) (asid va n : Nat) : Bool :=
  s.images.any fun i => i.asid == asid && rangesMeet (va / 65536 * 65536) n (i.base / 65536 * 65536)
    (i.base % 65536 + imageRange i.codesz i.datasz) && !i.pages.isEmpty

/-- The caches write back and drop their lines of a run of frames before an entry over it changes (R294). -/
def State.clearFrames (s : State) (first n : Nat) : State :=
  let mine (x : Nat) : Bool := decide (first ≤ x) && decide (x < first + n)
  let s := s.l1Sweep (s.cores.map Prod.fst) (fun pu => mine (pu / 8192)) true
  let lines := ((s.cores.flatMap fun p => p.2.lines.map Prod.fst).filter fun l => mine (l / 1024)).eraseDups
  let s := s.touchLines none lines
  { s with hidden := s.hidden.filter fun h => !mine (h.unit / 8192) }

/-- Whether a leaf of a size names none of the translator's frames: its region, the nodes of the address spaces, and `more` (R291).
(DESIGN CHOICE: log entry 96) -/
def State.spares (s : State) (first lo : Nat) (more : List Nat) : Bool :=
  let n := 2 ^ (lo - 16)
  !((s.nodes ++ more).any fun d => decide (first ≤ d / 65536) && decide (d / 65536 < first + n)) &&
  !(decide (first < s.region.1 + s.region.2) && decide (s.region.1 < first + n))

/-- Whether a tree of some levels keeps the translator's frames out of every address space: its nodes are mapped nowhere, and its
leaves name none of those frames (R291). (DEDUCED: log entry 71; DESIGN CHOICE: log entry 96) -/
def State.sparesTree (s : State) (levels : List Nat) (node : Nat) : Bool :=
  let ds := nodesFrom s.mem levels node
  (ds.all fun d => !s.mapped (d / 65536)) && (leavesFrom s.mem 0 levels node).all fun l => s.spares (l.2.pa / 65536) l.2.lo ds

/-- Whether an entry of a level keeps the translator's frames out of every address space: as a leaf, or with the tree below the node
that it names (R291). (DEDUCED: log entry 71; DESIGN CHOICE: log entry 96) -/
def State.keepsOwned (s : State) (lo pte : Nat) : Bool :=
  let first := pte / 65536 % 2 ^ 35
  if pte % 2 = 0 then true
  else if pte.testBit 1 then s.spares first lo []
  else !s.mapped first && s.sparesTree ([42, 29, 16].filter fun l => decide (l < lo)) (first * 65536)

/-- One entry of MAPUPD: the state after it, none when it is refused. (DEDUCED: log entry 71) -/
def State.mapEntry (s : State) (asid : Nat) (e : List Byte) : Option State :=
  let levels := levelsTo (fld e 8 1)
  let lo := levels.getLastD 16
  let va := fld e 0 8 / 2 ^ lo * 2 ^ lo
  match s.root asid with
  | none => none
  | some root =>
    match entryAddr s.mem va levels root with
    | none => none
    | some at_ =>
      if decide (2 ^ 55 ≤ va) || s.rangeBusy asid va (2 ^ lo) || s.rangeSealed asid va (2 ^ lo) || !s.keepsOwned lo (fld e 16 8) then none
      else
        let ls := (s.leaves.filter fun l => l.1 == asid && decide (va ≤ l.2.1) && decide (l.2.1 < va + 2 ^ lo))
        let s := ls.foldl (fun (s : State) (l : Nat × Nat × Leaf) => s.clearFrames (l.2.2.pa / 65536) (2 ^ (l.2.2.lo - 16))) s
        some { s with mem := s.mem.store at_ ((e.drop 16).take 8) }

/-- The entries of MAPUPD in order; the indices of those refused. -/
def State.mapEntries (s : State) (asid : Nat) : Nat → List (List Byte) → State × List Nat
  | _, [] => (s, [])
  | n, e :: rest =>
    match s.mapEntry asid e with
    | some s' => s'.mapEntries asid (n + 1) rest
    | none =>
      let r := s.mapEntries asid (n + 1) rest
      (r.1, n :: r.2)

/-- The frames of the leaves that an entry of MAPUPD replaces whose MSA it sets or clears, each run by its first and its number. -/
def State.msaFrames (s : State) (asid : Nat) (e : List Byte) : List (Nat × Nat) :=
  let lo := (levelsTo (fld e 8 1)).getLastD 16
  let va := fld e 0 8 / 2 ^ lo * 2 ^ lo
  let mine (l : Nat × Nat × Leaf) : Bool :=
    l.1 == asid && decide (va ≤ l.2.1) && decide (l.2.1 < va + 2 ^ lo) && l.2.2.msa != (fld e 16 8).testBit 8
  if s.rangeBusy asid va (2 ^ lo) then [] else (s.leaves.filter mine).map fun l => (l.2.2.pa / 65536, 2 ^ (l.2.2.lo - 16))

/-- The updates to a run of frames that have not been applied. -/
def State.updatesOn (s : State) (f : Nat × Nat) : List Update :=
  s.updates.filter fun u => u.units.any fun pu => decide (f.1 ≤ pu / 8192) && decide (pu / 8192 < f.1 + f.2)

/-- Before the MSA of a run of frames changes: the caches write back and drop its lines, and the atomics in flight on it are
completed, as far as they may be (R294). (DEDUCED: log entry 71) -/
def State.finishAtomics (s : State) (f : Nat × Nat) : State :=
  let s := s.clearFrames f.1 f.2
  ((s.updatesOn f).map fun u => u.id).foldl (fun s id =>
    match s.findUpdate id with
    | some u => if s.mayApply u then s.applyFresh u else s
    | none => s) s

/-- The entries of a MAPUPD's body, where the body is well formed. -/
def mapBody (b : List Byte) : Option (List (List Byte)) :=
  let n := fld b 2 2
  let es := chunks 24 n (b.drop 8)
  if bodyOk b (8 + 24 * n) [(4, 4)] && es.all fun e => fldZero e 9 7 && decide (1 ≤ fld e 8 1) && decide (fld e 8 1 ≤ 3) then some es else none

/-- The state in which a MAPUPD finds the atomics of the pages whose MSA it changes completed, and whether they are. (DEDUCED: log
entry 71) -/
def State.beforeMap (s : State) (b : List Byte) : State × Bool :=
  match mapBody b with
  | some es =>
    let fs := es.flatMap (s.msaFrames (fld b 0 2))
    if (fs.flatMap s.updatesOn).isEmpty then (s, true)
    else
      let t := (fs.foldl State.finishAtomics s).drain
      (t, (fs.flatMap t.updatesOn).isEmpty)
  | none => (s, true)

/-- MAPUPD (R291, R294, R388): it waits for the atomics in flight on a page whose MSA it changes. (DEDUCED: log entry 71) -/
def execMapupd (host : Nat) (msg : List (BitVec 8)) (s : State) : Out :=
  let g := s.beforeMap (msg.drop 32)
  if s.hears host msg 0x30 && msgOk msg && !g.2 then .next g.1
  else
  .next ((if s.hears host msg 0x30 && msgOk msg then g.1 else s).onEndpoint host msg 0x30 fun b =>
    let s := g.1
    match mapBody b with
    | none => ended s stBadparam
    | some es =>
      let r := s.mapEntries (fld b 0 2) 0 es
      (r.1, stOk, r.2.length, r.2.flatMap fun i => leBytes 2 i))

/-- ASSET (R290, R291, R388): the root is a node, 64 KiB aligned in HBM, whose tree keeps the translator's frames out of every
address space. (DEDUCED: log entry 71) -/
def execAsset (host : Nat) (msg : List (BitVec 8)) (s : State) : Out :=
  .next (s.onEndpoint host msg 0x32 fun b =>
    let root := fld b 8 8
    if !bodyOk b 16 [(2, 6)] || root % 65536 != 0 || inDeep root || !s.part.backed root || !s.sparesTree [42, 29, 16] root then
      ended s stBadparam
    else ended { s with roots := put 0 s.roots (fld b 0 2) (root + 1) } stOk)

/-! ### Objects (R295) -/

/-- A rights entry of OBJNEW: module serial, address space and right. -/
def rightOf (r : List Byte) : Nat × Nat × Nat := (fld r 0 4, fld r 4 2, fld r 6 1)

/-- Whether a storage range of an address space is free for an object: whole pages, mapped to backed frames, meeting no other
object. (DEDUCED: log entry 71) -/
def State.storageFree (s : State) (asid base len : Nat) : Bool :=
  let stands (vp : Nat) : Bool := (s.translate asid (vp * 65536)).any fun l => s.part.backed l.pa && l.cls != 3
  base % 65536 == 0 && decide (base + len ≤ 2 ^ 55) && (pagesOf base len).all stands &&
  s.names.all fun p => !(p.2.asid == asid && rangesMeet base ((len + 65535) / 65536 * 65536) p.2.base p.2.len)

/-- Whether an address space has free storage of a length: if it has any, some begins where a leaf or behind an object does. (DESIGN
CHOICE: log entry 98) -/
def State.storageAnywhere (s : State) (asid len : Nat) : Bool :=
  let leaves := (s.leaves.filter fun l => l.1 == asid).map fun (l : Nat × Nat × Leaf) => l.2.1
  let behind := (s.names.filter fun p => p.2.asid == asid).map fun (p : BitVec 128 × NameEntry) =>
    (p.2.base + p.2.len + 65535) / 65536 * 65536
  (leaves ++ behind).any fun a => s.storageFree asid a len

/-- The failures among the status codes (R230). -/
def failureCodes : List Nat :=
  [1, 2, 3, 4, 5, 6, 7, 8, 9, 10, 11, 12, 13, 15, 16, 17, 18, 19, 20, 21, 22, 24, 25, 26, 27, 28, 32, 33, 34, 35]

/-- A failure, where the spec states none. (DESIGN CHOICE: log entry 98) -/
def openStatus (x : Nat) : Nat := nth stBadparam failureCodes (x % failureCodes.length)

/-- OBJNEW (R295, R388). The storage allocated is the device's choice: `base` is its virtual address in the command's address space;
a range that is not free is not chosen while another is. With none, the reply's status is not stated. (DEDUCED: log entry 71; DESIGN
CHOICE: log entry 98) -/
def execObjnew (host : Nat) (msg : List (BitVec 8)) (base : Nat) (s : State) : Out :=
  let b := msg.drop 32
  let asid := fld b 0 2
  let len := fld b 8 8
  let rights := chunks 8 16 (b.drop 16)
  let good := decide (16 ≤ b.length) && b.length % 8 == 0 && decide (b.length ≤ 144) && fldZero b 2 6 && decide (1 ≤ len) &&
    decide (len < 2 ^ 48) && decide (s.nameCtr < 2 ^ 96) &&
    rights.all fun r => (fld r 6 1 == 1 || fld r 6 1 == 3) && fldZero r 7 1
  let free := s.storageFree asid base len
  if msgOk msg && good && !free && s.storageAnywhere asid len then .next s
  else
    .next (s.onEndpoint host msg 0x31 fun _ =>
      if !good then ended s stBadparam
      else if !free then ended { s with draws := s.draws + 1 } (openStatus (Config.freeValue s.draws))
      else
        let m := s.nameCtr / 2 ^ 24 * 2 ^ 24
        let name := BitVec.ofNat 128 (s.part.serial * 2 ^ 96 + s.nameCtr)
        let e : NameEntry := {
          base := base, len := len, asid := asid, pages := s.pagesAt asid base len, rights := rights.map rightOf }
        ({ s with
            nameHigh := max s.nameHigh (m + 2 ^ 24)
            names := s.names ++ [(name, e)]
            nameCtr := s.nameCtr + 1 }, stOk, 0, leBytes 16 name.toNat))

/-- The commands that the endpoint lists (R388). -/
def endpointOps : List Nat :=
  [0x01, 0x02, 0x03, 0x10, 0x11, 0x12, 0x20, 0x21, 0x22, 0x23, 0x30, 0x31, 0x32]

/-- ENDPOINT_UNLISTED_OP (R388). -/
def execEndpointUnlistedOp (host : Nat) (msg : List (BitVec 8)) (s : State) : Out :=
  .next (if endpointOps.contains (fld msg 6 2) then s
    else s.onEndpoint host msg (fld msg 6 2) fun _ => ended s stBadparam)

end Sys2Proof.Machine
end

