-- ==== Sys2Proof/Machine/Fabric.lean ====
section
/-! DEFINITION. The fabric as this module meets it: deliveries and element updates from other modules, packets sent again, peers that
cannot be reached, and the links (spec/09 R241, spec/18 R384 to R386, R390 to R392, spec/11 R297, R298). -/

namespace Sys2Proof.Machine

/-! ### What arrives from another module (R241, R391, R392) -/

/-- The most bytes that one packet carries (R384). -/
def maxPayload : Nat := 4096

/-- The object of a name of this module into which another module may write `n` bytes at `off`; a name that has died still has its
object while its shoot-down or a binding holds it (R297), and a page that no agent of another core writes takes none (R274, R308).
(DESIGN CHOICE: log entry 66) -/
def State.remoteTarget (s : State) (serial asid : Nat) (name : BitVec 128) (off n : Nat) : Option NameEntry :=
  match s.nameEntry name with
  | some e =>
    if s.meets serial && e.right serial asid == 3 && decide (off + n ≤ e.len) && decide (n ≤ maxPayload) &&
        s.objectCheck e.pages (e.base + off) n == stOk then some e else none
  | none => none

/-- Whether elements of a module's remote CREDs still wait here for their points of execution (R392). -/
def State.sentBy (s : State) (serial : Nat) : Bool := s.updates.any fun u => u.sender == some serial

/-- REMOTE_DELIVERY (R241): bytes of a copy of module `serial`, for its address space `asid`, are written at `off` of the object,
with the poison of each; the last delivery carries the signal. (DESIGN CHOICE: log entries 5 and 66) -/
def execRemoteDelivery (serial asid : Nat) (name : BitVec 128) (off : Nat) (data : List Byte) (poison : List Bool)
    (signal : Option (Nat × Nat × Nat)) (s : State) : Out :=
  match s.remoteTarget serial asid name off data.length with
  | none => .next s
  | some e =>
    let r := s.reachAll (3, serial) ((unitsOf (e.base + off) data.length).map (unitOn e.pages))
    .next (if r.2 then (r.1.runWrite (3, serial) e.pages (e.base + off) data poison).remoteSignal signal else r.1)

/-- REMOTE_CRED_UPDATE (R392): one element of a remote CRED reaches this module, as a deferred update; `sub` is 16 more where it
came uncoded, and `last` says whether a coded flit ends with it (R386), and carries the signal with the last element, which comes
once no element of the sender waits here. (DESIGN CHOICE: log entries 66 and 67) -/
def execRemoteCredUpdate (serial asid : Nat) (name : BitVec 128) (off : Nat) (value : Word) (poison : Bool) (fmt sub : Nat)
    (last : Bool × Option (Nat × Nat × Nat)) (s : State) : Out :=
  match s.remoteTarget serial asid name off (fmtBytes fmt) with
  | none => .next s
  | some e =>
    let t := s.takeElem serial fmt value.toNat (decide (sub < 16)) last.1
    let p := t.postRemote (some serial) none e.pages (e.base + off) fmt (sub % 16) value.toNat poison
    let r := if p.1.heldOut p.2 then p.1.holdUpdate p.2 else p.1.applyFresh p.2
    .next (if last.2.isSome && r.sentBy serial then s else (r.remoteSignal last.2).drain)

/-! ### The transport (R384, R385) -/

/-- Whether a message goes to another module. -/
def OutMsg.fabric (m : OutMsg) (peer : Nat) : Bool := m.dest == peer && decide (0x10 ≤ m.kind) && decide (m.kind < 0x30)

/-- PACKET_RETRANSMIT (R385): message `n` of those sent to a peer has not been acknowledged and is sent again. (DESIGN CHOICE: log
entry 68) -/
def execPacketRetransmit (peer n : Nat) (s : State) : Out :=
  match (s.out.filter (·.fabric peer))[n]? with
  | none => .next s
  | some m => .next (if s.linked then { s with out := s.out ++ [m] } else s)

/-- The remote commands of a core to modules that cannot be reached end as UNREACHABLE. -/
def State.loseCommands (s : State) (core : Nat) : State :=
  (s.core core).cq.foldl (fun (s : State) c =>
    if c.remote = 0 ∨ c.finished ∨ s.reaches (nameSerial c.rName) then s
    else
      let r := s.remoteAnswer c (stUnreachable + 1) c
      r.1.setCopy core r.2) s

/-- Whether a scoreboarded result waits for the answer of a module that cannot be reached (R298). -/
def State.unanswered (s : State) (e : SbEntry) : Bool :=
  match e.what with
  | .nstat n | .nkill n _ => !s.reaches (nameSerial n)
  | _ => false

/-- The operations of a context on names of modules that cannot be reached complete as UNREACHABLE. -/
def State.loseNames (s : State) (k : Nat) : Nat → State
  | 0 => s
  | fuel + 1 =>
    match (s.ctx k).sb.findIdx? s.unanswered with
    | none => s
    | some j =>
      match (s.ctx k).sb[j]? with
      | none => s
      | some e => (s.arriveWord k j e.dst (statusWord 0 stUnreachable 0)).loseNames k fuel

/-- Shoot-downs no longer wait for a module that cannot be reached (R297). (DEDUCED: log entry 92) -/
def State.loseHolders (s : State) : State :=
  s.names.foldl (fun (s : State) p =>
    if p.2.shooting.any fun h => decide (32 ≤ h) && !s.reaches (h - 32) then
      let near (h : Nat) : Bool := decide (h < 32) || s.reaches (h - 32)
      (s.updName p.1 fun e => { e with shooting := e.shooting.filter near }).shotDone p.1
    else s) s

/-- Whatever waits for a module that cannot be reached (R385). (DEDUCED: log entry 92) -/
def State.losePeers (s : State) : State :=
  let s := (s.cores.map Prod.fst).foldl State.loseCommands s
  ((s.ctxs.map Prod.fst).foldl (fun (s : State) k => s.loseNames k (s.ctx k).sb.length) s).loseHolders

/-- PEER_UNREACHABLE (R385): the ports that `lost` lists lose their links, and the peer that it names, unless it is this module, is
declared unreachable because it has acknowledged nothing for a second; with the last link every peer is. (DEDUCED: log entry 92) -/
def execPeerUnreachable (lost : Nat × List Nat) (s : State) : Out :=
  let s : State := { s with
    peers := if lost.1 = s.part.serial then s.peers else put {} s.peers lost.1 { look {} s.peers lost.1 with reachable := false }
    links := s.links.map fun (l : Nat × Link) => if lost.2.contains l.1 then (l.1, { l.2 with up := false }) else l }
  .next s.losePeers

/-! ### Links (R386) -/

/-- A channel's list starts from the exponents 0 to 255 in order; the flit in which it failed is sent again uncoded. (DESIGN CHOICE:
log entry 67) -/
def State.resetChannel (s : State) (peer : Nat) (out : Bool) : State :=
  let p := look {} s.peers peer
  if out then
    let s := { s with peers := put {} s.peers peer { p with sendList := [], sendFlit := [], sendDone := false } }
    p.sendFlit.foldl (fun s m => s.send 0x13 peer m.2) s
  else { s with peers := put {} s.peers peer { p with recvList := [], recvFlit := [] } }

/-- EXPONENT_LIST_RESET (R386): the CRC of a flit has failed on the channel given, the flow over a link that this module sends (`true`) or
receives; both ends reset its list. -/
def execExponentListReset (channel : Nat × Bool) (s : State) : Out :=
  let l := look {} s.links channel.1
  .next (if s.carries channel.1 && l.coded then s.resetChannel l.peer channel.2 else s)

/-- LINK_TRAINING (R386): a port that is present comes up to a peer, with exponent coding if both ends advertise it. -/
def execLinkTraining (link peer : Nat) (coded : Bool) (s : State) : Out :=
  if link < 16 ∧ s.part.present (link / 4) kFp (link % 4) then
    .next { s with
      links := put {} s.links link { up := true, peer := peer, coded := coded }
      peers := put {} s.peers peer { reachable := true } }
  else .next s

end Sys2Proof.Machine
end

