-- ==== Sys2Proof/Machine/Fireboss.lean ====
section
/-! DEFINITION. The Headframe port, the Fireboss's sensors and alarms, module reset, the clocks, and the removal of units (spec/00 R6,
spec/19 R393 to R404). -/

namespace Sys2Proof.Machine

/-! ### Messages (R394) -/

/-- The signature of the private identity key over a message: r then s (R394, R398); zero bytes when that key is erased. (DESIGN
CHOICE: log entry 99) -/
def Fireboss.sign (b : Fireboss) (m : List Byte) : List Byte :=
  match b.idKey with
  | some d =>
    let q := ecdsaSign d m 8 (Config.signNonce m % (n384 - 1) + 1)
    beBytes 48 q.1 ++ beBytes 48 q.2
  | none => List.replicate 96 0

/-- The certificate of the module: Freten's signature over the public key, in SEC1 form, and the serial (R398). (DESIGN CHOICE: log
entry 99) -/
def State.certificate (s : State) : List Byte :=
  let m := 0x04#8 :: (beBytes 48 s.boss.idPub.1 ++ beBytes 48 s.boss.idPub.2 ++ leBytes 4 s.part.serial)
  m ++ beBytes 96 (Config.fretenCertificate m)

/-- A reply of the Headframe port, signed with the identity key; unsigned, with a zero signature, when that key is erased. -/
def State.headReply (s : State) (msg : List Byte) (status : Nat) (body : List Byte) : State :=
  let m := leBytes 4 0x48464D47 ++ leBytes 2 (fld msg 4 2) ++ leBytes 2 status ++ leBytes 8 (fld msg 8 8) ++
    leBytes 4 body.length ++ leBytes 4 0 ++ body
  s.send 0x02 0 (m ++ s.boss.sign m)

/-- The body of a Headframe message and its signature. -/
def headBody (msg : List Byte) : List Byte := (msg.drop 24).take (fld msg 16 4)
def headSig (msg : List Byte) : List Byte := msg.drop (24 + fld msg 16 4)

/-- Whether a Headframe command's layout is whole: MAGIC, zero bytes, and as many bytes as LEN says (R394). -/
def headOk (msg : List Byte) : Bool :=
  fld msg 0 4 == 0x48464D47 && fldZero msg 6 2 && fldZero msg 20 4 && msg.length == 24 + fld msg 16 4 + 96

/-- Whether a signature under a SEC1 key covers a message. -/
def signedBy (key msg : List Byte) : Bool :=
  match sec1Key key with
  | some k => verifySig k (msg.take (24 + fld msg 16 4)) (headSig msg)
  | none => false

/-- The content of a FWUPD (R395). -/
def fwContent (b : List Byte) : List Byte := (b.drop 8).take (fld b 4 4)

/-- The key that a command is checked against: the management key, or the key that a FWUPD of type 2 carries while none is held (R394). -/
def State.checkKey (s : State) (msg : List Byte) : Option (List Byte) :=
  match s.boss.mgmtKey with
  | some k => some k
  | none => if fld msg 4 2 = 4 ∧ fld (headBody msg) 0 1 = 2 then some (fwContent (headBody msg)) else none

/-- Whether a command is well formed and signed (R394). -/
def State.headSigned (s : State) (msg : List Byte) : Bool :=
  headOk msg && (match s.checkKey msg with | some k => signedBy k msg | none => false)

/-- A command of the Headframe port (R394, R395): a bad one is answered with DENIED, and after level 3 nothing is answered but
STATUS (R397). `k` gives the effect on its body, its reply included. (DEDUCED: log entry 72) -/
def State.onHead (s : State) (msg : List Byte) (op : Nat) (k : List Byte → State) : State :=
  if s.boss.erased || fld msg 4 2 != op then s
  else if !s.headSigned msg then s.headReply msg stDenied []
  else k (headBody msg)

/-! ### STATUS (R399) -/

/-- The 160 bytes of a STATUS reply. -/
def State.statusBody (s : State) (nonce : List Byte) : List Byte :=
  let b := s.boss
  nonce ++ leBytes 4 s.part.serial ++ leBytes 1 b.alarm ++ leBytes 1 b.stage ++ leBytes 2 0 ++
  ((List.range 4).flatMap fun d => leBytes 8 (s.part.diecap d)) ++ leBytes 4 b.power ++ leBytes 4 b.cap ++
  leBytes 2 b.inlet ++ leBytes 2 b.tjmax ++ leBytes 4 s.libver ++
  (sha384 (look [] b.firmware 0)).take 24 ++ (sha384 (look [] b.firmware 1)).take 24 ++ leBytes 24 0

/-- STATUS (R395, R399). After level 3 it is answered unsigned; no key is held then that could check the command (R397). (DEDUCED:
log entry 72) -/
def execStatus (msg : List (BitVec 8)) (s : State) : Out :=
  .next (
    let answer (s : State) (b : List Byte) : State :=
      if b.length = 32 then s.headReply msg stOk (s.statusBody b) else s.headReply msg stBadparam []
    if s.boss.erased then (if headOk msg && fld msg 4 2 == 1 then answer s (headBody msg) else s)
    else s.onHead msg 1 (answer s))

/-! ### The power cap and the clocks (R402) -/

/-- PCAP (R395, R402). -/
def execPcap (msg : List (BitVec 8)) (s : State) : Out :=
  .next (s.onHead msg 2 fun b =>
    let w := fld b 0 4
    if b.length ≠ 4 ∨ w < 1500 ∨ 6400 < w then s.headReply msg stBadparam []
    else ({ s with boss := { s.boss with cap := w } }).headReply msg stOk [])

/-- CLOCK_THROTTLE (R402): a step of 1/16 down while the power exceeds the cap or a temperature condition holds, a step up once
neither does. (DESIGN CHOICE: log entry 74) -/
def execClockThrottle (s : State) : Out :=
  let b := s.boss
  let n := if b.hot || decide (b.cap < b.power) then max 1 (b.step - 1) else min 16 (b.step + 1)
  .next { s with boss := { b with step := n } }

/-! ### Module reset (R401) -/

/-- A module that has stopped for a reset: no task, launch, image, queue or name is left, every memory reads zero, and the state is
bring-up. What the Fireboss keeps in its own store stands, and so do the fuses, the present bits until bring-up sets them, and the
messages already sent. (DEDUCED: log entry 73) -/
def State.beginReset (s : State) : State :=
  { State.reset with
    part := s.part
    region := (0, 0)
    boss := { s.boss with
      stage := 1, alarm := 0, cap := 6400, power := 0, inlet := 0, tjmax := 0, hot := false, step := 16 }
    nameHigh := s.nameHigh
    nameCtr := s.nameHigh
    out := s.out
    script := s.script
    steps := s.steps
    draws := s.draws
    time := s.time
    nextId := s.nextId }

/-- The contents that a reset puts in force (R395). (DESIGN CHOICE: log entry 9) -/
def Fireboss.install (b : Fireboss) : Fireboss :=
  let get (n : Nat) : Option (List Byte) := look none b.staged n
  let fw (m : FMap (List Byte)) (n : Nat) : FMap (List Byte) := match get n with | some c => put [] m n c | none => m
  { b with
    firmware := fw (fw b.firmware 0) 1
    mgmtKey := (get 2).or b.mgmtKey
    hosts := match get 3 with | some c => chunks 24 16 c | none => b.hosts
    staged := [] }

/-- Units that failed their self-test, each a kind and a number on the module (R6). -/
def Part.without (p : Part) (kind unit : Nat) : Part :=
  let key := 4 * (unit / perDie kind) + kind
  let bitOf := 2 ^ (unit % perDie kind)
  let old := look 0 p.removed key
  { p with removed := put 0 p.removed key (if old.testBit (unit % perDie kind) then old else old + bitOf) }

/-- The erasures of level 3: the keys, and every page of every loaded image (R397). -/
def State.eraseAll (s : State) : State :=
  { s with
    mem := s.imagePages.foldl (fun (m : Mem) f => m.zeroed (f * 65536) 65536) s.mem
    boss := { s.boss with stage := 3, alarm := 3, erased := true, idKey := none, sealKey := none, mgmtKey := none } }

/-- Bring-up: the contents that waited are installed, the firmware is verified, the units are tested and the present bits set, the
translator's region is reserved, a sealing key is drawn when none is held, and the endpoint opens (R6, R396, R398, R401). (DEDUCED:
log entry 73) -/
def State.bringUp (s : State) (overman fireboss : Bool) (failed : List (Nat × Nat)) : State :=
  let b := s.boss.install
  if !fireboss then ({ s with boss := b }).eraseAll
  else
    let tested : Part := { s.part with removed := [] }
    let part := (failed.filter fun u => unitExists u.1 u.2).foldl (fun (p : Part) u => p.without u.1 u.2) tested
    let key := match b.sealKey with | some k => k | none => Config.drawnKey s.draws
    if !overman then { s with boss := { b with stage := 0 } }
    else { s with
      part := part
      region := State.reset.region
      draws := s.draws + 1
      boss := { b with stage := 2, sealKey := some key } }

/-- MODULE_RESET (R401): the module stops, unless a RESET or ZEROISE has stopped it, and is brought up. Whether each firmware image
verifies and which units fail their self-test are inputs. A module erased by level 3 stays as it is (R397). (DEDUCED: log entries 10
and 73) -/
def execModuleReset (overman fireboss : Bool) (failed : List (Nat × Nat)) (s : State) : Out :=
  .next (if s.boss.erased then s
    else (if s.boss.stage = 1 then s else s.beginReset).bringUp overman fireboss failed)

/-- RESET (R395, R401): OK is sent, and the reset begins; MODULE_RESET is its end. (DEDUCED: log entry 73) -/
def execReset (msg : List (BitVec 8)) (s : State) : Out :=
  .next (s.onHead msg 3 fun b =>
    if b.length ≠ 0 then s.headReply msg stBadparam [] else (s.headReply msg stOk []).beginReset)

/-- ZEROISE (R397): OK is sent, the sealing key, the management key and the host list are erased, with any that waited to be
installed, and a reset begins. (DEDUCED: log entry 73) -/
def execZeroise (msg : List (BitVec 8)) (s : State) : Out :=
  .next (s.onHead msg 5 fun b =>
    if b.length ≠ 0 then s.headReply msg stBadparam []
    else
      let s := (s.headReply msg stOk []).beginReset
      { s with boss := { s.boss with
          sealKey := none, mgmtKey := none, hosts := [], staged := s.boss.staged.filter fun p => decide (p.1 < 2) } })

/-! ### FWUPD (R395) -/

/-- Whether a host list keeps its form: whole entries, at most 16, each with a right of 0 or 1. (DEDUCED: log entry 72) -/
def hostListOk (c : List Byte) : Bool :=
  c.length % 24 == 0 && decide (c.length ≤ 384) && (chunks 24 16 c).all fun e => decide (fld e 16 1 ≤ 1)

/-- Whether a FWUPD's zero bytes are zero: its own, and those of a host list's entries. (DEDUCED: log entry 72) -/
def fwZeros (b : List Byte) : Bool :=
  fldZero b 1 3 && (fld b 0 1 != 3 || (chunks 24 16 (fwContent b)).all fun e => fldZero e 17 7)

/-- The status of a FWUPD's body. (DEDUCED: log entry 72) -/
def fwStatus (b : List Byte) : Nat :=
  let c := fwContent b
  if b.length < 8 || decide (65536 < b.length) || b.length != 8 + fld b 4 4 || decide (3 < fld b 0 1) then stBadparam
  else if !fwZeros b then stDenied
  else
    match fld b 0 1 with
    | 2 => if c.length = 97 ∧ (sec1Key c).isSome then stOk else stBadparam
    | 3 => if hostListOk c then stOk else stBadparam
    | _ => if Config.fretenSigned c then stOk else stRejected

/-- FWUPD (R394, R395). (DESIGN CHOICE: log entry 11) -/
def execFwupd (msg : List (BitVec 8)) (s : State) : Out :=
  .next (s.onHead msg 4 fun b =>
    let code := fwStatus b
    let c := fwContent b
    if code ≠ stOk then s.headReply msg code []
    else
      let boss := if fld b 0 1 = 2 ∧ s.boss.mgmtKey = none then { s.boss with mgmtKey := some c }
        else { s.boss with staged := put none s.boss.staged (fld b 0 1) (some c) }
      ({ s with boss := boss }).headReply msg stOk [])

/-- HEADFRAME_UNLISTED_OP (R395). -/
def execHeadframeUnlistedOp (msg : List (BitVec 8)) (s : State) : Out :=
  .next (if decide (1 ≤ fld msg 4 2) && decide (fld msg 4 2 ≤ 5) then s
    else s.onHead msg (fld msg 4 2) fun _ => s.headReply msg stBadparam [])

/-! ### Alarms (R396, R397) -/

/-- The conditions of level 1 that a sample meets, as bits: rail, junction, inlet. Rails and clocks are given by their distance from the
nominal in 0.01 %, temperatures in 0.1 °C. -/
def levelOne (rail tj inlet : Nat) : Nat :=
  (if 300 ≤ rail ∧ rail ≤ 800 then 1 else 0) + (if 1050 ≤ tj ∧ tj ≤ 1150 then 2 else 0) +
  (if 400 < inlet ∧ inlet ≤ 450 then 4 else 0)

/-- The alarm level of a sample (R396). (DESIGN CHOICE: log entry 74) -/
def alarmLevel (rail clk tj inlet : Nat) (broken : Bool) : Nat :=
  if broken then 3
  else if decide (800 < rail) || decide (200 < clk) || decide (1150 < tj) || decide (450 < inlet) then 2
  else if levelOne rail tj inlet ≠ 0 then 1
  else 0

/-- SENSOR_SAMPLE (R396, R397, R399): the worst rail and clock, the highest junction temperature, the inlet, the input power
averaged over 100 ms, and whether the mesh is broken. (DESIGN CHOICE: log entry 74) -/
def execSensorSample (rail clk tj inlet power : Nat) (broken : Bool) (s : State) : Out :=
  let level := alarmLevel rail clk tj inlet broken
  let one := levelOne rail tj inlet
  let b := { s.boss with
    power := power, inlet := inlet, tjmax := tj, alarm := max s.boss.alarm level, hot := decide (2 ≤ one)
    nvlog := if one ≠ 0 then s.boss.nvlog ++ [(s.timebase, one)] else s.boss.nvlog }
  .next (
    if level = 3 then ({ s with boss := b }).eraseAll
    else if level = 2 then { s with boss := { b with stage := 3 } }
    else { s with boss := b })

/-! ### Units (R6, R403) -/

/-- The groups that a cluster holds or that left it for a while: sequence number, node and group. -/
def State.groupsOn (s : State) (cl : Nat) : List (Nat × Nat × Nat) :=
  ((s.cluster cl).slots.filter fun p => s.standing p.2 || p.2.state == 3).map fun p =>
    (p.2.info.seq, p.2.info.node, (s.launchNode p.2.info.seq p.2.info.node).groupOf p.2.info.team)

/-- The tasks of a team that is never to be bound are reported with ABORTED (R6). (DESIGN CHOICE: log entry 74) -/
def State.abandonTeam (s : State) (seq node team : Nat) : State :=
  let nd := s.launchNode seq node
  let s := s.updNode seq node fun nd => { nd with boundTeams := nd.boundTeams ++ [team] }
  let i := (s.freshArch (s.theLaunch seq) node team 0 []).info
  (List.range nd.tasks).foldl (fun s t =>
    s.report { i with task := t } { status := stAborted, exitCode := 0, rest := restIdle nd team t }) s

/-- The teams of a group whose cluster is gone that are not bound yet. -/
def State.abandonGroup (s : State) (q : Nat × Nat × Nat) : State :=
  let nd := s.launchNode q.1 q.2.1
  ((nd.groupTeams q.2.2).filter fun t => !nd.boundTeams.contains t).foldl (fun s t => s.abandonTeam q.1 q.2.1 t) s

/-- A cluster is gone: every team of a group that it held ends with ABORTED, item by item (R6, R360). (DESIGN CHOICE: log entry 74)
-/
def State.clusterGone (s : State) (cl : Nat) : State :=
  let groups := s.groupsOn cl
  let s := ((s.abortContexts fun k _ => clusterOf k == cl).abortSaved fun c _ => c == cl).abortUnstarted fun c _ => c == cl
  groups.foldl State.abandonGroup s

/-- Whether a task has a page in a frame that no present unit backs. (DESIGN CHOICE: log entry 74) -/
def State.lostPage (s : State) (a : Arch) : Bool := (a.pins ++ a.holds).any fun f => !s.part.backed (f * 65536)

/-- The pages of some runs that present units of the part hold. -/
def Part.holding (p : Part) (ps : List Page) : List Page := ps.filter fun q => p.backed (q.frame * 65536)

def Part.holdingAll (p : Part) (m : FMap (List Page)) : FMap (List Page) := m.map fun x => (x.1, p.holding x.2)

/-- A result that nothing will answer any more is poisoned. (DESIGN CHOICE: log entry 74) -/
def SbEntry.lose (ids : List Nat) (e : SbEntry) : SbEntry :=
  let lost : Payload := match e.dst with
    | .s _ => .scalar { psn := true }
    | .v _ => .vector { psn := true }
    | .pair _ => .pair 0 0 true
  match e.what with
  | .update id | .late id => if ids.contains id then { e with what := lost } else e
  | _ => e

/-- A command's runs lose the pages that no unit holds any more. -/
def Cmd.losePages (p : Part) (c : Cmd) : Cmd := { c with pages := p.holdingAll c.pages }

def Core.losePages (p : Part) (c : Core) : Core :=
  let f := Cmd.losePages p
  { c with
    cq := c.cq.map f, mq := c.mq.map f, lq := c.lq.map f, l1 := c.l1.filter fun u => p.backed (8 * u.1)
    lines := c.lines.filter fun l => p.backed (64 * l.1) }

/-- A task's runs lose the pages that no unit holds any more. -/
def Arch.losePages (p : Part) (a : Arch) : Arch := { a with ePages := p.holdingAll a.ePages, runs := a.runs.map p.holding }

/-- What the units that are gone held: their contents, the pages of every run, and what was on its way to them (R6). (DESIGN CHOICE:
log entry 74) -/
def State.loseUnits (s : State) : State :=
  let on (pu : Nat) : Bool := s.part.backed (8 * pu)
  let gone := ((s.updates.filter fun u => !on u.unit).map fun u => u.id) ++
    s.ctxs.flatMap fun p => (p.2.late.filter fun l => l.refs.any fun r => !on r.pu).map fun l => l.id
  let s := s.mapCtxs fun c => { c with
    arch := c.arch.losePages s.part, late := c.late.filter fun l => !gone.contains l.id, sb := c.sb.map (SbEntry.lose gone) }
  ({ s with
    mem := { cells := s.mem.cells.filter fun c => s.part.backed c.1, marks := s.mem.marks.filter fun c => on c.1 }
    updates := s.updates.filter fun u => !gone.contains u.id
    hidden := s.hidden.filter fun h => on h.unit
    spoiled := s.spoiled.filter fun p => on p.2
    cores := s.cores.map fun (p : Nat × Core) => (p.1, p.2.losePages s.part)
    names := s.names.map fun (p : BitVec 128 × NameEntry) => (p.1, { p.2 with pages := s.part.holding p.2.pages }) }).drain

/-- UNIT_REMOVAL (R6, R289, R403): a cluster, an HBM stack, a deep-tier device or a fabric port that is due is removed. Its present
bit clears; a cluster's teams end with ABORTED, and so do the tasks with a page that no unit backs any more (R360), which every run
loses; a port loses its link. (DESIGN CHOICE: log entry 74) -/
def execUnitRemoval (kind unit : Nat) (s : State) : Out :=
  if !unitExists kind unit || !s.part.present (unit / perDie kind) kind (unit % perDie kind) || !(s.unitErrors kind unit).due then .next s
  else
    let s := { s with part := s.part.without kind unit }
    if kind = kCl then .next (s.clusterGone unit)
    else if kind = kFp then
      let s : State := { s with links := s.links.map fun l => if l.1 = unit then (l.1, { l.2 with up := false }) else l }
      .next s.losePeers
    else
      let lost := (s.clusters.flatMap fun p => p.2.slots.flatMap fun r => (r.2.saved.map fun q => q.2.arch).filter s.lostPage).map
        fun a => a.info.uid
      .next ((s.abortContexts fun _ a => s.lostPage a).abortSaved fun _ i => lost.contains i.uid).loseUnits

/-! ### What a module that does not run still does (R393, R397, R401) -/

/-- Whether a step of this kind can happen now: a module that is halted, in bring-up or in standby takes only what the Headframe
port, the Fireboss and the sensors do. (DESIGN CHOICE: log entry 1) -/
def State.open_ (s : State) (i : Instr) : Bool :=
  s.boss.stage == 2 ||
  match i with
  | .status _ | .pcap _ | .reset _ | .fwupd _ | .zeroise _ | .headframeUnlistedOp _ | .moduleReset _ _ _
  | .sensorSample _ _ _ _ _ _ => true
  | _ => false

end Sys2Proof.Machine
end

