-- ==== Sys2Proof/Machine/Lode.lean ====
section
/-! DEFINITION. The Lode engine: the grammar image (spec/17 R369 to R371), GEVAL's checks (R372, R373, spec/08 R213, R214) and the
evaluation (R374 to R377). -/

namespace Sys2Proof.Machine

/-! ### The quad and the header (R213, R369) -/

def Core.lodeCmd (c : Core) (id : Nat) : Option Cmd := c.lq.find? fun x => x.id == id

/-- A command of the Lode queue changed. -/
def State.setLode (s : State) (core : Nat) (c : Cmd) : State :=
  s.setCore core { s.core core with lq := (s.core core).lq.map fun x => if x.id = c.id then c else x }

/-- The quad's locators 0 to 2, for the image, the inputs and the outputs, as locators of R234. -/
def Cmd.lodeLoc (c : Cmd) (i : Nat) : Word :=
  let l := c.w i
  if bit l 63 then BitVec.ofNat 64 (2 * 2 ^ 62 + bits l 59 4 * 2 ^ 58 + bits l 0 55) else BitVec.ofNat 64 (bits l 0 55)

def Cmd.depth (c : Cmd) : Nat := bits (c.w 3) 0 5

/-- The distance between the vectors of locator `i`. -/
def Cmd.vecStride (c : Cmd) (i : Nat) : Nat := 64 * (if i = 1 then bits (c.w 3) 16 16 else bits (c.w 3) 32 16)

/-- The first row of R214's table. -/
def Cmd.gevalBad (c : Cmd) : Bool :=
  let bad (i : Nat) : Bool :=
    let l := c.w i
    bits l 55 4 != 0 || bits l 0 2 != 0 || (!bit l 63 && (bits l 59 4 != 0 || decide (2 ^ 20 ≤ bits l 0 55)))
  bits (c.w 3) 48 16 != 0 || bits (c.w 3) 5 11 != 0 || c.depth == 0 || bad 0 || bad 1 || bad 2 || bits (c.w 0) 0 6 != 0

/-- The header's fields, kept in the command's block once it has been read. -/
def Cmd.gFmt (c : Cmd) : Nat := fld c.block 6 1
def Cmd.gBatch (c : Cmd) : Nat := fld c.block 7 1
def Cmd.gRows (c : Cmd) : Nat := fld c.block 8 4
def Cmd.gCols (c : Cmd) : Nat := fld c.block 12 4
def Cmd.gRules (c : Cmd) : Nat := fld c.block 16 4
def Cmd.gLevels (c : Cmd) : Nat := fld c.block 20 1
def Cmd.gNsym (c : Cmd) : Nat := fld c.block 24 4

/-- A malformed header (R369, R372). -/
def Cmd.headerBad (c : Cmd) : Bool :=
  fld c.block 0 4 != 0x45444F4C || fld c.block 4 2 != 1 || !(c.gFmt == fFp32 || c.gFmt == fBf16) || c.gBatch == 0 ||
  decide (8 < c.gBatch) || c.gRows == 0 || decide (2 ^ 24 < c.gRows) || c.gCols == 0 || decide (2 ^ 24 < c.gCols) ||
  decide (31 < c.gLevels) || (c.gLevels == 0) != (c.gRules == 0) || !fldZero c.block 21 3 || !fldZero c.block 28 36

/-- Where the row table and the row symbols begin, and the image's length (R369). -/
def Cmd.tableAt (c : Cmd) : Nat := 64 + 16 * c.gRules
def Cmd.symbolsAt (c : Cmd) : Nat := c.tableAt + 8 * ((c.gRows + 2) / 2)
def Cmd.imageLen (c : Cmd) : Nat := c.symbolsAt + 8 * c.gNsym

/-- The ranges other than the header: locator, offset from it, length. -/
def Cmd.lodeRanges (c : Cmd) : List (Nat × Nat × Nat) :=
  let vecs (i n : Nat) : List (Nat × Nat × Nat) := (List.range c.gBatch).map fun b => (i, c.vecStride i * b, 4 * n)
  (0, 0, c.imageLen) :: (vecs 1 c.gCols ++ vecs 2 c.gRows)

/-- The physical runs of a range. -/
def Cmd.lodeRuns (c : Cmd) (r : Nat × Nat × Nat) : List (Nat × Nat × Nat) :=
  c.locRuns (c.lodeLoc r.1 + BitVec.ofNat 64 r.2.1) r.2.2

/-- Whether an output range meets the image, an input range or another output range. -/
def Cmd.outputsMeet (c : Cmd) : Bool :=
  let rs := c.lodeRanges.map fun r => (r, c.lodeRuns r)
  rs.any fun o => o.1.1 == 2 && rs.any fun x => x.1 != o.1 && runsMeet o.2 x.2

/-- Two output ranges of one stride are the same range when YSTRIDE is 0. -/
def Cmd.outputsSame (c : Cmd) : Bool := decide (2 ≤ c.gBatch) && c.vecStride 2 == 0

/-- The scratchpad ranges judged before the extent ranges. -/
def Cmd.rangesBad (c : Cmd) : Bool :=
  c.lodeRanges.any fun r => locSpace (c.lodeLoc r.1) == 0 && decide (2 ^ 20 < locOff (c.lodeLoc r.1) + r.2.1 + r.2.2)

/-- The check of one extent range. -/
def State.rangeStatus (s : State) (c : Cmd) (r : Nat × Nat × Nat) : Nat :=
  if locSpace (c.lodeLoc r.1) = 0 then stOk else s.locCheck c (c.lodeLoc r.1) r.2.1 r.2.2 1 (r.1 == 2)

/-- The check of the 64 header bytes. -/
def State.headStatus (s : State) (c : Cmd) : Nat :=
  if locSpace (c.lodeLoc 0) = 0 then (if 2 ^ 20 < locOff (c.lodeLoc 0) + 64 then stBadparam else stOk)
  else s.locCheck c (c.lodeLoc 0) 0 64 1 false

/-- Words of the image as they are decoded: marked ones as zero bits (R376). (DEDUCED: log entry 64) -/
def Cmd.cleanBytes (c : Cmd) (k a n : Nat) : List Byte :=
  let r := c.bytesAt k a n
  (r.1.zip r.2).map fun x => if x.2 then 0 else x.1

/-- GEVAL as it starts: the checks of R214 in their order; a header with a marked byte is malformed (R372). It has not started while
its header waits. (DEDUCED: log entries 64 and 117) -/
def State.startGeval (s : State) (c : Cmd) : State × Cmd :=
  if c.gevalBad then (s, c.end_ stBadparam 0 0)
  else
    let idle := c
    let c := s.begin_ c c.lag
    let code := s.headStatus c
    if code ≠ stOk then (s, c.end_ code 0 0)
    else
      let l := c.lodeLoc 0
      let r := s.pull c l 0 (unitsOf (c.addr l) 64)
      let s := r.1
      let us := unitsOf (c.addr l) 64
      let psn := r.2.pulledPoison 0 us
      let waits := !r.2.pulled 0 us
      let c : Cmd := { r.2 with block := r.2.cleanBytes 0 (r.2.addr l) 64, src := [] }
      if waits then (s, idle)
      else if psn || c.headerBad || c.rangesBad then (s, c.end_ stBadparam 0 0)
      else
        let code := firstFail (c.lodeRanges.map (s.rangeStatus c))
        if code ≠ stOk then (s, c.end_ code 0 0)
        else if c.outputsSame || c.outputsMeet then (s, c.end_ stBadparam 0 0)
        else if 65536 / c.gBatch < c.gRules then (s, c.end_ stToolarge 0 0)
        else (s, c)

/-! ### Symbols (R370, R371) -/

def symRef (w : Word) : Bool := bit w 63
def symLevel (w : Word) : Nat := bits w 56 5
def symIndex (w : Word) : Nat := bits w 0 16
def symCol (w : Word) : Nat := bits w 32 24

/-- The terminal's value, widened exactly to FP32. -/
def symValue (fmt : Nat) (w : Word) : Nat := if fmt = fBf16 then bits w 0 16 * 65536 else bits w 0 32

/-- Reserved bits zero, and the column in range. -/
def symOk (c : Cmd) (w : Word) : Bool :=
  bits w 61 2 == 0 &&
  (if symRef w then bits w 16 40 == 0 else (c.gFmt != fBf16 || bits w 16 16 == 0) && decide (symCol w < c.gCols))

/-- The level of a rule that has been evaluated. -/
def Cmd.ruleLevel (c : Cmd) (n : Nat) : Nat := look 0 c.levels n

def Cmd.symLev (c : Cmd) (w : Word) : Nat := if symRef w then c.ruleLevel (symIndex w) else 0

/-- Whether rule `n` is well formed (R371). -/
def Cmd.ruleOk (c : Cmd) (n : Nat) (l r : Word) : Bool :=
  symOk c l && symOk c r && symLevel r == 0 &&
  (!symRef l || decide (symIndex l < n)) && (!symRef r || decide (symIndex r < n)) &&
  symLevel l == 1 + max (c.symLev l) (c.symLev r) && (n == 0 || decide (c.ruleLevel (n - 1) ≤ symLevel l)) &&
  decide (symLevel l ≤ c.gLevels)

/-- Whether a row's symbol is well formed. -/
def Cmd.rowSymOk (c : Cmd) (w : Word) : Bool :=
  symOk c w && symLevel w == 0 && (!symRef w || decide (symIndex w < c.gRules))

/-! ### Values (R375, R376) -/

/-- lterm: a terminal's value times an input element. (DEDUCED: log entry 64) -/
def lterm (v x : Nat) : Nat :=
  let f := fpOf fFp32
  let a := fpDecode f v
  let b := fpDecode f x
  if a.isNan || b.isNan || zeroTimesInf a b then f.qnan else (fpRound f rne (fpMul a b)).1

/-- lsum. (DEDUCED: log entry 64) -/
def lsum (a b : Nat) : Nat := (accAdd fFp32 a (fpDecode (fpOf fFp32) b)).1

/-- A rule's value for vector `b`, and its poison. -/
def Cmd.ruleVal (c : Cmd) (n b : Nat) : Nat × Bool :=
  ((look 0 c.values (2 * (8 * n + b))).toNat, look 0 c.values (2 * (8 * n + b) + 1) != 0)

def Cmd.setRuleVal (c : Cmd) (n b v : Nat) (psn : Bool) : Cmd :=
  { c with values := put 0 (put 0 c.values (2 * (8 * n + b)) (BitVec.ofNat 32 v)) (2 * (8 * n + b) + 1) (if psn then 1 else 0) }

/-- Where vector `b`'s element `n` of locator `i` lies. -/
def Cmd.vecAt (c : Cmd) (i b n : Nat) : Nat := c.addr (c.lodeLoc i) + c.vecStride i * b + 4 * n

/-! ### The walk (R374)

A command stands in one of these phases: 0 at rule `progress`; 1 at row `ordLo` of the rows not yet written, its row-table entries to be
read; 2 at that row's symbols, from `ordHi` up to `logLo`; 3 in the row's terms, 4 in the rule's terms, at term `remote`; 5 stopped. The symbols are
kept in `mp`, the row's or rule's poison in `blockPsn`, the sums by vector in `sums`, the rule's symbols behind the quad, the
level reached in `written`, the rows written in `todo`, their count over the batch in `conds`, and values not yet stored in `formed`. -/

/-- The units that the next step reads: the locator's number and the units. -/
def Cmd.lodeNeeds (c : Cmd) : Nat × List Nat :=
  let g := c.addr (c.lodeLoc 0)
  let term (w : Word) (b : Nat) : Nat × List Nat := if symRef w then (1, []) else (1, unitsOf (c.vecAt 1 b (symCol w)) 4)
  match c.phase with
  | 0 => (0, if c.progress < c.gRules then unitsOf (g + 64 + 16 * c.progress) 16 else [])
  | 1 => (0, if c.ordLo < c.gRows then unitsOf (g + c.tableAt + 4 * c.ordLo) 8 else [])
  | 2 => (0, unitsOf (g + c.symbolsAt + 8 * c.ordHi) (8 * (c.logLo - c.ordHi)))
  | 3 | 4 => if c.remote < c.mp.length * c.gBatch then term (nth 0 c.mp (c.remote / c.gBatch)) (c.remote % c.gBatch) else (1, [])
  | _ => (0, [])

/-- The command stops: rows that have been written stay (R374). -/
def Cmd.lodeStop (c : Cmd) (status : Nat) : Cmd := { c with status := status, phase := 5 }

/-- The rule whose symbols stand behind the quad is checked, and its terms begin (R371, R374). -/
def Cmd.lodeCheck (c : Cmd) : Cmd :=
  let l := c.w 4
  let r := c.w 5
  if !c.ruleOk c.progress l r then c.lodeStop stTopology
  else if c.depth < symLevel l then c.lodeStop stRuledepth
  else { c with
    phase := 4, mp := [l, r], remote := 0, blockPsn := c.outPsn.contains true, sums := []
    levels := put 0 c.levels c.progress (symLevel l) }

/-- Rule symbols read: rows of lower levels come first where a new level begins (R374). -/
def Cmd.lodeRule (c : Cmd) : Cmd :=
  let a := c.addr (c.lodeLoc 0) + 64 + 16 * c.progress
  if c.gRules ≤ c.progress then
    if c.written = 32 then c.lodeStop (if c.psn then stPoisoned else stOk)
    else { c with phase := 1, ordLo := 0, written := 32 }
  else
    let bs := c.cleanBytes 0 a 16
    let l : Word := BitVec.ofNat 64 (fld bs 0 8)
    let psn := (c.bytesAt 0 a 16).2.contains true
    let c := { c with psn := c.psn || psn, quad := c.quad.take 4 ++ [l, BitVec.ofNat 64 (fld bs 8 8)], outPsn := [psn] }
    if c.written < symLevel l then { c with phase := 1, ordLo := 0, written := symLevel l } else c.lodeCheck

/-- A row's entries read (R371). -/
def Cmd.lodeRow (c : Cmd) : Cmd :=
  if c.gRows ≤ c.ordLo then (if c.progress < c.gRules then c.lodeCheck else { c with phase := 0 })
  else if c.todo.contains c.ordLo then { c with ordLo := c.ordLo + 1 }
  else
    let a := c.addr (c.lodeLoc 0) + c.tableAt + 4 * c.ordLo
    let bs := c.cleanBytes 0 a 8
    let e0 := fld bs 0 4
    let e1 := fld bs 4 4
    let psn := (c.bytesAt 0 a 8).2.contains true
    let c := { c with psn := c.psn || psn }
    if e1 < e0 ∨ c.gNsym < e1 ∨ (c.ordLo = 0 ∧ e0 ≠ 0) then c.lodeStop stTopology
    else { c with phase := 2, ordHi := e0, logLo := e1, blockPsn := psn }

/-- A row's symbols read: it waits where a rule that it names lies at or above the boundary. -/
def Cmd.lodeSymbols (c : Cmd) : Cmd :=
  let a := c.addr (c.lodeLoc 0) + c.symbolsAt + 8 * c.ordHi
  let n := c.logLo - c.ordHi
  let bs := c.cleanBytes 0 a (8 * n)
  let ws := (chunks 8 n bs).map fun b => (BitVec.ofNat 64 (leNat b) : Word)
  let psn := (c.bytesAt 0 a (8 * n)).2.contains true
  let c := { c with psn := c.psn || psn }
  if ws.any fun w => !c.rowSymOk w then c.lodeStop stTopology
  else if ws.any fun w => symRef w && decide (c.progress ≤ symIndex w) then { c with phase := 1, ordLo := c.ordLo + 1 }
  else { c with phase := 3, mp := ws, remote := 0, blockPsn := c.blockPsn || psn, sums := [] }

/-- One symbol's value for one vector (val of R374). -/
def Cmd.lodeVal (c : Cmd) (w : Word) (b : Nat) : Nat × Bool :=
  if symRef w then c.ruleVal (symIndex w) b
  else
    let a := c.vecAt 1 b (symCol w)
    (lterm (symValue c.gFmt w) (leNat (c.cleanBytes 1 a 4)), (c.bytesAt 1 a 4).2.contains true)

/-- One term added to its vector's sum. -/
def Cmd.lodeTerm (c : Cmd) : Cmd :=
  let q := c.remote
  let b := q % c.gBatch
  let v := c.lodeVal (nth 0 c.mp (q / c.gBatch)) b
  let old := nth (0, false) c.sums b
  let new := if q < c.gBatch then (v.1, c.blockPsn || v.2) else (lsum old.1 v.1, old.2 || v.2)
  { c with remote := q + 1, psn := c.psn || v.2, sums := if q < c.gBatch then c.sums ++ [new] else c.sums.set b new }

/-- The terms are over: a rule's values enter the file, a row's values are due to be written (R375, R376). -/
def Cmd.lodeDone (c : Cmd) : Cmd :=
  let sum (b : Nat) : Nat × Bool := nth (0, c.blockPsn) c.sums b
  if c.phase = 4 then
    let c' := (List.range c.gBatch).foldl (fun (d : Cmd) b => d.setRuleVal c.progress b (sum b).1 (sum b).2) c
    { c' with phase := 0, progress := c.progress + 1 }
  else
    { c with
      phase := 1, ordLo := c.ordLo + 1, todo := c.todo ++ [c.ordLo], conds := c.conds + c.gBatch
      formed := c.formed ++ (List.range c.gBatch).map fun b =>
        { k := some c.ordLo, idx := [b], canon := true, val := (sum b).1, psn := (sum b).2 } }

/-- The next step of the walk, its units read. (DEDUCED: log entry 64) -/
def Cmd.lodeStep (c : Cmd) : Cmd :=
  let c' := match c.phase with
    | 0 => c.lodeRule
    | 1 => c.lodeRow
    | 2 => c.lodeSymbols
    | 3 | 4 => if c.remote < c.mp.length * c.gBatch then c.lodeTerm else c.lodeDone
    | _ => c
  { c' with src := [] }

/-! ### Row writes (R377) -/

/-- Where a formed row value is stored. -/
def Cmd.formedAt (c : Cmd) (f : Formed) : Nat := c.vecAt 2 (nth 0 f.idx 0) (f.k.getD 0)

/-- The number by which an event names a formed value. -/
def formedKey (f : Formed) : Nat := 8 * f.k.getD 0 + nth 0 f.idx 0

/-- A formed value stored; those of one unit keep their order. -/
def lodeWrite (r : State × Cmd) (f : Formed) : State × Cmd :=
  let c := r.2
  let a := c.formedAt f
  let l := c.lodeLoc 2
  let g := r.1.locReach c l (a / 8)
  if (c.formed.find? fun x => c.formedAt x / 8 == a / 8) ≠ some f then r
  else if !g.2 then (g.1, c)
  else
    let p := unitPart (a / 8) a (leBytes 4 f.val)
    (g.1.writeLoc c l (a / 8) p.1 p.2 f.psn, { c with formed := c.formed.erase f })

/-- LODE_EVALUATION (R374): the first command of the Lode queue starts, or takes its next step: it reads the units given, with `go` it
goes on, and it stores the formed values named in `writes`; `lag` names the units of which it misses the engine writes that it
may miss (R310). -/
def execLodeEvaluation (core id : Nat) (lag : List (Nat × Nat)) (reads writes : List Nat) (go : Bool) (s : State) : Out :=
  match (s.core core).lodeCmd id with
  | none => .next s
  | some c =>
    if s.still core || c.finished then .next s
    else if !c.started then
      if !c.ready then .next s
      else if (s.core core).lq.head?.map Cmd.id ≠ some id then .next s
      else if !c.good then .next (s.setLode core c.cancel)
      else
        let r := s.startGeval { c with lag := lag }
        .next (r.1.setLode core r.2)
    else
      let needs := c.lodeNeeds
      let l := c.lodeLoc needs.1
      let r := s.pull c l needs.1 (reads.filter needs.2.contains)
      let r := if go then r.1.pull r.2 l needs.1 needs.2 else r
      let r := if go && r.2.pulled needs.1 needs.2 then (r.1, r.2.lodeStep) else r
      let r := (r.2.formed.filter fun f => writes.contains (formedKey f)).foldl lodeWrite r
      let c := if r.2.phase = 5 ∧ r.2.formed = [] then r.2.end_ r.2.status r.2.conds 0 else r.2
      .next (r.1.setLode core c)

end Sys2Proof.Machine
end

