-- ==== Sys2Proof/Machine/Streams.lean ====
section
/-! DEFINITION. The stream engine (spec/07 R184, spec/01 R21). -/

namespace Sys2Proof.Machine

/-- The elements of a FIFO entry (R184). -/
def Stream.per (q : Stream) : Nat := 256 / 2 ^ q.esz.toNat

/-- Which FIFO entry an element goes into, counted from the one that is being built. -/
def Stream.group (q : Stream) (at_ : Nat) : Nat := (q.part.length + q.remain.toNat - at_) / q.per

/-- The agent that a context's streams are. -/
def streamAgent (k : Nat) : Nat × Nat := (2, k)

/-- `n` bytes at offset `off` of a slot read by the stream engine, zero where they are poisoned; none where the read must wait for a merge
that it has made (R306). -/
def State.streamRead (s : State) (k slot off n : Nat) (lag : List (Nat × Nat)) : State × Option (Nat × Bool) :=
  let a := (s.ctx k).arch
  let ps := a.slotPages slot
  let va := extBase (a.extent slot) + off
  let g := s.reachAll (streamAgent k) ((unitsOf va n).map (unitOn ps))
  if !g.2 then (g.1, none)
  else
    let r := g.1.runRead (streamAgent k) lag ps va n
    let psn := r.2.2.contains true
    (r.1, some (if psn then 0 else leNat r.2.1, psn))

/-- Whether a slot's check of R168 passes for a read of the stream engine. -/
def State.streamGood (s : State) (k slot off n : Nat) : Bool :=
  let a := (s.ctx k).arch
  s.checkExt (coreOf k) (a.slotPages slot) (a.extent slot) (off : Int) n n false == stOk

/-- The element at index `i`: a duplicate of one that its group has read is not read again (R312), and one that cannot be read is
zero and poisoned (R184). (DEDUCED: log entry 65) -/
def State.streamElem (s : State) (k : Nat) (q : Stream) (lag : List (Nat × Nat)) (at_ i : Nat) : State × Option Fetched :=
  let w := 2 ^ q.esz.toNat
  let f : Fetched := { at_ := at_, idx := some i }
  match q.seen.find? fun g => g.idx == some i && q.group g.at_ == q.group at_ with
  | some g => (s, some { g with at_ := at_ })
  | none =>
    if !s.streamGood k q.dslot.toNat (i * w) w then (s, some { f with psn := true })
    else
      let r := s.streamRead k q.dslot.toNat (i * w) w lag
      (r.1, r.2.map fun x => { f with val := x.1, psn := x.2 })

/-- The element `j` places ahead read, its index first; a poisoned index makes it zero and poisoned. (DEDUCED: log entry 65) -/
def State.streamFetch (s : State) (k : Nat) (q : Stream) (lag : List (Nat × Nat)) (j : Nat) : State × Option Fetched :=
  let at_ := q.remain.toNat - j
  let w := if q.ixw = 0 then 4 else 8
  let off := q.ixoff.toNat + j * w
  match q.seen.find? fun g => g.at_ == at_ with
  | some g => (s, some g)
  | none =>
    if !s.streamGood k q.ixslot.toNat off w then (s, some { at_ := at_, good := false })
    else
      let r := s.streamRead k q.ixslot.toNat off w lag
      match r.2 with
      | none => (r.1, none)
      | some (_, true) => (r.1, some { at_ := at_, psn := true })
      | some (i, false) => r.1.streamElem k q lag at_ i

/-- The entry under construction goes into the FIFO once it is full or the last: missing elements are zero (R184). -/
def Stream.enqueue (q : Stream) : Stream :=
  if q.part.length = q.per ∨ (q.remain = 0 ∧ q.part ≠ []) then
    { q with
      part := []
      seen := q.seen.filter fun g => decide (g.at_ ≤ q.remain.toNat)
      fifo := q.fifo ++ [{ bits := packVec (8 * 2 ^ q.esz.toNat) (q.part.map Prod.fst), psn := q.part.any Prod.snd }]
      state := if q.remain = 0 then 2 else q.state }
  else q

/-- What has been read kept for its group. -/
def Stream.note (q : Stream) (f : Fetched) : Stream := if q.seen.contains f then q else { q with seen := q.seen ++ [f] }

/-- The stream after its next element; an index outside its extent ends it (R184). -/
def Stream.take (q : Stream) (f : Fetched) : Stream :=
  if !f.good then { q with state := 3, part := [], seen := [] }
  else
    let q := q.note f
    Stream.enqueue { q with
      part := q.part ++ [(f.val, f.psn)], remain := q.remain - 1, ixoff := q.ixoff + (if q.ixw = 0 then 4 else 8) }

def State.setStream (s : State) (k n : Nat) (q : Stream) : State :=
  let c := s.ctx k
  s.setCtx k { c with arch := { c.arch with q := put {} c.arch.q n q } }

/-- A running stream reads the element `j` places ahead (R312), or takes its next one into the entry (R184). (DEDUCED: log entry 65)
-/
def State.streamStep (s : State) (k n : Nat) (lag : List (Nat × Nat)) (j : Option Nat) : State :=
  let q := look {} (s.ctx k).arch.q n
  if q.state ≠ 1 then s
  else
    match j with
    | some j =>
      if q.remain.toNat ≤ j then s
      else
        let r := s.streamFetch k q lag j
        match r.2 with
        | none => r.1
        | some f => r.1.setStream k n (q.note f)
    | none =>
      if 4 ≤ q.fifo.length then s
      else
        let r := s.streamFetch k q lag 0
        match r.2 with
        | none => r.1
        | some f => r.1.setStream k n (q.take f)

def State.streamSteps (s : State) (k n : Nat) (lag : List (Nat × Nat)) : List (Option Nat) → State
  | [] => s
  | j :: r => (s.streamStep k n lag j).streamSteps k n lag r

/-- STREAM_FETCH (R184, R312): a running stream reads some elements ahead, each by its distance, and then takes the next `count`
elements, an entry's worth at most; `reads` names the units of which it misses the engine writes that it may miss (R310), and the
distances. (DEDUCED: log entry 65) -/
def execStreamFetch (ctx stream count : Nat) (reads : List (Nat × Nat) × List Nat) (s : State) : Out :=
  let c := s.ctx ctx
  if !c.bound || c.ending.isSome || s.still (coreOf ctx) || decide (3 < stream) then .next s
  else .next (s.streamSteps ctx stream reads.1 (reads.2.map some ++ List.replicate (min count 256) none))

end Sys2Proof.Machine
end

