-- ==== Sys2Proof/Machine/Dispatch.lean ====
section
/-! DEFINITION. The meaning of every step, one arm per constructor (spec/opcode_table.json). -/

namespace Sys2Proof.Machine

open Host

/-- The step that `i` names, taken in state `s`. -/
def exec (i : Instr) (s : State) : Host.Outcome State Fault Refusal :=
  match i with
  | .bundleIssue ctx among => Sys2Proof.Machine.execBundleIssue ctx among s
  | .waitSatisfied ctx => Sys2Proof.Machine.execWaitSatisfied ctx s
  | .pauseEnd ctx => Sys2Proof.Machine.execPauseEnd ctx s
  | .lockWindowEnd ctx => Sys2Proof.Machine.execLockWindowEnd ctx s
  | .fixedResultLand ctx => Sys2Proof.Machine.execFixedResultLand ctx s
  | .scoreboardResultLand ctx entry answer pages => Sys2Proof.Machine.execScoreboardResultLand ctx entry answer pages s
  | .segmentExpansion ctx half => Sys2Proof.Machine.execSegmentExpansion ctx half s
  | .loopBufferError ctx half => Sys2Proof.Machine.execLoopBufferError ctx half s
  | .taskRetire ctx => Sys2Proof.Machine.execTaskRetire ctx s
  | .correctableErrorFreeze unit => Sys2Proof.Machine.execCorrectableErrorFreeze unit s
  | .freezeEnd core => Sys2Proof.Machine.execFreezeEnd core s
  | .uncorrectableError kind unit addr => Sys2Proof.Machine.execUncorrectableError kind unit addr s
  | .engineStarvation core bank => Sys2Proof.Machine.execEngineStarvation core bank s
  | .forcedYield ctx => Sys2Proof.Machine.execForcedYield ctx s
  | .yieldTurnEnd ctx => Sys2Proof.Machine.execYieldTurnEnd ctx s
  | .nop => Sys2Proof.Machine.execNop s
  | .add f => Sys2Proof.Machine.execAdd f s
  | .sub f => Sys2Proof.Machine.execSub f s
  | .mul f => Sys2Proof.Machine.execMul f s
  | .mulhs f => Sys2Proof.Machine.execMulhs f s
  | .mulhn f => Sys2Proof.Machine.execMulhn f s
  | .divs f => Sys2Proof.Machine.execDivs f s
  | .divn f => Sys2Proof.Machine.execDivn f s
  | .rems f => Sys2Proof.Machine.execRems f s
  | .remn f => Sys2Proof.Machine.execRemn f s
  | .and f => Sys2Proof.Machine.execAnd f s
  | .or f => Sys2Proof.Machine.execOr f s
  | .xor f => Sys2Proof.Machine.execXor f s
  | .andn f => Sys2Proof.Machine.execAndn f s
  | .shl f => Sys2Proof.Machine.execShl f s
  | .shr f => Sys2Proof.Machine.execShr f s
  | .sar f => Sys2Proof.Machine.execSar f s
  | .rotl f => Sys2Proof.Machine.execRotl f s
  | .mins f => Sys2Proof.Machine.execMins f s
  | .maxs f => Sys2Proof.Machine.execMaxs f s
  | .minn f => Sys2Proof.Machine.execMinn f s
  | .maxn f => Sys2Proof.Machine.execMaxn f s
  | .mov f => Sys2Proof.Machine.execMov f s
  | .addi f => Sys2Proof.Machine.execAddi f s
  | .muli f => Sys2Proof.Machine.execMuli f s
  | .andi f => Sys2Proof.Machine.execAndi f s
  | .ori f => Sys2Proof.Machine.execOri f s
  | .xori f => Sys2Proof.Machine.execXori f s
  | .li f => Sys2Proof.Machine.execLi f s
  | .lih f => Sys2Proof.Machine.execLih f s
  | .shli f => Sys2Proof.Machine.execShli f s
  | .shri f => Sys2Proof.Machine.execShri f s
  | .sari f => Sys2Proof.Machine.execSari f s
  | .rotli f => Sys2Proof.Machine.execRotli f s
  | .clz f => Sys2Proof.Machine.execClz f s
  | .ctz f => Sys2Proof.Machine.execCtz f s
  | .popc f => Sys2Proof.Machine.execPopc f s
  | .bswap f => Sys2Proof.Machine.execBswap f s
  | .bfx f => Sys2Proof.Machine.execBfx f s
  | .bfi f => Sys2Proof.Machine.execBfi f s
  | .sext f => Sys2Proof.Machine.execSext f s
  | .zext f => Sys2Proof.Machine.execZext f s
  | .seq f => Sys2Proof.Machine.execSeq f s
  | .sne f => Sys2Proof.Machine.execSne f s
  | .slt f => Sys2Proof.Machine.execSlt f s
  | .sle f => Sys2Proof.Machine.execSle f s
  | .sltn f => Sys2Proof.Machine.execSltn f s
  | .slen f => Sys2Proof.Machine.execSlen f s
  | .sel f => Sys2Proof.Machine.execSel f s
  | .beq f => Sys2Proof.Machine.execBeq f s
  | .bne f => Sys2Proof.Machine.execBne f s
  | .blt f => Sys2Proof.Machine.execBlt f s
  | .bge f => Sys2Proof.Machine.execBge f s
  | .bltn f => Sys2Proof.Machine.execBltn f s
  | .bgen f => Sys2Proof.Machine.execBgen f s
  | .bz f => Sys2Proof.Machine.execBz f s
  | .bnz f => Sys2Proof.Machine.execBnz f s
  | .loop f => Sys2Proof.Machine.execLoop f s
  | .jmp f => Sys2Proof.Machine.execJmp f s
  | .jmpi f => Sys2Proof.Machine.execJmpi f s
  | .call f => Sys2Proof.Machine.execCall f s
  | .calli f => Sys2Proof.Machine.execCalli f s
  | .ret f => Sys2Proof.Machine.execRet f s
  | .chk f => Sys2Proof.Machine.execChk f s
  | .pclr f => Sys2Proof.Machine.execPclr f s
  | .sarm f => Sys2Proof.Machine.execSarm f s
  | .sset f => Sys2Proof.Machine.execSset f s
  | .sget f => Sys2Proof.Machine.execSget f s
  | .yield f => Sys2Proof.Machine.execYield f s
  | .exit f => Sys2Proof.Machine.execExit f s
  | .trap f => Sys2Proof.Machine.execTrap f s
  | .eret f => Sys2Proof.Machine.execEret f s
  | .csrd f => Sys2Proof.Machine.execCsrd f s
  | .cswr f => Sys2Proof.Machine.execCswr f s
  | .enq f => Sys2Proof.Machine.execEnq f s
  | .time f => Sys2Proof.Machine.execTime f s
  | .rndx f => Sys2Proof.Machine.execRndx f s
  | .pend f => Sys2Proof.Machine.execPend f s
  | .vadd f => Sys2Proof.Machine.execVadd f s
  | .vsub f => Sys2Proof.Machine.execVsub f s
  | .vmul f => Sys2Proof.Machine.execVmul f s
  | .vfma f => Sys2Proof.Machine.execVfma f s
  | .vfms f => Sys2Proof.Machine.execVfms f s
  | .vfnma f => Sys2Proof.Machine.execVfnma f s
  | .vmin f => Sys2Proof.Machine.execVmin f s
  | .vmax f => Sys2Proof.Machine.execVmax f s
  | .vminp f => Sys2Proof.Machine.execVminp f s
  | .vmaxp f => Sys2Proof.Machine.execVmaxp f s
  | .vabs f => Sys2Proof.Machine.execVabs f s
  | .vneg f => Sys2Proof.Machine.execVneg f s
  | .vdiv f => Sys2Proof.Machine.execVdiv f s
  | .vsqrt f => Sys2Proof.Machine.execVsqrt f s
  | .vrcp f => Sys2Proof.Machine.execVrcp f s
  | .vrsq f => Sys2Proof.Machine.execVrsq f s
  | .vexp2 f => Sys2Proof.Machine.execVexp2 f s
  | .vlog2 f => Sys2Proof.Machine.execVlog2 f s
  | .viadd f => Sys2Proof.Machine.execViadd f s
  | .visub f => Sys2Proof.Machine.execVisub f s
  | .vimul f => Sys2Proof.Machine.execVimul f s
  | .vimad f => Sys2Proof.Machine.execVimad f s
  | .vimin f => Sys2Proof.Machine.execVimin f s
  | .vimax f => Sys2Proof.Machine.execVimax f s
  | .vand f => Sys2Proof.Machine.execVand f s
  | .vor f => Sys2Proof.Machine.execVor f s
  | .vxor f => Sys2Proof.Machine.execVxor f s
  | .vshl f => Sys2Proof.Machine.execVshl f s
  | .vshr f => Sys2Proof.Machine.execVshr f s
  | .vsar f => Sys2Proof.Machine.execVsar f s
  | .vrndx f => Sys2Proof.Machine.execVrndx f s
  | .vcmp f => Sys2Proof.Machine.execVcmp f s
  | .vsel f => Sys2Proof.Machine.execVsel f s
  | .vpand f => Sys2Proof.Machine.execVpand f s
  | .vpor f => Sys2Proof.Machine.execVpor f s
  | .vpxor f => Sys2Proof.Machine.execVpxor f s
  | .vpnot f => Sys2Proof.Machine.execVpnot f s
  | .vpcnt f => Sys2Proof.Machine.execVpcnt f s
  | .vpfirst f => Sys2Proof.Machine.execVpfirst f s
  | .vcvt f => Sys2Proof.Machine.execVcvt f s
  | .vqnt f => Sys2Proof.Machine.execVqnt f s
  | .vdqnt f => Sys2Proof.Machine.execVdqnt f s
  | .vtag f => Sys2Proof.Machine.execVtag f s
  | .vgtag f => Sys2Proof.Machine.execVgtag f s
  | .vreda f => Sys2Proof.Machine.execVreda f s
  | .vredm f => Sys2Proof.Machine.execVredm f s
  | .vscan f => Sys2Proof.Machine.execVscan f s
  | .vperm f => Sys2Proof.Machine.execVperm f s
  | .vbcast f => Sys2Proof.Machine.execVbcast f s
  | .vzip f => Sys2Proof.Machine.execVzip f s
  | .vunzip f => Sys2Proof.Machine.execVunzip f s
  | .vslide f => Sys2Proof.Machine.execVslide f s
  | .vidx f => Sys2Proof.Machine.execVidx f s
  | .vmov f => Sys2Proof.Machine.execVmov f s
  | .vins f => Sys2Proof.Machine.execVins f s
  | .vext f => Sys2Proof.Machine.execVext f s
  | .accrd f => Sys2Proof.Machine.execAccrd f s
  | .accwr f => Sys2Proof.Machine.execAccwr f s
  | .vsq f => Sys2Proof.Machine.execVsq f s
  | .mpw f => Sys2Proof.Machine.execMpw f s
  | .mpr f => Sys2Proof.Machine.execMpr f s
  | .mcall f => Sys2Proof.Machine.execMcall f s
  | .wbld f => Sys2Proof.Machine.execWbld f s
  | .wbclr f => Sys2Proof.Machine.execWbclr f s
  | .accz f => Sys2Proof.Machine.execAccz f s
  | .geval f => Sys2Proof.Machine.execGeval f s
  | .mqstat f => Sys2Proof.Machine.execMqstat f s
  | .lds f => Sys2Proof.Machine.execLds f s
  | .ldsv f => Sys2Proof.Machine.execLdsv f s
  | .sts f => Sys2Proof.Machine.execSts f s
  | .stsv f => Sys2Proof.Machine.execStsv f s
  | .ldm f => Sys2Proof.Machine.execLdm f s
  | .ldmv f => Sys2Proof.Machine.execLdmv f s
  | .stm f => Sys2Proof.Machine.execStm f s
  | .stmv f => Sys2Proof.Machine.execStmv f s
  | .ldms f => Sys2Proof.Machine.execLdms f s
  | .ldmvs f => Sys2Proof.Machine.execLdmvs f s
  | .ldt f => Sys2Proof.Machine.execLdt f s
  | .stt f => Sys2Proof.Machine.execStt f s
  | .probe f => Sys2Proof.Machine.execProbe f s
  | .sqset f => Sys2Proof.Machine.execSqset f s
  | .sqclr f => Sys2Proof.Machine.execSqclr f s
  | .fence f => Sys2Proof.Machine.execFence f s
  | .flush f => Sys2Proof.Machine.execFlush f s
  | .inval f => Sys2Proof.Machine.execInval f s
  | .nres f => Sys2Proof.Machine.execNres f s
  | .nstat f => Sys2Proof.Machine.execNstat f s
  | .nkill f => Sys2Proof.Machine.execNkill f s
  | .aadd f => Sys2Proof.Machine.execAadd f s
  | .afadd f => Sys2Proof.Machine.execAfadd f s
  | .amins f => Sys2Proof.Machine.execAmins f s
  | .amaxs f => Sys2Proof.Machine.execAmaxs f s
  | .aminn f => Sys2Proof.Machine.execAminn f s
  | .amaxn f => Sys2Proof.Machine.execAmaxn f s
  | .afmin f => Sys2Proof.Machine.execAfmin f s
  | .afmax f => Sys2Proof.Machine.execAfmax f s
  | .afminp f => Sys2Proof.Machine.execAfminp f s
  | .afmaxp f => Sys2Proof.Machine.execAfmaxp f s
  | .aand f => Sys2Proof.Machine.execAand f s
  | .aor f => Sys2Proof.Machine.execAor f s
  | .axor f => Sys2Proof.Machine.execAxor f s
  | .axchg f => Sys2Proof.Machine.execAxchg f s
  | .acas f => Sys2Proof.Machine.execAcas f s
  | .ncas f => Sys2Proof.Machine.execNcas f s
  | .scat f => Sys2Proof.Machine.execScat f s
  | .scadd f => Sys2Proof.Machine.execScadd f s
  | .cpy f => Sys2Proof.Machine.execCpy f s
  | .cpyr f => Sys2Proof.Machine.execCpyr f s
  | .cpytConvert f => Sys2Proof.Machine.execCpytConvert f s
  | .cpytTranspose f => Sys2Proof.Machine.execCpytTranspose f s
  | .cpytExpand f => Sys2Proof.Machine.execCpytExpand f s
  | .cpytCompress f => Sys2Proof.Machine.execCpytCompress f s
  | .gath f => Sys2Proof.Machine.execGath f s
  | .scae f => Sys2Proof.Machine.execScae f s
  | .cred f => Sys2Proof.Machine.execCred f s
  | .xpose f => Sys2Proof.Machine.execXpose f s
  | .xcvt f => Sys2Proof.Machine.execXcvt f s
  | .xexp f => Sys2Proof.Machine.execXexp f s
  | .xrd f => Sys2Proof.Machine.execXrd f s
  | .engineCommandStart core id lag => Sys2Proof.Machine.execEngineCommandStart core id lag s
  | .copyCommandCompletion core id answer ops => Sys2Proof.Machine.execCopyCommandCompletion core id answer ops s
  | .mma core id reads go => Sys2Proof.Machine.execMma core id reads go s
  | .mmaNm core id reads go => Sys2Proof.Machine.execMmaNm core id reads go s
  | .mmaNmt core id reads go => Sys2Proof.Machine.execMmaNmt core id reads go s
  | .mmaCoop core id reads go => Sys2Proof.Machine.execMmaCoop core id reads go s
  | .contract core id reads go => Sys2Proof.Machine.execContract core id reads go s
  | .accExport core id units go => Sys2Proof.Machine.execAccExport core id units go s
  | .accScale core id reads go => Sys2Proof.Machine.execAccScale core id reads go s
  | .matrixCommandStart core id lag => Sys2Proof.Machine.execMatrixCommandStart core id lag s
  | .matrixCommandCompletion core id reads go => Sys2Proof.Machine.execMatrixCommandCompletion core id reads go s
  | .lodeEvaluation core id lag reads writes go => Sys2Proof.Machine.execLodeEvaluation core id lag reads writes go s
  | .streamFetch ctx stream count reads => Sys2Proof.Machine.execStreamFetch ctx stream count reads s
  | .deferredUpdateApply id => Sys2Proof.Machine.execDeferredUpdateApply id s
  | .updateOnlyMerge core line first => Sys2Proof.Machine.execUpdateOnlyMerge core line first s
  | .orderedUpdateArrival id => Sys2Proof.Machine.execOrderedUpdateArrival id s
  | .orderedUpdateResend id => Sys2Proof.Machine.execOrderedUpdateResend id s
  | .pageMigration frame target => Sys2Proof.Machine.execPageMigration frame target s
  | .nameShootdown holder name => Sys2Proof.Machine.execNameShootdown holder name s
  | .remoteNameResolve serial asid name kind place => Sys2Proof.Machine.execRemoteNameResolve serial asid name kind place s
  | .remoteDelivery serial asid name off data poison signal => Sys2Proof.Machine.execRemoteDelivery serial asid name off data poison signal s
  | .remoteCredUpdate serial asid name off value poison fmt sub last => Sys2Proof.Machine.execRemoteCredUpdate serial asid name off value poison fmt sub last s
  | .packetRetransmit peer n => Sys2Proof.Machine.execPacketRetransmit peer n s
  | .peerUnreachable lost => Sys2Proof.Machine.execPeerUnreachable lost s
  | .exponentListReset channel => Sys2Proof.Machine.execExponentListReset channel s
  | .swapPeriod ended => Sys2Proof.Machine.execSwapPeriod ended s
  | .bind cluster record seq node team tasks => Sys2Proof.Machine.execBind cluster record seq node team tasks s
  | .swapout cluster record => Sys2Proof.Machine.execSwapout cluster record s
  | .swapin cluster records home homeRecords masks => Sys2Proof.Machine.execSwapin cluster records home homeRecords masks s
  | .bindAbort cluster record => Sys2Proof.Machine.execBindAbort cluster record s
  | .launchStart seq => Sys2Proof.Machine.execLaunchStart seq s
  | .nodeReady seq node => Sys2Proof.Machine.execNodeReady seq node s
  | .launchComplete seq => Sys2Proof.Machine.execLaunchComplete seq s
  | .caprd host msg => Sys2Proof.Machine.execCaprd host msg s
  | .memwr host msg => Sys2Proof.Machine.execMemwr host msg s
  | .memrd host msg => Sys2Proof.Machine.execMemrd host msg s
  | .imgld host msg => Sys2Proof.Machine.execImgld host msg s
  | .imgul host msg => Sys2Proof.Machine.execImgul host msg s
  | .libld host msg version => Sys2Proof.Machine.execLibld host msg version s
  | .qset host msg => Sys2Proof.Machine.execQset host msg s
  | .launch host msg => Sys2Proof.Machine.execLaunch host msg s
  | .abort host msg => Sys2Proof.Machine.execAbort host msg s
  | .watch host msg => Sys2Proof.Machine.execWatch host msg s
  | .mapupd host msg => Sys2Proof.Machine.execMapupd host msg s
  | .objnew host msg base => Sys2Proof.Machine.execObjnew host msg base s
  | .asset host msg => Sys2Proof.Machine.execAsset host msg s
  | .status msg => Sys2Proof.Machine.execStatus msg s
  | .pcap msg => Sys2Proof.Machine.execPcap msg s
  | .reset msg => Sys2Proof.Machine.execReset msg s
  | .fwupd msg => Sys2Proof.Machine.execFwupd msg s
  | .zeroise msg => Sys2Proof.Machine.execZeroise msg s
  | .moduleReset overman fireboss failed => Sys2Proof.Machine.execModuleReset overman fireboss failed s
  | .sensorSample rail clk tj inlet power broken => Sys2Proof.Machine.execSensorSample rail clk tj inlet power broken s
  | .clockThrottle => Sys2Proof.Machine.execClockThrottle s
  | .unitRemoval kind unit => Sys2Proof.Machine.execUnitRemoval kind unit s
  | .flushInvalCompletion ctx => Sys2Proof.Machine.execFlushInvalCompletion ctx s
  | .linkTraining link peer coded => Sys2Proof.Machine.execLinkTraining link peer coded s
  | .endpointUnlistedOp host msg => Sys2Proof.Machine.execEndpointUnlistedOp host msg s
  | .headframeUnlistedOp msg => Sys2Proof.Machine.execHeadframeUnlistedOp msg s

end Sys2Proof.Machine
end

