-- ==== Sys2Proof/Machine/Stepping.lean ====
section
/-! DEFINITION. What a step adds around an instruction's meaning: the slot word that is latched, what the outside does next, and the
passing of time (spec/00 R9, spec/01 R31, spec/04 R85, R86, spec/09 R262, spec/19 R402). -/

namespace Sys2Proof.Machine

/-- The word of the slot that executes next in the open bundle (R86). -/
def State.slotNow (s : State) : Word := nth 0 s.cur.words s.cur.slot

/-- The instruction that the step fetches: the operation of the open bundle's slot (R85, R86). -/
def State.fetched (s : State) : Option Instr := decodeSlot s.cur.slot s.slotNow

/-- Whether a step of the script is one that can be taken: no slot's operation, and one that the module's standing admits. (DESIGN
CHOICE: log entries 1 and 2) -/
def State.admits (s : State) (i : Instr) : Bool := (unitOf i).isNone && s.open_ i

/-- What comes next when no bundle is open: the script's head with the state that it leaves behind; none where the script is empty.
(DESIGN CHOICE: log entries 1 and 2) -/
def State.nextEvent (s : State) : Option (Instr × State) :=
  match s.script with
  | [] => none
  | i :: rest => some (i, { s with script := rest })

/-- With no bundle open and nothing scripted, the context that issued last tries to go on (R9, R339). -/
def State.goOn (s : State) : State := if s.boss.stage = 2 then s.attempt s.cur.ctx [] else s

/-- The timebase's counts while `e` core cycles pass from the time on: it runs at half the core clock's full rate, and a throttled
clock leaves it as it is (R262, R402). (DEDUCED: log entry 4) -/
def State.baseCounts (s : State) (e : Nat) : Nat :=
  if s.boss.step = 16 then (s.time + e) / 2 - s.time / 2 else Config.elapsedTimebase s.steps

/-- Time passes: how much at each step is the device's choice (R9, R31). (DESIGN CHOICE: log entries 3 and 81) -/
def State.elapse (s : State) : State :=
  let e := Config.elapsedCycles s.steps
  { s with time := s.time + e, timebase := s.timebase + s.baseCounts e, steps := s.steps + 1 }

/-- A bundle of 512 bits cut into its eight slot words (R85). -/
def bundleWords (w : Nat) : List Word := (List.range 8).map (slotWord w)

/-- The slot of a bundle that holds one operation; slot 0 for any other bundle. (DESIGN CHOICE: log entry 12) -/
def usedSlot (w : Nat) : Nat := match onlySlot w with | some k => if k < 7 then k else 0 | none => 0

/-- The open bundle that a step executes, latched with the slot that it uses. (DESIGN CHOICE: log entry 12) -/
def State.latch (s : State) (w : Nat) : State :=
  { s with cur := { s.cur with
      open_ := true, slot := usedSlot w, words := bundleWords w } }

end Sys2Proof.Machine
end

