-- ==== Sys2Proof/Machine/Step.lean ====
section
/-! DEFINITION. One step of the module: the next slot of the bundle that is open, or else the next step of the outside, or else the
attempt of the context that issued last. -/

namespace Sys2Proof.Machine

/-- A next state taken on by a function; a fault or a refusal is left as it is. -/
def andThen (f : State → State) (o : Host.Outcome State Fault Refusal) : Host.Outcome State Fault Refusal :=
  match o with
  | .next s => .next (f s)
  | .fault r => .fault r
  | .refused r => .refused r

/-- One step. A slot word that is no instruction is a fault: the Assayer lets none into a loop buffer (R114). (DESIGN CHOICE: log
entry 1; DEDUCED: log entries 13 and 19) -/
def step (s : State) : Host.Outcome State Fault Refusal :=
  if s.cur.open_ then
    match s.fetched with
    | some i => andThen (fun t => (t.afterSlot.endLocks s).elapse) (exec i s)
    | none => .fault (.illegalSlot s.cur.slot)
  else
    match s.nextEvent with
    | some (i, t) => if t.admits i then andThen (fun u => (u.endLocks t).elapse) (exec i t) else .next t.elapse
    | none => .next (s.goOn.endLocks s).elapse

/-- `s` with a bundle that holds the instruction whose bits are `w`, latched where the step fetches its next instruction: a step
executes the slots of the bundle that is open (R86). (DESIGN CHOICE: log entries 11 and 12) -/
def State.withFetchWord (s : State) (_nbits w : Nat) : State := s.latch w

end Sys2Proof.Machine
end

