-- ==== Sys2Proof/Safety.lean ====
section
/-! DEFINITION. What statements about the module are said in: reachable states and properties that every step keeps, what an
operation leaves alone, and the results that it puts in flight. -/

namespace Sys2Proof.Machine

/-- The states that steps reach from `s`. -/
inductive Reaches (s : State) : State → Prop where
  | here : Reaches s s
  | step {t u : State} (h : Reaches s t) (g : Sys2Proof.Machine.step t = .next u) : Reaches s u

/-- A run from `s` that meets no fault and no refusal. -/
def Safe (s : State) : Prop := ∀ t, Reaches s t → ∃ u, Sys2Proof.Machine.step t = .next u

/-- A property that every step keeps. -/
def Kept (p : State → Prop) : Prop := ∀ s t, p s → Sys2Proof.Machine.step s = .next t → p t

/-! ### What stands -/

/-- Nothing but the contexts' own state, and the model's numbering of results, differs: every memory, semaphore, queue and table
of the module stands. -/
def OnlyContexts (s t : State) : Prop := t = { s with ctxs := t.ctxs, nextId := t.nextId }

/-- Nothing but the executing context differs. -/
def OnlyMine (s t : State) : Prop := OnlyContexts s t ∧ ∀ k, k ≠ s.cur.ctx → t.ctx k = s.ctx k

/-- The executing context's architectural state becomes `a`, and nothing else changes. -/
def Becomes (s t : State) (a : Arch) : Prop := OnlyMine s t ∧ t.me = { s.me with arch := a }

/-- The executing context becomes `c`, and nothing else changes. -/
def Leaves (s t : State) (c : Ctx) : Prop := OnlyMine s t ∧ t.me = c

/-! ### Results in flight (spec/01 R32) -/

/-- Results of the given latencies, issued at schedule position `pos` and numbered from `seq`. -/
def flights (pos : Nat) : Nat → List (Nat × FlightDst) → List Flight
  | _, [] => []
  | seq, (lat, d) :: r => { due := pos + lat, seq := seq, dst := d } :: flights pos (seq + 1) r

/-- The executing context's state with results of the executing bundle put in flight: no register changes yet. -/
def State.sent (s : State) (l : List (Nat × FlightDst)) : Arch :=
  { s.arch with flight := s.arch.flight ++ flights s.cur.t s.nextId l }

/-- A scalar result: a poisoned one has a value of zero (R120), and a write to s0 is discarded (R11). -/
def toS (d : BitVec 6) (lat : Nat) (psn : Bool) (v : Word) : List (Nat × FlightDst) :=
  if d = 0 then [] else [(lat, .s d.toNat { val := if psn then 0 else v, psn := psn })]

/-- A vector result: a poisoned one has zero bits (R13). -/
def toV (d : BitVec 6) (lat : Nat) (bits : Vec) (tag : Nat) (psn : Bool) : List (Nat × FlightDst) :=
  [(lat, .v (d.toNat % 32) { bits := if psn then 0 else bits, tag := tag, psn := psn })]

/-- A predicate result of latency 2; a write to p0 is discarded (R18). -/
def toP (d : BitVec 6) (bits mask : Pred) : List (Nat × FlightDst) :=
  if d.toNat % 8 = 0 then [] else [(2, .p (d.toNat % 8) bits mask)]

/-- The operation answers a next state in which the given results are in flight, and nothing else has changed. -/
def Sends (i : Instr) (s : State) (l : List (Nat × FlightDst)) : Prop :=
  ∃ t, Sys2Proof.Machine.exec i s = .next t ∧ Becomes s t (s.sent l)

/-- The operation answers a next state in which its destination is pending for one scoreboarded result, and nothing else has
changed. -/
def Awaits (i : Instr) (s : State) (e : SbEntry) : Prop :=
  ∃ t, Sys2Proof.Machine.exec i s = .next t ∧ Leaves s t { s.me with sb := s.me.sb ++ [e] }

/-- The operation takes trap `cause`, with TRAPINFO `info`, to be entered again at slot `r`, in the state `s` itself. -/
def Traps (i : Instr) (s : State) (cause info : Nat) : Prop := Sys2Proof.Machine.exec i s = .next (s.takeTrap cause info)

/-- The operation's transfer is taken: with the executing context's state otherwise `a`, a redirect to `target` waits for three delay
bundles (spec/05 R130, R131). Only the loop buffer may change with it, and the fetch counter, where the target's expansion starts
(spec/10 R268). -/
def Diverts (i : Instr) (s : State) (a : Arch) (target : Word) (bad : Bool) : Prop :=
  ∃ t, Sys2Proof.Machine.exec i s = .next t ∧ OnlyMine s t ∧
    ∃ halfA halfB fetches, t.me = { s.me with
      halfA := halfA, halfB := halfB
      arch := { a with
        redirect := some { target := target, left := 4, bad := bad, src := s.cur.pc }
        fetches := fetches } }

/-- The operation answers the state itself: it has no effect of its own. -/
def Idles (i : Instr) (s : State) : Prop := Sys2Proof.Machine.exec i s = .next s

/-- What taking a trap leaves in the executing context (spec/15 R352): `r` is the slot to be entered again. -/
structure TrapTaken (s t : State) (r cause info : Nat) : Prop where
  alone : ∀ k, k ≠ s.cur.ctx → t.ctx k = s.ctx k
  modules : t.mem = s.mem ∧ t.cores = s.cores ∧ t.clusters = s.clusters ∧ t.updates = s.updates ∧ t.launches = s.launches
  closed : t.cur.open_ = false
  registers : t.arch.s = s.arch.s ∧ t.arch.v = s.arch.v ∧ t.arch.p = s.arch.p ∧ t.arch.mp = s.arch.mp ∧
    t.arch.q = s.arch.q ∧ t.arch.e = s.arch.e ∧ t.arch.xbuf = s.arch.xbuf ∧ t.arch.xstage = s.arch.xstage
  controls : t.arch.taskid = s.arch.taskid ∧ t.arch.trapvec = s.arch.trapvec ∧ t.arch.lib = s.arch.lib ∧
    t.arch.cycle = s.arch.cycle
  pcReg : t.arch.trappc = s.cur.pc
  causeReg : t.arch.trapcause = BitVec.ofNat 64 (s.cur.slot * 256 + cause)
  infoReg : t.arch.trapinfo = BitVec.ofNat 64 info
  saved : ∀ j, j < 64 → t.arch.trapcsw.getLsbD j =
    if j < 3 then r.testBit j else if j = 14 then s.arch.csw.getLsbD 14 || s.me.window.isSome else s.arch.csw.getLsbD j
  status : ∀ j, j < 64 → t.arch.csw.getLsbD j =
    if j < 3 then false else if j = 3 then true else if 16 ≤ j ∧ j < 24 then false
    else if j = 14 then s.arch.csw.getLsbD 14 || s.me.window.isSome else s.arch.csw.getLsbD j
  parked : t.arch.parked = s.arch.flight.map fun f => { f with due := f.due - s.cur.t }
  drained : t.arch.flight = []
  redirect : t.arch.savedRedirect = s.arch.redirect ∧ t.arch.redirect = none
  window : t.me.window = none
  handler : t.arch.pos = s.trapEntry cause

/-! ### Vector results (spec/06 R142) -/

/-- An element of the operation's destination takes a value: its predicate bit is set, and the operation gives it one. -/
def takes (s : State) (f : VV) (w : Nat) (y : Nat → Option (Nat × Nat)) (j : Nat) : Bool :=
  act (s.vpred f) j w && (y j).isSome

/-- The flags that the active elements raise. -/
def raisedBy (s : State) (f : VV) (w : Nat) (y : Nat → Option (Nat × Nat)) : Nat :=
  (List.range (2048 / w)).foldl (fun e j => if act (s.vpred f) j w then e ||| ((y j).getD (0, 0)).2 else e) 0

/-- The executing context's state with floating-point flags ORed into CSW. -/
def State.flaggedArch (s : State) (fl : Nat) : Arch := { s.arch with csw := s.arch.csw ||| BitVec.ofNat 64 (fl % 32 * 256) }

/-- R142 for a vector operation whose source tags are accepted. When a flag is raised whose enable is set, the slot takes FPX and has no
other effect. Otherwise the flags are ORed into CSW and one result of latency `lat` is in flight, tagged `tag`: an active element takes the
value `y`, any other is zeroed or keeps its old bits, and the result is poisoned, with zero bits, when a source is, or when an old element
that was kept is. -/
def VectorResult (i : Instr) (f : VV) (s : State) (lat tag w : Nat) (psn : Bool) (y : Nat → Option (Nat × Nat)) : Prop :=
  let fl := raisedBy s f w y
  let on := fl &&& bits s.cur.csw 16 5
  let kept := f.zero == 0 && (List.range (2048 / w)).any fun j => !takes s f w y j
  let p := psn || (kept && (s.rdV f.d).psn)
  (on ≠ 0 → Traps i s 4 (fl + on * 256)) ∧
  (on = 0 → ∃ t bits, Sys2Proof.Machine.exec i s = .next t ∧
    Becomes s t { s.flaggedArch fl with flight := s.arch.flight ++ flights s.cur.t s.nextId (toV f.d lat bits tag p) } ∧
    ∀ j, j < 2048 / w → elem bits j w =
      if takes s f w y j then ((y j).getD (0, 0)).1 % 2 ^ w
      else if f.zero = 1 then 0 else elem (s.rdV f.d).bits j w)

/-! ### Memory as a context sees it (spec/11 R283) -/

/-- The byte at a physical address that an access of context `k` reaches, with the poison mark of its unit: on a software-coherent
page (`sc`) that of the L1 that may hold the unit, where it holds it; else that of memory, unless an error has spoiled the L1's clean
copy (R288). -/
def State.seenAt (s : State) (k : Nat) (sc : Bool) (pa : Nat) : Byte × Bool :=
  let c := s.l1Home (coreOf k) (pa / 8)
  let u := (s.core c).l1Unit (pa / 8)
  if sc then (if u.here then (u.val.extractLsb' (8 * (pa % 8)) 8, u.psn) else (s.mem.byte pa, s.mem.mark (pa / 8)))
  else if s.spoilt (coreOf k) (pa / 8) then (0, true)
  else (s.mem.byte pa, s.mem.mark (pa / 8))

/-- The addresses of the entries that the walk of a virtual address reads (R291). -/
def walkReads (m : Mem) (va : Nat) : List Nat → Nat → List Nat
  | [], _ => []
  | lo :: rest, node =>
    let at_ := node + 8 * (va / 2 ^ lo % 8192)
    let pte := m.nat at_ 8
    at_ :: (if pte % 2 = 0 || pte.testBit 1 then [] else walkReads m va rest (pte / 65536 % 2 ^ 35 * 65536))

/-- Those that a translation in an address space reads. -/
def State.walkAt (s : State) (asid va : Nat) : List Nat :=
  match s.root asid with
  | none => []
  | some r => walkReads s.mem (va % 2 ^ 55) [42, 29, 16] r

/-- Where the pages of a slot's runs have a virtual address: the physical one, and whether its page is software-coherent (R292). -/
def placeIn (ps : List Page) (va : Nat) : Nat × Bool :=
  match pageOf ps (va / 65536) with
  | some p => (p.frame * 65536 + va % 65536, p.cls == 1)
  | none => (va, false)

/-- The physical address of a virtual one of an address space, and whether its page is software-coherent. -/
def State.placeOf (s : State) (asid va : Nat) : Nat × Bool :=
  match s.translate asid va with
  | some l => (l.pa, l.cls == 1)
  | none => (0, false)

/-- Every byte outside the physical addresses `w` stands, with its mark, however it is reached. -/
def StandsBut (s t : State) (w : Nat → Prop) : Prop := ∀ k sc pa, ¬w pa → t.seenAt k sc pa = s.seenAt k sc pa

/-- No update of context `k` is outstanding, none holds up an access of it, no update-only line holds one, and no access of the context has
its point in T still to come: an access of the context may be made at once. -/
def State.quiet (s : State) (k : Nat) : Prop :=
  (∀ u ∈ s.updates, u.owner ≠ some k ∧ (0, k) ∉ u.before) ∧ (∀ c, (s.core c).lines = []) ∧ (s.ctx k).late = []

/-- The device makes none of its choices for the access of the executing slot: it has its point in T at once, and reads the newest values
(R9). -/
def State.prompt (s : State) : Prop := s.delays = false ∧ s.misses = false

/-- No error has spoiled an L1's clean copy of a unit (R288). -/
def State.unspoiled (s : State) : Prop := s.spoiled = []

/-- Nothing differs but memory, the L1s, the engine writes that may be missed, and the contexts; of those only the executing one. -/
def OnlyAccess (s t : State) : Prop :=
  t = { s with mem := t.mem, cores := t.cores, ctxs := t.ctxs, hidden := t.hidden, spoiled := t.spoiled } ∧
  (∀ c, t.core c = { s.core c with l1 := (t.core c).l1 }) ∧ ∀ k, k ≠ s.cur.ctx → t.ctx k = s.ctx k

/-- The operation ends its task with a fatal error of that status (R359): no memory and no other context changes. -/
def Dies (i : Instr) (s : State) (code : Nat) : Prop :=
  ∃ t, Sys2Proof.Machine.exec i s = .next t ∧
    t.me.ending = some { status := code, exitCode := 0, faultPc := s.cur.pc } ∧
    (∀ k, k ≠ s.cur.ctx → t.ctx k = s.ctx k) ∧ t.mem = s.mem ∧ t.clusters = s.clusters ∧ t.updates = s.updates ∧
    ∀ c, (t.core c).spm = (s.core c).spm ∧ (t.core c).acc = (s.core c).acc ∧ (t.core c).wb = (s.core c).wb

/-- The operation's bundle, which has issued, stands before it, in a state `r` that what holds it back has left: it keeps what it read at
issue, and goes on after accesses of other agents. -/
def StandsBack (i : Instr) (s r : State) : Prop := Sys2Proof.Machine.exec i s = .next r.setAside

/-- What a load makes pending: made from the `n` bytes at `va` on some pages that context `k` sees, and whether any of their units is
marked (R171). -/
def State.seenBytes (r : State) (k : Nat) (ps : List Page) (va n : Nat) : List Byte × Bool :=
  let l := (List.range n).map fun j => r.seenAt k (placeIn ps (va + j)).2 (placeIn ps (va + j)).1
  (l.map Prod.fst, l.any Prod.snd)

/-- The bytes `bs` stored at `va` on some pages by context `k`, from the state `r` to `t` (R172): unpoisoned bytes are seen where they were
stored, and the mark of each unit stored whole is cleared; poisoned data zero and mark every unit touched; and every other byte stands. -/
def StoredAt (r t : State) (k : Nat) (ps : List Page) (va : Nat) (bs : List Byte) (psn : Bool) : Prop :=
  let at_ (j : Nat) : Nat × Bool := placeIn ps (va + j)
  let whole (j : Nat) : Prop := va ≤ (va + j) / 8 * 8 ∧ (va + j) / 8 * 8 + 8 ≤ va + bs.length
  (psn = false →
    (∀ j, j < bs.length → (t.seenAt k (at_ j).2 (at_ j).1).1 = nth 0 bs j ∧
      ((t.seenAt k (at_ j).2 (at_ j).1).2 = true ↔ (r.seenAt k (at_ j).2 (at_ j).1).2 = true ∧ ¬whole j)) ∧
    StandsBut r t fun pa => ∃ j, j < bs.length ∧ pa = (at_ j).1) ∧
  (psn = true →
    (∀ j, j < bs.length → t.seenAt k (at_ j).2 (at_ j).1 = (0, true)) ∧
    StandsBut r t fun pa => ∃ j, j < bs.length ∧ pa / 8 = (at_ j).1 / 8)

/-! ### Checks that every access shares (spec/07 R170, R172, spec/15 R356) -/

/-- The executing context's state with F_PSN set, where poisoned data are stored (R172). -/
def State.notedPsn (s : State) (psn : Bool) : State :=
  if psn then s.setArch { s.arch with csw := s.arch.csw ||| BitVec.ofNat 64 (2 ^ 15) } else s

/-- A watch register that matches one of the ranges, at an access that is not the one re-entered: TRAPINFO of its WATCH (R356). -/
def State.watchHit (s : State) (ranges : List (Nat × Nat)) (rd wr : Bool) : Option Nat :=
  if s.me.unwatched = some s.cur.slot then none else watchFrom s.arch ranges rd wr 4 0

/-- An access that its checks stop, in their order: `code` is that of the first check of R168 that fails, 0 where none does; `hit` the
TRAPINFO of a WATCH. -/
def StopsAt (i : Instr) (s : State) (code : Nat) (hit : Option Nat) : Prop :=
  (code ≠ 0 → Dies i s code) ∧ ∀ w, code = 0 → hit = some w → Traps i s 8 w

/-- Poisoned data to be stored take PSN where it is enabled (R172), with TRAPINFO naming the register. -/
def StopsPoison (i : Instr) (s : State) (psn : Bool) (info : Nat) : Prop :=
  psn = true → s.cur.csw.getLsbD 23 = true → Traps i s 5 info

/-- The operation answers a next state in which its destination is pending for what a load made of the bytes seen in state `r`; it
differs from `r` in nothing else but the copies that L1s hold and the counter of poison. -/
def LoadsAt (i : Instr) (s r : State) (dst : SbDst) (what : Payload) (poisons : Nat) : Prop :=
  ∃ t, Sys2Proof.Machine.exec i s = .next t ∧ OnlyAccess r t ∧ t.mem = r.mem ∧
    t.me = { r.me with sb := r.me.sb ++ [{ dst := dst, what := what }], arch := { r.arch with poisons := poisons } } ∧
    StandsBut r t fun _ => False

/-- The operation answers a next state in which the bytes are stored on some pages (R172); the executing context changes in nothing but
the pages it has written, and no result is in flight. -/
def StoresAt (i : Instr) (s r : State) (ps : List Page) (va : Nat) (bs : List Byte) (psn : Bool) : Prop :=
  ∃ t w, Sys2Proof.Machine.exec i s = .next t ∧ OnlyAccess r t ∧ StoredAt r t s.cur.ctx ps va bs psn ∧
    t.me = { r.me with arch := { r.arch with wrote := w } }

/-- The operation answers a next state in which the access `l` joins those of its context whose points in T are still to come, its
destination pending for it where it has one, and the context's state is otherwise `a`; beside the state `r`, nothing else differs. -/
def JoinsLate (i : Instr) (s r : State) (l : Late) (sb : List SbEntry) (a : Arch) : Prop :=
  ∃ t, Sys2Proof.Machine.exec i s = .next t ∧
    Leaves r t { r.me with late := r.me.late ++ [l], sb := r.me.sb ++ sb, arch := a }

/-- The operation goes through an extent slot that is poisoned (R288): it takes MCHK, with TRAPINFO of the slot's number, and of a register
kind that nothing states (log entry 112). -/
def SlotPoisoned (i : Instr) (s : State) (slot : Nat) : Prop :=
  ∃ kind, kind < 4 ∧ Sys2Proof.Machine.exec i s = .next (({ s with draws := s.draws + 1 } : State).takeTrap 9 (slot + kind * 64))

/-- The operation takes a trap after a read that changed nothing but the copies that L1s hold. -/
def TrapsAfterRead (i : Instr) (s : State) (cause info : Nat) : Prop :=
  ∃ r : State, OnlyAccess s r ∧ r.mem = s.mem ∧ r.ctxs = s.ctxs ∧ StandsBut s r (fun _ => False) ∧
    Sys2Proof.Machine.exec i s = .next (r.takeTrap cause info)

/-- No L1 holds a copy of any unit: every byte is where memory has it. -/
def State.uncached (s : State) : Prop := ∀ c pu, ((s.core c).l1Unit pu).here = false

/-! ### Memory as the engines and the device reach it (spec/11 R283, spec/18 R388) -/

/-- No update-only line holds an update: an access of an engine or of the device changes nothing but what it writes. -/
def State.plain (s : State) : Prop := ∀ c, (s.core c).lines = []

/-- The bytes of memory at `n` virtual addresses from `va`, and the poison of each. -/
def State.memBytes (s : State) (asid va n : Nat) : List Byte × List Bool :=
  ((List.range n).map fun j => s.mem.byte (s.placeOf asid (va + j)).1,
   (List.range n).map fun j => s.mem.mark ((s.placeOf asid (va + j)).1 / 8))

/-- Unpoisoned bytes written to memory at `va`, byte `j` at the physical address `pa j`, from state `s` to `t`: the mark of each unit
written whole is cleared, every other byte and mark stands, and nothing but memory and the engine writes that may be missed differs. -/
def PutAt (s t : State) (pa : Nat → Nat) (va : Nat) (bs : List Byte) : Prop :=
  t = { s with mem := t.mem, hidden := t.hidden, spoiled := t.spoiled } ∧
  (∀ j, j < bs.length → t.mem.byte (pa j) = nth 0 bs j) ∧
  (∀ a, (∀ j, j < bs.length → a ≠ pa j) → t.mem.byte a = s.mem.byte a) ∧
  ∀ u, t.mem.mark u = true ↔ s.mem.mark u = true ∧
    ¬∃ j, j + 8 ≤ bs.length ∧ (va + j) % 8 = 0 ∧ pa j = 8 * u

/-- Unpoisoned bytes written at `va` of an address space, each where its page puts it. -/
def MemStored (s t : State) (asid va : Nat) (bs : List Byte) : Prop := PutAt s t (fun j => (s.placeOf asid (va + j)).1) va bs

/-- Unpoisoned bytes written at `va` on the pages of some runs (R292). -/
def RunStored (s t : State) (ps : List Page) (va : Nat) (bs : List Byte) : Prop := PutAt s t (fun j => (placeIn ps (va + j)).1) va bs

/-! ### Commands of hosts (spec/18 R387) -/

/-- A command that the endpoint takes up: the module runs, some port carries it, the address is that of a registered host, OP is the
command's, the header keeps the rules of R387, and no ABORT of that host is still to be answered (R389). -/
def State.takesUp (s : State) (host : Nat) (msg : List Byte) (op : Nat) : Prop :=
  s.boss.stage = 2 ∧ s.linked = true ∧ s.hostEntry host ≠ none ∧ fld msg 6 2 = op ∧ fld msg 0 4 = 0x434D4446 ∧ fld msg 4 2 = 1 ∧
  msg.length = 32 + fld msg 16 4 ∧ fld msg 16 4 ≤ 65504 ∧ (∀ j, 20 ≤ j → j < 32 → nth 0 msg j = 0) ∧ s.abortAsked host = false

/-- The command leaves the state `t`, and one reply has gone to its host. -/
def Answers (i : Instr) (s t : State) (host : Nat) (msg : List Byte) (op status result : Nat) (body : List Byte) : Prop :=
  Sys2Proof.Machine.exec i s = .next { t with
    out := t.out ++ [{ kind := 0x01, dest := host, body := endpointMsg op (fld msg 8 8) status result body }] }

/-! ### The canonical form of the memories -/

/-- Every memory of the module is in its canonical form. -/
def Canonical (s : State) : Prop :=
  s.mem.wf = true ∧ (∀ k, (s.core k).spm.wf = true ∧ (s.core k).wb.wf = true) ∧ ∀ k, (s.cluster k).store.wf = true

end Sys2Proof.Machine
end

