-- ==== Sys2Proof/Certificates/Slice0/Obligations.lean ====
section
/-! DEFINITION. What is stated of the machine, for the provers: one definition for each statement. -/

open Sys2Proof Sys2Proof.Machine

/-! ### The S slot: arithmetic (spec/05) -/

/-- R122. Each register-register operation answers a next state whose only change is its result in flight: the value of the table, with
latency 3 for the multiplications and 1 for the others, poisoned (and zero) when a source is. A write to s0 is discarded. R129, R140. The
comparisons write 1 or 0, SEL reads all three of its sources, and PCLR writes an unpoisoned zero. -/
def Obligations.RegisterOperationResults : Prop :=
  (∀ (f : SR) (s : State),
    let a := (s.rdS f.a).val
    let b := (s.rdS f.b).val
    let n := b.toNat % 64
    let p := (s.rdS f.a).psn || (s.rdS f.b).psn
    Sends (.add f) s (toS f.d 1 p (a + b)) ∧
    Sends (.sub f) s (toS f.d 1 p (a - b)) ∧
    Sends (.mul f) s (toS f.d 3 p (BitVec.ofNat 64 (a.toNat * b.toNat))) ∧
    Sends (.mulhs f) s (toS f.d 3 p (((a.signExtend 128 * b.signExtend 128).extractLsb' 64 64))) ∧
    Sends (.mulhn f) s (toS f.d 3 p (((a.setWidth 128 * b.setWidth 128).extractLsb' 64 64))) ∧
    Sends (.and f) s (toS f.d 1 p (a &&& b)) ∧
    Sends (.or f) s (toS f.d 1 p (a ||| b)) ∧
    Sends (.xor f) s (toS f.d 1 p (a ^^^ b)) ∧
    Sends (.andn f) s (toS f.d 1 p (a &&& ~~~b)) ∧
    Sends (.shl f) s (toS f.d 1 p (a <<< n)) ∧
    Sends (.shr f) s (toS f.d 1 p (a >>> n)) ∧
    Sends (.sar f) s (toS f.d 1 p (BitVec.ofInt 64 (a.toInt / (2 ^ n : Nat)))) ∧
    Sends (.rotl f) s (toS f.d 1 p (if n = 0 then a else (a <<< n) ||| (a >>> (64 - n)))) ∧
    Sends (.mins f) s (toS f.d 1 p (BitVec.ofInt 64 (min a.toInt b.toInt))) ∧
    Sends (.maxs f) s (toS f.d 1 p (BitVec.ofInt 64 (max a.toInt b.toInt))) ∧
    Sends (.minn f) s (toS f.d 1 p (BitVec.ofNat 64 (min a.toNat b.toNat))) ∧
    Sends (.maxn f) s (toS f.d 1 p (BitVec.ofNat 64 (max a.toNat b.toNat))) ∧
    Sends (.mov f) s (toS f.d 1 (s.rdS f.a).psn a)) ∧
  (∀ (f : SR) (s : State),
    let a := (s.rdS f.a).val
    let b := (s.rdS f.b).val
    let p := (s.rdS f.a).psn || (s.rdS f.b).psn
    Sends (.seq f) s (toS f.d 1 p (if a = b then 1 else 0)) ∧
    Sends (.sne f) s (toS f.d 1 p (if a = b then 0 else 1)) ∧
    Sends (.slt f) s (toS f.d 1 p (if a.toInt < b.toInt then 1 else 0)) ∧
    Sends (.sle f) s (toS f.d 1 p (if a.toInt ≤ b.toInt then 1 else 0)) ∧
    Sends (.sltn f) s (toS f.d 1 p (if a.toNat < b.toNat then 1 else 0)) ∧
    Sends (.slen f) s (toS f.d 1 p (if a.toNat ≤ b.toNat then 1 else 0)) ∧
    Sends (.sel f) s (toS f.d 1 (p || (s.rdS f.c).psn) (if (s.rdS f.c).val = 0 then b else a)) ∧
    Sends (.pclr f) s (toS f.d 1 false 0) ∧
    Sends .nop s [])

/-- R124. A division with sources that are not poisoned and a divisor that is not zero answers a next state whose only change is that its
destination is pending, and what will land there is the quotient truncated toward zero, or the remainder with the sign of the dividend;
the one signed quotient that does not fit gives the dividend and a remainder of zero. R124. The corners of the divisions: a poisoned
source gives a poisoned zero with no divide-by-zero check; a zero divisor takes DIVZ with EN_DZ, and without it raises F_DZ and gives all
ones, or the dividend. Where the model's own readings enter: log entry 20. -/
def Obligations.DivisionResults : Prop :=
  (∀ (f : SR) (s : State),
    let a := (s.rdS f.a).val
    let b := (s.rdS f.b).val
    let out (v : Word) : SbEntry := { dst := .s f.d.toNat, what := .scalar { val := v } }
    (s.rdS f.a).psn = false → (s.rdS f.b).psn = false → b ≠ 0 →
    Awaits (.divn f) s (out (a / b)) ∧
    Awaits (.remn f) s (out (a % b)) ∧
    Awaits (.divs f) s (out (BitVec.ofInt 64 (Int.tdiv a.toInt b.toInt))) ∧
    Awaits (.rems f) s (out (BitVec.ofInt 64 (Int.tmod a.toInt b.toInt)))) ∧
  (∀ (f : SR) (s : State),
    let a := s.rdS f.a
    let b := s.rdS f.b
    let out (v : SReg) : SbEntry := { dst := .s f.d.toNat, what := .scalar v }
    let zeroDivisor (v : Word) (i : Instr) : Prop := ∃ t, Sys2Proof.Machine.exec i s = .next t ∧
      Leaves s t { s.me with sb := s.me.sb ++ [out { val := v }], arch := { s.arch with csw := s.arch.csw ||| 0x200 } }
    (a.psn = true ∨ b.psn = true →
      Awaits (.divn f) s (out { val := 0, psn := true }) ∧ Awaits (.remn f) s (out { val := 0, psn := true }) ∧
      Awaits (.divs f) s (out { val := 0, psn := true }) ∧ Awaits (.rems f) s (out { val := 0, psn := true })) ∧
    (a.psn = false → b.psn = false → b.val = 0 →
      (s.cur.csw.getLsbD 17 = true →
        Traps (.divn f) s 6 0 ∧ Traps (.remn f) s 6 0 ∧ Traps (.divs f) s 6 0 ∧ Traps (.rems f) s 6 0) ∧
      (s.cur.csw.getLsbD 17 = false →
        zeroDivisor (BitVec.allOnes 64) (.divn f) ∧ zeroDivisor (BitVec.allOnes 64) (.divs f) ∧
        zeroDivisor a.val (.remn f) ∧ zeroDivisor a.val (.rems f))))

/-- R126. The immediate forms: the immediate is sign-extended, MULI has latency 3, and LIH keeps the low half of the old d, whose poison
propagates. R128. The immediate shifts, counts and field operations, at every count and width that the Assayer admits. -/
def Obligations.ImmediateAndFieldResults : Prop :=
  (∀ (f : SI) (s : State),
    let a := (s.rdS f.a).val
    let p := (s.rdS f.a).psn
    let imm := BitVec.ofInt 64 f.imm.toInt
    Sends (.addi f) s (toS f.d 1 p (a + imm)) ∧
    Sends (.muli f) s (toS f.d 3 p (a * imm)) ∧
    Sends (.andi f) s (toS f.d 1 p (a &&& imm)) ∧
    Sends (.ori f) s (toS f.d 1 p (a ||| imm)) ∧
    Sends (.xori f) s (toS f.d 1 p (a ^^^ imm)) ∧
    Sends (.li f) s (toS f.d 1 false imm) ∧
    Sends (.lih f) s (toS f.d 1 (s.rdS f.d).psn
      (BitVec.ofNat 64 (f.imm.toNat * 2 ^ 32 + (s.rdS f.d).val.toNat % 2 ^ 32)))) ∧
  (∀ (f : SF) (s : State),
    let a := (s.rdS f.a).val
    let p := (s.rdS f.a).psn
    let l := f.lsb.toNat
    let w := f.width.toNat
    Sends (.shli f) s (toS f.d 1 p (BitVec.ofNat 64 (a.toNat * 2 ^ l))) ∧
    Sends (.shri f) s (toS f.d 1 p (BitVec.ofNat 64 (a.toNat / 2 ^ l))) ∧
    Sends (.sari f) s (toS f.d 1 p (BitVec.ofInt 64 (a.toInt / (2 ^ l : Nat)))) ∧
    Sends (.rotli f) s (toS f.d 1 p (if l = 0 then a else (a <<< l) ||| (a >>> (64 - l)))) ∧
    (∃ v : Nat, Sends (.clz f) s (toS f.d 1 p (BitVec.ofNat 64 v)) ∧
      (a = 0 → v = 64) ∧ (a ≠ 0 → v < 64 ∧ a.getLsbD (63 - v) = true ∧ ∀ j, 63 - v < j → a.getLsbD j = false)) ∧
    (∃ v : Nat, Sends (.ctz f) s (toS f.d 1 p (BitVec.ofNat 64 v)) ∧
      (a = 0 → v = 64) ∧ (a ≠ 0 → a.getLsbD v = true ∧ ∀ j, j < v → a.getLsbD j = false)) ∧
    Sends (.popc f) s (toS f.d 1 p (BitVec.ofNat 64 ((List.range 64).countP fun j => a.getLsbD j))) ∧
    (∃ v : Word, Sends (.bswap f) s (toS f.d 1 p v) ∧
      ∀ j, j < 8 → v.extractLsb' (8 * (7 - j)) 8 = a.extractLsb' (8 * j) 8) ∧
    Sends (.bfx f) s (toS f.d 1 p (BitVec.ofNat 64 (a.toNat / 2 ^ l % 2 ^ w))) ∧
    (l + w ≤ 64 → ∃ v : Word, Sends (.bfi f) s (toS f.d 1 (p || (s.rdS f.d).psn) v) ∧
      ∀ j, j < 64 → v.getLsbD j = if l ≤ j ∧ j < l + w then a.getLsbD (j - l) else (s.rdS f.d).val.getLsbD j) ∧
    (1 ≤ w → w ≤ 64 → Sends (.sext f) s (toS f.d 1 p (((a.setWidth w).signExtend 64)))) ∧
    Sends (.zext f) s (toS f.d 1 p (BitVec.ofNat 64 (a.toNat % 2 ^ w))))

/-! ### The S slot: control transfers (spec/05) -/

/-- R135, R133. A conditional branch with a true condition leaves its redirect and writes nothing; with a false one it has no effect; and
a poisoned operand takes MCHK at the slot itself, with TRAPINFO naming the first poisoned register. R136, R138, R139. LOOP writes its
counter less one and is taken while that is not zero; the jumps and calls are always taken, a call with its link, the fourth bundle after
it in fetch order; an indirect pointer that fails its check is marked as bad; CHK is taken just when the register tested is poisoned, and
writes nothing; and a poisoned counter or pointer takes MCHK. R130, R131. When the last slot of a bundle has committed and nothing else
ends or returns from its code, the next bundle is that of fetch order while no redirect is left or delay bundles remain, and the
redirect's target after the last of them; a redirect whose pointer was bad ends the task with BADTARGET in its place. Where the model's
own readings enter: log entries 103 and 104. -/
def Obligations.ControlTransfers : Prop :=
  (∀ (f : SB) (s : State),
    let a := (s.rdS f.a).val
    let b := (s.rdS f.b).val
    let go (i : Instr) (c : Prop) : Prop :=
      (c → Diverts i s s.arch (directTarget s.cur.pc f) false) ∧ (¬c → Idles i s)
    ((s.rdS f.a).psn = false → (s.rdS f.b).psn = false →
      go (.beq f) (a = b) ∧ go (.bne f) (a ≠ b) ∧ go (.blt f) (a.toInt < b.toInt) ∧ go (.bge f) (b.toInt ≤ a.toInt) ∧
      go (.bltn f) (a.toNat < b.toNat) ∧ go (.bgen f) (b.toNat ≤ a.toNat)) ∧
    ((s.rdS f.a).psn = false → go (.bz f) (a = 0) ∧ go (.bnz f) (a ≠ 0)) ∧
    ((s.rdS f.a).psn = true → ∀ i ∈ [Instr.beq f, .bne f, .blt f, .bge f, .bltn f, .bgen f, .bz f, .bnz f],
      Traps i s 9 f.a.toNat) ∧
    ((s.rdS f.a).psn = false → (s.rdS f.b).psn = true →
      ∀ i ∈ [Instr.beq f, .bne f, .blt f, .bge f, .bltn f, .bgen f], Traps i s 9 f.b.toNat)) ∧
  (∀ (f : SB) (s : State),
    let a := (s.rdS f.a).val
    let target := directTarget s.cur.pc f
    let link := s.sent (toS f.d 1 false s.link)
    let counted := s.sent (toS f.a 1 false (a - 1))
    let tested := if f.b = 1 then (s.arch.readV f.a).psn else (s.rdS f.a).psn
    ((s.rdS f.a).psn = false →
      (a ≠ 1 → Diverts (.loop f) s counted target false) ∧
      (a = 1 → Sends (.loop f) s (toS f.a 1 false 0)) ∧
      Diverts (.jmpi f) s s.arch a (s.badPointer a) ∧ Diverts (.ret f) s s.arch a (s.badPointer a) ∧
      Diverts (.calli f) s link a (s.badPointer a)) ∧
    Diverts (.jmp f) s s.arch target false ∧
    Diverts (.call f) s link target false ∧
    (tested = true → Diverts (.chk f) s s.arch target false) ∧
    (tested = false → Idles (.chk f) s) ∧
    ((s.rdS f.a).psn = true → ∀ i ∈ [Instr.loop f, .jmpi f, .ret f, .calli f], Traps i s 9 f.a.toNat) ∧
    ((s.follow s.me 4 s.cur.pc).isSome = true → s.follow s.me 4 s.cur.pc = some s.link)) ∧
  (∀ (s : State) (h : SegHead) (p : Word),
    let a := s.arch
    let k := s.cur.ctx
    let t := s.afterSlot
    s.cur.open_ = true → s.cur.slot = 6 → ySigen (yOf s.cur.words) = false → a.exitReq = none → s.me.eretReq = false →
    s.segHead s.me (ptrSeg s.cur.pc) = some h → h.after s.cur.pc = some p →
    (a.redirect = none → (t.ctx k).arch.pos = p ∧ (t.ctx k).arch.redirect = none) ∧
    (∀ r, a.redirect = some r → 1 < r.left →
      (t.ctx k).arch.pos = p ∧ (t.ctx k).arch.redirect = some { r with left := r.left - 1 }) ∧
    (∀ r, a.redirect = some r → r.left ≤ 1 → r.bad = false →
      (t.ctx k).arch.pos = r.target ∧ (t.ctx k).arch.redirect = none) ∧
    (∀ r, a.redirect = some r → r.left ≤ 1 → r.bad = true →
      (t.ctx k).ending = some { status := 0x0020, exitCode := 0, faultPc := r.src }))

/-! ### Traps and system operations (spec/09, spec/15) -/

/-- R352. Taking a trap outside a handler, with an entry in the trap table: the trap registers, the parked results, the saved redirect and
the handler's CSW are as the rule's pseudocode has them, every register and every memory stands, and the context goes on at the handler.
R258. TRAP takes TRAPI with the trap code, to be entered again at the next slot. R357. A trap inside a handler, or one that the trap table
has no entry for, is a double fault: it ends the task with that status. In a handler the trap registers are not written again. Where the
model's own readings enter: log entries 23, 24 and 26. -/
def Obligations.TrapsTaken : Prop :=
  (∀ (s : State) (cause info : Nat),
    s.arch.csw.getLsbD 3 = false → s.trapEntry cause ≠ 0 →
    TrapTaken s (s.takeTrap cause info) (if cause = 7 then s.cur.slot + 1 else s.cur.slot) cause info) ∧
  (∀ (f : SS) (s : State),
    s.arch.csw.getLsbD 3 = false → s.trapEntry 7 ≠ 0 →
    ∃ t, Sys2Proof.Machine.exec (.trap f) s = .next t ∧ TrapTaken s t (s.cur.slot + 1) 7 (f.x.toNat % 65536)) ∧
  (∀ (s : State) (cause info : Nat),
    (s.arch.csw.getLsbD 3 = true →
      (s.takeTrap cause info).me.ending = some { status := 0x0021, exitCode := 0, faultPc := s.arch.trappc } ∧
      (s.takeTrap cause info).arch.trappc = s.arch.trappc ∧ (s.takeTrap cause info).arch.trapcsw = s.arch.trapcsw ∧
      (s.takeTrap cause info).arch.trapcause = s.arch.trapcause) ∧
    (s.arch.csw.getLsbD 3 = false → s.trapEntry cause = 0 →
      (s.takeTrap cause info).me.ending = some { status := 0x0021, exitCode := 0, faultPc := s.cur.pc }))

/-- R259, R354. ERET in a handler is noted, and when its bundle has committed the interrupted code goes on: CSW comes from TRAPCSW with
the flags of both (F_LOCK may be set besides where a window is open and the bundle must wait for its fetch, R104), the saved redirect and
the parked results return, and bundle TRAPPC is entered at slot TRAPCSW.SLOTRES. Outside a handler it ends the task with BADTARGET. R23,
R24, R25, R260. CSRD writes d with the register that its selector names, poisoned where that is half of a poisoned extent slot (R288);
CSWR writes just the writable fields of CSW, keeps RMODE where the new code is above 4, and writes TRAPPC and TRAPCSW in a handler only; a
poisoned value takes MCHK. Where the model's own readings enter: log entries 25, 26 and 112. -/
def Obligations.ReturnsAndControlRegisters : Prop :=
  ((∀ (f : SS) (s : State),
    (s.arch.csw.getLsbD 3 = true →
      ∃ t, Sys2Proof.Machine.exec (.eret f) s = .next t ∧ Leaves s t { s.me with eretReq := true }) ∧
    (s.arch.csw.getLsbD 3 = false →
      ∃ t, Sys2Proof.Machine.exec (.eret f) s = .next t ∧
        t.me.ending = some { status := 0x0020, exitCode := 0, faultPc := s.cur.pc })) ∧
  (∀ s : State,
    let a := s.arch
    let t := s.afterSlot
    let b := (t.ctx s.cur.ctx).arch
    s.cur.open_ = true → s.cur.slot = 6 → ySigen (yOf s.cur.words) = false → a.exitReq = none → s.me.eretReq = true →
    s.badPointer a.trappc = false → a.savedUnissued = false →
    b.pos = a.trappc ∧ b.redirect = a.savedRedirect ∧ b.reenter = some (bits a.trapcsw 0 3) ∧
    b.flight = (a.parked.map fun f => { f with due := a.savedAt + f.due }) ∧ b.parked = [] ∧
    (s.me.window = none → b.csw.getLsbD 14 = (a.trapcsw.getLsbD 14 || a.csw.getLsbD 14)) ∧
    (a.trapcsw.getLsbD 14 = true ∨ a.csw.getLsbD 14 = true → b.csw.getLsbD 14 = true) ∧
    (∀ j, j < 64 → j ≠ 14 → b.csw.getLsbD j =
      if 8 ≤ j ∧ j < 16 then a.trapcsw.getLsbD j || a.csw.getLsbD j
      else if (16 ≤ j ∧ j < 22) ∨ j = 23 then a.trapcsw.getLsbD j
      else if 24 ≤ j ∧ j < 28 then (if bits a.trapcsw 24 4 ≤ 4 then a.trapcsw.getLsbD j else a.csw.getLsbD j)
      else if j = 4 then a.info.det else false) ∧
    b.s = a.s ∧ b.v = a.v ∧ b.p = a.p ∧ b.mp = a.mp ∧ b.trappc = a.trappc ∧ b.trapcsw = a.trapcsw)) ∧
  (∀ (f : SS) (s : State),
    let a := s.arch
    let v := (s.rdS f.a).val
    let sel := f.x.toNat % 256
    (∀ w, [(0x00, a.csw), (0x01, a.taskid), (0x02, a.trappc), (0x03, a.trapcsw), (0x04, a.trapcause), (0x05, a.trapinfo),
        (0x06, a.trapvec), (0x07, s.cur.clock), (0x08, a.lib)].lookup sel = some w →
      Sends (.csrd f) s (toS f.d 1 false w)) ∧
    (∀ n, n < 16 →
      (sel = 0x40 + n → Sends (.csrd f) s (toS f.d 1 (decide (n ∈ a.eBad)) ((look 0 a.e n).extractLsb' 0 64))) ∧
      (sel = 0x50 + n → Sends (.csrd f) s (toS f.d 1 (decide (n ∈ a.eBad)) ((look 0 a.e n).extractLsb' 64 64)))) ∧
    (∀ n, n < 4 →
      (sel = 0x60 + n → Sends (.csrd f) s (toS f.d 1 false (look {} a.q n).lo)) ∧
      (sel = 0x64 + n → Sends (.csrd f) s (toS f.d 1 false (look {} a.q n).hi))) ∧
    ((s.rdS f.a).psn = true → Traps (.cswr f) s 9 f.a.toNat) ∧
    ((s.rdS f.a).psn = false →
      (sel = 0 → ∃ t w, Sys2Proof.Machine.exec (.cswr f) s = .next t ∧ Becomes s t { a with csw := w } ∧
        ∀ j, j < 64 → w.getLsbD j =
          if (8 ≤ j ∧ j < 22) ∨ j = 23 then v.getLsbD j
          else if 24 ≤ j ∧ j < 28 ∧ bits v 24 4 ≤ 4 then v.getLsbD j else a.csw.getLsbD j) ∧
      (sel = 2 → ∃ t, Sys2Proof.Machine.exec (.cswr f) s = .next t ∧
        Becomes s t (if a.csw.getLsbD 3 then { a with trappc := v } else a)) ∧
      (sel = 3 → ∃ t, Sys2Proof.Machine.exec (.cswr f) s = .next t ∧
        Becomes s t (if a.csw.getLsbD 3 then { a with trapcsw := v } else a)) ∧
      (sel ≠ 0 → sel ≠ 2 → sel ≠ 3 → ∃ t, Sys2Proof.Machine.exec (.cswr f) s = .next t ∧ Becomes s t a)))

/-- R252, R254. SARM adds its signed amount, held at the bound that it passes with the mark set; SSET sets the balance and clears the
mark; SGET makes its destination pending for the semaphore's value. No register, memory or other semaphore changes. Where the model's own
readings enter: log entry 27. -/
def Obligations.Semaphores : Prop :=
  ∀ (f : SS) (s : State),
    let n := f.x.toNat % 256
    let cl := clusterOf s.cur.ctx
    let i := s.arch.info
    let old := s.sem cl i n
    let sum := old.bal.toInt + ((s.rdS f.a).val.extractLsb' 0 32).toInt
    let named := i.onGrid n = false ∨ listed (look noLaunch s.launches i.seq).nodes i.node = true
    let stands (t : State) : Prop :=
      (∀ k, (t.ctx k).arch = (s.ctx k).arch) ∧ t.mem = s.mem ∧ t.cores = s.cores ∧
      ∀ j m, m ≠ n → t.sem cl j m = s.sem cl j m
    ((s.rdS f.a).psn = false → named →
      (∃ t, Sys2Proof.Machine.exec (.sarm f) s = .next t ∧ stands t ∧
        t.sem cl i n =
          if sum < -(2 ^ 31) then { bal := 0x80000000, mark := true }
          else if 2 ^ 31 ≤ sum then { bal := 0x7FFFFFFF, mark := true }
          else { bal := BitVec.ofInt 32 sum, mark := old.mark }) ∧
      (∃ t, Sys2Proof.Machine.exec (.sset f) s = .next t ∧ stands t ∧
        t.sem cl i n = { bal := (s.rdS f.a).val.extractLsb' 0 32, mark := false })) ∧
    ((s.rdS f.a).psn = true → Traps (.sarm f) s 9 f.a.toNat ∧ Traps (.sset f) s 9 f.a.toNat) ∧
    Awaits (.sget f) s { dst := .s f.d.toNat, what := .sget n s.nextId }

/-- R256, R257, R262 to R264. YIELD gives up the turn to the core's other tasks; EXIT notes the exit code, and its bundle goes on; TIME
and PEND write what they read at issue; RNDX writes its output to d and the advanced state to a, both with the state's poison. Where the
model's own readings enter: log entries 4 and 26. -/
def Obligations.TurnsEndsTimeAndRandom : Prop :=
  ∀ (f : SS) (s : State),
    let st := (s.rdS f.a).val + 0x9E3779B97F4A7C15
    let z := (st ^^^ (st >>> 30)) * 0xBF58476D1CE4E5B9
    let y := (z ^^^ (z >>> 27)) * 0x94D049BB133111EB
    (∃ t, Sys2Proof.Machine.exec (.yield f) s = .next t ∧
      Leaves s t { s.me with yielding := some (s.coreMates s.cur.ctx) }) ∧
    (∃ t, Sys2Proof.Machine.exec (.exit f) s = .next t ∧ Becomes s t { s.arch with exitReq := some (f.x.toNat % 65536) }) ∧
    Sends (.time f) s (toS f.d 1 false (BitVec.ofNat 64 s.timebase)) ∧
    Sends (.rndx f) s (toS f.d 1 (s.rdS f.a).psn (y ^^^ (y >>> 31)) ++ toS f.a 1 (s.rdS f.a).psn st) ∧
    ∃ w : Word, Sends (.pend f) s (toS f.d 1 false w) ∧
      ∀ n, n < 64 → w.getLsbD n = (n != 0 && s.cur.pend.contains n)

/-! ### The vector slots (spec/06) -/

/-- R146. The floating-point arithmetic: with the tags of R145, each active element takes the operation's value, rounded once from the
exact value of its operands, by R142. Where the model's own readings enter: log entries 31 and 41. -/
def Obligations.VectorFloatResults : Prop :=
  ∀ (f : VV) (s : State),
    let t := f.fmt.toNat
    let w := fmtWidth t
    let p := fpOf t
    let a := s.rdV f.a
    let b := s.rdV f.b
    let d := s.rdV f.d
    let r := s.rounding f t
    let x (v : VReg) (j : Nat) : Fp := fpDecode p (elem v.bits j w)
    let random := f.rm = 5 → (s.rdV f.c).tag ∈ [0x00, 0x14, 0x15, 0x16, 0x17]
    let rp := f.rm == 5 && (s.rdV f.c).psn
    (a.tag = t → b.tag = t → random →
      VectorResult (.vadd f) f s 2 t w (a.psn || b.psn || rp) (fun j => some (opAdd p (r j) (x a j) (x b j))) ∧
      VectorResult (.vsub f) f s 2 t w (a.psn || b.psn || rp) (fun j => some (opSub p (r j) (x a j) (x b j))) ∧
      VectorResult (.vmul f) f s 4 t w (a.psn || b.psn || rp) (fun j => some (opMul p (r j) (x a j) (x b j))) ∧
      VectorResult (.vdiv f) f s 12 t w (a.psn || b.psn || rp) (fun j => some (opDiv p (r j) (x a j) (x b j)))) ∧
    (a.tag = t → b.tag = t → d.tag = t → random →
      VectorResult (.vfma f) f s 4 t w (a.psn || b.psn || d.psn || rp)
        (fun j => some (opFma p (r j) false false (x a j) (x b j) (x d j))) ∧
      VectorResult (.vfms f) f s 4 t w (a.psn || b.psn || d.psn || rp)
        (fun j => some (opFma p (r j) false true (x a j) (x b j) (x d j))) ∧
      VectorResult (.vfnma f) f s 4 t w (a.psn || b.psn || d.psn || rp)
        (fun j => some (opFma p (r j) true false (x a j) (x b j) (x d j)))) ∧
    (a.tag = t → random →
      VectorResult (.vsqrt f) f s 12 t w (a.psn || rp) (fun j => some (opSqrt p (r j) (x a j))) ∧
      VectorResult (.vrcp f) f s 6 t w (a.psn || rp) (fun j => some (opRcp p (r j) (x a j))) ∧
      VectorResult (.vrsq f) f s 6 t w (a.psn || rp) (fun j => some (opRsq p (r j) (x a j))) ∧
      (f.rm = 0 → VectorResult (.vexp2 f) f s 8 t w a.psn (fun j => some (opExp2 p (x a j))) ∧
        VectorResult (.vlog2 f) f s 8 t w a.psn (fun j => some (opLog2 p (x a j)))))

/-- R148, R150, R151. The minima and maxima, sign operations, integer arithmetic, logic and shifts, element by element, by R142: the logic
operations check no tag and keep that of a, and a shift takes its count from OPX or from b. -/
def Obligations.VectorIntegerResults : Prop :=
  ∀ (f : VV) (s : State),
    let t := f.fmt.toNat
    let w := fmtWidth t
    let p := fpOf t
    let a := s.rdV f.a
    let b := s.rdV f.b
    let d := s.rdV f.d
    let two (i : Instr) (lat : Nat) (g : Nat → Nat → Nat × Nat) : Prop :=
      VectorResult i f s lat t w (a.psn || b.psn) fun j => some (g (elem a.bits j w) (elem b.bits j w))
    let logic (i : Instr) (g : Nat → Nat → Nat) : Prop :=
      VectorResult i f s 2 a.tag w (a.psn || b.psn) fun j => some (g (elem a.bits j w) (elem b.bits j w), 0)
    let shift (i : Instr) (g : Nat → Nat → Nat) : Prop :=
      (f.opx[7] = true → a.tag = t →
        VectorResult i f s 2 t w a.psn fun j => some (g (elem a.bits j w) (f.opx.toNat % 128), 0)) ∧
      (f.opx[7] = false → a.tag = t → b.tag = t →
        VectorResult i f s 2 t w (a.psn || b.psn) fun j => some (g (elem a.bits j w) (elem b.bits j w), 0))
    let value (x : Nat) : Int := if 0x10 ≤ t ∧ t ≤ 0x13 then toSigned w x else (x : Nat)
    (a.tag = t → b.tag = t →
      two (.vmin f) 2 (opMinMax p false false) ∧ two (.vmax f) 2 (opMinMax p true false) ∧
      two (.vminp f) 2 (opMinMax p false true) ∧ two (.vmaxp f) 2 (opMinMax p true true) ∧
      two (.viadd f) 2 (fun x y => (x + y, 0)) ∧ two (.visub f) 2 (fun x y => (x + (2 ^ w - y), 0)) ∧
      two (.vimul f) 4 (fun x y => (x * y, 0)) ∧
      two (.vimin f) 2 (fun x y => (if value x < value y then x else y, 0)) ∧
      two (.vimax f) 2 (fun x y => (if value x < value y then y else x, 0)) ∧
      (d.tag = t → VectorResult (.vimad f) f s 4 t w (a.psn || b.psn || d.psn)
        fun j => some (elem a.bits j w * elem b.bits j w + elem d.bits j w, 0))) ∧
    (a.tag = t →
      VectorResult (.vabs f) f s 2 t w a.psn (fun j => some (elem a.bits j w % 2 ^ (w - 1), 0)) ∧
      VectorResult (.vneg f) f s 2 t w a.psn (fun j => some (elem a.bits j w ^^^ 2 ^ (w - 1), 0))) ∧
    logic (.vand f) (fun x y => x &&& y) ∧ logic (.vor f) (fun x y => x ||| y) ∧ logic (.vxor f) (fun x y => x ^^^ y) ∧
    shift (.vshl f) (fun x n => if n < w then x * 2 ^ n else 0) ∧ shift (.vshr f) (fun x n => if n < w then x / 2 ^ n else 0) ∧
    shift (.vsar f) (fun x n => ofSigned w (toSigned w x / (2 ^ min n w : Nat)))

/-- R17, R167. A source whose tag is not accepted takes FMT at the slot: TRAPINFO names the first such register in the order a, b, old
destination, with the tag found and the tag required (0xFF where several are accepted, R47, R158, R164); the random-bits register of an
operation that rounds stochastically is tested after a and b. The conversions require their source format, VRNDX UINT64, a shift by a
constant tests a alone, and VCMP tests its tags where neither source is poisoned. VSQ takes FMT where its format is not as wide as the
stream's elements. -/
def Obligations.VectorTagTraps : Prop :=
  ∀ (f : VV) (s : State),
    let t := f.fmt.toNat
    let bad (r : BitVec 6) : Nat := r.toNat % 64 + (s.rdV r).tag * 256 + t * 65536
    let twoSource := [Instr.vadd f, .vsub f, .vmul f, .vdiv f, .vfma f, .vfms f, .vfnma f, .vmin f, .vmax f, .vminp f, .vmaxp f,
      .viadd f, .visub f, .vimul f, .vimad f, .vimin f, .vimax f, .vsel f]
    let oneSource := [Instr.vsqrt f, .vrcp f, .vrsq f, .vexp2 f, .vlog2 f, .vabs f, .vneg f, .vreda f, .vredm f, .vscan f, .vext f, .accwr f]
    ((s.rdV f.a).tag ≠ t → ∀ i ∈ twoSource ++ oneSource, Traps i s 1 (bad f.a)) ∧
    ((s.rdV f.a).tag = t → (s.rdV f.b).tag ≠ t → ∀ i ∈ twoSource, Traps i s 1 (bad f.b)) ∧
    ((s.rdV f.a).tag = t → (s.rdV f.b).tag = t → f.rm ≠ 5 → (s.rdV f.d).tag ≠ t →
      ∀ i ∈ [Instr.vfma f, .vfms f, .vfnma f, .vimad f], Traps i s 1 (bad f.d)) ∧
    ((s.rdV f.a).tag ≠ f.opx.toNat % 256 → ∀ i ∈ [Instr.vcvt f, .vqnt f, .vdqnt f],
      Traps i s 1 (f.a.toNat % 64 + (s.rdV f.a).tag * 256 + f.opx.toNat % 256 * 65536)) ∧
    ((s.rdV f.a).tag ≠ 0x17 → Traps (.vrndx f) s 1 (f.a.toNat % 64 + (s.rdV f.a).tag * 256 + 0x17 * 65536)) ∧
    (let some_ (r : BitVec 6) : Nat := r.toNat % 64 + (s.rdV r).tag * 256 + 0xFF * 65536
     let src := f.opx.toNat % 256
     let random := f.rm = 5 → (s.rdV f.c).tag ∈ [0x00, 0x14, 0x15, 0x16, 0x17]
     let q := look {} s.arch.q (f.opx.toNat % 4)
     (f.rm = 5 → (s.rdV f.c).tag ∉ [0x00, 0x14, 0x15, 0x16, 0x17] →
       ((s.rdV f.a).tag = t →
         (∀ i ∈ [Instr.vsqrt f, .vrcp f, .vrsq f], Traps i s 1 (some_ f.c)) ∧
         ((s.rdV f.b).tag = t → ∀ i ∈ [Instr.vadd f, .vsub f, .vmul f, .vdiv f, .vfma f, .vfms f, .vfnma f], Traps i s 1 (some_ f.c))) ∧
       ((s.rdV f.a).tag = src → ∀ i ∈ [Instr.vcvt f, .vqnt f, .vdqnt f], Traps i s 1 (some_ f.c))) ∧
     (random → (s.rdV f.a).tag = t → (s.rdV f.b).tag = t → (s.rdV f.d).tag ≠ t →
       ∀ i ∈ [Instr.vfma f, .vfms f, .vfnma f], Traps i s 1 (bad f.d)) ∧
     ((s.rdV f.a).psn = false → (s.rdV f.b).psn = false →
       ((s.rdV f.a).tag ≠ t → Traps (.vcmp f) s 1 (bad f.a)) ∧
       ((s.rdV f.a).tag = t → (s.rdV f.b).tag ≠ t → Traps (.vcmp f) s 1 (bad f.b))) ∧
     (∀ i ∈ [Instr.vshl f, .vshr f, .vsar f],
       ((s.rdV f.a).tag ≠ t → Traps i s 1 (bad f.a)) ∧
       (f.opx[7] = false → (s.rdV f.a).tag = t → (s.rdV f.b).tag ≠ t → Traps i s 1 (bad f.b))) ∧
     ((s.rdV f.d).tag ≠ 0 → (s.rdV f.d).tag ≠ t →
       Traps (.vins f) s 1 (some_ f.d) ∧ ((s.rdV f.a).tag = src → random → Traps (.vqnt f) s 1 (some_ f.d))) ∧
     (fmtWidth t ≠ 8 * 2 ^ q.esz.toNat → Traps (.vsq f) s 1 (f.opx.toNat % 4 + 64 + t * 65536)))

/-- R153 to R156. VCMP writes the predicate bits of the active elements, and no others, and consumes poisoned sources; of floats it raises
invalid where an active element has a signalling NaN, or a NaN under one of the four ordered conditions, and takes FPX where that is
enabled; VSEL takes a where the predicate is set and b elsewhere; the predicate operations act bit by bit; VPCNT counts the selected
elements and VPFIRST gives the lowest, or the number of elements where there is none. Where the model's own readings enter: log entry 30.
-/
def Obligations.ComparisonAndPredicates : Prop :=
  ∀ (f : VV) (s : State),
    let t := f.fmt.toNat
    let w := fmtWidth t
    let a := s.rdV f.a
    let b := s.rdV f.b
    let value (x : Nat) : Int := if 0x10 ≤ t ∧ t ≤ 0x13 then toSigned w x else (x : Nat)
    let on (j : Nat) : Bool := act (s.arch.readP f.a.toNat) j w && act (s.vpred f) j w
    let pred (i : Instr) (x : Pred) : Prop := Sends i s (toP f.d x (BitVec.allOnes 256))
    (a.psn = true → Traps (.vcmp f) s 9 (f.a.toNat + 64)) ∧
    (a.psn = false → b.psn = true → Traps (.vcmp f) s 9 (f.b.toNat + 64)) ∧
    (a.psn = false → b.psn = false → a.tag = t → b.tag = t → t ∈ fmtInt → f.opx.toNat % 16 < 8 →
      ∃ x m : Pred, Sends (.vcmp f) s (toP f.d x m) ∧
        ∀ j, j < 2048 / w → ∀ k, k < w / 8 →
          m.getLsbD (j * (w / 8) + k) = act (s.vpred f) j w ∧
          (x.getLsbD (j * (w / 8) + k) = true ↔
            let u := value (elem a.bits j w)
            let v := value (elem b.bits j w)
            [u = v, u ≠ v, u < v, u ≤ v, v < u, v ≤ u, False, True].getD (f.opx.toNat % 16) False)) ∧
    (let p := fpOf t
     let c := f.opx.toNat % 16
     let u (j : Nat) : Fp := fpDecode p (elem a.bits j w)
     let v (j : Nat) : Fp := fpDecode p (elem b.bits j w)
     let unordered (j : Nat) : Bool := (u j).isNan || (v j).isNan
     let invalid (j : Nat) : Bool := unordered j && (decide (2 ≤ c ∧ c ≤ 5) || (u j).isSnan || (v j).isSnan)
     let fl := if (List.range (2048 / w)).any fun j => act (s.vpred f) j w && invalid j then flInv else 0
     let on := fl &&& bits s.cur.csw 16 5
     a.psn = false → b.psn = false → a.tag = t → b.tag = t → t ∈ fmtF → c < 8 →
      (on ≠ 0 → Traps (.vcmp f) s 4 (fl + on * 256)) ∧
      (on = 0 → ∃ r, ∃ x m : Pred, Sys2Proof.Machine.exec (.vcmp f) s = .next r ∧
        Becomes s r { s.flaggedArch fl with flight := s.arch.flight ++ flights s.cur.t s.nextId (toP f.d x m) } ∧
        ∀ j, j < 2048 / w → ∀ k, k < w / 8 →
          m.getLsbD (j * (w / 8) + k) = act (s.vpred f) j w ∧
          (x.getLsbD (j * (w / 8) + k) = true ↔
            let i := fpKey p (elem a.bits j w)
            let l := fpKey p (elem b.bits j w)
            let o := unordered j = false
            [o ∧ i = l, ¬o ∨ i ≠ l, o ∧ i < l, o ∧ i ≤ l, o ∧ l < i, o ∧ l ≤ i, ¬o, o].getD c False))) ∧
    (a.tag = t → b.tag = t → ∃ x : Vec, Sends (.vsel f) s (toV f.d 2 x t (a.psn || b.psn)) ∧
      ∀ j, j < 2048 / w → elem x j w = elem (if act (s.vpred f) j w then a.bits else b.bits) j w) ∧
    pred (.vpand f) (s.arch.readP f.a.toNat &&& s.arch.readP f.b.toNat) ∧
    pred (.vpor f) (s.arch.readP f.a.toNat ||| s.arch.readP f.b.toNat) ∧
    pred (.vpxor f) (s.arch.readP f.a.toNat ^^^ s.arch.readP f.b.toNat) ∧
    pred (.vpnot f) (~~~ s.arch.readP f.a.toNat) ∧
    Sends (.vpcnt f) s (toS f.d 2 false (BitVec.ofNat 64 ((List.range (2048 / w)).countP on))) ∧
    ∃ n, Sends (.vpfirst f) s (toS f.d 2 false (BitVec.ofNat 64 n)) ∧
      ((∀ j, j < 2048 / w → on j = false) → n = 2048 / w) ∧
      ((∃ j, j < 2048 / w ∧ on j = true) → n < 2048 / w ∧ on n = true ∧ ∀ j, j < n → on j = false)

/-- R157 to R160, R152. The conversions write the destination format by R142 where the source's tag is the one named. VQNT writes in each
active packet the blocks that lie among its elements, quantised by R59 or R60, with the band scale and zeroed reserved bytes, keeps every
other block, ORs the flags of the blocks written into CSW, and takes FPX where one of them is enabled. VTAG writes new tags on the same
bits and VGTAG a register's tag and poison. VRNDX steps the active generators of a, writing outputs to d and states to a: inactive
elements of d follow ZERO, those of a keep their bits, a keeps its poison, and d takes that of a, and of its own old elements where it
keeps one (R14). Where the model's own readings enter: log entries 30, 31, 42, 89 and 101. -/
def Obligations.ConversionsAndTags : Prop :=
  ∀ (f : VV) (s : State),
    let t := f.fmt.toNat
    let w := fmtWidth t
    let src := f.opx.toNat % 256
    let a := s.rdV f.a
    let b := s.rdS f.b
    let random := f.rm = 5 → (s.rdV f.c).tag ∈ [0x00, 0x14, 0x15, 0x16, 0x17]
    let rp := f.rm == 5 && (s.rdV f.c).psn
    (a.tag = src → random →
      VectorResult (.vcvt f) f s 3 t w (a.psn || rp) (fun j =>
        if j < min (fmtCount src) (fmtCount t) then some (convert t src (s.rounding f t j) (elem a.bits j (fmtWidth src)))
        else none) ∧
      VectorResult (.vdqnt f) f s 3 t w (a.psn || b.psn || rp) (fun j =>
        if j < min (fmtCount t) (384 - bits b.val 0 9) then
          some (packetRound src t (s.rounding f t j) (elem a.bits ((bits b.val 0 9 + j) / 96) 512) ((bits b.val 0 9 + j) % 96))
        else none)) ∧
    (let old := s.rdV f.d
     let k := if t = 0x07 then 8 else 32
     let off := bits b.val 16 9 / k * k
     let cnt := min (min (bits b.val 32 9) (fmtCount src)) (384 - off)
     let wrote (j n : Nat) : Bool := decide (off ≤ 96 * j + k * n) && decide (96 * j + k * n < off + cnt)
     let block (j n : Nat) : Block :=
       let e := 96 * j + k * n
       quantBlock t (bits b.val 0 16) (s.vmode f) (fun i => if f.rm = 5 then elem (s.rdV f.c).bits (e + i) 4 else 0)
         ((List.range (min k (off + cnt - e))).map fun i => fpDecode (fpOf src) (elem a.bits (e + i - off) (fmtWidth src)))
     let fl := (List.range 4).foldl (fun x j => (List.range (96 / k)).foldl (fun x n =>
       if act (s.vpred f) j 512 && wrote j n then x ||| (block j n).flags else x) x) 0
     let on := fl &&& bits s.cur.csw 16 5
     let tail := if t = 0x07 then 60 else 51
     a.tag = src → random → old.tag = 0 ∨ old.tag = t → t = 0x07 ∨ t = 0x08 →
      (on ≠ 0 → Traps (.vqnt f) s 4 (fl + on * 256)) ∧
      (on = 0 → ∃ u x, Sys2Proof.Machine.exec (.vqnt f) s = .next u ∧
        Becomes s u { s.flaggedArch fl with
          flight := s.arch.flight ++ flights s.cur.t s.nextId (toV f.d 6 x t (a.psn || b.psn || old.psn || rp)) } ∧
        ∀ j, j < 4 →
          (act (s.vpred f) j 512 = false → elem x j 512 = if f.zero = 1 then 0 else elem old.bits j 512) ∧
          (act (s.vpred f) j 512 = true →
            (∀ n, n < 96 / k →
              (∀ i, i < k → elem x (128 * j + k * n + i) 4 =
                if wrote j n then nth 0 (block j n).codes i % 16 else elem old.bits (128 * j + k * n + i) 4) ∧
              elem x (64 * j + 48 + n) 8 = if wrote j n then (block j n).scale % 256 else elem old.bits (64 * j + 48 + n) 8) ∧
            ∀ q, tail ≤ q → q < 64 → elem x (64 * j + q) 8 =
              if (List.range (96 / k)).any (wrote j) then
                (if t = 0x07 ∧ q < 62 then bits b.val 0 16 / 256 ^ (q - 60) % 256 else 0)
              else elem old.bits (64 * j + q) 8))) ∧
    Sends (.vtag f) s (toV f.d 2 a.bits t a.psn) ∧
    Sends (.vgtag f) s (toS f.d 2 false (BitVec.ofNat 64 (a.tag + if a.psn then 256 else 0))) ∧
    (a.tag = 0x17 →
      let keeps := f.zero == 0 && (List.range 32).any fun j => !act (s.vpred f) j 64
      ∃ x y, Sends (.vrndx f) s (toV f.d 2 x 0x17 (a.psn || (keeps && (s.rdV f.d).psn)) ++ toV f.a 2 y 0x17 a.psn) ∧
      ∀ j, j < 32 →
        (act (s.vpred f) j 64 = true →
          elem y j 64 = (elem a.bits j 64 + 0x9E3779B97F4A7C15) % 2 ^ 64 ∧
          elem x j 64 = (smix (BitVec.ofNat 64 (elem a.bits j 64))).2.toNat) ∧
        (act (s.vpred f) j 64 = false →
          elem y j 64 = elem a.bits j 64 ∧ elem x j 64 = if f.zero = 1 then 0 else elem (s.rdV f.d).bits j 64))

/-- R164. The permutes and lane moves, element by element, by R142: no tag is checked but those of VINS's old destination and of VEXT's
source, the permutes keep the tag of a, and VBCAST, VIDX and VINS take their format's. -/
def Obligations.PermutesAndLaneMoves : Prop :=
  ∀ (f : VV) (s : State),
    let t := f.fmt.toNat
    let w := fmtWidth t
    let n := 2048 / w
    let a := s.rdV f.a
    let b := s.rdV f.b
    let h := if f.opx[0] = true then 1 else 0
    let k := f.opx.toNat % 512
    let move (i : Instr) (lat : Nat) (psn : Bool) (g : Nat → Nat) : Prop :=
      VectorResult i f s lat a.tag w psn fun j => some (g j, 0)
    move (.vmov f) 2 a.psn (fun j => elem a.bits j w) ∧
    move (.vperm f) 3 (a.psn || b.psn) (fun j => if elem b.bits j w < n then elem a.bits (elem b.bits j w) w else 0) ∧
    move (.vzip f) 3 (a.psn || b.psn)
      (fun j => if j % 2 = 0 then elem a.bits (h * (n / 2) + j / 2) w else elem b.bits (h * (n / 2) + j / 2) w) ∧
    move (.vunzip f) 3 (a.psn || b.psn)
      (fun j => if 2 * j + h < n then elem a.bits (2 * j + h) w else elem b.bits (2 * j + h - n) w) ∧
    move (.vslide f) 3 a.psn (fun j =>
      if toSigned 9 k ≤ j ∧ (j : Int) < n + toSigned 9 k then elem a.bits ((j : Int) - toSigned 9 k).toNat w else 0) ∧
    VectorResult (.vbcast f) f s 2 t w (s.rdS f.a).psn (fun _ => some ((s.rdS f.a).val.toNat, 0)) ∧
    VectorResult (.vidx f) f s 2 t w ((s.rdS f.a).psn || (s.rdS f.b).psn)
      (fun j => some ((s.rdS f.a).val.toNat + j * (s.rdS f.b).val.toNat, 0)) ∧
    ((s.rdV f.d).tag = 0 ∨ (s.rdV f.d).tag = t → k < n →
      ∃ x, Sends (.vins f) s (toV f.d 2 x t ((s.rdS f.a).psn || (s.rdV f.d).psn)) ∧
        ∀ j, j < n → elem x j w = if j = k then (s.rdS f.a).val.toNat % 2 ^ w else elem (s.rdV f.d).bits j w) ∧
    (a.tag = t → Sends (.vext f) s (toS f.d 2 a.psn (BitVec.ofNat 64 (elem a.bits k w))))

/-- R161, R162, R165, R167. The reductions write element 0 and zero the others, combining the active elements as the tree of R161 does,
and take FPX where a flag raised is enabled; a scan gives the running values; ACCRD reads an accumulator row and ACCWR writes its active
elements three issue cycles later; VSQ pops the head of its stream, waits where a running stream is empty, and gives a poisoned zero where
a stream has drained. Where the model's own readings enter: log entries 31 and 95. -/
def Obligations.ReductionsAndPorts : Prop :=
  ∀ (f : VV) (s : State),
    let t := f.fmt.toNat
    let w := fmtWidth t
    let a := s.rdV f.a
    let live := (List.range (2048 / w)).map fun j => if act (s.vpred f) j w then some (elem a.bits j w) else none
    let reduced (i : Instr) (comb : Nat → Nat → Nat × Nat) (empty : Nat) : Prop :=
      let r := reduceTree comb (Nat.log2 (2048 / w)) live
      let on := r.2 &&& bits s.cur.csw 16 5
      (on ≠ 0 → Traps i s 4 (r.2 + on * 256)) ∧
      (on = 0 → ∃ u x, Sys2Proof.Machine.exec i s = .next u ∧
        Becomes s u { s.flaggedArch r.2 with flight := s.arch.flight ++ flights s.cur.t s.nextId (toV f.d 6 x t a.psn) } ∧
        ∀ j, j < 2048 / w → elem x j w = if j = 0 then r.1.getD empty % 2 ^ w else 0)
    let kind := f.opx.toNat % 4
    let q := look {} s.arch.q (f.opx.toNat % 4)
    let kept := f.zero == 0 && (List.range (2048 / w)).any fun j => !act (s.vpred f) j w
    (a.tag = t →
      reduced (.vreda f) (sumComb t (s.vmode f)) 0 ∧
      reduced (.vredm f) (extremeComb t kind) (extremeEmpty t kind) ∧
      VectorResult (.vscan f) f s 8 t w a.psn (fun j => nth none (scanFrom (sumComb t (s.vmode f)) f.opx[0] none live) j)) ∧
    (let u := s.nameBank (accBank f)
     let row := look {} (u.core s.myCore).acc (accBank f * 128 + accRow f)
     let psn := row.psn || (kept && (s.rdV f.d).psn)
     ∃ v x, Sys2Proof.Machine.exec (.accrd f) s = .next v ∧
       v.arch.flight = u.arch.flight ++ flights s.cur.t s.nextId (toV f.d 5 x t psn) ∧
       v.arch.csw = s.arch.csw ∧ v.cores = u.cores ∧ v.mem = s.mem ∧
       ∀ j, j < 2048 / w → elem x j w =
         if act (s.vpred f) j w then elem row.bits j w else if f.zero = 1 then 0 else elem (s.rdV f.d).bits j w) ∧
    (a.tag = t → ∃ v m full, Sys2Proof.Machine.exec (.accwr f) s = .next v ∧
      v.arch.flight = (s.nameBank (accBank f)).arch.flight ++
        flights s.cur.t s.nextId [(3, .acc (accBank f) (accRow f) a.bits m a.psn full)] ∧
      v.cores = (s.nameBank (accBank f)).cores ∧ v.mem = s.mem ∧
      (∀ j, j < 2048 / w → elem m j w = if act (s.vpred f) j w then 2 ^ w - 1 else 0) ∧
      (full = true ↔ ∀ j, j < 2048 / w → act (s.vpred f) j w = true)) ∧
    (w = 8 * 2 ^ q.esz.toNat →
      (∀ e rest, q.fifo = e :: rest → ∃ u x, Sys2Proof.Machine.exec (.vsq f) s = .next u ∧
        Becomes s u { s.arch with
          q := put {} s.arch.q (f.opx.toNat % 4) { q with fifo := rest }
          flight := s.arch.flight ++ flights s.cur.t s.nextId (toV f.d 2 x t (e.psn || (kept && (s.rdV f.d).psn))) } ∧
        ∀ j, j < 2048 / w → elem x j w =
          if act (s.vpred f) j w then elem e.bits j w else if f.zero = 1 then 0 else elem (s.rdV f.d).bits j w) ∧
      (q.fifo = [] → q.state ≠ 1 → Sends (.vsq f) s (toV f.d 2 0 t true)) ∧
      (q.fifo = [] → q.state = 1 → StandsBack (.vsq f) s s))

/-! ### Memory access (spec/07) -/

/-- R169, R174, R175, R171, R172. The scratchpad: an address that is not well formed ends the task with SPADDR, a poisoned base takes
MCHK; a load lands what the bytes hold, poisoned with a zero value where a unit is marked; a store writes its bytes and no others, or
poisons the units it touches, and sets F_PSN, or takes PSN where that is enabled. The access comes behind the context's earlier ones:
those that were put off have their points in T first, and where one of them must wait, so does the bundle. -/
def Obligations.ScratchpadAccesses : Prop :=
  ∀ (f : LP) (s : State),
    let a := ((s.rdS f.a).val + f.off.zeroExtend 64).toNat
    let n := 2 ^ f.size.toNat
    let k := s.cur.ctx
    let ok (n al : Nat) : Prop := a + n ≤ 0x100000 ∧ a % al = 0
    let loads (i : Instr) (l : Mem → List (Nat × FlightDst)) : Prop :=
      let r := s.inOrder k
      (s.me.late = [] → r = s) ∧ (r.owesLate k = true → StandsBack i s r) ∧
      (r.owesLate k = false → ∃ t, Sys2Proof.Machine.exec i s = .next t ∧ Becomes r t (r.sent (l (r.core r.myCore).spm)))
    let stores (i : Instr) (bs : List Byte) (psn : Bool) (info : Nat) : Prop :=
      let r := (s.notedPsn psn).inOrder k
      let m := (r.core r.myCore).spm
      StopsPoison i s psn info ∧
      ((psn = true → s.cur.csw.getLsbD 23 = false) →
        (s.me.late = [] → r = s.notedPsn psn) ∧ (r.owesLate k = true → StandsBack i s r) ∧
        (r.owesLate k = false → ∃ t, Sys2Proof.Machine.exec i s = .next t ∧
          t = { r with cores := t.cores } ∧ (∀ c, c ≠ r.myCore → t.core c = r.core c) ∧
          ∃ m' : Mem, t.core r.myCore = { r.core r.myCore with spm := m' } ∧
            (∀ b, m'.byte b =
              if psn then (if b / 8 ∈ unitsOf a bs.length then 0 else m.byte b)
              else if a ≤ b ∧ b < a + bs.length then nth 0 bs (b - a) else m.byte b) ∧
            ∀ u, m'.mark u =
              if psn then (m.mark u || decide (u ∈ unitsOf a bs.length))
              else m.mark u && !decide (a ≤ 8 * u ∧ 8 * u + 8 ≤ a + bs.length)))
    ((s.rdS f.a).psn = true → ∀ i ∈ [Instr.lds f, .ldsv f, .sts f, .stsv f], Traps i s 9 f.a.toNat) ∧
    ((s.rdS f.a).psn = false →
      (¬ok n n → Dies (.lds f) s 7 ∧ Dies (.sts f) s 7) ∧
      (¬ok 256 64 → Dies (.ldsv f) s 7 ∧ Dies (.stsv f) s 7) ∧
      (ok n n →
        loads (.lds f) (fun m => toS f.d 4 (m.poisoned a n) (BitVec.ofNat 64 (leNat (m.bytes a n)))) ∧
        stores (.sts f) (leBytes n (s.rdS f.b).val.toNat) (s.rdS f.b).psn f.b.toNat) ∧
      (ok 256 64 →
        loads (.ldsv f) (fun m => toV f.d 6 (BitVec.ofNat 2048 (leNat (m.bytes a 256))) f.b.toNat (m.poisoned a 256)) ∧
        stores (.stsv f) (leBytes 256 (s.rdV f.b).bits.toNat) (s.rdV f.b).psn (f.b.toNat + 64)))

/-- R168, R22, R274, R292. The checks of an access of `n` bytes at an offset through an extent slot with the pages of its runs, in their
order: EXTENT, ALIGN, RDONLY, for a write RDONLY on a page of a sealed image, and PRIVATE. A page that the runs do not hold fails as one
outside the extent (the model's reading, log entry 33). -/
def Obligations.ExtentChecks : Prop :=
  ∀ (s : State) (ps : List Page) (e : BitVec 128) (off : Int) (n align : Nat) (write : Bool),
    let base : Nat := (e.toNat / 2 ^ 73) % 2 ^ 55
    let len : Nat := (e.toNat / 2 ^ 25) % 2 ^ 48
    let code := s.checkExt s.myCore ps e off n align write
    let at_ (p : Nat) : Option Page := pageOf ps p
    let pages := pagesOf (base + off.toNat) n
    (e.getLsbD 24 = false → code = 3) ∧
    (e.getLsbD 24 = true → (off < 0 ∨ (len : Int) < off + n) → code = 3) ∧
    (e.getLsbD 24 = true → 0 ≤ off → off + n ≤ (len : Int) →
      (off.toNat % align ≠ 0 → code = 4) ∧
      (off.toNat % align = 0 → write = true → e.getLsbD 23 = false → code = 5) ∧
      (off.toNat % align = 0 → (write = true → e.getLsbD 23 = true) →
        ((∃ p ∈ pages, at_ p = none) → code = 3) ∧
        ((∀ p ∈ pages, at_ p ≠ none) →
          (write = true → (∃ p ∈ pages, ∃ l, at_ p = some l ∧ l.frame ∈ s.imagePages) → code = 5) ∧
          ((write = true → ∀ p ∈ pages, ∀ l, at_ p = some l → l.frame ∉ s.imagePages) →
            ((∃ p ∈ pages, ∃ l, at_ p = some l ∧ l.cls = 2 ∧ l.owner ≠ s.myCore) → code = 6) ∧
            ((∀ p ∈ pages, ∀ l, at_ p = some l → l.cls = 2 → l.owner = s.myCore) → code = 0)))))

/-- R168, R170, R171, R173, R177, R288. LDM and LDMV: a poisoned offset takes MCHK, and so does a poisoned extent slot; a failed check
ends the task, a watch register that matches takes WATCH. An access that the device puts off, or that own updates or a merge hold back,
joins the context's accesses whose points in T are still to come, with its destination pending for it; else the destination is pending for
the bytes that the context sees once its own updates to them are made (where it has none, at once), and no byte changes. R178, R275. LDMS
and LDMVS: where a check fails the destination is pending for poison with zero value bits, the counter of poison counts it, and nothing
else happens; where none fails they load as LDM and LDMV do. Where the model's own readings enter: log entries 14, 18, 112 and 114. -/
def Obligations.ExtentLoads : Prop :=
  (∀ (f : LM) (s : State),
    let ps := s.lmPages f
    let va := s.lmVa f
    let n := 2 ^ f.size.toNat
    let k := s.cur.ctx
    let load (i : Instr) (n al : Nat) (dst : SbDst) (form : LoadForm) (made : List Byte → Bool → Payload) : Prop :=
      let us := urefs ps va n
      let off (r : State) : Late := { id := r.nextId, refs := us, va := va, n := n, op := .load form false, old := r.misses }
      let pends (r : State) : List SbEntry := [{ dst := dst, what := .late r.nextId }]
      ((s.rdS f.a).psn = true → Traps i s 9 f.a.toNat) ∧
      ((s.rdS f.a).psn = false → f.slot.toNat ∈ s.arch.eBad → SlotPoisoned i s f.slot.toNat) ∧
      ((s.rdS f.a).psn = false → f.slot.toNat ∉ s.arch.eBad →
        StopsAt i s (s.lmCheck f n al false) (s.watchHit [(va, n)] true false) ∧
        (s.lmCheck f n al false = 0 → s.watchHit [(va, n)] true false = none →
          (s.quiet k → s.ready k s.nextId us = (s, true)) ∧
          (s.delays = true → JoinsLate i s s (off s) (pends s) s.arch) ∧
          (s.delays = false → s.me.late = [] → ∀ r : State,
            (s.ready k s.nextId us = (r, false) → JoinsLate i s r (off r) (pends r) r.arch) ∧
            (s.ready k s.nextId us = (r, true) → r.misses = false →
              let x := r.seenBytes k ps va n
              LoadsAt i s r dst (made x.1 x.2) r.arch.poisons))))
    load (.ldm f) n n (.s f.d.toNat) .scalar
      (fun bs psn => .scalar { val := if psn then 0 else BitVec.ofNat 64 (leNat bs), psn := psn }) ∧
    load (.ldmv f) 256 8 (.v (f.d.toNat % 32)) (.vector f.b.toNat)
      (fun bs psn => .vector { bits := if psn then 0 else BitVec.ofNat 2048 (leNat bs), tag := f.b.toNat, psn := psn })) ∧
  (∀ (f : LM) (s : State),
    let ps := s.lmPages f
    let va := s.lmVa f
    let n := 2 ^ f.size.toNat
    let k := s.cur.ctx
    let up (x : Nat) : Nat := if x < 0xFFFFFFFF then x + 1 else x
    let load (i : Instr) (n al : Nat) (dst : SbDst) (form : LoadForm) (made : List Byte → Bool → Payload) : Prop :=
      let us := urefs ps va n
      let off (r : State) : Late := { id := r.nextId, refs := us, va := va, n := n, op := .load form true, old := r.misses }
      let pends (r : State) : List SbEntry := [{ dst := dst, what := .late r.nextId }]
      ((s.rdS f.a).psn = true → Traps i s 9 f.a.toNat) ∧
      ((s.rdS f.a).psn = false → f.slot.toNat ∈ s.arch.eBad → SlotPoisoned i s f.slot.toNat) ∧
      ((s.rdS f.a).psn = false → f.slot.toNat ∉ s.arch.eBad →
        (s.lmCheck f n al false ≠ 0 → LoadsAt i s s dst (made [] true) (up s.arch.poisons)) ∧
        (s.lmCheck f n al false = 0 → ∀ w, s.watchHit [(va, n)] true false = some w → Traps i s 8 w) ∧
        (s.lmCheck f n al false = 0 → s.watchHit [(va, n)] true false = none →
          (s.delays = true → JoinsLate i s s (off s) (pends s) s.arch) ∧
          (s.delays = false → s.me.late = [] → ∀ r : State,
            (s.ready k s.nextId us = (r, false) → JoinsLate i s r (off r) (pends r) r.arch) ∧
            (s.ready k s.nextId us = (r, true) → r.misses = false →
              let x := r.seenBytes k ps va n
              LoadsAt i s r dst (made x.1 x.2) (if x.2 then up r.arch.poisons else r.arch.poisons)))))
    load (.ldms f) n n (.s f.d.toNat) .scalar
      (fun bs psn => .scalar { val := if psn then 0 else BitVec.ofNat 64 (leNat bs), psn := psn }) ∧
    load (.ldmvs f) 256 8 (.v (f.d.toNat % 32)) (.vector f.b.toNat)
      (fun bs psn => .vector { bits := if psn then 0 else BitVec.ofNat 2048 (leNat bs), tag := f.b.toNat, psn := psn }))

/-- R168, R170, R172, R173, R177, R288. STM and STMV: a poisoned offset or extent slot takes MCHK; then the checks, and PSN for poisoned
data where it is enabled. A store that the device puts off, or that something holds back, joins the context's accesses whose points in T
are still to come; else its bytes are where the slot, the offset and the pages of its runs say, and every other byte of memory, and every
mark of a unit not covered whole, stands (where no error has spoiled an L1's clean copy, R288). Where the model's own readings enter: log
entries 14, 18, 112 and 114. -/
def Obligations.ExtentStores : Prop :=
  ∀ (f : LM) (s : State),
    let ps := s.lmPages f
    let va := s.lmVa f
    let n := 2 ^ f.size.toNat
    let k := s.cur.ctx
    let store (i : Instr) (bs : List Byte) (al : Nat) (psn : Bool) (info : Nat) : Prop :=
      let code := s.lmCheck f bs.length al true
      let hit := s.watchHit [(va, bs.length)] false true
      let us := urefs ps va bs.length
      let off (r : State) : Late := { id := r.nextId, refs := us, va := va, n := bs.length, op := .store bs psn, old := r.misses }
      ((s.rdS f.a).psn = true → Traps i s 9 f.a.toNat) ∧
      ((s.rdS f.a).psn = false → f.slot.toNat ∈ s.arch.eBad → SlotPoisoned i s f.slot.toNat) ∧
      ((s.rdS f.a).psn = false → f.slot.toNat ∉ s.arch.eBad →
        StopsAt i s code hit ∧
        (code = 0 → hit = none → StopsPoison i s psn info ∧
          ((psn = true → s.cur.csw.getLsbD 23 = false) →
            (s.quiet k → s.ready k s.nextId us = (s, true)) ∧
            (s.delays = true → ∃ w, JoinsLate i s (s.notedPsn psn) (off (s.notedPsn psn)) [] { (s.notedPsn psn).arch with wrote := w }) ∧
            (s.delays = false → s.me.late = [] → ∀ r : State,
              ((s.notedPsn psn).ready k s.nextId us = (r, false) → ∃ w, JoinsLate i s r (off r) [] { r.arch with wrote := w }) ∧
              ((s.notedPsn psn).ready k s.nextId us = (r, true) → r.unspoiled → StoresAt i s r ps va bs psn)))))
    store (.stm f) (leBytes n (s.rdS f.b).val.toNat) n (s.rdS f.b).psn f.b.toNat ∧
    store (.stmv f) (leBytes 256 (s.rdV f.b).bits.toNat) 8 (s.rdV f.b).psn (f.b.toNat + 64)

/-- R70. The conditions that a descriptor's own fields must meet. R73, R74. The representative mapping: over the factors in the order of
their lowest slots, the index is the mixed-radix number of the factors' indices, the sign and the multiplicity are their products, and a
factor of sign 0 makes the element a structural zero; each factor maps its own indices as R74's fmap does. R179, R180, R70, R71, R75, R77,
R78, R356. LDT and STT through a descriptor, in their order: MCHK for a poisoned index vector or extent slot, FMT for its tag, the check
of the descriptor's location, BADDESC for one that is malformed, INDEX, the checks of the representative, which lies where R75 says, and
WATCH. A load is pending for the element's value, negated where its sign is negative, +0 where it is structurally zero; a store writes the
representative; to a structurally zero element a zero is dropped, and another value takes SYMV or sets F_SYMV. Where the model's own
readings enter: log entries 14, 34, 110, 111, 112, 114 and 115. -/
def Obligations.TensorElements : Prop :=
  (∀ d : Desc,
    let kind (g : Nat) := d.groupKind g
    let slots (g : Nat) := maskSlots (d.groupMask g)
    let n (g : Nat) := d.extOf ((slots g).headD 0)
    d.formOk = true ↔ d.clean = true ∧ (d.bkind = false → bits d.base 56 72 = 0 ∧ bits d.base 4 4 = 0) ∧
      1 ≤ d.rank ∧ d.rank ≤ 8 ∧ (∀ j, j < 8 → (d.extOf j ≠ 0 ↔ j < d.rank)) ∧
      (1 ≤ d.fmt ∧ d.fmt ≤ 8 ∨ 0x10 ≤ d.fmt ∧ d.fmt ≤ 0x17) ∧
      (∀ g, g < 4 → bits d.sym (16 * g + 11) 5 = 0 ∧ kind g ≤ 5 ∧ (kind g = 0 ↔ d.groupMask g = 0) ∧ (∀ j ∈ slots g, j < d.rank) ∧
        (kind g ∈ [1, 2, 3] → ∀ j ∈ slots g, d.extOf j = n g) ∧ (kind g ∈ [1, 2] → 2 ≤ (slots g).length) ∧
        (kind g = 2 → (slots g).length ≤ n g) ∧ (kind g = 3 → (slots g).length = 2) ∧ (kind g ∈ [4, 5] → (slots g).length = 1) ∧
        (kind g = 5 → 2 ≤ n g) ∧ (kind g ∈ [2, 5] → d.fmt < 0x14)) ∧
      (∀ g h, g < 4 → h < 4 → g ≠ h → d.groupMask g &&& d.groupMask h = 0) ∧
      (d.fmt = 7 ∨ d.fmt = 8 → 2 ≤ d.rank ∧ ∀ g, g < 4 → 0 ∉ slots g) ∧
      d.rcount = d.factors.foldl (fun c f => c * f.count) 1 ∧ d.rcount < 2 ^ 48) ∧
  (∀ (d : Desc) (idx : List Nat),
    let fs := d.factors
    let at_ (i : Nat) : Mapped := nth { k := 0, s := 1, m := 1 } (fs.map fun f => f.map idx) i
    let scale (i : Nat) : Nat := (fs.take i).foldl (fun c f => c * f.count) 1
    ((∃ f ∈ fs, (f.map idx).s = 0) → (d.map idx).s = 0) ∧
    ((∀ f ∈ fs, (f.map idx).s ≠ 0) →
      (d.map idx).s = fs.foldl (fun c f => c * (f.map idx).s) 1 ∧ (d.map idx).m = fs.foldl (fun c f => c * (f.map idx).m) 1 ∧
      (d.map idx).k = (List.range fs.length).foldl (fun c i => c + (at_ i).k * scale i) 0) ∧
    ∀ f ∈ fs,
      let v := f.slots.map (nth 0 idx)
      let x := nth 0 v 0
      let k := v.length
      let c := f.n - 1 - x
      let m := f.map idx
      let ups := ((List.range k).map fun a => (List.range k).countP fun b => decide (a < b) && decide (nth 0 v a < nth 0 v b)).sum
      (f.kind = .free → m = { k := x, s := 1, m := 1 }) ∧
      (f.kind = .sym → m.s = 1 ∧ ∃ u : List Nat, u.Perm v ∧ u.Pairwise (fun y z => z ≤ y) ∧
        m.k = ((List.range k).map fun t => choose (nth 0 u t + (k - 1 - t)) (k - t)).sum) ∧
      (f.kind = .anti → (¬v.Nodup → m.s = 0) ∧ (v.Nodup → m.m = factorial k ∧ m.s = (if ups % 2 = 0 then 1 else -1) ∧
        ∃ u : List Nat, u.Perm v ∧ u.Pairwise (fun y z => z < y) ∧
          m.k = ((List.range k).map fun t => choose (nth 0 u t) (k - t)).sum)) ∧
      (f.kind = .cyc → m = { k := (nth 0 v 1 + f.n - x) % f.n, s := 1, m := f.n }) ∧
      (f.kind = .even → m = { k := min x c, s := 1, m := if x = c then 1 else 2 }) ∧
      (f.kind = .odd → (x = c → m.s = 0) ∧ (x ≠ c → m = { k := min x c, s := if c < x then -1 else 1, m := 2 }))) ∧
  ∀ (f : LT) (s : State),
    let k := s.cur.ctx
    let v := s.rdV f.a
    let b := s.rdS f.b
    let e := s.arch.extent f.slot.toNat
    let ps := s.arch.slotPages f.slot.toNat
    let at_ := s.checkExt s.myCore ps e f.disp.toInt 64 64 false
    let x := s.seenBytes k ps (extBase e + f.disp.toInt.toNat) 64
    let d := descOf x.1
    let es := s.arch.extent d.eslot
    let on := s.arch.slotPages d.eslot
    let idx := (List.range d.rank).map fun j => elem v.bits j 32
    let m := d.map idx
    let size := if d.packet then 64 else fmtBytes d.fmt
    let rows := (d.extOf 0 + 95) / 96
    let off := d.offset + if d.packet then 64 * (m.k / d.extOf 0 * rows + m.k % d.extOf 0 / 96) else m.k * size
    let va := extBase es + off
    let t : TensorAt := { d := d, m := m, off := off, size := size }
    let good (write : Bool) : Prop :=
      x.2 = false ∧ d.formOk = true ∧ d.bkind = false ∧ es.getLsbD 24 = true ∧ (extBase es + d.offset) % d.align = 0 ∧
      d.offset + d.span ≤ extLen es ∧ (write = true → d.packet = false)
    let within : Prop := ∀ j, j < d.rank → nth 0 idx j < d.extOf j
    let code (write : Bool) : Nat := s.checkExt s.myCore on es off size size write
    let reach (write : Bool) : Prop := m.s ≠ 0 → code write = 0
    let both (p : Instr → Prop) : Prop := p (.ldt f) ∧ p (.stt f)
    (v.psn = true → both fun i => Traps i s 9 (f.a.toNat + 64)) ∧
    (v.psn = false → f.slot.toNat ∈ s.arch.eBad → both fun i => SlotPoisoned i s f.slot.toNat) ∧
    (v.psn = false → f.slot.toNat ∉ s.arch.eBad → v.tag ≠ 0x30 → v.tag ≠ 0x16 →
      both fun i => Traps i s 1 (f.a.toNat + v.tag * 256 + 0xFF * 65536)) ∧
    (v.psn = false → f.slot.toNat ∉ s.arch.eBad → v.tag = 0x30 ∨ v.tag = 0x16 →
      (at_ ≠ 0 → both fun i => Dies i s at_) ∧
      (at_ = 0 → s.quiet k → s.misses = false →
        (∀ q ∈ [(Instr.ldt f, false), (Instr.stt f, true)],
          (¬good q.2 → Dies q.1 s 9) ∧ (good q.2 → ¬within → Dies q.1 s 8) ∧
          (good q.2 → within → m.s ≠ 0 → code q.2 ≠ 0 → Dies q.1 s (code q.2))) ∧
        (good false → within → reach false →
          (m.s = 0 → LoadsAt (.ldt f) s s (.s f.d.toNat) (.scalar {}) s.arch.poisons) ∧
          (m.s ≠ 0 →
            let hit := s.watchHit ((tensorRanges t va).take 1) true false
            let l := s.seenBytes k on va size
            let psn := (tensorRanges t va).any fun q => (s.seenBytes k on q.1 q.2).2
            let neg := decide (m.s < 0)
            let value : Nat :=
              if d.packet then
                let y := packetDecode d.fmt (leNat l.1) (m.k % d.extOf 0 % 96)
                (fpRound (fpOf 0x02) rne (if neg then y.neg else y)).1
              else if neg then negElem d.fmt (leNat l.1) else leNat l.1
            (∀ w, hit = some w → TrapsAfterRead (.ldt f) s 8 w) ∧
            (hit = none → s.delays = true → ∃ r l, OnlyAccess s r ∧ r.mem = s.mem ∧ r.ctxs = s.ctxs ∧ StandsBut s r (fun _ => False) ∧
              l.refs = urefs on va size ∧ l.op = .load (t.form va) false ∧
              JoinsLate (.ldt f) s r l [{ dst := .s f.d.toNat, what := .late l.id }] r.arch) ∧
            (hit = none → s.delays = false →
              LoadsAt (.ldt f) s s (.s f.d.toNat) (.scalar { val := if psn then 0 else BitVec.ofNat 64 value, psn := psn }) s.arch.poisons))) ∧
        (good true → within → reach true →
          let w := fmtWidth d.fmt
          let y := b.val.toNat % 2 ^ w
          let zero := b.psn = false ∧ (if d.fmt ∈ fmtFloat then y % 2 ^ (w - 1) = 0 else y = 0)
          let hit := s.watchHit [(va, size)] false true
          (m.s = 0 → zero →
            ∃ u, Sys2Proof.Machine.exec (.stt f) s = .next u ∧ OnlyAccess s u ∧ u.mem = s.mem ∧ u.me = s.me ∧
              StandsBut s u fun _ => False) ∧
          (m.s = 0 → ¬zero → s.cur.csw.getLsbD 21 = true →
            TrapsAfterRead (.stt f) s 3 (f.a.toNat + f.slot.toNat * 64 + f.disp.toNat * 1024)) ∧
          (m.s = 0 → ¬zero → s.cur.csw.getLsbD 21 = false →
            ∃ u, Sys2Proof.Machine.exec (.stt f) s = .next u ∧ OnlyAccess s u ∧ u.mem = s.mem ∧
              u.me = { s.me with arch := { s.arch with csw := s.arch.csw ||| BitVec.ofNat 64 (2 ^ 13) } } ∧
              StandsBut s u fun _ => False) ∧
          (m.s ≠ 0 →
            (∀ w, hit = some w → TrapsAfterRead (.stt f) s 8 w) ∧
            (hit = none →
              (b.psn = true → s.cur.csw.getLsbD 23 = true → TrapsAfterRead (.stt f) s 5 f.b.toNat) ∧
              ((b.psn = true → s.cur.csw.getLsbD 23 = false) → s.delays = true → ∃ r l w, OnlyAccess (s.notedPsn b.psn) r ∧
                r.mem = s.mem ∧ r.ctxs = (s.notedPsn b.psn).ctxs ∧ StandsBut s r (fun _ => False) ∧ l.refs = urefs on va size ∧
                l.op = .store (leBytes size (if m.s < 0 then negElem d.fmt y else y)) b.psn ∧
                JoinsLate (.stt f) s r l [] { r.arch with wrote := w }) ∧
              ((b.psn = true → s.cur.csw.getLsbD 23 = false) → s.delays = false → s.unspoiled →
                StoresAt (.stt f) s (s.notedPsn b.psn) on va (leBytes size (if m.s < 0 then negElem d.fmt y else y)) b.psn))))))

/-- R168, R170, R172, R188, R189. The fifteen atomics. An offset or an extent slot that is poisoned takes MCHK, a failed check ends the
task, poisoned data take PSN where it is enabled. One that nothing orders or holds back, and that the device does not put off, is made at
once: its location takes the value of R189's table, no other byte changes, and its destination is pending for the old value; a marked
location is left as it is and answers poison; poisoned data mark it. R192. NCAS: the pair of b replaces the 16 bytes just where they equal
the pair of d, and the pair of registers at d is pending for the old value; a marked location is left and answers poison; poisoned data
mark both units. Where the model's own readings enter: log entries 14, 37, 38, 112 and 114. -/
def Obligations.AtomicResults : Prop :=
  (∀ (f : LM) (s : State), f.size = 2 ∨ f.size = 3 →
    let n := 2 ^ f.size.toNat
    let w := 8 * n
    let p := if f.size = 3 then fpOf 0x01 else fpOf 0x02
    let sg (x : Nat) : Int := toSigned w x
    let va := s.lmVa f
    let code := s.lmCheck f n n true
    let hit := s.watchHit [(va, n)] true true
    let pa := (placeIn (s.lmPages f) va).1
    let old := s.mem.nat pa n
    let b := (s.rdS f.b).val.toNat % 2 ^ w
    let d := (s.rdS f.d).val.toNat % 2 ^ w
    let x (y : Nat) : Fp := fpDecode p y
    let ints : List (Instr × Nat) := [
      (.aadd f, (old + b) % 2 ^ w), (.amins f, if sg b < sg old then b else old), (.amaxs f, if sg old < sg b then b else old),
      (.aminn f, min old b), (.amaxn f, max old b), (.aand f, old &&& b), (.aor f, old ||| b), (.axor f, old ^^^ b),
      (.axchg f, b), (.acas f, if old = d then b else old)]
    let floats : List (Instr × Nat) := [
      (.afadd f, (opAdd p rne (x old) (x b)).1), (.afmin f, (opMinMax p false false old b).1),
      (.afmax f, (opMinMax p true false old b).1), (.afminp f, (opMinMax p false true old b).1),
      (.afmaxp f, (opMinMax p true true old b).1)]
    ∀ q ∈ ints ++ floats,
      let i := q.1
      let psn := (s.rdS f.b).psn || (decide (i = .acas f) && (s.rdS f.d).psn)
      ((s.rdS f.a).psn = true → Traps i s 9 f.a.toNat) ∧
      ((s.rdS f.a).psn = false → f.slot.toNat ∈ s.arch.eBad → SlotPoisoned i s f.slot.toNat) ∧
      ((s.rdS f.a).psn = false → f.slot.toNat ∉ s.arch.eBad →
        StopsAt i s code hit ∧
        (code = 0 → hit = none →
          (psn = true → s.cur.csw.getLsbD 23 = true → Traps i s 5 (if (s.rdS f.b).psn then f.b.toNat else f.d.toNat)) ∧
          ((psn = true → s.cur.csw.getLsbD 23 = false) → va % n = 0 → f.ord = 0 → (q ∈ floats → s.arch.info.det = false) →
            s.quiet s.cur.ctx → s.uncached → s.unspoiled → (∀ o ∈ s.openSeqs, o.det = false) →
            s.arch.info.record = false → s.arch.info.replay = false → f.nr = 0 →
            (s.delays = true → ∃ t u, Sys2Proof.Machine.exec i s = .next t ∧ t.mem = s.mem ∧ t.cores = s.cores ∧
              t.updates = s.updates ++ [u] ∧ u.id = s.nextId ∧ u.pa = pa ∧ u.val = b ∧ u.psn = psn ∧ u.ret = true ∧ u.n = none ∧
              t.me.late = s.me.late ++ [{ id := s.nextId, refs := urefs (s.lmPages f) va n, op := .atomic }] ∧
              t.me.sb = s.me.sb ++ [{ dst := .s f.d.toNat, what := .update s.nextId }]) ∧
            (s.delays = false → ∃ t, ∃ r : SReg, Sys2Proof.Machine.exec i s = .next t ∧
              t = { s with
                mem := t.mem, ctxs := t.ctxs, hidden := t.hidden, updates := t.updates, nextId := s.nextId + 1 } ∧
              t.updates = s.updates.filter (fun v => v.id != s.nextId) ∧
              (∀ k, k ≠ s.cur.ctx → t.ctx k = s.ctx k) ∧
              t.me = { s.me with
                sb := s.me.sb.map (landUpdate s.nextId r) ++ [{ dst := .s f.d.toNat, what := .scalar r }]
                arch := { (s.notedPsn psn).arch with wrote := t.arch.wrote, logN := t.arch.logN } } ∧
              (psn = true → r = { psn := true } ∧ t.mem.mark (pa / 8) = true ∧
                ∀ a, t.mem.byte a = if a / 8 = pa / 8 then 0 else s.mem.byte a) ∧
              (psn = false → s.mem.mark (pa / 8) = true → r = { psn := true } ∧ t.mem = s.mem) ∧
              (psn = false → s.mem.mark (pa / 8) = false → r = { val := BitVec.ofNat 64 old } ∧
                (∀ u, t.mem.mark u = s.mem.mark u) ∧
                ∀ a, t.mem.byte a = if pa ≤ a ∧ a < pa + n then nth 0 (leBytes n q.2) (a - pa) else s.mem.byte a)))))) ∧
  (∀ (f : LX) (s : State),
    let va := s.lxVa f
    let code := s.checkExt s.myCore (s.lxPages f) (s.lxExt f) (s.lxOff f) 16 16 true
    let hit := s.watchHit [(va, 16)] true true
    let u := (placeIn (s.lxPages f) va).1 / 8
    let word (v : Nat) : Word := BitVec.ofNat 64 (s.mem.nat (8 * v) 8)
    let want (r : BitVec 6) : BitVec 128 := (s.rdS (r + 1)).val ++ (s.rdS r).val
    let psn := (s.rdS f.b).psn || (s.rdS (f.b + 1)).psn || (s.rdS f.d).psn || (s.rdS (f.d + 1)).psn
    let marked := s.mem.mark u || s.mem.mark (u + 1)
    ((s.rdS f.a).psn = true → Traps (.ncas f) s 9 f.a.toNat) ∧
    ((s.rdS f.a).psn = false → f.slot.toNat ∈ s.arch.eBad → SlotPoisoned (.ncas f) s f.slot.toNat) ∧
    ((s.rdS f.a).psn = false → f.slot.toNat ∉ s.arch.eBad → StopsAt (.ncas f) s code hit ∧
      (code = 0 → hit = none → psn = true → s.cur.csw.getLsbD 23 = true → Traps (.ncas f) s 5
        ((if (s.rdS f.b).psn || (s.rdS (f.b + 1)).psn then f.b else f.d).toNat % 64 + 128)) ∧
      (code = 0 → hit = none → (psn = true → s.cur.csw.getLsbD 23 = false) → s.delays = true →
        ∃ w, JoinsLate (.ncas f) s (s.notedPsn psn)
          { id := s.nextId, refs := urefs (s.lxPages f) va 16, va := va, n := 16, old := s.misses
            op := .ncas (s.rdS f.d).val (s.rdS (f.d + 1)).val (s.rdS f.b).val (s.rdS (f.b + 1)).val psn }
          [{ dst := .pair f.d.toNat, what := .late s.nextId }] { (s.notedPsn psn).arch with wrote := w }) ∧
      (code = 0 → hit = none → (psn = true → s.cur.csw.getLsbD 23 = false) → va % 16 = 0 → s.delays = false → s.quiet s.cur.ctx →
        s.uncached → s.unspoiled →
        ∃ t, ∃ lo hi : Word, ∃ q : Bool, Sys2Proof.Machine.exec (.ncas f) s = .next t ∧
          t = { s with mem := t.mem, ctxs := t.ctxs, hidden := t.hidden } ∧ (∀ k, k ≠ s.cur.ctx → t.ctx k = s.ctx k) ∧
          t.me = { s.me with
            sb := s.me.sb ++ [{ dst := .pair f.d.toNat, what := .pair lo hi q }]
            arch := { (s.notedPsn psn).arch with wrote := t.arch.wrote } } ∧
          q = (psn || marked) ∧ (q = true → lo = 0 ∧ hi = 0) ∧ (q = false → lo = word u ∧ hi = word (u + 1)) ∧
          (psn = true → t.mem.mark u = true ∧ t.mem.mark (u + 1) = true ∧
            ∀ a, t.mem.byte a = if a / 8 = u ∨ a / 8 = u + 1 then 0 else s.mem.byte a) ∧
          (psn = false → ∀ v, t.mem.mark v = s.mem.mark v) ∧
          (psn = false → (marked = true ∨ word (u + 1) ++ word u ≠ want f.d) → ∀ a, t.mem.byte a = s.mem.byte a) ∧
          (psn = false → marked = false → word (u + 1) ++ word u = want f.d → ∀ a, t.mem.byte a =
            if 8 * u ≤ a ∧ a < 8 * u + 16 then nth 0 (leBytes 16 (want f.b).toNat) (a - 8 * u) else s.mem.byte a))))

/-- R190, R191, R305. A no-return atomic, and one that is ordered, is sent on its way: one update to the location, with its operand and,
where it is ordered (always for the float ones in a deterministic node), the next number of the context's key; a destination that it has
is pending for it. Where the model's own readings enter: log entries 14, 18 and 37. -/
def Obligations.AtomicsOnTheirWay : Prop :=
  ∀ (f : LM) (s : State), f.size = 2 ∨ f.size = 3 →
    let n := 2 ^ f.size.toNat
    let va := s.lmVa f
    let floats := [Instr.afadd f, .afmin f, .afmax f, .afminp f, .afmaxp f]
    let ints := [Instr.aadd f, .amins f, .amaxs f, .aminn f, .amaxn f, .aand f, .aor f, .axor f, .axchg f, .acas f]
    (s.rdS f.a).psn = false → f.slot.toNat ∉ s.arch.eBad → s.lmCheck f n n true = 0 → s.watchHit [(va, n)] true true = none →
    ∀ i ∈ ints ++ floats,
      let ordered := f.ord = 1 ∨ (i ∈ floats ∧ s.arch.info.det = true)
      let psn := (s.rdS f.b).psn || (decide (i = .acas f) && (s.rdS f.d).psn)
      (psn = true → s.cur.csw.getLsbD 23 = false) → (f.nr = 1 ∨ ordered) →
      ∃ t u, Sys2Proof.Machine.exec i s = .next t ∧ t.updates = s.updates ++ [u] ∧
        u.id = s.nextId ∧ u.owner = some s.cur.ctx ∧ u.pa = (placeIn (s.lmPages f) va).1 ∧ u.va = va ∧ u.status = .transit ∧
        u.cmp = (s.rdS f.d).val.toNat % 2 ^ (8 * n) ∧
        u.val = (s.rdS f.b).val.toNat % 2 ^ (8 * n) ∧ u.psn = psn ∧ u.ret = decide (f.nr = 0) ∧
        (ordered → u.n = some s.arch.ordN ∧ t.arch.ordN = s.arch.ordN + 1) ∧
        (¬ordered → u.n = none ∧ t.arch.ordN = s.arch.ordN) ∧
        (∀ k, k ≠ s.cur.ctx → t.ctx k = s.ctx k) ∧
        t.me = { s.me with
          sb := s.me.sb ++ (if f.nr = 1 then [] else [{ dst := .s f.d.toNat, what := .update s.nextId }])
          arch := { (s.notedPsn psn).arch with ordN := t.arch.ordN, logN := t.arch.logN, wrote := t.arch.wrote } } ∧
        (s.uncached → t.mem = s.mem)

/-- R185, R186, R190. SCAT writes each target with the value of the highest active element that names it, and no other byte; SCADD sends
one update for each active element, in ascending order, numbered in the key where it is ordered; a poisoned index vector or extent slot
takes MCHK, a tag that is not accepted FMT, and a check that an element fails ends the task with nothing written. Where the model's own
readings enter: log entries 14, 36, 112 and 114. -/
def Obligations.Scatters : Prop :=
  ∀ (f : LM) (s : State),
    let v := s.rdV f.b
    let ix := s.rdV (f.b + 1)
    let w := fmtWidth v.tag
    let code := s.scatCheck f w
    let ts := s.scatTargets f w
    let hit := s.watchHit (ts.map fun t => (t.2, w / 8)) false true
    let pa (x : Nat × Nat) : Nat := (placeIn (s.lmPages f) x.2).1
    let sent (u : Update) : Update := { u with status := .transit }
    let go (i : Instr) (tags : List Nat) : Prop :=
      ((s.rdS f.a).psn = true → Traps i s 9 f.a.toNat) ∧
      ((s.rdS f.a).psn = false → ix.psn = true → Traps i s 9 ((f.b + 1).toNat + 64)) ∧
      ((s.rdS f.a).psn = false → ix.psn = false → f.slot.toNat ∈ s.arch.eBad → SlotPoisoned i s f.slot.toNat) ∧
      ((s.rdS f.a).psn = false → ix.psn = false → f.slot.toNat ∉ s.arch.eBad → v.tag ∉ tags →
        Traps i s 1 (f.b.toNat + v.tag * 256 + 0xFF * 65536)) ∧
      ((s.rdS f.a).psn = false → ix.psn = false → f.slot.toNat ∉ s.arch.eBad → v.tag ∈ tags → ix.tag ≠ 0x30 →
        Traps i s 1 ((f.b + 1).toNat + ix.tag * 256 + 0x30 * 65536)) ∧
      ((s.rdS f.a).psn = false → ix.psn = false → f.slot.toNat ∉ s.arch.eBad → v.tag ∈ tags → ix.tag = 0x30 →
        StopsAt i s code hit ∧ (code = 0 → hit = none → StopsPoison i s v.psn (f.b.toNat + 64)))
    let ready (tags : List Nat) : Prop :=
      (s.rdS f.a).psn = false ∧ ix.psn = false ∧ f.slot.toNat ∉ s.arch.eBad ∧ v.tag ∈ tags ∧ ix.tag = 0x30 ∧ code = 0 ∧ hit = none ∧ v.psn = false ∧
      s.quiet s.cur.ctx ∧ s.uncached ∧ s.unspoiled
    (∀ x, x ∈ ts ↔ x.1 < 64 ∧ x.1 < 2048 / w ∧ act (s.arch.readP (f.nr.toNat * 4 + f.size.toNat)) x.1 w = true ∧
      x.2 = extBase (s.lmExt f) + (s.lmOff f + (elem ix.bits x.1 32 * (w / 8) : Nat)).toNat) ∧
    go (.scat f) scatTags ∧ go (.scadd f) scaddTags ∧
    (ready scatTags → s.delays = true →
      ∃ w', JoinsLate (.scat f) s s
        { id := s.nextId, refs := ts.flatMap (fun x => urefs (s.lmPages f) x.2 (w / 8)), old := s.misses
          op := .scatter (ts.map fun x => (x.2, leBytes (w / 8) (elem v.bits x.1 w))) false }
        [] { s.arch with wrote := w' }) ∧
    (ready scatTags → s.delays = false →
      ∃ t, Sys2Proof.Machine.exec (.scat f) s = .next t ∧ OnlyAccess s t ∧
        t.me = { s.me with arch := { s.arch with wrote := t.arch.wrote } } ∧
        (∀ a, (∀ x ∈ ts, ¬(pa x ≤ a ∧ a < pa x + w / 8)) → t.mem.byte a = s.mem.byte a) ∧
        ∀ x ∈ ts, ∀ j, j < w / 8 → (∀ y ∈ ts, x.1 < y.1 → ¬(pa y ≤ pa x + j ∧ pa x + j < pa y + w / 8)) →
          t.mem.byte (pa x + j) = nth 0 (leBytes (w / 8) (elem v.bits x.1 w)) j) ∧
    (ready scaddTags → ts.length ≤ 16 →
      let ordered := f.ord = 1 ∨ (v.tag ∈ [0x01, 0x02, 0x03, 0x04] ∧ s.arch.info.det = true)
      ∃ t l, Sys2Proof.Machine.exec (.scadd f) s = .next t ∧ t.updates.map sent = s.updates.map sent ++ l ∧ t.mem = s.mem ∧
        (∀ k, k ≠ s.cur.ctx → t.ctx k = s.ctx k) ∧
        t.me = { s.me with arch := { s.arch with ordN := t.arch.ordN, logN := t.arch.logN, wrote := t.arch.wrote } } ∧ (l.map fun u => (u.va, u.val)) = (ts.map fun x => (x.2, elem v.bits x.1 w)) ∧
        (∀ u ∈ l, u.fmt = v.tag ∧ u.pa = (placeIn (s.lmPages f) u.va).1 ∧ u.owner = some s.cur.ctx ∧ u.ret = false ∧ u.psn = false ∧
          u.op = (if v.tag ∈ [0x01, 0x02, 0x03, 0x04] then .fadd else .add)) ∧
        (ordered → l.map Update.n = (List.range ts.length).map fun j => some (s.arch.ordN + j)) ∧
        (¬ordered → ∀ u ∈ l, u.n = none))

/-- R181, R182. PROBE: a length of 0 answers OK; a range that fails its checks ends the task; where pages of it are in the deep tier, free
to move and not on their way, their migration is asked for and PROBE is taken, with TRAPINFO naming the first; else the token is pending
for the pages of its range. A poisoned extent slot takes MCHK. R193. NRES, NSTAT and NKILL: a poisoned half of the name takes MCHK; else
the token is pending for the operation on that name, and NSTAT and NKILL on a name of another module ask its home, where it can be reached
(R298). R183, R187, R21. SQSET writes the stream from the two words, empty, with its state by the rule's conditions; SQCLR gives it its
reset value; a FENCE, and a FLUSH or INVAL of a range, come behind every earlier access of the context: those that were put off have their
points in T first, and where one of them must wait the bundle does; FLUSH and INVAL of no bytes, or of scope CTX, do nothing; a poisoned
extent slot takes MCHK; of a checked range they merge the update-only lines in it, change no register, and note the parts of its
software-coherent pages, in whole lines, until they complete. Where the model's own readings enter: log entries 29, 35, 92, 105, 106, 112
and 114. -/
def Obligations.StreamsFencesAndNames : Prop :=
  (∀ (f : LX) (s : State),
    let n := (s.rdS f.b).val.toNat
    let code := s.checkExt s.myCore (s.lxPages f) (s.lxExt f) (s.lxOff f) n 1 false
    let l := s.probeSet (s.lxPages f) (s.lxVa f) n
    ((s.rdS f.a).psn = true → Traps (.probe f) s 9 f.a.toNat) ∧
    ((s.rdS f.a).psn = false → (s.rdS f.b).psn = true → Traps (.probe f) s 9 f.b.toNat) ∧
    ((s.rdS f.a).psn = false → (s.rdS f.b).psn = false →
      (n = 0 → Awaits (.probe f) s { dst := .s f.d.toNat, what := .scalar {} }) ∧
      (n ≠ 0 → f.slot.toNat ∈ s.arch.eBad → SlotPoisoned (.probe f) s f.slot.toNat) ∧
      (n ≠ 0 → f.slot.toNat ∉ s.arch.eBad → code ≠ 0 → Dies (.probe f) s code) ∧
      (n ≠ 0 → f.slot.toNat ∉ s.arch.eBad → code = 0 → l = [] →
        Awaits (.probe f) s
          { dst := .s f.d.toNat, what := .probe ((pagesOf (s.lxVa f) n).filterMap (pageOf (s.lxPages f))) }) ∧
      (n ≠ 0 → f.slot.toNat ∉ s.arch.eBad → code = 0 → ∀ p r, l = p :: r → ∃ u : State, u.arch.migrating = s.arch.migrating ++ (l.map Page.frame).eraseDups ∧
        Becomes s u { s.arch with migrating := u.arch.migrating } ∧
        Sys2Proof.Machine.exec (.probe f) s =
          .next (u.takeTrap 2 ((p.vp * 65536 - extBase (s.lxExt f)) % 2 ^ 48 + f.slot.toNat * 2 ^ 48))))) ∧
  (∀ (f : LX) (s : State),
    let name : BitVec 128 := (s.rdS (f.a + 1)).val ++ (s.rdS f.a).val
    let named (i : Instr) (does : Prop) : Prop :=
      ((s.rdS f.a).psn = true → Traps i s 9 f.a.toNat) ∧
      ((s.rdS f.a).psn = false → (s.rdS (f.a + 1)).psn = true → Traps i s 9 (f.a + 1).toNat) ∧
      ((s.rdS f.a).psn = false → (s.rdS (f.a + 1)).psn = false → does)
    let asks (i : Instr) (kind : Nat) (what : Payload) : Prop :=
      let home := name.toNat / 2 ^ 96 % 2 ^ 32
      (home = s.part.serial ∨ s.reaches home = false → Awaits i s { dst := .s f.d.toNat, what := what }) ∧
      (home ≠ s.part.serial → s.reaches home = true → ∃ t, Sys2Proof.Machine.exec i s = .next t ∧
        t = { s with
          ctxs := t.ctxs
          out := s.out ++ [{ kind := kind, dest := home, body := leBytes 16 name.toNat ++ leBytes 2 s.arch.info.asid }] } ∧
        (∀ k, k ≠ s.cur.ctx → t.ctx k = s.ctx k) ∧
        t.me = { s.me with sb := s.me.sb ++ [{ dst := .s f.d.toNat, what := what }] })
    named (.nres f) (Awaits (.nres f) s { dst := .s f.d.toNat, what := .nres f.slot.toNat name }) ∧
    named (.nstat f) (asks (.nstat f) 0x14 (.nstat name)) ∧
    named (.nkill f) (asks (.nkill f) 0x15 (.nkill name false))) ∧
  (∀ (f : LX) (s : State),
    let lo := (s.rdS f.a).val
    let hi := (s.rdS f.b).val
    let n := f.disp.toNat % 4
    let va := s.lxVa f
    let code := s.checkExt s.myCore (s.lxPages f) (s.lxExt f) (s.lxOff f) hi.toNat 1 false
    let pages := (pagesOf va hi.toNat).filterMap (pageOf (s.lxPages f))
    let part (p : Page) : Nat × Nat :=
      let first := max va (p.vp * 65536) / 64
      (p.frame * 8192 + first % 1024 * 8, ((min (va + hi.toNat) ((p.vp + 1) * 65536) + 63) / 64 - first) * 8)
    let noted := (pages.filter fun p => p.cls = 1).map part
    let r := s.inOrder s.cur.ctx
    let merged := r.touchLines none
      ((r.cores.flatMap fun c => c.2.lines.map Prod.fst).filter fun l => (lineUnits l).any (inParts (pages.map part))).eraseDups
    ((s.rdS f.a).psn = true → ∀ i ∈ [Instr.sqset f, .flush f, .inval f], Traps i s 9 f.a.toNat) ∧
    ((s.rdS f.a).psn = false → (s.rdS f.b).psn = true → ∀ i ∈ [Instr.sqset f, .flush f, .inval f], Traps i s 9 f.b.toNat) ∧
    ((s.rdS f.a).psn = false → (s.rdS f.b).psn = false →
      (∃ t, ∃ q : Stream, Sys2Proof.Machine.exec (.sqset f) s = .next t ∧ Becomes s t { s.arch with q := t.arch.q } ∧
        look {} t.arch.q n = q ∧ (∀ m, m ≠ n → look {} t.arch.q m = look {} s.arch.q m) ∧ q.fifo = [] ∧ q.part = [] ∧
        q.remain.toNat = bits hi 32 32 ∧ q.ixoff.toNat = bits hi 0 32 * 65536 + bits lo 48 16 ∧ q.ixslot.toNat = bits lo 44 4 ∧
        q.dslot.toNat = bits lo 40 4 ∧ q.ixw.toNat = bits lo 38 2 ∧ q.esz.toNat = bits lo 35 3 ∧
        let bad := 2 ≤ bits lo 38 2 ∨ 4 ≤ bits lo 35 3 ∨ bits lo 0 30 ≠ 0 ∨
          (s.arch.extent (bits lo 44 4)).getLsbD 24 = false ∨ (s.arch.extent (bits lo 40 4)).getLsbD 24 = false
        (bad → q.state = 3) ∧ (¬bad → q.state = if bits hi 32 32 = 0 then 2 else 1)) ∧
      (hi = 0 ∨ f.mods = 0 → Idles (.flush f) s ∧ Idles (.inval f) s) ∧
      (hi ≠ 0 → f.mods ≠ 0 → f.slot.toNat ∈ s.arch.eBad →
        SlotPoisoned (.flush f) s f.slot.toNat ∧ SlotPoisoned (.inval f) s f.slot.toNat) ∧
      (hi ≠ 0 → f.mods ≠ 0 → f.slot.toNat ∉ s.arch.eBad → code ≠ 0 → Dies (.flush f) s code ∧ Dies (.inval f) s code) ∧
      (hi ≠ 0 → f.mods ≠ 0 → f.slot.toNat ∉ s.arch.eBad → code = 0 → r.owesLate s.cur.ctx = true →
        StandsBack (.flush f) s r ∧ StandsBack (.inval f) s r) ∧
      (hi ≠ 0 → f.mods ≠ 0 → f.slot.toNat ∉ s.arch.eBad → code = 0 → r.owesLate s.cur.ctx = false →
        (s.me.late = [] → s.plain → merged = s) ∧
        ∀ x ∈ [(Instr.flush f, false), (.inval f, true)],
          (noted = [] → Sys2Proof.Machine.exec x.1 s = .next merged) ∧
          (noted ≠ [] → ∃ t, Sys2Proof.Machine.exec x.1 s = .next t ∧
            t = { merged with ctxs := t.ctxs, nextId := merged.nextId + 1 } ∧ (∀ k, k ≠ s.cur.ctx → t.ctx k = merged.ctx k) ∧
            t.me = { merged.me with
              flushes := merged.me.flushes ++ [{ id := merged.nextId, inval := x.2, parts := noted }] }))) ∧
    (∃ t, Sys2Proof.Machine.exec (.sqclr f) s = .next t ∧ Becomes s t { s.arch with q := t.arch.q } ∧
      look {} t.arch.q n = {} ∧ ∀ m, m ≠ n → look {} t.arch.q m = look {} s.arch.q m) ∧
    (s.me.late = [] → r = s) ∧ (r.owesLate s.cur.ctx = true → StandsBack (.fence f) s r) ∧
    (r.owesLate s.cur.ctx = false → Sys2Proof.Machine.exec (.fence f) s = .next r ∧ r.me.late = []))

/-! ### The queues of the engines (spec/08, spec/09) -/

/-- R199, R200, R206 to R213, R232, R233. MPW and MPR move a matrix parameter; each matrix command and GEVAL enters its queue with the
tokens that it consumes, sampled at issue, its quad of scalars, its semaphore and its parameters, and its token's register is pending for
it; a poisoned scalar of the quad takes MCHK at the slot. No scalar, vector or predicate register and no memory changes. Where the model's
own readings enter: log entries 60 and 95. -/
def Obligations.MatrixQueueCommands : Prop :=
  (∀ (f : MP) (s : State),
    ((s.rdS f.a).psn = true → Traps (.mpw f) s 9 f.a.toNat) ∧
    ((s.rdS f.a).psn = false → Sends (.mpw f) s [(1, .mp f.mp.toNat (s.rdS f.a).val)]) ∧
    Sends (.mpr f) s (toS f.d 1 false (look 0 s.arch.mp f.mp.toNat))) ∧
  ∀ (f : MC) (s : State),
    let tok (r : BitVec 6) : TokVal :=
      if s.cur.pend.contains r.toNat then .await r.toNat else .have_ (s.rdS r).val (s.rdS r).psn
    let reg (j : Nat) : BitVec 6 := f.quad + BitVec.ofNat 6 j
    let quad (n : Nat) : List Word := (List.range n).map fun j => (s.rdS (reg j)).val
    let clean (n : Nat) : Prop := ∀ j, j < n → (s.rdS (reg j)).psn = false
    let enters (i : Instr) (op n : Nat) (q : Core → List Cmd) (more : Cmd → Prop) : Prop :=
      (∀ j, j < n → clean j → (s.rdS (reg j)).psn = true → Traps i s 9 (reg j).toNat) ∧
      (clean n → ∃ t c, Sys2Proof.Machine.exec i s = .next t ∧ q (t.core s.myCore) = q (s.core s.myCore) ++ [c] ∧
        c.op = op ∧ c.ctx = s.cur.ctx ∧ c.slot = s.cur.slot ∧ c.d = f.d.toNat ∧ c.toks = [tok f.a, tok f.b, tok f.c] ∧
        c.quad = quad n ∧ c.sigen = (f.sigen == 1) ∧ c.sem = f.sem.toNat ∧ c.started = false ∧ c.finished = false ∧ more c ∧
        t.me.sb = s.me.sb ++ [{ dst := .s f.d.toNat, what := .token s.myCore c.id }] ∧
        t.arch.s = s.arch.s ∧ t.arch.v = s.arch.v ∧ t.arch.p = s.arch.p ∧ t.arch.mp = s.arch.mp ∧ t.mem = s.mem ∧
        (∀ k, (t.cluster k).store = (s.cluster k).store ∧ (t.cluster k).sems = (s.cluster k).sems) ∧
        (∀ k, (t.core k).spm = (s.core k).spm) ∧ ∀ k, k ≠ s.myCore → t.core k = s.core k)
    let params := (List.range 8).map fun n => look 0 s.arch.mp n
    enters (.mcall f) 3 0 Core.mq (fun c =>
      c.routine = f.routine.toNat ∧ c.prio = f.prio.toNat ∧ c.mp = params ∧ c.lacks = !s.hasRoutine f.routine.toNat ∧
      c.banks = if s.hasRoutine f.routine.toNat then routineBanks f.routine.toNat params else []) ∧
    enters (.wbld f) 4 4 Core.mq (fun c => c.banks = []) ∧
    enters (.wbclr f) 5 0 Core.mq (fun c => c.banks = []) ∧
    enters (.accz f) 6 1 Core.mq (fun c => ∀ b, b ∈ c.banks ↔ b < 8 ∧ (s.rdS f.quad).val.getLsbD b = true) ∧
    enters (.geval f) 7 4 Core.lq (fun _ => True) ∧
    enters (.mqstat f) 8 0 Core.mqstat (fun _ => True)

/-- R231 to R236, R240, R190. Each copy-engine command enters the core's queue with its tokens, its quad, its format, variant, scope,
flags and semaphore, and a remote destination block as the scratchpad holds it; its token's register is pending for it. SCAE and CRED to
memory in a float format take as many numbers of the context's key, in a deterministic node, as they have elements. Nothing else changes.
Where the model's own readings enter: log entry 44. -/
def Obligations.CopyQueueCommands : Prop :=
  ∀ (f : CC) (s : State),
    let tok (r : BitVec 6) : TokVal :=
      if s.cur.pend.contains r.toNat then .await r.toNat else .have_ (s.rdS r).val (s.rdS r).psn
    let reg (j : Nat) : BitVec 6 := f.quad + BitVec.ofNat 6 j
    let quad : List Word := (List.range 4).map fun j => (s.rdS (reg j)).val
    let dst : Word := (s.rdS (reg 1)).val
    let spm := (s.core s.myCore).spm
    ∀ x ∈ [(Instr.cpy f, 1), (.cpytConvert f, 2), (.cpytTranspose f, 2), (.cpytExpand f, 2), (.cpytCompress f, 2), (.cpyr f, 3),
        (.gath f, 4), (.scae f, 5), (.cred f, 6)],
      let keyed := (x.2 = 5 ∨ x.2 = 6) ∧ bits dst 62 2 = 2 ∧ f.fmt.toNat ∈ fmtF
      let keys : Nat := if keyed then bits (s.rdS (reg 2)).val 0 48 else 0
      (∀ j, j < 4 → (∀ m, m < j → (s.rdS (reg m)).psn = false) → (s.rdS (reg j)).psn = true → Traps x.1 s 9 (reg j).toNat) ∧
      ((∀ j, j < 4 → (s.rdS (reg j)).psn = false) →
        ∃ t c, Sys2Proof.Machine.exec x.1 s = .next t ∧
          t.core s.myCore = { s.core s.myCore with cq := (s.core s.myCore).cq ++ [c] } ∧
          (∀ k, k ≠ s.myCore → t.core k = s.core k) ∧ t = { s with ctxs := t.ctxs, cores := t.cores, nextId := s.nextId + 1 } ∧
          (∀ k, k ≠ s.cur.ctx → t.ctx k = s.ctx k) ∧
          t.me = { s.me with
            sb := s.me.sb ++ [{ dst := .s f.d.toNat, what := .token s.myCore s.nextId }]
            arch := { s.arch with cmds := t.arch.cmds, ordN := t.arch.ordN, logN := t.arch.logN } } ∧
          t.arch.ordN = s.arch.ordN + (if s.arch.info.det then keys else 0) ∧
          c.id = s.nextId ∧ c.op = x.2 ∧ c.ctx = s.cur.ctx ∧ c.d = f.d.toNat ∧ c.toks = [tok f.a, tok f.b, tok f.c] ∧
          c.quad = quad ∧ c.fmt = f.fmt.toNat ∧ c.sub = f.sub.toNat ∧ c.scope = f.scope.toNat ∧ c.bytes = (f.bytes == 1) ∧
          c.sigen = (f.sigen == 1) ∧ c.sem = f.sem.toNat ∧ c.started = false ∧ c.finished = false ∧
          (bits dst 62 2 = 3 → bits dst 0 55 % 64 = 0 → bits dst 0 55 + 64 ≤ 2 ^ 20 →
            c.block = spm.bytes (bits dst 0 55) 64 ∧ c.blockPsn = spm.poisoned (bits dst 0 55) 64))

/-- R250, R251. XPOSE stages its row, and beat 7 lands eight rows of the transform buffer, row u holding elements 8(k / 8) + u of the
staged rows k mod 8; XCVT lands one row of converted elements, XEXP the packet's elements in order; XRD reads a row as it stands; and a
tag that is not accepted takes FMT. Where the model's own readings enter: log entry 39. -/
def Obligations.TransformBeats : Prop :=
  ∀ (f : CX) (s : State),
    let t := f.fmt.toNat
    let w := fmtWidth t
    let a := s.rdV f.a
    let row (j : Nat) : VReg := if j = f.beat.toNat then a else look {} s.arch.xstage j
    let x := look {} s.arch.xbuf f.beat.toNat
    (a.tag ≠ t → Traps (.xpose f) s 1 (f.a.toNat + a.tag * 256 + t * 65536)) ∧
    (a.tag = t → ∃ u, ∃ rows : List (Nat × VReg), Sys2Proof.Machine.exec (.xpose f) s = .next u ∧
      Becomes s u { s.arch with
        xstage := u.arch.xstage, flight := s.arch.flight ++ flights s.cur.t s.nextId (rows.map fun r => (12, .x r.1 r.2)) } ∧
      (∀ j, look {} u.arch.xstage j = row j) ∧
      (f.beat ≠ 7 → rows = []) ∧
      (f.beat = 7 → rows.map Prod.fst = List.range 8 ∧
        ∀ r ∈ rows, r.2.tag = t ∧ r.2.psn = (List.range 8).any (fun j => (row j).psn) ∧
          (r.2.psn = true → r.2.bits = 0) ∧
          (r.2.psn = false → ∀ k, k < 2048 / w → elem r.2.bits k w = elem (row (k % 8)).bits (8 * (k / 8) + r.1) w))) ∧
    (a.tag ∈ (fmtFloat ++ fmtInt) → a.tag ≠ t → a.tag ≠ 0x30 →
      ∃ u r, Sys2Proof.Machine.exec (.xcvt f) s = .next u ∧ u.draws = s.draws + 2048 / w ∧
        u.arch = { s.arch with flight := s.arch.flight ++ flights s.cur.t s.nextId [(6, .x f.beat.toNat r)] } ∧
        u.mem = s.mem ∧ u.cores = s.cores ∧ r.tag = t ∧ r.psn = a.psn ∧
        (a.psn = false → ∀ j, j < 2048 / w → j < 2048 / fmtWidth a.tag →
          elem r.bits j w = (convert t a.tag { mode := f.rm.toNat } (elem a.bits j (fmtWidth a.tag))).1 % 2 ^ w)) ∧
    (a.tag ∉ fmtFloat ++ fmtInt ∨ a.tag = t ∨ a.tag = 0x30 → Traps (.xcvt f) s 1 (f.a.toNat + a.tag * 256 + 0xFF * 65536)) ∧
    (a.tag ∉ fmtPacket → Traps (.xexp f) s 1 (f.a.toNat + a.tag * 256 + 0xFF * 65536)) ∧
    (a.tag ∈ fmtPacket → ∃ u, ∃ rows : List (Nat × VReg), Sys2Proof.Machine.exec (.xexp f) s = .next u ∧
      Becomes s u { s.arch with
        flight := s.arch.flight ++ flights s.cur.t s.nextId (rows.map fun r => (10, .x r.1 r.2)) } ∧
      rows.map Prod.fst = (List.range (384 / (2048 / w))).map (f.beat.toNat + ·) ∧
      ∀ r ∈ rows, r.2.tag = t ∧ r.2.psn = a.psn ∧
        (a.psn = false → ∀ j, j < 2048 / w →
          let e := (r.1 - f.beat.toNat) * (2048 / w) + j
          elem r.2.bits j w = (packetRound a.tag t rne (elem a.bits (e / 96) 512) (e % 96)).1 % 2 ^ w)) ∧
    Sends (.xrd f) s (toV f.d 2 x.bits x.tag x.psn)

/-! ### The command endpoint (spec/18) -/

/-- R384, R387, R389, R401. A message that reaches the endpoint while the module is not running or no port carries it, or that is from no
registered host, is dropped; a later message of a host whose ABORT is still to be answered is not taken up yet; a message dropped has no
reply; a command whose header breaks a rule, and an OP that is not listed, is answered with BADPARAM and has no other effect; a reply has
the header of the table, with the command's OP and TAG. Where the model's own readings enter: log entry 70. -/
def Obligations.HostCommandProtocol : Prop :=
  (∀ (host base : Nat) (msg : List Byte) (v : Option Nat) (s : State),
    (∀ x ∈ [(Instr.caprd host msg, 0x01), (.memwr host msg, 0x02), (.memrd host msg, 0x03), (.imgld host msg, 0x10),
        (.imgul host msg, 0x11), (.libld host msg v, 0x12), (.qset host msg, 0x20), (.launch host msg, 0x21), (.abort host msg, 0x22),
        (.watch host msg, 0x23), (.mapupd host msg, 0x30), (.objnew host msg base, 0x31), (.asset host msg, 0x32)],
      (s.boss.stage ≠ 2 ∨ s.linked = false ∨ s.hostEntry host = none ∨ fld msg 6 2 ≠ x.2 ∨ s.abortAsked host = true → Idles x.1 s) ∧
      (s.boss.stage = 2 → s.linked = true → s.hostEntry host ≠ none → fld msg 6 2 = x.2 → s.abortAsked host = false →
        s.mergesNone = true → ¬s.takesUp host msg x.2 →
        Answers x.1 s s host msg x.2 2 0 [])) ∧
    (s.boss.stage = 2 → s.linked = true → s.hostEntry host ≠ none → s.abortAsked host = false →
      fld msg 6 2 ∉ [0x01, 0x02, 0x03, 0x10, 0x11, 0x12, 0x20, 0x21, 0x22, 0x23, 0x30, 0x31, 0x32] →
      Answers (.endpointUnlistedOp host msg) s s host msg (fld msg 6 2) 2 0 []) ∧
    (s.boss.stage ≠ 2 ∨ s.linked = false ∨ s.hostEntry host = none → Idles (.endpointUnlistedOp host msg) s)) ∧
  ∀ (op tag status result : Nat) (body : List Byte),
    let r := endpointMsg op tag status result body
    op < 2 ^ 16 → tag < 2 ^ 64 → status < 2 ^ 16 → result < 2 ^ 64 → body.length < 2 ^ 32 →
    fld r 0 4 = 0x434D4446 ∧ fld r 4 2 = 1 ∧ fld r 6 2 = op ∧ fld r 8 8 = tag ∧ fld r 16 4 = body.length ∧ fld r 20 2 = status ∧
    fld r 22 2 = 0 ∧ fld r 24 8 = result ∧ r.drop 32 = body

/-- R388, R5, R319, R327, R290, R291. CAPRD, MEMWR, MEMRD, QSET, ASSET and LIBLD: a body of the wrong length or with a reserved byte that
is not zero gives BADPARAM, a range that fails its checks the check's name; else the command has its effect and no other: MEMWR's bytes
are in memory, MEMRD answers the bytes that memory holds, QSET keeps the fields that R327 lets software write, ASSET sets the address
space's root, where the tree below it keeps the translator's frames out of every address space. MEMWR and MEMRD wait until the merges that
their accesses cause are over. Where the model's own readings enter: log entries 48, 70 and 71. -/
def Obligations.HostMemoryAndQueues : Prop :=
  ∀ (host : Nat) (msg : List Byte) (s : State),
    let b := msg.drop 32
    let zeros (i n : Nat) : Prop := ∀ j, i ≤ j → j < i + n → nth 0 b j = 0
    let asid := fld b 0 2
    let va := fld b 8 8
    let bad (i : Instr) (op : Nat) : Prop := Answers i s s host msg op 2 0 []
    (s.takesUp host msg 0x01 → b.length = 0 →
      Answers (.caprd host msg) s s host msg 0x01 0 0 ((List.range 4).flatMap fun d => leBytes 8 (s.part.diecap d))) ∧
    (s.takesUp host msg 0x01 → b.length ≠ 0 → bad (.caprd host msg) 0x01) ∧
    (∀ x ∈ [(Instr.memwr host msg, 0x02, b.length - 16), (.memrd host msg, 0x03, min 65504 (fld b 16 8))],
      let g := s.clears [(asid, va, x.2.2)]
      s.hears host msg x.2.1 = true → g.2 = false → Sys2Proof.Machine.exec x.1 s = .next g.1) ∧
    (s.takesUp host msg 0x02 → s.mergesNone = true →
      (b.length < 16 ∨ ¬zeros 2 6 → bad (.memwr host msg) 0x02) ∧
      (16 ≤ b.length → zeros 2 6 →
        let code := s.deviceCheck asid va (max 1 (b.length - 16)) true
        (code ≠ 0 → Answers (.memwr host msg) s s host msg 0x02 code 0 []) ∧
        (code = 0 → ∃ t, Answers (.memwr host msg) s t host msg 0x02 0 0 [] ∧ MemStored s t asid va (b.drop 16)))) ∧
    (s.takesUp host msg 0x03 → s.mergesNone = true →
      let n := fld b 16 8
      let code := s.deviceCheck asid va (max 1 n) false
      (b.length ≠ 24 ∨ ¬zeros 2 6 ∨ 65504 < n → bad (.memrd host msg) 0x03) ∧
      (b.length = 24 → zeros 2 6 → n ≤ 65504 →
        (code ≠ 0 → Answers (.memrd host msg) s s host msg 0x03 code 0 []) ∧
        (code = 0 →
          ∃ l, Answers (.memrd host msg) s { s with hidden := l } host msg 0x03 0 0 (s.memBytes asid va n).1))) ∧
    (s.takesUp host msg 0x20 →
      (b.length ≠ 16 ∨ ¬zeros 1 7 ∨ 64 ≤ fld b 0 1 → bad (.qset host msg) 0x20) ∧
      (b.length = 16 → zeros 1 7 → fld b 0 1 < 64 → ∃ q : FMap Word, Answers (.qset host msg) s { s with queues := q } host msg 0x20 0 0 [] ∧
        (∀ k, k ≠ fld b 0 1 → look 0 q k = look 0 s.queues k) ∧
        ∀ j, j < 64 → (look 0 q (fld b 0 1)).getLsbD j = (decide (j < 2 ∨ (8 ≤ j ∧ j < 10) ∨ (16 ≤ j ∧ j < 32)) && va.testBit j))) ∧
    (s.takesUp host msg 0x32 →
      (b.length ≠ 16 ∨ ¬zeros 2 6 ∨ va % 65536 ≠ 0 ∨ inDeep va = true ∨ s.part.backed va = false ∨
        s.sparesTree [42, 29, 16] va = false → bad (.asset host msg) 0x32) ∧
      (b.length = 16 → zeros 2 6 → va % 65536 = 0 → inDeep va = false → s.part.backed va = true → s.sparesTree [42, 29, 16] va = true →
        ∃ r : FMap Nat, Answers (.asset host msg) s { s with roots := r } host msg 0x32 0 0 [] ∧
          ({ s with roots := r } : State).root asid = some va ∧
          ∀ k, k ≠ asid → ({ s with roots := r } : State).root k = s.root k)) ∧
    (s.takesUp host msg 0x12 → ∀ v : Option Nat,
      (b.length ≠ 8 → bad (.libld host msg v) 0x12) ∧
      (b.length = 8 →
        let code := s.deviceCheck 0 (fld b 0 8) 1 false
        (code ≠ 0 → Answers (.libld host msg v) s s host msg 0x12 code 0 []) ∧
        (code = 0 → v = none → Answers (.libld host msg v) s s host msg 0x12 0x22 0 []) ∧
        (code = 0 → ∀ n, v = some n → n < 65536 → Answers (.libld host msg v) s { s with libver := n } host msg 0x12 0 0 [])))

/-- R88, R92, R97, R105, R110, R112, R113. Which check of the Assayer fails where. A slot word: 0x05 for an opcode that its slot's map
does not list, 0x06 for bits outside the operation's fields, 0x07 to 0x0A for the fields of the operation. A bundle: its words' reasons at
those words, 0x0E at the M word, 0x0B at the VB word, 0x0F at the Y word. A segment's header, its padding and its end, each at its own
bytes (0x02, 0x04); the image's header fields (0x01), the trap table and its entries (0x10), the chain (0x03), targets outside the image
(0x0C), delay bundles (0x0D), and on the paths 0x11 at the presence byte, 0x12 at the S word and 0x13 at the L word of a bundle that a
path reaches. Where the model's own readings enter: log entry 69. -/
def Obligations.ImageChecks : Prop :=
  (∀ (u : SlotUnit) (w : Word),
    wordReasons u 0 = [] ∧ (w ≠ 0 → fOp w = 0 → wordReasons u w = [6]) ∧
    (w ≠ 0 → fOp w ≠ 0 → decodeRaw u w = none → u ≠ .c ∨ fOp w ≠ 2 → wordReasons u w = [5]) ∧
    ∀ i, w ≠ 0 → fOp w ≠ 0 → decodeRaw u w = some i →
      (encodeSlot i ≠ some w → 6 ∈ wordReasons u w) ∧ (∀ r, r ≠ 6 → (r ∈ wordReasons u w ↔ r ∈ slotReasons i))) ∧
  (∀ f : VV,
    let vec (r : BitVec 6) : Prop := r.toNat < 32
    let t := f.fmt.toNat
    (∀ i ∈ [Instr.vadd f, .vsub f, .vmul f, .vdiv f, .vfma f, .vfms f, .vfnma f],
      (7 ∈ slotReasons i ↔ ¬(vec f.d ∧ vec f.a ∧ vec f.b ∧ (f.rm = 5 → vec f.c))) ∧ (8 ∈ slotReasons i ↔ t ∉ [1, 2, 3, 4]) ∧
      (9 ∈ slotReasons i ↔ 5 < f.rm.toNat ∨ (f.opx[15] = true ∧ f.rm ≠ 0)) ∧
      (6 ∈ slotReasons i ↔ f.opx.toNat % 0x8000 ≠ 0 ∨ (f.rm ≠ 5 ∧ f.c ≠ 0))) ∧
    (∀ i ∈ [Instr.viadd f, .visub f, .vimul f, .vimad f, .vimin f, .vimax f],
      (7 ∈ slotReasons i ↔ ¬(vec f.d ∧ vec f.a ∧ vec f.b)) ∧ (8 ∈ slotReasons i ↔ ¬(0x10 ≤ t ∧ t ≤ 0x17 ∨ t = 0x30)) ∧
      (9 ∈ slotReasons i ↔ f.rm ≠ 0) ∧ (6 ∈ slotReasons i ↔ f.opx ≠ 0 ∨ f.c ≠ 0)) ∧
    (∀ i ∈ [Instr.vpand f, .vpor f, .vpxor f],
      (7 ∈ slotReasons i ↔ ¬(f.d.toNat < 8 ∧ f.a.toNat < 8 ∧ f.b.toNat < 8)) ∧ (0x0A ∈ slotReasons i ↔ f.zero ≠ 0) ∧ (9 ∈ slotReasons i ↔ f.rm ≠ 0)) ∧
    (0x0A ∈ slotReasons (.vcmp f) ↔ 8 ≤ f.opx.toNat % 16 ∨ f.zero ≠ 0) ∧
    (0x0A ∈ slotReasons (.vins f) ↔ f.pred ≠ 0 ∨ f.zero ≠ 0 ∨ fmtCount t ≤ f.opx.toNat % 512)) ∧
  (∀ (f : SF) (g : SS) (l : LM) (x : LX) (m : MC) (c : CC) (p : SB),
    (0x0A ∈ slotReasons (.bfx f) ↔ f.width = 0 ∨ 64 < f.lsb.toNat + f.width.toNat) ∧
    (0x0A ∈ slotReasons (.csrd g) ↔ ¬(g.x.toNat % 256 ≤ 8 ∨ (0x40 ≤ g.x.toNat % 256 ∧ g.x.toNat % 256 ≤ 0x67))) ∧
    (0x0A ∈ slotReasons (.aadd l) ↔ l.size.toNat < 2) ∧ (7 ∈ slotReasons (.scat l) ↔ 32 ≤ l.b.toNat ∨ l.b.toNat % 2 = 1) ∧
    (7 ∈ slotReasons (.ncas x) ↔ x.d.toNat % 2 = 1 ∨ x.d = 0 ∨ x.b.toNat % 2 = 1 ∨ x.b = 0) ∧
    (0x0A ∈ slotReasons (.fence x) ↔ 6 ≤ x.mods.toNat) ∧ (0x0E ∈ slotReasons (.mcall m) ↔ m.routine = 0 ∨ 7 < m.routine.toNat) ∧
    (7 ∈ slotReasons (.cpy c) ↔ c.quad.toNat % 4 ≠ 0 ∨ c.quad = 0) ∧ (0x0A ∈ slotReasons (.cpy c) ↔ 6 ≤ c.scope.toNat) ∧
    (7 ∈ slotReasons (.loop p) ↔ p.a = 0)) ∧
  (∀ (bs : List Byte) (code t n o : Nat),
    let w := walkSegs bs code t (n + 1) o
    let rest (k : Nat) := walkSegs bs code t n (o + k)
    let count := fld bs (o + 4) 1
    let g := segAt bs o
    (64 + code ≤ o → w.bad = [] ∧ w.segs = []) ∧
    (o < 64 + code → t = o → w.bad = (rest 128).bad ∧ w.segs = (rest 128).segs) ∧
    (o < 64 + code → t ≠ o → fld bs o 4 ≠ 0x5345474D → w.bad = [(o, 2)] ∧ w.segs = []) ∧
    (o < 64 + code → t ≠ o → fld bs o 4 = 0x5345474D → count = 0 ∨ 128 < count → w.bad = [(o + 4, 2)] ∧ w.segs = []) ∧
    (o < 64 + code → t ≠ o → fld bs o 4 = 0x5345474D → count ≠ 0 → count ≤ 128 →
      w.segs = g :: (rest g.size).segs ∧ ∀ a r, (a, r) ∈ w.bad ↔ (a, r) ∈ (rest g.size).bad ∨
        (r = 2 ∧ (a = o + 5 ∧ 1 < fld bs (o + 5) 1 ∨ a = o + 6 ∧ fldZero bs (o + 6) 2 = false)) ∨
        (r = 4 ∧ (a = code ∧ 64 + code < o + g.size ∨
          ∃ j, j < 8 * ((count + 7) / 8) - count ∧ a = o + 32 + count + j ∧ fld bs a 1 ≠ 0)))) ∧
  (∀ (major : Nat) (b : Bun) (o r : Nat),
    let at_ (k : Nat) : Nat := nth 0 b.offs k
    let bank (k : Nat) : Option Nat := accPort (nth none b.ops k)
    (o, r) ∈ bunBad major b ↔
      (∃ k u, k < 7 ∧ unitOfSlot k = some u ∧ o = at_ k ∧ r ∈ wordReasons u (nth 0 b.words k)) ∨
      (r = 0x0E ∧ o = at_ 3 ∧ major ≠ 1 ∧ ∃ f, nth none b.ops 3 = some (.mcall f)) ∨
      (r = 0x0B ∧ o = at_ 2 ∧ bank 1 ≠ none ∧ bank 1 = bank 2) ∨ (r = 0x0F ∧ o = at_ 7 ∧ yBad (nth 0 b.words 7) = true)) ∧
  (∀ bs : List Byte,
    let w := walkOf bs
    let ns := nodesOf w.segs
    let t := imgTable bs
    let placed : Prop := t ≠ 0 ∧ tableOk bs = true
    let misplaced : Prop := placed ∧ w.table = false ∧ w.passed t = true
    let entry (c : Nat) := fld bs (t + 8 * c) 8
    let word (g : Nat) : Nat := nth 0 (nth noNode ns g).bun.offs 0
    (tableOk bs = true ↔ t = 0 ∨ (t < 2 ^ 55 ∧ t % 64 = 0 ∧ 64 ≤ t ∧ t + 128 ≤ 64 + imgCodesz bs)) ∧
    (∀ o, (o, 1) ∈ imageBad bs ↔ (o = 0 ∧ fld bs 0 4 ≠ 0x474D494D) ∨ (o = 4 ∧ fld bs 4 2 ≠ 1) ∨ (o = 8 ∧ w.named (imgEntry bs) = false) ∨
      (o = 24 ∧ imgCodesz bs % 64 ≠ 0) ∨ (o = 40 ∧ fldZero bs 40 24 = false)) ∧
    (∀ o, (o, 0x10) ∈ imageBad bs ↔ (o = 16 ∧ (tableOk bs = false ∨ misplaced)) ∨
      (placed ∧ ¬misplaced ∧ ∃ c, c < 16 ∧ o = t + 8 * c ∧ entry c ≠ 0 ∧ (c = 0 ∨ 9 < c ∨ w.named (entry c) = false))) ∧
    (∀ o, (o, 3) ∈ imageBad bs ↔ ∃ g ∈ w.segs, o = g.off + 8 ∧
      ¬((g.next = 0 ↔ g.flags % 2 = 1) ∧ (g.flags % 2 = 0 → g.next / 2 ^ 57 = 0 ∧ w.named g.next = true))) ∧
    (∀ r o, r = 2 ∨ r = 4 → ((o, r) ∈ imageBad bs ↔ (o, r) ∈ w.bad)) ∧
    (∀ r o, (5 ≤ r ∧ r ≤ 0x0B) ∨ r = 0x0E ∨ r = 0x0F → ((o, r) ∈ imageBad bs ↔ ∃ n ∈ ns, (o, r) ∈ bunBad (fld bs 7 1) n.bun)) ∧
    (∀ o, (o, 0x0C) ∈ imageBad bs → ∃ g c l so bi, g < ns.length ∧ o = word g ∧ (nth noNode ns g).flow = .direct c l so bi ∧
      (nth noNode ns g).target = none) ∧
    (w.stop = none → ∀ g c l so bi, g < ns.length → (nth noNode ns g).flow = .direct c l so bi → (nth noNode ns g).target = none →
      (word g, 0x0C) ∈ imageBad bs) ∧
    (∀ o, (o, 0x0D) ∈ imageBad bs → ∃ g, g < ns.length ∧ (nth noNode ns g).flow.transfer = true ∧
      (o = word g ∨ ∃ h, (nth noNode ns h).flow ≠ .plain ∧ o = word h)) ∧
    (∀ r o, 0x11 ≤ r → ((o, r) ∈ imageBad bs →
      ∃ (n : Nat) (p : Nat → Point), (p 0).fly = [] ∧ (p 0).redir = none ∧ (p 0).late = false ∧
        (∀ i, i < n → p (i + 1) ∈ (pathStep ns (p i)).2) ∧ (o, r) ∈ (pathStep ns (p n)).1))) ∧
  (∀ (ns : List Node_) (p : Point) (o r : Nat),
    let n := nth noNode ns p.g
    let all := p.fly ++ newResults n 7
    (o, r) ∈ (pathStep ns p).1 ↔
      (r = 0x11 ∧ o = n.bun.pres ∧ 32 < all.length ∧ p.late = false) ∨
      (r = 0x12 ∧ o = nth 0 n.bun.offs 0 ∧ n.flow = .eret ∧ all ≠ []) ∨
      (r = 0x13 ∧ o = nth 0 n.bun.offs 4 ∧ (∃ f, nth none n.bun.ops 4 = some (.probe f)) ∧ p.fly ++ newResults n 4 ≠ []))

/-- R109, R111, R114, R274, R319, R388. IMGLD: a body that is not 16 bytes, or that has a reserved byte set, is BADPARAM; the image's VA,
its range and its code are checked in turn; an image that fails a check of R112 is REJECTED with the lowest offset and there the lowest
reason, and leaves every table as it was; one that passes is listed as loaded, once the pages that it pins are in HBM and nothing on its
way can reach them (the wait is the model's: log entry 97), and its memory is sealed: the base is added to ENTRY, to TRAPTAB, to the
entries of the trap table and to each NEXT that is not zero, each segment's SEAL takes the seal of its bytes, and no other byte of memory
changes. IMGUL takes a loaded image that no launch uses off the list. Where the model's own readings enter: log entries 48, 69 and 97. -/
def Obligations.HostImageCommands : Prop :=
  (∀ (key base off : Nat) (bs : List Byte) (g : Seg),
    let w := walkOf bs
    let pointers := [8, 16] ++ (if imgTable bs = 0 then [] else (List.range 16).map fun c => imgTable bs + 8 * c) ++ w.segs.map fun g => g.off + 8
    let r := relocate base bs off
    let z := sealSeg key base bs g
    let body := (bs.drop g.off).take g.size
    let made := (hmac384 (leBytes 48 key)
      (leBytes 8 base ++ leBytes 8 (base + g.off) ++ (body.take 16 ++ List.replicate 16 0 ++ body.drop 32))).take 16
    sealedImage key base bs = w.segs.foldl (sealSeg key base) (pointers.foldl (relocate base) bs) ∧
    (off + 8 ≤ bs.length → r.length = bs.length ∧ fld r off 8 = (if fld bs off 8 = 0 then 0 else (fld bs off 8 + base) % 2 ^ 64) ∧
      ∀ j, j < off ∨ off + 8 ≤ j → nth 0 r j = nth 0 bs j) ∧
    (g.off + 32 ≤ bs.length → z.length = bs.length ∧ (z.drop (g.off + 16)).take 16 = made ∧
      ∀ j, j < g.off + 16 ∨ g.off + 32 ≤ j → nth 0 z j = nth 0 bs j)) ∧
  ∀ (host : Nat) (msg : List Byte) (s : State),
    let b := msg.drop 32
    let asid := fld b 0 2
    let va := fld b 8 8
    let head := (s.memBytes asid va 64).1
    let n := 64 + imgCodesz head
    let bs := (s.memBytes asid va n).1
    let good : Prop := b.length = 16 ∧ ∀ j, 2 ≤ j → j < 8 → nth 0 b j = 0
    let meets (i : Image) : Prop :=
      i.asid = asid ∧ va < i.base + (64 + i.codesz + i.datasz) ∧ i.base < va + (n + imgDatasz head)
    let ends (status result : Nat) : Prop :=
      ∃ l, Answers (.imgld host msg) s { s with hidden := l } host msg 0x10 status result []
    let g := s.clears [(asid, va, s.codeBytes asid va)]
    let u := (s.loadImage asid va).1
    let waits := u.imageDeep asid va || u.imageBusy asid va
    let frame (p : Nat) : Option Nat := (s.translate asid (p * 65536)).map fun l => l.pa / 65536
    let apart : Prop := ∀ p ∈ pagesOf va n, ∀ q ∈ pagesOf va n,
      (frame p = frame q → p = q) ∧ ∀ x ∈ s.walkAt asid (p * 65536), frame q ≠ some (x / 65536)
    let pa (j : Nat) : Nat := (s.placeOf asid (va + j)).1
    (s.hears host msg 0x10 = true → g.2 = false → Sys2Proof.Machine.exec (.imgld host msg) s = .next g.1) ∧
    (s.takesUp host msg 0x10 → s.mergesNone = true →
      (¬good → Answers (.imgld host msg) s s host msg 0x10 2 0 []) ∧
      (good → va % 65536 ≠ 0 → ends 2 0) ∧
      (good → va % 65536 = 0 → s.deviceCheck asid va 64 false ≠ 0 → ends (s.deviceCheck asid va 64 false) 0) ∧
      (good → va % 65536 = 0 → s.deviceCheck asid va 64 false = 0 →
        ((∃ i ∈ s.images, meets i) → ends 0x0C 0) ∧
        ((∀ i ∈ s.images, ¬meets i) →
          (s.deviceCheck asid va n false ≠ 0 → ends (s.deviceCheck asid va n false) 0) ∧
          (s.deviceCheck asid va n false = 0 →
            (imageBad bs ≠ [] → ∃ x ∈ imageBad bs, (∀ y ∈ imageBad bs, x.1 < y.1 ∨ (x.1 = y.1 ∧ x.2 ≤ y.2)) ∧
              ends 0x22 (x.1 * 256 + x.2)) ∧
            (imageBad bs = [] → s.boss.sealKey ≠ none → waits = true → Idles (.imgld host msg) s) ∧
            (imageBad bs = [] → ∀ key, s.boss.sealKey = some key → waits = false →
              ∃ t : State, ∃ i : Image, Answers (.imgld host msg) s { t with images := s.images ++ [i] } host msg 0x10 0 0 [] ∧
                i.asid = asid ∧ i.base = va ∧ i.codesz = imgCodesz bs ∧ i.datasz = imgDatasz bs ∧ i.libdecl = fld bs 6 2 ∧
                i.entry = BitVec.ofNat 64 (if imgEntry bs = 0 then 0 else imgEntry bs + va) ∧
                i.traptab = BitVec.ofNat 64 (if imgTable bs = 0 then 0 else imgTable bs + va) ∧
                (∀ x, x ∈ i.segs ↔ ∃ g ∈ (walkOf bs).segs, x = (va + g.off, g.count)) ∧
                t = { s with mem := t.mem, hidden := t.hidden, spoiled := t.spoiled } ∧
                (∃ l, t = ({ s with hidden := l } : State).writeSealed key asid va bs) ∧
                (apart → (∀ j, j < n → t.mem.byte (pa j) = nth 0 (sealedImage key va bs) j) ∧
                  ∀ a, (∀ j, j < n → a ≠ pa j) → t.mem.byte a = s.mem.byte a)))))) ∧
    (s.takesUp host msg 0x11 →
      let loaded : Prop := ∃ i ∈ s.images, i.asid = asid ∧ i.base = va
      let used : Prop := ∃ p ∈ s.launches, p.2.done = false ∧ p.2.asid = asid ∧ p.2.image = va
      (¬good → Answers (.imgul host msg) s s host msg 0x11 2 0 []) ∧
      (good → ¬loaded → Answers (.imgul host msg) s s host msg 0x11 2 0 []) ∧
      (good → loaded → used → Answers (.imgul host msg) s s host msg 0x11 0x0C 0 []) ∧
      (good → loaded → ¬used → ∃ l, Answers (.imgul host msg) s { s with images := l } host msg 0x11 0 0 [] ∧
        ∀ i, i ∈ l ↔ i ∈ s.images ∧ ¬(i.asid = asid ∧ i.base = va)))

/-- R328, R330, R348, R355, R388, R400. LAUNCH refuses in the order DENIED, QFULL, and the record's checks, and a refused launch leaves no
trace; an accepted one takes the next sequence number, and no other launch and no memory changes. ABORT answers OK, at once where every
task is reported then, and else when the last one is; it marks the launch, halts its running tasks with ABORTED, reports with ABORTED its
tasks that have not started (of teams not bound and of teams bound) and those that a swap put aside, discards its waiting ordered updates,
completes a launch that does not run yet, and leaves every other launch, and the memory, as they were. WATCH writes one watch register of
the named task, where it is on a context, and nothing of another task; on a context whose bundle is set aside the register waits for the
next bundle boundary. Where the model's own readings enter: log entries 45, 46, 50 and 70. -/
def Obligations.HostLaunchCommands : Prop :=
  (∀ (seq : Nat) (s : State),
    let l := s.theLaunch seq
    (l.askers = [] ∨ l.over = false → s.answerAborts seq = s) ∧
    (l.over = true → s.linked = true →
      (s.answerAborts seq).out = s.out ++ l.askers.map fun p =>
        { kind := 0x01, dest := p.1, body := endpointMsg 0x22 p.2 0 0 [] })) ∧
  ∀ (host : Nat) (msg : List Byte) (s : State),
    let b := msg.drop 32
    let seq := fld b 0 8
    (s.takesUp host msg 0x21 →
      let q := fld b 0 1
      let va := fld b 8 8
      let cred := b.drop 16
      let cfg := look 0 s.queues q
      let owner := bits cfg 16 16
      let held := (s.launches.filter fun p => p.2.queue == q && !p.2.done).length
      let code := s.deviceCheck owner va 128 false
      let ends (status : Nat) : Prop := ∃ l, Answers (.launch host msg) s { s with hidden := l } host msg 0x21 status 0 []
      s.mergesNone = true →
      (b.length ≠ 16 ∧ b.length ≠ 128 ∨ (∃ j, 1 ≤ j ∧ j < 8 ∧ nth 0 b j ≠ 0) ∨ 64 ≤ q → ends 2) ∧
      (b.length = 16 ∨ b.length = 128 → (∀ j, 1 ≤ j → j < 8 → nth 0 b j = 0) → q < 64 →
        (cfg.getLsbD 8 = false ∨ (b.length = 128 ∧ s.credentialOk host cred = false) → ends 0x0C) ∧
        (cfg.getLsbD 8 = true → (b.length = 128 → s.credentialOk host cred = true) →
          (256 ≤ held → ends 0x1A) ∧
          (held < 256 → va % 64 ≠ 0 → ends 2) ∧
          (held < 256 → va % 64 = 0 → code ≠ 0 → ends code) ∧
          (held < 256 → va % 64 = 0 → code = 0 → (s.memBytes owner va 128).2.any id = false →
            let rec_ := (s.memBytes owner va 128).1
            let n := fld rec_ 7 1
            let tab := (s.memBytes owner (fld rec_ 16 8) (640 * n)).1
            (recordOk rec_ true (b.length == 128) = false → ends 2) ∧
            ((s.images.find? fun i => i.asid == owner && i.base == fld rec_ 8 8) = none → ends 2) ∧
            ∀ img, (s.images.find? fun i => i.asid == owner && i.base == fld rec_ 8 8) = some img →
              recordOk rec_ true (b.length == 128) = true → s.deviceCheck owner (fld rec_ 16 8) (640 * n) false = 0 →
              (s.memBytes owner (fld rec_ 16 8) (640 * n)).2.any id = false →
              ((∃ j, j < n ∧ nodeOk img j ((tab.drop (640 * j)).take 640) = false) → ends 2) ∧
              ((∀ j, j < n → nodeOk img j ((tab.drop (640 * j)).take 640) = true) →
                ∃ t, Answers (.launch host msg) s t host msg 0x21 0 s.nextSeq [] ∧
                  t = { s with hidden := t.hidden, launches := t.launches, nextSeq := s.nextSeq + 1, boss := t.boss } ∧
                  t.boss = { s.boss with counter := if b.length = 128 then fld cred 8 8 else s.boss.counter } ∧
                  (∀ k, k ≠ s.nextSeq → t.theLaunch k = s.theLaunch k) ∧
                  let l := t.theLaunch s.nextSeq
                  l.seq = s.nextSeq ∧ l.queue = q ∧ l.asid = owner ∧ l.prio = bits cfg 0 2 ∧ l.host = some host ∧
                    l.tag = fld msg 8 8 ∧ l.image = img.base ∧ l.nnodes = n ∧ l.cpl = fld rec_ 24 8 ∧ l.dataVa = fld rec_ 48 8 ∧
                    l.started = false ∧ l.done = false ∧ l.aborted = false))))) ∧
    (s.takesUp host msg 0x22 → s.mergesNone = true →
      (b.length ≠ 8 ∨ seq = 0 ∨ s.nextSeq ≤ seq → Answers (.abort host msg) s s host msg 0x22 2 0 []) ∧
      (b.length = 8 → seq ≠ 0 → seq < s.nextSeq →
        let l := s.theLaunch seq
        (l.done = true → Answers (.abort host msg) s s host msg 0x22 0 0 []) ∧
        (l.done = false → l.seq = seq → ∃ t : State,
          ((t.theLaunch seq).over = true → Answers (.abort host msg) s t host msg 0x22 0 0 []) ∧
          ((t.theLaunch seq).over = false → Sys2Proof.Machine.exec (.abort host msg) s =
            .next (t.updLaunch seq fun l => { l with askers := l.askers ++ [(host, fld msg 8 8)] })) ∧
          let after (node team task : Nat) : Nat := (look noReport (t.launchNode seq node).reports (64 * team + task)).status
          let there (node : Nat) : Prop := node < l.nnodes ∧ node ∈ l.nodes.map Prod.fst
          (t.theLaunch seq).aborted = true ∧ (l.started = false → (t.theLaunch seq).done = true) ∧
          (∀ k, ((s.ctx k).bound = true → (s.ctx k).ending = none → (s.ctx k).arch.info.seq = seq →
              (t.ctx k).ending = some { status := 0x1C, exitCode := 0, faultPc := 0 }) ∧
            ((s.ctx k).arch.info.seq ≠ seq → (t.ctx k).ending = (s.ctx k).ending)) ∧
          (∀ node, there node → (s.launchNode seq node).complete = false → ∀ p ∈ (s.launchNode seq node).allTasks,
            p.1 ∉ (s.launchNode seq node).boundTeams → 64 * p.1 + p.2 ∉ (s.launchNode seq node).retired →
            after node p.1 p.2 = 0x1C) ∧
          (∀ cl record,
            let r := look {} (s.cluster cl).slots record
            let r' := look {} (t.cluster cl).slots record
            let counts (i : TaskInfo) (task : Nat) : Prop := there i.node ∧ (i.team, task) ∈ (s.launchNode seq i.node).allTasks
            r.info.seq = seq →
            (∀ task ∈ r.toStart, counts r.info task → after r.info.node r.info.team task = 0x1C) ∧
            (r.state = 3 → r'.state = 5 ∧ r'.saved = [] ∧ ∀ q ∈ r.saved,
              let i := q.2.arch.info
              i.seq = seq → counts i i.task → after i.node i.team i.task = 0x1C)) ∧
          (∀ u ∈ t.updates, u.ordered = true → u.info.seq = seq → u.status ≠ .waiting) ∧
          (s.updates = [] → (∀ k, (s.ctx k).signals = []) →
            (∀ q, q ≠ seq → t.theLaunch q = s.theLaunch q) ∧ (∀ k, (s.ctx k).arch.info.seq ≠ seq → (t.ctx k).arch = (s.ctx k).arch) ∧
            (l.started = true →
              (∀ c ∈ s.clusters, ∀ r ∈ c.2.slots, (r.2.info.seq = seq → r.2.toStart = []) ∧ ∀ q ∈ r.2.saved, q.2.arch.info.seq ≠ seq) →
              (∀ node, node < l.nnodes → (s.launchNode seq node).complete = false →
                (∀ p ∈ (s.launchNode seq node).unreported, p.1 ∈ (s.launchNode seq node).boundTeams) ∧
                (s.launchNode seq node).allReported = false) →
              t.mem = s.mem ∧ t.out = s.out))))) ∧
    (s.takesUp host msg 0x23 →
      let node := fld b 8 1
      let reg := fld b 9 1
      let task := fld b 10 1
      let team := fld b 12 4
      let nd := s.launchNode seq node
      let isIt (i : TaskInfo) : Prop := i.seq = seq ∧ i.node = node ∧ i.team = team ∧ i.task = task
      let good : Prop := b.length = 32 ∧ nth 0 b 11 = 0 ∧ reg < 4 ∧ fld b 16 16 % 2 ^ 23 = 0 ∧ seq ≠ 0 ∧ seq < s.nextSeq ∧
        node < (s.theLaunch seq).nnodes ∧ team < nd.gx * nd.gy * nd.gz ∧ task < nd.tasks
      (¬good → Answers (.watch host msg) s s host msg 0x23 2 0 []) ∧
      (good → ∃ t, Answers (.watch host msg) s t host msg 0x23 0 0 [] ∧ t = { s with ctxs := t.ctxs, clusters := t.clusters } ∧
        ∀ k, ((s.ctx k).bound = true → isIt (s.ctx k).arch.info → (s.ctx k).aside ≠ none → ∃ w, t.ctx k = { s.ctx k with watchNew := w } ∧
            look 0 w reg = BitVec.ofNat 128 (fld b 16 16) ∧ ∀ j, j ≠ reg → look 0 w j = look 0 (s.ctx k).watchNew j) ∧
          ((s.ctx k).bound = true → isIt (s.ctx k).arch.info → (s.ctx k).aside = none →
            ∃ w, t.ctx k = { s.ctx k with arch := { (s.ctx k).arch with watch := w } } ∧ look 0 w reg = BitVec.ofNat 128 (fld b 16 16) ∧ ∀ j, j ≠ reg → look 0 w j = look 0 (s.ctx k).arch.watch j) ∧
          (¬isIt (s.ctx k).arch.info → t.ctx k = s.ctx k)))

/-- R291, R294, R295, R388. MAPUPD waits for the atomics in flight on the pages whose MSA it sets or clears, and takes its entries in
order: one whose path has no entry, or that would change a page which a live task or a sealed image pins or holds, is refused and counted;
any other is written where the tree has it. OBJNEW issues the counter's value as the name of a new object, records the high-water mark,
and counts on; storage that is not free is never chosen, and without free storage the reply's status is one of the failures of R230, left
open (a free value of the model: log entry 98). Where the model's own readings enter: log entries 71, 96 and 98. -/
def Obligations.HostMapAndObjectCommands : Prop :=
  (∀ (host : Nat) (msg : List Byte) (s : State),
    let b := msg.drop 32
    let asid := fld b 0 2
    let n := fld b 2 2
    let es := chunks 24 n (b.drop 8)
    let before := s.beforeMap b
    let r := before.1.mapEntries asid 0 es
    let good : Prop := b.length = 8 + 24 * n ∧ (∀ j, 4 ≤ j → j < 8 → nth 0 b j = 0) ∧
      ∀ e ∈ es, (∀ j, 9 ≤ j → j < 16 → nth 0 e j = 0) ∧ 1 ≤ fld e 8 1 ∧ fld e 8 1 ≤ 3
    s.takesUp host msg 0x30 →
    (¬good → Answers (.mapupd host msg) s s host msg 0x30 2 0 []) ∧
    (good → (s.updates = [] → before = (s, true)) ∧
      (before.2 = false → Sys2Proof.Machine.exec (.mapupd host msg) s = .next before.1) ∧
      (before.2 = true → (∀ e ∈ es, ∀ f ∈ s.msaFrames asid e, before.1.updatesOn f = []) ∧
        Answers (.mapupd host msg) s r.1 host msg 0x30 0 r.2.length (r.2.flatMap fun i => leBytes 2 i)))) ∧
  (∀ (s : State) (asid n : Nat) (e : List Byte) (es : List (List Byte)),
    let level := fld e 8 1
    let lo := if level = 1 then 42 else if level = 2 then 29 else 16
    let va := fld e 0 8 / 2 ^ lo * 2 ^ lo
    let at_ (root : Nat) : Option Nat := entryAddr s.mem va ([42, 29, 16].take level) root
    let busy : Prop := 2 ^ 55 ≤ va ∨ s.rangeBusy asid va (2 ^ lo) = true ∨ s.rangeSealed asid va (2 ^ lo) = true ∨
      s.keepsOwned lo (fld e 16 8) = false
    1 ≤ level → level ≤ 3 →
    ((s.root asid = none ∨ (∀ root, s.root asid = some root → at_ root = none) ∨ busy) →
      s.mapEntries asid n (e :: es) = ((s.mapEntries asid (n + 1) es).1, n :: (s.mapEntries asid (n + 1) es).2)) ∧
    (∀ root a, s.root asid = some root → at_ root = some a → ¬busy → s.plain → s.uncached →
      ∃ l, s.mapEntries asid n (e :: es) =
        ({ s with mem := s.mem.store a ((e.drop 16).take 8), hidden := l } : State).mapEntries asid (n + 1) es)) ∧
  ∀ (host base : Nat) (msg : List Byte) (s : State),
    let b := msg.drop 32
    let asid := fld b 0 2
    let len := fld b 8 8
    let rights := chunks 8 16 (b.drop 16)
    let good : Prop := 16 ≤ b.length ∧ b.length % 8 = 0 ∧ b.length ≤ 144 ∧ (∀ j, 2 ≤ j → j < 8 → nth 0 b j = 0) ∧ 1 ≤ len ∧ len < 2 ^ 48 ∧
      s.nameCtr < 2 ^ 96 ∧ ∀ r ∈ rights, (fld r 6 1 = 1 ∨ fld r 6 1 = 3) ∧ nth 0 r 7 = 0
    s.takesUp host msg 0x31 →
    (¬good → Answers (.objnew host msg base) s s host msg 0x31 2 0 []) ∧
    (good → s.storageFree asid base len = false → s.storageAnywhere asid len = true → Idles (.objnew host msg base) s) ∧
    (good → s.storageFree asid base len = false → s.storageAnywhere asid len = false →
      ∃ code, code ∈ [1, 2, 3, 4, 5, 6, 7, 8, 9, 10, 11, 12, 13, 15, 16, 17, 18, 19, 20, 21, 22, 24, 25, 26, 27, 28, 32, 33, 34, 35] ∧
        Answers (.objnew host msg base) s { s with draws := s.draws + 1 } host msg 0x31 code 0 []) ∧
    (good → s.storageFree asid base len = true →
      let name := BitVec.ofNat 128 (s.part.serial * 2 ^ 96 + s.nameCtr)
      ∃ e : NameEntry, e.base = base ∧ e.len = len ∧ e.asid = asid ∧ e.pages = s.pagesAt asid base len ∧ e.count = 0 ∧
        e.live = true ∧ e.holders = [] ∧
        e.rights = (rights.map fun r => (fld r 0 4, fld r 4 2, fld r 6 1)) ∧
        Answers (.objnew host msg base) s { s with
          names := s.names ++ [(name, e)], nameCtr := s.nameCtr + 1
          nameHigh := max s.nameHigh (s.nameCtr / 2 ^ 24 * 2 ^ 24 + 2 ^ 24) } host msg 0x31 0 0 (leBytes 16 name.toNat))

/-! ### The Headframe port and the Fireboss (spec/19) -/

/-- R394, R395, R397, R399, R402. The Headframe port: a command with a bad layout or signature is DENIED with no other effect, an OP that
is not listed and a body of the wrong length give BADPARAM; STATUS answers the 160 bytes of R399, PCAP sets a cap within its range, RESET
sends OK and stops the module, ZEROISE erases the keys and the host list besides; and after level 3 nothing is answered but STATUS,
unsigned. R394, R395. FWUPD: content of types 0 and 1 must carry Freten's signature, a management key must be a point of the curve in its
97 bytes and a host list at most 16 whole entries; what is accepted waits for the next module reset, but a management key where none is
held, whose command is checked against the key that it carries, is held at once. Where the model's own readings enter: log entries 72 and
99. -/
def Obligations.HeadframeCommands : Prop :=
  (∀ (msg : List Byte) (s : State),
    let op := fld msg 4 2
    let b := headBody msg
    let reply (status : Nat) (body : List Byte) : List Byte :=
      let m := leBytes 4 0x48464D47 ++ leBytes 2 op ++ leBytes 2 status ++ leBytes 8 (fld msg 8 8) ++ leBytes 4 body.length ++
        leBytes 4 0 ++ body
      m ++ s.boss.sign m
    let sends (i : Instr) (t : State) (status : Nat) (body : List Byte) : Prop :=
      Sys2Proof.Machine.exec i s = .next { t with out := s.out ++ [{ kind := 0x02, dest := 0, body := reply status body }] }
    let die (d : Nat) : List Byte := leBytes 8 (s.part.diecap d)
    let fields := b ++ leBytes 4 s.part.serial ++ leBytes 1 s.boss.alarm ++ leBytes 1 s.boss.stage ++ leBytes 2 0 ++
      (die 0 ++ (die 1 ++ (die 2 ++ die 3))) ++ leBytes 4 s.boss.power ++ leBytes 4 s.boss.cap ++ leBytes 2 s.boss.inlet ++
      leBytes 2 s.boss.tjmax ++ leBytes 4 s.libver ++ (sha384 (look [] s.boss.firmware 0)).take 24 ++
      (sha384 (look [] s.boss.firmware 1)).take 24 ++ leBytes 24 0
    let stopped (t : State) : Prop :=
      t.boss.stage = 1 ∧ t.mem = {} ∧ t.ctxs = [] ∧ t.cores = [] ∧ t.clusters = [] ∧ t.launches = [] ∧ t.queues = [] ∧ t.images = [] ∧
      t.names = [] ∧ t.libver = 0 ∧ t.nameCtr = s.nameHigh ∧ t.nameHigh = s.nameHigh ∧ t.boss.firmware = s.boss.firmware
    (s.boss.idKey = none → ∀ m, s.boss.sign m = List.replicate 96 0) ∧
    (∀ d, s.boss.idKey = some d → ∀ m, ∃ k, 1 ≤ k ∧ k < n384 ∧ s.boss.sign m =
      beBytes 48 (ecdsaSign d m 8 k).1 ++ beBytes 48 (ecdsaSign d m 8 k).2) ∧
    (s.boss.erased = true →
      (∀ i ∈ [Instr.pcap msg, .reset msg, .fwupd msg, .zeroise msg, .headframeUnlistedOp msg], Idles i s) ∧
      (op = 1 → headOk msg = true → b.length = 32 → sends (.status msg) s 0 fields)) ∧
    (s.boss.erased = false →
      (∀ x ∈ [(Instr.status msg, 1), (.pcap msg, 2), (.reset msg, 3), (.fwupd msg, 4), (.zeroise msg, 5)],
        (op ≠ x.2 → Idles x.1 s) ∧ (op = x.2 → s.headSigned msg = false → sends x.1 s 0x0C [])) ∧
      (s.headSigned msg = true →
        (op = 1 → b.length ≠ 32 → sends (.status msg) s 2 []) ∧
        (op = 1 → b.length = 32 → sends (.status msg) s 0 fields) ∧
        (op = 2 → b.length ≠ 4 ∨ fld b 0 4 < 1500 ∨ 6400 < fld b 0 4 → sends (.pcap msg) s 2 []) ∧
        (op = 2 → b.length = 4 → 1500 ≤ fld b 0 4 → fld b 0 4 ≤ 6400 →
          sends (.pcap msg) { s with boss := { s.boss with cap := fld b 0 4 } } 0 []) ∧
        (op = 3 → b.length ≠ 0 → sends (.reset msg) s 2 []) ∧
        (op = 3 → b.length = 0 → ∃ t, sends (.reset msg) t 0 [] ∧ stopped t ∧ t.boss.sealKey = s.boss.sealKey ∧
          t.boss.mgmtKey = s.boss.mgmtKey ∧ t.boss.hosts = s.boss.hosts ∧ t.boss.staged = s.boss.staged) ∧
        (op = 5 → b.length ≠ 0 → sends (.zeroise msg) s 2 []) ∧
        (op = 5 → b.length = 0 → ∃ t, sends (.zeroise msg) t 0 [] ∧ stopped t ∧ t.boss.sealKey = none ∧ t.boss.mgmtKey = none ∧
          t.boss.hosts = []) ∧
        (5 < op ∨ op = 0 → sends (.headframeUnlistedOp msg) s 2 []))) ∧
    (1 ≤ op → op ≤ 5 → Idles (.headframeUnlistedOp msg) s)) ∧
  (∀ (msg : List Byte) (s : State),
    let b := headBody msg
    let kind := fld b 0 1
    let n := fld b 4 4
    let c := (b.drop 8).take n
    let sends (t : State) (status : Nat) : Prop := ∃ m, Sys2Proof.Machine.exec (.fwupd msg) s =
      .next { t with out := s.out ++ [{ kind := 0x02, dest := 0, body := m }] } ∧ fld m 6 2 = status ∧ fld m 8 8 = fld msg 8 8
    let whole : Prop := b.length = 8 + n ∧ b.length ≤ 65536 ∧ kind ≤ 3
    let clean : Prop := nth 0 b 1 = 0 ∧ nth 0 b 2 = 0 ∧ nth 0 b 3 = 0 ∧ (kind = 3 → ∀ e ∈ chunks 24 16 c, ∀ j, 17 ≤ j → j < 24 → nth 0 e j = 0)
    let list : Prop := c.length % 24 = 0 ∧ c.length ≤ 384 ∧ ∀ e ∈ chunks 24 16 c, fld e 16 1 ≤ 1
    let waits : State := { s with boss := { s.boss with staged := put none s.boss.staged kind (some c) } }
    s.boss.erased = false → fld msg 4 2 = 4 → s.headSigned msg = true →
    (¬whole → sends s 2) ∧ (whole → ¬clean → sends s 0x0C) ∧
    (whole → clean → kind ≤ 1 → Config.fretenSigned c = false → sends s 0x22) ∧
    (whole → clean → kind ≤ 1 → Config.fretenSigned c = true → sends waits 0) ∧
    (whole → clean → kind = 2 → (c.length ≠ 97 ∨ sec1Key c = none) → sends s 2) ∧
    (whole → clean → kind = 2 → c.length = 97 → sec1Key c ≠ none →
      (s.boss.mgmtKey = none → sends { s with boss := { s.boss with mgmtKey := some c } } 0) ∧
      (s.boss.mgmtKey ≠ none → sends waits 0)) ∧
    (whole → clean → kind = 3 → ¬list → sends s 2) ∧ (whole → clean → kind = 3 → list → sends waits 0))

/-- R401, R396, R397, R398. A module reset leaves every memory, context, launch, queue, image and name empty, and the Fireboss's own store
as it was; the content that waited is installed; a Fireboss image that fails its signature halts the module erased, an Overman image that
fails holds it in standby, and else it runs, with the sealing key that it held, or a new one. Where the model's own readings enter: log
entries 10, 73 and 96. -/
def Obligations.ModuleResetStates : Prop :=
  ∀ (overman fireboss : Bool) (failed : List (Nat × Nat)) (s : State),
    (s.boss.erased = true → Idles (.moduleReset overman fireboss failed) s) ∧
    (s.boss.erased = false →
      ∃ t, Sys2Proof.Machine.exec (.moduleReset overman fireboss failed) s = .next t ∧
        (s.boss.stage ≠ 1 →
          t.mem = {} ∧ t.ctxs = [] ∧ t.cores = [] ∧ t.clusters = [] ∧ t.updates = [] ∧ t.launches = [] ∧ t.queues = [] ∧
          t.images = [] ∧ t.roots = [] ∧ t.names = [] ∧ t.libver = 0 ∧ t.nextSeq = 1 ∧ t.nameCtr = s.nameHigh ∧
          t.nameHigh = s.nameHigh ∧ t.boss.alarm = (if fireboss then 0 else 3)) ∧
        t.out = s.out ∧ t.script = s.script ∧
        (fireboss = false → t.boss.stage = 3 ∧ t.boss.erased = true ∧ t.boss.sealKey = none ∧ t.boss.mgmtKey = none) ∧
        (fireboss = true → overman = false → t.boss.stage = 0 ∧ t.part = s.part) ∧
        (fireboss = true → overman = true → t.boss.stage = 2 ∧
          t.boss.sealKey = (match s.boss.sealKey with | some k => some k | none => some (Config.drawnKey s.draws)) ∧
          t.region = (16, 16) ∧
          (∀ d kind n, n < perDie kind → kind < 4 → d < 4 →
            t.part.present d kind n = ((s.part.shippedBits d kind).testBit n && !failed.contains (kind, d * perDie kind + n)))) ∧
        (fireboss = true →
          t.boss.counter = s.boss.counter ∧
          (∀ c, look none s.boss.staged 3 = some c → t.boss.hosts = chunks 24 16 c) ∧
          (look none s.boss.staged 3 = none → t.boss.hosts = s.boss.hosts) ∧
          (∀ c, look none s.boss.staged 2 = some c → t.boss.mgmtKey = some c) ∧
          (look none s.boss.staged 2 = none → t.boss.mgmtKey = s.boss.mgmtKey) ∧ t.boss.staged = []))

/-- R6, R396, R397, R402, R403. A sample keeps what STATUS reports and raises the alarm to the level of the worst condition that it meets,
logged where that is 1; level 2 halts the module and level 3 erases its keys and its images besides; the clocks step down while the cap is
exceeded or it is hot, and up again; a removed unit is no longer present, and the tasks on it halt with ABORTED. Where the model's own
readings enter: log entries 74, 78 and 112. -/
def Obligations.SensorsClocksAndUnits : Prop :=
  (∀ (rail clk tj inlet power : Nat) (broken : Bool) (s : State),
    let one : Prop := (300 ≤ rail ∧ rail ≤ 800) ∨ (1050 ≤ tj ∧ tj ≤ 1150) ∨ (400 < inlet ∧ inlet ≤ 450)
    let two : Prop := 800 < rail ∨ 200 < clk ∨ 1150 < tj ∨ 450 < inlet
    ∃ t, Sys2Proof.Machine.exec (.sensorSample rail clk tj inlet power broken) s = .next t ∧
      t.boss.power = power ∧ t.boss.inlet = inlet ∧ t.boss.tjmax = tj ∧
      (one → ∃ m, t.boss.nvlog = s.boss.nvlog ++ [(s.timebase, m)]) ∧ (¬one → t.boss.nvlog = s.boss.nvlog) ∧
      (broken = false → t.mem = s.mem ∧ t.boss.sealKey = s.boss.sealKey) ∧
      (broken = true → t.boss.alarm = 3 ∧ t.boss.stage = 3 ∧ t.boss.sealKey = none ∧ t.boss.mgmtKey = none ∧
        ∀ f ∈ s.imagePages, ∀ a, f * 65536 ≤ a → a < f * 65536 + 65536 → t.mem.byte a = 0) ∧
      (broken = false → two → t.boss.alarm = max s.boss.alarm 2 ∧ t.boss.stage = 3) ∧
      (broken = false → ¬two → one → t.boss.alarm = max s.boss.alarm 1 ∧ t.boss.stage = s.boss.stage) ∧
      (broken = false → ¬two → ¬one → t.boss.alarm = s.boss.alarm ∧ t.boss.stage = s.boss.stage)) ∧
  (∀ (s : State),
    let lowers : Prop := s.boss.hot = true ∨ s.boss.cap < s.boss.power
    ∃ t, Sys2Proof.Machine.exec .clockThrottle s = .next t ∧ t = { s with boss := { s.boss with step := t.boss.step } } ∧
      (lowers → t.boss.step = if s.boss.step ≤ 1 then 1 else s.boss.step - 1) ∧
      (¬lowers → t.boss.step = if 16 ≤ s.boss.step then 16 else s.boss.step + 1)) ∧
  ∀ (kind unit : Nat) (s : State),
    let here : Prop := kind < 4 ∧ unit < 4 * perDie kind ∧ s.part.present (unit / perDie kind) kind (unit % perDie kind) = true ∧
      (s.unitErrors kind unit).due = true
    (¬here → Idles (.unitRemoval kind unit) s) ∧
    (here → ∃ t, Sys2Proof.Machine.exec (.unitRemoval kind unit) s = .next t ∧
      (∀ d k n, n < perDie k → d < 4 → k < 4 → t.part.present d k n =
        (s.part.present d k n && !decide (k = kind ∧ d * perDie k + n = unit))) ∧
      (∀ k, kind = kCl → clusterOf k = unit → (s.ctx k).bound = true → (s.ctx k).ending = none →
        (t.ctx k).ending = some { status := 0x1C, exitCode := 0, faultPc := 0 }) ∧
      (kind = kCl → ∀ q ∈ s.groupsOn unit, listed (s.theLaunch q.1).nodes q.2.1 = true →
        ∀ team ∈ (s.launchNode q.1 q.2.1).groupTeams q.2.2, team ∉ (s.launchNode q.1 q.2.1).boundTeams →
          team ∈ (t.launchNode q.1 q.2.1).boundTeams ∧
          ∀ task, (team, task) ∈ (s.launchNode q.1 q.2.1).allTasks →
            (look noReport (t.launchNode q.1 q.2.1).reports (64 * team + task)).status = 0x1C) ∧
      (kind = kFp → ∀ l ∈ t.links, l.1 = unit → l.2.up = false))

/-! ### Launches (spec/09, spec/14) -/

/-- R261. ENQ: a poisoned queue number or extent slot takes MCHK; an offset or a number with bits that must be zero, a failed check of the
record's location and a poisoned record are kept as the submission's status; else the record is what the context sees. The token is
pending, and nothing changes but the copies that L1s hold. Where the model's own readings enter: log entries 45, 46, 47, 87 and 112. -/
def Obligations.LaunchSubmissionByTask : Prop :=
  ∀ (f : SS) (s : State),
    let a := s.rdS f.a
    let slot := f.x.toNat / 2 ^ 28
    let off := toSigned 28 (f.x.toNat % 2 ^ 28)
    let ps := s.arch.slotPages slot
    let e := s.arch.extent slot
    let code := s.checkExt s.myCore ps e off 128 64 false
    let x := s.seenBytes s.cur.ctx ps (extBase e + off.toNat) 128
    let entry (rec_ : List Byte) (status : Nat) : SbEntry :=
      { dst := .s f.d.toNat, what := .enq (a.val.toNat % 64) rec_ status s.nextId }
    (a.psn = true → Traps (.enq f) s 9 f.a.toNat) ∧
    (a.psn = false → slot ∈ s.arch.eBad → SlotPoisoned (.enq f) s slot) ∧
    (a.psn = false → slot ∉ s.arch.eBad →
      (64 ≤ a.val.toNat ∨ off % 64 ≠ 0 → Awaits (.enq f) s (entry [] 2)) ∧
      (a.val.toNat < 64 → off % 64 = 0 → code ≠ 0 → Awaits (.enq f) s (entry [] code)) ∧
      (a.val.toNat < 64 → off % 64 = 0 → code = 0 → s.quiet s.cur.ctx → s.uncached → s.misses = false →
        ∃ t, Sys2Proof.Machine.exec (.enq f) s = .next t ∧ OnlyAccess s { t with nextId := s.nextId } ∧ t.mem = s.mem ∧
          t.me = { s.me with sb := s.me.sb ++ [entry x.1 (if x.2 then 2 else 0)] } ∧ StandsBut s t fun _ => False))

/-- R329, R330. A launch starts when no launch accepted before it on its queue is still to complete, and only once; its data section goes
to DATAVA first, and where that range fails its checks every task of every node is reported with that check's name, without having run.
R334, R344. A node becomes ready just when its launch runs and every node that it names has completed with every task EXITED; no other
node, and nothing but the launches, changes. R347, R389. When every node has completed, the launch is done: its completion record, of the
table's form, is at CPLADDR where that range passes its checks, and is dropped where it does not; its host has the record as a message
where it asked for it and a port carries it. What the device reads or writes waits for the merges that it causes (R319). Where the model's
own readings enter: log entries 48, 49 and 77. -/
def Obligations.LaunchesRunAndComplete : Prop :=
  (∀ (seq : Nat) (s : State),
    let l := s.theLaunch seq
    let behind : Prop := ∃ p ∈ s.launches, p.2.queue = l.queue ∧ p.2.seq < l.seq ∧ p.2.done = false
    let can : Prop := l.seq ≠ 0 ∧ l.started = false ∧ l.done = false ∧ ¬behind
    (¬can → Idles (.launchStart seq) s) ∧
    (can → (s.clears (s.startRanges l)).2 = false →
      Sys2Proof.Machine.exec (.launchStart seq) s = .next (s.clears (s.startRanges l)).1) ∧
    (can → s.mergesNone = true → ∃ t, Sys2Proof.Machine.exec (.launchStart seq) s = .next t ∧ (t.theLaunch seq).started = true) ∧
    (can → l.replay = false → s.mergesNone = true → ∀ img, (s.images.find? fun i => i.asid == l.asid && i.base == l.image) = some img →
      let src := img.base + 64 + img.codesz
      let code := s.deviceCheck l.asid l.dataVa img.datasz true
      (l.dataVa = 0 ∨ img.datasz = 0 → Sys2Proof.Machine.exec (.launchStart seq) s =
        .next { s with launches := revise s.launches seq fun l => { l with started := true, log := [], dataFail := none } }) ∧
      (l.dataVa ≠ 0 → img.datasz ≠ 0 → code = 0 → img.datasz < 65528 →
        (∀ j, j < img.datasz → ∃ x, s.translate l.asid (src + j) = some x ∧ s.part.backed x.pa = true) →
        (∀ b ∈ (s.memBytes l.asid src img.datasz).2, b = false) →
        ∃ t, Sys2Proof.Machine.exec (.launchStart seq) s = .next t ∧ t.launches = (revise s.launches seq fun l =>
          { l with started := true, log := [], dataFail := none }) ∧
          MemStored s { t with launches := s.launches } l.asid l.dataVa (s.memBytes l.asid src img.datasz).1) ∧
      (l.dataVa ≠ 0 → img.datasz ≠ 0 → code ≠ 0 →
        ∃ t, Sys2Proof.Machine.exec (.launchStart seq) s = .next t ∧ (t.theLaunch seq).dataFail = some code ∧
          ∀ n, n < l.nnodes → listed l.nodes n = true → (t.launchNode seq n).complete = true ∧
            ∀ x y, (x, y) ∈ (s.launchNode seq n).allTasks → 64 * x + y ∉ (s.launchNode seq n).retired →
              (look noReport (t.launchNode seq n).reports (64 * x + y)).status = code))) ∧
  (∀ (seq node : Nat) (s : State),
    let l := s.theLaunch seq
    let nd := s.launchNode seq node
    let exited (p : Nat) : Prop := (s.launchNode seq p).complete = true ∧ ∀ x ∈ (s.launchNode seq p).allTasks,
      (look noReport (s.launchNode seq p).reports (64 * x.1 + x.2)).status = 0x23
    let can : Prop := l.seq ≠ 0 ∧ l.started = true ∧ l.done = false ∧ l.aborted = false ∧ l.dataFail = none ∧ node < l.nnodes ∧
      nd.ready = false ∧ nd.complete = false ∧ ∀ p ∈ nd.preds, exited p
    (¬can → Idles (.nodeReady seq node) s) ∧
    (can → listed l.nodes node = true →
      ∃ t, Sys2Proof.Machine.exec (.nodeReady seq node) s = .next t ∧ t = { s with launches := t.launches } ∧
        t.launchNode seq node = { nd with ready := true } ∧
        ∀ q n, (q ≠ seq ∨ n ≠ node) → t.launchNode q n = s.launchNode q n)) ∧
  (∀ (seq : Nat) (s : State),
    let l := s.theLaunch seq
    let can : Prop := l.seq ≠ 0 ∧ l.done = false ∧ (l.started = true ∨ l.aborted = true) ∧ ∀ p ∈ l.nodes, p.2.complete = true
    let bs := l.record_ s.timebase
    let code := s.deviceCheck l.asid l.cpl 64 true
    let done := revise s.launches seq fun l => { l with done := true }
    let told (status : Nat) : List OutMsg :=
      match l.cplmsg && s.linked, l.host with
      | true, some h => [{ kind := 0x40, dest := h, body := endpointMsg 0x40 l.tag status 0 bs }]
      | _, _ => []
    (¬can → Idles (.launchComplete seq) s) ∧
    (can → (s.clears [(l.asid, l.cpl, 64)]).2 = false →
      Sys2Proof.Machine.exec (.launchComplete seq) s = .next (s.clears [(l.asid, l.cpl, 64)]).1) ∧
    (can → s.mergesNone = true → code ≠ 0 → Sys2Proof.Machine.exec (.launchComplete seq) s =
      .next { s with launches := done, out := s.out ++ told code }) ∧
    (can → code = 0 → s.mergesNone = true → ∃ t, Sys2Proof.Machine.exec (.launchComplete seq) s =
      .next { t with launches := done, out := s.out ++ told l.status } ∧ MemStored s t l.asid l.cpl bs) ∧
    bs.length = 64 ∧ fld bs 0 2 = l.status % 65536 ∧ fld bs 8 8 = l.seq % 2 ^ 64 ∧ fld bs 16 8 = l.statuses.length % 2 ^ 64 ∧
    fld bs 24 8 = (l.statuses.filter (· != 0x23)).length % 2 ^ 64 ∧ fld bs 32 4 = l.diverge % 2 ^ 32 ∧
    fld bs 40 8 = l.logUsed % 2 ^ 64 ∧ fld bs 48 8 = s.timebase % 2 ^ 64 ∧ fld bs 63 1 = 1 ∧
    (l.aborted = true → l.status = 0x1C) ∧
    (l.aborted = false → (∀ c ∈ l.statuses, c = 0x23) → l.status = 0) ∧
    (l.aborted = false → ∀ pre c post, l.statuses = pre ++ c :: post → (∀ x ∈ pre, x = 0x23) → c ≠ 0x23 → l.status = c))

/-! ### Issue, pauses and turns (spec/01, spec/04, spec/14) -/

/-- R12, R31, R86, R253, R351. A context that the module holds back tries nothing. One whose bundle must wait (its semaphore, a pending
register, a full queue, or accesses of its own that its slots must stand behind) is blocked, with nothing of it issued; else the bundle is
open at its slot, with the pc, the control register and the pending registers as they are at issue; on its first issue the results due
have landed and the clocks have advanced by one, on re-entry neither; the watch registers written since the last boundary take effect. A
bundle that was set aside goes on with all that it read at issue. A target with no such bundle is fatal. Where the model's own readings
enter: log entries 13, 14, 17, 18, 21 and 28. -/
def Obligations.BundlesIssue : Prop :=
  (∀ (ctx : Nat) (caches : List (Nat × Nat × Bool)) (gaps : List Nat) (s : State),
    Sys2Proof.Machine.exec (.bundleIssue ctx (caches, gaps)) s = Sys2Proof.Machine.exec (.bundleIssue ctx ([], gaps)) (s.cacheAll caches)) ∧
  ∀ (ctx : Nat) (gaps : List Nat) (s : State),
    let c := s.ctx ctx
    let a := c.arch
    let i := Instr.bundleIssue ctx ([], gaps)
    let held : Prop := s.cur.open_ = true ∨ c.bound = false ∨ c.ending ≠ none ∨ c.pause ≠ 0 ∨ s.stopped (coreOf ctx) = true ∨
      (c.aside = none ∧ s.turn ctx = false)
    let others (t : State) : Prop := ∀ k, k ≠ ctx → ∃ y b w csw, t.ctx k =
      { s.ctx k with yielding := y, blocked := b, window := w, arch := { (s.ctx k).arch with csw := csw } }
    let watch := c.watchNew.foldl (fun m p => put 0 m p.1 p.2) a.watch
    (held → Idles i s) ∧
    (¬held → ∀ cur, c.aside = some cur → Sys2Proof.Machine.exec i s = .next { s.setCtx ctx { c with aside := none } with
      cur := { cur with gaps := cur.gaps.filter (cur.slot < ·) } }) ∧
    (¬held → c.aside = none → c.window = none → ∀ ws, c.bundleAt a.pos = some ws →
      let ops := slotOps ws (a.reenter.getD 0)
      (a.reenter ≠ none ∨ yWen (yOf ws) = false ∨ c.waitMet = true) → (s.place ctx ops).2 = false →
        ∃ t, Sys2Proof.Machine.exec i s = .next t ∧ t.cur = s.cur ∧ (t.ctx ctx).blocked = true ∧
          (t.ctx ctx).arch.pos = a.pos ∧ (t.ctx ctx).arch.reenter = a.reenter ∧ (t.ctx ctx).arch.s = a.s) ∧
    (¬held → c.aside = none → c.window = none → s.plain → ∀ ws, c.bundleAt a.pos = some ws →
      let ops := slotOps ws (a.reenter.getD 0)
      s.quiet ctx ∨ (∀ i ∈ ops, (s.asIssued ctx).needs i = none) →
      let y := yOf ws
      let waits : Prop := a.reenter = none ∧ yWen y = true ∧ c.waitMet = false ∧
        ((∃ p ∈ c.signals, p.sem = yWsem y) ∨ (s.sem (clusterOf ctx) a.info (yWsem y)).bal.toInt < yWthr y)
      (waits ∨ s.holds ctx ops = true →
        ∃ t met, Sys2Proof.Machine.exec i s = .next t ∧ t = { s with ctxs := t.ctxs } ∧
          t.ctx ctx = { c with blocked := true, waitMet := met } ∧ ∀ k, k ≠ ctx → t.ctx k = s.ctx k) ∧
      (¬waits → s.holds ctx ops = false → s.bankWait ctx ops = true →
        ∃ t, Sys2Proof.Machine.exec i s = .next t ∧ t.cur = s.cur ∧ t.mem = s.mem ∧ (t.ctx ctx).arch = a ∧
          t.core (coreOf ctx) = { s.core (coreOf ctx) with
            pipeFrozen := true, holder := some ctx
            streak := if (s.core (coreOf ctx)).holder = some ctx then (s.core (coreOf ctx)).streak else 0 }) ∧
      (¬waits → s.holds ctx ops = false → s.bankWait ctx ops = false → a.reenter.getD 0 < 7 →
        ∃ t fetches, Sys2Proof.Machine.exec i s = .next t ∧ others t ∧ t.mem = s.mem ∧ t.clusters = s.clusters ∧
          (t.core (coreOf ctx)).holder = some ctx ∧
          t.cur = { open_ := true, ctx := ctx, slot := a.reenter.getD 0, words := ws, pc := a.pos, csw := a.csw, pend := c.pendS
                    since := c.sb.length, fresh := !c.curHalf.residentIn (ptrSeg a.pos), gaps := gaps
                    t := if a.reenter.isSome then a.savedAt else a.at_
                    clock := if a.reenter.isSome then a.savedCycle else a.cycle } ∧
          (t.ctx ctx).watchNew = [] ∧
          (a.reenter ≠ none → (t.ctx ctx).arch = { a with reenter := none, fetches := fetches, watch := watch } ∧
            (t.ctx ctx).window = none) ∧
          (a.reenter = none →
            (t.ctx ctx).arch = { ((s.landBy ctx a.at_).ctx ctx).arch with
              cycle := a.cycle + 1, at_ := a.at_ + 1, fetches := fetches, watch := watch } ∧
            (t.ctx ctx).window = if yLcnt y = 0 then none else
              some { mask := BitVec.ofNat 16 (yLmask y), left := yLcnt y, chain := 15, born := s.steps, opened := s.steps }))) ∧
    (¬held → c.aside = none → c.window = none → c.bundleAt a.pos = none →
      let here : Prop := c.curHalf.residentIn (ptrSeg a.pos) = true ∨ c.idleHalf.residentIn (ptrSeg a.pos) = true
      ∃ t, Sys2Proof.Machine.exec i s = .next t ∧ t.mem = s.mem ∧ (∀ k, k ≠ ctx → t.ctx k = s.ctx k) ∧
        (here → (t.ctx ctx).ending = some { status := 0x20, exitCode := 0, faultPc := a.pos }) ∧
        (¬here → (t.ctx ctx).blocked = true ∧ (t.ctx ctx).ending = none ∧ (t.ctx ctx).idleHalf.seg = some (ptrSeg a.pos)))

/-- R31, R32, R33, R104, R253, R256, R339. What passes between bundles. Results due by a position leave their flight and are in their
registers, and no other register changes; of several results of one position in one predicate the last takes effect and the others are
discarded; a pause ends with the clock advanced by its cycles and the results due in it landed; a satisfied wait stays noted; a window
whose bundles are over ends without a flag; a turn is given up after 1,024 bundles, and a context waits out its YIELD until every other
ready context of the core has issued. Where the model's own readings enter: log entries 21 and 28. -/
def Obligations.PausesTurnsAndWindows : Prop :=
  (∀ (ctx now : Nat) (s : State),
    let a := (s.ctx ctx).arch
    let b := ((s.landBy ctx now).ctx ctx).arch
    b.flight = a.flight.filter (fun f => decide (now < f.due)) ∧
    (∀ n, (∀ f ∈ a.flight, f.due ≤ now → ∀ v, f.dst ≠ .s n v) → look {} b.s n = look {} a.s n) ∧
    (∀ n, (∀ f ∈ a.flight, f.due ≤ now → ∀ v, f.dst ≠ .v n v) → look {} b.v n = look {} a.v n) ∧
    (∀ n v, (∃ f ∈ a.flight, f.due ≤ now ∧ f.dst = .s n v) →
      (∀ f ∈ a.flight, f.due ≤ now → ∀ w, f.dst = .s n w → w = v) → look {} b.s n = v) ∧
    (∀ n v, (∃ f ∈ a.flight, f.due ≤ now ∧ f.dst = .v n v) →
      (∀ f ∈ a.flight, f.due ≤ now → ∀ w, f.dst = .v n w → w = v) → look {} b.v n = v) ∧
    (∀ d pre f post n bs m, a.flight.filter (fun f => decide (f.due ≤ now)) = pre ++ f :: post →
      (∀ g ∈ pre ++ f :: post, g.due = d) → f.dst = .p n bs m → (∀ g ∈ post, f.dst.rivals g.dst = false) →
      look 0 b.p n = maskMerge (look 0 a.p n) bs m)) ∧
  ∀ (ctx : Nat) (s : State),
    let c := s.ctx ctx
    let a := c.arch
    let still : Prop := c.pause = 0 ∨ c.bound = false ∨ s.stopped (coreOf ctx) = true
    (still → Idles (.pauseEnd ctx) s ∧ Idles (.fixedResultLand ctx) s) ∧
    (¬still →
      (∃ t, Sys2Proof.Machine.exec (.pauseEnd ctx) s = .next t ∧ (t.ctx ctx).pause = 0 ∧
        (t.ctx ctx).arch.cycle = a.cycle + BitVec.ofNat 64 c.pause ∧ (t.ctx ctx).arch.at_ = a.at_ ∧
        (t.ctx ctx).arch.s = ((s.landBy ctx (a.at_ - 1)).ctx ctx).arch.s ∧
        (t.ctx ctx).arch.flight = ((s.landBy ctx (a.at_ - 1)).ctx ctx).arch.flight ∧ t.mem = s.mem) ∧
      (∃ t, Sys2Proof.Machine.exec (.fixedResultLand ctx) s = .next t ∧ t.mem = s.mem ∧ (t.ctx ctx).pause = c.pause ∧
        ((∀ f ∈ a.flight, a.at_ - 1 < f.due) → t = s) ∧
        ∀ d, (∃ f ∈ a.flight, f.due = d) → (∀ f ∈ a.flight, d ≤ f.due) → d ≤ a.at_ - 1 →
          t.cores = (s.landBy ctx d).cores ∧ t.ctx ctx = (s.landBy ctx d).ctx ctx)) ∧
    (∀ ws, c.bundleAt a.pos = some ws → s.due ctx = true → c.waitMet = false →
      let y := yOf ws
      let met : Prop := yWen y = true ∧ (∀ p ∈ c.signals, p.sem ≠ yWsem y) ∧
        yWthr y ≤ (s.sem (clusterOf ctx) a.info (yWsem y)).bal.toInt
      (met → Sys2Proof.Machine.exec (.waitSatisfied ctx) s = .next (s.setCtx ctx { c with waitMet := true })) ∧
      (¬met → Idles (.waitSatisfied ctx) s)) ∧
    (s.due ctx = false ∨ c.waitMet = true ∨ c.bundleAt a.pos = none → Idles (.waitSatisfied ctx) s) ∧
    (∃ t, Sys2Proof.Machine.exec (.lockWindowEnd ctx) s = .next t ∧
      (∀ w, c.window = some w → w.left = 0 → c.aside = none → ¬(s.cur.open_ = true ∧ s.cur.ctx = ctx) →
        t.ctx ctx = { c with window := none }) ∧
      (c.window = none ∨ (∃ w, c.window = some w ∧ w.left ≠ 0) ∨ c.aside ≠ none ∨ (s.cur.open_ = true ∧ s.cur.ctx = ctx) →
        t.ctx ctx = c) ∧ ∀ k, k ≠ ctx → t.ctx k = s.ctx k) ∧
    (let co := s.core (coreOf ctx)
     let must : Prop := co.holder = some ctx ∧ 1024 ≤ co.streak ∧ s.rival ctx = true ∧ s.cur.open_ = false ∧ c.aside = none ∧
       s.stopped (coreOf ctx) = false
     (¬must → Idles (.forcedYield ctx) s) ∧
     (must → ∃ t, Sys2Proof.Machine.exec (.forcedYield ctx) s = .next t ∧ t.ctx ctx = { c with yielding := some (s.coreMates ctx) } ∧
       t.core (coreOf ctx) = { co with holder := none, streak := 0 } ∧ ∀ k, k ≠ ctx → t.ctx k = s.ctx k)) ∧
    (c.yielding = none → Idles (.yieldTurnEnd ctx) s) ∧
    (∀ l, c.yielding = some l →
      ((∀ j ∈ l, s.ready_ j = false) ∨ s.rival ctx = false →
        Sys2Proof.Machine.exec (.yieldTurnEnd ctx) s = .next (s.setCtx ctx { c with yielding := none })) ∧
      ((∃ j ∈ l, s.ready_ j = true) → s.rival ctx = true → Idles (.yieldTurnEnd ctx) s))

/-- R266, R270, R273, R279, R288, R289. A segment becomes resident only as its read, its checks and its seal allow; a failed expansion
leaves the half empty, and ends the task with BADTARGET, or takes MCHK where a byte was marked, only when a bundle of it is due. A freeze
lasts 24 cycles from its last error; an uncorrectable error marks, poisons or drops what the table says, and nothing else: units of the
scratchpad, an L1, the weight buffer, a cluster store and memory, accumulator rows, scalar and vector registers, the transform buffer and
its staging rows, a stream's FIFO, a rule value, an extent slot, an entry of a name cache. Where the model's own readings enter: log
entries 22, 23, 78 and 112. -/
def Obligations.FetchesFreezesAndErrors : Prop :=
  (∀ (ctx half seg : Nat) (target : Bool) (s : State),
    let c := s.ctx ctx
    let i := Instr.segmentExpansion ctx half
    let other (d : Ctx) : Half := if half = 0 then d.halfB else d.halfA
    let mine (d : Ctx) : Half := if half = 0 then d.halfA else d.halfB
    let due : Prop := c.bound = true ∧ c.ending = none ∧ c.pause = 0 ∧ c.aside = none ∧ ¬(s.cur.open_ = true ∧ s.cur.ctx = ctx) ∧
      ptrSeg c.arch.pos = seg ∧ c.curHalf.residentIn seg = false
    ((∀ x y, mine c ≠ .expanding x y) → Idles i s) ∧
    (mine c = .expanding seg target →
      ∃ t, Sys2Proof.Machine.exec i s = .next t ∧ t.mem = s.mem ∧ (¬due → t.cores = s.cores) ∧
        (∀ last next bs, s.expandSeg c.arch.info seg = .good last next bs →
          (t.ctx ctx).ending = c.ending ∧ ((c.bound = true ∧ ptrSeg c.arch.pos = seg) ∨ c.bound = false →
            mine (t.ctx ctx) = .resident seg last next bs)) ∧
        ((∀ last next bs, s.expandSeg c.arch.info seg ≠ .good last next bs) →
          (¬due → mine (t.ctx ctx) = .empty ∧ other (t.ctx ctx) = other c ∧ (t.ctx ctx).arch = c.arch ∧ (t.ctx ctx).ending = c.ending) ∧
          (due → c.arch.handlerStart = true →
            (t.ctx ctx).ending = some { status := 0x21, exitCode := 0, faultPc := c.arch.trappc }) ∧
          (due → c.arch.handlerStart = false → s.expandSeg c.arch.info seg = .bad →
            (t.ctx ctx).ending = some { status := 0x20, exitCode := 0, faultPc := c.arch.pos }) ∧
          (due → c.arch.handlerStart = false → s.expandSeg c.arch.info seg = .poisoned → c.arch.csw.getLsbD 3 = false →
            (t.ctx ctx).arch.trappc = c.arch.pos ∧ (t.ctx ctx).arch.trapcause = 9 ∧ (t.ctx ctx).arch.trapinfo = 128)))) ∧
  (∀ (ctx half : Nat) (s : State), (s.ctx ctx).bound = false → Idles (.loopBufferError ctx half) s) ∧
  (∀ (ctx half : Nat) (s : State), let c := s.ctx ctx
    c.bound = true → ∃ t, Sys2Proof.Machine.exec (.loopBufferError ctx half) s = .next t ∧ t = { s with ctxs := t.ctxs } ∧
      (∀ seg last next bs, (if half = 0 then (t.ctx ctx).halfA else (t.ctx ctx).halfB) ≠ .resident seg last next bs) ∧
      (t.ctx ctx).arch = { c.arch with fetches := (t.ctx ctx).arch.fetches, csw := (t.ctx ctx).arch.csw } ∧
      (c.window = none → (t.ctx ctx).arch.csw = c.arch.csw) ∧ (t.ctx ctx).ending = c.ending ∧
      ∀ k, k ≠ ctx → t.ctx k = s.ctx k) ∧
  (∀ (kind unit : Nat) (s : State), let co := s.core unit
    let one (key : Nat) (m : FMap UnitErrors) : Prop :=
      let e := look {} s.errors key
      let l := s.timebase :: e.recent.filter fun t => decide (s.timebase < t + 3600 * 2000000000)
      look {} m key = { recent := l, due := e.due || decide (256 < l.length) } ∧ ∀ j, j ≠ key → look {} m j = look {} s.errors j
    ∃ m, one (if kind = 1 then 32 + unit / 16 else if kind = 4 then 32 + unit else 32 * kind + unit) m ∧
      Sys2Proof.Machine.exec (.correctableErrorFreeze (kind, unit)) s = .next (if kind = 1 then
        { s.setCore unit { co with frozen := if s.time + 24 < co.frozen then co.frozen else s.time + 24 } with errors := m }
      else { s with errors := m })) ∧
  (∀ (core bank : Nat) (s : State), let co := s.core core
    (co.frozen ≠ 0 → co.frozen ≤ s.time → Sys2Proof.Machine.exec (.freezeEnd core) s = .next (s.setCore core { co with frozen := 0 })) ∧
    (co.frozen = 0 ∨ s.time < co.frozen → Idles (.freezeEnd core) s) ∧
    (s.locked core bank = true ∨ s.time < look 0 co.starved bank + 64 → Idles (.engineStarvation core bank) s) ∧
    (s.locked core bank = false → look 0 co.starved bank + 64 ≤ s.time →
      ∃ m, Sys2Proof.Machine.exec (.engineStarvation core bank) s = .next (s.setCore core { co with starved := m }) ∧
        look 0 m bank = s.time ∧ ∀ b, b ≠ bank → look 0 m b = look 0 co.starved b)) ∧
  ∀ (kind unit addr : Nat) (s : State),
    let c := s.ctx unit
    let co := s.core unit
    ∃ t, Sys2Proof.Machine.exec (.uncorrectableError kind unit addr) s = .next t ∧
      (kind = 0 → addr < 2 ^ 17 → t = { s with cores := t.cores } ∧
        t.core unit = { co with spm := (t.core unit).spm } ∧ (∀ k, k ≠ unit → t.core k = s.core k) ∧
        (∀ b, (t.core unit).spm.byte b = co.spm.byte b) ∧
        ∀ u, (t.core unit).spm.mark u = (co.spm.mark u || decide (u = addr))) ∧
      (kind = 1 → t.mem = s.mem ∧
        ((co.l1Unit addr).here = true → t = { s with cores := t.cores } ∧ (t.core unit).l1Unit addr = { co.l1Unit addr with val := 0, psn := true } ∧
          ∀ u, u ≠ addr → (t.core unit).l1Unit u = co.l1Unit u) ∧
        ((co.l1Unit addr).here = false → t = { s with spoiled := s.spoiled ++ [(unit, addr)] })) ∧
      (16 ≤ kind → ∃ m, t = { s with errors := m } ∧ (look {} m (32 * (kind - 16) + unit)).due = true) ∧
      (kind = 2 → addr < 1024 → t = { s with cores := t.cores } ∧ (look {} (t.core unit).acc addr).psn = true ∧
        ∀ r, r ≠ addr → look {} (t.core unit).acc r = look {} co.acc r) ∧
      (kind = 4 → 0 < addr → addr < 64 → c.bound = true → t = { s with ctxs := t.ctxs } ∧
        look {} (t.ctx unit).arch.s addr = { val := 0, psn := true } ∧
        ∀ n, n ≠ addr → look {} (t.ctx unit).arch.s n = look {} c.arch.s n) ∧
      (kind = 5 → addr < 32 → c.bound = true → t = { s with ctxs := t.ctxs } ∧
        look {} (t.ctx unit).arch.v addr = { bits := 0, tag := (look {} c.arch.v addr).tag, psn := true } ∧
        ∀ n, n ≠ addr → look {} (t.ctx unit).arch.v n = look {} c.arch.v n) ∧
      (kind = 3 → addr < 4096 → t = { s with cores := t.cores } ∧ t.core unit = { co with wb := (t.core unit).wb } ∧
        (∀ k, k ≠ unit → t.core k = s.core k) ∧ (∀ b, (t.core unit).wb.byte b = co.wb.byte b) ∧
        ∀ u, (t.core unit).wb.mark u = (co.wb.mark u || decide (u / 8 = addr))) ∧
      (kind = 6 → addr < 8 → c.bound = true → t = { s with ctxs := t.ctxs } ∧ (t.ctx unit).arch.xstage = c.arch.xstage ∧
        look {} (t.ctx unit).arch.xbuf addr = { bits := 0, tag := (look {} c.arch.xbuf addr).tag, psn := true } ∧
        ∀ n, n ≠ addr → look {} (t.ctx unit).arch.xbuf n = look {} c.arch.xbuf n) ∧
      (kind = 6 → 8 ≤ addr → addr < 16 → c.bound = true → t = { s with ctxs := t.ctxs } ∧ (t.ctx unit).arch.xbuf = c.arch.xbuf ∧
        look {} (t.ctx unit).arch.xstage (addr - 8) = { bits := 0, tag := (look {} c.arch.xstage (addr - 8)).tag, psn := true } ∧
        ∀ n, n ≠ addr - 8 → look {} (t.ctx unit).arch.xstage n = look {} c.arch.xstage n) ∧
      (kind = 7 → addr < 16 → c.bound = true → t = { s with ctxs := t.ctxs } ∧
        let q := look {} c.arch.q (addr / 4)
        let q' := look {} (t.ctx unit).arch.q (addr / 4)
        q' = { q with fifo := q'.fifo } ∧ q'.fifo.length = q.fifo.length ∧
        (∀ n, q'.fifo[n]? = if n = addr % 4 then q.fifo[n]?.map fun _ => { bits := 0, psn := true } else q.fifo[n]?) ∧
        ∀ n, n ≠ addr / 4 → look {} (t.ctx unit).arch.q n = look {} c.arch.q n) ∧
      (kind = 8 → addr < 2 ^ 19 → t = { s with clusters := t.clusters } ∧
        (∀ k, k ≠ unit → t.cluster k = s.cluster k) ∧ t.cluster unit = { s.cluster unit with store := (t.cluster unit).store } ∧
        (∀ b, (t.cluster unit).store.byte b = (s.cluster unit).store.byte b) ∧
        ∀ u, (t.cluster unit).store.mark u = ((s.cluster unit).store.mark u || decide (u / 8 = addr))) ∧
      (kind = 10 → t = { s with cores := t.cores } ∧ (∀ k, k ≠ unit → t.core k = s.core k) ∧
        t.core unit = { co with lq := co.lq.map fun x => if x.running then { x with values := put 0 x.values (2 * addr + 1) 1 } else x }) ∧
      (kind = 11 → t = { s with clusters := t.clusters } ∧ (∀ k, k ≠ unit → t.cluster k = s.cluster k) ∧
        t.cluster unit = { s.cluster unit with names := (s.cluster unit).names.eraseIdx addr }) ∧
      (kind = 12 → t = { s with mem := t.mem } ∧ (∀ b, t.mem.byte b = s.mem.byte b) ∧
        ∀ u, t.mem.mark u = (s.mem.mark u || decide (u = addr))) ∧
      (kind = 13 → addr < 16 → c.bound = true → t = { s with ctxs := t.ctxs } ∧ (∀ k, k ≠ unit → t.ctx k = s.ctx k) ∧
        t.ctx unit = { c with arch := { c.arch with eBad := (t.ctx unit).arch.eBad } } ∧
        ∀ n, n ∈ (t.ctx unit).arch.eBad ↔ n ∈ c.arch.eBad ∨ n = addr) ∧
      (kind = 14 ∨ kind = 15 → t = s) ∧
      (kind = 9 → t = { s with mem := t.mem } ∧ (∀ b, t.mem.byte b = s.mem.byte b) ∧
        ∀ u, t.mem.mark u = (s.mem.mark u || decide (u / 8 = addr)))

/-! ### Results that arrive, updates, and the end of a task (spec/01, spec/12, spec/13, spec/14) -/

/-- R12, R34, R252, R254, R261, R182. A scoreboarded result that has come lands: it leaves the scoreboard, its register takes the value,
and so does every queued command that waits for it; a result of an update or a command lands with that alone, and one that a bundle set
aside has made when that bundle is over; an access whose point in T is still to come keeps its result back; SGET's waits for the context's
own earlier signals and ENQ's for its earlier updates and accesses; ENQ's submission is decided as it lands, once no merge holds its node
table. R193 to R196, R296, R297. NRES binds its slot to a live object that the task has a right on, with W where the right and the pages
allow it; an object that a removal has left without a page gives EXTENT; NSTAT answers the object's pages; NKILL takes the name out of
use, sends the shoot-downs, and lands when no cache and no holder has it; each fails with the status of the first check that fails, and a
name of another module gets its home's answer, or UNREACHABLE. Where the model's own readings enter: log entries 27, 29, 91, 92, 95 and
119. -/
def Obligations.ResultsLand : Prop :=
  ∀ (ctx entry answer pages : Nat) (s : State),
    let c := s.ctx ctx
    let i := Instr.scoreboardResultLand ctx entry answer pages
    let lands (b t : State) (n : Nat) (v : SReg) : Prop :=
      (∀ k, k ≠ ctx → t.ctx k = b.ctx k) ∧ t.mem = b.mem ∧ t.updates = b.updates ∧
      (t.ctx ctx).sb = c.sb.eraseIdx entry ∧ (n ≠ 0 → look {} (t.ctx ctx).arch.s n = v) ∧
      (∀ m, m ≠ n → look {} (t.ctx ctx).arch.s m = look {} (b.ctx ctx).arch.s m) ∧
      (∀ x ∈ (t.core (coreOf ctx)).cq, x.ctx = ctx → .await n ∉ x.toks) ∧
      (∀ x ∈ (t.core (coreOf ctx)).mq, x.ctx = ctx → .await n ∉ x.toks)
    let next (t : State) : Prop := Sys2Proof.Machine.exec i s = .next t
    let asid := c.arch.info.asid
    let found (cached : Bool) (name : BitVec 128) : Nat :=
      if nameSeq name = 0 ∨ s.nameCtr ≤ nameSeq name then 0x0B else match s.nameEntry name with
        | none => 0x0A
        | some x => if x.live = false ∧ cached = false then 0x0A else if x.right s.part.serial asid = 0 then 0x0C else 0
    let code (name : BitVec 128) : Nat :=
      if nameSerial name ≠ s.part.serial then 0x0D else found ((s.cluster (clusterOf ctx)).names.contains name) name
    let fails (n code : Nat) : Prop := ∃ t, next t ∧ lands s t n { val := statusWord 0 code 0 }
    let foreign (n : Nat) (name : BitVec 128) (pages : Nat) : Prop := nameSerial name ≠ s.part.serial →
      (s.reaches (nameSerial name) = false → fails n 0x1B) ∧
      (s.reaches (nameSerial name) = true → answer ∈ [0, 0x0A, 0x0B, 0x0C, 0x1B] →
        ∃ t, next t ∧ lands s t n { val := statusWord 0 answer (if answer = 0 then pages else 0) }) ∧
      (s.reaches (nameSerial name) = true → answer ∉ [0, 0x0A, 0x0B, 0x0C, 0x1B] → Idles i s)
    (c.sb[entry]? = none ∨ c.held entry = true → Idles i s) ∧
    (∀ e, c.sb[entry]? = some e → c.held entry = false →
      (∀ n slot name, e = { dst := .s n, what := .nres slot name } →
        (code name ≠ 0 → fails n (code name)) ∧
        (code name = 0 → ∀ x, s.nameEntry name = some x →
          ((∃ p ∈ pagesOf x.base x.len, pageOf x.pages p = none) → fails n 3) ∧
          ((∀ p ∈ pagesOf x.base x.len, pageOf x.pages p ≠ none) → x.base < 2 ^ 55 → x.len < 2 ^ 48 →
          ∃ t, next t ∧ (t.ctx ctx).sb = c.sb.eraseIdx entry ∧ slot ∉ (t.ctx ctx).arch.eBad ∧
            (n ≠ 0 → look {} (t.ctx ctx).arch.s n = { val := statusWord 0 0 (min ((x.len + 65535) / 65536) 0xFFFFFFFF) }) ∧
            (let a := (t.ctx ctx).arch
             let b := look 0 a.e slot
             extBase b = x.base ∧ extLen b = x.len ∧ extValid b = true ∧ b.getLsbD 19 = true ∧ look 0 a.names slot = name ∧
             look [] a.ePages slot = x.pages ∧
             (b.getLsbD 23 = true ↔ x.right s.part.serial asid = 3 ∧ ∀ p ∈ x.pages, p.frame ∉ s.imagePages)) ∧
            (∀ j, j ≠ slot → look 0 (t.ctx ctx).arch.e j = look 0 c.arch.e j) ∧ (∀ k, k ≠ ctx → t.ctx k = s.ctx k) ∧
            (s.nameEntry (look 0 c.arch.names slot) = none → t.nameEntry name = some { x with count := x.count + 1 }) ∧
            ∀ b, ((∃ p ∈ x.pages, p.at_ + 1 = b) → t.mem.byte b = s.mem.byte b ||| 4) ∧
              ((∀ p ∈ x.pages, p.at_ + 1 ≠ b) → t.mem.byte b = s.mem.byte b)))) ∧
      (∀ n name, e = { dst := .s n, what := .nstat name } → foreign n name pages ∧ (nameSerial name = s.part.serial →
        (code name ≠ 0 → fails n (code name)) ∧
        (code name = 0 → ∀ x, s.nameEntry name = some x →
          ∃ t, next t ∧ lands s t n { val := statusWord 0 0 (min ((x.len + 65535) / 65536) 0xFFFFFFFF) } ∧ t.names = s.names))) ∧
      (∀ n name removed, e = { dst := .s n, what := .nkill name removed } → foreign n name 0 ∧ (nameSerial name = s.part.serial →
        (removed = true → (s.shot name = true → fails n 0) ∧ (s.shot name = false → Idles i s)) ∧
        (removed = false → found false name ≠ 0 → fails n (found false name)) ∧
        (removed = false → found false name = 0 → ∀ x, s.nameEntry name = some x →
          let far := x.holders.filter s.meets
          let kept : Prop := (∃ p ∈ s.clusters, name ∈ p.2.names) ∨ far ≠ []
          (x.right s.part.serial asid ≠ 3 → fails n 0x0C) ∧
          (x.right s.part.serial asid = 3 →
            (¬kept → ∃ t, next t ∧ lands s t n { val := statusWord 0 0 0 } ∧ ∀ p ∈ t.names, p.1 = name → p.2.live = false) ∧
            (kept → ∃ t, next t ∧ t = { s with ctxs := t.ctxs, names := t.names, out := t.out } ∧
              t.out = s.out ++ (far.map fun m => { kind := 0x24, dest := m, body := leBytes 16 name.toNat }) ∧
              (t.ctx ctx) = { c with sb := c.sb.set entry { dst := .s n, what := .nkill name true } } ∧
              (∀ p ∈ t.names, p.1 = name → p.2.live = false) ∧ ∀ k, k ≠ ctx → t.ctx k = s.ctx k))))) ∧
      (∀ n v, e = { dst := .s n, what := .scalar v } → ∃ t, next t ∧ lands s t n v ∧ t.launches = s.launches) ∧
      (∀ n v, e = { dst := .v n, what := .vector v } → ∃ t, next t ∧ t = { s with ctxs := t.ctxs } ∧
        (t.ctx ctx).sb = c.sb.eraseIdx entry ∧ look {} (t.ctx ctx).arch.v n = v ∧
        (∀ m, m ≠ n → look {} (t.ctx ctx).arch.v m = look {} c.arch.v m) ∧ (t.ctx ctx).arch.s = c.arch.s ∧
        ∀ k, k ≠ ctx → t.ctx k = s.ctx k) ∧
      (∀ n lo hi psn, e = { dst := .pair n, what := .pair lo hi psn } → n ≠ 0 → ∃ t, next t ∧ t.mem = s.mem ∧
        (t.ctx ctx).sb = c.sb.eraseIdx entry ∧ look {} (t.ctx ctx).arch.s n = { val := lo, psn := psn } ∧
        look {} (t.ctx ctx).arch.s (n + 1) = { val := hi, psn := psn } ∧
        ∀ m, m ≠ n → m ≠ n + 1 → look {} (t.ctx ctx).arch.s m = look {} c.arch.s m) ∧
      (∀ u, e.what = .update u → Idles i s) ∧ (∀ id, e.what = .late id → Idles i s) ∧ (∀ k u, e.what = .token k u → Idles i s) ∧
      (∀ n sem upto, e = { dst := .s n, what := .sget sem upto } →
        let owed : Prop := ∃ p ∈ c.signals, p.sem = sem ∧ p.born < upto
        let x := s.sem (clusterOf ctx) c.arch.info sem
        (owed → Idles i s) ∧
        (¬owed → ∃ t, next t ∧ lands s t n { val := BitVec.ofNat 64 (x.bal.toNat + if x.mark then 2 ^ 32 else 0) })) ∧
      (∀ n ps, e = { dst := .s n, what := .probe ps } →
        let deep (p : Page) : Prop := deepBase ≤ p.frame * 65536
        let code : Nat := if ps.any fun p => decide (deep p) then 0x0E else 0
        let moved : Nat := min (ps.countP fun p => c.arch.migrated.contains p.frame) 0xFFFFFFFF
        let moves (p : Page) : Prop := deep p ∧ p.frame ∈ c.arch.migrating ∧ s.pinned p.frame = false
        ((∃ p ∈ ps, moves p) → Idles i s) ∧
        ((∀ p ∈ ps, ¬moves p) →
          ∃ t, next t ∧ (t.ctx ctx).sb = c.sb.eraseIdx entry ∧
            (t.ctx ctx).arch.pins = c.arch.pins ++ (ps.filter fun p => !decide (deep p)).map Page.frame ∧
            (n ≠ 0 → look {} (t.ctx ctx).arch.s n = { val := statusWord 0 code moved }))) ∧
      (∀ n q rec_ status upto, e = { dst := .s n, what := .enq q rec_ status upto } →
        let early : Prop := (∃ u ∈ s.updates, u.owner = some ctx ∧ u.id < upto) ∨ ∃ l ∈ c.late, l.id < upto
        let g := s.clears [(bits (look 0 s.queues q) 16 16, fld rec_ 16 8, 640 * fld rec_ 7 1)]
        let r := s.submit q rec_ (some c.arch.info.asid) none 0 false
        let cfg := look 0 s.queues q
        (early → Idles i s) ∧
        (¬early → status ≠ 0 → ∃ t, next t ∧ lands s t n { val := statusWord 0 status 0 } ∧ t.launches = s.launches) ∧
        (¬early → status = 0 → g.2 = false → next g.1) ∧
        (¬early → status = 0 → s.mergesNone = true → cfg.getLsbD 8 = false ∨ cfg.getLsbD 9 = false ∨ bits cfg 16 16 ≠ c.arch.info.asid →
          ∃ t, next t ∧ lands s t n { val := statusWord 0 0x0C 0 } ∧ t.launches = s.launches) ∧
        (¬early → status = 0 → s.mergesNone = true → r.2.1 ≠ 0 → ∃ t, next t ∧ lands s t n { val := statusWord 0 r.2.1 0 } ∧ t.launches = s.launches) ∧
        (¬early → status = 0 → s.mergesNone = true → r.2.1 = 0 → ∃ t, next t ∧ lands s t n { val := statusWord 0 0 (s.nextSeq % 2 ^ 32) } ∧
          t.nextSeq = s.nextSeq + 1 ∧ (t.theLaunch s.nextSeq).queue = q ∧ (t.theLaunch s.nextSeq).seq = s.nextSeq ∧
          ∀ k, k ≠ s.nextSeq → t.theLaunch k = s.theLaunch k)))

/-- R257, R292, R297, R345. A task that has ended retires when none of its accesses, commands, updates, flushes or signals is left and the
records that it makes due can be written: its context is idle, D is set in every leaf entry of every run that it wrote, each of its
bindings is released (a dead object that has none left and is shot down everywhere leaves the table), its team's record counts it, and it
is reported with its status. Before that its accesses have their points in T and its merges are made, and nothing else; while it has not
ended the event has no effect. A run is a maximal sequence of pages that follow one another virtually and physically and are alike. A
report that completes no node is noted in the launch, and nothing else. Where the model's own readings enter: log entries 51 and 77. -/
def Obligations.TasksRetire : Prop :=
  (∀ (ctx : Nat) (s : State),
    let i := Instr.taskRetire ctx
    let own : Prop := (s.ctx ctx).late ≠ [] ∨ ∃ u ∈ s.updates, u.owner = some ctx
    let r := (s.inOrder ctx).mergeOwn ctx
    let c := r.ctx ctx
    let co := r.core (coreOf ctx)
    let left : Prop := (r.cur.open_ = true ∧ r.cur.ctx = ctx) ∨ (∃ x ∈ co.cq ++ co.mq ++ co.lq ++ co.mqstat, x.ctx = ctx) ∨ c.late ≠ [] ∨
      (∃ u ∈ r.updates, u.owner = some ctx) ∨ c.flushes ≠ [] ∨ c.signals ≠ [] ∨ c.owesAct r.part.serial = true
    let g := r.clears (r.endRanges c.arch.info)
    let written (p : Page) : Prop := ∃ ps ∈ c.arch.runs, ∃ run ∈ splitRuns ps, p ∈ run ∧ ∃ q ∈ run, (q.at_, q.vp) ∈ c.arch.wrote
    let bound (name : BitVec 128) : Nat := c.arch.names.countP fun p => p.2 == name
    (¬own → r = s) ∧
    ((s.ctx ctx).ending = none → Idles i s) ∧
    (∀ e, (s.ctx ctx).ending = some e →
      (c.bound = false → Idles i s) ∧
      (c.bound = true → left → Sys2Proof.Machine.exec i s = .next r) ∧
      (c.bound = true → ¬left → g.2 = false → Sys2Proof.Machine.exec i s = .next g.1) ∧
      (c.bound = true → ¬left → g.2 = true →
        ∃ u : State, ∃ rest : List Byte, Sys2Proof.Machine.exec i s =
            .next (u.report c.arch.info { status := e.status, exitCode := e.exitCode, rest := rest }) ∧
          rest.length = 60 ∧ fld rest 28 8 = e.faultPc.toNat ∧
          (r.plain → u.ctx ctx = {} ∧ (∀ k, k ≠ ctx → u.ctx k = r.ctx k) ∧ u.launches = r.launches ∧ u.updates = r.updates ∧
            u.names = (r.names.map fun p => (p.1, { p.2 with count := p.2.count - bound p.1 })).filter
              (fun p => p.2.live || !p.2.shooting.isEmpty || p.2.count != 0) ∧
            (∀ j, let x := look {} (r.cluster (clusterOf ctx)).slots j
              let y := look {} (u.cluster (clusterOf ctx)).slots j
              (x.state ≠ 2 ∨ ctx ∉ x.left → y = x) ∧
              (x.state = 2 → ctx ∈ x.left → y.left = x.left.filter (· != ctx) ∧
                (y.failed = true ↔ x.failed = true ∨ e.status ≠ 0x23) ∧
                y.state = if y.left ≠ [] then 2 else if y.failed then 5 else 4))) ∧
          (r.plain → r.uncached → ∀ b,
            ((∃ p, written p ∧ p.at_ + 1 = b) → u.mem.byte b = r.mem.byte b ||| 8) ∧
            ((∀ p, written p → p.at_ + 1 ≠ b) → u.mem.byte b = r.mem.byte b))))) ∧
  (∀ (ps : List Page),
    let follows (x y : Page) : Prop := y.vp = x.vp + 1 ∧ y.frame = x.frame + 1 ∧ x.deep = y.deep ∧ x.cls = y.cls ∧ x.owner = y.owner ∧
      x.msa = y.msa ∧ x.w = y.w
    (splitRuns ps).flatten = ps ∧ (∀ run ∈ splitRuns ps, run ≠ [] ∧
      ∀ j x y, run[j]? = some x → run[j + 1]? = some y → follows x y) ∧
    ∀ j (a b : List Page) (x y : Page), (splitRuns ps)[j]? = some a → (splitRuns ps)[j + 1]? = some b →
      a.getLast? = some x → b.head? = some y → ¬follows x y) ∧
  ∀ (i : TaskInfo) (r : TaskReport) (s : State),
    let nd := s.launchNode i.seq i.node
    let k := 64 * i.team + i.task
    s.updates = [] → (∀ k, (s.ctx k).signals = []) → i.replay = false → nd.det = false →
    listed s.launches i.seq = true → listed (s.theLaunch i.seq).nodes i.node = true →
    (∃ p ∈ nd.allTasks, 64 * p.1 + p.2 ∉ nd.retired ∧ 64 * p.1 + p.2 ≠ k) →
    let t := s.report i r
    t = { s with launches := t.launches } ∧ look noReport (t.launchNode i.seq i.node).reports k = r ∧
      (t.launchNode i.seq i.node).retired = nd.retired ++ [k] ∧
      (∀ j, j ≠ k → look noReport (t.launchNode i.seq i.node).reports j = look noReport nd.reports j) ∧
      ∀ q n, (q ≠ i.seq ∨ n ≠ i.node) → t.launchNode q n = s.launchNode q n

/-- R189, R305, R306, R320 to R323. An update on its way is applied when nothing orders or holds it back: its location takes the
operation's new value, and a marked one stays; an update that must wait (an ordered one that is not the head of its sequence, an outsider
of an open sequence, one that replay keeps back) is held in its slice's buffer, or refused and sent again 64 cycles later; an element
behind a merge or an own access enters a fresh line when that is over; a core access whose point in T is still to come has it, and reads
or writes then, once its context's updates to its units are applied; and a merged line is applied update by update, in the order of the
merge, and leaves no update behind but those that a sequence holds. Where the model's own readings enter: log entries 14, 18, 43, 44 and
120. -/
def Obligations.UpdatesReachMemory : Prop :=
  (∀ (id : Nat) (u : Update) (s : State), s.findUpdate id = some u →
    let pu := u.pa / 8
    let w := fmtWidth u.fmt
    let old := bits (s.unit pu).1 (8 * (u.va % 8)) w
    let ordered : Prop := u.n ≠ none
    let applied (r : State) : Prop :=
      r.updates = s.updates.filter (fun v => v.id != id) ∧
      (∀ p, r.unit p = if p ≠ pu then s.unit p else if u.psn then (0, true) else if (s.unit pu).2 then s.unit pu
        else (setBits (s.unit pu).1 (8 * (u.va % 8)) w (rmwNew u.op u.fmt old u.val u.cmp), false)) ∧
      r.launches = s.launches ∧ r.clusters = s.clusters ∧ ∀ k, (r.ctx k).arch = (s.ctx k).arch
    let clear : Prop := s.plain ∧ s.uncached ∧ u.hi = none ∧ u.info.record = false ∧ u.info.replay = false ∧ ∀ v ∈ s.updates, v.before = []
    let going : Prop := u.status = .waiting ∨ (¬ordered ∧ u.status = .transit)
    let first : Prop := u.status = .transit ∧ s.laterOf u = false ∧ s.afterOwn u = false
    (u.status ≠ .behind → ¬(going ∧ s.mayApply u = true) →
      Sys2Proof.Machine.exec (.deferredUpdateApply id) s = .next (s.lateUpTo id)) ∧
    (u.status = .behind → (s.merging u.lineOf = true ∨ s.afterOwn u = true → Idles (.deferredUpdateApply id) s) ∧
      (s.merging u.lineOf = false → s.afterOwn u = false → Sys2Proof.Machine.exec (.deferredUpdateApply id) s = .next (s.enterLine u))) ∧
    (going → s.mayApply u = true → clear → ∃ r : State, Sys2Proof.Machine.exec (.deferredUpdateApply id) s = .next r.drain ∧ applied r) ∧
    (¬first → Idles (.orderedUpdateArrival id) s) ∧
    (first → clear → (ordered → s.isHead u = true) → (¬ordered → s.heldOut u = false) →
      ∃ r : State, Sys2Proof.Machine.exec (.orderedUpdateArrival id) s = .next r.drain ∧ applied r) ∧
    (first → s.mayApply u = false →
      ∃ t, Sys2Proof.Machine.exec (.orderedUpdateArrival id) s = .next t ∧ t.mem = s.mem ∧ t.ctxs = s.ctxs ∧
        (ordered → { seq := u.info.seq, node := u.info.node, phase := u.info.phase, line := u.pa / 64, det := u.info.det } ∈ t.openSeqs) ∧
        (¬ordered → t.openSeqs = s.openSeqs) ∧
        ∀ v, v ∈ t.updates ↔ ∃ x ∈ s.updates, v = if x.id ≠ id then x
          else if s.bufferFull u then { x with status := .refused, born := s.time } else { x with status := .waiting }) ∧
    (u.status = .refused → u.born + 64 ≤ s.time → ∃ t, Sys2Proof.Machine.exec (.orderedUpdateResend id) s = .next t ∧
      t = { s with updates := t.updates } ∧ ∀ v, v ∈ t.updates ↔ ∃ x ∈ s.updates, v = if x.id ≠ id then x else { x with status := .transit }) ∧
    (u.status ≠ .refused ∨ s.time < u.born + 64 → Idles (.orderedUpdateResend id) s)) ∧
  (∀ (id : Nat) (s : State),
    ((∀ p ∈ s.ctxs, ∀ l ∈ p.2.late, l.id ≠ id) → s.lateUpTo id = s) ∧
    ∀ k l rest, (s.ctxs.find? fun p => p.2.late.any fun l => l.id == id) = some (k, s.ctx k) → (s.ctx k).late = l :: rest → l.id = id →
      s.lateUpTo id = (s.lateStep k).1.releaseAll) ∧
  (∀ (k : Nat) (l : Late) (rest : List Late) (ps : List Page) (s r : State),
    (s.ctx k).late = l :: rest → s.lateOver l = false → l.refs = urefs ps l.va l.n → l.n ≤ 256 →
    (∀ p ∈ pagesOf l.va l.n, pageOf ps p ≠ none) →
    (s.ready k l.id l.refs = (r, false) → s.lateStep k = (r, false)) ∧
    (s.ready k l.id l.refs = (r, true) →
      (l.op = .load .scalar false → l.old = false → let x := r.seenBytes k ps l.va l.n
        ∃ t, s.lateStep k = (t, true) ∧ t.mem = r.mem ∧ (StandsBut r t fun _ => False) ∧
          t.ctx k = { r.ctx k with late := (r.ctx k).late.drop 1, sb := (r.ctx k).sb.map fun e =>
            if e.what = Payload.late l.id then { e with what := .scalar { val := if x.2 then 0 else BitVec.ofNat 64 (leNat x.1), psn := x.2 } }
            else e }) ∧
      (∀ bs psn, l.op = .store bs psn → bs.length = l.n → r.unspoiled →
        ∃ t, s.lateStep k = (t, true) ∧ StoredAt r t k ps l.va bs psn ∧ t.ctx k = { r.ctx k with late := (r.ctx k).late.drop 1 }))) ∧
  (∀ (id : Nat) (s : State), s.findUpdate id = none →
    Sys2Proof.Machine.exec (.deferredUpdateApply id) s = .next (s.lateUpTo id) ∧ Idles (.orderedUpdateArrival id) s ∧ Idles (.orderedUpdateResend id) s) ∧
  (∀ (core line : Nat) (first : List Nat) (s : State), ∃ r : State, Sys2Proof.Machine.exec (.updateOnlyMerge core line first) s = .next r.releaseAll ∧
    (∀ p ∈ (r.core core).lines, p.1 ≠ line) ∧ (∀ p ∈ (s.core core).lines, p.1 ≠ line → p ∈ (r.core core).lines) ∧
    ∀ p ∈ (s.core core).lines, p.1 = line → ∀ u ∈ r.updates, u.id ∈ p.2 → u.status = .waiting ∨ u.status = .refused) ∧
  (∀ (core line : Nat) (first : List Nat) (s : State),
    let ids := (((s.core core).lines.filter fun p => p.1 == line).map Prod.snd).flatten
    let order := first.filter ids.contains ++ ids.filter fun j => !first.contains j
    let after (x : Word × Bool) (u : Update) : Word × Bool := if u.psn then (0, true) else if x.2 then x
      else (setBits x.1 (8 * (u.va % 8)) (fmtWidth u.fmt)
        (rmwNew u.op u.fmt (bits x.1 (8 * (u.va % 8)) (fmtWidth u.fmt)) u.val u.cmp), false)
    s.uncached → s.openSeqs = [] → first.Nodup → ids.Nodup →
    (∀ u ∈ s.updates, u.id ∈ ids → u.hi = none ∧ u.n = none ∧ u.info.record = false ∧ u.info.replay = false) →
    ∃ r : State, Sys2Proof.Machine.exec (.updateOnlyMerge core line first) s = .next r.releaseAll ∧
      r.updates = s.updates.filter (fun u => !ids.contains u.id) ∧
      ∀ pu, r.unit pu = ((order.filterMap s.findUpdate).filter fun u => u.pa / 8 == pu).foldl after (s.unit pu)) ∧
  ∀ (s : State), (∀ u ∈ s.updates, (u.n = none ∧ u.info.replay = false) ∨ u.status ≠ .waiting) → (∀ k, (s.ctx k).signals = []) → s.drain = s

/-! ### Binding and swapping teams (spec/01 R30, spec/11 R281, R292, spec/14) -/

/-- R22, R26, R30, R292, R329, R334, R335, R337, R338. A BIND record that the rules do not allow has no effect; one that they do starts
each task of the team that it names, on its context, with the argument words that the record took as it was written, its control register,
its coordinates and its entry, and no other context changes; the others stand to be started, each once, by later events; a task one of
whose ranges fails is reported with that status and does not start. With the first team of a group the cluster's semaphores start at zero,
and its memories where another address space had it. A range of a task is checked page by page, and then at the end of the address space;
its slot is bound with what was declared, its pages are pinned or held, and A is set in their entries; the first range that fails gives
the status of its check. Where the model's own readings enter: log entries 77 and 94. -/
def Obligations.TeamsBind : Prop :=
  (∀ (cluster record seq node team : Nat) (mask : BitVec 64) (s : State),
    let i (start : List Nat) : Instr := .bind cluster record seq node team (mask, start)
    let r := look {} (s.cluster cluster).slots record
    let more : Prop := r.info.seq = seq ∧ r.info.node = node ∧ r.info.team = team ∧ r.toStart ≠ []
    let does (start : List Nat) (t : State) : Prop := Sys2Proof.Machine.exec (i start) s = .next t
    let l := s.theLaunch seq
    let nd := s.launchNode seq node
    let ks := maskContexts cluster mask
    let fresh : Prop := s.groupPlaced seq node (nd.groupOf team) = false
    (¬more → s.mayBind cluster record seq node team mask = false → ∀ start, Idles (i start) s) ∧
    (more → (∀ j, j ∉ r.toStart → Idles (i [j]) s) ∧
      (∀ j ∈ r.toStart,
        let k := nth 0 r.ctxs j
        let x := ({ s with nextId := s.nextId + 1 } : State).resolveRanges (coreOf k) cluster ((List.range 16).zip nd.ranges)
          (s.freshArch l node team j r.argWords)
        (∀ u c, x = (u, .error c) → c ≠ 0x23 → listed l.nodes node = true → (team, j) ∈ nd.allTasks →
          ∃ t, does [j] t ∧ (look noReport (t.launchNode seq node).reports (64 * team + j)).status = c ∧
            (t.ctx k).bound = (s.ctx k).bound ∧ j ∉ (look {} (t.cluster cluster).slots record).toStart) ∧
        ((∀ r ∈ nd.ranges, (fld r 16 1).testBit 0 = false) → ∃ t, does [j] t ∧ t.mem = s.mem ∧
          (∀ m, m ≠ k → t.ctx m = s.ctx m) ∧ (∀ c, (t.cluster c).store = (s.cluster c).store ∧ (t.cluster c).sems = (s.cluster c).sems) ∧
          look {} (t.cluster cluster).slots record = { r with
            state := if r.state = 1 then 2 else r.state, toStart := r.toStart.filter (· != j) } ∧
          let a := (t.ctx k).arch
          (t.ctx k).bound = true ∧ (t.ctx k).ending = none ∧
          (∀ x, x < 8 → look {} a.s (x + 1) = { val := nth 0 r.argWords x }) ∧
          (∀ x, x = 0 ∨ 9 ≤ x → look {} a.s x = {}) ∧ a.v = [] ∧ a.p = [] ∧ a.e = [] ∧ a.flight = [] ∧ a.cycle = 0 ∧ a.at_ = 0 ∧
          a.csw = BitVec.ofNat 64 (nd.enables * 2 ^ 16 + nd.rmode * 2 ^ 24 + if nd.det then 16 else 0) ∧
          a.taskid = BitVec.ofNat 64 (teamKey nd team + j * 2 ^ 30 + nd.stageOf team * 2 ^ 36 + phaseOf nd team * 2 ^ 40) ∧
          a.pos = BitVec.ofNat 64 nd.entry ∧ a.info.seq = l.seq ∧ a.info.node = node ∧ a.info.team = team ∧ a.info.task = j ∧
          a.info.asid = l.asid ∧ a.info.det = nd.det))) ∧
    (¬more → s.mayBind cluster record seq node team mask = true → listed l.nodes node = true → l.seq = seq → 0 < nd.tasks → nd.fuse = false →
      ∃ t, does [] t ∧ t.mem = s.mem ∧ (∀ start, Sys2Proof.Machine.exec (i start) s = Sys2Proof.Machine.exec (i start) t) ∧
        (∀ k, ∃ m, t.ctx k = { s.ctx k with arch := { (s.ctx k).arch with accs := m } }) ∧
        (let r := look {} (t.cluster cluster).slots record
         r.state = 1 ∧ r.op = 1 ∧ r.mask = mask ∧ r.ctxs = ks ∧ r.left = ks ∧ r.toStart = List.range nd.tasks ∧ r.tasks = nd.tasks ∧
           r.ptRoot = (s.root l.asid).getD 0 ∧
           ∀ x, x < 8 → nth 0 r.argWords x = if nd.argsel.testBit x then nth 0 l.carry x else nth 0 nd.args x) ∧
        (t.launchNode seq node).boundTeams = nd.boundTeams ++ [team] ∧ (t.launchNode seq node).ran = true ∧
        (fresh → (t.cluster cluster).lastAsid = some l.asid ∧ (t.cluster cluster).keptFor = none ∧ (∀ n, n < 248 → look {} (t.cluster cluster).sems n = {}) ∧
          (∀ b, (s.cluster cluster).lastAsid = some b → b ≠ l.asid → (t.cluster cluster).store = {} ∧
            ∀ c, c ∈ clusterCores cluster → (t.core c).spm = {} ∧ (t.core c).acc = [] ∧ (t.core c).wb = {})) ∧
        (¬fresh → (t.cluster cluster).sems = (s.cluster cluster).sems ∧ t.cores = s.cores))) ∧
  ∀ (s : State) (a : Arch) (core cl j : Nat) (r : List Byte), j < 16 →
    let f := fld r 16 1
    let va := fld r 0 8
    let len := fld r 8 8
    let leaf (p : Nat) : Option Leaf := s.translate a.info.asid (p * 65536)
    let bad (p : Nat) : Option Nat := match leaf p with
      | none => some 3
      | some l => if s.part.backed l.pa = false ∨ l.cls = 3 then some 3
        else if f.testBit 2 && !l.w && !s.imagePages.contains (l.pa / 65536) then some 5
        else if l.cls = 2 ∧ l.owner ≠ core then some 6 else none
    (f.testBit 0 = false → s.resolveRange a core cl j r = (s, .ok a)) ∧
    (f.testBit 0 = true → f.testBit 1 = false →
      ((∀ p ∈ pagesOf va (min len (2 ^ 55 - va)), bad p = none) → 2 ^ 55 < va + len → s.resolveRange a core cl j r = (s, .error 3)) ∧
      (∀ pre p post c, pagesOf va (min len (2 ^ 55 - va)) = pre ++ p :: post → (∀ q ∈ pre, bad q = none) → bad p = some c →
        s.resolveRange a core cl j r = (s, .error c)) ∧
      (va + len ≤ 2 ^ 55 → 0 < len → len < 2 ^ 48 → (∀ p ∈ pagesOf va len, bad p = none) →
        ∃ t b, s.resolveRange a core cl j r = (t, .ok b) ∧ t = { s with mem := t.mem } ∧
          (let e := look 0 b.e j
           extBase e = va % 2 ^ 55 ∧ extLen e = len ∧ extValid e = true ∧ e.getLsbD 19 = false ∧
           (e.getLsbD 23 = true ↔ f.testBit 2 = true ∧ ∀ p ∈ pagesOf va len, ∀ l, leaf p = some l → l.pa / 65536 ∉ s.imagePages)) ∧
          (∀ n, n ≠ j → look 0 b.e n = look 0 a.e n) ∧ b.s = a.s ∧ b.csw = a.csw ∧
          (∀ x, x ∈ b.pins ↔ x ∈ a.pins ∨ ∃ p ∈ pagesOf va len, ∃ l, leaf p = some l ∧ l.pa / 65536 = x ∧
            (inDeep l.pa = false ∨ f.testBit 3 = true)) ∧
          (∀ x, x ∈ b.holds ↔ x ∈ a.holds ∨ ∃ p ∈ pagesOf va len, ∃ l, leaf p = some l ∧ l.pa / 65536 = x ∧
            inDeep l.pa = true ∧ f.testBit 3 = false) ∧
          ∀ x, ((∃ p ∈ pagesOf va len, ∃ l, leaf p = some l ∧ l.at_ + 1 = x) → t.mem.byte x = s.mem.byte x ||| 4) ∧
            ((∀ p ∈ pagesOf va len, ∀ l, leaf p = some l → l.at_ + 1 ≠ x) → t.mem.byte x = s.mem.byte x)))

/-- R333, R337, R340 to R343, R359. A swap period ends after 65,536 cycles, no more and no fewer; a team becomes eligible when R340's
conditions held at both its ends and nothing of it issued between. SWAPOUT of a group every team of which is bound and eligible, or done,
keeps the cluster for the node's ready team, and keeps the whole state of each of its tasks that has not retired, and the cluster's
semaphores 0 to 247, and frees their contexts; SWAPIN brings the group back, each team to the contexts of its mask, with what was kept.
ABORT halts a team's tasks with ABORTED, and reports with it those that have not started and those that a swap put aside. A record that is
not allowed has no effect. Where the model's own readings enter: log entries 50, 77 and 95. -/
def Obligations.TeamsSwapAndAbort : Prop :=
  (∀ (ended : Nat) (s : State),
    let waits : Prop := ended ≠ s.period + 65536 ∨ s.time < ended ∨ s.overdue = true
    (∀ r : BindRec, s.idleTeam r = true ↔ r.state = 2 ∧ r.toStart = [] ∧ r.info.gsem = true ∧
      (∃ k ∈ r.left, s.yWaiting k = some true) ∧
      ∀ k ∈ r.left, s.yWaiting k ≠ none ∧ (s.core (coreOf k)).commandsOf k = [] ∧ (∀ u ∈ s.updates, u.owner ≠ some k) ∧
        (s.ctx k).late = [] ∧ (∀ e ∈ (s.ctx k).sb, e.isLoad = false) ∧ ∀ q, q < 4 → (look {} (s.ctx k).arch.q q).state ≠ 1) ∧
    (waits → Idles (.swapPeriod ended) s) ∧
    (¬waits → ∃ t, Sys2Proof.Machine.exec (.swapPeriod ended) s = .next t ∧
      t = { s with period := ended, clusters := t.clusters, launches := t.launches } ∧
      ∀ cl record,
        let r := look {} (s.cluster cl).slots record
        let same : Prop := r.since = some (s.issueSum r)
        (t.cluster cl).store = (s.cluster cl).store ∧ (t.cluster cl).sems = (s.cluster cl).sems ∧
        ∃ e w, look {} (t.cluster cl).slots record = { r with eligible := e, since := w } ∧
          (s.idleTeam r = true → (e = true ↔ same) ∧ w = some (s.issueSum r)) ∧ (s.idleTeam r = false → e = false ∧ w = none))) ∧
  (∀ (cluster record : Nat) (s : State),
    let slot (s : State) (j : Nat) : BindRec := look {} (s.cluster cluster).slots j
    let i := (slot s record).info
    let rs := s.groupRecords cluster record
    let nd := s.launchNode i.seq i.node
    let out : Prop := record ∈ rs ∧ (∀ j, j < nd.stages → nd.groupOf i.team * nd.stages + j ∈ nd.boundTeams) ∧ (∀ j ∈ rs, s.eligible (slot s j) = true) ∧ nd.mayOut = true ∧ s.readyTeam i.seq i.node = true
    (¬out → Idles (.swapout cluster record) s) ∧
    (out → i.fuse = false → rs.Nodup → (∀ j ∈ rs, ∀ m ∈ rs, j ≠ m → ∀ k ∈ (slot s j).left, k ∉ (slot s m).left) →
      (∀ j ∈ rs, ∀ k ∈ (slot s j).left, (s.ctx k).flushes = []) →
      ∃ t, Sys2Proof.Machine.exec (.swapout cluster record) s = .next t ∧ t.mem = s.mem ∧
        (∀ j ∈ rs,
          let r := slot s j
          let r' := slot t j
          r'.state = 3 ∧ r'.op = 2 ∧ r'.info = r.info ∧ (∀ k ∈ r.left, t.ctx k = {}) ∧
          (∀ n, n < 248 → look {} r'.sems n = look {} (s.cluster cluster).sems n) ∧
          ∀ p, p ∈ r'.saved ↔ ∃ k, r.ctxs[p.1]? = some k ∧ k ∈ r.left ∧ p.2 = { s.ctx k with waitMet := false, blocked := false }) ∧
        (∀ k, (∀ j ∈ rs, k ∉ (slot s j).left) → t.ctx k = s.ctx k) ∧ (t.cluster cluster).keptFor = some (i.seq, i.node) ∧
        (listed (s.theLaunch i.seq).nodes i.node = true → (t.launchNode i.seq i.node).mayOut = false) ∧
        ∀ j, s.ofGroup (slot s j) i.seq i.node ((s.launchNode i.seq i.node).groupOf i.team) = true →
          (slot s j).state = 4 ∨ (slot s j).state = 5 → (slot t j).gone = true)) ∧
  (∀ (cluster home : Nat) (records homeRecords : List Nat) (masks : List (BitVec 64)) (s : State),
    let i := Instr.swapin cluster records home homeRecords masks
    let teams := swapTeams records homeRecords masks
    let back (x : Nat × Nat × BitVec 64) : BindRec := look {} (s.cluster home).slots x.2.1
    let ks (x : Nat × Nat × BitVec 64) : List Nat := maskContexts cluster x.2.2
    let can := s.maySwapIn cluster home teams
    (can = false → Idles i s) ∧
    (can = true → (teams.map fun x => x.2.1).Nodup →
      (∀ x ∈ teams, (back x).state = 3 ∧ ((back x).saved.map Prod.fst).Nodup ∧ (∀ p ∈ (back x).saved, p.1 < (ks x).length) ∧
        (s.launchNode (back x).info.seq (back x).info.node).fuse = false) →
      ∃ t, Sys2Proof.Machine.exec i s = .next t ∧ t.mem = s.mem ∧
        (∀ x ∈ teams, (∀ p ∈ (back x).saved, ∀ k, (ks x)[p.1]? = some k →
            (t.ctx k).bound = p.2.bound ∧ (t.ctx k).ending = p.2.ending ∧ (t.ctx k).sb = p.2.sb ∧ (t.ctx k).signals = p.2.signals ∧
            ∃ n m w, (t.ctx k).arch = { p.2.arch with fetches := n, accs := m, csw := w } ∧ (p.2.window = none → w = p.2.arch.csw)) ∧
          (let r := look {} (t.cluster cluster).slots x.1
           r.state = 2 ∧ r.op = 3 ∧ r.mask = x.2.2 ∧ r.ctxs = ks x ∧ r.saved = [] ∧ r.info = (back x).info)) ∧
        (∀ k, (∀ x ∈ teams, k ∉ ks x) → ∃ m, t.ctx k = { s.ctx k with arch := { (s.ctx k).arch with accs := m } }) ∧
        ∀ x, teams.head? = some x → ∀ n, n < 248 → look {} (t.cluster cluster).sems n = look {} (back x).sems n)) ∧
  ∀ (cluster record : Nat) (s : State),
    let r := look {} (s.cluster cluster).slots record
    let mine (i : TaskInfo) : Prop := i.seq = r.info.seq ∧ i.node = r.info.node ∧ i.team = r.info.team
    let counts (task : Nat) : Prop := listed (s.theLaunch r.info.seq).nodes r.info.node = true ∧
      (r.info.team, task) ∈ (s.launchNode r.info.seq r.info.node).allTasks
    (r.state ≠ 1 → r.state ≠ 2 → r.state ≠ 3 → Idles (.bindAbort cluster record) s) ∧
    (r.state = 1 ∨ r.state = 2 ∨ r.state = 3 → ∃ t, Sys2Proof.Machine.exec (.bindAbort cluster record) s = .next t ∧
      let r' := look {} (t.cluster cluster).slots record
      let after (task : Nat) : Nat := (look noReport (t.launchNode r.info.seq r.info.node).reports (64 * r.info.team + task)).status
      r'.op = 4 ∧
      (∀ k, ((s.ctx k).bound = true → (s.ctx k).ending = none → mine (s.ctx k).arch.info →
          (t.ctx k).ending = some { status := 0x1C, exitCode := 0, faultPc := 0 }) ∧
        (¬mine (s.ctx k).arch.info → (t.ctx k).ending = (s.ctx k).ending)) ∧
      (∀ task ∈ r.toStart, counts task → after task = 0x1C) ∧
      (r.state = 3 → (∀ q, q ∈ r'.saved ↔ q ∈ r.saved ∧ ¬mine q.2.arch.info) ∧
        (r.saved ≠ [] → (∀ q ∈ r.saved, mine q.2.arch.info) → r'.state = 5) ∧
        ∀ q ∈ r.saved, mine q.2.arch.info → counts q.2.arch.info.task → after q.2.arch.info.task = 0x1C))
/-! ### The engines (spec/08, spec/09, spec/16, spec/17) -/

/-- R229 to R232, R234, R237 to R239, R246. A queued copy command starts once its tokens have completed, four at once; a failed token
cancels it, a check that fails ends it, and a plain copy within the core's stores goes to work on its destination units. A command that
has started takes the extents that are bound then; nothing but its queue entry, and what a remote one sends, changes. Where the model's
own readings enter: log entries 44, 52, 53, 54, 55 and 92. -/
def Obligations.CopyCommandsStart : Prop :=
  ∀ (core id : Nat) (lag : List (Nat × Nat)) (s : State),
    let i := Instr.engineCommandStart core id lag
    let co := s.core core
    (co.copyCmd id = none → Idles i s) ∧
    ∀ c, co.copyCmd id = some c →
      let set (x : Cmd) : State := s.setCore core { co with cq := co.cq.map fun e => if e.id = c.id then x else e }
      let ends (x : Cmd) (code : Nat) : Prop := Sys2Proof.Machine.exec i s = .next (set { x with
        started := true, running := false, finished := true, status := code, result := 0, written := 0 })
      let failed : Prop := ∃ w psn, TokVal.have_ w psn ∈ c.toks ∧ (psn = true ∨ bits w 32 16 ∉ [0x00, 0x17, 0x0E])
      let waits : Prop := ∃ r, TokVal.await r ∈ c.toks
      let full : Prop := 4 ≤ (co.cq.filter fun x => x.started && !x.finished).length
      let a := (s.ctx c.ctx).arch
      let b : Cmd := { c with started := true, running := true, extents := a.extents, pages := a.ePages, lag := lag }
      (s.still core = true ∨ c.started = true ∨ waits ∨ (¬failed ∧ full) → Idles i s) ∧
      (s.still core = false → c.started = false → ¬waits →
        (failed → ends c 0x01) ∧
        (¬failed → ¬full →
          (∃ t x, Sys2Proof.Machine.exec i s = .next t ∧ t.mem = s.mem ∧ t.ctxs = s.ctxs ∧ t.clusters = s.clusters ∧
            (∀ k, k ≠ core → t.core k = s.core k) ∧ t.core core = { co with cq := co.cq.map fun e => if e.id = c.id then x else e } ∧
            x.id = c.id ∧ x.started = true ∧ (x.finished = false → c.finished = false → x.extents = a.extents ∧ x.pages = a.ePages) ∧
            (c.finished = false → x.finished = true → x.status ≠ 0 ∧ x.result = 0 ∧ x.written = 0)) ∧
          (c.op = 1 → bits (c.q 0) 62 2 < 2 → bits (c.q 1) 62 2 < 2 →
            let n := bits (c.q 2) 0 48
            let from_ := bits (c.q 0) 0 55
            let to_ := bits (c.q 1) 0 55
            let cken := bit (c.q 2) 63
            let bad : Prop := bits (c.q 0) 55 7 ≠ 0 ∨ bits (c.q 1) 55 7 ≠ 0 ∨ bits (c.q 2) 48 13 ≠ 0 ∨
              ((bit (c.q 2) 62 = true ∨ bit (c.q 2) 61 = true) ∧ cken = false) ∨ (c.bytes = true ∧ 2 ^ 31 - 1 < n)
            let denied : Prop := bit (c.q 2) 61 = true ∧ c.info.ctest = false
            let out (l : Word) : Prop := (if bits l 62 2 = 0 then 2 ^ 20 else 2 ^ 25) < bits l 0 55 + n
            let code (l : Word) : Nat := if bits l 62 2 = 0 then 0x07 else 0x02
            (bad → ends b 0x02) ∧
            (¬bad → denied → ends b 0x0C) ∧
            (¬bad → ¬denied → out (c.q 0) → ends b (code (c.q 0))) ∧
            (¬bad → ¬denied → ¬out (c.q 0) → out (c.q 1) → ends b (code (c.q 1))) ∧
            (¬bad → ¬denied → ¬out (c.q 0) → ¬out (c.q 1) → Sys2Proof.Machine.exec i s = .next (set { b with
              whole := decide (n ≠ 0 ∧ bits (c.q 0) 62 2 = bits (c.q 1) 62 2 ∧ from_ < to_ + n ∧ to_ < from_ + n)
              todo := unitsOf to_ n })))))

/-- R172, R204, R229, R235, R238, R239. A plain copy reads its source's 8-byte units, each once, and writes its destination's units, in
any order: the bytes of a unit are those read, and a unit built from poisoned bytes is marked and zero; when the last is written, or when
a command has ended otherwise, its semaphore is signalled, its token lands with the status word, and it leaves its queue. Where the
model's own readings enter: log entries 55, 107, 108 and 118. -/
def Obligations.CopyCommandsComplete : Prop :=
  ∀ (core id : Nat) (s : State) (c : Cmd),
    let i (ops : List (Bool × Nat)) : Instr := .copyCommandCompletion core id 0 ops
    let co := s.core core
    let cl := clusterOf c.ctx
    let x := s.ctx c.ctx
    let gone (t : State) (result status written : Nat) (flags : Nat) : Prop :=
      (∀ e ∈ (t.core core).cq, e.id ≠ id) ∧ (∀ e ∈ co.cq, e.id ≠ id → ∃ e' ∈ (t.core core).cq, e'.id = e.id) ∧
      (∀ l r, x.sb = l ++ { dst := .s c.d, what := .token core id } :: r → (∀ e ∈ l, ∀ k, e.what ≠ .token k id) → x.held l.length = false →
        (t.ctx c.ctx).sb = l ++ r ∧
        (c.d ≠ 0 → look {} (t.ctx c.ctx).arch.s c.d = { val := statusWord flags status result }) ∧
        ∀ m, m ≠ c.d → look {} (t.ctx c.ctx).arch.s m = look {} x.arch.s m) ∧
      (c.sigen = false → (t.cluster cl).sems = (s.cluster cl).sems) ∧
      (c.sigen = true → c.info.onGrid c.sem = false →
        let old := s.sem cl c.info c.sem
        let sum : Int := old.bal.toInt + if c.bytes then (written : Int) else 1
        t.sem cl c.info c.sem =
          if sum < -(2 ^ 31) then { bal := 0x80000000, mark := true }
          else if 2 ^ 31 ≤ sum then { bal := 0x7FFFFFFF, mark := true }
          else { bal := BitVec.ofInt 32 sum, mark := old.mark })
    co.copyCmd id = some c → c.core = core → coreOf c.ctx = core →
    (s.still core = true ∨ c.started = false → ∀ a ops, Idles (.copyCommandCompletion core id a ops) s) ∧
    (s.still core = false → c.started = true → c.finished = true → ∀ a ops, ∃ t,
      Sys2Proof.Machine.exec (.copyCommandCompletion core id a ops) s = .next t ∧ t.mem = s.mem ∧
      gone t c.result c.status c.written c.flags) ∧
    (s.still core = false → c.started = true → c.finished = false → c.op = 1 → c.chunkNo = 0 →
      bits (c.q 0) 62 2 < 2 → bits (c.q 1) 62 2 < 2 →
      let cken := bit (c.q 2) 63
      let n := bits (c.q 2) 0 48
      let from_ := bits (c.q 0) 0 55
      let to_ := bits (c.q 1) 0 55
      let store (t : State) (l : Word) : Mem := if bits l 62 2 = 0 then (t.core core).spm else (t.cluster cl).store
      let locked (l : Word) (u : Nat) : Prop := bits l 62 2 = 0 ∧ s.lockHolds core c.id u = true
      let byte (y : Nat) : Byte × Bool :=
        match look none c.src (4 * ((from_ + y) / 8)) with
        | some w => (w.1.extractLsb' (8 * ((from_ + y) % 8)) 8, w.2)
        | none => (0, false)
      let given (y : Nat) : Byte := if y = 0 ∧ cken = true ∧ bit (c.q 2) 61 = true then (byte y).1 ^^^ 1 else (byte y).1
      let sum : Nat := if n = 0 then bits (c.q 3) 0 32 else fletcher (bits (c.q 3) 0 32) ((List.range n).map given)
      let differs : Prop := cken = true ∧ bit (c.q 2) 62 = true ∧ sum ≠ bits (c.q 3) 32 32
      (∀ u, u ∈ unitsOf from_ n → look none c.src (4 * u) = none → ¬locked (c.q 0) u → c.todo ≠ [] →
        let m := store s (c.q 0)
        let waits := if bits (c.q 0) 62 2 = 0 then co.waits.filter fun x => !(x.cmd == c.id && x.unit == u) else co.waits
        Sys2Proof.Machine.exec (i [(false, u)]) s = .next (s.setCore core { co with waits := waits, cq := co.cq.map fun e => if e.id = c.id then
          { c with src := put none c.src (4 * u) (some (BitVec.ofNat 64 (m.nat (8 * u) 8), m.mark u)) } else e })) ∧
      (∀ u, ((u ∈ unitsOf from_ n ∧ look none c.src (4 * u) = none ∧ locked (c.q 0) u ∧ c.todo ≠ []) →
          ∃ w, Sys2Proof.Machine.exec (i [(false, u)]) s = .next (s.setCore core { co with waits := w }) ∧
            ∃ x ∈ w, x.cmd = c.id ∧ x.unit = u) ∧
        (u ∈ c.todo → locked (c.q 1) u → (∀ v ∈ unitsOf from_ n, look none c.src (4 * v) ≠ none) →
          ∃ w, Sys2Proof.Machine.exec (i [(true, u)]) s = .next (s.setCore core { co with waits := w }) ∧
            ∃ x ∈ w, x.cmd = c.id ∧ x.unit = u)) ∧
      (∀ u, u ∈ c.todo → ¬locked (c.q 1) u → (∀ v ∈ unitsOf from_ n, look none c.src (4 * v) ≠ none) →
        let here (a : Nat) : Prop := a / 8 = u ∧ to_ ≤ a ∧ a < to_ + n
        let psn : Bool := (List.range 8).any fun j =>
          decide (to_ ≤ 8 * u + j) && decide (8 * u + j < to_ + n) && (byte (8 * u + j - to_)).2
        ∃ t, Sys2Proof.Machine.exec (i [(true, u)]) s = .next t ∧ t.mem = s.mem ∧
          (psn = false → (∀ a, (here a → (store t (c.q 1)).byte a = given (a - to_)) ∧
            (¬here a → (store t (c.q 1)).byte a = (store s (c.q 1)).byte a)) ∧
            ∀ v, (store t (c.q 1)).mark v = true ↔ (store s (c.q 1)).mark v = true ∧ ¬(v = u ∧ to_ ≤ 8 * u ∧ 8 * u + 8 ≤ to_ + n)) ∧
          (psn = true → (∀ a, (store t (c.q 1)).byte a = if a / 8 = u then 0 else (store s (c.q 1)).byte a) ∧
            ∀ v, (store t (c.q 1)).mark v = true ↔ v = u ∨ (store s (c.q 1)).mark v = true) ∧
          (c.todo.erase u ≠ [] → t.ctxs = s.ctxs ∧
            (t.core core).copyCmd id = some { c with todo := c.todo.erase u, psn := c.psn || psn }) ∧
          (c.todo.erase u = [] → (differs → gone t sum 0x10 n c.flags) ∧
            (¬differs → gone t (if cken then sum else min n 0xFFFFFFFF) (if c.psn || psn then 0x0F else 0x00) n c.flags))))

/-- R62, R172, R235, R238, R240, R241, R243, R244, R245, R247, R248, R249. What one move of a command of the copy engine writes into the
core's scratchpad or the cluster store, once what goes into it has been read. A converting copy writes each element of its source
converted to nearest even, or each packet of 96 of them quantised; a transposing one the element of the other row and column; an expanding
or compressing one its whole block, which is built first, or ends with BADSTREAM or TOOLARGE before a byte is written. CPYR to an object
of this module writes the object's memory, and signals its target when it ends. GATH writes the data that its indices address; SCAE and
CRED replace a location by the operation of its old value and theirs. A unit that takes poisoned data is marked and zero, and a poisoned
index leaves its element out. Where the model's own readings enter: log entries 52, 53, 56, 66, 82, 107, 108 and 118. -/
def Obligations.EngineWrites : Prop :=
  (∀ fmt, (fmt ∈ fmtF → elemRmw 0 fmt = .fadd ∧ elemRmw 1 fmt = .fmax ∧ elemRmw 2 fmt = .fmin ∧ elemRmw 3 fmt = .fmaxp ∧ elemRmw 4 fmt = .fminp) ∧
    (fmt ∉ fmtF → elemRmw 0 fmt = .add ∧ ∀ sub, (sub = 1 ∨ sub = 3 → elemRmw sub fmt = if fmtSigned fmt then .maxs else .maxn) ∧
      (sub = 2 ∨ sub = 4 → elemRmw sub fmt = if fmtSigned fmt then .mins else .minn))) ∧
  ∀ (core id : Nat) (s : State) (c : Cmd),
    let co := s.core core
    let cl := clusterOf c.ctx
    let e := fmtBytes c.fmt
    let run (o : Bool × Nat) (t : State) : Prop := Sys2Proof.Machine.exec (.copyCommandCompletion core id 0 [o]) s = .next t
    let store (t : State) (l : Word) : Mem := if bits l 62 2 = 0 then (t.core core).spm else (t.cluster cl).store
    let free (l : Word) (u : Nat) : Prop := bits l 62 2 = 1 ∨ (bits l 62 2 = 0 ∧ s.lockHolds core c.id u = false)
    let puts (m m' : Mem) (u : Nat) (val : Nat → Option (Byte × Bool)) : Prop :=
      let psn := (List.range 8).any fun j => ((val (8 * u + j)).getD (0, false)).2
      (psn = false → (∀ a, m'.byte a = if a / 8 = u then ((val a).map Prod.fst).getD (m.byte a) else m.byte a) ∧
        ∀ v, m'.mark v = true ↔ m.mark v = true ∧ ¬(v = u ∧ ∀ j, j < 8 → val (8 * u + j) ≠ none)) ∧
      (psn = true → (∀ a, m'.byte a = if a / 8 = u then 0 else m.byte a) ∧ ∀ v, m'.mark v = true ↔ v = u ∨ m.mark v = true)
    let puts2 (m m' : Mem) (a n : Nat) (bs : List Byte) (psn : Bool) : Prop :=
      (psn = false → (∀ b, m'.byte b = if a ≤ b ∧ b < a + n then nth 0 bs (b - a) else m.byte b) ∧
        ∀ v, m'.mark v = true ↔ m.mark v = true ∧ ¬(a ≤ 8 * v ∧ 8 * v + 8 ≤ a + n)) ∧
      (psn = true → (∀ b, m'.byte b = if b / 8 ∈ unitsOf a n then 0 else m.byte b) ∧ ∀ v, m'.mark v = true ↔ v ∈ unitsOf a n ∨ m.mark v = true)
    co.copyCmd id = some c → c.core = core → coreOf c.ctx = core → s.still core = false → c.started = true → c.finished = false →
    (c.op = 2 →
      let src := c.q 0
      let dst := c.q 1
      let sf := bits (c.q 2) 48 8
      let n := bits (c.q 2) 0 48
      let flip (x : Nat) (b : Byte) : Byte := if c.sub = 0 ∧ x = 0 ∧ bit (c.q 2) 63 = true ∧ bit (c.q 2) 61 = true then b ^^^ 1 else b
      let bytes (y n : Nat) : List Byte := (List.range n).map fun j => (c.srcByte (y + j)).1
      let marked (l : List Nat) : Bool := l.any fun y => (c.srcByte y).2
      let sw := fmtBytes sf
      let element (x : Nat) : Nat := if sf ∈ fmtPacket then (fromPacket c.fmt (leNat (bytes (64 * (x / 96)) 64)) sf (x % 96)).1
        else (convert c.fmt sf rne (leNat (bytes (x * sw) sw))).1
      let converted (x : Nat) : Byte × Bool := if c.fmt ∈ fmtPacket
        then (BitVec.ofNat 8 ((packetOf c.fmt (bits (c.q 3) 48 16) 0 (sourceElems sf (bytes 0 n) (x / 64 * 96) 96)).1 / 2 ^ (8 * (x % 64))),
          marked (cvtDeps sf c.fmt x))
        else (BitVec.ofNat 8 (element (x / e) / 2 ^ (8 * (x % e))), marked (elemDeps sf (x / e)))
      let transposed (x : Nat) : Option (Byte × Bool) :=
        let j := x / c.dstr
        let i := x % c.dstr / e
        let y := i * c.sstr + j * e
        if j < c.cols ∧ i < c.rows ∧ j * c.dstr + (i + 1) * e ≤ c.room dst then
          some (if y + e ≤ c.room src then ((c.srcByte (y + x % e)).1, marked ((List.range e).map (y + ·))) else (0, false)) else none
      let val (a : Nat) : Option (Byte × Bool) :=
        let x := a - c.addr dst
        if a < c.addr dst ∨ c.dstLen ≤ x then none
        else match c.sub with
          | 0 => some (flip x (converted x).1, (converted x).2)
          | 1 => transposed x
          | _ => some (nth 0 c.out x, nth false c.outPsn x)
      (c.sub = 0 → c.dstLen =
        (if c.fmt ∈ fmtPacket ∧ sf ∈ fmtPacket then n else if c.fmt ∈ fmtPacket then 64 * ((n / sw + 95) / 96)
          else if sf ∈ fmtPacket then n / 64 * 96 * e else n / sw * e)) ∧
      (∀ u, u ∈ unitsOf (c.addr src) c.srcLen → c.got 0 u = none → free src u → c.todo ≠ [] ∨ ((c.sub = 2 ∨ c.sub = 3) ∧ c.phase = 0) →
        ∃ t, run (false, u) t ∧ t.mem = s.mem ∧ t.clusters = s.clusters ∧ (t.core core).spm = co.spm ∧
          (t.core core).copyCmd id = some (c.keep 0 u (BitVec.ofNat 64 ((store s src).nat (8 * u) 8), (store s src).mark u))) ∧
      (∀ u, u ∈ c.todo → c.canWrite u = true → free dst u → c.sub < 2 ∨ (c.sub < 4 ∧ c.phase ≠ 0) →
        (c.sub = 0 → n % (if sf ∈ fmtPacket then 64 else sw) = 0) → ∃ t, run (true, u) t ∧ t.mem = s.mem ∧ puts (store s dst) (store t dst) u val) ∧
      (c.sub = 3 → c.phase = 0 → c.hasRange 0 (c.addr src) n = true → c.dstUnits ≠ [] →
        let b := c.bytesAt 0 (c.addr src) n
        let blk := compressBlock b.1
        let x := c.end_ 0x16 0 0
        let pad := c.dstLen - blk.length
        (c.dstLen < blk.length → run (true, 0) ((s.setCopy core x).complete x)) ∧
        (blk.length ≤ c.dstLen → run (true, 0) (s.setCopy core { c with
          phase := 1, out := blk ++ List.replicate pad 0
          outPsn := List.replicate blk.length (b.2.contains true) ++ List.replicate pad false, todo := c.dstUnits }))) ∧
      (c.sub = 2 → c.phase = 0 → 32 ≤ c.srcLen → c.hasRange 0 (c.addr src) c.srcLen = true → c.dstUnits ≠ [] →
        let h := (c.bytesAt 0 (c.addr src) 32).1
        let used := if headerOk h then min (blkUsed h) c.srcLen else 32
        let b := c.bytesAt 0 (c.addr src) used
        let x := c.end_ 0x12 0 0
        (∀ r, decodeBlock c.srcLen b.1 b.2 = some r → r.1.length = n → run (true, 0) (s.setCopy core { c with
          phase := 1, out := r.1, outPsn := r.2, todo := c.dstUnits })) ∧
        ((∀ r, decodeBlock c.srcLen b.1 b.2 = some r → r.1.length ≠ n) → run (true, 0) ((s.setCopy core x).complete x)))) ∧
    (c.op = 3 → nameSerial c.rName = s.part.serial → c.remote = 2 → s.mergesNone = true →
      let base := extBase (look 0 c.extents 16)
      (∀ u p, base % 8 = 0 → u ∈ c.todo → c.canWrite u = true → pageOf (look [] c.pages 16) ((base + 8 * u) / 65536) = some p →
        let pa := (p.frame * 65536 + (base + 8 * u) % 65536) / 8
        let val (b : Nat) : Option (Byte × Bool) :=
          let a := 8 * u + b % 8
          if b / 8 ≠ pa ∨ a < c.rOff ∨ c.rOff + c.len ≤ a then none else some ((c.dstByte (a - c.rOff)).1, (c.srcByte (a - c.rOff)).2)
        ∃ t, run (true, u) t ∧ puts s.mem t.mem pa val) ∧
      (c.todo = [] → c.sigen = false → (fld c.block 26 1).testBit 0 = true → c.copyEnd.status ≠ 0x10 → s.part.hasCluster c.rClus = true →
        ∀ u, ∃ t, run (true, u) t ∧ t.mem = s.mem ∧
          let old := s.sem c.rClus {} c.rSem
          let sum : Int := old.bal.toInt + if (fld c.block 26 1).testBit 1 then (c.len : Int) else 1
          t.sem c.rClus {} c.rSem = if sum < -(2 ^ 31) then { bal := 0x80000000, mark := true }
            else if 2 ^ 31 ≤ sum then { bal := 0x7FFFFFFF, mark := true } else { bal := BitVec.ofInt 32 sum, mark := old.mark })) ∧
    (c.op = 4 ∨ c.op = 5 →
      let first := 64 * c.chunkNo
      let count := bits (c.q 2) 0 48
      let here (n : Nat) : Prop := first ≤ n ∧ n < first + 64 ∧ n < count
      let idx (n : Nat) : Nat := leNat (c.bytesAt 3 (c.addr (c.q 3) + 4 * n) 4).1
      let lost (n : Nat) : Bool := (c.bytesAt 3 (c.addr (c.q 3) + 4 * n) 4).2.contains true
      let from_ (n : Nat) : Nat := c.addr (c.q 0) + idx n * e
      let to_ (n : Nat) : Nat := c.addr (c.q 1) + idx n * e
      let given (n : Nat) : Nat := leNat (c.bytesAt 0 (c.addr (c.q 0) + n * e) e).1
      let dirty (n : Nat) : Bool := (c.bytesAt 0 (c.addr (c.q 0) + n * e) e).2.contains true
      (c.op = 4 → c.phase = 1 → ∀ u, u ∈ c.todo → free (c.q 1) u → (∀ n, here n → lost n = true ∨ c.hasRange 0 (from_ n) e = true) →
        let val (a : Nat) : Option (Byte × Bool) :=
          let n := (a - c.addr (c.q 1)) / e
          let b := c.bytesAt 0 (from_ n) e
          if a < c.addr (c.q 1) ∨ n < first ∨ first + 64 ≤ n ∨ count ≤ n then none
          else some (if lost n then (0, true) else (nth 0 b.1 ((a - c.addr (c.q 1)) % e), b.2.contains true))
        ∃ t, run (true, u) t ∧ t.mem = s.mem ∧ puts (store s (c.q 1)) (store t (c.q 1)) u val) ∧
      (c.op = 5 → bits (c.q 1) 62 2 = 1 → c.phase = 1 → ∀ n r, c.todo = n :: r →
        let old := (s.cluster cl).store
        ∃ t, run (true, 0) t ∧ t.mem = s.mem ∧
          (dirty n = false → old.poisoned (to_ n) e = true → (t.cluster cl).store = old) ∧
          (dirty n = true ∨ old.poisoned (to_ n) e = false → puts2 old (t.cluster cl).store (to_ n) e
            (leBytes e (rmwNew (elemRmw 0 c.fmt) c.fmt (old.nat (to_ n) e) (given n) 0)) (dirty n))) ∧
      (c.op = 5 → bits (c.q 1) 62 2 = 2 → c.phase = 0 → c.chunkRead = true → s.chunkCheck c = 0 →
        (∀ n, here n → pageOf (look [] c.pages (bits (c.q 1) 58 4)) (to_ n / 65536) ≠ none) →
        ∃ t l, run (true, 0) t ∧ t.updates = s.updates ++ l ∧
          l.map (fun u => (u.va, u.val, u.psn)) = ((c.chunk.filter fun n => !lost n).map fun n => (to_ n, given n, dirty n)) ∧
          ∀ u ∈ l, u.cmd = some (core, id) ∧ u.op = elemRmw 0 c.fmt ∧ u.fmt = c.fmt ∧ u.status = .transit ∧
            u.pa = pagePa (look [] c.pages (bits (c.q 1) 58 4)) u.va)) ∧
    (c.op = 6 → ∀ n, n ∈ c.todo → c.hasRange 0 (c.addr (c.q 0) + n * e) e = true →
      let x := c.bytesAt 0 (c.addr (c.q 0) + n * e) e
      let op := elemRmw c.sub c.fmt
      let a := c.addr (c.q 1) + n * e
      let psn := x.2.contains true
      let posts (va : Nat) : Prop := ∃ t u, run (true, n) t ∧ t.updates = s.updates ++ [u] ∧ u.va = va ∧ u.op = op ∧ u.fmt = c.fmt ∧ u.psn = psn ∧
        u.val % 2 ^ (8 * e) = leNat x.1 % 2 ^ (8 * e) ∧ u.cmd = some (core, id) ∧ u.status = .transit
      (bits (c.q 1) 62 2 = 0 → c.hasRange 1 a e = true → (∀ u ∈ unitsOf a e, s.lockHolds core c.id u = false) →
        let y := c.bytesAt 1 a e
        ∃ t, run (true, n) t ∧ t.mem = s.mem ∧
          puts2 co.spm (t.core core).spm a e (leBytes e (rmwNew op c.fmt (leNat y.1) (leNat x.1) 0)) (psn || y.2.contains true)) ∧
      (bits (c.q 1) 62 2 = 1 →
        let old := (s.cluster cl).store
        ∃ t, run (true, n) t ∧ t.mem = s.mem ∧
          (psn = false → old.poisoned a e = true → (t.cluster cl).store = old) ∧
          (psn = true ∨ old.poisoned a e = false → puts2 old (t.cluster cl).store a e
            (leBytes e (rmwNew op c.fmt (old.nat a e) (leNat x.1) 0)) psn)) ∧
      (bits (c.q 1) 62 2 = 2 → c.todo.head? = some n → pageOf (look [] c.pages (bits (c.q 1) 58 4)) (a / 65536) ≠ none → posts a) ∧
      (bits (c.q 1) 62 2 = 3 → nameSerial c.rName = s.part.serial → c.remote = 2 →
        posts (extBase (look 0 c.extents 16) + (c.rOff + n * e))))

/-- R200, R203, R204, R209 to R212, R229. WBLD, WBCLR, ACCZ and MQSTAT start once their tokens have completed and no earlier command that
they conflict with is left: WBCLR zeroes the weight buffer, ACCZ its banks, MQSTAT samples the engines, and WBLD, as it completes, has
copied its source into the weight buffer and marked each 64-byte unit that took marked data. A command that has ended signals, its token
lands, and it leaves its queue. Where the model's own readings enter: log entries 60, 62 and 88. -/
def Obligations.MatrixCommandsRun : Prop :=
  ∀ (core id : Nat) (s : State),
    let co := s.core core
    let start (lag : List (Nat × Nat)) : Instr := .matrixCommandStart core id lag
    let end_ (reads : List Nat) (go : Bool) : Instr := .matrixCommandCompletion core id reads go
    let queued (b : Core) (c x : Cmd) : Core :=
      { b with mq := b.mq.map (fun e => if e.id = c.id then x else e), mqstat := b.mqstat.map fun e => if e.id = c.id then x else e }
    let done (c : Cmd) (code result : Nat) : Cmd :=
      { c with started := true, running := false, finished := true, status := code, result := result, written := 0 }
    let gone (t : State) (c : Cmd) (status result : Nat) : Prop :=
      (∀ e ∈ (t.core core).mq ++ (t.core core).mqstat ++ (t.core core).lq, e.id ≠ id) ∧
      (∀ l r, (s.ctx c.ctx).sb = l ++ { dst := .s c.d, what := .token core id } :: r → (∀ e ∈ l, ∀ k, e.what ≠ .token k id) →
        (s.ctx c.ctx).held l.length = false →
        (t.ctx c.ctx).sb = l ++ r ∧
        (c.d ≠ 0 → look {} (t.ctx c.ctx).arch.s c.d = { val := statusWord c.flags status result }) ∧
        ∀ m, m ≠ c.d → look {} (t.ctx c.ctx).arch.s m = look {} (s.ctx c.ctx).arch.s m) ∧
      ((c.op ≠ 3 ∨ c.routine ≠ 4) → c.info.onGrid c.sem = false → c.bytes = false →
        let old := s.sem (clusterOf c.ctx) c.info c.sem
        t.sem (clusterOf c.ctx) c.info c.sem =
          if c.sigen = false then old
          else if old.bal.toInt = 2 ^ 31 - 1 then { bal := 0x7FFFFFFF, mark := true }
          else { bal := BitVec.ofInt 32 (old.bal.toInt + 1), mark := old.mark })
    (∀ c, (co.mq ++ co.mqstat).find? (fun e => e.id == id) = some c →
      let answers (lag : List (Nat × Nat)) (b : Core) (x : Cmd) : Prop :=
        Sys2Proof.Machine.exec (start lag) s = .next (s.setCore core (queued b c x))
      let failed : Prop := ∃ w psn, TokVal.have_ w psn ∈ c.toks ∧ (psn = true ∨ bits w 32 16 ∉ [0x00, 0x17, 0x0E])
      let waits : Prop := ∃ r, TokVal.await r ∈ c.toks
      let behind : Prop := ∃ e ∈ co.mq, e.id < c.id ∧ c.conflicts e = true
      let named : Prop := coreOf c.ctx = core ∧ ∀ b ∈ c.banks, (∀ p ∈ (s.ctx c.ctx).arch.accs, p.1 ≠ b) ∧
        (look 0 co.accBy b = (s.ctx c.ctx).arch.info.uid ∨ s.taskOn core (look 0 co.accBy b) = true)
      let off := (c.w 1).toNat
      let len := (c.w 2).toNat
      let from_ := (c.w 0).toNat
      ∀ lag,
        (s.still core = true ∨ c.op = 3 ∨ c.started = true ∨ waits → Idles (start lag) s) ∧
        (s.still core = false → c.op ≠ 3 → c.started = false → ¬waits →
          (failed → answers lag co { done c 0x01 0 with banks := [] }) ∧
          (¬failed → c.op = 8 → ∃ r, answers lag co (done c 0 r) ∧
            (co.mq.length ≤ 8 → r % 16 = co.mq.length) ∧
            (co.mq.length ≤ 8 → co.lq.length ≤ 4 → r / 2 ^ 24 = co.lq.length ∧
              (r.testBit 10 = true ↔ ∃ e ∈ co.mq, e.op = 3 ∧ e.running = true) ∧
              ∀ b, b < 8 → (r.testBit (16 + b) = true ↔ ∃ e ∈ co.mq, b ∈ e.banks))) ∧
          (¬failed → c.op ∈ [4, 5, 6] → behind → Idles (start lag) s) ∧
          (¬failed → ¬behind → c.op = 5 → answers lag { co with wb := {} } (done c 0 0)) ∧
          (¬failed → ¬behind → c.op = 6 →
            (bits (c.w 0) 8 56 ≠ 0 → answers lag co (done c 0x02 0)) ∧
            (bits (c.w 0) 8 56 = 0 → named → ∃ acc by_, answers lag { co with acc := acc, accBy := by_ } (done c 0 0) ∧
              ∀ k, look {} acc k = if k / 128 ∈ c.banks then {} else look {} co.acc k)) ∧
          (¬failed → ¬behind → c.op = 4 → bit (c.w 3) 4 = false →
            let bad : Prop := (c.w 3) ≠ 0 ∨ off % 64 ≠ 0 ∨ 0x40000 ≤ off ∨ len % 64 ≠ 0 ∨ len < 64 ∨ 0x40000 < off + len ∨
              2 ^ 20 < from_ + len
            (bad → answers lag co (done c 0x02 0)) ∧
            (¬bad → answers lag co { c with
              started := true, running := true, extents := (s.ctx c.ctx).arch.extents, pages := (s.ctx c.ctx).arch.ePages, lag := lag })))) ∧
    (∀ reads go c, (co.mq ++ co.mqstat ++ co.lq).find? (fun e => e.id == id) = some c → c.core = core → coreOf c.ctx = core →
      let off := (c.w 1).toNat
      let len := (c.w 2).toNat
      let from_ := (c.w 0).toNat
      (s.still core = true ∨ (c.finished = false ∧ (c.op ≠ 4 ∨ c.started = false)) → Idles (end_ reads go) s) ∧
      (s.still core = false → c.finished = true →
        ∃ t, Sys2Proof.Machine.exec (end_ reads go) s = .next t ∧ t.mem = s.mem ∧ gone t c c.status c.result) ∧
      (s.still core = false → c.finished = false → c.op = 4 → c.started = true → (c.w 3) = 0 → c.src = [] → off % 64 = 0 →
        len % 64 = 0 → len ≤ 0x40000 → from_ + len ≤ 2 ^ 20 → (∀ b, s.locked core b = false) →
        let unit (j : Nat) : Bool := co.spm.poisoned (from_ + 64 * j) 64
        let psn : Bool := co.spm.poisoned from_ len
        ∃ t, Sys2Proof.Machine.exec (end_ reads true) s = .next t ∧ t.mem = s.mem ∧
          (∀ a, (t.core core).wb.byte a = if off ≤ a ∧ a < off + len then co.spm.byte (from_ + (a - off)) else co.wb.byte a) ∧
          (∀ u, (t.core core).wb.mark u = if off ≤ 8 * u ∧ 8 * u < off + len then unit ((8 * u - off) / 64) else co.wb.mark u) ∧
          gone t c (if psn then 0x0F else 0) (len / 64 * 65536))) ∧
    ((co.mq ++ co.mqstat).find? (fun e => e.id == id) = none → ∀ lag, Idles (start lag) s) ∧
    ((co.mq ++ co.mqstat ++ co.lq).find? (fun e => e.id == id) = none → ∀ reads go, Idles (end_ reads go) s)

/-- R64 to R66, R199 to R203, R206, R216 to R222, R225 to R227. The matrix engine takes up the ready routine of highest effective
priority, of equals the first issued; a failed token cancels a routine, an index that the library does not hold and parameters outside
their limits end it; a running one goes on to its next boundary: a k-step adds the groups of exact products to every element of the tile
in order, an omitted element as a +0 product, ACC.EXPORT writes eight rows converted, ACC.SCALE scales eight rows, and after the last the
routine has ended, with the steps and flags in its result. Where the model's own readings enter: log entries 57, 58, 60, 61, 90, 100 and
116. -/
def Obligations.MatrixRoutinesRun : Prop :=
  (∀ (core id : Nat) (us : List Nat) (go : Bool) (s : State),
    let co := s.core core
    let cand := co.mq.filter co.readyRoutine
    (∀ c, (∀ e ∈ co.mq, e.op = 3 → e.running = false) → (s.nextRoutine core = some c ↔
      ∃ l r, cand = l ++ c :: r ∧ (∀ e ∈ l, s.effPrio e < s.effPrio c) ∧ ∀ e ∈ r, s.effPrio e ≤ s.effPrio c)) ∧
    ∀ x ∈ [(Instr.mma core id us go, 1), (.mmaNm core id us go, 2), (.mmaNmt core id us go, 3), (.mmaCoop core id us go, 4),
        (.accExport core id us go, 6), (.accScale core id us go, 7)],
      (co.mq.find? (fun e => e.id == id) = none → Idles x.1 s) ∧
      ∀ c, co.mq.find? (fun e => e.id == id) = some c →
        let queued (t : State) (y : Cmd) : Prop := t = s.setCore core { co with
          mq := co.mq.map (fun e => if e.id = c.id then y else e), mqstat := co.mqstat.map fun e => if e.id = c.id then y else e }
        let ends (code : Nat) (banks : List Nat) : Prop := ∃ t, Sys2Proof.Machine.exec x.1 s = .next t ∧ queued t { c with
          started := true, running := false, finished := true, status := code, result := 0, written := 0, banks := banks }
        let failed : Prop := ∃ w psn, TokVal.have_ w psn ∈ c.toks ∧ (psn = true ∨ bits w 32 16 ∉ [0x00, 0x17, 0x0E])
        let waits : Prop := ∃ r, TokVal.await r ∈ c.toks
        let mine : Prop := c.op = 3 ∧ c.routine = x.2 ∧ s.still core = false ∧ c.finished = false
        let named : Prop := coreOf c.ctx = core ∧ ∀ b ∈ c.banks, (∀ p ∈ (s.ctx c.ctx).arch.accs, p.1 ≠ b) ∧
          (look 0 co.accBy b = (s.ctx c.ctx).arch.info.uid ∨ s.taskOn core (look 0 co.accBy b) = true)
        let bad : Prop := match x.2 with
          | 4 => c.coopBad = true
          | 6 => c.exportBad = true
          | 7 => c.scaleBad = true
          | _ => c.mmaBad = true
        (¬mine ∨ (c.started = false ∧ waits) → Idles x.1 s) ∧
        (mine → c.started = false → ¬waits → failed → ends 0x01 []) ∧
        (mine → c.started = false → ¬waits → ¬failed → c.lacks = true → ends 0x19 c.banks) ∧
        (mine → c.started = false → ¬waits → ¬failed → c.lacks = false → c.running = false →
          (s.nextRoutine core ≠ some c → Idles x.1 s) ∧
          (s.nextRoutine core = some c → bad → ∃ t, Sys2Proof.Machine.exec x.1 s = .next t ∧ t.mem = s.mem ∧
            (named → t = { s with cores := t.cores }) ∧ (t.core core).mq = co.mq.map fun e => if e.id = c.id then { c with
              started := true, running := false, finished := true, status := 0x02, result := 0, written := 0 } else e) ∧
          (s.nextRoutine core = some c → ¬bad → ∃ t, Sys2Proof.Machine.exec x.1 s = .next t ∧ t.mem = s.mem ∧
            (named → t = { s with cores := t.cores }) ∧
            (t.core core).mq = co.mq.map fun e => if e.id = c.id then { c with
              started := true, running := true, extents := (s.ctx c.ctx).arch.extents, pages := (s.ctx c.ctx).arch.ePages, lag := [] }
              else if e.op = 3 then { e with running := false } else e)) ∧
        (mine → c.started = true → c.running = false → s.nextRoutine core = some c →
          ∃ t, Sys2Proof.Machine.exec x.1 s = .next t ∧ t = { s with cores := t.cores } ∧
            (t.core core).mq = co.mq.map fun e => if e.id = c.id then { c with running := true }
              else if e.op = 3 then { e with running := false } else e) ∧
        (mine → c.started = true → c.running = true → s.nextRoutine core ≠ none → Idles x.1 s)) ∧
  (∀ (core id : Nat) (s : State) (c : Cmd),
    let co := s.core core
    let el (t : State) (kind b i j : Nat) : Nat :=
      let e := accPer kind
      elem (look {} (t.core core).acc ((b + j / e) * 128 + i)).bits (j % e) (fmtWidth kind)
    let marked (t : State) (kind b i j : Nat) : Bool := (look {} (t.core core).acc ((b + j / accPer kind) * 128 + i)).psn
    let result (y : Cmd) : Nat := min y.progress 0xFFFF * 65536 + y.conds % 32
    let goes (i : Instr) (t : State) (y : Cmd) (last : Bool) : Prop :=
      Sys2Proof.Machine.exec i s = .next t ∧ t = { s with cores := t.cores } ∧ (∀ k, k ≠ core → t.core k = s.core k) ∧
      y.id = c.id ∧ (t.core core).mq = co.mq.map (fun e => if e.id = c.id then y else e) ∧ y.progress = c.progress + 1 ∧
      y.finished = last ∧ (last = true → y.result = result y ∧ y.status = if y.psn || y.blockPsn then 0x0F else 0x00)
    co.mq.find? (fun e => e.id == id) = some c → c.core = core → c.op = 3 → s.still core = false → c.started = true →
    c.running = true → c.finished = false → s.nextRoutine core = none → (∀ b, s.locked core b = false) → c.src = [] →
    let t0 := c.tile
    let kind := accFmt t0.af
    let step := kStep t0.af
    let k0 := c.progress * step
    let k1 := min t0.k (k0 + step)
    let item (fmt base k : Nat) (get : Nat → Nat → List Byte) : Fp :=
      if fmtPacket.contains fmt then packetDecode fmt (leNat (get (base + 64 * (k / 96)) 64)) (k % 96)
      else numDecode fmt (leNat (get (base + k * fmtBytes fmt) (fmtBytes fmt)))
    let store := (s.cluster (clusterOf c.ctx)).store
    let a (i k : Nat) : Fp := item t0.af (t0.abase + i * t0.astr) k (if c.routine = 4 then store.bytes else co.spm.bytes)
    let b (k j : Nat) : Option Fp := match c.routine with
      | 1 => some (item t0.bf (t0.bbase + j * t0.bstr) k co.wb.bytes)
      | 2 => t0.sparse co.wb k j
      | 3 => t0.sparse co.wb j k
      | _ => some (item t0.bf (t0.bbase + j * t0.bstr) k store.bytes)
    let pairs (i j : Nat) : List (Fp × Fp) := (List.range (k1 - k0)).map fun q =>
      match b (k0 + q) j with
      | some y => (a i (k0 + q), y)
      | none => (.zero false, .zero false)
    let sum (i j : Nat) : Nat := (chunks (groupLen t0.af) (k1 - k0) (pairs i j)).foldl
      (fun acc g => (accAdd kind acc (groupSum g)).1) (el s kind t0.accb i j)
    let i := fun (us : List Nat) => match c.routine with
      | 1 => Instr.mma core id us true
      | 2 => .mmaNm core id us true
      | 3 => .mmaNmt core id us true
      | _ => .mmaCoop core id us true
    let masks : Prop := c.routine = 2 ∨ c.routine = 3 → ∀ n ∈ t0.blocks k0 k1, maskValid (t0.mask co.wb n) = true
    (c.routine ∈ [1, 2, 3, 4] → (if c.routine = 4 then c.coopBad else c.mmaBad) = false → k0 < t0.k → masks →
      ∃ t y, goes (i []) t y (decide (t0.k ≤ k0 + step)) ∧
        (∀ r j, r < t0.m → j < t0.n → el t kind t0.accb r j = sum r j ∧
          marked t kind t0.accb r j = (marked s kind t0.accb r j || y.psn)) ∧
        (∀ key, (key % 128 ≥ t0.m ∨ key / 128 < t0.accb ∨ t0.accb + t0.banks ≤ key / 128) →
          look {} (t.core core).acc key = look {} co.acc key) ∧
        (c.psn = true → y.psn = true) ∧
        (c.psn = false → (∀ u, co.spm.mark u = false ∧ co.wb.mark u = false ∧ store.mark u = false) → y.psn = false) ∧
        (t.core core).spm = co.spm ∧ (t.core core).wb = co.wb) ∧
    (c.routine ∈ [2, 3] → c.mmaBad = false → ¬masks → ∃ t y, Sys2Proof.Machine.exec (i []) s = .next t ∧
      t = { s with cores := t.cores } ∧ (t.core core).acc = co.acc ∧
      (t.core core).mq = co.mq.map (fun e => if e.id = c.id then y else e) ∧ y.finished = true ∧ y.status = 0x13 ∧ y.result = result c) ∧
    (c.routine = 6 → c.exportBad = false → c.phase = 0 → 8 * c.progress < c.tm →
      let src := akindFmt c.akind
      let rows := (List.range c.tm).filter fun r => r / 8 == c.progress
      let n := rowBytes c.dfmt c.tn
      let xs (r : Nat) : List Nat := (List.range c.tn).map fun j => el s src c.accb r j
      let row (r : Nat) : List Byte :=
        if fmtPacket.contains c.dfmt then
          (chunks 96 c.tn ((xs r).map (fpDecode (fpOf src)))).flatMap fun g => leBytes 64 (packetOf c.dfmt (bits (c.m 1) 32 16) c.expRm g).1
        else (xs r).flatMap fun e => leBytes (fmtBytes c.dfmt) (convert c.dfmt src { mode := c.expRm } e).1
      let at_ (r : Nat) : Nat := c.daddr + r * c.dstride
      let last := decide (c.tm ≤ 8 * (c.progress + 1))
      ∃ t y, goes (.accExport core id [] true) t y last ∧ (t.core core).wb = co.wb ∧
        ((∀ r ∈ rows, ∀ j, j < c.tn → marked s src c.accb r j = false) →
          (∀ r ∈ rows, ∀ z, z < n → (∀ q ∈ rows, r < q → ¬(at_ q ≤ at_ r + z ∧ at_ r + z < at_ q + n)) →
            (t.core core).spm.byte (at_ r + z) = nth 0 (row r) z) ∧
          ∀ w, (∀ r ∈ rows, ¬(at_ r ≤ w ∧ w < at_ r + n)) → (t.core core).spm.byte w = co.spm.byte w) ∧
        ∀ key, look {} (t.core core).acc key =
          if last = true ∧ bit (c.m 1) 23 = true ∧ c.accb ≤ key / 128 ∧ key / 128 < c.accb + c.tbanks then {} else look {} co.acc key) ∧
    (c.routine = 7 → c.scaleBad = false → 8 * c.progress < c.tm →
      let src := akindFmt c.akind
      let f := fpOf src
      let v (j : Nat) : Fp := if c.scaleCols then fpDecode (fpOf fFp32) (co.spm.nat (c.vaddr + 4 * j) 4) else .fin false 1 0 false
      ∃ t y, goes (.accScale core id [] true) t y (decide (c.tm ≤ 8 * (c.progress + 1))) ∧
        (t.core core).spm = co.spm ∧ (t.core core).wb = co.wb ∧
        (∀ r j, r < c.tm → j < c.tn → el t src c.accb r j =
          if r / 8 = c.progress then
            (scaleElem f (fpDecode f (el s src c.accb r j)) (fpDecode (fpOf fFp32) (bits (c.m 0) 0 32)) (v j)).1 % 2 ^ fmtWidth src
          else el s src c.accb r j) ∧
        ∀ key, (key % 128 / 8 ≠ c.progress ∨ key / 128 < c.accb ∨ c.accb + c.tbanks ≤ key / 128) →
          look {} (t.core core).acc key = look {} co.acc key)) ∧
  (∀ (kind acc : Nat) (ps : List (Fp × Fp)), kind ≠ fInt32 →
    (∃ p ∈ ps, p.1.isNan = true ∨ p.2.isNan = true ∨ zeroTimesInf p.1 p.2 = true) ∨
      ((∃ p ∈ ps, fpMul p.1 p.2 = .inf false) ∧ ∃ p ∈ ps, fpMul p.1 p.2 = .inf true) →
    accAdd kind acc (groupSum ps) = ((fpOf kind).qnan, 0))

/-- R69 to R77, R81, R82, R184, R203, R213, R214, R223, R224, R312, R364 to R367, R372, R374 to R377. CONTRACT reads its block at start; a
pass reads the units that its orbits name, each when it is due or again before, where a value read before may be taken up again, and adds
the combined orbits to every sum in order, whose partial values stand in the lowest bank of its workspace between passes; it writes each
representative that it has formed. GEVAL reads its header at start, where a mark makes it malformed, adds term after term, and stores the
rows that it has formed; both end with their status. A running stream reads elements ahead or in turn, a duplicate of its group once, and
takes them into its entry, and entries into its FIFO. Where the model's own readings enter: log entries 63, 64, 65, 93, 113 and 117. -/
def Obligations.ContractLodeAndStreams : Prop :=
  (∀ (core id : Nat) (lag : List (Nat × Nat)) (s : State) (c : Cmd),
    let i (ops : List Nat) (go : Bool) : Instr := .contract core id (lag, ops) go
    let co := s.core core
    let fs := c.walkFactors
    let orbits := orbitCount fs
    let passes := max 1 ((orbits + 63) / 64)
    let next (ops : List Nat) (go : Bool) (t : State) : Prop := Sys2Proof.Machine.exec (i ops go) s = .next t
    let alone : Prop := s.plain ∧ c.lag = [] ∧ ∀ u ∈ s.updates, u.before = []
    let becomes (t : State) (y : Cmd) : Prop := next [] true t ∧ t = { s with cores := t.cores } ∧
      (t.core core).mq = co.mq.map fun e => if e.id = c.id then y else e
    co.mq.find? (fun e => e.id == id) = some c → c.core = core → c.op = 3 → c.routine = 5 → s.still core = false → c.finished = false →
    (c.started = false → s.nextRoutine core = some c → c.ready = true → c.good = true → c.lacks = false → c.running = false →
      (∀ b, s.locked core b = false) → coreOf c.ctx = core →
      (∀ b ∈ c.banks, (∀ p ∈ (s.ctx c.ctx).arch.accs, p.1 ≠ b) ∧
        (look 0 co.accBy b = (s.ctx c.ctx).arch.info.uid ∨ s.taskOn core (look 0 co.accBy b) = true)) →
      let at_ := bits (c.m 0) 0 20
      (bits (c.m 0) 20 44 ≠ 0 ∨ at_ % 64 ≠ 0 ∨ 2 ^ 20 < at_ + 256 ∨ bits (c.m 1) 8 56 ≠ 0 ∨ bits (c.m 1) 0 8 = 0 ∨
          co.spm.poisoned at_ 256 = true →
        ∃ t y, becomes t y ∧ y.finished = true ∧ y.status = 0x02 ∧ y.result = 0) ∧
      (∃ t y, next [] true t ∧ t.mem = s.mem ∧ t.ctxs = s.ctxs ∧ y.id = c.id ∧ y ∈ (t.core core).mq ∧ y.started = true ∧
        (y.finished = false → y.running = true ∧ y.lag = lag ∧ y.block = co.spm.bytes at_ 256 ∧ y.blockBad = false))) ∧
    (c.started = true → c.running = true → s.nextRoutine core = none → c.phase = 0 →
      let b := c.progress / passes
      let p := c.progress % passes
      let ts := c.blockTuples b
      let n := passPoints orbits p ts.length
      let c0 := c.openPass co ts.length p
      let value (q u : Nat) : Word × Bool := match unitOn (c.opPages q) u with
        | some x => s.unit x.pu
        | none => (0, true)
      let wanted (q u : Nat) : Prop := ∃ k, k < n ∧ srcKey 0 q u ∈ c.pointKeys fs ts p k
      (c.point ≤ n → Sys2Proof.Machine.exec (i [] true) s = Sys2Proof.Machine.exec (i (List.replicate (n - c.point) 0) false) s) ∧
      (∀ q u, q < 4 → u < 2 ^ 61 → c.chunkNo = 0 → c.point < n → wanted q u → alone → ∃ t y, next [srcKey 0 q u + 1] false t ∧ t.mem = s.mem ∧ t.ctxs = s.ctxs ∧
        (t.core core).mq = co.mq.map (fun e => if e.id = c.id then y else e) ∧ (t.core core).acc = co.acc ∧ y = { c0 with src := y.src } ∧
        (∀ r v, r < 4 → v < 2 ^ 61 → y.got r v = if r = q ∧ v = u then some (value q u) else c.got r v) ∧
        (c.got q u ≠ none → ∃ j, 0 < j ∧ look none y.src (2 ^ 64 * j + srcKey 0 q u) = c.got q u)) ∧
      (∀ q u j x, q < 4 → u < 2 ^ 61 → c.chunkNo = 0 → 0 < j → c.point < n → wanted q u → look none c.src (2 ^ 64 * j + srcKey 0 q u) = some x →
        ∃ t y, next [2 ^ 64 * j + srcKey 0 q u + 1] false t ∧ t = { s with cores := t.cores } ∧
          (t.core core).mq = co.mq.map (fun e => if e.id = c.id then y else e) ∧ (t.core core).acc = co.acc ∧ y = { c0 with src := y.src } ∧
          y.got q u = some x ∧ look none y.src (2 ^ 64 * j + srcKey 0 q u) = c.got q u ∧
          ∀ r v, r < 4 → v < 2 ^ 61 → (r ≠ q ∨ v ≠ u) → y.got r v = c.got r v) ∧
      (c.point = 0 → c.src = [] → (p ≠ 0 → c.sums.length = ts.length) → ts.length ≤ 128 → alone →
        ∃ t y, next [] true t ∧ t.mem = s.mem ∧ t.ctxs = s.ctxs ∧
          (t.core core).mq = co.mq.map (fun e => if e.id = c.id then y else e) ∧ y.progress = c.progress + 1 ∧ y.finished = false ∧
          ∃ r : Cmd, r = { c with src := r.src } ∧
            (∀ q u, q < 4 → (wanted q u → r.got q u = some (value q u)) ∧ (¬wanted q u → r.got q u = none)) ∧
            let starts := if p = 0 then ts.map fun f => ((r.startSum f).1, (r.startSum f).2.1) else c0.sums
            let sums := (ts.zip starts).map fun x =>
              ((List.range (min 64 (orbits - 64 * p))).map (64 * p + ·)).foldl (fun (v : Nat × Bool) o =>
                let q := orbitAt fs o
                let w := r.orbitStep (c.zEnv x.1.idx ++ q.1) q.2 v.1 v.2
                (w.1, w.2.1)) x.2
            let per := accPer c.accf
            (p + 1 < passes → y.phase = 0 ∧ y.point = 0 ∧ y.formed = c.formed ∧ y.sums = sums.map (fun x => (0, x.2)) ∧
              (∀ j x, sums[j]? = some x →
                elem (look {} (t.core core).acc (c.sumBank * 128 + j / per)).bits (j % per) (fmtWidth c.accf) = x.1 % 2 ^ fmtWidth c.accf) ∧
              ∀ key, key / 128 ≠ c.sumBank → look {} (t.core core).acc key = look {} co.acc key) ∧
            (¬p + 1 < passes → (t.core core).acc = co.acc ∧ y.phase = 1 ∧ y.formed = c.formed ++ (ts.zip sums).map fun x =>
              { x.1 with val := (convert (c.desc 2).fmt c.accf rne x.2.1).1, psn := x.2.2 }))) ∧
    (∀ f, c.started = true → c.running = true → s.nextRoutine core = none → c.phase = 1 → alone → s.uncached → c.formed = [f] →
      f.canon = true → f.psn = false → f.k ≠ none → c.todo = [] → c.blockTuples (c.progress / passes) = [] →
      let n := fmtBytes (c.desc 2).fmt
      let va := c.opBase 2 + f.k.getD 0 * n
      let pa := (placeIn (c.opPages 2) va).1
      va % n = 0 → unitOn (c.opPages 2) (va / 8) ≠ none →
      ∃ t y, next [] true t ∧ t.mem.nat pa n = f.val % 2 ^ (8 * n) ∧
        (∀ a, ¬(pa ≤ a ∧ a < pa + n) → t.mem.byte a = s.mem.byte a) ∧
        (∀ k, look {} (t.core core).acc k = if k / 128 ∈ c.banks then {} else look {} co.acc k) ∧
        (t.core core).mq = co.mq.map (fun e => if e.id = c.id then y else e) ∧ y.finished = true ∧
        y.status = (if c.psn then 0x0F else if c.unguaranteed then (if c.written ≠ 0 then 0x18 else 0x17) else 0x00) ∧
        y.result = min c.progress 0xFFFF * 65536 + c.conds % 32)) ∧
  (∀ (core id : Nat) (lag : List (Nat × Nat)) (reads writes : List Nat) (go : Bool) (s : State) (c : Cmd),
    let i := Instr.lodeEvaluation core id lag reads writes go
    let co := s.core core
    let queue (y : Cmd) : List Cmd := co.lq.map fun e => if e.id = c.id then y else e
    let becomes (y : Cmd) : Prop := Sys2Proof.Machine.exec i s = .next (s.setCore core { co with lq := queue y })
    let stepping : Prop := s.still core = false ∧ c.started = true ∧ c.finished = false
    co.lodeCmd id = some c → c.core = core → (∀ b, s.locked core b = false) → co.waits = [] →
    (s.still core = true ∨ c.finished = true ∨ (c.started = false ∧ (c.ready = false ∨ co.lq.head?.map Cmd.id ≠ some id)) → Idles i s) ∧
    (s.still core = false → c.started = false → c.finished = false → c.ready = true → co.lq.head?.map Cmd.id = some id →
      (c.good = false → becomes { c with
        started := true, running := false, finished := true, status := 0x01, result := 0, written := 0, banks := [] }) ∧
      (c.good = true → c.gevalBad = true → becomes { c with
        lag := lag, started := true, running := false, finished := true, status := 0x02, result := 0, written := 0 }) ∧
      (c.good = true → c.gevalBad = false → bit (c.w 0) 63 = false → c.src = [] →
        let g := bits (c.w 0) 0 55
        ∃ t y, Sys2Proof.Machine.exec i s = .next t ∧ t = { s with cores := t.cores } ∧ (t.core core).lq = queue y ∧ y.id = c.id ∧
          y.started = true ∧ (2 ^ 20 < g + 64 → y.finished = true ∧ y.status = 0x02) ∧
          (g + 64 ≤ 2 ^ 20 → co.spm.poisoned g 64 = true → y.finished = true ∧ y.status = 0x02) ∧
          (g + 64 ≤ 2 ^ 20 → co.spm.poisoned g 64 = false →
            y.block = co.spm.bytes g 64 ∧ (y.headerBad = true → y.finished = true ∧ y.status = 0x02)) ∧
          (y.finished = true → y.status ≠ 0 ∧ y.result = 0))) ∧
    (stepping → go = true → reads = [] → writes = [] → c.phase = 4 ∨ c.phase = 3 → c.remote < c.mp.length * c.gBatch →
      let w : Word := nth 0 c.mp (c.remote / c.gBatch)
      let b := c.remote % c.gBatch
      let x := c.vecAt 1 b (symCol w)
      c.src = [] → symRef w = true ∨ (bit (c.w 1) 63 = false ∧ x % 4 = 0 ∧ co.spm.poisoned x 4 = false) →
      let v : Nat × Bool := if symRef w then c.ruleVal (symIndex w) b else (lterm (symValue c.gFmt w) (co.spm.nat x 4), false)
      let old := nth (0, false) c.sums b
      becomes { c with
        remote := c.remote + 1
        psn := c.psn || v.2
        sums := if c.remote < c.gBatch then c.sums ++ [(v.1, c.blockPsn || v.2)] else c.sums.set b (lsum old.1 v.1, old.2 || v.2) }) ∧
    (∀ f, stepping → go = false → reads = [] → writes = [formedKey f] → c.formed = [f] → bit (c.w 2) 63 = false → f.psn = false →
      c.formedAt f % 4 = 0 →
      let st : Cmd := { c with formed := [] }
      let y : Cmd := if c.phase = 5 then { st with
        started := true, running := false, finished := true, result := c.conds, written := 0 } else st
      ∃ t, Sys2Proof.Machine.exec i s = .next t ∧ t = { s with cores := t.cores } ∧ (t.core core).lq = queue y ∧
        (t.core core).spm.nat (c.formedAt f) 4 = f.val % 2 ^ 32 ∧
        ∀ a, ¬(c.formedAt f ≤ a ∧ a < c.formedAt f + 4) → (t.core core).spm.byte a = co.spm.byte a)) ∧
  ∀ (ctx stream : Nat) (lag : List (Nat × Nat)) (s : State),
    let x := s.ctx ctx
    let q := look {} x.arch.q stream
    let i (count : Nat) (ahead : List Nat) : Instr := .streamFetch ctx stream count (lag, ahead)
    let wi := if q.ixw = 0 then 4 else 8
    let we := 2 ^ q.esz.toNat
    let may (n o w : Nat) : Nat := s.checkExt (coreOf ctx) (x.arch.slotPages n) (x.arch.extent n) ((o : Nat) : Int) w w false
    let bytes (n o w : Nat) : List (Byte × Bool) := (List.range w).map fun j =>
      let pa := (placeIn (x.arch.slotPages n) (extBase (x.arch.extent n) + o + j)).1
      (s.mem.byte pa, s.mem.mark (pa / 8))
    let marked (l : List (Byte × Bool)) : Bool := l.any Prod.snd
    let value (l : List (Byte × Bool)) : Nat := if marked l then 0 else leNat (l.map Prod.fst)
    let read (j : Nat) : Fetched :=
      let place := q.remain.toNat - j
      let o := q.ixoff.toNat + j * wi
      let ixs := bytes q.ixslot.toNat o wi
      let ix := value ixs
      let els := bytes q.dslot.toNat (ix * we) we
      match q.seen.find? fun g => g.at_ == place with
      | some g => g
      | none =>
        if may q.ixslot.toNat o wi ≠ 0 then { at_ := place, good := false }
        else if marked ixs then { at_ := place, psn := true }
        else match q.seen.find? fun g => g.idx == some ix && q.group g.at_ == q.group place with
          | some g => { g with at_ := place }
          | none =>
            if may q.dslot.toNat (ix * we) we ≠ 0 then { at_ := place, idx := some ix, psn := true }
            else { at_ := place, idx := some ix, val := value els, psn := marked els }
    let runs : Prop := x.bound = true ∧ x.ending = none ∧ s.still (coreOf ctx) = false ∧ stream ≤ 3 ∧ q.state = 1
    let becomes (i : Instr) (q' : Stream) : Prop := ∃ t, Sys2Proof.Machine.exec i s = .next t ∧ t.mem = s.mem ∧
      t = { s with ctxs := t.ctxs, hidden := t.hidden } ∧ (∀ k, k ≠ ctx → t.ctx k = s.ctx k) ∧
      t.ctx ctx = { x with arch := { x.arch with q := put {} x.arch.q stream q' } }
    let noted (f : Fetched) : List Fetched := if q.seen.contains f then q.seen else q.seen ++ [f]
    let takes (f : Fetched) : Stream :=
      let part := q.part ++ [(f.val, f.psn)]
      let left := q.remain - 1
      let q' : Stream := { q with part := part, remain := left, ixoff := q.ixoff + (if q.ixw = 0 then 4 else 8), seen := noted f }
      if part.length = 256 / we ∨ left = 0 then { q' with
        part := []
        seen := (noted f).filter fun g => decide (g.at_ ≤ left.toNat)
        fifo := q.fifo ++ [{ bits := packVec (8 * we) (part.map Prod.fst), psn := part.any Prod.snd }]
        state := if left = 0 then 2 else q.state }
      else q'
    (¬runs ∨ 4 ≤ q.fifo.length → Idles (i 1 []) s) ∧
    (runs → s.plain → s.uncached → lag = [] → (∀ u ∈ s.updates, u.before = []) →
      (q.fifo.length < 4 →
        ((read 0).good = false → becomes (i 1 []) { q with state := 3, part := [], seen := [] }) ∧
        ((read 0).good = true → becomes (i 1 []) (takes (read 0)))) ∧
      ∀ j, j < q.remain.toNat → becomes (i 0 [j]) { q with seen := noted (read j) })
/-! ### Other modules, names and pages (spec/07, spec/09, spec/11, spec/18) -/

/-- R241, R274, R314, R323, R384 to R386, R391, R392. What another module sends is applied where a port is up, and the object's right and
length, and its pages, allow it: bytes are written on the runs that the name holds; one element is updated at its point of execution,
across two units where it lies so, or waits while a deterministic sequence holds its line; and the last delivery's signal reaches the
cluster's own semaphore once none of the sender's elements waits. A packet is sent again; ports lose their links, and whatever waits for a
module that cannot be reached any more fails; and a link comes up, or the exponent list of one of its channels starts anew. Where the
model's own readings enter: log entries 52, 66, 67, 68, 83 and 92. -/
def Obligations.FabricEvents : Prop :=
  (∀ (serial asid : Nat) (name : BitVec 128) (off : Nat) (data : List Byte) (poison : List Bool) (signal : Option (Nat × Nat × Nat))
      (fmt sub : Nat) (value : Word) (psn ends : Bool) (s : State),
    let deliver := Instr.remoteDelivery serial asid name off data poison signal
    let update := Instr.remoteCredUpdate serial asid name off value psn fmt sub (ends, signal)
    let entry := (s.names.find? fun p => p.1 == name).map Prod.snd
    let may (n : Nat) (e : NameEntry) : Prop := serial ≠ s.part.serial ∧ s.reaches serial = true ∧ entry = some e ∧
      (e.rights.find? fun r => r.1 == serial && r.2.1 == asid).map (fun r => r.2.2) = some 3 ∧ off + n ≤ e.len ∧ n ≤ 4096 ∧
      ∀ vp ∈ pagesOf (e.base + off) n, ∃ p, pageOf e.pages vp = some p ∧ s.part.backed (p.frame * 65536) = true ∧ p.cls ≠ 3 ∧ p.w = true ∧
        p.frame ∉ s.imagePages ∧ p.cls ≠ 2
    let signalled (b : State) : State := match signal with
      | none => b
      | some (sem, clus, amount) => if s.part.hasCluster clus then b.signal clus {} sem amount else b
    let n := fmtBytes fmt
    let settled : Prop := s.plain ∧ ∀ u ∈ s.updates, u.before = [] ∧ u.id < s.nextId
    ((∀ e, ¬may data.length e) → Idles deliver s) ∧ ((∀ e, ¬may n e) → Idles update s) ∧
    (∀ e, may data.length e → settled → true ∉ poison → (∀ j, j < data.length → unitOn e.pages ((e.base + off + j) / 8) ≠ none) →
      ∃ b : State, RunStored s b e.pages (e.base + off) data ∧ Sys2Proof.Machine.exec deliver s = .next (signalled b)) ∧
    (∀ e lo hi, may n e → settled → 8 < (e.base + off) % 8 + n → unitOn e.pages ((e.base + off) / 8) = some lo →
      unitOn e.pages ((e.base + off) / 8 + 1) = some hi → hi.pu ≠ lo.pu → s.openSeqs = [] → signal = none →
      let w := fmtWidth fmt
      let at_ := 8 * ((e.base + off) % 8)
      let both (t : State) : BitVec 128 := (t.unit hi.pu).1 ++ (t.unit lo.pu).1
      ∃ b : State, Sys2Proof.Machine.exec update s = .next b.drain ∧ b.updates = s.updates ∧
        (∀ v, v ≠ lo.pu → v ≠ hi.pu → b.unit v = s.unit v) ∧
        (psn = true → b.unit lo.pu = (0, true) ∧ b.unit hi.pu = (0, true)) ∧
        (psn = false → s.mem.mark lo.pu = true ∨ s.mem.mark hi.pu = true → b.unit lo.pu = s.unit lo.pu ∧ b.unit hi.pu = s.unit hi.pu) ∧
        (psn = false → s.mem.mark lo.pu = false → s.mem.mark hi.pu = false →
          both b = setBits (both s) at_ w (rmwNew (elemRmw (sub % 16) fmt) fmt (bits (both s) at_ w) (value.toNat % 2 ^ w) 0))) ∧
    ∀ e, may n e → settled → (e.base + off) % 8 + n ≤ 8 → unitOn e.pages ((e.base + off) / 8) ≠ none →
      let va := e.base + off
      let pa := (placeIn e.pages va).1
      let old := s.mem.nat pa n
      let x := exponentOf fmt value.toNat
      let codes : Prop := sub < 16 ∧ (fmt = 0x02 ∨ fmt = 0x03) ∧ ∃ port, port < 16 ∧ s.part.present (port / 4) kFp (port % 4) = true ∧
        let l := look {} s.links port
        l.up = true ∧ l.coded = true ∧ l.peer = serial
      let queued (t : State) : Prop := (∀ k, k ≠ serial → look {} t.peers k = look {} s.peers k) ∧
        (¬codes → t.peers = s.peers) ∧
        (codes → ends = false → look {} t.peers serial = { look {} s.peers serial with
          recvFlit := (look {} s.peers serial).recvFlit ++ [x] }) ∧
        (codes → ends = true → look {} t.peers serial = { look {} s.peers serial with
          recvFlit := [], recvList := afterFlit (look {} s.peers serial).recvList ((look {} s.peers serial).recvFlit ++ [x]) })
      let u : Update := {
        id := s.nextId, pa := pa, va := va, op := elemRmw (sub % 16) fmt, fmt := fmt, val := value.toNat % 2 ^ fmtWidth fmt, psn := psn
        sender := some serial, born := s.time }
      (signal ≠ none → (∃ v ∈ s.updates, v.sender = some serial) ∨ s.heldOut u = true → Idles update s) ∧
      (signal = none → s.heldOut u = true → ∃ b st, Sys2Proof.Machine.exec update s = .next b.drain ∧ queued b ∧
        b = { s with peers := b.peers, nextId := s.nextId + 1, updates := s.updates ++ [{ u with status := st, born := u.born }] } ∧
        (st = .waiting ∨ st = .refused)) ∧
      (signal = none ∨ (∀ v ∈ s.updates, v.sender ≠ some serial) → s.heldOut u = false →
        ∃ b : State, Sys2Proof.Machine.exec update s = .next (signalled b).drain ∧ queued b ∧
          b = { s with mem := b.mem, hidden := b.hidden, spoiled := b.spoiled, peers := b.peers, nextId := s.nextId + 1 } ∧
          (∀ v, v ≠ pa / 8 → b.unit v = s.unit v) ∧
          (psn = true → b.unit (pa / 8) = (0, true)) ∧
          (psn = false → s.mem.mark (pa / 8) = true → b.unit (pa / 8) = s.unit (pa / 8)) ∧
          (psn = false → s.mem.mark (pa / 8) = false → b.mem.mark (pa / 8) = false ∧
            b.mem.nat pa n = rmwNew (elemRmw (sub % 16) fmt) fmt old u.val 0 % 2 ^ (8 * n) ∧
            ∀ a, ¬(pa ≤ a ∧ a < pa + n) → b.mem.byte a = s.mem.byte a))) ∧
  (∀ (peer n : Nat) (s : State),
    let sent := s.out.filter fun m => m.dest == peer && decide (0x10 ≤ m.kind) && decide (m.kind < 0x30)
    (sent.length ≤ n ∨ s.linked = false → Idles (.packetRetransmit peer n) s) ∧
    ∀ m, sent[n]? = some m → s.linked = true → Sys2Proof.Machine.exec (.packetRetransmit peer n) s = .next { s with out := s.out ++ [m] }) ∧
  (∀ (peer : Nat) (lost : List Nat) (s : State), ∃ t, Sys2Proof.Machine.exec (.peerUnreachable (peer, lost)) s = .next t ∧
    t.mem = s.mem ∧ t.links = s.links.map (fun l => if l.1 ∈ lost then (l.1, { l.2 with up := false }) else l) ∧
    (peer ≠ s.part.serial → (look {} t.peers peer).reachable = false) ∧
    (∀ k, k ≠ peer ∨ peer = s.part.serial → look {} t.peers k = look {} s.peers k) ∧
    (∀ k, t.reaches k = false ↔ k ≠ s.part.serial ∧ ((look {} t.peers k).reachable = false ∨
      ∀ port, port < 16 → s.carries port = true → port ∈ lost)) ∧
    (∀ k, ∀ c ∈ (t.core k).cq, c.remote ≠ 0 → t.reaches (nameSerial c.rName) = false → c.finished = true) ∧
    (∀ k c, (s.core k).cq = [c] → c.remote ≠ 0 → t.reaches (nameSerial c.rName) = false → c.finished = false →
      ∃ y ∈ (t.core k).cq, y.id = c.id ∧ y.finished = true ∧ y.status = 0x1B ∧ (c.remote = 1 → y.written = 0) ∧
        (c.op = 3 → y.written ≤ c.sent) ∧ (c.op = 6 → ∃ w, w ≤ c.sent ∧ y.written = w * fmtBytes c.fmt ∧ y.result = w % 2 ^ 32)) ∧
    (∀ k, ∀ e ∈ (t.ctx k).sb, (∀ n, e.what = .nstat n → t.reaches (nameSerial n) = true) ∧
      ∀ n d, e.what = .nkill n d → t.reaches (nameSerial n) = true) ∧
    ∀ p ∈ t.names, ∀ h ∈ p.2.shooting, 32 ≤ h → t.reaches (h - 32) = true) ∧
  ∀ (link peer : Nat) (coded : Bool) (s : State),
    let l := look {} s.links link
    let p := look {} s.peers l.peer
    let others (t : State) (q : Nat) : Prop := ∀ k, k ≠ q → look {} t.peers k = look {} s.peers k
    (∀ out, s.carries link = false ∨ l.coded = false → Idles (.exponentListReset (link, out)) s) ∧
    (s.carries link = true → l.coded = true →
      (∃ t, Sys2Proof.Machine.exec (.exponentListReset (link, true)) s = .next t ∧ t = { s with peers := t.peers, out := t.out } ∧
        others t l.peer ∧ look {} t.peers l.peer = { p with sendList := [], sendFlit := [], sendDone := false } ∧
        t.out = s.out ++ p.sendFlit.map (fun m => { kind := 0x13, dest := l.peer, body := m.2 })) ∧
      ∃ t, Sys2Proof.Machine.exec (.exponentListReset (link, false)) s = .next t ∧ t = { s with peers := t.peers } ∧
        others t l.peer ∧ look {} t.peers l.peer = { p with recvList := [], recvFlit := [] }) ∧
    (¬(link < 16 ∧ s.part.present (link / 4) kFp (link % 4) = true) → Idles (.linkTraining link peer coded) s) ∧
    (link < 16 → s.part.present (link / 4) kFp (link % 4) = true →
      ∃ t, Sys2Proof.Machine.exec (.linkTraining link peer coded) s = .next t ∧ t = { s with links := t.links, peers := t.peers } ∧
        others t peer ∧ look {} t.peers peer = { reachable := true, sendList := [], sendFlit := [], sendDone := false, recvList := [], recvFlit := [] } ∧
        look {} t.links link = { up := true, peer := peer, coded := coded } ∧ ∀ k, k ≠ link → look {} t.links k = look {} s.links k)

/-- R187, R196, R283, R290, R293, R296 to R298, R390. A shoot-down's acknowledgement leaves the name to the others, and the last one
answers a remote killer and frees what no binding holds; the home answers another module's lookups, where a port carries them, and sends
its shoot-downs; a page that may move is copied with its marks, and every leaf that named its frame names the new one; and the oldest
FLUSH or INVAL writes back its range's dirty units, an INVAL dropping every copy. Where the model's own readings enter: log entries 75,
76, 92 and 119. -/
def Obligations.NamesPagesAndFlushes : Prop :=
  (∀ (holder : Nat) (name : BitVec 128) (s : State),
    let i := Instr.nameShootdown holder name
    (nameSerial name ≠ s.part.serial →
      (name ∉ s.foreign ∨ s.reaches (nameSerial name) = false → Idles i s) ∧
      (name ∈ s.foreign → s.reaches (nameSerial name) = true → Sys2Proof.Machine.exec i s = .next { s with
        foreign := s.foreign.erase name
        out := s.out ++ [{ kind := 0x23, dest := nameSerial name, body := leBytes 16 name.toNat }] })) ∧
    (nameSerial name = s.part.serial → s.nameEntry name = none → Idles i s) ∧
    ∀ e, nameSerial name = s.part.serial → s.nameEntry name = some e →
      (e.live = true ∨ holder ∉ e.shooting ∨ (32 ≤ holder ∧ s.meets (holder - 32) = false) → Idles i s) ∧
      (e.live = false → holder ∈ e.shooting → (32 ≤ holder → s.meets (holder - 32) = true) → (s.names.map Prod.fst).Nodup →
        let left := e.shooting.erase holder
        ∃ t, Sys2Proof.Machine.exec i s = .next t ∧ t = { s with clusters := t.clusters, names := t.names, out := t.out } ∧
          (holder < 32 → (t.cluster holder).names = (s.cluster holder).names.erase name) ∧
          (∀ k, k ≠ holder ∨ 32 ≤ holder → t.cluster k = s.cluster k) ∧
          (left ≠ [] → t.nameEntry name = some { e with shooting := left } ∧ t.out = s.out) ∧
          (left = [] → t.out = s.out ++ (match e.killer with
              | some m => if s.meets m then [{ kind := 0x22, dest := m, body := leBytes 16 name.toNat ++ leBytes 2 0 }] else []
              | none => []) ∧
            (e.count = 0 → t.nameEntry name = none) ∧
            (e.count ≠ 0 → t.nameEntry name = some { e with shooting := [], killer := none })))) ∧
  (∀ (serial asid : Nat) (name : BitVec 128) (kind clus off len : Nat) (s : State),
    let i := Instr.remoteNameResolve serial asid name kind (clus, off, len)
    let entry := s.nameEntry name
    let right (e : NameEntry) : Nat := ((e.rights.find? fun r => r.1 == serial && r.2.1 == asid).map fun r => r.2.2).getD 0
    let code : Nat := if nameSeq name = 0 ∨ s.nameCtr ≤ nameSeq name then 0x0B
      else match entry with
        | none => 0x0A
        | some e => if e.live = false then 0x0A else if right e = 0 then 0x0C else 0
    let sends (t : State) (k : Nat) (body : List Byte) : Prop := t.out = s.out ++ [{ kind := k, dest := serial, body := body }]
    let id := leBytes 16 name.toNat
    let one (e : NameEntry) (vp : Nat) : Nat := match pageOf e.pages vp with
      | none => 3
      | some p => if s.part.backed (p.frame * 65536) = false ∨ p.cls = 3 then 3 else if p.w = false ∨ p.frame ∈ s.imagePages then 5
        else if p.cls = 2 then 6 else 0
    let checked (e : NameEntry) : Nat := (((pagesOf (e.base + off) len).map (one e)).find? fun c => c != 0).getD 0
    let writes (e : NameEntry) : Nat := if code ≠ 0 then code else if right e = 3 then 0 else 0x0C
    (s.meets serial = true ↔ serial ≠ s.part.serial ∧ s.reaches serial = true) ∧
    (nameSerial name ≠ s.part.serial ∨ s.meets serial = false → Idles i s) ∧
    (nameSerial name = s.part.serial → s.meets serial = true → kind = 0 → ∃ t, Sys2Proof.Machine.exec i s = .next t ∧ t = { s with names := t.names, out := t.out } ∧
      (s.part.hasCluster clus = false → sends t 0x20 (id ++ leBytes 2 0x1B ++ leBytes 8 0) ∧ t.names = s.names) ∧
      (s.part.hasCluster clus = true → code ≠ 0 → sends t 0x20 (id ++ leBytes 2 code ++ leBytes 8 0) ∧ t.names = s.names) ∧
      ∀ e, s.part.hasCluster clus = true → code = 0 → entry = some e →
        (right e ≠ 3 → sends t 0x20 (id ++ leBytes 2 0x0C ++ leBytes 8 0) ∧ t.names = s.names) ∧
        (right e = 3 → e.len < off + len → sends t 0x20 (id ++ leBytes 2 0x03 ++ leBytes 8 0) ∧ t.names = s.names) ∧
        (right e = 3 → off + len ≤ e.len → checked e ≠ 0 → sends t 0x20 (id ++ leBytes 2 (checked e) ++ leBytes 8 0) ∧ t.names = s.names) ∧
        (right e = 3 → off + len ≤ e.len → checked e = 0 → sends t 0x20 (id ++ leBytes 2 0 ++ leBytes 8 e.len) ∧
          ∃ e', t.nameEntry name = some e' ∧ serial ∈ e'.holders ∧ e' = { e with holders := e'.holders })) ∧
    (nameSerial name = s.part.serial → s.meets serial = true → kind = 1 → ∃ t, Sys2Proof.Machine.exec i s = .next t ∧ t = { s with out := t.out } ∧
      (code ≠ 0 → sends t 0x21 (id ++ leBytes 2 code ++ leBytes 4 0)) ∧
      ∀ e, code = 0 → entry = some e → sends t 0x21 (id ++ leBytes 2 0 ++ leBytes 4 (min ((e.len + 65535) / 65536) 0xFFFFFFFF))) ∧
    (nameSerial name = s.part.serial → s.meets serial = true → 2 ≤ kind → (s.names.map Prod.fst).Nodup → ∃ t, Sys2Proof.Machine.exec i s = .next t ∧
      t = { s with names := t.names, out := t.out } ∧
      (entry = none → sends t 0x22 (id ++ leBytes 2 code) ∧ t.names = s.names) ∧
      ∀ e, entry = some e →
        let far := e.holders.filter s.meets
        let holding := (s.clusters.filter fun p => p.2.names.contains name).map Prod.fst ++ far.map (32 + ·)
        (writes e ≠ 0 → sends t 0x22 (id ++ leBytes 2 (writes e)) ∧ t.names = s.names) ∧
        (writes e = 0 → holding ≠ [] → t.out = s.out ++ far.map (fun m => { kind := 0x24, dest := m, body := id }) ∧ t.nameEntry name = some { e with live := false, shooting := holding, killer := some serial }) ∧
        (writes e = 0 → holding = [] → sends t 0x22 (id ++ leBytes 2 0) ∧
          (e.count = 0 → t.nameEntry name = none) ∧
          (e.count ≠ 0 → t.nameEntry name = some { e with live := false, shooting := [], killer := none })))) ∧
  (∀ (frame target : Nat) (s : State),
    (s.mayMove frame target = false → Idles (.pageMigration frame target) s) ∧
    (s.pinned frame = true ∨ (s.held frame = true ∧ inDeep (frame * 65536) = false) ∨ (frame ∈ s.imagePages ∧ inDeep (frame * 65536) = false) ∨
        s.owned frame = true ∨ s.owned target = true ∨ s.mapped target = true ∨
      inDeep (frame * 65536) = inDeep (target * 65536) → s.mayMove frame target = false) ∧
    (s.mayMove frame target = true → s.plain → s.uncached → s.mem.wf = true → (∀ r ∈ s.roots, (r.2 - 1) % 65536 = 0) →
      ∃ r : State, Sys2Proof.Machine.exec (.pageMigration frame target) s = .next r.releaseAll ∧
        (∀ x, x < 65536 → r.mem.byte (target * 65536 + x) = s.mem.byte (frame * 65536 + x)) ∧
        (∀ u, u < 8192 → r.mem.mark (target * 8192 + u) = s.mem.mark (frame * 8192 + u)) ∧
        (∀ l ∈ s.leaves, l.2.2.pa / 65536 = frame → r.mem.nat l.2.2.at_ 8 = natSet l.2.2.pte 16 35 target) ∧
        (∀ a, a / 65536 ≠ target → (∀ l ∈ s.leaves, l.2.2.pa / 65536 = frame → ¬(l.2.2.at_ ≤ a ∧ a < l.2.2.at_ + 8)) →
          r.mem.byte a = s.mem.byte a) ∧
        ∀ k, ((s.ctx k).bound = false → r.ctx k = s.ctx k) ∧
          ((s.ctx k).bound = true → frame ∈ (s.ctx k).arch.migrating →
            frame ∉ (r.ctx k).arch.migrating ∧ target ∈ (r.ctx k).arch.migrated))) ∧
  ∀ (ctx : Nat) (s : State),
    let x := s.ctx ctx
    let core := coreOf ctx
    (x.flushes = [] → Idles (.flushInvalCompletion ctx) s) ∧
    ∀ op r, x.flushes = op :: r → s.fusedAt core = false →
      let inside (pu : Nat) : Prop := ∃ p ∈ op.parts, p.1 ≤ pu ∧ pu < p.1 + p.2
      let u (pu : Nat) : L1Unit := (s.core core).l1Unit pu
      ∃ t : State, Sys2Proof.Machine.exec (.flushInvalCompletion ctx) s = .next t.releaseAll ∧
        t.ctx ctx = { x with flushes := r } ∧ (∀ k, k ≠ ctx → t.ctx k = s.ctx k) ∧ (∀ k, k ≠ core → t.core k = s.core k) ∧
        (∀ pu, (inside pu → (u pu).here = true →
            (t.core core).l1Unit pu = (if op.inval then {} else { u pu with dirty := false }) ∧
            ((u pu).dirty = true → t.unit pu = ((u pu).val, (u pu).psn))) ∧
          (¬inside pu → (t.core core).l1Unit pu = u pu) ∧
          (¬(inside pu ∧ (u pu).here = true ∧ (u pu).dirty = true) → t.unit pu = s.unit pu))

/-! ### The whole machine -/

/-- R6, R29, R252, R281, R295, R399, R401. What reset leaves: every memory zero and unmarked, the accumulators, semaphores and names
cleared, no task on any context, no launch, image or library, every queue with EN = 0, and STATE 2. Where the model's own readings enter:
log entries 6, 7, 8, 9, 10, 96, 99 and 109. -/
def Obligations.ResetLeaves : Prop :=
  let s := State.reset
  Canonical s ∧ (∀ a, s.mem.byte a = 0) ∧ (∀ u, s.mem.mark u = false) ∧
  (∀ k a, (s.core k).spm.byte a = 0 ∧ (s.core k).wb.byte a = 0 ∧ (s.core k).spm.mark a = false ∧ (s.core k).wb.mark a = false) ∧
  (∀ k key, look {} (s.core k).acc key = {}) ∧
  (∀ k a, (s.cluster k).store.byte a = 0 ∧ (s.cluster k).store.mark a = false) ∧
  (∀ k n, look {} (s.cluster k).sems n = {}) ∧
  (∀ k, (s.ctx k).bound = false) ∧ (∀ q, (look 0 s.queues q : Word).getLsbD 8 = false) ∧
  s.launches = [] ∧ s.images = [] ∧ s.libver = 0 ∧ s.names = [] ∧ s.updates = [] ∧ s.boss.stage = 2 ∧ s.cur.open_ = false

/-- R16, R171, R172, R281, R288. Every step keeps every memory of the module in its canonical form: addresses strictly rising, nothing
listed that an unlisted byte or mark reads as, so that equal contents are equal data. -/
def Obligations.StepKeepsCanonicalMemory : Prop := Kept Canonical

/-- R85 to R99, R112. The encoder and the decoder agree: the slot word of a well-formed operation decodes, in its unit, to that operation
with every field; a word that decodes is the word of a well-formed operation; and a bundle that holds the word in a slot of that unit
alone reads as it. -/
def Obligations.DecodeAndEncodeAgree : Prop :=
  (∀ (i : Instr) (u : SlotUnit), unitOf i = some u → i.WellFormed → ∃ w, encodeSlot i = some w ∧ decodeUnit u w = some i) ∧
  (∀ u, decodeUnit u 0 = some .nop) ∧
  (∀ (i : Instr) (u : SlotUnit) (w : Word), decodeUnit u w = some i →
    encodeSlot i = some w ∧ ((i = .nop ∧ w = 0) ∨ (unitOf i = some u ∧ i.WellFormed ∧ fOp w ≠ 0))) ∧
  ∀ (i : Instr) (u : SlotUnit) (w : Word) (k nbits : Nat), unitOf i = some u → decodeUnit u w = some i → unitOfSlot k = some u →
    decodeTableWord nbits (w.toNat <<< (64 * k)) = some i

/-- R87, R89, R90, R94 to R99, R112, R174, R207, R236. Slot words written out from the encodings of the spec decode to the operations that
they stand for, and words with a reserved bit, an unlisted opcode or a field out of its range are refused. -/
def Obligations.DecodedWords : Prop :=
  decodeUnit .s 0x291C000000000003 = some (.li { d := 7, a := 0, imm := 3 }) ∧
  decodeUnit .s 0x2020800000000005 = some (.addi { d := 8, a := 8, imm := 5 }) ∧
  decodeUnit .s 0x463D42CC00000000 = some (.sel { d := 15, a := 20, b := 11, c := 12 }) ∧
  decodeUnit .s 0x343CE00000000420 = some (.bfx { d := 15, a := 14, lsb := 32, width := 16 }) ∧
  decodeUnit .s 0x620095802C000000 = some (.blt { d := 0, a := 9, b := 22, bidx := 22, segoff := 0 }) ∧
  decodeUnit .s 0x8600000000000000 = some (.eret { d := 0, a := 0, x := 0 }) ∧
  decodeUnit .v 0x040C210080300000 = some (.vfma { d := 3, a := 2, b := 4, c := 0, pred := 4, zero := 0, fmt := 3, rm := 0, opx := 0 }) ∧
  decodeUnit .m 0x0350000000050000 = some (.mcall
    { d := 20, a := 0, b := 0, c := 0, prio := 0, routine := 5, sigen := 0, sem := 0, quad := 0 }) ∧
  decodeUnit .m 0x0750000000000004 = some (.geval
    { d := 20, a := 0, b := 0, c := 0, prio := 0, routine := 0, sigen := 0, sem := 0, quad := 4 }) ∧
  decodeUnit .l 0x0528600310000000 = some (.ldms { d := 10, a := 6, b := 0, ord := 0, nr := 0, size := 3, slot := 1, disp := 0 }) ∧
  decodeUnit .l 0x270002C620000000 = some (.afmax { d := 0, a := 0, b := 11, ord := 0, nr := 1, size := 2, slot := 2, disp := 0 }) ∧
  decodeUnit .l 0x2F50010010000000 = some (.ncas { d := 20, a := 0, b := 4, mods := 0, slot := 1, disp := 0 }) ∧
  decodeUnit .st 0x0500658010000180 = some (.stt { d := 0, a := 6, b := 22, slot := 1, disp := 0x180 }) ∧
  decodeUnit .st 0x010000000000001A = some (.sts { d := 0, a := 0, b := 0, size := 0, off := 0x1A }) ∧
  decodeUnit .c 0x0330B00000050028 = some (.cpyr
    { d := 12, a := 11, b := 0, c := 0, fmt := 0, sub := 0, scope := 5, sigen := 0, bytes := 0, sem := 0, quad := 40 }) ∧
  decodeUnit .s 0x2020810000000005 = none ∧ decodeUnit .s 0x7000000000000000 = none ∧ decodeUnit .s 0x0000000000000001 = none ∧
  decodeUnit .m 0x0900000000000000 = none ∧ decodeUnit .c 0x0700000000000000 = none ∧ ∀ w, decodeSlot 7 w = none

/-- R9, R31, R85, R86, R112, R114, R262, R402. A step executes the operation of the open bundle's next slot as the decoder reads it, and
goes on to the slot after it; a slot word that is no operation is a fault. A gap of the bundle leaves it set aside there for the other
agents. With no bundle open it takes the outside's next step where the module's standing admits one, or else lets the context that issued
last try to go on. Each step takes some time, and the timebase follows at half the clock's full rate. Where the model's own readings
enter: log entries 1, 3, 4, 12, 13, 18 and 19. -/
def Obligations.StepRunsDecoded : Prop :=
  ∀ s : State,
    let step := Sys2Proof.Machine.step
    let w : Word := nth 0 s.cur.words s.cur.slot
    (s.cur.open_ = true →
      (∀ i, decodeSlot s.cur.slot w = some i → step s = andThen (fun t => (t.afterSlot.endLocks s).elapse) (Sys2Proof.Machine.exec i s)) ∧
      (decodeSlot s.cur.slot w = none → step s = .fault (.illegalSlot s.cur.slot))) ∧
    (∀ i rest, s.cur.open_ = false → s.script = i :: rest →
      let t : State := { s with script := rest }
      (unitOf i = none ∧ t.open_ i = true → step s = andThen (fun u => (u.endLocks t).elapse) (Sys2Proof.Machine.exec i t)) ∧
      (unitOf i ≠ none ∨ t.open_ i = false → step s = .next t.elapse)) ∧
    (s.cur.open_ = false → s.script = [] → 
      step s = .next ((if s.boss.stage = 2 then s.attempt s.cur.ctx [] else s).endLocks s).elapse) ∧
    (∀ nbits w i, decodeTableWord nbits w = some i →
      let t := s.withFetchWord nbits w
      t.cur.open_ = true ∧ step t = andThen (fun u => (u.afterSlot.endLocks t).elapse) (Sys2Proof.Machine.exec i t)) ∧
    (s.cur.open_ = true → s.cur.slot < 6 → ∃ q : State, q = { s with ctxs := q.ctxs } ∧ (∀ k, k ≠ s.cur.ctx → q.ctx k = s.ctx k) ∧
      (s.cur.fresh = false ∨ s.cur.slot ≠ 0 →
        (∀ f, decodeSlot 0 (nth 0 s.cur.words 0) = some (.loop f) → ∀ e ∈ s.me.sb.drop s.cur.since, e.covers f.a.toNat = false) → q = s) ∧
      let r : State := { q with cur := { s.cur with slot := s.cur.slot + 1 } }
      s.afterSlot = if s.cur.slot + 1 ∈ s.cur.gaps then r.setAside else r) ∧
    (s.cur.open_ = true → 6 ≤ s.cur.slot → s.afterSlot.cur.open_ = false) ∧
    (s.cur.open_ = false → s.afterSlot = s) ∧
    (∀ old : State, (s.endLocks old = { s with cores := (s.endLocks old).cores }) ∧
      ((∀ p ∈ old.ctxs, ∀ w, p.2.window = some w → (s.ctx p.1).window.map Window.born = some w.born) → s.endLocks old = s)) ∧
    let e := Config.elapsedCycles s.steps
    s.elapse = { s with
      time := s.time + e
      timebase := s.timebase + (if s.boss.step = 16 then (s.time + e) / 2 - s.time / 2 else Config.elapsedTimebase s.steps)
      steps := s.steps + 1 }

/-- R9, R31, R114, R351. Every operation and every event answers a next state, in every state, whatever its operands: a trap, an end of a
task or an event with no effect is one. A step therefore stops only at a slot word that is no operation. Where the model's own readings
enter: log entries 2 and 19. -/
def Obligations.EveryInstructionAnswers : Prop :=
  (∀ (i : Instr) (s : State), ∃ t, Sys2Proof.Machine.exec i s = .next t) ∧
  ∀ s : State, (∃ t, Sys2Proof.Machine.step s = .next t) ∨
    (s.cur.open_ = true ∧ decodeSlot s.cur.slot (nth 0 s.cur.words s.cur.slot) = none ∧
      Sys2Proof.Machine.step s = .fault (.illegalSlot s.cur.slot))
end

