-- ==== Sys2Proof/Laws/Maps.lean ====
section
/-! SUPPORT. Sparse tables: what an entry reads as after a write, and the canonical form that every write keeps. -/

namespace Sys2Proof.Machine

variable {α : Type}

theorem look_nil (d : α) (k : Nat) : look d [] k = d := rfl

@[simp] theorem look_drop_same (d : α) (m : FMap α) (k : Nat) : look d (drop m k) k = d := by
  induction m with
  | nil => rfl
  | cons p r ih =>
    obtain ⟨j, v⟩ := p
    by_cases h : j = k <;> simp [drop, look, h, ih]

theorem look_drop_other (d : α) (m : FMap α) {k n : Nat} (h : n ≠ k) : look d (drop m k) n = look d m n := by
  induction m with
  | nil => rfl
  | cons p r ih =>
    obtain ⟨j, v⟩ := p
    by_cases hk : j = k
    · simp [drop, look, hk, ih, Ne.symm h]
    · by_cases hn : j = n
      · subst hn; simp [drop, look, hk]
      · simp [drop, look, hk, hn, ih]

theorem look_place_other (d : α) (m : FMap α) (v : α) {k n : Nat} (h : n ≠ k) : look d (place m k v) n = look d m n := by
  induction m with
  | nil => simp [place, look, Ne.symm h]
  | cons p r ih =>
    obtain ⟨j, w⟩ := p
    by_cases hk : k < j
    · simp [place, look, hk, Ne.symm h]
    · by_cases hn : j = n
      · subst hn; simp [place, look, hk]
      · simp [place, look, hk, hn, ih]

theorem look_place_drop (d : α) (m : FMap α) (k : Nat) (v : α) : look d (place (drop m k) k v) k = v := by
  induction m with
  | nil => simp [drop, place, look]
  | cons p r ih =>
    obtain ⟨j, w⟩ := p
    by_cases hj : j = k
    · simpa [drop, hj] using ih
    · by_cases hk : k < j <;> simp [drop, place, look, hj, hk, ih]

/-- A write is read back. -/
@[simp] theorem look_put_same [DecidableEq α] (d : α) (m : FMap α) (k : Nat) (v : α) : look d (put d m k v) k = v := by
  by_cases h : v = d
  · simp [put, h]
  · simp [put, h, look_place_drop]

/-- A write leaves every other entry as it was. -/
theorem look_put_other [DecidableEq α] (d : α) (m : FMap α) (v : α) {k n : Nat} (h : n ≠ k) :
    look d (put d m k v) n = look d m n := by
  by_cases hv : v = d
  · simp [put, hv, look_drop_other d m h]
  · simp [put, hv, look_place_other d _ v h, look_drop_other d m h]

/-- Reading after a write. -/
theorem look_put [DecidableEq α] (d : α) (m : FMap α) (k n : Nat) (v : α) :
    look d (put d m k v) n = if n = k then v else look d m n := by
  by_cases h : n = k
  · simp [h]
  · simp [h, look_put_other d m v h]

theorem drop_drop (m : FMap α) (k : Nat) : drop (drop m k) k = drop m k := by
  induction m with
  | nil => rfl
  | cons p r ih =>
    obtain ⟨j, v⟩ := p
    by_cases h : j = k <;> simp [drop, h, ih]

theorem drop_place_drop (m : FMap α) (k : Nat) (v : α) : drop (place (drop m k) k v) k = drop m k := by
  induction m with
  | nil => simp [drop, place]
  | cons p r ih =>
    obtain ⟨j, w⟩ := p
    by_cases hj : j = k
    · simpa [drop, hj] using ih
    · by_cases hk : k < j <;> simp [drop, place, hj, hk, ih, drop_drop]

/-- Of two writes to one entry the later stays. -/
theorem put_put_same [DecidableEq α] (d : α) (m : FMap α) (k : Nat) (a b : α) : put d (put d m k a) k b = put d m k b := by
  have h : drop (put d m k a) k = drop m k := by
    by_cases ha : a = d
    · simp [put, ha, drop_drop]
    · simp [put, ha, drop_place_drop]
  unfold put at h ⊢
  rw [h]

theorem look_not_listed (d : α) (m : FMap α) (k : Nat) (h : listed m k = false) : look d m k = d := by
  induction m with
  | nil => rfl
  | cons p r ih =>
    obtain ⟨j, v⟩ := p
    simp only [listed, List.any_cons, Bool.or_eq_false_iff, beq_eq_false_iff_ne] at h
    simp only [look, h.1, if_false]
    exact ih h.2

/-- What each entry reads as after one is revised. -/
theorem look_revise (d : α) (m : FMap α) (k n : Nat) (f : α → α) :
    look d (revise m k f) n = if n = k ∧ listed m k = true then f (look d m n) else look d m n := by
  induction m with
  | nil => simp [look, revise, listed]
  | cons p r ih =>
    obtain ⟨j, v⟩ := p
    unfold revise listed at ih ⊢
    by_cases hj : j = k
    · subst hj
      by_cases hn : n = j
      · subst hn; simp [look]
      · simp [look, hn, Ne.symm hn, ih]
    · by_cases hn : j = n
      · subst hn; simp [look, hj]
      · have hk : (j == k) = false := by simp [hj]
        rw [List.any_cons, hk, Bool.false_or]
        simp [look, hj, hn, ih]

/-! ### The canonical form -/

/-- The form as a proposition: numbers rise strictly, and no default is listed. -/
def Rising (d : α) (m : FMap α) : Prop := m.Pairwise (fun a b => a.1 < b.1) ∧ ∀ p ∈ m, p.2 ≠ d

theorem canonical_iff [DecidableEq α] (d : α) (m : FMap α) : canonical d m = true ↔ Rising d m := by
  induction m with
  | nil => simp [canonical, Rising]
  | cons p r ih =>
    obtain ⟨j, v⟩ := p
    cases r with
    | nil => simp [canonical, Rising]
    | cons q r =>
      obtain ⟨k, w⟩ := q
      simp only [canonical, Bool.and_eq_true, decide_eq_true_eq, ih]
      constructor
      · rintro ⟨⟨hj, hv⟩, hp, hd⟩
        refine ⟨List.pairwise_cons.2 ⟨?_, hp⟩, ?_⟩
        · intro a ha
          rcases List.mem_cons.1 ha with rfl | ha
          · exact hj
          · exact lt_trans hj ((List.pairwise_cons.1 hp).1 a ha)
        · intro a ha
          rcases List.mem_cons.1 ha with rfl | ha
          · exact hv
          · exact hd a ha
      · rintro ⟨hp, hd⟩
        exact ⟨⟨(List.pairwise_cons.1 hp).1 (k, w) (by simp), hd (j, v) (by simp)⟩,
          (List.pairwise_cons.1 hp).2, fun a ha => hd a (List.mem_cons_of_mem _ ha)⟩

theorem mem_drop {m : FMap α} {k : Nat} {p : Nat × α} : p ∈ drop m k ↔ p ∈ m ∧ p.1 ≠ k := by
  induction m with
  | nil => simp [drop]
  | cons q r ih =>
    obtain ⟨j, v⟩ := q
    by_cases h : j = k
    · simp only [drop, h, if_true, ih, List.mem_cons]
      constructor
      · rintro ⟨a, b⟩; exact ⟨Or.inr a, b⟩
      · rintro ⟨rfl | a, b⟩
        · exact absurd rfl b
        · exact ⟨a, b⟩
    · simp only [drop, h, if_false, ih, List.mem_cons]
      constructor
      · rintro (rfl | ⟨a, b⟩)
        · exact ⟨Or.inl rfl, h⟩
        · exact ⟨Or.inr a, b⟩
      · rintro ⟨rfl | a, b⟩
        · exact Or.inl rfl
        · exact Or.inr ⟨a, b⟩

theorem mem_place {m : FMap α} {k : Nat} {v : α} {p : Nat × α} : p ∈ place m k v ↔ p = (k, v) ∨ p ∈ m := by
  induction m with
  | nil => simp [place]
  | cons q r ih =>
    obtain ⟨j, w⟩ := q
    by_cases h : k < j
    · simp [place, h]
    · simp only [place, h, if_false, List.mem_cons, ih]
      tauto

theorem drop_pairwise {m : FMap α} {k : Nat} (h : m.Pairwise (fun a b => a.1 < b.1)) :
    (drop m k).Pairwise (fun a b => a.1 < b.1) := by
  induction m with
  | nil => exact h
  | cons q r ih =>
    obtain ⟨j, v⟩ := q
    rw [List.pairwise_cons] at h
    by_cases hk : j = k
    · simpa [drop, hk] using ih h.2
    · simp only [drop, hk, if_false, List.pairwise_cons]
      exact ⟨fun a ha => h.1 a (mem_drop.1 ha).1, ih h.2⟩

theorem place_pairwise {m : FMap α} {k : Nat} (v : α) (h : m.Pairwise (fun a b => a.1 < b.1))
    (hk : ∀ p ∈ m, p.1 ≠ k) : (place m k v).Pairwise (fun a b => a.1 < b.1) := by
  induction m with
  | nil => simp [place]
  | cons q r ih =>
    obtain ⟨j, w⟩ := q
    have hj : j ≠ k := hk (j, w) (by simp)
    rw [List.pairwise_cons] at h
    by_cases hlt : k < j
    · simp only [place, hlt, if_true, List.pairwise_cons]
      refine ⟨?_, h.1, h.2⟩
      intro a ha
      rcases List.mem_cons.1 ha with rfl | ha
      · exact hlt
      · exact lt_trans hlt (h.1 a ha)
    · simp only [place, hlt, if_false, List.pairwise_cons]
      refine ⟨?_, ih h.2 fun p hp => hk p (List.mem_cons_of_mem _ hp)⟩
      intro a ha
      rcases mem_place.1 ha with rfl | ha
      · show j < k
        omega
      · exact h.1 a ha

/-- A write keeps the canonical form. -/
theorem canonical_put [DecidableEq α] {d : α} {m : FMap α} (k : Nat) (v : α) (h : canonical d m = true) :
    canonical d (put d m k v) = true := by
  rw [canonical_iff] at h ⊢
  by_cases hv : v = d
  · simp only [put, hv, if_true]
    exact ⟨drop_pairwise h.1, fun p hp => h.2 p (mem_drop.1 hp).1⟩
  · simp only [put, hv, if_false]
    refine ⟨place_pairwise v (drop_pairwise h.1) fun p hp => (mem_drop.1 hp).2, ?_⟩
    intro p hp
    rcases mem_place.1 hp with rfl | hp
    · exact hv
    · exact h.2 p (mem_drop.1 hp).1

/-- Leaving entries out keeps the canonical form. -/
theorem canonical_filter [DecidableEq α] {d : α} {m : FMap α} (q : Nat × α → Bool) (h : canonical d m = true) :
    canonical d (m.filter q) = true := by
  rw [canonical_iff] at h ⊢
  exact ⟨h.1.filter q, fun p hp => h.2 p (List.mem_filter.1 hp).1⟩

theorem look_not_mem (d : α) (m : FMap α) (k : Nat) (h : ∀ p ∈ m, p.1 ≠ k) : look d m k = d := by
  induction m with
  | nil => rfl
  | cons q r ih =>
    obtain ⟨j, v⟩ := q
    have hj : j ≠ k := h (j, v) (by simp)
    simp [look, hj, ih fun p hp => h p (List.mem_cons_of_mem _ hp)]

/-- Two tables in canonical form that read alike are equal. -/
theorem canonical_ext [DecidableEq α] {d : α} {m n : FMap α} (hm : canonical d m = true) (hn : canonical d n = true)
    (h : ∀ k, look d m k = look d n k) : m = n := by
  rw [canonical_iff] at hm hn
  induction m generalizing n with
  | nil =>
    cases n with
    | nil => rfl
    | cons q r =>
      have := h q.1
      simp only [look, if_true] at this
      exact absurd this.symm (hn.2 q (by simp))
  | cons p m ih =>
    obtain ⟨j, v⟩ := p
    cases n with
    | nil =>
      have := h j
      simp only [look, if_true] at this
      exact absurd this (hm.2 (j, v) (by simp))
    | cons q n =>
      obtain ⟨k, w⟩ := q
      have pm := List.pairwise_cons.1 hm.1
      have pn := List.pairwise_cons.1 hn.1
      have lm : ∀ i, i ≤ j → look d m i = d := fun i hi => look_not_mem d m i fun p hp => by
        have := pm.1 p hp; show p.1 ≠ i; simp only at this; omega
      have ln : ∀ i, i ≤ k → look d n i = d := fun i hi => look_not_mem d n i fun p hp => by
        have := pn.1 p hp; show p.1 ≠ i; simp only at this; omega
      have hj := h j
      have hk := h k
      simp only [look, if_true] at hj hk
      rcases lt_trichotomy j k with hlt | rfl | hlt
      · rw [if_neg (by omega), ln j (by omega)] at hj
        exact absurd hj (hm.2 (j, v) (by simp))
      · rw [if_pos rfl] at hj
        subst hj
        have : m = n := ih (n := n) ⟨pm.2, fun p hp => hm.2 p (by simp [hp])⟩ ⟨pn.2, fun p hp => hn.2 p (by simp [hp])⟩ fun i => by
          have := h i
          simp only [look] at this
          by_cases hi : j = i
          · subst hi; rw [lm j (le_refl j), ln j (le_refl j)]
          · simpa [hi] using this
        rw [this]
      · rw [if_neg (by omega), lm k (by omega)] at hk
        exact absurd hk.symm (hn.2 (k, w) (by simp))

end Sys2Proof.Machine
end

