-- ==== Sys2Proof/Laws/Bits.lean ====
section
/-! SUPPORT. Bit fields: what a field holds after it is replaced, and what the status word holds after each of its updates. -/

namespace Sys2Proof.Machine

/-- A number with the field of `len` bits at `lo` replaced, bit by bit. -/
theorem testBit_replace (x lo len v j : Nat) :
    (x - (x >>> lo) % 2 ^ len * 2 ^ lo + v % 2 ^ len * 2 ^ lo).testBit j =
      if lo ≤ j ∧ j < lo + len then v.testBit (j - lo) else x.testBit j := by
  have hx : x = 2 ^ lo * (2 ^ len * (x / 2 ^ lo / 2 ^ len) + x / 2 ^ lo % 2 ^ len) + x % 2 ^ lo := by
    rw [Nat.div_add_mod, Nat.div_add_mod]
  have hv : x - (x >>> lo) % 2 ^ len * 2 ^ lo + v % 2 ^ len * 2 ^ lo =
      2 ^ lo * (2 ^ len * (x / 2 ^ lo / 2 ^ len) + v % 2 ^ len) + x % 2 ^ lo := by
    rw [Nat.shiftRight_eq_div_pow]
    have h2 : x = 2 ^ lo * (2 ^ len * (x / 2 ^ lo / 2 ^ len)) + 2 ^ lo * (x / 2 ^ lo % 2 ^ len) + x % 2 ^ lo := by
      rw [← Nat.mul_add]; exact hx
    rw [Nat.mul_add, Nat.mul_comm (x / 2 ^ lo % 2 ^ len), Nat.mul_comm (v % 2 ^ len)]
    omega
  rw [hv, Nat.testBit_two_pow_mul_add _ (Nat.mod_lt _ (by positivity)),
    Nat.testBit_two_pow_mul_add _ (Nat.mod_lt _ (by positivity))]
  by_cases h1 : j < lo
  · rw [if_pos h1, if_neg (by omega), Nat.testBit_mod_two_pow]
    simp [h1]
  · rw [if_neg h1]
    by_cases h2 : j - lo < len
    · rw [if_pos h2, if_pos (by omega), Nat.testBit_mod_two_pow]
      simp [h2]
    · rw [if_neg h2, if_neg (by omega), Nat.testBit_div_two_pow, Nat.testBit_div_two_pow]
      congr 1; omega

/-- A word with a field replaced, bit by bit. -/
theorem getLsbD_setBits {n : Nat} (x : BitVec n) (lo len v j : Nat) (hj : j < n) :
    (setBits x lo len v).getLsbD j = if lo ≤ j ∧ j < lo + len then v.testBit (j - lo) else x.getLsbD j := by
  unfold setBits
  rw [BitVec.getLsbD_ofNat]
  simp only [hj, decide_true, Bool.true_and, BitVec.getLsbD]
  exact testBit_replace x.toNat lo len v j

/-- A field, bit by bit. -/
theorem testBit_bits {n : Nat} (x : BitVec n) (lo len j : Nat) :
    (bits x lo len).testBit j = (decide (j < len) && x.getLsbD (lo + j)) := by
  unfold bits
  rw [Nat.testBit_mod_two_pow, Nat.testBit_shiftRight, BitVec.getLsbD]

/-- The field that was written reads back. -/
theorem bits_setBits_same {n : Nat} (x : BitVec n) (lo len v : Nat) (h : lo + len ≤ n) :
    bits (setBits x lo len v) lo len = v % 2 ^ len := by
  apply Nat.eq_of_testBit_eq
  intro j
  rw [testBit_bits, Nat.testBit_mod_two_pow]
  by_cases hj : j < len
  · rw [getLsbD_setBits _ _ _ _ _ (by omega), if_pos (by omega)]
    simp
  · simp [hj]

/-- A field apart from the one that was written stands. -/
theorem bits_setBits_other {n : Nat} (x : BitVec n) (lo len v lo' len' : Nat) (h : lo' + len' ≤ n)
    (d : lo' + len' ≤ lo ∨ lo + len ≤ lo') : bits (setBits x lo len v) lo' len' = bits x lo' len' := by
  apply Nat.eq_of_testBit_eq
  intro j
  rw [testBit_bits, testBit_bits]
  by_cases hj : j < len'
  · rw [getLsbD_setBits _ _ _ _ _ (by omega), if_neg (by omega)]
  · simp [hj]

theorem getLsbD_cswSet (csw : Word) (i j : Nat) (hj : j < 64) :
    (cswSet csw i).getLsbD j = (decide (i = j) || csw.getLsbD j) := by
  unfold cswSet
  rw [BitVec.getLsbD_or, BitVec.getLsbD_ofNat, Nat.testBit_two_pow]
  simp only [hj, decide_true, Bool.true_and]
  exact Bool.or_comm _ _

/-- What CSWR leaves in CSW (R24, R25). -/
theorem getLsbD_cswWrite (old new : Word) (j : Nat) (hj : j < 64) :
    (cswWrite old new).getLsbD j =
      if (8 ≤ j ∧ j < 22) ∨ j = 23 then new.getLsbD j
      else if 24 ≤ j ∧ j < 28 ∧ bits new 24 4 ≤ 4 then new.getLsbD j else old.getLsbD j := by
  unfold cswWrite
  simp only [getLsbD_setBits _ _ _ _ _ hj, testBit_bits]
  by_cases h1 : 24 ≤ j ∧ j < 28
  · have hn : ¬((8 ≤ j ∧ j < 22) ∨ j = 23) := by omega
    rw [if_pos (by omega : 24 ≤ j ∧ j < 24 + 4), if_neg hn]
    by_cases hm : bits new 24 4 ≤ 4
    · simp only [hm, h1.1, h1.2, if_true, and_self, testBit_bits, Nat.add_sub_cancel' h1.1]
      simp [show j - 24 < 4 by omega]
    · simp only [hm, if_false, and_false, testBit_bits, Nat.add_sub_cancel' h1.1]
      simp [show j - 24 < 4 by omega]
  · rw [if_neg (by omega)]
    by_cases h2 : (8 ≤ j ∧ j < 22) ∨ j = 23
    · rw [if_pos h2]
      by_cases h3 : j = 23
      · subst h3; simp
      · rw [if_neg (by omega)]
        by_cases h4 : 16 ≤ j
        · rw [if_pos (by omega), Nat.add_sub_cancel' h4]; simp [show j - 16 < 6 by omega]
        · rw [if_neg (by omega), if_pos (by omega), Nat.add_sub_cancel' (by omega : 8 ≤ j)]
          simp [show j - 8 < 8 by omega]
    · rw [if_neg h2, if_neg (by omega), if_neg (by omega), if_neg (by omega), if_neg (by omega)]

end Sys2Proof.Machine
end

