-- ==== Sys2Proof/Laws/Memory.lean ====
section
/-! SUPPORT. One memory: a read after a write, the bytes and marks that each operation leaves alone, and the canonical form
that every operation keeps. -/

namespace Sys2Proof.Machine

/-! ### Bytes and marks -/

theorem byte_setByte (m : Mem) (a b : Nat) (v : Byte) : (m.setByte a v).byte b = if b = a then v else m.byte b :=
  look_put 0 m.cells a b v

@[simp] theorem mark_setByte (m : Mem) (a u : Nat) (v : Byte) : (m.setByte a v).mark u = m.mark u := rfl

theorem mark_setMark (m : Mem) (u n : Nat) (b : Bool) : (m.setMark u b).mark n = if n = u then b else m.mark n :=
  look_put false m.marks u n b

@[simp] theorem byte_setMark (m : Mem) (u a : Nat) (b : Bool) : (m.setMark u b).byte a = m.byte a := rfl

/-- The bytes written from `a` up read back, and every other byte stands. -/
theorem byte_putBytes (m : Mem) (a : Nat) (l : List Byte) (b : Nat) :
    (m.putBytes a l).byte b = if a ≤ b ∧ b < a + l.length then nth 0 l (b - a) else m.byte b := by
  induction l generalizing m a with
  | nil => simp [Mem.putBytes]
  | cons x r ih =>
    rw [Mem.putBytes, ih, byte_setByte]
    by_cases h1 : b = a
    · subst h1
      rw [if_neg (by omega), if_pos rfl, if_pos (by simp)]
      simp [nth]
    · by_cases h2 : a + 1 ≤ b ∧ b < a + 1 + r.length
      · rw [if_pos h2, if_pos (by simp only [List.length_cons]; omega)]
        have : b - a = (b - (a + 1)) + 1 := by omega
        simp [nth, this]
      · rw [if_neg h2, if_neg h1, if_neg (by simp only [List.length_cons]; omega)]

theorem mark_putBytes (m : Mem) (a : Nat) (l : List Byte) (u : Nat) : (m.putBytes a l).mark u = m.mark u := by
  induction l generalizing m a with
  | nil => rfl
  | cons x r ih => rw [Mem.putBytes, ih, mark_setByte]

theorem mem_unitsOf {a n u : Nat} : u ∈ unitsOf a n ↔ n ≠ 0 ∧ a / 8 ≤ u ∧ u ≤ (a + n - 1) / 8 := by
  unfold unitsOf
  by_cases h : n = 0
  · simp [h]
  · simp only [h, if_false, List.mem_map, List.mem_range, ne_eq, not_false_eq_true, true_and]
    constructor
    · rintro ⟨j, hj, rfl⟩; omega
    · rintro ⟨h1, h2⟩; exact ⟨u - a / 8, by omega, by omega⟩

/-- A unit is touched just when one of its bytes is. -/
theorem unitsOf_touch {a n u : Nat} : u ∈ unitsOf a n ↔ ∃ b, a ≤ b ∧ b < a + n ∧ b / 8 = u := by
  rw [mem_unitsOf]
  constructor
  · rintro ⟨h0, h1, h2⟩
    by_cases h : a ≤ 8 * u
    · exact ⟨8 * u, h, by omega, by omega⟩
    · exact ⟨a, le_refl a, by omega, by omega⟩
  · rintro ⟨b, h1, h2, rfl⟩
    exact ⟨by omega, by omega, by omega⟩

theorem byte_foldl_marks (l : List Nat) (p : Nat → Bool) (m : Mem) (b : Nat) :
    (l.foldl (fun (m : Mem) u => if p u then m.setMark u false else m) m).byte b = m.byte b := by
  induction l generalizing m with
  | nil => rfl
  | cons u r ih => by_cases h : p u <;> simp [h, ih]

theorem mark_foldl_marks (l : List Nat) (p : Nat → Bool) (m : Mem) (n : Nat) :
    (l.foldl (fun (m : Mem) u => if p u then m.setMark u false else m) m).mark n =
      if n ∈ l ∧ p n then false else m.mark n := by
  induction l generalizing m with
  | nil => simp
  | cons u r ih =>
    rw [List.foldl_cons, ih]
    by_cases hu : n = u
    · subst hu
      by_cases hp : p n <;> simp [hp, mark_setMark]
    · by_cases hp : p u <;> simp [hp, hu, mark_setMark]

@[simp] theorem byte_clearWhole (m : Mem) (a n b : Nat) : (m.clearWhole a n).byte b = m.byte b := by
  have := byte_foldl_marks (unitsOf a n) (fun u => decide (a ≤ 8 * u ∧ 8 * u + 8 ≤ a + n)) m b
  simpa [Mem.clearWhole] using this

theorem mark_clearWhole (m : Mem) (a n u : Nat) :
    (m.clearWhole a n).mark u = if a ≤ 8 * u ∧ 8 * u + 8 ≤ a + n then false else m.mark u := by
  have := mark_foldl_marks (unitsOf a n) (fun u => decide (a ≤ 8 * u ∧ 8 * u + 8 ≤ a + n)) m u
  simp only [decide_eq_true_eq] at this
  unfold Mem.clearWhole
  rw [this]
  by_cases h : a ≤ 8 * u ∧ 8 * u + 8 ≤ a + n
  · have : u ∈ unitsOf a n := mem_unitsOf.2 ⟨by omega, by omega, by omega⟩
    simp [h, this]
  · simp [h]

/-- What a store of unpoisoned bytes leaves at each address (R172). -/
theorem byte_store (m : Mem) (a : Nat) (l : List Byte) (b : Nat) :
    (m.store a l).byte b = if a ≤ b ∧ b < a + l.length then nth 0 l (b - a) else m.byte b := by
  simp [Mem.store, byte_putBytes]

/-- A store clears the mark of each unit that it covers whole, and no other (R172). -/
theorem mark_store (m : Mem) (a : Nat) (l : List Byte) (u : Nat) :
    (m.store a l).mark u = if a ≤ 8 * u ∧ 8 * u + 8 ≤ a + l.length then false else m.mark u := by
  simp [Mem.store, mark_clearWhole, mark_putBytes]

theorem leBytes_zero_nth (i : Nat) : nth 0 (leBytes 8 0) i = (0 : Byte) := by
  by_cases h : i < 8
  · interval_cases i <;> rfl
  · unfold nth leBytes
    simp [h]

theorem byte_poisonUnit (m : Mem) (u b : Nat) : (m.poisonUnit u).byte b = if b / 8 = u then 0 else m.byte b := by
  unfold Mem.poisonUnit
  rw [byte_setMark, byte_putBytes]
  have hl : (leBytes 8 0).length = 8 := by simp [leBytes]
  rw [hl]
  by_cases h : b / 8 = u
  · rw [if_pos h, if_pos (by omega), leBytes_zero_nth]
  · rw [if_neg h, if_neg (by omega)]

theorem mark_poisonUnit (m : Mem) (u n : Nat) : (m.poisonUnit u).mark n = if n = u then true else m.mark n := by
  unfold Mem.poisonUnit
  rw [mark_setMark, mark_putBytes]

theorem byte_foldl_poison (l : List Nat) (m : Mem) (b : Nat) :
    (l.foldl Mem.poisonUnit m).byte b = if b / 8 ∈ l then 0 else m.byte b := by
  induction l generalizing m with
  | nil => simp
  | cons u r ih =>
    rw [List.foldl_cons, ih, byte_poisonUnit]
    by_cases h : b / 8 = u <;> by_cases h2 : b / 8 ∈ r <;> simp [h, h2]

theorem mark_foldl_poison (l : List Nat) (m : Mem) (n : Nat) :
    (l.foldl Mem.poisonUnit m).mark n = if n ∈ l then true else m.mark n := by
  induction l generalizing m with
  | nil => simp
  | cons u r ih =>
    rw [List.foldl_cons, ih, mark_poisonUnit]
    by_cases h : n = u <;> by_cases h2 : n ∈ r <;> simp [h, h2]

/-- Poisoning zeroes the units that the access touches, and no other byte changes (R172). -/
theorem byte_poison (m : Mem) (a n b : Nat) :
    (m.poison a n).byte b = if b / 8 ∈ unitsOf a n then 0 else m.byte b := byte_foldl_poison _ m b

theorem mark_poison (m : Mem) (a n u : Nat) :
    (m.poison a n).mark u = if u ∈ unitsOf a n then true else m.mark u := mark_foldl_poison _ m u

theorem byte_zeroed (m : Mem) (a n b : Nat) : (m.zeroed a n).byte b = if a ≤ b ∧ b < a + n then 0 else m.byte b := by
  have aux : ∀ l : FMap Byte, look 0 (l.filter fun c => c.1 < a || a + n ≤ c.1) b =
      if a ≤ b ∧ b < a + n then 0 else look 0 l b := by
    intro l
    induction l with
    | nil => simp [look]
    | cons p r ih =>
      obtain ⟨j, v⟩ := p
      simp only [List.filter_cons]
      by_cases h : (decide (j < a) || decide (a + n ≤ j)) = true
      · rw [if_pos h]
        simp only [look, ih]
        simp only [Bool.or_eq_true, decide_eq_true_eq] at h
        by_cases hj : j = b
        · rw [if_pos hj, if_neg (by omega)]; simp [hj]
        · simp [hj]
      · rw [if_neg h, ih]
        simp only [Bool.or_eq_true, decide_eq_true_eq] at h
        by_cases hj : j = b
        · rw [if_pos (by omega), if_pos (by omega)]
        · simp [look, hj]
  exact aux m.cells

/-! ### The canonical form is kept -/

theorem Mem.wf_iff (m : Mem) : m.wf = true ↔ canonical 0 m.cells = true ∧ canonical false m.marks = true := by
  simp [Mem.wf]

@[simp] theorem wf_empty : Mem.wf {} = true := rfl

@[simp] theorem wf_setByte {m : Mem} (a : Nat) (b : Byte) (h : m.wf = true) : (m.setByte a b).wf = true := by
  rw [Mem.wf_iff] at h ⊢
  exact ⟨canonical_put a b h.1, h.2⟩

@[simp] theorem wf_setMark {m : Mem} (u : Nat) (b : Bool) (h : m.wf = true) : (m.setMark u b).wf = true := by
  rw [Mem.wf_iff] at h ⊢
  exact ⟨h.1, canonical_put u b h.2⟩

@[simp] theorem wf_putBytes {m : Mem} (a : Nat) (l : List Byte) (h : m.wf = true) : (m.putBytes a l).wf = true := by
  induction l generalizing m a with
  | nil => exact h
  | cons b r ih => exact ih (a + 1) (wf_setByte a b h)

theorem wf_foldl {β : Type} (g : Mem → β → Mem) (hg : ∀ m b, Mem.wf m = true → (g m b).wf = true) (l : List β)
    {m : Mem} (h : m.wf = true) : (l.foldl g m).wf = true := by
  induction l generalizing m with
  | nil => exact h
  | cons b r ih => exact ih (hg m b h)

@[simp] theorem wf_clearWhole {m : Mem} (a n : Nat) (h : m.wf = true) : (m.clearWhole a n).wf = true :=
  wf_foldl _ (fun m u hm => by
    by_cases hc : a ≤ 8 * u ∧ 8 * u + 8 ≤ a + n
    · rw [if_pos hc]; exact wf_setMark u false hm
    · rw [if_neg hc]; exact hm) _ h

@[simp] theorem wf_store {m : Mem} (a : Nat) (l : List Byte) (h : m.wf = true) : (m.store a l).wf = true :=
  wf_clearWhole a _ (wf_putBytes a l h)

@[simp] theorem wf_poisonUnit {m : Mem} (u : Nat) (h : m.wf = true) : (m.poisonUnit u).wf = true :=
  wf_setMark u true (wf_putBytes _ _ h)

@[simp] theorem wf_poison {m : Mem} (a n : Nat) (h : m.wf = true) : (m.poison a n).wf = true :=
  wf_foldl _ (fun _ u hm => wf_poisonUnit u hm) _ h

@[simp] theorem wf_storePsn {m : Mem} (a : Nat) (l : List Byte) (p : Bool) (h : m.wf = true) :
    (m.storePsn a l p).wf = true := by
  unfold Mem.storePsn
  cases p
  · simpa using wf_store a l h
  · simpa using wf_poison a l.length h

@[simp] theorem wf_zeroed {m : Mem} (a n : Nat) (h : m.wf = true) : (m.zeroed a n).wf = true := by
  rw [Mem.wf_iff] at h ⊢
  exact ⟨canonical_filter _ h.1, canonical_filter _ h.2⟩

/-- Memories in canonical form that read alike, byte by byte and mark by mark, are equal. -/
theorem Mem.ext_of_wf {m n : Mem} (hm : m.wf = true) (hn : n.wf = true) (hb : ∀ a, m.byte a = n.byte a)
    (hk : ∀ u, m.mark u = n.mark u) : m = n := by
  rw [Mem.wf_iff] at hm hn
  have h1 : m.cells = n.cells := canonical_ext hm.1 hn.1 hb
  have h2 : m.marks = n.marks := canonical_ext hm.2 hn.2 hk
  cases m; cases n; simp_all

end Sys2Proof.Machine
end

