-- ==== Sys2Proof/Laws/State.lean ====
section
/-! SUPPORT. What each update of the state changes and what it leaves: one lemma per field per update. -/

namespace Sys2Proof.Machine

/-! ### Fields that an update leaves alone -/

@[simp] theorem setCtx_cores (s : State) (k : Nat) (c : Ctx) : (s.setCtx k c).cores = s.cores := rfl
@[simp] theorem setCtx_clusters (s : State) (k : Nat) (c : Ctx) : (s.setCtx k c).clusters = s.clusters := rfl
@[simp] theorem setCtx_mem (s : State) (k : Nat) (c : Ctx) : (s.setCtx k c).mem = s.mem := rfl
@[simp] theorem setCtx_updates (s : State) (k : Nat) (c : Ctx) : (s.setCtx k c).updates = s.updates := rfl
@[simp] theorem setCtx_hidden (s : State) (k : Nat) (c : Ctx) : (s.setCtx k c).hidden = s.hidden := rfl
@[simp] theorem setCtx_spoiled (s : State) (k : Nat) (c : Ctx) : (s.setCtx k c).spoiled = s.spoiled := rfl
@[simp] theorem setCtx_openSeqs (s : State) (k : Nat) (c : Ctx) : (s.setCtx k c).openSeqs = s.openSeqs := rfl
@[simp] theorem setCtx_launches (s : State) (k : Nat) (c : Ctx) : (s.setCtx k c).launches = s.launches := rfl
@[simp] theorem setCtx_queues (s : State) (k : Nat) (c : Ctx) : (s.setCtx k c).queues = s.queues := rfl
@[simp] theorem setCtx_nextSeq (s : State) (k : Nat) (c : Ctx) : (s.setCtx k c).nextSeq = s.nextSeq := rfl
@[simp] theorem setCtx_turns (s : State) (k : Nat) (c : Ctx) : (s.setCtx k c).turns = s.turns := rfl
@[simp] theorem setCtx_period (s : State) (k : Nat) (c : Ctx) : (s.setCtx k c).period = s.period := rfl
@[simp] theorem setCtx_images (s : State) (k : Nat) (c : Ctx) : (s.setCtx k c).images = s.images := rfl
@[simp] theorem setCtx_roots (s : State) (k : Nat) (c : Ctx) : (s.setCtx k c).roots = s.roots := rfl
@[simp] theorem setCtx_region (s : State) (k : Nat) (c : Ctx) : (s.setCtx k c).region = s.region := rfl
@[simp] theorem setCtx_libver (s : State) (k : Nat) (c : Ctx) : (s.setCtx k c).libver = s.libver := rfl
@[simp] theorem setCtx_names (s : State) (k : Nat) (c : Ctx) : (s.setCtx k c).names = s.names := rfl
@[simp] theorem setCtx_foreign (s : State) (k : Nat) (c : Ctx) : (s.setCtx k c).foreign = s.foreign := rfl
@[simp] theorem setCtx_nameCtr (s : State) (k : Nat) (c : Ctx) : (s.setCtx k c).nameCtr = s.nameCtr := rfl
@[simp] theorem setCtx_nameHigh (s : State) (k : Nat) (c : Ctx) : (s.setCtx k c).nameHigh = s.nameHigh := rfl
@[simp] theorem setCtx_errors (s : State) (k : Nat) (c : Ctx) : (s.setCtx k c).errors = s.errors := rfl
@[simp] theorem setCtx_part (s : State) (k : Nat) (c : Ctx) : (s.setCtx k c).part = s.part := rfl
@[simp] theorem setCtx_boss (s : State) (k : Nat) (c : Ctx) : (s.setCtx k c).boss = s.boss := rfl
@[simp] theorem setCtx_links (s : State) (k : Nat) (c : Ctx) : (s.setCtx k c).links = s.links := rfl
@[simp] theorem setCtx_peers (s : State) (k : Nat) (c : Ctx) : (s.setCtx k c).peers = s.peers := rfl
@[simp] theorem setCtx_out (s : State) (k : Nat) (c : Ctx) : (s.setCtx k c).out = s.out := rfl
@[simp] theorem setCtx_cur (s : State) (k : Nat) (c : Ctx) : (s.setCtx k c).cur = s.cur := rfl
@[simp] theorem setCtx_script (s : State) (k : Nat) (c : Ctx) : (s.setCtx k c).script = s.script := rfl
@[simp] theorem setCtx_steps (s : State) (k : Nat) (c : Ctx) : (s.setCtx k c).steps = s.steps := rfl
@[simp] theorem setCtx_draws (s : State) (k : Nat) (c : Ctx) : (s.setCtx k c).draws = s.draws := rfl
@[simp] theorem setCtx_time (s : State) (k : Nat) (c : Ctx) : (s.setCtx k c).time = s.time := rfl
@[simp] theorem setCtx_timebase (s : State) (k : Nat) (c : Ctx) : (s.setCtx k c).timebase = s.timebase := rfl
@[simp] theorem setCtx_nextId (s : State) (k : Nat) (c : Ctx) : (s.setCtx k c).nextId = s.nextId := rfl

@[simp] theorem setCore_ctxs (s : State) (k : Nat) (c : Core) : (s.setCore k c).ctxs = s.ctxs := rfl
@[simp] theorem setCore_clusters (s : State) (k : Nat) (c : Core) : (s.setCore k c).clusters = s.clusters := rfl
@[simp] theorem setCore_mem (s : State) (k : Nat) (c : Core) : (s.setCore k c).mem = s.mem := rfl
@[simp] theorem setCore_updates (s : State) (k : Nat) (c : Core) : (s.setCore k c).updates = s.updates := rfl
@[simp] theorem setCore_hidden (s : State) (k : Nat) (c : Core) : (s.setCore k c).hidden = s.hidden := rfl
@[simp] theorem setCore_spoiled (s : State) (k : Nat) (c : Core) : (s.setCore k c).spoiled = s.spoiled := rfl
@[simp] theorem setCore_openSeqs (s : State) (k : Nat) (c : Core) : (s.setCore k c).openSeqs = s.openSeqs := rfl
@[simp] theorem setCore_launches (s : State) (k : Nat) (c : Core) : (s.setCore k c).launches = s.launches := rfl
@[simp] theorem setCore_queues (s : State) (k : Nat) (c : Core) : (s.setCore k c).queues = s.queues := rfl
@[simp] theorem setCore_nextSeq (s : State) (k : Nat) (c : Core) : (s.setCore k c).nextSeq = s.nextSeq := rfl
@[simp] theorem setCore_turns (s : State) (k : Nat) (c : Core) : (s.setCore k c).turns = s.turns := rfl
@[simp] theorem setCore_period (s : State) (k : Nat) (c : Core) : (s.setCore k c).period = s.period := rfl
@[simp] theorem setCore_images (s : State) (k : Nat) (c : Core) : (s.setCore k c).images = s.images := rfl
@[simp] theorem setCore_roots (s : State) (k : Nat) (c : Core) : (s.setCore k c).roots = s.roots := rfl
@[simp] theorem setCore_region (s : State) (k : Nat) (c : Core) : (s.setCore k c).region = s.region := rfl
@[simp] theorem setCore_libver (s : State) (k : Nat) (c : Core) : (s.setCore k c).libver = s.libver := rfl
@[simp] theorem setCore_names (s : State) (k : Nat) (c : Core) : (s.setCore k c).names = s.names := rfl
@[simp] theorem setCore_foreign (s : State) (k : Nat) (c : Core) : (s.setCore k c).foreign = s.foreign := rfl
@[simp] theorem setCore_nameCtr (s : State) (k : Nat) (c : Core) : (s.setCore k c).nameCtr = s.nameCtr := rfl
@[simp] theorem setCore_nameHigh (s : State) (k : Nat) (c : Core) : (s.setCore k c).nameHigh = s.nameHigh := rfl
@[simp] theorem setCore_errors (s : State) (k : Nat) (c : Core) : (s.setCore k c).errors = s.errors := rfl
@[simp] theorem setCore_part (s : State) (k : Nat) (c : Core) : (s.setCore k c).part = s.part := rfl
@[simp] theorem setCore_boss (s : State) (k : Nat) (c : Core) : (s.setCore k c).boss = s.boss := rfl
@[simp] theorem setCore_links (s : State) (k : Nat) (c : Core) : (s.setCore k c).links = s.links := rfl
@[simp] theorem setCore_peers (s : State) (k : Nat) (c : Core) : (s.setCore k c).peers = s.peers := rfl
@[simp] theorem setCore_out (s : State) (k : Nat) (c : Core) : (s.setCore k c).out = s.out := rfl
@[simp] theorem setCore_cur (s : State) (k : Nat) (c : Core) : (s.setCore k c).cur = s.cur := rfl
@[simp] theorem setCore_script (s : State) (k : Nat) (c : Core) : (s.setCore k c).script = s.script := rfl
@[simp] theorem setCore_steps (s : State) (k : Nat) (c : Core) : (s.setCore k c).steps = s.steps := rfl
@[simp] theorem setCore_draws (s : State) (k : Nat) (c : Core) : (s.setCore k c).draws = s.draws := rfl
@[simp] theorem setCore_time (s : State) (k : Nat) (c : Core) : (s.setCore k c).time = s.time := rfl
@[simp] theorem setCore_timebase (s : State) (k : Nat) (c : Core) : (s.setCore k c).timebase = s.timebase := rfl
@[simp] theorem setCore_nextId (s : State) (k : Nat) (c : Core) : (s.setCore k c).nextId = s.nextId := rfl

@[simp] theorem setCluster_ctxs (s : State) (k : Nat) (c : Cluster) : (s.setCluster k c).ctxs = s.ctxs := rfl
@[simp] theorem setCluster_cores (s : State) (k : Nat) (c : Cluster) : (s.setCluster k c).cores = s.cores := rfl
@[simp] theorem setCluster_mem (s : State) (k : Nat) (c : Cluster) : (s.setCluster k c).mem = s.mem := rfl
@[simp] theorem setCluster_updates (s : State) (k : Nat) (c : Cluster) : (s.setCluster k c).updates = s.updates := rfl
@[simp] theorem setCluster_hidden (s : State) (k : Nat) (c : Cluster) : (s.setCluster k c).hidden = s.hidden := rfl
@[simp] theorem setCluster_spoiled (s : State) (k : Nat) (c : Cluster) : (s.setCluster k c).spoiled = s.spoiled := rfl
@[simp] theorem setCluster_openSeqs (s : State) (k : Nat) (c : Cluster) : (s.setCluster k c).openSeqs = s.openSeqs := rfl
@[simp] theorem setCluster_launches (s : State) (k : Nat) (c : Cluster) : (s.setCluster k c).launches = s.launches := rfl
@[simp] theorem setCluster_queues (s : State) (k : Nat) (c : Cluster) : (s.setCluster k c).queues = s.queues := rfl
@[simp] theorem setCluster_nextSeq (s : State) (k : Nat) (c : Cluster) : (s.setCluster k c).nextSeq = s.nextSeq := rfl
@[simp] theorem setCluster_turns (s : State) (k : Nat) (c : Cluster) : (s.setCluster k c).turns = s.turns := rfl
@[simp] theorem setCluster_period (s : State) (k : Nat) (c : Cluster) : (s.setCluster k c).period = s.period := rfl
@[simp] theorem setCluster_images (s : State) (k : Nat) (c : Cluster) : (s.setCluster k c).images = s.images := rfl
@[simp] theorem setCluster_roots (s : State) (k : Nat) (c : Cluster) : (s.setCluster k c).roots = s.roots := rfl
@[simp] theorem setCluster_region (s : State) (k : Nat) (c : Cluster) : (s.setCluster k c).region = s.region := rfl
@[simp] theorem setCluster_libver (s : State) (k : Nat) (c : Cluster) : (s.setCluster k c).libver = s.libver := rfl
@[simp] theorem setCluster_names (s : State) (k : Nat) (c : Cluster) : (s.setCluster k c).names = s.names := rfl
@[simp] theorem setCluster_foreign (s : State) (k : Nat) (c : Cluster) : (s.setCluster k c).foreign = s.foreign := rfl
@[simp] theorem setCluster_nameCtr (s : State) (k : Nat) (c : Cluster) : (s.setCluster k c).nameCtr = s.nameCtr := rfl
@[simp] theorem setCluster_nameHigh (s : State) (k : Nat) (c : Cluster) : (s.setCluster k c).nameHigh = s.nameHigh := rfl
@[simp] theorem setCluster_errors (s : State) (k : Nat) (c : Cluster) : (s.setCluster k c).errors = s.errors := rfl
@[simp] theorem setCluster_part (s : State) (k : Nat) (c : Cluster) : (s.setCluster k c).part = s.part := rfl
@[simp] theorem setCluster_boss (s : State) (k : Nat) (c : Cluster) : (s.setCluster k c).boss = s.boss := rfl
@[simp] theorem setCluster_links (s : State) (k : Nat) (c : Cluster) : (s.setCluster k c).links = s.links := rfl
@[simp] theorem setCluster_peers (s : State) (k : Nat) (c : Cluster) : (s.setCluster k c).peers = s.peers := rfl
@[simp] theorem setCluster_out (s : State) (k : Nat) (c : Cluster) : (s.setCluster k c).out = s.out := rfl
@[simp] theorem setCluster_cur (s : State) (k : Nat) (c : Cluster) : (s.setCluster k c).cur = s.cur := rfl
@[simp] theorem setCluster_script (s : State) (k : Nat) (c : Cluster) : (s.setCluster k c).script = s.script := rfl
@[simp] theorem setCluster_steps (s : State) (k : Nat) (c : Cluster) : (s.setCluster k c).steps = s.steps := rfl
@[simp] theorem setCluster_draws (s : State) (k : Nat) (c : Cluster) : (s.setCluster k c).draws = s.draws := rfl
@[simp] theorem setCluster_time (s : State) (k : Nat) (c : Cluster) : (s.setCluster k c).time = s.time := rfl
@[simp] theorem setCluster_timebase (s : State) (k : Nat) (c : Cluster) : (s.setCluster k c).timebase = s.timebase := rfl
@[simp] theorem setCluster_nextId (s : State) (k : Nat) (c : Cluster) : (s.setCluster k c).nextId = s.nextId := rfl

@[simp] theorem setMe_cores (s : State) (c : Ctx) : (s.setMe c).cores = s.cores := rfl
@[simp] theorem setMe_clusters (s : State) (c : Ctx) : (s.setMe c).clusters = s.clusters := rfl
@[simp] theorem setMe_mem (s : State) (c : Ctx) : (s.setMe c).mem = s.mem := rfl
@[simp] theorem setMe_updates (s : State) (c : Ctx) : (s.setMe c).updates = s.updates := rfl
@[simp] theorem setMe_hidden (s : State) (c : Ctx) : (s.setMe c).hidden = s.hidden := rfl
@[simp] theorem setMe_spoiled (s : State) (c : Ctx) : (s.setMe c).spoiled = s.spoiled := rfl
@[simp] theorem setMe_openSeqs (s : State) (c : Ctx) : (s.setMe c).openSeqs = s.openSeqs := rfl
@[simp] theorem setMe_launches (s : State) (c : Ctx) : (s.setMe c).launches = s.launches := rfl
@[simp] theorem setMe_queues (s : State) (c : Ctx) : (s.setMe c).queues = s.queues := rfl
@[simp] theorem setMe_nextSeq (s : State) (c : Ctx) : (s.setMe c).nextSeq = s.nextSeq := rfl
@[simp] theorem setMe_turns (s : State) (c : Ctx) : (s.setMe c).turns = s.turns := rfl
@[simp] theorem setMe_period (s : State) (c : Ctx) : (s.setMe c).period = s.period := rfl
@[simp] theorem setMe_images (s : State) (c : Ctx) : (s.setMe c).images = s.images := rfl
@[simp] theorem setMe_roots (s : State) (c : Ctx) : (s.setMe c).roots = s.roots := rfl
@[simp] theorem setMe_region (s : State) (c : Ctx) : (s.setMe c).region = s.region := rfl
@[simp] theorem setMe_libver (s : State) (c : Ctx) : (s.setMe c).libver = s.libver := rfl
@[simp] theorem setMe_names (s : State) (c : Ctx) : (s.setMe c).names = s.names := rfl
@[simp] theorem setMe_foreign (s : State) (c : Ctx) : (s.setMe c).foreign = s.foreign := rfl
@[simp] theorem setMe_nameCtr (s : State) (c : Ctx) : (s.setMe c).nameCtr = s.nameCtr := rfl
@[simp] theorem setMe_nameHigh (s : State) (c : Ctx) : (s.setMe c).nameHigh = s.nameHigh := rfl
@[simp] theorem setMe_errors (s : State) (c : Ctx) : (s.setMe c).errors = s.errors := rfl
@[simp] theorem setMe_part (s : State) (c : Ctx) : (s.setMe c).part = s.part := rfl
@[simp] theorem setMe_boss (s : State) (c : Ctx) : (s.setMe c).boss = s.boss := rfl
@[simp] theorem setMe_links (s : State) (c : Ctx) : (s.setMe c).links = s.links := rfl
@[simp] theorem setMe_peers (s : State) (c : Ctx) : (s.setMe c).peers = s.peers := rfl
@[simp] theorem setMe_out (s : State) (c : Ctx) : (s.setMe c).out = s.out := rfl
@[simp] theorem setMe_cur (s : State) (c : Ctx) : (s.setMe c).cur = s.cur := rfl
@[simp] theorem setMe_script (s : State) (c : Ctx) : (s.setMe c).script = s.script := rfl
@[simp] theorem setMe_steps (s : State) (c : Ctx) : (s.setMe c).steps = s.steps := rfl
@[simp] theorem setMe_draws (s : State) (c : Ctx) : (s.setMe c).draws = s.draws := rfl
@[simp] theorem setMe_time (s : State) (c : Ctx) : (s.setMe c).time = s.time := rfl
@[simp] theorem setMe_timebase (s : State) (c : Ctx) : (s.setMe c).timebase = s.timebase := rfl
@[simp] theorem setMe_nextId (s : State) (c : Ctx) : (s.setMe c).nextId = s.nextId := rfl

@[simp] theorem setArch_cores (s : State) (a : Arch) : (s.setArch a).cores = s.cores := rfl
@[simp] theorem setArch_clusters (s : State) (a : Arch) : (s.setArch a).clusters = s.clusters := rfl
@[simp] theorem setArch_mem (s : State) (a : Arch) : (s.setArch a).mem = s.mem := rfl
@[simp] theorem setArch_updates (s : State) (a : Arch) : (s.setArch a).updates = s.updates := rfl
@[simp] theorem setArch_hidden (s : State) (a : Arch) : (s.setArch a).hidden = s.hidden := rfl
@[simp] theorem setArch_spoiled (s : State) (a : Arch) : (s.setArch a).spoiled = s.spoiled := rfl
@[simp] theorem setArch_openSeqs (s : State) (a : Arch) : (s.setArch a).openSeqs = s.openSeqs := rfl
@[simp] theorem setArch_launches (s : State) (a : Arch) : (s.setArch a).launches = s.launches := rfl
@[simp] theorem setArch_queues (s : State) (a : Arch) : (s.setArch a).queues = s.queues := rfl
@[simp] theorem setArch_nextSeq (s : State) (a : Arch) : (s.setArch a).nextSeq = s.nextSeq := rfl
@[simp] theorem setArch_turns (s : State) (a : Arch) : (s.setArch a).turns = s.turns := rfl
@[simp] theorem setArch_period (s : State) (a : Arch) : (s.setArch a).period = s.period := rfl
@[simp] theorem setArch_images (s : State) (a : Arch) : (s.setArch a).images = s.images := rfl
@[simp] theorem setArch_roots (s : State) (a : Arch) : (s.setArch a).roots = s.roots := rfl
@[simp] theorem setArch_region (s : State) (a : Arch) : (s.setArch a).region = s.region := rfl
@[simp] theorem setArch_libver (s : State) (a : Arch) : (s.setArch a).libver = s.libver := rfl
@[simp] theorem setArch_names (s : State) (a : Arch) : (s.setArch a).names = s.names := rfl
@[simp] theorem setArch_foreign (s : State) (a : Arch) : (s.setArch a).foreign = s.foreign := rfl
@[simp] theorem setArch_nameCtr (s : State) (a : Arch) : (s.setArch a).nameCtr = s.nameCtr := rfl
@[simp] theorem setArch_nameHigh (s : State) (a : Arch) : (s.setArch a).nameHigh = s.nameHigh := rfl
@[simp] theorem setArch_errors (s : State) (a : Arch) : (s.setArch a).errors = s.errors := rfl
@[simp] theorem setArch_part (s : State) (a : Arch) : (s.setArch a).part = s.part := rfl
@[simp] theorem setArch_boss (s : State) (a : Arch) : (s.setArch a).boss = s.boss := rfl
@[simp] theorem setArch_links (s : State) (a : Arch) : (s.setArch a).links = s.links := rfl
@[simp] theorem setArch_peers (s : State) (a : Arch) : (s.setArch a).peers = s.peers := rfl
@[simp] theorem setArch_out (s : State) (a : Arch) : (s.setArch a).out = s.out := rfl
@[simp] theorem setArch_cur (s : State) (a : Arch) : (s.setArch a).cur = s.cur := rfl
@[simp] theorem setArch_script (s : State) (a : Arch) : (s.setArch a).script = s.script := rfl
@[simp] theorem setArch_steps (s : State) (a : Arch) : (s.setArch a).steps = s.steps := rfl
@[simp] theorem setArch_draws (s : State) (a : Arch) : (s.setArch a).draws = s.draws := rfl
@[simp] theorem setArch_time (s : State) (a : Arch) : (s.setArch a).time = s.time := rfl
@[simp] theorem setArch_timebase (s : State) (a : Arch) : (s.setArch a).timebase = s.timebase := rfl
@[simp] theorem setArch_nextId (s : State) (a : Arch) : (s.setArch a).nextId = s.nextId := rfl

/-! ### The entries that an update writes -/

theorem ctx_setCtx (s : State) (k n : Nat) (c : Ctx) : (s.setCtx k c).ctx n = if n = k then c else s.ctx n :=
  look_put ({} : Ctx) s.ctxs k n c

@[simp] theorem ctx_setCtx_same (s : State) (k : Nat) (c : Ctx) : (s.setCtx k c).ctx k = c := by simp [ctx_setCtx]

@[simp] theorem ctx_setCtx_other (s : State) {k n : Nat} (c : Ctx) (h : n ≠ k) : (s.setCtx k c).ctx n = s.ctx n := by
  simp [ctx_setCtx, h]

theorem core_setCore (s : State) (k n : Nat) (c : Core) : (s.setCore k c).core n = if n = k then c else s.core n :=
  look_put ({} : Core) s.cores k n c

@[simp] theorem core_setCore_same (s : State) (k : Nat) (c : Core) : (s.setCore k c).core k = c := by simp [core_setCore]

@[simp] theorem core_setCore_other (s : State) {k n : Nat} (c : Core) (h : n ≠ k) : (s.setCore k c).core n = s.core n := by
  simp [core_setCore, h]

theorem cluster_setCluster (s : State) (k n : Nat) (c : Cluster) :
    (s.setCluster k c).cluster n = if n = k then c else s.cluster n := look_put ({} : Cluster) s.clusters k n c

@[simp] theorem cluster_setCluster_same (s : State) (k : Nat) (c : Cluster) : (s.setCluster k c).cluster k = c := by
  simp [cluster_setCluster]

@[simp] theorem cluster_setCluster_other (s : State) {k n : Nat} (c : Cluster) (h : n ≠ k) :
    (s.setCluster k c).cluster n = s.cluster n := by simp [cluster_setCluster, h]

@[simp] theorem core_setCtx (s : State) (k n : Nat) (c : Ctx) : (s.setCtx k c).core n = s.core n := rfl
@[simp] theorem cluster_setCtx (s : State) (k n : Nat) (c : Ctx) : (s.setCtx k c).cluster n = s.cluster n := rfl
@[simp] theorem ctx_setCore (s : State) (k n : Nat) (c : Core) : (s.setCore k c).ctx n = s.ctx n := rfl
@[simp] theorem cluster_setCore (s : State) (k n : Nat) (c : Core) : (s.setCore k c).cluster n = s.cluster n := rfl
@[simp] theorem ctx_setCluster (s : State) (k n : Nat) (c : Cluster) : (s.setCluster k c).ctx n = s.ctx n := rfl
@[simp] theorem core_setCluster (s : State) (k n : Nat) (c : Cluster) : (s.setCluster k c).core n = s.core n := rfl

/-! ### The executing context -/

@[simp] theorem me_setMe (s : State) (c : Ctx) : (s.setMe c).me = c := by simp [State.me, State.setMe]

@[simp] theorem me_setArch (s : State) (a : Arch) : (s.setArch a).me = { s.me with arch := a } := by
  simp [State.setArch]

@[simp] theorem arch_setMe (s : State) (c : Ctx) : (s.setMe c).arch = c.arch := by simp [State.arch]

@[simp] theorem arch_setArch (s : State) (a : Arch) : (s.setArch a).arch = a := by simp [State.arch]

@[simp] theorem ctx_setMe_other (s : State) {k : Nat} (c : Ctx) (h : k ≠ s.cur.ctx) : (s.setMe c).ctx k = s.ctx k := by
  simp [State.setMe, h]

@[simp] theorem ctx_setArch_other (s : State) {k : Nat} (a : Arch) (h : k ≠ s.cur.ctx) : (s.setArch a).ctx k = s.ctx k := by
  simp [State.setArch, h]

@[simp] theorem core_setMe (s : State) (c : Ctx) (n : Nat) : (s.setMe c).core n = s.core n := rfl
@[simp] theorem core_setArch (s : State) (a : Arch) (n : Nat) : (s.setArch a).core n = s.core n := rfl
@[simp] theorem cluster_setMe (s : State) (c : Ctx) (n : Nat) : (s.setMe c).cluster n = s.cluster n := rfl
@[simp] theorem cluster_setArch (s : State) (a : Arch) (n : Nat) : (s.setArch a).cluster n = s.cluster n := rfl
@[simp] theorem me_setCore (s : State) (k : Nat) (c : Core) : (s.setCore k c).me = s.me := rfl
@[simp] theorem arch_setCore (s : State) (k : Nat) (c : Core) : (s.setCore k c).arch = s.arch := rfl
@[simp] theorem me_setCluster (s : State) (k : Nat) (c : Cluster) : (s.setCluster k c).me = s.me := rfl
@[simp] theorem arch_setCluster (s : State) (k : Nat) (c : Cluster) : (s.setCluster k c).arch = s.arch := rfl

end Sys2Proof.Machine
end

