-- ==== Sys2Proof/Laws/Ops.lean ====
section
/-! SUPPORT. What each shared operation on contexts and registers can do, said once. -/

namespace Sys2Proof.Machine

theorem OnlyContexts.refl (s : State) : OnlyContexts s s := rfl
theorem OnlyMine.refl (s : State) : OnlyMine s s := ⟨rfl, fun _ _ => rfl⟩

theorem onlyMine_setMe (s : State) (c : Ctx) : OnlyMine s (s.setMe c) := ⟨rfl, fun k h => by simp [h]⟩

theorem leaves_setMe (s : State) (c : Ctx) : Leaves s (s.setMe c) c := ⟨onlyMine_setMe s c, by simp⟩

theorem becomes_setArch (s : State) (a : Arch) : Becomes s (s.setArch a) a := ⟨onlyMine_setMe s _, by simp⟩

theorem Becomes.arch_eq {s t : State} {a : Arch} (h : Becomes s t a) : t.arch = a := by
  simp [State.arch, h.2]

theorem OnlyMine.cur_eq {s t : State} (h : OnlyMine s t) : t.cur = s.cur := by rw [h.1]

theorem OnlyMine.trans {s t u : State} (h : OnlyMine s t) (g : OnlyMine t u) : OnlyMine s u := by
  refine ⟨?_, fun k hk => ?_⟩
  · have h1 := h.1; have g1 := g.1
    unfold OnlyContexts at *
    rw [g1]; simp only; rw [h1]
  · rw [g.2 k (by rw [h.cur_eq]; exact hk), h.2 k hk]

theorem Becomes.trans {s t u : State} {a b : Arch} (h : Becomes s t a) (g : Becomes t u b) : Becomes s u b := by
  refine ⟨h.1.trans g.1, ?_⟩
  rw [g.2, h.2]

theorem flights_append (pos seq : Nat) (l r : List (Nat × FlightDst)) :
    flights pos seq (l ++ r) = flights pos seq l ++ flights pos (seq + l.length) r := by
  induction l generalizing seq with
  | nil => rfl
  | cons p l ih =>
    obtain ⟨n, d⟩ := p
    simp only [List.cons_append, flights, ih, List.length_cons]
    congr 3; omega

/-- One result put in flight, unless it is discarded. -/
def one (lat : Nat) (d : FlightDst) : List (Nat × FlightDst) := if d.discarded then [] else [(lat, d)]

/-- Putting a result in flight changes nothing else. -/
theorem becomes_emit (s : State) (lat : Nat) (d : FlightDst) : Becomes s (s.emit lat d) (s.sent (one lat d)) := by
  unfold State.emit one
  by_cases h : d.discarded
  · rw [if_pos h, if_pos h]
    refine ⟨OnlyMine.refl s, ?_⟩
    simp only [State.sent, flights, List.append_nil, State.arch]
  · rw [if_neg h, if_neg h]
    refine ⟨⟨rfl, fun k hk => ?_⟩, ?_⟩
    · exact ctx_setArch_other s _ hk
    · exact me_setArch s _

theorem emit_nextId (s : State) (lat : Nat) (d : FlightDst) : (s.emit lat d).nextId = s.nextId + (one lat d).length := by
  unfold State.emit one
  by_cases h : d.discarded <;> simp [h]

@[simp] theorem emit_cur (s : State) (lat : Nat) (d : FlightDst) : (s.emit lat d).cur = s.cur :=
  (becomes_emit s lat d).1.cur_eq

/-- Results put in flight one after the other. -/
theorem becomes_emit_emit (s : State) (m n : Nat) (d e : FlightDst) :
    Becomes s ((s.emit m d).emit n e) (s.sent (one m d ++ one n e)) := by
  have h := becomes_emit s m d
  have g := becomes_emit (s.emit m d) n e
  have := h.trans g
  refine ⟨this.1, ?_⟩
  rw [this.2]
  simp only [State.sent, h.arch_eq, emit_nextId, emit_cur, flights_append, List.append_assoc]

theorem one_s (d : BitVec 6) (lat : Nat) (psn : Bool) (v : Word) :
    one lat (.s d.toNat { val := if psn then 0 else v, psn := psn }) = toS d lat psn v := by
  have hd : (FlightDst.s d.toNat { val := if psn then 0 else v, psn := psn }).discarded = (d.toNat == 0) := rfl
  unfold one toS
  rw [hd]
  by_cases h : d = 0
  · subst h; rfl
  · have : (d.toNat == 0) = false := by
      simp only [beq_eq_false_iff_ne, ne_eq]
      intro hz; exact h (BitVec.eq_of_toNat_eq (by simpa using hz))
    rw [this, if_neg h]; rfl

theorem one_v (d : BitVec 6) (lat : Nat) (b : Vec) (tag : Nat) (psn : Bool) :
    one lat (.v (d.toNat % 32) { bits := if psn then 0 else b, tag := tag, psn := psn }) = toV d lat b tag psn := by
  rfl

theorem one_p (d : BitVec 6) (b m : Pred) : one 2 (.p (d.toNat % 8) b m) = toP d b m := by
  unfold one toP FlightDst.discarded
  by_cases h : d.toNat % 8 = 0 <;> simp [h]

theorem sResult_eq (l : List SReg) (v : Word) :
    sResult l v = { val := if l.any SReg.psn then 0 else v, psn := l.any SReg.psn } := by
  unfold sResult
  by_cases h : l.any SReg.psn <;> simp [h]

/-- A scalar result changes nothing but what is in flight (R32, R120). -/
theorem becomes_putS (s : State) (d : BitVec 6) (lat : Nat) (l : List SReg) (v : Word) :
    Becomes s (s.putS d lat (sResult l v)) (s.sent (toS d lat (l.any SReg.psn) v)) := by
  rw [sResult_eq, ← one_s]
  exact becomes_emit s lat _

theorem becomes_putV (s : State) (d : BitVec 6) (lat : Nat) (b : Vec) (tag : Nat) (psn : Bool) :
    Becomes s (s.putV d lat b tag psn) (s.sent (toV d lat b tag psn)) := by
  rw [← one_v]
  exact becomes_emit s lat _

theorem becomes_putP (s : State) (d : BitVec 6) (b m : Pred) :
    Becomes s (s.putP d b m) (s.sent (toP d b m)) := by
  rw [← one_p]
  exact becomes_emit s 2 _

/-- A scoreboarded result makes its destination pending and changes nothing else (R34). -/
theorem leaves_emitSb (s : State) (d : SbDst) (w : Payload) :
    Leaves s (s.emitSb d w) { s.me with sb := s.me.sb ++ [{ dst := d, what := w }] } := leaves_setMe s _

theorem sends_binary (lat : Nat) (op : Word → Word → Word) (f : SR) (s : State) :
    ∃ t, binary lat op f s = .next t ∧ Becomes s t
      (s.sent (toS f.d lat ((s.rdS f.a).psn || (s.rdS f.b).psn) (op (s.rdS f.a).val (s.rdS f.b).val))) := by
  refine ⟨_, rfl, ?_⟩
  have := becomes_putS s f.d lat [s.rdS f.a, s.rdS f.b] (op (s.rdS f.a).val (s.rdS f.b).val)
  simpa using this

theorem sends_unary (lat : Nat) (op : Word → Word) (d a : BitVec 6) (s : State) :
    ∃ t, unary lat op d a s = .next t ∧ Becomes s t (s.sent (toS d lat (s.rdS a).psn (op (s.rdS a).val))) := by
  refine ⟨_, rfl, ?_⟩
  have := becomes_putS s d lat [s.rdS a] (op (s.rdS a).val)
  simpa using this

/-- Every slot result answers a next state. -/
theorem finish_answers (s : State) (r : SlotResult) : ∃ t, finish s r = .next t := by cases r <;> exact ⟨_, rfl⟩

/-! ### The end of a task (R359) -/

/-- The halted context: its results in flight and its parked results are discarded (R359). -/
def Ctx.halted (c : Ctx) (code : Nat) (pc : Word) : Ctx :=
  { c with
    ending := some { status := code, exitCode := 0, faultPc := pc }
    arch := { c.arch with flight := [], parked := [], exitReq := none, savedExit := none }
    window := none, eretReq := false, pause := 0, yielding := none, aside := none }

theorem expand_eq (c : Ctx) (seg : Nat) (t : Bool) :
    ∃ halfA halfB n, c.expand seg t = { c with halfA := halfA, halfB := halfB, arch := { c.arch with fetches := n } } := by
  unfold Ctx.expand Ctx.setIdle
  dsimp only
  by_cases h : c.current = true
  · rw [if_pos h]; exact ⟨_, _, _, rfl⟩
  · rw [if_neg h]; exact ⟨_, _, _, rfl⟩

/-- Chain prefetch changes a context's loop buffer and its fetch counter, and nothing else. -/
theorem prefetch_eq (c : Ctx) : ∃ halfA halfB n, c.prefetch = { c with halfA := halfA, halfB := halfB, arch := { c.arch with fetches := n } } := by
  have same : ∃ halfA halfB n, c = { c with halfA := halfA, halfB := halfB, arch := { c.arch with fetches := n } } :=
    ⟨c.halfA, c.halfB, c.arch.fetches, rfl⟩
  unfold Ctx.prefetch
  dsimp only
  split
  · split_ifs
    · exact same
    · exact expand_eq c _ _
  · exact same

theorem prefetchMe_eq (s : State) : s.prefetchMe = s ∨ s.prefetchMe = s.setCtx s.cur.ctx s.me.prefetch := by
  unfold State.prefetchMe State.setMe
  split
  · exact Or.inr rfl
  · exact Or.inl rfl

theorem prefetchMe_frame (s : State) : s.prefetchMe = { s with ctxs := s.prefetchMe.ctxs } := by
  rcases prefetchMe_eq s with h | h <;> rw [h]
  rfl

@[simp] theorem prefetchMe_cur (s : State) : s.prefetchMe.cur = s.cur := by rw [prefetchMe_frame]
@[simp] theorem prefetchMe_mem (s : State) : s.prefetchMe.mem = s.mem := by rw [prefetchMe_frame]
@[simp] theorem prefetchMe_cores (s : State) : s.prefetchMe.cores = s.cores := by rw [prefetchMe_frame]
@[simp] theorem prefetchMe_clusters (s : State) : s.prefetchMe.clusters = s.clusters := by rw [prefetchMe_frame]
@[simp] theorem prefetchMe_updates (s : State) : s.prefetchMe.updates = s.updates := by rw [prefetchMe_frame]

theorem prefetchMe_other (s : State) {k : Nat} (h : k ≠ s.cur.ctx) : s.prefetchMe.ctx k = s.ctx k := by
  rcases prefetchMe_eq s with e | e <;> rw [e]
  exact ctx_setCtx_other _ _ h

theorem prefetchMe_me (s : State) : ∃ halfA halfB n,
    s.prefetchMe.me = { s.me with halfA := halfA, halfB := halfB, arch := { s.arch with fetches := n } } := by
  rcases prefetchMe_eq s with e | e
  · exact ⟨s.me.halfA, s.me.halfB, s.arch.fetches, by rw [e]; rfl⟩
  · obtain ⟨a, b, n, h⟩ := prefetch_eq s.me
    refine ⟨a, b, n, ?_⟩
    rw [e]
    show (s.setCtx s.cur.ctx s.me.prefetch).ctx s.cur.ctx = _
    rw [ctx_setCtx_same, h]
    rfl

theorem haltCtx_ctxs (s : State) (k code : Nat) (pc : Word) :
    (s.haltCtx k code pc).ctxs = (s.setCtx k ((s.ctx k).halted code pc)).ctxs := by
  unfold State.haltCtx
  dsimp only
  split <;> rfl

/-- A halt changes the context halted, and no other. -/
theorem haltCtx_ctx (s : State) (k code n : Nat) (pc : Word) :
    (s.haltCtx k code pc).ctx n = if n = k then (s.ctx k).halted code pc else s.ctx n := by
  unfold State.ctx
  rw [haltCtx_ctxs]
  exact ctx_setCtx s k n _

theorem haltCtx_cur_ctx (s : State) (k code : Nat) (pc : Word) : (s.haltCtx k code pc).cur.ctx = s.cur.ctx := by
  unfold State.haltCtx
  dsimp only
  split <;> rfl

theorem haltCtx_mem (s : State) (k code : Nat) (pc : Word) : (s.haltCtx k code pc).mem = s.mem := by
  unfold State.haltCtx
  dsimp only
  split <;> rfl

theorem haltCtx_clusters (s : State) (k code : Nat) (pc : Word) : (s.haltCtx k code pc).clusters = s.clusters := by
  unfold State.haltCtx
  dsimp only
  split <;> rfl

/-- A fatal error of the executing bundle ends its task with that status. -/
theorem fatal_me (s : State) (code : Nat) : (s.fatal code).me = s.prefetchMe.me.halted code s.cur.pc := by
  unfold State.fatal State.me
  rw [haltCtx_cur_ctx, haltCtx_ctx, prefetchMe_cur, if_pos rfl]

theorem haltCtx_updates (s : State) (k code : Nat) (pc : Word) : (s.haltCtx k code pc).updates = s.updates := by
  unfold State.haltCtx
  dsimp only
  split <;> rfl

theorem haltCtx_core (s : State) (k code n : Nat) (pc : Word) :
    ((s.haltCtx k code pc).core n).spm = (s.core n).spm ∧ ((s.haltCtx k code pc).core n).acc = (s.core n).acc ∧
    ((s.haltCtx k code pc).core n).wb = (s.core n).wb := by
  have : ∃ c : Core, (s.haltCtx k code pc).cores = (s.setCore (coreOf k) c).cores ∧ c.spm = (s.core (coreOf k)).spm ∧
      c.acc = (s.core (coreOf k)).acc ∧ c.wb = (s.core (coreOf k)).wb := by
    unfold State.haltCtx
    dsimp only
    split <;> exact ⟨_, rfl, rfl, rfl, rfl⟩
  obtain ⟨c, h, h1, h2, h3⟩ := this
  unfold State.core at *
  rw [h]
  rw [show (s.setCore (coreOf k) c).cores = put {} s.cores (coreOf k) c from rfl, look_put]
  by_cases hn : n = coreOf k
  · subst hn; rw [if_pos rfl]; exact ⟨h1, h2, h3⟩
  · rw [if_neg hn]; exact ⟨rfl, rfl, rfl⟩

/-- A fatal result ends the task, and changes no memory and no other context (R359). -/
theorem dies_of {i : Instr} {s : State} {code : Nat} (h : exec i s = finish s (.fatal code)) : Dies i s code := by
  refine ⟨s.fatal code, h, ?_, fun k hk => ?_, ?_, ?_, ?_, fun c => ?_⟩
  · rw [fatal_me]; rfl
  · unfold State.fatal; rw [haltCtx_ctx, if_neg hk, prefetchMe_other s hk]
  · exact (haltCtx_mem _ _ _ _).trans (prefetchMe_mem s)
  · exact (haltCtx_clusters _ _ _ _).trans (prefetchMe_clusters s)
  · exact (haltCtx_updates _ _ _ _).trans (prefetchMe_updates s)
  · have e : s.prefetchMe.core c = s.core c := by unfold State.core; rw [prefetchMe_cores]
    have := haltCtx_core s.prefetchMe s.cur.ctx code c s.cur.pc
    rw [e] at this
    exact this

end Sys2Proof.Machine
end

