-- ==== Sys2Proof/Laws/Cache.lean ====
section
/-! SUPPORT. Memory unit by unit: what a read and a write of one unit answer and leave, as every context sees it. -/

namespace Sys2Proof.Machine

/-! ### Bytes of a unit -/

theorem testBit_packNat (w : Nat) (hw : 0 < w) (l : List Nat) (i : Nat) :
    (packNat w l).testBit i = ((l[i / w]?).getD 0).testBit (i % w) := by
  induction l generalizing i with
  | nil => simp [packNat]
  | cons x r ih =>
    rw [packNat, Nat.add_comm, Nat.testBit_two_pow_mul_add _ (Nat.mod_lt _ (by positivity))]
    by_cases h : i < w
    · rw [if_pos h, Nat.testBit_mod_two_pow, Nat.div_eq_of_lt h, Nat.mod_eq_of_lt h]
      simp [h]
    · rw [if_neg h, ih]
      have h1 : i / w = (i - w) / w + 1 := by
        rw [← Nat.add_div_right (i - w) hw, Nat.sub_add_cancel (by omega)]
      have h2 : i % w = (i - w) % w := Nat.mod_eq_sub_mod (by omega)
      rw [h1, h2]; simp

/-- Byte `j` of a number read from memory is the byte there. -/
theorem unit_extract (s : State) (pu j : Nat) (hj : j < 8) :
    (s.unit pu).1.extractLsb' (8 * j) 8 = s.mem.byte (8 * pu + j) := by
  apply BitVec.eq_of_getLsbD_eq
  intro i hi
  rw [BitVec.getLsbD_extractLsb']
  simp only [State.unit, hi, decide_true, Bool.true_and, BitVec.getLsbD_ofNat, Mem.nat, leNat]
  rw [testBit_packNat 8 (by omega)]
  have h1 : (8 * j + i) / 8 = j := by omega
  have h2 : (8 * j + i) % 8 = i := by omega
  rw [h1, h2]
  simp only [Mem.bytes, List.map_map, List.getElem?_map, List.getElem?_range hj, Option.map_some, Option.getD_some,
    Function.comp]
  simp only [show 8 * j + i < 64 by omega, decide_true, Bool.true_and, BitVec.getLsbD]

@[simp] theorem unit_mark (s : State) (pu : Nat) : (s.unit pu).2 = s.mem.mark pu := rfl

theorem leBytes_length (n x : Nat) : (leBytes n x).length = n := by simp [leBytes]

theorem nth_leBytes (n x j : Nat) (h : j < n) : nth 0 (leBytes n x) j = BitVec.ofNat 8 (x >>> (8 * j)) := by
  simp [nth, leBytes, h]

/-- What a unit written holds, byte by byte. -/
theorem setUnit_byte (s : State) (pu : Nat) (x : Word × Bool) (a : Nat) :
    (s.setUnit pu x).mem.byte a = if a / 8 = pu then x.1.extractLsb' (8 * (a % 8)) 8 else s.mem.byte a := by
  show ((s.mem.putBytes (8 * pu) (leBytes 8 x.1.toNat)).setMark pu x.2).byte a = _
  rw [byte_setMark, byte_putBytes, leBytes_length]
  by_cases h : a / 8 = pu
  · rw [if_pos h, if_pos (by omega), nth_leBytes _ _ _ (by omega)]
    rw [show a - 8 * pu = a % 8 by omega]
    apply BitVec.eq_of_toNat_eq
    simp [BitVec.extractLsb'_toNat]
  · rw [if_neg h, if_neg (by omega)]

theorem setUnit_mark (s : State) (pu : Nat) (x : Word × Bool) (u : Nat) :
    (s.setUnit pu x).mem.mark u = if u = pu then x.2 else s.mem.mark u := by
  show ((s.mem.putBytes (8 * pu) (leBytes 8 x.1.toNat)).setMark pu x.2).mark u = _
  rw [mark_setMark, mark_putBytes]

theorem byte_div_mod (m : Mem) (pa : Nat) : m.byte (8 * (pa / 8) + pa % 8) = m.byte pa := by
  rw [Nat.div_add_mod]

/-! ### Where an L1 holds a unit -/

theorem fusedAt_congr {s t : State} (c : Nat) (h : ∀ k, (t.ctx k).bound = (s.ctx k).bound ∧ (t.ctx k).arch.info = (s.ctx k).arch.info) :
    t.fusedAt c = s.fusedAt c := by
  unfold State.fusedAt
  congr 1; funext j
  simp only [(h _).1, (h _).2]

theorem l1Home_congr {s t : State} (c pu : Nat)
    (h : ∀ k, (t.ctx k).bound = (s.ctx k).bound ∧ (t.ctx k).arch.info = (s.ctx k).arch.info) : t.l1Home c pu = s.l1Home c pu := by
  unfold State.l1Home
  rw [fusedAt_congr c h]

theorem spoilt_congr {s t : State} (c pu : Nat)
    (h : ∀ k, (t.ctx k).bound = (s.ctx k).bound ∧ (t.ctx k).arch.info = (s.ctx k).arch.info) (hp : t.spoiled = s.spoiled) :
    t.spoilt c pu = s.spoilt c pu := by
  unfold State.spoilt
  rw [l1Home_congr _ _ h, hp]

/-- The same bytes are seen where the memories and the L1s are the same. -/
theorem seenAt_congr {s t : State} (hc : ∀ k, (t.ctx k).bound = (s.ctx k).bound ∧ (t.ctx k).arch.info = (s.ctx k).arch.info)
    (hl : ∀ c pu, (t.core c).l1Unit pu = (s.core c).l1Unit pu) (hm : t.mem = s.mem) (hp : t.spoiled = s.spoiled) (k : Nat) (sc : Bool)
    (pa : Nat) : t.seenAt k sc pa = s.seenAt k sc pa := by
  unfold State.seenAt
  dsimp only
  rw [spoilt_congr _ _ hc hp, l1Home_congr _ _ hc, hl, hm]

@[simp] theorem sees_mem (s : State) (a : Nat × Nat) (pu : Nat) : (s.sees a pu).mem = s.mem := rfl
@[simp] theorem sees_cores (s : State) (a : Nat × Nat) (pu : Nat) : (s.sees a pu).cores = s.cores := rfl
@[simp] theorem sees_ctxs (s : State) (a : Nat × Nat) (pu : Nat) : (s.sees a pu).ctxs = s.ctxs := rfl
@[simp] theorem sees_spoiled (s : State) (a : Nat × Nat) (pu : Nat) : (s.sees a pu).spoiled = s.spoiled := rfl
theorem sees_eq (s : State) (a : Nat × Nat) (pu : Nat) : ∃ l, s.sees a pu = { s with hidden := l } := ⟨_, rfl⟩

/-- An access that misses nothing reads a unit's newest value. -/
theorem glance_new (s : State) (a : Nat × Nat) (pu : Nat) : s.glance a false pu = (s.sees a pu, s.unit pu) := by
  unfold State.glance
  simp

@[simp] theorem fillOld_new (s : State) (k c pu : Nat) : s.fillOld k c false pu = s.sees (0, k) pu := by
  unfold State.fillOld
  simp

theorem l1Unit_setL1 (s : State) (c pu c' pu' : Nat) (u : L1Unit) :
    ((s.setL1 c pu u).core c').l1Unit pu' = if c' = c ∧ pu' = pu then u else (s.core c').l1Unit pu' := by
  unfold State.setL1
  rw [core_setCore]
  by_cases h : c' = c
  · subst h
    rw [if_pos rfl]
    simp only [Core.l1Unit, look_put, true_and]
  · rw [if_neg h, if_neg (by tauto)]

theorem setL1_core (s : State) (c pu c' : Nat) (u : L1Unit) :
    (s.setL1 c pu u).core c' = { s.core c' with l1 := ((s.setL1 c pu u).core c').l1 } := by
  unfold State.setL1
  rw [core_setCore]
  by_cases h : c' = c
  · subst h; rw [if_pos rfl]
  · rw [if_neg h]

@[simp] theorem setL1_mem (s : State) (c pu : Nat) (u : L1Unit) : (s.setL1 c pu u).mem = s.mem := rfl
@[simp] theorem setL1_ctx (s : State) (c pu : Nat) (u : L1Unit) (k : Nat) : (s.setL1 c pu u).ctx k = s.ctx k := rfl
@[simp] theorem setUnit_ctx (s : State) (pu : Nat) (x : Word × Bool) (k : Nat) : (s.setUnit pu x).ctx k = s.ctx k := rfl
@[simp] theorem setL1_spoiled (s : State) (c pu : Nat) (u : L1Unit) : (s.setL1 c pu u).spoiled = s.spoiled := rfl
@[simp] theorem setUnit_core (s : State) (pu : Nat) (x : Word × Bool) (k : Nat) : (s.setUnit pu x).core k = s.core k := rfl

theorem spoilt_unspoiled {s : State} (h : s.unspoiled) (c pu : Nat) : s.spoilt c pu = false := by
  unfold State.unspoiled at h
  unfold State.spoilt
  rw [h]; rfl

/-- A write to a unit of a module where no error has spoiled a copy leaves it so. -/
theorem setUnit_unspoiled {s : State} (h : s.unspoiled) (pu : Nat) (x : Word × Bool) : (s.setUnit pu x).unspoiled := by
  unfold State.unspoiled at *
  show s.spoiled.filter _ = []
  rw [h]; rfl

/-! ### Reading and writing a unit -/

/-- A unit as an access of context `k` reaches it. -/
def State.unitSeen (s : State) (k : Nat) (sc : Bool) (pu : Nat) : Word × Bool :=
  if sc then
    (if ((s.core (s.l1Home (coreOf k) pu)).l1Unit pu).here then
      (((s.core (s.l1Home (coreOf k) pu)).l1Unit pu).val, ((s.core (s.l1Home (coreOf k) pu)).l1Unit pu).psn)
    else s.unit pu)
  else if s.spoilt (coreOf k) pu then (0, true) else s.unit pu

theorem seenAt_unit (s : State) (k : Nat) (sc : Bool) (pa : Nat) :
    s.seenAt k sc pa = ((s.unitSeen k sc (pa / 8)).1.extractLsb' (8 * (pa % 8)) 8, (s.unitSeen k sc (pa / 8)).2) := by
  have e : ((s.mem.byte pa, s.mem.mark (pa / 8)) : Byte × Bool) =
      ((s.unit (pa / 8)).1.extractLsb' (8 * (pa % 8)) 8, (s.unit (pa / 8)).2) := by
    rw [unit_extract _ _ _ (by omega), byte_div_mod]; rfl
  unfold State.seenAt State.unitSeen
  dsimp only
  split
  · split
    · rfl
    · exact e
  · split
    · simp only [Prod.mk.injEq, and_true]
      apply BitVec.eq_of_getLsbD_eq
      intro i hi; simp
    · exact e

theorem unitSeen_congr {s t : State} (hc : ∀ k, (t.ctx k).bound = (s.ctx k).bound ∧ (t.ctx k).arch.info = (s.ctx k).arch.info)
    (hl : ∀ c pu, (t.core c).l1Unit pu = (s.core c).l1Unit pu) (hm : t.mem = s.mem) (hp : t.spoiled = s.spoiled) (k : Nat)
    (sc : Bool) (pu : Nat) : t.unitSeen k sc pu = s.unitSeen k sc pu := by
  unfold State.unitSeen State.unit
  rw [spoilt_congr _ _ hc hp, l1Home_congr _ _ hc, hl, hm]

/-- The frame of an access: memory, the L1s and the engine writes that may be missed. -/
def MemOnly (s t : State) : Prop :=
  t = { s with mem := t.mem, cores := t.cores, hidden := t.hidden, spoiled := t.spoiled } ∧
  ∀ c, t.core c = { s.core c with l1 := (t.core c).l1 }

theorem MemOnly.refl (s : State) : MemOnly s s := ⟨rfl, fun _ => rfl⟩

theorem MemOnly.trans {s t u : State} (h : MemOnly s t) (g : MemOnly t u) : MemOnly s u := by
  refine ⟨?_, fun c => ?_⟩
  · rw [g.1]; simp only; rw [h.1]
  · rw [g.2 c, h.2 c]

theorem MemOnly.ctx {s t : State} (h : MemOnly s t) (k : Nat) : t.ctx k = s.ctx k := by rw [h.1]; rfl

theorem MemOnly.home {s t : State} (h : MemOnly s t) (c pu : Nat) : t.l1Home c pu = s.l1Home c pu :=
  l1Home_congr c pu fun k => by rw [h.ctx]; exact ⟨rfl, rfl⟩

theorem memOnly_sees (s : State) (a : Nat × Nat) (pu : Nat) : MemOnly s (s.sees a pu) := ⟨rfl, fun _ => rfl⟩

theorem memOnly_setL1 (s : State) (c pu : Nat) (u : L1Unit) : MemOnly s (s.setL1 c pu u) :=
  ⟨rfl, fun c' => setL1_core s c pu c' u⟩

theorem memOnly_setUnit (s : State) (pu : Nat) (x : Word × Bool) : MemOnly s (s.setUnit pu x) := ⟨rfl, fun _ => rfl⟩

/-- A copy taken from memory into an L1 that does not hold the unit changes nothing that any context sees. -/
theorem unitSeen_fill (s : State) (c pu : Nat) (h : ¬((s.core c).l1Unit pu).here = true) (j : Nat) (sc : Bool) (p : Nat) :
    (s.setL1 c pu { here := true, val := (s.unit pu).1, psn := (s.unit pu).2 }).unitSeen j sc p = s.unitSeen j sc p := by
  have eh : ∀ c' p' u, (s.setL1 c pu u).l1Home c' p' = s.l1Home c' p' := fun c' p' _ => l1Home_congr c' p' fun _ => ⟨rfl, rfl⟩
  unfold State.unitSeen
  rw [eh, l1Unit_setL1]
  cases sc with
  | false => rfl
  | true =>
    by_cases hx : s.l1Home (coreOf j) p = c ∧ p = pu
    · obtain ⟨h1, h2⟩ := hx
      subst h2
      simp only [h1, and_self, if_true, if_neg h]
    · rw [if_neg hx]; rfl

/-- Filling a line changes nothing that any context sees; it takes no unit away, and every unit of the line is there. -/
theorem fillLine_spec (c : Nat) (us : List Nat) (s t : State) (ht : us.foldl (fun s pu =>
      if ((s.core c).l1Unit pu).here then s
      else s.setL1 c pu { here := true, val := (s.unit pu).1, psn := (s.unit pu).2 }) s = t) :
    MemOnly s t ∧ t.mem = s.mem ∧ t.spoiled = s.spoiled ∧ (∀ j sc pu, t.unitSeen j sc pu = s.unitSeen j sc pu) ∧
    (∀ pu, ((s.core c).l1Unit pu).here = true → (t.core c).l1Unit pu = (s.core c).l1Unit pu) ∧
    ∀ pu ∈ us, ((t.core c).l1Unit pu).here = true := by
  induction us generalizing s with
  | nil => subst ht; exact ⟨MemOnly.refl s, rfl, rfl, fun _ _ _ => rfl, fun _ _ => rfl, by simp⟩
  | cons u r ih =>
    rw [List.foldl_cons] at ht
    by_cases hu : ((s.core c).l1Unit u).here = true
    · rw [if_pos hu] at ht
      obtain ⟨h1, h2, h3, h4, h5, h6⟩ := ih s ht
      refine ⟨h1, h2, h3, h4, h5, ?_⟩
      intro pu hpu
      rcases List.mem_cons.1 hpu with rfl | hpu
      · rw [h5 _ hu]; exact hu
      · exact h6 pu hpu
    · rw [if_neg hu] at ht
      set v := s.setL1 c u { here := true, val := (s.unit u).1, psn := (s.unit u).2 } with hv
      obtain ⟨h1, h2, h3, h4, h5, h6⟩ := ih v ht
      have hl : ∀ pu, (v.core c).l1Unit pu = if pu = u then { here := true, val := (s.unit u).1, psn := (s.unit u).2 }
          else (s.core c).l1Unit pu := by
        intro pu
        rw [hv, l1Unit_setL1]
        by_cases hp : pu = u <;> simp [hp]
      refine ⟨(memOnly_setL1 _ _ _ _).trans h1, h2, h3, fun j sc pu => (h4 j sc pu).trans (unitSeen_fill s c u hu j sc pu), ?_, ?_⟩
      · intro pu hpu
        have hne : pu ≠ u := fun h => hu (h ▸ hpu)
        have e := hl pu
        rw [if_neg hne] at e
        rw [h5 pu (by rw [e]; exact hpu), e]
      · intro pu hpu
        rcases List.mem_cons.1 hpu with rfl | hpu
        · have e := hl pu
          rw [if_pos rfl] at e
          rw [h5 pu (by rw [e])]
          rw [e]
        · exact h6 pu hpu

theorem unitSeen_sees (s : State) (a : Nat × Nat) (p k : Nat) (sc : Bool) (pu : Nat) :
    (s.sees a p).unitSeen k sc pu = s.unitSeen k sc pu :=
  unitSeen_congr (fun _ => ⟨rfl, rfl⟩) (fun _ _ => rfl) rfl rfl _ _ _

/-- A read that misses nothing answers the unit as it is seen, and no context sees any unit changed. -/
theorem readUnit_spec (s : State) (k : Nat) (r : URef) :
    (s.readUnit k false r).2 = s.unitSeen k r.sc r.pu ∧ MemOnly s (s.readUnit k false r).1 ∧ (s.readUnit k false r).1.mem = s.mem ∧
    (s.readUnit k false r).1.spoiled = s.spoiled ∧ ∀ j sc pu, (s.readUnit k false r).1.unitSeen j sc pu = s.unitSeen j sc pu := by
  unfold State.readUnit
  by_cases hs : r.sc = true
  · rw [if_pos hs]
    dsimp only
    rw [fillOld_new]
    obtain ⟨t, ht⟩ : ∃ t, (s.sees (0, k) r.pu).fillLine (s.l1Home (coreOf k) r.pu) r.line = t := ⟨_, rfl⟩
    obtain ⟨h1, h2, h3, h4, h5, h6⟩ := fillLine_spec (s.l1Home (coreOf k) r.pu) (lineUnits r.line) (s.sees (0, k) r.pu) t ht
    replace h1 := (memOnly_sees s (0, k) r.pu).trans h1
    replace h4 := fun j sc pu => (h4 j sc pu).trans (unitSeen_sees s (0, k) r.pu j sc pu)
    rw [ht]
    refine ⟨?_, h1, h2, h3, h4⟩
    have hin : r.pu ∈ lineUnits r.line := by
      unfold lineUnits URef.line
      exact List.mem_map.2 ⟨r.pu % 8, List.mem_range.2 (by omega), by omega⟩
    have := h6 _ hin
    rw [hs, ← h4 k true r.pu]
    unfold State.unitSeen
    rw [h1.home, if_pos rfl, if_pos this]
  · simp only [Bool.not_eq_true] at hs
    rw [if_neg (by simp [hs])]
    dsimp only
    rw [glance_new]
    refine ⟨?_, memOnly_sees _ _ _, rfl, rfl, fun j sc pu => unitSeen_sees _ _ _ _ _ _⟩
    rw [hs]
    show (if (s.sees (0, k) r.pu).spoilt (coreOf k) r.pu then _ else _) = _
    have es : (s.sees (0, k) r.pu).spoilt (coreOf k) r.pu = s.spoilt (coreOf k) r.pu := spoilt_congr _ _ (fun _ => ⟨rfl, rfl⟩) rfl
    rw [es]
    rfl

/-- The reads of units in turn that miss nothing answer what is seen of each. -/
theorem readUnits_spec (s : State) (k : Nat) (l : List URef) :
    (s.readUnits k false l).2 = (l.map fun r => s.unitSeen k r.sc r.pu) ∧ MemOnly s (s.readUnits k false l).1 ∧
    (s.readUnits k false l).1.mem = s.mem ∧ (s.readUnits k false l).1.spoiled = s.spoiled ∧
    ∀ j sc pu, (s.readUnits k false l).1.unitSeen j sc pu = s.unitSeen j sc pu := by
  induction l generalizing s with
  | nil => exact ⟨rfl, MemOnly.refl s, rfl, rfl, fun _ _ _ => rfl⟩
  | cons r rest ih =>
    obtain ⟨h1, h2, h3, h3', h4⟩ := readUnit_spec s k r
    obtain ⟨g1, g2, g3, g3', g4⟩ := ih (s.readUnit k false r).1
    refine ⟨?_, h2.trans g2, g3.trans h3, g3'.trans h3', fun j sc pu => (g4 j sc pu).trans (h4 j sc pu)⟩
    simp only [State.readUnits, List.map_cons, h1, g1, h4]

/-- A memory is one number in each unit. -/
theorem unit_setUnit (s : State) (pu p : Nat) (x : Word × Bool) : (s.setUnit pu x).unit p = if p = pu then x else s.unit p := by
  apply Prod.ext
  · apply BitVec.eq_of_getLsbD_eq
    intro i hi
    have h1 := congrArg (fun b : Byte => b.getLsbD (i % 8)) (unit_extract (s.setUnit pu x) p (i / 8) (by omega))
    have h2 := congrArg (fun b : Byte => b.getLsbD (i % 8)) (unit_extract s p (i / 8) (by omega))
    simp only [BitVec.getLsbD_extractLsb', show i % 8 < 8 by omega, decide_true, Bool.true_and, Nat.div_add_mod] at h1 h2
    rw [h1, setUnit_byte]
    have e1 : (8 * p + i / 8) / 8 = p := by omega
    have e2 : (8 * p + i / 8) % 8 = i / 8 := by omega
    rw [e1, e2]
    by_cases hp : p = pu
    · rw [if_pos hp, if_pos hp, BitVec.getLsbD_extractLsb']
      simp only [show i % 8 < 8 by omega, decide_true, Bool.true_and, Nat.div_add_mod]
    · rw [if_neg hp, if_neg hp, h2]
  · show (s.setUnit pu x).mem.mark p = _
    rw [setUnit_mark]
    by_cases hp : p = pu
    · rw [if_pos hp, if_pos hp]
    · rw [if_neg hp, if_neg hp]; rfl

/-- The L1's copy after a store to a software-coherent page. -/
def unitLeft (s : State) (k : Nat) (r : URef) (mask : Nat) (data : Word) (psn : Bool) : L1Unit :=
  { here := true, val := (unitPut (s.unitSeen k r.sc r.pu) mask data psn).1,
    psn := (unitPut (s.unitSeen k r.sc r.pu) mask data psn).2, dirty := !r.msa }

/-- A write leaves in its unit what R172 says, for the context that makes it, and every other unit stands for every context. -/
theorem writeUnit_spec (s : State) (hp0 : s.unspoiled) (k : Nat) (r : URef) (mask : Nat) (data : Word) (psn : Bool) :
    MemOnly s (s.writeUnit k r mask data psn) ∧ (s.writeUnit k r mask data psn).unspoiled ∧
    (s.writeUnit k r mask data psn).unitSeen k r.sc r.pu = unitPut (s.unitSeen k r.sc r.pu) mask data psn ∧
    (∀ j sc pu, pu ≠ r.pu → (s.writeUnit k r mask data psn).unitSeen j sc pu = s.unitSeen j sc pu) ∧
    ∀ j sc, (s.writeUnit k r mask data psn).unitSeen j sc r.pu = s.unitSeen j sc r.pu ∨
      (s.writeUnit k r mask data psn).unitSeen j sc r.pu = unitPut (s.unitSeen j sc r.pu) mask data psn := by
  have plainSeen : ∀ u : State, u.unspoiled → ∀ j pu, u.unitSeen j false pu = u.unit pu := by
    intro u hu j pu
    have es : u.spoilt (coreOf j) pu = false := spoilt_unspoiled hu _ _
    unfold State.unitSeen
    rw [es]; rfl
  obtain ⟨h1, h2, h3, h3', h4⟩ := readUnit_spec s k r
  have hunit0 : ∀ pu, (s.readUnit k false r).1.unit pu = s.unit pu := fun pu => by unfold State.unit; rw [h3]
  by_cases hs : r.sc = true
  · have hw : s.writeUnit k r mask data psn =
        (let t := (s.readUnit k false r).1.setL1 (s.l1Home (coreOf k) r.pu) r.pu (unitLeft s k r mask data psn)
         if r.msa then t.setUnit r.pu (unitPut (t.unit r.pu) mask data psn) else t) := by
      unfold State.writeUnit unitLeft
      rw [if_pos hs, ← h1]
    rw [hw]
    dsimp only
    generalize ht : (s.readUnit k false r).1 = t at *
    have hhome : ∀ c pu, t.l1Home c pu = s.l1Home c pu := h2.home
    have key : ∀ (u : State), u.unspoiled → (∀ n, u.ctx n = s.ctx n) →
        (∀ c pu, (u.core c).l1Unit pu = if c = s.l1Home (coreOf k) r.pu ∧ pu = r.pu then unitLeft s k r mask data psn
          else (t.core c).l1Unit pu) →
        (∀ pu, u.unit pu = if pu = r.pu ∧ r.msa = true then unitPut (s.unit r.pu) mask data psn else s.unit pu) →
        u.unitSeen k r.sc r.pu = unitPut (s.unitSeen k r.sc r.pu) mask data psn ∧
        (∀ j sc pu, pu ≠ r.pu → u.unitSeen j sc pu = s.unitSeen j sc pu) ∧
        ∀ j sc, u.unitSeen j sc r.pu = s.unitSeen j sc r.pu ∨
          u.unitSeen j sc r.pu = unitPut (s.unitSeen j sc r.pu) mask data psn := by
      intro u hup hu hl hm
      have hhu : ∀ c pu, u.l1Home c pu = s.l1Home c pu := fun c pu => l1Home_congr c pu (fun k => by rw [hu]; exact ⟨rfl, rfl⟩)
      have hup' : u.spoiled = t.spoiled := by rw [h3', hp0]; exact hup
      have same : ∀ j, s.l1Home (coreOf j) r.pu = s.l1Home (coreOf k) r.pu →
          u.unitSeen j true r.pu = unitPut (s.unitSeen k true r.pu) mask data psn := by
        intro j hj
        have e : (u.core (u.l1Home (coreOf j) r.pu)).l1Unit r.pu = unitLeft s k r mask data psn := by
          rw [hhu, hl, if_pos ⟨hj, rfl⟩]
        unfold State.unitSeen
        rw [e]
        simp only [unitLeft, if_true, hs, State.unitSeen]
      refine ⟨?_, ?_, ?_⟩
      · rw [hs]; exact same k rfl
      · intro j sc pu hp
        have e : (u.core (u.l1Home (coreOf j) pu)).l1Unit pu = (t.core (t.l1Home (coreOf j) pu)).l1Unit pu := by
          rw [hhu, hhome, hl, if_neg (fun h => hp h.2)]
        have e2 : u.unit pu = t.unit pu := by rw [hm, if_neg (fun h => hp h.1), hunit0]
        rw [← h4 j sc pu]
        have es : u.spoilt (coreOf j) pu = t.spoilt (coreOf j) pu :=
          spoilt_congr _ _ (fun n => by rw [hu, h2.ctx]; exact ⟨rfl, rfl⟩) hup'
        unfold State.unitSeen
        rw [e, e2, es]
      · intro j sc
        cases sc with
        | false =>
          rw [plainSeen u hup, plainSeen s hp0, hm]
          by_cases ha : r.msa = true
          · rw [if_pos ⟨rfl, ha⟩]; exact Or.inr rfl
          · rw [if_neg (by tauto)]; exact Or.inl rfl
        | true =>
          by_cases hj : s.l1Home (coreOf j) r.pu = s.l1Home (coreOf k) r.pu
          · right
            rw [same j hj]
            unfold State.unitSeen
            simp only [hj, if_true]
          · have := h4 j true r.pu
            have e : (u.core (u.l1Home (coreOf j) r.pu)).l1Unit r.pu = (t.core (s.l1Home (coreOf j) r.pu)).l1Unit r.pu := by
              rw [hhu, hl, if_neg (fun h => hj h.1)]
            rw [← this]
            unfold State.unitSeen
            rw [e, hm, hhome, hunit0]
            rw [if_pos rfl, if_pos rfl]
            by_cases hh : ((t.core (s.l1Home (coreOf j) r.pu)).l1Unit r.pu).here = true
            · left; rw [if_pos hh, if_pos hh]
            · rw [if_neg hh, if_neg hh]
              by_cases ha : r.msa = true
              · rw [if_pos ⟨rfl, ha⟩]; exact Or.inr rfl
              · rw [if_neg (by tauto)]; exact Or.inl rfl
    have htp : t.unspoiled := by unfold State.unspoiled; rw [h3']; exact hp0
    by_cases ha : r.msa = true
    · rw [if_pos ha]
      have hv : (t.setL1 (s.l1Home (coreOf k) r.pu) r.pu (unitLeft s k r mask data psn)).unspoiled := htp
      refine ⟨(h2.trans (memOnly_setL1 _ _ _ _)).trans (memOnly_setUnit _ _ _), setUnit_unspoiled hv _ _,
        key _ (setUnit_unspoiled hv _ _) (fun n => ?_) (fun c pu => ?_) (fun pu => ?_)⟩
      · rw [setUnit_ctx, setL1_ctx, h2.ctx]
      · rw [setUnit_core, l1Unit_setL1]
      · rw [unit_setUnit]
        have e : ∀ pu, (t.setL1 (s.l1Home (coreOf k) r.pu) r.pu (unitLeft s k r mask data psn)).unit pu = s.unit pu := hunit0
        rw [e, e]
        by_cases hp : pu = r.pu <;> simp [hp, ha]
    · rw [if_neg ha]
      refine ⟨h2.trans (memOnly_setL1 _ _ _ _), htp, key _ htp (fun n => ?_) (fun c pu => ?_) (fun pu => ?_)⟩
      · rw [setL1_ctx, h2.ctx]
      · rw [l1Unit_setL1]
      · rw [if_neg (by tauto)]; exact hunit0 pu
  · simp only [Bool.not_eq_true] at hs
    have hw : ∃ l, s.writeUnit k r mask data psn =
        { (s.readUnit k false r).1.setUnit r.pu (unitPut (s.unitSeen k r.sc r.pu) mask data psn) with hidden := l } := by
      unfold State.writeUnit
      rw [if_neg (by simp [hs])]
      exact ⟨_, by dsimp only; rw [h1]⟩
    obtain ⟨l, hw⟩ := hw
    rw [hw]
    generalize ht : (s.readUnit k false r).1 = t at *
    have htp : t.unspoiled := by unfold State.unspoiled; rw [h3']; exact hp0
    set u := ({ t.setUnit r.pu (unitPut (s.unitSeen k r.sc r.pu) mask data psn) with hidden := l } : State) with hu
    have hup : u.unspoiled := setUnit_unspoiled htp r.pu (unitPut (s.unitSeen k r.sc r.pu) mask data psn)
    have hun : ∀ pu, u.unit pu = if pu = r.pu then unitPut (s.unit r.pu) mask data psn else s.unit pu := by
      intro pu
      have e : u.unit pu = (t.setUnit r.pu (unitPut (s.unitSeen k r.sc r.pu) mask data psn)).unit pu := rfl
      rw [e, unit_setUnit, hunit0, hs, plainSeen s hp0]
    have hco : ∀ c, u.core c = t.core c := fun c => rfl
    have hho : ∀ c pu, u.l1Home c pu = s.l1Home c pu := fun c pu =>
      (l1Home_congr (s := t) c pu (fun _ => ⟨rfl, rfl⟩)).trans (h2.home c pu)
    have hmo : MemOnly s u := by
      refine ⟨?_, fun c => by rw [hco]; exact h2.2 c⟩
      rw [hu]
      show _ = _
      rw [h2.1]; rfl
    refine ⟨hmo, hup, ?_, ?_, ?_⟩
    · rw [hs, plainSeen u hup, plainSeen s hp0, hun, if_pos rfl]
    · intro j sc pu hp
      rw [← h4 j sc pu]
      have hs1 : u.spoiled = t.spoiled := by
        have a : u.spoiled = [] := hup
        have b : t.spoiled = [] := htp
        rw [a, b]
      have es : u.spoilt (coreOf j) pu = t.spoilt (coreOf j) pu := spoilt_congr _ _ (fun _ => ⟨rfl, rfl⟩) hs1
      unfold State.unitSeen
      rw [es, hho, h2.home, hco, hun, if_neg hp, hunit0]
    · intro j sc
      cases sc with
      | false => rw [plainSeen u hup, plainSeen s hp0, hun, if_pos rfl]; exact Or.inr rfl
      | true =>
        rw [← h4 j true r.pu]
        unfold State.unitSeen
        rw [hho, h2.home, hco, hun, if_pos rfl, hunit0]
        rw [if_pos rfl, if_pos rfl]
        split
        · exact Or.inl rfl
        · exact Or.inr rfl

end Sys2Proof.Machine
end

