-- ==== Sys2Proof/Laws/Access.lean ====
section
/-! SUPPORT. What an access of a context does: where its bytes lie, what a load answers, and what a store leaves. -/

namespace Sys2Proof.Machine

/-! ### Translation inside a page (R291) -/

theorem walkFrom_page (m : Mem) (va o : Nat) (h : va % 65536 = 0) (ho : o < 65536) (l : List Nat) (hl : ∀ lo ∈ l, 16 ≤ lo) (node : Nat) :
    walkFrom m (va + o) l node = (walkFrom m va l node).map fun x => { x with pa := x.pa + o } := by
  induction l generalizing node with
  | nil => rfl
  | cons lo r ih =>
    have hlo := hl lo (by simp)
    obtain ⟨d, rfl⟩ : ∃ d, lo = 16 + d := ⟨lo - 16, by omega⟩
    obtain ⟨q, rfl⟩ : ∃ q, va = 65536 * q := ⟨va / 65536, by omega⟩
    have e16 : (2 : Nat) ^ (16 + d) = 65536 * 2 ^ d := by rw [Nat.pow_add]
    have h1 : (65536 * q + o) / 2 ^ (16 + d) = 65536 * q / 2 ^ (16 + d) := by
      rw [e16, ← Nat.div_div_eq_div_mul, ← Nat.div_div_eq_div_mul]
      congr 1; omega
    have h2 : (65536 * q + o) % 2 ^ (16 + d) = 65536 * q % 2 ^ (16 + d) + o := by
      rw [e16, Nat.mod_mul, Nat.mod_mul, show (65536 * q + o) / 65536 = q by omega, show (65536 * q) / 65536 = q by omega,
        show (65536 * q + o) % 65536 = o by omega, show (65536 * q) % 65536 = 0 by omega]
      omega
    have ih' := ih (fun x hx => hl x (by simp [hx]))
    simp only [walkFrom, h1, h2, ih']
    split
    · rfl
    · split
      · split
        · simp [Nat.add_assoc]
        · rfl
      · rfl

theorem walkFrom_pa (m : Mem) (va : Nat) (h : va % 65536 = 0) (l : List Nat) (hl : ∀ lo ∈ l, 16 ≤ lo) (node : Nat) (x : Leaf)
    (hx : walkFrom m va l node = some x) : x.pa % 65536 = 0 := by
  induction l generalizing node with
  | nil => simp [walkFrom] at hx
  | cons lo r ih =>
    have hlo := hl lo (by simp)
    obtain ⟨d, rfl⟩ : ∃ d, lo = 16 + d := ⟨lo - 16, by omega⟩
    have e16 : (2 : Nat) ^ (16 + d) = 65536 * 2 ^ d := by rw [Nat.pow_add]
    simp only [walkFrom] at hx
    split at hx
    · simp at hx
    · split at hx
      · split at hx
        · simp only [Option.some.injEq] at hx
          subst hx
          show (_ * 65536 + va % 2 ^ (16 + d)) % 65536 = 0
          rw [e16, Nat.mod_mul, h, Nat.zero_add, Nat.add_mod, Nat.mul_mod_left, Nat.mul_mod_right]
        · simp at hx
      · exact ih (fun y hy => hl y (by simp [hy])) _ hx

theorem translate_page (s : State) (asid va o : Nat) (h : va % 65536 = 0) (ho : o < 65536) :
    s.translate asid (va + o) = (s.translate asid va).map fun x => { x with pa := x.pa + o } := by
  unfold State.translate
  split
  · rfl
  · unfold walk
    have e : (va + o) % 2 ^ 55 = va % 2 ^ 55 + o := by omega
    rw [e]
    exact walkFrom_page _ _ _ (by omega) ho _ (by simp) _

theorem translate_pa (s : State) (asid va : Nat) (h : va % 65536 = 0) (x : Leaf) (hx : s.translate asid va = some x) :
    x.pa % 65536 = 0 := by
  unfold State.translate at hx
  split at hx
  · simp at hx
  · exact walkFrom_pa _ _ (by omega) _ (by simp) _ _ hx

theorem mem_pagesOf {va n p : Nat} : p ∈ pagesOf va n ↔ n ≠ 0 ∧ va / 65536 ≤ p ∧ p ≤ (va + n - 1) / 65536 := by
  unfold pagesOf
  by_cases h : n = 0
  · simp [h]
  · simp only [h, if_false, List.mem_map, List.mem_range, ne_eq, not_false_eq_true, true_and]
    constructor
    · rintro ⟨j, hj, rfl⟩; omega
    · rintro ⟨h1, h2⟩; exact ⟨p - va / 65536, by omega, by omega⟩

/-! ### Where the units of an access lie -/

/-- A map from virtual units that keeps their places in their pages. -/
structure Locator (f : Nat → URef) : Prop where
  vu  : ∀ u, (f u).vu = u
  off : ∀ u, (f u).pu % 8192 = u % 8192

/-- Two units of one access lie in different places: together they are shorter than a page. -/
theorem Locator.inj {f : Nat → URef} (h : Locator f) {va n : Nat} (hn : n < 65528) {u v : Nat} (hu : u ∈ unitsOf va n)
    (hv : v ∈ unitsOf va n) (e : (f u).pu = (f v).pu) : u = v := by
  rw [mem_unitsOf] at hu hv
  have h1 := h.off u
  have h2 := h.off v
  omega

theorem Locator.nodup {f : Nat → URef} (h : Locator f) (va n : Nat) (hn : n < 65528) :
    (((unitsOf va n).map f).map URef.pu).Nodup := by
  rw [List.map_map]
  refine List.Nodup.map_on (fun u hu v hv e => h.inj hn hu hv e) ?_
  unfold unitsOf
  split
  · exact List.nodup_nil
  · exact List.Nodup.map (fun a b h => by simpa using h) List.nodup_range

/-- A virtual unit on some pages. -/
def unitIn (ps : List Page) (vu : Nat) : URef :=
  match pageOf ps (vu / 8192) with
  | some p => p.unit vu
  | none => { vu := vu, pu := vu, sc := false, msa := false }

theorem urefs_eq (ps : List Page) (va n : Nat) : urefs ps va n = (unitsOf va n).map (unitIn ps) := rfl

theorem unitIn_locator (ps : List Page) : Locator (unitIn ps) := by
  constructor <;> intro u <;> unfold unitIn <;> cases pageOf ps (u / 8192) <;> simp [Page.unit]

theorem placeIn_eq (ps : List Page) (va : Nat) :
    placeIn ps va = (8 * (unitIn ps (va / 8)).pu + va % 8, (unitIn ps (va / 8)).sc) := by
  unfold placeIn unitIn
  rw [show va / 8 / 8192 = va / 65536 by omega]
  cases pageOf ps (va / 65536) with
  | none => simp only [Prod.mk.injEq, and_true]; omega
  | some p => simp only [Page.unit, Prod.mk.injEq, and_true]; omega

/-- A virtual unit of an address space. -/
def State.urefOf (s : State) (asid vu : Nat) : URef :=
  match s.translate asid (vu / 8192 * 65536) with
  | some l => { vu := vu, pu := l.pa / 8 + vu % 8192, sc := l.cls == 1, msa := l.msa }
  | none => { vu := vu, pu := vu, sc := false, msa := false }

theorem urefOf_locator (s : State) (asid : Nat) : Locator (s.urefOf asid) := by
  constructor
  · intro u; unfold State.urefOf; split <;> rfl
  · intro u
    unfold State.urefOf
    cases h : s.translate asid (u / 8192 * 65536) with
    | none => rfl
    | some l =>
      have := translate_pa s asid _ (by omega) l h
      show (l.pa / 8 + u % 8192) % 8192 = u % 8192
      omega

theorem urefOf_place (s : State) (asid va : Nat) (h : (s.translate asid (va / 65536 * 65536)).isSome = true) :
    s.placeOf asid va = (8 * (s.urefOf asid (va / 8)).pu + va % 8, (s.urefOf asid (va / 8)).sc) := by
  obtain ⟨l, hl⟩ := Option.isSome_iff_exists.1 h
  have hp := translate_page s asid (va / 65536 * 65536) (va % 65536) (by omega) (by omega)
  have ha := translate_pa s asid (va / 65536 * 65536) (by omega) l hl
  rw [show va / 65536 * 65536 + va % 65536 = va by omega, hl] at hp
  unfold State.placeOf State.urefOf
  rw [hp, show va / 8 / 8192 = va / 65536 by omega, hl]
  simp only [Option.map_some, Prod.mk.injEq]
  refine ⟨?_, rfl⟩
  omega

/-! ### An access of a quiet context waits for nothing -/

theorem touchLine_quiet (s : State) (h : ∀ c, (s.core c).lines = []) (b : Option (Nat × Nat)) (line : Nat) : s.touchLine b line = s := by
  unfold State.touchLine
  generalize s.cores.map Prod.fst = l
  induction l with
  | nil => rfl
  | cons c r ih => simp only [List.foldl_cons, h, List.any_nil, Bool.false_eq_true, if_false]; exact ih

theorem touchLines_quiet (s : State) (h : ∀ c, (s.core c).lines = []) (b : Option (Nat × Nat)) (l : List Nat) : s.touchLines b l = s := by
  induction l with
  | nil => rfl
  | cons c r ih => rw [State.touchLines, touchLine_quiet s h]; exact ih

theorem applyOwn_quiet (s : State) (k upto : Nat) (h : ∀ u ∈ s.updates, u.owner ≠ some k) (pus : List Nat) : s.applyOwn k upto pus = s := by
  unfold State.applyOwn
  have : (s.updates.filter fun u => u.owner == some k && decide (u.id < upto) && pus.contains u.unit) = [] := by
    rw [List.filter_eq_nil_iff]
    intro u hu
    simp [h u hu]
  simp only [this]
  rfl

theorem ready_quiet (s : State) (k upto : Nat) (h : s.quiet k) (us : List URef) : s.ready k upto us = (s, true) := by
  unfold State.ready
  dsimp only
  rw [touchLines_quiet s h.2.1, applyOwn_quiet s k upto (fun u hu => (h.1 u hu).1)]
  refine Prod.ext rfl ?_
  have h1 : s.ownLeft k upto (us.map URef.pu) = false := by
    unfold State.ownLeft
    rw [List.any_eq_false]
    intro u hu
    simp [(h.1 u hu).1]
  have h2 : ∀ l, s.barred (0, k) l = false := by
    intro l
    unfold State.barred
    rw [List.any_eq_false]
    intro u hu
    have := (h.1 u hu).2
    simp [this]
  rw [h1, List.any_eq_false.2 (fun l _ => by simp [h2 l])]
  rfl

theorem inOrder_none (s : State) (k : Nat) (h : (s.ctx k).late = []) : s.inOrder k = s := by
  unfold State.inOrder
  rw [h]
  rfl

theorem owesLate_none (s : State) (k : Nat) (h : (s.ctx k).late = []) : s.owesLate k = false := by
  unfold State.owesLate
  rw [h]
  rfl

/-- An access that the device does not put off, of a context that has no other put off, has its point in T at once where nothing holds it
back. -/
theorem access_now {s r : State} (us : List URef) (now later : State → SlotResult) (hd : s.delays = false)
    (hl : (s.ctx s.cur.ctx).late = []) (hr : s.ready s.cur.ctx s.nextId us = (r, true)) : access s us now later = now r := by
  unfold access
  rw [if_neg (by rw [hd]; simp), inOrder_none s _ hl]
  dsimp only
  rw [if_neg (by rw [owesLate_none s _ hl]; simp), hr]
  rfl

/-- An access that the device puts off joins those whose points in T are still to come. -/
theorem access_later {s : State} (us : List URef) (now later : State → SlotResult) (hd : s.delays = true) :
    access s us now later = later s := by
  unfold access
  rw [if_pos hd]

/-- An access that something holds back joins those whose points in T are still to come. -/
theorem access_held {s r : State} (us : List URef) (now later : State → SlotResult) (hd : s.delays = false)
    (hl : (s.ctx s.cur.ctx).late = []) (hr : s.ready s.cur.ctx s.nextId us = (r, false)) : access s us now later = later r := by
  unfold access
  rw [if_neg (by rw [hd]; simp), inOrder_none s _ hl]
  dsimp only
  rw [if_neg (by rw [owesLate_none s _ hl]; simp), hr]
  rfl

/-- A step that must stand in place is made where nothing holds it back, and else its bundle stands before it. -/
theorem inPlace_eq {s r : State} {b : Bool} (us : List URef) (k : State → SlotResult) (hl : (s.ctx s.cur.ctx).late = [])
    (hr : s.ready s.cur.ctx s.nextId us = (r, b)) : inPlace s us k = if b then k r else .apart r := by
  unfold inPlace
  rw [inOrder_none s _ hl]
  dsimp only
  rw [if_neg (by rw [owesLate_none s _ hl]; simp), hr]

/-! ### Loads -/

theorem getElem?_flatMap8 {α : Type} (xs : List α) (g : α → List Byte) (hg : ∀ x, (g x).length = 8) (i : Nat) :
    (xs.flatMap g)[i]? = (xs[i / 8]?).bind fun x => (g x)[i % 8]? := by
  induction xs generalizing i with
  | nil => simp
  | cons x r ih =>
    rw [List.flatMap_cons]
    by_cases h : i < 8
    · rw [List.getElem?_append_left (by rw [hg]; exact h), Nat.div_eq_of_lt h, Nat.mod_eq_of_lt h]; rfl
    · rw [List.getElem?_append_right (by rw [hg]; omega), hg, ih]
      have h1 : i / 8 = (i - 8) / 8 + 1 := by omega
      have h2 : i % 8 = (i - 8) % 8 := by omega
      rw [h1, h2]; rfl

theorem getElem?_leBytes8 (x : Word) (j : Nat) (hj : j < 8) : (leBytes 8 x.toNat)[j]? = some (x.extractLsb' (8 * j) 8) := by
  simp only [leBytes, List.getElem?_map, List.getElem?_range hj, Option.map_some, Option.some.injEq]
  apply BitVec.eq_of_toNat_eq
  simp [BitVec.extractLsb'_toNat]

theorem unitsOf_getElem (va n j : Nat) (h : j < n) : (unitsOf va n)[(va % 8 + j) / 8]? = some ((va + j) / 8) := by
  unfold unitsOf
  rw [if_neg (by omega), List.getElem?_map, List.getElem?_range (by omega)]
  simp only [Option.map_some, Option.some.injEq]
  omega

/-- The bytes of a load, and its poison, out of the units that it touches, are those seen at its addresses. -/
theorem unitBytes_seen (r : State) (k : Nat) (ps : List Page) (va n : Nat) :
    unitBytes va n ((urefs ps va n).map fun u => r.unitSeen k u.sc u.pu) = r.seenBytes k ps va n := by
  have hseen : ∀ a, r.seenAt k (placeIn ps a).2 (placeIn ps a).1 =
      ((r.unitSeen k (unitIn ps (a / 8)).sc (unitIn ps (a / 8)).pu).1.extractLsb' (8 * (a % 8)) 8,
       (r.unitSeen k (unitIn ps (a / 8)).sc (unitIn ps (a / 8)).pu).2) := by
    intro a
    rw [placeIn_eq, seenAt_unit]
    simp only [show ∀ p q : Nat, (8 * p + q % 8) / 8 = p by intro p q; omega, show ∀ p q : Nat, (8 * p + q % 8) % 8 = q % 8 by intro p q; omega]
  rw [urefs_eq]
  unfold unitBytes State.seenBytes
  dsimp only
  refine Prod.ext ?_ ?_
  · apply List.ext_getElem?
    intro j
    simp only [List.map_map]
    by_cases hj : j < n
    · rw [List.getElem?_take_of_lt hj, List.getElem?_drop, getElem?_flatMap8 _ _ (fun _ => leBytes_length _ _), List.getElem?_map,
        unitsOf_getElem va n j hj, List.getElem?_map, List.getElem?_range hj]
      simp only [Option.map_some, Option.bind_some, Function.comp]
      rw [getElem?_leBytes8 _ _ (by omega), hseen, show (va % 8 + j) % 8 = (va + j) % 8 by omega]
    · rw [List.getElem?_eq_none (by simp; omega), List.getElem?_eq_none (by simp; omega)]
  · rw [Bool.eq_iff_iff]
    simp only [List.any_map, List.any_eq_true, List.mem_range, Function.comp]
    constructor
    · rintro ⟨u, hu, hp⟩
      obtain ⟨b, h1, h2, h3⟩ := unitsOf_touch.1 hu
      refine ⟨b - va, by omega, ?_⟩
      rw [hseen, show va + (b - va) = b by omega, h3]
      exact hp
    · rintro ⟨j, hj, hp⟩
      refine ⟨(va + j) / 8, unitsOf_touch.2 ⟨va + j, by omega, by omega, rfl⟩, ?_⟩
      rw [hseen] at hp
      exact hp

/-- What a load at its point in T that misses nothing answers and leaves. -/
theorem loadNow_spec (r : State) (k : Nat) (ps : List Page) (va n : Nat) (form : LoadForm) (spec : Bool) :
    ∃ t, r.loadNow k false (urefs ps va n) va n form spec =
        (let p := form.landed va n (urefs ps va n) ((urefs ps va n).map fun u => r.unitSeen k u.sc u.pu)
         (t.countPoison k (spec && p.2), p.1)) ∧
      MemOnly r t ∧ t.mem = r.mem ∧ t.spoiled = r.spoiled ∧ ∀ j sc pa, t.seenAt j sc pa = r.seenAt j sc pa := by
  obtain ⟨h1, h2, h3, h3', h4⟩ := readUnits_spec r k (urefs ps va n)
  refine ⟨(r.readUnits k false (urefs ps va n)).1, ?_, h2, h3, h3', fun j sc pa => ?_⟩
  · unfold State.loadNow
    dsimp only
    rw [h1]
  · rw [seenAt_unit, seenAt_unit, h4]

/-- What a scalar or a vector load lands as, of the units seen (R171). -/
theorem landed_scalar (r : State) (k : Nat) (ps : List Page) (va n : Nat) :
    LoadForm.landed .scalar va n (urefs ps va n) ((urefs ps va n).map fun u => r.unitSeen k u.sc u.pu) =
      (.scalar (loadedS (r.seenBytes k ps va n).1 (r.seenBytes k ps va n).2), (r.seenBytes k ps va n).2) := by
  unfold LoadForm.landed
  rw [unitBytes_seen]

theorem landed_vector (r : State) (k tag : Nat) (ps : List Page) (va n : Nat) :
    LoadForm.landed (.vector tag) va n (urefs ps va n) ((urefs ps va n).map fun u => r.unitSeen k u.sc u.pu) =
      (.vector (loadedV (r.seenBytes k ps va n).1 tag (r.seenBytes k ps va n).2), (r.seenBytes k ps va n).2) := by
  unfold LoadForm.landed
  rw [unitBytes_seen]

/-- The bytes that a step in place reads, and what the read leaves (R302). -/
theorem readUnits_bytes (r : State) (k : Nat) (ps : List Page) (va n : Nat) :
    unitBytes va n (r.readUnits k false (urefs ps va n)).2 = r.seenBytes k ps va n ∧
    MemOnly r (r.readUnits k false (urefs ps va n)).1 ∧ (r.readUnits k false (urefs ps va n)).1.mem = r.mem ∧
    (r.readUnits k false (urefs ps va n)).1.spoiled = r.spoiled ∧
    ∀ j sc pa, (r.readUnits k false (urefs ps va n)).1.seenAt j sc pa = r.seenAt j sc pa := by
  obtain ⟨h1, h2, h3, h3', h4⟩ := readUnits_spec r k (urefs ps va n)
  refine ⟨?_, h2, h3, h3', fun j sc pa => ?_⟩
  · rw [h1, unitBytes_seen]
  · rw [seenAt_unit, seenAt_unit, h4]

/-! ### Stores -/

theorem testBit_maskSum (p : Nat → Bool) (n : Nat) :
    ((List.range n).filter p).foldl (fun m j => m + 2 ^ j) 0 < 2 ^ n ∧
    ∀ i, (((List.range n).filter p).foldl (fun m j => m + 2 ^ j) 0).testBit i = (decide (i < n) && p i) := by
  induction n with
  | zero => exact ⟨by simp, fun i => by simp⟩
  | succ n ih =>
    obtain ⟨h1, h2⟩ := ih
    rw [List.range_succ, List.filter_append, List.foldl_append]
    set m := ((List.range n).filter p).foldl (fun m j => m + 2 ^ j) 0
    by_cases hp : p n = true
    · have e : List.foldl (fun m j => m + 2 ^ j) m (List.filter p [n]) = m + 2 ^ n := by simp [hp]
      rw [e]
      refine ⟨by rw [Nat.pow_succ]; omega, fun i => ?_⟩
      rw [show m + 2 ^ n = 2 ^ n * 1 + m by omega, Nat.testBit_two_pow_mul_add _ h1]
      by_cases hi : i < n
      · rw [if_pos hi, h2]; simp [hi, Nat.lt_succ_of_lt hi]
      · rw [if_neg hi]
        by_cases hin : i = n
        · subst hin; simp [hp]
        · rw [show Nat.testBit 1 (i - n) = false by
            obtain ⟨d, hd⟩ : ∃ d, i - n = d + 1 := ⟨i - n - 1, by omega⟩
            rw [hd, Nat.testBit_succ]; simp]
          simp [show ¬i < n + 1 by omega]
    · have e : List.foldl (fun m j => m + 2 ^ j) m (List.filter p [n]) = m := by simp [hp]
      rw [e]
      refine ⟨by rw [Nat.pow_succ]; omega, fun i => ?_⟩
      rw [h2]
      by_cases hin : i = n
      · subst hin; simp [hp]
      · rw [show decide (i < n) = decide (i < n + 1) by simp; omega]

/-- What a store of bytes at `va` gives to byte `i` of unit `vu`. -/
theorem unitPart_spec (vu va : Nat) (bs : List Byte) (i : Nat) (hi : i < 8) :
    (unitPart vu va bs).1.testBit i = decide (va ≤ 8 * vu + i ∧ 8 * vu + i < va + bs.length) ∧
    (va ≤ 8 * vu + i → (unitPart vu va bs).2.extractLsb' (8 * i) 8 = nth 0 bs (8 * vu + i - va)) := by
  unfold unitPart
  dsimp only
  refine ⟨?_, fun hv => ?_⟩
  · rw [(testBit_maskSum _ 8).2 i]
    simp only [hi, decide_true, Bool.true_and]
    by_cases h1 : va ≤ 8 * vu + i
    · rw [if_pos h1]
      by_cases h2 : 8 * vu + i < va + bs.length
      · rw [List.getElem?_eq_getElem (by omega)]; simp [h1, h2]
      · rw [List.getElem?_eq_none (by omega)]; simp [h2]
    · rw [if_neg h1]; simp [h1]
  · apply BitVec.eq_of_getLsbD_eq
    intro q hq
    rw [BitVec.getLsbD_extractLsb']
    simp only [hq, decide_true, Bool.true_and, BitVec.getLsbD_ofNat]
    rw [testBit_packNat 8 (by omega)]
    have h1 : (8 * i + q) / 8 = i := by omega
    have h2 : (8 * i + q) % 8 = q := by omega
    rw [h1, h2]
    simp only [List.map_map, List.getElem?_map, List.getElem?_range hi, Option.map_some, Option.getD_some, Function.comp,
      show 8 * i + q < 64 by omega, decide_true, Bool.true_and, hv, if_true, nth, BitVec.getLsbD]

theorem unitPart_mask_lt (vu va : Nat) (bs : List Byte) : (unitPart vu va bs).1 < 256 := by
  unfold unitPart
  dsimp only
  exact (testBit_maskSum _ 8).1

/-- A store covers the unit whole just when its mask has every bit. -/
theorem unitPart_whole (vu va : Nat) (bs : List Byte) : (unitPart vu va bs).1 = 255 ↔ va ≤ 8 * vu ∧ 8 * vu + 8 ≤ va + bs.length := by
  constructor
  · intro h
    have h0 := (unitPart_spec vu va bs 0 (by omega)).1
    have h7 := (unitPart_spec vu va bs 7 (by omega)).1
    rw [h] at h0 h7
    have h0' := h0.symm.trans (show Nat.testBit 255 0 = true by decide)
    have h7' := h7.symm.trans (show Nat.testBit 255 7 = true by decide)
    simp only [decide_eq_true_eq] at h0' h7'
    omega
  · intro h
    apply Nat.eq_of_testBit_eq
    intro i
    by_cases hi : i < 8
    · rw [(unitPart_spec vu va bs i hi).1]
      rw [decide_eq_true (by omega)]
      interval_cases i <;> decide
    · have e8 : 2 ^ 8 ≤ 2 ^ i := Nat.pow_le_pow_right (by omega) (by omega)
      have h1 := unitPart_mask_lt vu va bs
      rw [Nat.testBit_lt_two_pow (by omega), Nat.testBit_lt_two_pow (by omega)]

theorem getLsbD_spreadMask (mask i : Nat) (hi : i < 64) : (spreadMask mask).getLsbD i = mask.testBit (i / 8) := by
  unfold spreadMask
  rw [BitVec.getLsbD_ofNat]
  simp only [hi, decide_true, Bool.true_and]
  rw [testBit_packNat 8 (by omega), List.getElem?_map, List.getElem?_range (by omega)]
  simp only [Option.map_some, Option.getD_some]
  by_cases h : mask.testBit (i / 8) = true
  · rw [if_pos h, h]
    have : i % 8 < 8 := by omega
    interval_cases (i % 8) <;> decide
  · rw [if_neg h]; simp only [Bool.not_eq_true] at h; simp [h]

/-- The bytes of a unit after a store of unpoisoned data. -/
theorem unitPut_byte (old : Word × Bool) (mask : Nat) (data : Word) (i : Nat) (hi : i < 8) :
    (unitPut old mask data false).1.extractLsb' (8 * i) 8 =
      if mask.testBit i then data.extractLsb' (8 * i) 8 else old.1.extractLsb' (8 * i) 8 := by
  apply BitVec.eq_of_getLsbD_eq
  intro q hq
  have hb : (unitPut old mask data false).1.getLsbD (8 * i + q) =
      if mask.testBit i then data.getLsbD (8 * i + q) else old.1.getLsbD (8 * i + q) := by
    unfold unitPut maskMerge
    simp only [Bool.false_eq_true, if_false, BitVec.getLsbD_or, BitVec.getLsbD_and, BitVec.getLsbD_not,
      getLsbD_spreadMask mask (8 * i + q) (by omega), show (8 * i + q) / 8 = i by omega, show 8 * i + q < 64 by omega, decide_true, Bool.true_and]
    by_cases h : mask.testBit i = true <;> simp [h]
  by_cases h : mask.testBit i = true
  · rw [if_pos h] at hb ⊢
    simp only [BitVec.getLsbD_extractLsb', hq, decide_true, Bool.true_and, hb]
  · rw [if_neg h] at hb ⊢
    simp only [BitVec.getLsbD_extractLsb', hq, decide_true, Bool.true_and, hb]

/-- The writes of a store's units, each in its own unit. -/
theorem writeUnits_spec (s : State) (k va : Nat) (bs : List Byte) (psn : Bool) (l : List URef) (hd : (l.map URef.pu).Nodup)
    (hp : s.unspoiled) :
    MemOnly s (s.writeUnits k va bs psn l) ∧ (s.writeUnits k va bs psn l).unspoiled ∧
    (∀ r ∈ l, (s.writeUnits k va bs psn l).unitSeen k r.sc r.pu =
      unitPut (s.unitSeen k r.sc r.pu) (unitPart r.vu va bs).1 (unitPart r.vu va bs).2 psn) ∧
    (∀ j sc pu, (∀ r ∈ l, pu ≠ r.pu) → (s.writeUnits k va bs psn l).unitSeen j sc pu = s.unitSeen j sc pu) ∧
    ∀ j sc, ∀ r ∈ l, (s.writeUnits k va bs psn l).unitSeen j sc r.pu = s.unitSeen j sc r.pu ∨
      (s.writeUnits k va bs psn l).unitSeen j sc r.pu =
        unitPut (s.unitSeen j sc r.pu) (unitPart r.vu va bs).1 (unitPart r.vu va bs).2 psn := by
  induction l generalizing s with
  | nil => exact ⟨MemOnly.refl s, hp, by simp, fun _ _ _ _ => rfl, by simp⟩
  | cons r rest ih =>
    obtain ⟨h1, h1', h2, h3, h4⟩ := writeUnit_spec s hp k r (unitPart r.vu va bs).1 (unitPart r.vu va bs).2 psn
    simp only [List.map_cons, List.nodup_cons, List.mem_map, not_exists, not_and] at hd
    obtain ⟨g1, g1', g2, g3, g4⟩ := ih (s.writeUnit k r (unitPart r.vu va bs).1 (unitPart r.vu va bs).2 psn) hd.2 h1'
    have hne : ∀ x ∈ rest, r.pu ≠ x.pu := fun x hx h => hd.1 x hx h.symm
    refine ⟨h1.trans g1, g1', ?_, ?_, ?_⟩
    · intro x hx
      simp only [List.mem_cons] at hx
      rcases hx with rfl | hx
      · simp only [State.writeUnits]
        rw [g3 _ _ _ hne, h2]
      · simp only [State.writeUnits]
        rw [g2 x hx, h3 _ _ _ (hd.1 x hx)]
    · intro j sc pu hp
      simp only [State.writeUnits]
      rw [g3 _ _ _ (fun x hx => hp x (by simp [hx])), h3 _ _ _ (hp r (by simp))]
    · intro j sc x hx
      simp only [List.mem_cons] at hx
      simp only [State.writeUnits]
      rcases hx with rfl | hx
      · rw [g3 _ _ _ hne]; exact h4 j sc
      · rw [← h3 j sc x.pu (hd.1 x hx)]; exact g4 j sc x hx

/-- The context after the pages of a store are noted. -/
def Ctx.noted (c : Ctx) (l : List (Nat × Nat)) : Ctx := { c with arch := { c.arch with wrote := l } }

theorem noteWrite_spec (s : State) (k : Nat) (ps : List Page) (va n : Nat) :
    ∃ l, (s.noteWrite k ps va n).ctx k = (s.ctx k).noted l ∧ (∀ j, j ≠ k → (s.noteWrite k ps va n).ctx j = s.ctx j) ∧
      s.noteWrite k ps va n = { s with ctxs := (s.noteWrite k ps va n).ctxs } := by
  unfold State.noteWrite
  dsimp only
  split
  · exact ⟨(s.ctx k).arch.wrote, rfl, fun _ _ => rfl, rfl⟩
  · exact ⟨_, ctx_setCtx_same _ _ _, fun j hj => ctx_setCtx_other _ _ hj, rfl⟩

/-- What the writes of a store's units leave, byte by byte (R172). -/
theorem writeUnits_stored (r : State) (k : Nat) (ps : List Page) (va : Nat) (bs : List Byte) (psn : Bool) (hn : bs.length < 65528)
    (hsp : r.unspoiled) :
    MemOnly r (r.writeUnits k va bs psn (urefs ps va bs.length)) ∧
    StoredAt r (r.writeUnits k va bs psn (urefs ps va bs.length)) k ps va bs psn := by
  rw [urefs_eq]
  have hd := (unitIn_locator ps).nodup va bs.length hn
  obtain ⟨h1, -, h2, h3, h4⟩ := writeUnits_spec r k va bs psn _ hd hsp
  generalize r.writeUnits k va bs psn ((unitsOf va bs.length).map (unitIn ps)) = t at *
  have hvu := (unitIn_locator ps).vu
  have hat : ∀ j, placeIn ps (va + j) = (8 * (unitIn ps ((va + j) / 8)).pu + (va + j) % 8, (unitIn ps ((va + j) / 8)).sc) :=
    fun j => placeIn_eq ps _
  have hmem : ∀ j, j < bs.length → unitIn ps ((va + j) / 8) ∈ (unitsOf va bs.length).map (unitIn ps) := fun j hj =>
    List.mem_map_of_mem (unitsOf_touch.2 ⟨va + j, by omega, by omega, rfl⟩)
  have e1 : ∀ p q : Nat, (8 * p + q % 8) / 8 = p := by intro p q; omega
  have e2 : ∀ p q : Nat, (8 * p + q % 8) % 8 = q % 8 := by intro p q; omega
  have hown : ∀ j, j < bs.length → t.seenAt k (placeIn ps (va + j)).2 (placeIn ps (va + j)).1 =
      (let x := unitPut (r.unitSeen k (unitIn ps ((va + j) / 8)).sc (unitIn ps ((va + j) / 8)).pu)
          (unitPart ((va + j) / 8) va bs).1 (unitPart ((va + j) / 8) va bs).2 psn
       (x.1.extractLsb' (8 * ((va + j) % 8)) 8, x.2)) := by
    intro j hj
    rw [hat, seenAt_unit, e1, e2, h2 _ (hmem j hj), hvu]
  refine ⟨h1, fun hp => ⟨fun j hj => ?_, ?_⟩, fun hp => ⟨fun j hj => ?_, ?_⟩⟩
  · have hs := unitPart_spec ((va + j) / 8) va bs ((va + j) % 8) (by omega)
    rw [hown j hj, hp]
    dsimp only
    refine ⟨?_, ?_⟩
    · rw [unitPut_byte _ _ _ _ (by omega), hs.1, if_pos (by simp; omega), hs.2 (by omega)]
      congr 1; omega
    · rw [hat, seenAt_unit, e1]
      unfold unitPut
      simp only [Bool.false_eq_true, if_false]
      have hw := unitPart_whole ((va + j) / 8) va bs
      by_cases hx : (unitPart ((va + j) / 8) va bs).1 = 255
      · rw [if_pos hx]
        have := hw.1 hx
        simp only [Bool.false_eq_true, false_iff, not_and]
        intro _; omega
      · rw [if_neg hx]
        have : ¬(va ≤ 8 * ((va + j) / 8) ∧ 8 * ((va + j) / 8) + 8 ≤ va + bs.length) := fun h => hx (hw.2 h)
        constructor
        · intro h; exact ⟨h, fun h' => this (by omega)⟩
        · exact fun h => h.1
  · intro j sc pa hpa
    rw [seenAt_unit, seenAt_unit]
    by_cases hin : ∃ x ∈ (unitsOf va bs.length).map (unitIn ps), pa / 8 = x.pu
    · obtain ⟨x, hx, hxp⟩ := hin
      obtain ⟨u, hu, rfl⟩ := List.mem_map.1 hx
      rw [hxp]
      rcases h4 j sc _ hx with h | h
      · rw [h]
      · rw [h, hvu, hp]
        have hs := unitPart_spec u va bs (pa % 8) (by omega)
        have hnot : ¬(va ≤ 8 * u + pa % 8 ∧ 8 * u + pa % 8 < va + bs.length) := by
          intro hh
          apply hpa
          refine ⟨8 * u + pa % 8 - va, by omega, ?_⟩
          show pa = (placeIn ps (va + (8 * u + pa % 8 - va))).1
          rw [hat, show va + (8 * u + pa % 8 - va) = 8 * u + pa % 8 by omega]
          simp only [show (8 * u + pa % 8) / 8 = u by omega, show (8 * u + pa % 8) % 8 = pa % 8 by omega, ← hxp]
          omega
        refine Prod.ext ?_ ?_
        · show (unitPut _ _ _ _).1.extractLsb' _ 8 = _
          rw [unitPut_byte _ _ _ _ (by omega), hs.1, if_neg (by simpa using hnot)]
        · have : (unitPart u va bs).1 ≠ 255 := fun h => hnot (by have := (unitPart_whole u va bs).1 h; omega)
          unfold unitPut
          simp only [Bool.false_eq_true, if_false, if_neg this]
    · rw [h3 j sc _ (fun x hx h => hin ⟨x, hx, h⟩)]
  · rw [hown j hj, hp]
    unfold unitPut
    simp only [if_true, Prod.mk.injEq, and_true]
    apply BitVec.eq_of_getLsbD_eq
    intro i hi; simp
  · intro j sc pa hpa
    rw [seenAt_unit, seenAt_unit]
    rw [h3 j sc _ (fun x hx h => ?_)]
    obtain ⟨u, hu, rfl⟩ := List.mem_map.1 hx
    obtain ⟨b, b1, b2, b3⟩ := unitsOf_touch.1 hu
    apply hpa
    refine ⟨b - va, by omega, ?_⟩
    show pa / 8 = (placeIn ps (va + (b - va))).1 / 8
    rw [hat, show va + (b - va) = b by omega, e1, b3]
    exact h

/-- A store of bytes on some pages at its point in T, with its pages noted (R172, R292). -/
def State.storedNow (r : State) (k : Nat) (ps : List Page) (va : Nat) (bs : List Byte) (psn : Bool) : State :=
  (r.noteWrite k ps va bs.length).writeUnits k va bs psn (urefs ps va bs.length)

/-- What a store that nothing holds back leaves. -/
theorem storedNow_spec (r : State) (k : Nat) (ps : List Page) (va : Nat) (bs : List Byte) (psn : Bool) (hn : bs.length < 65528)
    (hsp : r.unspoiled) :
    ∃ l, StoredAt r (r.storedNow k ps va bs psn) k ps va bs psn ∧
      (r.storedNow k ps va bs psn).ctx k = (r.ctx k).noted l ∧
      (∀ j, j ≠ k → (r.storedNow k ps va bs psn).ctx j = r.ctx j) ∧
      r.storedNow k ps va bs psn = { r with
        mem := (r.storedNow k ps va bs psn).mem, cores := (r.storedNow k ps va bs psn).cores
        ctxs := (r.storedNow k ps va bs psn).ctxs, hidden := (r.storedNow k ps va bs psn).hidden
        spoiled := (r.storedNow k ps va bs psn).spoiled } ∧
      ∀ c, (r.storedNow k ps va bs psn).core c = { r.core c with l1 := ((r.storedNow k ps va bs psn).core c).l1 } := by
  obtain ⟨l, n1, n2, n3⟩ := noteWrite_spec r k ps va bs.length
  obtain ⟨w1, w2⟩ := writeUnits_stored (r.noteWrite k ps va bs.length) k ps va bs psn hn (by rw [n3]; exact hsp)
  unfold State.storedNow
  refine ⟨l, ?_, ?_, ?_, ?_, ?_⟩
  · have hsee : ∀ j sc pa, (r.noteWrite k ps va bs.length).seenAt j sc pa = r.seenAt j sc pa := by
      intro j sc pa
      rw [seenAt_unit, seenAt_unit]
      rw [unitSeen_congr (s := r)]
      · intro j
        by_cases hk : j = k
        · subst hk; rw [n1]; exact ⟨rfl, rfl⟩
        · rw [n2 j hk]; exact ⟨rfl, rfl⟩
      · intro c pu; rw [n3]; rfl
      · rw [n3]
      · rw [n3]
    unfold StoredAt StandsBut at w2 ⊢
    simp only [hsee] at w2
    exact w2
  · rw [w1.ctx, n1]
  · intro j hj; rw [w1.ctx, n2 j hj]
  · rw [w1.1]; simp only; rw [n3]
  · intro c; rw [w1.2 c]; simp only; rw [n3]; rfl

/-! ### The checks of an access -/

/-- WATCH is taken just when a watch register matches (R356). -/
theorem watching_eq (s : State) (l : List (Nat × Nat)) (rd wr : Bool) (k : SlotResult) :
    watching s l rd wr k = match s.watchHit l rd wr with | some w => .trap s trWatch w | none => k := by
  unfold watching State.watchHit
  by_cases h : s.me.unwatched = some s.cur.slot
  · rw [if_pos h, if_pos h]
  · rw [if_neg h, if_neg h]
    all_goals (cases watchFrom s.arch l rd wr 4 0 <;> rfl)

/-- An access that passes its checks lies on pages of the slot's runs. -/
theorem mapped_of_check (s : State) (core : Nat) (ps : List Page) (e : BitVec 128) (off : Int) (n align : Nat) (write : Bool)
    (h : s.checkExt core ps e off n align write = 0) : ∀ p ∈ pagesOf (extBase e + off.toNat) n, (pageOf ps p).isSome = true := by
  intro p hp
  unfold State.checkExt at h
  dsimp only at h
  by_contra hn
  simp only [Bool.not_eq_true, Option.isSome_eq_false_iff] at hn
  split at h
  · exact absurd h (by decide)
  · split at h
    · exact absurd h (by decide)
    · split at h
      · exact absurd h (by decide)
      · split at h
        · exact absurd h (by decide)
        · rw [if_pos] at h
          · exact absurd h (by decide)
          · simp only [List.any_map, List.any_eq_true]
            exact ⟨p, hp, by simpa [Option.isNone_iff_eq_none] using hn⟩

end Sys2Proof.Machine
end

