-- ==== Sys2Proof/Laws/Agents.lean ====
section
/-! SUPPORT. What the device and the engines read and write where no update-only line holds an update. -/

namespace Sys2Proof.Machine

/-- A byte that the device may reach: its page has a translation to an address that is backed. -/
def State.reached (s : State) (asid va : Nat) : Prop :=
  ∃ l, s.translate asid (va / 65536 * 65536) = some l ∧ s.part.backed l.pa = true

/-- Checks in order of which none fails: each is met, and so is what stands at their end. -/
theorem find?_ok (l : List Nat) (e : Nat) (h : (match l.find? (· != stOk) with | some c => c | none => e) = 0) :
    (∀ c ∈ l, c = 0) ∧ e = 0 := by
  cases hf : l.find? (· != stOk) with
  | none =>
    rw [hf] at h
    refine ⟨fun c hc => ?_, h⟩
    by_contra hne
    exact hne (by simpa [stOk] using List.find?_eq_none.1 hf c hc)
  | some d =>
    rw [hf] at h
    have := List.find?_some hf
    simp only at h
    subst h
    exact absurd this (by decide)

theorem reached_of_check {s : State} {asid va n : Nat} {w : Bool} (h : s.deviceCheck asid va n w = 0) (j : Nat) (hj : j < n) :
    s.reached asid (va + j) := by
  unfold State.deviceCheck at h
  dsimp only at h
  obtain ⟨hc, he⟩ := find?_ok _ _ h
  have hr : va + n ≤ 2 ^ 55 := by
    by_contra hn
    rw [if_neg hn] at he
    exact absurd he (by decide)
  have hp : (va + j) / 65536 ∈ pagesOf va (min n (2 ^ 55 - va)) := by
    rw [Nat.min_eq_left (by omega)]
    exact mem_pagesOf.2 ⟨by omega, by omega, by omega⟩
  have := hc _ (List.mem_map_of_mem hp)
  unfold State.reached
  revert this
  cases ht : s.translate asid ((va + j) / 65536 * 65536) with
  | none => intro h; simp [stExtent] at h
  | some l =>
    simp only
    intro h
    refine ⟨l, rfl, ?_⟩
    by_contra hb
    simp only [Bool.not_eq_true] at hb
    rw [hb] at h
    simp [stExtent] at h

theorem backed_page {p : Part} {pa o : Nat} (h : p.backed pa = true) (hp : pa % 65536 = 0) (ho : o < 65536) : p.backed (pa + o) = true := by
  unfold Part.backed deepBase at h ⊢
  simp only [Bool.or_eq_true, Bool.and_eq_true, decide_eq_true_eq] at h ⊢
  omega

/-- The unit of a byte that the device reaches. -/
theorem uref_reached {s : State} {asid va : Nat} (h : s.reached asid va) : s.uref asid (va / 8) = some (s.urefOf asid (va / 8)) := by
  obtain ⟨l, hl, hb⟩ := h
  have hp := translate_page s asid (va / 65536 * 65536) (8 * (va / 8) - va / 65536 * 65536) (by omega) (by omega)
  have ha := translate_pa s asid (va / 65536 * 65536) (by omega) l hl
  rw [show va / 65536 * 65536 + (8 * (va / 8) - va / 65536 * 65536) = 8 * (va / 8) by omega, hl] at hp
  unfold State.uref State.urefOf
  rw [hp, show va / 8 / 8192 = va / 65536 by omega, hl]
  simp only [Option.map_some]
  rw [backed_page hb ha (by omega), if_pos rfl]
  simp only [Option.some.injEq, URef.mk.injEq, true_and]
  refine ⟨by omega, rfl, rfl⟩

theorem place_reached {s : State} {asid va : Nat} (h : s.reached asid va) :
    (s.placeOf asid va).1 = 8 * (s.urefOf asid (va / 8)).pu + va % 8 := by
  obtain ⟨l, hl, _⟩ := h
  rw [urefOf_place s asid va (by rw [hl]; rfl)]

theorem agentUnit_plain (s : State) (h : s.plain) (b : Nat × Nat) (r : Option URef) :
    ∃ l, s.agentUnit b [] r = ({ s with hidden := l }, match r with | some r => s.unit r.pu | none => (0, true)) := by
  unfold State.agentUnit
  cases r with
  | none => exact ⟨s.hidden, rfl⟩
  | some r =>
    simp only
    rw [touchLine_quiet s h]
    unfold State.engineUnit
    rw [List.any_nil, glance_new]
    exact ⟨_, rfl⟩

theorem agentUnits_plain (b : Nat × Nat) (us : List (Option URef)) (s : State) (h : s.plain) :
    ∃ l, s.agentUnits b [] us = ({ s with hidden := l },
      us.map fun r => match r with | some r => s.unit r.pu | none => (0, true)) := by
  induction us generalizing s with
  | nil => exact ⟨s.hidden, rfl⟩
  | cons u r ih =>
    obtain ⟨l, hl⟩ := agentUnit_plain s h b u
    obtain ⟨l', hl'⟩ := ih { s with hidden := l } h
    refine ⟨l', ?_⟩
    unfold State.agentUnits
    rw [hl]
    simp only [hl', List.map_cons]
    rfl

/-- A read of the device: the bytes that memory holds at the range's places, with their poison. -/
theorem agentRead_plain (s : State) (h : s.plain) (asid va n : Nat) (hr : ∀ j, j < n → s.reached asid (va + j)) :
    ∃ l, s.agentRead asid va n = ({ s with hidden := l }, s.memBytes asid va n) := by
  obtain ⟨l, hl⟩ := agentUnits_plain (3, 0) ((unitsOf va n).map (s.uref asid)) s h
  refine ⟨l, ?_⟩
  unfold State.agentRead
  rw [hl, List.map_map]
  refine Prod.ext rfl ?_
  have hg : ∀ j, j < n → (unitsOf va n)[(va % 8 + j) / 8]? = some ((va + j) / 8) := fun j hj => unitsOf_getElem va n j hj
  have hu := fun j hj => uref_reached (hr j hj)
  have hp := fun j hj => place_reached (hr j hj)
  unfold spreadUnits State.memBytes
  refine Prod.ext ?_ ?_
  · apply List.ext_getElem?
    intro j
    by_cases hj : j < n
    · simp only
      rw [List.getElem?_take_of_lt hj, List.getElem?_drop, getElem?_flatMap8 _ _ (fun _ => leBytes_length _ _), List.getElem?_map,
        hg j hj, List.getElem?_map, List.getElem?_range hj]
      simp only [Option.map_some, Option.bind_some, Function.comp]
      rw [hu j hj, getElem?_leBytes8 _ _ (by omega), hp j hj]
      simp only [Option.some.injEq]
      rw [unit_extract _ _ _ (by omega)]
      congr 1; omega
    · rw [List.getElem?_eq_none (by simp; omega), List.getElem?_eq_none (by simp; omega)]
  · apply List.ext_getElem?
    intro j
    by_cases hj : j < n
    · simp only
      rw [List.getElem?_take_of_lt hj, List.getElem?_drop]
      have : ∀ (xs : List (Word × Bool)) (i : Nat), (xs.flatMap fun x => List.replicate 8 x.2)[i]? =
          (xs[i / 8]?).map fun x => x.2 := by
        intro xs
        induction xs with
        | nil => simp
        | cons x r ih =>
          intro i
          rw [List.flatMap_cons]
          by_cases h8 : i < 8
          · rw [List.getElem?_append_left (by simpa using h8), Nat.div_eq_of_lt h8]
            interval_cases i <;> rfl
          · rw [List.getElem?_append_right (by simpa using h8), ih]
            simp only [List.length_replicate]
            rw [show i / 8 = (i - 8) / 8 + 1 by omega]; rfl
      rw [this, List.getElem?_map, hg j hj, List.getElem?_map, List.getElem?_range hj]
      simp only [Option.map_some, Function.comp]
      rw [hu j hj, hp j hj]
      simp only [unit_mark, Option.some.injEq]
      congr 1; omega
    · rw [List.getElem?_eq_none (by simp; omega), List.getElem?_eq_none (by simp; omega)]

/-- Where no update-only line holds an update and no merge is in flight, the device's accesses wait for none (R319). -/
theorem clears_none (s : State) (l : List (Nat × Nat × Nat)) (h : s.mergesNone = true) : s.clears l = (s, true) := by
  unfold State.clears
  rw [if_pos h]

/-! ### Writes -/

theorem unitPoison_nil (vu va : Nat) : unitPoison vu va [] = false := by
  unfold unitPoison
  rw [List.any_eq_false]
  intro j _
  simp

theorem hiding_eq (t s : State) (a : Nat × Nat) (pus : List Nat) : ∃ l, t.hiding s a pus = { t with hidden := l } := by
  unfold State.hiding
  split
  · exact ⟨t.hidden, rfl⟩
  · exact ⟨_, rfl⟩

theorem engineSet_plain (s : State) (a : Nat × Nat) (pu mask : Nat) (data : Word) :
    ∃ l m sp, s.engineSet a pu mask data false = { s with mem := m, hidden := l, spoiled := sp } ∧
      (∀ p, ({ s with mem := m } : State).unit p = if p = pu then unitPut (s.unit pu) mask data false else s.unit p) := by
  unfold State.engineSet
  obtain ⟨l, hl⟩ := hiding_eq (s.setUnit pu (unitPut (s.unit pu) mask data false)) s a [pu]
  rw [hl]
  exact ⟨l, (s.setUnit pu (unitPut (s.unit pu) mask data false)).mem, _, rfl,
    fun p => unit_setUnit s pu p (unitPut (s.unit pu) mask data false)⟩

theorem agentPut_plain (b : Nat × Nat) (va : Nat) (bs : List Byte) (us : List URef) (hd : (us.map URef.pu).Nodup) (s : State) (h : s.plain) :
    ∃ l m sp, s.agentPut b va bs [] (us.map fun r => (r.vu, some r)) = { s with mem := m, hidden := l, spoiled := sp } ∧
      (∀ r ∈ us, ({ s with mem := m } : State).unit r.pu = unitPut (s.unit r.pu) (unitPart r.vu va bs).1 (unitPart r.vu va bs).2 false) ∧
      ∀ p, (∀ r ∈ us, p ≠ r.pu) → ({ s with mem := m } : State).unit p = s.unit p := by
  induction us generalizing s with
  | nil => exact ⟨s.hidden, s.mem, s.spoiled, rfl, by simp, fun _ _ => rfl⟩
  | cons r rest ih =>
    simp only [List.map_cons, List.nodup_cons, List.mem_map, not_exists, not_and] at hd
    obtain ⟨l, m, sp, e1, e2⟩ := engineSet_plain s b r.pu (unitPart r.vu va bs).1 (unitPart r.vu va bs).2
    obtain ⟨l', m', sp', f1, f2, f3⟩ := ih hd.2 { s with mem := m, hidden := l, spoiled := sp } h
    refine ⟨l', m', sp', ?_, ?_, ?_⟩
    · simp only [List.map_cons]
      unfold State.agentPut State.agentSet
      simp only [unitPoison_nil]
      rw [touchLine_quiet s h, e1, f1]
    · intro x hx
      simp only [List.mem_cons] at hx
      rcases hx with rfl | hx
      · have := f3 x.pu (fun y hy hh => hd.1 y hy hh.symm)
        have e := e2 x.pu
        rw [if_pos rfl] at e
        exact this.trans e
      · have := f2 x hx
        have e := e2 x.pu
        rw [if_neg (hd.1 x hx)] at e
        exact this.trans (by rw [← e]; rfl)
    · intro p hp
      have := f3 p (fun y hy => hp y (by simp [hy]))
      have e := e2 p
      rw [if_neg (hp r (by simp))] at e
      exact this.trans e

theorem mem_byte_unit (s : State) (a : Nat) : s.mem.byte a = (s.unit (a / 8)).1.extractLsb' (8 * (a % 8)) 8 := by
  rw [unit_extract _ _ _ (by omega)]; congr 1; omega

/-- A write of unpoisoned bytes by the device. -/
theorem agentWrite_plain (s : State) (h : s.plain) (asid va : Nat) (bs : List Byte) (hn : bs.length < 65528)
    (hr : ∀ j, j < bs.length → s.reached asid (va + j)) : MemStored s (s.agentWrite asid va bs []) asid va bs := by
  have hd := (urefOf_locator s asid).nodup va bs.length hn
  have hvu := (urefOf_locator s asid).vu
  have hlist : (unitsOf va bs.length).map (fun vu => (vu, s.uref asid vu)) =
      ((unitsOf va bs.length).map (s.urefOf asid)).map fun r => (r.vu, some r) := by
    rw [List.map_map]
    apply List.map_congr_left
    intro u hu
    obtain ⟨b, b1, b2, b3⟩ := unitsOf_touch.1 hu
    have := uref_reached (hr (b - va) (by omega))
    rw [show va + (b - va) = b by omega, b3] at this
    simp only [Function.comp, hvu, this]
  obtain ⟨l, m, sp, e1, e2, e3⟩ := agentPut_plain (3, 0) va bs _ hd s h
  have hw : s.agentWrite asid va bs [] = { s with mem := m, hidden := l, spoiled := sp } := by
    unfold State.agentWrite; rw [hlist]; exact e1
  have hmb : ∀ a, m.byte a = (({ s with mem := m } : State).unit (a / 8)).1.extractLsb' (8 * (a % 8)) 8 := fun a =>
    mem_byte_unit { s with mem := m } a
  have hmk : ∀ u, m.mark u = (({ s with mem := m } : State).unit u).2 := fun u => rfl
  have hat : ∀ j, j < bs.length → (s.placeOf asid (va + j)).1 = 8 * (s.urefOf asid ((va + j) / 8)).pu + (va + j) % 8 :=
    fun j hj => place_reached (hr j hj)
  have hmem : ∀ j, j < bs.length → s.urefOf asid ((va + j) / 8) ∈ (unitsOf va bs.length).map (s.urefOf asid) := fun j hj =>
    List.mem_map_of_mem (unitsOf_touch.2 ⟨va + j, by omega, by omega, rfl⟩)
  unfold MemStored PutAt
  rw [hw]
  refine ⟨rfl, fun j hj => ?_, fun a ha => ?_, fun u => ?_⟩
  · show m.byte (s.placeOf asid (va + j)).1 = _
    rw [hmb, hat j hj]
    simp only [show ∀ p q : Nat, (8 * p + q % 8) / 8 = p by intro p q; omega, show ∀ p q : Nat, (8 * p + q % 8) % 8 = q % 8 by intro p q; omega]
    rw [e2 _ (hmem j hj), hvu]
    have hs := unitPart_spec ((va + j) / 8) va bs ((va + j) % 8) (by omega)
    rw [unitPut_byte _ _ _ _ (by omega), hs.1, if_pos (by simp; omega), hs.2 (by omega)]
    congr 1; omega
  · show m.byte _ = _
    rw [hmb, mem_byte_unit s]
    by_cases hin : ∃ x ∈ (unitsOf va bs.length).map (s.urefOf asid), a / 8 = x.pu
    · obtain ⟨x, hx, hxp⟩ := hin
      obtain ⟨u, hu, rfl⟩ := List.mem_map.1 hx
      rw [hxp, e2 _ hx, hvu]
      have hs := unitPart_spec u va bs (a % 8) (by omega)
      have hnot : ¬(va ≤ 8 * u + a % 8 ∧ 8 * u + a % 8 < va + bs.length) := by
        intro hh
        apply ha (8 * u + a % 8 - va) (by omega)
        show a = (s.placeOf asid (va + (8 * u + a % 8 - va))).1
        rw [hat _ (by omega), show va + (8 * u + a % 8 - va) = 8 * u + a % 8 by omega]
        simp only [show (8 * u + a % 8) / 8 = u by omega, show (8 * u + a % 8) % 8 = a % 8 by omega, ← hxp]
        omega
      rw [unitPut_byte _ _ _ _ (by omega), hs.1, if_neg (by simpa using hnot)]
    · rw [e3 _ (fun x hx h => hin ⟨x, hx, h⟩)]
  · show m.mark u = true ↔ _
    rw [hmk]
    by_cases hin : ∃ x ∈ (unitsOf va bs.length).map (s.urefOf asid), u = x.pu
    · obtain ⟨x, hx, hxp⟩ := hin
      obtain ⟨v, hv, rfl⟩ := List.mem_map.1 hx
      rw [hxp, e2 _ hx, hvu]
      unfold unitPut
      simp only [Bool.false_eq_true, if_false]
      have hwh := unitPart_whole v va bs
      by_cases hx' : (unitPart v va bs).1 = 255
      · rw [if_pos hx']
        have := hwh.1 hx'
        simp only [Bool.false_eq_true, false_iff, not_and, not_not]
        intro _
        refine ⟨8 * v - va, by omega, by omega, ?_⟩
        show (s.placeOf asid (va + (8 * v - va))).1 = _
        rw [hat _ (by omega), show va + (8 * v - va) = 8 * v by omega]
        simp
      · rw [if_neg hx']
        have hno : ¬(va ≤ 8 * v ∧ 8 * v + 8 ≤ va + bs.length) := fun h => hx' (hwh.2 h)
        simp only [unit_mark, iff_self_and]
        rintro _ ⟨j, j1, j2, j3⟩
        replace j3 : (s.placeOf asid (va + j)).1 = _ := j3
        rw [hat _ (by omega)] at j3
        have hpu : (s.urefOf asid ((va + j) / 8)).pu = (s.urefOf asid v).pu := by omega
        have := (urefOf_locator s asid).inj hn (unitsOf_touch.2 ⟨va + j, by omega, by omega, rfl⟩) hv hpu
        omega
    · rw [e3 _ (fun x hx h => hin ⟨x, hx, h⟩)]
      simp only [unit_mark, iff_self_and]
      rintro _ ⟨j, j1, j2, j3⟩
      replace j3 : (s.placeOf asid (va + j)).1 = _ := j3
      rw [hat _ (by omega)] at j3
      exact hin ⟨_, hmem j (by omega), by omega⟩

end Sys2Proof.Machine
end

