-- ==== Sys2Proof/Laws/Atomics.lean ====
section
/-! SUPPORT. What an atomic does to its location at its point of execution. -/

namespace Sys2Proof.Machine

theorem dropSpoiled (s : State) (h : s.unspoiled) (f : Nat × Nat → Bool) : { s with spoiled := s.spoiled.filter f } = s := by
  unfold State.unspoiled at h
  rw [h]
  show ({ s with spoiled := [] } : State) = s
  rw [← h]

theorem l1Clean_uncached (s : State) (h : s.uncached) (hp : s.unspoiled) (c pu : Nat) (d : Bool) : s.l1Clean c pu d = s := by
  unfold State.l1Clean
  dsimp only
  rw [dropSpoiled s hp, ite_self, h c pu]
  rfl

theorem foldl_fixed {α β : Type} (l : List β) (g : α → β → α) (a : α) (h : ∀ b ∈ l, g a b = a) : l.foldl g a = a := by
  induction l with
  | nil => rfl
  | cons b r ih => rw [List.foldl_cons, h b (by simp)]; exact ih fun c hc => h c (by simp [hc])

theorem dropLine_uncached (s : State) (h : s.uncached) (hp : s.unspoiled) (core line : Nat) : s.dropLine core line = s := by
  unfold State.dropLine
  refine foldl_fixed _ _ _ fun pu _ => ?_
  unfold State.dropUnit
  rw [l1Clean_uncached s h hp, l1Clean_uncached s h hp]

theorem bypass_uncached (s : State) (h : s.uncached) (hp : s.unspoiled) (k : Nat) (us : List URef) : s.bypass k us = s := by
  unfold State.bypass
  exact foldl_fixed _ _ _ fun line _ => dropLine_uncached s h hp _ _

theorem heldOut_open (s : State) (h : ∀ o ∈ s.openSeqs, o.det = false) (u : Update) : s.heldOut u = false := by
  unfold State.heldOut
  have : (s.openSeqs.any fun q => q.holdsOut u) = false := by
    rw [List.any_eq_false]
    intro q hq
    simp [OpenSeq.holdsOut, h q hq]
  rw [this, Bool.and_false]

/-- An unordered atomic of a context applied with no L1 copy, no log and no replay: the read-modify-write of its location, and its
removal. -/
theorem applyUpdate_spec (s : State) (u : Update) (hc : s.uncached) (hsp : s.unspoiled) (hr : u.info.record = false)
    (hp : u.info.replay = false) (hn : u.n = none) (hcmd : u.cmd = none) (hhi : u.hi = none) (k : Nat) (ho : u.owner = some k) (hret : u.ret = true) :
    s.applyUpdate u =
      (let r := s.applyAt u.unit (u.va % 8) u.op u.fmt u.val u.cmp u.psn
       let t := { r.1 with updates := r.1.updates.filter fun v => v.id != u.id }
       t.setCtx k { t.ctx k with sb := (t.ctx k).sb.map (landUpdate u.id r.2) }) := by
  have e0 : s.openSeq u = s := by unfold State.openSeq Update.ordered; simp [hn]
  have e1 : s.dropLine u.core u.lineOf = s := dropLine_uncached s hc hsp _ _
  have e5 : ∀ t : State, t.applyRmw u = t.applyAt u.unit (u.va % 8) u.op u.fmt u.val u.cmp u.psn := fun t => by
    unfold State.applyRmw; rw [hhi]
  have e2 : ∀ t : State, t.logUpdate u = t := fun t => by unfold State.logUpdate; simp [hr]
  have e3 : ∀ t : State, t.replayDone u = t := fun t => by unfold State.replayDone Update.replays; simp [hp]
  have e4 : ∀ (t : State) b, t.tellCmd none b = t := fun t b => rfl
  unfold State.applyUpdate
  dsimp only
  rw [e0, e1, ite_self]
  simp only [e2, e3, e4, e5, ho, hret, hcmd]

end Sys2Proof.Machine
end

