-- ==== Sys2Proof/Laws/Control.lean ====
section
/-! SUPPORT. Transfers, traps and returns: what each shared operation can do, said once. -/

namespace Sys2Proof.Machine

/-! ### Transfers (R131, R268) -/

/-- A fetch request changes at most the idle half and the fetch counter (R268). -/
theorem request_eq (c : Ctx) (seg : Nat) :
    ∃ halfA halfB n, c.request seg = { c with halfA := halfA, halfB := halfB, arch := { c.arch with fetches := n } } := by
  unfold Ctx.request
  by_cases h1 : c.curHalf.residentIn seg
  · exact ⟨c.halfA, c.halfB, c.arch.fetches, by rw [if_pos h1]⟩
  · rw [if_neg h1]
    by_cases h2 : c.idleHalf.seg = some seg
    · exact ⟨c.halfA, c.halfB, c.arch.fetches, by rw [if_pos h2]⟩
    · rw [if_neg h2]
      unfold Ctx.expand Ctx.setIdle
      cases hc : c.current
      · exact ⟨c.halfA, .expanding seg true, bump c.arch.fetches, by simp⟩
      · exact ⟨.expanding seg true, c.halfB, bump c.arch.fetches, by simp⟩

theorem request_if_eq (b : Bool) (c : Ctx) (seg : Nat) : ∃ halfA halfB n,
    (if b = true then c.request seg else c) = { c with halfA := halfA, halfB := halfB, arch := { c.arch with fetches := n } } := by
  cases b
  · exact ⟨c.halfA, c.halfB, c.arch.fetches, rfl⟩
  · exact request_eq c seg

/-- A taken transfer leaves its redirect (R131); only the loop buffer and the fetch counter may change with it. -/
theorem transfer_spec (s : State) (target : Word) (bad : Bool) :
    OnlyMine s (s.transfer target bad) ∧ ∃ halfA halfB fetches, (s.transfer target bad).me = { s.me with
      halfA := halfA, halfB := halfB
      arch := { s.arch with
        redirect := some { target := target, left := 4, bad := bad, src := s.cur.pc }
        fetches := fetches } } := by
  refine ⟨onlyMine_setMe s _, ?_⟩
  unfold State.transfer
  rw [me_setMe]
  obtain ⟨a, b, n, h⟩ := request_if_eq _ _ (ptrSeg target)
  exact ⟨a, b, n, h⟩

theorem diverts_of (i : Instr) (s : State) (target : Word) (bad : Bool)
    (h : exec i s = .next (s.transfer target bad)) : Diverts i s s.arch target bad :=
  ⟨_, h, (transfer_spec s target bad).1, (transfer_spec s target bad).2⟩

/-- A transfer made after results have been put in flight. -/
theorem diverts_after (i : Instr) (s u : State) (a : Arch) (target : Word) (bad : Bool)
    (h : exec i s = .next (u.transfer target bad)) (hu : Becomes s u a) : Diverts i s a target bad := by
  obtain ⟨h1, x, y, n, h2⟩ := transfer_spec u target bad
  refine ⟨_, h, hu.1.trans h1, x, y, n, ?_⟩
  rw [h2, hu.1.cur_eq, hu.arch_eq, hu.2]

/-! ### Traps (R352) -/

theorem trapEntry_setMe (s : State) (c : Ctx) (cause : Nat) (hv : c.arch.trapvec = s.arch.trapvec)
    (hi : c.arch.info = s.arch.info) : (s.setMe c).trapEntry cause = s.trapEntry cause := by
  unfold State.trapEntry
  rw [arch_setMe, hv, hi]
  rfl

/-- Asking for a fetch leaves everything of a task but the fetch counter. -/
theorem request_arch (c : Ctx) (seg : Nat) : ∃ n, (c.request seg).arch = { c.arch with fetches := n } := by
  obtain ⟨a, b, n, h⟩ := request_eq c seg
  exact ⟨n, by rw [h]⟩

theorem request_window (c : Ctx) (seg : Nat) : (c.request seg).window = c.window := by
  obtain ⟨a, b, n, h⟩ := request_eq c seg
  rw [h]

/-- The trap outside a handler, where the trap table has an entry, as an equation. -/
theorem trapWith_eq (s : State) (unissued : Bool) (r cause info : Nat) (hi : s.arch.csw.getLsbD 3 = false)
    (he : s.trapEntry cause ≠ 0) :
    ∃ c : Ctx, s.trapWith unissued r cause info =
      { s.setMe ({ c with arch := { c.arch with pos := s.trapEntry cause } }.request (ptrSeg (s.trapEntry cause))) with
        cur := { s.cur with open_ := false } } ∧
      c.arch = s.arch.enterTrap s.cur unissued s.me.window.isSome r cause info ∧ c.window = none := by
  unfold State.trapWith
  have hi' : s.arch.csw.getLsbD cswInh = false := hi
  rw [hi']
  simp only [Bool.false_eq_true, if_false]
  set c1 : Ctx := { s.me with
    arch := s.me.arch.enterTrap s.cur unissued s.me.window.isSome r cause info
    window := none, eretReq := false, waitMet := false, unwatched := none } with hc1
  have e : ({ s.setMe c1 with cur := { (s.setMe c1).cur with open_ := false } } : State).trapEntry cause = s.trapEntry cause := by
    have := trapEntry_setMe s c1 cause rfl rfl
    rw [← this]
    unfold State.trapEntry State.readVa
    rfl
  rw [e, if_neg he]
  refine ⟨c1, ?_, rfl, rfl⟩
  have hme : ({ s.setMe c1 with cur := { (s.setMe c1).cur with open_ := false } } : State).me = c1 := me_setMe s c1
  rw [hme]
  have put2 : ∀ (m : FMap Ctx) (k : Nat) (a b : Ctx), put {} (put {} m k a) k b = put {} m k b := fun m k a b => put_put_same _ m k a b
  simp only [State.setMe, State.setCtx, put2]

end Sys2Proof.Machine
end

