-- ==== Sys2Proof/Laws/Decode.lean ====
section
/-! SUPPORT. The slot frame and the forms: an encoded form reads back as itself (spec/04 R87 to R96). -/

set_option linter.unusedSimpArgs false

namespace Sys2Proof

theorem slice_hi {n m : Nat} (x : BitVec n) (y : BitVec m) (a k : Nat) (h : m ≤ a) :
    (x ++ y).extractLsb' a k = x.extractLsb' (a - m) k := by
  apply BitVec.eq_of_getLsbD_eq
  intro i hi
  simp only [BitVec.getLsbD_extractLsb', BitVec.getLsbD_append, hi]
  rw [if_neg (by omega), show a + i - m = a - m + i by omega]

theorem slice_lo {n m : Nat} (x : BitVec n) (y : BitVec m) (a k : Nat) (h : a + k ≤ m) :
    (x ++ y).extractLsb' a k = y.extractLsb' a k := by
  apply BitVec.eq_of_getLsbD_eq
  intro i hi
  simp only [BitVec.getLsbD_extractLsb', BitVec.getLsbD_append, hi]
  rw [if_pos (by omega)]

theorem slice_all {n : Nat} (x : BitVec n) : x.extractLsb' 0 n = x := by
  apply BitVec.eq_of_getLsbD_eq
  intro i hi
  simp [hi]

theorem fOp_frame (op : BitVec 8) (d a b c : BitVec 6) (x : BitVec 32) : fOp (frame op d a b c x) = op := by
  simp (disch := decide) only [fOp, frame, slice_hi, slice_all, Nat.reduceSub]

theorem SR.fOp_toWord (f : SR) (op : BitVec 8) : fOp (f.toWord op) = op := fOp_frame ..

theorem SR.ofWord_toWord (f : SR) (op : BitVec 8) : SR.ofWord (f.toWord op) = f := by
  simp (disch := decide) only [SR.ofWord, SR.toWord, fD, fA, fB, fC, fX, frame, slice_hi, slice_lo, slice_all,
    Nat.reduceSub]
  try simp only [Nat.reduceAdd, Nat.reduceSub, slice_all]

theorem SI.fOp_toWord (f : SI) (op : BitVec 8) : fOp (f.toWord op) = op := fOp_frame ..

theorem SI.ofWord_toWord (f : SI) (op : BitVec 8) : SI.ofWord (f.toWord op) = f := by
  simp (disch := decide) only [SI.ofWord, SI.toWord, fD, fA, fB, fC, fX, frame, slice_hi, slice_lo, slice_all,
    Nat.reduceSub]
  try simp only [Nat.reduceAdd, Nat.reduceSub, slice_all]

theorem SF.fOp_toWord (f : SF) (op : BitVec 8) : fOp (f.toWord op) = op := fOp_frame ..

theorem SF.ofWord_toWord (f : SF) (op : BitVec 8) : SF.ofWord (f.toWord op) = f := by
  simp (disch := decide) only [SF.ofWord, SF.toWord, fD, fA, fB, fC, fX, frame, slice_hi, slice_lo, slice_all,
    Nat.reduceSub]
  try simp only [Nat.reduceAdd, Nat.reduceSub, slice_all]

theorem SB.fOp_toWord (f : SB) (op : BitVec 8) : fOp (f.toWord op) = op := fOp_frame ..

theorem SB.ofWord_toWord (f : SB) (op : BitVec 8) : SB.ofWord (f.toWord op) = f := by
  simp (disch := decide) only [SB.ofWord, SB.toWord, fD, fA, fB, fC, fX, frame, slice_hi, slice_lo, slice_all,
    Nat.reduceSub]
  try simp only [Nat.reduceAdd, Nat.reduceSub, slice_all]

theorem SS.fOp_toWord (f : SS) (op : BitVec 8) : fOp (f.toWord op) = op := fOp_frame ..

theorem SS.ofWord_toWord (f : SS) (op : BitVec 8) : SS.ofWord (f.toWord op) = f := by
  simp (disch := decide) only [SS.ofWord, SS.toWord, fD, fA, fB, fC, fX, frame, slice_hi, slice_lo, slice_all,
    Nat.reduceSub]
  try simp only [Nat.reduceAdd, Nat.reduceSub, slice_all]

theorem VV.fOp_toWord (f : VV) (op : BitVec 8) : fOp (f.toWord op) = op := fOp_frame ..

theorem VV.ofWord_toWord (f : VV) (op : BitVec 8) : VV.ofWord (f.toWord op) = f := by
  simp (disch := decide) only [VV.ofWord, VV.toWord, fD, fA, fB, fC, fX, frame, slice_hi, slice_lo, slice_all,
    Nat.reduceSub]
  try simp only [Nat.reduceAdd, Nat.reduceSub, slice_all]

theorem MP.fOp_toWord (f : MP) (op : BitVec 8) : fOp (f.toWord op) = op := fOp_frame ..

theorem MP.ofWord_toWord (f : MP) (op : BitVec 8) : MP.ofWord (f.toWord op) = f := by
  simp (disch := decide) only [MP.ofWord, MP.toWord, fD, fA, fB, fC, fX, frame, slice_hi, slice_lo, slice_all,
    Nat.reduceSub]
  try simp only [Nat.reduceAdd, Nat.reduceSub, slice_all]

theorem MC.fOp_toWord (f : MC) (op : BitVec 8) : fOp (f.toWord op) = op := fOp_frame ..

theorem MC.ofWord_toWord (f : MC) (op : BitVec 8) : MC.ofWord (f.toWord op) = f := by
  simp (disch := decide) only [MC.ofWord, MC.toWord, fD, fA, fB, fC, fX, frame, slice_hi, slice_lo, slice_all,
    Nat.reduceSub]
  try simp only [Nat.reduceAdd, Nat.reduceSub, slice_all]

theorem CC.fOp_toWord (f : CC) (op : BitVec 8) : fOp (f.toWord op) = op := fOp_frame ..

theorem CC.ofWord_toWord (f : CC) (op : BitVec 8) : CC.ofWord (f.toWord op) = f := by
  simp (disch := decide) only [CC.ofWord, CC.toWord, fD, fA, fB, fC, fX, frame, slice_hi, slice_lo, slice_all,
    Nat.reduceSub]
  try simp only [Nat.reduceAdd, Nat.reduceSub, slice_all]

theorem LM.fOp_toWord (f : LM) (op : BitVec 8) : fOp (f.toWord op) = op := fOp_frame ..

theorem LM.ofWord_toWord (f : LM) (op : BitVec 8) : LM.ofWord (f.toWord op) = f := by
  simp (disch := decide) only [LM.ofWord, LM.toWord, fD, fA, fB, fC, fX, frame, slice_hi, slice_lo, slice_all,
    Nat.reduceSub]
  try simp only [Nat.reduceAdd, Nat.reduceSub, slice_all]

theorem LP.fOp_toWord (f : LP) (op : BitVec 8) : fOp (f.toWord op) = op := fOp_frame ..

theorem LP.ofWord_toWord (f : LP) (op : BitVec 8) : LP.ofWord (f.toWord op) = f := by
  simp (disch := decide) only [LP.ofWord, LP.toWord, fD, fA, fB, fC, fX, frame, slice_hi, slice_lo, slice_all,
    Nat.reduceSub]
  try simp only [Nat.reduceAdd, Nat.reduceSub, slice_all]

theorem LT.fOp_toWord (f : LT) (op : BitVec 8) : fOp (f.toWord op) = op := fOp_frame ..

theorem LT.ofWord_toWord (f : LT) (op : BitVec 8) : LT.ofWord (f.toWord op) = f := by
  simp (disch := decide) only [LT.ofWord, LT.toWord, fD, fA, fB, fC, fX, frame, slice_hi, slice_lo, slice_all,
    Nat.reduceSub]
  try simp only [Nat.reduceAdd, Nat.reduceSub, slice_all]

theorem LX.fOp_toWord (f : LX) (op : BitVec 8) : fOp (f.toWord op) = op := fOp_frame ..

theorem LX.ofWord_toWord (f : LX) (op : BitVec 8) : LX.ofWord (f.toWord op) = f := by
  simp (disch := decide) only [LX.ofWord, LX.toWord, fD, fA, fB, fC, fX, frame, slice_hi, slice_lo, slice_all,
    Nat.reduceSub]
  try simp only [Nat.reduceAdd, Nat.reduceSub, slice_all]

theorem CX.fOp_toWord (f : CX) (op : BitVec 8) : fOp (f.toWord op) = op := fOp_frame ..

theorem CX.ofWord_toWord (f : CX) (op : BitVec 8) : CX.ofWord (f.toWord op) = f := by
  simp (disch := decide) only [CX.ofWord, CX.toWord, fD, fA, fB, fC, fX, frame, slice_hi, slice_lo, slice_all,
    Nat.reduceSub]
  try simp only [Nat.reduceAdd, Nat.reduceSub, slice_all]

theorem chk_nil {b : Bool} {r : Nat} (h : Machine.chk b r = []) : b = true := by
  cases b
  · simp [Machine.chk] at h
  · rfl

end Sys2Proof
end

