-- ==== Sys2Proof/Laws/Endpoint.lean ====
section
/-! SUPPORT. What the command endpoint does with a message: dropped, answered with BADPARAM, or taken up. -/

namespace Sys2Proof.Machine

theorem fldZero_iff (bs : List Byte) (off n : Nat) : fldZero bs off n = true ↔ ∀ j, off ≤ j → j < off + n → nth 0 bs j = 0 := by
  unfold fldZero nth
  rw [List.all_eq_true]
  constructor
  · intro h j h1 h2
    cases hj : bs[j]? with
    | none => rfl
    | some x =>
      have : x ∈ (bs.drop off).take n := by
        rw [List.mem_iff_getElem?]
        refine ⟨j - off, ?_⟩
        rw [List.getElem?_take_of_lt (by omega), List.getElem?_drop, show off + (j - off) = j by omega, hj]
      simpa using h x this
  · intro h x hx
    rw [List.mem_iff_getElem?] at hx
    obtain ⟨i, hi⟩ := hx
    have hin : i < n := by
      by_contra hc
      rw [List.getElem?_eq_none (by simp; omega)] at hi
      simp at hi
    rw [List.getElem?_take_of_lt hin, List.getElem?_drop] at hi
    have := h (off + i) (by omega) (by omega)
    rw [hi] at this
    simpa using this

theorem msgOk_iff (msg : List Byte) : msgOk msg = true ↔ fld msg 0 4 = 0x434D4446 ∧ fld msg 4 2 = 1 ∧
  msg.length = 32 + fld msg 16 4 ∧ fld msg 16 4 ≤ 65504 ∧ ∀ j, 20 ≤ j → j < 32 → nth 0 msg j = 0 := by
  unfold msgOk
  simp only [Bool.and_eq_true, beq_iff_eq, decide_eq_true_eq, fldZero_iff]
  constructor
  · rintro ⟨⟨⟨⟨⟨h1, h2⟩, h3⟩, h4⟩, h5⟩, h6⟩
    exact ⟨h1, h2, h3, h4, fun j a b => if h : j < 24 then h5 j a (by omega) else h6 j (by omega) (by omega)⟩
  · rintro ⟨h1, h2, h3, h4, h5⟩
    exact ⟨⟨⟨⟨⟨h1, h2⟩, h3⟩, h4⟩, fun j a b => h5 j a (by omega)⟩, fun j a b => h5 j (by omega) (by omega)⟩

theorem onEndpoint_drops (s : State) (host : Nat) (msg : List Byte) (op : Nat) (k : List Byte → CmdEnd)
    (h : s.boss.stage ≠ 2 ∨ s.linked = false ∨ s.hostEntry host = none ∨ fld msg 6 2 ≠ op ∨ s.abortAsked host = true) :
    s.onEndpoint host msg op k = s := by
  have hf : s.hears host msg op = false := by
    unfold State.hears
    rcases h with h | h | h | h | h <;> simp [h]
  unfold State.onEndpoint
  rw [hf]
  rfl

theorem hears_of {s : State} {host : Nat} {msg : List Byte} {op : Nat} (h1 : s.boss.stage = 2) (h1' : s.linked = true)
    (h2 : s.hostEntry host ≠ none) (h3 : fld msg 6 2 = op) (h4 : s.abortAsked host = false) : s.hears host msg op = true := by
  unfold State.hears
  simp [h1, h1', h3, h4, Option.isSome_iff_ne_none, h2]

theorem onEndpoint_takes (s : State) (host : Nat) (msg : List Byte) (op : Nat) (k : List Byte → CmdEnd)
    (h : s.takesUp host msg op) :
    s.onEndpoint host msg op k = (k (msg.drop 32)).1.send 0x01 host (endpointMsg op (fld msg 8 8) (k (msg.drop 32)).2.1 (k (msg.drop 32)).2.2.1 (k (msg.drop 32)).2.2.2) := by
  obtain ⟨h1, h1', h2, h3, h4, h5, h6, h7, h8, h9⟩ := h
  unfold State.onEndpoint
  rw [hears_of h1 h1' h2 h3 h9]
  have := (msgOk_iff msg).2 ⟨h4, h5, h6, h7, h8⟩
  simp only [this, if_true, Bool.not_true, Bool.false_eq_true, if_false]

theorem msgOk_of_rejected {s : State} {host : Nat} {msg : List Byte} {op : Nat} (h1 : s.boss.stage = 2) (h1' : s.linked = true)
    (h2 : s.hostEntry host ≠ none) (h3 : fld msg 6 2 = op) (h4 : s.abortAsked host = false) (h : ¬s.takesUp host msg op) :
    msgOk msg = false := by
  by_contra hm
  obtain ⟨a, b, c, d, e⟩ := (msgOk_iff msg).1 (by simpa using hm)
  exact h ⟨h1, h1', h2, h3, a, b, c, d, e, h4⟩

theorem onEndpoint_rejects (s : State) (host : Nat) (msg : List Byte) (op : Nat) (k : List Byte → CmdEnd)
    (h1 : s.boss.stage = 2) (h1' : s.linked = true) (h2 : s.hostEntry host ≠ none)
    (h3 : fld msg 6 2 = op) (h4 : s.abortAsked host = false) (h : ¬s.takesUp host msg op) :
    s.onEndpoint host msg op k = s.send 0x01 host (endpointMsg op (fld msg 8 8) 2 0 []) := by
  have hm : msgOk msg = false := msgOk_of_rejected h1 h1' h2 h3 h4 h
  unfold State.onEndpoint
  rw [hears_of h1 h1' h2 h3 h4, hm]
  rfl

theorem fld_append_left (a b : List Byte) (off n : Nat) (h : off + n ≤ a.length) : fld (a ++ b) off n = fld a off n := by
  unfold fld
  rw [List.drop_append_of_le_length (by omega), List.take_append_of_le_length (by simp; omega)]
theorem fld_append_right (a b : List Byte) (off n k : Nat) (h : a.length = k) : fld (a ++ b) (k + off) n = fld b off n := by
  unfold fld
  rw [← h, List.drop_append, List.drop_eq_nil_of_le (by omega)]; simp

theorem bodyOk_iff (b : List Byte) (len : Nat) (zs : List (Nat × Nat)) :
    bodyOk b len zs = true ↔ b.length = len ∧ ∀ z ∈ zs, ∀ j, z.1 ≤ j → j < z.1 + z.2 → nth 0 b j = 0 := by
  unfold bodyOk
  simp only [Bool.and_eq_true, beq_iff_eq, List.all_eq_true, fldZero_iff]

theorem answers_of (i : Instr) (s t : State) (host : Nat) (msg : List Byte) (op status result : Nat) (body : List Byte) (k : List Byte → CmdEnd)
    (hi : Sys2Proof.Machine.exec i s = .next (s.onEndpoint host msg op k)) (h : s.takesUp host msg op) (hk : k (msg.drop 32) = (t, status, result, body)) :
    Answers i s t host msg op status result body := by
  unfold Answers
  rw [hi, onEndpoint_takes _ _ _ _ _ h, hk]; rfl

end Sys2Proof.Machine
end

