-- ==== Sys2Proof/Laws/Issue.lean ====
section
/-! SUPPORT. Waits, turns and the completion of a bundle: what each shared operation can do, said once. -/

namespace Sys2Proof.Machine

/-- The test of a wait changes at most that a context's wait is met (R253). -/
theorem testWait_eq (s : State) (k : Nat) :
    s.testWait k = s ∨ s.testWait k = s.setCtx k { s.ctx k with waitMet := true } := by
  unfold State.testWait
  dsimp only
  split
  · exact Or.inl rfl
  · split
    · exact Or.inl rfl
    · split
      · exact Or.inr rfl
      · exact Or.inl rfl

theorem testWait_arch (s : State) (k n : Nat) : ((s.testWait k).ctx n).arch = (s.ctx n).arch := by
  rcases testWait_eq s k with h | h
  · rw [h]
  · rw [h, ctx_setCtx]
    by_cases hn : n = k
    · rw [if_pos hn, hn]
    · rw [if_neg hn]

theorem testWait_other (s : State) (k n : Nat) (hn : n ≠ k) : (s.testWait k).ctx n = s.ctx n := by
  rcases testWait_eq s k with h | h
  · rw [h]
  · rw [h, ctx_setCtx_other _ _ hn]

/-- The test of a wait leaves everything but contexts. -/
theorem testWait_rest (s : State) (k : Nat) : s.testWait k = { s with ctxs := (s.testWait k).ctxs } := by
  rcases testWait_eq s k with h | h
  · rw [h]
  · rw [h]; rfl

/-- Testing several waits leaves everything but whether waits are met. -/
theorem testWaits_spec (s : State) (cl : Nat) (i : TaskInfo) (n : Nat) (l : List Nat) :
    s.testWaits cl i n l = { s with ctxs := (s.testWaits cl i n l).ctxs } ∧
      ∀ k, ((s.testWaits cl i n l).ctx k).arch = (s.ctx k).arch := by
  induction l generalizing s with
  | nil => exact ⟨rfl, fun _ => rfl⟩
  | cons k r ih =>
    rw [State.testWaits]
    generalize s.waitsOn cl i n k = hit
    cases hit
    · exact ih s
    · simp only [if_true]
      obtain ⟨h1, h2⟩ := ih (s.testWait k)
      refine ⟨?_, fun m => by rw [h2, testWait_arch]⟩
      rw [h1]
      have := testWait_rest s k
      rw [this]

/-- Asking for the fetch of the due bundle and testing its wait: the loop buffer, the fetch counter, the window, CSW's F_LOCK, whether the
bundle has blocked and whether its wait is met may change, and nothing else (R104, R253, R268, R269). -/
theorem settle_spec (s : State) (k : Nat) :
    s.settle k = { s with ctxs := (s.settle k).ctxs } ∧ (∀ n, n ≠ k → (s.settle k).ctx n = s.ctx n) ∧
      ∃ halfA halfB met n w b csw, (s.settle k).ctx k = { s.ctx k with
        halfA := halfA, halfB := halfB, waitMet := met, window := w, blocked := b
        arch := { (s.ctx k).arch with fetches := n, csw := csw } } := by
  unfold State.settle
  dsimp only
  by_cases hb : s.between k = true
  · rw [if_pos hb]
    obtain ⟨a, b, n, h⟩ := request_eq (s.ctx k) (ptrSeg (s.ctx k).arch.pos)
    have hw : ∃ w, ((s.ctx k).request (ptrSeg (s.ctx k).arch.pos)).closeWindow =
        { s.ctx k with halfA := a, halfB := b, window := w, arch := { (s.ctx k).arch with fetches := n } } := by
      rw [h]
      unfold Ctx.closeWindow
      dsimp only
      split
      · rename_i w hw
        split
        · exact ⟨none, rfl⟩
        · exact ⟨some w, by rw [← hw]⟩
      · rename_i hw
        exact ⟨none, by rw [← hw]⟩
    obtain ⟨w, hw⟩ := hw
    rw [hw]
    by_cases hf : Ctx.fetchedDue { s.ctx k with halfA := a, halfB := b, window := w, arch := { (s.ctx k).arch with fetches := n } } = true
    · rw [if_pos hf]
      generalize hc : ({ s.ctx k with halfA := a, halfB := b, window := w, arch := { (s.ctx k).arch with fetches := n } } : Ctx) = c
      refine ⟨?_, fun m hm => ?_, ?_⟩
      · have := testWait_rest (s.setCtx k c) k
        rw [this]
        rfl
      · rw [testWait_other _ _ _ hm, ctx_setCtx_other _ _ hm]
      · rcases testWait_eq (s.setCtx k c) k with g | g
        · rw [g, ctx_setCtx_same, ← hc]
          exact ⟨a, b, (s.ctx k).waitMet, n, w, (s.ctx k).blocked, (s.ctx k).arch.csw, rfl⟩
        · rw [g, ctx_setCtx_same, ctx_setCtx_same, ← hc]
          exact ⟨a, b, true, n, w, (s.ctx k).blocked, (s.ctx k).arch.csw, rfl⟩
    · rw [if_neg hf]
      refine ⟨rfl, fun m hm => ctx_setCtx_other _ _ hm, ?_⟩
      rw [ctx_setCtx_same]
      exact ⟨a, b, (s.ctx k).waitMet, n, none, true, _, rfl⟩
  · rw [if_neg hb]
    exact ⟨rfl, fun _ _ => rfl, (s.ctx k).halfA, (s.ctx k).halfB, (s.ctx k).waitMet, (s.ctx k).arch.fetches, (s.ctx k).window,
      (s.ctx k).blocked, (s.ctx k).arch.csw, rfl⟩

theorem settle_arch (s : State) (k : Nat) : ∃ n csw, ((s.settle k).ctx k).arch = { (s.ctx k).arch with fetches := n, csw := csw } := by
  obtain ⟨_, _, a, b, m, n, w, bl, csw, h⟩ := settle_spec s k
  exact ⟨n, csw, by rw [h]⟩

theorem settle_ending (s : State) (k : Nat) : ((s.settle k).ctx k).ending = (s.ctx k).ending := by
  obtain ⟨_, _, a, b, m, n, w, bl, csw, h⟩ := settle_spec s k
  rw [h]

theorem startPause_me (s : State) (y : Word) : (s.startPause y).me = { s.me with
    pause := yPause y, unwatched := none
    arch := if s.me.eretReq then s.arch else { s.arch with at_ := s.arch.at_ + yPause y } } := me_setMe s _

/-- The state in which an executing bundle of the context has been closed. -/
def State.closed (s : State) : State := { s with cur := { s.cur with slot := 7, open_ := false } }

@[simp] theorem closed_me (s : State) : s.closed.me = s.me := rfl
@[simp] theorem closed_arch (s : State) : s.closed.arch = s.arch := rfl

@[simp] theorem loopLoses_cur (s : State) : s.loopLoses.cur = s.cur := by
  unfold State.loopLoses
  split
  · dsimp only; split <;> rfl
  · rfl

@[simp] theorem closed_badPointer (s : State) (p : Word) : s.closed.badPointer p = s.badPointer p := rfl

/-- The last slot of a bundle without a signal, whose ERET, if it has one, has a good TRAPPC: what comes next follows the start of its
pause. -/
theorem afterSlot_plain (s : State) (ho : s.cur.open_ = true) (hs : s.cur.slot = 6) (hg : ySigen (yOf s.cur.words) = false)
    (hb : s.prefetchMe.loopLoses.me.eretReq = true →
      s.prefetchMe.loopLoses.badPointer s.prefetchMe.loopLoses.arch.trappc = false) :
    s.afterSlot = ((s.prefetchMe.loopLoses.closed.startPause (yOf s.cur.words)).leaveBundle).settle s.cur.ctx := by
  have hc : s.prefetchMe.loopLoses.cur = s.cur := by rw [loopLoses_cur, prefetchMe_cur]
  unfold State.afterSlot
  rw [ho]
  simp only [Bool.not_true, Bool.false_eq_true, if_false]
  generalize s.prefetchMe.loopLoses = t at *
  rw [if_pos (by show 7 ≤ t.cur.slot + 1; rw [hc]; omega)]
  unfold State.completeBundle State.askSignal
  have e : ({ t with cur := { t.cur with slot := t.cur.slot + 1, open_ := false } } : State) = t.closed := by
    unfold State.closed
    rw [hc, hs]
  dsimp only
  rw [e]
  have hn : (t.closed.arch.exitReq.isNone && t.closed.me.eretReq && t.closed.badPointer t.closed.arch.trappc) = false := by
    rw [closed_arch, closed_me, closed_badPointer]
    cases he : t.me.eretReq
    · simp
    · simp [hb he]
  rw [hn]
  simp only [hc, hg, Bool.false_eq_true, if_false]

end Sys2Proof.Machine
end

