-- ==== Sys2Proof/Laws/PerInstr.lean ====
section
/-! SUPPORT. Per instruction: the slot word of a well-formed operation names that operation in its unit's opcode map, with every field
(spec/04 R87 to R99). -/

namespace Sys2Proof

/-- The slot word of an operation reads back, in its unit, as that operation. -/
def Laws.SlotWords.Statement (i : Instr) : Prop :=
  ∀ u w, unitOf i = some u → encodeSlot i = some w → i.WellFormed → decodeRaw u w = some i

theorem Laws.SlotWords.bundleIssue (ctx : Nat) (among : List (Nat × Nat × Bool) × List Nat) : Laws.SlotWords.Statement (.bundleIssue ctx among) := by
  intro u w hu
  cases hu

theorem Laws.SlotWords.waitSatisfied (ctx : Nat) : Laws.SlotWords.Statement (.waitSatisfied ctx) := by
  intro u w hu
  cases hu

theorem Laws.SlotWords.pauseEnd (ctx : Nat) : Laws.SlotWords.Statement (.pauseEnd ctx) := by
  intro u w hu
  cases hu

theorem Laws.SlotWords.lockWindowEnd (ctx : Nat) : Laws.SlotWords.Statement (.lockWindowEnd ctx) := by
  intro u w hu
  cases hu

theorem Laws.SlotWords.fixedResultLand (ctx : Nat) : Laws.SlotWords.Statement (.fixedResultLand ctx) := by
  intro u w hu
  cases hu

theorem Laws.SlotWords.scoreboardResultLand (ctx : Nat) (entry : Nat) (answer : Nat) (pages : Nat) : Laws.SlotWords.Statement (.scoreboardResultLand ctx entry answer pages) := by
  intro u w hu
  cases hu

theorem Laws.SlotWords.segmentExpansion (ctx : Nat) (half : Nat) : Laws.SlotWords.Statement (.segmentExpansion ctx half) := by
  intro u w hu
  cases hu

theorem Laws.SlotWords.loopBufferError (ctx : Nat) (half : Nat) : Laws.SlotWords.Statement (.loopBufferError ctx half) := by
  intro u w hu
  cases hu

theorem Laws.SlotWords.taskRetire (ctx : Nat) : Laws.SlotWords.Statement (.taskRetire ctx) := by
  intro u w hu
  cases hu

theorem Laws.SlotWords.correctableErrorFreeze (unit : Nat × Nat) : Laws.SlotWords.Statement (.correctableErrorFreeze unit) := by
  intro u w hu
  cases hu

theorem Laws.SlotWords.freezeEnd (core : Nat) : Laws.SlotWords.Statement (.freezeEnd core) := by
  intro u w hu
  cases hu

theorem Laws.SlotWords.uncorrectableError (kind : Nat) (unit : Nat) (addr : Nat) : Laws.SlotWords.Statement (.uncorrectableError kind unit addr) := by
  intro u w hu
  cases hu

theorem Laws.SlotWords.engineStarvation (core : Nat) (bank : Nat) : Laws.SlotWords.Statement (.engineStarvation core bank) := by
  intro u w hu
  cases hu

theorem Laws.SlotWords.forcedYield (ctx : Nat) : Laws.SlotWords.Statement (.forcedYield ctx) := by
  intro u w hu
  cases hu

theorem Laws.SlotWords.yieldTurnEnd (ctx : Nat) : Laws.SlotWords.Statement (.yieldTurnEnd ctx) := by
  intro u w hu
  cases hu

theorem Laws.SlotWords.nop : Laws.SlotWords.Statement (.nop) := by
  intro u w hu
  cases hu

theorem Laws.SlotWords.add (f : SR) : Laws.SlotWords.Statement (.add f) := by
  intro u w hu hw hf
  cases hu
  cases hw
  show decodeS _ = _
  delta decodeS
  rw [SR.fOp_toWord]
  exact congrArg (fun f => some (Instr.add f)) (SR.ofWord_toWord f 0x01)

theorem Laws.SlotWords.sub (f : SR) : Laws.SlotWords.Statement (.sub f) := by
  intro u w hu hw hf
  cases hu
  cases hw
  show decodeS _ = _
  delta decodeS
  rw [SR.fOp_toWord]
  exact congrArg (fun f => some (Instr.sub f)) (SR.ofWord_toWord f 0x02)

theorem Laws.SlotWords.mul (f : SR) : Laws.SlotWords.Statement (.mul f) := by
  intro u w hu hw hf
  cases hu
  cases hw
  show decodeS _ = _
  delta decodeS
  rw [SR.fOp_toWord]
  exact congrArg (fun f => some (Instr.mul f)) (SR.ofWord_toWord f 0x03)

theorem Laws.SlotWords.mulhs (f : SR) : Laws.SlotWords.Statement (.mulhs f) := by
  intro u w hu hw hf
  cases hu
  cases hw
  show decodeS _ = _
  delta decodeS
  rw [SR.fOp_toWord]
  exact congrArg (fun f => some (Instr.mulhs f)) (SR.ofWord_toWord f 0x04)

theorem Laws.SlotWords.mulhn (f : SR) : Laws.SlotWords.Statement (.mulhn f) := by
  intro u w hu hw hf
  cases hu
  cases hw
  show decodeS _ = _
  delta decodeS
  rw [SR.fOp_toWord]
  exact congrArg (fun f => some (Instr.mulhn f)) (SR.ofWord_toWord f 0x05)

theorem Laws.SlotWords.divs (f : SR) : Laws.SlotWords.Statement (.divs f) := by
  intro u w hu hw hf
  cases hu
  cases hw
  show decodeS _ = _
  delta decodeS
  rw [SR.fOp_toWord]
  exact congrArg (fun f => some (Instr.divs f)) (SR.ofWord_toWord f 0x06)

theorem Laws.SlotWords.divn (f : SR) : Laws.SlotWords.Statement (.divn f) := by
  intro u w hu hw hf
  cases hu
  cases hw
  show decodeS _ = _
  delta decodeS
  rw [SR.fOp_toWord]
  exact congrArg (fun f => some (Instr.divn f)) (SR.ofWord_toWord f 0x07)

theorem Laws.SlotWords.rems (f : SR) : Laws.SlotWords.Statement (.rems f) := by
  intro u w hu hw hf
  cases hu
  cases hw
  show decodeS _ = _
  delta decodeS
  rw [SR.fOp_toWord]
  exact congrArg (fun f => some (Instr.rems f)) (SR.ofWord_toWord f 0x08)

theorem Laws.SlotWords.remn (f : SR) : Laws.SlotWords.Statement (.remn f) := by
  intro u w hu hw hf
  cases hu
  cases hw
  show decodeS _ = _
  delta decodeS
  rw [SR.fOp_toWord]
  exact congrArg (fun f => some (Instr.remn f)) (SR.ofWord_toWord f 0x09)

theorem Laws.SlotWords.and (f : SR) : Laws.SlotWords.Statement (.and f) := by
  intro u w hu hw hf
  cases hu
  cases hw
  show decodeS _ = _
  delta decodeS
  rw [SR.fOp_toWord]
  exact congrArg (fun f => some (Instr.and f)) (SR.ofWord_toWord f 0x0A)

theorem Laws.SlotWords.or (f : SR) : Laws.SlotWords.Statement (.or f) := by
  intro u w hu hw hf
  cases hu
  cases hw
  show decodeS _ = _
  delta decodeS
  rw [SR.fOp_toWord]
  exact congrArg (fun f => some (Instr.or f)) (SR.ofWord_toWord f 0x0B)

theorem Laws.SlotWords.xor (f : SR) : Laws.SlotWords.Statement (.xor f) := by
  intro u w hu hw hf
  cases hu
  cases hw
  show decodeS _ = _
  delta decodeS
  rw [SR.fOp_toWord]
  exact congrArg (fun f => some (Instr.xor f)) (SR.ofWord_toWord f 0x0C)

theorem Laws.SlotWords.andn (f : SR) : Laws.SlotWords.Statement (.andn f) := by
  intro u w hu hw hf
  cases hu
  cases hw
  show decodeS _ = _
  delta decodeS
  rw [SR.fOp_toWord]
  exact congrArg (fun f => some (Instr.andn f)) (SR.ofWord_toWord f 0x0D)

theorem Laws.SlotWords.shl (f : SR) : Laws.SlotWords.Statement (.shl f) := by
  intro u w hu hw hf
  cases hu
  cases hw
  show decodeS _ = _
  delta decodeS
  rw [SR.fOp_toWord]
  exact congrArg (fun f => some (Instr.shl f)) (SR.ofWord_toWord f 0x0E)

theorem Laws.SlotWords.shr (f : SR) : Laws.SlotWords.Statement (.shr f) := by
  intro u w hu hw hf
  cases hu
  cases hw
  show decodeS _ = _
  delta decodeS
  rw [SR.fOp_toWord]
  exact congrArg (fun f => some (Instr.shr f)) (SR.ofWord_toWord f 0x0F)

theorem Laws.SlotWords.sar (f : SR) : Laws.SlotWords.Statement (.sar f) := by
  intro u w hu hw hf
  cases hu
  cases hw
  show decodeS _ = _
  delta decodeS
  rw [SR.fOp_toWord]
  exact congrArg (fun f => some (Instr.sar f)) (SR.ofWord_toWord f 0x10)

theorem Laws.SlotWords.rotl (f : SR) : Laws.SlotWords.Statement (.rotl f) := by
  intro u w hu hw hf
  cases hu
  cases hw
  show decodeS _ = _
  delta decodeS
  rw [SR.fOp_toWord]
  exact congrArg (fun f => some (Instr.rotl f)) (SR.ofWord_toWord f 0x11)

theorem Laws.SlotWords.mins (f : SR) : Laws.SlotWords.Statement (.mins f) := by
  intro u w hu hw hf
  cases hu
  cases hw
  show decodeS _ = _
  delta decodeS
  rw [SR.fOp_toWord]
  exact congrArg (fun f => some (Instr.mins f)) (SR.ofWord_toWord f 0x12)

theorem Laws.SlotWords.maxs (f : SR) : Laws.SlotWords.Statement (.maxs f) := by
  intro u w hu hw hf
  cases hu
  cases hw
  show decodeS _ = _
  delta decodeS
  rw [SR.fOp_toWord]
  exact congrArg (fun f => some (Instr.maxs f)) (SR.ofWord_toWord f 0x13)

theorem Laws.SlotWords.minn (f : SR) : Laws.SlotWords.Statement (.minn f) := by
  intro u w hu hw hf
  cases hu
  cases hw
  show decodeS _ = _
  delta decodeS
  rw [SR.fOp_toWord]
  exact congrArg (fun f => some (Instr.minn f)) (SR.ofWord_toWord f 0x14)

theorem Laws.SlotWords.maxn (f : SR) : Laws.SlotWords.Statement (.maxn f) := by
  intro u w hu hw hf
  cases hu
  cases hw
  show decodeS _ = _
  delta decodeS
  rw [SR.fOp_toWord]
  exact congrArg (fun f => some (Instr.maxn f)) (SR.ofWord_toWord f 0x15)

theorem Laws.SlotWords.mov (f : SR) : Laws.SlotWords.Statement (.mov f) := by
  intro u w hu hw hf
  cases hu
  cases hw
  show decodeS _ = _
  delta decodeS
  rw [SR.fOp_toWord]
  exact congrArg (fun f => some (Instr.mov f)) (SR.ofWord_toWord f 0x16)

theorem Laws.SlotWords.addi (f : SI) : Laws.SlotWords.Statement (.addi f) := by
  intro u w hu hw hf
  cases hu
  cases hw
  show decodeS _ = _
  delta decodeS
  rw [SI.fOp_toWord]
  exact congrArg (fun f => some (Instr.addi f)) (SI.ofWord_toWord f 0x20)

theorem Laws.SlotWords.muli (f : SI) : Laws.SlotWords.Statement (.muli f) := by
  intro u w hu hw hf
  cases hu
  cases hw
  show decodeS _ = _
  delta decodeS
  rw [SI.fOp_toWord]
  exact congrArg (fun f => some (Instr.muli f)) (SI.ofWord_toWord f 0x21)

theorem Laws.SlotWords.andi (f : SI) : Laws.SlotWords.Statement (.andi f) := by
  intro u w hu hw hf
  cases hu
  cases hw
  show decodeS _ = _
  delta decodeS
  rw [SI.fOp_toWord]
  exact congrArg (fun f => some (Instr.andi f)) (SI.ofWord_toWord f 0x22)

theorem Laws.SlotWords.ori (f : SI) : Laws.SlotWords.Statement (.ori f) := by
  intro u w hu hw hf
  cases hu
  cases hw
  show decodeS _ = _
  delta decodeS
  rw [SI.fOp_toWord]
  exact congrArg (fun f => some (Instr.ori f)) (SI.ofWord_toWord f 0x23)

theorem Laws.SlotWords.xori (f : SI) : Laws.SlotWords.Statement (.xori f) := by
  intro u w hu hw hf
  cases hu
  cases hw
  show decodeS _ = _
  delta decodeS
  rw [SI.fOp_toWord]
  exact congrArg (fun f => some (Instr.xori f)) (SI.ofWord_toWord f 0x24)

theorem Laws.SlotWords.li (f : SI) : Laws.SlotWords.Statement (.li f) := by
  intro u w hu hw hf
  cases hu
  cases hw
  show decodeS _ = _
  delta decodeS
  rw [SI.fOp_toWord]
  exact congrArg (fun f => some (Instr.li f)) (SI.ofWord_toWord f 0x29)

theorem Laws.SlotWords.lih (f : SI) : Laws.SlotWords.Statement (.lih f) := by
  intro u w hu hw hf
  cases hu
  cases hw
  show decodeS _ = _
  delta decodeS
  rw [SI.fOp_toWord]
  exact congrArg (fun f => some (Instr.lih f)) (SI.ofWord_toWord f 0x2A)

theorem Laws.SlotWords.shli (f : SF) : Laws.SlotWords.Statement (.shli f) := by
  intro u w hu hw hf
  cases hu
  cases hw
  show decodeS _ = _
  delta decodeS
  rw [SF.fOp_toWord]
  exact congrArg (fun f => some (Instr.shli f)) (SF.ofWord_toWord f 0x25)

theorem Laws.SlotWords.shri (f : SF) : Laws.SlotWords.Statement (.shri f) := by
  intro u w hu hw hf
  cases hu
  cases hw
  show decodeS _ = _
  delta decodeS
  rw [SF.fOp_toWord]
  exact congrArg (fun f => some (Instr.shri f)) (SF.ofWord_toWord f 0x26)

theorem Laws.SlotWords.sari (f : SF) : Laws.SlotWords.Statement (.sari f) := by
  intro u w hu hw hf
  cases hu
  cases hw
  show decodeS _ = _
  delta decodeS
  rw [SF.fOp_toWord]
  exact congrArg (fun f => some (Instr.sari f)) (SF.ofWord_toWord f 0x27)

theorem Laws.SlotWords.rotli (f : SF) : Laws.SlotWords.Statement (.rotli f) := by
  intro u w hu hw hf
  cases hu
  cases hw
  show decodeS _ = _
  delta decodeS
  rw [SF.fOp_toWord]
  exact congrArg (fun f => some (Instr.rotli f)) (SF.ofWord_toWord f 0x28)

theorem Laws.SlotWords.clz (f : SF) : Laws.SlotWords.Statement (.clz f) := by
  intro u w hu hw hf
  cases hu
  cases hw
  show decodeS _ = _
  delta decodeS
  rw [SF.fOp_toWord]
  exact congrArg (fun f => some (Instr.clz f)) (SF.ofWord_toWord f 0x30)

theorem Laws.SlotWords.ctz (f : SF) : Laws.SlotWords.Statement (.ctz f) := by
  intro u w hu hw hf
  cases hu
  cases hw
  show decodeS _ = _
  delta decodeS
  rw [SF.fOp_toWord]
  exact congrArg (fun f => some (Instr.ctz f)) (SF.ofWord_toWord f 0x31)

theorem Laws.SlotWords.popc (f : SF) : Laws.SlotWords.Statement (.popc f) := by
  intro u w hu hw hf
  cases hu
  cases hw
  show decodeS _ = _
  delta decodeS
  rw [SF.fOp_toWord]
  exact congrArg (fun f => some (Instr.popc f)) (SF.ofWord_toWord f 0x32)

theorem Laws.SlotWords.bswap (f : SF) : Laws.SlotWords.Statement (.bswap f) := by
  intro u w hu hw hf
  cases hu
  cases hw
  show decodeS _ = _
  delta decodeS
  rw [SF.fOp_toWord]
  exact congrArg (fun f => some (Instr.bswap f)) (SF.ofWord_toWord f 0x33)

theorem Laws.SlotWords.bfx (f : SF) : Laws.SlotWords.Statement (.bfx f) := by
  intro u w hu hw hf
  cases hu
  cases hw
  show decodeS _ = _
  delta decodeS
  rw [SF.fOp_toWord]
  exact congrArg (fun f => some (Instr.bfx f)) (SF.ofWord_toWord f 0x34)

theorem Laws.SlotWords.bfi (f : SF) : Laws.SlotWords.Statement (.bfi f) := by
  intro u w hu hw hf
  cases hu
  cases hw
  show decodeS _ = _
  delta decodeS
  rw [SF.fOp_toWord]
  exact congrArg (fun f => some (Instr.bfi f)) (SF.ofWord_toWord f 0x35)

theorem Laws.SlotWords.sext (f : SF) : Laws.SlotWords.Statement (.sext f) := by
  intro u w hu hw hf
  cases hu
  cases hw
  show decodeS _ = _
  delta decodeS
  rw [SF.fOp_toWord]
  exact congrArg (fun f => some (Instr.sext f)) (SF.ofWord_toWord f 0x36)

theorem Laws.SlotWords.zext (f : SF) : Laws.SlotWords.Statement (.zext f) := by
  intro u w hu hw hf
  cases hu
  cases hw
  show decodeS _ = _
  delta decodeS
  rw [SF.fOp_toWord]
  exact congrArg (fun f => some (Instr.zext f)) (SF.ofWord_toWord f 0x37)

theorem Laws.SlotWords.seq (f : SR) : Laws.SlotWords.Statement (.seq f) := by
  intro u w hu hw hf
  cases hu
  cases hw
  show decodeS _ = _
  delta decodeS
  rw [SR.fOp_toWord]
  exact congrArg (fun f => some (Instr.seq f)) (SR.ofWord_toWord f 0x40)

theorem Laws.SlotWords.sne (f : SR) : Laws.SlotWords.Statement (.sne f) := by
  intro u w hu hw hf
  cases hu
  cases hw
  show decodeS _ = _
  delta decodeS
  rw [SR.fOp_toWord]
  exact congrArg (fun f => some (Instr.sne f)) (SR.ofWord_toWord f 0x41)

theorem Laws.SlotWords.slt (f : SR) : Laws.SlotWords.Statement (.slt f) := by
  intro u w hu hw hf
  cases hu
  cases hw
  show decodeS _ = _
  delta decodeS
  rw [SR.fOp_toWord]
  exact congrArg (fun f => some (Instr.slt f)) (SR.ofWord_toWord f 0x42)

theorem Laws.SlotWords.sle (f : SR) : Laws.SlotWords.Statement (.sle f) := by
  intro u w hu hw hf
  cases hu
  cases hw
  show decodeS _ = _
  delta decodeS
  rw [SR.fOp_toWord]
  exact congrArg (fun f => some (Instr.sle f)) (SR.ofWord_toWord f 0x43)

theorem Laws.SlotWords.sltn (f : SR) : Laws.SlotWords.Statement (.sltn f) := by
  intro u w hu hw hf
  cases hu
  cases hw
  show decodeS _ = _
  delta decodeS
  rw [SR.fOp_toWord]
  exact congrArg (fun f => some (Instr.sltn f)) (SR.ofWord_toWord f 0x44)

theorem Laws.SlotWords.slen (f : SR) : Laws.SlotWords.Statement (.slen f) := by
  intro u w hu hw hf
  cases hu
  cases hw
  show decodeS _ = _
  delta decodeS
  rw [SR.fOp_toWord]
  exact congrArg (fun f => some (Instr.slen f)) (SR.ofWord_toWord f 0x45)

theorem Laws.SlotWords.sel (f : SR) : Laws.SlotWords.Statement (.sel f) := by
  intro u w hu hw hf
  cases hu
  cases hw
  show decodeS _ = _
  delta decodeS
  rw [SR.fOp_toWord]
  exact congrArg (fun f => some (Instr.sel f)) (SR.ofWord_toWord f 0x46)

theorem Laws.SlotWords.beq (f : SB) : Laws.SlotWords.Statement (.beq f) := by
  intro u w hu hw hf
  cases hu
  cases hw
  show decodeS _ = _
  delta decodeS
  rw [SB.fOp_toWord]
  exact congrArg (fun f => some (Instr.beq f)) (SB.ofWord_toWord f 0x60)

theorem Laws.SlotWords.bne (f : SB) : Laws.SlotWords.Statement (.bne f) := by
  intro u w hu hw hf
  cases hu
  cases hw
  show decodeS _ = _
  delta decodeS
  rw [SB.fOp_toWord]
  exact congrArg (fun f => some (Instr.bne f)) (SB.ofWord_toWord f 0x61)

theorem Laws.SlotWords.blt (f : SB) : Laws.SlotWords.Statement (.blt f) := by
  intro u w hu hw hf
  cases hu
  cases hw
  show decodeS _ = _
  delta decodeS
  rw [SB.fOp_toWord]
  exact congrArg (fun f => some (Instr.blt f)) (SB.ofWord_toWord f 0x62)

theorem Laws.SlotWords.bge (f : SB) : Laws.SlotWords.Statement (.bge f) := by
  intro u w hu hw hf
  cases hu
  cases hw
  show decodeS _ = _
  delta decodeS
  rw [SB.fOp_toWord]
  exact congrArg (fun f => some (Instr.bge f)) (SB.ofWord_toWord f 0x63)

theorem Laws.SlotWords.bltn (f : SB) : Laws.SlotWords.Statement (.bltn f) := by
  intro u w hu hw hf
  cases hu
  cases hw
  show decodeS _ = _
  delta decodeS
  rw [SB.fOp_toWord]
  exact congrArg (fun f => some (Instr.bltn f)) (SB.ofWord_toWord f 0x64)

theorem Laws.SlotWords.bgen (f : SB) : Laws.SlotWords.Statement (.bgen f) := by
  intro u w hu hw hf
  cases hu
  cases hw
  show decodeS _ = _
  delta decodeS
  rw [SB.fOp_toWord]
  exact congrArg (fun f => some (Instr.bgen f)) (SB.ofWord_toWord f 0x65)

theorem Laws.SlotWords.bz (f : SB) : Laws.SlotWords.Statement (.bz f) := by
  intro u w hu hw hf
  cases hu
  cases hw
  show decodeS _ = _
  delta decodeS
  rw [SB.fOp_toWord]
  exact congrArg (fun f => some (Instr.bz f)) (SB.ofWord_toWord f 0x66)

theorem Laws.SlotWords.bnz (f : SB) : Laws.SlotWords.Statement (.bnz f) := by
  intro u w hu hw hf
  cases hu
  cases hw
  show decodeS _ = _
  delta decodeS
  rw [SB.fOp_toWord]
  exact congrArg (fun f => some (Instr.bnz f)) (SB.ofWord_toWord f 0x67)

theorem Laws.SlotWords.loop (f : SB) : Laws.SlotWords.Statement (.loop f) := by
  intro u w hu hw hf
  cases hu
  cases hw
  show decodeS _ = _
  delta decodeS
  rw [SB.fOp_toWord]
  exact congrArg (fun f => some (Instr.loop f)) (SB.ofWord_toWord f 0x68)

theorem Laws.SlotWords.jmp (f : SB) : Laws.SlotWords.Statement (.jmp f) := by
  intro u w hu hw hf
  cases hu
  cases hw
  show decodeS _ = _
  delta decodeS
  rw [SB.fOp_toWord]
  exact congrArg (fun f => some (Instr.jmp f)) (SB.ofWord_toWord f 0x69)

theorem Laws.SlotWords.jmpi (f : SB) : Laws.SlotWords.Statement (.jmpi f) := by
  intro u w hu hw hf
  cases hu
  cases hw
  show decodeS _ = _
  delta decodeS
  rw [SB.fOp_toWord]
  exact congrArg (fun f => some (Instr.jmpi f)) (SB.ofWord_toWord f 0x6A)

theorem Laws.SlotWords.call (f : SB) : Laws.SlotWords.Statement (.call f) := by
  intro u w hu hw hf
  cases hu
  cases hw
  show decodeS _ = _
  delta decodeS
  rw [SB.fOp_toWord]
  exact congrArg (fun f => some (Instr.call f)) (SB.ofWord_toWord f 0x6B)

theorem Laws.SlotWords.calli (f : SB) : Laws.SlotWords.Statement (.calli f) := by
  intro u w hu hw hf
  cases hu
  cases hw
  show decodeS _ = _
  delta decodeS
  rw [SB.fOp_toWord]
  exact congrArg (fun f => some (Instr.calli f)) (SB.ofWord_toWord f 0x6C)

theorem Laws.SlotWords.ret (f : SB) : Laws.SlotWords.Statement (.ret f) := by
  intro u w hu hw hf
  cases hu
  cases hw
  show decodeS _ = _
  delta decodeS
  rw [SB.fOp_toWord]
  exact congrArg (fun f => some (Instr.ret f)) (SB.ofWord_toWord f 0x6D)

theorem Laws.SlotWords.chk (f : SB) : Laws.SlotWords.Statement (.chk f) := by
  intro u w hu hw hf
  cases hu
  cases hw
  show decodeS _ = _
  delta decodeS
  rw [SB.fOp_toWord]
  exact congrArg (fun f => some (Instr.chk f)) (SB.ofWord_toWord f 0x6E)

theorem Laws.SlotWords.pclr (f : SR) : Laws.SlotWords.Statement (.pclr f) := by
  intro u w hu hw hf
  cases hu
  cases hw
  show decodeS _ = _
  delta decodeS
  rw [SR.fOp_toWord]
  exact congrArg (fun f => some (Instr.pclr f)) (SR.ofWord_toWord f 0x6F)

theorem Laws.SlotWords.sarm (f : SS) : Laws.SlotWords.Statement (.sarm f) := by
  intro u w hu hw hf
  cases hu
  cases hw
  show decodeS _ = _
  delta decodeS
  rw [SS.fOp_toWord]
  exact congrArg (fun f => some (Instr.sarm f)) (SS.ofWord_toWord f 0x80)

theorem Laws.SlotWords.sset (f : SS) : Laws.SlotWords.Statement (.sset f) := by
  intro u w hu hw hf
  cases hu
  cases hw
  show decodeS _ = _
  delta decodeS
  rw [SS.fOp_toWord]
  exact congrArg (fun f => some (Instr.sset f)) (SS.ofWord_toWord f 0x81)

theorem Laws.SlotWords.sget (f : SS) : Laws.SlotWords.Statement (.sget f) := by
  intro u w hu hw hf
  cases hu
  cases hw
  show decodeS _ = _
  delta decodeS
  rw [SS.fOp_toWord]
  exact congrArg (fun f => some (Instr.sget f)) (SS.ofWord_toWord f 0x82)

theorem Laws.SlotWords.yield (f : SS) : Laws.SlotWords.Statement (.yield f) := by
  intro u w hu hw hf
  cases hu
  cases hw
  show decodeS _ = _
  delta decodeS
  rw [SS.fOp_toWord]
  exact congrArg (fun f => some (Instr.yield f)) (SS.ofWord_toWord f 0x83)

theorem Laws.SlotWords.exit (f : SS) : Laws.SlotWords.Statement (.exit f) := by
  intro u w hu hw hf
  cases hu
  cases hw
  show decodeS _ = _
  delta decodeS
  rw [SS.fOp_toWord]
  exact congrArg (fun f => some (Instr.exit f)) (SS.ofWord_toWord f 0x84)

theorem Laws.SlotWords.trap (f : SS) : Laws.SlotWords.Statement (.trap f) := by
  intro u w hu hw hf
  cases hu
  cases hw
  show decodeS _ = _
  delta decodeS
  rw [SS.fOp_toWord]
  exact congrArg (fun f => some (Instr.trap f)) (SS.ofWord_toWord f 0x85)

theorem Laws.SlotWords.eret (f : SS) : Laws.SlotWords.Statement (.eret f) := by
  intro u w hu hw hf
  cases hu
  cases hw
  show decodeS _ = _
  delta decodeS
  rw [SS.fOp_toWord]
  exact congrArg (fun f => some (Instr.eret f)) (SS.ofWord_toWord f 0x86)

theorem Laws.SlotWords.csrd (f : SS) : Laws.SlotWords.Statement (.csrd f) := by
  intro u w hu hw hf
  cases hu
  cases hw
  show decodeS _ = _
  delta decodeS
  rw [SS.fOp_toWord]
  exact congrArg (fun f => some (Instr.csrd f)) (SS.ofWord_toWord f 0x87)

theorem Laws.SlotWords.cswr (f : SS) : Laws.SlotWords.Statement (.cswr f) := by
  intro u w hu hw hf
  cases hu
  cases hw
  show decodeS _ = _
  delta decodeS
  rw [SS.fOp_toWord]
  exact congrArg (fun f => some (Instr.cswr f)) (SS.ofWord_toWord f 0x88)

theorem Laws.SlotWords.enq (f : SS) : Laws.SlotWords.Statement (.enq f) := by
  intro u w hu hw hf
  cases hu
  cases hw
  show decodeS _ = _
  delta decodeS
  rw [SS.fOp_toWord]
  exact congrArg (fun f => some (Instr.enq f)) (SS.ofWord_toWord f 0x89)

theorem Laws.SlotWords.time (f : SS) : Laws.SlotWords.Statement (.time f) := by
  intro u w hu hw hf
  cases hu
  cases hw
  show decodeS _ = _
  delta decodeS
  rw [SS.fOp_toWord]
  exact congrArg (fun f => some (Instr.time f)) (SS.ofWord_toWord f 0x8A)

theorem Laws.SlotWords.rndx (f : SS) : Laws.SlotWords.Statement (.rndx f) := by
  intro u w hu hw hf
  cases hu
  cases hw
  show decodeS _ = _
  delta decodeS
  rw [SS.fOp_toWord]
  exact congrArg (fun f => some (Instr.rndx f)) (SS.ofWord_toWord f 0x8B)

theorem Laws.SlotWords.pend (f : SS) : Laws.SlotWords.Statement (.pend f) := by
  intro u w hu hw hf
  cases hu
  cases hw
  show decodeS _ = _
  delta decodeS
  rw [SS.fOp_toWord]
  exact congrArg (fun f => some (Instr.pend f)) (SS.ofWord_toWord f 0x8C)

theorem Laws.SlotWords.vadd (f : VV) : Laws.SlotWords.Statement (.vadd f) := by
  intro u w hu hw hf
  cases hu
  cases hw
  show decodeV _ = _
  delta decodeV
  rw [VV.fOp_toWord]
  exact congrArg (fun f => some (Instr.vadd f)) (VV.ofWord_toWord f 0x01)

theorem Laws.SlotWords.vsub (f : VV) : Laws.SlotWords.Statement (.vsub f) := by
  intro u w hu hw hf
  cases hu
  cases hw
  show decodeV _ = _
  delta decodeV
  rw [VV.fOp_toWord]
  exact congrArg (fun f => some (Instr.vsub f)) (VV.ofWord_toWord f 0x02)

theorem Laws.SlotWords.vmul (f : VV) : Laws.SlotWords.Statement (.vmul f) := by
  intro u w hu hw hf
  cases hu
  cases hw
  show decodeV _ = _
  delta decodeV
  rw [VV.fOp_toWord]
  exact congrArg (fun f => some (Instr.vmul f)) (VV.ofWord_toWord f 0x03)

theorem Laws.SlotWords.vfma (f : VV) : Laws.SlotWords.Statement (.vfma f) := by
  intro u w hu hw hf
  cases hu
  cases hw
  show decodeV _ = _
  delta decodeV
  rw [VV.fOp_toWord]
  exact congrArg (fun f => some (Instr.vfma f)) (VV.ofWord_toWord f 0x04)

theorem Laws.SlotWords.vfms (f : VV) : Laws.SlotWords.Statement (.vfms f) := by
  intro u w hu hw hf
  cases hu
  cases hw
  show decodeV _ = _
  delta decodeV
  rw [VV.fOp_toWord]
  exact congrArg (fun f => some (Instr.vfms f)) (VV.ofWord_toWord f 0x05)

theorem Laws.SlotWords.vfnma (f : VV) : Laws.SlotWords.Statement (.vfnma f) := by
  intro u w hu hw hf
  cases hu
  cases hw
  show decodeV _ = _
  delta decodeV
  rw [VV.fOp_toWord]
  exact congrArg (fun f => some (Instr.vfnma f)) (VV.ofWord_toWord f 0x06)

theorem Laws.SlotWords.vmin (f : VV) : Laws.SlotWords.Statement (.vmin f) := by
  intro u w hu hw hf
  cases hu
  cases hw
  show decodeV _ = _
  delta decodeV
  rw [VV.fOp_toWord]
  exact congrArg (fun f => some (Instr.vmin f)) (VV.ofWord_toWord f 0x07)

theorem Laws.SlotWords.vmax (f : VV) : Laws.SlotWords.Statement (.vmax f) := by
  intro u w hu hw hf
  cases hu
  cases hw
  show decodeV _ = _
  delta decodeV
  rw [VV.fOp_toWord]
  exact congrArg (fun f => some (Instr.vmax f)) (VV.ofWord_toWord f 0x08)

theorem Laws.SlotWords.vminp (f : VV) : Laws.SlotWords.Statement (.vminp f) := by
  intro u w hu hw hf
  cases hu
  cases hw
  show decodeV _ = _
  delta decodeV
  rw [VV.fOp_toWord]
  exact congrArg (fun f => some (Instr.vminp f)) (VV.ofWord_toWord f 0x09)

theorem Laws.SlotWords.vmaxp (f : VV) : Laws.SlotWords.Statement (.vmaxp f) := by
  intro u w hu hw hf
  cases hu
  cases hw
  show decodeV _ = _
  delta decodeV
  rw [VV.fOp_toWord]
  exact congrArg (fun f => some (Instr.vmaxp f)) (VV.ofWord_toWord f 0x0A)

theorem Laws.SlotWords.vabs (f : VV) : Laws.SlotWords.Statement (.vabs f) := by
  intro u w hu hw hf
  cases hu
  cases hw
  show decodeV _ = _
  delta decodeV
  rw [VV.fOp_toWord]
  exact congrArg (fun f => some (Instr.vabs f)) (VV.ofWord_toWord f 0x0B)

theorem Laws.SlotWords.vneg (f : VV) : Laws.SlotWords.Statement (.vneg f) := by
  intro u w hu hw hf
  cases hu
  cases hw
  show decodeV _ = _
  delta decodeV
  rw [VV.fOp_toWord]
  exact congrArg (fun f => some (Instr.vneg f)) (VV.ofWord_toWord f 0x0C)

theorem Laws.SlotWords.vdiv (f : VV) : Laws.SlotWords.Statement (.vdiv f) := by
  intro u w hu hw hf
  cases hu
  cases hw
  show decodeV _ = _
  delta decodeV
  rw [VV.fOp_toWord]
  exact congrArg (fun f => some (Instr.vdiv f)) (VV.ofWord_toWord f 0x0D)

theorem Laws.SlotWords.vsqrt (f : VV) : Laws.SlotWords.Statement (.vsqrt f) := by
  intro u w hu hw hf
  cases hu
  cases hw
  show decodeV _ = _
  delta decodeV
  rw [VV.fOp_toWord]
  exact congrArg (fun f => some (Instr.vsqrt f)) (VV.ofWord_toWord f 0x0E)

theorem Laws.SlotWords.vrcp (f : VV) : Laws.SlotWords.Statement (.vrcp f) := by
  intro u w hu hw hf
  cases hu
  cases hw
  show decodeV _ = _
  delta decodeV
  rw [VV.fOp_toWord]
  exact congrArg (fun f => some (Instr.vrcp f)) (VV.ofWord_toWord f 0x0F)

theorem Laws.SlotWords.vrsq (f : VV) : Laws.SlotWords.Statement (.vrsq f) := by
  intro u w hu hw hf
  cases hu
  cases hw
  show decodeV _ = _
  delta decodeV
  rw [VV.fOp_toWord]
  exact congrArg (fun f => some (Instr.vrsq f)) (VV.ofWord_toWord f 0x10)

theorem Laws.SlotWords.vexp2 (f : VV) : Laws.SlotWords.Statement (.vexp2 f) := by
  intro u w hu hw hf
  cases hu
  cases hw
  show decodeV _ = _
  delta decodeV
  rw [VV.fOp_toWord]
  exact congrArg (fun f => some (Instr.vexp2 f)) (VV.ofWord_toWord f 0x11)

theorem Laws.SlotWords.vlog2 (f : VV) : Laws.SlotWords.Statement (.vlog2 f) := by
  intro u w hu hw hf
  cases hu
  cases hw
  show decodeV _ = _
  delta decodeV
  rw [VV.fOp_toWord]
  exact congrArg (fun f => some (Instr.vlog2 f)) (VV.ofWord_toWord f 0x12)

theorem Laws.SlotWords.viadd (f : VV) : Laws.SlotWords.Statement (.viadd f) := by
  intro u w hu hw hf
  cases hu
  cases hw
  show decodeV _ = _
  delta decodeV
  rw [VV.fOp_toWord]
  exact congrArg (fun f => some (Instr.viadd f)) (VV.ofWord_toWord f 0x20)

theorem Laws.SlotWords.visub (f : VV) : Laws.SlotWords.Statement (.visub f) := by
  intro u w hu hw hf
  cases hu
  cases hw
  show decodeV _ = _
  delta decodeV
  rw [VV.fOp_toWord]
  exact congrArg (fun f => some (Instr.visub f)) (VV.ofWord_toWord f 0x21)

theorem Laws.SlotWords.vimul (f : VV) : Laws.SlotWords.Statement (.vimul f) := by
  intro u w hu hw hf
  cases hu
  cases hw
  show decodeV _ = _
  delta decodeV
  rw [VV.fOp_toWord]
  exact congrArg (fun f => some (Instr.vimul f)) (VV.ofWord_toWord f 0x22)

theorem Laws.SlotWords.vimad (f : VV) : Laws.SlotWords.Statement (.vimad f) := by
  intro u w hu hw hf
  cases hu
  cases hw
  show decodeV _ = _
  delta decodeV
  rw [VV.fOp_toWord]
  exact congrArg (fun f => some (Instr.vimad f)) (VV.ofWord_toWord f 0x23)

theorem Laws.SlotWords.vimin (f : VV) : Laws.SlotWords.Statement (.vimin f) := by
  intro u w hu hw hf
  cases hu
  cases hw
  show decodeV _ = _
  delta decodeV
  rw [VV.fOp_toWord]
  exact congrArg (fun f => some (Instr.vimin f)) (VV.ofWord_toWord f 0x24)

theorem Laws.SlotWords.vimax (f : VV) : Laws.SlotWords.Statement (.vimax f) := by
  intro u w hu hw hf
  cases hu
  cases hw
  show decodeV _ = _
  delta decodeV
  rw [VV.fOp_toWord]
  exact congrArg (fun f => some (Instr.vimax f)) (VV.ofWord_toWord f 0x25)

theorem Laws.SlotWords.vand (f : VV) : Laws.SlotWords.Statement (.vand f) := by
  intro u w hu hw hf
  cases hu
  cases hw
  show decodeV _ = _
  delta decodeV
  rw [VV.fOp_toWord]
  exact congrArg (fun f => some (Instr.vand f)) (VV.ofWord_toWord f 0x26)

theorem Laws.SlotWords.vor (f : VV) : Laws.SlotWords.Statement (.vor f) := by
  intro u w hu hw hf
  cases hu
  cases hw
  show decodeV _ = _
  delta decodeV
  rw [VV.fOp_toWord]
  exact congrArg (fun f => some (Instr.vor f)) (VV.ofWord_toWord f 0x27)

theorem Laws.SlotWords.vxor (f : VV) : Laws.SlotWords.Statement (.vxor f) := by
  intro u w hu hw hf
  cases hu
  cases hw
  show decodeV _ = _
  delta decodeV
  rw [VV.fOp_toWord]
  exact congrArg (fun f => some (Instr.vxor f)) (VV.ofWord_toWord f 0x28)

theorem Laws.SlotWords.vshl (f : VV) : Laws.SlotWords.Statement (.vshl f) := by
  intro u w hu hw hf
  cases hu
  cases hw
  show decodeV _ = _
  delta decodeV
  rw [VV.fOp_toWord]
  exact congrArg (fun f => some (Instr.vshl f)) (VV.ofWord_toWord f 0x29)

theorem Laws.SlotWords.vshr (f : VV) : Laws.SlotWords.Statement (.vshr f) := by
  intro u w hu hw hf
  cases hu
  cases hw
  show decodeV _ = _
  delta decodeV
  rw [VV.fOp_toWord]
  exact congrArg (fun f => some (Instr.vshr f)) (VV.ofWord_toWord f 0x2A)

theorem Laws.SlotWords.vsar (f : VV) : Laws.SlotWords.Statement (.vsar f) := by
  intro u w hu hw hf
  cases hu
  cases hw
  show decodeV _ = _
  delta decodeV
  rw [VV.fOp_toWord]
  exact congrArg (fun f => some (Instr.vsar f)) (VV.ofWord_toWord f 0x2B)

theorem Laws.SlotWords.vrndx (f : VV) : Laws.SlotWords.Statement (.vrndx f) := by
  intro u w hu hw hf
  cases hu
  cases hw
  show decodeV _ = _
  delta decodeV
  rw [VV.fOp_toWord]
  exact congrArg (fun f => some (Instr.vrndx f)) (VV.ofWord_toWord f 0x2C)

theorem Laws.SlotWords.vcmp (f : VV) : Laws.SlotWords.Statement (.vcmp f) := by
  intro u w hu hw hf
  cases hu
  cases hw
  show decodeV _ = _
  delta decodeV
  rw [VV.fOp_toWord]
  exact congrArg (fun f => some (Instr.vcmp f)) (VV.ofWord_toWord f 0x40)

theorem Laws.SlotWords.vsel (f : VV) : Laws.SlotWords.Statement (.vsel f) := by
  intro u w hu hw hf
  cases hu
  cases hw
  show decodeV _ = _
  delta decodeV
  rw [VV.fOp_toWord]
  exact congrArg (fun f => some (Instr.vsel f)) (VV.ofWord_toWord f 0x41)

theorem Laws.SlotWords.vpand (f : VV) : Laws.SlotWords.Statement (.vpand f) := by
  intro u w hu hw hf
  cases hu
  cases hw
  show decodeV _ = _
  delta decodeV
  rw [VV.fOp_toWord]
  exact congrArg (fun f => some (Instr.vpand f)) (VV.ofWord_toWord f 0x42)

theorem Laws.SlotWords.vpor (f : VV) : Laws.SlotWords.Statement (.vpor f) := by
  intro u w hu hw hf
  cases hu
  cases hw
  show decodeV _ = _
  delta decodeV
  rw [VV.fOp_toWord]
  exact congrArg (fun f => some (Instr.vpor f)) (VV.ofWord_toWord f 0x43)

theorem Laws.SlotWords.vpxor (f : VV) : Laws.SlotWords.Statement (.vpxor f) := by
  intro u w hu hw hf
  cases hu
  cases hw
  show decodeV _ = _
  delta decodeV
  rw [VV.fOp_toWord]
  exact congrArg (fun f => some (Instr.vpxor f)) (VV.ofWord_toWord f 0x44)

theorem Laws.SlotWords.vpnot (f : VV) : Laws.SlotWords.Statement (.vpnot f) := by
  intro u w hu hw hf
  cases hu
  cases hw
  show decodeV _ = _
  delta decodeV
  rw [VV.fOp_toWord]
  exact congrArg (fun f => some (Instr.vpnot f)) (VV.ofWord_toWord f 0x45)

theorem Laws.SlotWords.vpcnt (f : VV) : Laws.SlotWords.Statement (.vpcnt f) := by
  intro u w hu hw hf
  cases hu
  cases hw
  show decodeV _ = _
  delta decodeV
  rw [VV.fOp_toWord]
  exact congrArg (fun f => some (Instr.vpcnt f)) (VV.ofWord_toWord f 0x46)

theorem Laws.SlotWords.vpfirst (f : VV) : Laws.SlotWords.Statement (.vpfirst f) := by
  intro u w hu hw hf
  cases hu
  cases hw
  show decodeV _ = _
  delta decodeV
  rw [VV.fOp_toWord]
  exact congrArg (fun f => some (Instr.vpfirst f)) (VV.ofWord_toWord f 0x47)

theorem Laws.SlotWords.vcvt (f : VV) : Laws.SlotWords.Statement (.vcvt f) := by
  intro u w hu hw hf
  cases hu
  cases hw
  show decodeV _ = _
  delta decodeV
  rw [VV.fOp_toWord]
  exact congrArg (fun f => some (Instr.vcvt f)) (VV.ofWord_toWord f 0x50)

theorem Laws.SlotWords.vqnt (f : VV) : Laws.SlotWords.Statement (.vqnt f) := by
  intro u w hu hw hf
  cases hu
  cases hw
  show decodeV _ = _
  delta decodeV
  rw [VV.fOp_toWord]
  exact congrArg (fun f => some (Instr.vqnt f)) (VV.ofWord_toWord f 0x51)

theorem Laws.SlotWords.vdqnt (f : VV) : Laws.SlotWords.Statement (.vdqnt f) := by
  intro u w hu hw hf
  cases hu
  cases hw
  show decodeV _ = _
  delta decodeV
  rw [VV.fOp_toWord]
  exact congrArg (fun f => some (Instr.vdqnt f)) (VV.ofWord_toWord f 0x52)

theorem Laws.SlotWords.vtag (f : VV) : Laws.SlotWords.Statement (.vtag f) := by
  intro u w hu hw hf
  cases hu
  cases hw
  show decodeV _ = _
  delta decodeV
  rw [VV.fOp_toWord]
  exact congrArg (fun f => some (Instr.vtag f)) (VV.ofWord_toWord f 0x53)

theorem Laws.SlotWords.vgtag (f : VV) : Laws.SlotWords.Statement (.vgtag f) := by
  intro u w hu hw hf
  cases hu
  cases hw
  show decodeV _ = _
  delta decodeV
  rw [VV.fOp_toWord]
  exact congrArg (fun f => some (Instr.vgtag f)) (VV.ofWord_toWord f 0x54)

theorem Laws.SlotWords.vreda (f : VV) : Laws.SlotWords.Statement (.vreda f) := by
  intro u w hu hw hf
  cases hu
  cases hw
  show decodeV _ = _
  delta decodeV
  rw [VV.fOp_toWord]
  exact congrArg (fun f => some (Instr.vreda f)) (VV.ofWord_toWord f 0x60)

theorem Laws.SlotWords.vredm (f : VV) : Laws.SlotWords.Statement (.vredm f) := by
  intro u w hu hw hf
  cases hu
  cases hw
  show decodeV _ = _
  delta decodeV
  rw [VV.fOp_toWord]
  exact congrArg (fun f => some (Instr.vredm f)) (VV.ofWord_toWord f 0x61)

theorem Laws.SlotWords.vscan (f : VV) : Laws.SlotWords.Statement (.vscan f) := by
  intro u w hu hw hf
  cases hu
  cases hw
  show decodeV _ = _
  delta decodeV
  rw [VV.fOp_toWord]
  exact congrArg (fun f => some (Instr.vscan f)) (VV.ofWord_toWord f 0x62)

theorem Laws.SlotWords.vperm (f : VV) : Laws.SlotWords.Statement (.vperm f) := by
  intro u w hu hw hf
  cases hu
  cases hw
  show decodeV _ = _
  delta decodeV
  rw [VV.fOp_toWord]
  exact congrArg (fun f => some (Instr.vperm f)) (VV.ofWord_toWord f 0x63)

theorem Laws.SlotWords.vbcast (f : VV) : Laws.SlotWords.Statement (.vbcast f) := by
  intro u w hu hw hf
  cases hu
  cases hw
  show decodeV _ = _
  delta decodeV
  rw [VV.fOp_toWord]
  exact congrArg (fun f => some (Instr.vbcast f)) (VV.ofWord_toWord f 0x64)

theorem Laws.SlotWords.vzip (f : VV) : Laws.SlotWords.Statement (.vzip f) := by
  intro u w hu hw hf
  cases hu
  cases hw
  show decodeV _ = _
  delta decodeV
  rw [VV.fOp_toWord]
  exact congrArg (fun f => some (Instr.vzip f)) (VV.ofWord_toWord f 0x65)

theorem Laws.SlotWords.vunzip (f : VV) : Laws.SlotWords.Statement (.vunzip f) := by
  intro u w hu hw hf
  cases hu
  cases hw
  show decodeV _ = _
  delta decodeV
  rw [VV.fOp_toWord]
  exact congrArg (fun f => some (Instr.vunzip f)) (VV.ofWord_toWord f 0x66)

theorem Laws.SlotWords.vslide (f : VV) : Laws.SlotWords.Statement (.vslide f) := by
  intro u w hu hw hf
  cases hu
  cases hw
  show decodeV _ = _
  delta decodeV
  rw [VV.fOp_toWord]
  exact congrArg (fun f => some (Instr.vslide f)) (VV.ofWord_toWord f 0x67)

theorem Laws.SlotWords.vidx (f : VV) : Laws.SlotWords.Statement (.vidx f) := by
  intro u w hu hw hf
  cases hu
  cases hw
  show decodeV _ = _
  delta decodeV
  rw [VV.fOp_toWord]
  exact congrArg (fun f => some (Instr.vidx f)) (VV.ofWord_toWord f 0x68)

theorem Laws.SlotWords.vmov (f : VV) : Laws.SlotWords.Statement (.vmov f) := by
  intro u w hu hw hf
  cases hu
  cases hw
  show decodeV _ = _
  delta decodeV
  rw [VV.fOp_toWord]
  exact congrArg (fun f => some (Instr.vmov f)) (VV.ofWord_toWord f 0x69)

theorem Laws.SlotWords.vins (f : VV) : Laws.SlotWords.Statement (.vins f) := by
  intro u w hu hw hf
  cases hu
  cases hw
  show decodeV _ = _
  delta decodeV
  rw [VV.fOp_toWord]
  exact congrArg (fun f => some (Instr.vins f)) (VV.ofWord_toWord f 0x6A)

theorem Laws.SlotWords.vext (f : VV) : Laws.SlotWords.Statement (.vext f) := by
  intro u w hu hw hf
  cases hu
  cases hw
  show decodeV _ = _
  delta decodeV
  rw [VV.fOp_toWord]
  exact congrArg (fun f => some (Instr.vext f)) (VV.ofWord_toWord f 0x6B)

theorem Laws.SlotWords.accrd (f : VV) : Laws.SlotWords.Statement (.accrd f) := by
  intro u w hu hw hf
  cases hu
  cases hw
  show decodeV _ = _
  delta decodeV
  rw [VV.fOp_toWord]
  exact congrArg (fun f => some (Instr.accrd f)) (VV.ofWord_toWord f 0x70)

theorem Laws.SlotWords.accwr (f : VV) : Laws.SlotWords.Statement (.accwr f) := by
  intro u w hu hw hf
  cases hu
  cases hw
  show decodeV _ = _
  delta decodeV
  rw [VV.fOp_toWord]
  exact congrArg (fun f => some (Instr.accwr f)) (VV.ofWord_toWord f 0x71)

theorem Laws.SlotWords.vsq (f : VV) : Laws.SlotWords.Statement (.vsq f) := by
  intro u w hu hw hf
  cases hu
  cases hw
  show decodeV _ = _
  delta decodeV
  rw [VV.fOp_toWord]
  exact congrArg (fun f => some (Instr.vsq f)) (VV.ofWord_toWord f 0x72)

theorem Laws.SlotWords.mpw (f : MP) : Laws.SlotWords.Statement (.mpw f) := by
  intro u w hu hw hf
  cases hu
  cases hw
  show decodeM _ = _
  delta decodeM
  rw [MP.fOp_toWord]
  exact congrArg (fun f => some (Instr.mpw f)) (MP.ofWord_toWord f 0x01)

theorem Laws.SlotWords.mpr (f : MP) : Laws.SlotWords.Statement (.mpr f) := by
  intro u w hu hw hf
  cases hu
  cases hw
  show decodeM _ = _
  delta decodeM
  rw [MP.fOp_toWord]
  exact congrArg (fun f => some (Instr.mpr f)) (MP.ofWord_toWord f 0x02)

theorem Laws.SlotWords.mcall (f : MC) : Laws.SlotWords.Statement (.mcall f) := by
  intro u w hu hw hf
  cases hu
  cases hw
  show decodeM _ = _
  delta decodeM
  rw [MC.fOp_toWord]
  exact congrArg (fun f => some (Instr.mcall f)) (MC.ofWord_toWord f 0x03)

theorem Laws.SlotWords.wbld (f : MC) : Laws.SlotWords.Statement (.wbld f) := by
  intro u w hu hw hf
  cases hu
  cases hw
  show decodeM _ = _
  delta decodeM
  rw [MC.fOp_toWord]
  exact congrArg (fun f => some (Instr.wbld f)) (MC.ofWord_toWord f 0x04)

theorem Laws.SlotWords.wbclr (f : MC) : Laws.SlotWords.Statement (.wbclr f) := by
  intro u w hu hw hf
  cases hu
  cases hw
  show decodeM _ = _
  delta decodeM
  rw [MC.fOp_toWord]
  exact congrArg (fun f => some (Instr.wbclr f)) (MC.ofWord_toWord f 0x05)

theorem Laws.SlotWords.accz (f : MC) : Laws.SlotWords.Statement (.accz f) := by
  intro u w hu hw hf
  cases hu
  cases hw
  show decodeM _ = _
  delta decodeM
  rw [MC.fOp_toWord]
  exact congrArg (fun f => some (Instr.accz f)) (MC.ofWord_toWord f 0x06)

theorem Laws.SlotWords.geval (f : MC) : Laws.SlotWords.Statement (.geval f) := by
  intro u w hu hw hf
  cases hu
  cases hw
  show decodeM _ = _
  delta decodeM
  rw [MC.fOp_toWord]
  exact congrArg (fun f => some (Instr.geval f)) (MC.ofWord_toWord f 0x07)

theorem Laws.SlotWords.mqstat (f : MC) : Laws.SlotWords.Statement (.mqstat f) := by
  intro u w hu hw hf
  cases hu
  cases hw
  show decodeM _ = _
  delta decodeM
  rw [MC.fOp_toWord]
  exact congrArg (fun f => some (Instr.mqstat f)) (MC.ofWord_toWord f 0x08)

theorem Laws.SlotWords.lds (f : LP) : Laws.SlotWords.Statement (.lds f) := by
  intro u w hu hw hf
  cases hu
  cases hw
  show decodeL _ = _
  delta decodeL
  rw [LP.fOp_toWord]
  exact congrArg (fun f => some (Instr.lds f)) (LP.ofWord_toWord f 0x01)

theorem Laws.SlotWords.ldsv (f : LP) : Laws.SlotWords.Statement (.ldsv f) := by
  intro u w hu hw hf
  cases hu
  cases hw
  show decodeL _ = _
  delta decodeL
  rw [LP.fOp_toWord]
  exact congrArg (fun f => some (Instr.ldsv f)) (LP.ofWord_toWord f 0x02)

theorem Laws.SlotWords.sts (f : LP) : Laws.SlotWords.Statement (.sts f) := by
  intro u w hu hw hf
  cases hu
  cases hw
  show decodeT _ = _
  delta decodeT
  rw [LP.fOp_toWord]
  exact congrArg (fun f => some (Instr.sts f)) (LP.ofWord_toWord f 0x01)

theorem Laws.SlotWords.stsv (f : LP) : Laws.SlotWords.Statement (.stsv f) := by
  intro u w hu hw hf
  cases hu
  cases hw
  show decodeT _ = _
  delta decodeT
  rw [LP.fOp_toWord]
  exact congrArg (fun f => some (Instr.stsv f)) (LP.ofWord_toWord f 0x02)

theorem Laws.SlotWords.ldm (f : LM) : Laws.SlotWords.Statement (.ldm f) := by
  intro u w hu hw hf
  cases hu
  cases hw
  show decodeL _ = _
  delta decodeL
  rw [LM.fOp_toWord]
  exact congrArg (fun f => some (Instr.ldm f)) (LM.ofWord_toWord f 0x03)

theorem Laws.SlotWords.ldmv (f : LM) : Laws.SlotWords.Statement (.ldmv f) := by
  intro u w hu hw hf
  cases hu
  cases hw
  show decodeL _ = _
  delta decodeL
  rw [LM.fOp_toWord]
  exact congrArg (fun f => some (Instr.ldmv f)) (LM.ofWord_toWord f 0x04)

theorem Laws.SlotWords.stm (f : LM) : Laws.SlotWords.Statement (.stm f) := by
  intro u w hu hw hf
  cases hu
  cases hw
  show decodeT _ = _
  delta decodeT
  rw [LM.fOp_toWord]
  exact congrArg (fun f => some (Instr.stm f)) (LM.ofWord_toWord f 0x03)

theorem Laws.SlotWords.stmv (f : LM) : Laws.SlotWords.Statement (.stmv f) := by
  intro u w hu hw hf
  cases hu
  cases hw
  show decodeT _ = _
  delta decodeT
  rw [LM.fOp_toWord]
  exact congrArg (fun f => some (Instr.stmv f)) (LM.ofWord_toWord f 0x04)

theorem Laws.SlotWords.ldms (f : LM) : Laws.SlotWords.Statement (.ldms f) := by
  intro u w hu hw hf
  cases hu
  cases hw
  show decodeL _ = _
  delta decodeL
  rw [LM.fOp_toWord]
  exact congrArg (fun f => some (Instr.ldms f)) (LM.ofWord_toWord f 0x05)

theorem Laws.SlotWords.ldmvs (f : LM) : Laws.SlotWords.Statement (.ldmvs f) := by
  intro u w hu hw hf
  cases hu
  cases hw
  show decodeL _ = _
  delta decodeL
  rw [LM.fOp_toWord]
  exact congrArg (fun f => some (Instr.ldmvs f)) (LM.ofWord_toWord f 0x06)

theorem Laws.SlotWords.ldt (f : LT) : Laws.SlotWords.Statement (.ldt f) := by
  intro u w hu hw hf
  cases hu
  cases hw
  show decodeL _ = _
  delta decodeL
  rw [LT.fOp_toWord]
  exact congrArg (fun f => some (Instr.ldt f)) (LT.ofWord_toWord f 0x07)

theorem Laws.SlotWords.stt (f : LT) : Laws.SlotWords.Statement (.stt f) := by
  intro u w hu hw hf
  cases hu
  cases hw
  show decodeT _ = _
  delta decodeT
  rw [LT.fOp_toWord]
  exact congrArg (fun f => some (Instr.stt f)) (LT.ofWord_toWord f 0x05)

theorem Laws.SlotWords.probe (f : LX) : Laws.SlotWords.Statement (.probe f) := by
  intro u w hu hw hf
  cases hu
  cases hw
  show decodeL _ = _
  delta decodeL
  rw [LX.fOp_toWord]
  exact congrArg (fun f => some (Instr.probe f)) (LX.ofWord_toWord f 0x08)

theorem Laws.SlotWords.sqset (f : LX) : Laws.SlotWords.Statement (.sqset f) := by
  intro u w hu hw hf
  cases hu
  cases hw
  show decodeL _ = _
  delta decodeL
  rw [LX.fOp_toWord]
  exact congrArg (fun f => some (Instr.sqset f)) (LX.ofWord_toWord f 0x09)

theorem Laws.SlotWords.sqclr (f : LX) : Laws.SlotWords.Statement (.sqclr f) := by
  intro u w hu hw hf
  cases hu
  cases hw
  show decodeL _ = _
  delta decodeL
  rw [LX.fOp_toWord]
  exact congrArg (fun f => some (Instr.sqclr f)) (LX.ofWord_toWord f 0x0A)

theorem Laws.SlotWords.fence (f : LX) : Laws.SlotWords.Statement (.fence f) := by
  intro u w hu hw hf
  cases hu
  cases hw
  show decodeL _ = _
  delta decodeL
  rw [LX.fOp_toWord]
  exact congrArg (fun f => some (Instr.fence f)) (LX.ofWord_toWord f 0x0B)

theorem Laws.SlotWords.flush (f : LX) : Laws.SlotWords.Statement (.flush f) := by
  intro u w hu hw hf
  cases hu
  cases hw
  show decodeL _ = _
  delta decodeL
  rw [LX.fOp_toWord]
  exact congrArg (fun f => some (Instr.flush f)) (LX.ofWord_toWord f 0x0C)

theorem Laws.SlotWords.inval (f : LX) : Laws.SlotWords.Statement (.inval f) := by
  intro u w hu hw hf
  cases hu
  cases hw
  show decodeL _ = _
  delta decodeL
  rw [LX.fOp_toWord]
  exact congrArg (fun f => some (Instr.inval f)) (LX.ofWord_toWord f 0x0D)

theorem Laws.SlotWords.nres (f : LX) : Laws.SlotWords.Statement (.nres f) := by
  intro u w hu hw hf
  cases hu
  cases hw
  show decodeL _ = _
  delta decodeL
  rw [LX.fOp_toWord]
  exact congrArg (fun f => some (Instr.nres f)) (LX.ofWord_toWord f 0x0E)

theorem Laws.SlotWords.nstat (f : LX) : Laws.SlotWords.Statement (.nstat f) := by
  intro u w hu hw hf
  cases hu
  cases hw
  show decodeL _ = _
  delta decodeL
  rw [LX.fOp_toWord]
  exact congrArg (fun f => some (Instr.nstat f)) (LX.ofWord_toWord f 0x0F)

theorem Laws.SlotWords.nkill (f : LX) : Laws.SlotWords.Statement (.nkill f) := by
  intro u w hu hw hf
  cases hu
  cases hw
  show decodeL _ = _
  delta decodeL
  rw [LX.fOp_toWord]
  exact congrArg (fun f => some (Instr.nkill f)) (LX.ofWord_toWord f 0x10)

theorem Laws.SlotWords.aadd (f : LM) : Laws.SlotWords.Statement (.aadd f) := by
  intro u w hu hw hf
  cases hu
  cases hw
  show decodeL _ = _
  delta decodeL
  rw [LM.fOp_toWord]
  exact congrArg (fun f => some (Instr.aadd f)) (LM.ofWord_toWord f 0x20)

theorem Laws.SlotWords.afadd (f : LM) : Laws.SlotWords.Statement (.afadd f) := by
  intro u w hu hw hf
  cases hu
  cases hw
  show decodeL _ = _
  delta decodeL
  rw [LM.fOp_toWord]
  exact congrArg (fun f => some (Instr.afadd f)) (LM.ofWord_toWord f 0x21)

theorem Laws.SlotWords.amins (f : LM) : Laws.SlotWords.Statement (.amins f) := by
  intro u w hu hw hf
  cases hu
  cases hw
  show decodeL _ = _
  delta decodeL
  rw [LM.fOp_toWord]
  exact congrArg (fun f => some (Instr.amins f)) (LM.ofWord_toWord f 0x22)

theorem Laws.SlotWords.amaxs (f : LM) : Laws.SlotWords.Statement (.amaxs f) := by
  intro u w hu hw hf
  cases hu
  cases hw
  show decodeL _ = _
  delta decodeL
  rw [LM.fOp_toWord]
  exact congrArg (fun f => some (Instr.amaxs f)) (LM.ofWord_toWord f 0x23)

theorem Laws.SlotWords.aminn (f : LM) : Laws.SlotWords.Statement (.aminn f) := by
  intro u w hu hw hf
  cases hu
  cases hw
  show decodeL _ = _
  delta decodeL
  rw [LM.fOp_toWord]
  exact congrArg (fun f => some (Instr.aminn f)) (LM.ofWord_toWord f 0x24)

theorem Laws.SlotWords.amaxn (f : LM) : Laws.SlotWords.Statement (.amaxn f) := by
  intro u w hu hw hf
  cases hu
  cases hw
  show decodeL _ = _
  delta decodeL
  rw [LM.fOp_toWord]
  exact congrArg (fun f => some (Instr.amaxn f)) (LM.ofWord_toWord f 0x25)

theorem Laws.SlotWords.afmin (f : LM) : Laws.SlotWords.Statement (.afmin f) := by
  intro u w hu hw hf
  cases hu
  cases hw
  show decodeL _ = _
  delta decodeL
  rw [LM.fOp_toWord]
  exact congrArg (fun f => some (Instr.afmin f)) (LM.ofWord_toWord f 0x26)

theorem Laws.SlotWords.afmax (f : LM) : Laws.SlotWords.Statement (.afmax f) := by
  intro u w hu hw hf
  cases hu
  cases hw
  show decodeL _ = _
  delta decodeL
  rw [LM.fOp_toWord]
  exact congrArg (fun f => some (Instr.afmax f)) (LM.ofWord_toWord f 0x27)

theorem Laws.SlotWords.afminp (f : LM) : Laws.SlotWords.Statement (.afminp f) := by
  intro u w hu hw hf
  cases hu
  cases hw
  show decodeL _ = _
  delta decodeL
  rw [LM.fOp_toWord]
  exact congrArg (fun f => some (Instr.afminp f)) (LM.ofWord_toWord f 0x28)

theorem Laws.SlotWords.afmaxp (f : LM) : Laws.SlotWords.Statement (.afmaxp f) := by
  intro u w hu hw hf
  cases hu
  cases hw
  show decodeL _ = _
  delta decodeL
  rw [LM.fOp_toWord]
  exact congrArg (fun f => some (Instr.afmaxp f)) (LM.ofWord_toWord f 0x29)

theorem Laws.SlotWords.aand (f : LM) : Laws.SlotWords.Statement (.aand f) := by
  intro u w hu hw hf
  cases hu
  cases hw
  show decodeL _ = _
  delta decodeL
  rw [LM.fOp_toWord]
  exact congrArg (fun f => some (Instr.aand f)) (LM.ofWord_toWord f 0x2A)

theorem Laws.SlotWords.aor (f : LM) : Laws.SlotWords.Statement (.aor f) := by
  intro u w hu hw hf
  cases hu
  cases hw
  show decodeL _ = _
  delta decodeL
  rw [LM.fOp_toWord]
  exact congrArg (fun f => some (Instr.aor f)) (LM.ofWord_toWord f 0x2B)

theorem Laws.SlotWords.axor (f : LM) : Laws.SlotWords.Statement (.axor f) := by
  intro u w hu hw hf
  cases hu
  cases hw
  show decodeL _ = _
  delta decodeL
  rw [LM.fOp_toWord]
  exact congrArg (fun f => some (Instr.axor f)) (LM.ofWord_toWord f 0x2C)

theorem Laws.SlotWords.axchg (f : LM) : Laws.SlotWords.Statement (.axchg f) := by
  intro u w hu hw hf
  cases hu
  cases hw
  show decodeL _ = _
  delta decodeL
  rw [LM.fOp_toWord]
  exact congrArg (fun f => some (Instr.axchg f)) (LM.ofWord_toWord f 0x2D)

theorem Laws.SlotWords.acas (f : LM) : Laws.SlotWords.Statement (.acas f) := by
  intro u w hu hw hf
  cases hu
  cases hw
  show decodeL _ = _
  delta decodeL
  rw [LM.fOp_toWord]
  exact congrArg (fun f => some (Instr.acas f)) (LM.ofWord_toWord f 0x2E)

theorem Laws.SlotWords.ncas (f : LX) : Laws.SlotWords.Statement (.ncas f) := by
  intro u w hu hw hf
  cases hu
  cases hw
  show decodeL _ = _
  delta decodeL
  rw [LX.fOp_toWord]
  exact congrArg (fun f => some (Instr.ncas f)) (LX.ofWord_toWord f 0x2F)

theorem Laws.SlotWords.scat (f : LM) : Laws.SlotWords.Statement (.scat f) := by
  intro u w hu hw hf
  cases hu
  cases hw
  show decodeT _ = _
  delta decodeT
  rw [LM.fOp_toWord]
  exact congrArg (fun f => some (Instr.scat f)) (LM.ofWord_toWord f 0x06)

theorem Laws.SlotWords.scadd (f : LM) : Laws.SlotWords.Statement (.scadd f) := by
  intro u w hu hw hf
  cases hu
  cases hw
  show decodeT _ = _
  delta decodeT
  rw [LM.fOp_toWord]
  exact congrArg (fun f => some (Instr.scadd f)) (LM.ofWord_toWord f 0x07)

theorem Laws.SlotWords.cpy (f : CC) : Laws.SlotWords.Statement (.cpy f) := by
  intro u w hu hw hf
  cases hu
  cases hw
  show decodeC _ = _
  delta decodeC
  rw [CC.fOp_toWord]
  exact congrArg (fun f => some (Instr.cpy f)) (CC.ofWord_toWord f 0x01)

theorem Laws.SlotWords.cpyr (f : CC) : Laws.SlotWords.Statement (.cpyr f) := by
  intro u w hu hw hf
  cases hu
  cases hw
  show decodeC _ = _
  delta decodeC
  rw [CC.fOp_toWord]
  exact congrArg (fun f => some (Instr.cpyr f)) (CC.ofWord_toWord f 0x03)

theorem Laws.SlotWords.cpytConvert (f : CC) : Laws.SlotWords.Statement (.cpytConvert f) := by
  intro u w hu hw hf
  cases hu
  cases hw
  have hs : (f.sub == 0) = true := chk_nil (List.append_eq_nil_iff.1 hf).2
  rw [beq_iff_eq] at hs
  show decodeC _ = _
  delta decodeC
  rw [CC.fOp_toWord]
  show (match (CC.ofWord (f.toWord 0x02)).sub.toNat with
    | 0 => some (Instr.cpytConvert (CC.ofWord (f.toWord 0x02)))
    | 1 => some (.cpytTranspose (CC.ofWord (f.toWord 0x02)))
    | 2 => some (.cpytExpand (CC.ofWord (f.toWord 0x02)))
    | 3 => some (.cpytCompress (CC.ofWord (f.toWord 0x02)))
    | _ => none) = _
  rw [CC.ofWord_toWord, hs]
  rfl

theorem Laws.SlotWords.cpytTranspose (f : CC) : Laws.SlotWords.Statement (.cpytTranspose f) := by
  intro u w hu hw hf
  cases hu
  cases hw
  have hs : (f.sub == 1) = true := chk_nil (List.append_eq_nil_iff.1 hf).2
  rw [beq_iff_eq] at hs
  show decodeC _ = _
  delta decodeC
  rw [CC.fOp_toWord]
  show (match (CC.ofWord (f.toWord 0x02)).sub.toNat with
    | 0 => some (Instr.cpytConvert (CC.ofWord (f.toWord 0x02)))
    | 1 => some (.cpytTranspose (CC.ofWord (f.toWord 0x02)))
    | 2 => some (.cpytExpand (CC.ofWord (f.toWord 0x02)))
    | 3 => some (.cpytCompress (CC.ofWord (f.toWord 0x02)))
    | _ => none) = _
  rw [CC.ofWord_toWord, hs]
  rfl

theorem Laws.SlotWords.cpytExpand (f : CC) : Laws.SlotWords.Statement (.cpytExpand f) := by
  intro u w hu hw hf
  cases hu
  cases hw
  have hs : (f.sub == 2) = true := chk_nil (List.append_eq_nil_iff.1 hf).2
  rw [beq_iff_eq] at hs
  show decodeC _ = _
  delta decodeC
  rw [CC.fOp_toWord]
  show (match (CC.ofWord (f.toWord 0x02)).sub.toNat with
    | 0 => some (Instr.cpytConvert (CC.ofWord (f.toWord 0x02)))
    | 1 => some (.cpytTranspose (CC.ofWord (f.toWord 0x02)))
    | 2 => some (.cpytExpand (CC.ofWord (f.toWord 0x02)))
    | 3 => some (.cpytCompress (CC.ofWord (f.toWord 0x02)))
    | _ => none) = _
  rw [CC.ofWord_toWord, hs]
  rfl

theorem Laws.SlotWords.cpytCompress (f : CC) : Laws.SlotWords.Statement (.cpytCompress f) := by
  intro u w hu hw hf
  cases hu
  cases hw
  have hs : (f.sub == 3) = true := chk_nil (List.append_eq_nil_iff.1 hf).2
  rw [beq_iff_eq] at hs
  show decodeC _ = _
  delta decodeC
  rw [CC.fOp_toWord]
  show (match (CC.ofWord (f.toWord 0x02)).sub.toNat with
    | 0 => some (Instr.cpytConvert (CC.ofWord (f.toWord 0x02)))
    | 1 => some (.cpytTranspose (CC.ofWord (f.toWord 0x02)))
    | 2 => some (.cpytExpand (CC.ofWord (f.toWord 0x02)))
    | 3 => some (.cpytCompress (CC.ofWord (f.toWord 0x02)))
    | _ => none) = _
  rw [CC.ofWord_toWord, hs]
  rfl

theorem Laws.SlotWords.gath (f : CC) : Laws.SlotWords.Statement (.gath f) := by
  intro u w hu hw hf
  cases hu
  cases hw
  show decodeC _ = _
  delta decodeC
  rw [CC.fOp_toWord]
  exact congrArg (fun f => some (Instr.gath f)) (CC.ofWord_toWord f 0x04)

theorem Laws.SlotWords.scae (f : CC) : Laws.SlotWords.Statement (.scae f) := by
  intro u w hu hw hf
  cases hu
  cases hw
  show decodeC _ = _
  delta decodeC
  rw [CC.fOp_toWord]
  exact congrArg (fun f => some (Instr.scae f)) (CC.ofWord_toWord f 0x05)

theorem Laws.SlotWords.cred (f : CC) : Laws.SlotWords.Statement (.cred f) := by
  intro u w hu hw hf
  cases hu
  cases hw
  show decodeC _ = _
  delta decodeC
  rw [CC.fOp_toWord]
  exact congrArg (fun f => some (Instr.cred f)) (CC.ofWord_toWord f 0x06)

theorem Laws.SlotWords.xpose (f : CX) : Laws.SlotWords.Statement (.xpose f) := by
  intro u w hu hw hf
  cases hu
  cases hw
  show decodeC _ = _
  delta decodeC
  rw [CX.fOp_toWord]
  exact congrArg (fun f => some (Instr.xpose f)) (CX.ofWord_toWord f 0x10)

theorem Laws.SlotWords.xcvt (f : CX) : Laws.SlotWords.Statement (.xcvt f) := by
  intro u w hu hw hf
  cases hu
  cases hw
  show decodeC _ = _
  delta decodeC
  rw [CX.fOp_toWord]
  exact congrArg (fun f => some (Instr.xcvt f)) (CX.ofWord_toWord f 0x11)

theorem Laws.SlotWords.xexp (f : CX) : Laws.SlotWords.Statement (.xexp f) := by
  intro u w hu hw hf
  cases hu
  cases hw
  show decodeC _ = _
  delta decodeC
  rw [CX.fOp_toWord]
  exact congrArg (fun f => some (Instr.xexp f)) (CX.ofWord_toWord f 0x12)

theorem Laws.SlotWords.xrd (f : CX) : Laws.SlotWords.Statement (.xrd f) := by
  intro u w hu hw hf
  cases hu
  cases hw
  show decodeC _ = _
  delta decodeC
  rw [CX.fOp_toWord]
  exact congrArg (fun f => some (Instr.xrd f)) (CX.ofWord_toWord f 0x13)

theorem Laws.SlotWords.engineCommandStart (core : Nat) (id : Nat) (lag : List (Nat × Nat)) : Laws.SlotWords.Statement (.engineCommandStart core id lag) := by
  intro u w hu
  cases hu

theorem Laws.SlotWords.copyCommandCompletion (core : Nat) (id : Nat) (answer : Nat) (ops : List (Bool × Nat)) : Laws.SlotWords.Statement (.copyCommandCompletion core id answer ops) := by
  intro u w hu
  cases hu

theorem Laws.SlotWords.mma (core : Nat) (id : Nat) (reads : List Nat) (go : Bool) : Laws.SlotWords.Statement (.mma core id reads go) := by
  intro u w hu
  cases hu

theorem Laws.SlotWords.mmaNm (core : Nat) (id : Nat) (reads : List Nat) (go : Bool) : Laws.SlotWords.Statement (.mmaNm core id reads go) := by
  intro u w hu
  cases hu

theorem Laws.SlotWords.mmaNmt (core : Nat) (id : Nat) (reads : List Nat) (go : Bool) : Laws.SlotWords.Statement (.mmaNmt core id reads go) := by
  intro u w hu
  cases hu

theorem Laws.SlotWords.mmaCoop (core : Nat) (id : Nat) (reads : List Nat) (go : Bool) : Laws.SlotWords.Statement (.mmaCoop core id reads go) := by
  intro u w hu
  cases hu

theorem Laws.SlotWords.contract (core : Nat) (id : Nat) (reads : List (Nat × Nat) × List Nat) (go : Bool) : Laws.SlotWords.Statement (.contract core id reads go) := by
  intro u w hu
  cases hu

theorem Laws.SlotWords.accExport (core : Nat) (id : Nat) (units : List Nat) (go : Bool) : Laws.SlotWords.Statement (.accExport core id units go) := by
  intro u w hu
  cases hu

theorem Laws.SlotWords.accScale (core : Nat) (id : Nat) (reads : List Nat) (go : Bool) : Laws.SlotWords.Statement (.accScale core id reads go) := by
  intro u w hu
  cases hu

theorem Laws.SlotWords.matrixCommandStart (core : Nat) (id : Nat) (lag : List (Nat × Nat)) : Laws.SlotWords.Statement (.matrixCommandStart core id lag) := by
  intro u w hu
  cases hu

theorem Laws.SlotWords.matrixCommandCompletion (core : Nat) (id : Nat) (reads : List Nat) (go : Bool) : Laws.SlotWords.Statement (.matrixCommandCompletion core id reads go) := by
  intro u w hu
  cases hu

theorem Laws.SlotWords.lodeEvaluation (core : Nat) (id : Nat) (lag : List (Nat × Nat)) (reads : List Nat) (writes : List Nat) (go : Bool) : Laws.SlotWords.Statement (.lodeEvaluation core id lag reads writes go) := by
  intro u w hu
  cases hu

theorem Laws.SlotWords.streamFetch (ctx : Nat) (stream : Nat) (count : Nat) (reads : List (Nat × Nat) × List Nat) : Laws.SlotWords.Statement (.streamFetch ctx stream count reads) := by
  intro u w hu
  cases hu

theorem Laws.SlotWords.deferredUpdateApply (id : Nat) : Laws.SlotWords.Statement (.deferredUpdateApply id) := by
  intro u w hu
  cases hu

theorem Laws.SlotWords.updateOnlyMerge (core : Nat) (line : Nat) (first : List Nat) : Laws.SlotWords.Statement (.updateOnlyMerge core line first) := by
  intro u w hu
  cases hu

theorem Laws.SlotWords.orderedUpdateArrival (id : Nat) : Laws.SlotWords.Statement (.orderedUpdateArrival id) := by
  intro u w hu
  cases hu

theorem Laws.SlotWords.orderedUpdateResend (id : Nat) : Laws.SlotWords.Statement (.orderedUpdateResend id) := by
  intro u w hu
  cases hu

theorem Laws.SlotWords.pageMigration (frame : Nat) (target : Nat) : Laws.SlotWords.Statement (.pageMigration frame target) := by
  intro u w hu
  cases hu

theorem Laws.SlotWords.nameShootdown (holder : Nat) (name : BitVec 128) : Laws.SlotWords.Statement (.nameShootdown holder name) := by
  intro u w hu
  cases hu

theorem Laws.SlotWords.remoteNameResolve (serial : Nat) (asid : Nat) (name : BitVec 128) (kind : Nat) (place : Nat × Nat × Nat) : Laws.SlotWords.Statement (.remoteNameResolve serial asid name kind place) := by
  intro u w hu
  cases hu

theorem Laws.SlotWords.remoteDelivery (serial : Nat) (asid : Nat) (name : BitVec 128) (off : Nat) (data : List (BitVec 8)) (poison : List Bool) (signal : Option (Nat × Nat × Nat)) : Laws.SlotWords.Statement (.remoteDelivery serial asid name off data poison signal) := by
  intro u w hu
  cases hu

theorem Laws.SlotWords.remoteCredUpdate (serial : Nat) (asid : Nat) (name : BitVec 128) (off : Nat) (value : BitVec 64) (poison : Bool) (fmt : Nat) (sub : Nat) (last : Bool × Option (Nat × Nat × Nat)) : Laws.SlotWords.Statement (.remoteCredUpdate serial asid name off value poison fmt sub last) := by
  intro u w hu
  cases hu

theorem Laws.SlotWords.packetRetransmit (peer : Nat) (n : Nat) : Laws.SlotWords.Statement (.packetRetransmit peer n) := by
  intro u w hu
  cases hu

theorem Laws.SlotWords.peerUnreachable (lost : Nat × List Nat) : Laws.SlotWords.Statement (.peerUnreachable lost) := by
  intro u w hu
  cases hu

theorem Laws.SlotWords.exponentListReset (channel : Nat × Bool) : Laws.SlotWords.Statement (.exponentListReset channel) := by
  intro u w hu
  cases hu

theorem Laws.SlotWords.swapPeriod (ended : Nat) : Laws.SlotWords.Statement (.swapPeriod ended) := by
  intro u w hu
  cases hu

theorem Laws.SlotWords.bind (cluster : Nat) (record : Nat) (seq : Nat) (node : Nat) (team : Nat) (tasks : BitVec 64 × List Nat) : Laws.SlotWords.Statement (.bind cluster record seq node team tasks) := by
  intro u w hu
  cases hu

theorem Laws.SlotWords.swapout (cluster : Nat) (record : Nat) : Laws.SlotWords.Statement (.swapout cluster record) := by
  intro u w hu
  cases hu

theorem Laws.SlotWords.swapin (cluster : Nat) (records : List Nat) (home : Nat) (homeRecords : List Nat) (masks : List (BitVec 64)) : Laws.SlotWords.Statement (.swapin cluster records home homeRecords masks) := by
  intro u w hu
  cases hu

theorem Laws.SlotWords.bindAbort (cluster : Nat) (record : Nat) : Laws.SlotWords.Statement (.bindAbort cluster record) := by
  intro u w hu
  cases hu

theorem Laws.SlotWords.launchStart (seq : Nat) : Laws.SlotWords.Statement (.launchStart seq) := by
  intro u w hu
  cases hu

theorem Laws.SlotWords.nodeReady (seq : Nat) (node : Nat) : Laws.SlotWords.Statement (.nodeReady seq node) := by
  intro u w hu
  cases hu

theorem Laws.SlotWords.launchComplete (seq : Nat) : Laws.SlotWords.Statement (.launchComplete seq) := by
  intro u w hu
  cases hu

theorem Laws.SlotWords.caprd (host : Nat) (msg : List (BitVec 8)) : Laws.SlotWords.Statement (.caprd host msg) := by
  intro u w hu
  cases hu

theorem Laws.SlotWords.memwr (host : Nat) (msg : List (BitVec 8)) : Laws.SlotWords.Statement (.memwr host msg) := by
  intro u w hu
  cases hu

theorem Laws.SlotWords.memrd (host : Nat) (msg : List (BitVec 8)) : Laws.SlotWords.Statement (.memrd host msg) := by
  intro u w hu
  cases hu

theorem Laws.SlotWords.imgld (host : Nat) (msg : List (BitVec 8)) : Laws.SlotWords.Statement (.imgld host msg) := by
  intro u w hu
  cases hu

theorem Laws.SlotWords.imgul (host : Nat) (msg : List (BitVec 8)) : Laws.SlotWords.Statement (.imgul host msg) := by
  intro u w hu
  cases hu

theorem Laws.SlotWords.libld (host : Nat) (msg : List (BitVec 8)) (version : Option Nat) : Laws.SlotWords.Statement (.libld host msg version) := by
  intro u w hu
  cases hu

theorem Laws.SlotWords.qset (host : Nat) (msg : List (BitVec 8)) : Laws.SlotWords.Statement (.qset host msg) := by
  intro u w hu
  cases hu

theorem Laws.SlotWords.launch (host : Nat) (msg : List (BitVec 8)) : Laws.SlotWords.Statement (.launch host msg) := by
  intro u w hu
  cases hu

theorem Laws.SlotWords.abort (host : Nat) (msg : List (BitVec 8)) : Laws.SlotWords.Statement (.abort host msg) := by
  intro u w hu
  cases hu

theorem Laws.SlotWords.watch (host : Nat) (msg : List (BitVec 8)) : Laws.SlotWords.Statement (.watch host msg) := by
  intro u w hu
  cases hu

theorem Laws.SlotWords.mapupd (host : Nat) (msg : List (BitVec 8)) : Laws.SlotWords.Statement (.mapupd host msg) := by
  intro u w hu
  cases hu

theorem Laws.SlotWords.objnew (host : Nat) (msg : List (BitVec 8)) (base : Nat) : Laws.SlotWords.Statement (.objnew host msg base) := by
  intro u w hu
  cases hu

theorem Laws.SlotWords.asset (host : Nat) (msg : List (BitVec 8)) : Laws.SlotWords.Statement (.asset host msg) := by
  intro u w hu
  cases hu

theorem Laws.SlotWords.status (msg : List (BitVec 8)) : Laws.SlotWords.Statement (.status msg) := by
  intro u w hu
  cases hu

theorem Laws.SlotWords.pcap (msg : List (BitVec 8)) : Laws.SlotWords.Statement (.pcap msg) := by
  intro u w hu
  cases hu

theorem Laws.SlotWords.reset (msg : List (BitVec 8)) : Laws.SlotWords.Statement (.reset msg) := by
  intro u w hu
  cases hu

theorem Laws.SlotWords.fwupd (msg : List (BitVec 8)) : Laws.SlotWords.Statement (.fwupd msg) := by
  intro u w hu
  cases hu

theorem Laws.SlotWords.zeroise (msg : List (BitVec 8)) : Laws.SlotWords.Statement (.zeroise msg) := by
  intro u w hu
  cases hu

theorem Laws.SlotWords.moduleReset (overman : Bool) (fireboss : Bool) (failed : List (Nat × Nat)) : Laws.SlotWords.Statement (.moduleReset overman fireboss failed) := by
  intro u w hu
  cases hu

theorem Laws.SlotWords.sensorSample (rail : Nat) (clk : Nat) (tj : Nat) (inlet : Nat) (power : Nat) (broken : Bool) : Laws.SlotWords.Statement (.sensorSample rail clk tj inlet power broken) := by
  intro u w hu
  cases hu

theorem Laws.SlotWords.clockThrottle : Laws.SlotWords.Statement (.clockThrottle) := by
  intro u w hu
  cases hu

theorem Laws.SlotWords.unitRemoval (kind : Nat) (unit : Nat) : Laws.SlotWords.Statement (.unitRemoval kind unit) := by
  intro u w hu
  cases hu

theorem Laws.SlotWords.flushInvalCompletion (ctx : Nat) : Laws.SlotWords.Statement (.flushInvalCompletion ctx) := by
  intro u w hu
  cases hu

theorem Laws.SlotWords.linkTraining (link : Nat) (peer : Nat) (coded : Bool) : Laws.SlotWords.Statement (.linkTraining link peer coded) := by
  intro u w hu
  cases hu

theorem Laws.SlotWords.endpointUnlistedOp (host : Nat) (msg : List (BitVec 8)) : Laws.SlotWords.Statement (.endpointUnlistedOp host msg) := by
  intro u w hu
  cases hu

theorem Laws.SlotWords.headframeUnlistedOp (msg : List (BitVec 8)) : Laws.SlotWords.Statement (.headframeUnlistedOp msg) := by
  intro u w hu
  cases hu

end Sys2Proof
end

