-- ==== Sys2Proof/Laws/Sync.lean ====
section
/-! SUPPORT. Semaphores: what each reads as after one of them is changed. -/

namespace Sys2Proof.Machine

theorem launches_updNode (s : State) (q n : Nat) (f : Node → Node) :
    (s.updNode q n f).launches = revise s.launches q fun l => { l with nodes := revise l.nodes n f } := rfl

theorem launchNode_updNode (s : State) (q n q' n' : Nat) (f : Node → Node) :
    (s.updNode q n f).launchNode q' n' =
      if q' = q ∧ n' = n ∧ listed (look noLaunch s.launches q).nodes n = true
      then f (s.launchNode q n) else s.launchNode q' n' := by
  unfold State.launchNode
  rw [launches_updNode, look_revise]
  by_cases hq : q' = q
  · subst hq
    by_cases ha : listed s.launches q' = true
    · rw [if_pos ⟨rfl, ha⟩]
      show look {} (revise (look noLaunch s.launches q').nodes n f) n' = _
      rw [look_revise]
      by_cases hn : n' = n
      · subst hn; simp
      · simp [hn]
    · have hd : look noLaunch s.launches q' = noLaunch := look_not_listed _ _ _ (by simpa using ha)
      rw [if_neg (fun h => ha h.2), hd]
      simp [noLaunch, listed]
  · rw [if_neg (fun h => hq h.1), if_neg (fun h => hq h.1)]

/-- The semaphore that was set reads as it was set, where it exists: a cluster's always does, a grid's with its node. -/
theorem sem_setSem_same (s : State) (cl : Nat) (i : TaskInfo) (n : Nat) (x : Sem)
    (h : i.onGrid n = false ∨
      listed (look noLaunch s.launches i.seq).nodes i.node = true) :
    (s.setSem cl i n x).sem cl i n = x := by
  unfold State.setSem State.sem
  by_cases hg : i.onGrid n = true
  · rw [if_pos hg, if_pos hg]
    rcases h with h | h
    · rw [h] at hg; simp at hg
    · rw [launchNode_updNode, if_pos ⟨rfl, rfl, h⟩]; simp
  · rw [if_neg hg, if_neg hg]; simp

/-- Every semaphore of another number stands. -/
theorem sem_setSem_other (s : State) (cl cl' : Nat) (i j : TaskInfo) (n m : Nat) (x : Sem) (h : m ≠ n) :
    (s.setSem cl i n x).sem cl' j m = s.sem cl' j m := by
  unfold State.setSem State.sem
  by_cases hg : i.onGrid n = true
  · rw [if_pos hg]
    by_cases hj : j.onGrid m = true
    · rw [if_pos hj, if_pos hj, launchNode_updNode]
      by_cases hc : j.seq = i.seq ∧ j.node = i.node ∧
          listed (look noLaunch s.launches i.seq).nodes i.node = true
      · rw [if_pos hc, look_put_other _ _ _ h, hc.1, hc.2.1]
      · rw [if_neg hc]
    · rw [if_neg hj, if_neg hj]; rfl
  · rw [if_neg hg]
    by_cases hj : j.onGrid m = true
    · rw [if_pos hj, if_pos hj]; rfl
    · rw [if_neg hj, if_neg hj, cluster_setCluster]
      by_cases hc : cl' = cl
      · rw [if_pos hc, look_put_other _ _ _ h, hc]
      · rw [if_neg hc]

theorem setSem_rest (s : State) (cl : Nat) (i : TaskInfo) (n : Nat) (x : Sem) :
    (s.setSem cl i n x).ctxs = s.ctxs ∧ (s.setSem cl i n x).mem = s.mem ∧ (s.setSem cl i n x).cores = s.cores := by
  unfold State.setSem
  split
  · exact ⟨rfl, rfl, rfl⟩
  · exact ⟨rfl, rfl, rfl⟩

theorem sem_testWaits (s : State) (cl cl' : Nat) (i j : TaskInfo) (n m : Nat) (l : List Nat) :
    (s.testWaits cl i n l).sem cl' j m = s.sem cl' j m := by
  rw [(testWaits_spec s cl i n l).1]
  rfl

/-- What swapped teams wait for may be noted anew (R340): nothing changes but the records of bound teams. -/
theorem noteTeams_spec (s : State) : s.noteTeams = { s with clusters := s.noteTeams.clusters } ∧
    ∀ cl, (s.noteTeams.cluster cl).sems = (s.cluster cl).sems := by
  refine ⟨rfl, fun cl => ?_⟩
  unfold State.noteTeams State.cluster
  dsimp only
  generalize s.clusters = l
  induction l with
  | nil => rfl
  | cons p r ih =>
    obtain ⟨a, c⟩ := p
    simp only [List.map_cons, look]
    split
    · rfl
    · exact ih

theorem sem_noteTeams (s : State) (cl : Nat) (i : TaskInfo) (n : Nat) : s.noteTeams.sem cl i n = s.sem cl i n := by
  unfold State.sem
  rw [(noteTeams_spec s).2]
  rfl

/-- A change of one semaphore leaves every register, every memory and every semaphore of another number. -/
theorem semChange_spec (s : State) (cl : Nat) (i : TaskInfo) (n : Nat) (f : Sem → Sem) :
    (∀ k, ((s.semChange cl i n f).ctx k).arch = (s.ctx k).arch) ∧ (s.semChange cl i n f).mem = s.mem ∧
    (s.semChange cl i n f).cores = s.cores ∧
    (∀ j m cl', m ≠ n → (s.semChange cl i n f).sem cl' j m = s.sem cl' j m) ∧
    ((i.onGrid n = false ∨
      listed (look noLaunch s.launches i.seq).nodes i.node = true) →
      (s.semChange cl i n f).sem cl i n = f (s.sem cl i n)) := by
  have hr := setSem_rest s cl i n (f (s.sem cl i n))
  have hw := testWaits_spec (s.setSem cl i n (f (s.sem cl i n))) cl i n (s.ctxs.map Prod.fst)
  have hu : ∃ t, t = (s.setSem cl i n (f (s.sem cl i n))).testWaits cl i n (s.ctxs.map Prod.fst) ∧
      (s.semChange cl i n f = t ∨ s.semChange cl i n f = t.noteTeams) := by
    refine ⟨_, rfl, ?_⟩
    unfold State.semChange
    dsimp only
    split
    · exact Or.inr rfl
    · exact Or.inl rfl
  obtain ⟨t, ht, hu⟩ := hu
  have h1 : ∀ k, (t.ctx k).arch = (s.ctx k).arch := fun k => by rw [ht, hw.2]; unfold State.ctx; rw [hr.1]
  have h2 : t.mem = s.mem := by rw [ht, hw.1]; exact hr.2.1
  have h3 : t.cores = s.cores := by rw [ht, hw.1]; exact hr.2.2
  have h4 : ∀ j m cl', m ≠ n → t.sem cl' j m = s.sem cl' j m := fun j m cl' h => by
    rw [ht, sem_testWaits, sem_setSem_other _ _ _ _ _ _ _ _ h]
  have h5 : i.onGrid n = false ∨ listed (look noLaunch s.launches i.seq).nodes i.node = true → t.sem cl i n = f (s.sem cl i n) :=
    fun h => by rw [ht, sem_testWaits, sem_setSem_same _ _ _ _ _ h]
  rcases hu with hu | hu
  · rw [hu]; exact ⟨h1, h2, h3, h4, h5⟩
  · rw [hu]
    exact ⟨h1, h2, h3, fun j m cl' h => (sem_noteTeams t cl' j m).trans (h4 j m cl' h),
      fun h => (sem_noteTeams t cl i n).trans (h5 h)⟩

theorem doGets_spec (s : State) (k sem born : Nat) :
    (∀ n, ((s.doGets k sem born).ctx n).arch = (s.ctx n).arch) ∧ s.doGets k sem born = { s with ctxs := (s.doGets k sem born).ctxs } := by
  unfold State.doGets
  dsimp only
  generalize (s.ctx k).sb.map (SbEntry.take s (clusterOf k) (s.ctx k).arch.info sem born) = l
  split
  · refine ⟨fun n => ?_, rfl⟩
    rw [ctx_setCtx]
    by_cases h : n = k
    · rw [if_pos h, h]
    · rw [if_neg h]
  · exact ⟨fun _ => rfl, rfl⟩

end Sys2Proof.Machine
end

