-- ==== Sys2Proof/Laws/Updates.lean ====
section
/-! SUPPORT. What an access leaves that makes updates before it: the executing bundle stands. -/

namespace Sys2Proof.Machine

/-- A fold of steps that keep a part of the state keeps it. -/
theorem foldl_keeps {α β γ : Type} (p : α → γ) (g : α → β → α) (h : ∀ a b, p (g a b) = p a) (l : List β) (a : α) :
    p (l.foldl g a) = p a := by
  induction l generalizing a with
  | nil => rfl
  | cons b r ih => rw [List.foldl_cons, ih, h]

theorem l1Clean_cur (s : State) (c pu : Nat) (d : Bool) : (s.l1Clean c pu d).cur = s.cur := by
  unfold State.l1Clean
  dsimp only
  split <;> split <;> (try split) <;> rfl

theorem openSeq_cur (s : State) (u : Update) : (s.openSeq u).cur = s.cur := by
  unfold State.openSeq
  dsimp only
  split <;> rfl

theorem applyAt_cur (s : State) (pu off : Nat) (op : Rmw) (fmt val cmp : Nat) (psn : Bool) :
    (s.applyAt pu off op fmt val cmp psn).1.cur = s.cur := by
  unfold State.applyAt
  dsimp only
  split
  · rfl
  · split <;> rfl

theorem applyAcross_cur (s : State) (pu hi off : Nat) (op : Rmw) (fmt val cmp : Nat) (psn : Bool) :
    (s.applyAcross pu hi off op fmt val cmp psn).1.cur = s.cur := by
  unfold State.applyAcross
  dsimp only
  split
  · rfl
  · split <;> rfl

theorem applyRmw_cur (s : State) (u : Update) : (s.applyRmw u).1.cur = s.cur := by
  unfold State.applyRmw
  split
  · exact applyAt_cur _ _ _ _ _ _ _ _
  · exact applyAcross_cur _ _ _ _ _ _ _ _ _

theorem hiding_cur (t s : State) (a : Nat × Nat) (pus : List Nat) : (t.hiding s a pus).cur = t.cur := by
  unfold State.hiding
  split <;> rfl

theorem dropLine_cur (s : State) (core line : Nat) : (s.dropLine core line).cur = s.cur := by
  unfold State.dropLine State.dropUnit
  exact foldl_keeps State.cur _ (fun a b => by rw [l1Clean_cur, l1Clean_cur]) _ _

theorem writeWords_cur (s : State) (asid va : Nat) (ws : List Word) : (s.writeWords asid va ws).cur = s.cur := by
  unfold State.writeWords
  refine foldl_keeps State.cur _ (fun a b => ?_) _ _
  split
  · split <;> rfl
  · rfl

theorem logUpdate_cur (s : State) (u : Update) : (s.logUpdate u).cur = s.cur := by
  unfold State.logUpdate
  split
  · rfl
  · dsimp only
    generalize List.map _ (chunks 8 4 _) = ws
    split
    · show (s.writeWords _ _ ws).cur = _
      exact writeWords_cur _ _ _ _
    · rfl

theorem replayDone_cur (s : State) (u : Update) : (s.replayDone u).cur = s.cur := by
  unfold State.replayDone
  split <;> rfl

theorem tellCmd_cur (s : State) (c : Option (Nat × Nat)) (b : Bool) : (s.tellCmd c b).cur = s.cur := by
  unfold State.tellCmd
  split <;> rfl

theorem applyUpdate_cur (s : State) (u : Update) : (s.applyUpdate u).cur = s.cur := by
  have h1 : (if (u.cmd.isSome || u.sender.isSome) = true then s.openSeq u else (s.openSeq u).dropLine u.core u.lineOf).cur = s.cur := by
    split
    · exact openSeq_cur _ _
    · rw [dropLine_cur, openSeq_cur]
  unfold State.applyUpdate
  dsimp only
  generalize (if (u.cmd.isSome || u.sender.isSome) = true then s.openSeq u else (s.openSeq u).dropLine u.core u.lineOf) = w at h1
  have h2 : (match u.cmd with
      | some c => (w.applyRmw u).1.hiding w (1, c.2) u.units
      | none => (w.applyRmw u).1).cur = s.cur := by
    split
    · rw [hiding_cur, applyRmw_cur, h1]
    · rw [applyRmw_cur, h1]
  split
  · show (State.tellCmd _ _ _).cur = _
    rw [tellCmd_cur, replayDone_cur, logUpdate_cur]; exact h2
  · show (State.tellCmd _ _ _).cur = _
    rw [tellCmd_cur, replayDone_cur, logUpdate_cur]; exact h2

theorem applyAll_cur (l : List Nat) (s : State) : (s.applyAll l).cur = s.cur := by
  induction l generalizing s with
  | nil => rfl
  | cons i r ih =>
    rw [State.applyAll, ih]
    split
    · split
      · rfl
      · exact applyUpdate_cur _ _
    · rfl

theorem mergeLine_cur (s : State) (b : Option (Nat × Nat)) (c line : Nat) (first : List Nat) : (s.mergeLine b c line first).cur = s.cur := by
  unfold State.mergeLine
  dsimp only
  rw [applyAll_cur]
  rfl

theorem touchLine_cur (s : State) (b : Option (Nat × Nat)) (line : Nat) : (s.touchLine b line).cur = s.cur := by
  unfold State.touchLine
  refine foldl_keeps State.cur _ (fun a c => ?_) _ _
  split
  · exact mergeLine_cur _ _ _ _ _
  · rfl

/-- The merges that accesses make leave the executing bundle. -/
theorem touchLines_cur (b : Option (Nat × Nat)) (l : List Nat) (s : State) : (s.touchLines b l).cur = s.cur := by
  induction l generalizing s with
  | nil => rfl
  | cons i r ih => rw [State.touchLines, ih, touchLine_cur]

theorem applyFresh_cur (s : State) (u : Update) : (s.applyFresh u).cur = s.cur := by
  unfold State.applyFresh
  split
  · exact applyUpdate_cur _ _
  · split
    · split
      · rfl
      · exact applyUpdate_cur _ _
    · extract_lets b t
      split
      · exact touchLines_cur _ _ _
      · rw [applyUpdate_cur]; exact touchLines_cur _ _ _

/-- What comes before an access leaves the executing bundle. -/
theorem ready_cur (s : State) (k upto : Nat) (us : List URef) : (s.ready k upto us).1.cur = s.cur := by
  unfold State.ready
  dsimp only
  unfold State.applyOwn
  rw [foldl_keeps State.cur _ (fun a i => ?_)]
  · exact touchLines_cur _ _ _
  · split
    · split
      · exact applyFresh_cur _ _
      · rfl
    · rfl

end Sys2Proof.Machine
end

