-- ==== Sys2Proof/Laws/Vector.lean ====
section
/-! SUPPORT. Vector results: the elements of a packed register, and what the shared vector operation can do, said once. -/

namespace Sys2Proof.Machine

set_option exponentiation.threshold 3000

theorem packNat_lt (w : Nat) (l : List Nat) : packNat w l < 2 ^ (w * l.length) := by
  induction l with
  | nil => simp [packNat]
  | cons x r ih =>
    rw [packNat, List.length_cons, Nat.mul_succ, Nat.add_comm (w * r.length), pow_add]
    have h1 := Nat.mod_lt x (show 2 ^ w > 0 by positivity)
    have h2 : 2 ^ w * packNat w r + 2 ^ w ≤ 2 ^ w * 2 ^ (w * r.length) := by
      rw [← Nat.mul_succ]; exact Nat.mul_le_mul_left _ ih
    omega

theorem packNat_elem (w : Nat) (l : List Nat) (j : Nat) : packNat w l / 2 ^ (w * j) % 2 ^ w = nth 0 l j % 2 ^ w := by
  have hp : 0 < 2 ^ w := by positivity
  induction l generalizing j with
  | nil => simp [packNat, nth]
  | cons x r ih =>
    cases j with
    | zero => simp [packNat, nth]
    | succ j =>
      rw [packNat, Nat.mul_succ, Nat.add_comm (w * j), pow_add, ← Nat.div_div_eq_div_mul,
        Nat.add_mul_div_left _ _ hp, Nat.div_eq_of_lt (Nat.mod_lt _ hp), Nat.zero_add, ih j]
      simp [nth]

/-- The elements of a register packed from a list that fits it. -/
theorem elem_packVec (w : Nat) (l : List Nat) (j : Nat) (h : w * l.length ≤ 2048) :
    elem (packVec w l) j w = nth 0 l j % 2 ^ w := by
  unfold elem packVec
  rw [BitVec.toNat_ofNat, Nat.mod_eq_of_lt (lt_of_lt_of_le (packNat_lt w l) (Nat.pow_le_pow_right (by omega) h)),
    Nat.shiftRight_eq_div_pow]
  exact packNat_elem w l j

theorem elem_lt (v : Vec) (j w : Nat) : elem v j w < 2 ^ w := Nat.mod_lt _ (by positivity)

theorem nth_map_range {α : Type} (d : α) (g : Nat → α) (n j : Nat) (h : j < n) : nth d ((List.range n).map g) j = g j := by
  simp [nth, h]

/-- An element of a vector result: what an active element takes, and what any other keeps. -/
theorem elem_lanes (p : Pred) (zero : Bool) (old : Vec) (w : Nat) (y : Nat → Option (Nat × Nat)) (j : Nat)
    (h : w * (2048 / w) ≤ 2048) (hj : j < 2048 / w) :
    elem (lanes p zero old w y).bits j w =
      if (act p j w && (y j).isSome) = true then ((y j).getD (0, 0)).1 % 2 ^ w
      else if zero = true then 0 else elem old j w := by
  unfold lanes
  dsimp only
  rw [elem_packVec _ _ _ (by simpa using h), List.map_map, nth_map_range _ _ _ _ hj]
  have ho : elem old j w % 2 ^ w = elem old j w := Nat.mod_eq_of_lt (elem_lt old j w)
  simp only [Function.comp, laneOf]
  cases act p j w
  · cases zero <;> simp [ho]
  · cases y j with
    | none => cases zero <;> simp [ho]
    | some v => simp

theorem flags_lanes (p : Pred) (zero : Bool) (old : Vec) (w : Nat) (y : Nat → Option (Nat × Nat)) :
    (lanes p zero old w y).flags =
      (List.range (2048 / w)).foldl (fun e j => if act p j w then e ||| ((y j).getD (0, 0)).2 else e) 0 := by
  have step : ∀ (l : List Nat) (e : Nat), (l.map (laneOf p zero old w y)).foldl (fun e r => e ||| r.2.1) e =
      l.foldl (fun e j => if act p j w then e ||| ((y j).getD (0, 0)).2 else e) e := by
    intro l
    induction l with
    | nil => intro e; rfl
    | cons j r ih =>
      intro e
      rw [List.map_cons, List.foldl_cons, List.foldl_cons, ih]
      congr 1
      unfold laneOf
      cases act p j w
      · simp
      · cases y j <;> simp
  exact step _ 0

theorem inactive_lanes (p : Pred) (zero : Bool) (old : Vec) (w : Nat) (y : Nat → Option (Nat × Nat)) :
    (lanes p zero old w y).inactive = (List.range (2048 / w)).any fun j => !(act p j w && (y j).isSome) := by
  unfold lanes
  dsimp only
  rw [List.any_map]
  congr 1
  funext j
  unfold laneOf
  simp only [Function.comp]
  cases act p j w
  · simp
  · cases y j <;> simp

theorem becomes_flagged (s : State) (fl : Nat) :
    Becomes s (s.setArch { s.arch with csw := cswRaise s.arch.csw fl }) (s.flaggedArch fl) := becomes_setArch s _

/-- A result put in flight after flags have been raised. -/
theorem becomes_flagged_putV (s : State) (fl : Nat) (d : BitVec 6) (lat : Nat) (b : Vec) (tag : Nat) (psn : Bool) :
    Becomes s ((s.setArch { s.arch with csw := cswRaise s.arch.csw fl }).putV d lat b tag psn)
      { s.flaggedArch fl with flight := s.arch.flight ++ flights s.cur.t s.nextId (toV d lat b tag psn) } := by
  have h := becomes_flagged s fl
  have g := becomes_putV (s.setArch { s.arch with csw := cswRaise s.arch.csw fl }) d lat b tag psn
  have := h.trans g
  refine ⟨this.1, ?_⟩
  rw [this.2]
  unfold State.sent
  rw [h.arch_eq]
  rfl

/-- The shared vector operation, its tags accepted, is R142. -/
theorem vexec_result (i : Instr) (f : VV) (lat tag w : Nat) (cs : List TagCheck) (psn : Bool)
    (y : Nat → Option (Nat × Nat)) (s : State) (h : exec i s = vexec f lat tag w cs psn y s)
    (hw : w * (2048 / w) ≤ 2048) (hc : firstBad cs = none) : VectorResult i f s lat tag w psn y := by
  have hfl : (lanes (s.vpred f) (f.zero == 1) (s.rdV f.d).bits w y).flags = raisedBy s f w y := flags_lanes _ _ _ _ _
  have hen : cswEnables s.cur.csw = bits s.cur.csw 16 5 := rfl
  have hin := inactive_lanes (s.vpred f) (f.zero == 1) (s.rdV f.d).bits w y
  unfold vexec tagged flagged at h
  rw [hc] at h
  dsimp only at h
  refine ⟨fun hon => ?_, fun hon => ?_⟩
  · unfold Traps
    rw [h, hfl, hen, if_pos hon]
    rfl
  · rw [hfl, hen, if_neg (not_not.2 hon)] at h
    refine ⟨_, (lanes (s.vpred f) (f.zero == 1) (s.rdV f.d).bits w y).bits, h, ?_, fun j hj => ?_⟩
    · have := becomes_flagged_putV s (raisedBy s f w y) f.d lat (lanes (s.vpred f) (f.zero == 1) (s.rdV f.d).bits w y).bits tag
        (psn || (f.zero == 0 && (lanes (s.vpred f) (f.zero == 1) (s.rdV f.d).bits w y).inactive && (s.rdV f.d).psn))
      rw [hin] at this
      rw [hin]
      exact this
    · rw [elem_lanes _ _ _ _ _ _ hw hj]
      unfold takes
      congr 1
      simp

/-- The shared vector operation with a tag that is not accepted takes FMT (R17). -/
theorem vexec_trap (i : Instr) (f : VV) (lat tag w : Nat) (cs : List TagCheck) (psn : Bool)
    (y : Nat → Option (Nat × Nat)) (s : State) (c : TagCheck) (h : exec i s = vexec f lat tag w cs psn y s)
    (hc : firstBad cs = some c) : Traps i s 1 (fmtInfo 0 c.reg.toNat c.tag c.need) := by
  unfold vexec tagged at h
  rw [hc] at h
  exact h

/-- The widths of the formats divide a register. -/
theorem fmtWidth_fits (t : Nat) : fmtWidth t * (2048 / fmtWidth t) ≤ 2048 := Nat.mul_div_le 2048 _

theorem firstBad_cons (c : TagCheck) (r : List TagCheck) :
    firstBad (c :: r) = if c.okay.contains c.tag then firstBad r else some c := rfl

/-- A source that carries the tag required is accepted. -/
theorem firstBad_mustBe (s : State) (x : BitVec 6) (t : Nat) (r : List TagCheck) (h : (s.rdV x).tag = t) :
    firstBad (s.mustBe x t :: r) = firstBad r := by
  rw [firstBad_cons, if_pos]
  simp [State.mustBe, h]

theorem firstBad_mustBe_bad (s : State) (x : BitVec 6) (t : Nat) (r : List TagCheck) (h : (s.rdV x).tag ≠ t) :
    firstBad (s.mustBe x t :: r) = some (s.mustBe x t) := by
  rw [firstBad_cons, if_neg]
  simp [State.mustBe, h]

/-- The random-bits register is accepted, where it is read. -/
theorem firstBad_random (s : State) (f : VV) (r : List TagCheck)
    (h : f.rm = 5 → (s.rdV f.c).tag ∈ [0x00, 0x14, 0x15, 0x16, 0x17]) : firstBad (s.randomCheck f ++ r) = firstBad r := by
  unfold State.randomCheck
  by_cases h5 : f.rm = 5
  · rw [if_pos h5, List.singleton_append, firstBad_cons, if_pos]
    simpa [State.mayBe, randomTags] using h h5
  · rw [if_neg h5, List.nil_append]

end Sys2Proof.Machine
end

