-- ==== Sys2Proof/Tests/Slice0.lean ====
section
/-! SUPPORT. Tests of one step or one function each, and for each statement with hypotheses a state and operands that meet them. -/

open Sys2Proof Sys2Proof.Machine

set_option Elab.async false

namespace Sys2Proof.Tests

/-! ### Decoding: words put together field by field from spec/04 R87 to R96 -/

/-- ADD (SR): op 0x01, d, a, b, c = 0, x = 0. -/
theorem test_decode_add : decodeUnit .s (0x01#8 ++ 3#6 ++ 1#6 ++ 2#6 ++ 0#6 ++ 0#32) = some (.add { d := 3, a := 1, b := 2, c := 0 }) := by rfl

/-- ADDI (SI): the immediate -1 in x. -/
theorem test_decode_addi : decodeUnit .s (0x20#8 ++ 3#6 ++ 1#6 ++ 0#6 ++ 0#6 ++ 0xFFFFFFFF#32) =
    some (.addi { d := 3, a := 1, imm := 0xFFFFFFFF }) := by rfl

/-- BFX (SF): x[12:6] the width 64, x[5:0] the LSB 0. -/
theorem test_decode_bfx : decodeUnit .s (0x34#8 ++ 3#6 ++ 1#6 ++ 0#6 ++ 0#6 ++ 0#19 ++ 64#7 ++ 0#6) =
    some (.bfx { d := 3, a := 1, lsb := 0, width := 64 }) := by rfl

/-- BEQ (SB): x[31:25] BIDX, x[24:0] SEGOFF. -/
theorem test_decode_beq : decodeUnit .s (0x60#8 ++ 0#6 ++ 1#6 ++ 2#6 ++ 0#6 ++ 5#7 ++ 0x1FFFFFF#25) =
    some (.beq { d := 0, a := 1, b := 2, bidx := 5, segoff := 0x1FFFFFF }) := by rfl

/-- CSRD (SS): the selector in x[7:0]. -/
theorem test_decode_csrd : decodeUnit .s (0x87#8 ++ 3#6 ++ 0#6 ++ 0#6 ++ 0#6 ++ 0x07#32) = some (.csrd { d := 3, a := 0, x := 7 }) := by rfl

/-- VADD (VV): PRED, ZERO, FMT, RM, OPX. -/
theorem test_decode_vadd : decodeUnit .v (0x01#8 ++ 3#6 ++ 1#6 ++ 2#6 ++ 0#6 ++ 7#3 ++ 1#1 ++ 0x02#8 ++ 3#4 ++ 0#16) =
    some (.vadd { d := 3, a := 1, b := 2, c := 0, pred := 7, zero := 1, fmt := 2, rm := 3, opx := 0 }) := by rfl

/-- MPW (MP): x[2:0] the matrix parameter register. -/
theorem test_decode_mpw : decodeUnit .m (0x01#8 ++ 0#6 ++ 1#6 ++ 0#6 ++ 0#6 ++ 0#29 ++ 5#3) = some (.mpw { d := 0, a := 1, mp := 5 }) := by rfl

/-- MCALL (MC): PRIO in x[24:23], ROUTINE in x[22:16], SIGEN x[15], SEM x[13:6]. -/
theorem test_decode_mcall : decodeUnit .m (0x03#8 ++ 20#6 ++ 1#6 ++ 2#6 ++ 3#6 ++ 0#7 ++ 2#2 ++ 7#7 ++ 1#1 ++ 0#1 ++ 255#8 ++ 0#6) =
    some (.mcall { d := 20, a := 1, b := 2, c := 3, prio := 2, routine := 7, sigen := 1, sem := 255, quad := 0 }) := by rfl

/-- LDS (LP): SIZE in c[1:0], the scratchpad offset in x[19:0]. -/
theorem test_decode_lds : decodeUnit .l (0x01#8 ++ 3#6 ++ 1#6 ++ 0#6 ++ 0#4 ++ 3#2 ++ 0#12 ++ 0xFFFFF#20) =
    some (.lds { d := 3, a := 1, b := 0, size := 3, off := 0xFFFFF }) := by rfl

/-- AADD (LM): ORD, NR and SIZE in c, slot and displacement in x. -/
theorem test_decode_aadd : decodeUnit .l (0x20#8 ++ 0#6 ++ 1#6 ++ 2#6 ++ 0#2 ++ 1#1 ++ 1#1 ++ 3#2 ++ 15#4 ++ 0x8000000#28) =
    some (.aadd { d := 0, a := 1, b := 2, ord := 1, nr := 1, size := 3, slot := 15, disp := 0x8000000 }) := by rfl

/-- LDT (LT): a vector index tuple, and the descriptor's location in x. -/
theorem test_decode_ldt : decodeUnit .l (0x07#8 ++ 3#6 ++ 31#6 ++ 0#6 ++ 0#6 ++ 2#4 ++ 64#28) =
    some (.ldt { d := 3, a := 31, b := 0, slot := 2, disp := 64 }) := by rfl

/-- FLUSH (LX): the scope in c[2:0]. -/
theorem test_decode_flush : decodeUnit .l (0x0C#8 ++ 0#6 ++ 1#6 ++ 2#6 ++ 0#3 ++ 5#3 ++ 1#4 ++ 0#28) =
    some (.flush { d := 0, a := 1, b := 2, mods := 5, slot := 1, disp := 0 }) := by rfl

/-- STM (LM) in the ST slot. -/
theorem test_decode_stm : decodeUnit .st (0x03#8 ++ 0#6 ++ 1#6 ++ 2#6 ++ 0#4 ++ 1#2 ++ 3#4 ++ 2#28) =
    some (.stm { d := 0, a := 1, b := 2, ord := 0, nr := 0, size := 1, slot := 3, disp := 2 }) := by rfl

/-- CPY (CC): FMT, SUB, SCOPE, SIGEN, BYTES, SEM and QUAD in x. -/
theorem test_decode_cpy : decodeUnit .c (0x01#8 ++ 20#6 ++ 1#6 ++ 2#6 ++ 3#6 ++ 0#1 ++ 0#8 ++ 0#4 ++ 5#3 ++ 1#1 ++ 1#1 ++ 9#8 ++ 60#6) =
    some (.cpy { d := 20, a := 1, b := 2, c := 3, fmt := 0, sub := 0, scope := 5, sigen := 1, bytes := 1, sem := 9, quad := 60 }) := by rfl

/-- XRD (CX): the buffer row in x[2:0]. -/
theorem test_decode_xrd : decodeUnit .c (0x13#8 ++ 3#6 ++ 0#6 ++ 0#6 ++ 0#6 ++ 0#29 ++ 7#3) =
    some (.xrd { d := 3, a := 0, fmt := 0, rm := 0, beat := 7 }) := by rfl

/-! ### Well-formed instructions: an ill-formed one for each check of R112, with the check's reason -/

theorem test_wf_good : (Instr.add { d := 3, a := 1, b := 2, c := 0 }).WellFormed := by decide

/-- A field that must be 0: c of ADD. -/
theorem test_wf_zero_field : ¬(Instr.add { d := 3, a := 1, b := 2, c := 1 }).WellFormed := by decide

/-- A vector register above v31. -/
theorem test_wf_vector : slotReasons (.vadd { d := 32, a := 1, b := 2, c := 0, pred := 0, zero := 0, fmt := 2, rm := 0, opx := 0 }) = [0x07] := by decide

/-- A predicate register above p7. -/
theorem test_wf_predicate : slotReasons (.vpand { d := 8, a := 1, b := 2, c := 0, pred := 0, zero := 0, fmt := 0, rm := 0, opx := 0 }) = [0x07] := by decide

/-- A quad base of 0, and one that is no multiple of 4. -/
theorem test_wf_quad :
    slotReasons (.accz { d := 1, a := 0, b := 0, c := 0, prio := 0, routine := 0, sigen := 0, sem := 0, quad := 0 }) = [0x07] ∧
    slotReasons (.accz { d := 1, a := 0, b := 0, c := 0, prio := 0, routine := 0, sigen := 0, sem := 0, quad := 6 }) = [0x07] := by decide

/-- A pair base that is odd. -/
theorem test_wf_pair : slotReasons (.nstat { d := 1, a := 3, b := 0, mods := 0, slot := 0, disp := 0 }) = [0x07] := by decide

/-- LOOP's counter s0, and RNDX with one register for both. -/
theorem test_wf_registers : slotReasons (.loop { d := 0, a := 0, b := 0, bidx := 0, segoff := 0 }) = [0x07] ∧
    slotReasons (.rndx { d := 4, a := 4, x := 0 }) = [0x07] := by decide

/-- A format code that the entry does not accept. -/
theorem test_wf_format : slotReasons (.vadd { d := 3, a := 1, b := 2, c := 0, pred := 0, zero := 0, fmt := 0x10, rm := 0, opx := 0 }) = [0x08] := by decide

/-- A reserved rounding mode, and RM with DYN. -/
theorem test_wf_rounding :
    slotReasons (.vadd { d := 3, a := 1, b := 2, c := 0, pred := 0, zero := 0, fmt := 2, rm := 6, opx := 0 }) = [0x09] ∧
    slotReasons (.vadd { d := 3, a := 1, b := 2, c := 0, pred := 0, zero := 0, fmt := 2, rm := 1, opx := 0x8000 }) = [0x09] := by decide

/-- A width of 0, a field past bit 63, ZERO = 1 of a predicate result, an element index past the last, a reserved scope, a selector
that R23 does not list. -/
theorem test_wf_out_of_range :
    slotReasons (.bfx { d := 3, a := 1, lsb := 0, width := 0 }) = [0x0A] ∧
    slotReasons (.bfi { d := 3, a := 1, lsb := 60, width := 5 }) = [0x0A] ∧
    slotReasons (.vpand { d := 1, a := 1, b := 2, c := 0, pred := 0, zero := 1, fmt := 0, rm := 0, opx := 0 }) = [0x0A] ∧
    slotReasons (.vext { d := 1, a := 1, b := 0, c := 0, pred := 0, zero := 0, fmt := 1, rm := 0, opx := 32 }) = [0x0A] ∧
    slotReasons (.fence { d := 0, a := 0, b := 0, mods := 6, slot := 0, disp := 0 }) = [0x0A] ∧
    slotReasons (.csrd { d := 1, a := 0, x := 0x09 }) = [0x0A] ∧
    slotReasons (.acas { d := 0, a := 1, b := 2, ord := 0, nr := 1, size := 3, slot := 0, disp := 0 }) = [0x0A] := by decide

/-- A routine index outside 1 to 7; SEM without SIGEN. -/
theorem test_wf_matrix :
    slotReasons (.mcall { d := 1, a := 0, b := 0, c := 0, prio := 0, routine := 8, sigen := 0, sem := 0, quad := 0 }) = [0x0E] ∧
    slotReasons (.mcall { d := 1, a := 0, b := 0, c := 0, prio := 0, routine := 1, sigen := 0, sem := 3, quad := 0 }) = [0x06] := by decide

/-- OPX bits that an operation does not have. -/
theorem test_wf_opx : slotReasons (.vzip { d := 3, a := 1, b := 2, c := 0, pred := 0, zero := 0, fmt := 2, rm := 0, opx := 2 }) = [0x06] := by decide

/-! ### Values from outside the model: worked out by hand, or from the published test vectors of the algorithm named -/

/-- Context 0 with the given scalar registers, in the middle of a bundle. -/
def regs (l : FMap SReg) : State := { ctxs := [(0, { bound := true, arch := { s := l } })], cur := { open_ := true } }

/-- Context 0 with the given vector registers. -/
def vregs (l : FMap VReg) : State := { ctxs := [(0, { bound := true, arch := { v := l } })], cur := { open_ := true } }

/-- The scalar results in flight after an operation. -/
def sent (i : Instr) (s : State) : List (Nat × Nat × Word) :=
  match exec i s with
  | .next t => t.arch.flight.filterMap fun f => match f.dst with | .s n v => some (f.due, n, v.val) | _ => none
  | _ => []

/-- The scalar results pending after an operation. -/
def pending (i : Instr) (s : State) : List (SbDst × Word) :=
  match exec i s with
  | .next t => t.me.sb.filterMap fun e => match e.what with | .scalar v => some (e.dst, v.val) | _ => none
  | _ => []

/-- The elements of the first vector result in flight after an operation. -/
def sentElems (i : Instr) (s : State) (n w : Nat) : List Nat :=
  match exec i s with
  | .next t => match t.arch.flight.filterMap (fun f => match f.dst with | .v _ v => some v | _ => none) with
    | v :: _ => (List.range n).map fun j => elem v.bits j w
    | [] => []
  | _ => []

def f3 : SR := { d := 3, a := 1, b := 2, c := 0 }

/-- ADD wraps at 2^64, and SUB below 0. -/
theorem test_add_wraps : sent (.add f3) (regs [(1, { val := 0xFFFFFFFFFFFFFFFF }), (2, { val := 2 })]) = [(1, 3, 1)] := by decide
theorem test_sub_wraps : sent (.sub f3) (regs [(1, { val := 1 }), (2, { val := 2 })]) = [(1, 3, 0xFFFFFFFFFFFFFFFF)] := by decide

/-- (-1)(-1) = 1 has high half 0 when signed, and 2^64 - 2 when not. -/
theorem test_mulhs : sent (.mulhs f3) (regs [(1, { val := 0xFFFFFFFFFFFFFFFF }), (2, { val := 0xFFFFFFFFFFFFFFFF })]) = [(3, 3, 0)] := by decide
theorem test_mulhn : sent (.mulhn f3) (regs [(1, { val := 0xFFFFFFFFFFFFFFFF }), (2, { val := 0xFFFFFFFFFFFFFFFF })]) =
    [(3, 3, 0xFFFFFFFFFFFFFFFE)] := by decide

/-- A shift count of 64 is taken modulo 64; -8 shifted right by 1 is -4. -/
theorem test_shl_by_64 : sent (.shl f3) (regs [(1, { val := 5 }), (2, { val := 64 })]) = [(1, 3, 5)] := by decide
theorem test_sar : sent (.sar f3) (regs [(1, { val := 0xFFFFFFFFFFFFFFF8 }), (2, { val := 1 })]) = [(1, 3, 0xFFFFFFFFFFFFFFFC)] := by decide

/-- -7 / 2 = -3 with remainder -1 (R124: toward zero). -/
theorem test_divs : pending (.divs f3) (regs [(1, { val := 0xFFFFFFFFFFFFFFF9 }), (2, { val := 2 })]) = [(.s 3, 0xFFFFFFFFFFFFFFFD)] := by decide
theorem test_rems : pending (.rems f3) (regs [(1, { val := 0xFFFFFFFFFFFFFFF9 }), (2, { val := 2 })]) = [(.s 3, 0xFFFFFFFFFFFFFFFF)] := by decide

/-- SLT is signed and SLTN is not: -1 against 1. -/
theorem test_slt : sent (.slt f3) (regs [(1, { val := 0xFFFFFFFFFFFFFFFF }), (2, { val := 1 })]) = [(1, 3, 1)] := by decide
theorem test_sltn : sent (.sltn f3) (regs [(1, { val := 0xFFFFFFFFFFFFFFFF }), (2, { val := 1 })]) = [(1, 3, 0)] := by decide

/-- LI sign-extends; LIH replaces the high half. -/
theorem test_li : sent (.li { d := 3, a := 0, imm := 0x80000000 }) (regs []) = [(1, 3, 0xFFFFFFFF80000000)] := by decide
theorem test_lih : sent (.lih { d := 3, a := 0, imm := 0x12345678 }) (regs [(3, { val := 0xAAAAAAAABBBBBBBB })]) =
    [(1, 3, 0x12345678BBBBBBBB)] := by decide

/-- The bytes of 0x0123456789ABCDEF turned round; its fields; SEXT of a byte. -/
theorem test_bswap : sent (.bswap { d := 3, a := 1, lsb := 0, width := 0 }) (regs [(1, { val := 0x0123456789ABCDEF })]) =
    [(1, 3, 0xEFCDAB8967452301)] := by decide
theorem test_bfx : sent (.bfx { d := 3, a := 1, lsb := 8, width := 16 }) (regs [(1, { val := 0x0123456789ABCDEF })]) = [(1, 3, 0xABCD)] := by decide
theorem test_sext : sent (.sext { d := 3, a := 1, lsb := 0, width := 8 }) (regs [(1, { val := 0x80 })]) = [(1, 3, 0xFFFFFFFFFFFFFF80)] := by decide

/-- A write to s0 is discarded (R11). -/
theorem test_write_to_s0 : sent (.mov { d := 0, a := 1, b := 0, c := 0 }) (regs [(1, { val := 9 })]) = [] := by decide

/-- The first output of the generator from state 0, and the state after it: the published SplitMix64 sequence. -/
theorem test_rndx : sent (.rndx { d := 3, a := 1, x := 0 }) (regs []) = [(1, 3, 0xE220A8397B1DCDAF), (1, 1, 0x9E3779B97F4A7C15)] := by decide

/-- FP32: 1.5 + 0.25 = 1.75; 1 + 2^-24 is a tie that rounds to even, 1, and raises INX; 2^127 + 2^127 overflows to infinity. -/
theorem test_fp_add : opAdd (fpOf 0x02) rne (fpDecode (fpOf 0x02) 0x3FC00000) (fpDecode (fpOf 0x02) 0x3E800000) = (0x3FE00000, 0) := by decide
theorem test_fp_tie : (opAdd (fpOf 0x02) rne (fpDecode (fpOf 0x02) 0x3F800000) (fpDecode (fpOf 0x02) 0x33800000)).1 = 0x3F800000 := by decide
theorem test_fp_overflow : (opAdd (fpOf 0x02) rne (fpDecode (fpOf 0x02) 0x7F000000) (fpDecode (fpOf 0x02) 0x7F000000)).1 = 0x7F800000 := by decide

/-- The square root of 2 in FP32, and 1 / 3. -/
theorem test_fp_sqrt : (opSqrt (fpOf 0x02) rne (fpDecode (fpOf 0x02) 0x40000000)).1 = 0x3FB504F3 := by decide +kernel
theorem test_fp_div : (opDiv (fpOf 0x02) rne (fpDecode (fpOf 0x02) 0x3F800000) (fpDecode (fpOf 0x02) 0x40400000)).1 = 0x3EAAAAAB := by decide

/-- 1.0 in FP32 is 0x3F80 in BF16 and 0x3C00 in FP16. -/
theorem test_convert : (convert 0x03 0x02 rne 0x3F800000).1 = 0x3F80 ∧ (convert 0x04 0x02 rne 0x3F800000).1 = 0x3C00 := by decide

/-- 32-bit integer elements add modulo 2^32, element by element. -/
theorem test_viadd : sentElems (.viadd { d := 3, a := 1, b := 2, c := 0, pred := 0, zero := 0, fmt := 0x16, rm := 0, opx := 0 })
    (vregs [(1, { bits := 0x00000005FFFFFFFF, tag := 0x16 }), (2, { bits := 0x0000000700000002, tag := 0x16 })]) 2 32 = [1, 12] := by decide +kernel

/-- SHA-384 of "abc" begins cb00753f45a35e8b (FIPS 180-4). -/
theorem test_sha384 : (sha384 [0x61, 0x62, 0x63]).take 8 = [0xcb, 0x00, 0x75, 0x3f, 0x45, 0xa3, 0x5e, 0x8b] := by decide +kernel

/-! ### Witnesses: for each statement with hypotheses, states and operands that meet them, clause by clause -/

/-- A memory whose address space 1 has its root at 0x10000: one entry maps the virtual addresses below 2^42 to the physical ones of the
same numbers (V, LEAF and W). -/
def oneMap : Mem := { cells := [(0x10000, 0x23)] }

/-- The page at 0x20000, as `oneMap` gives it. -/
def page2 : Page := { vp := 2, frame := 2, at_ := 0x10000 }

/-- Context 0 runs a task of address space 1 whose extent slot 0 is a writable range of 64 KiB at 0x20000, with the runs that its binding
found, in the middle of a bundle. -/
def task (a : Arch) (m : Mem := oneMap) (p : Page := page2) : State := {
  mem := m
  roots := [(1, 0x10001)]
  ctxs := [(0, { bound := true, arch := { a with
    info := { uid := 1, asid := 1 }, e := [(0, mkExtent 0x20000 0x10000 true 0 false false)], ePages := [(0, [p])] } })]
  cur := { open_ := true } }

/-- The runs of `task` are those that the translator gives (R291, R292). -/
theorem test_pages : (task {}).pagesAt 1 0x20000 0x10000 = [page2] := by decide +kernel

theorem plain_of (s : State) (h : (s.cores.all fun p => p.2.lines.isEmpty) = true) : s.plain := by
  intro c
  unfold State.core
  generalize s.cores = l at h
  induction l with
  | nil => rfl
  | cons p r ih =>
    simp only [List.all_cons, Bool.and_eq_true] at h
    unfold look
    split
    · exact List.isEmpty_iff.mp h.1
    · exact ih h.2

theorem uncached_of (s : State) (h : (s.cores.all fun p => p.2.l1.isEmpty) = true) : s.uncached := by
  intro c pu
  have : (s.core c).l1 = [] := by
    unfold State.core
    generalize s.cores = l at h
    induction l with
    | nil => rfl
    | cons p r ih =>
      simp only [List.all_cons, Bool.and_eq_true] at h
      unfold look
      split
      · exact List.isEmpty_iff.mp h.1
      · exact ih h.2
  simp [Core.l1Unit, this, look]

/-- The states of `regs`, `vregs` and `task` are quiet, plain and uncached. -/
theorem witness_task_quiet (a : Arch) (m : Mem) (p : Page) :
    (task a m p).quiet 0 ∧ (task a m p).plain ∧ (task a m p).uncached ∧ (task a m p).unspoiled :=
  ⟨⟨by simp [task], plain_of _ rfl, rfl⟩, plain_of _ rfl, uncached_of _ rfl, rfl⟩

theorem witness_DivisionResults :
    (let s := regs [(1, { val := 7 }), (2, { val := 2 })]
     (s.rdS f3.a).psn = false ∧ (s.rdS f3.b).psn = false ∧ (s.rdS f3.b).val ≠ 0) ∧
    (let s := regs [(1, { psn := true })]
     (s.rdS f3.a).psn = true ∨ (s.rdS f3.b).psn = true) ∧
    (let s := regs [(1, { val := 7 })]
     (s.rdS f3.a).psn = false ∧ (s.rdS f3.b).psn = false ∧ (s.rdS f3.b).val = 0 ∧ s.cur.csw.getLsbD 17 = false) ∧
    (let s := { regs [(1, { val := 7 })] with cur := { open_ := true, csw := 0x20000 } }
     (s.rdS f3.a).psn = false ∧ (s.rdS f3.b).psn = false ∧ (s.rdS f3.b).val = 0 ∧ s.cur.csw.getLsbD 17 = true) := by decide

/-- The widest field, and the narrowest. -/
theorem witness_ImmediateAndFieldResults :
    (let f : SF := { d := 3, a := 1, lsb := 0, width := 64 }
     f.lsb.toNat + f.width.toNat ≤ 64 ∧ 1 ≤ f.width.toNat ∧ f.width.toNat ≤ 64) ∧
    (let f : SF := { d := 3, a := 1, lsb := 63, width := 1 }
     f.lsb.toNat + f.width.toNat ≤ 64 ∧ 1 ≤ f.width.toNat) ∧
    ((regs []).rdS 1).val = 0 ∧ ((regs [(1, { val := 1 })]).rdS 1).val ≠ 0 := by decide

/-- A segment of four bundles at 0x400, resident in half A, with the context at its first bundle. -/
def coded (c : Ctx) : State := {
  ctxs := [(0, { c with bound := true, halfA := .resident 0x400 false 0x800 [[], [], [], []] })]
  cur := { open_ := true, slot := 6, pc := 0x400, words := [0, 0, 0, 0, 0, 0, 0, 0] } }

theorem witness_ControlTransfers :
    (let s := regs [(1, { val := 3 }), (2, { val := 3 }), (4, { psn := true })]
     (s.rdS 1).psn = false ∧ (s.rdS 2).psn = false ∧ (s.rdS 1).val = (s.rdS 2).val ∧ (s.rdS 1).val ≠ (s.rdS 3).val ∧
     (s.rdS 4).psn = true ∧ (s.rdS 1).val ≠ 1 ∧ (s.rdS 1).val ≠ 0 ∧ (s.rdS 3).val = 0) ∧
    ((regs [(1, { val := 1 })]).rdS 1).val = 1 ∧
    ((vregs [(1, { psn := true })]).arch.readV 1).psn = true ∧
    ((coded {}).follow (coded {}).me 4 (coded {}).cur.pc).isSome = true := by decide

theorem witness_ControlTransfers_redirect :
    (let s := coded {}
     s.cur.open_ = true ∧ s.cur.slot = 6 ∧ ySigen (yOf s.cur.words) = false ∧ s.arch.exitReq = none ∧ s.me.eretReq = false ∧
     s.segHead s.me (ptrSeg s.cur.pc) = some { count := 4, last := false, next := 0x800 } ∧
     SegHead.after { count := 4, last := false, next := 0x800 } s.cur.pc = some (mkPtr 0x400 1) ∧ s.arch.redirect = none) ∧
    (let s := coded { arch := { redirect := some { target := 0x800, left := 2, bad := false, src := 0x400 } } }
     s.segHead s.me (ptrSeg s.cur.pc) = some { count := 4, last := false, next := 0x800 } ∧
     s.arch.redirect = some { target := 0x800, left := 2, bad := false, src := 0x400 }) ∧
    (let s := coded { arch := { redirect := some { target := 0x801, left := 1, bad := true, src := 0x400 } } }
     s.segHead s.me (ptrSeg s.cur.pc) = some { count := 4, last := false, next := 0x800 } ∧
     s.arch.redirect = some { target := 0x801, left := 1, bad := true, src := 0x400 }) := by decide

/-- A trap table at 0x20000 whose entries for causes 6 and 7 name the bundle at 0x20100. -/
def trapped (a : Arch) : State := task { a with trapvec := 0x20000 } { cells := [(0x10000, 0x23), (0x20031, 1), (0x20032, 2), (0x20039, 1), (0x2003A, 2)] }

theorem witness_TrapsTaken :
    (trapped {}).arch.csw.getLsbD 3 = false ∧ (trapped {}).trapEntry 6 ≠ 0 ∧ (trapped {}).trapEntry 7 ≠ 0 ∧ (trapped {}).trapEntry 1 = 0 ∧
    (trapped { csw := 8 }).arch.csw.getLsbD 3 = true ∧ (regs []).trapEntry 6 = 0 := by decide +kernel

theorem witness_ReturnsAndControlRegisters :
    (trapped { csw := 8 }).arch.csw.getLsbD 3 = true ∧ (regs []).arch.csw.getLsbD 3 = false ∧
    (let s := coded { eretReq := true, arch := { csw := 8, trappc := mkPtr 0x400 2, trapcsw := 5 } }
     s.cur.open_ = true ∧ s.cur.slot = 6 ∧ ySigen (yOf s.cur.words) = false ∧ s.arch.exitReq = none ∧ s.me.eretReq = true ∧
     s.badPointer s.arch.trappc = false ∧ s.arch.savedUnissued = false) ∧
    (let s := regs [(1, { val := 0x4000000 }), (2, { psn := true })]
     (s.rdS 1).psn = false ∧ (s.rdS 2).psn = true ∧ 5 ∈ (regs []).arch.eBad ++ [5]) := by decide

theorem witness_Semaphores :
    (let s := regs [(1, { val := 0x7FFFFFFF }), (2, { psn := true })]
     (s.rdS 1).psn = false ∧ (s.rdS 2).psn = true ∧ s.arch.info.onGrid 0 = false) := by decide

def v3 (fmt : BitVec 8) : VV := { d := 3, a := 1, b := 2, c := 0, pred := 0, zero := 0, fmt := fmt, rm := 0, opx := 0 }

/-- Three FP32 sources, and the random bits of mode 5 in v4. -/
theorem witness_VectorFloatResults :
    (let s := vregs [(1, { tag := 2 }), (2, { tag := 2 }), (3, { tag := 2 }), (4, { tag := 0x17 })]
     (s.rdV (v3 2).a).tag = 2 ∧ (s.rdV (v3 2).b).tag = 2 ∧ (s.rdV (v3 2).d).tag = 2 ∧ (v3 2).fmt.toNat = 2 ∧ (v3 2).rm ≠ 5 ∧
     (let f : VV := { v3 2 with rm := 5, c := 4 }
      f.rm = 5 ∧ (s.rdV f.c).tag ∈ [0x00, 0x14, 0x15, 0x16, 0x17]) ∧
     raisedBy s (v3 2) 32 (fun _ => some (0, 0)) &&& bits s.cur.csw 16 5 = 0) ∧
    (let s := { vregs [] with cur := { open_ := true, csw := 0x10000 } }
     raisedBy s (v3 2) 32 (fun _ => some (0, 1)) &&& bits s.cur.csw 16 5 ≠ 0) := by decide +kernel

theorem witness_VectorIntegerResults :
    (let s := vregs [(1, { tag := 0x12 }), (2, { tag := 0x12 }), (3, { tag := 0x12 })]
     (s.rdV (v3 0x12).a).tag = 0x12 ∧ (s.rdV (v3 0x12).b).tag = 0x12 ∧ (s.rdV (v3 0x12).d).tag = 0x12 ∧
     (v3 0x12).opx[7] = false ∧ ({ v3 0x12 with opx := 0xFF } : VV).opx[7] = true) := by decide

theorem witness_VectorTagTraps :
    (let s := vregs [(1, { tag := 2 }), (2, { tag := 3 })]
     (s.rdV 2).tag ≠ 2 ∧ (s.rdV 1).tag = 2 ∧ (s.rdV 3).tag ≠ 2 ∧ (v3 2).rm ≠ 5 ∧ (s.rdV 1).psn = false ∧ (s.rdV 2).psn = false ∧
     (s.rdV 1).tag ≠ 0x17 ∧ ({ v3 2 with opx := 0 } : VV).opx[7] = false) ∧
    (let s := vregs [(1, { tag := 2 }), (2, { tag := 2 }), (4, { tag := 3 }), (5, { tag := 0x16 })]
     let f : VV := { v3 2 with rm := 5, c := 4, opx := 2 }
     (s.rdV f.a).tag = f.fmt.toNat ∧ (s.rdV f.b).tag = f.fmt.toNat ∧ (s.rdV f.d).tag ≠ f.fmt.toNat ∧ f.rm = 5 ∧
     (s.rdV f.c).tag ∉ [0x00, 0x14, 0x15, 0x16, 0x17] ∧ (s.rdV 5).tag ∈ [0x00, 0x14, 0x15, 0x16, 0x17] ∧
     (s.rdV f.a).tag = f.opx.toNat % 256 ∧ (s.rdV 4).tag ≠ 0 ∧ (s.rdV 4).tag ≠ f.fmt.toNat ∧
     fmtWidth 3 ≠ 8 * 2 ^ ({ esz := 2 } : Stream).esz.toNat) := by decide

theorem witness_ComparisonAndPredicates :
    (let s := vregs [(1, { tag := 0x12 }), (2, { tag := 0x12 }), (4, { psn := true })]
     (s.rdV 4).psn = true ∧ (s.rdV 1).psn = false ∧ (s.rdV 2).psn = false ∧ (s.rdV 1).tag = (v3 0x12).fmt.toNat ∧
     (s.rdV 2).tag = (v3 0x12).fmt.toNat ∧ (v3 0x12).fmt.toNat ∈ fmtInt ∧ ({ v3 0x12 with opx := 7 } : VV).opx.toNat % 16 < 8) ∧
    (let s := vregs [(1, { tag := 2 }), (2, { tag := 2 })]
     (s.rdV 1).psn = false ∧ (s.rdV 2).psn = false ∧ (s.rdV 1).tag = 2 ∧ (s.rdV 2).tag = 2 ∧ 2 ∈ fmtF ∧ bits s.cur.csw 16 5 = 0) ∧
    (let s := { vregs [(1, { tag := 2, bits := 0x7F800001 }), (2, { tag := 2 })] with cur := { open_ := true, csw := 0x10000 } }
     (fpDecode (fpOf 2) (elem (s.rdV 1).bits 0 32)).isSnan = true ∧ act (s.vpred (v3 2)) 0 32 = true ∧
     flInv &&& bits s.cur.csw 16 5 ≠ 0) := by decide +kernel

theorem witness_ConversionsAndTags :
    (let s := vregs [(1, { tag := 2 }), (4, { tag := 0x17 }), (3, { tag := 9 })]
     let f : VV := { v3 3 with opx := 2 }
     (s.rdV f.a).tag = f.opx.toNat % 256 ∧ f.rm ≠ 5 ∧ (s.rdV 5).tag = 0 ∧ (s.rdV 3).tag = 9 ∧ bits s.cur.csw 16 5 = 0 ∧
     (s.rdV 4).tag = 0x17 ∧ (s.rdV 4).tag ∈ [0x00, 0x14, 0x15, 0x16, 0x17]) := by decide

theorem witness_PermutesAndLaneMoves :
    (let s := vregs [(3, { tag := 2 })]
     let f : VV := { v3 2 with opx := 63 }
     (s.rdV f.d).tag = 2 ∧ f.opx.toNat % 512 < 2048 / fmtWidth 2 ∧ (s.rdV 5).tag = 0) := by decide

theorem witness_ReductionsAndPorts :
    (let s := vregs [(1, { tag := 2 })]
     (s.rdV 1).tag = 2 ∧
     (reduceTree (fun _ _ => (0, 0)) (Nat.log2 64) []).2 &&& bits s.cur.csw 16 5 = 0 ∧
     (reduceTree (fun _ _ => (0, 1)) 1 [some 0, some 0]).2 &&& bits (0x10000 : Word) 16 5 ≠ 0 ∧
     fmtWidth 2 = 8 * 2 ^ ({ esz := 2 } : Stream).esz.toNat) ∧
    (let q : Stream := { esz := 2, state := 1, fifo := [{ bits := 0, psn := false }] }
     q.fifo = { bits := 0, psn := false } :: []) ∧
    (let q : Stream := { esz := 2, state := 2 }
     q.fifo = [] ∧ q.state ≠ 1) ∧
    (let q : Stream := { esz := 2, state := 1 }
     q.fifo = [] ∧ q.state = 1) := by decide +kernel

/-- A store of 8 bytes that has been put off, to the location of an own ordered update that is still on its way. -/
def held1 (sb : List SbEntry) : State := { task {} with
  ctxs := [(0, { bound := true, sb := sb, arch := { info := { uid := 1, asid := 1 }, e := [(0, mkExtent 0x20000 0x10000 true 0 false false)], ePages := [(0, [page2])] }
                 late := [{ id := 9, refs := urefs [page2] 0x20000 8, va := 0x20000, n := 8, op := .store (leBytes 8 5) false }] })]
  updates := [{ id := 1, owner := some 0, pa := 0x20000, va := 0x20000, n := some 1, fmt := 0x17, info := { uid := 1 } },
    { id := 0, owner := some 0, pa := 0x20000, va := 0x20000, n := some 0, status := .refused, fmt := 0x17, info := { uid := 1 } }]
  nextId := 10 }

theorem witness_ScratchpadAccesses :
    (let s := regs [(1, { val := 0xFFFF8 }), (2, { psn := true })]
     let f : LP := { d := 3, a := 1, b := 2, size := 3, off := 0 }
     let a := ((s.rdS f.a).val + f.off.zeroExtend 64).toNat
     (s.rdS f.a).psn = false ∧ a + 8 ≤ 0x100000 ∧ a % 8 = 0 ∧ ¬(a + 256 ≤ 0x100000) ∧ (s.rdS 2).psn = true ∧
     s.cur.csw.getLsbD 23 = false) ∧
    (let s := regs [(1, { val := 0xFFF00 })]
     (s.rdS 1).val.toNat + 256 ≤ 0x100000 ∧ (s.rdS 1).val.toNat % 64 = 0 ∧ (s.rdS 2).psn = false) ∧
    (let s := regs [(1, { val := 0xFFFF9 })]
     ¬((s.rdS 1).val.toNat + 8 ≤ 0x100000 ∧ (s.rdS 1).val.toNat % 8 = 0)) ∧
    ((regs []).me.late = [] ∧ ((regs []).inOrder 0).owesLate 0 = false ∧ ((held1 []).inOrder 0).owesLate 0 = true) := by decide +kernel

/-- The extent of `task`, at its first and last byte, past it, misaligned; a read-only extent; a page of another core; no translation. -/
theorem witness_ExtentChecks :
    (let e := mkExtent 0x20000 0x10000 true 0 false false
     e.getLsbD 24 = true ∧ (0 : BitVec 128).getLsbD 24 = false ∧ e.getLsbD 23 = true ∧
     (mkExtent 0x20000 0x10000 false 0 false false).getLsbD 23 = false ∧
     (e.toNat / 2 ^ 73) % 2 ^ 55 = 0x20000 ∧ (e.toNat / 2 ^ 25) % 2 ^ 48 = 0x10000 ∧ (0x10000 : Int) < 0xFFFF + 2 ∧
     (0xFFF8 : Int) + 8 ≤ 0x10000 ∧ 0xFFF8 % 8 = 0 ∧ 0xFFF9 % 8 ≠ 0 ∧ pagesOf (0x20000 + 0xFFF8) 8 = [2]) ∧
    pageOf [page2] 2 = some page2 ∧ pageOf [page2] 3 = none ∧ (task {}).imagePages = [] ∧ (task {}).myCore = 0 ∧
    ({ page2 with cls := 2, owner := 1 } : Page).owner ≠ (task {}).myCore ∧
    (let s : State := { task {} with images := [{ asid := 1, base := 0, entry := 0, traptab := 0, codesz := 0, datasz := 0, libdecl := 0, pages := [2], segs := [] }] }
     page2.frame ∈ s.imagePages) ∧
    (let s := task {} { cells := [(0x10000, 0xA3), (0x10006, 8)] }
     (s.translate 1 0x20000).map (fun l => (l.cls, l.owner)) = some (2, 1)) := by decide +kernel

def lm : LM := { d := 3, a := 1, b := 2, ord := 0, nr := 0, size := 3, slot := 0, disp := 0 }

/-- A load whose checks pass, one past the extent, one that a watch register matches, one that waits for an own update. -/
theorem witness_ExtentLoads :
    (let s := task {}
     (s.rdS lm.a).psn = false ∧ s.lmCheck lm 8 8 false = 0 ∧ s.lmCheck lm 256 8 false = 0 ∧
     s.watchHit [(s.lmVa lm, 8)] true false = none) ∧
    (let s := task { s := [(1, { val := 0x10000 }), (2, { psn := true })] }
     s.lmCheck lm 8 8 false = 3 ∧ (s.rdS 2).psn = true) ∧
    (let s := task { watch := [(0, mkExtent 0x20000 8 true 0 false false)] }
     s.lmCheck lm 8 8 false = 0 ∧ s.watchHit [(s.lmVa lm, 8)] true false ≠ none) ∧
    (let s : State := { task {} with nextId := 2, updates := [{ id := 1, owner := some 0, pa := 0x20000, va := 0x20000, n := some 1, fmt := 0x17, info := { uid := 1 } },
        { id := 0, owner := some 0, pa := 0x20000, va := 0x20000, n := some 0, status := .refused, fmt := 0x17, info := { uid := 1 } }] }
     s.lmCheck lm 8 8 false = 0 ∧ s.watchHit [(s.lmVa lm, 8)] true false = none ∧ s.delays = false ∧ s.me.late = [] ∧
     (s.ready s.cur.ctx s.nextId (urefs (s.lmPages lm) (s.lmVa lm) 8)).2 = false) ∧
    (let s := task {}
     (s.ready s.cur.ctx s.nextId (urefs (s.lmPages lm) (s.lmVa lm) 8)).2 = true ∧ lm.slot.toNat ∉ s.arch.eBad ∧ s.delays = false ∧ s.misses = false) ∧
    (let s := task { eBad := [0] }
     lm.slot.toNat ∈ s.arch.eBad ∧ (s.rdS lm.a).psn = false) ∧
    ({ task {} with cur := { open_ := true, slot := 4, gaps := [12] } } : State).delays = true := by decide +kernel

theorem witness_ExtentStores :
    (let s := task { s := [(2, { psn := true })] }
     (s.rdS lm.a).psn = false ∧ s.lmCheck lm 8 8 true = 0 ∧ s.watchHit [(s.lmVa lm, 8)] false true = none ∧ (s.rdS lm.b).psn = true ∧
     s.cur.csw.getLsbD 23 = false) ∧
    (let s := task {}
     s.lmCheck lm 256 8 true = 0 ∧ (s.rdV lm.b).psn = false ∧ lm.slot.toNat ∉ s.arch.eBad ∧ s.delays = false ∧ s.me.late = [] ∧
     ((s.notedPsn false).ready s.cur.ctx s.nextId (urefs (s.lmPages lm) (s.lmVa lm) 256)).2 = true) ∧
    (let s : State := { held1 [] with ctxs := (task {}).ctxs }
     ((s.notedPsn false).ready s.cur.ctx s.nextId (urefs (s.lmPages lm) (s.lmVa lm) 8)).2 = false ∧ s.me.late = []) := by decide +kernel

/-- A descriptor at the start of the extent that is not valid, and one of rank 1: 16 FP32 elements of extent slot 0 from offset 64. -/
def lt : LT := { d := 3, a := 1, b := 2, slot := 0, disp := 0 }

/-- A descriptor at 0x20000: antisymmetric, 4 by 4, FP32, its 6 representatives at offset 64 of extent slot 0. -/
def tensored : Mem := oneMap.putBytes 0x20000
  (leBytes 64 (64 * 2 ^ 392 + 2 * 2 ^ 376 + 2 * 2 ^ 368 + 6 * 2 ^ 320 + 0x0203 * 2 ^ 256 + 4 * 2 ^ 32 + 4))

theorem witness_TensorElements :
    (let s := task { v := [(1, { tag := 0x16 }), (2, { psn := true }), (4, { tag := 2 })] }
     (s.rdV lt.a).psn = false ∧ (s.rdV lt.a).tag = 0x16 ∧ (s.rdV 2).psn = true ∧ (s.rdV 4).tag ≠ 0x30 ∧ (s.rdV 4).tag ≠ 0x16 ∧
     s.checkExt s.myCore (s.arch.slotPages lt.slot.toNat) (s.arch.extent lt.slot.toNat) lt.disp.toInt 64 64 false = 0 ∧
     (descOf (List.replicate 64 0)).formOk = false ∧ lt.slot.toNat ∉ s.arch.eBad ∧ s.misses = false) ∧
    lt.slot.toNat ∈ (task { eBad := [0] }).arch.eBad ∧
    (task {}).checkExt 0 [] ((task {}).arch.extent 5) 0 64 64 false ≠ 0 ∧
    (let s := task { v := [(1, { tag := 0x16, bits := 0x0000000100000001 }), (3, { tag := 0x16, bits := 0x0000000200000001 })],
                     s := [(2, { val := 5 })] } tensored
     let x := s.seenBytes 0 [page2] 0x20000 64
     let d := descOf x.1
     let e := s.arch.extent d.eslot
     let z := d.map [1, 1]
     let m := d.map [1, 2]
     let off := d.offset + m.k * 4
     s.checkExt s.myCore (s.arch.slotPages 0) (s.arch.extent 0) 0 64 64 false = 0 ∧ x.2 = false ∧ d.formOk = true ∧ d.bkind = false ∧
     e.getLsbD 24 = true ∧ (extBase e + d.offset) % d.align = 0 ∧ d.offset + d.span ≤ extLen e ∧ d.packet = false ∧ d.fmt = 2 ∧
     d.rank = 2 ∧ 2 < d.extOf 0 ∧ 2 < d.extOf 1 ∧ ¬4 < d.extOf 0 ∧ z.s = 0 ∧ m.s = -1 ∧
     s.checkExt s.myCore (s.arch.slotPages 0) e off 4 4 true = 0 ∧ s.watchHit [(extBase e + off, 4)] false true = none ∧
     (List.range 2).map (fun j => elem (s.rdV 3).bits j 32) = [1, 2] ∧
     (s.rdS 2).psn = false ∧ (s.rdS 2).val.toNat % 2 ^ 31 ≠ 0 ∧ (s.rdS 5).val.toNat % 2 ^ 31 = 0) ∧
    (let s := task { watch := [(0, mkExtent 0x20000 8 true 0 false false)] }
     s.watchHit [(0x20004, 4)] true false ≠ none) ∧
    (∀ k ∈ [SymKind.free, .sym, .anti, .cyc, .even, .odd], ∃ f : Factor, f.kind = k) := by
  refine ⟨by decide +kernel, by decide +kernel, by decide +kernel, by decide +kernel, by decide +kernel, ?_⟩
  intro k _
  exact ⟨{ kind := k, slots := [0], n := 1 }, rfl⟩

/-- An atomic at an offset of 8; one whose operand is poisoned; one sent on its way. -/
theorem witness_AtomicResults :
    (let s := task { s := [(1, { val := 8 }), (2, { val := 5 })] }
     lm.size = 3 ∧ (s.rdS lm.a).psn = false ∧ s.lmCheck lm 8 8 true = 0 ∧ s.watchHit [(s.lmVa lm, 8)] true true = none ∧
     (s.rdS lm.b).psn = false ∧ s.lmVa lm % 8 = 0 ∧ lm.ord = 0 ∧ lm.nr = 0 ∧ s.arch.info.det = false ∧ s.openSeqs = [] ∧
     s.arch.info.record = false ∧ s.arch.info.replay = false ∧ s.mem.mark ((placeIn (s.lmPages lm) (s.lmVa lm)).1 / 8) = false) ∧
    (let s := task { s := [(1, { val := 8 }), (2, { psn := true })] }
     (s.rdS lm.b).psn = true ∧ s.cur.csw.getLsbD 23 = false) ∧
    (let s := task { s := [(1, { val := 8 })] } { oneMap with marks := [(0x4001, true)] }
     s.mem.mark ((placeIn (s.lmPages lm) (s.lmVa lm)).1 / 8) = true) ∧
    (let s := task { s := [(1, { val := 4 })] }
     s.lmCheck lm 8 8 true = 4) ∧
    (lm.slot.toNat ∉ (task {}).arch.eBad ∧ lm.slot.toNat ∈ (task { eBad := [0] }).arch.eBad ∧ (task {}).delays = false) ∧
    ({ task {} with cur := { open_ := true, slot := 4, gaps := [12] } } : State).delays = true ∧
    (let s := task { s := [(1, { val := 16 })] }
     let f : LX := { d := 4, a := 1, b := 6, mods := 0, slot := 0, disp := 0 }
     (s.rdS f.a).psn = false ∧ s.checkExt s.myCore (s.lxPages f) (s.lxExt f) (s.lxOff f) 16 16 true = 0 ∧
     s.watchHit [(s.lxVa f, 16)] true true = none ∧ s.lxVa f % 16 = 0 ∧ (s.rdS f.d).psn = false ∧ (s.rdS (f.b + 1)).psn = false) := by
  decide +kernel

theorem witness_AtomicsOnTheirWay :
    (let s := task { s := [(1, { val := 8 }), (2, { val := 5 })] }
     let f : LM := { lm with nr := 1, d := 0, size := 2 }
     f.size = 2 ∧ (s.rdS f.a).psn = false ∧ s.lmCheck f 4 4 true = 0 ∧ s.watchHit [(s.lmVa f, 4)] true true = none ∧
     (s.rdS f.b).psn = false ∧ f.nr = 1 ∧ f.slot.toNat ∉ s.arch.eBad) ∧
    ({ lm with ord := 1 } : LM).ord = 1 := by decide +kernel

/-- `task` with host 1 registered, all rights its own, and a port up to module 7. -/
def hosted (s : State) : State := { s with
  links := [(0, { up := true, peer := 7 })]
  boss := { s.boss with hosts := [leBytes 16 1 ++ [1] ++ leBytes 7 0] } }

/-- A scatter of the first two elements of v2 to elements 3 and 3 of the extent, by p1. -/
theorem witness_Scatters :
    (let s := task { v := [(2, { tag := 2, bits := 0x0000000200000001 }), (3, { tag := 0x30, bits := 0x0000000300000003 })], p := [(1, 0xFF)] }
     let f : LM := { lm with d := 0, size := 1 }
     let v := s.rdV f.b
     let ix := s.rdV (f.b + 1)
     (s.rdS f.a).psn = false ∧ ix.psn = false ∧ v.tag ∈ scatTags ∧ v.tag ∈ scaddTags ∧ ix.tag = 0x30 ∧ s.scatCheck f 32 = 0 ∧
     s.watchHit ((s.scatTargets f 32).map fun t => (t.2, 4)) false true = none ∧ v.psn = false ∧
     s.scatTargets f 32 = [(0, 0x2000C), (1, 0x2000C)] ∧ (s.scatTargets f 32).length ≤ 16 ∧ f.slot.toNat ∉ s.arch.eBad ∧ s.delays = false) ∧
    (let s := vregs [(2, { tag := 2 }), (3, { tag := 2 }), (5, { psn := true })]
     (s.rdV 3).tag ≠ 0x30 ∧ (s.rdV 3).psn = false ∧ (s.rdV 5).psn = true) ∧
    (let s := task { v := [(2, { tag := 2 }), (3, { tag := 0x30, bits := 0x4000 })], p := [(1, 0xFF)] }
     s.scatCheck { lm with d := 0, size := 1 } 32 = 3) ∧
    (let s := task { s := [(1, { val := 0xFFFFFFFFFFFFFFFC })], v := [(2, { tag := 2 }), (3, { tag := 0x30, bits := 3 })], p := [(1, 0xF)] }
     let f : LM := { lm with d := 0, size := 1 }
     s.scatCheck f 32 = 0 ∧ s.scatTargets f 32 = [(0, 0x20008)]) := by decide +kernel

/-- PROBE of 1 byte in HBM, of nothing, past the extent, and of a page in the deep tier. -/
theorem witness_StreamsFencesAndNames_probe :
    (let s := task { s := [(2, { val := 1 }), (5, { val := 0x10001 }), (6, { psn := true })] }
     let f : LX := { d := 3, a := 1, b := 2, mods := 0, slot := 0, disp := 0 }
     (s.rdS 1).psn = false ∧ (s.rdS 2).psn = false ∧ (s.rdS 2).val.toNat ≠ 0 ∧ (s.rdS 7).val.toNat = 0 ∧ (s.rdS 6).psn = true ∧
     s.checkExt s.myCore (s.lxPages f) (s.lxExt f) (s.lxOff f) 1 1 false = 0 ∧ s.probeSet (s.lxPages f) (s.lxVa f) 1 = [] ∧
     f.slot.toNat ∉ s.arch.eBad ∧ f.slot.toNat ∈ (task { eBad := [0] }).arch.eBad ∧
     s.checkExt s.myCore (s.lxPages f) (s.lxExt f) (s.lxOff f) 0x10001 1 false = 3) ∧
    (let s := task {} oneMap { page2 with frame := 0x4000000 }
     let f : LX := { d := 3, a := 1, b := 2, mods := 0, slot := 0, disp := 0 }
     s.checkExt s.myCore (s.lxPages f) (s.lxExt f) (s.lxOff f) 1 1 false = 0 ∧ s.probeSet (s.lxPages f) (s.lxVa f) 1 ≠ []) := by decide +kernel

theorem witness_StreamsFencesAndNames :
    (let s := task { s := [(1, { val := 0 }), (2, { val := 0x10000 }), (5, { psn := true }), (7, { val := 0x10001 })] }
     let f : LX := { d := 0, a := 1, b := 2, mods := 2, slot := 0, disp := 0 }
     (s.rdS f.a).psn = false ∧ (s.rdS f.b).psn = false ∧ (s.rdS (4 : BitVec 6)).psn = false ∧ (s.rdS (4 + 1 : BitVec 6)).psn = true ∧
     s.checkExt s.myCore (s.lxPages f) (s.lxExt f) (s.lxOff f) (s.rdS f.b).val.toNat 1 false = 0 ∧
     f.mods ≠ 0 ∧ (s.rdS f.b).val ≠ 0 ∧ (s.rdS 3).val = 0 ∧
     s.checkExt s.myCore (s.lxPages f) (s.lxExt f) (s.lxOff f) (s.rdS 7).val.toNat 1 false ≠ 0 ∧
     ((pagesOf (s.lxVa f) 0x10000).filterMap (pageOf (s.lxPages f))).filter (fun p => p.cls = 1) = [] ∧
     s.me.late = [] ∧ (s.inOrder 0).owesLate 0 = false) ∧
    ((held1 []).inOrder 0).owesLate 0 = true ∧
    (let name : BitVec 128 := BitVec.ofNat 128 (7 * 2 ^ 96 + 1)
     name.toNat / 2 ^ 96 % 2 ^ 32 ≠ (hosted (task {})).part.serial ∧ (hosted (task {})).reaches 7 = true ∧ (task {}).reaches 7 = false) ∧
    (let s := task {} oneMap { page2 with cls := 1 }
     let f : LX := { d := 0, a := 1, b := 2, mods := 2, slot := 0, disp := 0 }
     ((pagesOf (s.lxVa f) 0x10000).filterMap (pageOf (s.lxPages f))).filter (fun p => p.cls = 1) ≠ []) ∧
    nameSerial (BitVec.ofNat 128 (2 ^ 96 + 5)) = State.reset.part.serial ∧ nameSerial (BitVec.ofNat 128 (2 ^ 97)) ≠ State.reset.part.serial := by decide +kernel

theorem witness_MatrixQueueCommands :
    (let s := regs [(4, { val := 1 }), (6, { psn := true })]
     (s.rdS 4).psn = false ∧ (s.rdS 5).psn = false ∧ (s.rdS 6).psn = true ∧ (s.rdS 8).psn = false ∧ (s.rdS 11).psn = false) := by decide

/-- A quad that names a remote destination block at the start of the scratchpad; one whose third register is poisoned. -/
theorem witness_CopyQueueCommands :
    (let s := regs [(5, { val := 0xC000000000000000 }), (10, { psn := true })]
     (∀ j : Fin 4, (s.rdS (4 + BitVec.ofNat 6 j)).psn = false) ∧ bits (s.rdS 5).val 62 2 = 3 ∧ bits (s.rdS 5).val 0 55 % 64 = 0 ∧
     bits (s.rdS 5).val 0 55 + 64 ≤ 2 ^ 20 ∧ (s.rdS 8).psn = false ∧ (s.rdS 9).psn = false ∧ (s.rdS 10).psn = true) := by decide

theorem witness_TransformBeats :
    (let s := vregs [(1, { tag := 2 }), (2, { tag := 9 })]
     (s.rdV 1).tag = 2 ∧ (s.rdV 1).tag ∈ fmtFloat ++ fmtInt ∧ (s.rdV 1).tag ≠ 3 ∧ (s.rdV 1).tag ≠ 0x30 ∧ (s.rdV 1).psn = false ∧
     (s.rdV 3).tag ≠ 2 ∧ (s.rdV 2).tag ∉ fmtFloat ++ fmtInt ∧ (s.rdV 1).tag ∉ fmtPacket) ∧ fmtPacket ≠ [] ∧
    (∀ t ∈ fmtPacket, ((vregs [(1, { tag := t })]).rdV 1).tag ∈ fmtPacket) := by decide

/-! The command endpoint: a running module, host 1 with all rights, and commands with the header of R387. -/

def header (op : Nat) (body : List Byte) : List Byte :=
  leBytes 4 0x434D4446 ++ leBytes 2 1 ++ leBytes 2 op ++ leBytes 8 77 ++ leBytes 4 body.length ++ leBytes 12 0 ++ body

theorem zeros_of (m : List Byte) (h : ((List.range 12).all fun j => nth 0 m (20 + j) == 0) = true) : ∀ j, 20 ≤ j → j < 32 → nth 0 m j = 0 := by
  intro j h1 h2
  have := List.all_eq_true.mp h (j - 20) (List.mem_range.mpr (by omega))
  simpa [show 20 + (j - 20) = j by omega] using this

theorem takesUp_of (s : State) (host op : Nat) (m : List Byte)
    (h : (s.boss.stage = 2 ∧ s.linked = true ∧ s.hostEntry host ≠ none ∧ fld m 6 2 = op ∧ fld m 0 4 = 0x434D4446 ∧ fld m 4 2 = 1 ∧
      m.length = 32 + fld m 16 4 ∧ fld m 16 4 ≤ 65504 ∧ s.abortAsked host = false) ∧
      ((List.range 12).all fun j => nth 0 m (20 + j) == 0) = true) : s.takesUp host m op := by
  obtain ⟨⟨a, b, c, d, e, f, g, i, j⟩, z⟩ := h
  exact ⟨a, b, c, d, e, f, g, i, zeros_of m z, j⟩

theorem witness_HostCommandProtocol :
    (let s := hosted (task {})
     s.boss.stage = 2 ∧ s.linked = true ∧ (task {}).linked = false ∧ s.hostEntry 1 ≠ none ∧ s.hostEntry 2 = none ∧ fld (header 1 []) 6 2 = 1 ∧
     fld (header 0x99 []) 6 2 ∉ [0x01, 0x02, 0x03, 0x10, 0x11, 0x12, 0x20, 0x21, 0x22, 0x23, 0x30, 0x31, 0x32] ∧
     fld (leBytes 4 0 ++ (header 1 []).drop 4) 0 4 ≠ 0x434D4446 ∧ s.abortAsked 1 = false ∧ s.mergesNone = true ∧
     ({ s with launches := [(1, { seq := 1, queue := 0, asid := 1, askers := [(1, 77)] })] } : State).abortAsked 1 = true) ∧
    (hosted (task {})).takesUp 1 (header 1 []) 1 := by
  refine ⟨by decide +kernel, takesUp_of _ _ _ _ (by decide +kernel)⟩

/-- An update to the line of 0x20000, of a merge that the device's own access has made, is still to come again after its slice refused it. -/
def merging1 : State := { task {} with
  updates := [{ id := 0, pa := 0x20000, va := 0x20000, fmt := 0x17, val := 5, merged := true, status := .refused, before := [(3, 0)] }], nextId := 1 }

/-- Each command with a body that meets its checks, and each check's failure. -/
theorem witness_HostMemoryAndQueues :
    (∀ x ∈ [(0x01, []), (0x02, leBytes 8 1 ++ leBytes 8 0x20000 ++ leBytes 8 5), (0x03, leBytes 8 1 ++ leBytes 8 0x20000 ++ leBytes 8 8),
      (0x20, leBytes 8 63 ++ leBytes 8 0x10300), (0x12, leBytes 8 0x20000), (0x02, leBytes 8 1)],
      (hosted (task {})).takesUp 1 (header x.1 x.2) x.1) ∧
    (let s := hosted (task {})
     s.deviceCheck 1 0x20000 8 true = 0 ∧ s.deviceCheck 1 0x20000 8 false = 0 ∧ s.deviceCheck 3 0x20000 8 true ≠ 0 ∧
     inDeep deepBase = true ∧ 63 < 64 ∧ ¬64 < 64 ∧ s.mergesNone = true ∧
     s.sparesTree [42, 29, 16] 0x10000 = false) ∧
    (let s := hosted {}
     s.part.backed 0x50000 = true ∧ inDeep 0x50000 = false ∧ s.sparesTree [42, 29, 16] 0x50000 = true) ∧
    (hosted {}).takesUp 1 (header 0x32 (leBytes 8 2 ++ leBytes 8 0x50000)) 0x32 ∧
    (let s := hosted merging1
     s.hears 1 (header 0x02 (leBytes 8 1 ++ leBytes 8 0x20000 ++ leBytes 8 5)) 0x02 = true ∧ (s.clears [(1, 0x20000, 8)]).2 = false) := by
  refine ⟨fun x hx => ?_, by decide +kernel, by decide +kernel, takesUp_of _ _ _ _ (by decide +kernel), by decide +kernel⟩
  simp only [List.mem_cons, List.not_mem_nil, or_false] at hx
  rcases hx with rfl | rfl | rfl | rfl | rfl | rfl <;> exact takesUp_of _ _ _ _ (by decide +kernel)

/-- The least image: one segment of one bundle, EXIT in slot 0, which is its entry. -/
def image : List Byte :=
  leBytes 4 0x474D494D ++ leBytes 4 1 ++ leBytes 8 0x40 ++ leBytes 8 0 ++ leBytes 8 64 ++ leBytes 32 0 ++
  (leBytes 4 0x5345474D ++ [1, 1, 0, 0] ++ leBytes 8 0 ++ leBytes 16 0 ++ leBytes 8 1 ++ leBytes 8 0x8400000000000000 ++ leBytes 16 0)

/-- `task` with the image at 0x30000, and with a body of IMGLD and IMGUL that names it. -/
def imaged : State := hosted (task {} { cells := [(0x10000, 35), (0x30000, 77), (0x30001, 73), (0x30002, 77), (0x30003, 71), (0x30004, 1), (0x30008, 64), (0x30018, 64)] ++
  [(0x30040, 77), (0x30041, 71), (0x30042, 69), (0x30043, 83), (0x30044, 1), (0x30045, 1), (0x30060, 1), (0x3006F, 132)] })

theorem test_imaged : imaged.mem = oneMap.putBytes 0x30000 image := by decide +kernel

def place1 : List Byte := leBytes 8 1 ++ leBytes 8 0x30000

/-- The image as it is listed when it is loaded. -/
def loaded : Image := { asid := 1, base := 0x30000, entry := 0x30040, traptab := 0, codesz := 64, datasz := 0, libdecl := 0, pages := [3], segs := [(0x30040, 1)] }

theorem witness_HostImageCommands :
    imaged.takesUp 1 (header 0x10 place1) 0x10 ∧ imaged.takesUp 1 (header 0x11 place1) 0x11 ∧ imaged.plain ∧
    (place1.length = 16 ∧ 0x30000 % 65536 = 0 ∧ imaged.deviceCheck 1 0x30000 64 false = 0 ∧ imaged.deviceCheck 1 0x30000 128 false = 0 ∧
      imaged.images = [] ∧ (imaged.memBytes 1 0x30000 128).1 = image ∧ imageBad (imaged.memBytes 1 0x30000 128).1 = [] ∧
      imageBad (leBytes 64 0x00000040474D494D) ≠ [] ∧ imaged.boss.sealKey ≠ none ∧ imaged.deviceCheck 2 0x30000 64 false ≠ 0 ∧
      imaged.mergesNone = true ∧ (imaged.loadImage 1 0x30000).1.imageDeep 1 0x30000 = false ∧ (imaged.loadImage 1 0x30000).1.imageBusy 1 0x30000 = false ∧
      pagesOf 0x30000 128 = [3] ∧ (imaged.translate 1 0x30000).map (fun l => l.pa / 65536) = some 3 ∧
      (∀ x ∈ imaged.walkAt 1 0x30000, x / 65536 ≠ 3)) ∧
    (∃ i ∈ ({ imaged with images := [loaded] } : State).images, i.asid = 1 ∧ i.base = 0x30000) ∧
    (let s := hosted merging1
     s.hears 1 (header 0x10 (leBytes 8 1 ++ leBytes 8 0x20000)) 0x10 = true ∧ (s.clears [(1, 0x20000, s.codeBytes 1 0x20000)]).2 = false) ∧
    (let g : Seg := { off := 64, count := 1, flags := 1, next := 0, size := 64, buns := [] }
     8 + 8 ≤ image.length ∧ g.off + 32 ≤ image.length) := by
  refine ⟨takesUp_of _ _ _ _ (by decide +kernel), takesUp_of _ _ _ _ (by decide +kernel), plain_of _ rfl, by decide +kernel, ⟨loaded, by simp, rfl, rfl⟩,
    by decide +kernel, by decide +kernel⟩

/-- A slot word of each kind, a segment's header at each of its outcomes, an image with a trap table, and one with a target outside it. -/
theorem witness_ImageChecks :
    (let w : Word := 0x010C108000000000
     w ≠ 0 ∧ fOp w ≠ 0 ∧ (decodeRaw .s w).isSome = true ∧ (1 : Word) ≠ 0 ∧ fOp 1 = 0 ∧ fOp 0x7000000000000000 ≠ 0 ∧
     decodeRaw .s 0x7000000000000000 = none) ∧
    (fld image 64 4 = 0x5345474D ∧ fld image 68 1 = 1 ∧ 64 < 64 + imgCodesz image ∧ ¬64 + imgCodesz image ≤ 64 ∧ fld image 0 4 ≠ 0x5345474D ∧
      (walkOf image).stop = none ∧ imgTable image = 0 ∧ (nodesOf (walkOf image).segs).length = 1) ∧
    (imageBad (image.set 0 0)).contains (0, 1) = true ∧ (imageBad (image.set 16 1)).contains (16, 0x10) = true ∧
    (imageBad (image.set 69 0)).contains (72, 3) = true ∧ (imageBad (image.set 111 0x70)).contains (104, 5) = true ∧
    (imageBad ((image.set 111 0x69).set 104 9)).contains (104, 0x0C) = true := by decide +kernel

/-- The image in the deep tier, at the page of address 0x50000. -/
def deepImage : State := { task {} { cells :=
    [(0x10000, 1), (0x10002, 2), (0x20000, 1), (0x20002, 3), (0x30028, 0x23), (0x3002D, 4)] ++
    ((List.range 128).zip image).filterMap fun p => if p.2 = 0 then none else some (0x4000000 * 65536 + p.1, p.2) } with
  boss := { sealKey := some 5 } }

/-- Its load waits until the page is in HBM; of the same image in HBM it does not. -/
theorem witness_HostImageCommands_deep :
    (deepImage.deviceCheck 1 0x50000 128 false = 0 ∧ (deepImage.memBytes 1 0x50000 128).1 = image ∧
      (deepImage.loadImage 1 0x50000).1.imageDeep 1 0x50000 = true) ∧
    (imaged.loadImage 1 0x30000).1.imageDeep 1 0x30000 = false := by decide +kernel

/-- A launch record at 0x40000 of one node, whose table is at 0x41000: one team of one task, entered at the image's entry. -/
def launchRec : List Byte := leBytes 4 0x4C4E4348 ++ leBytes 2 1 ++ [0, 1] ++ leBytes 8 0x30000 ++ leBytes 8 0x41000 ++ leBytes 104 0

def nodeRec : List Byte := leBytes 8 0 ++ leBytes 2 1 ++ leBytes 2 1 ++ leBytes 2 1 ++ [1, 1, 0, 0, 0, 0, 0xFF, 0xFF, 0xFF, 0xFF] ++ leBytes 616 0

def launching : State := { hosted (task {} { cells := [(0x10000, 35), (0x40000, 72), (0x40001, 67), (0x40002, 78), (0x40003, 76), (0x40004, 1), (0x40007, 1), (0x4000A, 3), (0x40011, 16)] ++
  [(0x40012, 4), (0x41008, 1), (0x4100A, 1), (0x4100C, 1), (0x4100E, 1), (0x4100F, 1), (0x41014, 255), (0x41015, 255), (0x41016, 255), (0x41017, 255)] }) with
  images := [loaded], queues := [(3, 0x10300)], nextSeq := 2
  launches := [(1, { seq := 1, queue := 3, asid := 1, image := 0x30000, nnodes := 1, nodes := [(0, { entry := 0x30040, args := [7] })] })] }

theorem test_launching : launching.mem = (oneMap.putBytes 0x40000 launchRec).putBytes 0x41000 nodeRec := by decide +kernel

def submit3 : List Byte := leBytes 8 3 ++ leBytes 8 0x40000

def watch1 : List Byte := leBytes 8 1 ++ [0, 3, 0, 0] ++ leBytes 4 0 ++ leBytes 16 (2 ^ 73 + 2 ^ 25 + 2 ^ 24)

theorem witness_HostLaunchCommands :
    launching.takesUp 1 (header 0x21 submit3) 0x21 ∧ launching.takesUp 1 (header 0x22 (leBytes 8 1)) 0x22 ∧
    launching.takesUp 1 (header 0x23 watch1) 0x23 ∧ launching.plain ∧
    (let s := launching
     let cfg := look 0 s.queues 3
     cfg.getLsbD 8 = true ∧ bits cfg 16 16 = 1 ∧ (look 0 s.queues 4 : Word).getLsbD 8 = false ∧ submit3.length = 16 ∧
     (s.launches.filter fun p => p.2.queue == 3 && !p.2.done).length < 256 ∧ 0x40000 % 64 = 0 ∧ s.deviceCheck 1 0x40000 128 false = 0 ∧
     (s.memBytes 1 0x40000 128).2.any id = false ∧ recordOk (s.memBytes 1 0x40000 128).1 true false = true ∧
     (s.images.find? fun i => i.asid == 1 && i.base == fld (s.memBytes 1 0x40000 128).1 8 8) = some loaded ∧
     s.deviceCheck 1 0x41000 640 false = 0 ∧ s.mem.marks = [] ∧ (s.memBytes 1 0x41000 16).1 = nodeRec.take 16 ∧ nodeOk loaded 0 nodeRec = true ∧
     nodeOk loaded 0 (leBytes 640 0) = false ∧ recordOk (leBytes 128 0) true false = false) ∧
    (let s := launching
     fld watch1 8 1 < (s.theLaunch 1).nnodes ∧ fld watch1 9 1 = 3 ∧ fld watch1 10 1 < (s.launchNode 1 0).tasks ∧
     fld watch1 16 16 % 2 ^ 23 = 0 ∧ 1 < s.nextSeq ∧ (s.theLaunch 1).done = false ∧ s.mergesNone = true ∧ (s.theLaunch 1).askers = [] ∧
     (s.theLaunch 1).over = false ∧ s.updates = [] ∧
     (look noLaunch [(1, { s.theLaunch 1 with done := true })] 1).done = true) := by
  refine ⟨takesUp_of _ _ _ _ (by decide +kernel), takesUp_of _ _ _ _ (by decide +kernel), takesUp_of _ _ _ _ (by decide +kernel),
    plain_of _ rfl, by decide +kernel, by decide +kernel⟩

/-- An entry of level 1 (a root's own) for VA 2^42 of address space 1, whose path exists and which is not in use; one past the VA space. -/
def mapped1 : List Byte := leBytes 8 (2 ^ 42) ++ [1] ++ leBytes 7 0 ++ leBytes 8 0

theorem witness_HostMapAndObjectCommands :
    (hosted (task {})).takesUp 1 (header 0x30 (leBytes 2 1 ++ leBytes 2 1 ++ leBytes 4 0 ++ mapped1)) 0x30 ∧
    (hosted (task {})).takesUp 1 (header 0x31 (leBytes 8 1 ++ leBytes 8 64 ++ leBytes 8 (1 * 2 ^ 48))) 0x31 ∧
    (hosted (task {})).plain ∧ (hosted (task {})).uncached ∧
    (let s := hosted (task {})
     s.root 1 = some 0x10000 ∧ entryAddr s.mem (2 ^ 42) [42] 0x10000 = some 0x10008 ∧ s.rangeBusy 1 (2 ^ 42) (2 ^ 42) = false ∧
     s.rangeSealed 1 (2 ^ 42) (2 ^ 42) = false ∧ ¬2 ^ 55 ≤ 2 ^ 42 ∧ s.updates = [] ∧ (s.beforeMap ((header 0x30 (leBytes 2 1 ++ leBytes 2 1 ++ leBytes 4 0 ++ mapped1)).drop 32)).2 = true ∧ s.root 2 = none ∧
     entryAddr s.mem (2 ^ 42) [42, 29] 0x10000 = none ∧ s.storageFree 1 0x60000 64 = true ∧ s.nameCtr < 2 ^ 96) ∧
    (let s : State := { task {} with names := [(1, { base := 0x60000, len := 64, asid := 1 })] }
     s.storageFree 1 0x60000 64 = false ∧ s.storageAnywhere 1 64 = true ∧ s.storageFree 2 0x60000 64 = false ∧ s.storageAnywhere 2 64 = false ∧
     s.keepsOwned 42 0x23 = false ∧ s.keepsOwned 42 0 = true) := by
  refine ⟨takesUp_of _ _ _ _ (by decide +kernel), takesUp_of _ _ _ _ (by decide +kernel), plain_of _ rfl, uncached_of _ rfl,
    by decide +kernel, by decide +kernel⟩

/-- The management key of the tests: a point of P-384 in its 97 bytes, for a secret known to them; and, signed with it, PCAP of 1,500 W and
FWUPD of the key itself and of a host list of one entry. -/
def testKey : List Byte := leBytes 97 220390460070702636952874416115964332655414106945788950299218048584395201371745493201292195322851649422970871827208536856077056507410076646949631273345512709972937194459776004440313119390914353919616604577234128336516981904473754833412

def capMsg : List Byte := leBytes 124 22156983118348238532918881748645978250832242995041349876367528477923956208512888768352801949962598063615365261862308837186846836744838132169887305015113580754670413004398034893617502116074648128301105691357059214941035337824262851764782501188634576806464306851037796331245436352651212500741925522759

def keyMsg : List Byte := leBytes 225 34110464582890029210543327642532562089992420139546467449706522842446812048341944510040533188651289805990643432745476281456706464662475651279496426208751888329655624115185158822342931610841461565736769443500056351712461321977461025190377883125051269263094571419413870849731104953050653761022018122463879022624865721228608556599215976618939984232509406059408681311168648042187306435395494653244045664919999870156350667181419832165298390544145910166656078691266170854623167882663483601775082421072124483150476951000823555413622905194300133756231

def listMsg : List Byte := leBytes 152 165074695504496891590088970414917655158686517497193098998659147188117377644502684718106891219953056117244329135361946557858835128242387808225272831967715624310205619036551553990902397427447550050387463053282975096785643016078829428160786420664699377275820784176451627184517028400589158131513496258498330869024238338288303190596501956995863172770183060737395956010311

theorem witness_HeadframeCommands :
    (let s : State := { boss := { mgmtKey := some testKey } }
     s.boss.erased = false ∧ s.headSigned capMsg = true ∧ fld capMsg 4 2 = 2 ∧ (headBody capMsg).length = 4 ∧ fld (headBody capMsg) 0 4 = 1500) ∧
    State.reset.headSigned capMsg = false ∧ ({ boss := { erased := true } } : State).boss.erased = true := by decide +kernel

/-- A key where none is held, whose command it verifies itself; a host list. -/
theorem witness_HeadframeCommands_fwupd :
    (State.reset.boss.mgmtKey = none ∧ State.reset.headSigned keyMsg = true ∧ fld keyMsg 4 2 = 4 ∧
      (let b := headBody keyMsg
       fld b 0 1 = 2 ∧ b.length = 8 + fld b 4 4 ∧ ((b.drop 8).take 97).length = 97 ∧ sec1Key ((b.drop 8).take 97) ≠ none)) ∧
    (let s : State := { boss := { mgmtKey := some testKey } }
     let b := headBody listMsg
     let c := (b.drop 8).take (fld b 4 4)
     s.headSigned listMsg = true ∧ fld b 0 1 = 3 ∧ b.length = 8 + fld b 4 4 ∧ c.length = 24 ∧ (∀ e ∈ chunks 24 16 c, fld e 16 1 ≤ 1)) := by
  decide +kernel

/-- Before and after a reset that has begun, and with the keys erased; a staged host list. -/
theorem witness_ModuleResetStates :
    State.reset.boss.erased = false ∧ State.reset.boss.stage ≠ 1 ∧ ({ boss := { erased := true } } : State).boss.erased = true ∧
    (let s : State := { boss := { staged := [(2, some testKey), (3, some [])], sealKey := some 5 } }
     look none s.boss.staged 3 = some [] ∧ look none s.boss.staged 2 = some testKey) ∧
    look none State.reset.boss.staged 3 = none ∧ look none State.reset.boss.staged 2 = none := by decide +kernel

/-- The bounds of the conditions of level 1 and of level 2, and units that are and are not there. -/
theorem witness_SensorsClocksAndUnits :
    ((300 ≤ 300 ∧ 300 ≤ 800) ∧ (300 ≤ 800 ∧ 800 ≤ 800) ∧ 800 < 801 ∧ ¬800 < 800 ∧ (1050 ≤ 1150 ∧ 1150 ≤ 1150) ∧ 1150 < 1151) ∧
    ({ boss := { hot := true } } : State).boss.hot = true ∧ ¬(State.reset.boss.hot = true ∨ State.reset.boss.cap < State.reset.boss.power) ∧
    (let s := State.reset
     kCl < 4 ∧ 0 < 4 * perDie kCl ∧ s.part.present (0 / perDie kCl) kCl (0 % perDie kCl) = true ∧ s.part.present 0 kCl 31 = false ∧
     (s.unitErrors kCl 0).due = false ∧ (({ s with errors := [(32 * kCl, { due := true })] } : State).unitErrors kCl 0).due = true) ∧
    (let r : BindRec := { op := 1, state := 2, info := { seq := 1, node := 0, team := 0 }, ctxs := [0], left := [0] }
     let s : State := {
       clusters := [(0, { slots := [(0, r)] })]
       launches := [(1, { seq := 1, queue := 0, asid := 1, started := true, nodes := [(0, { stages := 2, gx := 2, boundTeams := [0] })], nnodes := 1 })] }
     s.groupsOn 0 = [(1, 0, 0)] ∧ (s.launchNode 1 0).groupTeams 0 = [0, 1] ∧ 1 ∉ (s.launchNode 1 0).boundTeams) ∧
    (let s := task {}
     clusterOf 0 = 0 ∧ (s.ctx 0).bound = true ∧ (s.ctx 0).ending = none) := by decide +kernel

theorem witness_LaunchSubmissionByTask :
    (let s := task { s := [(1, { val := 63 }), (2, { psn := true }), (4, { val := 64 })] }
     (s.rdS 1).psn = false ∧ (s.rdS 1).val.toNat < 64 ∧ toSigned 28 (64 % 2 ^ 28) % 64 = 0 ∧ toSigned 28 1 % 64 ≠ 0 ∧
     s.checkExt s.myCore (s.arch.slotPages 0) (s.arch.extent 0) 64 128 64 false = 0 ∧
     s.checkExt s.myCore (s.arch.slotPages 0) (s.arch.extent 0) 0xFFC0 128 64 false = 3 ∧ (s.rdS 2).psn = true ∧
     64 ≤ (s.rdS 4).val.toNat ∧ 0 ∉ s.arch.eBad ∧ 0 ∈ (task { eBad := [0] }).arch.eBad ∧ s.misses = false) := by decide +kernel

def l1 : Launch := { seq := 1, queue := 3, asid := 1 }

/-- A launch of one node whose image has 16 bytes of data, and whose DATAVA is in its address space; and the same with nothing mapped. -/
def launch1 (l : Launch) : State := { imaged with
  images := [{ loaded with datasz := 16 }]
  launches := [(1, { l with seq := 1, queue := 3, asid := 1, image := 0x30000, nnodes := 1,
                            nodes := [(0, { entry := 0x30040, complete := l.done })], done := false })] }

theorem witness_LaunchesRunAndComplete :
    (let s := launch1 { l1 with dataVa := 0x40000 }
     let l := s.theLaunch 1
     l.seq ≠ 0 ∧ l.started = false ∧ l.done = false ∧ (∀ p ∈ s.launches, ¬(p.2.queue = l.queue ∧ p.2.seq < l.seq ∧ p.2.done = false)) ∧
     l.replay = false ∧ (s.images.find? fun i => i.asid == l.asid && i.base == l.image) = some { loaded with datasz := 16 } ∧
     l.dataVa ≠ 0 ∧ s.deviceCheck 1 0x40000 16 true = 0 ∧
     (∀ j ∈ List.range 16, (s.translate 1 (0x30080 + j)).isSome = true ∧ s.part.backed (0x30080 + j) = true) ∧
     (∀ b ∈ (s.memBytes 1 0x30080 16).2, b = false) ∧ s.deviceCheck 1 (2 ^ 42) 16 true ≠ 0 ∧ s.mergesNone = true) ∧
    (let s : State := { launch1 { l1 with dataVa := 0x20000 } with updates := merging1.updates }
     (s.clears (s.startRanges (s.theLaunch 1))).2 = false) ∧
    (let s := launch1 { l1 with started := true }
     let l := s.theLaunch 1
     l.seq ≠ 0 ∧ l.started = true ∧ l.done = false ∧ l.aborted = false ∧ l.dataFail = none ∧ 0 < l.nnodes ∧
     (s.launchNode 1 0).ready = false ∧ (s.launchNode 1 0).complete = false ∧ (s.launchNode 1 0).preds = [] ∧ listed l.nodes 0 = true) ∧
    (let s := launch1 { l1 with started := true, done := true, cpl := 0x40000, cplmsg := true, host := some 1 }
     let l := s.theLaunch 1
     l.seq ≠ 0 ∧ l.done = false ∧ l.started = true ∧ (∀ p ∈ l.nodes, p.2.complete = true) ∧ s.deviceCheck l.asid l.cpl 64 true = 0 ∧
     s.deviceCheck l.asid (2 ^ 42) 64 true ≠ 0 ∧ s.mergesNone = true) ∧
    (({ launch1 {l1 with started := true } with updates := merging1.updates } : State).clears [(1, 0x20000, 64)]).2 = false ∧
    (launch1 { l1 with dataVa := 0x40000 }).plain := by
  refine ⟨by decide +kernel, by decide +kernel, by decide +kernel, by decide +kernel, by decide +kernel, plain_of _ rfl⟩

/-- A context at a bundle whose slot words are `w`, not in the middle of one. -/
def waiting (w : List Word) (a : Arch := {}) : State :=
  { ctxs := [(0, { bound := true, arch := { a with pos := 0x400 }, halfA := .resident 0x400 true 0 [w] })], cur := {} }

/-- A bundle that issues; one that waits for a balance of 1; one whose source is pending; one whose bundle is not there; re-entry. -/
theorem witness_BundlesIssue :
    (let s := waiting [0x010C108000000000, 0, 0, 0, 0, 0, 0, 0]
     let c := s.ctx 0
     s.cur.open_ = false ∧ c.bound = true ∧ c.ending = none ∧ c.pause = 0 ∧ s.stopped 0 = false ∧ s.turn 0 = true ∧ c.window = none ∧
     (c.bundleAt c.arch.pos).isSome = true ∧ yWen (yOf [0x010C108000000000, 0, 0, 0, 0, 0, 0, 0]) = false ∧
     s.holds 0 (slotOps [0x010C108000000000, 0, 0, 0, 0, 0, 0, 0] 0) = false ∧
     s.bankWait 0 (slotOps [0x010C108000000000, 0, 0, 0, 0, 0, 0, 0] 0) = false ∧ c.arch.reenter.getD 0 < 7 ∧ c.arch.reenter = none ∧ c.aside = none ∧
     (∀ i ∈ slotOps [0x010C108000000000, 0, 0, 0, 0, 0, 0, 0] 0, (s.asIssued 0).needs i = none)) ∧
    (let s : State := { waiting [0, 0, 0, 0, 0, 0, 0, 0] with ctxs := [(0, { (waiting [0, 0, 0, 0, 0, 0, 0, 0]).ctx 0 with aside := some { slot := 2 } })] }
     (s.ctx 0).aside = some { slot := 2 } ∧ s.stopped 0 = false) ∧
    (let s := held1 []
     (s.place 0 [.fence { d := 0, a := 0, b := 0, mods := 5, slot := 0, disp := 0 }]).2 = false) ∧
    (let s : State := { waiting [0x010C108000000000, 0, 0, 0, 0, 0, 0, 0] with
       ctxs := [(0, { bound := true, sb := [{ dst := .s 1, what := .scalar {} }] })] }
     s.holds 0 (slotOps [0x010C108000000000, 0, 0, 0, 0, 0, 0, 0] 0) = true) ∧
    (let s := waiting [] { reenter := some 6 }
     (s.ctx 0).arch.reenter = some 6 ∧ (s.ctx 0).arch.reenter.getD 0 < 7) ∧
    (let s := waiting []
     (s.ctx 0).bundleAt 0x440 = none ∧ (s.ctx 0).curHalf.residentIn 0x400 = true ∧ (s.ctx 0).curHalf.residentIn 0x440 = false ∧
     (s.ctx 0).idleHalf.residentIn 0x440 = false) := by decide +kernel

theorem witness_PausesTurnsAndWindows :
    (let f : Flight := { due := 3, seq := 0, dst := .s 1 { val := 9 } }
     (∃ g ∈ [f], g.due ≤ 3 ∧ g.dst = .s 1 { val := 9 }) ∧ (∀ g ∈ [f], 3 ≤ g.due)) ∧
    (let s : State := { ctxs := [(0, { bound := true, pause := 31 })] }
     ¬((s.ctx 0).pause = 0 ∨ (s.ctx 0).bound = false ∨ s.stopped 0 = true)) ∧
    (let s := waiting []
     (s.ctx 0).bundleAt (s.ctx 0).arch.pos = some [] ∧ s.due 0 = true ∧ (s.ctx 0).waitMet = false ∧ yWen (yOf []) = false) ∧
    (let c : Ctx := { window := some { mask := 1, left := 0, chain := 15 } }
     c.window = some { mask := 1, left := 0, chain := 15 } ∧ c.aside = none ∧ ({ c with window := none } : Ctx).window = none) ∧
    (let s : State := { ctxs := [(0, { bound := true, yielding := some [1] }),
                          (1, { bound := true, arch := { pos := 0x400 }, halfA := .resident 0x400 true 0 [[]] })]
                        cores := [(0, { holder := some 0, streak := 1024 })] }
     (s.core 0).holder = some 0 ∧ 1024 ≤ (s.core 0).streak ∧ s.cur.open_ = false ∧ s.stopped (coreOf 0) = false ∧
     (s.ctx 0).yielding = some [1] ∧ s.rival 0 = true ∧ s.ready_ 1 = true ∧ s.ready_ 2 = false) ∧
    (let f (n : Nat) : Flight := { due := 3, seq := n, dst := .p 1 0 0 }
     [f 0, f 1].filter (fun f => decide (f.due ≤ 3)) = [f 0] ++ f 1 :: [] ∧ (∀ g ∈ [f 0, f 1], g.due = 3)) := by decide +kernel

/-- A half that expands the segment at 0x30040 of the loaded image: good as IMGLD leaves it, bad where no such segment is. -/
def expanding (sealed : Bool) : State :=
  let s := if sealed then (match execImgld 1 (header 0x10 place1) imaged with | .next t => t | _ => imaged)
           else { task {} with images := [loaded] }
  { s with cur := {}, ctxs := [(0, { bound := true, arch := { pos := 0x30040, info := { uid := 1, asid := 1, image := 0x30000 } },
                                     halfA := .expanding 0x30040 false })] }

theorem witness_FetchesFreezesAndErrors :
    (let s := expanding false
     (s.ctx 0).halfA = .expanding 0x30040 false ∧ s.expandSeg (s.ctx 0).arch.info 0x30040 = .bad ∧ (s.ctx 0).bound = true ∧
     (s.ctx 0).ending = none ∧ (s.ctx 0).pause = 0 ∧ ptrSeg (s.ctx 0).arch.pos = 0x30040 ∧ (s.ctx 0).curHalf.residentIn 0x30040 = false ∧
     (s.ctx 0).arch.handlerStart = false ∧ (s.ctx 0).arch.csw.getLsbD 3 = false) ∧
    (let s := expanding true
     (match s.expandSeg (s.ctx 0).arch.info 0x30040 with | .good _ _ _ => true | _ => false) = true) ∧
    (let s : State := { time := 64, cores := [(0, { frozen := 64 })] }
     (s.core 0).frozen ≠ 0 ∧ (s.core 0).frozen ≤ s.time ∧ s.locked 0 5 = false ∧ look 0 (s.core 0).starved 5 + 64 ≤ s.time) ∧
    (let s : State := { cores := [(0, { l1 := [(0x4000, { here := true, val := 5 })] })] }
     ((s.core 0).l1Unit 0x4000).here = true ∧ ((s.core 0).l1Unit 0x4001).here = false) := by
  decide +kernel

/-- A context with one scoreboarded result. -/
def owed (e : SbEntry) : State := { ctxs := [(0, { bound := true, sb := [e] })], queues := [(3, 0x300)] }

theorem witness_ResultsLand :
    (let c := (owed { dst := .s 5, what := .scalar { val := 1 } }).ctx 0
     c.sb[0]? = some { dst := .s 5, what := .scalar { val := 1 } } ∧ c.sb[1]? = none ∧ c.signals = []) ∧
    (let s := owed { dst := .s 5, what := .sget 3 0 }
     (s.ctx 0).sb[0]? = some { dst := .s 5, what := .sget 3 0 } ∧ ¬∃ p ∈ (s.ctx 0).signals, p.sem = 3 ∧ p.born < 0) ∧
    (let s := owed { dst := .s 5, what := .probe [page2] }
     (∀ p ∈ [page2], ¬deepBase ≤ p.frame * 65536) ∧ (s.ctx 0).held 0 = false) ∧
    (let s := task { migrating := [0x4000000] }
     ∃ p ∈ [({ page2 with frame := 0x4000000 } : Page)],
       deepBase ≤ p.frame * 65536 ∧ p.frame ∈ (s.ctx 0).arch.migrating ∧ s.pinned p.frame = false) ∧
    (let n : BitVec 128 := BitVec.ofNat 128 (2 ^ 96 + 1)
     let e : NameEntry := { base := 0x20000, len := 0x10000, asid := 1, rights := [(1, 1, 3)], pages := [page2] }
     let s : State := { task {} with names := [(n, e)], nameCtr := 2, clusters := [(0, { names := [n] })] }
     nameSerial n = s.part.serial ∧ nameSeq n ≠ 0 ∧ nameSeq n < s.nameCtr ∧ s.nameEntry n = some e ∧ e.live = true ∧
     e.right s.part.serial (s.ctx 0).arch.info.asid = 3 ∧ e.base < 2 ^ 55 ∧ e.len < 2 ^ 48 ∧ (s.cluster 0).names.contains n = true ∧
     s.nameEntry (look 0 (s.ctx 0).arch.names 0) = none ∧ (∃ p ∈ s.clusters, n ∈ p.2.names) ∧ s.shot n = true ∧
     ({ s with names := [(n, { e with live := false, shooting := [0] })] } : State).shot n = false ∧
     e.right s.part.serial 2 = 0 ∧ s.reaches 7 = false ∧ (hosted s).reaches 7 = true) ∧
    (let s := owed { dst := .s 5, what := .enq 3 [] 0 0 }
     (look 0 s.queues 3).getLsbD 8 = true ∧ (look 0 s.queues 3).getLsbD 9 = true ∧ bits (look 0 s.queues 3) 16 16 = (s.ctx 0).arch.info.asid ∧
     (s.submit 3 [] (some 0) none 0 false).2.1 ≠ 0 ∧ (look 0 s.queues 4 : Word).getLsbD 8 = false ∧ s.updates = [] ∧ (s.ctx 0).late = [] ∧
     s.mergesNone = true) ∧
    (let s : State := { merging1 with queues := [(3, 0x10300)] }
     (s.clears [(bits (look 0 s.queues 3) 16 16, fld (leBytes 16 0 ++ leBytes 112 0x20000) 16 8, 640)]).2 = false) ∧
    (let s : State := { ctxs := [(0, { bound := true, aside := some { since := 1 }, sb := [{ dst := .s 5, what := .scalar {} }, { dst := .s 6, what := .scalar {} }] })] }
     (s.ctx 0).held 1 = true) ∧
    (launching.submit 3 launchRec (some 1) none 0 false).2.1 = 0 := by decide +kernel

/-- A task that has ended, with a range whose second page it wrote and a name bound; what it may still owe; and one task of a launch's
node of two. -/
theorem witness_TasksRetire :
    (let s : State := { ctxs := [(0, { bound := true, ending := some { status := 0x23, exitCode := 7, faultPc := 0 } })] }
     (s.ctx 0).ending = some { status := 0x23, exitCode := 7, faultPc := 0 } ∧ (s.ctx 0).bound = true ∧ s.cur.open_ = false ∧
     s.updates = [] ∧ (s.ctx 0).flushes = [] ∧ (s.ctx 0).signals = [] ∧ s.cores = [] ∧ (s.ctx 0).late = [] ∧
     (s.ctx 0).owesAct s.part.serial = false ∧ (((s.inOrder 0).mergeOwn 0).clears (s.endRanges {})).2 = true) ∧
    (let a : Arch := { runs := [[page2, { page2 with vp := 3, frame := 3 }]], wrote := [(0x10000, 3)], names := [(2, 5)] }
     splitRuns [page2, { page2 with vp := 3, frame := 3 }] = [[page2, { page2 with vp := 3, frame := 3 }]] ∧
     (page2.at_, 3) ∈ a.wrote ∧ a.names.countP (fun p => p.2 == 5) = 1) ∧
    (splitRuns [page2, { page2 with vp := 3, frame := 9 }] = [[page2], [{ page2 with vp := 3, frame := 9 }]]) ∧
    ((held1 []).inOrder 0).owesLate 0 = true ∧
    (let s : State := { merging1 with launches := [(1, { seq := 1, queue := 0, asid := 1, nodes := [(0, { trec := 0x20000 })], nnodes := 1 })] }
     (s.clears (s.endRanges { seq := 1, node := 0, team := 0, task := 0 })).2 = false) ∧
    (let s : State := { launches := [(1, { seq := 1, queue := 0, asid := 1, nodes := [(0, { tasks := 2 })], nnodes := 1 })] }
     let i : TaskInfo := { seq := 1, node := 0, team := 0, task := 0 }
     s.updates = [] ∧ i.replay = false ∧ (s.launchNode 1 0).det = false ∧ listed s.launches i.seq = true ∧
     listed (s.theLaunch i.seq).nodes i.node = true ∧
     ∃ p ∈ (s.launchNode 1 0).allTasks, 64 * p.1 + p.2 ∉ (s.launchNode 1 0).retired ∧ 64 * p.1 + p.2 ≠ 64 * i.team + i.task) := by
  decide +kernel

/-- An unordered update, one that heads its sequence, one that follows another, one refused 64 cycles ago. -/
theorem witness_UpdatesReachMemory :
    (let u : Update := { id := 0, pa := 0x20000, va := 0x20000, fmt := 0x17, val := 5 }
     let s : State := { task {} with updates := [u] }
     s.findUpdate 0 = some u ∧ u.status = .transit ∧ u.n = none ∧ s.mayApply u = true ∧ s.laterOf u = false ∧ s.heldOut u = false ∧
     s.afterOwn u = false ∧ (∀ v ∈ s.updates, v.before = []) ∧ s.findUpdate 1 = none ∧ s.merging 0x800 = false ∧
     ({ s with updates := [{ u with merged := true }] } : State).merging 0x800 = true) ∧
    (let u : Update := { id := 0, pa := 0x20000, va := 0x20000, fmt := 0x17, n := some 0, info := { det := true } }
     let v : Update := { u with id := 1, n := some 1 }
     let s : State := { task {} with updates := [u, v] }
     s.isHead u = true ∧ s.isHead v = false ∧ s.findUpdate 1 = some v ∧ v.status = .transit) ∧
    (let u : Update := { id := 0, status := .refused, born := 6 }
     let s : State := { updates := [u], time := 70 }
     s.findUpdate 0 = some u ∧ u.status = .refused ∧ u.born + 64 ≤ s.time ∧ 69 < u.born + 64) ∧
    (let s : State := { held1 [{ dst := .s 5, what := .late 9 }] with updates := [] }
     let l : Late := { id := 9, refs := urefs [page2] 0x20000 8, va := 0x20000, n := 8, op := .store (leBytes 8 5) false }
     (s.ctx 0).late = [l] ∧ s.lateOver l = false ∧ (s.ctxs.find? fun p => p.2.late.any fun l => l.id == 9) = some (0, s.ctx 0) ∧
     (∀ p ∈ pagesOf l.va l.n, pageOf [page2] p ≠ none) ∧ (s.ready 0 l.id l.refs).2 = true ∧ ((held1 []).ready 0 l.id l.refs).2 = false) ∧
    (let u : Update := { id := 4, pa := 0x20000, va := 0x20000, fmt := 0x17, val := 5, status := .line }
     let s : State := { task {} with updates := [u], cores := [(0, { lines := [(0x800, [4])] })] }
     s.openSeqs = [] ∧ [4].Nodup ∧ (((s.core 0).lines.filter fun p => p.1 == 0x800).map Prod.snd).flatten = [4] ∧
     [4].filterMap s.findUpdate = [u] ∧ u.hi = none ∧ u.n = none ∧ u.pa / 8 = 0x4000) := by decide +kernel

/-- A launch of one team that may be bound on context 0, and a range of one page, of none, read-only, and past the VA space. -/
def bindable : State := { task {} with
  ctxs := []
  cur := {}
  launches := [(1, { seq := 1, queue := 3, asid := 1, image := 0x30000, nnodes := 1, started := true,
                     nodes := [(0, { entry := 0x30040, ready := true, args := [7] })] })] }

def range1 (va len flags : Nat) : List Byte := leBytes 8 va ++ leBytes 8 len ++ [BitVec.ofNat 8 flags] ++ leBytes 15 0

theorem witness_TeamsBind :
    (let s := bindable
     s.mayBind 0 0 1 0 0 1 = true ∧ s.groupPlaced 1 0 0 = false ∧ s.mayBind 0 0 1 0 1 1 = false ∧ listed (s.theLaunch 1).nodes 0 = true ∧ (s.launchNode 1 0).ranges = [] ∧
     (s.launchNode 1 0).fuse = false ∧ 0 < (s.launchNode 1 0).tasks ∧ (s.theLaunch 1).seq = 1 ∧ maskContexts 0 1 = [0]) ∧
    (let start (rs : List (List Byte)) : State := { bindable with
       clusters := [(0, { slots := [(0, { op := 1, state := 1, info := { seq := 1 }, ctxs := [0], left := [0], toStart := [0], tasks := 1 })] })]
       launches := [(1, { seq := 1, queue := 3, asid := 1, image := 0x30000, nnodes := 1, started := true,
                          nodes := [(0, { entry := 0x30040, ready := true, args := [7], ranges := rs })] })] }
     (look {} ((start []).cluster 0).slots 0).toStart = [0] ∧ ((start []).launchNode 1 0).ranges = [] ∧ (0, 0) ∈ ((start []).launchNode 1 0).allTasks ∧
     (let s := start [leBytes 8 (2 ^ 42) ++ leBytes 8 0x10000 ++ [1] ++ leBytes 15 0]
      (match (({ s with nextId := s.nextId + 1 } : State).resolveRanges 0 0 ((List.range 16).zip (s.launchNode 1 0).ranges)
        (s.freshArch (s.theLaunch 1) 0 0 0 [])).2 with
      | .error c => c == 3
      | .ok _ => false) = true)) ∧
    (let s := bindable
     let r := range1 0x20000 0x10000 5
     (fld r 16 1).testBit 0 = true ∧ (fld r 16 1).testBit 1 = false ∧ fld r 0 8 + fld r 8 8 ≤ 2 ^ 55 ∧ 0 < fld r 8 8 ∧ fld r 8 8 < 2 ^ 48 ∧
     pagesOf (fld r 0 8) (fld r 8 8) = [2] ∧ pagesOf (2 ^ 55 - 0x10000) (min 0x10001 0x10000) = [2 ^ 39 - 1] ∧ (s.translate 1 0x20000).map (fun l => (s.part.backed l.pa, l.cls, l.w)) = some (true, 0, true) ∧
     s.translate 2 0x20000 = none ∧ 2 ^ 55 < fld (range1 (2 ^ 55 - 0x10000) 0x10001 1) 0 8 + fld (range1 (2 ^ 55 - 0x10000) 0x10001 1) 8 8 ∧
     (fld (range1 0 0 0) 16 1).testBit 0 = false) := by decide +kernel

/-- A team of one task whose bundle waits for a balance of 1 of semaphore 255 of its grid, bound on context 0 or swapped out. -/
def teamed (r : BindRec) (time : Nat) (on : Bool) (gx : Nat := 2) : State := { bindable with
  time := time
  launches := [(1, { seq := 1, queue := 3, asid := 1, image := 0x30000, nnodes := 1, started := true,
                     nodes := [(0, { entry := 0x30040, ready := true, gx := gx, boundTeams := [0], mayOut := true, mayIn := true })] })]
  clusters := [(0, { slots := [(0, { r with op := 1, info := { seq := 1, node := 0, team := 0, gsem := true }, tasks := 1 })] })]
  ctxs := if on then [(0, { bound := true, arch := { info := { uid := 1, seq := 1, asid := 1, gsem := true }, pos := 0x400 }
                            halfA := .resident 0x400 true 0 [[0, 0, 0, 0, 0, 0, 0, 2 ^ 24 + 255 * 2 ^ 25 + 2 ^ 33]] })] else [] }

theorem witness_TeamsSwapAndAbort :
    (let s := teamed { state := 2, ctxs := [0], left := [0] } 65535 true
     s.time < s.period + 65536 ∧ 65537 ≠ s.period + 65536 ∧ s.idleTeam (look {} (s.cluster 0).slots 0) = true) ∧
    (let s := teamed { state := 2, ctxs := [0], left := [0], eligible := true, since := some 1 } 65536 true
     (let ended := s.period + 65536; ¬(ended ≠ s.period + 65536 ∨ s.time < ended ∨ s.overdue = true)) ∧
     (∀ j ∈ List.range (s.launchNode 1 0).stages, (s.launchNode 1 0).groupOf 0 * (s.launchNode 1 0).stages + j ∈ (s.launchNode 1 0).boundTeams) ∧
     (look {} (s.cluster 0).slots 0).since = some (s.issueSum (look {} (s.cluster 0).slots 0)) ∧
     s.groupRecords 0 0 = [0] ∧ s.eligible (look {} (s.cluster 0).slots 0) = true ∧ (s.launchNode 1 0).mayOut = true ∧
     s.readyTeam 1 0 = true ∧ (s.ctx 0).flushes = [] ∧ listed (s.theLaunch 1).nodes 0 = true) ∧
    (let s := teamed { state := 3, ctxs := [0], left := [0], saved := [(0, {})], sems := [(3, { mark := true })], readyAt := some 0 } 0 false 1
     let h := look {} (s.cluster 0).slots 0
     s.maySwapIn 0 0 (swapTeams [0] [0] [1]) = true ∧ s.maySwapIn 0 0 (swapTeams [0] [0] [3]) = false ∧ h.state = 3 ∧
     (s.launchNode h.info.seq h.info.node).fuse = false ∧ (h.saved.map Prod.fst).Nodup ∧ ∀ p ∈ h.saved, p.1 < (maskContexts 0 1).length) ∧
    (let s := teamed { state := 1, ctxs := [0], left := [0], toStart := [0] } 0 false
     let r := look {} (s.cluster 0).slots 0
     r.state = 1 ∧ r.toStart = [0] ∧ listed (s.theLaunch 1).nodes 0 = true ∧ (0, 0) ∈ (s.launchNode 1 0).allTasks) := by
  decide +kernel

/-- A command of context 0 of core 0, with no token to wait for, and with four quad words. -/
def cmd (op : Nat) (q : List Word) : Cmd := { id := 9, ctx := 0, slot := 5, op := op, d := 7, toks := [.have_ 0 false], quad := q }

/-- A copy of 16 bytes from scratchpad address 0x100 to 0x203. -/
def copy16 : Cmd := cmd 1 [0x100, 0x203, 16, 0]

theorem witness_CopyCommandsStart :
    (let s : State := { ctxs := [(0, { bound := true })], cores := [(0, { cq := [copy16] })] }
     (s.core 0).copyCmd 9 = some copy16 ∧ (s.core 0).copyCmd 8 = none ∧ s.still 0 = false ∧ copy16.started = false ∧ copy16.finished = false ∧
     (∀ t ∈ copy16.toks, t.good = true) ∧ ((s.core 0).cq.filter fun x => x.started && !x.finished).length < 4 ∧ copy16.op = 1 ∧
     bits (copy16.q 0) 62 2 < 2 ∧ bits (copy16.q 1) 62 2 < 2 ∧ bits (copy16.q 0) 55 7 = 0 ∧ bits (copy16.q 1) 55 7 = 0 ∧
     bits (copy16.q 2) 48 13 = 0 ∧ bit (copy16.q 2) 61 = false ∧ bit (copy16.q 2) 62 = false ∧ copy16.bytes = false ∧
     bits (copy16.q 1) 0 55 + 16 ≤ 2 ^ 20) ∧
    (let c := cmd 1 [0xFFFF1, 0, 16, 0]
     ¬(bits (c.q 0) 0 55 + 16 ≤ 2 ^ 20) ∧ bits (c.q 0) 0 55 + 15 ≤ 2 ^ 20) ∧
    bit (BitVec.ofNat 64 (2 ^ 61)) 61 = true ∧ bits (BitVec.ofNat 64 (2 ^ 55)) 55 7 ≠ 0 ∧
    (TokVal.have_ 0x0000001A00000000 false).good = false ∧ (TokVal.have_ 0 true).good = false := by decide +kernel

/-- The same copy at work: nothing read, and its first unit ready to be written; and a command that has ended. -/
theorem witness_CopyCommandsComplete :
    (let c := { copy16 with started := true, todo := unitsOf 0x203 16 }
     let s : State := { ctxs := [(0, { bound := true, sb := [{ dst := .s 7, what := .token 0 9 }] })], cores := [(0, { cq := [c] })] }
     (s.core 0).copyCmd 9 = some c ∧ c.core = 0 ∧ coreOf c.ctx = 0 ∧ s.still 0 = false ∧ c.started = true ∧ c.finished = false ∧ c.op = 1 ∧
     bits (c.q 0) 62 2 < 2 ∧ bits (c.q 1) 62 2 < 2 ∧ unitsOf 0x100 16 = [0x20, 0x21] ∧ look none c.src (4 * 0x20) = none ∧
     s.locked 0 (0x20 / 8 % 16) = false ∧ c.todo = [0x40, 0x41, 0x42] ∧
     (s.ctx 0).sb = [] ++ { dst := .s 7, what := .token 0 9 } :: [] ∧ c.d ≠ 0) ∧
    (let c := { copy16 with started := true, todo := [0x42], src := [(4 * 0x20, some (1, false)), (4 * 0x21, some (2, true))] }
     (∀ v ∈ unitsOf 0x100 16, look none c.src (4 * v) ≠ none) ∧ 0x42 ∈ c.todo ∧ c.todo.erase 0x42 = []) ∧
    ({ copy16 with started := true, finished := true } : Cmd).finished = true := by decide +kernel

/-- A unit of a source that has been read. -/
def read1 (k u : Nat) (w : Word) : Nat × Option (Word × Bool) := (srcKey 0 k u, some (w, false))

/-- The moves of a converting, an expanding and a compressing copy, of CPYR to an object of this module, of GATH, SCAE and CRED. -/
theorem witness_EngineWrites :
    (let c := { cmd 2 [0x100, 0x200, 8 + 2 * 2 ^ 48, 0] with fmt := 3, started := true, todo := [0x40] }
     let d := { c with src := [read1 0 0x20 5] }
     let s : State := { cores := [(0, { cq := [c] })] }
     (s.core 0).copyCmd 9 = some c ∧ s.still 0 = false ∧ unitsOf (c.addr (c.q 0)) c.srcLen = [0x20] ∧ c.got 0 0x20 = none ∧
     s.lockHolds 0 9 0x20 = false ∧ c.dstLen = 4 ∧ d.canWrite 0x40 = true ∧ 8 % 4 = 0 ∧ 2 ∈ fmtF ∧ 0x16 ∉ fmtF) ∧
    (let c := { cmd 2 [0x100, 0x200, 8, 64] with sub := 3, started := true, src := [read1 0 0x20 5] }
     c.phase = 0 ∧ c.hasRange 0 (c.addr (c.q 0)) 8 = true ∧ c.dstUnits ≠ [] ∧ (compressBlock (c.bytesAt 0 0x100 8).1).length ≤ c.dstLen ∧
     ({ c with quad := [0x100, 0x200, 8, 1] } : Cmd).dstLen < (compressBlock (c.bytesAt 0 0x100 8).1).length) ∧
    (let c := { cmd 2 [0x100, 0x200, 8, 32] with sub := 2, started := true, src := (List.range 4).map fun j => read1 0 (0x20 + j) 0 }
     32 ≤ c.srcLen ∧ c.hasRange 0 (c.addr (c.q 0)) c.srcLen = true ∧ c.dstUnits ≠ [] ∧
     decodeBlock c.srcLen (c.bytesAt 0 0x100 32).1 (c.bytesAt 0 0x100 32).2 = none) ∧
    (let c := { cmd 3 [0x100, 2 ^ 62 * 3, 8, 0] with
       started := true, remote := 2, todo := [0], src := [read1 0 0x20 5], extents := [(16, mkExtent 0x20000 64 true 0 false true)]
       pages := [(16, [page2])], block := leBytes 16 (2 ^ 96 + 1) ++ leBytes 8 0 ++ [3, 0, 1] ++ leBytes 37 0 }
     let s : State := { task {} with cores := [(0, { cq := [c] })] }
     nameSerial c.rName = s.part.serial ∧ s.mergesNone = true ∧ extBase (look 0 c.extents 16) % 8 = 0 ∧ c.canWrite 0 = true ∧
     pageOf (look [] c.pages 16) (0x20000 / 65536) = some page2 ∧ c.rOff = 0 ∧ c.len = 8 ∧ (fld c.block 26 1).testBit 0 = true ∧
     c.copyEnd.status ≠ 0x10 ∧ s.part.hasCluster c.rClus = true ∧ c.rSem = 3) ∧
    (let c := { cmd 4 [0x100, 0x200, 1, 0x300] with fmt := 2, started := true, phase := 1, todo := [0x40], src := [read1 3 0x60 2, read1 0 0x21 7] }
     let s : State := { cores := [(0, { cq := [c] })] }
     leNat (c.bytesAt 3 0x300 4).1 = 2 ∧ (c.bytesAt 3 0x300 4).2.contains true = false ∧ c.hasRange 0 (0x100 + 2 * 4) 4 = true ∧
     s.lockHolds 0 9 0x40 = false) ∧
    (let c := { cmd 5 [0x100, 2 ^ 62 + 0x200, 1, 0x300] with fmt := 2, started := true, phase := 1, todo := [0], src := [read1 3 0x60 2, read1 0 0x20 7] }
     c.todo = 0 :: [] ∧ bits (c.q 1) 62 2 = 1) ∧
    (let c := { cmd 5 [0x100, 2 ^ 63, 1, 0x300] with
       fmt := 2, started := true, src := [read1 3 0x60 2, read1 0 0x20 7], extents := [(0, mkExtent 0x20000 64 true 0 false false)]
       pages := [(0, [page2])] }
     let s : State := { task {} with cores := [(0, { cq := [c] })] }
     bits (c.q 1) 62 2 = 2 ∧ c.phase = 0 ∧ c.chunkRead = true ∧ s.chunkCheck c = 0 ∧ c.chunk = [0] ∧
     pageOf (look [] c.pages (bits (c.q 1) 58 4)) ((c.addr (c.q 1) + 2 * 4) / 65536) ≠ none) ∧
    (let c := { cmd 6 [0x100, 0x200, 1, 0] with fmt := 2, started := true, todo := [0], src := [read1 0 0x20 7, read1 1 0x40 5] }
     let s : State := { cores := [(0, { cq := [c] })] }
     c.hasRange 0 (c.addr (c.q 0)) 4 = true ∧ c.hasRange 1 (c.addr (c.q 1)) 4 = true ∧ (∀ u ∈ unitsOf 0x200 4, s.lockHolds 0 9 u = false) ∧
     bits (c.q 1) 62 2 = 0 ∧ c.todo.head? = some 0) := by decide +kernel

/-- WBLD of 64 bytes from scratchpad address 0x100 to 0 of the weight buffer; WBCLR, ACCZ of bank 7 and MQSTAT. -/
theorem witness_MatrixCommandsRun :
    (let c := cmd 4 [0x100, 0, 64, 0]
     let s : State := { cores := [(0, { mq := [c], mqstat := [{ cmd 8 [] with id := 10 }] })] }
     ((s.core 0).mq ++ (s.core 0).mqstat).find? (fun e => e.id == 9) = some c ∧ s.still 0 = false ∧ c.started = false ∧
     (∀ t ∈ c.toks, t.good = true) ∧ (∀ e ∈ (s.core 0).mq, ¬(e.id < c.id ∧ c.conflicts e = true)) ∧ c.op = 4 ∧ bit (c.w 3) 4 = false ∧
     c.w 3 = 0 ∧ (c.w 1).toNat % 64 = 0 ∧ (c.w 2).toNat % 64 = 0 ∧ (c.w 0).toNat + (c.w 2).toNat ≤ 2 ^ 20 ∧ c.src = [] ∧
     (cmd 4 [0x100, 0, 0, 0] : Cmd).w 2 = 0 ∧ (s.core 0).mq.length ≤ 8 ∧ (s.core 0).lq.length ≤ 4) ∧
    (let s : State := { cores := [(0, { mq := [{ cmd 4 [0x100, 0, 64, 0] with id := 1 }, cmd 5 []] })] }
     ∃ e ∈ (s.core 0).mq, e.id < 9 ∧ (cmd 5 []).conflicts e = true) ∧
    bits ((cmd 6 [0x80]).w 0) 8 56 = 0 ∧ bits ((cmd 6 [0x100]).w 0) 8 56 ≠ 0 ∧
    (let s : State := { ctxs := [(0, { bound := true, arch := { info := { uid := 4 } } })], cores := [(0, { accBy := [(7, 4)] })] }
     (s.ctx 0).arch.accs = [] ∧ look 0 (s.core 0).accBy 7 = (s.ctx 0).arch.info.uid) ∧
    (let c := { cmd 4 [0x100, 0, 64, 0] with started := true }
     let s : State := { ctxs := [(0, { sb := [{ dst := .s 7, what := .token 0 9 }] })], cores := [(0, { mq := [c] })] }
     c.finished = false ∧ c.started = true ∧ c.core = 0 ∧ coreOf c.ctx = 0 ∧
     (s.ctx 0).sb = [] ++ { dst := .s 7, what := .token 0 9 } :: [] ∧ ∀ b ∈ List.range 16, s.locked 0 b = false) := by decide +kernel

/-- An FP32 tile of one row, one column and one step; ACC.EXPORT and ACC.SCALE of one element. -/
def mmaOne : Cmd := { cmd 3 [] with
  routine := 1, mp := [64 * 2 ^ 20 + 2 * 2 ^ 40 + 2 * 2 ^ 48, 2 ^ 16, 64 * 2 ^ 18, 0, 0, 0, 0, 0], banks := [0] }

theorem witness_MatrixRoutinesRun :
    (let s : State := { libver := 0x100, cores := [(0, { mq := [mmaOne] })] }
     (s.core 0).mq.find? (fun e => e.id == 9) = some mmaOne ∧ mmaOne.mmaBad = false ∧ s.still 0 = false ∧ mmaOne.finished = false ∧
     mmaOne.started = false ∧ (∀ t ∈ mmaOne.toks, t.good = true) ∧ s.libver / 256 = 1 ∧ mmaOne.running = false ∧
     s.nextRoutine 0 = some mmaOne ∧ ({ mmaOne with mp := [] } : Cmd).mmaBad = true) ∧
    (let c := { mmaOne with started := true, running := true }
     let s : State := { libver := 0x100, cores := [(0, { mq := [c] })] }
     s.nextRoutine 0 = none ∧ c.progress * kStep c.tile.af < c.tile.k ∧ c.src = [] ∧ c.psn = false ∧
     (s.core 0).mq.find? (fun e => e.id == 9) = some c ∧ ∀ b ∈ List.range 16, s.locked 0 b = false) ∧
    (let c := { mmaOne with started := true, running := true, routine := 6, mp := [2 * 2 ^ 40, 0, 0, 0, 0, 0, 0, 0] }
     c.exportBad = false ∧ c.phase = 0 ∧ 8 * c.progress < c.tm) ∧
    (let c := { mmaOne with started := true, running := true, routine := 7, mp := [0x3F800000, 0, 0, 0, 0, 0, 0, 0] }
     c.scaleBad = false ∧ 8 * c.progress < c.tm) ∧
    (let s : State := { libver := 0x100, cores := [(0, { mq := [{ mmaOne with started := true }] })] }
     s.nextRoutine 0 = some { mmaOne with started := true }) ∧
    maskValid 0x3333 = false ∧ maskValid 0xCC33 = true ∧
    (∃ p ∈ [(Fp.inf false, Fp.fin false 1 0 false), (Fp.inf true, Fp.fin false 1 0 false)], fpMul p.1 p.2 = .inf false) ∧
    (∃ p ∈ [(Fp.inf false, Fp.fin false 1 0 false), (Fp.inf true, Fp.fin false 1 0 false)], fpMul p.1 p.2 = .inf true) := by decide +kernel

/-- CONTRACT before its start, at a pass and at its last write; GEVAL in the same places; and a stream at its first element. -/
def walk1 : Cmd := { cmd 3 [] with
  routine := 5, mp := [0x100, 1, 0, 0, 0, 0, 0, 0], banks := [0], started := true, running := true
  block := List.replicate 238 0 ++ [2] ++ List.replicate 17 0, info := { asid := 1 }
  extents := [(16, 0x20000), (18, 0x20000)], pages := [(16, [page2]), (18, [page2])] }

/-- The sum of 100 elements of an FP32 vector X, of one letter, into Z of rank 0: two passes. -/
def sum100 : Cmd := { walk1 with
  block := [1, 2] ++ leBytes 62 (3 * 2 ^ 48) ++ leBytes 64 (100 + 100 * 2 ^ 320 + 2 * 2 ^ 368 + 1 * 2 ^ 376) ++ leBytes 64 0 ++
    leBytes 64 (1 * 2 ^ 320 + 2 * 2 ^ 368) }

theorem witness_ContractLodeAndStreams_contract :
    (let c := { walk1 with started := false, running := false }
     let s : State := { libver := 0x100, cores := [(0, { mq := [c] })] }
     (s.core 0).mq.find? (fun e => e.id == 9) = some c ∧ s.still 0 = false ∧ s.nextRoutine 0 = some c ∧ c.ready = true ∧ c.good = true ∧
     c.lacks = false ∧ c.running = false ∧ (∀ b ∈ List.range 16, s.locked 0 b = false) ∧ bits (c.m 0) 0 20 % 64 = 0 ∧ bits (c.m 1) 0 8 ≠ 0) ∧
    bits (0x101 : Word) 0 20 % 64 ≠ 0 ∧
    (let s : State := { task {} with libver := 0x100, cores := [(0, { mq := [walk1] })] }
     s.nextRoutine 0 = none ∧ walk1.phase = 0 ∧ walk1.lag = [] ∧ walk1.finished = false) ∧
    (let c := sum100
     let fs := c.walkFactors
     let ts := c.blockTuples 0
     orbitCount fs = 100 ∧ ts.length = 1 ∧ passPoints 100 0 ts.length = 65 ∧ c.point = 0 ∧ c.src = [] ∧ 0 + 1 < 2 ∧
     srcKey 0 0 0x4000 ∈ c.pointKeys fs ts 0 1 ∧ unitOn (c.opPages 0) 0x4000 ≠ none ∧
     (let d := { c with progress := 1, sums := [(0, false)] }
      d.progress % 2 = 1 ∧ d.sums.length = (d.blockTuples (d.progress / 2)).length ∧ ¬1 + 1 < 2 ∧ srcKey 0 0 0x4020 ∈ d.pointKeys fs ts 1 1)) ∧
    (let f : Formed := { k := some 0, idx := [], canon := true, val := 5, psn := false }
     let c := { walk1 with phase := 1, formed := [f] }
     let s : State := { task {} with libver := 0x100, cores := [(0, { mq := [c] })] }
     s.nextRoutine 0 = none ∧ f.canon = true ∧ f.psn = false ∧ f.k ≠ none ∧ c.todo = [] ∧
     c.blockTuples (c.progress / max 1 ((orbitCount c.walkFactors + 63) / 64)) = [] ∧ fmtBytes (c.desc 2).fmt = 4 ∧
     (c.opBase 2 + 0 * 4) % 4 = 0 ∧ unitOn (c.opPages 2) (c.opBase 2 / 8) ≠ none) := by decide +kernel

def geval1 : Cmd := { cmd 7 [0, 0, 0, 1] with block := [0, 0, 0, 0, 0, 0, 0, 1], mp := [0] }

theorem witness_ContractLodeAndStreams_lode :
    (let s : State := { cores := [(0, { lq := [geval1] })] }
     (s.core 0).lodeCmd 9 = some geval1 ∧ s.still 0 = false ∧ geval1.ready = true ∧ geval1.good = true ∧
     (s.core 0).lq.head?.map Cmd.id = some 9 ∧ geval1.gevalBad = false ∧ bit (geval1.w 0) 63 = false ∧ geval1.src = [] ∧
     bits (geval1.w 0) 0 55 + 64 ≤ 2 ^ 20 ∧ (cmd 7 [0, 0, 0, 0]).gevalBad = true ∧ ∀ b ∈ List.range 16, s.locked 0 b = false) ∧
    (let c := { geval1 with started := true, phase := 4 }
     c.remote < c.mp.length * c.gBatch ∧ bit (c.w 1) 63 = false ∧ c.vecAt 1 0 (symCol 0) % 4 = 0 ∧ c.finished = false) ∧
    (let f : Formed := { k := some 0, idx := [0], canon := true, val := 5, psn := false }
     let c := { geval1 with started := true, phase := 5, formed := [f] }
     c.formed = [f] ∧ bit (c.w 2) 63 = false ∧ c.formedAt f % 4 = 0) := by decide +kernel

theorem witness_ContractLodeAndStreams_stream :
    (let q : Stream := { state := 1, esz := 2, remain := 1 }
     let s := task { q := [(3, q)] }
     let x := s.ctx 0
     x.bound = true ∧ x.ending = none ∧ s.still 0 = false ∧ 3 ≤ 3 ∧ look {} x.arch.q 3 = q ∧ q.state = 1 ∧ q.fifo.length < 4 ∧
     s.checkExt 0 (x.arch.slotPages 0) (x.arch.extent 0) 0 4 4 false = 0 ∧ s.checkExt 0 (x.arch.slotPages 5) (x.arch.extent 5) 0 4 4 false = 3 ∧
     0 < q.remain.toNat ∧ (placeIn (x.arch.slotPages 0) 0x20000).1 = 0x20000 ∧ s.mem.mark (0x20000 / 8) = false ∧ s.updates = []) ∧
    (let s := task {} { oneMap with marks := [(0x4000, true)] }
     s.mem.mark (0x20000 / 8) = true) := by decide +kernel

/-- An object of 64 bytes that module 7 may write from its address space 2; a packet sent to it; and links to it. -/
theorem witness_FabricEvents :
    (let e : NameEntry := { base := 0x20000, len := 64, asid := 1, rights := [(7, 2, 3)], pages := [page2] }
     let s : State := { hosted (task {}) with names := [(5, e)], out := [{ kind := 0x10, dest := 7, body := [] }] }
     let u (sub : Nat) : Update := { id := 0, pa := 0x20038, va := 0x20038, op := elemRmw sub 2, fmt := 2, sender := some 7 }
     (s.names.find? fun p => p.1 == 5).map Prod.snd = some e ∧ s.reaches 7 = true ∧ (task {}).reaches 7 = false ∧
     (e.rights.find? fun r => r.1 == 7 && r.2.1 == 2).map (fun r => r.2.2) = some 3 ∧ 56 + 8 ≤ e.len ∧ ¬57 + 8 ≤ e.len ∧ s.imagePages = [] ∧
     (∀ j ∈ List.range 8, unitOn e.pages ((e.base + 56 + j) / 8) ≠ none) ∧ (e.base + 56) % 8 + fmtBytes 2 ≤ 8 ∧ fmtBytes 2 = 4 ∧
     s.updates = [] ∧ s.heldOut (u 0) = false ∧
     ({ s with openSeqs := [{ seq := 1, node := 0, phase := 0, line := 0x800, det := true }] } : State).heldOut (u 0) = true ∧
     (s.out.filter fun m => m.dest == 7 && decide (0x10 ≤ m.kind) && decide (m.kind < 0x30))[0]? = some { kind := 0x10, dest := 7, body := [] } ∧
     s.linked = true ∧ 7 ≠ s.part.serial ∧ s.openSeqs = [] ∧ (∀ u ∈ s.updates, u.before = [] ∧ u.id < s.nextId) ∧
     8 < (e.base + 6) % 8 + fmtBytes 2 ∧ (unitOn e.pages ((e.base + 6) / 8)).map (fun u => u.pu) = some 0x4000 ∧
     (unitOn e.pages ((e.base + 6) / 8 + 1)).map (fun u => u.pu) = some 0x4001 ∧ s.part.backed (page2.frame * 65536) = true ∧ page2.w = true ∧
     pagesOf (e.base + 56) 8 = [2]) ∧
    (let s : State := { links := [(0, { up := true, peer := 7, coded := true })], cores := [(0, { cq := [{ cmd 3 [] with remote := 1 }] })] }
     s.carries 0 = true ∧ (look {} s.links 0).coded = true ∧ s.carries 1 = false ∧ s.carries 16 = false ∧
     s.part.present (15 / 4) kFp (15 % 4) = true ∧ (s.core 0).cq.length = 1) := by decide +kernel

/-- A dead name that cluster 3 still holds; a live one with a right for module 7; a page of the deep tier that may move; a FLUSH. -/
def deepPage : State := { task {} { cells :=
    [(0x10000, 1), (0x10002, 2), (0x20000, 1), (0x20002, 3), (0x30028, 0x23), (0x3002D, 4)] } with ctxs := [] }

theorem witness_NamesPagesAndFlushes :
    (let e : NameEntry := { base := 0, len := 64, live := false, shooting := [3], killer := some 7 }
     let s : State := { names := [(BitVec.ofNat 128 (2 ^ 96 + 1), e)], nameCtr := 2 }
     nameSerial (BitVec.ofNat 128 (2 ^ 96 + 1)) = s.part.serial ∧ s.nameEntry (BitVec.ofNat 128 (2 ^ 96 + 1)) = some e ∧ e.live = false ∧
     3 ∈ e.shooting ∧ (hosted s).meets 7 = true ∧ s.meets 7 = false ∧ (s.names.map Prod.fst).Nodup ∧ s.nameEntry (BitVec.ofNat 128 (2 ^ 96 + 2)) = none ∧
     nameSerial (BitVec.ofNat 128 (2 ^ 97)) ≠ s.part.serial) ∧
    (let e : NameEntry := { base := 0, len := 64, rights := [(7, 2, 3)] }
     let s : State := { names := [(BitVec.ofNat 128 (2 ^ 96 + 1), e)], nameCtr := 2 }
     nameSeq (BitVec.ofNat 128 (2 ^ 96 + 1)) ≠ 0 ∧ nameSeq (BitVec.ofNat 128 (2 ^ 96 + 1)) < s.nameCtr ∧ s.part.hasCluster 31 = true ∧
     s.part.hasCluster 32 = false ∧ ((e.rights.find? fun r => r.1 == 7 && r.2.1 == 2).map fun r => r.2.2).getD 0 = 3) ∧
    (deepPage.mayMove 0x4000000 5 = true ∧ deepPage.mayMove 5 0x4000000 = false ∧ deepPage.mem.wf = true ∧
      (∀ r ∈ deepPage.roots, (r.2 - 1) % 65536 = 0) ∧ deepPage.plain ∧ deepPage.uncached) ∧
    (let s : State := { ctxs := [(0, { flushes := [{ id := 1, inval := true, parts := [(4, 2)] }] })] }
     (s.ctx 0).flushes = [{ id := 1, inval := true, parts := [(4, 2)] }] ∧ s.fusedAt (coreOf 0) = false) := by
  refine ⟨by decide +kernel, by decide +kernel, ⟨by decide +kernel, by decide +kernel, by decide +kernel, by decide +kernel, plain_of _ rfl, uncached_of _ rfl⟩,
    by decide +kernel⟩

/-! ### The whole machine -/

theorem witness_StepKeepsCanonicalMemory : Canonical State.reset :=
  ⟨rfl, fun _ => ⟨rfl, rfl⟩, fun _ => rfl⟩

theorem witness_DecodeAndEncodeAgree :
    unitOf (.add f3) = some .s ∧ (Instr.add f3).WellFormed ∧ decodeUnit .s 0x010C108000000000 = some (.add f3) ∧ unitOfSlot 0 = some .s := by
  decide

/-- The bundle that holds ADD in slot 0, and a step on it from reset: its result of latency 1 is in flight, and slot 1 is next. -/
theorem witness_StepRunsDecoded :
    (let s := State.reset.withFetchWord 64 0x010C108000000000
     s.cur.open_ = true ∧ decodeSlot s.cur.slot (nth 0 s.cur.words s.cur.slot) = some (.add f3) ∧ s.cur.slot < 6 ∧
     decodeTableWord 64 0x010C108000000000 = some (.add f3)) ∧
    decodeSlot 0 0x7000000000000000 = none ∧
    (let s : State := { script := [.clockThrottle] }
     s.cur.open_ = false ∧ s.script = .clockThrottle :: [] ∧ unitOf .clockThrottle = none ∧ ({ s with script := [] } : State).open_ .clockThrottle = true) ∧
    unitOf (.add f3) ≠ none := by decide

theorem test_step_add : (match step (State.reset.withFetchWord 64 0x010C108000000000) with
    | .next t => (t.cur.slot, t.arch.flight.map fun f => (f.due, f.dst))
    | _ => (0, [])) = (1, [(1, FlightDst.s 3 { val := 0 })]) := by decide

end Sys2Proof.Tests
end

section
/-! PROOFS. Every operation and every event answers a next state. -/

namespace Sys2Proof.Machine

/-! ### Outcomes -/

/-- The outcome is a next state: no fault and no refusal. -/
def GivesNext (o : Out) : Prop := ∃ t, o = .next t

theorem givesNext_next (t : State) : GivesNext (.next t) := ⟨t, rfl⟩

theorem givesNext_finish (s : State) (r : SlotResult) : GivesNext (finish s r) := finish_answers s r

theorem givesNext_ite {c : Prop} {_ : Decidable c} {a b : Out} (ha : GivesNext a) (hb : GivesNext b) :
    GivesNext (if c then a else b) := by
  split
  · exact ha
  · exact hb

/-- A guard that answers a next state itself leaves the rest to answer. -/
theorem givesNext_guard {c : Prop} {_ : Decidable c} {t : State} {b : Out} (hb : GivesNext b) :
    GivesNext (if c then .next t else b) := givesNext_ite (givesNext_next t) hb

/-! ### Operations that branch before they answer -/

theorem givesNext_vshift (op : Nat → Nat → Nat → Nat) (f : VV) (s : State) : GivesNext (vshift op f s) :=
  givesNext_ite (givesNext_finish _ _) (givesNext_finish _ _)

theorem givesNext_vsq (f : VV) (s : State) : GivesNext (execVsq f s) := by
  refine givesNext_ite (givesNext_finish _ _) ?_
  cases (look {} s.arch.q (f.opx.toNat % 4)).fifo with
  | nil => exact givesNext_next _
  | cons e rest => exact givesNext_finish _ _

theorem givesNext_flushInvalCompletion (ctx : Nat) (s : State) : GivesNext (execFlushInvalCompletion ctx s) := by
  unfold execFlushInvalCompletion
  cases (s.ctx ctx).flushes <;> exact givesNext_next _

theorem givesNext_deferredUpdateApply (id : Nat) (s : State) : GivesNext (execDeferredUpdateApply id s) := by
  unfold execDeferredUpdateApply
  cases s.findUpdate id with
  | none => exact givesNext_next _
  | some u => exact givesNext_guard (givesNext_next _)

theorem givesNext_orderedUpdateArrival (id : Nat) (s : State) : GivesNext (execOrderedUpdateArrival id s) := by
  unfold execOrderedUpdateArrival
  cases s.findUpdate id with
  | none => exact givesNext_next _
  | some u => exact givesNext_guard (givesNext_next _)

theorem givesNext_orderedUpdateResend (id : Nat) (s : State) : GivesNext (execOrderedUpdateResend id s) := by
  unfold execOrderedUpdateResend
  cases s.findUpdate id <;> exact givesNext_next _

theorem givesNext_scoreboardResultLand (ctx entry answer pages : Nat) (s : State) :
    GivesNext (execScoreboardResultLand ctx entry answer pages s) := by
  unfold execScoreboardResultLand
  dsimp only
  cases (s.ctx ctx).sb[entry]? with
  | none => exact givesNext_next _
  | some e =>
    refine givesNext_guard ?_
    obtain ⟨dst, what⟩ := e
    cases what with
    | nstat n =>
      refine givesNext_ite ?_ (givesNext_next _)
      cases s.foreignAnswer n answer <;> exact givesNext_next _
    | nkill n removed =>
      refine givesNext_ite ?_ (givesNext_guard (givesNext_guard (givesNext_next _)))
      cases s.foreignAnswer n answer <;> exact givesNext_next _
    | enq queue record status upto =>
      exact givesNext_guard (givesNext_guard (givesNext_guard (givesNext_next _)))
    | _ => exact givesNext_next _

theorem givesNext_segmentExpansion (ctx half : Nat) (s : State) : GivesNext (execSegmentExpansion ctx half s) := by
  unfold execSegmentExpansion
  dsimp only
  split
  · rename_i seg _ _
    cases s.expandSeg (s.ctx ctx).arch.info seg <;> exact givesNext_next _
  · exact givesNext_next _

theorem givesNext_taskRetire (ctx : Nat) (s : State) : GivesNext (execTaskRetire ctx s) := by
  unfold execTaskRetire
  dsimp only
  cases (s.ctx ctx).ending with
  | none => exact givesNext_next _
  | some e => exact givesNext_guard (givesNext_guard (givesNext_next _))

theorem givesNext_uncorrectableError (kind unit addr : Nat) (s : State) : GivesNext (execUncorrectableError kind unit addr s) := by
  unfold execUncorrectableError
  dsimp only
  split <;> exact givesNext_next _

theorem givesNext_yieldTurnEnd (ctx : Nat) (s : State) : GivesNext (execYieldTurnEnd ctx s) := by
  unfold execYieldTurnEnd
  dsimp only
  cases (s.ctx ctx).yielding <;> exact givesNext_next _

theorem givesNext_matrixCommandStart (core id : Nat) (lag : List (Nat × Nat)) (s : State) :
    GivesNext (execMatrixCommandStart core id lag s) := by
  unfold execMatrixCommandStart
  cases (s.core core).matrixCmd id with
  | none => exact givesNext_next _
  | some c =>
    refine givesNext_guard (givesNext_guard (givesNext_guard (givesNext_guard ?_)))
    split
    · exact givesNext_next _
    · exact givesNext_next _
    · exact givesNext_guard (givesNext_next _)

theorem givesNext_matrixCommandCompletion (core id : Nat) (reads : List Nat) (go : Bool) (s : State) :
    GivesNext (execMatrixCommandCompletion core id reads go s) := by
  unfold execMatrixCommandCompletion
  dsimp only
  cases ((s.core core).mq ++ (s.core core).mqstat ++ (s.core core).lq).find? fun x => x.id == id with
  | none => exact givesNext_next _
  | some c =>
    exact givesNext_guard (givesNext_guard (givesNext_guard
      (givesNext_guard (givesNext_next _))))

theorem givesNext_engineCommandStart (core id : Nat) (lag : List (Nat × Nat)) (s : State) :
    GivesNext (execEngineCommandStart core id lag s) := by
  unfold execEngineCommandStart
  cases (s.core core).copyCmd id with
  | none => exact givesNext_next _
  | some c =>
    exact givesNext_guard (givesNext_guard (givesNext_guard (givesNext_next _)))

theorem givesNext_copyCommandCompletion (core id answer : Nat) (ops : List (Bool × Nat)) (s : State) :
    GivesNext (execCopyCommandCompletion core id answer ops s) := by
  unfold execCopyCommandCompletion
  cases (s.core core).copyCmd id with
  | none => exact givesNext_next _
  | some c => exact givesNext_guard (givesNext_guard (givesNext_next _))

theorem givesNext_lodeEvaluation (core id : Nat) (lag : List (Nat × Nat)) (reads writes : List Nat) (go : Bool) (s : State) :
    GivesNext (execLodeEvaluation core id lag reads writes go s) := by
  unfold execLodeEvaluation
  cases (s.core core).lodeCmd id with
  | none => exact givesNext_next _
  | some c =>
    exact givesNext_guard (givesNext_ite
      (givesNext_guard (givesNext_guard (givesNext_guard (givesNext_next _))))
      (givesNext_next _))

theorem givesNext_nameShootdown (holder : Nat) (name : BitVec 128) (s : State) : GivesNext (execNameShootdown holder name s) := by
  refine givesNext_guard ?_
  cases s.nameEntry name with
  | none => exact givesNext_next _
  | some e => exact givesNext_guard (givesNext_next _)

theorem givesNext_remoteNameResolve (serial asid : Nat) (name : BitVec 128) (kind : Nat) (place : Nat × Nat × Nat) (s : State) :
    GivesNext (execRemoteNameResolve serial asid name kind place s) := by
  refine givesNext_guard ?_
  split
  · exact givesNext_next _
  · cases s.lookUp false serial asid name <;> exact givesNext_next _
  · exact givesNext_next _

theorem givesNext_remoteDelivery (serial asid : Nat) (name : BitVec 128) (off : Nat) (data : List Byte) (poison : List Bool)
    (signal : Option (Nat × Nat × Nat)) (s : State) : GivesNext (execRemoteDelivery serial asid name off data poison signal s) := by
  unfold execRemoteDelivery
  cases s.remoteTarget serial asid name off data.length <;> exact givesNext_next _

theorem givesNext_remoteCredUpdate (serial asid : Nat) (name : BitVec 128) (off : Nat) (value : Word) (poison : Bool) (fmt sub : Nat)
    (last : Bool × Option (Nat × Nat × Nat)) (s : State) :
    GivesNext (execRemoteCredUpdate serial asid name off value poison fmt sub last s) := by
  unfold execRemoteCredUpdate
  cases s.remoteTarget serial asid name off (fmtBytes fmt) <;> exact givesNext_next _

theorem givesNext_packetRetransmit (peer n : Nat) (s : State) : GivesNext (execPacketRetransmit peer n s) := by
  unfold execPacketRetransmit
  cases (s.out.filter (·.fabric peer))[n]? <;> exact givesNext_next _

theorem givesNext_launchStart (seq : Nat) (s : State) : GivesNext (execLaunchStart seq s) := by
  refine givesNext_guard (givesNext_guard ?_)
  dsimp only
  cases ((s.readLog (s.theLaunch seq)).1.placeData (s.theLaunch seq)).2 <;> exact givesNext_next _

/-! ### Every instruction -/

/-- Every instruction answers a next state: at once, as the result of a slot, or past guards and branches that each do. -/
theorem givesNext_exec (i : Instr) (s : State) : GivesNext (exec i s) :=
  match i with
  -- answered at once
  | .bundleIssue _ _ | .waitSatisfied _ | .fixedResultLand _ | .freezeEnd _ | .engineStarvation _ _
  | .forcedYield _ | .nop | .add _ | .sub _ | .mul _ | .mulhs _ | .mulhn _ | .and _ | .or _ | .xor _ | .andn _
  | .shl _ | .shr _ | .sar _ | .rotl _ | .mins _ | .maxs _ | .minn _ | .maxn _ | .mov _ | .addi _ | .muli _
  | .andi _ | .ori _ | .xori _ | .li _ | .lih _ | .shli _ | .shri _ | .sari _ | .rotli _ | .clz _ | .ctz _
  | .popc _ | .bswap _ | .bfx _ | .bfi _ | .sext _ | .zext _ | .seq _ | .sne _ | .slt _ | .sle _ | .sltn _
  | .slen _ | .sel _ | .jmp _ | .call _ | .chk _ | .pclr _ | .sget _ | .yield _ | .exit _ | .trap _ | .csrd _
  | .time _ | .rndx _ | .pend _ | .vpand _ | .vpor _ | .vpxor _ | .vpnot _ | .vpcnt _ | .vpfirst _ | .vtag _
  | .vgtag _ | .mpr _ | .mcall _ | .wbclr _ | .mqstat _ | .sqclr _ | .xrd _ | .mma _ _ _ _ | .mmaNm _ _ _ _
  | .mmaNmt _ _ _ _ | .mmaCoop _ _ _ _ | .contract _ _ _ _ | .accExport _ _ _ _ | .accScale _ _ _ _
  | .updateOnlyMerge _ _ _ | .pageMigration _ _ | .peerUnreachable _ | .exponentListReset _ | .launchComplete _
  | .caprd _ _ | .memwr _ _ | .memrd _ _ | .imgul _ _ | .libld _ _ _ | .qset _ _ | .launch _ _ | .watch _ _
  | .asset _ _ | .status _ | .pcap _ | .reset _ | .fwupd _ | .zeroise _ | .moduleReset _ _ _
  | .sensorSample _ _ _ _ _ _ | .clockThrottle | .endpointUnlistedOp _ _ | .headframeUnlistedOp _ => givesNext_next _
  -- the result of a slot
  | .divs _ | .divn _ | .rems _ | .remn _ | .beq _ | .bne _ | .blt _ | .bge _ | .bltn _ | .bgen _ | .bz _
  | .bnz _ | .loop _ | .jmpi _ | .calli _ | .ret _ | .sarm _ | .sset _ | .eret _ | .cswr _ | .enq _ | .vadd _
  | .vsub _ | .vmul _ | .vfma _ | .vfms _ | .vfnma _ | .vmin _ | .vmax _ | .vminp _ | .vmaxp _ | .vabs _
  | .vneg _ | .vdiv _ | .vsqrt _ | .vrcp _ | .vrsq _ | .vexp2 _ | .vlog2 _ | .viadd _ | .visub _ | .vimul _
  | .vimad _ | .vimin _ | .vimax _ | .vand _ | .vor _ | .vxor _ | .vrndx _ | .vcmp _ | .vsel _ | .vcvt _
  | .vqnt _ | .vdqnt _ | .vreda _ | .vredm _ | .vscan _ | .vperm _ | .vbcast _ | .vzip _ | .vunzip _
  | .vslide _ | .vidx _ | .vmov _ | .vins _ | .vext _ | .accrd _ | .accwr _ | .mpw _ | .wbld _ | .accz _
  | .geval _ | .lds _ | .ldsv _ | .sts _ | .stsv _ | .ldm _ | .ldmv _ | .stm _ | .stmv _ | .ldms _ | .ldmvs _
  | .ldt _ | .stt _ | .probe _ | .sqset _ | .fence _ | .flush _ | .inval _ | .nres _ | .nstat _ | .nkill _
  | .aadd _ | .afadd _ | .amins _ | .amaxs _ | .aminn _ | .amaxn _ | .afmin _ | .afmax _ | .afminp _
  | .afmaxp _ | .aand _ | .aor _ | .axor _ | .axchg _ | .acas _ | .ncas _ | .scat _ | .scadd _ | .cpy _
  | .cpyr _ | .cpytConvert _ | .cpytTranspose _ | .cpytExpand _ | .cpytCompress _ | .gath _ | .scae _ | .cred _
  | .xpose _ | .xcvt _ | .xexp _ => givesNext_finish _ _
  -- past guards that answer themselves
  | .pauseEnd _ | .lockWindowEnd _ | .loopBufferError _ _ | .correctableErrorFreeze _ | .streamFetch _ _ _ _
  | .swapPeriod _ | .swapout _ _ | .swapin _ _ _ _ _ | .bindAbort _ _ | .nodeReady _ _ | .mapupd _ _
  | .objnew _ _ _ | .linkTraining _ _ _ => givesNext_guard (givesNext_next _)
  | .bind _ _ _ _ _ _ | .imgld _ _ | .abort _ _ => givesNext_guard (givesNext_guard (givesNext_next _))
  | .unitRemoval _ _ => givesNext_guard (givesNext_guard (givesNext_guard (givesNext_next _)))
  -- past branches on what the state holds
  | .vshl _ | .vshr _ | .vsar _ => givesNext_vshift _ _ _
  | .scoreboardResultLand _ _ _ _ => givesNext_scoreboardResultLand _ _ _ _ _
  | .segmentExpansion _ _ => givesNext_segmentExpansion _ _ _
  | .taskRetire _ => givesNext_taskRetire _ _
  | .uncorrectableError _ _ _ => givesNext_uncorrectableError _ _ _ _
  | .yieldTurnEnd _ => givesNext_yieldTurnEnd _ _
  | .vsq _ => givesNext_vsq _ _
  | .engineCommandStart _ _ _ => givesNext_engineCommandStart _ _ _ _
  | .copyCommandCompletion _ _ _ _ => givesNext_copyCommandCompletion _ _ _ _ _
  | .matrixCommandStart _ _ _ => givesNext_matrixCommandStart _ _ _ _
  | .matrixCommandCompletion _ _ _ _ => givesNext_matrixCommandCompletion _ _ _ _ _
  | .lodeEvaluation _ _ _ _ _ _ => givesNext_lodeEvaluation _ _ _ _ _ _ _
  | .deferredUpdateApply _ => givesNext_deferredUpdateApply _ _
  | .orderedUpdateArrival _ => givesNext_orderedUpdateArrival _ _
  | .orderedUpdateResend _ => givesNext_orderedUpdateResend _ _
  | .nameShootdown _ _ => givesNext_nameShootdown _ _ _
  | .remoteNameResolve _ _ _ _ _ => givesNext_remoteNameResolve _ _ _ _ _ _
  | .remoteDelivery _ _ _ _ _ _ _ => givesNext_remoteDelivery _ _ _ _ _ _ _ _
  | .remoteCredUpdate _ _ _ _ _ _ _ _ _ => givesNext_remoteCredUpdate _ _ _ _ _ _ _ _ _ _
  | .packetRetransmit _ _ => givesNext_packetRetransmit _ _ _
  | .launchStart _ => givesNext_launchStart _ _
  | .flushInvalCompletion _ => givesNext_flushInvalCompletion _ _

theorem givesNext_andThen (f : State → State) {o : Out} (h : GivesNext o) : GivesNext (andThen f o) := by
  obtain ⟨t, rfl⟩ := h
  exact givesNext_next _

end Sys2Proof.Machine
end

section
/-! PROOFS. What one step does, and what comes after a slot. -/

namespace Sys2Proof.Machine

/-! ### What one step does -/

/-- With a bundle open, a step executes its next slot (R86). -/
theorem step_open {s : State} {i : Instr} (ho : s.cur.open_ = true) (hd : s.fetched = some i) :
    step s = andThen (fun t => (t.afterSlot.endLocks s).elapse) (exec i s) := by
  unfold step
  rw [if_pos ho, hd]

theorem step_illegal {s : State} (ho : s.cur.open_ = true) (hd : s.fetched = none) :
    step s = .fault (.illegalSlot s.cur.slot) := by
  unfold step
  rw [if_pos ho, hd]

/-- With no bundle open, a step takes the outside's next step where the module's standing admits it. -/
theorem step_event {s : State} {i : Instr} {rest : List Instr} (ho : s.cur.open_ = false) (hs : s.script = i :: rest) :
    step s = if ({ s with script := rest } : State).admits i
      then andThen (fun u => (u.endLocks { s with script := rest }).elapse) (exec i { s with script := rest })
      else .next ({ s with script := rest } : State).elapse := by
  have he : s.nextEvent = some (i, { s with script := rest }) := by
    unfold State.nextEvent
    rw [hs]
  unfold step
  rw [if_neg (by simp [ho]), he]

theorem step_goOn {s : State} (ho : s.cur.open_ = false) (hs : s.script = []) :
    step s = .next (s.goOn.endLocks s).elapse := by
  have he : s.nextEvent = none := by
    unfold State.nextEvent
    rw [hs]
  unfold step
  rw [if_neg (by simp [ho]), he]

theorem admits_iff (s : State) (i : Instr) : s.admits i = true ↔ unitOf i = none ∧ s.open_ i = true := by
  unfold State.admits
  rw [Bool.and_eq_true, Option.isNone_iff_eq_none]

/-! ### The bundle that holds one operation -/

theorem unitOfSlot_lt {k : Nat} {u : SlotUnit} (h : unitOfSlot k = some u) : k < 7 := by
  by_contra hk
  obtain ⟨n, rfl⟩ := Nat.exists_eq_add_of_le' (Nat.le_of_not_lt hk)
  cases h

theorem nth_bundleWords (w : Nat) {k : Nat} (h : k < 8) : nth 0 (bundleWords w) k = slotWord w k := by
  unfold nth bundleWords
  simp [h]

/-- The latched bundle that holds an operation is read as it. -/
theorem fetched_withFetchWord (s : State) (nbits w : Nat) {i : Instr} (h : decodeTableWord nbits w = some i) :
    (s.withFetchWord nbits w).fetched = some i := by
  unfold decodeTableWord at h
  cases hk : onlySlot w with
  | none => simp [hk] at h
  | some k =>
    simp only [hk] at h
    have hlt : k < 7 := by
      unfold decodeSlot at h
      cases hu : unitOfSlot k with
      | none => simp [hu] at h
      | some u => exact unitOfSlot_lt hu
    have hused : usedSlot w = k := by simp [usedSlot, hk, hlt]
    show decodeSlot (usedSlot w) (nth 0 (bundleWords w) (usedSlot w)) = some i
    rw [hused, nth_bundleWords w (by omega), h]

/-! ### The bank-lock windows that end -/

/-- Windows that end change the cores' engines and nothing else. -/
theorem endLocks_frame (s old : State) : s.endLocks old = { s with cores := (s.endLocks old).cores } := by
  unfold State.endLocks
  generalize old.ctxs = l
  induction l generalizing s with
  | nil => rfl
  | cons p r ih =>
    rw [List.foldl_cons, ih]
    split
    · split <;> rfl
    · rfl

/-- With every window still open, nothing ends. -/
theorem endLocks_same (s old : State)
    (h : ∀ p ∈ old.ctxs, ∀ w, p.2.window = some w → (s.ctx p.1).window.map Window.born = some w.born) : s.endLocks old = s := by
  unfold State.endLocks
  generalize old.ctxs = l at h
  induction l with
  | nil => rfl
  | cons p r ih =>
    rw [List.foldl_cons]
    cases hw : p.2.window with
    | none => exact ih fun q hq => h q (List.mem_cons_of_mem _ hq)
    | some w =>
      dsimp only
      rw [if_pos (h p (List.mem_cons_self ..) w hw)]
      exact ih fun q hq => h q (List.mem_cons_of_mem _ hq)

/-! ### The slot after the one that has ended -/

theorem loopLoses_frame (s : State) : s.loopLoses = { s with ctxs := s.loopLoses.ctxs } := by
  unfold State.loopLoses
  split
  · dsimp only
    split <;> rfl
  · rfl

theorem loopLoses_other (s : State) {k : Nat} (h : k ≠ s.cur.ctx) : s.loopLoses.ctx k = s.ctx k := by
  unfold State.loopLoses
  split
  · dsimp only
    split
    · exact ctx_setArch_other _ _ h
    · rfl
  · rfl

/-- A LOOP keeps its result where no slot above it has made its register pending (R136). -/
theorem loopLoses_same (s : State)
    (h : ∀ f, decodeSlot 0 (nth 0 s.cur.words 0) = some (.loop f) → ∀ e ∈ s.me.sb.drop s.cur.since, e.covers f.a.toNat = false) :
    s.loopLoses = s := by
  unfold State.loopLoses
  split
  · rename_i f hf
    have hn : (s.me.sb.drop s.cur.since).any (fun e => e.covers f.a.toNat) = false := by simpa using h f hf
    dsimp only
    rw [hn]
    rfl
  · rfl

theorem prefetchMe_same (s : State) (h : s.cur.fresh = false ∨ s.cur.slot ≠ 0) : s.prefetchMe = s := by
  unfold State.prefetchMe
  rw [if_neg (by rcases h with h | h <;> simp [h])]

theorem afterSlot_closed (s : State) (h : s.cur.open_ = false) : s.afterSlot = s := by
  unfold State.afterSlot
  simp [h]

/-- The next slot of the open bundle, or a gap before it (R86). -/
theorem afterSlot_next (s : State) (ho : s.cur.open_ = true) (hs : s.cur.slot < 6) :
    s.afterSlot =
      if s.cur.slot + 1 ∈ s.cur.gaps then State.setAside { s.prefetchMe.loopLoses with cur := { s.cur with slot := s.cur.slot + 1 } }
      else { s.prefetchMe.loopLoses with cur := { s.cur with slot := s.cur.slot + 1 } } := by
  have hc : s.prefetchMe.loopLoses.cur = s.cur := by rw [loopLoses_cur, prefetchMe_cur]
  unfold State.afterSlot
  simp only [ho, hc]
  rw [if_neg (by simp), if_neg (by omega)]
  simp

end Sys2Proof.Machine
end

section
/-! PROOFS. The executing bundle stands while its signal is asked for, and it is closed after its last slot. -/

namespace Sys2Proof.Machine

/-! ### Accesses that have their points in T, and signals, leave the executing bundle -/

theorem glance_cur (s : State) (a : Nat × Nat) (old : Bool) (pu : Nat) : (s.glance a old pu).1.cur = s.cur := by
  unfold State.glance
  split <;> rfl

theorem fillOld_cur (s : State) (k c : Nat) (old : Bool) (pu : Nat) : (s.fillOld k c old pu).cur = s.cur := by
  unfold State.fillOld
  split <;> rfl

theorem fillLine_cur (s : State) (c line : Nat) : (s.fillLine c line).cur = s.cur := by
  refine foldl_keeps State.cur _ (fun t pu => ?_) _ _
  split <;> rfl

theorem readUnit_cur (s : State) (k : Nat) (old : Bool) (r : URef) : (s.readUnit k old r).1.cur = s.cur := by
  unfold State.readUnit
  split
  · dsimp only
    rw [fillLine_cur, fillOld_cur]
  · dsimp only
    rw [glance_cur]

theorem readUnits_cur (s : State) (k : Nat) (old : Bool) (us : List URef) : (s.readUnits k old us).1.cur = s.cur := by
  induction us generalizing s with
  | nil => rfl
  | cons r rest ih => exact (ih _).trans (readUnit_cur s k old r)

theorem writeUnit_cur (s : State) (k : Nat) (r : URef) (mask : Nat) (data : Word) (psn : Bool) :
    (s.writeUnit k r mask data psn).cur = s.cur := by
  have h := readUnit_cur s k false r
  unfold State.writeUnit
  dsimp only
  split
  · split <;> exact h
  · exact h

theorem writeUnits_cur (s : State) (k va : Nat) (bs : List Byte) (psn : Bool) (us : List URef) :
    (s.writeUnits k va bs psn us).cur = s.cur := by
  induction us generalizing s with
  | nil => rfl
  | cons r rest ih => exact (ih _).trans (writeUnit_cur s k r _ _ psn)

theorem bypass_cur (s : State) (k : Nat) (us : List URef) : (s.bypass k us).cur = s.cur :=
  foldl_keeps State.cur _ (fun t line => dropLine_cur t _ line) _ _

theorem scatterAll_cur (s : State) (k : Nat) (psn : Bool) (els : List (Nat × List URef × List Byte)) :
    (s.scatterAll k psn els).cur = s.cur :=
  foldl_keeps State.cur _ (fun t _ => (writeUnits_cur _ _ _ _ _ _).trans (bypass_cur t k _)) _ _

theorem ncasAt_cur (s : State) (pu : Nat) (cmpLo cmpHi newLo newHi : Word) (psn : Bool) :
    (s.ncasAt pu cmpLo cmpHi newLo newHi psn).1.cur = s.cur := by
  unfold State.ncasAt
  dsimp only
  split
  · rfl
  · split
    · rfl
    · split <;> rfl

theorem loadNow_cur (s : State) (k : Nat) (old : Bool) (us : List URef) (va n : Nat) (form : LoadForm) (spec : Bool) :
    (s.loadNow k old us va n form spec).1.cur = s.cur := by
  unfold State.loadNow State.countPoison
  dsimp only
  split <;> exact readUnits_cur s k old us

theorem perform_cur (s : State) (k : Nat) (l : Late) : (s.perform k l).cur = s.cur := by
  unfold State.perform
  split
  · exact loadNow_cur _ _ _ _ _ _ _ _
  · exact writeUnits_cur _ _ _ _ _ _
  · exact scatterAll_cur _ _ _ _
  · exact (ncasAt_cur _ _ _ _ _ _ _).trans (bypass_cur _ _ _)
  · split
    · exact applyFresh_cur _ _
    · rfl

theorem lateStep_cur (s : State) (k : Nat) : (s.lateStep k).1.cur = s.cur := by
  unfold State.lateStep
  split
  · rfl
  · rename_i l _ _
    have h := ready_cur s k l.id l.refs
    split
    · rfl
    · dsimp only
      split
      · exact h
      · split <;> exact (perform_cur _ _ _).trans h

theorem inOrder_cur (s : State) (k : Nat) : (s.inOrder k).cur = s.cur := by
  unfold State.inOrder
  generalize (s.ctx k).late.length = n
  induction n generalizing s with
  | zero => rfl
  | succ n ih =>
    unfold State.lateSteps
    dsimp only
    split
    · exact (ih _).trans (lateStep_cur s k)
    · exact lateStep_cur s k

theorem mergeOwn_cur (s : State) (k : Nat) : (s.mergeOwn k).cur = s.cur :=
  foldl_keeps State.cur _ (fun t _ => mergeLine_cur t _ _ _ _) _ _

theorem setSem_cur (s : State) (cl : Nat) (i : TaskInfo) (n : Nat) (x : Sem) : (s.setSem cl i n x).cur = s.cur := by
  unfold State.setSem
  split <;> rfl

theorem semChange_cur (s : State) (cl : Nat) (i : TaskInfo) (n : Nat) (f : Sem → Sem) : (s.semChange cl i n f).cur = s.cur := by
  have h : ((s.setSem cl i n (f (s.sem cl i n))).testWaits cl i n (s.ctxs.map Prod.fst)).cur = s.cur := by
    rw [(testWaits_spec _ _ _ _ _).1]
    exact setSem_cur s cl i n _
  unfold State.semChange
  dsimp only
  split <;> exact h

theorem doGets_cur (s : State) (k sem born : Nat) : (s.doGets k sem born).cur = s.cur := by
  rw [(doGets_spec s k sem born).2]

theorem releaseFrom_cur (s : State) (k : Nat) (l : List PendSig) : (s.releaseFrom k l).cur = s.cur := by
  induction l generalizing s with
  | nil => rfl
  | cons p r ih =>
    unfold State.releaseFrom
    dsimp only
    split
    · exact (ih _).trans ((semChange_cur _ _ _ _ _).trans (doGets_cur _ _ _ _))
    · rfl

/-- The Y signal leaves the executing bundle. -/
theorem askSignal_cur (s : State) (y : Word) : (s.askSignal y).cur = s.cur := by
  unfold State.askSignal
  split
  · exact (releaseFrom_cur _ _ _).trans ((mergeOwn_cur _ _).trans (inOrder_cur _ _))
  · rfl

/-! ### The last slot closes the bundle -/

/-- A halt opens no bundle. -/
theorem haltCtx_closed (s : State) (k code : Nat) (pc : Word) (h : s.cur.open_ = false) : (s.haltCtx k code pc).cur.open_ = false := by
  unfold State.haltCtx
  dsimp only
  split
  · rfl
  · exact h

theorem fatal_closed (s : State) (code : Nat) (h : s.cur.open_ = false) : (s.fatal code).cur.open_ = false :=
  haltCtx_closed _ _ _ _ (by rw [prefetchMe_cur]; exact h)

theorem advance_closed (s : State) (h : s.cur.open_ = false) : s.advance.cur.open_ = false := by
  have halt (code : Nat) (pc : Word) := haltCtx_closed s s.cur.ctx code pc h
  unfold State.advance
  dsimp only
  split
  · split
    · split
      · exact h
      · exact halt _ _
    · exact h
  · split
    · split
      · exact halt _ _
      · exact h
    · split
      · split
        · exact h
        · exact halt _ _
      · exact h

theorem leaveBundle_closed (s : State) (h : s.cur.open_ = false) : s.leaveBundle.cur.open_ = false := by
  unfold State.leaveBundle
  split
  · exact h
  · split
    · unfold State.eret
      dsimp only
      split
      · exact fatal_closed s _ h
      · exact h
    · exact advance_closed s h

theorem completeBundle_closed (s : State) : s.completeBundle.cur.open_ = false := by
  unfold State.completeBundle
  dsimp only
  split
  · exact fatal_closed _ _ rfl
  · rw [(settle_spec _ _).1]
    refine leaveBundle_closed _ ?_
    show (State.askSignal _ _).cur.open_ = false
    rw [askSignal_cur]

/-- After its last slot the bundle is closed, whatever comes next. -/
theorem afterSlot_last (s : State) (ho : s.cur.open_ = true) (hs : 6 ≤ s.cur.slot) : s.afterSlot.cur.open_ = false := by
  have hc : s.prefetchMe.loopLoses.cur = s.cur := by rw [loopLoses_cur, prefetchMe_cur]
  unfold State.afterSlot
  simp only [ho, hc]
  rw [if_neg (by simp), if_pos (by omega)]
  exact completeBundle_closed _

end Sys2Proof.Machine
end

section
/-! PROOFS. The removal of a cluster while the launch table is out of order. -/

namespace Sys2Proof.Machine

/-- Cluster 0 is due to be removed. It holds a group of two teams of launch 1, of which team 1 is not bound yet; and the launch table
holds under number 1 a launch whose own sequence number is 2. -/
def misnumberedLaunch : State := {
  errors := [(32 * kCl, { due := true })]
  clusters := [(0, { slots := [(0, { op := 1, state := 2, info := { seq := 1, node := 0, team := 0 }, ctxs := [0], left := [0] })] })]
  launches := [(1, { seq := 2, queue := 0, asid := 1, started := true, nnodes := 1
                     nodes := [(0, { gx := 2, stages := 2, boundTeams := [0] })] })] }

/-- Its removal leaves the record of team 1's task unwritten: the report goes to launch 2, which is not there. -/
theorem misnumberedLaunch_removal : ∃ t, exec (.unitRemoval kCl 0) misnumberedLaunch = .next t ∧
    (look noReport (t.launchNode 1 0).reports (64 * 1 + 0)).status = 0 := by
  refine ⟨_, rfl, ?_⟩
  decide

end Sys2Proof.Machine
end

section
/-! PROOFS. The statements of the scope (spec/00). -/

namespace Sys2Proof.Machine

/-- Settles O55: at reset every table is empty, and what is not listed in a table reads as its default. -/
theorem resetLeaves : Obligations.ResetLeaves := by
  refine ⟨⟨rfl, fun _ => ⟨rfl, rfl⟩, fun _ => rfl⟩, fun _ => rfl, fun _ => rfl, fun _ _ => ⟨rfl, rfl, rfl, rfl⟩, fun _ _ => rfl,
    fun _ _ => ⟨rfl, rfl⟩, fun _ _ => rfl, fun _ => rfl, fun q => ?_, rfl, rfl, rfl, rfl, rfl, rfl, rfl⟩
  show (0 : Word).getLsbD 8 = false
  rfl

/-- Settles O59: each clause is what `step` or `afterSlot` does in one case; that the last slot closes the bundle holds because nothing
that a completion does opens one. -/
theorem stepRunsDecoded : Obligations.StepRunsDecoded := by
  intro s
  refine ⟨fun ho => ⟨fun i hd => step_open ho hd, fun hd => step_illegal ho hd⟩, fun i rest ho hs => ⟨fun ht => ?_, fun ht => ?_⟩,
    fun ho hs => step_goOn ho hs, fun nbits w i hw => ⟨rfl, step_open rfl (fetched_withFetchWord s nbits w hw)⟩,
    fun ho hs => ⟨s.prefetchMe.loopLoses, ?_, fun k hk => ?_, fun hf hl => ?_, afterSlot_next s ho hs⟩,
    afterSlot_last s, afterSlot_closed s, fun old => ⟨endLocks_frame s old, endLocks_same s old⟩, rfl⟩
  · rw [step_event ho hs, if_pos ((admits_iff _ i).2 ht)]
  · rw [step_event ho hs, if_neg fun h => ?_]
    obtain ⟨hu, hopen⟩ := (admits_iff _ i).1 h
    rcases ht with ht | ht
    · exact ht hu
    · simp [ht] at hopen
  · rw [loopLoses_frame, prefetchMe_frame]
  · rw [loopLoses_other _ (by rw [prefetchMe_cur]; exact hk), prefetchMe_other s hk]
  · rw [prefetchMe_same s hf, loopLoses_same s hl]

/-- Settles O60: every instruction answers (`givesNext_exec`), and a step is one instruction, or the passing of time, but at a slot word
that is none. -/
theorem everyInstructionAnswers : Obligations.EveryInstructionAnswers := by
  refine ⟨givesNext_exec, fun s => ?_⟩
  cases ho : s.cur.open_ with
  | true =>
    cases hd : s.fetched with
    | some i =>
      rw [step_open ho hd]
      exact Or.inl (givesNext_andThen _ (givesNext_exec i s))
    | none => exact Or.inr ⟨rfl, hd, step_illegal ho hd⟩
  | false =>
    cases hs : s.script with
    | nil => exact Or.inl ⟨_, step_goOn ho hs⟩
    | cons i rest =>
      rw [step_event ho hs]
      exact Or.inl (givesNext_ite (givesNext_andThen _ (givesNext_exec i _)) (givesNext_next _))

/-- Refutes O36, in the clause on the teams of a removed cluster's groups that are not bound yet: their tasks are reported to the launch
whose sequence number the launch found at `q.1` gives as its own, and the statement lets the launch table hold it under another number.
An accepted submission stands under its own number (`State.submit`), which the statement does not ask of a state. -/
theorem not_sensorsClocksAndUnits : ¬ Obligations.SensorsClocksAndUnits := by
  intro h
  obtain ⟨-, -, hremoval⟩ := h
  obtain ⟨-, hhere⟩ := hremoval kCl 0 misnumberedLaunch
  obtain ⟨t, ht, -, -, hgroups, -⟩ := hhere (by decide)
  obtain ⟨-, hstatus⟩ := hgroups rfl (1, 0, 0) (by decide) (by decide) 1 (by decide) (by decide)
  have haborted := hstatus 0 (by decide)
  obtain ⟨u, hu, hzero⟩ := misnumberedLaunch_removal
  obtain rfl : t = u := Host.Outcome.next.inj (ht.symm.trans hu)
  rw [hzero] at haborted
  cases haborted

end Sys2Proof.Machine
end

section
/-! PROOFS. What a change of the state does to the form of its memories (R16, R171, R172, R281, R288). -/

namespace Sys2Proof.Machine

/-- Every memory of some cores, some clusters and the module is in its canonical form. -/
def CanonicalParts (cores : FMap Core) (clusters : FMap Cluster) (mem : Mem) : Prop :=
  mem.wf = true ∧ (∀ k, (look {} cores k).spm.wf = true ∧ (look {} cores k).wb.wf = true) ∧ ∀ k, (look {} clusters k).store.wf = true

@[simp] theorem canonicalParts_of (s : State) : CanonicalParts s.cores s.clusters s.mem ↔ Canonical s := Iff.rfl

@[simp] theorem canonical_mk {ctxs : FMap Ctx} {cores : FMap Core} {clusters : FMap Cluster} {mem : Mem} {updates hidden spoiled openSeqs
    launches queues nextSeq turns period images roots region libver names foreign nameCtr nameHigh errors part boss links peers out cur
    script steps draws time timebase nextId} : Canonical ⟨ctxs, cores, clusters, mem, updates, hidden, spoiled, openSeqs, launches, queues,
      nextSeq, turns, period, images, roots, region, libver, names, foreign, nameCtr, nameHigh, errors, part, boss, links, peers, out, cur,
      script, steps, draws, time, timebase, nextId⟩ ↔ CanonicalParts cores clusters mem := Iff.rfl

@[simp] theorem canonical_ite {c : Prop} {_ : Decidable c} (a b : State) :
    Canonical (if c then a else b) ↔ if c then Canonical a else Canonical b := by split <;> rfl

theorem canonical_if {c : Prop} {_ : Decidable c} {a b : State} (ha : Canonical a) (hb : Canonical b) : Canonical (if c then a else b) := by
  split
  · exact ha
  · exact hb

theorem canonical_ifFst {α : Type} {c : Prop} {_ : Decidable c} {a b : State × α} (ha : Canonical a.1) (hb : Canonical b.1) :
    Canonical (if c then a else b).1 := by
  split
  · exact ha
  · exact hb

theorem canonical_fst_of_eq {α : Type} {p : State × α} {t : State} {x : α} (h : Canonical p.1) (e : p = (t, x)) : Canonical t := by
  rw [e] at h
  exact h

@[simp] theorem canonical_setCtx (s : State) (k : Nat) (c : Ctx) : Canonical (s.setCtx k c) ↔ Canonical s := Iff.rfl
@[simp] theorem canonical_setMe (s : State) (c : Ctx) : Canonical (s.setMe c) ↔ Canonical s := Iff.rfl
@[simp] theorem canonical_setArch (s : State) (a : Arch) : Canonical (s.setArch a) ↔ Canonical s := Iff.rfl

theorem canonical_setCore {s : State} {k : Nat} {c : Core} (h : Canonical s) (hs : c.spm.wf = true) (hw : c.wb.wf = true) :
    Canonical (s.setCore k c) := by
  obtain ⟨hm, hc, hl⟩ := h
  refine ⟨hm, fun n => ?_, hl⟩
  rw [core_setCore]
  split
  · exact ⟨hs, hw⟩
  · exact hc n

/-- An update of a core that leaves its two memories. -/
@[simp] theorem canonical_setCore_same {s : State} {k : Nat} {c : Core} (hs : c.spm = (s.core k).spm) (hw : c.wb = (s.core k).wb) :
    Canonical (s.setCore k c) ↔ Canonical s := by
  refine and_congr_right fun _ => and_congr_left fun _ => forall_congr' fun n => ?_
  rw [core_setCore]
  split
  · next h => rw [hs, hw, h]
  · rfl

theorem canonical_updCore {s : State} {k : Nat} {c : Core} (h : Canonical s) (hs : c.spm = (s.core k).spm := by rfl)
    (hw : c.wb = (s.core k).wb := by rfl) : Canonical (s.setCore k c) := (canonical_setCore_same hs hw).2 h

theorem canonical_updCluster {s : State} {k : Nat} {c : Cluster} (h : Canonical s) (hs : c.store = (s.cluster k).store := by rfl) :
    Canonical (s.setCluster k c) := by
  obtain ⟨hm, hc, hl⟩ := h
  refine ⟨hm, hc, fun n => ?_⟩
  rw [cluster_setCluster]
  split
  · rw [hs]
    exact hl k
  · exact hl n

theorem canonical_setCluster {s : State} {k : Nat} {c : Cluster} (h : Canonical s) (hs : c.store.wf = true) :
    Canonical (s.setCluster k c) := by
  obtain ⟨hm, hc, hl⟩ := h
  refine ⟨hm, hc, fun n => ?_⟩
  rw [cluster_setCluster]
  split
  · exact hs
  · exact hl n

@[simp] theorem canonical_setCluster_same {s : State} {k : Nat} {c : Cluster} (hs : c.store = (s.cluster k).store) :
    Canonical (s.setCluster k c) ↔ Canonical s := by
  refine and_congr_right fun _ => and_congr_right fun _ => forall_congr' fun n => ?_
  rw [cluster_setCluster]
  split
  · next h => rw [hs, h]
  · rfl

@[simp] theorem canonical_foldl_same {β : Type} {g : State → β → State} (hg : ∀ t b, Canonical (g t b) ↔ Canonical t) (l : List β)
    (s : State) :
    Canonical (l.foldl g s) ↔ Canonical s := by
  induction l generalizing s with
  | nil => rfl
  | cons b r ih => exact (ih _).trans (hg s b)

theorem canonical_foldl {β : Type} {g : State → β → State} (hg : ∀ t b, Canonical t → Canonical (g t b)) (l : List β) {s : State}
    (h : Canonical s) : Canonical (l.foldl g s) := by
  induction l generalizing s with
  | nil => exact h
  | cons b r ih => exact ih (hg s b h)

@[simp] theorem canonical_setCtx_setCore (s : State) (j k : Nat) (x : Ctx) (c : Core) :
    Canonical ((s.setCtx j x).setCore k c) ↔ Canonical (s.setCore k c) := Iff.rfl

@[simp] theorem canonical_setCtx_setCluster (s : State) (j k : Nat) (x : Ctx) (c : Cluster) :
    Canonical ((s.setCtx j x).setCluster k c) ↔ Canonical (s.setCluster k c) := Iff.rfl

/-- What a table holds after a change of every entry that leaves `π` of each. -/
theorem look_map_same {α β : Type} (d : α) (m : FMap α) {g : Nat × α → Nat × α} (π : α → β) (hk : ∀ p, (g p).1 = p.1)
    (hv : ∀ p, π (g p).2 = π p.2) (k : Nat) : π (look d (m.map g) k) = π (look d m k) := by
  induction m with
  | nil => rfl
  | cons p r ih =>
    rw [List.map_cons, show g p = (p.1, (g p).2) from Prod.ext (hk p) rfl]
    simp only [look]
    split
    · exact hv p
    · exact ih

@[simp] theorem canonicalParts_mapClusters {cores : FMap Core} {clusters : FMap Cluster} {mem : Mem} {g : Nat × Cluster → Nat × Cluster}
    (hk : ∀ p, (g p).1 = p.1) (hv : ∀ p, (g p).2.store = p.2.store) :
    CanonicalParts cores (clusters.map g) mem ↔ CanonicalParts cores clusters mem := by
  unfold CanonicalParts
  simp only [look_map_same ({} : Cluster) clusters Cluster.store hk hv]

@[simp] theorem canonicalParts_mapCores {cores : FMap Core} {clusters : FMap Cluster} {mem : Mem} {g : Nat × Core → Nat × Core}
    (hk : ∀ p, (g p).1 = p.1) (hs : ∀ p, (g p).2.spm = p.2.spm) (hw : ∀ p, (g p).2.wb = p.2.wb) :
    CanonicalParts (cores.map g) clusters mem ↔ CanonicalParts cores clusters mem := by
  unfold CanonicalParts
  simp only [look_map_same ({} : Core) cores Core.spm hk hs, look_map_same ({} : Core) cores Core.wb hk hw]

/-- A change of memory alone. -/
theorem canonical_withMem {s : State} (h : Canonical s) {m : Mem} (hm : m.wf = true) : CanonicalParts s.cores s.clusters m := ⟨hm, h.2⟩

/-- A slot's result every state of which is canonical. -/
def CanonicalSlot : SlotResult → Prop
  | .ok t | .trap t _ _ | .apart t => Canonical t
  | .fatal _ => True

theorem canonicalSlot_if {c : Prop} {_ : Decidable c} {a b : SlotResult} (ha : CanonicalSlot a) (hb : CanonicalSlot b) :
    CanonicalSlot (if c then a else b) := by
  split
  · exact ha
  · exact hb

/-- An outcome whose next state, where there is one, is canonical. -/
def CanonicalNext (o : Out) : Prop := ∀ t, o = .next t → Canonical t

@[simp] theorem canonicalNext_next (t : State) : CanonicalNext (.next t) ↔ Canonical t :=
  ⟨fun h => h t rfl, fun h _ e => Host.Outcome.next.inj e ▸ h⟩

theorem canonicalNext_ite {c : Prop} {_ : Decidable c} {a b : Out} (ha : CanonicalNext a) (hb : CanonicalNext b) :
    CanonicalNext (if c then a else b) := by
  split
  · exact ha
  · exact hb

end Sys2Proof.Machine
end

section
/-! PROOFS. The functions of the model keep every memory in its canonical form, each by the functions it calls. -/

namespace Sys2Proof.Machine

/-! ### Registers in flight, traps and banks -/

@[simp] theorem canonical_emit (s : State) (lat : Nat) (dst : FlightDst) : Canonical (s.emit lat dst) ↔ Canonical s := by
  unfold State.emit
  simp

@[simp] theorem canonical_landOne (s : State) (k : Nat) (dst : FlightDst) : Canonical (s.landOne k dst) ↔ Canonical s := by
  cases dst with
  | acc bank row b m psn full =>
    simp only [State.landOne, canonical_ite, canonical_setCtx]
    split
    · rfl
    · exact canonical_setCore_same rfl rfl
  | _ => exact Iff.rfl

@[simp] theorem canonical_landList (s : State) (k : Nat) (l : List Flight) : Canonical (s.landList k l) ↔ Canonical s := by
  induction l generalizing s with
  | nil => rfl
  | cons f r ih => exact (ih _).trans (by split <;> simp)

@[simp] theorem canonical_landDue (s : State) (k now fuel : Nat) : Canonical (s.landDue k now fuel) ↔ Canonical s := by
  induction fuel generalizing s with
  | zero => rfl
  | succ n ih =>
    unfold State.landDue
    dsimp only
    split
    · rfl
    · simp [ih]

@[simp] theorem canonical_landBy (s : State) (k now : Nat) : Canonical (s.landBy k now) ↔ Canonical s := by
  unfold State.landBy
  simp

@[simp] theorem canonical_emitSb (s : State) (dst : SbDst) (what : Payload) : Canonical (s.emitSb dst what) ↔ Canonical s := by
  unfold State.emitSb
  simp

@[simp] theorem canonical_haltCtx (s : State) (k code : Nat) (pc : Word) : Canonical (s.haltCtx k code pc) ↔ Canonical s := by
  unfold State.haltCtx
  simp [↓canonical_mk, ↓canonicalParts_of, ↓canonical_ite]

@[simp] theorem canonical_prefetchMe (s : State) : Canonical s.prefetchMe ↔ Canonical s := by
  unfold State.prefetchMe
  simp

@[simp] theorem canonical_fatal (s : State) (code : Nat) : Canonical (s.fatal code) ↔ Canonical s := by
  unfold State.fatal
  simp

@[simp] theorem canonical_doubleFault (s : State) : Canonical s.doubleFault ↔ Canonical s := by
  unfold State.doubleFault
  simp

@[simp] theorem canonical_trapWith (s : State) (unissued : Bool) (r cause info : Nat) :
    Canonical (s.trapWith unissued r cause info) ↔ Canonical s := by
  unfold State.trapWith
  dsimp only
  repeat' split
  all_goals simp

@[simp] theorem canonical_takeTrap (s : State) (cause info : Nat) : Canonical (s.takeTrap cause info) ↔ Canonical s := by
  unfold State.takeTrap
  simp

@[simp] theorem canonical_setAside (s : State) : Canonical s.setAside ↔ Canonical s := by
  unfold State.setAside
  simp

@[simp] theorem fillBank_spm (c : Core) (b : Nat) (rows : FMap AccRow) : (c.fillBank b rows).spm = c.spm := rfl
@[simp] theorem fillBank_wb (c : Core) (b : Nat) (rows : FMap AccRow) : (c.fillBank b rows).wb = c.wb := rfl

theorem canonical_fillBank (s : State) (k b : Nat) (rows : FMap AccRow) (m : FMap Nat) :
    Canonical (s.setCore k { (s.core k).fillBank b rows with accBy := m }) ↔ Canonical s := by
  apply canonical_setCore_same
  · simp only [fillBank_spm]
  · simp only [fillBank_wb]

@[simp] theorem canonical_mapCtxs (s : State) (g : Ctx → Ctx) : Canonical (s.mapCtxs g) ↔ Canonical s := by
  unfold State.mapCtxs
  simp

@[simp] theorem canonical_mapTasks (s : State) (f : Arch → Arch) : Canonical (s.mapTasks f) ↔ Canonical s := by
  unfold State.mapTasks
  simp

@[simp] theorem canonical_spillBank (s : State) (core b : Nat) : Canonical (s.spillBank core b) ↔ Canonical s := by
  unfold State.spillBank
  simp

@[simp] theorem canonical_spillBanks (s : State) (cores : List Nat) (f : Nat → Bool) : Canonical (s.spillBanks cores f) ↔ Canonical s := by
  unfold State.spillBanks
  simp

@[simp] theorem canonical_nameBankFor (s : State) (k b : Nat) : Canonical (s.nameBankFor k b) ↔ Canonical s := by
  unfold State.nameBankFor
  dsimp only
  split
  · rw [canonical_setCtx, canonical_fillBank]
    split
    · exact canonical_spillBank _ _ _
    · rfl
  · rw [canonical_setCore_same]
    · split
      · exact canonical_spillBank _ _ _
      · rfl
    · rfl
    · rfl

@[simp] theorem canonical_nameBank (s : State) (b : Nat) : Canonical (s.nameBank b) ↔ Canonical s := by
  unfold State.nameBank
  simp

@[simp] theorem canonical_claimBanks (s : State) (c : Cmd) : Canonical (s.claimBanks c) ↔ Canonical s := by
  unfold State.claimBanks
  simp

theorem canonical_finish {s : State} {r : SlotResult} (h : Canonical s) (hr : CanonicalSlot r) : CanonicalNext (finish s r) := by
  cases r with
  | ok t => exact (canonicalNext_next t).2 hr
  | trap t cause info => exact (canonicalNext_next _).2 ((canonical_takeTrap t cause info).2 hr)
  | fatal code => exact (canonicalNext_next _).2 ((canonical_fatal s code).2 h)
  | apart t => exact (canonicalNext_next _).2 ((canonical_setAside t).2 hr)

/-! ### Semaphores and waits -/

@[simp] theorem canonical_updLaunch (s : State) (seq : Nat) (f : Launch → Launch) : Canonical (s.updLaunch seq f) ↔ Canonical s := by
  unfold State.updLaunch
  simp

@[simp] theorem canonical_updNode (s : State) (seq node : Nat) (f : Node → Node) : Canonical (s.updNode seq node f) ↔ Canonical s := by
  unfold State.updNode
  simp

@[simp] theorem canonical_setSem (s : State) (cl : Nat) (i : TaskInfo) (n : Nat) (x : Sem) :
    Canonical (s.setSem cl i n x) ↔ Canonical s := by
  unfold State.setSem
  simp

@[simp] theorem canonical_testWait (s : State) (k : Nat) : Canonical (s.testWait k) ↔ Canonical s := by
  unfold State.testWait
  dsimp only
  repeat' split
  all_goals simp

@[simp] theorem canonical_testWaits (s : State) (cl : Nat) (i : TaskInfo) (n : Nat) (ks : List Nat) :
    Canonical (s.testWaits cl i n ks) ↔ Canonical s := by
  induction ks generalizing s with
  | nil => rfl
  | cons k r ih => exact (ih _).trans (by split <;> simp)

@[simp] theorem canonical_noteTeams (s : State) : Canonical s.noteTeams ↔ Canonical s := by
  unfold State.noteTeams
  simp

@[simp] theorem canonical_semChange (s : State) (cl : Nat) (i : TaskInfo) (n : Nat) (f : Sem → Sem) :
    Canonical (s.semChange cl i n f) ↔ Canonical s := by
  unfold State.semChange
  simp

@[simp] theorem canonical_signal (s : State) (cl : Nat) (i : TaskInfo) (n : Nat) (inc : ℤ) :
    Canonical (s.signal cl i n inc) ↔ Canonical s := by
  unfold State.signal
  simp

@[simp] theorem canonical_doGets (s : State) (k sem born : Nat) : Canonical (s.doGets k sem born) ↔ Canonical s := by
  unfold State.doGets
  simp

@[simp] theorem canonical_settle (s : State) (k : Nat) : Canonical (s.settle k) ↔ Canonical s := by
  unfold State.settle
  simp

/-! ### Units, the L1 and the engines' writes -/

@[simp] theorem canonical_setUnit (s : State) (pu : Nat) (x : Word × Bool) (h : Canonical s) : Canonical (s.setUnit pu x) :=
  canonical_withMem h (wf_setMark _ _ (wf_putBytes _ _ h.1))

@[simp] theorem canonical_sees (s : State) (a : Nat × Nat) (pu : Nat) : Canonical (s.sees a pu) ↔ Canonical s := by
  unfold State.sees
  simp

@[simp] theorem canonical_glance (s : State) (a : Nat × Nat) (old : Bool) (pu : Nat) : Canonical (s.glance a old pu).1 ↔ Canonical s := by
  unfold State.glance
  repeat' split
  all_goals simp

@[simp] theorem canonical_hiding (t s : State) (a : Nat × Nat) (pus : List Nat) : Canonical (t.hiding s a pus) ↔ Canonical t := by
  unfold State.hiding
  repeat' split
  all_goals simp

@[simp] theorem canonical_showWrites (s : State) (id : Nat) : Canonical (s.showWrites id) ↔ Canonical s := by
  unfold State.showWrites
  simp

@[simp] theorem canonical_setL1 (s : State) (core pu : Nat) (u : L1Unit) : Canonical (s.setL1 core pu u) ↔ Canonical s := by
  unfold State.setL1
  simp

@[simp] theorem canonical_l1Clean (s : State) (core pu : Nat) (discard : Bool) (h : Canonical s) :
    Canonical (s.l1Clean core pu discard) := by
  unfold State.l1Clean
  simp [h]

@[simp] theorem canonical_l1Sweep (s : State) (cores : List Nat) (f : Nat → Bool) (discard : Bool) (h : Canonical s) :
    Canonical (s.l1Sweep cores f discard) := by
  refine canonical_foldl (fun t c ht => canonical_foldl (fun u pu hu => canonical_l1Clean u _ _ _ hu) _ ht) _ ?_
  split <;> exact h

@[simp] theorem canonical_dropUnit (s : State) (core pu : Nat) (h : Canonical s) : Canonical (s.dropUnit core pu) := by
  unfold State.dropUnit
  simp [h]

@[simp] theorem canonical_dropLine (s : State) (core line : Nat) (h : Canonical s) : Canonical (s.dropLine core line) := by
  exact canonical_foldl (fun t b ht => by simp [ht]) _ h

@[simp] theorem canonical_fillLine (s : State) (core line : Nat) : Canonical (s.fillLine core line) ↔ Canonical s := by
  unfold State.fillLine
  simp

@[simp] theorem canonical_fillOld (s : State) (k c : Nat) (old : Bool) (pu : Nat) : Canonical (s.fillOld k c old pu) ↔ Canonical s := by
  unfold State.fillOld
  repeat' split
  all_goals simp

@[simp] theorem canonical_readUnit (s : State) (k : Nat) (old : Bool) (r : URef) : Canonical (s.readUnit k old r).1 ↔ Canonical s := by
  unfold State.readUnit
  dsimp only
  split <;> simp

@[simp] theorem canonical_writeUnit (s : State) (k : Nat) (r : URef) (mask : Nat) (data : Word) (psn : Bool) (h : Canonical s) :
    Canonical (s.writeUnit k r mask data psn) := by
  unfold State.writeUnit
  simp [h]

@[simp] theorem canonical_engineUnit (s : State) (a : Nat × Nat) (lag : List (Nat × Nat)) (pu : Nat) :
    Canonical (s.engineUnit a lag pu).1 ↔ Canonical s := by
  unfold State.engineUnit
  simp

@[simp] theorem canonical_engineSet (s : State) (a : Nat × Nat) (pu mask : Nat) (data : Word) (psn : Bool) (h : Canonical s) :
    Canonical (s.engineSet a pu mask data psn) := by
  unfold State.engineSet
  simp [h]

/-! ### Atomic updates -/

@[simp] theorem canonical_replayDone (s : State) (u : Update) : Canonical (s.replayDone u) ↔ Canonical s := by
  unfold State.replayDone
  simp

@[simp] theorem canonical_writeWords (s : State) (asid va : Nat) (ws : List Word) (h : Canonical s) :
    Canonical (s.writeWords asid va ws) := by
  refine canonical_foldl (fun t p ht => ?_) _ h
  split
  · split <;> simp [ht]
  · exact ht

@[simp] theorem canonical_logUpdate (s : State) (u : Update) (h : Canonical s) : Canonical (s.logUpdate u) := by
  unfold State.logUpdate
  simp [h]

@[simp] theorem canonical_applyAt (s : State) (pu off : Nat) (op : Rmw) (fmt val cmp : Nat) (psn : Bool) (h : Canonical s) :
    Canonical (s.applyAt pu off op fmt val cmp psn).1 := by
  unfold State.applyAt
  dsimp only
  repeat' split
  all_goals simp [h]

@[simp] theorem canonical_applyAcross (s : State) (pu hi off : Nat) (op : Rmw) (fmt val cmp : Nat) (psn : Bool) (h : Canonical s) :
    Canonical (s.applyAcross pu hi off op fmt val cmp psn).1 := by
  unfold State.applyAcross
  dsimp only
  repeat' split
  all_goals simp [h]

@[simp] theorem canonical_applyRmw (s : State) (u : Update) (h : Canonical s) : Canonical (s.applyRmw u).1 := by
  unfold State.applyRmw
  repeat' split
  all_goals simp [h]

@[simp] theorem canonical_openSeq (s : State) (u : Update) : Canonical (s.openSeq u) ↔ Canonical s := by
  unfold State.openSeq
  simp

@[simp] theorem canonical_tellCmd (s : State) (cmd : Option (Nat × Nat)) (psn : Bool) : Canonical (s.tellCmd cmd psn) ↔ Canonical s := by
  unfold State.tellCmd
  split
  · exact canonical_setCore_same rfl rfl
  · rfl

@[simp] theorem canonical_applyUpdate (s : State) (u : Update) (h : Canonical s) : Canonical (s.applyUpdate u) := by
  have applied (d : State) (hd : Canonical d) :
      Canonical (match u.cmd with | some c => (d.applyRmw u).1.hiding d (1, c.2) u.units | none => (d.applyRmw u).1) := by
    split <;> simp [hd]
  have dropped : Canonical (if u.cmd.isSome || u.sender.isSome then s.openSeq u else (s.openSeq u).dropLine u.core u.lineOf) := by
    split <;> simp [h]
  have told (p : Bool) := (canonical_tellCmd _ u.cmd p).2 ((canonical_replayDone _ u).2 (canonical_logUpdate _ u (applied _ dropped)))
  unfold State.applyUpdate
  dsimp only
  split
  · exact told _
  · exact told _

@[simp] theorem canonical_setStatus (s : State) (id : Nat) (st : UpdStatus) : Canonical (s.setStatus id st) ↔ Canonical s := by
  unfold State.setStatus
  simp

@[simp] theorem canonical_holdUpdate (s : State) (u : Update) : Canonical (s.holdUpdate u) ↔ Canonical s := by
  unfold State.holdUpdate
  simp

@[simp] theorem canonical_applyAll (s : State) (ids : List Nat) (h : Canonical s) : Canonical (s.applyAll ids) := by
  induction ids generalizing s with
  | nil => exact h
  | cons id r ih =>
    refine ih _ ?_
    split
    · split
      · exact (canonical_holdUpdate _ _).2 h
      · exact canonical_applyUpdate _ _ h
    · exact h

@[simp] theorem canonical_mergeLine (s : State) (by_ : Option (Nat × Nat)) (core line : Nat) (first : List Nat) (h : Canonical s) :
    Canonical (s.mergeLine by_ core line first) := by
  have hl (l : List (Nat × List Nat)) : Canonical (s.setCore core { s.core core with lines := l }) := canonical_updCore h
  exact canonical_applyAll _ _ (hl _)

@[simp] theorem canonical_touchLine (s : State) (by_ : Option (Nat × Nat)) (line : Nat) (h : Canonical s) :
    Canonical (s.touchLine by_ line) := by
  exact canonical_foldl (fun t b ht => by simp [ht]) _ h

@[simp] theorem canonical_touchLines (s : State) (by_ : Option (Nat × Nat)) (ls : List Nat) (h : Canonical s) :
    Canonical (s.touchLines by_ ls) := by
  induction ls generalizing s with
  | nil => exact h
  | cons l r ih => exact ih _ (canonical_touchLine s by_ l h)

@[simp] theorem canonical_mergeOwn (s : State) (k : Nat) (h : Canonical s) : Canonical (s.mergeOwn k) := by
  exact canonical_foldl (fun t b ht => by simp [ht]) _ h

@[simp] theorem canonical_roomInLine (s : State) (core line : Nat) (h : Canonical s) : Canonical (s.roomInLine core line) := by
  unfold State.roomInLine
  repeat' split
  all_goals simp [h]

@[simp] theorem canonical_enterLine (s : State) (u : Update) (h : Canonical s) : Canonical (s.enterLine u) := by
  unfold State.enterLine
  simp [h]

@[simp] theorem canonical_applyFresh (s : State) (u : Update) (h : Canonical s) : Canonical (s.applyFresh u) := by
  unfold State.applyFresh
  simp [h]

@[simp] theorem canonical_applyOwn (s : State) (k upto : Nat) (pus : List Nat) (h : Canonical s) : Canonical (s.applyOwn k upto pus) := by
  refine canonical_foldl (fun t id ht => ?_) _ h
  split
  · split <;> simp [ht]
  · exact ht

@[simp] theorem canonical_ready (s : State) (k upto : Nat) (us : List URef) (h : Canonical s) : Canonical (s.ready k upto us).1 := by
  unfold State.ready
  simp [h]

@[simp] theorem canonical_releaseFrom (s : State) (k : Nat) (l : List PendSig) : Canonical (s.releaseFrom k l) ↔ Canonical s := by
  induction l generalizing s with
  | nil => exact canonical_setCtx _ _ _
  | cons p r ih =>
    unfold State.releaseFrom
    dsimp only
    split <;> simp [ih]

@[simp] theorem canonical_release (s : State) (k : Nat) : Canonical (s.release k) ↔ Canonical s := by
  unfold State.release
  simp

@[simp] theorem canonical_releaseAll (s : State) : Canonical s.releaseAll ↔ Canonical s := by
  unfold State.releaseAll
  simp

@[simp] theorem canonical_drainHeads (s : State) (fuel : Nat) (h : Canonical s) : Canonical (s.drainHeads fuel) := by
  induction fuel generalizing s with
  | zero => exact h
  | succ n ih =>
    unfold State.drainHeads
    split
    · exact h
    · exact ih _ (canonical_applyFresh s _ h)

@[simp] theorem canonical_applyAny (s : State) (fuel : Nat) (ids : List Nat) (h : Canonical s) : Canonical (s.applyAny fuel ids) := by
  induction fuel generalizing s ids with
  | zero => exact h
  | succ n ih =>
    unfold State.applyAny
    split
    · exact h
    · refine ih _ _ ?_
      split
      · exact canonical_applyFresh _ _ h
      · exact h

@[simp] theorem canonical_freeHeld (s : State) (seq node : Nat) (h : Canonical s) : Canonical (s.freeHeld seq node) := by
  unfold State.freeHeld
  simp [h]

@[simp] theorem canonical_drain (s : State) (h : Canonical s) : Canonical s.drain := by
  unfold State.drain
  simp [h]

/-! ### A context's accesses -/

@[simp] theorem canonical_readUnits (s : State) (k : Nat) (old : Bool) (us : List URef) :
    Canonical (s.readUnits k old us).1 ↔ Canonical s := by
  induction us generalizing s with
  | nil => rfl
  | cons r rest ih => exact (ih _).trans (canonical_readUnit s k old r)

@[simp] theorem canonical_writeUnits (s : State) (k va : Nat) (bs : List Byte) (psn : Bool) (us : List URef) (h : Canonical s) :
    Canonical (s.writeUnits k va bs psn us) := by
  induction us generalizing s with
  | nil => exact h
  | cons r rest ih => exact ih _ (canonical_writeUnit s k r _ _ psn h)

@[simp] theorem canonical_bypass (s : State) (k : Nat) (us : List URef) (h : Canonical s) : Canonical (s.bypass k us) := by
  exact canonical_foldl (fun t b ht => by simp [ht]) _ h

@[simp] theorem canonical_directStore (s : State) (k va : Nat) (us : List URef) (bs : List Byte) (psn : Bool) (h : Canonical s) :
    Canonical (s.directStore k va us bs psn) := by
  unfold State.directStore
  simp [h]

@[simp] theorem canonical_scatterAll (s : State) (k : Nat) (psn : Bool) (els : List (Nat × List URef × List Byte)) (h : Canonical s) :
    Canonical (s.scatterAll k psn els) := by
  exact canonical_foldl (fun t b ht => by simp [ht]) _ h

@[simp] theorem canonical_ncasAt (s : State) (pu : Nat) (cmpLo cmpHi newLo newHi : Word) (psn : Bool) (h : Canonical s) :
    Canonical (s.ncasAt pu cmpLo cmpHi newLo newHi psn).1 := by
  unfold State.ncasAt
  dsimp only
  repeat' split
  all_goals simp [h]

@[simp] theorem canonical_countPoison (s : State) (k : Nat) (b : Bool) : Canonical (s.countPoison k b) ↔ Canonical s := by
  unfold State.countPoison
  simp

@[simp] theorem canonical_loadNow (s : State) (k : Nat) (old : Bool) (us : List URef) (va n : Nat) (form : LoadForm) (spec : Bool) :
    Canonical (s.loadNow k old us va n form spec).1 ↔ Canonical s := by
  unfold State.loadNow
  simp

@[simp] theorem canonical_fillSb (s : State) (k id : Nat) (p : Payload) : Canonical (s.fillSb k id p) ↔ Canonical s := by
  unfold State.fillSb
  simp

@[simp] theorem canonical_perform (s : State) (k : Nat) (l : Late) (h : Canonical s) : Canonical (s.perform k l) := by
  unfold State.perform
  dsimp only
  repeat' split
  all_goals simp [h]

@[simp] theorem canonical_popLate (s : State) (k : Nat) : Canonical (s.popLate k) ↔ Canonical s := by
  unfold State.popLate
  simp

@[simp] theorem canonical_lateStep (s : State) (k : Nat) (h : Canonical s) : Canonical (s.lateStep k).1 := by
  unfold State.lateStep
  dsimp only
  repeat' split
  all_goals simp [h]

@[simp] theorem canonical_lateSteps (s : State) (k n : Nat) (h : Canonical s) : Canonical (s.lateSteps k n) := by
  induction n generalizing s with
  | zero => exact h
  | succ n ih =>
    have hl := canonical_lateStep s k h
    unfold State.lateSteps
    dsimp only
    split
    · exact ih _ hl
    · exact hl

@[simp] theorem canonical_inOrder (s : State) (k : Nat) (h : Canonical s) : Canonical (s.inOrder k) := by
  unfold State.inOrder
  simp [h]

@[simp] theorem canonical_lateUpTo (s : State) (id : Nat) (h : Canonical s) : Canonical (s.lateUpTo id) := by
  unfold State.lateUpTo
  repeat' split
  all_goals simp [h]

/-! ### What the slots share -/

@[simp] theorem canonical_putS (s : State) (d : BitVec 6) (lat : Nat) (r : SReg) : Canonical (s.putS d lat r) ↔ Canonical s := by
  unfold State.putS
  simp

@[simp] theorem canonical_putV (s : State) (d : BitVec 6) (lat : Nat) (bits : Vec) (tag : Nat) (psn : Bool) :
    Canonical (s.putV d lat bits tag psn) ↔ Canonical s := by
  unfold State.putV
  simp

@[simp] theorem canonical_putP (s : State) (d : BitVec 6) (bits mask : Pred) : Canonical (s.putP d bits mask) ↔ Canonical s := by
  unfold State.putP
  simp

@[simp] theorem canonical_noteWrite (s : State) (k : Nat) (ps : List Page) (va n : Nat) :
    Canonical (s.noteWrite k ps va n) ↔ Canonical s := by
  unfold State.noteWrite
  simp

@[simp] theorem canonical_pushLate (s : State) (l : Late) : Canonical (s.pushLate l) ↔ Canonical s := by
  unfold State.pushLate
  simp

@[simp] theorem canonical_queueLate (s : State) (us : List URef) (va n : Nat) (op : LateOp) :
    Canonical (s.queueLate us va n op) ↔ Canonical s := by
  unfold State.queueLate
  simp

@[simp] theorem canonical_setSpm (s : State) (m : Mem) (h : Canonical s) (hm : m.wf = true) : Canonical (s.setSpm m) :=
  canonical_setCore h hm (h.2.1 _).2

@[simp] theorem canonical_noteScatter (s : State) (k : Nat) (ps : List Page) (w : Nat) (ts : List (Nat × Nat)) :
    Canonical (s.noteScatter k ps w ts) ↔ Canonical s := by
  unfold State.noteScatter
  simp

@[simp] theorem canonical_postUpdate (s : State) (u : Update) (ord : Bool) : Canonical (s.postUpdate u ord).1 ↔ Canonical s := by
  unfold State.postUpdate
  simp

@[simp] theorem canonical_scaddAll (ps : List Page) (w fmt group : Nat) (ord : Bool) (v : VReg) (s : State) (ts : List (Nat × Nat))
    (h : Canonical s) : Canonical (scaddAll ps w fmt group ord v s ts) := by
  induction ts generalizing s with
  | nil => exact h
  | cons t r ih =>
    unfold scaddAll
    dsimp only
    refine ih _ ?_
    simp [↓canonical_mk, ↓canonicalParts_of, ↓canonical_ite, h]

theorem canonicalNext_execFlushInvalCompletion {s : State} (h : Canonical s) (ctx : Nat) :
    CanonicalNext (execFlushInvalCompletion ctx s) := by
  unfold execFlushInvalCompletion
  split <;> simp [h]

@[simp] theorem canonical_returning (s : State) (u : Update) (d : BitVec 6) (h : Canonical s) : Canonical (s.returning u d) := by
  unfold State.returning
  simp [h]

@[simp] theorem canonical_send (s : State) (kind dest : Nat) (body : List Byte) : Canonical (s.send kind dest body) ↔ Canonical s := by
  unfold State.send
  simp

@[simp] theorem canonical_sendTo (s : State) (kind serial : Nat) (body : List Byte) :
    Canonical (s.sendTo kind serial body) ↔ Canonical s := by
  unfold State.sendTo
  simp

@[simp] theorem canonical_askHome (s : State) (kind : Nat) (n : BitVec 128) : Canonical (s.askHome kind n) ↔ Canonical s := by
  unfold State.askHome
  simp

@[simp] theorem canonical_transfer (s : State) (target : Word) (bad : Bool) : Canonical (s.transfer target bad) ↔ Canonical s := by
  unfold State.transfer
  simp

@[simp] theorem canonical_yieldTurn (s : State) (k : Nat) : Canonical (s.yieldTurn k) ↔ Canonical s := by
  unfold State.yieldTurn
  simp

@[simp] theorem canonical_posted (s : State) (c : Cmd) : Canonical (s.posted c) ↔ Canonical s := by
  unfold State.posted
  simp

@[simp] theorem canonical_applyAccwr (s : State) (core : Nat) (banks : List Nat) : Canonical (s.applyAccwr core banks) ↔ Canonical s := by
  unfold State.applyAccwr
  simp

@[simp] theorem canonical_takeBanks (s : State) (banks : List Nat) : Canonical (s.takeBanks banks) ↔ Canonical s := by
  unfold State.takeBanks
  simp

@[simp] theorem canonical_queueMatrix (s : State) (c : Cmd) : Canonical (s.queueMatrix c) ↔ Canonical s := by
  unfold State.queueMatrix
  simp

@[simp] theorem canonical_putRows (s : State) (lat : Nat) (rs : List (Nat × VReg)) : Canonical (s.putRows lat rs) ↔ Canonical s := by
  induction rs generalizing s with
  | nil => rfl
  | cons r t ih => exact (ih _).trans (canonical_emit s lat _)

/-! ### The issue of a bundle and its completion -/

@[simp] theorem canonical_asIssued (s : State) (k : Nat) : Canonical (s.asIssued k) ↔ Canonical s := by
  unfold State.asIssued
  simp

@[simp] theorem canonical_place (s : State) (k : Nat) (ops : List Instr) (h : Canonical s) : Canonical (s.place k ops).1 := by
  have ready (t : State) (n : Nat) (us : List URef) (ht : Canonical t) :
      Canonical (if t.owesLate k then (t, false) else t.ready k n us).1 := canonical_ifFst ht (canonical_ready _ _ _ _ ht)
  unfold State.place
  refine canonical_ifFst h (ready _ _ _ (canonical_if ?_ ?_)) <;> simp [h]

@[simp] theorem canonical_blockCtx (s : State) (k : Nat) : Canonical (s.blockCtx k) ↔ Canonical s := by
  unfold State.blockCtx
  simp

@[simp] theorem canonical_passTurn (s : State) (k : Nat) : Canonical (s.passTurn k) ↔ Canonical s := by
  unfold State.passTurn
  repeat' split
  all_goals simp

@[simp] theorem canonical_noteTurn (s : State) (k : Nat) : Canonical (s.noteTurn k) ↔ Canonical s := by
  refine canonical_foldl_same (fun t j => ?_) _ s
  dsimp only
  split
  · rfl
  · rfl

@[simp] theorem canonical_issue (s : State) (k : Nat) (ws : List Word) (gaps : List Nat) : Canonical (s.issue k ws gaps) ↔ Canonical s := by
  unfold State.issue
  simp

@[simp] theorem canonical_askSignal (s : State) (y : Word) (h : Canonical s) : Canonical (s.askSignal y) := by
  unfold State.askSignal
  simp [h]

@[simp] theorem canonical_advance (s : State) : Canonical s.advance ↔ Canonical s := by
  unfold State.advance
  dsimp only
  repeat' split
  all_goals simp

@[simp] theorem canonical_exitTask (s : State) (code : Nat) : Canonical (s.exitTask code) ↔ Canonical s := by
  unfold State.exitTask
  simp

@[simp] theorem canonical_eret (s : State) : Canonical s.eret ↔ Canonical s := by
  unfold State.eret
  simp

@[simp] theorem canonical_startPause (s : State) (y : Word) : Canonical (s.startPause y) ↔ Canonical s := by
  unfold State.startPause
  simp

@[simp] theorem canonical_leaveBundle (s : State) : Canonical s.leaveBundle ↔ Canonical s := by
  unfold State.leaveBundle
  repeat' split
  all_goals simp

@[simp] theorem canonical_completeBundle (s : State) (h : Canonical s) : Canonical s.completeBundle := by
  unfold State.completeBundle
  simp [h]

@[simp] theorem canonical_loopLoses (s : State) : Canonical s.loopLoses ↔ Canonical s := by
  unfold State.loopLoses
  dsimp only
  split <;> simp

@[simp] theorem canonical_afterSlot (s : State) (h : Canonical s) : Canonical s.afterSlot := by
  unfold State.afterSlot
  simp [h]

@[simp] theorem canonical_cacheAll (s : State) (l : List (Nat × Nat × Bool)) (h : Canonical s) : Canonical (s.cacheAll l) := by
  refine canonical_foldl (fun t p ht => ?_) _ h
  split
  · split <;> simp [ht]
  · exact canonical_foldl (fun u pu hu => canonical_l1Clean u _ _ _ hu) _ ht

@[simp] theorem canonical_tryBundle (s : State) (k : Nat) (ws : List Word) (gaps : List Nat) (h : Canonical s) :
    Canonical (s.tryBundle k ws gaps) := by
  unfold State.tryBundle
  simp [h]

@[simp] theorem canonical_resume (s : State) (k : Nat) (cur : Cur) : Canonical (s.resume k cur) ↔ Canonical s := by
  unfold State.resume
  simp

@[simp] theorem canonical_attempt (s : State) (k : Nat) (gaps : List Nat) (h : Canonical s) : Canonical (s.attempt k gaps) := by
  unfold State.attempt
  dsimp only
  repeat' split
  all_goals simp [h]

@[simp] theorem canonical_countError (s : State) (kind unit : Nat) (correctable : Bool) :
    Canonical (s.countError kind unit correctable) ↔ Canonical s := by
  unfold State.countError
  simp

@[simp] theorem canonical_askUnit (s : State) (core cmd unit : Nat) : Canonical (s.askUnit core cmd unit).1 ↔ Canonical s := by
  unfold State.askUnit
  dsimp only
  split <;> simp

@[simp] theorem canonical_askUnits (s : State) (core cmd : Nat) (us : List Nat) : Canonical (s.askUnits core cmd us).1 ↔ Canonical s := by
  induction us generalizing s with
  | nil => rfl
  | cons u r ih => exact (ih _).trans (canonical_askUnit s core cmd u)

@[simp] theorem canonical_endChain (s : State) (k : Nat) (m : BitVec 16) : Canonical (s.endChain k m) ↔ Canonical s := by
  unfold State.endChain
  simp

@[simp] theorem canonical_endLocks (s old : State) : Canonical (s.endLocks old) ↔ Canonical s := by
  refine canonical_foldl_same (fun t p => ?_) _ s
  split
  · simp
  · rfl

/-! ### Segments, frames and claim names -/

@[simp] theorem canonical_fetchFailed (s : State) (k : Nat) (psn : Bool) : Canonical (s.fetchFailed k psn) ↔ Canonical s := by
  unfold State.fetchFailed
  simp

theorem canonical_putAll {α : Type} [DecidableEq α] {d : α} (g : Nat × α → Nat) (l : FMap α) {m : FMap α} (h : canonical d m = true) :
    canonical d (l.foldl (fun m c => put d m (g c) c.2) m) = true :=
  List.foldlRecOn (motive := fun m => canonical d m = true) l _ h fun _ hm c _ => canonical_put _ _ hm

@[simp] theorem wf_copyFrame {m : Mem} (old new : Nat) (h : m.wf = true) : (m.copyFrame old new).wf = true := by
  have hz := wf_zeroed (new * 65536) 65536 h
  rw [Mem.wf_iff] at hz ⊢
  exact ⟨canonical_putAll _ _ hz.1, canonical_putAll _ _ hz.2⟩

@[simp] theorem canonical_clearFrame (s : State) (frame : Nat) (h : Canonical s) : Canonical (s.clearFrame frame) := by
  unfold State.clearFrame
  simp [h]

@[simp] theorem canonical_movePage (s : State) (old new : Nat) (h : Canonical s) : Canonical (s.movePage old new) := by
  have hc := canonical_clearFrame s old h
  have stored (ls : List (Nat × Nat × Leaf)) (m : Mem) (hm : m.wf = true) := wf_foldl
    (fun (m : Mem) (l : Nat × Nat × Leaf) => m.store l.2.2.at_ (leBytes 8 (natSet l.2.2.pte 16 35 new)))
      (fun _ _ hm => wf_store _ _ hm) ls hm
  unfold State.movePage
  simp only [↓canonical_mk]
  refine (canonicalParts_mapCores ?_ ?_ ?_).2 ?_
  · exact fun _ => rfl
  · exact fun _ => rfl
  · exact fun _ => rfl
  refine (canonical_mapCtxs _ _).2 ?_
  exact canonical_withMem hc (stored _ _ (wf_copyFrame _ _ hc.1))

@[simp] theorem canonical_updName (s : State) (n : BitVec 128) (f : NameEntry → NameEntry) : Canonical (s.updName n f) ↔ Canonical s := by
  unfold State.updName
  simp

@[simp] theorem canonical_cacheName (s : State) (cl : Nat) (n : BitVec 128) : Canonical (s.cacheName cl n) ↔ Canonical s := by
  unfold State.cacheName
  dsimp only
  split <;> simp

@[simp] theorem canonical_sweepNames (s : State) : Canonical s.sweepNames ↔ Canonical s := by
  unfold State.sweepNames
  simp

@[simp] theorem canonical_pinPages (s : State) (a : Arch) (ps : List Page) (deep : Bool) (h : Canonical s) :
    Canonical (s.pinPages a ps deep).1 :=
  canonical_withMem h (wf_foldl _ (fun _ _ hm => wf_setByte _ _ hm) _ h.1)

@[simp] theorem canonical_unbind (s : State) (a : Arch) (slot : Nat) : Canonical (s.unbind a slot).1 ↔ Canonical s := by
  unfold State.unbind
  dsimp only
  repeat' split
  all_goals simp

@[simp] theorem canonical_bindName (s : State) (a : Arch) (slot : Nat) (n : BitVec 128) (e : NameEntry) (wr deep : Bool)
    (h : Canonical s) : Canonical (s.bindName a slot n e wr deep).1 := by
  unfold State.bindName
  simp [h]

@[simp] theorem canonical_nresLand (s : State) (k slot : Nat) (n : BitVec 128) (h : Canonical s) : Canonical (s.nresLand k slot n).1 := by
  unfold State.nresLand
  dsimp only
  repeat' split
  all_goals simp [h]

@[simp] theorem canonical_nstatLand (s : State) (k : Nat) (n : BitVec 128) : Canonical (s.nstatLand k n).1 ↔ Canonical s := by
  unfold State.nstatLand
  dsimp only
  split <;> simp

@[simp] theorem canonical_killName (s : State) (n : BitVec 128) (killer : Option Nat) : Canonical (s.killName n killer) ↔ Canonical s := by
  unfold State.killName
  simp

@[simp] theorem canonical_shotDone (s : State) (n : BitVec 128) : Canonical (s.shotDone n) ↔ Canonical s := by
  unfold State.shotDone
  repeat' split
  all_goals simp

/-! ### Device memory and launches -/

@[simp] theorem canonical_reach (s : State) (by_ : Nat × Nat) (r : Option URef) (h : Canonical s) : Canonical (s.reach by_ r).1 := by
  unfold State.reach
  dsimp only
  split <;> simp [h]

@[simp] theorem canonical_agentUnit (s : State) (by_ : Nat × Nat) (lag : List (Nat × Nat)) (r : Option URef) (h : Canonical s) :
    Canonical (s.agentUnit by_ lag r).1 := by
  unfold State.agentUnit
  repeat' split
  all_goals simp [h]

@[simp] theorem canonical_agentSet (s : State) (by_ : Nat × Nat) (r : Option URef) (mask : Nat) (data : Word) (psn : Bool)
    (h : Canonical s) : Canonical (s.agentSet by_ r mask data psn) := by
  unfold State.agentSet
  repeat' split
  all_goals simp [h]

@[simp] theorem canonical_agentUnits (s : State) (by_ : Nat × Nat) (lag : List (Nat × Nat)) (rs : List (Option URef)) (h : Canonical s) :
    Canonical (s.agentUnits by_ lag rs).1 := by
  induction rs generalizing s with
  | nil => exact h
  | cons r rest ih => exact ih _ (canonical_agentUnit s by_ lag r h)

@[simp] theorem canonical_agentRead (s : State) (asid va n : Nat) (h : Canonical s) : Canonical (s.agentRead asid va n).1 := by
  unfold State.agentRead
  simp [h]

@[simp] theorem canonical_runRead (s : State) (by_ : Nat × Nat) (lag : List (Nat × Nat)) (ps : List Page) (va n : Nat) (h : Canonical s) :
    Canonical (s.runRead by_ lag ps va n).1 := by
  unfold State.runRead
  simp [h]

@[simp] theorem canonical_reachAll (s : State) (by_ : Nat × Nat) (rs : List (Option URef)) (h : Canonical s) :
    Canonical (s.reachAll by_ rs).1 := by
  induction rs generalizing s with
  | nil => exact h
  | cons r rest ih => exact ih _ (canonical_reach s by_ r h)

@[simp] theorem canonical_clears (s : State) (l : List (Nat × Nat × Nat)) (h : Canonical s) : Canonical (s.clears l).1 := by
  unfold State.clears
  repeat' split
  all_goals simp [h]

@[simp] theorem canonical_agentPut (s : State) (by_ : Nat × Nat) (va : Nat) (bs : List Byte) (ps : List Bool)
    (us : List (Nat × Option URef)) (h : Canonical s) : Canonical (s.agentPut by_ va bs ps us) := by
  induction us generalizing s with
  | nil => exact h
  | cons x rest ih => exact ih _ (canonical_agentSet s by_ x.2 _ _ _ h)

@[simp] theorem canonical_agentWrite (s : State) (asid va : Nat) (bs : List Byte) (ps : List Bool) (h : Canonical s) :
    Canonical (s.agentWrite asid va bs ps) := by
  unfold State.agentWrite
  simp [h]

@[simp] theorem canonical_runWrite (s : State) (by_ : Nat × Nat) (pages : List Page) (va : Nat) (bs : List Byte) (ps : List Bool)
    (h : Canonical s) : Canonical (s.runWrite by_ pages va bs ps) := by
  unfold State.runWrite
  simp [h]

@[simp] theorem canonical_submit (s : State) (queue : Nat) (rec_ : List Byte) (dev host : Option Nat) (tag : Nat) (cred : Bool)
    (h : Canonical s) : Canonical (s.submit queue rec_ dev host tag cred).1 := by
  unfold State.submit
  dsimp only
  repeat' split
  all_goals simp [h]

@[simp] theorem canonical_writeRecords (s : State) (seq node : Nat) (h : Canonical s) : Canonical (s.writeRecords seq node) := by
  unfold State.writeRecords
  dsimp only
  split
  · exact h
  · refine canonical_foldl (fun t p ht => ?_) _ h
    split <;> simp [ht]

@[simp] theorem canonical_carryOut (s : State) (seq node : Nat) (h : Canonical s) : Canonical (s.carryOut seq node) := by
  unfold State.carryOut
  simp [h]

@[simp] theorem canonical_closeNode (s : State) (seq node : Nat) : Canonical (s.closeNode seq node) ↔ Canonical s := by
  unfold State.closeNode
  simp

@[simp] theorem canonical_closePhase (s : State) (seq node phase : Nat) (h : Canonical s) : Canonical (s.closePhase seq node phase) := by
  unfold State.closePhase
  simp [h]

@[simp] theorem canonical_skipMissing (s : State) (seq node : Nat) (ts : List (Nat × Nat)) :
    Canonical (s.skipMissing seq node ts) ↔ Canonical s := by
  unfold State.skipMissing
  simp

@[simp] theorem canonical_failTasks (s : State) (seq node code : Nat) (ts : List (Nat × Nat)) :
    Canonical (s.failTasks seq node code ts) ↔ Canonical s := by
  unfold State.failTasks
  simp

@[simp] theorem canonical_failNode (s : State) (seq node code : Nat) (cancelled : Bool) (h : Canonical s) :
    Canonical (s.failNode seq node code cancelled) := by
  unfold State.failNode
  simp [h]

@[simp] theorem canonical_cancelPass (s : State) (seq : Nat) (h : Canonical s) : Canonical (s.cancelPass seq) :=
  canonical_if h (canonical_foldl (fun t n ht => canonical_if (canonical_failNode t seq n stCancelled true ht) ht) _ h)

@[simp] theorem canonical_answerAborts (s : State) (seq : Nat) : Canonical (s.answerAborts seq) ↔ Canonical s := by
  unfold State.answerAborts
  simp

@[simp] theorem canonical_nodeDone (s : State) (seq node : Nat) (h : Canonical s) : Canonical (s.nodeDone seq node) := by
  have written : Canonical ((s.carryOut seq node).writeRecords seq node) := by simp [h]
  have closed (f : Node → Node) : Canonical ((((s.carryOut seq node).writeRecords seq node).updNode seq node f).closeNode seq node) := by
    simp [written]
  exact (canonical_answerAborts _ _).2 (canonical_cancelPass _ _ (closed _))

@[simp] theorem canonical_report (s : State) (i : TaskInfo) (r : TaskReport) (h : Canonical s) : Canonical (s.report i r) := by
  have noted (f : Node → Node) : Canonical ((s.skipMissing i.seq i.node [(i.team, i.task)]).updNode i.seq i.node f) := by simp [h]
  refine canonical_drain _ (canonical_if (canonical_nodeDone _ _ _ ?_) ?_)
  · exact canonical_if (canonical_closePhase _ _ _ _ (noted _)) (noted _)
  · exact canonical_if (canonical_closePhase _ _ _ _ (noted _)) (noted _)

@[simp] theorem canonical_dirtyRuns (s : State) (a : Arch) (h : Canonical s) : Canonical (s.dirtyRuns a) :=
  canonical_withMem h (wf_foldl _ (fun _ _ hm => wf_setByte _ _ hm) _ h.1)

@[simp] theorem canonical_releaseNames (s : State) (a : Arch) : Canonical (s.releaseNames a) ↔ Canonical s := by
  unfold State.releaseNames
  simp

@[simp] theorem canonical_flushCluster (s : State) (cl : Nat) (h : Canonical s) : Canonical (s.flushCluster cl) :=
  canonical_foldl (fun _ _ ht => canonical_foldl (fun u l hu => canonical_mergeLine u none _ l [] hu) _ ht) _
    (canonical_l1Sweep s _ _ _ h)

@[simp] theorem canonical_failTask (s : State) (cl record t code : Nat) (h : Canonical s) : Canonical (s.failTask cl record t code) := by
  have noted (m : FMap BindRec) : Canonical (s.setCluster cl { s.cluster cl with slots := m }) := canonical_updCluster h
  exact canonical_report _ _ _ (canonical_if (canonical_flushCluster _ _ (noted _)) (noted _))

@[simp] theorem canonical_readLog (s : State) (l : Launch) (h : Canonical s) : Canonical (s.readLog l).1 := by
  unfold State.readLog
  dsimp only
  split <;> simp [h]

@[simp] theorem canonical_placeData (s : State) (l : Launch) (h : Canonical s) : Canonical (s.placeData l).1 := by
  unfold State.placeData
  dsimp only
  repeat' split
  all_goals simp [h]

@[simp] theorem canonical_markPreempted (s : State) : Canonical s.markPreempted ↔ Canonical s := by
  unfold State.markPreempted
  simp

@[simp] theorem canonical_completeLaunch (s : State) (seq : Nat) (h : Canonical s) : Canonical (s.completeLaunch seq) := by
  unfold State.completeLaunch
  dsimp only
  split <;> simp [h]

@[simp] theorem canonical_abortContexts (s : State) (f : Nat → Arch → Bool) : Canonical (s.abortContexts f) ↔ Canonical s := by
  unfold State.abortContexts
  simp

@[simp] theorem canonical_abortSaved (s : State) (f : Nat → TaskInfo → Bool) (h : Canonical s) : Canonical (s.abortSaved f) := by
  refine canonical_foldl (fun t a ht => canonical_report _ _ _ ?_) _ ((canonicalParts_mapClusters ?_ ?_).2 h)
  · simp [ht]
  · exact fun _ => rfl
  · exact fun _ => rfl

@[simp] theorem canonical_abortUnstarted (s : State) (f : Nat → TaskInfo → Bool) (h : Canonical s) : Canonical (s.abortUnstarted f) := by
  exact canonical_foldl (fun t b ht => by simp [ht]) _ h

@[simp] theorem canonical_abortUnbound (s : State) (seq node : Nat) (h : Canonical s) : Canonical (s.abortUnbound seq node) := by
  unfold State.abortUnbound
  simp [h]

@[simp] theorem canonical_abortLaunch (s : State) (seq : Nat) (h : Canonical s) : Canonical (s.abortLaunch seq) := by
  have noted (f : Launch → Launch) (p : Update → Bool) :
      Canonical { s.updLaunch seq f with updates := (s.updLaunch seq f).updates.filter p } := h
  have drained (n : Nat) := canonical_drain _ (canonical_foldl (fun t n ht => canonical_abortUnbound t seq n ht) (List.range n)
    (canonical_abortUnstarted _ (fun _ i => i.seq == seq) (canonical_abortSaved _ (fun _ i => i.seq == seq)
      ((canonical_abortContexts _ fun _ a => a.info.seq == seq).2
        (noted (fun l => { l with aborted := true }) fun u => !(u.ordered && u.info.seq == seq && u.status == UpdStatus.waiting))))))
  exact canonical_if (drained _) (canonical_completeLaunch _ _ (drained _))

/-! ### Landing -/

@[simp] theorem canonical_landScalar (s : State) (k reg : Nat) (v : SReg) : Canonical (s.landScalar k reg v) ↔ Canonical s := by
  unfold State.landScalar
  dsimp only
  split <;> exact canonical_setCore_same rfl rfl

@[simp] theorem canonical_dropSb (s : State) (k e : Nat) : Canonical (s.dropSb k e) ↔ Canonical s := by
  unfold State.dropSb
  simp

@[simp] theorem canonical_landIn (s : State) (k e : Nat) (dst : SbDst) (lo hi : SReg) (vec : VReg) :
    Canonical (s.landIn k e dst lo hi vec) ↔ Canonical s := by
  unfold State.landIn
  dsimp only
  split <;> simp

@[simp] theorem canonical_landWord (s : State) (k e : Nat) (dst : SbDst) (w : Word) : Canonical (s.landWord k e dst w) ↔ Canonical s := by
  unfold State.landWord
  simp

@[simp] theorem canonical_arriveWord (s : State) (k e : Nat) (dst : SbDst) (w : Word) :
    Canonical (s.arriveWord k e dst w) ↔ Canonical s := by
  unfold State.arriveWord
  simp

/-! ### Engine commands -/

@[simp] theorem canonical_setCopy (s : State) (core : Nat) (c : Cmd) : Canonical (s.setCopy core c) ↔ Canonical s := by
  unfold State.setCopy
  simp

@[simp] theorem wf_blend {m : Mem} (u mask : Nat) (data : Word) (psn : Bool) (h : m.wf = true) : (m.blend u mask data psn).wf = true :=
  wf_setMark _ _ (wf_putBytes _ _ h)

@[simp] theorem canonical_locReach (s : State) (c : Cmd) (l : Word) (u : Nat) (h : Canonical s) : Canonical (s.locReach c l u).1 := by
  unfold State.locReach
  repeat' split
  all_goals simp [h]

@[simp] theorem canonical_readLoc (s : State) (c : Cmd) (l : Word) (u : Nat) (h : Canonical s) : Canonical (s.readLoc c l u).1 := by
  unfold State.readLoc
  repeat' split
  all_goals simp [h]

@[simp] theorem canonical_writeLoc (s : State) (c : Cmd) (l : Word) (u mask : Nat) (data : Word) (psn : Bool) (h : Canonical s) :
    Canonical (s.writeLoc c l u mask data psn) := by
  obtain ⟨hm, hc, hl⟩ := h
  unfold State.writeLoc
  split
  · exact canonical_setCore ⟨hm, hc, hl⟩ (wf_blend _ _ _ _ (hc _).1) (hc _).2
  · exact canonical_setCluster ⟨hm, hc, hl⟩ (wf_blend _ _ _ _ (hl _))
  · exact canonical_agentSet _ _ _ _ _ _ ((canonical_noteWrite _ _ _ _ _).2 ⟨hm, hc, hl⟩)

@[simp] theorem canonical_landToken (s : State) (c : Cmd) : Canonical (s.landToken c) ↔ Canonical s := by
  unfold State.landToken
  dsimp only
  split <;> simp

@[simp] theorem canonical_cmdSignal (s : State) (c : Cmd) : Canonical (s.cmdSignal c) ↔ Canonical s := by
  unfold State.cmdSignal
  simp

@[simp] theorem canonical_complete (s : State) (c : Cmd) : Canonical (s.complete c) ↔ Canonical s := by
  unfold State.complete
  simp

/-! ### The matrix queue -/

@[simp] theorem canonical_setMatrix (s : State) (core : Nat) (c : Cmd) : Canonical (s.setMatrix core c) ↔ Canonical s := by
  unfold State.setMatrix
  simp

@[simp] theorem canonical_takeRoutine (s : State) (core : Nat) (c : Cmd) : Canonical (s.takeRoutine core c) ↔ Canonical s := by
  unfold State.takeRoutine
  simp

theorem canonical_runRoutine (s : State) (routine core id : Nat) {start advance : State → Cmd → State × Cmd} (h : Canonical s)
    (hs : ∀ t c, Canonical t → Canonical (start t c).1) (ha : ∀ t c, Canonical t → Canonical (advance t c).1) :
    Canonical (s.runRoutine routine core id start advance) := by
  have hb (c : Cmd) : Canonical (start (s.claimBanks c) c).1 := hs _ _ (by simp [h])
  unfold State.runRoutine
  split
  · exact h
  · dsimp only
    split_ifs <;> simp [h, hb, ha]

@[simp] theorem canonical_startWith (bad : Cmd → Bool) (s : State) (c : Cmd) : Canonical (startWith bad s c).1 ↔ Canonical s := by
  unfold startWith
  simp

@[simp] theorem canonical_pull (s : State) (c : Cmd) (l : Word) (k : Nat) (us : List Nat) (h : Canonical s) :
    Canonical (s.pull c l k us).1 := by
  refine List.foldlRecOn (motive := fun r : State × Cmd => Canonical r.1) us _ h fun r hr u _ => ?_
  dsimp only
  split
  · exact hr
  · split <;> simp [hr]

/-- A k-step's row changes the accumulator alone. -/
theorem addRow_keeps {γ : Type} (p : Core → γ) (hp : ∀ (c : Core) (m : FMap AccRow), p { c with acc := m } = p c) (co : Core) (t : Tile)
    (i : Nat) (a : List Fp) (bs : List (List (Option Fp))) (psn : Bool) : p (co.addRow t i a bs psn).1 = p co := by
  unfold Core.addRow
  refine foldl_keeps (fun r : Core × Nat × Bool => p r.1) _ (fun r q => ?_) _ _
  exact hp r.1 _

@[simp] theorem canonical_tileStep (s : State) (c : Cmd) (t : Tile) (k0 k1 : Nat) : Canonical (s.tileStep c t k0 k1).1 ↔ Canonical s := by
  unfold State.tileStep
  dsimp only
  refine canonical_setCore_same ?_ ?_
  · refine foldl_keeps (fun r : Core × Nat × Bool => r.1.spm) _ (fun r i => ?_) _ _
    exact addRow_keeps Core.spm (fun _ _ => rfl) _ _ _ _ _ _
  · refine foldl_keeps (fun r : Core × Nat × Bool => r.1.wb) _ (fun r i => ?_) _ _
    exact addRow_keeps Core.wb (fun _ _ => rfl) _ _ _ _ _ _

@[simp] theorem canonical_tileAdvance (reads : List Nat) (go : Bool) (s : State) (c : Cmd) (h : Canonical s) :
    Canonical (tileAdvance reads go s c).1 := by
  unfold tileAdvance
  dsimp only
  repeat' split
  all_goals simp [h]

@[simp] theorem canonical_exportWrite (r : State × Cmd) (key : Nat) (h : Canonical r.1) : Canonical (exportWrite r key).1 := by
  unfold exportWrite
  dsimp only
  split
  · exact h
  · split
    · exact canonical_locReach _ _ _ _ h
    · exact canonical_writeLoc _ _ _ _ _ _ _ (canonical_locReach _ _ _ _ h)

@[simp] theorem canonical_exportAdvance (units : List Nat) (go : Bool) (s : State) (c : Cmd) (h : Canonical s) :
    Canonical (exportAdvance units go s c).1 := by
  have writes (l : List Nat) (r : State × Cmd) (hr : Canonical r.1) : Canonical (l.foldl exportWrite r).1 :=
    List.foldlRecOn (motive := fun r => Canonical r.1) l _ hr fun r hr key _ => canonical_exportWrite r key hr
  unfold exportAdvance
  dsimp only
  generalize hr : (if go = true then _ else _ : State × Cmd) = r
  have hc : Canonical r.1 := by
    rw [← hr]
    split
    · exact writes _ _ (writes _ _ h)
    · exact writes _ _ h
  split
  · exact hc
  · split
    · exact hc
    · split
      · refine (canonical_setCore_same ?_ ?_).2 hc <;> rfl
      · exact hc

/-- A row of ACC.SCALE changes the accumulator alone. -/
theorem scaleRow_keeps {γ : Type} (p : Core → γ) (hp : ∀ (c : Core) (m : FMap AccRow), p { c with acc := m } = p c) (co : Core) (c : Cmd)
    (i : Nat) (vs : List Fp) (psn : Bool) : p (co.scaleRow c i vs psn).1 = p co := by
  unfold Core.scaleRow
  refine foldl_keeps (fun r : Core × Nat × Bool => p r.1) _ (fun r q => ?_) _ _
  exact hp r.1 _

@[simp] theorem canonical_scaleAdvance (reads : List Nat) (go : Bool) (s : State) (c : Cmd) (h : Canonical s) :
    Canonical (scaleAdvance reads go s c).1 := by
  have pulled (l : List Nat) := canonical_pull s c (spaceLoc 0) 0 l h
  have ready (r : State × Cmd) (hr : Canonical r.1) : Canonical (if go then r.1.pull r.2 (spaceLoc 0) 0 c.scaleUnits else r).1 :=
    canonical_ifFst (canonical_pull _ _ _ _ _ hr) hr
  unfold scaleAdvance
  refine canonical_ifFst (ready _ (pulled _)) (canonical_updCore (ready _ (pulled _)) ?_ ?_)
  · refine foldl_keeps (fun r : Core × Nat × Bool => r.1.spm) _ (fun r i => ?_) _ _
    exact scaleRow_keeps Core.spm (fun _ _ => rfl) _ _ _ _ _
  · refine foldl_keeps (fun r : Core × Nat × Bool => r.1.wb) _ (fun r i => ?_) _ _
    exact scaleRow_keeps Core.wb (fun _ _ => rfl) _ _ _ _ _

@[simp] theorem wf_loadUnits {m : Mem} (off : Nat) (bs : List Byte) (ps : List Bool) (h : m.wf = true) :
    (m.loadUnits off bs ps).wf = true :=
  wf_foldl _ (fun _ _ hm => wf_foldl _ (fun _ _ hk => wf_setMark _ _ hk) _ (wf_putBytes _ _ hm)) _ h

@[simp] theorem canonical_endWbld (s : State) (c : Cmd) (h : Canonical s) : Canonical (s.endWbld c).1 :=
  canonical_setCore h (h.2.1 _).1 (wf_loadUnits _ _ _ (h.2.1 _).2)

@[simp] theorem canonical_coopSignal (s : State) (c : Cmd) : Canonical (s.coopSignal c) ↔ Canonical s := by
  unfold State.coopSignal
  simp

/-! ### CONTRACT -/

@[simp] theorem canonical_contractStart (lag : List (Nat × Nat)) (s : State) (c : Cmd) :
    Canonical (contractStart lag s c).1 ↔ Canonical s := by
  unfold contractStart
  dsimp only
  repeat' split
  all_goals simp

@[simp] theorem canonical_pullOp (s : State) (c : Cmd) (again : Bool) (keys : List Nat) (h : Canonical s) :
    Canonical (s.pullOp c again keys).1 := by
  refine List.foldlRecOn (motive := fun r : State × Cmd => Canonical r.1) keys _ h fun r hr key _ => ?_
  dsimp only
  split
  · exact hr
  · split <;> simp [hr]

@[simp] theorem canonical_closePass (s : State) (c : Cmd) (fs : List WalkFactor) (ts : List Formed) (p : Nat) :
    Canonical (s.closePass c fs ts p).1 ↔ Canonical s := by
  unfold State.closePass Core.putSums
  dsimp only
  split
  · refine canonical_setCore_same ?_ ?_
    · refine foldl_keeps Core.spm _ (fun _ _ => ?_) _ _
      rfl
    · refine foldl_keeps Core.wb _ (fun _ _ => ?_) _ _
      rfl
  · rfl

@[simp] theorem canonical_passStep (s : State) (c : Cmd) (fs : List WalkFactor) (ts : List Formed) (p : Nat) (h : Canonical s) :
    Canonical (s.passStep c fs ts p).1 := by
  unfold State.passStep
  dsimp only
  split <;> simp [h]

@[simp] theorem canonical_passSteps (s : State) (c : Cmd) (fs : List WalkFactor) (ts : List Formed) (p n : Nat) (h : Canonical s) :
    Canonical (s.passSteps c fs ts p n).1 := by
  induction n generalizing s c with
  | zero => exact h
  | succ n ih => exact ih _ _ (canonical_passStep s c fs ts p h)

@[simp] theorem canonical_passOps (s : State) (c : Cmd) (fs : List WalkFactor) (ts : List Formed) (p : Nat) (ops : List Nat) (go : Bool)
    (h : Canonical s) : Canonical (s.passOps c fs ts p ops go).1 := by
  unfold State.passOps
  dsimp only
  generalize hr : List.foldl _ (s, c) ops = r
  have hc : Canonical r.1 := by
    rw [← hr]
    refine List.foldlRecOn (motive := fun r : State × Cmd => Canonical r.1) ops _ h fun r hr o _ => ?_
    split
    · simp [hr]
    · split
      · exact hr
      · split <;> simp [hr]
  split <;> split <;> simp [hc]

@[simp] theorem canonical_writeRep (s : State) (c : Cmd) (f : Formed) (h : Canonical s) : Canonical (s.writeRep c f).1 := by
  unfold State.writeRep
  dsimp only
  split <;> simp [h]

@[simp] theorem canonical_writeReps (s : State) (c : Cmd) (fs : List Formed) (h : Canonical s) : Canonical (s.writeReps c fs).1 := by
  induction fs generalizing s c with
  | nil => exact h
  | cons f r ih => exact ih _ _ (canonical_writeRep s c f h)

@[simp] theorem canonical_readZ (s : State) (c : Cmd) (idx : List Nat) (h : Canonical s) : Canonical (s.readZ c idx).1 := by
  unfold State.readZ
  dsimp only
  split <;> simp [h]

@[simp] theorem canonical_compareZ (s : State) (c : Cmd) (fs : List Formed) (h : Canonical s) : Canonical (s.compareZ c fs).1 := by
  induction fs generalizing s c with
  | nil => exact h
  | cons f r ih =>
    unfold State.compareZ
    split
    · exact ih _ _ h
    · exact ih _ _ (canonical_readZ s c f.idx h)

@[simp] theorem canonical_endBlock (s : State) (c : Cmd) (fs : List WalkFactor) (which : List Nat) (go : Bool) (h : Canonical s) :
    Canonical (s.endBlock c fs which go).1 := by
  have written (l : List Formed) := canonical_writeReps s c l h
  unfold State.endBlock
  refine canonical_ifFst (written _) (canonical_ifFst ?_ (canonical_ifFst ?_ (canonical_updCore ?_)))
  · exact canonical_reachAll _ _ _ (written _)
  · exact canonical_compareZ _ _ _ (canonical_reachAll _ _ _ (written _))
  · exact canonical_compareZ _ _ _ (canonical_reachAll _ _ _ (written _))

@[simp] theorem canonical_contractAdvance (ops : List Nat) (go : Bool) (s : State) (c : Cmd) (h : Canonical s) :
    Canonical (contractAdvance ops go s c).1 := by
  unfold contractAdvance
  dsimp only
  split <;> simp [h]

@[simp] theorem canonical_blockAsk (s : State) (core id : Nat) : Canonical (s.blockAsk core id).1 ↔ Canonical s := by
  unfold State.blockAsk
  repeat' split
  all_goals simp

/-! ### The copy engine -/

@[simp] theorem canonical_sendElem (s : State) (serial fmt v : Nat) (head tail : List Byte) :
    Canonical (s.sendElem serial fmt v head tail) ↔ Canonical s := by
  unfold State.sendElem
  simp

@[simp] theorem canonical_takeElem (s : State) (serial fmt v : Nat) (coded ends : Bool) :
    Canonical (s.takeElem serial fmt v coded ends) ↔ Canonical s := by
  unfold State.takeElem
  simp

@[simp] theorem canonical_planCopy (s : State) (c : Cmd) : Canonical (s.planCopy c).1 ↔ Canonical s := by
  unfold State.planCopy
  dsimp only
  repeat' split
  all_goals simp

@[simp] theorem canonical_copyRead (s : State) (c : Cmd) (u : Nat) (h : Canonical s) : Canonical (s.copyRead c u).1 := by
  unfold State.copyRead
  dsimp only
  repeat' split
  all_goals simp [h]

@[simp] theorem canonical_copyWrite (s : State) (c : Cmd) (u : Nat) (h : Canonical s) : Canonical (s.copyWrite c u).1 := by
  unfold State.copyWrite
  dsimp only
  repeat' split
  all_goals simp [h]

@[simp] theorem canonical_remoteSignal (s : State) (g : Option (Nat × Nat × Nat)) : Canonical (s.remoteSignal g) ↔ Canonical s := by
  unfold State.remoteSignal
  repeat' split
  all_goals simp

@[simp] theorem canonical_objectEnd (s : State) (c : Cmd) (n : Nat) (signal : Bool) : Canonical (s.objectEnd c n signal) ↔ Canonical s := by
  unfold State.objectEnd
  simp

@[simp] theorem canonical_lostPeer (s : State) (c : Cmd) (sent : Nat) : Canonical (s.lostPeer c sent).1 ↔ Canonical s := by
  unfold State.lostPeer
  simp

@[simp] theorem canonical_remoteAnswer (s : State) (c : Cmd) (given : Nat) (done : Cmd) :
    Canonical (s.remoteAnswer c given done).1 ↔ Canonical s := by
  unfold State.remoteAnswer
  dsimp only
  repeat' split
  all_goals simp

@[simp] theorem canonical_copyRest (s : State) (c : Cmd) : Canonical (s.copyRest c).1 ↔ Canonical s := by
  unfold State.copyRest
  repeat' split
  all_goals simp

@[simp] theorem canonical_copyMove (s : State) (c : Cmd) (o : Bool × Nat) (h : Canonical s) : Canonical (s.copyMove c o).1 := by
  unfold State.copyMove
  repeat' split
  all_goals simp [h]

@[simp] theorem canonical_planElem (s : State) (c : Cmd) : Canonical (s.planElem c).1 ↔ Canonical s := by
  unfold State.planElem
  dsimp only
  repeat' split
  all_goals simp

@[simp] theorem canonical_postElem (s : State) (c : Cmd) (n va val : Nat) (psn : Bool) :
    Canonical (s.postElem c n va val psn) ↔ Canonical s := by
  unfold State.postElem
  simp

@[simp] theorem canonical_postRemote (s : State) (sender : Option Nat) (cmd : Option (Nat × Nat)) (ps : List Page) (va fmt sub val : Nat)
    (psn : Bool) : Canonical (s.postRemote sender cmd ps va fmt sub val psn).1 ↔ Canonical s := by
  unfold State.postRemote
  simp

@[simp] theorem canonical_writeElem (s : State) (c : Cmd) (k a : Nat) (bs : List Byte) (psn : Bool) (h : Canonical s) :
    Canonical (s.writeElem c k a bs psn) := by
  exact canonical_foldl (fun t b ht => by simp [ht]) _ h

@[simp] theorem canonical_addInStore (s : State) (c : Cmd) (a val : Nat) (psn : Bool) (h : Canonical s) :
    Canonical (s.addInStore c a val psn).1 := by
  unfold State.addInStore
  dsimp only
  repeat' split
  all_goals simp [h]

@[simp] theorem canonical_elemRead (s : State) (c : Cmd) (key : Nat) (h : Canonical s) : Canonical (s.elemRead c key).1 := by
  unfold State.elemRead
  dsimp only
  repeat' split
  all_goals simp [h]

@[simp] theorem canonical_gathWrite (s : State) (c : Cmd) (u : Nat) (h : Canonical s) : Canonical (s.gathWrite c u).1 := by
  unfold State.gathWrite
  dsimp only
  repeat' split
  all_goals simp [h]

@[simp] theorem canonical_openChunk (s : State) (c : Cmd) : Canonical (s.openChunk c).1 ↔ Canonical s := by
  unfold State.openChunk
  dsimp only
  repeat' split
  all_goals simp

@[simp] theorem canonical_scaeNext (s : State) (c : Cmd) (h : Canonical s) : Canonical (s.scaeNext c).1 := by
  unfold State.scaeNext
  dsimp only
  split <;> simp [h]

@[simp] theorem canonical_chunkRest (s : State) (c : Cmd) : Canonical (s.chunkRest c).1 ↔ Canonical s := by
  unfold State.chunkRest
  dsimp only
  repeat' split
  all_goals simp

@[simp] theorem canonical_credWrite (s : State) (c : Cmd) (n : Nat) (h : Canonical s) : Canonical (s.credWrite c n).1 := by
  unfold State.credWrite
  dsimp only
  repeat' split
  all_goals simp [h]

@[simp] theorem canonical_credRest (s : State) (c : Cmd) : Canonical (s.credRest c).1 ↔ Canonical s := by
  unfold State.credRest
  repeat' split
  all_goals simp

@[simp] theorem canonical_move (s : State) (c : Cmd) (o : Bool × Nat) (h : Canonical s) : Canonical (s.move c o).1 := by
  unfold State.move
  repeat' split
  all_goals simp [h]

@[simp] theorem canonical_rest_ (s : State) (c : Cmd) : Canonical (s.rest_ c).1 ↔ Canonical s := by
  unfold State.rest_
  repeat' split
  all_goals simp

@[simp] theorem canonical_moves (s : State) (c : Cmd) (os : List (Bool × Nat)) (h : Canonical s) : Canonical (s.moves c os).1 := by
  induction os generalizing s c with
  | nil => exact (canonical_rest_ s c).2 h
  | cons o r ih => exact ih _ _ ((canonical_rest_ _ _).2 (canonical_move s c o h))

/-! ### Images -/

@[simp] theorem canonical_writeSealed (s : State) (key asid base : Nat) (bs : List Byte) (h : Canonical s) :
    Canonical (s.writeSealed key asid base bs) :=
  canonical_foldl (fun t _ ht => canonical_agentWrite t _ _ _ _ ht) _
    (canonical_foldl (fun t _ ht => canonical_agentWrite t _ _ _ _ ht) _ h)

@[simp] theorem canonical_loadImage (s : State) (asid base : Nat) (h : Canonical s) : Canonical (s.loadImage asid base).1 := by
  have one (n : Nat) := canonical_agentRead s asid base n h
  have two (n m : Nat) := canonical_agentRead _ asid base m (one n)
  refine canonical_ifFst h (canonical_ifFst h (canonical_ifFst (one _) (canonical_ifFst (one _) ?_)))
  dsimp only
  split
  · exact two _ _
  · exact two _ _
  · simp only [↓canonical_mk, ↓canonicalParts_of]
    exact canonical_writeSealed _ _ _ _ _ (two _ _)

/-! ### Bind records -/

@[simp] theorem canonical_resolveRange (s : State) (a : Arch) (core cl j : Nat) (r : List Byte) (h : Canonical s) :
    Canonical (s.resolveRange a core cl j r).1 := by
  unfold State.resolveRange
  dsimp only
  repeat' split
  all_goals simp [h]

@[simp] theorem canonical_resolveRanges (s : State) (core cl : Nat) (rs : List (Nat × List Byte)) (a : Arch) (h : Canonical s) :
    Canonical (s.resolveRanges core cl rs a).1 := by
  induction rs generalizing s a with
  | nil => exact h
  | cons r rest ih =>
    have hr := canonical_resolveRange s a core cl r.1 r.2 h
    unfold State.resolveRanges
    split
    · next e => exact (canonical_releaseNames _ _).2 (canonical_fst_of_eq hr e)
    · next e => exact ih _ _ (canonical_fst_of_eq hr e)

@[simp] theorem canonical_updRecord (s : State) (cl record : Nat) (f : BindRec → BindRec) :
    Canonical (s.updRecord cl record f) ↔ Canonical s := by
  unfold State.updRecord
  simp

theorem canonical_startTask (s : State) (cl record t : Nat) (h : Canonical s) : Canonical (s.startTask cl record t) := by
  have hn : Canonical { s with nextId := s.nextId + 1 } := h
  refine canonical_if h ?_
  dsimp only
  split
  · next e =>
    have hr := canonical_fst_of_eq (canonical_resolveRanges _ _ _ _ _ hn) e
    exact (canonical_settle _ _).2 ((canonical_setCtx _ _ _).2 ((canonical_updRecord _ _ _ _).2 hr))
  · next e => exact canonical_failTask _ _ _ _ _ (canonical_fst_of_eq (canonical_resolveRanges _ _ _ _ _ hn) e)

@[simp] theorem canonical_zeroCluster (s : State) (cl : Nat) (h : Canonical s) : Canonical (s.zeroCluster cl) :=
  canonical_foldl (fun _ _ ht => canonical_setCore ht rfl rfl) _ (canonical_setCluster ((canonical_spillBanks _ _ _).2 h) rfl)

@[simp] theorem canonical_openCluster (s : State) (cl : Nat) (l : Launch) (nd : Node) (h : Canonical s) :
    Canonical (s.openCluster cl l nd) := by
  unfold State.openCluster
  dsimp only
  split <;> simp [h]

@[simp] theorem canonical_bindTeam (s : State) (cl record seq node team : Nat) (mask : BitVec 64) (h : Canonical s) :
    Canonical (s.bindTeam cl record seq node team mask) := by
  unfold State.bindTeam
  simp [h]

@[simp] theorem canonical_endFlushes (s : State) (k n : Nat) (h : Canonical s) : Canonical (s.endFlushes k n) := by
  induction n generalizing s with
  | zero => exact h
  | succ n ih =>
    unfold State.endFlushes
    split
    · next t ht => exact ih t (canonicalNext_execFlushInvalCompletion h k t ht)
    · exact h

@[simp] theorem canonical_leaveCtx (s : State) (k : Nat) : Canonical (s.leaveCtx k) ↔ Canonical s := by
  unfold State.leaveCtx
  simp

@[simp] theorem canonical_swapOutTeam (s : State) (cl record : Nat) (h : Canonical s) : Canonical (s.swapOutTeam cl record) := by
  have flushed (ks : List Nat) := canonical_foldl (g := fun (s : State) k => s.endFlushes k (s.ctx k).flushes.length)
    (fun t k ht => canonical_endFlushes t k _ ht) ks h
  exact (canonical_foldl_same canonical_leaveCtx _ _).2 (canonical_setCluster (flushed _) ((flushed _).2.2 _))

@[simp] theorem canonical_dropDone (s : State) (cl seq node g : Nat) : Canonical (s.dropDone cl seq node g) ↔ Canonical s := by
  unfold State.dropDone
  simp

@[simp] theorem canonical_placeTask (s : State) (k : Nat) (c : Ctx) : Canonical (s.placeTask k c) ↔ Canonical s := by
  unfold State.placeTask
  simp

@[simp] theorem canonical_bringBanks (s : State) (r : BindRec) (ks : List Nat) : Canonical (s.bringBanks r ks) ↔ Canonical s := by
  unfold State.bringBanks
  simp

@[simp] theorem canonical_swapInTeam (s : State) (cl home : Nat) (x : Nat × Nat × BitVec 64) :
    Canonical (s.swapInTeam cl home x) ↔ Canonical s := by
  unfold State.swapInTeam
  simp

/-! ### The host's commands -/

@[simp] theorem canonical_ended (s : State) (status : Nat) : Canonical (ended s status).1 ↔ Canonical s := by
  unfold ended
  simp

theorem canonical_onEndpoint (s : State) (host : Nat) (msg : List Byte) (op : Nat) (k : List Byte → CmdEnd) (h : Canonical s)
    (hk : ∀ b, Canonical (k b).1) : Canonical (s.onEndpoint host msg op k) := by
  unfold State.onEndpoint
  split
  · exact h
  · refine (canonical_send _ _ _ _).2 ?_
    split
    · exact hk _
    · exact h

theorem canonical_onMemory (s : State) (host : Nat) (msg : List Byte) (op : Nat) (ranges : List (Nat × Nat × Nat)) (k : List Byte → CmdEnd)
    (h : Canonical s) (hk : ∀ b, Canonical (k b).1) : Canonical (s.onMemory host msg op ranges k) := by
  unfold State.onMemory
  split
  · exact canonical_clears _ _ h
  · exact canonical_onEndpoint _ _ _ _ _ h hk

@[simp] theorem canonical_hostLaunch (s : State) (host tag queue va : Nat) (cred : List Byte) (h : Canonical s) :
    Canonical (s.hostLaunch host tag queue va cred).1 := by
  unfold State.hostLaunch
  dsimp only
  repeat' split
  all_goals simp [h]

@[simp] theorem canonical_writeWatch (s : State) (seq node team task reg : Nat) (v : BitVec 128) :
    Canonical (s.writeWatch seq node team task reg v) ↔ Canonical s := by
  unfold State.writeWatch
  simp

@[simp] theorem canonical_clearFrames (s : State) (first n : Nat) (h : Canonical s) : Canonical (s.clearFrames first n) := by
  unfold State.clearFrames
  simp [h]

theorem canonical_mapEntry (s t : State) (asid : Nat) (e : List Byte) (h : Canonical s) (ht : s.mapEntry asid e = some t) :
    Canonical t := by
  have cleared (l : List (Nat × Nat × Leaf)) := canonical_foldl
    (g := fun (s : State) (l : Nat × Nat × Leaf) => s.clearFrames (l.2.2.pa / 65536) (2 ^ (l.2.2.lo - 16)))
    (fun t l ht => canonical_clearFrames t _ _ ht) l h
  unfold State.mapEntry at ht
  dsimp only at ht
  split at ht
  · cases ht
  · split at ht
    · cases ht
    · split at ht
      · cases ht
      · cases ht
        exact canonical_withMem (cleared _) (wf_store _ _ (cleared _).1)

@[simp] theorem canonical_mapEntries (s : State) (asid n : Nat) (es : List (List Byte)) (h : Canonical s) :
    Canonical (s.mapEntries asid n es).1 := by
  induction es generalizing s n with
  | nil => exact h
  | cons e rest ih =>
    unfold State.mapEntries
    split
    · next t ht => exact ih _ _ (canonical_mapEntry s t asid e h ht)
    · exact ih _ _ h

@[simp] theorem canonical_finishAtomics (s : State) (f : Nat × Nat) (h : Canonical s) : Canonical (s.finishAtomics f) := by
  refine canonical_foldl (fun t id ht => ?_) _ (canonical_clearFrames s _ _ h)
  split
  · split <;> simp [ht]
  · exact ht

@[simp] theorem canonical_beforeMap (s : State) (b : List Byte) (h : Canonical s) : Canonical (s.beforeMap b).1 := by
  unfold State.beforeMap
  split
  · dsimp only
    split
    · exact h
    · exact canonical_drain _ (canonical_foldl (fun t f ht => canonical_finishAtomics t f ht) _ h)
  · exact h

/-! ### The fabric -/

@[simp] theorem canonical_loseCommands (s : State) (core : Nat) : Canonical (s.loseCommands core) ↔ Canonical s := by
  unfold State.loseCommands
  simp

@[simp] theorem canonical_loseNames (s : State) (k fuel : Nat) : Canonical (s.loseNames k fuel) ↔ Canonical s := by
  induction fuel generalizing s with
  | zero => rfl
  | succ n ih =>
    unfold State.loseNames
    split
    · rfl
    · split
      · rfl
      · exact (ih _).trans (canonical_arriveWord _ _ _ _ _)

@[simp] theorem canonical_loseHolders (s : State) : Canonical s.loseHolders ↔ Canonical s := by
  unfold State.loseHolders
  simp

@[simp] theorem canonical_losePeers (s : State) : Canonical s.losePeers ↔ Canonical s := by
  unfold State.losePeers
  simp

@[simp] theorem canonical_resetChannel (s : State) (peer : Nat) (out : Bool) : Canonical (s.resetChannel peer out) ↔ Canonical s := by
  unfold State.resetChannel
  simp

/-! ### The Headframe, resets and removals -/

@[simp] theorem canonical_headReply (s : State) (msg : List Byte) (status : Nat) (body : List Byte) :
    Canonical (s.headReply msg status body) ↔ Canonical s := by
  unfold State.headReply
  simp

theorem canonical_onHead (s : State) (msg : List Byte) (op : Nat) (k : List Byte → State) (h : Canonical s)
    (hk : ∀ b, Canonical (k b)) : Canonical (s.onHead msg op k) := by
  unfold State.onHead
  split
  · exact h
  · split
    · simp [h]
    · exact hk _

@[simp] theorem canonical_beginReset (s : State) : Canonical s.beginReset := ⟨rfl, fun _ => ⟨rfl, rfl⟩, fun _ => rfl⟩

@[simp] theorem canonical_eraseAll (s : State) (h : Canonical s) : Canonical s.eraseAll :=
  canonical_withMem h (wf_foldl _ (fun _ _ hm => wf_zeroed _ _ hm) _ h.1)

@[simp] theorem canonical_bringUp (s : State) (overman fireboss : Bool) (failed : List (Nat × Nat)) (h : Canonical s) :
    Canonical (s.bringUp overman fireboss failed) := by
  unfold State.bringUp
  simp [h]

@[simp] theorem canonical_abandonTeam (s : State) (seq node team : Nat) (h : Canonical s) : Canonical (s.abandonTeam seq node team) := by
  exact canonical_foldl (fun t b ht => by simp [ht]) _ h

@[simp] theorem canonical_abandonGroup (s : State) (q : Nat × Nat × Nat) (h : Canonical s) : Canonical (s.abandonGroup q) := by
  exact canonical_foldl (fun t b ht => by simp [ht]) _ h

@[simp] theorem canonical_clusterGone (s : State) (cl : Nat) (h : Canonical s) : Canonical (s.clusterGone cl) :=
  canonical_foldl (fun t q ht => canonical_abandonGroup t q ht) _
    (canonical_abortUnstarted _ _ (canonical_abortSaved _ _ ((canonical_abortContexts _ _).2 h)))

@[simp] theorem canonical_loseUnits (s : State) (h : Canonical s) : Canonical s.loseUnits := by
  have hw := (Mem.wf_iff _).1 h.1
  refine canonical_drain _ ((canonicalParts_mapCores ?_ ?_ ?_).2 ?_)
  · exact fun _ => rfl
  · exact fun _ => rfl
  · exact fun _ => rfl
  · exact canonical_withMem ((canonical_mapCtxs _ _).2 h) ((Mem.wf_iff _).2 ⟨canonical_filter _ hw.1, canonical_filter _ hw.2⟩)

/-! ### The Lode and the streams -/

@[simp] theorem canonical_setLode (s : State) (core : Nat) (c : Cmd) : Canonical (s.setLode core c) ↔ Canonical s := by
  unfold State.setLode
  simp

@[simp] theorem canonical_startGeval (s : State) (c : Cmd) (h : Canonical s) : Canonical (s.startGeval c).1 := by
  unfold State.startGeval
  dsimp only
  repeat' split
  all_goals simp [h]

@[simp] theorem canonical_streamRead (s : State) (k slot off n : Nat) (lag : List (Nat × Nat)) (h : Canonical s) :
    Canonical (s.streamRead k slot off n lag).1 := by
  unfold State.streamRead
  dsimp only
  split <;> simp [h]

@[simp] theorem canonical_streamElem (s : State) (k : Nat) (q : Stream) (lag : List (Nat × Nat)) (at_ i : Nat) (h : Canonical s) :
    Canonical (s.streamElem k q lag at_ i).1 := by
  unfold State.streamElem
  dsimp only
  repeat' split
  all_goals simp [h]

@[simp] theorem canonical_streamFetch (s : State) (k : Nat) (q : Stream) (lag : List (Nat × Nat)) (j : Nat) (h : Canonical s) :
    Canonical (s.streamFetch k q lag j).1 := by
  unfold State.streamFetch
  dsimp only
  repeat' split
  all_goals simp [h]

@[simp] theorem canonical_setStream (s : State) (k n : Nat) (q : Stream) : Canonical (s.setStream k n q) ↔ Canonical s := by
  unfold State.setStream
  simp

@[simp] theorem canonical_streamStep (s : State) (k n : Nat) (lag : List (Nat × Nat)) (j : Option Nat) (h : Canonical s) :
    Canonical (s.streamStep k n lag j) := by
  unfold State.streamStep
  dsimp only
  repeat' split
  all_goals simp [h]

@[simp] theorem canonical_streamSteps (s : State) (k n : Nat) (lag : List (Nat × Nat)) (js : List (Option Nat)) (h : Canonical s) :
    Canonical (s.streamSteps k n lag js) := by
  induction js generalizing s with
  | nil => exact h
  | cons j r ih => exact ih _ (canonical_streamStep s k n lag j h)

/-! ### Between the instructions -/

@[simp] theorem canonical_goOn (s : State) (h : Canonical s) : Canonical s.goOn := by
  unfold State.goOn
  simp [h]

@[simp] theorem canonical_elapse (s : State) : Canonical s.elapse ↔ Canonical s := by
  unfold State.elapse
  simp

end Sys2Proof.Machine
end

section
/-! PROOFS. The outcomes of slots and events leave every memory in its canonical form. -/

namespace Sys2Proof.Machine

theorem wf_markUnits {m : Mem} (us : List Nat) (h : m.wf = true) : (m.markUnits us).wf = true :=
  wf_foldl _ (fun _ _ hm => wf_setMark _ _ hm) us h

theorem canonicalNext_guard {c : Prop} {_ : Decidable c} {s : State} {b : Out} (h : Canonical s) (hb : CanonicalNext b) :
    CanonicalNext (if c then .next s else b) := canonicalNext_ite ((canonicalNext_next s).2 h) hb

theorem canonicalNext_emitted {s : State} (h : Canonical s) (lat : Nat) (d : FlightDst) : CanonicalNext (.next (s.emit lat d)) :=
  (canonicalNext_next _).2 ((canonical_emit s lat d).2 h)

theorem canonicalNext_same {s t : State} (e : Canonical t ↔ Canonical s) (h : Canonical s) : CanonicalNext (.next t) :=
  (canonicalNext_next t).2 (e.2 h)

/-! ### What a slot's checks pass on -/

theorem canonicalSlot_mchkS {s : State} (h : Canonical s) (r : BitVec 6) : CanonicalSlot (mchkS s r) := h
theorem canonicalSlot_mchkV {s : State} (h : Canonical s) (r : BitVec 6) : CanonicalSlot (mchkV s r) := h

theorem canonicalSlot_slotKept {s : State} (h : Canonical s) (slot : Nat) {k : SlotResult} (hk : CanonicalSlot k) :
    CanonicalSlot (slotKept s slot k) := canonicalSlot_if (b := k) h hk

theorem canonicalSlot_addressed {s : State} (h : Canonical s) (r : BitVec 6) {k : SlotResult} (hk : CanonicalSlot k) :
    CanonicalSlot (addressed s r k) := canonicalSlot_if (canonicalSlot_mchkS h r) hk

theorem canonicalSlot_checked (code : Nat) {k : SlotResult} (hk : CanonicalSlot k) : CanonicalSlot (checked code k) :=
  canonicalSlot_if (b := .fatal code) hk trivial

theorem canonicalSlot_tagged {s : State} (h : Canonical s) (cs : List TagCheck) {k : SlotResult} (hk : CanonicalSlot k) :
    CanonicalSlot (tagged s cs k) := by
  unfold tagged
  cases firstBad cs with
  | some c => exact h
  | none => exact hk

theorem canonicalSlot_flagged {s : State} (h : Canonical s) (fl : Nat) {k : State → State} (hk : ∀ t, Canonical t → Canonical (k t)) :
    CanonicalSlot (flagged s fl k) :=
  canonicalSlot_if (a := .trap s _ _) (b := .ok _) h (hk _ ((canonical_setArch _ _).2 h))

theorem canonicalSlot_watching {s : State} (h : Canonical s) (ranges : List (Nat × Nat)) (rd wr : Bool) {k : SlotResult}
    (hk : CanonicalSlot k) : CanonicalSlot (watching s ranges rd wr k) := by
  refine canonicalSlot_if hk ?_
  cases watchFrom s.arch ranges rd wr 4 0 with
  | some info => exact h
  | none => exact hk

theorem canonicalSlot_storing {s : State} (h : Canonical s) (psn : Bool) (reg kind : Nat) {k : State → SlotResult}
    (hk : ∀ t, Canonical t → CanonicalSlot (k t)) : CanonicalSlot (storing s psn reg kind k) :=
  canonicalSlot_if (hk s h) (canonicalSlot_if (a := .trap s _ _) h (hk _ ((canonical_setArch _ _).2 h)))

theorem canonicalSlot_access {s : State} (h : Canonical s) (us : List URef) {now later : State → SlotResult}
    (hn : ∀ t, Canonical t → CanonicalSlot (now t)) (hl : ∀ t, Canonical t → CanonicalSlot (later t)) :
    CanonicalSlot (access s us now later) := by
  have ho := canonical_inOrder s s.cur.ctx h
  have hr := canonical_ready (s.inOrder s.cur.ctx) (s.inOrder s.cur.ctx).cur.ctx (s.inOrder s.cur.ctx).nextId us ho
  exact canonicalSlot_if (hl s h) (canonicalSlot_if (hl _ ho) (canonicalSlot_if (hn _ hr) (hl _ hr)))

theorem canonicalSlot_inPlace {s : State} (h : Canonical s) (us : List URef) {k : State → SlotResult}
    (hk : ∀ t, Canonical t → CanonicalSlot (k t)) : CanonicalSlot (inPlace s us k) := by
  have ho := canonical_inOrder s s.cur.ctx h
  have hr := canonical_ready (s.inOrder s.cur.ctx) (s.inOrder s.cur.ctx).cur.ctx (s.inOrder s.cur.ctx).nextId us ho
  exact canonicalSlot_if (a := .apart _) ho (canonicalSlot_if (b := .apart _) (hk _ hr) hr)

theorem canonicalSlot_loading {s : State} (h : Canonical s) (us : List URef) (va n : Nat) (dst : SbDst) (form : LoadForm) (spec : Bool) :
    CanonicalSlot (loading s us va n dst form spec) :=
  canonicalSlot_access h us
    (fun _ ht => (canonical_emitSb _ _ _).2 ((canonical_loadNow _ _ _ _ _ _ _ _).2 ht))
    (fun _ ht => (canonical_emitSb _ _ _).2 ((canonical_queueLate _ _ _ _ _).2 ht))

theorem canonicalSlot_storingTo {s : State} (h : Canonical s) (ps : List Page) (va : Nat) (bs : List Byte) (psn : Bool) :
    CanonicalSlot (storingTo s ps va bs psn) := by
  unfold storingTo
  exact canonicalSlot_access h _
    (fun _ ht => canonical_writeUnits _ _ _ _ _ _ ((canonical_noteWrite _ _ _ _ _).2 ht))
    (fun _ ht => (canonical_queueLate _ _ _ _ _).2 ((canonical_noteWrite _ _ _ _ _).2 ht))

theorem canonicalSlot_readingNow {s : State} (h : Canonical s) (ps : List Page) (va n : Nat) {k : State → List Byte → Bool → SlotResult}
    (hk : ∀ t bs psn, Canonical t → CanonicalSlot (k t bs psn)) : CanonicalSlot (readingNow s ps va n k) :=
  canonicalSlot_inPlace h _ fun _ ht => hk _ _ _ ((canonical_readUnits _ _ _ _).2 ht)

theorem canonicalSlot_tensor {s : State} (h : Canonical s) (f : LT) (write : Bool) {k : State → TensorAt → SlotResult}
    (hk : ∀ t x, Canonical t → CanonicalSlot (k t x)) : CanonicalSlot (tensor f write s k) :=
  canonicalSlot_if (canonicalSlot_mchkV h _) (canonicalSlot_slotKept h _ (canonicalSlot_tagged h _ (canonicalSlot_checked _
    (canonicalSlot_readingNow h _ _ _ fun _ _ _ ht => canonicalSlot_checked _ (hk _ _ ht)))))

theorem canonicalSlot_scatStores {s : State} (h : Canonical s) (ps : List Page) (w : Nat) (v : VReg) (ts : List (Nat × Nat)) :
    CanonicalSlot (scatStores s ps w v ts) :=
  canonicalSlot_access h _
    (fun _ ht => canonical_scatterAll _ _ _ _ ((canonical_noteScatter _ _ _ _ _).2 ht))
    (fun _ ht => (canonical_queueLate _ _ _ _ _).2 ((canonical_noteScatter _ _ _ _ _).2 ht))

theorem canonicalSlot_quadOf {s : State} (h : Canonical s) {k : List Word → SlotResult} (hk : ∀ q, CanonicalSlot (k q)) (n : Nat)
    (r : BitVec 6) : CanonicalSlot (quadOf s r n k) := by
  induction n generalizing r k with
  | zero => exact hk []
  | succ n ih => exact canonicalSlot_if (canonicalSlot_mchkS h r) (ih (fun q => hk _) (r + 1))

/-! ### The shared operations -/

theorem canonicalNext_vexec {s : State} (h : Canonical s) (f : VV) (lat tag w : Nat) (cs : List TagCheck) (psn : Bool)
    (y : Nat → Option (Nat × Nat)) : CanonicalNext (vexec f lat tag w cs psn y s) :=
  canonical_finish h (canonicalSlot_tagged h _ (canonicalSlot_flagged h _ fun t => (canonical_putV t _ _ _ _ _).2))

theorem canonicalNext_putS {s : State} (h : Canonical s) (d : BitVec 6) (lat : Nat) (r : SReg) : CanonicalNext (.next (s.putS d lat r)) :=
  canonicalNext_same (canonical_putS s d lat r) h

theorem canonicalNext_putV {s : State} (h : Canonical s) (d : BitVec 6) (lat : Nat) (v : Vec) (tag : Nat) (psn : Bool) :
    CanonicalNext (.next (s.putV d lat v tag psn)) := canonicalNext_same (canonical_putV s d lat v tag psn) h

theorem canonicalNext_division {s : State} (h : Canonical s) (signed quot : Bool) (f : SR) : CanonicalNext (division signed quot f s) :=
  canonical_finish h (canonicalSlot_if (a := .ok _) ((canonical_emitSb _ _ _).2 h) (canonicalSlot_if
    (canonicalSlot_if (a := .trap _ _ _) (b := .ok _) h ((canonical_emitSb _ _ _).2 ((canonical_setArch _ _).2 h)))
    ((canonical_emitSb _ _ _).2 h)))

theorem canonicalNext_branch2 {s : State} (h : Canonical s) (cond : Word → Word → Bool) (f : SB) : CanonicalNext (branch2 cond f s) :=
  canonical_finish h (canonicalSlot_if (canonicalSlot_mchkS h _) (canonicalSlot_if (canonicalSlot_mchkS h _)
    (canonicalSlot_if (a := .ok _) (b := .ok s) ((canonical_transfer _ _ _).2 h) h)))

theorem canonicalNext_branch1 {s : State} (h : Canonical s) (cond : Word → Bool) (f : SB) : CanonicalNext (branch1 cond f s) :=
  canonical_finish h (canonicalSlot_if (canonicalSlot_mchkS h _)
    (canonicalSlot_if (a := .ok _) (b := .ok s) ((canonical_transfer _ _ _).2 h) h))

theorem canonicalNext_indirect {s : State} (h : Canonical s) (f : SB) (link : Bool) : CanonicalNext (indirect f link s) :=
  canonical_finish h (canonicalSlot_if (b := .ok _) (canonicalSlot_mchkS h _)
    ((canonical_transfer _ _ _).2 (canonical_if ((canonical_putS _ _ _ _).2 h) h)))

theorem canonicalNext_vshift {s : State} (h : Canonical s) (op : Nat → Nat → Nat → Nat) (f : VV) : CanonicalNext (vshift op f s) :=
  canonicalNext_ite (canonicalNext_vexec h _ _ _ _ _ _ _) (canonicalNext_vexec h _ _ _ _ _ _ _)

theorem canonicalNext_reduction {s : State} (h : Canonical s) (comb : Nat → Nat → Nat × Nat) (empty : Nat) (f : VV) :
    CanonicalNext (reduction comb empty f s) :=
  canonical_finish h (canonicalSlot_tagged h _ (canonicalSlot_flagged h _ fun t => (canonical_putV t _ _ _ _ _).2))

theorem canonicalNext_extLoad {s : State} (h : Canonical s) (f : LM) (n align : Nat) (dst : SbDst) (form : LoadForm) (spec : Bool) :
    CanonicalNext (extLoad f n align dst form spec s) :=
  canonical_finish h (canonicalSlot_addressed h _ (canonicalSlot_slotKept h _ (canonicalSlot_if (a := .ok _)
    ((canonical_emitSb _ _ _).2 ((canonical_countPoison _ _ _).2 h))
    (canonicalSlot_checked _ (canonicalSlot_watching h _ _ _ (canonicalSlot_loading h _ _ _ _ _ _))))))

theorem canonicalNext_extStore {s : State} (h : Canonical s) (f : LM) (bs : List Byte) (align : Nat) (psn : Bool) (kind : Nat) :
    CanonicalNext (extStore f bs align psn kind s) :=
  canonical_finish h (canonicalSlot_addressed h _ (canonicalSlot_slotKept h _ (canonicalSlot_checked _ (canonicalSlot_watching h _ _ _
    (canonicalSlot_storing h _ _ _ fun _ ht => canonicalSlot_storingTo ht _ _ _ _)))))

theorem canonicalNext_scatter {s : State} (h : Canonical s) (f : LM) (tags : List Nat) {k : State → Nat → List (Nat × Nat) → SlotResult}
    (hk : ∀ t w ts, Canonical t → CanonicalSlot (k t w ts)) : CanonicalNext (scatter f tags s k) :=
  canonical_finish h (canonicalSlot_addressed h _ (canonicalSlot_if (canonicalSlot_mchkV h _) (canonicalSlot_slotKept h _
    (canonicalSlot_tagged h _ (canonicalSlot_checked _ (canonicalSlot_watching h _ _ _
      (canonicalSlot_storing h _ _ _ fun _ ht => hk _ _ _ ht)))))))

theorem canonicalNext_named {s : State} (h : Canonical s) (f : LX) {k : BitVec 128 → SlotResult} (hk : ∀ n, CanonicalSlot (k n)) :
    CanonicalNext (named f s k) :=
  canonical_finish h (canonicalSlot_addressed h _ (canonicalSlot_addressed h _ (hk _)))

theorem canonicalNext_flushOp {s : State} (h : Canonical s) (inval : Bool) (f : LX) : CanonicalNext (flushOp inval f s) := by
  refine canonical_finish h (canonicalSlot_addressed h _ (canonicalSlot_addressed h _ (canonicalSlot_if (a := .ok s) h
    (canonicalSlot_slotKept h _ (canonicalSlot_checked _ (canonicalSlot_inPlace h _ fun t ht => ?_))))))
  exact canonicalSlot_if (a := .ok _) (b := .ok _) (canonical_touchLines t _ _ ht) (canonical_touchLines t _ _ ht)

theorem canonicalNext_copyCommand {s : State} (h : Canonical s) (op : Nat) (f : CC) : CanonicalNext (copyCommand op f s) := by
  unfold copyCommand
  refine canonical_finish h (canonicalSlot_quadOf h (fun q => ?_) 4 _)
  exact canonical_updCore ((canonical_setArch _ _).2 ((canonical_posted _ _).2 h))

theorem canonicalNext_atomic {s : State} (h : Canonical s) (op : Rmw) (f : LM) : CanonicalNext (atomic op f s) := by
  unfold atomic
  extract_lets n b d isCas psn va ps us fmt u ord post
  have posts : ∀ t k, Canonical t → (∀ v x, Canonical v → Canonical (k v x)) → CanonicalSlot (post t k) := fun t k ht hk =>
    hk _ _ ((canonical_noteWrite _ _ _ _ _).2 (canonical_bypass _ _ _ ((canonical_postUpdate _ _ _).2 ht)))
  have returns : ∀ t x, Canonical t → Canonical (State.returning t x f.d) := fun t x => canonical_returning t x f.d
  refine canonical_finish h (canonicalSlot_addressed h _ (canonicalSlot_slotKept h _ (canonicalSlot_checked _
    (canonicalSlot_watching h _ _ _ ?_))))
  clear_value post
  refine canonicalSlot_storing h _ _ _ fun t ht => ?_
  refine canonicalSlot_if (posts t _ ht fun _ _ hx => hx) (canonicalSlot_if (posts t _ ht returns) ?_)
  refine canonicalSlot_access ht _ (fun v hv => posts v _ hv returns) (fun v hv => posts v _ hv fun x y hx => ?_)
  simpa only [canonical_mk, canonicalParts_of, canonical_emitSb, canonical_pushLate] using hx

/-! ### Slot instructions -/

theorem canonicalNext_execSts {s : State} (h : Canonical s) (f : LP) : CanonicalNext (execSts f s) :=
  canonical_finish h (canonicalSlot_addressed h _ (canonicalSlot_checked _ (canonicalSlot_storing h _ _ _ fun _ ht =>
    canonicalSlot_inPlace ht _ fun t hu => canonical_setSpm t _ hu (wf_storePsn _ _ _ (hu.2.1 t.myCore).1))))

theorem canonicalNext_execStsv {s : State} (h : Canonical s) (f : LP) : CanonicalNext (execStsv f s) :=
  canonical_finish h (canonicalSlot_addressed h _ (canonicalSlot_checked _ (canonicalSlot_storing h _ _ _ fun _ ht =>
    canonicalSlot_inPlace ht _ fun t hu => canonical_setSpm t _ hu (wf_storePsn _ _ _ (hu.2.1 t.myCore).1))))

theorem canonicalNext_execLds {s : State} (h : Canonical s) (f : LP) : CanonicalNext (execLds f s) :=
  canonical_finish h (canonicalSlot_addressed h _ (canonicalSlot_checked _ (canonicalSlot_inPlace h _ fun _ ht =>
    (canonical_putS _ _ _ _).2 ht)))

theorem canonicalNext_execLdsv {s : State} (h : Canonical s) (f : LP) : CanonicalNext (execLdsv f s) :=
  canonical_finish h (canonicalSlot_addressed h _ (canonicalSlot_checked _ (canonicalSlot_inPlace h _ fun _ ht =>
    (canonical_putV _ _ _ _ _ _).2 ht)))

theorem canonicalNext_execLdt {s : State} (h : Canonical s) (f : LT) : CanonicalNext (execLdt f s) :=
  canonical_finish h (canonicalSlot_tensor h _ _ fun _ _ ht => canonicalSlot_if (a := .ok _) ((canonical_emitSb _ _ _).2 ht)
    (canonicalSlot_watching ht _ _ _ (canonicalSlot_loading ht _ _ _ _ _ _)))

theorem canonicalNext_execStt {s : State} (h : Canonical s) (f : LT) : CanonicalNext (execStt f s) :=
  canonical_finish h (canonicalSlot_tensor h _ _ fun t _ ht => canonicalSlot_if
    (canonicalSlot_if (a := .ok t) ht (canonicalSlot_if (a := .trap t _ _) (b := .ok _) ht ((canonical_setArch _ _).2 ht)))
    (canonicalSlot_watching ht _ _ _ (canonicalSlot_storing ht _ _ _ fun _ hu => canonicalSlot_storingTo hu _ _ _ _)))

theorem canonicalNext_execScat {s : State} (h : Canonical s) (f : LM) : CanonicalNext (execScat f s) := by
  unfold execScat
  exact canonicalNext_scatter h _ _ fun _ _ _ ht => canonicalSlot_scatStores ht _ _ _ _

theorem canonicalNext_execScadd {s : State} (h : Canonical s) (f : LM) : CanonicalNext (execScadd f s) :=
  canonicalNext_scatter h _ _ fun t _ _ ht => canonicalSlot_if (b := .ok _) (canonicalSlot_scatStores ht _ _ _ _)
    (canonical_scaddAll _ _ _ _ _ _ t _ ht)

theorem canonicalNext_execSqset {s : State} (h : Canonical s) (f : LX) : CanonicalNext (execSqset f s) :=
  canonical_finish h (canonicalSlot_addressed h _ (canonicalSlot_addressed h _ ((canonical_setArch _ _).2 h)))

theorem canonicalNext_execNcas {s : State} (h : Canonical s) (f : LX) : CanonicalNext (execNcas f s) := by
  refine canonical_finish h (canonicalSlot_addressed h _ (canonicalSlot_slotKept h _ (canonicalSlot_checked _
    (canonicalSlot_watching h _ _ _ (canonicalSlot_storing h _ _ _ fun t ht => canonicalSlot_access ht _ (fun u hu => ?_)
      (fun u hu => ?_))))))
  · exact (canonical_emitSb _ _ _).2 (canonical_ncasAt _ _ _ _ _ _ _ ((canonical_noteWrite _ _ _ _ _).2 (canonical_bypass _ _ _ hu)))
  · exact (canonical_emitSb _ _ _).2 ((canonical_queueLate _ _ _ _ _).2 ((canonical_noteWrite _ _ _ _ _).2 hu))

theorem canonicalNext_execProbe {s : State} (h : Canonical s) (f : LX) : CanonicalNext (execProbe f s) := by
  refine canonical_finish h (canonicalSlot_addressed h _ (canonicalSlot_addressed h _ (canonicalSlot_if (a := .ok _)
    ((canonical_emitSb _ _ _).2 h) (canonicalSlot_slotKept h _ (canonicalSlot_checked _ ?_)))))
  split
  · exact (canonical_emitSb _ _ _).2 h
  · exact (canonical_setArch _ _).2 h

theorem canonicalNext_execNres {s : State} (h : Canonical s) (f : LX) : CanonicalNext (execNres f s) := by
  refine canonicalNext_named h f fun _ => ?_
  exact (canonical_emitSb _ _ _).2 h

theorem canonicalNext_execNstat {s : State} (h : Canonical s) (f : LX) : CanonicalNext (execNstat f s) := by
  refine canonicalNext_named h f fun _ => ?_
  exact (canonical_emitSb _ _ _).2 ((canonical_askHome _ _ _).2 h)

theorem canonicalNext_execNkill {s : State} (h : Canonical s) (f : LX) : CanonicalNext (execNkill f s) := by
  refine canonicalNext_named h f fun _ => ?_
  exact (canonical_emitSb _ _ _).2 ((canonical_askHome _ _ _).2 h)

theorem canonicalNext_execLoop {s : State} (h : Canonical s) (f : SB) : CanonicalNext (execLoop f s) :=
  canonical_finish h (canonicalSlot_if (b := .ok _) (canonicalSlot_mchkS h _)
    (canonical_if ((canonical_transfer _ _ _).2 ((canonical_putS _ _ _ _).2 h)) ((canonical_putS _ _ _ _).2 h)))

theorem canonicalNext_execSarm {s : State} (h : Canonical s) (f : SS) : CanonicalNext (execSarm f s) :=
  canonical_finish h (canonicalSlot_if (b := .ok _) (canonicalSlot_mchkS h _)
    ((canonical_signal _ _ _ _ _).2 ((canonical_doGets _ _ _ _).2 h)))

theorem canonicalNext_execSset {s : State} (h : Canonical s) (f : SS) : CanonicalNext (execSset f s) :=
  canonical_finish h (canonicalSlot_if (b := .ok _) (canonicalSlot_mchkS h _)
    ((canonical_semChange _ _ _ _ _).2 ((canonical_doGets _ _ _ _).2 h)))

theorem canonicalNext_execEret {s : State} (h : Canonical s) (f : SS) : CanonicalNext (execEret f s) :=
  canonical_finish h (canonicalSlot_if (a := .ok _) (b := .fatal _) ((canonical_setMe _ _).2 h) trivial)

theorem canonicalNext_execCswr {s : State} (h : Canonical s) (f : SS) : CanonicalNext (execCswr f s) :=
  canonical_finish h (canonicalSlot_if (b := .ok _) (canonicalSlot_mchkS h _) ((canonical_setArch _ _).2 h))

theorem canonicalNext_execEnq {s : State} (h : Canonical s) (f : SS) : CanonicalNext (execEnq f s) := by
  unfold execEnq
  extract_lets a slot ps e put_
  have puts : ∀ t rec_ status, Canonical t → Canonical (put_ t rec_ status) := fun t _ _ ht => (canonical_emitSb _ _ _).2 ht
  refine canonical_finish h (canonicalSlot_if (canonicalSlot_mchkS h _) (canonicalSlot_slotKept h _ (canonicalSlot_if (a := .ok _)
    (puts _ _ _ h) (canonicalSlot_if (a := .ok _) (puts _ _ _ h) ?_))))
  exact canonicalSlot_readingNow (canonical_l1Sweep s _ _ _ h) _ _ _ fun _ _ _ ht => puts _ _ _ ht

theorem canonicalNext_execVrndx {s : State} (h : Canonical s) (f : VV) : CanonicalNext (execVrndx f s) :=
  canonical_finish h (canonicalSlot_tagged h _ ((canonical_putV _ _ _ _ _ _).2 ((canonical_putV _ _ _ _ _ _).2 h)))

theorem canonicalNext_execVcmp {s : State} (h : Canonical s) (f : VV) : CanonicalNext (execVcmp f s) :=
  canonical_finish h (canonicalSlot_if (canonicalSlot_mchkV h _) (canonicalSlot_if (canonicalSlot_mchkV h _)
    (canonicalSlot_tagged h _ (canonicalSlot_flagged h _ fun t => (canonical_putP t _ _ _).2))))

theorem canonicalNext_execVsel {s : State} (h : Canonical s) (f : VV) : CanonicalNext (execVsel f s) :=
  canonical_finish h (canonicalSlot_tagged h _ ((canonical_putV _ _ _ _ _ _).2 h))

theorem canonicalNext_execVqnt {s : State} (h : Canonical s) (f : VV) : CanonicalNext (execVqnt f s) :=
  canonical_finish h (canonicalSlot_tagged h _ (canonicalSlot_flagged h _ fun t => (canonical_putV t _ _ _ _ _).2))

theorem canonicalNext_execVins {s : State} (h : Canonical s) (f : VV) : CanonicalNext (execVins f s) :=
  canonical_finish h (canonicalSlot_tagged h _ ((canonical_putV _ _ _ _ _ _).2 h))

theorem canonicalNext_execVext {s : State} (h : Canonical s) (f : VV) : CanonicalNext (execVext f s) :=
  canonical_finish h (canonicalSlot_tagged h _ ((canonical_putS _ _ _ _).2 h))

theorem canonicalNext_execAccrd {s : State} (h : Canonical s) (f : VV) : CanonicalNext (execAccrd f s) :=
  canonicalNext_vexec ((canonical_nameBank s _).2 h) _ _ _ _ _ _ _

theorem canonicalNext_execAccwr {s : State} (h : Canonical s) (f : VV) : CanonicalNext (execAccwr f s) :=
  canonical_finish h (canonicalSlot_tagged h _ ((canonical_emit _ _ _).2 ((canonical_nameBank s _).2 h)))

theorem canonicalNext_execVsq {s : State} (h : Canonical s) (f : VV) : CanonicalNext (execVsq f s) := by
  refine canonicalNext_ite (canonical_finish h h) ?_
  split
  · exact canonicalNext_vexec ((canonical_setArch _ _).2 h) _ _ _ _ _ _ _
  · exact (canonicalNext_next _).2 (canonical_if ((canonical_setAside s).2 h) ((canonical_putV _ _ _ _ _ _).2 h))

theorem canonicalNext_execMpw {s : State} (h : Canonical s) (f : MP) : CanonicalNext (execMpw f s) :=
  canonical_finish h (canonicalSlot_if (b := .ok _) (canonicalSlot_mchkS h _) ((canonical_emit _ _ _).2 h))

theorem canonicalNext_execWbld {s : State} (h : Canonical s) (f : MC) : CanonicalNext (execWbld f s) := by
  refine canonical_finish h (canonicalSlot_quadOf h (fun _ => ?_) 4 _)
  exact (canonical_queueMatrix _ _).2 h

theorem canonicalNext_execAccz {s : State} (h : Canonical s) (f : MC) : CanonicalNext (execAccz f s) := by
  refine canonical_finish h (canonicalSlot_quadOf h (fun _ => ?_) 1 _)
  exact (canonical_queueMatrix _ _).2 h

theorem canonicalNext_execGeval {s : State} (h : Canonical s) (f : MC) : CanonicalNext (execGeval f s) := by
  refine canonical_finish h (canonicalSlot_quadOf h (fun q => ?_) 4 _)
  exact canonical_updCore ((canonical_posted _ _).2 h)

theorem canonicalNext_execMqstat {s : State} (h : Canonical s) (f : MC) : CanonicalNext (execMqstat f s) :=
  (canonicalNext_next _).2 (canonical_updCore ((canonical_posted _ _).2 h))

theorem canonicalNext_execXpose {s : State} (h : Canonical s) (f : CX) : CanonicalNext (execXpose f s) :=
  canonical_finish h (canonicalSlot_tagged h _ (canonical_if ((canonical_putRows _ _ _).2 ((canonical_setArch _ _).2 h))
    ((canonical_setArch _ _).2 h)))

theorem canonicalNext_execXcvt {s : State} (h : Canonical s) (f : CX) : CanonicalNext (execXcvt f s) :=
  canonical_finish h (canonicalSlot_tagged h _ ((canonical_putRows _ _ _).2 h))

theorem canonicalNext_execXexp {s : State} (h : Canonical s) (f : CX) : CanonicalNext (execXexp f s) :=
  canonical_finish h (canonicalSlot_tagged h _ ((canonical_putRows _ _ _).2 h))

/-! ### Between the bundles -/

theorem canonicalNext_execPauseEnd {s : State} (h : Canonical s) (ctx : Nat) : CanonicalNext (execPauseEnd ctx s) := by
  unfold execPauseEnd
  dsimp only
  refine canonicalNext_guard h ?_
  rw [canonicalNext_next, canonical_settle, canonical_setCtx, canonical_landBy]
  exact h

theorem canonicalNext_execLockWindowEnd {s : State} (h : Canonical s) (ctx : Nat) : CanonicalNext (execLockWindowEnd ctx s) := by
  unfold execLockWindowEnd
  exact canonicalNext_guard h ((canonicalNext_next _).2 ((canonical_setCtx _ _ _).2 h))

theorem canonicalNext_execFixedResultLand {s : State} (h : Canonical s) (ctx : Nat) : CanonicalNext (execFixedResultLand ctx s) :=
  (canonicalNext_next _).2 (canonical_if h ((canonical_landDue _ _ _ _).2 h))

theorem canonicalNext_execForcedYield {s : State} (h : Canonical s) (ctx : Nat) : CanonicalNext (execForcedYield ctx s) := by
  unfold execForcedYield
  rw [canonicalNext_next]
  exact canonical_if (canonical_updCore ((canonical_yieldTurn s ctx).2 h)) h

theorem canonicalNext_execYieldTurnEnd {s : State} (h : Canonical s) (ctx : Nat) : CanonicalNext (execYieldTurnEnd ctx s) := by
  unfold execYieldTurnEnd
  dsimp only
  split
  · exact (canonicalNext_next _).2 h
  · exact (canonicalNext_next _).2 (canonical_if ((canonical_setCtx _ _ _).2 h) h)

theorem canonicalNext_execCorrectableErrorFreeze {s : State} (h : Canonical s) (unit : Nat × Nat) :
    CanonicalNext (execCorrectableErrorFreeze unit s) :=
  canonicalNext_ite ((canonicalNext_next _).2 ((canonical_countError _ _ _ _).2 (canonical_updCore h)))
    ((canonicalNext_next _).2 ((canonical_countError _ _ _ _).2 h))

theorem canonicalNext_execFreezeEnd {s : State} (h : Canonical s) (core : Nat) : CanonicalNext (execFreezeEnd core s) :=
  (canonicalNext_next _).2 (canonical_if (canonical_updCore h) h)

theorem canonicalNext_execEngineStarvation {s : State} (h : Canonical s) (core bank : Nat) :
    CanonicalNext (execEngineStarvation core bank s) :=
  (canonicalNext_next _).2 (canonical_if h (canonical_updCore h))

theorem canonicalNext_execLoopBufferError {s : State} (h : Canonical s) (ctx half : Nat) :
    CanonicalNext (execLoopBufferError ctx half s) :=
  canonicalNext_guard h ((canonicalNext_next _).2 ((canonical_settle _ _).2 ((canonical_setCtx _ _ _).2 h)))

theorem canonicalNext_execUncorrectableError {s : State} (h : Canonical s) (kind unit addr : Nat) :
    CanonicalNext (execUncorrectableError kind unit addr s) := by
  unfold execUncorrectableError
  obtain ⟨hm, hc, hl⟩ := id h
  dsimp only
  split <;> rw [canonicalNext_next]
  · exact canonical_setCore h (wf_setMark _ _ (hc unit).1) (hc unit).2
  · exact canonical_if ((canonical_setL1 _ _ _ _).2 h) h
  · exact canonical_updCore h
  · exact canonical_setCore h (hc unit).1 (wf_markUnits _ (hc unit).2)
  · exact canonical_if ((canonical_setCtx _ _ _).2 h) h
  · exact canonical_if ((canonical_setCtx _ _ _).2 h) h
  · exact canonical_if ((canonical_setCtx _ _ _).2 h) h
  · exact canonical_if ((canonical_setCtx _ _ _).2 h) h
  · exact canonical_if ((canonical_setCtx _ _ _).2 h) h
  · exact canonical_setCluster h (wf_markUnits _ (hl unit))
  · exact canonical_withMem h (wf_markUnits _ hm)
  · exact canonical_updCore h
  · exact canonical_withMem h (wf_setMark _ _ hm)
  · exact canonical_updCluster h
  · exact canonical_if ((canonical_countError _ _ _ _).2 h) h

theorem canonicalNext_execSegmentExpansion {s : State} (h : Canonical s) (ctx half : Nat) :
    CanonicalNext (execSegmentExpansion ctx half s) := by
  unfold execSegmentExpansion
  dsimp only
  split
  · split <;> rw [canonicalNext_next]
    · exact (canonical_settle _ _).2 h
    · exact canonical_if ((canonical_fetchFailed _ _ _).2 h) h
    · exact canonical_if ((canonical_fetchFailed _ _ _).2 h) h
  · exact (canonicalNext_next _).2 h

theorem canonicalNext_execTaskRetire {s : State} (h : Canonical s) (ctx : Nat) : CanonicalNext (execTaskRetire ctx s) := by
  unfold execTaskRetire
  dsimp only
  split
  · exact (canonicalNext_next _).2 h
  · have ho := canonical_mergeOwn _ ctx (canonical_inOrder s ctx h)
    refine canonicalNext_ite ((canonicalNext_next _).2 (canonical_if ho h)) (canonicalNext_ite ((canonicalNext_next _).2
      (canonical_clears _ _ ho)) ((canonicalNext_next _).2 ?_))
    refine canonical_report _ _ _ ?_
    have hs :=
        canonical_dirtyRuns _ (((s.inOrder ctx).mergeOwn ctx).ctx ctx).arch
        (canonical_l1Sweep _ (((s.inOrder ctx).mergeOwn ctx).l1Cores ctx) (fun _ => true) false ho)
    refine canonical_if (canonical_flushCluster _ _ (canonical_updCluster ?_)) (canonical_updCluster ?_) <;>
      exact (canonical_releaseNames _ _).2 ((canonical_setCtx _ _ _).2 hs)

theorem canonicalNext_execScoreboardResultLand {s : State} (h : Canonical s) (ctx entry answer pages : Nat) :
    CanonicalNext (execScoreboardResultLand ctx entry answer pages s) := by
  have same := (canonicalNext_next s).2 h
  have word (t : State) (ht : Canonical t) (d : SbDst) (w : Word) : CanonicalNext (.next (t.landWord ctx entry d w)) :=
    (canonicalNext_next _).2 ((canonical_landWord _ _ _ _ _).2 ht)
  have lands (d : SbDst) (lo hi : SReg) (v : VReg) : CanonicalNext (.next (s.landIn ctx entry d lo hi v)) :=
    (canonicalNext_next _).2 ((canonical_landIn _ _ _ _ _ _ _).2 h)
  unfold execScoreboardResultLand
  dsimp only
  split
  · exact same
  · next e _ =>
    refine canonicalNext_guard h ?_
    cases e.what with
    | scalar v => exact lands _ _ _ _
    | vector v => exact lands _ _ _ _
    | pair lo hi psn => exact lands _ _ _ _
    | update id => exact same
    | token a b => exact same
    | late id => exact same
    | sget n upto => exact (canonicalNext_next _).2 (canonical_if h ((canonical_landWord _ _ _ _ _).2 h))
    | probe ps => exact (canonicalNext_next _).2 (canonical_if h ((canonical_landWord _ _ _ _ _).2 ((canonical_setCtx _ _ _).2 h)))
    | nres slot n => exact word _ (canonical_nresLand _ _ _ _ h) _ _
    | nstat n =>
      refine canonicalNext_ite ?_ (word _ ((canonical_nstatLand _ _ _).2 h) _ _)
      cases s.foreignAnswer n answer with
      | some code => exact word s h _ _
      | none => exact same
    | nkill n removed =>
      refine canonicalNext_ite ?_ (canonicalNext_ite ((canonicalNext_next _).2 (canonical_if ((canonical_landWord _ _ _ _ _).2 h) h))
        (canonicalNext_ite (word s h _ _) ((canonicalNext_next _).2 ?_)))
      · cases s.foreignAnswer n answer with
        | some code => exact word s h _ _
        | none => exact same
      · have hk := (canonical_killName s n none).2 h
        exact canonical_if ((canonical_sweepNames _).2 ((canonical_landWord _ _ _ _ _).2 hk)) ((canonical_setCtx _ _ _).2 hk)
    | enq queue record status upto =>
      have hc (rs : List (Nat × Nat × Nat)) := canonical_clears s rs h
      exact canonicalNext_guard h (canonicalNext_ite (word s h _ _) (canonicalNext_ite ((canonicalNext_next _).2 (hc _))
        (word _ (canonical_submit _ _ _ _ _ _ _ h) _ _)))

/-! ### The engines -/

theorem canonicalNext_execMatrixCommandStart {s : State} (h : Canonical s) (core id : Nat) (lag : List (Nat × Nat)) :
    CanonicalNext (execMatrixCommandStart core id lag s) := by
  unfold execMatrixCommandStart
  split
  · exact (canonicalNext_next _).2 h
  · have hs (c : Cmd) : CanonicalNext (.next (s.setMatrix core c)) := (canonicalNext_next _).2 ((canonical_setMatrix _ _ _).2 h)
    refine canonicalNext_guard h (canonicalNext_ite (hs _) (canonicalNext_ite (hs _) (canonicalNext_guard h ?_)))
    split
    · exact hs _
    · exact (canonicalNext_next _).2 ((canonical_setMatrix _ _ _).2 (canonical_setCore h (h.2.1 core).1 rfl))
    · refine canonicalNext_ite (hs _) ((canonicalNext_next _).2 ((canonical_setMatrix _ _ _).2 ?_))
      exact canonical_updCore ((canonical_claimBanks _ _).2 h)

theorem canonicalNext_execMatrixCommandCompletion {s : State} (h : Canonical s) (core id : Nat) (reads : List Nat) (go : Bool) :
    CanonicalNext (execMatrixCommandCompletion core id reads go s) := by
  unfold execMatrixCommandCompletion
  dsimp only
  split
  · exact (canonicalNext_next _).2 h
  · have hp (c : Cmd) (us : List Nat) := canonical_pull s c c.wbLoc 0 us h
    refine canonicalNext_guard h (canonicalNext_ite ((canonicalNext_next _).2 ((canonical_complete _ _).2 ((canonical_coopSignal _ _).2 h)))
      (canonicalNext_guard h ?_))
    have hr (x : State × Cmd) (c : Bool) (l : Word) (us : List Nat) (hx : Canonical x.1) :
        Canonical (if c = true then x.1.pull x.2 l 0 us else x).1 :=
      canonical_ifFst (canonical_pull _ _ _ _ _ hx) hx
    refine canonicalNext_ite ((canonicalNext_next _).2 ((canonical_setMatrix _ _ _).2 ?_))
      ((canonicalNext_next _).2 ((canonical_complete _ _).2 ((canonical_setMatrix _ _ _).2 (canonical_endWbld _ _ ?_))))
    · exact hr _ _ _ _ (hp _ _)
    · exact hr _ _ _ _ (hp _ _)

theorem canonicalNext_execContract {s : State} (h : Canonical s) (core id : Nat) (reads : List (Nat × Nat) × List Nat) (go : Bool) :
    CanonicalNext (execContract core id reads go s) := by
  have hb := (canonical_blockAsk s core id).2 h
  exact (canonicalNext_next _).2 (canonical_if (canonical_runRoutine _ _ _ _ hb (fun t c => (canonical_contractStart _ t c).2)
    (fun t c => canonical_contractAdvance _ _ t c)) hb)

theorem canonicalNext_execEngineCommandStart {s : State} (h : Canonical s) (core id : Nat) (lag : List (Nat × Nat)) :
    CanonicalNext (execEngineCommandStart core id lag s) := by
  unfold execEngineCommandStart
  split
  · exact (canonicalNext_next _).2 h
  · refine canonicalNext_guard h (canonicalNext_ite ((canonicalNext_next _).2 ((canonical_setCopy _ _ _).2 h)) (canonicalNext_guard h
      ((canonicalNext_next _).2 ((canonical_setCopy _ _ _).2 ?_))))
    exact canonical_ifFst ((canonical_planCopy _ _).2 h) ((canonical_planElem _ _).2 h)

theorem canonicalNext_execCopyCommandCompletion {s : State} (h : Canonical s) (core id answer : Nat) (ops : List (Bool × Nat)) :
    CanonicalNext (execCopyCommandCompletion core id answer ops s) := by
  unfold execCopyCommandCompletion
  split
  · exact (canonicalNext_next _).2 h
  · refine canonicalNext_guard h (canonicalNext_ite ((canonicalNext_next _).2 ((canonical_complete _ _).2 h)) ?_)
    have hm (c d : Cmd) := canonical_moves _ (s.remoteAnswer c answer d).2 ops ((canonical_remoteAnswer s c answer d).2 h)
    exact (canonicalNext_next _).2 (canonical_if ((canonical_complete _ _).2 ((canonical_setCopy _ _ _).2 (hm _ _)))
      ((canonical_setCopy _ _ _).2 (hm _ _)))

theorem canonical_lodeWrite (r : State × Cmd) (f : Formed) (h : Canonical r.1) : Canonical (lodeWrite r f).1 := by
  have hg := canonical_locReach r.1 r.2 (r.2.lodeLoc 2) (r.2.formedAt f / 8) h
  exact canonical_ifFst h (canonical_ifFst hg (canonical_writeLoc _ _ _ _ _ _ _ hg))

theorem canonicalNext_execStreamFetch {s : State} (h : Canonical s) (ctx stream count : Nat) (reads : List (Nat × Nat) × List Nat) :
    CanonicalNext (execStreamFetch ctx stream count reads s) :=
  canonicalNext_guard h ((canonicalNext_next _).2 (canonical_streamSteps _ _ _ _ _ h))

/-! ### Updates -/

theorem canonicalNext_execUpdateOnlyMerge {s : State} (h : Canonical s) (core line : Nat) (first : List Nat) :
    CanonicalNext (execUpdateOnlyMerge core line first s) :=
  (canonicalNext_next _).2 ((canonical_releaseAll _).2 (canonical_mergeLine _ _ _ _ _ h))

theorem canonicalNext_execOrderedUpdateArrival {s : State} (h : Canonical s) (id : Nat) :
    CanonicalNext (execOrderedUpdateArrival id s) := by
  unfold execOrderedUpdateArrival
  split
  · exact (canonicalNext_next _).2 h
  · next u _ =>
    have ho := (canonical_openSeq s u).2 h
    exact canonicalNext_guard h ((canonicalNext_next _).2 (canonical_if (canonical_drain _ (canonical_applyFresh _ _ ho))
      ((canonical_holdUpdate _ _).2 ho)))

theorem canonicalNext_execOrderedUpdateResend {s : State} (h : Canonical s) (id : Nat) :
    CanonicalNext (execOrderedUpdateResend id s) := by
  unfold execOrderedUpdateResend
  split
  · exact (canonicalNext_next _).2 h
  · exact (canonicalNext_next _).2 (canonical_if ((canonical_setStatus _ _ _).2 h) h)

theorem canonicalNext_execDeferredUpdateApply {s : State} (h : Canonical s) (id : Nat) :
    CanonicalNext (execDeferredUpdateApply id s) := by
  unfold execDeferredUpdateApply
  split
  · exact (canonicalNext_next _).2 (canonical_lateUpTo _ _ h)
  · exact canonicalNext_ite ((canonicalNext_next _).2 (canonical_if h (canonical_enterLine _ _ h)))
      ((canonicalNext_next _).2 (canonical_if (canonical_drain _ (canonical_applyFresh _ _ h)) (canonical_lateUpTo _ _ h)))

/-! ### Pages, names and other modules -/

theorem canonicalNext_execPageMigration {s : State} (h : Canonical s) (frame target : Nat) :
    CanonicalNext (execPageMigration frame target s) :=
  (canonicalNext_next _).2 (canonical_if ((canonical_releaseAll _).2 (canonical_movePage _ _ _ h)) h)

theorem canonicalNext_execNameShootdown {s : State} (h : Canonical s) (holder : Nat) (name : BitVec 128) :
    CanonicalNext (execNameShootdown holder name s) := by
  refine canonicalNext_ite ((canonicalNext_next _).2 (canonical_if ((canonical_send _ _ _ _).2 h) h)) ?_
  split
  · exact (canonicalNext_next _).2 h
  · refine canonicalNext_guard h ((canonicalNext_next _).2 ((canonical_shotDone _ _).2 ((canonical_updName _ _ _).2 ?_)))
    exact canonical_if (canonical_updCluster h) h

theorem canonicalNext_execRemoteNameResolve {s : State} (h : Canonical s) (serial asid : Nat) (name : BitVec 128) (kind : Nat)
    (place : Nat × Nat × Nat) : CanonicalNext (execRemoteNameResolve serial asid name kind place s) := by
  have answers (t : State) (ht : Canonical t) (k : Nat) (b : List Byte) : CanonicalNext (.next (t.send k serial b)) :=
    (canonicalNext_next _).2 ((canonical_send _ _ _ _).2 ht)
  refine canonicalNext_guard h ?_
  split
  · exact answers _ (canonical_if ((canonical_updName _ _ _).2 h) h) _ _
  · cases s.lookUp false serial asid name with
    | fails c => exact answers s h _ _
    | good e => exact answers s h _ _
  · exact (canonicalNext_next _).2 (canonical_if ((canonical_shotDone _ _).2 ((canonical_killName _ _ _).2 h))
      ((canonical_send _ _ _ _).2 h))

theorem canonicalNext_execRemoteDelivery {s : State} (h : Canonical s) (serial asid : Nat) (name : BitVec 128) (off : Nat)
    (data : List Byte) (poison : List Bool) (signal : Option (Nat × Nat × Nat)) :
    CanonicalNext (execRemoteDelivery serial asid name off data poison signal s) := by
  unfold execRemoteDelivery
  cases s.remoteTarget serial asid name off data.length with
  | none => exact (canonicalNext_next _).2 h
  | some e =>
    have hr := canonical_reachAll s (3, serial) ((unitsOf (e.base + off) data.length).map (unitOn e.pages)) h
    exact (canonicalNext_next _).2 (canonical_if ((canonical_remoteSignal _ _).2 (canonical_runWrite _ _ _ _ _ _ hr)) hr)

theorem canonicalNext_execRemoteCredUpdate {s : State} (h : Canonical s) (serial asid : Nat) (name : BitVec 128) (off : Nat)
    (value : Word) (poison : Bool) (fmt sub : Nat) (last : Bool × Option (Nat × Nat × Nat)) :
    CanonicalNext (execRemoteCredUpdate serial asid name off value poison fmt sub last s) := by
  unfold execRemoteCredUpdate
  cases s.remoteTarget serial asid name off (fmtBytes fmt) with
  | none => exact (canonicalNext_next _).2 h
  | some e =>
    dsimp only
    rw [canonicalNext_next]
    refine canonical_if h (canonical_drain _ ((canonical_remoteSignal _ _).2 (canonical_if ((canonical_holdUpdate _ _).2 ?_)
      (canonical_applyFresh _ _ ?_))))
    all_goals exact (canonical_postRemote _ _ _ _ _ _ _ _ _).2 ((canonical_takeElem _ _ _ _ _ _).2 h)

theorem canonicalNext_execPacketRetransmit {s : State} (h : Canonical s) (peer n : Nat) :
    CanonicalNext (execPacketRetransmit peer n s) := by
  unfold execPacketRetransmit
  cases (s.out.filter (·.fabric peer))[n]? with
  | none => exact (canonicalNext_next _).2 h
  | some m => exact (canonicalNext_next _).2 (canonical_if h h)

theorem canonicalNext_execPeerUnreachable {s : State} (h : Canonical s) (lost : Nat × List Nat) :
    CanonicalNext (execPeerUnreachable lost s) :=
  (canonicalNext_next _).2 ((canonical_losePeers _).2 h)

theorem canonicalNext_execExponentListReset {s : State} (h : Canonical s) (channel : Nat × Bool) :
    CanonicalNext (execExponentListReset channel s) :=
  (canonicalNext_next _).2 (canonical_if ((canonical_resetChannel _ _ _).2 h) h)

theorem canonicalNext_execLinkTraining {s : State} (h : Canonical s) (link peer : Nat) (coded : Bool) :
    CanonicalNext (execLinkTraining link peer coded s) := canonicalNext_ite ((canonicalNext_next _).2 h) ((canonicalNext_next _).2 h)

/-! ### Teams and launches -/

theorem canonicalNext_execBind {s : State} (h : Canonical s) (cluster record seq node team : Nat) (tasks : BitVec 64 × List Nat) :
    CanonicalNext (execBind cluster record seq node team tasks s) := by
  have starts (t : State) (ht : Canonical t) : CanonicalNext (.next (tasks.2.foldl (fun s t => s.startTask cluster record t) t)) :=
    (canonicalNext_next _).2 (canonical_foldl (fun t b => canonical_startTask t cluster record b) _ ht)
  exact canonicalNext_ite (starts s h) (canonicalNext_ite (starts _ (canonical_bindTeam _ _ _ _ _ _ _ h)) ((canonicalNext_next _).2 h))

theorem canonicalNext_execSwapPeriod {s : State} (h : Canonical s) (ended : Nat) : CanonicalNext (execSwapPeriod ended s) := by
  refine canonicalNext_guard h ((canonicalNext_next _).2 ?_)
  simpa using h

theorem canonicalNext_execSwapout {s : State} (h : Canonical s) (cluster record : Nat) : CanonicalNext (execSwapout cluster record s) := by
  refine canonicalNext_ite ((canonicalNext_next _).2 ((canonical_noteTeams _).2 ?_)) ((canonicalNext_next _).2 h)
  have hs := canonical_foldl (fun t j => canonical_swapOutTeam t cluster j) (s.groupRecords cluster record) h
  refine canonical_if (canonical_flushCluster _ _ (canonical_updCluster ?_)) (canonical_updCluster ?_) <;>
    exact (canonical_updNode _ _ _ _).2 ((canonical_dropDone _ _ _ _ _).2 hs)

theorem canonicalNext_execSwapin {s : State} (h : Canonical s) (cluster : Nat) (records : List Nat) (home : Nat) (homeRecords : List Nat)
    (masks : List (BitVec 64)) : CanonicalNext (execSwapin cluster records home homeRecords masks s) := by
  refine canonicalNext_guard h ((canonicalNext_next _).2 (canonical_foldl (fun t x => (canonical_swapInTeam t cluster home x).2) _
    ((canonical_updNode _ _ _ _).2 ?_)))
  have ho := canonical_openCluster s cluster
  refine canonical_if (canonical_flushCluster _ _ (canonical_updCluster ?_)) (canonical_updCluster ?_) <;> exact ho _ _ h

theorem canonicalNext_execBindAbort {s : State} (h : Canonical s) (cluster record : Nat) : CanonicalNext (execBindAbort cluster record s) :=
  canonicalNext_ite ((canonicalNext_next _).2 (canonical_abortUnstarted _ _ (canonical_abortSaved _ _ ((canonical_abortContexts _ _).2
    ((canonical_updRecord _ _ _ _).2 h))))) ((canonicalNext_next _).2 h)

theorem canonicalNext_execLaunchStart {s : State} (h : Canonical s) (seq : Nat) : CanonicalNext (execLaunchStart seq s) := by
  refine canonicalNext_guard h (canonicalNext_ite ((canonicalNext_next _).2 (canonical_clears _ _ h)) ?_)
  have hp := (canonical_updLaunch _ seq fun l => { l with
    started := true, log := (s.readLog (s.theLaunch seq)).2
    dataFail := ((s.readLog (s.theLaunch seq)).1.placeData (s.theLaunch seq)).2 }).2
    (canonical_placeData _ (s.theLaunch seq) (canonical_readLog s (s.theLaunch seq) h))
  dsimp only
  split
  · exact (canonicalNext_next _).2 hp
  · exact (canonicalNext_next _).2 (canonical_foldl (fun t n => canonical_failNode t _ n _ _) _ hp)

theorem canonicalNext_execNodeReady {s : State} (h : Canonical s) (seq node : Nat) : CanonicalNext (execNodeReady seq node s) :=
  canonicalNext_guard h ((canonicalNext_next _).2 ((canonical_markPreempted _).2 ((canonical_updNode _ _ _ _).2 h)))

theorem canonicalNext_execLaunchComplete {s : State} (h : Canonical s) (seq : Nat) : CanonicalNext (execLaunchComplete seq s) :=
  (canonicalNext_next _).2 (canonical_if h (canonical_if (canonical_completeLaunch _ _ h) (canonical_clears _ _ h)))

/-! ### The host's commands -/

theorem canonicalNext_execCaprd {s : State} (h : Canonical s) (host : Nat) (msg : List Byte) : CanonicalNext (execCaprd host msg s) :=
  (canonicalNext_next _).2 (canonical_onEndpoint _ _ _ _ _ h fun _ => canonical_ifFst h h)

theorem canonicalNext_execMemwr {s : State} (h : Canonical s) (host : Nat) (msg : List Byte) : CanonicalNext (execMemwr host msg s) :=
  (canonicalNext_next _).2
    (canonical_onMemory _ _ _ _ _ _ h fun _ => canonical_ifFst h (canonical_ifFst h (canonical_agentWrite _ _ _ _ _ h)))

theorem canonicalNext_execMemrd {s : State} (h : Canonical s) (host : Nat) (msg : List Byte) : CanonicalNext (execMemrd host msg s) :=
  (canonicalNext_next _).2 (canonical_onMemory _ _ _ _ _ _ h fun _ => canonical_ifFst h (canonical_ifFst h (canonical_agentRead _ _ _ _ h)))

theorem canonicalNext_execImgld {s : State} (h : Canonical s) (host : Nat) (msg : List Byte) : CanonicalNext (execImgld host msg s) :=
  canonicalNext_ite ((canonicalNext_next _).2 (canonical_clears _ _ h)) (canonicalNext_guard h ((canonicalNext_next _).2
    (canonical_onEndpoint _ _ _ _ _ h fun _ => canonical_ifFst (canonical_loadImage _ _ _ h) h)))

theorem canonicalNext_execImgul {s : State} (h : Canonical s) (host : Nat) (msg : List Byte) : CanonicalNext (execImgul host msg s) :=
  (canonicalNext_next _).2 (canonical_onEndpoint _ _ _ _ _ h fun _ =>
    canonical_ifFst h (canonical_ifFst h (canonical_ifFst h h)))

theorem canonicalNext_execLibld {s : State} (h : Canonical s) (host : Nat) (msg : List Byte) (version : Option Nat) :
    CanonicalNext (execLibld host msg version s) := by
  refine (canonicalNext_next _).2 (canonical_onEndpoint _ _ _ _ _ h fun _ => canonical_ifFst h (canonical_ifFst h ?_))
  cases version <;> exact h

theorem canonicalNext_execQset {s : State} (h : Canonical s) (host : Nat) (msg : List Byte) : CanonicalNext (execQset host msg s) :=
  (canonicalNext_next _).2 (canonical_onEndpoint _ _ _ _ _ h fun _ => canonical_ifFst h h)

theorem canonicalNext_execLaunch {s : State} (h : Canonical s) (host : Nat) (msg : List Byte) : CanonicalNext (execLaunch host msg s) :=
  (canonicalNext_next _).2 (canonical_onMemory _ _ _ _ _ _ h fun _ => canonical_ifFst h (canonical_hostLaunch _ _ _ _ _ _ h))

theorem canonicalNext_execAbort {s : State} (h : Canonical s) (host : Nat) (msg : List Byte) : CanonicalNext (execAbort host msg s) :=
  canonicalNext_ite ((canonicalNext_next _).2 (canonical_clears _ _ h)) (canonicalNext_ite
    ((canonicalNext_next _).2 ((canonical_updLaunch _ _ _).2 (canonical_abortLaunch _ _ h)))
    ((canonicalNext_next _).2 (canonical_onEndpoint _ _ _ _ _ h fun _ =>
      canonical_ifFst h (canonical_ifFst h (canonical_abortLaunch _ _ h)))))

theorem canonicalNext_execWatch {s : State} (h : Canonical s) (host : Nat) (msg : List Byte) : CanonicalNext (execWatch host msg s) :=
  (canonicalNext_next _).2 (canonical_onEndpoint _ _ _ _ _ h fun _ => canonical_ifFst h ((canonical_writeWatch _ _ _ _ _ _ _).2 h))

theorem canonicalNext_execMapupd {s : State} (h : Canonical s) (host : Nat) (msg : List Byte) : CanonicalNext (execMapupd host msg s) := by
  have hb := canonical_beforeMap s (msg.drop 32) h
  refine canonicalNext_ite ((canonicalNext_next _).2 hb) ((canonicalNext_next _).2 (canonical_onEndpoint _ _ _ _ _ (canonical_if hb h)
    fun b => ?_))
  dsimp only
  cases mapBody b with
  | none => exact hb
  | some es => exact canonical_mapEntries _ _ _ _ hb

theorem canonicalNext_execAsset {s : State} (h : Canonical s) (host : Nat) (msg : List Byte) : CanonicalNext (execAsset host msg s) :=
  (canonicalNext_next _).2 (canonical_onEndpoint _ _ _ _ _ h fun _ => canonical_ifFst h h)

theorem canonicalNext_execObjnew {s : State} (h : Canonical s) (host : Nat) (msg : List Byte) (base : Nat) :
    CanonicalNext (execObjnew host msg base s) :=
  canonicalNext_guard h ((canonicalNext_next _).2 (canonical_onEndpoint _ _ _ _ _ h fun _ => canonical_ifFst h (canonical_ifFst h h)))

theorem canonicalNext_execEndpointUnlistedOp {s : State} (h : Canonical s) (host : Nat) (msg : List Byte) :
    CanonicalNext (execEndpointUnlistedOp host msg s) :=
  (canonicalNext_next _).2 (canonical_if h (canonical_onEndpoint _ _ _ _ _ h fun _ => h))

/-! ### The Headframe -/

theorem canonicalNext_execStatus {s : State} (h : Canonical s) (msg : List Byte) : CanonicalNext (execStatus msg s) := by
  have answers (b : List Byte) :
      Canonical (if b.length = 32 then s.headReply msg stOk (s.statusBody b) else s.headReply msg stBadparam []) :=
    canonical_if ((canonical_headReply _ _ _ _).2 h) ((canonical_headReply _ _ _ _).2 h)
  exact (canonicalNext_next _).2 (canonical_if (canonical_if (answers _) h) (canonical_onHead _ _ _ _ h answers))

theorem canonicalNext_execPcap {s : State} (h : Canonical s) (msg : List Byte) : CanonicalNext (execPcap msg s) :=
  (canonicalNext_next _).2 (canonical_onHead _ _ _ _ h fun _ => canonical_if ((canonical_headReply _ _ _ _).2 h)
    ((canonical_headReply _ _ _ _).2 h))

theorem canonicalNext_execReset {s : State} (h : Canonical s) (msg : List Byte) : CanonicalNext (execReset msg s) :=
  (canonicalNext_next _).2 (canonical_onHead _ _ _ _ h fun _ => canonical_if ((canonical_headReply _ _ _ _).2 h)
    (canonical_beginReset _))

theorem canonicalNext_execFwupd {s : State} (h : Canonical s) (msg : List Byte) : CanonicalNext (execFwupd msg s) :=
  (canonicalNext_next _).2 (canonical_onHead _ _ _ _ h fun _ => canonical_if ((canonical_headReply _ _ _ _).2 h)
    ((canonical_headReply _ _ _ _).2 h))

theorem canonicalNext_execZeroise {s : State} (h : Canonical s) (msg : List Byte) : CanonicalNext (execZeroise msg s) :=
  (canonicalNext_next _).2 (canonical_onHead _ _ _ _ h fun _ => canonical_if ((canonical_headReply _ _ _ _).2 h)
    (canonical_beginReset (s.headReply msg stOk [])))

theorem canonicalNext_execModuleReset {s : State} (h : Canonical s) (overman fireboss : Bool) (failed : List (Nat × Nat)) :
    CanonicalNext (execModuleReset overman fireboss failed s) :=
  (canonicalNext_next _).2 (canonical_if h (canonical_bringUp _ _ _ _ (canonical_if h (canonical_beginReset s))))

theorem canonicalNext_execSensorSample {s : State} (h : Canonical s) (rail clk tj inlet power : Nat) (broken : Bool) :
    CanonicalNext (execSensorSample rail clk tj inlet power broken s) :=
  (canonicalNext_next _).2 (canonical_if (canonical_eraseAll _ h) (canonical_if h h))

theorem canonicalNext_execUnitRemoval {s : State} (h : Canonical s) (kind unit : Nat) : CanonicalNext (execUnitRemoval kind unit s) :=
  canonicalNext_guard h (canonicalNext_ite ((canonicalNext_next _).2 (canonical_clusterGone _ _ h)) (canonicalNext_ite
    ((canonicalNext_next _).2 ((canonical_losePeers _).2 h)) ((canonicalNext_next _).2 (canonical_loseUnits _ (canonical_abortSaved _ _
      ((canonical_abortContexts _ _).2 h))))))

theorem canonicalNext_execHeadframeUnlistedOp {s : State} (h : Canonical s) (msg : List Byte) :
    CanonicalNext (execHeadframeUnlistedOp msg s) :=
  (canonicalNext_next _).2 (canonical_if h (canonical_onHead _ _ _ _ h fun _ => (canonical_headReply _ _ _ _).2 h))

theorem canonicalNext_execLodeEvaluation {s : State} (h : Canonical s) (core id : Nat) (lag : List (Nat × Nat)) (reads writes : List Nat)
    (go : Bool) : CanonicalNext (execLodeEvaluation core id lag reads writes go s) := by
  have set_ (t : State) (ht : Canonical t) (c : Cmd) : CanonicalNext (.next (t.setLode core c)) :=
    (canonicalNext_next _).2 ((canonical_setLode _ _ _).2 ht)
  unfold execLodeEvaluation
  split
  · exact (canonicalNext_next _).2 h
  · next c _ =>
    refine canonicalNext_guard h (canonicalNext_ite (canonicalNext_guard h (canonicalNext_guard h (canonicalNext_ite (set_ s h _)
      (set_ _ (canonical_startGeval _ _ h) _)))) (set_ _ ?_ _))
    refine List.foldlRecOn (motive := fun r : State × Cmd => Canonical r.1) _ lodeWrite ?_ fun r hr f _ => canonical_lodeWrite r f hr
    have hp := canonical_pull s c (c.lodeLoc c.lodeNeeds.1) c.lodeNeeds.1 (reads.filter c.lodeNeeds.2.contains) h
    exact canonical_ifFst (canonical_ifFst (canonical_pull _ _ _ _ _ hp) hp) (canonical_ifFst (canonical_pull _ _ _ _ _ hp) hp)

end Sys2Proof.Machine
end

section
/-! PROOFS. Every step keeps the memories' canonical form. -/

namespace Sys2Proof.Machine

/-! ### Every instruction, and every step -/

theorem canonicalNext_exec {s : State} (h : Canonical s) (i : Instr) : CanonicalNext (exec i s) :=
  match i with
  -- one register, or one field of the context
  | .add _ | .sub _ | .mul _ | .mulhs _ | .mulhn _ | .and _ | .or _ | .xor _ | .andn _ | .shl _ | .shr _ | .sar _ | .rotl _
  | .mins _ | .maxs _ | .minn _ | .maxn _ | .seq _ | .sne _ | .slt _ | .sle _ | .sltn _ | .slen _ | .mov _ | .addi _
  | .muli _ | .andi _ | .ori _ | .xori _ | .lih _ | .shli _ | .shri _ | .sari _ | .rotli _ | .clz _ | .ctz _ | .popc _
  | .bswap _ | .bfx _ | .sext _ | .zext _ | .li _ | .bfi _ | .sel _ | .pclr _ | .csrd _ | .time _ | .pend _ | .vpcnt _
  | .vpfirst _ | .vgtag _ | .mpr _ => canonicalNext_putS h _ _ _
  | .vtag _ | .xrd _ => canonicalNext_putV h _ _ _ _ _
  | .rndx _ => canonicalNext_putS ((canonical_putS _ _ _ _).2 h) _ _ _
  | .vpand _ | .vpor _ | .vpxor _ | .vpnot _ => canonicalNext_same (canonical_putP s _ _ _) h
  | .jmp _ => canonicalNext_same (canonical_transfer s _ _) h
  | .call _ => canonicalNext_same (canonical_transfer _ _ _) ((canonical_putS _ _ _ _).2 h)
  | .chk _ => (canonicalNext_next _).2 (canonical_if ((canonical_transfer _ _ _).2 h) h)
  | .sget _ => canonicalNext_same (canonical_emitSb _ _ _) h
  | .yield _ => canonicalNext_same (canonical_yieldTurn s _) h
  | .exit _ | .sqclr _ => canonicalNext_same (canonical_setArch s _) h
  | .nop | .clockThrottle => (canonicalNext_next _).2 h
  | .trap _ => canonical_finish (r := .trap s _ _) h h
  | .mcall _ | .wbclr _ => canonicalNext_same (canonical_queueMatrix s _) h
  -- a shared operation
  | .divs _ | .divn _ | .rems _ | .remn _ => canonicalNext_division h _ _ _
  | .beq _ | .bne _ | .blt _ | .bltn _ => canonicalNext_branch2 h _ _
  | .bge f => canonicalNext_branch2 h (fun a b => !a.slt b) f
  | .bgen f => canonicalNext_branch2 h (fun a b => !a.ult b) f
  | .bz f => canonicalNext_branch1 h (fun a => a == 0) f
  | .bnz f => canonicalNext_branch1 h (fun a => a != 0) f
  | .jmpi _ | .calli _ | .ret _ => canonicalNext_indirect h _ _
  | .vadd _ | .vsub _ | .vmul _ | .vdiv _ | .vfma _ | .vfms _ | .vfnma _ | .vmin _ | .vmax _ | .vminp _ | .vmaxp _ | .viadd _
  | .visub _ | .vimul _ | .vimin _ | .vimax _ | .vabs _ | .vneg _ | .vsqrt _ | .vrcp _ | .vrsq _ | .vexp2 _ | .vlog2 _
  | .vand _ | .vor _ | .vxor _ | .vimad _ | .vcvt _ | .vdqnt _ | .vscan _ | .vbcast _ | .vidx _ | .vperm _ | .vslide _
  | .vmov _ | .vzip _ | .vunzip _ => canonicalNext_vexec h _ _ _ _ _ _ _
  | .vshl _ | .vshr _ | .vsar _ => canonicalNext_vshift h _ _
  | .vreda _ | .vredm _ => canonicalNext_reduction h _ _ _
  | .ldm _ | .ldmv _ | .ldms _ | .ldmvs _ => canonicalNext_extLoad h _ _ _ _ _ _
  | .stm _ | .stmv _ => canonicalNext_extStore h _ _ _ _ _
  | .scat _ => canonicalNext_execScat h _
  | .fence _ => canonical_finish h (canonicalSlot_inPlace h _ fun _ ht => ht)
  | .flush _ | .inval _ => canonicalNext_flushOp h _ _
  | .nres _ => canonicalNext_execNres h _
  | .nstat _ => canonicalNext_execNstat h _
  | .nkill _ => canonicalNext_execNkill h _
  | .aadd _ | .afadd _ | .amins _ | .amaxs _ | .aminn _ | .amaxn _ | .afmin _ | .afmax _ | .afminp _ | .afmaxp _ | .aand _
  | .aor _ | .axor _ | .axchg _ | .acas _ => canonicalNext_atomic h _ _
  | .cpy _ | .cpyr _ | .cpytConvert _ | .cpytTranspose _ | .cpytExpand _ | .cpytCompress _ | .gath _ | .scae _ | .cred _ =>
    canonicalNext_copyCommand h _ _
  -- the module's events
  | .bundleIssue _ _ => (canonicalNext_next _).2 (canonical_attempt _ _ _ (canonical_cacheAll _ _ h))
  | .waitSatisfied _ => canonicalNext_same (canonical_testWait s _) h
  | .flushInvalCompletion _ => canonicalNext_execFlushInvalCompletion h _
  | .mma _ _ _ _ | .mmaNm _ _ _ _ | .mmaNmt _ _ _ _ | .mmaCoop _ _ _ _ => (canonicalNext_next _).2
    (canonical_runRoutine _ _ _ _ h (fun t c => (canonical_startWith _ t c).2) fun t c => canonical_tileAdvance _ _ t c)
  | .accExport _ _ _ _ => (canonicalNext_next _).2
    (canonical_runRoutine _ _ _ _ h (fun t c => (canonical_startWith _ t c).2) fun t c => canonical_exportAdvance _ _ t c)
  | .accScale _ _ _ _ => (canonicalNext_next _).2
    (canonical_runRoutine _ _ _ _ h (fun t c => (canonical_startWith _ t c).2) fun t c => canonical_scaleAdvance _ _ t c)
  -- each by its own lemma
  | .pauseEnd _ => canonicalNext_execPauseEnd h _
  | .lockWindowEnd _ => canonicalNext_execLockWindowEnd h _
  | .fixedResultLand _ => canonicalNext_execFixedResultLand h _
  | .scoreboardResultLand _ _ _ _ => canonicalNext_execScoreboardResultLand h _ _ _ _
  | .segmentExpansion _ _ => canonicalNext_execSegmentExpansion h _ _
  | .loopBufferError _ _ => canonicalNext_execLoopBufferError h _ _
  | .taskRetire _ => canonicalNext_execTaskRetire h _
  | .correctableErrorFreeze _ => canonicalNext_execCorrectableErrorFreeze h _
  | .freezeEnd _ => canonicalNext_execFreezeEnd h _
  | .uncorrectableError _ _ _ => canonicalNext_execUncorrectableError h _ _ _
  | .engineStarvation _ _ => canonicalNext_execEngineStarvation h _ _
  | .forcedYield _ => canonicalNext_execForcedYield h _
  | .yieldTurnEnd _ => canonicalNext_execYieldTurnEnd h _
  | .loop _ => canonicalNext_execLoop h _
  | .sarm _ => canonicalNext_execSarm h _
  | .sset _ => canonicalNext_execSset h _
  | .eret f => canonicalNext_execEret h f
  | .cswr _ => canonicalNext_execCswr h _
  | .enq _ => canonicalNext_execEnq h _
  | .vrndx _ => canonicalNext_execVrndx h _
  | .vcmp _ => canonicalNext_execVcmp h _
  | .vsel _ => canonicalNext_execVsel h _
  | .vqnt _ => canonicalNext_execVqnt h _
  | .vins _ => canonicalNext_execVins h _
  | .vext _ => canonicalNext_execVext h _
  | .accrd _ => canonicalNext_execAccrd h _
  | .accwr _ => canonicalNext_execAccwr h _
  | .vsq _ => canonicalNext_execVsq h _
  | .mpw _ => canonicalNext_execMpw h _
  | .wbld _ => canonicalNext_execWbld h _
  | .accz _ => canonicalNext_execAccz h _
  | .geval _ => canonicalNext_execGeval h _
  | .mqstat _ => canonicalNext_execMqstat h _
  | .lds _ => canonicalNext_execLds h _
  | .ldsv _ => canonicalNext_execLdsv h _
  | .sts _ => canonicalNext_execSts h _
  | .stsv _ => canonicalNext_execStsv h _
  | .ldt _ => canonicalNext_execLdt h _
  | .stt _ => canonicalNext_execStt h _
  | .probe _ => canonicalNext_execProbe h _
  | .sqset _ => canonicalNext_execSqset h _
  | .ncas _ => canonicalNext_execNcas h _
  | .scadd _ => canonicalNext_execScadd h _
  | .xpose _ => canonicalNext_execXpose h _
  | .xcvt _ => canonicalNext_execXcvt h _
  | .xexp _ => canonicalNext_execXexp h _
  | .engineCommandStart _ _ _ => canonicalNext_execEngineCommandStart h _ _ _
  | .copyCommandCompletion _ _ _ _ => canonicalNext_execCopyCommandCompletion h _ _ _ _
  | .contract _ _ _ _ => canonicalNext_execContract h _ _ _ _
  | .matrixCommandStart _ _ _ => canonicalNext_execMatrixCommandStart h _ _ _
  | .matrixCommandCompletion _ _ _ _ => canonicalNext_execMatrixCommandCompletion h _ _ _ _
  | .lodeEvaluation _ _ _ _ _ _ => canonicalNext_execLodeEvaluation h _ _ _ _ _ _
  | .streamFetch _ _ _ _ => canonicalNext_execStreamFetch h _ _ _ _
  | .deferredUpdateApply _ => canonicalNext_execDeferredUpdateApply h _
  | .updateOnlyMerge _ _ _ => canonicalNext_execUpdateOnlyMerge h _ _ _
  | .orderedUpdateArrival _ => canonicalNext_execOrderedUpdateArrival h _
  | .orderedUpdateResend _ => canonicalNext_execOrderedUpdateResend h _
  | .pageMigration _ _ => canonicalNext_execPageMigration h _ _
  | .nameShootdown _ _ => canonicalNext_execNameShootdown h _ _
  | .remoteNameResolve _ _ _ _ _ => canonicalNext_execRemoteNameResolve h _ _ _ _ _
  | .remoteDelivery _ _ _ _ _ _ _ => canonicalNext_execRemoteDelivery h _ _ _ _ _ _ _
  | .remoteCredUpdate _ _ _ _ _ _ _ _ _ => canonicalNext_execRemoteCredUpdate h _ _ _ _ _ _ _ _ _
  | .packetRetransmit _ _ => canonicalNext_execPacketRetransmit h _ _
  | .peerUnreachable _ => canonicalNext_execPeerUnreachable h _
  | .exponentListReset _ => canonicalNext_execExponentListReset h _
  | .swapPeriod _ => canonicalNext_execSwapPeriod h _
  | .bind _ _ _ _ _ _ => canonicalNext_execBind h _ _ _ _ _ _
  | .swapout _ _ => canonicalNext_execSwapout h _ _
  | .swapin _ _ _ _ _ => canonicalNext_execSwapin h _ _ _ _ _
  | .bindAbort _ _ => canonicalNext_execBindAbort h _ _
  | .launchStart _ => canonicalNext_execLaunchStart h _
  | .nodeReady _ _ => canonicalNext_execNodeReady h _ _
  | .launchComplete _ => canonicalNext_execLaunchComplete h _
  | .caprd _ _ => canonicalNext_execCaprd h _ _
  | .memwr _ _ => canonicalNext_execMemwr h _ _
  | .memrd _ _ => canonicalNext_execMemrd h _ _
  | .imgld _ _ => canonicalNext_execImgld h _ _
  | .imgul _ _ => canonicalNext_execImgul h _ _
  | .libld _ _ _ => canonicalNext_execLibld h _ _ _
  | .qset _ _ => canonicalNext_execQset h _ _
  | .launch _ _ => canonicalNext_execLaunch h _ _
  | .abort _ _ => canonicalNext_execAbort h _ _
  | .watch _ _ => canonicalNext_execWatch h _ _
  | .mapupd _ _ => canonicalNext_execMapupd h _ _
  | .objnew _ _ _ => canonicalNext_execObjnew h _ _ _
  | .asset _ _ => canonicalNext_execAsset h _ _
  | .status _ => canonicalNext_execStatus h _
  | .pcap _ => canonicalNext_execPcap h _
  | .reset _ => canonicalNext_execReset h _
  | .fwupd _ => canonicalNext_execFwupd h _
  | .zeroise _ => canonicalNext_execZeroise h _
  | .moduleReset _ _ _ => canonicalNext_execModuleReset h _ _ _
  | .sensorSample _ _ _ _ _ _ => canonicalNext_execSensorSample h _ _ _ _ _ _
  | .unitRemoval _ _ => canonicalNext_execUnitRemoval h _ _
  | .linkTraining _ _ _ => canonicalNext_execLinkTraining h _ _ _
  | .endpointUnlistedOp _ _ => canonicalNext_execEndpointUnlistedOp h _ _
  | .headframeUnlistedOp _ => canonicalNext_execHeadframeUnlistedOp h _

theorem canonicalNext_andThen {f : State → State} (hf : ∀ t, Canonical t → Canonical (f t)) {o : Out} (h : CanonicalNext o) :
    CanonicalNext (andThen f o) := by
  cases o with
  | next t => exact (canonicalNext_next _).2 (hf t (h t rfl))
  | fault r => exact fun _ e => nomatch e
  | refused r => exact fun _ e => nomatch e

theorem canonicalNext_step {s : State} (h : Canonical s) : CanonicalNext (step s) := by
  have closes (t : State) (s0 : State) (ht : Canonical t) : Canonical (t.endLocks s0).elapse :=
    (canonical_elapse _).2 ((canonical_endLocks _ _).2 ht)
  cases ho : s.cur.open_ with
  | true =>
    cases hd : s.fetched with
    | some i =>
      rw [step_open ho hd]
      exact canonicalNext_andThen (fun t ht => closes _ s (canonical_afterSlot t ht)) (canonicalNext_exec h i)
    | none =>
      rw [step_illegal ho hd]
      exact fun _ e => nomatch e
  | false =>
    cases hs : s.script with
    | nil =>
      rw [step_goOn ho hs, canonicalNext_next]
      exact closes _ s (canonical_goOn s h)
    | cons i rest =>
      rw [step_event ho hs]
      exact canonicalNext_ite (canonicalNext_andThen (fun t ht => closes t _ ht) (canonicalNext_exec (s := { s with script := rest }) h i))
        ((canonicalNext_next _).2 h)

/-- Settles O56: every function that a step is made of keeps the memories' form, those that write bytes or marks by the laws of memory. -/
theorem stepKeepsCanonicalMemory : Obligations.StepKeepsCanonicalMemory := by
  unfold Obligations.StepKeepsCanonicalMemory
  intro s t h e
  exact canonicalNext_step h t e

end Sys2Proof.Machine
end

section
/-! PROOFS. The tag checks of the vector operations (R17, R47, R167). -/

namespace Sys2Proof.Machine

/-- The operation makes the tag checks `cs`, in that order, before anything else of it can matter. -/
def TestsTags (i : Instr) (s : State) (cs : List TagCheck) : Prop := ∃ k, exec i s = finish s (tagged s cs k)

theorem TestsTags.traps {i : Instr} {s : State} {cs : List TagCheck} {c : TagCheck} (h : TestsTags i s cs) (hc : firstBad cs = some c) :
    Traps i s 1 (fmtInfo 0 c.reg.toNat c.tag c.need) := by
  obtain ⟨k, hk⟩ := h
  unfold tagged at hk
  rw [hc] at hk
  exact hk

/-- TRAPINFO where one tag is required. -/
theorem fmtInfo_mustBe (s : State) (r : BitVec 6) (t : Nat) :
    fmtInfo 0 (s.mustBe r t).reg.toNat (s.mustBe r t).tag (s.mustBe r t).need = r.toNat % 64 + (s.rdV r).tag * 256 + t * 65536 := rfl

/-- TRAPINFO where several tags are accepted. -/
theorem fmtInfo_mayBe (s : State) (r : BitVec 6) (l : List Nat) :
    fmtInfo 0 (s.mayBe r l).reg.toNat (s.mayBe r l).tag (s.mayBe r l).need = r.toNat % 64 + (s.rdV r).tag * 256 + 0xFF * 65536 := rfl

theorem firstBad_mayBe_bad (s : State) (x : BitVec 6) (l : List Nat) (r : List TagCheck) (h : (s.rdV x).tag ∉ l) :
    firstBad (s.mayBe x l :: r) = some (s.mayBe x l) := by
  rw [firstBad_cons, if_neg]
  simpa [State.mayBe] using h

theorem firstBad_random_bad (s : State) (f : VV) (r : List TagCheck) (h5 : f.rm = 5)
    (h : (s.rdV f.c).tag ∉ [0x00, 0x14, 0x15, 0x16, 0x17]) : firstBad (s.randomCheck f ++ r) = some (s.mayBe f.c randomTags) := by
  unfold State.randomCheck
  rw [if_pos h5]
  exact firstBad_mayBe_bad s f.c randomTags r h

section
variable (f : VV) (s : State)

/-! ### Which checks each operation makes -/

theorem testsTags_twoSource : ∀ i ∈ [Instr.vadd f, .vsub f, .vmul f, .vdiv f, .vfma f, .vfms f, .vfnma f, .vmin f, .vmax f, .vminp f,
    .vmaxp f, .viadd f, .visub f, .vimul f, .vimad f, .vimin f, .vimax f, .vsel f],
    ∃ r, TestsTags i s (s.mustBe f.a f.fmt.toNat :: s.mustBe f.b f.fmt.toNat :: r) := by
  simp only [List.forall_mem_cons]
  refine ⟨?_, ?_, ?_, ?_, ?_, ?_, ?_, ?_, ?_, ?_, ?_, ?_, ?_, ?_, ?_, ?_, ?_, ?_, fun _ h => nomatch h⟩ <;> exact ⟨_, _, rfl⟩

theorem testsTags_oneSource : ∀ i ∈ [Instr.vsqrt f, .vrcp f, .vrsq f, .vexp2 f, .vlog2 f, .vabs f, .vneg f, .vreda f, .vredm f, .vscan f,
    .vext f, .accwr f], ∃ r, TestsTags i s (s.mustBe f.a f.fmt.toNat :: r) := by
  simp only [List.forall_mem_cons]
  refine ⟨?_, ?_, ?_, ?_, ?_, ?_, ?_, ?_, ?_, ?_, ?_, ?_, fun _ h => nomatch h⟩ <;> exact ⟨_, _, rfl⟩

theorem testsTags_roundsOne : ∀ i ∈ [Instr.vsqrt f, .vrcp f, .vrsq f],
    TestsTags i s (s.mustBe f.a f.fmt.toNat :: (s.randomCheck f ++ [])) := by
  simp only [List.forall_mem_cons, List.append_nil]
  refine ⟨?_, ?_, ?_, fun _ h => nomatch h⟩ <;> exact ⟨_, rfl⟩

theorem testsTags_fused : ∀ i ∈ [Instr.vfma f, .vfms f, .vfnma f],
    TestsTags i s (s.mustBe f.a f.fmt.toNat :: s.mustBe f.b f.fmt.toNat :: (s.randomCheck f ++ [s.mustBe f.d f.fmt.toNat])) := by
  simp only [List.forall_mem_cons]
  refine ⟨?_, ?_, ?_, fun _ h => nomatch h⟩ <;> exact ⟨_, rfl⟩

theorem testsTags_vimad : TestsTags (.vimad f) s [s.mustBe f.a f.fmt.toNat, s.mustBe f.b f.fmt.toNat, s.mustBe f.d f.fmt.toNat] := ⟨_, rfl⟩

theorem testsTags_roundsTwo : ∀ i ∈ [Instr.vadd f, .vsub f, .vmul f, .vdiv f, .vfma f, .vfms f, .vfnma f],
    ∃ r, TestsTags i s (s.mustBe f.a f.fmt.toNat :: s.mustBe f.b f.fmt.toNat :: (s.randomCheck f ++ r)) := by
  have plain : ∀ i ∈ [Instr.vadd f, .vsub f, .vmul f, .vdiv f],
      TestsTags i s (s.mustBe f.a f.fmt.toNat :: s.mustBe f.b f.fmt.toNat :: (s.randomCheck f ++ [])) := by
    simp only [List.forall_mem_cons, List.append_nil]
    refine ⟨?_, ?_, ?_, ?_, fun _ h => nomatch h⟩ <;> exact ⟨_, rfl⟩
  intro i hi
  rcases List.mem_append.1 (show i ∈ [Instr.vadd f, .vsub f, .vmul f, .vdiv f] ++ [.vfma f, .vfms f, .vfnma f] from hi) with hi | hi
  · exact ⟨_, plain i hi⟩
  · exact ⟨_, testsTags_fused f s i hi⟩

theorem traps_vsq (h : fmtWidth f.fmt.toNat ≠ 8 * 2 ^ (look {} s.arch.q (f.opx.toNat % 4)).esz.toNat) :
    Traps (.vsq f) s 1 (f.opx.toNat % 4 + 64 + f.fmt.toNat * 65536) := by
  have info : fmtInfo 1 (f.opx.toNat % 4) 0 f.fmt.toNat = f.opx.toNat % 4 + 64 + f.fmt.toNat * 65536 := by
    unfold fmtInfo
    omega
  rw [← info]
  show execVsq f s = _
  unfold execVsq
  exact if_pos h

theorem testsTags_vrndx : TestsTags (.vrndx f) s [s.mustBe f.a 0x17] := ⟨_, rfl⟩

theorem testsTags_vins : TestsTags (.vins f) s [s.mayBe f.d [fRaw, f.fmt.toNat]] := ⟨_, rfl⟩

theorem testsTags_vqnt : TestsTags (.vqnt f) s
    (s.mustBe f.a (f.opx.toNat % 256) :: (s.randomCheck f ++ [s.mayBe f.d [fRaw, f.fmt.toNat]])) := ⟨_, rfl⟩

theorem testsTags_conversion : ∀ i ∈ [Instr.vcvt f, .vqnt f, .vdqnt f],
    ∃ r, TestsTags i s (s.mustBe f.a (f.opx.toNat % 256) :: (s.randomCheck f ++ r)) := by
  simp only [List.forall_mem_cons]
  refine ⟨⟨[], ?_⟩, ⟨_, testsTags_vqnt f s⟩, ⟨[], ?_⟩, fun _ h => nomatch h⟩ <;> rw [List.append_nil] <;> exact ⟨_, rfl⟩

theorem testsTags_shift : ∀ i ∈ [Instr.vshl f, .vshr f, .vsar f],
    TestsTags i s (s.mustBe f.a f.fmt.toNat :: if f.opx[7] then [] else [s.mustBe f.b f.fmt.toNat]) := by
  have shifts (op : Nat → Nat → Nat → Nat) {i : Instr} (hi : exec i s = vshift op f s) :
      TestsTags i s (s.mustBe f.a f.fmt.toNat :: if f.opx[7] then [] else [s.mustBe f.b f.fmt.toNat]) := by
    unfold vshift at hi
    unfold TestsTags
    rw [hi]
    split <;> exact ⟨_, rfl⟩
  simp only [List.forall_mem_cons]
  exact ⟨shifts _ rfl, shifts _ rfl, shifts _ rfl, fun _ h => nomatch h⟩

theorem testsTags_vcmp (ha : (s.rdV f.a).psn = false) (hb : (s.rdV f.b).psn = false) :
    TestsTags (.vcmp f) s [s.mustBe f.a f.fmt.toNat, s.mustBe f.b f.fmt.toNat] := by
  show ∃ k, execVcmp f s = _
  unfold execVcmp
  dsimp only
  rw [if_neg (by simp [ha]), if_neg (by simp [hb])]
  exact ⟨_, rfl⟩

end

/-! ### Which of the checks fails -/

section
variable {i : Instr} {s : State} {a b : BitVec 6} {t : Nat} {r cs : List TagCheck}

theorem TestsTags.traps_mustBe (h : TestsTags i s cs) (hc : firstBad cs = firstBad (s.mustBe a t :: r)) (ha : (s.rdV a).tag ≠ t) :
    Traps i s 1 (a.toNat % 64 + (s.rdV a).tag * 256 + t * 65536) := by
  rw [← fmtInfo_mustBe]
  exact h.traps (hc.trans (firstBad_mustBe_bad s a t r ha))

theorem TestsTags.traps_mayBe {l : List Nat} (h : TestsTags i s cs) (hc : firstBad cs = some (s.mayBe a l)) :
    Traps i s 1 (a.toNat % 64 + (s.rdV a).tag * 256 + 0xFF * 65536) := by
  rw [← fmtInfo_mayBe s a l]
  exact h.traps hc

theorem TestsTags.traps_first (h : TestsTags i s (s.mustBe a t :: r)) (ha : (s.rdV a).tag ≠ t) :
    Traps i s 1 (a.toNat % 64 + (s.rdV a).tag * 256 + t * 65536) := h.traps_mustBe rfl ha

theorem TestsTags.traps_second (h : TestsTags i s (s.mustBe a t :: s.mustBe b t :: r)) (ha : (s.rdV a).tag = t) (hb : (s.rdV b).tag ≠ t) :
    Traps i s 1 (b.toNat % 64 + (s.rdV b).tag * 256 + t * 65536) := h.traps_mustBe (firstBad_mustBe s a t _ ha) hb

/-- Where a and b are accepted, the checks that follow theirs decide. -/
theorem firstBad_two (ha : (s.rdV a).tag = t) (hb : (s.rdV b).tag = t) :
    firstBad (s.mustBe a t :: s.mustBe b t :: r) = firstBad r := (firstBad_mustBe s a t _ ha).trans (firstBad_mustBe s b t r hb)

end

/-- The fused operations and VIMAD take the trap for the old destination where a, b and the random bits are accepted. -/
theorem traps_oldDestination {f : VV} {s : State} (hr : f.rm = 5 → (s.rdV f.c).tag ∈ [0x00, 0x14, 0x15, 0x16, 0x17])
    (ha : (s.rdV f.a).tag = f.fmt.toNat) (hb : (s.rdV f.b).tag = f.fmt.toNat) (hd : (s.rdV f.d).tag ≠ f.fmt.toNat) :
    ∀ i ∈ [Instr.vfma f, .vfms f, .vfnma f], Traps i s 1 (f.d.toNat % 64 + (s.rdV f.d).tag * 256 + f.fmt.toNat * 65536) :=
  fun i hi => (testsTags_fused f s i hi).traps_mustBe ((firstBad_two ha hb).trans (firstBad_random s f _ hr)) hd

/-- Settles O11: each operation makes its checks in the statement's order (`TestsTags`), and the first that fails is the trap's. -/
theorem vectorTagTraps : Obligations.VectorTagTraps := by
  unfold Obligations.VectorTagTraps
  intro f s
  refine ⟨fun ha i hi => ?_, fun ha hb i hi => ?_, fun ha hb h5 hd => ?_, fun ha i hi => ?_, fun ha => ?_, fun h5 hc => ⟨fun ha =>
    ⟨fun i hi => ?_, fun hb i hi => ?_⟩, fun ha i hi => ?_⟩, fun hr ha hb hd => ?_, fun pa pb => ⟨fun ha => ?_, fun ha hb => ?_⟩,
    fun i hi => ⟨fun ha => ?_, fun h7 ha hb => ?_⟩, fun h0 hd => ⟨?_, fun ha hr => ?_⟩, traps_vsq f s⟩
  · rcases List.mem_append.1 hi with hi | hi
    · obtain ⟨r, h⟩ := testsTags_twoSource f s i hi
      exact h.traps_first ha
    · obtain ⟨r, h⟩ := testsTags_oneSource f s i hi
      exact h.traps_first ha
  · obtain ⟨r, h⟩ := testsTags_twoSource f s i hi
    exact h.traps_second ha hb
  · have fused := traps_oldDestination (s := s) (fun h => absurd h h5) ha hb hd
    simp only [List.forall_mem_cons] at fused ⊢
    obtain ⟨hfma, hfms, hfnma, -⟩ := fused
    exact ⟨hfma, hfms, hfnma, (testsTags_vimad f s).traps_mustBe (firstBad_two ha hb) hd, fun _ h => nomatch h⟩
  · obtain ⟨r, h⟩ := testsTags_conversion f s i hi
    exact h.traps_first ha
  · exact (testsTags_vrndx f s).traps_first ha
  · exact (testsTags_roundsOne f s i hi).traps_mayBe ((firstBad_mustBe s _ _ _ ha).trans (firstBad_random_bad s f _ h5 hc))
  · obtain ⟨r, h⟩ := testsTags_roundsTwo f s i hi
    exact h.traps_mayBe ((firstBad_two ha hb).trans (firstBad_random_bad s f r h5 hc))
  · obtain ⟨r, h⟩ := testsTags_conversion f s i hi
    exact h.traps_mayBe ((firstBad_mustBe s _ _ _ ha).trans (firstBad_random_bad s f r h5 hc))
  · exact traps_oldDestination hr ha hb hd
  · exact (testsTags_vcmp f s pa pb).traps_first ha
  · exact (testsTags_vcmp f s pa pb).traps_second ha hb
  · exact (testsTags_shift f s i hi).traps_first ha
  · have h := testsTags_shift f s i hi
    rw [if_neg (by simp [h7])] at h
    exact h.traps_second ha hb
  · exact (testsTags_vins f s).traps_mayBe (firstBad_mayBe_bad s f.d _ _ (by simp [fRaw, h0, hd]))
  · exact (testsTags_vqnt f s).traps_mayBe ((firstBad_mustBe s _ _ _ ha).trans ((firstBad_random s f _ hr).trans
      (firstBad_mayBe_bad s f.d _ _ (by simp [fRaw, h0, hd]))))

end Sys2Proof.Machine
end

section
/-! PROOFS. What passes between bundles: the results in flight as they land, pauses, waits, windows and turns (R31 to R33, R104, R253, R256,
R339). -/

namespace Sys2Proof.Machine

/-! ### The results of one position (R32) -/

theorem rivals_trans {d e g : FlightDst} (h : d.rivals e = true) (h' : e.rivals g = true) : d.rivals g = true := by
  cases d <;> cases e <;> simp_all [FlightDst.rivals] <;> cases g <;> simp_all

theorem rivals_comm (d e : FlightDst) : d.rivals e = e.rivals d := by
  cases d <;> cases e <;> simp [FlightDst.rivals, Bool.beq_comm]

/-- The results of one position that take effect: of several in one register the last. -/
def survivors : List Flight → List Flight
  | [] => []
  | f :: r => if r.any (fun g => f.dst.rivals g.dst) then survivors r else f :: survivors r

theorem mem_of_mem_survivors {l : List Flight} {f : Flight} (h : f ∈ survivors l) : f ∈ l := by
  induction l with
  | nil => exact h
  | cons g r ih =>
    rw [survivors] at h
    split at h
    · exact List.mem_cons_of_mem _ (ih h)
    · exact (List.mem_cons.1 h).elim (fun e => e ▸ List.mem_cons_self) fun h => List.mem_cons_of_mem _ (ih h)

/-- A result that is discarded leaves one in its register that is not. -/
theorem survivors_covers {l : List Flight} {f : Flight} (h : f ∈ l) : ∃ g ∈ survivors l, g = f ∨ f.dst.rivals g.dst = true := by
  induction l generalizing f with
  | nil => exact absurd h (List.not_mem_nil)
  | cons c r ih =>
    rw [survivors]
    split
    · next hr =>
      rcases List.mem_cons.1 h with rfl | h
      · obtain ⟨g, hg, hfg⟩ := List.any_eq_true.1 hr
        obtain ⟨g', hg', e | e⟩ := ih hg
        · exact ⟨g', hg', Or.inr (e ▸ hfg)⟩
        · exact ⟨g', hg', Or.inr (rivals_trans hfg e)⟩
      · exact ih h
    · rcases List.mem_cons.1 h with rfl | h
      · exact ⟨f, List.mem_cons_self, Or.inl rfl⟩
      · obtain ⟨g, hg, e⟩ := ih h
        exact ⟨g, List.mem_cons_of_mem _ hg, e⟩

/-! ### The results due by a position, in the order of their landing -/

theorem foldl_min_due {g : Option Nat → Flight → Option Nat} (hg : ∀ d f, g (some d) f = some (min d f.due)) (l : List Flight) (d : Nat) :
    l.foldl g (some d) = some ((l.map Flight.due).foldl min d) := by
  induction l generalizing d with
  | nil => rfl
  | cons f r ih => rw [List.foldl_cons, hg, ih, List.map_cons, List.foldl_cons]

theorem nextDue_eq (now : Nat) (fl : List Flight) : nextDue now fl = ((fl.filter fun f => decide (f.due ≤ now)).map Flight.due).min? := by
  unfold nextDue
  cases fl.filter fun f => decide (f.due ≤ now) with
  | nil => rfl
  | cons f r =>
    rw [List.map_cons, List.min?_cons', List.foldl_cons]
    exact foldl_min_due (fun _ _ => rfl) r f.due

theorem nextDue_none {now : Nat} {fl : List Flight} : nextDue now fl = none ↔ ∀ f ∈ fl, now < f.due := by
  rw [nextDue_eq]
  simp [List.filter_eq_nil_iff]

theorem nextDue_some {now : Nat} {fl : List Flight} {d : Nat} :
    nextDue now fl = some d ↔ (∃ f ∈ fl, f.due = d) ∧ d ≤ now ∧ ∀ f ∈ fl, d ≤ f.due := by
  rw [nextDue_eq, List.min?_eq_some_iff]
  simp only [List.mem_map, List.mem_filter, decide_eq_true_eq, forall_exists_index, and_imp]
  constructor
  · rintro ⟨⟨f, ⟨hf, hn⟩, rfl⟩, hall⟩
    exact ⟨⟨f, hf, rfl⟩, hn, fun g hg => (Nat.le_total g.due now).elim (fun h => hall _ g hg h rfl) fun h => hn.trans h⟩
  · rintro ⟨⟨f, hf, rfl⟩, hn, hall⟩
    exact ⟨⟨f, ⟨hf, hn⟩, rfl⟩, fun _ g hg _ e => e ▸ hall g hg⟩

/-- The results that `State.landDue` lands, in their order. -/
def landing (now : Nat) : Nat → List Flight → List Flight
  | 0, _ => []
  | fuel + 1, fl =>
    match nextDue now fl with
    | none => []
    | some d => survivors (fl.filter fun f => f.due = d) ++ landing now fuel (fl.filter fun f => f.due ≠ d)

theorem landing_none {now fuel : Nat} {fl : List Flight} (h : nextDue now fl = none) : landing now fuel fl = [] := by
  cases fuel with
  | zero => rfl
  | succ n => rw [landing, h]

theorem landing_some {now d fuel : Nat} {fl : List Flight} (h : nextDue now fl = some d) : landing now (fuel + 1) fl =
    survivors (fl.filter fun f => f.due = d) ++ landing now fuel (fl.filter fun f => f.due ≠ d) := by
  rw [landing, h]

theorem mem_of_mem_landing {now fuel : Nat} {fl : List Flight} {f : Flight} (h : f ∈ landing now fuel fl) : f ∈ fl ∧ f.due ≤ now := by
  induction fuel generalizing fl with
  | zero => exact absurd h List.not_mem_nil
  | succ n ih =>
    rw [landing] at h
    split at h
    · exact absurd h List.not_mem_nil
    · next d hd =>
      rcases List.mem_append.1 h with h | h
      · obtain ⟨hf, he⟩ := List.mem_filter.1 (mem_of_mem_survivors h)
        exact ⟨hf, (of_decide_eq_true he).trans_le (nextDue_some.1 hd).2.1⟩
      · exact ⟨(List.mem_filter.1 (ih h).1).1, (ih h).2⟩

/-- How many results of a flight are due. -/
def dueCount (now : Nat) (fl : List Flight) : Nat := (fl.filter fun f => decide (f.due ≤ now)).length

theorem dueCount_rest {now : Nat} {fl : List Flight} {d : Nat} (h : nextDue now fl = some d) :
    dueCount now (fl.filter fun f => f.due ≠ d) < dueCount now fl := by
  obtain ⟨⟨f, hf, hd⟩, hn, -⟩ := nextDue_some.1 h
  unfold dueCount
  rw [List.filter_comm, List.length_filter_lt_length_iff_exists]
  exact ⟨f, List.mem_filter.2 ⟨hf, by simpa [hd] using hn⟩, by simp [hd]⟩

theorem landing_covers {now fuel : Nat} {fl : List Flight} {f : Flight} (hfuel : dueCount now fl ≤ fuel) (h : f ∈ fl) (hf : f.due ≤ now) :
    ∃ g ∈ landing now fuel fl, g = f ∨ f.dst.rivals g.dst = true := by
  induction fuel generalizing fl with
  | zero =>
    have none := List.eq_nil_of_length_eq_zero (Nat.le_zero.1 hfuel)
    exact absurd (List.mem_filter.2 ⟨h, decide_eq_true hf⟩) (none ▸ List.not_mem_nil)
  | succ n ih =>
    rw [landing]
    split
    · next hd => exact absurd (nextDue_none.1 hd f h) (by omega)
    · next d hd =>
      by_cases he : f.due = d
      · obtain ⟨g, hg, e⟩ := survivors_covers (l := fl.filter fun f => f.due = d) (List.mem_filter.2 ⟨h, decide_eq_true he⟩)
        exact ⟨g, List.mem_append_left _ hg, e⟩
      · have hlt := dueCount_rest hd
        obtain ⟨g, hg, e⟩ := ih (fl := fl.filter fun f => f.due ≠ d) (by omega) (List.mem_filter.2 ⟨h, by simpa using he⟩)
        exact ⟨g, List.mem_append_right _ hg, e⟩

/-- Where the results due are of one position, they land together. -/
theorem landing_one {now fuel : Nat} {fl l : List Flight} {d : Nat} (hl : fl.filter (fun f => decide (f.due ≤ now)) = l) (hne : l ≠ [])
    (hd : ∀ f ∈ l, f.due = d) (hfuel : 0 < fuel) : landing now fuel fl = survivors l := by
  subst hl
  obtain ⟨n, rfl⟩ := Nat.exists_eq_succ_of_ne_zero hfuel.ne'
  obtain ⟨f, hf⟩ := List.exists_mem_of_ne_nil _ hne
  obtain ⟨hf, hn⟩ := List.mem_filter.1 hf
  have hfd : f.due = d := hd f (List.mem_filter.2 ⟨hf, hn⟩)
  have hdn : d ≤ now := hfd ▸ of_decide_eq_true hn
  have due_iff (g) (hg : g ∈ fl) : g.due ≤ now ↔ g.due = d :=
    ⟨fun h => hd g (List.mem_filter.2 ⟨hg, decide_eq_true h⟩), fun h => h.trans_le hdn⟩
  have first : nextDue now fl = some d := nextDue_some.2 ⟨⟨f, hf, hfd⟩, hdn, fun g hg =>
    (Nat.le_total g.due now).elim (fun h => ((due_iff g hg).1 h).ge) fun h => hdn.trans h⟩
  have rest : nextDue now (fl.filter fun f => f.due ≠ d) = none := nextDue_none.2 fun g hg => by
    obtain ⟨hg, hne⟩ := List.mem_filter.1 hg
    exact Nat.lt_of_not_le fun h => of_decide_eq_true hne ((due_iff g hg).1 h)
  have same : (fl.filter fun f => decide (f.due = d)) = fl.filter fun f => decide (f.due ≤ now) :=
    List.filter_congr fun g hg => decide_eq_decide.2 (due_iff g hg).symm
  rw [landing_some first, same, landing_none rest, List.append_nil]

/-! ### What the landing leaves -/

section
variable {β : Type} {k : Nat} (π : State → β) (hone : ∀ s d, π (State.landOne s k d) = π s)
include hone

theorem landList_keeps (s : State) (l : List Flight) : π (s.landList k l) = π s := by
  induction l generalizing s with
  | nil => rfl
  | cons f r ih =>
    rw [State.landList, ih]
    split
    · rfl
    · exact hone s f.dst

theorem landDue_keeps (hflight : ∀ (s : State) fl, π (s.setCtx k { s.ctx k with arch := { (s.ctx k).arch with flight := fl } }) = π s)
    (s : State) (now fuel : Nat) : π (s.landDue k now fuel) = π s := by
  induction fuel generalizing s with
  | zero => rfl
  | succ n ih =>
    rw [State.landDue]
    dsimp only
    split
    · rfl
    · exact (ih _).trans ((landList_keeps π hone _ _).trans (hflight s _))

end

/-- What the landing of one result does to the context's registers, other than its saved accumulator banks. -/
def landedArch (a : Arch) : FlightDst → Arch
  | .s n v => { a with s := put {} a.s n v }
  | .v n v => { a with v := put {} a.v n v }
  | .p n b m => { a with p := put 0 a.p n (maskMerge (look 0 a.p n) b m) }
  | .mp n v => { a with mp := put 0 a.mp n v }
  | .x n v => { a with xbuf := put {} a.xbuf n v }
  | .acc _ _ _ _ _ _ => a

theorem landOne_ctx (s : State) (k : Nat) (d : FlightDst) :
    ∃ accs, (s.landOne k d).ctx k = { s.ctx k with arch := { landedArch (s.ctx k).arch d with accs := accs } } := by
  cases d with
  | acc bank row b m psn full =>
    unfold State.landOne
    dsimp only
    split
    · exact ⟨_, ctx_setCtx_same s k _⟩
    · exact ⟨(s.ctx k).arch.accs, rfl⟩
  | s n v => exact ⟨(s.ctx k).arch.accs, ctx_setCtx_same s k _⟩
  | v n v => exact ⟨(s.ctx k).arch.accs, ctx_setCtx_same s k _⟩
  | p n b m => exact ⟨(s.ctx k).arch.accs, ctx_setCtx_same s k _⟩
  | mp n v => exact ⟨(s.ctx k).arch.accs, ctx_setCtx_same s k _⟩
  | x n v => exact ⟨(s.ctx k).arch.accs, ctx_setCtx_same s k _⟩

theorem landOne_mem (s : State) (k : Nat) (d : FlightDst) : (s.landOne k d).mem = s.mem := by
  cases d with
  | acc bank row b m psn full =>
    unfold State.landOne
    dsimp only
    split <;> rfl
  | _ => rfl

theorem landOne_flight (s : State) (k : Nat) (d : FlightDst) : ((s.landOne k d).ctx k).arch.flight = (s.ctx k).arch.flight := by
  obtain ⟨accs, h⟩ := landOne_ctx s k d
  rw [h]
  cases d <;> rfl

theorem landList_flight (s : State) (k : Nat) (l : List Flight) : ((s.landList k l).ctx k).arch.flight = (s.ctx k).arch.flight :=
  landList_keeps (fun s => (s.ctx k).arch.flight) (fun s d => landOne_flight s k d) s l

/-- Where nothing is due, the landing leaves the state. -/
theorem landDue_none {s : State} {k now : Nat} (h : ∀ f ∈ (s.ctx k).arch.flight, now < f.due) (fuel : Nat) : s.landDue k now fuel = s := by
  cases fuel with
  | zero => rfl
  | succ n => rw [State.landDue, nextDue_none.2 h]

/-- The results of position `d` leave the flight and land. -/
def State.landPosition (s : State) (k d : Nat) : State :=
  (s.setCtx k { s.ctx k with arch := { (s.ctx k).arch with flight := (s.ctx k).arch.flight.filter fun f => f.due ≠ d } }).landList k
    ((s.ctx k).arch.flight.filter fun f => f.due = d)

theorem landDue_some {s : State} {k now d fuel : Nat} (hd : nextDue now (s.ctx k).arch.flight = some d) :
    s.landDue k now (fuel + 1) = (s.landPosition k d).landDue k now fuel := by
  rw [State.landDue, hd]
  rfl

/-! ### What the landing does to one register -/

section
variable {β : Type} (k : Nat) (get : Arch → β) (eff : FlightDst → β → β)
  (hone : ∀ s d, get ((State.landOne s k d).ctx k).arch = eff d (get (s.ctx k).arch))
include hone

theorem get_landList (s : State) (l : List Flight) :
    get ((s.landList k l).ctx k).arch = (survivors l).foldl (fun x f => eff f.dst x) (get (s.ctx k).arch) := by
  induction l generalizing s with
  | nil => rfl
  | cons f r ih =>
    rw [State.landList, ih, survivors]
    split
    · rfl
    · rw [hone, List.foldl_cons]

theorem get_landDue (hfl : ∀ (a : Arch) fl, get { a with flight := fl } = get a) (s : State) (now fuel : Nat) :
    get ((s.landDue k now fuel).ctx k).arch =
      (landing now fuel (s.ctx k).arch.flight).foldl (fun x f => eff f.dst x) (get (s.ctx k).arch) := by
  induction fuel generalizing s with
  | zero => rfl
  | succ n ih =>
    cases hd : nextDue now (s.ctx k).arch.flight with
    | none =>
      rw [landDue_none (nextDue_none.1 hd), landing_none hd]
      rfl
    | some d =>
      rw [landDue_some hd, landing_some hd, ih, State.landPosition, get_landList k get eff hone, landList_flight, ctx_setCtx_same, hfl,
        List.foldl_append]
end

/-- The results due leave their flight. -/
theorem landDue_flight (s : State) (k now fuel : Nat) (hfuel : dueCount now (s.ctx k).arch.flight ≤ fuel) :
    ((s.landDue k now fuel).ctx k).arch.flight = (s.ctx k).arch.flight.filter fun f => decide (now < f.due) := by
  induction fuel generalizing s with
  | zero =>
    have none := List.eq_nil_of_length_eq_zero (Nat.le_zero.1 hfuel)
    rw [List.filter_eq_nil_iff] at none
    exact (List.filter_eq_self.2 fun f hf => by simpa using none f hf).symm
  | succ n ih =>
    rw [State.landDue]
    dsimp only
    split
    · next hd => exact (List.filter_eq_self.2 fun f hf => decide_eq_true (nextDue_none.1 hd f hf)).symm
    · next d hd =>
      have hlt := dueCount_rest hd
      rw [ih, landList_flight, ctx_setCtx_same, List.filter_filter]
      · refine List.filter_congr fun f _ => ?_
        have := (nextDue_some.1 hd).2.1
        simp only [← Bool.decide_and, decide_eq_decide]
        omega
      · rw [landList_flight, ctx_setCtx_same]
        exact Nat.le_of_lt_succ (hlt.trans_le hfuel)

section
variable {β : Type} {eff : FlightDst → β → β} {x v : β} {l : List Flight}

theorem foldl_untouched (h : ∀ f ∈ l, ∀ y, eff f.dst y = y) : l.foldl (fun x f => eff f.dst x) x = x := by
  induction l generalizing x with
  | nil => rfl
  | cons f r ih =>
    rw [List.foldl_cons, h f List.mem_cons_self]
    exact ih fun g hg => h g (List.mem_cons_of_mem _ hg)

theorem foldl_settles (hx : x = v ∨ ∃ f ∈ l, ∀ y, eff f.dst y = v) (h : ∀ f ∈ l, ∀ y, eff f.dst y = y ∨ eff f.dst y = v) :
    l.foldl (fun x f => eff f.dst x) x = v := by
  induction l generalizing x with
  | nil => exact hx.elim id fun ⟨f, hf, _⟩ => absurd hf List.not_mem_nil
  | cons f r ih =>
    rw [List.foldl_cons]
    refine ih ?_ fun g hg => h g (List.mem_cons_of_mem _ hg)
    rcases hx with rfl | ⟨g, hg, hv⟩
    · exact Or.inl ((h f List.mem_cons_self x).elim id id)
    · rcases List.mem_cons.1 hg with rfl | hg
      · exact Or.inl (hv x)
      · exact Or.inr ⟨g, hg, hv⟩

theorem foldl_landing_untouched {now fuel : Nat} {fl : List Flight} (h : ∀ f ∈ fl, f.due ≤ now → ∀ y, eff f.dst y = y) :
    (landing now fuel fl).foldl (fun x f => eff f.dst x) x = x :=
  foldl_untouched fun f hf => h f (mem_of_mem_landing hf).1 (mem_of_mem_landing hf).2

/-- A register in which one result lands, or several of one value, holds that value. -/
theorem foldl_landing_settles {now fuel : Nat} {fl : List Flight} {f : Flight} (hfuel : dueCount now fl ≤ fuel) (hf : f ∈ fl)
    (hn : f.due ≤ now) (hset : ∀ g ∈ fl, g.due ≤ now → (g = f ∨ f.dst.rivals g.dst = true) → ∀ y, eff g.dst y = v)
    (hall : ∀ g ∈ fl, g.due ≤ now → ∀ y, eff g.dst y = y ∨ eff g.dst y = v) :
    (landing now fuel fl).foldl (fun x f => eff f.dst x) x = v := by
  obtain ⟨g, hg, e⟩ := landing_covers hfuel hf hn
  have mem := fun f (h : f ∈ landing now fuel fl) => mem_of_mem_landing h
  exact foldl_settles (Or.inr ⟨g, hg, hset g (mem g hg).1 (mem g hg).2 e⟩) fun f hf => hall f (mem f hf).1 (mem f hf).2

end

/-! ### A context's registers when what is due has landed -/

/-- What one landing does to scalar register `n`. -/
def effS (n : Nat) : FlightDst → SReg → SReg
  | .s m v, x => if n = m then v else x
  | _, x => x

/-- What one landing does to vector register `n`. -/
def effV (n : Nat) : FlightDst → VReg → VReg
  | .v m v, x => if n = m then v else x
  | _, x => x

/-- What one landing does to predicate register `n`. -/
def effP (n : Nat) : FlightDst → Pred → Pred
  | .p m bs mask, x => if n = m then maskMerge x bs mask else x
  | _, x => x

theorem effS_other {n : Nat} {d : FlightDst} (h : ∀ v, d ≠ .s n v) (x : SReg) : effS n d x = x := by
  cases d with
  | s m v => exact if_neg (c := n = m) fun e => h v (e ▸ rfl)
  | _ => rfl

theorem effV_other {n : Nat} {d : FlightDst} (h : ∀ v, d ≠ .v n v) (x : VReg) : effV n d x = x := by
  cases d with
  | v m v => exact if_neg (c := n = m) fun e => h v (e ▸ rfl)
  | _ => rfl

theorem scalar_of_same {n : Nat} {v : SReg} {f g : Flight} (hf : f.dst = .s n v) (h : g = f ∨ f.dst.rivals g.dst = true) :
    ∃ w, g.dst = .s n w := by
  rcases h with rfl | h
  · exact ⟨v, hf⟩
  · rw [hf] at h
    cases hg : g.dst with
    | s m w => exact ⟨w, by simp_all [FlightDst.rivals]⟩
    | _ => simp_all [FlightDst.rivals]

theorem vector_of_same {n : Nat} {v : VReg} {f g : Flight} (hf : f.dst = .v n v) (h : g = f ∨ f.dst.rivals g.dst = true) :
    ∃ w, g.dst = .v n w := by
  rcases h with rfl | h
  · exact ⟨v, hf⟩
  · rw [hf] at h
    cases hg : g.dst with
    | v m w => exact ⟨w, by simp_all [FlightDst.rivals]⟩
    | _ => simp_all [FlightDst.rivals]

theorem landBy_flight (s : State) (k now : Nat) :
    ((s.landBy k now).ctx k).arch.flight = (s.ctx k).arch.flight.filter fun f => decide (now < f.due) :=
  landDue_flight s k now _ (List.length_filter_le _ _)

theorem landDue_s (s : State) (k now fuel n : Nat) : look {} ((s.landDue k now fuel).ctx k).arch.s n =
    (landing now fuel (s.ctx k).arch.flight).foldl (fun x f => effS n f.dst x) (look {} (s.ctx k).arch.s n) := by
  refine get_landDue k (fun a => look {} a.s n) (effS n) (fun t d => ?_) (fun _ _ => rfl) s now fuel
  obtain ⟨accs, h⟩ := landOne_ctx t k d
  rw [h]
  cases d with
  | s m v => exact look_put _ _ _ _ _
  | _ => rfl

theorem landDue_v (s : State) (k now fuel n : Nat) : look {} ((s.landDue k now fuel).ctx k).arch.v n =
    (landing now fuel (s.ctx k).arch.flight).foldl (fun x f => effV n f.dst x) (look {} (s.ctx k).arch.v n) := by
  refine get_landDue k (fun a => look {} a.v n) (effV n) (fun t d => ?_) (fun _ _ => rfl) s now fuel
  obtain ⟨accs, h⟩ := landOne_ctx t k d
  rw [h]
  cases d with
  | v m v => exact look_put _ _ _ _ _
  | _ => rfl

theorem landDue_p (s : State) (k now fuel n : Nat) : look 0 ((s.landDue k now fuel).ctx k).arch.p n =
    (landing now fuel (s.ctx k).arch.flight).foldl (fun x f => effP n f.dst x) (look 0 (s.ctx k).arch.p n) := by
  refine get_landDue k (fun a => look 0 a.p n) (effP n) (fun t d => ?_) (fun _ _ => rfl) s now fuel
  obtain ⟨accs, h⟩ := landOne_ctx t k d
  rw [h]
  cases d with
  | p m bs mask => 
    refine (look_put _ _ _ _ _).trans ?_
    by_cases e : n = m
    · subst e; rfl
    · rw [if_neg e]; exact (if_neg e).symm
  | _ => rfl

/-- Of the results of one position in one predicate, the last takes effect on the register as it was. -/
theorem foldl_survivors_p {n : Nat} {bs m : Pred} {f : Flight} (hf : f.dst = .p n bs m) {post : List Flight}
    (hpost : ∀ g ∈ post, f.dst.rivals g.dst = false) (pre : List Flight) (x : Pred) :
    (survivors (pre ++ f :: post)).foldl (fun x g => effP n g.dst x) x = maskMerge x bs m := by
  have untouched (g : Flight) (hg : f.dst.rivals g.dst = false) (y : Pred) : effP n g.dst y = y := by
    rw [hf] at hg
    cases hd : g.dst with
    | p j bs' m' =>
      rw [hd] at hg
      exact if_neg fun e => by simp [FlightDst.rivals, e] at hg
    | _ => rfl
  induction pre generalizing x with
  | nil =>
    rw [List.nil_append, survivors, if_neg (by simpa using hpost), List.foldl_cons,
      foldl_untouched fun g hg => untouched g (hpost g (mem_of_mem_survivors hg)), hf]
    exact if_pos rfl
  | cons g r ih =>
    rw [List.cons_append, survivors]
    split
    · exact ih x
    · next hr =>
      have hgf : g.dst.rivals f.dst = false := by simpa using fun h => hr (List.any_eq_true.2 ⟨f, by simp, h⟩)
      rw [List.foldl_cons, untouched g (rivals_comm f.dst g.dst ▸ hgf), ih]

/-! ### Events -/

theorem landBy_mem (s : State) (k now : Nat) : (s.landBy k now).mem = s.mem :=
  landDue_keeps State.mem (fun s d => landOne_mem s k d) (fun _ _ => rfl) s now _

theorem landDue_pause (s : State) (k now fuel : Nat) : ((s.landDue k now fuel).ctx k).pause = (s.ctx k).pause := by
  refine landDue_keeps (fun s => (s.ctx k).pause) (fun t d => ?_) (fun t fl => by rw [ctx_setCtx_same]) s now fuel
  obtain ⟨accs, h⟩ := landOne_ctx t k d
  rw [h]

theorem landBy_clock (s : State) (k now : Nat) :
    ((s.landBy k now).ctx k).arch.cycle = (s.ctx k).arch.cycle ∧ ((s.landBy k now).ctx k).arch.at_ = (s.ctx k).arch.at_ := by
  constructor
  · refine landDue_keeps (fun s => (s.ctx k).arch.cycle) (fun t d => ?_) (fun t fl => by rw [ctx_setCtx_same]) s now _
    obtain ⟨accs, h⟩ := landOne_ctx t k d
    rw [h]
    cases d <;> rfl
  · refine landDue_keeps (fun s => (s.ctx k).arch.at_) (fun t d => ?_) (fun t fl => by rw [ctx_setCtx_same]) s now _
    obtain ⟨accs, h⟩ := landOne_ctx t k d
    rw [h]
    cases d <;> rfl

/-- The landing of the earliest position that is due. -/
theorem landDue_first {s : State} {k now d : Nat} (hd : nextDue now (s.ctx k).arch.flight = some d) :
    s.landDue k now 1 = s.landBy k d := by
  have hd' := nextDue_some.1 hd
  have hdd : nextDue d (s.ctx k).arch.flight = some d := nextDue_some.2 ⟨hd'.1, le_rfl, hd'.2.2⟩
  have hpos : 0 < (s.ctx k).arch.flight.length := List.length_pos_of_mem hd'.1.choose_spec.1
  obtain ⟨n, hn⟩ := Nat.exists_eq_succ_of_ne_zero hpos.ne'
  rw [State.landBy, hn, landDue_some hd, landDue_some hdd]
  refine (landDue_none (fun f hf => ?_) n).symm
  rw [State.landDue, State.landPosition, landList_flight, ctx_setCtx_same] at hf
  obtain ⟨hf, hne⟩ := List.mem_filter.1 hf
  exact lt_of_le_of_ne (hd'.2.2 f hf) (of_decide_eq_true hne).symm

theorem landBy_registers (ctx now : Nat) (s : State) :
    let a := (s.ctx ctx).arch
    let b := ((s.landBy ctx now).ctx ctx).arch
    b.flight = a.flight.filter (fun f => decide (now < f.due)) ∧
    (∀ n, (∀ f ∈ a.flight, f.due ≤ now → ∀ v, f.dst ≠ .s n v) → look {} b.s n = look {} a.s n) ∧
    (∀ n, (∀ f ∈ a.flight, f.due ≤ now → ∀ v, f.dst ≠ .v n v) → look {} b.v n = look {} a.v n) ∧
    (∀ n v, (∃ f ∈ a.flight, f.due ≤ now ∧ f.dst = .s n v) →
      (∀ f ∈ a.flight, f.due ≤ now → ∀ w, f.dst = .s n w → w = v) → look {} b.s n = v) ∧
    (∀ n v, (∃ f ∈ a.flight, f.due ≤ now ∧ f.dst = .v n v) →
      (∀ f ∈ a.flight, f.due ≤ now → ∀ w, f.dst = .v n w → w = v) → look {} b.v n = v) ∧
    (∀ d pre f post n bs m, a.flight.filter (fun f => decide (f.due ≤ now)) = pre ++ f :: post →
      (∀ g ∈ pre ++ f :: post, g.due = d) → f.dst = .p n bs m → (∀ g ∈ post, f.dst.rivals g.dst = false) →
      look 0 b.p n = maskMerge (look 0 a.p n) bs m) := by
  intro a b
  refine ⟨landBy_flight s ctx now, fun n h => ?_, fun n h => ?_, fun n v hex hall => ?_, fun n v hex hall => ?_,
    fun d pre f post n bs m hl hd hf hpost => ?_⟩
  · exact (landDue_s s ctx now _ n).trans (foldl_landing_untouched fun f hf hn y => effS_other (h f hf hn) y)
  · exact (landDue_v s ctx now _ n).trans (foldl_landing_untouched fun f hf hn y => effV_other (h f hf hn) y)
  · obtain ⟨f, hf, hn, hd⟩ := hex
    refine (landDue_s s ctx now _ n).trans (foldl_landing_settles (List.length_filter_le _ _) hf hn (fun g hg hgn e y => ?_)
      fun g hg hgn y => ?_)
    · obtain ⟨w, hw⟩ := scalar_of_same hd e
      rw [hw, hall g hg hgn w hw]
      exact if_pos rfl
    · by_cases e : ∃ w, g.dst = .s n w
      · obtain ⟨w, hw⟩ := e
        rw [hw, hall g hg hgn w hw]
        exact Or.inr (if_pos rfl)
      · exact Or.inl (effS_other (fun w hw => e ⟨w, hw⟩) y)
  · obtain ⟨f, hf, hn, hd⟩ := hex
    refine (landDue_v s ctx now _ n).trans (foldl_landing_settles (List.length_filter_le _ _) hf hn (fun g hg hgn e y => ?_)
      fun g hg hgn y => ?_)
    · obtain ⟨w, hw⟩ := vector_of_same hd e
      rw [hw, hall g hg hgn w hw]
      exact if_pos rfl
    · by_cases e : ∃ w, g.dst = .v n w
      · obtain ⟨w, hw⟩ := e
        rw [hw, hall g hg hgn w hw]
        exact Or.inr (if_pos rfl)
      · exact Or.inl (effV_other (fun w hw => e ⟨w, hw⟩) y)
  · have hpos : 0 < a.flight.length :=
      List.length_pos_of_mem (List.mem_filter.1 (hl ▸ List.mem_append_right pre List.mem_cons_self : f ∈ a.flight.filter _)).1
    refine (landDue_p s ctx now _ n).trans ?_
    rw [landing_one hl (by simp) hd hpos]
    exact foldl_survivors_p hf hpost pre _

theorem exec_waitSatisfied (s : State) (ctx : Nat) : exec (.waitSatisfied ctx) s = .next (s.testWait ctx) := rfl

theorem testWait_idle {s : State} {k : Nat} (h : s.due k = false ∨ (s.ctx k).waitMet = true ∨ (s.ctx k).bundleAt (s.ctx k).arch.pos = none) :
    s.testWait k = s := by
  unfold State.testWait
  dsimp only
  split
  · rfl
  · next hg =>
    rcases h with h | h | h
    · exact absurd (by simp [h]) hg
    · exact absurd (by simp [h]) hg
    · rw [h]

/-- The test of a wait that is due: it is noted where the balance has come to the threshold past the context's own signals (R253). -/
theorem testWait_due {s : State} {k : Nat} {ws : List Word} (hb : (s.ctx k).bundleAt (s.ctx k).arch.pos = some ws) (hd : s.due k = true)
    (hw : (s.ctx k).waitMet = false) : s.testWait k =
      if yWen (yOf ws) && !((s.ctx k).signals.any fun p => p.sem == yWsem (yOf ws)) &&
        decide (yWthr (yOf ws) ≤ (s.sem (clusterOf k) (s.ctx k).arch.info (yWsem (yOf ws))).value) then
        s.setCtx k { s.ctx k with waitMet := true } else s := by
  unfold State.testWait
  dsimp only
  rw [if_neg (by simp [hd, hw]), hb]

section
variable {s : State} {ctx : Nat}

theorem pauses_iff : (decide ((s.ctx ctx).pause = 0) || !(s.ctx ctx).bound || s.stopped (coreOf ctx)) = true ↔
    (s.ctx ctx).pause = 0 ∨ (s.ctx ctx).bound = false ∨ s.stopped (coreOf ctx) = true := by
  simp [or_assoc]

theorem idles_pause (h : (s.ctx ctx).pause = 0 ∨ (s.ctx ctx).bound = false ∨ s.stopped (coreOf ctx) = true) :
    Idles (.pauseEnd ctx) s ∧ Idles (.fixedResultLand ctx) s :=
  ⟨if_pos (pauses_iff.2 h), congrArg Host.Outcome.next (if_pos (pauses_iff.2 h))⟩

theorem exec_pauseEnd (h : ¬((s.ctx ctx).pause = 0 ∨ (s.ctx ctx).bound = false ∨ s.stopped (coreOf ctx) = true)) :
    exec (.pauseEnd ctx) s =
      let t := s.landBy ctx ((s.ctx ctx).arch.at_ - 1)
      let c := t.ctx ctx
      .next ((t.setCtx ctx { c with
        pause := 0, arch := { c.arch with cycle := c.arch.cycle + BitVec.ofNat 64 c.pause } }).settle ctx) :=
  if_neg (pauses_iff.not.2 h)

theorem pauseEnd_ends (h : ¬((s.ctx ctx).pause = 0 ∨ (s.ctx ctx).bound = false ∨ s.stopped (coreOf ctx) = true)) :
    let c := s.ctx ctx
    let a := c.arch
    ∃ t, Sys2Proof.Machine.exec (.pauseEnd ctx) s = .next t ∧ (t.ctx ctx).pause = 0 ∧
      (t.ctx ctx).arch.cycle = a.cycle + BitVec.ofNat 64 c.pause ∧ (t.ctx ctx).arch.at_ = a.at_ ∧
      (t.ctx ctx).arch.s = ((s.landBy ctx (a.at_ - 1)).ctx ctx).arch.s ∧
      (t.ctx ctx).arch.flight = ((s.landBy ctx (a.at_ - 1)).ctx ctx).arch.flight ∧ t.mem = s.mem := by
  intro c a
  obtain ⟨hcycle, hat⟩ := landBy_clock s ctx (a.at_ - 1)
  have hpause : ((s.landBy ctx (a.at_ - 1)).ctx ctx).pause = c.pause := landDue_pause s ctx _ _
  obtain ⟨hrest, -, halfA, halfB, met, n, w, b, csw, hctx⟩ := settle_spec ((s.landBy ctx (a.at_ - 1)).setCtx ctx
    { (s.landBy ctx (a.at_ - 1)).ctx ctx with
      pause := 0
      arch := { ((s.landBy ctx (a.at_ - 1)).ctx ctx).arch with
        cycle := ((s.landBy ctx (a.at_ - 1)).ctx ctx).arch.cycle +
          BitVec.ofNat 64 ((s.landBy ctx (a.at_ - 1)).ctx ctx).pause } }) ctx
  rw [ctx_setCtx_same] at hctx
  refine ⟨_, exec_pauseEnd h, ?_, ?_, ?_, ?_, ?_, ?_⟩
  · rw [hctx]
  · rw [hctx, ← hcycle, ← hpause]
  · rw [hctx]
    exact hat
  · rw [hctx]
  · rw [hctx]
  · rw [hrest]
    exact landBy_mem s ctx _

theorem fixedResultLand_lands (h : ¬((s.ctx ctx).pause = 0 ∨ (s.ctx ctx).bound = false ∨ s.stopped (coreOf ctx) = true)) :
    let c := s.ctx ctx
    let a := c.arch
    ∃ t, Sys2Proof.Machine.exec (.fixedResultLand ctx) s = .next t ∧ t.mem = s.mem ∧ (t.ctx ctx).pause = c.pause ∧
      ((∀ f ∈ a.flight, a.at_ - 1 < f.due) → t = s) ∧
      ∀ d, (∃ f ∈ a.flight, f.due = d) → (∀ f ∈ a.flight, d ≤ f.due) → d ≤ a.at_ - 1 →
        t.cores = (s.landBy ctx d).cores ∧ t.ctx ctx = (s.landBy ctx d).ctx ctx := by
  intro c a
  refine ⟨s.landDue ctx (a.at_ - 1) 1, congrArg Host.Outcome.next (if_neg (pauses_iff.not.2 h)), ?_, landDue_pause s ctx _ _,
    fun hnone => landDue_none hnone 1, fun d hex hmin hd => ?_⟩
  · exact landDue_keeps State.mem (fun s d => landOne_mem s ctx d) (fun _ _ => rfl) s _ _
  · rw [landDue_first (nextDue_some.2 ⟨hex, hd, hmin⟩)]
    exact ⟨rfl, rfl⟩

theorem lockWindowEnd_ends (s : State) (ctx : Nat) :
    let c := s.ctx ctx
    ∃ t, Sys2Proof.Machine.exec (.lockWindowEnd ctx) s = .next t ∧
      (∀ w, c.window = some w → w.left = 0 → c.aside = none → ¬(s.cur.open_ = true ∧ s.cur.ctx = ctx) →
        t.ctx ctx = { c with window := none }) ∧
      (c.window = none ∨ (∃ w, c.window = some w ∧ w.left ≠ 0) ∨ c.aside ≠ none ∨ (s.cur.open_ = true ∧ s.cur.ctx = ctx) →
        t.ctx ctx = c) ∧ ∀ k, k ≠ ctx → t.ctx k = s.ctx k := by
  intro c
  have within_iff : ((s.cur.open_ && s.cur.ctx == ctx) || c.aside.isSome) = true ↔
      (s.cur.open_ = true ∧ s.cur.ctx = ctx) ∨ c.aside ≠ none := by
    simp [Option.isSome_iff_ne_none]
  show ∃ t, execLockWindowEnd ctx s = .next t ∧ _
  unfold execLockWindowEnd
  by_cases hin : (s.cur.open_ = true ∧ s.cur.ctx = ctx) ∨ c.aside ≠ none
  · rw [if_pos (within_iff.2 hin)]
    exact ⟨s, rfl, fun w _ _ ha ho => absurd hin (by simp [ha, ho]), fun _ => rfl, fun _ _ => rfl⟩
  · rw [if_neg (within_iff.not.2 hin)]
    refine ⟨_, rfl, fun w hw hl _ _ => ?_, fun hc => ?_, fun k hk => ctx_setCtx_other _ _ hk⟩
    · rw [ctx_setCtx_same, Ctx.closeWindow]
      rw [show (s.ctx ctx).window = some w from hw]
      exact if_pos hl
    · rw [ctx_setCtx_same, Ctx.closeWindow]
      rcases hc with hc | ⟨w, hw, hl⟩ | hc | hc
      · rw [show (s.ctx ctx).window = none from hc]
      · rw [show (s.ctx ctx).window = some w from hw]
        exact if_neg hl
      · exact absurd (Or.inr hc) hin
      · exact absurd (Or.inl hc) hin

theorem forcedYield_yields (s : State) (ctx : Nat) :
    let c := s.ctx ctx
    let co := s.core (coreOf ctx)
    let must : Prop := co.holder = some ctx ∧ 1024 ≤ co.streak ∧ s.rival ctx = true ∧ s.cur.open_ = false ∧ c.aside = none ∧
      s.stopped (coreOf ctx) = false
    (¬must → Idles (.forcedYield ctx) s) ∧
    (must → ∃ t, Sys2Proof.Machine.exec (.forcedYield ctx) s = .next t ∧ t.ctx ctx = { c with yielding := some (s.coreMates ctx) } ∧
      t.core (coreOf ctx) = { co with holder := none, streak := 0 } ∧ ∀ k, k ≠ ctx → t.ctx k = s.ctx k) := by
  intro c co must
  have must_iff : (co.holder = some ctx && decide (1024 ≤ co.streak) && s.rival ctx && !s.cur.open_ && (s.ctx ctx).aside.isNone &&
      !s.stopped (coreOf ctx)) = true ↔ must := by
    simp [must, and_assoc, c]
  refine ⟨fun h => congrArg Host.Outcome.next (if_neg (must_iff.not.2 h)), fun h =>
    ⟨_, congrArg Host.Outcome.next (if_pos (must_iff.2 h)), ?_, ?_, fun k hk => ?_⟩⟩
  · exact ctx_setCtx_same s ctx _
  · exact core_setCore_same _ _ _
  · exact ctx_setCtx_other s _ hk

theorem exec_yieldTurnEnd {l : List Nat} (h : (s.ctx ctx).yielding = some l) : exec (.yieldTurnEnd ctx) s =
    .next (if (l.filter s.ready_).isEmpty || !s.rival ctx then s.setCtx ctx { s.ctx ctx with yielding := none } else s) := by
  show execYieldTurnEnd ctx s = _
  unfold execYieldTurnEnd
  dsimp only
  rw [h]

theorem yieldTurnEnd_ends {l : List Nat} (h : (s.ctx ctx).yielding = some l) :
    ((∀ j ∈ l, s.ready_ j = false) ∨ s.rival ctx = false →
      Sys2Proof.Machine.exec (.yieldTurnEnd ctx) s = .next (s.setCtx ctx { s.ctx ctx with yielding := none })) ∧
    ((∃ j ∈ l, s.ready_ j = true) → s.rival ctx = true → Idles (.yieldTurnEnd ctx) s) := by
  have over_iff : ((l.filter s.ready_).isEmpty || !s.rival ctx) = true ↔ (∀ j ∈ l, s.ready_ j = false) ∨ s.rival ctx = false := by
    simp [List.filter_eq_nil_iff]
  refine ⟨fun ho => ?_, fun ⟨j, hj, hr⟩ hrival => ?_⟩
  · rw [exec_yieldTurnEnd h, if_pos (over_iff.2 ho)]
  · refine (exec_yieldTurnEnd h).trans (congrArg Host.Outcome.next (if_neg (over_iff.not.2 ?_)))
    rintro (ho | ho)
    · exact absurd hr (by simp [ho j hj])
    · exact absurd hrival (by simp [ho])

end

/-- Settles O40: the results due land in the order of `landing`, of one position the last in each register (`survivors`); each event is what
its branch of the model does. -/
theorem pausesTurnsAndWindows : Obligations.PausesTurnsAndWindows := by
  unfold Obligations.PausesTurnsAndWindows
  refine ⟨landBy_registers, fun ctx s => ?_⟩
  intro c a still
  refine ⟨idles_pause, fun h => ⟨pauseEnd_ends h, fixedResultLand_lands h⟩, fun ws hb hd hw => ?_,
    fun h => congrArg Host.Outcome.next (testWait_idle h), lockWindowEnd_ends s ctx, forcedYield_yields s ctx, fun h => ?_,
    fun l hl => yieldTurnEnd_ends hl⟩
  · intro y met
    have htest := testWait_due hb hd hw
    have hmet : (yWen y && !(c.signals.any fun p => p.sem == yWsem y) &&
        decide (yWthr y ≤ (s.sem (clusterOf ctx) a.info (yWsem y)).value)) = true ↔ met := by
      simp only [Bool.and_eq_true, Bool.not_eq_true', List.any_eq_false, beq_iff_eq, decide_eq_true_eq, met, and_assoc]
      rfl
    exact ⟨fun h => congrArg Host.Outcome.next (htest.trans (if_pos (hmet.2 h))),
      fun h => congrArg Host.Outcome.next (htest.trans (if_neg fun e => h (hmet.1 e)))⟩
  · show execYieldTurnEnd ctx s = _
    unfold execYieldTurnEnd
    dsimp only
    rw [show (s.ctx ctx).yielding = none from h]

end Sys2Proof.Machine
end

section
/-! PROOFS. Where and when a scoreboarded result lands (spec/01 R12, R34, R252, R261; spec/12 R182, R193 to R196, R296, R297). -/

namespace Sys2Proof.Machine

/-! ### A result that lands in a scalar register -/

@[simp] theorem landIn_mem (s : State) (k e : Nat) (dst : SbDst) (lo hi : SReg) (v : VReg) : (s.landIn k e dst lo hi v).mem = s.mem := by
  cases dst with
  | s n => unfold State.landIn State.landScalar; dsimp only; split <;> rfl
  | pair n => unfold State.landIn State.landScalar; dsimp only; split <;> split <;> rfl
  | v n => rfl

theorem landScalar_ctx_other (s : State) {k j : Nat} (h : j ≠ k) (n : Nat) (v : SReg) : (s.landScalar k n v).ctx j = s.ctx j := by
  unfold State.landScalar
  by_cases hn : n = 0 <;> simp [hn, h]

theorem landScalar_sb (s : State) (k n : Nat) (v : SReg) : ((s.landScalar k n v).ctx k).sb = (s.ctx k).sb := by
  unfold State.landScalar
  by_cases hn : n = 0 <;> simp [hn, Ctx.notePend]

/-- What a landing scalar does to the context's architectural state: its register alone, and s0 stays (R12). -/
theorem landScalar_arch (s : State) (k n : Nat) (v : SReg) :
    ((s.landScalar k n v).ctx k).arch = if n = 0 then (s.ctx k).arch else { (s.ctx k).arch with s := put {} (s.ctx k).arch.s n v } := by
  unfold State.landScalar
  by_cases hn : n = 0 <;> simp [hn, Ctx.notePend]

theorem dropSb_ctx_other (s : State) {k j : Nat} (h : j ≠ k) (e : Nat) : (s.dropSb k e).ctx j = s.ctx j := by
  unfold State.dropSb
  simp [h]

@[simp] theorem dropSb_sb (s : State) (k e : Nat) : ((s.dropSb k e).ctx k).sb = (s.ctx k).sb.eraseIdx e := by
  unfold State.dropSb
  simp

@[simp] theorem dropSb_arch (s : State) (k e : Nat) : ((s.dropSb k e).ctx k).arch = (s.ctx k).arch := by
  unfold State.dropSb
  simp

/-- No queued command of the context still waits for the register (R12). -/
theorem await_not_delivered (l : List Cmd) (k n : Nat) (w : Word) (psn : Bool) :
    ∀ x ∈ l.map (Cmd.deliver k n w psn), x.ctx = k → .await n ∉ x.toks := by
  intro x hx hk
  obtain ⟨c, -, rfl⟩ := List.mem_map.mp hx
  by_cases hc : c.ctx = k
  · unfold Cmd.deliver
    rw [if_pos hc]
    intro hm
    obtain ⟨t, -, ht⟩ := List.mem_map.mp hm
    cases t with
    | await r =>
      by_cases hr : r = n
      · simp [hr] at ht
      · simp [hr] at ht
    | have_ v p => simp at ht
  · unfold Cmd.deliver at hk
    rw [if_neg hc] at hk
    exact absurd hk hc

theorem landScalar_core (s : State) (k n : Nat) (v : SReg) :
    (s.landScalar k n v).core (coreOf k) = (s.core (coreOf k)).deliver k n v.val v.psn := by
  unfold State.landScalar
  by_cases hn : n = 0 <;> simp [hn]

theorem landIn_s_core (s : State) (k e n : Nat) (lo hi : SReg) (v : VReg) :
    (s.landIn k e (.s n) lo hi v).core (coreOf k) = (s.core (coreOf k)).deliver k n lo.val lo.psn :=
  landScalar_core _ _ _ _

theorem landIn_s_arch (s : State) (k e n : Nat) (lo hi : SReg) (v : VReg) :
    ((s.landIn k e (.s n) lo hi v).ctx k).arch =
      if n = 0 then (s.ctx k).arch else { (s.ctx k).arch with s := put {} (s.ctx k).arch.s n lo } := by
  rw [show s.landIn k e (.s n) lo hi v = (s.dropSb k e).landScalar k n lo from rfl, landScalar_arch, dropSb_arch]

theorem landIn_s_sb (s : State) (k e n : Nat) (lo hi : SReg) (v : VReg) :
    ((s.landIn k e (.s n) lo hi v).ctx k).sb = (s.ctx k).sb.eraseIdx e := by
  rw [show s.landIn k e (.s n) lo hi v = (s.dropSb k e).landScalar k n lo from rfl, landScalar_sb, dropSb_sb]

theorem landIn_s_ctx_other (s : State) {k j : Nat} (h : j ≠ k) (e n : Nat) (lo hi : SReg) (v : VReg) :
    (s.landIn k e (.s n) lo hi v).ctx j = s.ctx j := by
  rw [show s.landIn k e (.s n) lo hi v = (s.dropSb k e).landScalar k n lo from rfl, landScalar_ctx_other _ h, dropSb_ctx_other _ h]

theorem landIn_s_outside (s : State) (k e n : Nat) (lo hi : SReg) (v : VReg) :
    ∃ cs co, s.landIn k e (.s n) lo hi v = { s with ctxs := cs, cores := co } := by
  rw [show s.landIn k e (.s n) lo hi v = (s.dropSb k e).landScalar k n lo from rfl]
  unfold State.landScalar
  by_cases hn : n = 0
  · simp only [hn, if_true]; exact ⟨_, _, rfl⟩
  · simp only [hn, if_false]; exact ⟨_, _, rfl⟩

/-- The landing of `v` in scalar register `n` of a context that entry `entry` of its scoreboard `sb` brings: what the statement's
`lands` says. -/
def Lands (ctx entry : Nat) (sb : List SbEntry) (b t : State) (n : Nat) (v : SReg) : Prop :=
  (∀ k, k ≠ ctx → t.ctx k = b.ctx k) ∧ t.mem = b.mem ∧ t.updates = b.updates ∧
  (t.ctx ctx).sb = sb.eraseIdx entry ∧ (n ≠ 0 → look {} (t.ctx ctx).arch.s n = v) ∧
  (∀ m, m ≠ n → look {} (t.ctx ctx).arch.s m = look {} (b.ctx ctx).arch.s m) ∧
  (∀ x ∈ (t.core (coreOf ctx)).cq, x.ctx = ctx → .await n ∉ x.toks) ∧
  (∀ x ∈ (t.core (coreOf ctx)).mq, x.ctx = ctx → .await n ∉ x.toks)

theorem lands_landIn (b : State) (ctx entry n : Nat) (v hi : SReg) (vec : VReg) :
    Lands ctx entry (b.ctx ctx).sb b (b.landIn ctx entry (.s n) v hi vec) n v := by
  obtain ⟨cs, co, h⟩ := landIn_s_outside b ctx entry n v hi vec
  refine ⟨fun k hk => landIn_s_ctx_other b hk entry n v hi vec, landIn_mem .., by rw [h], landIn_s_sb .., fun hn => ?_, fun m hm => ?_,
    ?_, ?_⟩
  · rw [landIn_s_arch, if_neg hn]
    exact look_put_same ..
  · rw [landIn_s_arch]
    by_cases hn : n = 0
    · rw [if_pos hn]
    · rw [if_neg hn]
      exact look_put_other _ _ _ hm
  · rw [landIn_s_core]
    exact await_not_delivered _ _ _ _ _
  · rw [landIn_s_core]
    exact await_not_delivered _ _ _ _ _

theorem lands_landWord (b : State) (ctx entry n : Nat) (w : Word) :
    Lands ctx entry (b.ctx ctx).sb b (b.landWord ctx entry (.s n) w) n { val := w } := lands_landIn ..

/-- A landing over a state that agrees with `s` in what a landing leaves. -/
theorem Lands.over {ctx entry n : Nat} {sb : List SbEntry} {v : SReg} {s b t : State} (h : Lands ctx entry sb b t n v) (hc : ∀ k, b.ctx k = s.ctx k)
    (hm : b.mem = s.mem) (hu : b.updates = s.updates) : Lands ctx entry sb s t n v := by
  obtain ⟨h1, h2, h3, h4, h5, h6, h7, h8⟩ := h
  exact ⟨fun k hk => (h1 k hk).trans (hc k), h2.trans hm, h3.trans hu, h4, h5, fun m hk => by rw [h6 m hk, hc], h7, h8⟩

/-- The answer of a request lands over a state that differs in names, clusters, launches and messages alone. -/
theorem lands_word {s b : State} (hc : b.ctxs = s.ctxs) (hm : b.mem = s.mem) (hu : b.updates = s.updates) (ctx entry n : Nat) (w : Word) :
    Lands ctx entry (s.ctx ctx).sb s (b.landWord ctx entry (.s n) w) n { val := w } := by
  have hx : ∀ k, b.ctx k = s.ctx k := fun k => by unfold State.ctx; rw [hc]
  have h := lands_landWord b ctx entry n w
  rw [hx] at h
  exact h.over hx hm hu

theorem landWord_outside (s : State) (k e n : Nat) (w : Word) : ∃ cs co, s.landWord k e (.s n) w = { s with ctxs := cs, cores := co } :=
  landIn_s_outside ..

/-! ### Names -/

/-- The status that a look-up of a name of this module fails with, or 0 (R193, R297): what the statement's `found` says. -/
def lookCode (s : State) (asid : Nat) (cached : Bool) (name : BitVec 128) : Nat :=
  if nameSeq name = 0 ∨ s.nameCtr ≤ nameSeq name then 0x0B else match s.nameEntry name with
    | none => 0x0A
    | some x => if x.live = false ∧ cached = false then 0x0A else if x.right s.part.serial asid = 0 then 0x0C else 0

theorem lookUp_fails {s : State} {asid : Nat} {cached : Bool} {name : BitVec 128} (h : lookCode s asid cached name ≠ 0) :
    s.lookUp cached s.part.serial asid name = .fails (lookCode s asid cached name) := by
  unfold State.lookUp lookCode
  unfold lookCode at h
  by_cases hs : nameSeq name = 0 ∨ s.nameCtr ≤ nameSeq name
  · simp only [if_pos hs]; rfl
  · simp only [if_neg hs] at h ⊢
    cases hx : s.nameEntry name with
    | none => rfl
    | some x =>
      simp only [hx] at h ⊢
      by_cases hl : x.live = false ∧ cached = false
      · simp [hl, stGone]
      · by_cases hr : x.right s.part.serial asid = 0
        · have : (x.live || cached) = true := by cases hxl : x.live <;> simp_all
          simp [hl, hr, this, stDenied]
        · simp [hl, hr] at h

theorem lookUp_good {s : State} {asid : Nat} {cached : Bool} {name : BitVec 128} (h : lookCode s asid cached name = 0) :
    ∃ x, s.nameEntry name = some x ∧ s.lookUp cached s.part.serial asid name = .good x := by
  unfold State.lookUp
  unfold lookCode at h
  by_cases hs : nameSeq name = 0 ∨ s.nameCtr ≤ nameSeq name
  · simp [hs] at h
  · simp only [if_neg hs] at h ⊢
    cases hx : s.nameEntry name with
    | none => simp [hx] at h
    | some x =>
      simp only [hx] at h
      refine ⟨x, rfl, ?_⟩
      by_cases hl : x.live = false ∧ cached = false
      · simp [hl] at h
      · by_cases hr : x.right s.part.serial asid = 0
        · simp [hl, hr] at h
        · have : (x.live || cached) = true := by cases hxl : x.live <;> simp_all
          simp [hr, this]

/-- The status that a cluster's look-up of a name of any module fails with, or 0: what the statement's `code` says. -/
def resolveCode (s : State) (cl asid : Nat) (name : BitVec 128) : Nat :=
  if nameSerial name ≠ s.part.serial then 0x0D else lookCode s asid ((s.cluster cl).names.contains name) name

theorem resolve_fails {s : State} {cl asid : Nat} {name : BitVec 128} (h : resolveCode s cl asid name ≠ 0) :
    s.resolve cl asid name = .fails (resolveCode s cl asid name) := by
  unfold State.resolve resolveCode
  unfold resolveCode at h
  by_cases hs : nameSerial name ≠ s.part.serial
  · simp only [if_pos hs]; rfl
  · simp only [if_neg hs] at h ⊢
    exact lookUp_fails h

theorem resolve_good {s : State} {cl asid : Nat} {name : BitVec 128} (h : resolveCode s cl asid name = 0) :
    ∃ x, s.nameEntry name = some x ∧ s.resolve cl asid name = .good x := by
  unfold State.resolve
  unfold resolveCode at h
  by_cases hs : nameSerial name ≠ s.part.serial
  · simp [hs] at h
  · simp only [if_neg hs] at h ⊢
    exact lookUp_good h

theorem nameEntry_updName (s : State) (n : BitVec 128) (f : NameEntry → NameEntry) :
    (s.updName n f).nameEntry n = (s.nameEntry n).map f := by
  unfold State.nameEntry State.updName
  dsimp only
  induction s.names with
  | nil => rfl
  | cons p r ih =>
    by_cases hp : p.1 = n
    · simp [hp]
    · simpa [hp, List.find?_cons] using ih

theorem nameEntry_cacheName (s : State) (cl : Nat) (n m : BitVec 128) : (s.cacheName cl n).nameEntry m = s.nameEntry m := by
  unfold State.cacheName
  cases s.nameEntry n with
  | none => rfl
  | some e => dsimp only; split <;> rfl

@[simp] theorem sweepNames_ctx (s : State) (k : Nat) : s.sweepNames.ctx k = s.ctx k := rfl
@[simp] theorem sweepNames_mem (s : State) : s.sweepNames.mem = s.mem := rfl

theorem find?_filter_of_kept {α : Type} {l : List α} {p q : α → Bool} {a : α} (h : l.find? q = some a) (ha : p a = true) :
    (l.filter p).find? q = some a := by
  rw [List.find?_filter, List.find?_eq_some_iff_append]
  obtain ⟨hq, as, bs, hl, hno⟩ := List.find?_eq_some_iff_append.mp h
  exact ⟨by simp [ha, hq], as, bs, hl, fun x hx => by
    simpa using .inr (by simpa using hno x hx)⟩

/-- An entry that is live, or still bound, or still being shot down stays in the table (R297). -/
theorem nameEntry_sweepNames {s : State} {n : BitVec 128} {x : NameEntry} (h : s.nameEntry n = some x)
    (hx : (x.live || !x.shooting.isEmpty || x.count != 0) = true) : s.sweepNames.nameEntry n = some x := by
  unfold State.nameEntry at *
  obtain ⟨p, hp, rfl⟩ := Option.map_eq_some_iff.mp h
  rw [show s.sweepNames.names = s.names.filter fun p => p.2.live || !p.2.shooting.isEmpty || p.2.count != 0 from rfl,
    find?_filter_of_kept hp hx]
  rfl

theorem cacheName_outside (s : State) (cl : Nat) (n : BitVec 128) : ∃ cs, s.cacheName cl n = { s with clusters := cs } := by
  unfold State.cacheName
  cases s.nameEntry n with
  | none => exact ⟨_, rfl⟩
  | some e =>
    dsimp only
    split
    · exact ⟨_, rfl⟩
    · exact ⟨_, rfl⟩

/-! ### The bits of an extent register (R70) -/

theorem mkExtent_toNat (base len : Nat) (wr : Bool) (cls : Nat) (msa named : Bool) :
    (mkExtent base len wr cls msa named).toNat = base % 2 ^ 55 * 2 ^ 73 + len % 2 ^ 48 * 2 ^ 25 + 2 ^ 24 + (if wr then 2 ^ 23 else 0) +
      cls % 4 * 2 ^ 21 + (if msa then 2 ^ 20 else 0) + if named then 2 ^ 19 else 0 := by
  unfold mkExtent
  rw [BitVec.toNat_ofNat]
  cases wr <;> cases msa <;> cases named <;> simp <;> omega

theorem extBase_mkExtent {base : Nat} (h : base < 2 ^ 55) (len : Nat) (wr : Bool) (cls : Nat) (msa named : Bool) :
    extBase (mkExtent base len wr cls msa named) = base := by
  unfold extBase bits
  rw [mkExtent_toNat, Nat.shiftRight_eq_div_pow]
  cases wr <;> cases msa <;> cases named <;> simp <;> omega

theorem extLen_mkExtent {len : Nat} (h : len < 2 ^ 48) (base : Nat) (wr : Bool) (cls : Nat) (msa named : Bool) :
    extLen (mkExtent base len wr cls msa named) = len := by
  unfold extLen bits
  rw [mkExtent_toNat, Nat.shiftRight_eq_div_pow]
  cases wr <;> cases msa <;> cases named <;> simp <;> omega

theorem extValid_mkExtent (base len : Nat) (wr : Bool) (cls : Nat) (msa named : Bool) :
    extValid (mkExtent base len wr cls msa named) = true := by
  unfold extValid bit
  rw [mkExtent_toNat, Nat.testBit_eq_decide_div_mod_eq]
  cases wr <;> cases msa <;> cases named <;> simp <;> omega

theorem named_mkExtent (base len : Nat) (wr : Bool) (cls : Nat) (msa named : Bool) :
    (mkExtent base len wr cls msa named).getLsbD 19 = named := by
  unfold BitVec.getLsbD
  rw [mkExtent_toNat, Nat.testBit_eq_decide_div_mod_eq]
  cases wr <;> cases msa <;> cases named <;> simp <;> omega

theorem writable_mkExtent (base len : Nat) (wr : Bool) (cls : Nat) (msa named : Bool) :
    (mkExtent base len wr cls msa named).getLsbD 23 = wr := by
  unfold BitVec.getLsbD
  rw [mkExtent_toNat, Nat.testBit_eq_decide_div_mod_eq]
  cases wr <;> cases msa <;> cases named <;> simp <;> omega

/-! ### The pages that a binding pins (R292) -/

/-- A is set in the entry of every page, and no other byte changes. -/
theorem byte_foldl_accessed (ps : List Page) (m : Mem) (b : Nat) :
    (ps.foldl (fun m p => m.setByte (p.at_ + 1) (m.byte (p.at_ + 1) ||| 4)) m).byte b =
      if ∃ p ∈ ps, p.at_ + 1 = b then m.byte b ||| 4 else m.byte b := by
  induction ps generalizing m with
  | nil => simp
  | cons p r ih =>
    rw [List.foldl_cons, ih, byte_setByte]
    by_cases hp : p.at_ + 1 = b
    · subst hp
      by_cases hr : ∃ q ∈ r, q.at_ + 1 = p.at_ + 1 <;> simp [BitVec.or_assoc]
    · have hp' : ¬ b = p.at_ + 1 := fun h => hp h.symm
      simp [hp, hp']

theorem unbind_absent {s : State} {a : Arch} {slot : Nat} (h : s.nameEntry (look 0 a.names slot) = none) : s.unbind a slot = (s, a) := by
  unfold State.unbind
  rw [h]

theorem unpinPages_pins (a : Arch) (ps : List Page) : ∃ pins holds, a.unpinPages ps = { a with pins := pins, holds := holds } := by
  unfold Arch.unpinPages
  induction ps.map Page.frame generalizing a with
  | nil => exact ⟨a.pins, a.holds, rfl⟩
  | cons f r ih =>
    rw [List.foldl_cons]
    by_cases hf : a.holds.contains f = true
    · rw [if_pos hf]
      obtain ⟨ps, hs, h⟩ := ih { a with holds := a.holds.erase f }
      exact ⟨ps, hs, h⟩
    · rw [if_neg hf]
      obtain ⟨ps, hs, h⟩ := ih { a with pins := a.pins.erase f }
      exact ⟨ps, hs, h⟩

/-- Releasing a slot's binding changes the table's counts and the task's pins and names alone. -/
theorem unbind_outside (s : State) (a : Arch) (slot : Nat) : ∃ ns pins holds names,
    s.unbind a slot = ({ s with names := ns }, { a with pins := pins, holds := holds, names := names }) := by
  unfold State.unbind
  cases s.nameEntry (look 0 a.names slot) with
  | none => exact ⟨s.names, a.pins, a.holds, a.names, rfl⟩
  | some e =>
    dsimp only
    split
    · obtain ⟨ps, hs, h⟩ := unpinPages_pins a (a.slotPages slot)
      rw [h]
      exact ⟨_, ps, hs, _, rfl⟩
    · exact ⟨s.names, a.pins, a.holds, a.names, rfl⟩

/-- What a slot of a task is after it is bound to the object `x` of the name (R296). -/
structure Bound (img : List Nat) (a : Arch) (slot : Nat) (name : BitVec 128) (x : NameEntry) (wr : Bool) : Prop where
  valid : slot ∉ a.eBad
  base : extBase (look 0 a.e slot) = x.base
  len : extLen (look 0 a.e slot) = x.len
  named : (look 0 a.e slot).getLsbD 19 = true
  isValid : extValid (look 0 a.e slot) = true
  name_ : look 0 a.names slot = name
  pages : look [] a.ePages slot = x.pages
  writable : (look 0 a.e slot).getLsbD 23 = (wr && !x.pages.any fun p => img.contains p.frame)

theorem bindName_bound (s : State) (a : Arch) (slot : Nat) (name : BitVec 128) {x : NameEntry} (wr deep : Bool)
    (hb : x.base < 2 ^ 55) (hl : x.len < 2 ^ 48) : Bound s.imagePages (s.bindName a slot name x wr deep).2 slot name x wr := by
  have he : look 0 (s.bindName a slot name x wr deep).2.e slot = mkExtent x.base x.len
      (wr && !x.pages.any fun p => s.imagePages.contains p.frame) (slotAttr x.pages).1 (slotAttr x.pages).2 true := by
    unfold State.bindName State.pinPages
    dsimp only
    rw [look_put_same]
  exact {
    valid := by
      show slot ∉ List.filter _ _
      simp
    base := by rw [he, extBase_mkExtent hb]
    len := by rw [he, extLen_mkExtent hl]
    named := by rw [he, named_mkExtent]
    isValid := by rw [he, extValid_mkExtent]
    name_ := look_put_same ..
    pages := look_put_same ..
    writable := by rw [he, writable_mkExtent] }

theorem bindName_e_other (s : State) (a : Arch) {slot j : Nat} (h : j ≠ slot) (name : BitVec 128) (x : NameEntry) (wr deep : Bool) :
    look 0 (s.bindName a slot name x wr deep).2.e j = look 0 a.e j := by
  unfold State.bindName State.pinPages
  dsimp only
  rw [look_put_other _ _ _ h]

theorem bindName_outside (s : State) (a : Arch) (slot : Nat) (name : BitVec 128) (x : NameEntry) (wr deep : Bool) :
    (s.bindName a slot name x wr deep).1 = { s.updName name fun e => { e with count := e.count + 1 } with
      mem := x.pages.foldl (fun m p => m.setByte (p.at_ + 1) (m.byte (p.at_ + 1) ||| 4)) s.mem } := rfl

/-- A name that a task of the module may bind: the state in which its request lands, and the word that lands. -/
theorem nresLand_good {s : State} {k : Nat} {slot : Nat} {name : BitVec 128} {x : NameEntry}
    (hr : s.resolve (clusterOf k) (s.ctx k).arch.info.asid name = .good x) (hw : x.whole = true) :
    s.nresLand k slot name =
      (let t := s.cacheName (clusterOf k) name
       let u := t.unbind (s.ctx k).arch slot
       let b := u.1.bindName u.2 slot name x (x.right s.part.serial (s.ctx k).arch.info.asid == 3) false
       ((b.1.setCtx k { b.1.ctx k with arch := b.2 }).sweepNames, statusWord 0 stOk x.pageCount)) := by
  unfold State.nresLand
  dsimp only
  rw [hr]
  simp only [hw]
  rfl

/-- NRES of a name that the task may bind binds the slot, pins the object's pages and counts the binding (R196, R292, R296). -/
theorem nresLand_binds {s : State} {k slot : Nat} {name : BitVec 128} {x : NameEntry} (hx : s.nameEntry name = some x)
    (hr : s.resolve (clusterOf k) (s.ctx k).arch.info.asid name = .good x) (hw : x.whole = true) (hb : x.base < 2 ^ 55) (hl : x.len < 2 ^ 48) :
    let t := (s.nresLand k slot name).1
    (s.nresLand k slot name).2 = statusWord 0 0 x.pageCount ∧ (∀ j, j ≠ k → t.ctx j = s.ctx j) ∧ (t.ctx k).sb = (s.ctx k).sb ∧
    Bound s.imagePages (t.ctx k).arch slot name x (x.right s.part.serial (s.ctx k).arch.info.asid == 3) ∧
    (∀ j, j ≠ slot → look 0 (t.ctx k).arch.e j = look 0 (s.ctx k).arch.e j) ∧
    t.mem = x.pages.foldl (fun m p => m.setByte (p.at_ + 1) (m.byte (p.at_ + 1) ||| 4)) s.mem ∧
    (s.nameEntry (look 0 (s.ctx k).arch.names slot) = none → t.nameEntry name = some { x with count := x.count + 1 }) := by
  rw [nresLand_good hr hw]
  dsimp only
  obtain ⟨cs, hc⟩ := cacheName_outside s (clusterOf k) name
  obtain ⟨ns, pins, holds, names, hu⟩ := unbind_outside (s.cacheName (clusterOf k) name) (s.ctx k).arch slot
  have hout := bindName_outside
    ((s.cacheName (clusterOf k) name).unbind (s.ctx k).arch slot).1 ((s.cacheName (clusterOf k) name).unbind (s.ctx k).arch slot).2
    slot name x (x.right s.part.serial (s.ctx k).arch.info.asid == 3) false
  refine ⟨rfl, fun j hj => ?_, ?_, ?_, fun j hj => ?_, ?_, fun ha => ?_⟩
  · rw [sweepNames_ctx, ctx_setCtx_other _ _ hj, hout, hu, hc]; rfl
  · rw [sweepNames_ctx, ctx_setCtx_same, hout, hu, hc]; rfl
  · rw [sweepNames_ctx, ctx_setCtx_same]
    have h := bindName_bound ((s.cacheName (clusterOf k) name).unbind (s.ctx k).arch slot).1
      ((s.cacheName (clusterOf k) name).unbind (s.ctx k).arch slot).2 slot name
      (x.right s.part.serial (s.ctx k).arch.info.asid == 3) false hb hl
    rwa [show ((s.cacheName (clusterOf k) name).unbind (s.ctx k).arch slot).1.imagePages = s.imagePages by rw [hu, hc]; rfl] at h
  · rw [sweepNames_ctx, ctx_setCtx_same]
    dsimp only
    rw [bindName_e_other _ _ hj, hu]
  · rw [sweepNames_mem, setCtx_mem, hout, hu, hc]
  · have hn : ((s.cacheName (clusterOf k) name).updName name fun e => { e with count := e.count + 1 }).nameEntry name =
        some { x with count := x.count + 1 } := by
      rw [nameEntry_updName, nameEntry_cacheName, hx]; rfl
    rw [unbind_absent (by rw [nameEntry_cacheName]; exact ha)] at hout ⊢
    refine nameEntry_sweepNames ?_ (by simp)
    rw [show ∀ (u : State) c, (u.setCtx k c).nameEntry name = u.nameEntry name from fun _ _ => rfl, hout]
    exact hn

theorem landWord_arch (s : State) (k e n : Nat) (w : Word) :
    ∃ r, ((s.landWord k e (.s n) w).ctx k).arch = { (s.ctx k).arch with s := r } := by
  rw [show s.landWord k e (.s n) w = s.landIn k e (.s n) { val := w } {} {} from rfl, landIn_s_arch]
  split
  · exact ⟨(s.ctx k).arch.s, rfl⟩
  · exact ⟨_, rfl⟩

theorem nresLand_fails {s : State} {k slot code : Nat} {name : BitVec 128}
    (hr : s.resolve (clusterOf k) (s.ctx k).arch.info.asid name = .fails code) : s.nresLand k slot name = (s, statusWord 0 code 0) := by
  unfold State.nresLand
  dsimp only
  rw [hr]

theorem nresLand_partial {s : State} {k slot : Nat} {name : BitVec 128} {x : NameEntry}
    (hr : s.resolve (clusterOf k) (s.ctx k).arch.info.asid name = .good x) (hw : x.whole = false) :
    s.nresLand k slot name = (s, statusWord 0 3 0) := by
  unfold State.nresLand
  dsimp only
  rw [hr]
  simp only [hw]
  rfl

theorem whole_iff (x : NameEntry) : x.whole = true ↔ ∀ p ∈ pagesOf x.base x.len, pageOf x.pages p ≠ none := by
  unfold NameEntry.whole
  simp [Option.isSome_iff_ne_none]

theorem nstatLand_fails {s : State} {k code : Nat} {name : BitVec 128}
    (hr : s.resolve (clusterOf k) (s.ctx k).arch.info.asid name = .fails code) : s.nstatLand k name = (s, statusWord 0 code 0) := by
  unfold State.nstatLand
  dsimp only
  rw [hr]

theorem nstatLand_good {s : State} {k : Nat} {name : BitVec 128} {x : NameEntry}
    (hr : s.resolve (clusterOf k) (s.ctx k).arch.info.asid name = .good x) :
    s.nstatLand k name = (s.cacheName (clusterOf k) name, statusWord 0 0 x.pageCount) := by
  unfold State.nstatLand
  dsimp only
  rw [hr]
  rfl

/-! ### The removal of a name (R297) -/

theorem foldl_send (l : List Nat) (kind : Nat) (body : List Byte) (s : State) :
    l.foldl (fun s m => s.send kind m body) s =
      { s with out := s.out ++ l.map fun m => { kind := kind, dest := m, body := body } } := by
  induction l generalizing s with
  | nil => simp
  | cons m r ih =>
    rw [List.foldl_cons, ih]
    unfold State.send
    simp

/-- The clusters whose look-aside holds the name, and the modules with mappings of the object that this one meets. -/
def shootTargets (s : State) (name : BitVec 128) (x : NameEntry) : List Nat :=
  ((s.clusters.filter fun p => p.2.names.contains name).map Prod.fst) ++ (x.holders.filter s.meets).map (32 + ·)

theorem killName_eq {s : State} {name : BitVec 128} {x : NameEntry} (hx : s.nameEntry name = some x) (killer : Option Nat) :
    s.killName name killer =
      { s.updName name (fun e => { e with live := false, shooting := shootTargets s name x, killer := killer }) with
        out := s.out ++ (x.holders.filter s.meets).map fun m => { kind := 0x24, dest := m, body := leBytes 16 name.toNat } } := by
  unfold State.killName
  dsimp only
  rw [hx]
  dsimp only
  rw [foldl_send]
  rfl

theorem nameEntry_killName {s : State} {name : BitVec 128} {x : NameEntry} (hx : s.nameEntry name = some x) (killer : Option Nat) :
    (s.killName name killer).nameEntry name = some { x with live := false, shooting := shootTargets s name x, killer := killer } := by
  rw [killName_eq hx]
  have h := nameEntry_updName s name fun e => { e with live := false, shooting := shootTargets s name x, killer := killer }
  rw [hx] at h
  exact h

/-- A name is shot down at once where no cluster's look-aside and no holder has it. -/
theorem shot_killName {s : State} {name : BitVec 128} {x : NameEntry} (hx : s.nameEntry name = some x) (killer : Option Nat) :
    (s.killName name killer).shot name = true ↔
      ¬((∃ p ∈ s.clusters, name ∈ p.2.names) ∨ x.holders.filter s.meets ≠ []) := by
  unfold State.shot
  rw [nameEntry_killName hx]
  unfold shootTargets
  simp [List.isEmpty_iff, List.filter_eq_nil_iff, not_or]

theorem dead_killName {s : State} {name : BitVec 128} {x : NameEntry} (hx : s.nameEntry name = some x) (killer : Option Nat) :
    ∀ p ∈ (s.killName name killer).names, p.1 = name → p.2.live = false := by
  rw [killName_eq hx]
  intro p hp hn
  obtain ⟨q, -, rfl⟩ := List.mem_map.mp hp
  by_cases hq : q.1 = name
  · simp [hq]
  · simp [hq] at hn

/-! ### Submissions from the device (R329) -/

theorem look_default_or_mem {α : Type} (d : α) (m : FMap α) (k : Nat) : look d m k = d ∨ (k, look d m k) ∈ m := by
  induction m with
  | nil => exact .inl rfl
  | cons p r ih =>
    obtain ⟨j, v⟩ := p
    by_cases hj : j = k
    · subst hj
      simp [look]
    · simpa [look, hj, Ne.symm hj] using ih

theorem plain_of_mergesNone {s : State} (h : s.mergesNone = true) : s.plain := by
  unfold State.mergesNone at h
  simp only [Bool.and_eq_true, List.all_eq_true, List.isEmpty_iff] at h
  intro c
  obtain hl | hl := look_default_or_mem ({} : Core) s.cores c
  · rw [State.core, hl]
  · exact h.1 _ hl

theorem agentRead_outside {s : State} (h : s.mergesNone = true) (asid va n : Nat) : ∃ l, (s.agentRead asid va n).1 = { s with hidden := l } := by
  obtain ⟨l, hl⟩ := agentUnits_plain (3, 0) ((unitsOf va n).map (s.uref asid)) s (plain_of_mergesNone h)
  refine ⟨l, ?_⟩
  unfold State.agentRead
  rw [hl]

/-- What a submission leaves where no merge holds its node table: a refused one nothing, an accepted one the launch that it queues. -/
def Submitted (s : State) (q : Nat) (r : State × Nat × Nat) : Prop :=
  (r.2.1 ≠ 0 → r.2.2 = 0 ∧ ∃ l, r.1 = { s with hidden := l }) ∧
  (r.2.1 = 0 → r.2.2 = s.nextSeq % 2 ^ 32 ∧ ∃ l x, x.queue = q ∧ x.seq = s.nextSeq ∧
    r.1 = { s with hidden := l, launches := put noLaunch s.launches s.nextSeq x, nextSeq := s.nextSeq + 1 })

theorem submitted_refused (s : State) (q l : _) {code : Nat} (h : code ≠ 0) : Submitted s q ({ s with hidden := l }, code, 0) :=
  ⟨fun _ => ⟨rfl, l, rfl⟩, fun h' => absurd h' h⟩

theorem submit_submitted {s : State} (h : s.mergesNone = true) (q : Nat) (rec_ : List Byte) (dev host : Option Nat) (tag : Nat) (cred : Bool) :
    Submitted s q (s.submit q rec_ dev host tag cred) := by
  unfold State.submit
  refine iteInduction (motive := Submitted s q) (fun _ => submitted_refused s q s.hidden (by decide)) fun _ => ?_
  refine iteInduction (motive := Submitted s q) (fun _ => submitted_refused s q s.hidden (by decide)) fun _ => ?_
  cases s.images.find? fun i => i.asid == qOwner (s.qcfg q) && i.base == fld rec_ 8 8 with
  | none => exact submitted_refused s q s.hidden (by decide)
  | some img =>
    refine iteInduction (motive := Submitted s q) (fun _ => submitted_refused s q s.hidden (by decide)) fun _ => ?_
    refine iteInduction (motive := Submitted s q) (fun hc => submitted_refused s q s.hidden hc) fun _ => ?_
    obtain ⟨l, hl⟩ := agentRead_outside h (qOwner (s.qcfg q)) (fld rec_ 16 8) (640 * fld rec_ 7 1)
    refine iteInduction (motive := Submitted s q) (fun _ => ?_) fun _ => ?_
    · rw [hl]
      exact submitted_refused s q l (by decide)
    · rw [hl]
      exact ⟨fun h' => absurd rfl h', fun _ => ⟨rfl, l, _, rfl, rfl, rfl⟩⟩

theorem submit_denied {s : State} {q asid : Nat} (h : (look 0 s.queues q).getLsbD 8 = false ∨ (look 0 s.queues q).getLsbD 9 = false ∨
    bits (look 0 s.queues q) 16 16 ≠ asid) (rec_ : List Byte) (host : Option Nat) (tag : Nat) (cred : Bool) :
    s.submit q rec_ (some asid) host tag cred = (s, 0x0C, 0) := by
  unfold State.submit
  have hd : (!qEn (s.qcfg q) || (!qDevopen (s.qcfg q) || asid != qOwner (s.qcfg q))) = true := by
    obtain h | h | h := h
    · simp [show qEn (s.qcfg q) = false from h]
    · simp [show qDevopen (s.qcfg q) = false from h]
    · simp [show asid ≠ qOwner (s.qcfg q) from fun he => h he.symm]
  dsimp only
  rw [if_pos hd]
  rfl

/-! ### The arrival of each kind of result -/

section
variable {ctx entry answer pages : Nat} {s : State} {e : SbEntry}

theorem exec_result_none (h : (s.ctx ctx).sb[entry]? = none ∨ (s.ctx ctx).held entry = true) :
    Idles (.scoreboardResultLand ctx entry answer pages) s := by
  show execScoreboardResultLand ctx entry answer pages s = _
  unfold execScoreboardResultLand
  cases he : (s.ctx ctx).sb[entry]? with
  | none => simp only [he]
  | some e =>
    have hh : (s.ctx ctx).held entry = true := h.resolve_left (by simp [he])
    simp only [he, hh, if_true]

variable (he : (s.ctx ctx).sb[entry]? = some e) (hh : (s.ctx ctx).held entry = false)
include he hh

theorem exec_result_scalar {v : SReg} (hw : e.what = .scalar v) :
    exec (.scoreboardResultLand ctx entry answer pages) s = .next (s.landIn ctx entry e.dst v {} {}) := by
  show execScoreboardResultLand ctx entry answer pages s = _
  simp [execScoreboardResultLand, he, hh, hw]

theorem exec_result_vector {v : VReg} (hw : e.what = .vector v) :
    exec (.scoreboardResultLand ctx entry answer pages) s = .next (s.landIn ctx entry e.dst {} {} v) := by
  show execScoreboardResultLand ctx entry answer pages s = _
  simp [execScoreboardResultLand, he, hh, hw]

theorem exec_result_pair {lo hi : Word} {psn : Bool} (hw : e.what = .pair lo hi psn) :
    exec (.scoreboardResultLand ctx entry answer pages) s =
      .next (s.landIn ctx entry e.dst { val := lo, psn := psn } { val := hi, psn := psn } {}) := by
  show execScoreboardResultLand ctx entry answer pages s = _
  simp [execScoreboardResultLand, he, hh, hw]

theorem exec_result_late (hw : (∃ u, e.what = .update u) ∨ (∃ id, e.what = .late id) ∨ ∃ k u, e.what = .token k u) :
    Idles (.scoreboardResultLand ctx entry answer pages) s := by
  show execScoreboardResultLand ctx entry answer pages s = _
  obtain ⟨u, hw⟩ | ⟨id, hw⟩ | ⟨k, u, hw⟩ := hw <;> simp [execScoreboardResultLand, he, hh, hw]

theorem exec_result_sget {sem upto : Nat} (hw : e.what = .sget sem upto) :
    exec (.scoreboardResultLand ctx entry answer pages) s = .next (if (s.ctx ctx).owes sem upto then s
      else s.landWord ctx entry e.dst (s.sem (clusterOf ctx) (s.ctx ctx).arch.info sem).word) := by
  show execScoreboardResultLand ctx entry answer pages s = _
  simp [execScoreboardResultLand, he, hh, hw]

theorem exec_result_probe {ps : List Page} (hw : e.what = .probe ps) :
    exec (.scoreboardResultLand ctx entry answer pages) s = .next (if !s.probeDone (s.ctx ctx).arch ps then s
      else (s.setCtx ctx { s.ctx ctx with arch := ((s.ctx ctx).arch.probeResult ps).1 }).landWord ctx entry e.dst
        ((s.ctx ctx).arch.probeResult ps).2) := by
  show execScoreboardResultLand ctx entry answer pages s = _
  simp [execScoreboardResultLand, he, hh, hw]

theorem exec_result_nres {slot : Nat} {name : BitVec 128} (hw : e.what = .nres slot name) :
    exec (.scoreboardResultLand ctx entry answer pages) s =
      .next ((s.nresLand ctx slot name).1.landWord ctx entry e.dst (s.nresLand ctx slot name).2) := by
  show execScoreboardResultLand ctx entry answer pages s = _
  simp [execScoreboardResultLand, he, hh, hw]

theorem exec_result_nstat {name : BitVec 128} (hw : e.what = .nstat name) (hs : nameSerial name = s.part.serial) :
    exec (.scoreboardResultLand ctx entry answer pages) s =
      .next ((s.nstatLand ctx name).1.landWord ctx entry e.dst (s.nstatLand ctx name).2) := by
  show execScoreboardResultLand ctx entry answer pages s = _
  simp [execScoreboardResultLand, he, hh, hw, hs]

theorem exec_result_nstat_far {name : BitVec 128} (hw : e.what = .nstat name) (hs : nameSerial name ≠ s.part.serial) :
    exec (.scoreboardResultLand ctx entry answer pages) s = match s.foreignAnswer name answer with
      | some code => .next (s.landWord ctx entry e.dst (statusWord 0 code (if code = stOk then pages else 0)))
      | none => .next s := by
  show execScoreboardResultLand ctx entry answer pages s = _
  cases hf : s.foreignAnswer name answer <;> simp [execScoreboardResultLand, he, hh, hw, hs, hf]

theorem exec_result_nkill_far {name : BitVec 128} {removed : Bool} (hw : e.what = .nkill name removed) (hs : nameSerial name ≠ s.part.serial) :
    exec (.scoreboardResultLand ctx entry answer pages) s = match s.foreignAnswer name answer with
      | some code => .next (s.landWord ctx entry e.dst (statusWord 0 code 0))
      | none => .next s := by
  show execScoreboardResultLand ctx entry answer pages s = _
  cases hf : s.foreignAnswer name answer <;> simp [execScoreboardResultLand, he, hh, hw, hs, hf]

theorem exec_result_nkill_removed {name : BitVec 128} (hw : e.what = .nkill name true) (hs : nameSerial name = s.part.serial) :
    exec (.scoreboardResultLand ctx entry answer pages) s =
      .next (if s.shot name then s.landWord ctx entry e.dst (statusWord 0 stOk 0) else s) := by
  show execScoreboardResultLand ctx entry answer pages s = _
  simp [execScoreboardResultLand, he, hh, hw, hs]

theorem exec_result_nkill {name : BitVec 128} (hw : e.what = .nkill name false) (hs : nameSerial name = s.part.serial) :
    exec (.scoreboardResultLand ctx entry answer pages) s =
      if s.killCheck s.part.serial (s.ctx ctx).arch.info.asid name ≠ stOk then
        .next (s.landWord ctx entry e.dst (statusWord 0 (s.killCheck s.part.serial (s.ctx ctx).arch.info.asid name) 0))
      else .next (if (s.killName name none).shot name then
          ((s.killName name none).landWord ctx entry e.dst (statusWord 0 stOk 0)).sweepNames
        else (s.killName name none).setCtx ctx
          { s.ctx ctx with sb := (s.ctx ctx).sb.set entry { e with what := .nkill name true } }) := by
  show execScoreboardResultLand ctx entry answer pages s = _
  simp [execScoreboardResultLand, he, hh, hw, hs]

/-- ENQ's own earlier updates and accesses that are still to be made (R182). -/
def owesEarlier (s : State) (ctx upto : Nat) : Bool :=
  ((s.ownUpdates ctx).any fun u => decide (u.id < upto)) || ((s.ctx ctx).late.any fun l => decide (l.id < upto))

theorem exec_result_enq {queue status upto : Nat} {rec_ : List Byte} (hw : e.what = .enq queue rec_ status upto) :
    exec (.scoreboardResultLand ctx entry answer pages) s =
      if owesEarlier s ctx upto then .next s
      else if status ≠ stOk then .next (s.landWord ctx entry e.dst (statusWord 0 status 0))
      else if !(s.clears [tableRange (qOwner (s.qcfg queue)) rec_]).2 then .next (s.clears [tableRange (qOwner (s.qcfg queue)) rec_]).1
      else .next ((s.submit queue rec_ (some (s.ctx ctx).arch.info.asid) none 0 false).1.landWord ctx entry e.dst
        (statusWord 0 (s.submit queue rec_ (some (s.ctx ctx).arch.info.asid) none 0 false).2.1
          (s.submit queue rec_ (some (s.ctx ctx).arch.info.asid) none 0 false).2.2)) := by
  show execScoreboardResultLand ctx entry answer pages s = _
  unfold execScoreboardResultLand owesEarlier
  simp only [he, hh, hw]
  rfl

end

theorem owesEarlier_iff (s : State) (ctx upto : Nat) : owesEarlier s ctx upto = true ↔
    (∃ u ∈ s.updates, u.owner = some ctx ∧ u.id < upto) ∨ ∃ l ∈ (s.ctx ctx).late, l.id < upto := by
  unfold owesEarlier State.ownUpdates
  simp [List.any_eq_true]

theorem owes_iff (c : Ctx) (sem upto : Nat) : c.owes sem upto = true ↔ ∃ p ∈ c.signals, p.sem = sem ∧ p.born < upto := by
  unfold Ctx.owes
  simp [List.any_eq_true]

theorem deep_iff (p : Page) : p.deep = decide (deepBase ≤ p.frame * 65536) := rfl

theorem probeDone_iff (s : State) (a : Arch) (ps : List Page) : s.probeDone a ps = true ↔
    ∀ p ∈ ps, ¬(deepBase ≤ p.frame * 65536 ∧ p.frame ∈ a.migrating ∧ s.pinned p.frame = false) := by
  unfold State.probeDone
  rw [List.all_eq_true]
  exact forall₂_congr fun p _ => by cases s.pinned p.frame <;> simp [deep_iff, imp_iff_not_or]

/-- A name's home that this module does not reach gives UNREACHABLE; one that it does gives its answer, once that has come. -/
theorem foreignAnswer_eq (s : State) (name : BitVec 128) (answer : Nat) :
    s.foreignAnswer name answer = if s.reaches (nameSerial name) = false then some 0x1B
      else if answer ∈ [0, 0x0A, 0x0B, 0x0C, 0x1B] then some answer else none := by
  unfold State.foreignAnswer
  cases s.reaches (nameSerial name) <;> simp [stUnreachable, stOk, stGone, stNever, stDenied]

theorem killCheck_fails {s : State} {asid : Nat} {name : BitVec 128} (h : lookCode s asid false name ≠ 0) :
    s.killCheck s.part.serial asid name = lookCode s asid false name := by
  unfold State.killCheck
  rw [lookUp_fails h]

theorem killCheck_good {s : State} {asid : Nat} {name : BitVec 128} {x : NameEntry} (h : lookCode s asid false name = 0)
    (hx : s.nameEntry name = some x) :
    s.killCheck s.part.serial asid name = if x.right s.part.serial asid = 3 then 0 else 0x0C := by
  obtain ⟨y, hy, hl⟩ := lookUp_good h
  obtain rfl : y = x := Option.some.inj (hy.symm.trans hx)
  unfold State.killCheck
  rw [hl]
  rfl

/-! ### Each kind of result, as the statement says it -/

section
variable {ctx entry answer pages : Nat} {s : State} {e : SbEntry}

/-- The event lands `v` in scalar register `n`. -/
def LandsNext (ctx entry answer pages : Nat) (s : State) (n : Nat) (v : SReg) : Prop :=
  ∃ t, exec (.scoreboardResultLand ctx entry answer pages) s = .next t ∧ Lands ctx entry (s.ctx ctx).sb s t n v

theorem landsNext_word {n : Nat} {w : Word}
    (h : exec (.scoreboardResultLand ctx entry answer pages) s = .next (s.landWord ctx entry (.s n) w)) :
    LandsNext ctx entry answer pages s n { val := w } := ⟨_, h, lands_landWord ..⟩

variable (hh : (s.ctx ctx).held entry = false)
include hh

theorem nres_fails {n slot : Nat} {name : BitVec 128} (he : (s.ctx ctx).sb[entry]? = some { dst := .s n, what := .nres slot name })
    (hc : resolveCode s (clusterOf ctx) (s.ctx ctx).arch.info.asid name ≠ 0) :
    LandsNext ctx entry answer pages s n
      { val := statusWord 0 (resolveCode s (clusterOf ctx) (s.ctx ctx).arch.info.asid name) 0 } := by
  apply landsNext_word
  rw [exec_result_nres he hh rfl, nresLand_fails (resolve_fails hc)]

theorem nres_partial {n slot : Nat} {name : BitVec 128} {x : NameEntry}
    (he : (s.ctx ctx).sb[entry]? = some { dst := .s n, what := .nres slot name })
    (hr : s.resolve (clusterOf ctx) (s.ctx ctx).arch.info.asid name = .good x) (hw : x.whole = false) :
    LandsNext ctx entry answer pages s n { val := statusWord 0 3 0 } := by
  apply landsNext_word
  rw [exec_result_nres he hh rfl, nresLand_partial hr hw]

theorem nstat_fails {n : Nat} {name : BitVec 128} (he : (s.ctx ctx).sb[entry]? = some { dst := .s n, what := .nstat name })
    (hs : nameSerial name = s.part.serial) (hc : resolveCode s (clusterOf ctx) (s.ctx ctx).arch.info.asid name ≠ 0) :
    LandsNext ctx entry answer pages s n
      { val := statusWord 0 (resolveCode s (clusterOf ctx) (s.ctx ctx).arch.info.asid name) 0 } := by
  apply landsNext_word
  rw [exec_result_nstat he hh rfl hs, nstatLand_fails (resolve_fails hc)]

theorem nstat_answers {n : Nat} {name : BitVec 128} {x : NameEntry} (he : (s.ctx ctx).sb[entry]? = some { dst := .s n, what := .nstat name })
    (hs : nameSerial name = s.part.serial) (hr : s.resolve (clusterOf ctx) (s.ctx ctx).arch.info.asid name = .good x) :
    ∃ t, exec (.scoreboardResultLand ctx entry answer pages) s = .next t ∧
      Lands ctx entry (s.ctx ctx).sb s t n { val := statusWord 0 0 x.pageCount } ∧ t.names = s.names := by
  obtain ⟨cl, hcl⟩ := cacheName_outside s (clusterOf ctx) name
  obtain ⟨cs, co, ho⟩ := landWord_outside (s.cacheName (clusterOf ctx) name) ctx entry n (statusWord 0 0 x.pageCount)
  refine ⟨(s.cacheName (clusterOf ctx) name).landWord ctx entry (.s n) (statusWord 0 0 x.pageCount), ?_, ?_, ?_⟩
  · rw [exec_result_nstat he hh rfl hs, nstatLand_good hr]
  · exact lands_word (by rw [hcl]) (by rw [hcl]) (by rw [hcl]) ..
  · rw [ho, hcl]

/-- A foreign name's request lands with the answer of its home (R297). -/
theorem nstat_far {n : Nat} {name : BitVec 128} (he : (s.ctx ctx).sb[entry]? = some { dst := .s n, what := .nstat name })
    (hs : nameSerial name ≠ s.part.serial) :
    (s.reaches (nameSerial name) = false → LandsNext ctx entry answer pages s n { val := statusWord 0 0x1B 0 }) ∧
    (s.reaches (nameSerial name) = true → answer ∈ [0, 0x0A, 0x0B, 0x0C, 0x1B] →
      LandsNext ctx entry answer pages s n { val := statusWord 0 answer (if answer = 0 then pages else 0) }) ∧
    (s.reaches (nameSerial name) = true → answer ∉ [0, 0x0A, 0x0B, 0x0C, 0x1B] → Idles (.scoreboardResultLand ctx entry answer pages) s) := by
  have hx := exec_result_nstat_far (answer := answer) (pages := pages) he hh rfl hs
  rw [foreignAnswer_eq] at hx
  refine ⟨fun h => landsNext_word ?_, fun h ha => landsNext_word ?_, fun h ha => ?_⟩
  · rw [hx, if_pos h]; rfl
  · rw [hx, if_neg (by simp [h]), if_pos ha]; rfl
  · unfold Idles
    rw [hx, if_neg (by simp [h]), if_neg ha]

theorem nkill_far {n : Nat} {name : BitVec 128} {removed : Bool}
    (he : (s.ctx ctx).sb[entry]? = some { dst := .s n, what := .nkill name removed }) (hs : nameSerial name ≠ s.part.serial) :
    (s.reaches (nameSerial name) = false → LandsNext ctx entry answer pages s n { val := statusWord 0 0x1B 0 }) ∧
    (s.reaches (nameSerial name) = true → answer ∈ [0, 0x0A, 0x0B, 0x0C, 0x1B] →
      LandsNext ctx entry answer pages s n { val := statusWord 0 answer (if answer = 0 then 0 else 0) }) ∧
    (s.reaches (nameSerial name) = true → answer ∉ [0, 0x0A, 0x0B, 0x0C, 0x1B] → Idles (.scoreboardResultLand ctx entry answer pages) s) := by
  have hx := exec_result_nkill_far (answer := answer) (pages := pages) he hh rfl hs
  rw [foreignAnswer_eq] at hx
  refine ⟨fun h => landsNext_word ?_, fun h ha => landsNext_word ?_, fun h ha => ?_⟩
  · rw [hx, if_pos h]
  · rw [hx, if_neg (by simp [h]), if_pos ha, ite_self]
  · unfold Idles
    rw [hx, if_neg (by simp [h]), if_neg ha]

/-- NKILL after its shoot-downs were sent (R297). -/
theorem nkill_removed {n : Nat} {name : BitVec 128} (he : (s.ctx ctx).sb[entry]? = some { dst := .s n, what := .nkill name true })
    (hs : nameSerial name = s.part.serial) :
    (s.shot name = true → LandsNext ctx entry answer pages s n { val := statusWord 0 0 0 }) ∧
    (s.shot name = false → Idles (.scoreboardResultLand ctx entry answer pages) s) := by
  have hx := exec_result_nkill_removed (answer := answer) (pages := pages) he hh rfl hs
  refine ⟨fun h => landsNext_word ?_, fun h => ?_⟩
  · rw [hx, if_pos h]; rfl
  · unfold Idles
    rw [hx, if_neg (by simp [h])]

theorem nkill_fails {n : Nat} {name : BitVec 128} (he : (s.ctx ctx).sb[entry]? = some { dst := .s n, what := .nkill name false })
    (hs : nameSerial name = s.part.serial) {code : Nat} (hk : s.killCheck s.part.serial (s.ctx ctx).arch.info.asid name = code)
    (hc : code ≠ 0) : LandsNext ctx entry answer pages s n { val := statusWord 0 code 0 } := by
  subst hk
  apply landsNext_word
  rw [exec_result_nkill he hh rfl hs, if_pos (show _ ≠ stOk from hc)]

/-- NKILL of a name that no cache and no holder has: it lands at once, and the name is dead. -/
theorem nkill_lands {n : Nat} {name : BitVec 128} {x : NameEntry}
    (he : (s.ctx ctx).sb[entry]? = some { dst := .s n, what := .nkill name false }) (hs : nameSerial name = s.part.serial)
    (hk : s.killCheck s.part.serial (s.ctx ctx).arch.info.asid name = 0) (hx : s.nameEntry name = some x)
    (hf : ¬((∃ p ∈ s.clusters, name ∈ p.2.names) ∨ x.holders.filter s.meets ≠ [])) :
    ∃ t, exec (.scoreboardResultLand ctx entry answer pages) s = .next t ∧
      Lands ctx entry (s.ctx ctx).sb s t n { val := statusWord 0 0 0 } ∧ ∀ p ∈ t.names, p.1 = name → p.2.live = false := by
  have hkn := killName_eq hx none
  obtain ⟨cs, co, ho⟩ := landWord_outside (s.killName name none) ctx entry n (statusWord 0 stOk 0)
  refine ⟨((s.killName name none).landWord ctx entry (.s n) (statusWord 0 stOk 0)).sweepNames, ?_, ?_, fun p hp => ?_⟩
  · rw [exec_result_nkill he hh rfl hs, hk, if_neg (show ¬(0 ≠ stOk) by decide), if_pos ((shot_killName hx none).mpr hf)]
  · exact lands_word (b := s.killName name none) (by rw [hkn]; rfl) (by rw [hkn]; rfl) (by rw [hkn]; rfl) ctx entry n (statusWord 0 stOk 0)
  · rw [ho] at hp
    exact dead_killName hx none p (List.mem_of_mem_filter hp)

/-- NKILL of a name that a cache or a holder has: the shoot-downs are sent, and the result stays in the scoreboard. -/
theorem nkill_waits {n : Nat} {name : BitVec 128} {x : NameEntry}
    (he : (s.ctx ctx).sb[entry]? = some { dst := .s n, what := .nkill name false }) (hs : nameSerial name = s.part.serial)
    (hk : s.killCheck s.part.serial (s.ctx ctx).arch.info.asid name = 0) (hx : s.nameEntry name = some x)
    (hf : (∃ p ∈ s.clusters, name ∈ p.2.names) ∨ x.holders.filter s.meets ≠ []) :
    ∃ t, exec (.scoreboardResultLand ctx entry answer pages) s = .next t ∧ t = { s with ctxs := t.ctxs, names := t.names, out := t.out } ∧
      t.out = s.out ++ ((x.holders.filter s.meets).map fun m => { kind := 0x24, dest := m, body := leBytes 16 name.toNat }) ∧
      t.ctx ctx = { s.ctx ctx with sb := (s.ctx ctx).sb.set entry { dst := .s n, what := .nkill name true } } ∧
      (∀ p ∈ t.names, p.1 = name → p.2.live = false) ∧ ∀ k, k ≠ ctx → t.ctx k = s.ctx k := by
  have hkn := killName_eq hx none
  refine ⟨(s.killName name none).setCtx ctx
    { s.ctx ctx with sb := (s.ctx ctx).sb.set entry { dst := .s n, what := .nkill name true } }, ?_, ?_, ?_, ctx_setCtx_same .., ?_,
    fun k hk => ?_⟩
  · rw [exec_result_nkill he hh rfl hs, hk, if_neg (show ¬(0 ≠ stOk) by decide),
      if_neg fun h => absurd hf ((shot_killName hx none).mp h)]
  · rw [hkn]; rfl
  · rw [hkn]; rfl
  · exact dead_killName hx none
  · rw [ctx_setCtx_other _ _ hk, hkn]; rfl

/-- SGET's answer waits for the context's own earlier signals (R252). -/
theorem sget_lands {n sem upto : Nat} (he : (s.ctx ctx).sb[entry]? = some { dst := .s n, what := .sget sem upto }) :
    ((∃ p ∈ (s.ctx ctx).signals, p.sem = sem ∧ p.born < upto) → Idles (.scoreboardResultLand ctx entry answer pages) s) ∧
    (¬(∃ p ∈ (s.ctx ctx).signals, p.sem = sem ∧ p.born < upto) →
      LandsNext ctx entry answer pages s n { val := (s.sem (clusterOf ctx) (s.ctx ctx).arch.info sem).word }) := by
  have hx := exec_result_sget (answer := answer) (pages := pages) he hh rfl
  rw [← owes_iff]
  refine ⟨fun h => ?_, fun h => landsNext_word ?_⟩
  · unfold Idles
    rw [hx, if_pos h]
  · rw [hx, if_neg h]

/-- PROBE's answer waits for the migrations that it asked for, and pins the pages that are in the shallow tier (R293). -/
theorem probe_lands {n : Nat} {ps : List Page} (he : (s.ctx ctx).sb[entry]? = some { dst := .s n, what := .probe ps }) :
    (s.probeDone (s.ctx ctx).arch ps = false → Idles (.scoreboardResultLand ctx entry answer pages) s) ∧
    (s.probeDone (s.ctx ctx).arch ps = true → ∃ t, exec (.scoreboardResultLand ctx entry answer pages) s = .next t ∧
      (t.ctx ctx).sb = (s.ctx ctx).sb.eraseIdx entry ∧
      (t.ctx ctx).arch.pins = (s.ctx ctx).arch.pins ++ (ps.filter fun p => !p.deep).map Page.frame ∧
      (n ≠ 0 → look {} (t.ctx ctx).arch.s n = { val := ((s.ctx ctx).arch.probeResult ps).2 })) := by
  have hx := exec_result_probe (answer := answer) (pages := pages) he hh rfl
  refine ⟨fun h => ?_, fun h => ⟨_, by rw [hx, if_neg (by simp [h])], ?_, ?_, ?_⟩⟩
  · unfold Idles
    rw [hx, if_pos (by simp [h])]
  · rw [State.landWord, landIn_s_sb, ctx_setCtx_same]
  · obtain ⟨r, hr⟩ := landWord_arch (s.setCtx ctx { s.ctx ctx with arch := ((s.ctx ctx).arch.probeResult ps).1 }) ctx entry n
      ((s.ctx ctx).arch.probeResult ps).2
    rw [hr, ctx_setCtx_same]
    rfl
  · obtain ⟨_, _, _, _, hv, _⟩ := lands_landWord (s.setCtx ctx { s.ctx ctx with arch := ((s.ctx ctx).arch.probeResult ps).1 }) ctx entry n
      ((s.ctx ctx).arch.probeResult ps).2
    exact hv

/-- ENQ's submission is decided as its result lands (R182, R329). -/
theorem enq_lands {n q status upto : Nat} {rec_ : List Byte} (he : (s.ctx ctx).sb[entry]? = some { dst := .s n, what := .enq q rec_ status upto })
    (hearly : owesEarlier s ctx upto = false) :
    (status ≠ 0 → exec (.scoreboardResultLand ctx entry answer pages) s = .next (s.landWord ctx entry (.s n) (statusWord 0 status 0))) ∧
    (status = 0 → (s.clears [tableRange (qOwner (s.qcfg q)) rec_]).2 = false →
      exec (.scoreboardResultLand ctx entry answer pages) s = .next (s.clears [tableRange (qOwner (s.qcfg q)) rec_]).1) ∧
    (status = 0 → s.mergesNone = true → exec (.scoreboardResultLand ctx entry answer pages) s =
      .next ((s.submit q rec_ (some (s.ctx ctx).arch.info.asid) none 0 false).1.landWord ctx entry (.s n)
        (statusWord 0 (s.submit q rec_ (some (s.ctx ctx).arch.info.asid) none 0 false).2.1
          (s.submit q rec_ (some (s.ctx ctx).arch.info.asid) none 0 false).2.2))) := by
  have hx := exec_result_enq (answer := answer) (pages := pages) he hh rfl
  rw [hearly, if_neg Bool.false_ne_true] at hx
  refine ⟨fun h => ?_, fun h hc => ?_, fun h hm => ?_⟩
  · rw [hx, if_pos (show status ≠ stOk from h)]
  · rw [hx, if_neg (show ¬status ≠ stOk by simp [h, stOk]), if_pos (by simp [hc])]
  · rw [hx, if_neg (show ¬status ≠ stOk by simp [h, stOk]), if_neg (by simp [clears_none s _ hm])]

end

section
variable {ctx entry answer pages : Nat} {s : State}

/-- A vector result takes its register and its entry, and nothing else changes. -/
theorem vector_lands (n : Nat) (v : VReg) : let t := s.landIn ctx entry (.v n) {} {} v
    t = { s with ctxs := t.ctxs } ∧ (t.ctx ctx).sb = (s.ctx ctx).sb.eraseIdx entry ∧ look {} (t.ctx ctx).arch.v n = v ∧
    (∀ m, m ≠ n → look {} (t.ctx ctx).arch.v m = look {} (s.ctx ctx).arch.v m) ∧ (t.ctx ctx).arch.s = (s.ctx ctx).arch.s ∧
    ∀ k, k ≠ ctx → t.ctx k = s.ctx k := by
  rw [show s.landIn ctx entry (.v n) {} {} v = (s.dropSb ctx entry).setCtx ctx { (s.dropSb ctx entry).ctx ctx with
    arch := { ((s.dropSb ctx entry).ctx ctx).arch with v := put {} ((s.dropSb ctx entry).ctx ctx).arch.v n v } } from rfl]
  dsimp only
  rw [ctx_setCtx_same, dropSb_sb, dropSb_arch]
  refine ⟨rfl, rfl, look_put_same .., fun m hm => look_put_other _ _ _ hm, rfl, fun k hk => ?_⟩
  rw [ctx_setCtx_other _ _ hk, dropSb_ctx_other _ hk]

/-- A pair takes its two registers; the second write leaves the first, and neither register is s0. -/
theorem pair_lands {n : Nat} (hn : n ≠ 0) (lo hi : SReg) (v : VReg) : let t := s.landIn ctx entry (.pair n) lo hi v
    t.mem = s.mem ∧ (t.ctx ctx).sb = (s.ctx ctx).sb.eraseIdx entry ∧ look {} (t.ctx ctx).arch.s n = lo ∧
    look {} (t.ctx ctx).arch.s (n + 1) = hi ∧
    ∀ m, m ≠ n → m ≠ n + 1 → look {} (t.ctx ctx).arch.s m = look {} (s.ctx ctx).arch.s m := by
  dsimp only
  refine ⟨landIn_mem .., ?_⟩
  rw [show s.landIn ctx entry (.pair n) lo hi v = ((s.dropSb ctx entry).landScalar ctx n lo).landScalar ctx (n + 1) hi from rfl]
  rw [landScalar_sb, landScalar_sb, dropSb_sb, landScalar_arch, if_neg (by omega), landScalar_arch, if_neg hn, dropSb_arch]
  refine ⟨rfl, ?_, look_put_same .., fun m hm hm' => ?_⟩
  · rw [look_put_other _ _ _ (by omega), look_put_same]
  · rw [look_put_other _ _ _ hm', look_put_other _ _ _ hm]

variable (hh : (s.ctx ctx).held entry = false)
include hh

/-- NRES of a name that the task may bind, as its result lands: the slot, the counts and the entries of its pages. -/
theorem nres_binds {n slot : Nat} {name : BitVec 128} {x : NameEntry}
    (he : (s.ctx ctx).sb[entry]? = some { dst := .s n, what := .nres slot name }) (hx : s.nameEntry name = some x)
    (hr : s.resolve (clusterOf ctx) (s.ctx ctx).arch.info.asid name = .good x) (hw : x.whole = true) (hb : x.base < 2 ^ 55) (hl : x.len < 2 ^ 48) :
    ∃ t, exec (.scoreboardResultLand ctx entry answer pages) s = .next t ∧ (t.ctx ctx).sb = (s.ctx ctx).sb.eraseIdx entry ∧
      Bound s.imagePages (t.ctx ctx).arch slot name x (x.right s.part.serial (s.ctx ctx).arch.info.asid == 3) ∧
      (n ≠ 0 → look {} (t.ctx ctx).arch.s n = { val := statusWord 0 0 x.pageCount }) ∧
      (∀ j, j ≠ slot → look 0 (t.ctx ctx).arch.e j = look 0 (s.ctx ctx).arch.e j) ∧ (∀ k, k ≠ ctx → t.ctx k = s.ctx k) ∧
      (s.nameEntry (look 0 (s.ctx ctx).arch.names slot) = none → t.nameEntry name = some { x with count := x.count + 1 }) ∧
      t.mem = x.pages.foldl (fun m p => m.setByte (p.at_ + 1) (m.byte (p.at_ + 1) ||| 4)) s.mem := by
  obtain ⟨hword, hothers, hsb, hbound, hslots, hmem, hcount⟩ := nresLand_binds hx hr hw hb hl
  obtain ⟨hk, hm, _, hs, hv, _⟩ := lands_landWord (s.nresLand ctx slot name).1 ctx entry n (s.nresLand ctx slot name).2
  obtain ⟨rs, ha⟩ := landWord_arch (s.nresLand ctx slot name).1 ctx entry n (s.nresLand ctx slot name).2
  obtain ⟨cs, co, ho⟩ := landWord_outside (s.nresLand ctx slot name).1 ctx entry n (s.nresLand ctx slot name).2
  refine ⟨_, exec_result_nres he hh rfl, hs.trans (by rw [hsb]), ?_, fun hn => (hv hn).trans (by rw [hword]), fun j hj => ?_,
    fun k h => (hk k h).trans (hothers k h), fun hnone => ?_, hm.trans hmem⟩
  · rw [ha]
    exact { hbound with }
  · rw [ha]
    exact hslots j hj
  · rw [ho]
    exact hcount hnone

end

/-- Settles O42: each kind of result by the lemma about it; every landing is `lands_landWord`, over a state that the kind's own effect
leaves. -/
theorem resultsLand : Obligations.ResultsLand := by
  unfold Obligations.ResultsLand
  intro ctx entry answer pages s c i lands next asid found code fails foreign
  refine ⟨exec_result_none, fun e he hh => ?_⟩
  refine ⟨fun n slot name hd => ?_, fun n name hd => ?_, fun n name removed hd => ?_, fun n v hd => ?_, fun n v hd => ?_,
    fun n lo hi psn hd hn => ?_, fun u hw => exec_result_late he hh (.inl ⟨u, hw⟩), fun id hw => exec_result_late he hh (.inr (.inl ⟨id, hw⟩)),
    fun k u hw => exec_result_late he hh (.inr (.inr ⟨k, u, hw⟩)), fun n sem upto hd => ?_, fun n ps hd => ?_,
    fun n q rec_ status upto hd => ?_⟩
  · subst hd
    refine ⟨nres_fails hh he, fun hc x hx => ?_⟩
    obtain ⟨y, hy, hr⟩ := resolve_good (s := s) (cl := clusterOf ctx) (asid := asid) (name := name) hc
    obtain rfl : y = x := Option.some.inj (hy.symm.trans hx)
    refine ⟨fun hp => nres_partial hh he hr ?_, fun hp hb hl => ?_⟩
    · obtain ⟨p, hp, hn⟩ := hp
      exact Bool.eq_false_iff.mpr fun hw => (whole_iff y).mp hw p hp hn
    · obtain ⟨t, ht, hsb, hbound, hv, hslots, hothers, hcount, hmem⟩ := nres_binds hh he hx hr ((whole_iff y).mpr hp) hb hl
      refine ⟨t, ht, hsb, hbound.valid, hv, ⟨hbound.base, hbound.len, hbound.isValid, hbound.named, hbound.name_, hbound.pages, ?_⟩, hslots,
        hothers, hcount, fun b => ⟨fun h => ?_, fun h => ?_⟩⟩
      · show _ ↔ y.right s.part.serial (s.ctx ctx).arch.info.asid = 3 ∧ _
        rw [hbound.writable]
        simp
      · rw [hmem, byte_foldl_accessed, if_pos h]
      · rw [hmem, byte_foldl_accessed, if_neg (by simpa using h)]
  · subst hd
    refine ⟨nstat_far hh he, fun hs => ⟨nstat_fails hh he hs, fun hc x hx => ?_⟩⟩
    obtain ⟨y, hy, hr⟩ := resolve_good (s := s) (cl := clusterOf ctx) (asid := asid) (name := name) hc
    obtain rfl : y = x := Option.some.inj (hy.symm.trans hx)
    exact nstat_answers hh he hs hr
  · subst hd
    refine ⟨nkill_far hh he, fun hs => ⟨fun hr => ?_, fun hr hc => ?_, fun hr hc x hx => ?_⟩⟩
    · subst hr
      exact nkill_removed hh he hs
    · subst hr
      exact nkill_fails hh he hs (killCheck_fails hc) hc
    · subst hr
      have hk := killCheck_good hc hx
      refine ⟨fun h3 => nkill_fails hh he hs (hk.trans (if_neg h3)) (by decide), fun h3 => ?_⟩
      have hk := hk.trans (if_pos h3)
      exact ⟨nkill_lands hh he hs hk hx, nkill_waits hh he hs hk hx⟩
  · subst hd
    obtain ⟨cs, co, ho⟩ := landIn_s_outside s ctx entry n v {} {}
    exact ⟨_, exec_result_scalar he hh rfl, lands_landIn .., by rw [ho]⟩
  · subst hd
    exact ⟨_, exec_result_vector he hh rfl, vector_lands n v⟩
  · subst hd
    exact ⟨_, exec_result_pair he hh rfl, pair_lands hn _ _ _⟩
  · subst hd
    exact sget_lands hh he
  · subst hd
    obtain ⟨hidle, hland⟩ := probe_lands (answer := answer) (pages := pages) hh he
    refine ⟨fun hp => hidle (Bool.eq_false_iff.mpr fun hd => ?_), fun hp => ?_⟩
    · obtain ⟨p, hp, hm⟩ := hp
      exact (probeDone_iff ..).mp hd p hp hm
    · obtain ⟨t, ht, hsb, hpins, hv⟩ := hland ((probeDone_iff ..).mpr hp)
      refine ⟨t, ht, hsb, hpins, fun hn => (hv hn).trans ?_⟩
      rw [List.countP_eq_length_filter]
      rfl
  · subst hd
    have hearly := owesEarlier_iff s ctx upto
    refine ⟨fun h => ?_, fun h hs => ?_, fun h hs hg => ?_, fun h hs hm hq => ?_, fun h hs hm hr => ?_, fun h hs hm hr => ?_⟩
    · show exec _ _ = _
      rw [exec_result_enq he hh rfl, if_pos (hearly.mpr h)]
    all_goals
      have h0 : owesEarlier s ctx upto = false := Bool.eq_false_iff.mpr fun h' => h (hearly.mp h')
      obtain ⟨hbad, hheld, hsub⟩ := enq_lands (answer := answer) (pages := pages) hh he h0
    · obtain ⟨cs, co, ho⟩ := landWord_outside s ctx entry n (statusWord 0 status 0)
      exact ⟨_, hbad hs, lands_landWord .., by rw [ho]⟩
    · exact hheld hs hg
    · have hx := hsub hs hm
      rw [submit_denied hq] at hx
      obtain ⟨cs, co, ho⟩ := landWord_outside s ctx entry n (statusWord 0 0x0C 0)
      exact ⟨_, hx, lands_landWord .., by rw [ho]⟩
    · have hx := hsub hs hm
      obtain ⟨hres, l, hl⟩ := (submit_submitted hm q rec_ (some asid) none 0 false).1 hr
      rw [hres] at hx
      obtain ⟨cs, co, ho⟩ := landWord_outside (s.submit q rec_ (some asid) none 0 false).1 ctx entry n
        (statusWord 0 (s.submit q rec_ (some asid) none 0 false).2.1 0)
      exact ⟨_, hx, lands_word (by rw [hl]) (by rw [hl]) (by rw [hl]) .., by rw [ho, hl]⟩
    · have hx := hsub hs hm
      obtain ⟨hres, l, y, hyq, hys, hl⟩ := (submit_submitted hm q rec_ (some asid) none 0 false).2 hr
      rw [hres, hr] at hx
      obtain ⟨cs, co, ho⟩ := landWord_outside (s.submit q rec_ (some asid) none 0 false).1 ctx entry n (statusWord 0 0 (s.nextSeq % 2 ^ 32))
      refine ⟨_, hx, lands_word (by rw [hl]) (by rw [hl]) (by rw [hl]) .., ?_, ?_, ?_, fun k hk => ?_⟩
      all_goals rw [ho, hl]
      · show (look noLaunch (put noLaunch _ _ y) _).queue = q
        rw [look_put_same, hyq]
      · show (look noLaunch (put noLaunch _ _ y) _).seq = _
        rw [look_put_same, hys]
      · exact look_put_other _ _ _ hk

end Sys2Proof.Machine
end

section
/-! PROOFS. What the work on updates and on launches leaves of contexts, bind records and nodes. -/

namespace Sys2Proof.Machine

/-- What accesses, updates and the records of launches never change of a context. -/
def Ctx.lasting (c : Ctx) : Bool × Word × Option Nat × FMap SReg := (c.bound, c.arch.pos, c.arch.reenter, c.arch.s)

/-- What they never change of a node: all but the grid's semaphores. -/
def Node.lasting (nd : Node) : Node := { nd with gsems := [] }

def Launch.lasting (l : Launch) : FMap Node := l.nodes.map fun p => (p.1, p.2.lasting)

/-- What they never change of a bind record: the tasks still to start, and the team that it is for. -/
def BindRec.lasting (r : BindRec) : List Nat × TaskInfo := (r.toStart, r.info)

/-- The lasting part of a state's tables: the bundle in hand, the contexts, the tasks that each bind record has still to start, and the
nodes' reports. -/
structure Lasting where
  cur : Cur
  ctxs : Nat → Bool × Word × Option Nat × FMap SReg
  starts : Nat → Nat → List Nat × TaskInfo
  launches : FMap (FMap Node)

def lastingOf (ctxs : FMap Ctx) (clusters : FMap Cluster) (launches : FMap Launch) (cur : Cur) : Lasting where
  cur := cur
  ctxs k := (look {} ctxs k).lasting
  starts cl r := (look {} (look {} clusters cl).slots r).lasting
  launches := launches.map fun p => (p.1, p.2.lasting)

def lasting (s : State) : Lasting := lastingOf s.ctxs s.clusters s.launches s.cur

@[simp] theorem lastingOf_of (s : State) : lastingOf s.ctxs s.clusters s.launches s.cur = lasting s := rfl

@[simp] theorem lasting_mk {ctxs : FMap Ctx} {cores : FMap Core} {clusters : FMap Cluster} {mem : Mem} {updates hidden spoiled openSeqs
    launches queues nextSeq turns period images roots region libver names foreign nameCtr nameHigh errors part boss links peers out cur
    script steps draws time timebase nextId} : lasting ⟨ctxs, cores, clusters, mem, updates, hidden, spoiled, openSeqs, launches, queues,
      nextSeq, turns, period, images, roots, region, libver, names, foreign, nameCtr, nameHigh, errors, part, boss, links, peers, out, cur,
      script, steps, draws, time, timebase, nextId⟩ = lastingOf ctxs clusters launches cur := rfl

@[simp] theorem lasting_ite {c : Prop} {_ : Decidable c} (a b : State) :
    lasting (if c then a else b) = if c then lasting a else lasting b := apply_ite ..

@[simp] theorem lasting_setCtx {s : State} {k : Nat} {c : Ctx} (h : c.lasting = (s.ctx k).lasting) :
    lasting (s.setCtx k c) = lasting s := by
  refine Lasting.mk.injEq .. ▸ ⟨rfl, funext fun n => ?_, rfl, rfl⟩
  show ((s.setCtx k c).ctx n).lasting = (s.ctx n).lasting
  rw [ctx_setCtx]
  split
  · next hn => rw [h, hn]
  · rfl

@[simp] theorem lasting_setCore (s : State) (k : Nat) (c : Core) : lasting (s.setCore k c) = lasting s := rfl

@[simp] theorem lasting_setCluster {s : State} {k : Nat} {c : Cluster}
    (h : ∀ r, (look {} c.slots r).lasting = (look {} (s.cluster k).slots r).lasting) : lasting (s.setCluster k c) = lasting s := by
  refine Lasting.mk.injEq .. ▸ ⟨rfl, rfl, funext fun n => funext fun r => ?_, rfl⟩
  show (look {} ((s.setCluster k c).cluster n).slots r).lasting = (look {} (s.cluster n).slots r).lasting
  rw [cluster_setCluster]
  split
  · next hn => rw [h, hn]
  · rfl

theorem lasting_revise (m : FMap Launch) {f : Launch → Launch} (h : ∀ l, (f l).lasting = l.lasting) (k : Nat) :
    (revise m k f).map (fun p => (p.1, p.2.lasting)) = m.map fun p => (p.1, p.2.lasting) := by
  unfold revise
  rw [List.map_map]
  refine List.map_congr_left fun p _ => ?_
  dsimp only [Function.comp]
  split
  · rw [h]
  · rfl

@[simp] theorem lasting_updLaunch {s : State} {f : Launch → Launch} (h : ∀ l, (f l).lasting = l.lasting) (seq : Nat) :
    lasting (s.updLaunch seq f) = lasting s :=
  Lasting.mk.injEq .. ▸ ⟨rfl, rfl, rfl, lasting_revise s.launches h seq⟩

@[simp] theorem lasting_updNode {s : State} {f : Node → Node} (h : ∀ nd, (f nd).lasting = nd.lasting) (seq node : Nat)
    : lasting (s.updNode seq node f) = lasting s := by
  refine lasting_updLaunch (fun l => ?_) seq
  unfold Launch.lasting revise
  rw [List.map_map]
  refine List.map_congr_left fun p _ => ?_
  dsimp only [Function.comp]
  split
  · rw [h]
  · rfl

@[simp] theorem lasting_foldl {β : Type} {g : State → β → State} (hg : ∀ t b, lasting (g t b) = lasting t) (l : List β) (s : State) :
    lasting (l.foldl g s) = lasting s := by
  induction l generalizing s with
  | nil => rfl
  | cons b r ih => exact (ih _).trans (hg s b)

@[simp] theorem lasting_mapClusters {ctxs : FMap Ctx} {clusters : FMap Cluster} {launches : FMap Launch} {cur : Cur}
    {g : Nat × Cluster → Nat × Cluster} (hk : ∀ p, (g p).1 = p.1)
    (hv : ∀ p r, (look {} (g p).2.slots r).lasting = (look {} p.2.slots r).lasting) :
    lastingOf ctxs (clusters.map g) launches cur = lastingOf ctxs clusters launches cur := by
  refine Lasting.mk.injEq .. ▸ ⟨rfl, rfl, funext fun n => ?_, rfl⟩
  exact look_map_same ({} : Cluster) clusters (fun c r => (look {} c.slots r).lasting) hk (fun p => funext (hv p)) n

@[simp] theorem lasting_setSem (s : State) (cl : Nat) (i : TaskInfo) (n : Nat) (x : Sem) : lasting (s.setSem cl i n x) = lasting s := by
  unfold State.setSem
  split
  · exact lasting_updNode (by exact fun _ => rfl) ..
  · exact lasting_setCluster fun _ => rfl

@[simp] theorem lasting_testWait (s : State) (k : Nat) : lasting (s.testWait k) = lasting s := by
  unfold State.testWait
  dsimp only
  repeat' split
  · rfl
  · rfl
  · exact lasting_setCtx rfl
  · rfl

@[simp] theorem lasting_testWaits (s : State) (cl : Nat) (i : TaskInfo) (n : Nat) (ks : List Nat) :
    lasting (s.testWaits cl i n ks) = lasting s := by
  induction ks generalizing s with
  | nil => rfl
  | cons k r ih => exact (ih _).trans (by simp)

theorem noteTeam_lasting (s : State) (r : BindRec) : (s.noteTeam r).lasting = r.lasting := by
  unfold State.noteTeam
  repeat' split
  all_goals rfl

theorem noteTeams_lasting (s : State) (m : FMap BindRec) (r : Nat) :
    (look {} (m.map fun q => (q.1, s.noteTeam q.2)) r).lasting = (look {} m r).lasting :=
  look_map_same ({} : BindRec) m (g := fun q => (q.1, s.noteTeam q.2)) BindRec.lasting (fun _ => rfl) (fun q => noteTeam_lasting s q.2) r

@[simp] theorem lasting_noteTeams (s : State) : lasting s.noteTeams = lasting s :=
  lasting_mapClusters (fun _ => rfl) fun p => noteTeams_lasting s p.2.slots

@[simp] theorem lasting_semChange (s : State) (cl : Nat) (i : TaskInfo) (n : Nat) (f : Sem → Sem) :
    lasting (s.semChange cl i n f) = lasting s := by
  unfold State.semChange
  simp

@[simp] theorem lasting_signal (s : State) (cl : Nat) (i : TaskInfo) (n : Nat) (inc : ℤ) : lasting (s.signal cl i n inc) = lasting s := by
  unfold State.signal
  simp

@[simp] theorem lasting_doGets (s : State) (k sem born : Nat) : lasting (s.doGets k sem born) = lasting s := by
  unfold State.doGets
  dsimp only
  split
  · exact lasting_setCtx rfl
  · rfl

@[simp] theorem lasting_setUnit (s : State) (pu : Nat) (x : Word × Bool) : lasting (s.setUnit pu x) = lasting s := by
  unfold State.setUnit
  simp

@[simp] theorem lasting_sees (s : State) (a : Nat × Nat) (pu : Nat) : lasting (s.sees a pu) = lasting s := by
  unfold State.sees
  simp

@[simp] theorem lasting_glance (s : State) (a : Nat × Nat) (old : Bool) (pu : Nat) : lasting (s.glance a old pu).1 = lasting s := by
  unfold State.glance
  repeat' split
  all_goals simp

@[simp] theorem lasting_hiding (t s : State) (a : Nat × Nat) (pus : List Nat) : lasting (t.hiding s a pus) = lasting t := by
  unfold State.hiding
  repeat' split
  all_goals simp

@[simp] theorem lasting_setL1 (s : State) (core pu : Nat) (u : L1Unit) : lasting (s.setL1 core pu u) = lasting s := by
  unfold State.setL1
  simp

@[simp] theorem lasting_l1Clean (s : State) (core pu : Nat) (discard : Bool) : lasting (s.l1Clean core pu discard) = lasting s := by
  unfold State.l1Clean
  simp

@[simp] theorem lasting_l1Sweep (s : State) (cores : List Nat) (f : Nat → Bool) (discard : Bool) :
    lasting (s.l1Sweep cores f discard) = lasting s := by
  unfold State.l1Sweep
  simp

@[simp] theorem lasting_dropUnit (s : State) (core pu : Nat) : lasting (s.dropUnit core pu) = lasting s := by
  unfold State.dropUnit
  simp

@[simp] theorem lasting_dropLine (s : State) (core line : Nat) : lasting (s.dropLine core line) = lasting s := by
  unfold State.dropLine
  simp

@[simp] theorem lasting_fillLine (s : State) (core line : Nat) : lasting (s.fillLine core line) = lasting s := by
  unfold State.fillLine
  simp

@[simp] theorem lasting_fillOld (s : State) (k c : Nat) (old : Bool) (pu : Nat) : lasting (s.fillOld k c old pu) = lasting s := by
  unfold State.fillOld
  repeat' split
  all_goals simp

@[simp] theorem lasting_readUnit (s : State) (k : Nat) (old : Bool) (r : URef) : lasting (s.readUnit k old r).1 = lasting s := by
  unfold State.readUnit
  dsimp only
  split <;> simp

@[simp] theorem lasting_writeUnit (s : State) (k : Nat) (r : URef) (mask : Nat) (data : Word) (psn : Bool) :
    lasting (s.writeUnit k r mask data psn) = lasting s := by
  unfold State.writeUnit
  simp

@[simp] theorem lasting_engineSet (s : State) (a : Nat × Nat) (pu mask : Nat) (data : Word) (psn : Bool) :
    lasting (s.engineSet a pu mask data psn) = lasting s := by
  unfold State.engineSet
  simp

@[simp] theorem lasting_replayDone (s : State) (u : Update) : lasting (s.replayDone u) = lasting s := by
  unfold State.replayDone
  split
  · rfl
  · refine lasting_updLaunch (fun l => ?_) _
    split <;> rfl

@[simp] theorem lasting_writeWords (s : State) (asid va : Nat) (ws : List Word) : lasting (s.writeWords asid va ws) = lasting s := by
  refine lasting_foldl (fun t p => ?_) _ s
  split
  · simp
  · rfl

@[simp] theorem lasting_logUpdate (s : State) (u : Update) : lasting (s.logUpdate u) = lasting s := by
  have used (t : State) (n : Nat) : lasting (t.updLaunch u.info.seq fun l => { l with logUsed := l.logUsed + n }) = lasting t :=
    lasting_updLaunch (by exact fun _ => rfl) _
  have noted (t : State) : lasting (t.updLaunch u.info.seq fun l => { l with overflow := true }) = lasting t :=
    lasting_updLaunch (by exact fun _ => rfl) _
  unfold State.logUpdate
  simp only [lasting_ite, used, noted, lasting_writeWords, ite_self]

@[simp] theorem lasting_applyAt (s : State) (pu off : Nat) (op : Rmw) (fmt val cmp : Nat) (psn : Bool) :
    lasting (s.applyAt pu off op fmt val cmp psn).1 = lasting s := by
  unfold State.applyAt
  dsimp only
  repeat' split
  all_goals simp

@[simp] theorem lasting_applyAcross (s : State) (pu hi off : Nat) (op : Rmw) (fmt val cmp : Nat) (psn : Bool) :
    lasting (s.applyAcross pu hi off op fmt val cmp psn).1 = lasting s := by
  unfold State.applyAcross
  dsimp only
  repeat' split
  all_goals simp

@[simp] theorem lasting_applyRmw (s : State) (u : Update) : lasting (s.applyRmw u).1 = lasting s := by
  unfold State.applyRmw
  repeat' split
  all_goals simp

@[simp] theorem lasting_openSeq (s : State) (u : Update) : lasting (s.openSeq u) = lasting s := by
  unfold State.openSeq
  simp

@[simp] theorem lasting_tellCmd (s : State) (cmd : Option (Nat × Nat)) (psn : Bool) : lasting (s.tellCmd cmd psn) = lasting s := by
  unfold State.tellCmd
  repeat' split
  all_goals simp

@[simp] theorem lasting_applyUpdate (s : State) (u : Update) : lasting (s.applyUpdate u) = lasting s := by
  have applied (d : State) :
      lasting (match u.cmd with | some c => (d.applyRmw u).1.hiding d (1, c.2) u.units | none => (d.applyRmw u).1) = lasting d := by
    split <;> simp
  have dropped : lasting (if u.cmd.isSome || u.sender.isSome then s.openSeq u else (s.openSeq u).dropLine u.core u.lineOf) = lasting s := by
    split <;> simp
  have told (p : Bool) := (lasting_tellCmd _ u.cmd p).trans ((lasting_replayDone _ u).trans ((lasting_logUpdate _ u).trans
    ((applied _).trans dropped)))
  unfold State.applyUpdate
  dsimp only
  split
  · refine (lasting_setCtx ?_).trans ?_
    · rfl
    · exact told _
  · exact told _

@[simp] theorem lasting_setStatus (s : State) (id : Nat) (st : UpdStatus) : lasting (s.setStatus id st) = lasting s := by
  unfold State.setStatus
  simp

@[simp] theorem lasting_holdUpdate (s : State) (u : Update) : lasting (s.holdUpdate u) = lasting s := by
  unfold State.holdUpdate
  simp

@[simp] theorem lasting_applyAll (s : State) (ids : List Nat) : lasting (s.applyAll ids) = lasting s := by
  induction ids generalizing s with
  | nil => rfl
  | cons id r ih =>
    unfold State.applyAll
    rw [ih]
    split <;> simp

@[simp] theorem lasting_mergeLine (s : State) (by_ : Option (Nat × Nat)) (core line : Nat) (first : List Nat) :
    lasting (s.mergeLine by_ core line first) = lasting s := by
  unfold State.mergeLine
  simp

@[simp] theorem lasting_touchLine (s : State) (by_ : Option (Nat × Nat)) (line : Nat) : lasting (s.touchLine by_ line) = lasting s := by
  unfold State.touchLine
  simp

@[simp] theorem lasting_touchLines (s : State) (by_ : Option (Nat × Nat)) (ls : List Nat) :
    lasting (s.touchLines by_ ls) = lasting s := by
  induction ls generalizing s with
  | nil => rfl
  | cons l r ih => exact (ih _).trans (by simp)

@[simp] theorem lasting_mergeOwn (s : State) (k : Nat) : lasting (s.mergeOwn k) = lasting s := by
  unfold State.mergeOwn
  simp

@[simp] theorem lasting_applyFresh (s : State) (u : Update) : lasting (s.applyFresh u) = lasting s := by
  unfold State.applyFresh
  simp

@[simp] theorem lasting_applyOwn (s : State) (k upto : Nat) (pus : List Nat) : lasting (s.applyOwn k upto pus) = lasting s := by
  refine lasting_foldl (fun t id => ?_) _ s
  split
  · simp
  · rfl

@[simp] theorem lasting_ready (s : State) (k upto : Nat) (us : List URef) : lasting (s.ready k upto us).1 = lasting s := by
  unfold State.ready
  simp

@[simp] theorem lasting_releaseFrom (s : State) (k : Nat) (l : List PendSig) : lasting (s.releaseFrom k l) = lasting s := by
  induction l generalizing s with
  | nil => exact lasting_setCtx rfl
  | cons p r ih =>
    unfold State.releaseFrom
    dsimp only
    split
    · rw [ih, lasting_signal, lasting_doGets]
      exact lasting_setCtx rfl
    · exact lasting_setCtx rfl

@[simp] theorem lasting_release (s : State) (k : Nat) : lasting (s.release k) = lasting s := by
  unfold State.release
  simp

@[simp] theorem lasting_releaseAll (s : State) : lasting s.releaseAll = lasting s := by
  unfold State.releaseAll
  simp

@[simp] theorem lasting_drainHeads (s : State) (fuel : Nat) : lasting (s.drainHeads fuel) = lasting s := by
  induction fuel generalizing s with
  | zero => rfl
  | succ n ih =>
    unfold State.drainHeads
    split
    · rfl
    · simp [ih]

@[simp] theorem lasting_applyAny (s : State) (fuel : Nat) (ids : List Nat) : lasting (s.applyAny fuel ids) = lasting s := by
  induction fuel generalizing s ids with
  | zero => rfl
  | succ n ih =>
    unfold State.applyAny
    split
    · rfl
    · rw [ih]
      split
      · rw [lasting_applyFresh]; rfl
      · rfl

@[simp] theorem lasting_freeHeld (s : State) (seq node : Nat) : lasting (s.freeHeld seq node) = lasting s := by
  unfold State.freeHeld
  simp

@[simp] theorem lasting_drain (s : State) : lasting s.drain = lasting s := by
  unfold State.drain
  simp

@[simp] theorem lasting_readUnits (s : State) (k : Nat) (old : Bool) (us : List URef) : lasting (s.readUnits k old us).1 = lasting s := by
  induction us generalizing s with
  | nil => rfl
  | cons u r ih => exact (ih _).trans (by simp)

@[simp] theorem lasting_writeUnits (s : State) (k va : Nat) (bs : List Byte) (psn : Bool) (us : List URef) :
    lasting (s.writeUnits k va bs psn us) = lasting s := by
  induction us generalizing s with
  | nil => rfl
  | cons u r ih => exact (ih _).trans (by simp)

@[simp] theorem lasting_bypass (s : State) (k : Nat) (us : List URef) : lasting (s.bypass k us) = lasting s := by
  unfold State.bypass
  simp

@[simp] theorem lasting_directStore (s : State) (k va : Nat) (us : List URef) (bs : List Byte) (psn : Bool) :
    lasting (s.directStore k va us bs psn) = lasting s := by
  unfold State.directStore
  simp

@[simp] theorem lasting_scatterAll (s : State) (k : Nat) (psn : Bool) (els : List (Nat × List URef × List Byte)) :
    lasting (s.scatterAll k psn els) = lasting s := by
  unfold State.scatterAll
  simp

@[simp] theorem lasting_ncasAt (s : State) (pu : Nat) (cmpLo cmpHi newLo newHi : Word) (psn : Bool) :
    lasting (s.ncasAt pu cmpLo cmpHi newLo newHi psn).1 = lasting s := by
  unfold State.ncasAt
  dsimp only
  repeat' split
  all_goals simp

@[simp] theorem lasting_countPoison (s : State) (k : Nat) (b : Bool) : lasting (s.countPoison k b) = lasting s := by
  unfold State.countPoison
  split
  · exact lasting_setCtx rfl
  · rfl

@[simp] theorem lasting_loadNow (s : State) (k : Nat) (old : Bool) (us : List URef) (va n : Nat) (form : LoadForm) (spec : Bool) :
    lasting (s.loadNow k old us va n form spec).1 = lasting s := by
  unfold State.loadNow
  simp

@[simp] theorem lasting_fillSb (s : State) (k id : Nat) (p : Payload) : lasting (s.fillSb k id p) = lasting s := lasting_setCtx rfl

@[simp] theorem lasting_perform (s : State) (k : Nat) (l : Late) : lasting (s.perform k l) = lasting s := by
  unfold State.perform
  dsimp only
  repeat' split
  all_goals simp

@[simp] theorem lasting_popLate (s : State) (k : Nat) : lasting (s.popLate k) = lasting s := lasting_setCtx rfl

@[simp] theorem lasting_lateStep (s : State) (k : Nat) : lasting (s.lateStep k).1 = lasting s := by
  unfold State.lateStep
  dsimp only
  repeat' split
  all_goals simp

@[simp] theorem lasting_lateSteps (s : State) (k n : Nat) : lasting (s.lateSteps k n) = lasting s := by
  induction n generalizing s with
  | zero => rfl
  | succ n ih =>
    unfold State.lateSteps
    dsimp only
    split
    · rw [ih, lasting_lateStep]
    · exact lasting_lateStep s k

@[simp] theorem lasting_inOrder (s : State) (k : Nat) : lasting (s.inOrder k) = lasting s := by
  unfold State.inOrder
  simp

@[simp] theorem lasting_send (s : State) (kind dest : Nat) (body : List Byte) : lasting (s.send kind dest body) = lasting s := by
  unfold State.send
  simp

@[simp] theorem lasting_updName (s : State) (n : BitVec 128) (f : NameEntry → NameEntry) : lasting (s.updName n f) = lasting s := by
  unfold State.updName
  simp

@[simp] theorem lasting_cacheName (s : State) (cl : Nat) (n : BitVec 128) : lasting (s.cacheName cl n) = lasting s := by
  unfold State.cacheName
  dsimp only
  split <;> simp

@[simp] theorem lasting_sweepNames (s : State) : lasting s.sweepNames = lasting s := by
  unfold State.sweepNames
  simp

@[simp] theorem lasting_pinPages (s : State) (a : Arch) (ps : List Page) (deep : Bool) : lasting (s.pinPages a ps deep).1 = lasting s := by
  unfold State.pinPages
  simp

@[simp] theorem lasting_bindName (s : State) (a : Arch) (slot : Nat) (n : BitVec 128) (e : NameEntry) (wr deep : Bool) :
    lasting (s.bindName a slot n e wr deep).1 = lasting s := by
  unfold State.bindName
  simp

@[simp] theorem lasting_agentSet (s : State) (by_ : Nat × Nat) (r : Option URef) (mask : Nat) (data : Word) (psn : Bool) :
    lasting (s.agentSet by_ r mask data psn) = lasting s := by
  unfold State.agentSet
  repeat' split
  all_goals simp

@[simp] theorem lasting_agentPut (s : State) (by_ : Nat × Nat) (va : Nat) (bs : List Byte) (ps : List Bool)
    (us : List (Nat × Option URef)) :
    lasting (s.agentPut by_ va bs ps us) = lasting s := by
  induction us generalizing s with
  | nil => rfl
  | cons x r ih => exact (ih _).trans (by simp)

@[simp] theorem lasting_agentWrite (s : State) (asid va : Nat) (bs : List Byte) (ps : List Bool) :
    lasting (s.agentWrite asid va bs ps) = lasting s := by
  unfold State.agentWrite
  simp

@[simp] theorem lasting_writeRecords (s : State) (seq node : Nat) : lasting (s.writeRecords seq node) = lasting s := by
  have lost (t : State) : lasting (t.updLaunch seq fun l => { l with lost := true }) = lasting t :=
    lasting_updLaunch (by exact fun _ => rfl) _
  unfold State.writeRecords
  dsimp only
  split
  · rfl
  · refine lasting_foldl (fun t p => ?_) _ s
    split
    · exact lasting_agentWrite ..
    · exact lost t

@[simp] theorem lasting_closeNode (s : State) (seq node : Nat) : lasting (s.closeNode seq node) = lasting s := by
  unfold State.closeNode
  simp

@[simp] theorem lasting_closePhase (s : State) (seq node phase : Nat) : lasting (s.closePhase seq node phase) = lasting s := by
  unfold State.closePhase
  simp

@[simp] theorem lasting_skipMissing (s : State) (seq node : Nat) (ts : List (Nat × Nat)) :
    lasting (s.skipMissing seq node ts) = lasting s := by
  refine lasting_updLaunch (fun l => ?_) _
  split <;> rfl

@[simp] theorem lasting_answerAborts (s : State) (seq : Nat) : lasting (s.answerAborts seq) = lasting s := by
  have asked : lasting (s.updLaunch seq fun l => { l with askers := [] }) = lasting s := lasting_updLaunch (by exact fun _ => rfl) seq
  unfold State.answerAborts
  dsimp only
  repeat' split
  · rfl
  · exact asked
  · rw [lasting_foldl (by exact fun _ _ => rfl), asked]

@[simp] theorem lasting_releaseNames (s : State) (a : Arch) : lasting (s.releaseNames a) = lasting s := by
  unfold State.releaseNames
  simp

@[simp] theorem lasting_flushCluster (s : State) (cl : Nat) : lasting (s.flushCluster cl) = lasting s := by
  unfold State.flushCluster
  simp

@[simp] theorem lasting_resolveRange (s : State) (a : Arch) (core cl j : Nat) (r : List Byte) :
    lasting (s.resolveRange a core cl j r).1 = lasting s := by
  unfold State.resolveRange
  dsimp only
  repeat' split
  all_goals simp

@[simp] theorem lasting_resolveRanges (s : State) (core cl : Nat) (rs : List (Nat × List Byte)) (a : Arch) :
    lasting (s.resolveRanges core cl rs a).1 = lasting s := by
  induction rs generalizing s a with
  | nil => rfl
  | cons r rest ih =>
    have h := lasting_resolveRange s a core cl r.1 r.2
    unfold State.resolveRanges
    split
    · next hx => rw [hx] at h; rw [lasting_releaseNames, h]
    · next hx => rw [hx] at h; rw [ih, h]

end Sys2Proof.Machine
end

section
/-! PROOFS. What a bind record's team starts with (spec/01 R22, R26, R30; spec/11 R292; spec/14 R329, R334, R335, R337, R338). -/

namespace Sys2Proof.Machine

/-! ### A task that is reported -/

theorem look_mapValues {α β : Type} (d : α) (m : FMap α) (π : α → β) (k : Nat) :
    look (π d) (m.map fun p => (p.1, π p.2)) k = π (look d m k) := by
  induction m with
  | nil => rfl
  | cons p r ih =>
    rw [List.map_cons]
    simp only [look]
    split
    · rfl
    · exact ih

theorem listed_mapValues {α β : Type} (m : FMap α) (π : α → β) (k : Nat) : listed (m.map fun p => (p.1, π p.2)) k = listed m k := by
  unfold listed
  rw [List.any_map]
  rfl

theorem listed_revise {α : Type} (m : FMap α) (k n : Nat) (f : α → α) : listed (revise m n f) k = listed m k := by
  unfold listed revise
  rw [List.any_map]
  congr 1
  funext p
  dsimp only [Function.comp]
  split <;> rfl

/-- What the report of a task leaves, but for the tables of other nodes: the contexts, the tasks still to start, and one node. -/
structure Aside where
  ctxs : Nat → Bool × Word × Option Nat × FMap SReg
  starts : Nat → Nat → List Nat × TaskInfo
  has : Bool
  node : Node

def besides (seq node : Nat) (s : State) : Aside :=
  ⟨(lasting s).ctxs, (lasting s).starts, listed (s.theLaunch seq).nodes node, (s.launchNode seq node).lasting⟩

theorem launch_lasting (s : State) (seq : Nat) : (s.theLaunch seq).lasting = look noLaunch.lasting (lasting s).launches seq :=
  (look_mapValues noLaunch s.launches Launch.lasting seq).symm

theorem launchNode_lasting (s : State) (seq node : Nat) :
    (s.launchNode seq node).lasting = look ({} : Node).lasting (s.theLaunch seq).lasting node :=
  (look_mapValues ({} : Node) (s.theLaunch seq).nodes Node.lasting node).symm

theorem listed_lasting (s : State) (seq node : Nat) : listed (s.theLaunch seq).nodes node = listed (s.theLaunch seq).lasting node :=
  (listed_mapValues (s.theLaunch seq).nodes Node.lasting node).symm

theorem besides_of_lasting {s t : State} (h : lasting t = lasting s) (seq node : Nat) : besides seq node t = besides seq node s := by
  unfold besides
  rw [launchNode_lasting, launchNode_lasting, listed_lasting, listed_lasting, launch_lasting, launch_lasting, h]

theorem listed_updNode (s : State) (seq n q node : Nat) (f : Node → Node) :
    listed ((s.updNode seq n f).theLaunch q).nodes node = listed (s.theLaunch q).nodes node := by
  unfold State.theLaunch
  rw [launches_updNode, look_revise]
  split
  · exact listed_revise ..
  · rfl

theorem listed_eq_besides (s : State) (q n : Nat) : listed (s.theLaunch q).nodes n = (besides q n s).has := rfl
theorem allTasks_eq_besides (s : State) (q n : Nat) : (s.launchNode q n).allTasks = (besides q n s).node.allTasks := rfl
theorem reports_eq_besides (s : State) (q n : Nat) : (s.launchNode q n).reports = (besides q n s).node.reports := rfl
theorem bound_eq_besides (s : State) (q n k : Nat) : (s.ctx k).bound = ((besides q n s).ctxs k).1 := rfl
theorem toStart_eq_besides (s : State) (q n cl j : Nat) :
    (look {} (s.cluster cl).slots j).toStart = ((besides q n s).starts cl j).1 := rfl

theorem besides_updNode_other (s : State) (seq : Nat) {node n : Nat} (h : node ≠ n) (f : Node → Node) :
    besides seq node (s.updNode seq n f) = besides seq node s := by
  unfold besides
  rw [launchNode_updNode, if_neg fun hn => h hn.2.1, listed_updNode]
  rfl

theorem besides_failTasks_other (s : State) (seq : Nat) {node n : Nat} (h : node ≠ n) (code : Nat) (ts : List (Nat × Nat)) :
    besides seq node (s.failTasks seq n code ts) = besides seq node s := by
  unfold State.failTasks
  rw [besides_of_lasting (lasting_skipMissing ..), besides_updNode_other _ _ h]

theorem besides_failNode_other (s : State) (seq : Nat) {node n : Nat} (h : node ≠ n) (code : Nat) (cancelled : Bool) :
    besides seq node (s.failNode seq n code cancelled) = besides seq node s := by
  unfold State.failNode
  rw [besides_of_lasting (lasting_closeNode ..), besides_of_lasting (lasting_writeRecords ..), besides_updNode_other _ _ h,
    besides_failTasks_other _ _ h]

theorem complete_of_besides {s t : State} {seq node : Nat} (h : besides seq node t = besides seq node s) :
    (t.launchNode seq node).complete = (s.launchNode seq node).complete := congrArg (fun x => x.node.complete) h

/-- Cancelling what a failed node's successors still had to do leaves a complete node. -/
theorem besides_cancelPass {s : State} {seq node : Nat} (h : (s.launchNode seq node).complete = true) :
    besides seq node (s.cancelPass seq) = besides seq node s := by
  unfold State.cancelPass
  dsimp only
  split
  · rfl
  · suffices ∀ (l : List Nat) (t : State), (t.launchNode seq node).complete = true →
        besides seq node (l.foldl (fun s n => if !(s.launchNode seq n).complete && (s.launchNode seq n).preds.any
          (fun p => (s.launchNode seq p).complete && !(s.launchNode seq p).allExited) then s.failNode seq n stCancelled true else s) t) =
          besides seq node t from this _ s h
    intro l
    induction l with
    | nil => exact fun _ _ => rfl
    | cons n r ih =>
      intro t ht
      rw [List.foldl_cons]
      split
      · next hn =>
        have hne : node ≠ n := fun he => by simp [← he, ht] at hn
        have hf := besides_failNode_other t seq hne stCancelled true
        rw [ih _ ((complete_of_besides hf).trans ht), hf]
      · exact ih t ht

/-- A node that a task has failed in carries nothing out. -/
theorem carryOut_failed {s : State} {seq node : Nat} (h : (s.launchNode seq node).allExited = false) : s.carryOut seq node = s := by
  unfold State.carryOut
  simp [h]

theorem besides_updNode_same {s : State} {seq node : Nat} (hl : listed (s.theLaunch seq).nodes node = true) {f : Node → Node} :
    besides seq node (s.updNode seq node f) = { besides seq node s with node := (f (s.launchNode seq node)).lasting } := by
  unfold besides
  rw [launchNode_updNode, if_pos ⟨rfl, rfl, hl⟩, listed_updNode]
  rfl

/-- A failed node's completion leaves its reports, and changes no other thing that a report leaves. -/
theorem besides_nodeDone {s : State} {seq node : Nat} (hl : listed (s.theLaunch seq).nodes node = true)
    (h : (s.launchNode seq node).allExited = false) :
    besides seq node (s.nodeDone seq node) = { besides seq node s with node := { (besides seq node s).node with complete := true } } := by
  unfold State.nodeDone
  rw [carryOut_failed h]
  have hw := besides_of_lasting (lasting_writeRecords s seq node) seq node
  have hd := besides_updNode_same (f := fun nd => { nd with complete := true }) ((congrArg Aside.has hw).trans hl)
  have hc := (besides_of_lasting (lasting_closeNode ((s.writeRecords seq node).updNode seq node fun nd => { nd with complete := true })
    seq node) seq node).trans hd
  have hp := (besides_cancelPass (congrArg (fun x => x.node.complete) hc)).trans hc
  rw [hw] at hp
  refine (besides_of_lasting (lasting_answerAborts ..) seq node).trans (hp.trans ?_)
  exact congrArg (fun n : Node => { besides seq node s with node := { n with complete := true } }) (congrArg Aside.node hw)

/-- A node with the report of one more task. -/
def Node.noting (nd : Node) (k : Nat) (r : TaskReport) : Node :=
  { nd with reports := put noReport nd.reports k r, retired := nd.retired ++ [k] }

theorem allExited_noting {nd : Node} {r : TaskReport} {team task : Nat} (hm : (team, task) ∈ nd.allTasks) (hr : r.status ≠ stExited) :
    (nd.noting (64 * team + task) r).allExited = false := by
  refine Bool.eq_false_iff.mpr fun h => ?_
  have hx := List.all_eq_true.mp h _ hm
  simp only [Node.noting, look_put_same, beq_iff_eq] at hx
  exact hr hx

/-- The report of a task that has failed: its node notes it, and every context and bind record is as it was (R345). -/
theorem besides_report {s : State} {i : TaskInfo} {r : TaskReport} (hl : listed (s.theLaunch i.seq).nodes i.node = true)
    (hm : (i.team, i.task) ∈ (s.launchNode i.seq i.node).allTasks) (hr : r.status ≠ stExited) :
    ∃ complete, besides i.seq i.node (s.report i r) = { besides i.seq i.node s with
      node := { (s.launchNode i.seq i.node).lasting.noting (64 * i.team + i.task) r with complete := complete } } := by
  have h1 := besides_of_lasting (lasting_skipMissing s i.seq i.node [(i.team, i.task)]) i.seq i.node
  have h2 := besides_updNode_same (f := fun nd => nd.noting (64 * i.team + i.task) r) ((congrArg Aside.has h1).trans hl)
  rw [h1] at h2
  have hn : ((s.skipMissing i.seq i.node [(i.team, i.task)]).launchNode i.seq i.node).lasting = (s.launchNode i.seq i.node).lasting :=
    congrArg Aside.node h1
  have h2 := h2.trans (congrArg (fun n : Node => { besides i.seq i.node s with node := n.noting (64 * i.team + i.task) r }) hn)
  have noted (t : State) (ht : besides i.seq i.node t = { besides i.seq i.node s with
      node := (s.launchNode i.seq i.node).lasting.noting (64 * i.team + i.task) r }) : (t.launchNode i.seq i.node).allExited = false ∧
      listed (t.theLaunch i.seq).nodes i.node = true :=
    ⟨(congrArg (fun x => x.node.allExited) ht).trans (allExited_noting hm hr), (congrArg Aside.has ht).trans hl⟩
  have closed (c : Bool) (ph : Nat) : besides i.seq i.node (if c then
      ((s.skipMissing i.seq i.node [(i.team, i.task)]).updNode i.seq i.node fun nd => nd.noting (64 * i.team + i.task) r).closePhase
        i.seq i.node ph
      else (s.skipMissing i.seq i.node [(i.team, i.task)]).updNode i.seq i.node fun nd => nd.noting (64 * i.team + i.task) r) =
      { besides i.seq i.node s with node := (s.launchNode i.seq i.node).lasting.noting (64 * i.team + i.task) r } := by
    split
    · rw [besides_of_lasting (lasting_closePhase ..), h2]
    · exact h2
  have over_ (t : State) (c : Bool) (ht : besides i.seq i.node t = { besides i.seq i.node s with
      node := (s.launchNode i.seq i.node).lasting.noting (64 * i.team + i.task) r }) :
      ∃ complete, besides i.seq i.node (if c then t.nodeDone i.seq i.node else t) = { besides i.seq i.node s with
        node := { (s.launchNode i.seq i.node).lasting.noting (64 * i.team + i.task) r with complete := complete } } := by
    split
    · refine ⟨true, ?_⟩
      rw [besides_nodeDone (noted t ht).2 (noted t ht).1, ht]
    · exact ⟨_, ht⟩
  obtain ⟨complete, h⟩ := over_ _ _ (closed _ _)
  exact ⟨complete, (besides_of_lasting (lasting_drain _) ..).trans h⟩

/-- A record's entry once one of its tasks is known not to start. -/
def BindRec.without (r : BindRec) (t : Nat) : BindRec :=
  ({ r with toStart := r.toStart.filter (· != t) } : BindRec).reported (nth 0 r.ctxs t) false

/-- The state in which a task that does not start is reported. -/
def State.unstarted (s : State) (cl record t : Nat) : State :=
  let u :=
    s.setCluster cl { s.cluster cl with slots := put {} (s.cluster cl).slots record ((look {} (s.cluster cl).slots record).without t) }
  if (look {} (s.cluster cl).slots record).info.fuse && !u.teamOn cl then u.flushCluster cl else u

theorem failTask_eq (s : State) (cl record t code : Nat) : s.failTask cl record t code =
    (s.unstarted cl record t).report { (look {} (s.cluster cl).slots record).info with task := t }
      { status := code, exitCode := 0, rest :=
          restIdle (s.launchNode (look {} (s.cluster cl).slots record).info.seq (look {} (s.cluster cl).slots record).info.node)
            (look {} (s.cluster cl).slots record).info.team t } := rfl

theorem lasting_unstarted (s : State) (cl record t : Nat) : lasting (s.unstarted cl record t) =
    lasting (s.setCluster cl { s.cluster cl with
      slots := put {} (s.cluster cl).slots record ((look {} (s.cluster cl).slots record).without t) }) := by
  unfold State.unstarted
  dsimp only
  split
  · exact lasting_flushCluster ..
  · rfl

/-- A task that does not start is reported with the status, its context stays as it is bound, and it is not started again (R337). -/
theorem failTask_reports {s : State} {cl record t code : Nat} {i : TaskInfo} (hi : (look {} (s.cluster cl).slots record).info = i)
    (hl : listed (s.theLaunch i.seq).nodes i.node = true) (hm : (i.team, t) ∈ (s.launchNode i.seq i.node).allTasks) (hc : code ≠ stExited) :
    (look noReport ((s.failTask cl record t code).launchNode i.seq i.node).reports (64 * i.team + t)).status = code ∧
    (∀ k, ((s.failTask cl record t code).ctx k).bound = (s.ctx k).bound) ∧
    t ∉ (look {} ((s.failTask cl record t code).cluster cl).slots record).toStart := by
  rw [failTask_eq, hi]
  have hb := besides_of_lasting (lasting_unstarted s cl record t) i.seq i.node
  generalize s.unstarted cl record t = u at hb ⊢
  have hl2 : listed (u.theLaunch i.seq).nodes i.node = true := by
    rw [listed_eq_besides, hb]
    exact hl
  have hm2 : (i.team, t) ∈ (u.launchNode i.seq i.node).allTasks := by
    rw [allTasks_eq_besides, hb]
    exact hm
  obtain ⟨complete, hrep⟩ := besides_report (s := u) (i := { i with task := t })
    (r := { status := code, exitCode := 0, rest := restIdle (s.launchNode i.seq i.node) i.team t }) hl2 hm2 hc
  generalize u.report _ _ = v at hrep ⊢
  dsimp only at hrep
  refine ⟨?_, fun k => ?_, ?_⟩
  · rw [reports_eq_besides, hrep]
    exact congrArg TaskReport.status (look_put_same ..)
  · rw [bound_eq_besides _ i.seq i.node, hrep, hb]
    rfl
  · rw [toStart_eq_besides _ i.seq i.node, hrep, hb]
    rw [← toStart_eq_besides, cluster_setCluster_same]
    dsimp only
    rw [look_put_same]
    show t ∉ List.filter _ _
    simp

end Sys2Proof.Machine
end

section
/-! PROOFS. The check of a task's range, and the slot that it binds (spec/11 R292, spec/14 R335, R337). -/

namespace Sys2Proof.Machine

/-- The fault that the check of a range finds at one page: what the statement's `bad` says. -/
def pageFault (s : State) (core asid : Nat) (write : Bool) (p : Nat) : Option Nat :=
  match s.translate asid (p * 65536) with
  | none => some 3
  | some l => if s.part.backed l.pa = false ∨ l.cls = 3 then some 3
    else if write && !l.w && !s.imagePages.contains (l.pa / 65536) then some 5
    else if l.cls = 2 ∧ l.owner ≠ core then some 6 else none

/-- The fault of a mapped page, or 0. -/
def mappedFault (s : State) (core : Nat) (write : Bool) (p : Page) : Nat :=
  if !s.part.backed (p.frame * 65536) || p.cls == 3 then stExtent
  else if write && !p.w && !s.imagePages.contains p.frame then stRdonly
  else if p.cls == 2 && p.owner != core then stPrivate
  else stOk

theorem pagesCheck_eq (s : State) (core : Nat) (ps : List Page) (write : Bool) :
    s.pagesCheck core ps write = ((ps.map (mappedFault s core write)).find? (· != stOk)).getD stOk := by
  unfold State.pagesCheck
  dsimp only
  rw [show (fun p : Page => if !s.part.backed (p.frame * 65536) || p.cls == 3 then stExtent
    else if write && !p.w && !s.imagePages.contains p.frame then stRdonly
    else if p.cls == 2 && p.owner != core then stPrivate
    else stOk) = mappedFault s core write from rfl]
  cases (ps.map (mappedFault s core write)).find? (· != stOk) <;> rfl

theorem frame_page {s : State} {asid p : Nat} {l : Leaf} (h : s.translate asid (p * 65536) = some l) : l.pa / 65536 * 65536 = l.pa := by
  have := translate_pa s asid (p * 65536) (by omega) l h
  omega

theorem pageFault_mapped {s : State} {core asid p : Nat} {write : Bool} {l : Leaf} (h : s.translate asid (p * 65536) = some l) :
    (pageFault s core asid write p).getD 0 = mappedFault s core write (l.page p) ∧ pageFault s core asid write p ≠ some 0 := by
  have hm : mappedFault s core write (l.page p) = if !s.part.backed l.pa || l.cls == 3 then stExtent
      else if write && !l.w && !s.imagePages.contains (l.pa / 65536) then stRdonly
      else if l.cls == 2 && l.owner != core then stPrivate else stOk := by
    unfold mappedFault
    rw [show (l.page p).frame * 65536 = l.pa from frame_page h]
    rfl
  rw [hm]
  unfold pageFault
  rw [h]
  dsimp only
  by_cases h1 : s.part.backed l.pa = false ∨ l.cls = 3
  · rw [if_pos h1, if_pos (by simpa using h1)]
    exact ⟨rfl, by simp⟩
  rw [if_neg h1, if_neg (c := (!s.part.backed l.pa || l.cls == 3) = true) (by simpa using h1)]
  by_cases h2 : (write && !l.w && !s.imagePages.contains (l.pa / 65536)) = true
  · rw [if_pos h2, if_pos h2]
    exact ⟨rfl, by simp⟩
  rw [if_neg h2, if_neg h2]
  by_cases h3 : l.cls = 2 ∧ l.owner ≠ core
  · rw [if_pos h3, if_pos (by simpa using h3)]
    exact ⟨rfl, by simp⟩
  · rw [if_neg h3, if_neg (c := (l.cls == 2 && l.owner != core) = true) (by simpa using h3)]
    exact ⟨rfl, by simp⟩

/-- The mapped pages before the first page of the list that is not mapped. -/
def mappedPages (s : State) (asid : Nat) (l : List Nat) : List Page :=
  ((l.map fun vp => (s.translate asid (vp * 65536)).map (Leaf.page · vp)).takeWhile Option.isSome).filterMap id

/-- The check of a list of pages finds the fault of the first that has one (R337). -/
theorem first_fault (s : State) (core asid : Nat) (write : Bool) (l : List Nat) :
    let code := s.pagesCheck core (mappedPages s asid l) write
    (if code ≠ stOk then code else
      if (l.map fun vp => (s.translate asid (vp * 65536)).map (Leaf.page · vp)).all Option.isSome then stOk else stExtent) =
      (l.findSome? (pageFault s core asid write)).getD 0 ∧ l.findSome? (pageFault s core asid write) ≠ some 0 := by
  induction l with
  | nil => exact ⟨rfl, by simp⟩
  | cons p r ih =>
    cases ht : s.translate asid (p * 65536) with
    | none =>
      have hf : pageFault s core asid write p = some 3 := by unfold pageFault; rw [ht]
      rw [List.findSome?_cons, hf]
      simp only [mappedPages, List.map_cons, ht]
      exact ⟨rfl, by simp⟩
    | some x =>
      obtain ⟨hm, hz⟩ := pageFault_mapped (core := core) (write := write) ht
      have hp : mappedPages s asid (p :: r) = x.page p :: mappedPages s asid r := by
        simp [mappedPages, ht]
      have hc : s.pagesCheck core (mappedPages s asid (p :: r)) write =
          if mappedFault s core write (x.page p) ≠ stOk then mappedFault s core write (x.page p)
          else s.pagesCheck core (mappedPages s asid r) write := by
        rw [hp, pagesCheck_eq, pagesCheck_eq, List.map_cons, List.find?_cons]
        by_cases h : mappedFault s core write (x.page p) = stOk
        · simp [h]
        · rw [if_pos h, show (mappedFault s core write (x.page p) != stOk) = true by simpa using h]
          rfl
      rw [List.findSome?_cons, hc, List.map_cons, List.all_cons, ht]
      cases hf : pageFault s core asid write p with
      | none =>
        rw [hf] at hm
        rw [← hm]
        exact ih
      | some c =>
        rw [hf] at hm hz
        have hc0 : c ≠ 0 := fun h => hz (by rw [h])
        rw [← hm]
        simp [stOk, hc0]

/-- The status of a range: the first page's fault, and after the pages the end of the address space (R337). -/
theorem rangeCheck_eq (s : State) (core asid va n : Nat) (write : Bool) : s.rangeCheck core asid va n write =
    ((pagesOf va (min n (2 ^ 55 - va))).findSome? (pageFault s core asid write)).getD (if va + n ≤ 2 ^ 55 then 0 else 3) := by
  obtain ⟨h, hz⟩ := first_fault s core asid write (pagesOf va (min n (2 ^ 55 - va)))
  have hr : s.rangeCheck core asid va n write =
      if s.pagesCheck core (mappedPages s asid (pagesOf va (min n (2 ^ 55 - va)))) write ≠ stOk then
        s.pagesCheck core (mappedPages s asid (pagesOf va (min n (2 ^ 55 - va)))) write
      else if ((pagesOf va (min n (2 ^ 55 - va))).map fun vp => (s.translate asid (vp * 65536)).map (Leaf.page · vp)).all Option.isSome &&
        decide (va + n ≤ 2 ^ 55) then stOk else stExtent := rfl
  rw [hr]
  generalize pagesOf va (min n (2 ^ 55 - va)) = l at h hz ⊢
  generalize s.pagesCheck core (mappedPages s asid l) write = code at h ⊢
  generalize (l.map fun vp => (s.translate asid (vp * 65536)).map (Leaf.page · vp)).all Option.isSome = all at h ⊢
  generalize l.findSome? (pageFault s core asid write) = first at h hz ⊢
  by_cases hc : code = stOk
  · subst hc
    cases first with
    | none =>
      cases all with
      | true => simp [stOk, stExtent]
      | false => simp [stOk, stExtent] at h
    | some c =>
      cases all with
      | true =>
        have : c = 0 := by simpa [stOk] using h.symm
        exact absurd (by rw [this]) hz
      | false => simpa [stOk, stExtent] using h
  · simp only [ne_eq, hc, not_false_eq_true, if_true] at h ⊢
    cases first with
    | none => exact absurd h hc
    | some c => exact h

theorem findSome?_first {α β : Type} {f : α → Option β} {pre post : List α} {p : α} {c : β} (h : ∀ q ∈ pre, f q = none)
    (hp : f p = some c) :
    (pre ++ p :: post).findSome? f = some c := by
  rw [List.findSome?_append, List.findSome?_eq_none_iff.mpr h, List.findSome?_cons, hp]
  rfl

theorem resolveRange_unused {s : State} {a : Arch} {core cl j : Nat} {r : List Byte} (h : (fld r 16 1).testBit 0 = false) :
    s.resolveRange a core cl j r = (s, .ok a) := by
  unfold State.resolveRange
  simp [h]

theorem resolveRange_fails {s : State} {a : Arch} {core cl j code : Nat} {r : List Byte} (h0 : (fld r 16 1).testBit 0 = true)
    (h1 : (fld r 16 1).testBit 1 = false)
    (hc : s.rangeCheck core a.info.asid (fld r 0 8) (fld r 8 8) ((fld r 16 1).testBit 2) = code) (hcode : code ≠ 0) :
    s.resolveRange a core cl j r = (s, .error code) := by
  unfold State.resolveRange
  simp [h0, h1, hc, hcode, stOk]

/-- What a task's architectural state is once its slot `j` is bound to the pages of a range (R292, R335). -/
def rangeBound (s : State) (a : Arch) (j : Nat) (r : List Byte) : Arch :=
  let ps := s.pagesAt a.info.asid (fld r 0 8) (fld r 8 8)
  let p := (s.pinPages a ps ((fld r 16 1).testBit 3)).2
  { p with
    e := put 0 p.e j (mkExtent (fld r 0 8) (fld r 8 8) ((fld r 16 1).testBit 2 && !ps.any fun q => s.imagePages.contains q.frame)
      (slotAttr ps).1 (slotAttr ps).2 false)
    ePages := put [] p.ePages j ps }

theorem resolveRange_binds {s : State} {a : Arch} {core cl j : Nat} {r : List Byte} (h0 : (fld r 16 1).testBit 0 = true)
    (h1 : (fld r 16 1).testBit 1 = false)
    (hc : s.rangeCheck core a.info.asid (fld r 0 8) (fld r 8 8) ((fld r 16 1).testBit 2) = 0) :
    s.resolveRange a core cl j r =
      ((s.pinPages a (s.pagesAt a.info.asid (fld r 0 8) (fld r 8 8)) ((fld r 16 1).testBit 3)).1, .ok (rangeBound s a j r)) := by
  unfold State.resolveRange
  simp only [h0, h1, hc]
  rfl

/-- The pages of a mapped range. -/
theorem mem_pagesAt {s : State} {asid va n : Nat} {p : Page} :
    p ∈ s.pagesAt asid va n ↔ ∃ vp ∈ pagesOf va n, ∃ l, s.translate asid (vp * 65536) = some l ∧ l.page vp = p := by
  unfold State.pagesAt
  simp [List.mem_filterMap]

theorem deep_page {s : State} {asid vp : Nat} {l : Leaf} (h : s.translate asid (vp * 65536) = some l) :
    (l.page vp).deep = inDeep l.pa := by
  unfold Page.deep
  rw [show (l.page vp).frame * 65536 = l.pa from frame_page h]

theorem withSlot_keeps (a : Arch) (e : FMap (BitVec 128)) (ps : FMap (List Page)) :
    ({ a with e := e, ePages := ps } : Arch).s = a.s ∧ ({ a with e := e, ePages := ps } : Arch).csw = a.csw := ⟨rfl, rfl⟩

theorem rangeBound_keeps (s : State) (a : Arch) (j : Nat) (r : List Byte) :
    (rangeBound s a j r).s = a.s ∧ (rangeBound s a j r).csw = a.csw :=
  withSlot_keeps (s.pinPages a (s.pagesAt a.info.asid (fld r 0 8) (fld r 8 8)) ((fld r 16 1).testBit 3)).2 _ _

theorem rangeBound_slot (s : State) (a : Arch) (j : Nat) (r : List Byte) : look 0 (rangeBound s a j r).e j =
    mkExtent (fld r 0 8) (fld r 8 8)
      ((fld r 16 1).testBit 2 && !(s.pagesAt a.info.asid (fld r 0 8) (fld r 8 8)).any fun q => s.imagePages.contains q.frame)
      (slotAttr (s.pagesAt a.info.asid (fld r 0 8) (fld r 8 8))).1 (slotAttr (s.pagesAt a.info.asid (fld r 0 8) (fld r 8 8))).2 false := by
  unfold rangeBound
  dsimp only
  rw [look_put_same]

theorem rangeBound_slot_other (s : State) (a : Arch) {j n : Nat} (h : n ≠ j) (r : List Byte) :
    look 0 (rangeBound s a j r).e n = look 0 a.e n := by
  unfold rangeBound
  dsimp only
  rw [look_put_other _ _ _ h]
  rfl

/-- The slot's write permission: what the range declares, but not over an image's pages. -/
theorem rangeBound_writable (s : State) (a : Arch) (j : Nat) (r : List Byte) : (look 0 (rangeBound s a j r).e j).getLsbD 23 = true ↔
    (fld r 16 1).testBit 2 = true ∧ ∀ p ∈ pagesOf (fld r 0 8) (fld r 8 8), ∀ l, s.translate a.info.asid (p * 65536) = some l →
      l.pa / 65536 ∉ s.imagePages := by
  rw [rangeBound_slot, writable_mkExtent, Bool.and_eq_true, Bool.not_eq_true', List.any_eq_false]
  refine and_congr_right fun _ => ⟨fun h p hp l hl hi => ?_, fun h q hq => ?_⟩
  · exact h _ (mem_pagesAt.mpr ⟨p, hp, l, hl, rfl⟩) (by simpa [Leaf.page] using hi)
  · obtain ⟨p, hp, l, hl, rfl⟩ := mem_pagesAt.mp hq
    simpa [Leaf.page] using h p hp l hl

/-- The frames of the pages of a range that a test of their tier picks. -/
theorem mem_frames {s : State} {asid va n x : Nat} {pick : Page → Bool} {test : Leaf → Prop}
    (h : ∀ vp l, s.translate asid (vp * 65536) = some l → (pick (l.page vp) = true ↔ test l)) :
    x ∈ ((s.pagesAt asid va n).filter pick).map Page.frame ↔
      ∃ p ∈ pagesOf va n, ∃ l, s.translate asid (p * 65536) = some l ∧ l.pa / 65536 = x ∧ test l := by
  simp only [List.mem_map, List.mem_filter, mem_pagesAt]
  constructor
  · rintro ⟨q, ⟨⟨p, hp, l, hl, rfl⟩, hq⟩, rfl⟩
    exact ⟨p, hp, l, hl, rfl, (h p l hl).mp hq⟩
  · rintro ⟨p, hp, l, hl, rfl, ht⟩
    exact ⟨l.page p, ⟨⟨p, hp, l, hl, rfl⟩, (h p l hl).mpr ht⟩, rfl⟩

theorem rangeBound_pins (s : State) (a : Arch) (j : Nat) (r : List Byte) (x : Nat) : x ∈ (rangeBound s a j r).pins ↔ x ∈ a.pins ∨
    ∃ p ∈ pagesOf (fld r 0 8) (fld r 8 8), ∃ l, s.translate a.info.asid (p * 65536) = some l ∧ l.pa / 65536 = x ∧
      (inDeep l.pa = false ∨ (fld r 16 1).testBit 3 = true) := by
  refine List.mem_append.trans (or_congr_right (mem_frames fun vp l hl => ?_))
  rw [deep_page hl]
  simp

theorem rangeBound_holds (s : State) (a : Arch) (j : Nat) (r : List Byte) (x : Nat) : x ∈ (rangeBound s a j r).holds ↔ x ∈ a.holds ∨
    ∃ p ∈ pagesOf (fld r 0 8) (fld r 8 8), ∃ l, s.translate a.info.asid (p * 65536) = some l ∧ l.pa / 65536 = x ∧
      inDeep l.pa = true ∧ (fld r 16 1).testBit 3 = false := by
  refine List.mem_append.trans (or_congr_right (mem_frames fun vp l hl => ?_))
  dsimp only
  rw [deep_page hl]
  simp

/-- A is set in the entries of the range's pages, and no other byte changes (R292). -/
theorem pinPages_byte (s : State) (a : Arch) (asid va n : Nat) (deep : Bool) (x : Nat) :
    ((s.pinPages a (s.pagesAt asid va n) deep).1.mem.byte x) =
      if ∃ p ∈ pagesOf va n, ∃ l, s.translate asid (p * 65536) = some l ∧ l.at_ + 1 = x then s.mem.byte x ||| 4 else s.mem.byte x := by
  refine (byte_foldl_accessed ..).trans (if_congr ⟨?_, ?_⟩ rfl rfl)
  · rintro ⟨q, hq, rfl⟩
    obtain ⟨p, hp, l, hl, rfl⟩ := mem_pagesAt.mp hq
    exact ⟨p, hp, l, hl, rfl⟩
  · rintro ⟨p, hp, l, hl, rfl⟩
    exact ⟨l.page p, mem_pagesAt.mpr ⟨p, hp, l, hl, rfl⟩, rfl⟩

/-- The pages of a range are tested in order, and then the end of the address space; one that passes is bound (R335, R337). -/
theorem ranges_resolve (s : State) (a : Arch) (core cl j : Nat) (r : List Byte) (h0 : (fld r 16 1).testBit 0 = true)
    (h1 : (fld r 16 1).testBit 1 = false) :
    let f := fld r 16 1
    let va := fld r 0 8
    let len := fld r 8 8
    let bad := pageFault s core a.info.asid (f.testBit 2)
    ((∀ p ∈ pagesOf va (min len (2 ^ 55 - va)), bad p = none) → 2 ^ 55 < va + len → s.resolveRange a core cl j r = (s, .error 3)) ∧
    (∀ pre p post c, pagesOf va (min len (2 ^ 55 - va)) = pre ++ p :: post → (∀ q ∈ pre, bad q = none) → bad p = some c →
      s.resolveRange a core cl j r = (s, .error c)) ∧
    (va + len ≤ 2 ^ 55 → 0 < len → len < 2 ^ 48 → (∀ p ∈ pagesOf va len, bad p = none) →
      s.resolveRange a core cl j r = ((s.pinPages a (s.pagesAt a.info.asid va len) (f.testBit 3)).1, .ok (rangeBound s a j r))) := by
  dsimp only
  refine ⟨fun h he => resolveRange_fails h0 h1 ?_ (by decide), fun pre p post c hl hpre hp => resolveRange_fails h0 h1 ?_ ?_,
    fun he _ _ h => resolveRange_binds h0 h1 ?_⟩
  · rw [rangeCheck_eq, List.findSome?_eq_none_iff.mpr h]
    simp only [Option.getD_none]
    rw [if_neg (by omega)]
  · rw [rangeCheck_eq, hl, findSome?_first hpre hp]
    rfl
  · rintro rfl
    exact (first_fault s core a.info.asid ((fld r 16 1).testBit 2) [p]).2 (by simp [hp])
  · rw [rangeCheck_eq, Nat.min_eq_left (by omega), List.findSome?_eq_none_iff.mpr h]
    simp only [Option.getD_none]
    rw [if_pos he]

end Sys2Proof.Machine
end

section
/-! PROOFS. The start of a task (spec/01 R22, R26, spec/14 R334, R335). -/

namespace Sys2Proof.Machine

theorem closeWindow_none {c : Ctx} (h : c.window = none) : c.closeWindow = c := by
  unfold Ctx.closeWindow
  split
  · next hw => rw [h] at hw; cases hw
  · rfl

/-- The pass between bundles, where no lock window is open: the halves of the loop buffer, the test of the wait and the block of a context
whose bundle is not there (R31, R86). -/
theorem settle_calm {s : State} {k : Nat} (h : (s.ctx k).window = none) : ∃ halfA halfB met n b, (s.settle k).ctx k =
    { s.ctx k with halfA := halfA, halfB := halfB, waitMet := met, blocked := b, arch := { (s.ctx k).arch with fetches := n } } := by
  unfold State.settle
  by_cases hb : s.between k = true
  · rw [if_pos hb]
    dsimp only
    obtain ⟨a, b, n, hr⟩ := request_eq (s.ctx k) (ptrSeg (s.ctx k).arch.pos)
    have hw : ((s.ctx k).request (ptrSeg (s.ctx k).arch.pos)).closeWindow =
        { s.ctx k with halfA := a, halfB := b, arch := { (s.ctx k).arch with fetches := n } } := by
      rw [hr]
      exact closeWindow_none h
    rw [hw]
    split
    · obtain ht | ht := testWait_eq (s.setCtx k { s.ctx k with halfA := a, halfB := b, arch := { (s.ctx k).arch with fetches := n } }) k
      · exact ⟨a, b, (s.ctx k).waitMet, n, (s.ctx k).blocked, by rw [ht, ctx_setCtx_same]⟩
      · exact ⟨a, b, true, n, (s.ctx k).blocked, by rw [ht, ctx_setCtx_same, ctx_setCtx_same]⟩
    · refine ⟨a, b, (s.ctx k).waitMet, n, true, ?_⟩
      rw [ctx_setCtx_same]
      unfold Ctx.block
      simp [h]
  · rw [if_neg hb]
    exact ⟨(s.ctx k).halfA, (s.ctx k).halfB, (s.ctx k).waitMet, (s.ctx k).arch.fetches, (s.ctx k).blocked, rfl⟩

theorem settle_others (s : State) {k n : Nat} (h : n ≠ k) : (s.settle k).ctx n = s.ctx n := (settle_spec s k).2.1 n h

theorem settle_outside (s : State) (k : Nat) : s.settle k = { s with ctxs := (s.settle k).ctxs } := (settle_spec s k).1

/-! ### The state of a fresh task -/

/-- The argument registers, numbered from s1. -/
theorem look_arguments (f : Nat → SReg) (n x : Nat) : look {} ((List.range n).foldl (fun m j => put {} m (j + 1) (f j)) []) x =
    if 1 ≤ x ∧ x ≤ n then f (x - 1) else {} := by
  induction n with
  | zero => rw [if_neg (by omega)]; rfl
  | succ n ih =>
    rw [List.range_succ, List.foldl_append, List.foldl_cons, List.foldl_nil, look_put, ih]
    by_cases hx : x = n + 1
    · rw [if_pos hx, if_pos (by omega), hx]
      rfl
    · rw [if_neg hx]
      exact if_congr (by omega) rfl rfl

theorem freshArch_args (s : State) (l : Launch) (node team t : Nat) (args : List Word) :
    (∀ x, x < 8 → look {} (s.freshArch l node team t args).s (x + 1) = { val := nth 0 args x }) ∧
    ∀ x, x = 0 ∨ 9 ≤ x → look {} (s.freshArch l node team t args).s x = {} := by
  have h (x : Nat) : look {} (s.freshArch l node team t args).s x = if 1 ≤ x ∧ x ≤ 8 then { val := nth 0 args (x - 1) } else {} :=
    look_arguments (fun j => { val := nth 0 args j }) 8 x
  refine ⟨fun x hx => ?_, fun x hx => ?_⟩
  · rw [h, if_pos (by omega)]
    rfl
  · rw [h, if_neg (by omega)]

theorem resolveRanges_unused (s : State) (core cl : Nat) (a : Arch) (rs : List (Nat × List Byte))
    (h : ∀ r ∈ rs, (fld r.2 16 1).testBit 0 = false) : s.resolveRanges core cl rs a = (s, .ok a) := by
  induction rs with
  | nil => rfl
  | cons r rest ih =>
    have hr : s.resolveRange a core cl r.1 r.2 = (s, .ok a) := by
      unfold State.resolveRange
      simp [h r List.mem_cons_self]
    unfold State.resolveRanges
    rw [hr]
    exact ih fun q hq => h q (List.mem_cons_of_mem _ hq)

/-- A record's entry once one of its tasks has started (R338). -/
def BindRec.started (r : BindRec) (t : Nat) : BindRec :=
  { r with state := if r.state = 1 then 2 else r.state, toStart := r.toStart.filter (· != t) }

/-- What the start of a task does once its ranges are bound. -/
def State.launchTask (s : State) (cl record t k : Nat) (a : Arch) : State :=
  ((s.updRecord cl record (BindRec.started · t)).setCtx k { bound := true, arch := a }).settle k

theorem startTask_ok {s u : State} {cl record t : Nat} {a : Arch} {r : BindRec} (hr : look {} (s.cluster cl).slots record = r)
    (ht : t ∈ r.toStart)
    (hx : ({ s with nextId := s.nextId + 1 } : State).resolveRanges (coreOf (nth 0 r.ctxs t)) cl
      ((List.range 16).zip (s.launchNode r.info.seq r.info.node).ranges)
      (s.freshArch (s.theLaunch r.info.seq) r.info.node r.info.team t r.argWords) = (u, .ok a)) :
    s.startTask cl record t = u.launchTask cl record t (nth 0 r.ctxs t) a := by
  subst hr
  unfold State.startTask
  rw [if_neg (by simpa using ht)]
  dsimp only
  rw [hx]
  rfl

theorem startTask_error {s u : State} {cl record t c : Nat} {r : BindRec} (hr : look {} (s.cluster cl).slots record = r)
    (ht : t ∈ r.toStart)
    (hx : ({ s with nextId := s.nextId + 1 } : State).resolveRanges (coreOf (nth 0 r.ctxs t)) cl
      ((List.range 16).zip (s.launchNode r.info.seq r.info.node).ranges)
      (s.freshArch (s.theLaunch r.info.seq) r.info.node r.info.team t r.argWords) = (u, .error c)) :
    s.startTask cl record t = u.failTask cl record t c := by
  subst hr
  unfold State.startTask
  rw [if_neg (by simpa using ht)]
  dsimp only
  rw [hx]

theorem startTask_done {s : State} {cl record t : Nat} (ht : t ∉ (look {} (s.cluster cl).slots record).toStart) :
    s.startTask cl record t = s := by
  unfold State.startTask
  rw [if_pos (by simpa using ht)]

/-- The start of a task changes its record, and of the contexts its own, which is fresh but for the halves that it asks for. -/
theorem launchTask_starts (s : State) (cl record t k : Nat) (a : Arch) :
    let u := s.launchTask cl record t k a
    u.mem = s.mem ∧ (∀ m, m ≠ k → u.ctx m = s.ctx m) ∧
    (∀ c, (u.cluster c).store = (s.cluster c).store ∧ (u.cluster c).sems = (s.cluster c).sems) ∧
    look {} (u.cluster cl).slots record = (look {} (s.cluster cl).slots record).started t ∧
    (u.ctx k).bound = true ∧ (u.ctx k).ending = none ∧ ∃ n, (u.ctx k).arch = { a with fetches := n } := by
  dsimp only
  have ho : s.launchTask cl record t k a = { (s.updRecord cl record (BindRec.started · t)).setCtx k { bound := true, arch := a } with
    ctxs := (s.launchTask cl record t k a).ctxs } := settle_outside _ k
  obtain ⟨halfA, halfB, met, n, b, hk⟩ :=
    settle_calm (s := (s.updRecord cl record (BindRec.started · t)).setCtx k { bound := true, arch := a })
    (k := k) (by rw [ctx_setCtx_same])
  rw [ctx_setCtx_same] at hk
  have hk : (s.launchTask cl record t k a).ctx k = _ := hk
  have hcl (c : Nat) : (s.launchTask cl record t k a).cluster c = (s.updRecord cl record (BindRec.started · t)).cluster c := by
    rw [ho]
    rfl
  refine ⟨by rw [ho]; rfl, fun m hm => ?_, fun c => ?_, ?_, by rw [hk], by rw [hk], n, by rw [hk]⟩
  · show (State.settle _ k).ctx m = _
    rw [settle_others _ hm, ctx_setCtx_other _ _ hm]
    rfl
  · rw [hcl]
    unfold State.updRecord
    rw [cluster_setCluster]
    by_cases hc : c = cl
    · rw [if_pos hc, hc]
      exact ⟨rfl, rfl⟩
    · rw [if_neg hc]
      exact ⟨rfl, rfl⟩
  · rw [hcl]
    unfold State.updRecord
    rw [cluster_setCluster_same]
    exact look_put_same ..

end Sys2Proof.Machine
end

section
/-! PROOFS. The record and the cluster of a team that is bound (spec/01 R30, spec/14 R329, R334, R338). -/

namespace Sys2Proof.Machine

/-! ### Putting aside what a bank holds -/

/-- What putting aside the contents of banks changes: of contexts the contents that they keep, and the cores and saved teams. -/
structure Spills (s t : State) : Prop where
  outside : ∃ cs cl co, t = { s with ctxs := cs, clusters := cl, cores := co }
  ctx : ∀ k, ∃ m, t.ctx k = { s.ctx k with arch := { (s.ctx k).arch with accs := m } }
  cluster : ∀ c, ∃ slots, t.cluster c = { s.cluster c with slots := slots }

theorem Spills.refl (s : State) : Spills s s := ⟨⟨_, _, _, rfl⟩, fun k => ⟨(s.ctx k).arch.accs, rfl⟩, fun c => ⟨(s.cluster c).slots, rfl⟩⟩

theorem Spills.trans {s t u : State} (h : Spills s t) (g : Spills t u) : Spills s u := by
  refine ⟨?_, fun k => ?_, fun c => ?_⟩
  · obtain ⟨cs, cl, co, rfl⟩ := h.outside
    obtain ⟨cs', cl', co', rfl⟩ := g.outside
    exact ⟨cs', cl', co', rfl⟩
  · obtain ⟨m, hm⟩ := h.ctx k
    obtain ⟨n, hn⟩ := g.ctx k
    exact ⟨n, by rw [hn, hm]⟩
  · obtain ⟨x, hx⟩ := h.cluster c
    obtain ⟨y, hy⟩ := g.cluster c
    exact ⟨y, by rw [hy, hx]⟩

theorem Spills.foldl {α : Type} {g : State → α → State} (hg : ∀ s x, Spills s (g s x)) (l : List α) (s : State) :
    Spills s (l.foldl g s) := by
  induction l generalizing s with
  | nil => exact .refl s
  | cons x r ih => exact (hg s x).trans (ih _)

theorem spills_setCore (s : State) (k : Nat) (c : Core) : Spills s (s.setCore k c) :=
  ⟨⟨_, _, _, rfl⟩, fun k => ⟨(s.ctx k).arch.accs, rfl⟩, fun c => ⟨(s.cluster c).slots, rfl⟩⟩

theorem ctx_mapCtxs (s : State) (g : Ctx → Ctx) (k : Nat) : (s.mapCtxs g).ctx k = if (s.ctx k).bound then g (s.ctx k) else s.ctx k :=
  look_mapValues ({} : Ctx) s.ctxs (fun c : Ctx => if c.bound then g c else c) k

theorem cluster_mapCtxs (s : State) (g : Ctx → Ctx) (c : Nat) : (s.mapCtxs g).cluster c = { s.cluster c with
    slots := (s.cluster c).slots.map fun r => (r.1, { r.2 with saved := r.2.saved.map fun q => (q.1, g q.2) }) } :=
  look_mapValues ({} : Cluster) s.clusters (fun x => { x with slots := x.slots.map fun r : Nat × BindRec =>
    (r.1, { r.2 with saved := r.2.saved.map fun q : Nat × Ctx => (q.1, g q.2) }) } : Cluster → Cluster) c

theorem spills_mapTasks (s : State) {f : Arch → Arch} (hf : ∀ a, ∃ m, f a = { a with accs := m }) : Spills s (s.mapTasks f) := by
  refine ⟨⟨_, _, _, rfl⟩, fun k => ?_, fun c => ⟨_, cluster_mapCtxs s _ c⟩⟩
  rw [State.mapTasks, ctx_mapCtxs]
  split
  · obtain ⟨m, hm⟩ := hf (s.ctx k).arch
    exact ⟨m, by rw [hm]⟩
  · exact ⟨(s.ctx k).arch.accs, rfl⟩

theorem spills_spillBank (s : State) (core b : Nat) : Spills s (s.spillBank core b) := by
  unfold State.spillBank
  dsimp only
  split
  · exact .refl s
  · refine (spills_setCore ..).trans (spills_mapTasks _ fun a => ?_)
    split
    · exact ⟨_, rfl⟩
    · exact ⟨a.accs, rfl⟩

theorem spills_spillBanks (s : State) (cores : List Nat) (f : Nat → Bool) : Spills s (s.spillBanks cores f) := by
  refine Spills.foldl (fun t c => Spills.foldl (fun u b => ?_) _ t) cores s
  split
  · exact spills_spillBank ..
  · exact .refl u

/-- A core of the list is as the change leaves one. -/
theorem core_foldl_setCore {g : Core → Core} (l : List Nat) (s : State) (c : Nat) (h : c ∈ l ∨ ∃ x, s.core c = g x) :
    ∃ x, (l.foldl (fun s c => s.setCore c (g (s.core c))) s).core c = g x := by
  induction l generalizing s with
  | nil => exact h.resolve_left (by simp)
  | cons k r ih =>
    refine ih _ ?_
    rw [core_setCore]
    by_cases hk : c = k
    · exact .inr ⟨s.core k, if_pos hk⟩
    · rw [if_neg hk]
      exact h.imp_left fun hm => (List.mem_cons.mp hm).resolve_left hk

/-! ### The cluster of a group's first team -/

/-- A core whose memories have been zeroed for another address space. -/
def Core.zeroed (c : Core) : Core := { c with spm := {}, acc := [], accBy := [], wb := {} }

theorem zeroCluster_zeroes (s : State) (cl : Nat) :
    let t := s.zeroCluster cl
    (∃ cs cs' co, t = { s with ctxs := cs, clusters := cs', cores := co }) ∧
    (∀ k, ∃ m, t.ctx k = { s.ctx k with arch := { (s.ctx k).arch with accs := m } }) ∧
    (∃ slots, t.cluster cl = { s.cluster cl with slots := slots, store := {} }) ∧
    ∀ c, c ∈ clusterCores cl → ∃ x : Core, t.core c = x.zeroed := by
  dsimp only
  have h := spills_spillBanks s (clusterCores cl) (· != 0)
  obtain ⟨slots, hs⟩ := h.cluster cl
  generalize hu : s.spillBanks (clusterCores cl) (· != 0) = u at h hs
  have ht : s.zeroCluster cl = (clusterCores cl).foldl (fun s c => s.setCore c (s.core c).zeroed)
      (u.setCluster cl { u.cluster cl with store := {} }) := by
    rw [← hu]
    rfl
  have hf := Spills.foldl (g := fun s c => s.setCore c (s.core c).zeroed) (fun s c => spills_setCore s c _) (clusterCores cl)
    (u.setCluster cl { u.cluster cl with store := {} })
  rw [← ht] at hf
  refine ⟨?_, fun k => ?_, ?_, fun c hc => ?_⟩
  · obtain ⟨cs, cl', co, rfl⟩ := h.outside
    obtain ⟨cs', cl'', co', ho⟩ := hf.outside
    exact ⟨cs', cl'', co', ho⟩
  · obtain ⟨m, hm⟩ := h.ctx k
    obtain ⟨n, hn⟩ := hf.ctx k
    exact ⟨n, by rw [hn, ctx_setCluster, hm]⟩
  · obtain ⟨x, hx⟩ := hf.cluster cl
    exact ⟨x, by rw [hx, cluster_setCluster_same, hs]⟩
  · rw [ht]
    exact core_foldl_setCore _ _ c (.inl hc)

/-- A cluster that a group of the node is bound to. -/
def Cluster.opened (c : Cluster) (l : Launch) (nd : Node) : Cluster :=
  { c with lastAsid := some l.asid, keptFor := none, sems := c.sems.filter fun p => nd.gsem && decide (248 ≤ p.1) }

theorem openCluster_opens (s : State) (cl : Nat) (l : Launch) (nd : Node) :
    let t := s.openCluster cl l nd
    (∃ cs cs' co, t = { s with ctxs := cs, clusters := cs', cores := co }) ∧
    (∀ k, ∃ m, t.ctx k = { s.ctx k with arch := { (s.ctx k).arch with accs := m } }) ∧
    (t.cluster cl).lastAsid = some l.asid ∧ (t.cluster cl).keptFor = none ∧
    (∀ n, n < 248 → look {} (t.cluster cl).sems n = {}) ∧
    ∀ b, (s.cluster cl).lastAsid = some b → b ≠ l.asid → (t.cluster cl).store = {} ∧
      ∀ c, c ∈ clusterCores cl → ∃ x : Core, t.core c = x.zeroed := by
  dsimp only
  have key (u : State) (hu : ∃ cs cs' co, u = { s with ctxs := cs, clusters := cs', cores := co })
      (hc : ∀ k, ∃ m, u.ctx k = { s.ctx k with arch := { (s.ctx k).arch with accs := m } })
      (ht : s.openCluster cl l nd = u.setCluster cl (u.cluster cl |>.opened l nd)) :
      (∃ cs cs' co, s.openCluster cl l nd = { s with ctxs := cs, clusters := cs', cores := co }) ∧
      (∀ k, ∃ m, (s.openCluster cl l nd).ctx k = { s.ctx k with arch := { (s.ctx k).arch with accs := m } }) ∧
      ((s.openCluster cl l nd).cluster cl).lastAsid = some l.asid ∧ ((s.openCluster cl l nd).cluster cl).keptFor = none ∧
      ∀ n, n < 248 → look {} ((s.openCluster cl l nd).cluster cl).sems n = {} := by
    rw [ht, cluster_setCluster_same]
    obtain ⟨cs, cs', co, rfl⟩ := hu
    refine ⟨⟨_, _, _, rfl⟩, hc, rfl, rfl, fun n hn => look_not_mem _ _ _ fun p hp => ?_⟩
    have := (List.mem_filter.mp hp).2
    simp only [Bool.and_eq_true, decide_eq_true_eq] at this
    omega
  obtain ⟨hz, hzc, ⟨slots, hzl⟩, hzk⟩ := zeroCluster_zeroes s cl
  cases hl : (s.cluster cl).lastAsid with
  | none =>
    obtain ⟨h1, h2, h3, h4, h5⟩ := key s ⟨_, _, _, rfl⟩ (fun k => ⟨(s.ctx k).arch.accs, rfl⟩) (by
      unfold State.openCluster
      dsimp only
      rw [hl]
      rfl)
    exact ⟨h1, h2, h3, h4, h5, fun b hb => by cases hb⟩
  | some b =>
    by_cases hb : b = l.asid
    · obtain ⟨h1, h2, h3, h4, h5⟩ := key s ⟨_, _, _, rfl⟩ (fun k => ⟨(s.ctx k).arch.accs, rfl⟩) (by
        unfold State.openCluster
        dsimp only
        rw [hl]
        dsimp only
        rw [if_pos hb]
        rfl)
      exact ⟨h1, h2, h3, h4, h5, fun b' hb' hne => absurd ((Option.some.inj hb').symm.trans hb) hne⟩
    · have ht : s.openCluster cl l nd = (s.zeroCluster cl).setCluster cl (((s.zeroCluster cl).cluster cl).opened l nd) := by
        unfold State.openCluster
        dsimp only
        rw [hl]
        dsimp only
        rw [if_neg hb]
        rfl
      obtain ⟨h1, h2, h3, h4, h5⟩ := key _ hz hzc ht
      refine ⟨h1, h2, h3, h4, h5, fun _ _ _ => ⟨?_, fun c hc => ?_⟩⟩
      · rw [ht, cluster_setCluster_same, hzl]
        rfl
      · rw [ht, core_setCluster]
        exact hzk c hc

/-! ### The record of a team -/

/-- A node that a team has been bound to; `first` is whether the team is the first of its group (R338, R343). -/
def Node.teamBound (nd : Node) (team : Nat) (first : Bool) : Node :=
  { nd with
    boundTeams := nd.boundTeams ++ [team], ran := true, gsems := if nd.boundTeams.isEmpty then [] else nd.gsems
    overdue := if first then 0 else nd.overdue }

/-- The state in which a team's record is written. -/
def State.teamPlaced (s : State) (cl seq node team : Nat) (first : Bool) : State :=
  let l := s.theLaunch seq
  (if first then { s.openCluster cl l (s.launchNode seq node) with turns := put 0 s.turns l.prio (l.queue + 1) } else s).updNode seq node
    (·.teamBound team first)

theorem bindTeam_eq {s : State} {cl record seq node team : Nat} {mask : BitVec 64} {first : Bool} (h : (s.launchNode seq node).fuse = false)
    (hf : first = !s.groupPlaced seq node ((s.launchNode seq node).groupOf team)) :
    s.bindTeam cl record seq node team mask =
      { (s.teamPlaced cl seq node team first).updRecord cl record fun _ =>
          (s.teamPlaced cl seq node team first).newRecord (s.theLaunch seq) node team mask (maskContexts cl mask) with
        draws := (s.teamPlaced cl seq node team first).draws + 3 } := by
  subst hf
  unfold State.bindTeam
  simp only [h]
  rfl

/-- What the first team of a group finds in its cluster, and what a later one does (R338). -/
theorem teamPlaced_places (s : State) (cl seq node team : Nat) (first : Bool) :
    let t := s.teamPlaced cl seq node team first
    let l := s.theLaunch seq
    (∃ cs cs' co tu, t = { s with
      ctxs := cs, clusters := cs', cores := co, turns := tu
      launches := (s.updNode seq node (·.teamBound team first)).launches }) ∧
    (∀ k, ∃ m, t.ctx k = { s.ctx k with arch := { (s.ctx k).arch with accs := m } }) ∧
    (first = true → (t.cluster cl).lastAsid = some l.asid ∧ (t.cluster cl).keptFor = none ∧
      (∀ n, n < 248 → look {} (t.cluster cl).sems n = {}) ∧
      ∀ b, (s.cluster cl).lastAsid = some b → b ≠ l.asid → (t.cluster cl).store = {} ∧
        ∀ c, c ∈ clusterCores cl → ∃ x : Core, t.core c = x.zeroed) ∧
    (first = false → t.clusters = s.clusters ∧ t.cores = s.cores) := by
  dsimp only
  unfold State.teamPlaced
  cases first with
  | false =>
    exact ⟨⟨_, _, _, _, rfl⟩, fun k => ⟨(s.ctx k).arch.accs, rfl⟩, fun h => absurd h Bool.false_ne_true, fun _ => ⟨rfl, rfl⟩⟩
  | true =>
    obtain ⟨⟨cs, cs', co, ho⟩, hctx, hasid, hkept, hsems, hzero⟩ := openCluster_opens s cl (s.theLaunch seq) (s.launchNode seq node)
    refine ⟨⟨cs, cs', co, put 0 s.turns (s.theLaunch seq).prio ((s.theLaunch seq).queue + 1), ?_⟩, hctx,
      fun _ => ⟨hasid, hkept, hsems, hzero⟩, fun h => absurd h.symm Bool.false_ne_true⟩
    dsimp only
    rw [ho]
    rfl

/-- The record that a BIND writes (R334). -/
theorem newRecord_names (s : State) (l : Launch) (node team : Nat) (mask : BitVec 64) (ks : List Nat) :
    let r := s.newRecord l node team mask ks
    let nd := look {} l.nodes node
    r.info.seq = l.seq ∧ r.info.node = node ∧ r.info.team = team ∧ r.state = 1 ∧ r.op = 1 ∧ r.mask = mask ∧ r.ctxs = ks ∧ r.left = ks ∧
      r.toStart = List.range nd.tasks ∧ r.tasks = nd.tasks ∧ r.ptRoot = (s.root l.asid).getD 0 ∧
      ∀ x, x < 8 → nth 0 r.argWords x = if nd.argsel.testBit x then nth 0 l.carry x else nth 0 nd.args x := by
  refine ⟨rfl, rfl, rfl, rfl, rfl, rfl, rfl, rfl, rfl, rfl, rfl, fun x hx => ?_⟩
  show nth 0 (bindArgs l (look {} l.nodes node)) x = _
  exact nth_map_range 0 _ 8 x hx

end Sys2Proof.Machine
end

section
/-! PROOFS. BIND (spec/14 R329, R334, R335, R337, R338). -/

namespace Sys2Proof.Machine

section
variable {cluster record seq node team : Nat} {mask : BitVec 64} {s : State}

/-- A BIND of a team whose record names it and has tasks to start. -/
def BindRec.more (r : BindRec) (seq node team : Nat) : Prop := r.info.seq = seq ∧ r.info.node = node ∧ r.info.team = team ∧ r.toStart ≠ []

/-- The tasks that an event starts, one after another. -/
def State.startTasks (s : State) (cl record : Nat) (ts : List Nat) : State := ts.foldl (fun s t => s.startTask cl record t) s

theorem exec_bind (start : List Nat) (h : (look {} (s.cluster cluster).slots record).more seq node team) :
    exec (.bind cluster record seq node team (mask, start)) s = .next (s.startTasks cluster record start) := by
  show execBind cluster record seq node team (mask, start) s = _
  unfold execBind
  exact if_pos h

theorem exec_bind_team (start : List Nat) (h : ¬(look {} (s.cluster cluster).slots record).more seq node team)
    (hb : s.mayBind cluster record seq node team mask = true) :
    exec (.bind cluster record seq node team (mask, start)) s =
      .next ((s.bindTeam cluster record seq node team mask).startTasks cluster record start) := by
  show execBind cluster record seq node team (mask, start) s = _
  unfold execBind
  exact (if_neg h).trans (if_pos hb)

theorem exec_bind_idle (start : List Nat) (h : ¬(look {} (s.cluster cluster).slots record).more seq node team)
    (hb : s.mayBind cluster record seq node team mask = false) : Idles (.bind cluster record seq node team (mask, start)) s := by
  show execBind cluster record seq node team (mask, start) s = _
  unfold execBind
  exact (if_neg h).trans (if_neg (by simp [hb]))

/-- The binding of a team: its record stands with every task to start, and its cluster as the group's first team finds it. -/
theorem bindTeam_binds (hl : listed (s.theLaunch seq).nodes node = true) (hseq : (s.theLaunch seq).seq = seq)
    (htasks : 0 < (s.launchNode seq node).tasks) (hfuse : (s.launchNode seq node).fuse = false) :
    let l := s.theLaunch seq
    let nd := s.launchNode seq node
    let ks := maskContexts cluster mask
    let fresh : Prop := s.groupPlaced seq node (nd.groupOf team) = false
    let t := s.bindTeam cluster record seq node team mask
    t.mem = s.mem ∧ (look {} (t.cluster cluster).slots record).more seq node team ∧
    (∀ k, ∃ m, t.ctx k = { s.ctx k with arch := { (s.ctx k).arch with accs := m } }) ∧
    (let r := look {} (t.cluster cluster).slots record
     r.state = 1 ∧ r.op = 1 ∧ r.mask = mask ∧ r.ctxs = ks ∧ r.left = ks ∧ r.toStart = List.range nd.tasks ∧ r.tasks = nd.tasks ∧
       r.ptRoot = (s.root l.asid).getD 0 ∧
       ∀ x, x < 8 → nth 0 r.argWords x = if nd.argsel.testBit x then nth 0 l.carry x else nth 0 nd.args x) ∧
    (t.launchNode seq node).boundTeams = nd.boundTeams ++ [team] ∧ (t.launchNode seq node).ran = true ∧
    (fresh → (t.cluster cluster).lastAsid = some l.asid ∧ (t.cluster cluster).keptFor = none ∧
      (∀ n, n < 248 → look {} (t.cluster cluster).sems n = {}) ∧
      (∀ b, (s.cluster cluster).lastAsid = some b → b ≠ l.asid → (t.cluster cluster).store = {} ∧
        ∀ c, c ∈ clusterCores cluster → (t.core c).spm = {} ∧ (t.core c).acc = [] ∧ (t.core c).wb = {})) ∧
    (¬fresh → (t.cluster cluster).sems = (s.cluster cluster).sems ∧ t.cores = s.cores) := by
  dsimp only
  generalize hfirst : (!s.groupPlaced seq node ((s.launchNode seq node).groupOf team)) = first
  have ht := bindTeam_eq (cl := cluster) (record := record) (mask := mask) hfuse hfirst.symm
  obtain ⟨⟨cs, cs', co, tu, hp⟩, hctx, hyes, hno⟩ := teamPlaced_places s cluster seq node team first
  obtain ⟨hrs, hrn, hrt, hnamed⟩ := newRecord_names (s.teamPlaced cluster seq node team first) (s.theLaunch seq) node team mask
    (maskContexts cluster mask)
  generalize s.teamPlaced cluster seq node team first = u at ht hp hctx hyes hno hrs hrn hrt hnamed
  generalize hrec : u.newRecord (s.theLaunch seq) node team mask (maskContexts cluster mask) = r at ht hrs hrn hrt hnamed
  generalize s.bindTeam cluster record seq node team mask = t at ht
  have hroot : u.root (s.theLaunch seq).asid = s.root (s.theLaunch seq).asid := by rw [hp]; rfl
  rw [hroot] at hnamed
  have hcl : t.cluster cluster = { u.cluster cluster with slots := put {} (u.cluster cluster).slots record r } := by
    rw [ht]
    exact cluster_setCluster_same ..
  have hslot : look {} (t.cluster cluster).slots record = r := by
    rw [hcl]
    exact look_put_same ..
  have hnode : t.launchNode seq node = (s.launchNode seq node).teamBound team first := by
    have h : t.launchNode seq node = (s.updNode seq node (·.teamBound team first)).launchNode seq node := by
      rw [ht]
      unfold State.launchNode
      dsimp only
      rw [show (u.updRecord cluster record fun _ => r).launches = u.launches from rfl, hp]
    rw [h, launchNode_updNode, if_pos ⟨rfl, rfl, hl⟩]
  rw [hslot, hnode, hcl]
  obtain ⟨h1, h2, h3, h4, h5, h6, h7, h8, h9⟩ := hnamed
  refine ⟨by rw [ht, hp]; rfl, ⟨hrs.trans hseq, hrn, hrt, ?_⟩, fun k => ?_, ⟨h1, h2, h3, h4, h5, h6, h7, h8, h9⟩, rfl, rfl, fun hf => ?_,
    fun hf => ?_⟩
  · rw [h6]
    intro he
    have := congrArg List.length he
    simp only [List.length_range, List.length_nil] at this
    exact absurd this (Nat.pos_iff_ne_zero.mp htasks)
  · obtain ⟨m, hm⟩ := hctx k
    exact ⟨m, by rw [ht]; exact hm⟩
  · obtain ⟨ha, hk, hs, hz⟩ := hyes (by rw [← hfirst, hf]; rfl)
    refine ⟨ha, hk, hs, fun b hb hne => ?_⟩
    obtain ⟨hst, hcores⟩ := hz b hb hne
    refine ⟨hst, fun c hc => ?_⟩
    obtain ⟨x, hx⟩ := hcores c hc
    rw [show t.core c = u.core c by rw [ht]; rfl, hx]
    exact ⟨rfl, rfl, rfl⟩
  · obtain ⟨hc, hco⟩ := hno (by rw [← hfirst]; simpa using hf)
    refine ⟨?_, by rw [ht]; exact hco⟩
    show (look {} u.clusters cluster).sems = _
    rw [hc]
    rfl

/-- A task one of whose ranges fails is reported with the range's status. -/
theorem bind_fails {j c : Nat} {u : State} {r : BindRec} (hr : look {} (s.cluster cluster).slots record = r)
    (hm : r.more seq node team) (hj : j ∈ r.toStart)
    (hx : ({ s with nextId := s.nextId + 1 } : State).resolveRanges (coreOf (nth 0 r.ctxs j)) cluster
      ((List.range 16).zip (s.launchNode seq node).ranges) (s.freshArch (s.theLaunch seq) node team j r.argWords) = (u, .error c))
    (hc : c ≠ 0x23) (hl : listed (s.theLaunch seq).nodes node = true) (ht : (team, j) ∈ (s.launchNode seq node).allTasks) :
    ∃ t, exec (.bind cluster record seq node team (mask, [j])) s = .next t ∧
      (look noReport (t.launchNode seq node).reports (64 * team + j)).status = c ∧
      (∀ k, (t.ctx k).bound = (s.ctx k).bound) ∧ j ∉ (look {} (t.cluster cluster).slots record).toStart := by
  obtain ⟨rfl, rfl, rfl, hne⟩ := hm
  have hb := lasting_resolveRanges { s with nextId := s.nextId + 1 } (coreOf (nth 0 r.ctxs j)) cluster
    ((List.range 16).zip (s.launchNode r.info.seq r.info.node).ranges)
    (s.freshArch (s.theLaunch r.info.seq) r.info.node r.info.team j r.argWords)
  rw [hx] at hb
  have hb : lasting u = lasting s := hb
  have hn := besides_of_lasting hb r.info.seq r.info.node
  have hi : (look {} (u.cluster cluster).slots record).info = r.info := by
    rw [← hr]
    exact congrArg (fun x : Lasting => (x.starts cluster record).2) hb
  obtain ⟨hrep, hbound, hstart⟩ := failTask_reports (code := c) hi ((congrArg Aside.has hn).trans hl)
    (by rw [allTasks_eq_besides, hn]; exact ht) hc
  refine ⟨_, exec_bind [j] (by rw [hr]; exact ⟨rfl, rfl, rfl, hne⟩), ?_⟩
  rw [show s.startTasks cluster record [j] = s.startTask cluster record j from rfl, startTask_error hr hj hx]
  refine ⟨hrep, fun k => ?_, hstart⟩
  rw [hbound]
  exact congrArg (fun x : Lasting => (x.ctxs k).1) hb

/-- A task with no range starts fresh (R22, R26, R335). -/
theorem bind_starts {j : Nat} {r : BindRec} (hr : look {} (s.cluster cluster).slots record = r) (hm : r.more seq node team)
    (hj : j ∈ r.toStart) (hranges : ∀ x ∈ (s.launchNode seq node).ranges, (fld x 16 1).testBit 0 = false) :
    ∃ t, exec (.bind cluster record seq node team (mask, [j])) s = .next t ∧ t.mem = s.mem ∧
      (∀ m, m ≠ nth 0 r.ctxs j → t.ctx m = s.ctx m) ∧
      (∀ c, (t.cluster c).store = (s.cluster c).store ∧ (t.cluster c).sems = (s.cluster c).sems) ∧
      look {} (t.cluster cluster).slots record = r.started j ∧ (t.ctx (nth 0 r.ctxs j)).bound = true ∧
      (t.ctx (nth 0 r.ctxs j)).ending = none ∧
      ∃ n, (t.ctx (nth 0 r.ctxs j)).arch = { s.freshArch (s.theLaunch seq) node team j r.argWords with fetches := n } := by
  obtain ⟨rfl, rfl, rfl, hne⟩ := hm
  have hx := resolveRanges_unused { s with nextId := s.nextId + 1 } (coreOf (nth 0 r.ctxs j)) cluster
    (s.freshArch (s.theLaunch r.info.seq) r.info.node r.info.team j r.argWords)
    ((List.range 16).zip (s.launchNode r.info.seq r.info.node).ranges) fun x hx => hranges _ (List.of_mem_zip hx).2
  refine ⟨_, exec_bind [j] (by rw [hr]; exact ⟨rfl, rfl, rfl, hne⟩), ?_⟩
  rw [show s.startTasks cluster record [j] = s.startTask cluster record j from rfl, startTask_ok hr hj hx]
  obtain ⟨h1, h2, h3, h4, h5⟩ := launchTask_starts { s with nextId := s.nextId + 1 } cluster record j (nth 0 r.ctxs j)
    (s.freshArch (s.theLaunch r.info.seq) r.info.node r.info.team j r.argWords)
  exact ⟨h1, h2, h3, h4.trans (congrArg (BindRec.started · j) hr), h5⟩

end

/-- Settles O45: the start of a task by the state that its fresh contexts have (`bind_starts`), the report of one that fails by what a
report leaves (`bind_fails`), the binding of a team by its parts, and a range page by page (`ranges_resolve`). -/
theorem teamsBind : Obligations.TeamsBind := by
  unfold Obligations.TeamsBind
  refine ⟨fun cluster record seq node team mask s => ?_, fun s a core cl j r hj => ?_⟩
  · intro i r more does l nd ks fresh
    refine
      ⟨fun hm hb start => exec_bind_idle start hm hb, fun hm => ⟨fun j hj => ?_, fun j hj => ⟨?_, ?_⟩⟩, fun hm hb hl hseq htasks hfuse =>
      ?_⟩
    · show exec _ _ = _
      rw [exec_bind [j] hm, show s.startTasks cluster record [j] = s.startTask cluster record j from rfl, startTask_done hj]
    · intro u c hx hc hl ht
      obtain ⟨t, ht, hrep, hbound, hstart⟩ := bind_fails (mask := mask) rfl hm hj hx hc hl ht
      exact ⟨t, ht, hrep, hbound _, hstart⟩
    · intro hranges
      obtain ⟨t, ht, hmem, hothers, hclusters, hslot, hbound, hending, n, ha⟩ := bind_starts (mask := mask) rfl hm hj hranges
      refine ⟨t, ht, hmem, hothers, hclusters, hslot, hbound, hending, ?_⟩
      rw [ha]
      obtain ⟨hargs, hzero⟩ := freshArch_args s (s.theLaunch seq) node team j r.argWords
      exact ⟨hargs, hzero, rfl, rfl, rfl, rfl, rfl, rfl, rfl, rfl, rfl, rfl, rfl, rfl, rfl, rfl, rfl⟩
    · obtain ⟨hmem, hmore, hctx, hrec, hteams, hran, hyes, hno⟩ := bindTeam_binds (cluster := cluster) (record := record) (team := team)
        (mask := mask) hl hseq htasks hfuse
      exact
        ⟨_, exec_bind_team [] hm hb, hmem, fun start => (exec_bind_team start hm hb).trans (exec_bind start hmore).symm, hctx, hrec, hteams,
        hran, hyes, hno⟩
  · intro f va len leaf bad
    refine ⟨resolveRange_unused, fun h0 h1 => ?_⟩
    obtain ⟨hend, hpage, hbind⟩ := ranges_resolve s a core cl j r h0 h1
    refine
      ⟨hend, hpage, fun he hn hlen hok => ⟨_, rangeBound s a j r, hbind he hn hlen hok, rfl, ⟨?_, ?_, ?_, ?_, rangeBound_writable s a j r⟩,
      fun n hn => rangeBound_slot_other s a hn r, (rangeBound_keeps s a j r).1,
        (rangeBound_keeps s a j r).2, rangeBound_pins s a j r, rangeBound_holds s a j r, fun x => ⟨fun h => ?_, fun h => ?_⟩⟩⟩
    · rw [rangeBound_slot, extBase_mkExtent (by omega), Nat.mod_eq_of_lt (by omega)]
    · rw [rangeBound_slot, extLen_mkExtent hlen]
    · rw [rangeBound_slot, extValid_mkExtent]
    · rw [rangeBound_slot, named_mkExtent]
    · rw [pinPages_byte, if_pos h]
    · rw [pinPages_byte, if_neg]
      rintro ⟨p, hp, l, hl, hx⟩
      exact h p hp l hl hx

end Sys2Proof.Machine
end

section
/-! PROOFS. A step of the model reads the contexts through their numbers: it does not tell two tables of equal entries apart. -/

namespace Sys2Proof.Machine

/-- The table in the form in which equal contents are equal data. -/
def tidyCtxs (m : FMap Ctx) : FMap Ctx := (m.map Prod.fst).foldl (fun t k => put {} t k (look {} m k)) []

theorem tidyCtxs_canonical (m : FMap Ctx) : canonical {} (tidyCtxs m) = true := by
  suffices ∀ (l : List Nat) (t : FMap Ctx), canonical {} t = true →
      canonical {} (l.foldl (fun t k => put {} t k (look {} m k)) t) = true from this _ [] rfl
  intro l
  induction l with
  | nil => exact fun _ h => h
  | cons k r ih => exact fun t h => ih _ (canonical_put k _ h)

@[simp] theorem look_tidyCtxs (m : FMap Ctx) (n : Nat) : look {} (tidyCtxs m) n = look {} m n := by
  suffices ∀ (l : List Nat) (t : FMap Ctx), look {} (l.foldl (fun t k => put {} t k (look {} m k)) t) n =
      if n ∈ l then look {} m n else look {} t n by
    refine (this _ []).trans ?_
    split
    · rfl
    · next h =>
      refine (look_not_mem _ _ _ fun p hp hn => h ?_).symm
      exact List.mem_map.mpr ⟨p, hp, hn⟩
  intro l
  induction l with
  | nil => exact fun _ => (if_neg (by simp)).symm
  | cons k r ih =>
    intro t
    rw [List.foldl_cons, ih, look_put]
    by_cases hr : n ∈ r
    · rw [if_pos hr, if_pos (List.mem_cons_of_mem _ hr)]
    · by_cases hk : n = k
      · rw [if_neg hr, if_pos hk, if_pos (by simp [hk]), hk]
      · rw [if_neg hr, if_neg hk, if_neg (by simp [hk, hr])]

theorem tidyCtxs_congr {m n : FMap Ctx} (h : ∀ k, look {} m k = look {} n k) : tidyCtxs m = tidyCtxs n :=
  canonical_ext (tidyCtxs_canonical m) (tidyCtxs_canonical n) fun k => by rw [look_tidyCtxs, look_tidyCtxs, h]

/-- The state with its contexts so. -/
def State.tidy (s : State) : State := { s with ctxs := tidyCtxs s.ctxs }

@[simp] theorem tidy_ctx (s : State) (k : Nat) : s.tidy.ctx k = s.ctx k := look_tidyCtxs s.ctxs k
@[simp] theorem tidy_core (s : State) (k : Nat) : s.tidy.core k = s.core k := rfl
@[simp] theorem tidy_cluster (s : State) (k : Nat) : s.tidy.cluster k = s.cluster k := rfl

@[simp] theorem tidy_setCtx (s : State) (k : Nat) (c : Ctx) : s.tidy.setCtx k c = (s.setCtx k c).tidy := by
  have h : put {} (tidyCtxs s.ctxs) k c = tidyCtxs (put {} s.ctxs k c) :=
    canonical_ext (canonical_put k c (tidyCtxs_canonical s.ctxs)) (tidyCtxs_canonical _) fun n => by
      rw [look_tidyCtxs, look_put, look_put, look_tidyCtxs]
  show { s with ctxs := put {} (tidyCtxs s.ctxs) k c } = { s with ctxs := tidyCtxs (put {} s.ctxs k c) }
  rw [h]

theorem tidy_congr {s t : State} (h : t = { s with ctxs := t.ctxs }) (hc : ∀ k, t.ctx k = s.ctx k) : t.tidy = s.tidy := by
  have hk : tidyCtxs t.ctxs = tidyCtxs s.ctxs := tidyCtxs_congr hc
  unfold State.tidy
  rw [hk, h]

@[simp] theorem tidy_setCore (s : State) (k : Nat) (c : Core) : s.tidy.setCore k c = (s.setCore k c).tidy := rfl
@[simp] theorem tidy_setCluster (s : State) (k : Nat) (c : Cluster) : s.tidy.setCluster k c = (s.setCluster k c).tidy := rfl

@[simp] theorem tidy_ctxs (s : State) : s.tidy.ctxs = tidyCtxs s.ctxs := rfl
@[simp] theorem tidy_cores (s : State) : s.tidy.cores = s.cores := rfl
@[simp] theorem tidy_clusters (s : State) : s.tidy.clusters = s.clusters := rfl
@[simp] theorem tidy_mem (s : State) : s.tidy.mem = s.mem := rfl
@[simp] theorem tidy_updates (s : State) : s.tidy.updates = s.updates := rfl
@[simp] theorem tidy_hidden (s : State) : s.tidy.hidden = s.hidden := rfl
@[simp] theorem tidy_spoiled (s : State) : s.tidy.spoiled = s.spoiled := rfl
@[simp] theorem tidy_openSeqs (s : State) : s.tidy.openSeqs = s.openSeqs := rfl
@[simp] theorem tidy_launches (s : State) : s.tidy.launches = s.launches := rfl
@[simp] theorem tidy_queues (s : State) : s.tidy.queues = s.queues := rfl
@[simp] theorem tidy_nextSeq (s : State) : s.tidy.nextSeq = s.nextSeq := rfl
@[simp] theorem tidy_turns (s : State) : s.tidy.turns = s.turns := rfl
@[simp] theorem tidy_period (s : State) : s.tidy.period = s.period := rfl
@[simp] theorem tidy_images (s : State) : s.tidy.images = s.images := rfl
@[simp] theorem tidy_roots (s : State) : s.tidy.roots = s.roots := rfl
@[simp] theorem tidy_region (s : State) : s.tidy.region = s.region := rfl
@[simp] theorem tidy_libver (s : State) : s.tidy.libver = s.libver := rfl
@[simp] theorem tidy_names (s : State) : s.tidy.names = s.names := rfl
@[simp] theorem tidy_foreign (s : State) : s.tidy.foreign = s.foreign := rfl
@[simp] theorem tidy_nameCtr (s : State) : s.tidy.nameCtr = s.nameCtr := rfl
@[simp] theorem tidy_nameHigh (s : State) : s.tidy.nameHigh = s.nameHigh := rfl
@[simp] theorem tidy_errors (s : State) : s.tidy.errors = s.errors := rfl
@[simp] theorem tidy_part (s : State) : s.tidy.part = s.part := rfl
@[simp] theorem tidy_boss (s : State) : s.tidy.boss = s.boss := rfl
@[simp] theorem tidy_links (s : State) : s.tidy.links = s.links := rfl
@[simp] theorem tidy_peers (s : State) : s.tidy.peers = s.peers := rfl
@[simp] theorem tidy_out (s : State) : s.tidy.out = s.out := rfl
@[simp] theorem tidy_cur (s : State) : s.tidy.cur = s.cur := rfl
@[simp] theorem tidy_script (s : State) : s.tidy.script = s.script := rfl
@[simp] theorem tidy_steps (s : State) : s.tidy.steps = s.steps := rfl
@[simp] theorem tidy_draws (s : State) : s.tidy.draws = s.draws := rfl
@[simp] theorem tidy_time (s : State) : s.tidy.time = s.time := rfl
@[simp] theorem tidy_timebase (s : State) : s.tidy.timebase = s.timebase := rfl
@[simp] theorem tidy_nextId (s : State) : s.tidy.nextId = s.nextId := rfl

@[simp] theorem tidy_mk {ctxs : FMap Ctx} {cores : FMap Core} {clusters : FMap Cluster} {mem : Mem} {updates hidden spoiled openSeqs
    launches queues nextSeq turns period images roots region libver names foreign nameCtr nameHigh errors part boss links peers out cur
    script steps draws time timebase nextId} : State.mk (tidyCtxs ctxs) cores clusters mem updates hidden spoiled openSeqs launches queues
      nextSeq turns period images roots region libver names foreign nameCtr nameHigh errors part boss links peers out cur
      script steps draws time timebase nextId = (State.mk ctxs cores clusters mem updates hidden spoiled openSeqs launches queues
      nextSeq turns period images roots region libver names foreign nameCtr nameHigh errors part boss links peers out cur
      script steps draws time timebase nextId).tidy := rfl

@[simp] theorem tidy_ite {c : Prop} {_ : Decidable c} (a b : State) : (if c then a.tidy else b.tidy) = (if c then a else b).tidy :=
  (apply_ite State.tidy c a b).symm

@[simp] theorem tidy_foldl {β : Type} {g : State → β → State} (hg : ∀ t b, g t.tidy b = (g t b).tidy) (l : List β) (s : State) :
    l.foldl g s.tidy = (l.foldl g s).tidy := by
  induction l generalizing s with
  | nil => rfl
  | cons b r ih => rw [List.foldl_cons, List.foldl_cons, hg, ih]

@[simp] theorem tidy_root (s : State) (asid : Nat) : s.tidy.root asid = s.root asid := by
  rfl

@[simp] theorem tidy_translate (s : State) (asid va : Nat) : s.tidy.translate asid va = s.translate asid va := by
  rfl

@[simp] theorem tidy_me (s : State) : s.tidy.me = s.me := by
  unfold State.me
  simp

@[simp] theorem tidy_arch (s : State) : s.tidy.arch = s.arch := by
  unfold State.arch
  simp

@[simp] theorem tidy_myCore (s : State) : s.tidy.myCore = s.myCore := by
  rfl

@[simp] theorem tidy_landOne (s : State) (k : Nat) (dst : FlightDst) : s.tidy.landOne k dst = (s.landOne k dst).tidy := by
  unfold State.landOne
  simp
  repeat' split
  all_goals simp_all

@[simp] theorem tidy_landList (s : State) (k : Nat) (l : List Flight) : s.tidy.landList k l = (s.landList k l).tidy := by
  induction l generalizing s with
  | nil => rfl
  | cons f r ih =>
    unfold State.landList
    rw [← ih]
    split <;> simp

@[simp] theorem tidy_landDue (s : State) (k now fuel : Nat) : s.tidy.landDue k now fuel = (s.landDue k now fuel).tidy := by
  induction fuel generalizing s with
  | zero => rfl
  | succ n ih =>
    unfold State.landDue
    rw [tidy_ctx]
    dsimp only
    split
    · rfl
    · rw [← ih, ← tidy_landList, ← tidy_setCtx]

@[simp] theorem tidy_landBy (s : State) (k now : Nat) : s.tidy.landBy k now = (s.landBy k now).tidy := by
  unfold State.landBy
  simp

@[simp] theorem tidy_launchNode (s : State) (seq node : Nat) : s.tidy.launchNode seq node = s.launchNode seq node := by
  rfl

@[simp] theorem tidy_updLaunch (s : State) (seq : Nat) (f : Launch → Launch) : s.tidy.updLaunch seq f = (s.updLaunch seq f).tidy := by
  rfl

@[simp] theorem tidy_unit (s : State) (pu : Nat) : s.tidy.unit pu = s.unit pu := by
  rfl

@[simp] theorem tidy_setUnit (s : State) (pu : Nat) (x : Word × Bool) : s.tidy.setUnit pu x = (s.setUnit pu x).tidy := by
  rfl

@[simp] theorem tidy_findCmd (s : State) (id : Nat) : s.tidy.findCmd id = s.findCmd id := by
  rfl

@[simp] theorem tidy_scopeOf (s : State) (c : Cmd) : s.tidy.scopeOf c = s.scopeOf c := by
  rfl

@[simp] theorem tidy_agentCore (s : State) (a : Nat × Nat) : s.tidy.agentCore a = s.agentCore a := by
  rfl

@[simp] theorem tidy_mustSee (s : State) (a : Nat × Nat) (h : Hidden) : s.tidy.mustSee a h = s.mustSee a h := by
  rfl

@[simp] theorem tidy_missable (s : State) (a : Nat × Nat) (pu : Nat) : s.tidy.missable a pu = s.missable a pu := by
  rfl

@[simp] theorem tidy_sees (s : State) (a : Nat × Nat) (pu : Nat) : s.tidy.sees a pu = (s.sees a pu).tidy := by
  rfl

@[simp] theorem tidy_glance (s : State) (a : Nat × Nat) (old : Bool) (pu : Nat) :
    s.tidy.glance a old pu = ((s.glance a old pu).1.tidy, (s.glance a old pu).2) := by
  unfold State.glance
  simp
  repeat' split
  all_goals simp

@[simp] theorem tidy_hides (s : State) (a : Nat × Nat) (pu : Nat) : s.tidy.hides a pu = s.hides a pu := by
  rfl

@[simp] theorem tidy_hiding (t s : State) (a : Nat × Nat) (pus : List Nat) : t.tidy.hiding s.tidy a pus = (t.hiding s a pus).tidy := by
  have h : s.tidy.hides a = s.hides a := funext fun pu => tidy_hides s a pu
  unfold State.hiding
  rw [h]
  cases pus.flatMap (s.hides a) <;> rfl

@[simp] theorem tidy_fusedAt (s : State) (core : Nat) : s.tidy.fusedAt core = s.fusedAt core := by
  unfold State.fusedAt
  simp

@[simp] theorem tidy_l1Home (s : State) (core pu : Nat) : s.tidy.l1Home core pu = s.l1Home core pu := by
  unfold State.l1Home
  simp

@[simp] theorem tidy_setL1 (s : State) (core pu : Nat) (u : L1Unit) : s.tidy.setL1 core pu u = (s.setL1 core pu u).tidy := by
  rfl

@[simp] theorem tidy_l1Clean (s : State) (core pu : Nat) (discard : Bool) :
    s.tidy.l1Clean core pu discard = (s.l1Clean core pu discard).tidy := by
  unfold State.l1Clean
  simp

@[simp] theorem tidy_dropUnit (s : State) (core pu : Nat) : s.tidy.dropUnit core pu = (s.dropUnit core pu).tidy := by
  unfold State.dropUnit
  simp

@[simp] theorem tidy_dropLine (s : State) (core line : Nat) : s.tidy.dropLine core line = (s.dropLine core line).tidy := by
  unfold State.dropLine
  simp

@[simp] theorem tidy_spoilt (s : State) (core pu : Nat) : s.tidy.spoilt core pu = s.spoilt core pu := by
  unfold State.spoilt
  simp

@[simp] theorem tidy_fillLine (s : State) (core line : Nat) : s.tidy.fillLine core line = (s.fillLine core line).tidy := by
  unfold State.fillLine
  simp

@[simp] theorem tidy_fillOld (s : State) (k c : Nat) (old : Bool) (pu : Nat) : s.tidy.fillOld k c old pu = (s.fillOld k c old pu).tidy := by
  unfold State.fillOld
  simp
  repeat' split
  all_goals simp

@[simp] theorem tidy_readUnit (s : State) (k : Nat) (old : Bool) (r : URef) :
    s.tidy.readUnit k old r = ((s.readUnit k old r).1.tidy, (s.readUnit k old r).2) := by
  unfold State.readUnit
  split <;> simp

@[simp] theorem tidy_writeUnit (s : State) (k : Nat) (r : URef) (mask : Nat) (data : Word) (psn : Bool) :
    s.tidy.writeUnit k r mask data psn = (s.writeUnit k r mask data psn).tidy := by
  unfold State.writeUnit
  simp

@[simp] theorem tidy_reserved (s : State) (u : Update) : s.tidy.reserved u = s.reserved u := by
  rfl

@[simp] theorem tidy_isHead (s : State) (u : Update) : s.tidy.isHead u = s.isHead u := by
  rfl

@[simp] theorem tidy_heldOut (s : State) (u : Update) : s.tidy.heldOut u = s.heldOut u := by
  rfl

@[simp] theorem tidy_replayReady (s : State) (u : Update) : s.tidy.replayReady u = s.replayReady u := by
  rfl

@[simp] theorem tidy_replayDone (s : State) (u : Update) : s.tidy.replayDone u = (s.replayDone u).tidy := by
  unfold State.replayDone
  simp

@[simp] theorem tidy_imagePages (s : State) : s.tidy.imagePages = s.imagePages := by
  rfl

@[simp] theorem tidy_writeWords (s : State) (asid va : Nat) (ws : List Word) :
    s.tidy.writeWords asid va ws = (s.writeWords asid va ws).tidy := by
  refine tidy_foldl (fun t p => ?_) _ s
  simp only [tidy_translate]
  split
  · simp
  · rfl

@[simp] theorem tidy_logUpdate (s : State) (u : Update) : s.tidy.logUpdate u = (s.logUpdate u).tidy := by
  unfold State.logUpdate
  simp

@[simp] theorem tidy_applyAt (s : State) (pu off : Nat) (op : Rmw) (fmt val cmp : Nat) (psn : Bool) :
    s.tidy.applyAt pu off op fmt val cmp psn = ((s.applyAt pu off op fmt val cmp psn).1.tidy, (s.applyAt pu off op fmt val cmp psn).2) := by
  unfold State.applyAt
  simp
  repeat' split
  all_goals simp_all

@[simp] theorem tidy_applyAcross (s : State) (pu hi off : Nat) (op : Rmw) (fmt val cmp : Nat) (psn : Bool) :
    s.tidy.applyAcross pu hi off op fmt val cmp psn =
    ((s.applyAcross pu hi off op fmt val cmp psn).1.tidy, (s.applyAcross pu hi off op fmt val cmp psn).2) := by
  unfold State.applyAcross
  simp
  repeat' split
  all_goals simp

@[simp] theorem tidy_applyRmw (s : State) (u : Update) : s.tidy.applyRmw u = ((s.applyRmw u).1.tidy, (s.applyRmw u).2) := by
  unfold State.applyRmw
  split <;> simp

@[simp] theorem tidy_openSeq (s : State) (u : Update) : s.tidy.openSeq u = (s.openSeq u).tidy := by
  unfold State.openSeq
  simp

@[simp] theorem tidy_tellCmd (s : State) (cmd : Option (Nat × Nat)) (psn : Bool) : s.tidy.tellCmd cmd psn = (s.tellCmd cmd psn).tidy := by
  unfold State.tellCmd
  split <;> simp

@[simp] theorem tidy_applyUpdate (s : State) (u : Update) : s.tidy.applyUpdate u = (s.applyUpdate u).tidy := by
  unfold State.applyUpdate
  simp
  repeat' split
  all_goals simp

@[simp] theorem tidy_findUpdate (s : State) (id : Nat) : s.tidy.findUpdate id = s.findUpdate id := by
  rfl

@[simp] theorem tidy_sliceWaiting (s : State) (slice : Nat) : s.tidy.sliceWaiting slice = s.sliceWaiting slice := by
  rfl

@[simp] theorem tidy_recordOf (s : State) (u : Update) : s.tidy.recordOf u = s.recordOf u := by
  rfl

@[simp] theorem tidy_bufferFull (s : State) (u : Update) : s.tidy.bufferFull u = s.bufferFull u := by
  rfl

@[simp] theorem tidy_setStatus (s : State) (id : Nat) (st : UpdStatus) : s.tidy.setStatus id st = (s.setStatus id st).tidy := by
  rfl

@[simp] theorem tidy_holdUpdate (s : State) (u : Update) : s.tidy.holdUpdate u = (s.holdUpdate u).tidy := by
  rfl

@[simp] theorem tidy_applyAll (s : State) (ids : List Nat) : s.tidy.applyAll ids = (s.applyAll ids).tidy := by
  induction ids generalizing s with
  | nil => rfl
  | cons id r ih =>
    unfold State.applyAll
    rw [← ih, tidy_findUpdate]
    split <;> simp

@[simp] theorem tidy_mergeLine (s : State) (by_ : Option (Nat × Nat)) (core line : Nat) (first : List Nat) :
    s.tidy.mergeLine by_ core line first = (s.mergeLine by_ core line first).tidy := by
  unfold State.mergeLine
  simp
  rfl

@[simp] theorem tidy_touchLine (s : State) (by_ : Option (Nat × Nat)) (line : Nat) :
    s.tidy.touchLine by_ line = (s.touchLine by_ line).tidy := by
  refine tidy_foldl (fun t c => ?_) _ s
  simp only [tidy_core, tidy_mergeLine, tidy_ite]

@[simp] theorem tidy_touchLines (s : State) (by_ : Option (Nat × Nat)) (ls : List Nat) :
    s.tidy.touchLines by_ ls = (s.touchLines by_ ls).tidy := by
  induction ls generalizing s with
  | nil => rfl
  | cons l r ih =>
    unfold State.touchLines
    rw [tidy_touchLine, ih]

@[simp] theorem tidy_merging (s : State) (line : Nat) : s.tidy.merging line = s.merging line := by
  rfl

@[simp] theorem tidy_barred (s : State) (by_ : Nat × Nat) (line : Nat) : s.tidy.barred by_ line = s.barred by_ line := by
  rfl

@[simp] theorem tidy_mergeOwn (s : State) (k : Nat) : s.tidy.mergeOwn k = (s.mergeOwn k).tidy := by
  unfold State.mergeOwn
  simp

@[simp] theorem tidy_lateOver (s : State) (l : Late) : s.tidy.lateOver l = s.lateOver l := by
  rfl

@[simp] theorem tidy_afterOwn (s : State) (u : Update) : s.tidy.afterOwn u = s.afterOwn u := by
  unfold State.afterOwn
  simp

@[simp] theorem tidy_mayApply (s : State) (u : Update) : s.tidy.mayApply u = s.mayApply u := by
  unfold State.mayApply
  simp

@[simp] theorem tidy_applyFresh (s : State) (u : Update) : s.tidy.applyFresh u = (s.applyFresh u).tidy := by
  unfold State.applyFresh
  simp

@[simp] theorem tidy_applyOwn (s : State) (k upto : Nat) (pus : List Nat) : s.tidy.applyOwn k upto pus = (s.applyOwn k upto pus).tidy := by
  refine tidy_foldl (fun t id => ?_) _ s
  rw [tidy_findUpdate]
  split
  · simp only [tidy_mayApply, tidy_applyFresh, tidy_ite]
  · rfl

@[simp] theorem tidy_ownLeft (s : State) (k upto : Nat) (pus : List Nat) : s.tidy.ownLeft k upto pus = s.ownLeft k upto pus := by
  rfl

@[simp] theorem tidy_ready (s : State) (k upto : Nat) (us : List URef) :
    s.tidy.ready k upto us = ((s.ready k upto us).1.tidy, (s.ready k upto us).2) := by
  unfold State.ready
  simp
  rfl

@[simp] theorem tidy_readUnits (s : State) (k : Nat) (old : Bool) (us : List URef) :
    s.tidy.readUnits k old us = ((s.readUnits k old us).1.tidy, (s.readUnits k old us).2) := by
  induction us generalizing s with
  | nil => rfl
  | cons u r ih =>
    unfold State.readUnits
    simp only [tidy_readUnit, ih]

@[simp] theorem tidy_writeUnits (s : State) (k va : Nat) (bs : List Byte) (psn : Bool) (us : List URef) :
    s.tidy.writeUnits k va bs psn us = (s.writeUnits k va bs psn us).tidy := by
  induction us generalizing s with
  | nil => rfl
  | cons u r ih =>
    unfold State.writeUnits
    simp only [tidy_writeUnit, ih]

@[simp] theorem tidy_bypass (s : State) (k : Nat) (us : List URef) : s.tidy.bypass k us = (s.bypass k us).tidy := by
  unfold State.bypass
  simp

@[simp] theorem tidy_directStore (s : State) (k va : Nat) (us : List URef) (bs : List Byte) (psn : Bool) :
    s.tidy.directStore k va us bs psn = (s.directStore k va us bs psn).tidy := by
  unfold State.directStore
  simp

@[simp] theorem tidy_scatterAll (s : State) (k : Nat) (psn : Bool) (els : List (Nat × List URef × List Byte)) :
    s.tidy.scatterAll k psn els = (s.scatterAll k psn els).tidy := by
  unfold State.scatterAll
  simp

@[simp] theorem tidy_ncasAt (s : State) (pu : Nat) (cmpLo cmpHi newLo newHi : Word) (psn : Bool) :
    s.tidy.ncasAt pu cmpLo cmpHi newLo newHi psn =
    ((s.ncasAt pu cmpLo cmpHi newLo newHi psn).1.tidy, (s.ncasAt pu cmpLo cmpHi newLo newHi psn).2) := by
  unfold State.ncasAt
  simp
  repeat' split
  all_goals simp

@[simp] theorem tidy_countPoison (s : State) (k : Nat) (b : Bool) : s.tidy.countPoison k b = (s.countPoison k b).tidy := by
  unfold State.countPoison
  simp

@[simp] theorem tidy_loadNow (s : State) (k : Nat) (old : Bool) (us : List URef) (va n : Nat) (form : LoadForm) (spec : Bool) :
    s.tidy.loadNow k old us va n form spec = ((s.loadNow k old us va n form spec).1.tidy, (s.loadNow k old us va n form spec).2) := by
  unfold State.loadNow
  simp

@[simp] theorem tidy_fillSb (s : State) (k id : Nat) (p : Payload) : s.tidy.fillSb k id p = (s.fillSb k id p).tidy := by
  unfold State.fillSb
  simp

@[simp] theorem tidy_perform (s : State) (k : Nat) (l : Late) : s.tidy.perform k l = (s.perform k l).tidy := by
  unfold State.perform
  simp
  repeat' split
  all_goals simp

@[simp] theorem tidy_popLate (s : State) (k : Nat) : s.tidy.popLate k = (s.popLate k).tidy := by
  unfold State.popLate
  simp

@[simp] theorem tidy_lateStep (s : State) (k : Nat) : s.tidy.lateStep k = ((s.lateStep k).1.tidy, (s.lateStep k).2) := by
  unfold State.lateStep
  simp
  repeat' split
  all_goals simp

@[simp] theorem tidy_lateSteps (s : State) (k n : Nat) : s.tidy.lateSteps k n = (s.lateSteps k n).tidy := by
  induction n generalizing s with
  | zero => rfl
  | succ n ih =>
    unfold State.lateSteps
    simp only [tidy_lateStep, ih, tidy_ite]

@[simp] theorem tidy_inOrder (s : State) (k : Nat) : s.tidy.inOrder k = (s.inOrder k).tidy := by
  unfold State.inOrder
  simp

@[simp] theorem tidy_owesLate (s : State) (k : Nat) : s.tidy.owesLate k = s.owesLate k := by
  unfold State.owesLate
  simp

@[simp] theorem tidy_rdS (s : State) (r : BitVec 6) : s.tidy.rdS r = s.rdS r := by
  unfold State.rdS
  simp

@[simp] theorem tidy_rdV (s : State) (r : BitVec 6) : s.tidy.rdV r = s.rdV r := by
  unfold State.rdV
  simp

@[simp] theorem tidy_checkExt (s : State) (core : Nat) (ps : List Page) (e : BitVec 128) (off : ℤ) (n align : Nat) (write : Bool) :
    s.tidy.checkExt core ps e off n align write = s.checkExt core ps e off n align write := by
  rfl

@[simp] theorem tidy_lmExt (s : State) (f : LM) : s.tidy.lmExt f = s.lmExt f := by
  unfold State.lmExt
  simp

@[simp] theorem tidy_lmOff (s : State) (f : LM) : s.tidy.lmOff f = s.lmOff f := by
  unfold State.lmOff
  simp

@[simp] theorem tidy_lmVa (s : State) (f : LM) : s.tidy.lmVa f = s.lmVa f := by
  unfold State.lmVa
  simp

@[simp] theorem tidy_lmPages (s : State) (f : LM) : s.tidy.lmPages f = s.lmPages f := by
  unfold State.lmPages
  simp

@[simp] theorem tidy_tensorAt (s : State) (bs : List Byte) (psn write : Bool) (v : VReg) :
    s.tidy.tensorAt bs psn write v = s.tensorAt bs psn write v := by
  unfold State.tensorAt
  simp

@[simp] theorem tidy_tensorVa (s : State) (t : TensorAt) : s.tidy.tensorVa t = s.tensorVa t := by
  unfold State.tensorVa
  simp

@[simp] theorem tidy_lxExt (s : State) (f : LX) : s.tidy.lxExt f = s.lxExt f := by
  unfold State.lxExt
  simp

@[simp] theorem tidy_lxOff (s : State) (f : LX) : s.tidy.lxOff f = s.lxOff f := by
  unfold State.lxOff
  simp

@[simp] theorem tidy_lxVa (s : State) (f : LX) : s.tidy.lxVa f = s.lxVa f := by
  unfold State.lxVa
  simp

@[simp] theorem tidy_lxPages (s : State) (f : LX) : s.tidy.lxPages f = s.lxPages f := by
  unfold State.lxPages
  simp

@[simp] theorem tidy_asIssued (s : State) (k : Nat) : s.tidy.asIssued k = (s.asIssued k).tidy := by
  unfold State.asIssued
  simp

@[simp] theorem tidy_needs (s : State) (i : Instr) : s.tidy.needs i = s.needs i := by
  unfold State.needs
  simp

@[simp] theorem tidy_lSlotUnits (s : State) (i : Instr) : s.tidy.lSlotUnits i = s.lSlotUnits i := by
  unfold State.lSlotUnits
  simp

@[simp] theorem tidy_place (s : State) (k : Nat) (ops : List Instr) : s.tidy.place k ops = ((s.place k ops).1.tidy, (s.place k ops).2) := by
  have hneeds : (s.tidy.asIssued k).needs = (s.asIssued k).needs := funext fun i => by rw [tidy_asIssued, tidy_needs]
  have hslots : (s.tidy.asIssued k).lSlotUnits = (s.asIssued k).lSlotUnits := funext fun i => by rw [tidy_asIssued, tidy_lSlotUnits]
  unfold State.place
  dsimp only
  rw [hneeds, hslots]
  simp only [tidy_inOrder, tidy_mergeOwn, tidy_ite, tidy_owesLate, tidy_ready, tidy_nextId]
  repeat' split
  all_goals rfl

end Sys2Proof.Machine
end

section
/-! PROOFS. What a context tries between bundles (spec/01 R12, R31, R86; spec/09 R253; spec/14 R351). -/

namespace Sys2Proof.Machine

/-! ### What waits for no access -/

/-- Which slots need a point in T before their bundle issues is said by the slot alone. -/
theorem needs_none_congr (s t : State) (i : Instr) (h : s.needs i = none) : t.needs i = none := by
  unfold State.needs at h ⊢
  split at h <;> simp_all

theorem mergeOwn_plain {s : State} (h : s.plain) (k : Nat) : s.mergeOwn k = s := by
  unfold State.mergeOwn
  dsimp only
  rw [h]
  rfl

theorem place_quiet {s : State} {k : Nat} {ops : List Instr} (hp : s.plain)
    (h : s.quiet k ∨ ∀ i ∈ ops, (s.asIssued k).needs i = none) : s.place k ops = (s, true) := by
  unfold State.place
  dsimp only
  by_cases hu : (ops.filterMap (s.asIssued k).needs).isEmpty = true
  · rw [if_pos hu]
  · rw [if_neg hu]
    obtain hq | hn := h
    · rw [inOrder_none _ _ hq.2.2, mergeOwn_plain hp, ite_self, owesLate_none _ _ hq.2.2, if_neg Bool.false_ne_true, ready_quiet _ _ _ hq]
    · exact absurd (by rw [List.filterMap_eq_nil_iff.mpr hn]; rfl) hu

/-- Setting a context anew to what it is changes no answer. -/
theorem place_answer_congr {s t : State} (h : t = { s with ctxs := t.ctxs }) (hc : ∀ k, t.ctx k = s.ctx k) (k : Nat) (ops : List Instr) :
    (t.place k ops).2 = (s.place k ops).2 := by
  have ht := tidy_place t k ops
  rw [tidy_congr h hc, tidy_place] at ht
  exact (congrArg Prod.snd ht).symm

/-! ### The wait of a bundle (R253) -/

/-- A context with the note of its wait. -/
def Ctx.noting (c : Ctx) (met : Bool) : Ctx := { c with waitMet := met }

/-- The state with the note of a context's wait. -/
def State.noteWait (s : State) (k : Nat) (met : Bool) : State := s.setCtx k ((s.ctx k).noting met)

@[simp] theorem noteWait_ctx (s : State) (k : Nat) (met : Bool) : (s.noteWait k met).ctx k = (s.ctx k).noting met := ctx_setCtx_same ..

@[simp] theorem noteWait_other (s : State) {k j : Nat} (h : j ≠ k) (met : Bool) :
    (s.noteWait k met).ctx j = s.ctx j := ctx_setCtx_other _ _ h

/-- Whether the wait of the bundle `ws` is over as the context is tried. -/
def State.waitOver (s : State) (k : Nat) (ws : List Word) : Bool :=
  (s.ctx k).waitMet || ((s.ctx k).arch.reenter.isNone && (yWen (yOf ws) && !((s.ctx k).signals.any fun p => p.sem == yWsem (yOf ws)) &&
    decide (yWthr (yOf ws) ≤ (s.sem (clusterOf k) (s.ctx k).arch.info (yWsem (yOf ws))).value)))

theorem noteWait_same (s : State) (k : Nat) : s.noteWait k (s.ctx k).waitMet = s.setCtx k (s.ctx k) := rfl

theorem setCtx_setCtx (s : State) (k : Nat) (a b : Ctx) : (s.setCtx k a).setCtx k b = s.setCtx k b := by
  unfold State.setCtx
  rw [put_put_same]

theorem resident_of_bundle {c : Ctx} {p : Word} {ws : List Word} (h : c.bundleAt p = some ws) :
    c.curHalf.residentIn (ptrSeg p) = true ∨ c.idleHalf.residentIn (ptrSeg p) = true := by
  have found (x : Half) (b : List Word) (hx : (match x with
      | .resident seg _ _ bs => if seg = ptrSeg p then bs[ptrBidx p]? else none
      | _ => none) = some b) : x.residentIn (ptrSeg p) = true := by
    cases x with
    | resident seg l nx bs =>
      by_cases hs : seg = ptrSeg p
      · simp [Half.residentIn, hs]
      · simp [hs] at hx
    | empty => cases hx
    | expanding seg t => cases hx
  unfold Ctx.bundleAt at h
  dsimp only at h
  split at h
  · next b hb => exact .inl (found _ b hb)
  · exact .inr (found _ ws h)

theorem request_resident {c : Ctx} {seg : Nat} (h : c.curHalf.residentIn seg = true ∨ c.idleHalf.residentIn seg = true) :
    c.request seg = c := by
  unfold Ctx.request
  by_cases hc : c.curHalf.residentIn seg = true
  · rw [if_pos hc]
  · rw [if_neg hc]
    have hi := h.resolve_left hc
    cases hx : c.idleHalf with
    | resident a l nx bs =>
      rw [hx] at hi
      rw [if_pos (by simpa [Half.residentIn, Half.seg] using hi)]
    | empty => rw [hx] at hi; cases hi
    | expanding a t => rw [hx] at hi; cases hi

/-- Where the pc's segment is there, the pass between bundles only tests the wait. -/
theorem settle_here {s : State} {k : Nat} (hb : s.between k = true) (hw : (s.ctx k).window = none)
    (h : (s.ctx k).curHalf.residentIn (ptrSeg (s.ctx k).arch.pos) = true ∨ (s.ctx k).idleHalf.residentIn (ptrSeg (s.ctx k).arch.pos) =
      true) :
    s.settle k = (s.setCtx k (s.ctx k)).testWait k := by
  unfold State.settle
  rw [if_pos hb]
  dsimp only
  rw [request_resident h, closeWindow_none hw, if_pos (by unfold Ctx.fetchedDue; simpa using h)]

theorem between_noteWait (s : State) (k : Nat) (met : Bool) : (s.noteWait k met).between k = s.between k := by
  unfold State.between
  rw [noteWait_ctx]
  rfl

/-- Where a bundle stands at the pc, the pass between bundles tests its wait. -/
theorem settle_bundle {s : State} {k : Nat} {ws : List Word} (hb : s.between k = true) (hw : (s.ctx k).window = none)
    (hws : (s.ctx k).bundleAt (s.ctx k).arch.pos = some ws) : s.settle k = s.noteWait k (s.waitOver k ws) := by
  rw [settle_here hb hw (resident_of_bundle hws), ← noteWait_same]
  have hc : (s.noteWait k (s.ctx k).waitMet).ctx k = s.ctx k := noteWait_ctx ..
  have hd : (s.noteWait k (s.ctx k).waitMet).due k = (s.ctx k).arch.reenter.isNone := by
    unfold State.due
    rw [between_noteWait, hb, hc, Bool.true_and]
  unfold State.waitOver
  cases hm : (s.ctx k).waitMet with
  | true =>
    rw [hm] at hc
    rw [testWait_idle (.inr (.inl (by rw [hc, hm])))]
    rfl
  | false =>
    rw [hm] at hc hd
    cases hr : (s.ctx k).arch.reenter.isNone with
    | false =>
      rw [testWait_idle (.inl (hd.trans hr))]
      rfl
    | true =>
      rw [testWait_due (ws := ws) (by rw [hc]; exact hws) (hd.trans hr) (by rw [hc]; exact hm), hc,
        show (s.noteWait k false).sem = s.sem from rfl]
      simp only [Bool.false_or, Bool.true_and]
      split
      · next h =>
        rw [h]
        exact setCtx_setCtx ..
      · next h => rw [Bool.eq_false_iff.mpr h]

end Sys2Proof.Machine
end

section
/-! PROOFS. The attempt of a bundle (spec/09 R253, spec/14 R351). -/

namespace Sys2Proof.Machine

/-- What keeps a context from trying its bundle. -/
def State.triesNothing (s : State) (k : Nat) : Prop :=
  s.cur.open_ = true ∨ (s.ctx k).bound = false ∨ (s.ctx k).ending ≠ none ∨ (s.ctx k).pause ≠ 0 ∨ s.stopped (coreOf k) = true ∨
    ((s.ctx k).aside = none ∧ s.turn k = false)

section
variable {s : State} {k : Nat} {gaps : List Nat}

theorem attempt_held (h : s.triesNothing k) : s.attempt k gaps = s := by
  unfold State.attempt
  dsimp only
  split
  · rfl
  · next hg =>
    simp only [Bool.or_eq_true, Bool.not_eq_true', bne_iff_ne, ne_eq, not_or, Bool.not_eq_true, Bool.not_eq_false, not_not,
      Option.isSome_eq_false_iff, Option.isNone_iff_eq_none] at hg
    obtain ⟨⟨⟨⟨ho, hb⟩, he⟩, hp⟩, hst⟩ := hg
    obtain h | h | h | h | h | ⟨ha, ht⟩ := h
    · rw [ho] at h; cases h
    · rw [hb] at h; cases h
    · exact absurd he h
    · exact absurd hp h
    · rw [hst] at h; cases h
    · rw [ha]
      dsimp only
      rw [ht]
      rfl

/-- A context that nothing holds back is between bundles, or has one set aside. -/
theorem free_of_not_held (h : ¬s.triesNothing k) : s.cur.open_ = false ∧ (s.ctx k).bound = true ∧ (s.ctx k).ending = none ∧
    (s.ctx k).pause = 0 ∧ s.stopped (coreOf k) = false ∧ ((s.ctx k).aside = none → s.turn k = true) := by
  unfold State.triesNothing at h
  simp only [not_or, ne_eq, not_not, Bool.not_eq_true, Bool.not_eq_false, not_and] at h
  exact h

theorem attempt_guard (h : ¬s.triesNothing k) : ¬(s.cur.open_ || !(s.ctx k).bound || (s.ctx k).ending.isSome || (s.ctx k).pause != 0 ||
    s.stopped (coreOf k)) = true := by
  obtain ⟨ho, hb, he, hp, hst, -⟩ := free_of_not_held h
  simp [ho, hb, he, hp, hst]

theorem attempt_aside (h : ¬s.triesNothing k) {cur : Cur} (ha : (s.ctx k).aside = some cur) : s.attempt k gaps = s.resume k cur := by
  unfold State.attempt
  simp only [if_neg (attempt_guard h), ha]

theorem between_of_free (h : ¬s.triesNothing k) (ha : (s.ctx k).aside = none) : s.between k = true := by
  obtain ⟨ho, hb, he, hp, -, -⟩ := free_of_not_held h
  unfold State.between
  simp [ho, hb, he, hp, ha]

theorem attempt_bundle (h : ¬s.triesNothing k) (ha : (s.ctx k).aside = none) (hw : (s.ctx k).window = none) {ws : List Word}
    (hws : (s.ctx k).bundleAt (s.ctx k).arch.pos = some ws) :
    s.attempt k gaps = (s.noteWait k (s.waitOver k ws)).tryBundle k ws gaps := by
  obtain ⟨-, -, -, -, -, ht⟩ := free_of_not_held h
  have hu : ((s.ctx k).noting (s.waitOver k ws)).bundleAt ((s.ctx k).noting (s.waitOver k ws)).arch.pos = some ws := hws
  unfold State.attempt
  simp only [if_neg (attempt_guard h), ha, ht ha, Bool.not_true, Bool.false_eq_true, if_false, settle_bundle (between_of_free h ha) hw hws,
    noteWait_ctx, hu]

theorem attempt_absent (h : ¬s.triesNothing k) (ha : (s.ctx k).aside = none)
    (hb : ((s.settle k).ctx k).bundleAt ((s.settle k).ctx k).arch.pos = none) : s.attempt k gaps =
      if ((s.settle k).ctx k).fetchedDue then (s.settle k).haltCtx k stBadtarget ((s.settle k).ctx k).arch.pos else s.settle k := by
  obtain ⟨-, -, -, -, -, ht⟩ := free_of_not_held h
  unfold State.attempt
  simp only [if_neg (attempt_guard h), ha, ht ha, Bool.not_true, Bool.false_eq_true, if_false, hb]

theorem holds_noteWait (s : State) (k : Nat) (met : Bool) (ops : List Instr) : (s.noteWait k met).holds k ops = s.holds k ops := by
  unfold State.holds
  rw [noteWait_ctx]
  rfl

theorem bankWait_noteWait (s : State) (k : Nat) (met : Bool) (ops : List Instr) :
    (s.noteWait k met).bankWait k ops = s.bankWait k ops := rfl

theorem block_calm {c : Ctx} (h : c.window = none) : c.block = { c with blocked := true } := by
  unfold Ctx.block
  rw [h]
  rfl

/-- A bundle that waits for its semaphore is blocked. -/
theorem tryBundle_waits {ws : List Word} (hr : (s.ctx k).arch.reenter = none) (hy : yWen (yOf ws) = true) (hm : (s.ctx k).waitMet = false) :
    s.tryBundle k ws gaps = s.blockCtx k := by
  unfold State.tryBundle
  dsimp only
  rw [if_pos (by simp [hr, hy, hm])]

/-- What follows the wait: the accesses that the slots must stand behind, what holds the slots, and the banks. -/
theorem tryBundle_goes {ws : List Word} (h : (s.ctx k).arch.reenter ≠ none ∨ yWen (yOf ws) = false ∨ (s.ctx k).waitMet = true) :
    s.tryBundle k ws gaps =
      let ops := slotOps ws ((s.ctx k).arch.reenter.getD 0)
      let p := s.place k ops
      if !p.2 || p.1.holds k ops then p.1.blockCtx k
      else if p.1.bankWait k ops then
        p.1.setCore (coreOf k) { p.1.core (coreOf k) with
          pipeFrozen := true, holder := some k
          streak := if (p.1.core (coreOf k)).holder = some k then (p.1.core (coreOf k)).streak else 0 }
      else if 7 ≤ (p.1.issue k ws gaps).cur.slot then (p.1.issue k ws gaps).completeBundle else p.1.issue k ws gaps := by
  have hn : ¬((s.ctx k).arch.reenter.isNone && yWen (yOf ws) && !(s.ctx k).waitMet) = true := by
    obtain h | h | h := h
    · simp [Option.isNone_iff_eq_none, h]
    · simp [h]
    · simp [h]
  unfold State.tryBundle
  dsimp only
  rw [if_neg hn]

end

end Sys2Proof.Machine
end

section
/-! PROOFS. The issue of a bundle (spec/01 R12, R31, R86; spec/14 R339, R351). -/

namespace Sys2Proof.Machine

/-! ### What the landing of due results reads and leaves -/

/-- What the landing of one result does to the context's architectural state. -/
def landedWhole (a : Arch) : FlightDst → Arch
  | .acc bank row b m psn full =>
    if a.accs.any (fun p => p.1 == bank) then
      { a with accs := a.accs.map fun p => if p.1 = bank then (bank, writeRow p.2 row b m psn full) else p }
    else a
  | .s n v => landedArch a (.s n v)
  | .v n v => landedArch a (.v n v)
  | .p n b m => landedArch a (.p n b m)
  | .mp n v => landedArch a (.mp n v)
  | .x n v => landedArch a (.x n v)

theorem landOne_whole (s : State) (k : Nat) (d : FlightDst) :
    (s.landOne k d).ctx k = { s.ctx k with arch := landedWhole (s.ctx k).arch d } := by
  cases d with
  | acc bank row b m psn full =>
    unfold State.landOne landedWhole
    dsimp only
    split
    · exact ctx_setCtx_same ..
    · rfl
  | _ => exact ctx_setCtx_same ..

/-- The landing leaves everything but contexts and the accumulators of cores. -/
theorem landOne_outside (s : State) (k : Nat) (d : FlightDst) :
    (∃ cs co, s.landOne k d = { s with ctxs := cs, cores := co }) ∧ ∀ j, j ≠ k → (s.landOne k d).ctx j = s.ctx j := by
  cases d with
  | acc bank row b m psn full =>
    unfold State.landOne
    dsimp only
    split
    · exact ⟨⟨_, _, rfl⟩, fun j h => ctx_setCtx_other _ _ h⟩
    · exact ⟨⟨_, _, rfl⟩, fun j _ => rfl⟩
  | _ => exact ⟨⟨_, _, rfl⟩, fun j h => ctx_setCtx_other _ _ h⟩

/-- What a state has but for contexts and cores, and the contexts of the others. -/
def outsideOf (k : Nat) (s : State) : State × (Nat → Ctx) := ({ s with ctxs := [], cores := [] }, fun j => if j = k then {} else s.ctx j)

theorem outsideOf_landOne (s : State) (k : Nat) (d : FlightDst) : outsideOf k (s.landOne k d) = outsideOf k s := by
  obtain ⟨⟨cs, co, h⟩, ho⟩ := landOne_outside s k d
  unfold outsideOf
  refine Prod.ext (by rw [h]) (funext fun j => ?_)
  dsimp only
  split
  · rfl
  · next hj => exact ho j hj

theorem outsideOf_setCtx (s : State) (k : Nat) (c : Ctx) : outsideOf k (s.setCtx k c) = outsideOf k s := by
  refine Prod.ext rfl (funext fun j => ?_)
  show (if j = k then {} else (s.setCtx k c).ctx j) = if j = k then {} else s.ctx j
  split
  · rfl
  · next hj => rw [ctx_setCtx_other _ _ hj]

theorem outsideOf_landBy (s : State) (k now : Nat) : outsideOf k (s.landBy k now) = outsideOf k s :=
  landDue_keeps (outsideOf k) (fun s d => outsideOf_landOne s k d) (fun s _ => outsideOf_setCtx s k _) s now _

theorem landBy_outside (s : State) (k now : Nat) : ∃ cs co, s.landBy k now = { s with ctxs := cs, cores := co } :=
  ⟨_, _, congrArg (fun u : State => { u with ctxs := (s.landBy k now).ctxs, cores := (s.landBy k now).cores })
    (congrArg Prod.fst (outsideOf_landBy s k now))⟩

theorem landBy_other (s : State) {k j : Nat} (h : j ≠ k) (now : Nat) : (s.landBy k now).ctx j = s.ctx j := by
  have hx := congrFun (congrArg Prod.snd (outsideOf_landBy s k now)) j
  simpa [outsideOf, h] using hx

/-- What a landing leaves of its own context: all but the registers, the flight and the saved banks. -/
def Ctx.unlanded (c : Ctx) : Ctx :=
  { c with arch := { c.arch with s := [], v := [], p := [], mp := [], xbuf := [], flight := [], accs := [] } }

theorem landBy_own (s : State) (k now : Nat) : ((s.landBy k now).ctx k).unlanded = (s.ctx k).unlanded := by
  refine landDue_keeps (fun s => (s.ctx k).unlanded) (fun s d => ?_) (fun s fl => ?_) s now _
  · rw [landOne_whole]
    cases d with
    | acc bank row b m psn full =>
      unfold landedWhole
      dsimp only
      split <;> rfl
    | _ => rfl
  · rw [ctx_setCtx_same]
    rfl

/-- The landed state of a context is a function of its own architectural state. -/
theorem landList_congr {s t : State} {k : Nat} (l : List Flight) (h : (t.ctx k).arch = (s.ctx k).arch) :
    ((t.landList k l).ctx k).arch = ((s.landList k l).ctx k).arch := by
  induction l generalizing s t with
  | nil => exact h
  | cons f r ih =>
    unfold State.landList
    split
    · exact ih h
    · refine ih ?_
      rw [landOne_whole, landOne_whole, h]

theorem landDue_congr {s t : State} {k : Nat} (now fuel : Nat) (h : (t.ctx k).arch = (s.ctx k).arch) :
    ((t.landDue k now fuel).ctx k).arch = ((s.landDue k now fuel).ctx k).arch := by
  induction fuel generalizing s t with
  | zero => exact h
  | succ n ih =>
    cases hd : nextDue now (s.ctx k).arch.flight with
    | none => rw [landDue_none (nextDue_none.1 hd), landDue_none (nextDue_none.1 (by rw [h]; exact hd)), h]
    | some d =>
      rw [landDue_some hd, landDue_some (by rw [h]; exact hd)]
      refine ih ?_
      unfold State.landPosition
      rw [h]
      exact landList_congr _ (by rw [ctx_setCtx_same, ctx_setCtx_same])

theorem landBy_congr {s t : State} {k : Nat} (now : Nat) (h : (t.ctx k).arch = (s.ctx k).arch) :
    ((t.landBy k now).ctx k).arch = ((s.landBy k now).ctx k).arch := by
  unfold State.landBy
  rw [h]
  exact landDue_congr now _ h

/-! ### What the turns change -/

/-- What passing the turn, and noting it, change of another context. -/
def TurnOnly (x y : Ctx) : Prop := ∃ l b w csw, y = { x with yielding := l, blocked := b, window := w, arch := { x.arch with csw := csw } }

theorem TurnOnly.refl (x : Ctx) : TurnOnly x x := ⟨x.yielding, x.blocked, x.window, x.arch.csw, rfl⟩

theorem TurnOnly.trans {x y z : Ctx} (h : TurnOnly x y) (g : TurnOnly y z) : TurnOnly x z := by
  obtain ⟨_, _, _, _, rfl⟩ := h
  obtain ⟨l, b, w, csw, rfl⟩ := g
  exact ⟨l, b, w, csw, rfl⟩

theorem turnOnly_block (x : Ctx) : TurnOnly x x.block := ⟨x.yielding, _, _, _, rfl⟩

/-- The turn passes from a context that cannot issue: that one is blocked (R339). -/
theorem passTurn_passes (s : State) (k : Nat) : (∃ cs, s.passTurn k = { s with ctxs := cs }) ∧ (s.passTurn k).ctx k = s.ctx k ∧
    ∀ j, TurnOnly (s.ctx j) ((s.passTurn k).ctx j) := by
  have same : (∃ cs, s = { s with ctxs := cs }) ∧ s.ctx k = s.ctx k ∧ ∀ j, TurnOnly (s.ctx j) (s.ctx j) := ⟨⟨_, rfl⟩, rfl, fun j => .refl _⟩
  unfold State.passTurn
  split
  · next h hh =>
    split
    · next hc =>
      have hk : h ≠ k := by
        intro he
        simp [he] at hc
      refine ⟨⟨_, rfl⟩, ctx_setCtx_other _ _ (Ne.symm hk), fun j => ?_⟩
      rw [State.blockCtx, ctx_setCtx]
      split
      · next hj => rw [hj]; exact turnOnly_block _
      · exact .refl _
    · exact same
  · exact same

/-- The contexts that wait out a yield note that this one has issued (R104). -/
theorem noteTurn_notes (s : State) (k : Nat) : (∃ cs, s.noteTurn k = { s with ctxs := cs }) ∧ (s.noteTurn k).ctx k = s.ctx k ∧
    ∀ j, TurnOnly (s.ctx j) ((s.noteTurn k).ctx j) := by
  have hmates : ∀ j ∈ s.coreMates k, j ≠ k := by
    intro j hj
    have := (List.mem_filter.mp hj).2
    simp only [Bool.and_eq_true, bne_iff_ne] at this
    exact this.1.1
  unfold State.noteTurn
  generalize s.coreMates k = l at hmates
  induction l generalizing s with
  | nil => exact ⟨⟨_, rfl⟩, rfl, fun j => .refl _⟩
  | cons m r ih =>
    have hm := hmates m List.mem_cons_self
    rw [List.foldl_cons]
    cases hy : (s.ctx m).yielding with
    | none =>
      dsimp only
      rw [hy]
      exact ih s fun j hj => hmates j (List.mem_cons_of_mem _ hj)
    | some ys =>
      dsimp only
      rw [hy]
      obtain ⟨⟨cs, h1⟩, h2, h3⟩ :=
        ih (s.setCtx m { s.ctx m with yielding := some (ys.erase k) }) fun j hj => hmates j (List.mem_cons_of_mem _ hj)
      refine ⟨⟨cs, h1⟩, h2.trans (ctx_setCtx_other _ _ (Ne.symm hm)), fun j => .trans ?_ (h3 j)⟩
      rw [ctx_setCtx]
      split
      · next hj => rw [hj]; exact ⟨_, (s.ctx m).blocked, (s.ctx m).window, (s.ctx m).arch.csw, rfl⟩
      · exact .refl _

/-! ### The issue -/

/-- The state in which a bundle issues: the turn has passed, and at its first issue the results due have landed. -/
def State.landed (s : State) (k : Nat) : State :=
  let s := s.passTurn k
  let again := (s.ctx k).arch.reenter
  if again.isSome then s else s.landBy k (s.ctx k).arch.at_

theorem landed_outside (s : State) (k : Nat) : (∃ cs co, s.landed k = { s with ctxs := cs, cores := co }) ∧
    ((s.landed k).ctx k).unlanded = (s.ctx k).unlanded ∧ ∀ j, j ≠ k → TurnOnly (s.ctx j) ((s.landed k).ctx j) := by
  obtain ⟨⟨cs, h1⟩, h2, h3⟩ := passTurn_passes s k
  unfold State.landed
  dsimp only
  rw [h2]
  split
  · exact ⟨⟨cs, s.cores, h1⟩, by rw [h2], fun j _ => h3 j⟩
  · refine ⟨?_, (landBy_own ..).trans (by rw [h2]), fun j hj => ?_⟩
    · obtain ⟨cs', co, h⟩ := landBy_outside (s.passTurn k) k (s.ctx k).arch.at_
      exact ⟨cs', co, h.trans (by rw [h1])⟩
    · rw [landBy_other _ hj]
      exact h3 j

end Sys2Proof.Machine
end

section
/-! PROOFS. What a context and the bundle in hand are once a bundle has issued (spec/01 R12, R31, R86; spec/15 R351). -/

namespace Sys2Proof.Machine

/-- The watch registers with the writes since the last boundary (R351). -/
def Ctx.watched (c : Ctx) : FMap (BitVec 128) := c.watchNew.foldl (fun m p => put 0 m p.1 p.2) c.arch.watch

/-- The context before it turns to the half that it issues from; `now` is the step. -/
def Ctx.opening (c : Ctx) (again : Option Nat) (ws : List Word) (now : Nat) : Ctx :=
  let c := c.takeWatch
  let c := { c with waitMet := false, blocked := false, window := if again.isSome then c.window else nextWindow c.window (yOf ws) now }
  { c with arch := if again.isSome then { c.arch with reenter := none }
      else { c.arch with cycle := c.arch.cycle + 1, at_ := c.arch.at_ + 1 } }

/-- The context that has issued. -/
def Ctx.issued (c : Ctx) (again : Option Nat) (ws : List Word) (now : Nat) : Ctx :=
  let d := (c.opening again ws now).enterHalf
  if !c.takeWatch.curHalf.residentIn (ptrSeg c.takeWatch.arch.pos) && again.getD 0 != 0 then d.prefetch else d

/-- The bundle in hand. -/
def Ctx.opened (c : Ctx) (k : Nat) (again : Option Nat) (ws : List Word) (gaps : List Nat) : Cur := {
  open_ := true, ctx := k, slot := again.getD 0, words := ws, pc := c.takeWatch.arch.pos, csw := c.takeWatch.arch.csw, pend :=
    c.takeWatch.pendS
  since := c.takeWatch.sb.length, fresh := !c.takeWatch.curHalf.residentIn (ptrSeg c.takeWatch.arch.pos), gaps := gaps
  t := if again.isSome then c.takeWatch.arch.savedAt else c.takeWatch.arch.at_
  clock := if again.isSome then c.takeWatch.arch.savedCycle else c.takeWatch.arch.cycle }

/-- The core with the context as the holder of its turn (R339). -/
def State.takesTurn (s : State) (k : Nat) : State :=
  let co := s.core (coreOf k)
  s.setCore (coreOf k) { co with
    holder := some k, pipeFrozen := false
    streak := if co.holder = some k then (if s.rival k then co.streak + 1 else co.streak) else if s.rival k then 1 else 0 }

/-- The state with a bundle in hand. -/
def State.inHand (s : State) (q : Cur) : State := { s with cur := q }

/-- The turn passes and the results land; then the context issues. -/
theorem issue_landed (s : State) (k : Nat) (ws : List Word) (gaps : List Nat) :
    let x := s.landed k
    let again := ((s.passTurn k).ctx k).arch.reenter
    s.issue k ws gaps =
      (((x.setCtx k ((x.ctx k).issued again ws x.steps)).takesTurn k).noteTurn k).inHand ((x.ctx k).opened k again ws gaps) := rfl

theorem issue_eq (s : State) (k : Nat) (ws : List Word) (gaps : List Nat) : s.issue k ws gaps =
    ((((s.landed k).setCtx k (((s.landed k).ctx k).issued (s.ctx k).arch.reenter ws (s.landed k).steps)).takesTurn k).noteTurn k).inHand
      (((s.landed k).ctx k).opened k (s.ctx k).arch.reenter ws gaps) := by
  have hi := issue_landed s k ws gaps
  rw [(passTurn_passes s k).2.1] at hi
  exact hi

theorem enterHalf_eq (c : Ctx) : ∃ b, c.enterHalf = { c with current := b } := by
  unfold Ctx.enterHalf
  split
  · exact ⟨c.current, rfl⟩
  · exact ⟨_, rfl⟩

theorem enterPrefetch_eq (c : Ctx) (p : Bool) : ∃ halfA halfB b n, (if p then c.enterHalf.prefetch else c.enterHalf) =
    { c with halfA := halfA, halfB := halfB, current := b, arch := { c.arch with fetches := n } } := by
  obtain ⟨b, hb⟩ := enterHalf_eq c
  split
  · obtain ⟨halfA, halfB, n, hp⟩ := prefetch_eq c.enterHalf
    exact ⟨halfA, halfB, b, n, by rw [hp, hb]⟩
  · exact ⟨c.halfA, c.halfB, b, c.arch.fetches, hb⟩

theorem issued_eq (c : Ctx) (again : Option Nat) (ws : List Word) (now : Nat) : ∃ halfA halfB b n, c.issued again ws now =
    { c.opening again ws now with
      halfA := halfA, halfB := halfB, current := b, arch := { (c.opening again ws now).arch with fetches := n } } :=
  enterPrefetch_eq ..

/-- What does not read the landed registers is the same of a context and of its landed form. -/
theorem unlanded_congr {α : Type} {c x : Ctx} (h : x.unlanded = c.unlanded) (f : Ctx → α) (hf : ∀ y, f y.unlanded = f y) : f x = f c := by
  rw [← hf x, ← hf c, h]

theorem issue_own (s : State) (k : Nat) (ws : List Word) (gaps : List Nat) :
    (s.issue k ws gaps).ctx k = ((s.landed k).ctx k).issued (s.ctx k).arch.reenter ws s.steps := by
  obtain ⟨⟨cs, co, hx⟩, -, -⟩ := landed_outside s k
  have hsteps : (s.landed k).steps = s.steps := by rw [hx]
  rw [issue_eq, hsteps]
  exact (noteTurn_notes _ k).2.1.trans (ctx_setCtx_same ..)

theorem issue_others (s : State) {k j : Nat} (ws : List Word) (gaps : List Nat) (h : j ≠ k) :
    TurnOnly (s.ctx j) ((s.issue k ws gaps).ctx j) := by
  obtain ⟨-, -, hothers⟩ := landed_outside s k
  rw [issue_eq]
  refine .trans (hothers j h) ?_
  rw [← ctx_setCtx_other (s.landed k) (((s.landed k).ctx k).issued (s.ctx k).arch.reenter ws (s.landed k).steps) h]
  exact (noteTurn_notes _ k).2.2 j

theorem issue_outside (s : State) (k : Nat) (ws : List Word) (gaps : List Nat) :
    (s.issue k ws gaps).mem = s.mem ∧ (s.issue k ws gaps).clusters = s.clusters ∧ ((s.issue k ws gaps).core (coreOf k)).holder = some k :=
      by
  obtain ⟨⟨cs, co, hx⟩, -, -⟩ := landed_outside s k
  rw [issue_eq]
  generalize ((s.landed k).ctx k).opened k (s.ctx k).arch.reenter ws gaps = q
  generalize ((s.landed k).ctx k).issued (s.ctx k).arch.reenter ws (s.landed k).steps = c
  obtain ⟨⟨cs', hn⟩, -, -⟩ := noteTurn_notes (((s.landed k).setCtx k c).takesTurn k) k
  rw [hn]
  have hmem : (s.landed k).mem = s.mem := by rw [hx]
  have hcl : (s.landed k).clusters = s.clusters := by rw [hx]
  exact ⟨hmem, hcl, congrArg Core.holder (core_setCore_same ..)⟩

theorem issue_cur (s : State) (k : Nat) (ws : List Word) (gaps : List Nat) :
    (s.issue k ws gaps).cur = (s.ctx k).opened k (s.ctx k).arch.reenter ws gaps := by
  obtain ⟨-, hown, -⟩ := landed_outside s k
  rw [issue_eq]
  exact unlanded_congr hown (fun c => c.opened k (s.ctx k).arch.reenter ws gaps) fun _ => rfl

theorem landed_arch_again {s : State} {k : Nat} (h : (s.ctx k).arch.reenter ≠ none) : ((s.landed k).ctx k).arch = (s.ctx k).arch := by
  unfold State.landed
  dsimp only
  rw [(passTurn_passes s k).2.1, if_pos (Option.isSome_iff_ne_none.2 h), (passTurn_passes s k).2.1]

theorem landed_arch_first {s : State} {k : Nat} (h : (s.ctx k).arch.reenter = none) :
    ((s.landed k).ctx k).arch = ((s.landBy k (s.ctx k).arch.at_).ctx k).arch := by
  have hp := (passTurn_passes s k).2.1
  unfold State.landed
  dsimp only
  rw [hp, h]
  exact landBy_congr _ (by rw [hp])

/-- Fields of a context that no landing changes. -/
theorem landed_fields (s : State) (k : Nat) :
    ((s.landed k).ctx k).watched = (s.ctx k).watched ∧ ((s.landed k).ctx k).window = (s.ctx k).window ∧
    ((s.landed k).ctx k).arch.cycle = (s.ctx k).arch.cycle ∧ ((s.landed k).ctx k).arch.at_ = (s.ctx k).arch.at_ := by
  obtain ⟨-, hown, -⟩ := landed_outside s k
  exact ⟨unlanded_congr hown Ctx.watched fun _ => rfl, unlanded_congr hown Ctx.window fun _ => rfl,
    unlanded_congr hown (fun c => c.arch.cycle) fun _ => rfl, unlanded_congr hown (fun c => c.arch.at_) fun _ => rfl⟩

theorem issued_again (c : Ctx) {again : Option Nat} (ws : List Word) (now : Nat) (h : again ≠ none) :
    (c.issued again ws now).watchNew = [] ∧
    (c.issued again ws now).window = c.window ∧
    ∃ n, (c.issued again ws now).arch = { c.arch with reenter := none, fetches := n, watch := c.watched } := by
  obtain ⟨m, rfl⟩ := Option.ne_none_iff_exists'.1 h
  obtain ⟨halfA, halfB, b, n, hi⟩ := issued_eq c (some m) ws now
  rw [hi]
  exact ⟨rfl, rfl, n, rfl⟩

theorem issued_first (c : Ctx) (ws : List Word) (now : Nat) : (c.issued none ws now).watchNew = [] ∧
    (c.issued none ws now).window = nextWindow c.window (yOf ws) now ∧ ∃ n, (c.issued none ws now).arch =
      { c.arch with cycle := c.arch.cycle + 1, at_ := c.arch.at_ + 1, fetches := n, watch := c.watched } := by
  obtain ⟨halfA, halfB, b, n, hi⟩ := issued_eq c none ws now
  rw [hi]
  exact ⟨rfl, rfl, n, rfl⟩

end Sys2Proof.Machine
end

section
/-! PROOFS. A bundle waits, blocks or issues (spec/01 R12, R31, R86; spec/15 R253, R351). -/

namespace Sys2Proof.Machine

section
variable {s : State} {k : Nat} {gaps : List Nat} {ws : List Word}

/-! ### Accesses that the slots must stand behind -/

/-- Setting the slots behind a context's accesses changes neither the bundle in hand nor a context's pc, re-entry or registers. -/
@[simp] theorem lasting_place (s : State) (k : Nat) (ops : List Instr) : lasting (s.place k ops).1 = lasting s := by
  unfold State.place
  dsimp only
  repeat' split
  all_goals simp

theorem lasting_blockCtx (s : State) (k : Nat) : lasting (s.blockCtx k) = lasting s := lasting_setCtx rfl

theorem waitOver_of_goes (h : (s.ctx k).arch.reenter ≠ none ∨ yWen (yOf ws) = false ∨ (s.ctx k).waitMet = true) :
    s.waitOver k ws = (s.ctx k).waitMet := by
  unfold State.waitOver
  obtain h | h | h := h
  · simp [Option.isNone_iff_eq_none, h]
  · simp [h]
  · simp [h]

/-- The note of a wait that is not newly over leaves every context as it is. -/
theorem noteWait_idle (s : State) (k j : Nat) : (s.noteWait k (s.ctx k).waitMet).ctx j = s.ctx j := by
  by_cases h : j = k
  · rw [h, noteWait_ctx]
    rfl
  · exact noteWait_other s h _

/-- A bundle with a slot that must stand behind the context's own accesses is blocked. -/
theorem attempt_behind (h : ¬s.triesNothing k) (ha : (s.ctx k).aside = none) (hw : (s.ctx k).window = none)
    (hws : (s.ctx k).bundleAt (s.ctx k).arch.pos = some ws)
    (hg : (s.ctx k).arch.reenter ≠ none ∨ yWen (yOf ws) = false ∨ (s.ctx k).waitMet = true)
    (hp : (s.place k (slotOps ws ((s.ctx k).arch.reenter.getD 0))).2 = false) :
    lasting (s.attempt k gaps) = lasting s ∧ ((s.attempt k gaps).ctx k).blocked = true := by
  have hu (j : Nat) := noteWait_idle s k j
  have hpl := place_answer_congr (s := s) (t := s.noteWait k (s.ctx k).waitMet) rfl hu k (slotOps ws ((s.ctx k).arch.reenter.getD 0))
  have hl : lasting (s.noteWait k (s.ctx k).waitMet) = lasting s := lasting_setCtx rfl
  rw [attempt_bundle h ha hw hws, waitOver_of_goes hg]
  generalize s.noteWait k (s.ctx k).waitMet = u at hu hpl hl
  rw [tryBundle_goes (by rw [hu]; exact hg)]
  dsimp only
  rw [hu, hpl, hp, Bool.not_false, Bool.true_or, if_pos rfl]
  exact ⟨by rw [lasting_blockCtx, lasting_place, hl], congrArg Ctx.blocked (ctx_setCtx_same ..)⟩

/-! ### The semaphore, the slots and the banks -/

/-- Whether the bundle waits for its semaphore (R253). -/
def State.waitsFor (s : State) (k : Nat) (ws : List Word) : Prop :=
  (s.ctx k).arch.reenter = none ∧ yWen (yOf ws) = true ∧ (s.ctx k).waitMet = false ∧
    ((∃ p ∈ (s.ctx k).signals, p.sem = yWsem (yOf ws)) ∨
      (s.sem (clusterOf k) (s.ctx k).arch.info (yWsem (yOf ws))).bal.toInt < yWthr (yOf ws))

theorem waitOver_of_waits (h : s.waitsFor k ws) : s.waitOver k ws = false := by
  obtain ⟨hr, hy, hm, hs | hv⟩ := h
  · have : ((s.ctx k).signals.any fun p => p.sem == yWsem (yOf ws)) = true := by simpa using hs
    simp [State.waitOver, hm, this]
  · have : ¬yWthr (yOf ws) ≤ (s.sem (clusterOf k) (s.ctx k).arch.info (yWsem (yOf ws))).value := Int.not_le.2 hv
    simp [State.waitOver, hm, this]

theorem goes_of_not_waits (h : ¬s.waitsFor k ws) :
    (s.ctx k).arch.reenter ≠ none ∨ yWen (yOf ws) = false ∨ s.waitOver k ws = true := by
  by_cases hr : (s.ctx k).arch.reenter = none
  · cases hy : yWen (yOf ws) with
    | false => exact .inr (.inl rfl)
    | true =>
      cases hm : (s.ctx k).waitMet with
      | true => exact .inr (.inr (by simp [State.waitOver, hm]))
      | false =>
        refine .inr (.inr ?_)
        have hn : ¬((∃ p ∈ (s.ctx k).signals, p.sem = yWsem (yOf ws)) ∨
            (s.sem (clusterOf k) (s.ctx k).arch.info (yWsem (yOf ws))).bal.toInt < yWthr (yOf ws)) := fun hx => h ⟨hr, hy, hm, hx⟩
        obtain ⟨hs, hv⟩ := not_or.1 hn
        have hs : ((s.ctx k).signals.any fun p => p.sem == yWsem (yOf ws)) = false := by simpa using hs
        have hv : yWthr (yOf ws) ≤ (s.sem (clusterOf k) (s.ctx k).arch.info (yWsem (yOf ws))).value := Int.not_lt.1 hv
        simp [State.waitOver, hm, hr, hy, hs, hv]
  · exact .inl hr

theorem asIssued_needs_noteWait (s : State) (k : Nat) (met : Bool) {ops : List Instr} (h : ∀ i ∈ ops, (s.asIssued k).needs i = none) :
    ∀ i ∈ ops, ((s.noteWait k met).asIssued k).needs i = none :=
  fun i hi => needs_none_congr _ _ i (h i hi)

theorem quiet_noteWait {s : State} {k : Nat} (h : s.quiet k) (met : Bool) : (s.noteWait k met).quiet k := by
  obtain ⟨hu, hl, ha⟩ := h
  exact ⟨hu, hl, by rw [noteWait_ctx]; exact ha⟩

/-- Where no slot must stand behind an access, setting the slots behind the accesses does nothing. -/
theorem place_noteWait {ops : List Instr} (hp : s.plain) (h : s.quiet k ∨ ∀ i ∈ ops, (s.asIssued k).needs i = none) (met : Bool) :
    (s.noteWait k met).place k ops = (s.noteWait k met, true) :=
  place_quiet hp (h.imp (fun hq => quiet_noteWait hq met) (asIssued_needs_noteWait s k met))

/-- The three outcomes of a bundle that does not wait for its semaphore. -/
theorem attempt_goes (h : ¬s.triesNothing k) (ha : (s.ctx k).aside = none) (hw : (s.ctx k).window = none) (hp : s.plain)
    (hws : (s.ctx k).bundleAt (s.ctx k).arch.pos = some ws)
    (hq : s.quiet k ∨ ∀ i ∈ slotOps ws ((s.ctx k).arch.reenter.getD 0), (s.asIssued k).needs i = none) (hn : ¬s.waitsFor k ws) :
    s.attempt k gaps =
      let u := s.noteWait k (s.waitOver k ws)
      let ops := slotOps ws ((s.ctx k).arch.reenter.getD 0)
      if s.holds k ops then u.blockCtx k
      else if s.bankWait k ops then
        u.setCore (coreOf k) { s.core (coreOf k) with
          pipeFrozen := true, holder := some k
          streak := if (s.core (coreOf k)).holder = some k then (s.core (coreOf k)).streak else 0 }
      else if 7 ≤ (u.issue k ws gaps).cur.slot then (u.issue k ws gaps).completeBundle else u.issue k ws gaps := by
  have hr : ((s.noteWait k (s.waitOver k ws)).ctx k).arch.reenter = (s.ctx k).arch.reenter := by
    rw [noteWait_ctx]
    rfl
  rw [attempt_bundle h ha hw hws, tryBundle_goes (by rw [hr, noteWait_ctx]; exact goes_of_not_waits hn), hr]
  dsimp only
  rw [place_noteWait hp hq]
  simp only [Bool.not_true, Bool.false_or, holds_noteWait, bankWait_noteWait]
  rfl

/-- A context blocked with the note of its wait: nothing of the bundle has issued. -/
theorem blockCtx_noteWait (hw : (s.ctx k).window = none) (met : Bool) :
    (s.noteWait k met).blockCtx k = { s with ctxs := ((s.noteWait k met).blockCtx k).ctxs } ∧
    ((s.noteWait k met).blockCtx k).ctx k = { s.ctx k with blocked := true, waitMet := met } ∧
    ∀ j, j ≠ k → ((s.noteWait k met).blockCtx k).ctx j = s.ctx j := by
  refine ⟨rfl, ?_, fun j hj => (ctx_setCtx_other _ _ hj).trans (noteWait_other s hj met)⟩
  rw [State.blockCtx, ctx_setCtx_same, noteWait_ctx, block_calm (c := (s.ctx k).noting met) hw]
  rfl

/-- A bundle that waits, or has a slot that is held, is blocked. -/
theorem attempt_blocks (h : ¬s.triesNothing k) (ha : (s.ctx k).aside = none) (hw : (s.ctx k).window = none) (hp : s.plain)
    (hws : (s.ctx k).bundleAt (s.ctx k).arch.pos = some ws)
    (hq : s.quiet k ∨ ∀ i ∈ slotOps ws ((s.ctx k).arch.reenter.getD 0), (s.asIssued k).needs i = none)
    (hb : s.waitsFor k ws ∨ s.holds k (slotOps ws ((s.ctx k).arch.reenter.getD 0)) = true) :
    ∃ met, s.attempt k gaps = (s.noteWait k met).blockCtx k := by
  by_cases hn : s.waitsFor k ws
  · have hwo := waitOver_of_waits hn
    obtain ⟨hr, hy, -, -⟩ := hn
    refine ⟨false, ?_⟩
    rw [attempt_bundle h ha hw hws, hwo]
    exact tryBundle_waits (by rw [noteWait_ctx]; exact hr) hy (by rw [noteWait_ctx]; rfl)
  · refine ⟨s.waitOver k ws, ?_⟩
    rw [attempt_goes h ha hw hp hws hq hn]
    exact if_pos (hb.resolve_left hn)

end

end Sys2Proof.Machine
end

section
/-! PROOFS. A bundle that issues, and a target that holds none (spec/01 R12, R31, R86; spec/14 R339; spec/15 R351). -/

namespace Sys2Proof.Machine

section
variable {s : State} {k : Nat} {gaps : List Nat} {ws : List Word}

/-! ### The issue -/

/-- What the issue leaves of a context whose bundle is entered again: no clock advances and no result lands. -/
theorem issue_again (hw : (s.ctx k).window = none) (hr : (s.ctx k).arch.reenter ≠ none) :
    ((s.issue k ws gaps).ctx k).watchNew = [] ∧ ((s.issue k ws gaps).ctx k).window = none ∧ ∃ n, ((s.issue k ws gaps).ctx k).arch =
      { (s.ctx k).arch with reenter := none, fetches := n, watch := (s.ctx k).watched } := by
  obtain ⟨hwatched, hwindow, -, -⟩ := landed_fields s k
  obtain ⟨hnew, hwin, n, harch⟩ := issued_again ((s.landed k).ctx k) ws s.steps hr
  rw [issue_own]
  exact ⟨hnew, by rw [hwin, hwindow, hw], n, by rw [harch, hwatched, landed_arch_again hr]⟩

/-- What the first issue leaves: the results due have landed, and the clocks have advanced by one. -/
theorem issue_first (hw : (s.ctx k).window = none) (hr : (s.ctx k).arch.reenter = none) :
    ((s.issue k ws gaps).ctx k).watchNew = [] ∧ ((s.issue k ws gaps).ctx k).window = nextWindow none (yOf ws) s.steps ∧
    ∃ n, ((s.issue k ws gaps).ctx k).arch = { ((s.landBy k (s.ctx k).arch.at_).ctx k).arch with
      cycle := (s.ctx k).arch.cycle + 1, at_ := (s.ctx k).arch.at_ + 1, fetches := n, watch := (s.ctx k).watched } := by
  obtain ⟨hwatched, hwindow, hcycle, hat⟩ := landed_fields s k
  obtain ⟨hnew, hwin, n, harch⟩ := issued_first ((s.landed k).ctx k) ws s.steps
  rw [issue_own, hr]
  exact ⟨hnew, by rw [hwin, hwindow, hw], n, by rw [harch, hwatched, hcycle, hat, landed_arch_first hr]⟩

/-- The state of a context whose bundle has issued, with the fetches that the issue has begun. -/
theorem issue_noteWait_own (hw : (s.ctx k).window = none) (met : Bool) :
    let t := (s.noteWait k met).issue k ws gaps
    let a := (s.ctx k).arch
    (t.ctx k).watchNew = [] ∧ ∃ n,
    (a.reenter ≠ none → (t.ctx k).arch = { a with reenter := none, fetches := n, watch := (s.ctx k).watched } ∧ (t.ctx k).window = none) ∧
    (a.reenter = none → (t.ctx k).arch = { ((s.landBy k a.at_).ctx k).arch with
        cycle := a.cycle + 1, at_ := a.at_ + 1, fetches := n, watch := (s.ctx k).watched } ∧
      (t.ctx k).window = nextWindow none (yOf ws) s.steps) := by
  have hu : (s.noteWait k met).ctx k = (s.ctx k).noting met := noteWait_ctx ..
  have harch : ((s.noteWait k met).ctx k).arch = (s.ctx k).arch := by
    rw [hu]
    rfl
  have hwatch : ((s.noteWait k met).ctx k).watched = (s.ctx k).watched := by
    rw [hu]
    rfl
  have hwin : ((s.noteWait k met).ctx k).window = none := by
    rw [hu]
    exact hw
  dsimp only
  by_cases hr : (s.ctx k).arch.reenter = none
  · obtain ⟨hnew, hnext, n, ha⟩ := issue_first (ws := ws) (gaps := gaps) hwin (by rw [harch]; exact hr)
    rw [harch, hwatch, landBy_congr _ harch] at ha
    exact ⟨hnew, n, fun h => absurd hr h, fun _ => ⟨ha, hnext⟩⟩
  · obtain ⟨hnew, hnext, n, ha⟩ := issue_again (ws := ws) (gaps := gaps) hwin (by rw [harch]; exact hr)
    rw [harch, hwatch] at ha
    exact ⟨hnew, n, fun _ => ⟨ha, hnext⟩, fun h => absurd h hr⟩

theorem issue_noteWait_cur (s : State) (k : Nat) (met : Bool) (ws : List Word) (gaps : List Nat) :
    ((s.noteWait k met).issue k ws gaps).cur = (s.ctx k).opened k (s.ctx k).arch.reenter ws gaps := by
  rw [issue_cur, noteWait_ctx]
  rfl

theorem issue_noteWait_others (s : State) {k j : Nat} (met : Bool) (ws : List Word) (gaps : List Nat) (h : j ≠ k) :
    TurnOnly (s.ctx j) (((s.noteWait k met).issue k ws gaps).ctx j) := by
  have ht := issue_others (s.noteWait k met) ws gaps h
  rwa [noteWait_other s h] at ht

section
variable (h : ¬s.triesNothing k) (ha : (s.ctx k).aside = none) (hw : (s.ctx k).window = none) (hp : s.plain)
  (hws : (s.ctx k).bundleAt (s.ctx k).arch.pos = some ws)
  (hq : s.quiet k ∨ ∀ i ∈ slotOps ws ((s.ctx k).arch.reenter.getD 0), (s.asIssued k).needs i = none) (hn : ¬s.waitsFor k ws)
  (hh : s.holds k (slotOps ws ((s.ctx k).arch.reenter.getD 0)) = false)
include h ha hw hp hws hq hn hh

/-- A bundle that waits for an accumulator bank freezes the core's pipeline and keeps the turn (R12, R339). -/
theorem attempt_banked (hb : s.bankWait k (slotOps ws ((s.ctx k).arch.reenter.getD 0)) = true) :
    s.attempt k gaps = (s.noteWait k (s.waitOver k ws)).setCore (coreOf k) { s.core (coreOf k) with
      pipeFrozen := true, holder := some k
      streak := if (s.core (coreOf k)).holder = some k then (s.core (coreOf k)).streak else 0 } := by
  rw [attempt_goes h ha hw hp hws hq hn]
  dsimp only
  rw [hh, hb, if_neg Bool.false_ne_true, if_pos rfl]

/-- A bundle that nothing holds issues, and stays open at its slot. -/
theorem attempt_issues (hb : s.bankWait k (slotOps ws ((s.ctx k).arch.reenter.getD 0)) = false)
    (hslot : (s.ctx k).arch.reenter.getD 0 < 7) :
    s.attempt k gaps = (s.noteWait k (s.waitOver k ws)).issue k ws gaps := by
  have hopen : ¬7 ≤ ((s.noteWait k (s.waitOver k ws)).issue k ws gaps).cur.slot := by
    rw [issue_noteWait_cur]
    exact Nat.not_le.2 hslot
  rw [attempt_goes h ha hw hp hws hq hn]
  dsimp only
  rw [hh, hb, if_neg Bool.false_ne_true, if_neg Bool.false_ne_true, if_neg hopen]

end

theorem exec_bundleIssue {t : State} (h : s.attempt k gaps = t) : exec (.bundleIssue k ([], gaps)) s = .next t := by
  rw [← h]
  rfl

/-! ### A target with no such bundle -/

/-- A pc in a resident segment that holds no bundle there ends the task. -/
theorem attempt_fatal (h : ¬s.triesNothing k) (ha : (s.ctx k).aside = none) (hw : (s.ctx k).window = none)
    (hb : (s.ctx k).bundleAt (s.ctx k).arch.pos = none) (hf : (s.ctx k).fetchedDue = true) :
    s.attempt k gaps = (s.setCtx k (s.ctx k)).haltCtx k stBadtarget (s.ctx k).arch.pos := by
  have hc : (s.setCtx k (s.ctx k)).ctx k = s.ctx k := ctx_setCtx_same ..
  have hset : s.settle k = s.setCtx k (s.ctx k) := by
    rw [settle_here (between_of_free h ha) hw (by simpa [Ctx.fetchedDue] using hf)]
    exact testWait_idle (.inr (.inr (by rw [hc]; exact hb)))
  rw [attempt_absent h ha (by rw [hset, hc]; exact hb), hset, hc, if_pos hf]

/-- A segment asked for is in the half that the context does not execute from. -/
theorem request_absent {c : Ctx} {seg : Nat} (hc : c.curHalf.residentIn seg = false) :
    ∃ halfA halfB n, c.request seg = { c with halfA := halfA, halfB := halfB, arch := { c.arch with fetches := n } } ∧
      (c.request seg).curHalf = c.curHalf ∧ (c.request seg).idleHalf.seg = some seg ∧
      ((c.request seg).idleHalf = c.idleHalf ∨ (c.request seg).idleHalf = .expanding seg true) := by
  unfold Ctx.request
  rw [if_neg (by rw [hc]; exact Bool.false_ne_true)]
  split
  · next hi => exact ⟨c.halfA, c.halfB, c.arch.fetches, rfl, rfl, hi, .inl rfl⟩
  · unfold Ctx.expand Ctx.setIdle Ctx.curHalf Ctx.idleHalf
    cases c.current with
    | true => exact ⟨_, _, _, rfl, rfl, rfl, .inr rfl⟩
    | false => exact ⟨_, _, _, rfl, rfl, rfl, .inr rfl⟩

theorem bundleAt_absent {c : Ctx} {p : Word} (h : ¬(c.curHalf.residentIn (ptrSeg p) = true ∨ c.idleHalf.residentIn (ptrSeg p) = true)) :
    c.bundleAt p = none := by
  cases hb : c.bundleAt p with
  | none => rfl
  | some ws => exact absurd (resident_of_bundle hb) h

/-- A pc in a segment that is not resident has it asked for, and the context is blocked. -/
theorem attempt_asks (h : ¬s.triesNothing k) (ha : (s.ctx k).aside = none) (hw : (s.ctx k).window = none)
    (hf :
      ¬((s.ctx k).curHalf.residentIn (ptrSeg (s.ctx k).arch.pos) = true ∨ (s.ctx k).idleHalf.residentIn (ptrSeg (s.ctx k).arch.pos) =
      true)) :
    ∃ c, s.attempt k gaps = s.setCtx k c ∧ c.blocked = true ∧ c.ending = none ∧ c.idleHalf.seg = some (ptrSeg (s.ctx k).arch.pos) := by
  obtain ⟨-, -, hend, -, -, -⟩ := free_of_not_held h
  obtain ⟨hcur, hidle⟩ := not_or.1 hf
  obtain ⟨halfA, halfB, n, hq, hqc, hqs, hqi⟩ := request_absent (Bool.eq_false_iff.2 hcur)
  generalize hd : (s.ctx k).request (ptrSeg (s.ctx k).arch.pos) = d at hq hqc hqs hqi
  have hdw : d.window = none := by rw [hq]; exact hw
  have hpos : d.arch.pos = (s.ctx k).arch.pos := by rw [hq]
  have hdf : ¬(d.curHalf.residentIn (ptrSeg d.arch.pos) = true ∨ d.idleHalf.residentIn (ptrSeg d.arch.pos) = true) := by
    rw [hpos, hqc]
    obtain hi | hi := hqi
    · rw [hi]
      exact hf
    · rw [hi]
      exact not_or.2 ⟨hcur, Bool.false_ne_true⟩
  have hdue : d.fetchedDue = false := by simpa [Ctx.fetchedDue] using hdf
  have hset : s.settle k = s.setCtx k { d with blocked := true } := by
    unfold State.settle
    rw [if_pos (between_of_free h ha)]
    dsimp only
    rw [hd, closeWindow_none hdw, hdue, block_calm hdw]
    rfl
  have hsc : (s.setCtx k { d with blocked := true }).ctx k = { d with blocked := true } := ctx_setCtx_same ..
  have hnb : ({ d with blocked := true } : Ctx).bundleAt d.arch.pos = none := bundleAt_absent hdf
  have hnf : ({ d with blocked := true } : Ctx).fetchedDue = false := hdue
  refine ⟨{ d with blocked := true }, ?_, rfl, ?_, hqs⟩
  · rw [attempt_absent h ha (by rw [hset, hsc]; exact hnb), hset, hsc, hnf]
    rfl
  · show d.ending = none
    rw [hq]
    exact hend

end

/-- Settles O39: the outcomes of a try, one lemma each. Whether a slot must stand behind an access does not depend on the note of the wait,
and what the landing at the first issue gives depends on the context's own state alone. -/
theorem bundlesIssue : Obligations.BundlesIssue := by
  unfold Obligations.BundlesIssue
  refine ⟨fun _ _ _ _ => rfl, fun k gaps s => ?_⟩
  dsimp only
  refine ⟨fun h => ?_, fun h cur ha => ?_, fun h ha hw ws hws hg hp => ?_, fun h ha hw hpl ws hws hq => ⟨fun hb => ?_, fun hn hh hbk => ?_,
    fun hn hh hbk hslot => ?_⟩, fun h ha hw hb => ?_⟩
  · exact exec_bundleIssue (attempt_held h)
  · exact exec_bundleIssue (attempt_aside h ha)
  · obtain ⟨hl, hblk⟩ := attempt_behind (s := s) (gaps := gaps) h ha hw hws hg hp
    have hctx : ((s.attempt k gaps).ctx k).lasting = (s.ctx k).lasting := congrFun (congrArg Lasting.ctxs hl) k
    exact ⟨_, rfl, congrArg Lasting.cur hl, hblk, congrArg (fun x => x.2.1) hctx, congrArg (fun x => x.2.2.1) hctx,
      congrArg (fun x => x.2.2.2) hctx⟩
  · obtain ⟨met, ht⟩ := attempt_blocks (s := s) (gaps := gaps) h ha hw hpl hws hq hb
    obtain ⟨hout, hown, hothers⟩ := blockCtx_noteWait hw met
    exact ⟨_, met, exec_bundleIssue ht, hout, hown, hothers⟩
  · have ht := attempt_banked (s := s) (gaps := gaps) h ha hw hpl hws hq hn hh hbk
    have harch : ((s.noteWait k (s.waitOver k ws)).ctx k).arch = (s.ctx k).arch := by
      rw [noteWait_ctx]
      rfl
    exact ⟨_, exec_bundleIssue ht, rfl, rfl, harch, core_setCore_same ..⟩
  · have ht := attempt_issues (s := s) (gaps := gaps) h ha hw hpl hws hq hn hh hbk hslot
    obtain ⟨hmem, hclusters, hholder⟩ := issue_outside (s.noteWait k (s.waitOver k ws)) k ws gaps
    obtain ⟨hnew, n, hagain, hfirst⟩ := issue_noteWait_own (ws := ws) (gaps := gaps) hw (s.waitOver k ws)
    exact ⟨_, n, exec_bundleIssue ht, fun j hj => issue_noteWait_others s _ ws gaps hj, hmem, hclusters, hholder,
      issue_noteWait_cur s k _ ws gaps, hnew, hagain, hfirst⟩
  · by_cases hf : (s.ctx k).fetchedDue = true
    · have ht := attempt_fatal (s := s) (gaps := gaps) h ha hw hb hf
      refine ⟨_, exec_bundleIssue ht, (haltCtx_mem ..).trans rfl, fun j hj => ?_, fun _ => ?_, fun hne => ?_⟩
      · rw [haltCtx_ctx, if_neg hj, ctx_setCtx_other _ _ hj]
      · rw [haltCtx_ctx, if_pos rfl]
        rfl
      · exact absurd (by simpa [Ctx.fetchedDue] using hf) hne
    · have hne : ¬((s.ctx k).curHalf.residentIn (ptrSeg (s.ctx k).arch.pos) = true ∨
          (s.ctx k).idleHalf.residentIn (ptrSeg (s.ctx k).arch.pos) = true) := by simpa [Ctx.fetchedDue] using hf
      obtain ⟨c, ht, hblk, hend, hseg⟩ := attempt_asks (s := s) (gaps := gaps) h ha hw hne
      refine ⟨_, exec_bundleIssue ht, rfl, fun j hj => ctx_setCtx_other _ _ hj, fun hx => absurd hx hne, fun _ => ?_⟩
      rw [ctx_setCtx_same]
      exact ⟨hblk, hend, hseg⟩

end Sys2Proof.Machine
end

section
/-! PROOFS. What the engines read and write of the scratchpad and of the cluster store, unit by unit (spec/07 R171, R172; spec/09 R234,
R238; spec/10 R280). -/

namespace Sys2Proof.Machine

/-! ### A unit of one memory -/

/-- Byte `j` of a unit of a memory is the byte there. -/
theorem memUnit_byte (m : Mem) (u : Nat) {j : Nat} (hj : j < 8) : (m.unit u).1.extractLsb' (8 * j) 8 = m.byte (8 * u + j) :=
  unit_extract { mem := m } u j hj

theorem byte_setUnit (m : Mem) (u : Nat) (x : Word × Bool) (a : Nat) :
    (m.setUnit u x).byte a = if a / 8 = u then x.1.extractLsb' (8 * (a % 8)) 8 else m.byte a :=
  setUnit_byte { mem := m } u x a

theorem mark_setUnit (m : Mem) (u : Nat) (x : Word × Bool) (v : Nat) : (m.setUnit u x).mark v = if v = u then x.2 else m.mark v :=
  setUnit_mark { mem := m } u x v

/-- What some unpoisoned bytes of a unit leave, byte by byte (R172). -/
theorem byte_blend (m : Mem) (u mask : Nat) (data : Word) (a : Nat) : (m.blend u mask data false).byte a =
    if a / 8 = u ∧ mask.testBit (a % 8) = true then data.extractLsb' (8 * (a % 8)) 8 else m.byte a := by
  rw [Mem.blend, byte_setUnit]
  by_cases h : a / 8 = u
  · rw [if_pos h, unitPut_byte _ _ _ _ (Nat.mod_lt _ (by decide)), memUnit_byte _ _ (Nat.mod_lt _ (by decide)), ← h, byte_div_mod]
    simp only [true_and]
  · rw [if_neg h, if_neg fun hh => h hh.1]

/-- Only a unit written whole loses its mark (R172). -/
theorem mark_blend (m : Mem) (u mask : Nat) (data : Word) (v : Nat) :
    (m.blend u mask data false).mark v = if v = u ∧ mask = 255 then false else m.mark v := by
  rw [Mem.blend, mark_setUnit]
  by_cases h : v = u
  · subst h
    simp only [unitPut, Bool.false_eq_true, if_false, if_true, true_and]
    rfl
  · rw [if_neg h, if_neg fun hh => h hh.1]

/-- Poisoned bytes poison their whole unit (R172). -/
theorem byte_blend_poison (m : Mem) (u mask : Nat) (data : Word) (a : Nat) :
    (m.blend u mask data true).byte a = if a / 8 = u then 0 else m.byte a := by
  rw [Mem.blend, byte_setUnit]
  simp [unitPut]

theorem mark_blend_poison (m : Mem) (u mask : Nat) (data : Word) (v : Nat) :
    (m.blend u mask data true).mark v = if v = u then true else m.mark v := by
  rw [Mem.blend, mark_setUnit]
  simp [unitPut]

/-! ### Bytes at an address, written unit by unit -/

/-- Bytes written from `a` up, unit by unit. -/
def Mem.putUnits (m : Mem) (a : Nat) (bs : List Byte) (psn : Bool) (us : List Nat) : Mem :=
  us.foldl (fun m u => m.blend u (unitPart u a bs).1 (unitPart u a bs).2 psn) m

theorem byte_putUnits (a : Nat) (bs : List Byte) (us : List Nat) (m : Mem) (b : Nat) : (m.putUnits a bs false us).byte b =
    if b / 8 ∈ us ∧ a ≤ b ∧ b < a + bs.length then nth 0 bs (b - a) else m.byte b := by
  induction us generalizing m with
  | nil => simp [Mem.putUnits]
  | cons u r ih =>
    rw [show m.putUnits a bs false (u :: r) = (m.blend u (unitPart u a bs).1 (unitPart u a bs).2 false).putUnits a bs false r from rfl, ih,
      byte_blend]
    obtain ⟨hmask, hdata⟩ := unitPart_spec (b / 8) a bs (b % 8) (Nat.mod_lt _ (by decide))
    rw [Nat.div_add_mod] at hmask hdata
    by_cases hu : b / 8 = u
    · subst hu
      rw [hmask]
      by_cases hin : a ≤ b ∧ b < a + bs.length
      · simp [hin, hdata hin.1]
      · simp [hin]
    · simp [hu]

theorem mark_putUnits (a : Nat) (bs : List Byte) (us : List Nat) (m : Mem) (v : Nat) : (m.putUnits a bs false us).mark v =
    if v ∈ us ∧ a ≤ 8 * v ∧ 8 * v + 8 ≤ a + bs.length then false else m.mark v := by
  induction us generalizing m with
  | nil => simp [Mem.putUnits]
  | cons u r ih =>
    rw [show m.putUnits a bs false (u :: r) = (m.blend u (unitPart u a bs).1 (unitPart u a bs).2 false).putUnits a bs false r from rfl, ih,
      mark_blend]
    simp only [unitPart_whole]
    by_cases hu : v = u
    · subst hu
      by_cases hin : a ≤ 8 * v ∧ 8 * v + 8 ≤ a + bs.length
      · simp [hin]
      · simp [hin]
    · simp [hu]

theorem byte_putUnits_poison (a : Nat) (bs : List Byte) (us : List Nat) (m : Mem) (b : Nat) :
    (m.putUnits a bs true us).byte b = if b / 8 ∈ us then 0 else m.byte b := by
  induction us generalizing m with
  | nil => simp [Mem.putUnits]
  | cons u r ih =>
    rw [show m.putUnits a bs true (u :: r) = (m.blend u (unitPart u a bs).1 (unitPart u a bs).2 true).putUnits a bs true r from rfl, ih,
      byte_blend_poison]
    by_cases hu : b / 8 = u <;> by_cases hr : b / 8 ∈ r <;> simp [hu, hr]

theorem mark_putUnits_poison (a : Nat) (bs : List Byte) (us : List Nat) (m : Mem) (v : Nat) :
    (m.putUnits a bs true us).mark v = if v ∈ us then true else m.mark v := by
  induction us generalizing m with
  | nil => simp [Mem.putUnits]
  | cons u r ih =>
    rw [show m.putUnits a bs true (u :: r) = (m.blend u (unitPart u a bs).1 (unitPart u a bs).2 true).putUnits a bs true r from rfl, ih,
      mark_blend_poison]
    by_cases hu : v = u <;> by_cases hr : v ∈ r <;> simp [hu, hr]

/-- All the units of the bytes written: what a store of them leaves. -/
theorem byte_putUnits_all (m : Mem) (a : Nat) (bs : List Byte) (b : Nat) : (m.putUnits a bs false (unitsOf a bs.length)).byte b =
    if a ≤ b ∧ b < a + bs.length then nth 0 bs (b - a) else m.byte b := by
  rw [byte_putUnits]
  by_cases h : a ≤ b ∧ b < a + bs.length
  · rw [if_pos ⟨unitsOf_touch.2 ⟨b, h.1, h.2, rfl⟩, h⟩, if_pos h]
  · rw [if_neg fun hh => h hh.2, if_neg h]

theorem mark_putUnits_all (m : Mem) (a : Nat) (bs : List Byte) (v : Nat) : (m.putUnits a bs false (unitsOf a bs.length)).mark v =
    if a ≤ 8 * v ∧ 8 * v + 8 ≤ a + bs.length then false else m.mark v := by
  rw [mark_putUnits]
  by_cases h : a ≤ 8 * v ∧ 8 * v + 8 ≤ a + bs.length
  · rw [if_pos ⟨unitsOf_touch.2 ⟨8 * v, by omega, by omega, by omega⟩, h⟩, if_pos h]
  · rw [if_neg fun hh => h hh.2, if_neg h]

/-! ### The bytes that a command has read -/

theorem getElem?_flatMap_replicate8 {α : Type} (xs : List α) (g : α → Bool) (i : Nat) :
    (xs.flatMap fun x => List.replicate 8 (g x))[i]? = (xs[i / 8]?).map g := by
  induction xs generalizing i with
  | nil => simp
  | cons x r ih =>
    rw [List.flatMap_cons]
    by_cases h : i < 8
    · rw [List.getElem?_append_left (by simpa using h), Nat.div_eq_of_lt h]
      simp only [List.getElem?_replicate, h, if_true, List.getElem?_cons_zero, Option.map_some]
    · rw [List.getElem?_append_right (by simpa using h), ih, List.length_replicate, show i / 8 = (i - 8) / 8 + 1 by omega]
      rfl

/-- Bytes spread out of the units that they lie in, each unit by its number. -/
theorem spreadUnits_map (a n : Nat) (g : Nat → Word × Bool) : spreadUnits a n ((unitsOf a n).map g) =
    ((List.range n).map fun j => (g ((a + j) / 8)).1.extractLsb' (8 * ((a + j) % 8)) 8, (List.range n).map fun j => (g ((a + j) / 8)).2) := by
  unfold spreadUnits
  refine Prod.ext (List.ext_getElem? fun j => ?_) (List.ext_getElem? fun j => ?_)
  · by_cases hj : j < n
    · simp only
      rw [List.getElem?_take_of_lt hj, List.getElem?_drop, getElem?_flatMap8 _ _ (fun _ => leBytes_length _ _), List.getElem?_map,
        unitsOf_getElem a n j hj, List.getElem?_map, List.getElem?_range hj]
      simp only [Option.map_some, Option.bind_some]
      rw [getElem?_leBytes8 _ _ (by omega), show (a % 8 + j) % 8 = (a + j) % 8 by omega]
    · rw [List.getElem?_eq_none (by simp; omega), List.getElem?_eq_none (by simp; omega)]
  · by_cases hj : j < n
    · simp only
      rw [List.getElem?_take_of_lt hj, List.getElem?_drop, getElem?_flatMap_replicate8, List.getElem?_map, unitsOf_getElem a n j hj,
        List.getElem?_map, List.getElem?_range hj]
      rfl
    · rw [List.getElem?_eq_none (by simp; omega), List.getElem?_eq_none (by simp; omega)]

/-- The byte at an address of locator `k` as a command has read it, zero where it has not, and its poison. -/
def Cmd.gotByte (c : Cmd) (k a : Nat) : Byte × Bool :=
  (((c.got k (a / 8)).getD (0, false)).1.extractLsb' (8 * (a % 8)) 8, ((c.got k (a / 8)).getD (0, false)).2)

theorem bytesAt_eq (c : Cmd) (k a n : Nat) :
    c.bytesAt k a n = ((List.range n).map fun j => (c.gotByte k (a + j)).1, (List.range n).map fun j => (c.gotByte k (a + j)).2) :=
  spreadUnits_map a n fun u => (c.got k u).getD (0, false)

@[simp] theorem bytesAt_length (c : Cmd) (k a n : Nat) : (c.bytesAt k a n).1.length = n := by simp [bytesAt_eq]

theorem nth_bytesAt (c : Cmd) (k a n : Nat) {j : Nat} (hj : j < n) : nth 0 (c.bytesAt k a n).1 j = (c.gotByte k (a + j)).1 := by
  rw [bytesAt_eq, nth_map_range _ _ _ _ hj]

/-- A byte of a unit that has been read from a memory is that memory's. -/
theorem gotByte_of_got {c : Cmd} {k a : Nat} {m : Mem} (h : c.got k (a / 8) = some (m.unit (a / 8))) :
    c.gotByte k a = (m.byte a, m.mark (a / 8)) := by
  rw [Cmd.gotByte, h, Option.getD_some, memUnit_byte _ _ (Nat.mod_lt _ (by decide)), byte_div_mod]
  rfl

/-- Bytes all of whose units have been read from a memory. -/
theorem bytesAt_of_got {c : Cmd} {k a n : Nat} {m : Mem} (h : ∀ u ∈ unitsOf a n, c.got k u = some (m.unit u)) :
    (c.bytesAt k a n).1 = m.bytes a n := by
  rw [bytesAt_eq]
  refine List.map_congr_left fun j hj => ?_
  have hj := List.mem_range.1 hj
  rw [gotByte_of_got (h _ (unitsOf_touch.2 ⟨a + j, by omega, by omega, rfl⟩))]

theorem srcKey_inj {g k u v : Nat} : srcKey g k u = srcKey g k v ↔ u = v := by
  unfold srcKey
  omega

theorem got_keep (c : Cmd) (k u v : Nat) (x : Word × Bool) : (c.keep k u x).got k v = if v = u then some x else c.got k v := by
  unfold Cmd.got Cmd.keep
  dsimp only
  rw [look_put]
  simp only [srcKey_inj]

/-! ### Requests, reads and writes at a locator -/

/-- Of a core's requests to its scratchpad alone, those that wait may differ. -/
structure OnlyWaits (s : State) (core : Nat) (t : State) : Prop where
  outside : t = { s with cores := t.cores }
  other : ∀ k, k ≠ core → t.core k = s.core k
  own : ∃ w, t.core core = { s.core core with waits := w }

theorem OnlyWaits.refl (s : State) (core : Nat) : OnlyWaits s core s := ⟨rfl, fun _ _ => rfl, (s.core core).waits, rfl⟩

theorem OnlyWaits.trans {s t u : State} {core : Nat} (h : OnlyWaits s core t) (g : OnlyWaits t core u) : OnlyWaits s core u := by
  obtain ⟨w, hw⟩ := h.own
  obtain ⟨x, hx⟩ := g.own
  exact ⟨g.outside.trans (by rw [h.outside]), fun k hk => (g.other k hk).trans (h.other k hk), x, by rw [hx, hw]⟩

theorem OnlyWaits.spm {s t : State} {core : Nat} (h : OnlyWaits s core t) : (t.core core).spm = (s.core core).spm := by
  obtain ⟨w, hw⟩ := h.own
  rw [hw]

theorem OnlyWaits.ctx {s t : State} {core : Nat} (h : OnlyWaits s core t) (k : Nat) : t.ctx k = s.ctx k := by rw [h.outside]; rfl

theorem OnlyWaits.cluster {s t : State} {core : Nat} (h : OnlyWaits s core t) (k : Nat) : t.cluster k = s.cluster k := by rw [h.outside]; rfl

theorem onlyWaits_setCore (s : State) (core : Nat) (w : List Waiting) : OnlyWaits s core (s.setCore core { s.core core with waits := w }) :=
  ⟨rfl, fun _ hk => core_setCore_other _ _ hk, w, core_setCore_same ..⟩

/-- A request that no window holds is served (R280). -/
theorem askUnit_free {s : State} {core cmd u : Nat} (h : s.lockHolds core cmd u = false) :
    (s.askUnit core cmd u).2 = true ∧ OnlyWaits s core (s.askUnit core cmd u).1 := by
  unfold State.askUnit
  simp only [h, Bool.false_eq_true, if_false, true_and]
  split
  · exact .refl s core
  · exact onlyWaits_setCore ..

theorem lockHolds_unlocked {s : State} {core : Nat} (h : ∀ b, s.locked core b = false) (cmd u : Nat) : s.lockHolds core cmd u = false := by
  have hl : s.locks core (bankOf u) = [] := by simpa [State.locked] using h (bankOf u)
  unfold State.lockHolds
  dsimp only
  rw [hl]
  split <;> rfl

theorem locked_congr {s t : State} (h : ∀ k, t.ctx k = s.ctx k) (core b : Nat) : t.locked core b = s.locked core b := by
  unfold State.locked State.locks
  simp only [h]

/-- The memory of a locator that names the scratchpad or the cluster store. -/
def State.locMem (s : State) (c : Cmd) (l : Word) : Mem :=
  if locSpace l = 0 then (s.core c.core).spm else (s.cluster (clusterOf c.ctx)).store

theorem OnlyWaits.locMem {s t : State} {c : Cmd} (h : OnlyWaits s c.core t) (l : Word) : t.locMem c l = s.locMem c l := by
  unfold State.locMem
  rw [h.spm, h.cluster]

/-- A locator of the cluster store, or of a scratchpad unit that no window holds. -/
def State.freeAt (s : State) (c : Cmd) (l : Word) (u : Nat) : Prop :=
  locSpace l = 1 ∨ (locSpace l = 0 ∧ s.lockHolds c.core c.id u = false)

theorem freeAt_unlocked {s : State} {c : Cmd} {l : Word} (hl : locSpace l < 2) (h : ∀ b, s.locked c.core b = false) (u : Nat) :
    s.freeAt c l u := by
  rcases Nat.lt_succ_iff_lt_or_eq.1 hl with h0 | h1
  · exact .inr ⟨by omega, lockHolds_unlocked h ..⟩
  · exact .inl h1

theorem State.freeAt.space {s : State} {c : Cmd} {l : Word} {u : Nat} (h : s.freeAt c l u) : locSpace l < 2 := by
  unfold State.freeAt at h
  omega

theorem locReach_free {s : State} {c : Cmd} {l : Word} {u : Nat} (h : s.freeAt c l u) :
    (s.locReach c l u).2 = true ∧ OnlyWaits s c.core (s.locReach c l u).1 := by
  unfold State.locReach
  rcases h with h | ⟨h, hf⟩
  · rw [h]
    exact ⟨rfl, .refl ..⟩
  · rw [h]
    exact askUnit_free hf

theorem readLoc_near {s : State} {c : Cmd} {l : Word} (h : locSpace l < 2) (u : Nat) : s.readLoc c l u = (s, (s.locMem c l).unit u) := by
  unfold State.readLoc State.locMem
  interval_cases locSpace l <;> rfl

/-- A write at a locator of the scratchpad or of the cluster store changes that memory, and nothing but that memory. -/
theorem writeLoc_near {s : State} {c : Cmd} {l : Word} (h : locSpace l < 2) (u mask : Nat) (data : Word) (psn : Bool) :
    (s.writeLoc c l u mask data psn).locMem c l = (s.locMem c l).blend u mask data psn ∧
    ∃ co cl, s.writeLoc c l u mask data psn = { s with cores := co, clusters := cl } := by
  unfold State.writeLoc State.locMem
  interval_cases hl : locSpace l
  · exact ⟨by simp, _, _, rfl⟩
  · exact ⟨by simp, _, _, rfl⟩

/-! ### Units read in turn -/

/-- A unit that has been read stands as it was read; any other is asked for. -/
theorem pull_cons_got {s : State} {c : Cmd} {l : Word} {k u : Nat} (h : (c.got k u).isSome = true) (us : List Nat) :
    s.pull c l k (u :: us) = s.pull c l k us := by
  rw [State.pull, List.foldl_cons, if_pos h]
  rfl

theorem pull_cons_free {s : State} {c : Cmd} {l : Word} {k u : Nat} (h : ¬(c.got k u).isSome = true) (hf : s.freeAt c l u) (us : List Nat) :
    s.pull c l k (u :: us) = (s.locReach c l u).1.pull (c.keep k u ((s.locMem c l).unit u)) l k us := by
  obtain ⟨hr, hw⟩ := locReach_free hf
  unfold State.pull
  rw [List.foldl_cons]
  congr 1
  simp only [h, hr, readLoc_near hf.space, hw.locMem, Bool.not_true, Bool.false_eq_true, if_false]

/-- Every unit asked for and not read before is read, where no window holds the core's banks. -/
theorem pull_free {l : Word} {k : Nat} (hl : locSpace l < 2) (us : List Nat) (s : State) (c : Cmd) (h : ∀ b, s.locked c.core b = false) :
    OnlyWaits s c.core (s.pull c l k us).1 ∧ (s.pull c l k us).2 = { c with src := (s.pull c l k us).2.src } ∧
    ∀ u, (s.pull c l k us).2.got k u = if u ∈ us then some ((c.got k u).getD ((s.locMem c l).unit u)) else c.got k u := by
  induction us generalizing s c with
  | nil => exact ⟨.refl .., rfl, fun u => by simp [State.pull]⟩
  | cons u us ih =>
    by_cases hg : (c.got k u).isSome = true
    · rw [pull_cons_got hg]
      obtain ⟨h1, h2, h3⟩ := ih s c h
      refine ⟨h1, h2, fun v => ?_⟩
      rw [h3]
      by_cases hv : v = u
      · subst hv
        obtain ⟨x, hx⟩ := Option.isSome_iff_exists.1 hg
        simp [hx]
      · simp [hv]
    · have hf : s.freeAt c l u := freeAt_unlocked hl h u
      have hw := (locReach_free hf).2
      rw [pull_cons_free hg hf]
      obtain ⟨h1, h2, h3⟩ := ih (s.locReach c l u).1 (c.keep k u ((s.locMem c l).unit u)) fun b => by
        rw [← h b]
        exact locked_congr hw.ctx ..
      refine ⟨hw.trans h1, by rw [h2]; rfl, fun v => ?_⟩
      rw [h3, got_keep, show State.locMem _ (c.keep k u ((s.locMem c l).unit u)) l = s.locMem c l from hw.locMem l]
      have hn : c.got k u = none := by simpa using hg
      by_cases hv : v = u
      · subst hv
        simp [hn]
      · simp [hv]

/-- What has been pulled by a command that had read nothing. -/
theorem pull_fresh {l : Word} {k : Nat} (hl : locSpace l < 2) {us : List Nat} {s : State} {c : Cmd} (h : ∀ b, s.locked c.core b = false)
    (hs : c.src = []) : (s.pull c l k us).2.pulled k us = true ∧
      ∀ u, (s.pull c l k us).2.got k u = if u ∈ us then some ((s.locMem c l).unit u) else none := by
  obtain ⟨-, -, hgot⟩ := pull_free (k := k) hl us s c h
  have hnone (u : Nat) : c.got k u = none := by rw [Cmd.got, hs]; rfl
  have hall : ∀ u, (s.pull c l k us).2.got k u = if u ∈ us then some ((s.locMem c l).unit u) else none := fun u => by
    rw [hgot, hnone]
    rfl
  refine ⟨List.all_eq_true.2 fun u hu => ?_, hall⟩
  rw [hall, if_pos hu]
  rfl

end Sys2Proof.Machine
end

section
/-! PROOFS. The matrix queue: the routine taken up, and its start (spec/08 R200 to R203). -/

namespace Sys2Proof.Machine

/-! ### The routine of highest priority (R201) -/

theorem bestOf_eq_none {s : State} {l : List Cmd} (h : s.bestOf l = none) : l = [] := by
  cases l with
  | nil => rfl
  | cons c r =>
    unfold State.bestOf at h
    split at h
    · cases h
    · split at h <;> cases h

/-- The best of some routines is the first of those of highest effective priority. -/
theorem bestOf_eq_some {s : State} {l : List Cmd} {c : Cmd} : s.bestOf l = some c ↔
    ∃ a b, l = a ++ c :: b ∧ (∀ e ∈ a, s.effPrio e < s.effPrio c) ∧ ∀ e ∈ b, s.effPrio e ≤ s.effPrio c := by
  induction l generalizing c with
  | nil => simp [State.bestOf]
  | cons x r ih =>
    constructor
    · intro h
      unfold State.bestOf at h
      split at h
      next hr =>
        cases h
        exact ⟨[], r, rfl, by simp, by simp [bestOf_eq_none hr]⟩
      next d hr =>
        obtain ⟨a, b, hl, ha, hb⟩ := ih.1 hr
        split at h
        next hd =>
          cases h
          refine ⟨[], r, rfl, by simp, fun e he => ?_⟩
          rw [hl, List.mem_append, List.mem_cons] at he
          rcases he with he | rfl | he
          · exact (Nat.le_of_lt (ha e he)).trans hd
          · exact hd
          · exact (hb e he).trans hd
        next hd =>
          cases h
          exact ⟨x :: a, b, by rw [hl]; rfl, fun e he => by
            rcases List.mem_cons.1 he with rfl | he
            · exact Nat.lt_of_not_le hd
            · exact ha e he, hb⟩
    · rintro ⟨a, b, hl, ha, hb⟩
      cases a with
      | nil =>
        obtain ⟨rfl, rfl⟩ := List.cons.inj hl
        unfold State.bestOf
        split
        · rfl
        next d hr =>
          obtain ⟨a', b', hl', -, -⟩ := ih.1 hr
          exact if_pos (hb d (by rw [hl']; simp))
      | cons y a =>
        obtain ⟨rfl, rfl⟩ := List.cons.inj hl
        unfold State.bestOf
        rw [ih.2 ⟨a, b, rfl, fun e he => ha e (List.mem_cons_of_mem _ he), hb⟩]
        exact if_neg (Nat.not_le_of_lt (ha x (List.mem_cons_self ..)))

theorem nextRoutine_idle {s : State} {core : Nat} (h : ∀ e ∈ (s.core core).mq, e.op = 3 → e.running = false) :
    s.nextRoutine core = s.bestOf ((s.core core).mq.filter (s.core core).readyRoutine) := by
  have hn : (s.core core).running = none := by
    unfold Core.running
    simpa using h
  unfold State.nextRoutine
  dsimp only
  rw [hn]

/-! ### Consumed tokens (R200) -/

theorem ready_eq_false {c : Cmd} : c.ready = false ↔ ∃ r, TokVal.await r ∈ c.toks := by
  unfold Cmd.ready
  rw [List.all_eq_false]
  constructor
  · rintro ⟨t, ht, hf⟩
    cases t with
    | have_ w psn => simp [TokVal.arrived] at hf
    | await r => exact ⟨r, ht⟩
  · rintro ⟨r, hr⟩
    exact ⟨_, hr, by simp [TokVal.arrived]⟩

/-- Of tokens that have all completed, one that is poisoned or no success makes the command fail. -/
theorem good_eq_false {c : Cmd} (h : ¬∃ r, TokVal.await r ∈ c.toks) : c.good = false ↔
    ∃ w psn, TokVal.have_ w psn ∈ c.toks ∧ (psn = true ∨ bits w 32 16 ∉ [0x00, 0x17, 0x0E]) := by
  unfold Cmd.good
  rw [List.all_eq_false]
  have key (w : Word) (psn : Bool) : ¬(TokVal.have_ w psn).good = true ↔ psn = true ∨ bits w 32 16 ∉ [0x00, 0x17, 0x0E] := by
    simp only [TokVal.good, isSuccess, stOk, stUnverified, stPinned, List.mem_cons, List.not_mem_nil, or_false]
    cases psn <;> simp [and_assoc]
  constructor
  · rintro ⟨t, ht, hf⟩
    cases t with
    | have_ w psn => exact ⟨w, psn, ht, (key w psn).1 hf⟩
    | await r => exact absurd ⟨r, ht⟩ h
  · rintro ⟨w, psn, ht, hf⟩
    exact ⟨_, ht, (key w psn).2 hf⟩

/-! ### The banks that a command names as it starts (R342) -/

theorem spills_nameBankFor (s : State) (k b : Nat) : Spills s (s.nameBankFor k b) := by
  unfold State.nameBankFor
  dsimp only
  generalize hu : (if look 0 (s.core (coreOf k)).accBy b ≠ (s.ctx k).arch.info.uid ∧
    ((List.find? (fun p => p.1 == b) (s.ctx k).arch.accs).isSome = true ∨
      (!s.taskOn (coreOf k) (look 0 (s.core (coreOf k)).accBy b)) = true) then s.spillBank (coreOf k) b else s) = u
  have h : Spills s u := by
    rw [← hu]
    split
    · exact spills_spillBank ..
    · exact .refl s
  split
  · refine (h.trans (spills_setCore ..)).trans ⟨⟨_, _, _, rfl⟩, fun j => ?_, fun c => ⟨_, rfl⟩⟩
    rw [ctx_setCtx]
    by_cases hj : j = k
    · rw [if_pos hj, hj]
      exact ⟨_, rfl⟩
    · rw [if_neg hj]
      exact ⟨_, rfl⟩
  · exact h.trans (spills_setCore ..)

theorem spills_claimBanks (s : State) (c : Cmd) : Spills s (s.claimBanks c) :=
  Spills.foldl (fun t b => spills_nameBankFor t c.ctx b) c.banks s

/-- Naming banks leaves every matrix queue. -/
theorem claimBanks_queues (s : State) (c : Cmd) (k : Nat) :
    ((s.claimBanks c).core k).mq = (s.core k).mq ∧ ((s.claimBanks c).core k).mqstat = (s.core k).mqstat := by
  have hset {γ : Type} (π : Core → γ) (t : State) (j : Nat) (x : Core) (h : π x = π (t.core j)) : π ((t.setCore j x).core k) = π (t.core k) := by
    rw [core_setCore]
    split
    next he => rw [h, he]
    · rfl
  have hspill {γ : Type} (π : Core → γ) (hπ : ∀ (x : Core) m, π { x with accBy := m } = π x) (t : State) (j b : Nat) :
      π ((t.spillBank j b).core k) = π (t.core k) := by
    unfold State.spillBank
    dsimp only
    split
    · rfl
    · exact hset π t j _ (hπ ..)
  have hname {γ : Type} (π : Core → γ) (hπ : ∀ (x : Core) m, π { x with accBy := m } = π x) (hf : ∀ (x : Core) b rows, π (x.fillBank b rows) = π x)
      (t : State) (b : Nat) : π ((t.nameBankFor c.ctx b).core k) = π (t.core k) := by
    unfold State.nameBankFor
    dsimp only
    split
    · rw [core_setCtx, hset π _ _ _ ((hπ ..).trans (hf ..))]
      split
      · exact hspill π hπ ..
      · rfl
    · rw [hset π _ _ _ (hπ ..)]
      split
      · exact hspill π hπ ..
      · rfl
  exact ⟨foldl_keeps (fun t : State => (t.core k).mq) _ (fun t b => hname Core.mq (fun _ _ => rfl) (fun _ _ _ => rfl) t b) _ _,
    foldl_keeps (fun t : State => (t.core k).mqstat) _ (fun t b => hname Core.mqstat (fun _ _ => rfl) (fun _ _ _ => rfl) t b) _ _⟩

/-- A bank that its task has never left: it holds no contents put aside, and the bank's holder is it or stands on the core. -/
def State.bankStands (s : State) (k b : Nat) : Prop :=
  (∀ p ∈ (s.ctx k).arch.accs, p.1 ≠ b) ∧
  (look 0 (s.core (coreOf k)).accBy b = (s.ctx k).arch.info.uid ∨ s.taskOn (coreOf k) (look 0 (s.core (coreOf k)).accBy b) = true)

theorem nameBankFor_standing {s : State} {k b : Nat} (h : s.bankStands k b) : s.nameBankFor k b =
    s.setCore (coreOf k) { s.core (coreOf k) with accBy := put 0 (s.core (coreOf k)).accBy b (s.ctx k).arch.info.uid } := by
  obtain ⟨hkept, hheld⟩ := h
  have hf : (s.ctx k).arch.accs.find? (fun p => p.1 == b) = none := by simpa using hkept
  unfold State.nameBankFor
  dsimp only
  rw [hf]
  have hn : ¬(look 0 (s.core (coreOf k)).accBy b ≠ (s.ctx k).arch.info.uid ∧
      ((none : Option (Nat × FMap AccRow)).isSome = true ∨ (!s.taskOn (coreOf k) (look 0 (s.core (coreOf k)).accBy b)) = true)) := by
    rintro ⟨hne, hx⟩
    rcases hheld with he | ht
    · exact hne he
    · simp [ht] at hx
  rw [if_neg hn]

/-- A bank named leaves every bank standing that stood. -/
theorem standing_nameBankFor {s : State} {k b n : Nat} (h : s.bankStands k b) (hn : s.bankStands k n) : (s.nameBankFor k b).bankStands k n := by
  rw [nameBankFor_standing h]
  refine ⟨hn.1, ?_⟩
  rw [core_setCore_same]
  dsimp only
  rw [look_put]
  split
  · exact .inl rfl
  · exact hn.2

/-- A command whose task stands in its banks changes nothing but who named them. -/
theorem claimBanks_standing {s : State} {c : Cmd} (h : ∀ b ∈ c.banks, s.bankStands c.ctx b) :
    s.claimBanks c = { s with cores := (s.claimBanks c).cores } := by
  unfold State.claimBanks
  generalize c.banks = l at h
  induction l generalizing s with
  | nil => rfl
  | cons b r ih =>
    have hb := h b (List.mem_cons_self ..)
    rw [List.foldl_cons, ih fun n hn => standing_nameBankFor hb (h n (List.mem_cons_of_mem _ hn)), nameBankFor_standing hb]
    rfl

/-! ### One move of a routine's command (R201, R202) -/

@[simp] theorem setMatrix_mq (s : State) (core : Nat) (c : Cmd) : ((s.setMatrix core c).core core).mq =
    (s.core core).mq.map fun e => if e.id = c.id then c else e := by
  rw [State.setMatrix, core_setCore_same]

/-- The queue once a routine has been taken up: the one that ran is suspended. -/
theorem takeRoutine_mq (s : State) (core : Nat) (c : Cmd) : ((s.takeRoutine core c).core core).mq = (s.core core).mq.map fun e =>
    if e.id = c.id then { c with running := true } else if e.op = 3 then { e with running := false } else e := by
  rw [State.takeRoutine, setMatrix_mq, core_setCore_same, List.map_map]
  refine List.map_congr_left fun e _ => ?_
  dsimp only [Function.comp]
  have hid : (if e.op = 3 then ({ e with running := false } : Cmd) else e).id = e.id := by split <;> rfl
  rw [hid]

section
variable {s : State} {n core id : Nat} {c : Cmd} {bad : Cmd → Bool} {advance : State → Cmd → State × Cmd}
  (hf : (s.core core).mq.find? (fun e => e.id == id) = some c)
include hf

theorem runRoutine_stands (h : c.op ≠ 3 ∨ c.routine ≠ n ∨ s.still core = true ∨ c.finished = true ∨ (c.started = false ∧ c.ready = false)) :
    s.runRoutine n core id (startWith bad) advance = s := by
  unfold State.runRoutine
  rw [hf]
  dsimp only
  by_cases hm : c.op ≠ 3 ∨ c.routine ≠ n ∨ s.still core = true ∨ c.finished = true
  · rw [if_pos hm]
  · rw [if_neg hm]
    have hw : c.started = false ∧ c.ready = false := by tauto
    simp [hw.1, hw.2]

variable (hm : ¬(c.op ≠ 3 ∨ c.routine ≠ n ∨ s.still core = true ∨ c.finished = true))
include hm

theorem runRoutine_fails (hs : c.started = false) (hr : c.ready = true) (hg : c.good = false) :
    s.runRoutine n core id (startWith bad) advance = s.setMatrix core c.cancel := by
  unfold State.runRoutine
  rw [hf]
  simp [hm, hs, hr, hg]

theorem runRoutine_lacks (hs : c.started = false) (hr : c.ready = true) (hg : c.good = true) (hl : c.lacks = true) :
    s.runRoutine n core id (startWith bad) advance = s.setMatrix core (c.end_ stNoroutine 0 0) := by
  unfold State.runRoutine
  rw [hf]
  simp [hm, hs, hr, hg, hl]

/-- A routine whose token, library and parameters let it start, or that has started, and that does not run. -/
theorem runRoutine_notTaken (hg : c.started = true ∨ (c.ready = true ∧ c.good = true ∧ c.lacks = false)) (hu : c.running = false)
    (ht : s.nextRoutine core ≠ some c) : s.runRoutine n core id (startWith bad) advance = s := by
  unfold State.runRoutine
  rw [hf]
  rcases hg with hs | ⟨hr, hg, hl⟩
  · simp [hm, hs, hu, ht]
  · simp [hm, hr, hg, hl, hu, ht]

theorem runRoutine_starts (hs : c.started = false) (hr : c.ready = true) (hg : c.good = true) (hl : c.lacks = false) (hu : c.running = false)
    (ht : s.nextRoutine core = some c) : s.runRoutine n core id (startWith bad) advance =
      if bad c = true then (s.claimBanks c).setMatrix core (c.end_ stBadparam 0 0)
      else (s.claimBanks c).takeRoutine core ((s.claimBanks c).begin_ c []) := by
  have hfin : c.finished = false := by simpa using fun h => hm (.inr (.inr (.inr h)))
  unfold State.runRoutine
  rw [hf]
  dsimp only
  rw [if_neg hm]
  by_cases hb : bad c = true
  · simp [hs, hr, hg, hl, hu, ht, hb, startWith, Cmd.end_]
  · have hb' : bad c = false := by simpa using hb
    simp [hs, hr, hg, hl, hu, ht, hb', startWith, State.begin_, hfin]

theorem runRoutine_resumes (hs : c.started = true) (hu : c.running = false) (ht : s.nextRoutine core = some c) :
    s.runRoutine n core id (startWith bad) advance = s.takeRoutine core c := by
  unfold State.runRoutine
  rw [hf]
  simp [hm, hs, hu, ht]

theorem runRoutine_overtaken (hs : c.started = true) (hu : c.running = true) (ht : s.nextRoutine core ≠ none) :
    s.runRoutine n core id (startWith bad) advance = s := by
  unfold State.runRoutine
  rw [hf]
  obtain ⟨d, hd⟩ := Option.ne_none_iff_exists'.1 ht
  simp [hm, hs, hu, hd]

theorem runRoutine_advances (hs : c.started = true) (hu : c.running = true) (ht : s.nextRoutine core = none) :
    s.runRoutine n core id (startWith bad) advance = (advance s c).1.setMatrix core (advance s c).2 := by
  unfold State.runRoutine
  rw [hf]
  simp [hm, hs, hu, ht]

end

end Sys2Proof.Machine
end

section
/-! PROOFS. What one move of a routine's command does before it runs (spec/08 R200 to R203). -/

namespace Sys2Proof.Machine

/-- Command `c` after a change, in its queues and nothing else. -/
def BecomesInQueue (s : State) (core : Nat) (c y : Cmd) (t : State) : Prop := t = s.setCore core { s.core core with
  mq := (s.core core).mq.map (fun e => if e.id = c.id then y else e)
  mqstat := (s.core core).mqstat.map fun e => if e.id = c.id then y else e }

/-- The command at its end before it has run. -/
def Cmd.over (c : Cmd) (code : Nat) (banks : List Nat) : Cmd := { c with
  started := true, running := false, finished := true, status := code, result := 0, written := 0, banks := banks }

/-- What a move of routine `n`'s command, whose parameters `bad` judges, does while the routine does not run: what the statement says of
each of the routines. -/
def RoutineMoves (i : Instr) (n : Nat) (bad : Cmd → Bool) (core id : Nat) (s : State) : Prop :=
  ((s.core core).mq.find? (fun e => e.id == id) = none → Idles i s) ∧
  ∀ c, (s.core core).mq.find? (fun e => e.id == id) = some c →
    let ends (code : Nat) (banks : List Nat) : Prop := ∃ t, exec i s = .next t ∧ BecomesInQueue s core c (c.over code banks) t
    let failed : Prop := ∃ w psn, TokVal.have_ w psn ∈ c.toks ∧ (psn = true ∨ bits w 32 16 ∉ [0x00, 0x17, 0x0E])
    let waits : Prop := ∃ r, TokVal.await r ∈ c.toks
    let mine : Prop := c.op = 3 ∧ c.routine = n ∧ s.still core = false ∧ c.finished = false
    let named : Prop := coreOf c.ctx = core ∧ ∀ b ∈ c.banks, (∀ p ∈ (s.ctx c.ctx).arch.accs, p.1 ≠ b) ∧
      (look 0 (s.core core).accBy b = (s.ctx c.ctx).arch.info.uid ∨ s.taskOn core (look 0 (s.core core).accBy b) = true)
    let queue (t : State) (y : Cmd) (others : Cmd → Cmd) : Prop :=
      (t.core core).mq = (s.core core).mq.map fun e => if e.id = c.id then y else others e
    let suspended (e : Cmd) : Cmd := if e.op = 3 then { e with running := false } else e
    (¬mine ∨ (c.started = false ∧ waits) → Idles i s) ∧
    (mine → c.started = false → ¬waits → failed → ends 0x01 []) ∧
    (mine → c.started = false → ¬waits → ¬failed → c.lacks = true → ends 0x19 c.banks) ∧
    (mine → c.started = false → ¬waits → ¬failed → c.lacks = false → c.running = false →
      (s.nextRoutine core ≠ some c → Idles i s) ∧
      (s.nextRoutine core = some c → bad c = true → ∃ t, exec i s = .next t ∧ t.mem = s.mem ∧
        (named → t = { s with cores := t.cores }) ∧ queue t (c.over 0x02 c.banks) fun e => e) ∧
      (s.nextRoutine core = some c → ¬bad c = true → ∃ t, exec i s = .next t ∧ t.mem = s.mem ∧
        (named → t = { s with cores := t.cores }) ∧
        queue t { c with started := true, running := true, extents := (s.ctx c.ctx).arch.extents, pages := (s.ctx c.ctx).arch.ePages, lag := [] }
          suspended)) ∧
    (mine → c.started = true → c.running = false → s.nextRoutine core = some c →
      ∃ t, exec i s = .next t ∧ t = { s with cores := t.cores } ∧ queue t { c with running := true } suspended) ∧
    (mine → c.started = true → c.running = true → s.nextRoutine core ≠ none → Idles i s)

/-- Once its banks are named, the command has the extents of its context as they stood. -/
theorem begin_claimBanks (s : State) (c : Cmd) : (s.claimBanks c).begin_ c [] = { c with
    started := true, running := true, extents := (s.ctx c.ctx).arch.extents, pages := (s.ctx c.ctx).arch.ePages, lag := [] } := by
  obtain ⟨m, hm⟩ := (spills_claimBanks s c).ctx c.ctx
  unfold State.begin_
  rw [hm]
  rfl

theorem claimBanks_mem (s : State) (c : Cmd) : (s.claimBanks c).mem = s.mem := by
  obtain ⟨cs, cl, co, h⟩ := (spills_claimBanks s c).outside
  rw [h]

theorem routineMoves_of {i : Instr} {n core id : Nat} {bad : Cmd → Bool} {advance : State → Cmd → State × Cmd} {s : State}
    (hi : exec i s = .next (s.runRoutine n core id (startWith bad) advance)) : RoutineMoves i n bad core id s := by
  refine ⟨fun hf => ?_, fun c hf => ?_⟩
  · rw [Idles, hi, State.runRoutine, hf]
  · have stays (h : s.runRoutine n core id (startWith bad) advance = s) : Idles i s := by rw [Idles, hi, h]
    have hmine (h : c.op = 3 ∧ c.routine = n ∧ s.still core = false ∧ c.finished = false) :
        ¬(c.op ≠ 3 ∨ c.routine ≠ n ∨ s.still core = true ∨ c.finished = true) := by simp [h]
    have hready (h : ¬∃ r, TokVal.await r ∈ c.toks) : c.ready = true := by simpa using fun hr => h (ready_eq_false.1 hr)
    have hgood (h : ¬∃ r, TokVal.await r ∈ c.toks)
        (hn : ¬∃ w psn, TokVal.have_ w psn ∈ c.toks ∧ (psn = true ∨ bits w 32 16 ∉ [0x00, 0x17, 0x0E])) : c.good = true := by
      simpa using fun hg => hn ((good_eq_false h).1 hg)
    have hnamed (hn : coreOf c.ctx = core ∧ ∀ b ∈ c.banks, (∀ p ∈ (s.ctx c.ctx).arch.accs, p.1 ≠ b) ∧
        (look 0 (s.core core).accBy b = (s.ctx c.ctx).arch.info.uid ∨ s.taskOn core (look 0 (s.core core).accBy b) = true)) :
        s.claimBanks c = { s with cores := (s.claimBanks c).cores } := by
      obtain ⟨rfl, hb⟩ := hn
      exact claimBanks_standing hb
    refine ⟨fun h => stays (runRoutine_stands hf ?_), fun hm hs hw hx => ⟨_, hi, ?_⟩, fun hm hs hw hx hl => ⟨_, hi, ?_⟩,
      fun hm hs hw hx hl hu => ⟨fun ht => stays ?_, fun ht hb => ⟨_, hi, ?_⟩, fun ht hb => ⟨_, hi, ?_⟩⟩, fun hm hs hu ht => ⟨_, hi, ?_⟩,
      fun hm hs hu ht => stays (runRoutine_overtaken hf (hmine hm) hs hu ht)⟩
    · rcases h with h | ⟨hs, hw⟩
      · by_contra hn
        refine h ⟨?_, ?_, ?_, ?_⟩ <;> simp_all
      · exact .inr (.inr (.inr (.inr ⟨hs, ready_eq_false.2 hw⟩)))
    · rw [runRoutine_fails hf (hmine hm) hs (hready hw) ((good_eq_false hw).2 hx)]
      rfl
    · rw [runRoutine_lacks hf (hmine hm) hs (hready hw) (hgood hw hx) hl]
      rfl
    · exact runRoutine_notTaken hf (hmine hm) (.inr ⟨hready hw, hgood hw hx, hl⟩) hu ht
    · rw [runRoutine_starts hf (hmine hm) hs (hready hw) (hgood hw hx) hl hu ht, if_pos hb]
      refine ⟨claimBanks_mem s c, fun hn => ?_, ?_⟩
      · rw [State.setMatrix, State.setCore, hnamed hn]
      · exact (setMatrix_mq ..).trans (by rw [(claimBanks_queues s c core).1]; rfl)
    · rw [runRoutine_starts hf (hmine hm) hs (hready hw) (hgood hw hx) hl hu ht, if_neg hb, begin_claimBanks]
      refine ⟨claimBanks_mem s c, fun hn => ?_, ?_⟩
      · rw [State.takeRoutine, State.setMatrix, State.setCore, State.setCore, hnamed hn]
      · exact (takeRoutine_mq ..).trans (by rw [(claimBanks_queues s c core).1])
    · rw [runRoutine_resumes hf (hmine hm) hs hu ht]
      exact ⟨rfl, takeRoutine_mq ..⟩

end Sys2Proof.Machine
end

section
/-! PROOFS. Sums added to an accumulator element stay within its format (spec/02 R46, R64 to R66). -/

namespace Sys2Proof.Machine

/-! ### A rounded result fits its format -/

theorem signBits_add_lt {f : FpFmt} {neg : Bool} {x : Nat} (h : x < 2 ^ (f.eb + f.fb)) : f.signBits neg + x < 2 ^ f.width := by
  have hw : 2 ^ f.width = 2 ^ (f.eb + f.fb) + 2 ^ (f.eb + f.fb) := by rw [FpFmt.width, pow_succ]; omega
  unfold FpFmt.signBits
  cases neg <;> simp <;> omega

theorem topExp_lt (f : FpFmt) : (2 ^ f.eb - 1) * 2 ^ f.fb + 2 ^ f.fb = 2 ^ (f.eb + f.fb) := by
  have : 0 < 2 ^ f.eb := by positivity
  rw [← Nat.succ_mul, pow_add]
  congr 1
  omega

theorem infBits_lt (f : FpFmt) (neg : Bool) : f.infBits neg < 2 ^ f.width := by
  have : 0 < 2 ^ f.fb := by positivity
  have := topExp_lt f
  exact signBits_add_lt (by omega)

section
variable {f : FpFmt} (hn : f.nans = 0)
include hn

theorem qnan_lt (hf : 0 < f.fb) : f.qnan < 2 ^ f.width := by
  have h1 : 2 ^ (f.fb - 1) < 2 ^ f.fb := Nat.pow_lt_pow_right (by decide) (by omega)
  have h2 := topExp_lt f
  have h3 := signBits_add_lt (f := f) (neg := false) (x := f.qnan) (by simp only [FpFmt.qnan, hn]; simp; omega)
  simpa [FpFmt.signBits] using h3

theorem maxMag_lt : f.maxMag < 2 ^ (f.eb + f.fb) := by
  have : 0 < 2 ^ f.fb := by positivity
  have := topExp_lt f
  simp only [FpFmt.maxMag, hn]
  omega

theorem overflowBits_lt (r : Rnd) (neg : Bool) (m : Nat) (e : Int) (sticky : Bool) : overflowBits f r neg m e sticky < 2 ^ f.width := by
  have h1 := signBits_add_lt (neg := neg) (maxMag_lt hn)
  have h2 := infBits_lt f neg
  unfold overflowBits
  dsimp only
  repeat' split
  all_goals assumption

theorem fpRound_lt (hf : 0 < f.fb) (r : Rnd) (x : Fp) : (fpRound f r x).1 < 2 ^ f.width := by
  unfold fpRound
  cases x with
  | nan g p => exact qnan_lt hn hf
  | inf neg => simpa [hn] using infBits_lt f neg
  | zero neg => exact signBits_add_lt (x := 0) (by positivity)
  | fin neg m e sticky =>
    dsimp only
    split
    · exact overflowBits_lt hn ..
    · exact signBits_add_lt (lt_of_le_of_lt (Nat.le_of_not_lt ‹_›) (maxMag_lt hn))

end

/-- An accumulator element after one more sum. -/
theorem accAdd_lt {kind : Nat} (hk : kind = fFp32 ∨ kind = fFp64 ∨ kind = fInt32) (acc : Nat) (x : Fp) : (accAdd kind acc x).1 < 2 ^ fmtWidth kind := by
  by_cases hi : kind = fInt32
  · subst hi
    simp only [accAdd, if_true, ofSigned, show fmtWidth fInt32 = 32 from rfl]
    omega
  · have hf : (fpOf kind).nans = 0 ∧ 0 < (fpOf kind).fb ∧ (fpOf kind).width = fmtWidth kind := by
      rcases hk with rfl | rfl | rfl
      · decide
      · decide
      · exact absurd rfl hi
    obtain ⟨hn, hfb, hw⟩ := hf
    rw [← hw]
    unfold accAdd
    rw [if_neg hi]
    dsimp only
    split
    · exact qnan_lt hn hfb
    · split
      · split
        · exact infBits_lt ..
        · exact qnan_lt hn hfb
      · exact fpRound_lt hn hfb ..

theorem accFmt_cases (af : Nat) : accFmt af = fFp32 ∨ accFmt af = fFp64 ∨ accFmt af = fInt32 := by
  unfold accFmt
  split
  · simp
  · split <;> simp

/-! ### Groups of products (R65) -/

theorem accGroups_fst (kind : Nat) (gs : List (List (Fp × Fp))) (r : Nat × Nat) :
    (accGroups kind gs r).1 = gs.foldl (fun acc g => (accAdd kind acc (groupSum g)).1) r.1 := by
  induction gs generalizing r with
  | nil => rfl
  | cons g t ih => rw [accGroups, ih]; rfl

/-- Sums added in order to an element of the format give one. -/
theorem sums_lt {kind : Nat} (hk : kind = fFp32 ∨ kind = fFp64 ∨ kind = fInt32) (gs : List (List (Fp × Fp))) {x : Nat}
    (hx : x < 2 ^ fmtWidth kind) : gs.foldl (fun acc g => (accAdd kind acc (groupSum g)).1) x < 2 ^ fmtWidth kind := by
  induction gs generalizing x with
  | nil => exact hx
  | cons g t ih => exact ih (accAdd_lt hk ..)

/-- A group with a NaN operand, with a zero against an infinity, or with opposed infinities has a NaN as its sum (R65). -/
theorem groupSum_nan {ps : List (Fp × Fp)} (h : (∃ p ∈ ps, p.1.isNan = true ∨ p.2.isNan = true ∨ zeroTimesInf p.1 p.2 = true) ∨
    ((∃ p ∈ ps, fpMul p.1 p.2 = .inf false) ∧ ∃ p ∈ ps, fpMul p.1 p.2 = .inf true)) : groupSum ps = .nan false 0 := by
  unfold groupSum
  by_cases hb : (ps.any fun p => p.1.isNan || p.2.isNan || zeroTimesInf p.1 p.2) = true
  · rw [if_pos hb]
  · rw [if_neg hb]
    rcases h with ⟨p, hp, hn⟩ | ⟨⟨p, hp, hpos⟩, q, hq, hneg⟩
    · exact absurd (List.any_eq_true.2 ⟨p, hp, by simpa [or_assoc] using hn⟩) hb
    · have h1 : (ps.map fun p => fpMul p.1 p.2).contains (.inf true) = true :=
        List.contains_iff_mem.2 (List.mem_map.2 ⟨q, hq, hneg⟩)
      have h2 : (ps.map fun p => fpMul p.1 p.2).contains (.inf false) = true :=
        List.contains_iff_mem.2 (List.mem_map.2 ⟨p, hp, hpos⟩)
      dsimp only
      rw [h1, h2]
      rfl

/-- A NaN sum makes the element the canonical NaN, and raises no flag. -/
theorem accAdd_nan {kind : Nat} (hk : kind ≠ fInt32) (acc : Nat) : accAdd kind acc (.nan false 0) = ((fpOf kind).qnan, 0) := by
  simp [accAdd, hk, Fp.isNan]

end Sys2Proof.Machine
end

section
/-! PROOFS. A step over the rows of a tile, bank by bank (spec/08 R198, R217, R227). -/

namespace Sys2Proof.Machine

/-- Steps each of which changes its own keys alone, each of them by what stood there. -/
theorem foldl_disjoint {σ κ β V : Type} {read : σ → κ → V} {g : σ → β → σ} {mine : β → κ → Prop} {F : β → κ → V → V} (l : List β)
    (hin : ∀ b ∈ l, ∀ r k, mine b k → read (g r b) k = F b k (read r k)) (hout : ∀ b ∈ l, ∀ r k, ¬mine b k → read (g r b) k = read r k)
    (hl : l.Pairwise fun b d => ∀ k, mine b k → ¬mine d k) (r : σ) :
    (∀ b ∈ l, ∀ k, mine b k → read (l.foldl g r) k = F b k (read r k)) ∧
    ∀ k, (∀ b ∈ l, ¬mine b k) → read (l.foldl g r) k = read r k := by
  induction l generalizing r with
  | nil => exact ⟨fun b hb => absurd hb (List.not_mem_nil), fun k _ => rfl⟩
  | cons x l ih =>
    obtain ⟨hx, hl⟩ := List.pairwise_cons.1 hl
    obtain ⟨h1, h2⟩ := ih (fun b hb => hin b (List.mem_cons_of_mem _ hb)) (fun b hb => hout b (List.mem_cons_of_mem _ hb)) hl (g r x)
    have hx0 := List.mem_cons_self (a := x) (l := l)
    refine ⟨fun b hb k hk => ?_, fun k hk => ?_⟩
    · rcases List.mem_cons.1 hb with rfl | hb
      · rw [List.foldl_cons, h2 k fun d hd => hx d hd k hk, hin b hx0 r k hk]
      · rw [List.foldl_cons, h1 b hb k hk, hout x hx0 r k fun hxk => hx b hb k hxk hk]
    · rw [List.foldl_cons, h2 k fun d hd => hk d (List.mem_cons_of_mem _ hd), hout x hx0 r k (hk x hx0)]

/-- The key of a row of the accumulator lies in a range of banks. -/
abbrev inBanks (first count key : Nat) : Prop := first ≤ key / 128 ∧ key / 128 < first + count

/-- Steps that put each bank's row `i` anew: what they leave in the accumulator. -/
theorem look_banks {α : Type} {g : Core × α → Nat → Core × α} {first i : Nat} (hi : i < 128) (F : Nat → AccRow → AccRow)
    (hg : ∀ r q, (g r q).1.acc = put {} r.1.acc ((first + q) * 128 + i) (F q (look {} r.1.acc ((first + q) * 128 + i)))) (count : Nat)
    (r : Core × α) (key : Nat) : look {} ((List.range count).foldl g r).1.acc key =
      if key % 128 = i ∧ inBanks first count key then F (key / 128 - first) (look {} r.1.acc key) else look {} r.1.acc key := by
  obtain ⟨h1, h2⟩ := foldl_disjoint (read := fun (r : Core × α) k => look {} r.1.acc k) (g := g)
    (mine := fun q k => k = (first + q) * 128 + i) (F := fun q _ => F q) (List.range count)
    (fun q _ r k hk => by rw [hk, hg, look_put_same]) (fun q _ r k hk => by rw [hg, look_put, if_neg hk])
    (List.nodup_range.imp fun hne k hk hk' => hne (by omega)) r
  split
  next h => exact h1 (key / 128 - first) (List.mem_range.2 (by omega)) key (by omega)
  next h => exact h2 key fun q hq hk => h (by have := List.mem_range.1 hq; omega)

/-- The same over some rows of the tile. -/
theorem look_rows {α : Type} {g : Core × α → Nat → Core × α} {first count : Nat} {rows : List Nat} (F : Nat → Nat → AccRow → AccRow)
    (hg : ∀ i ∈ rows, ∀ r key, look {} (g r i).1.acc key =
      if key % 128 = i ∧ inBanks first count key then F i (key / 128 - first) (look {} r.1.acc key) else look {} r.1.acc key)
    (hn : rows.Nodup) (r : Core × α) (key : Nat) : look {} (rows.foldl g r).1.acc key =
      if key % 128 ∈ rows ∧ inBanks first count key then F (key % 128) (key / 128 - first) (look {} r.1.acc key) else look {} r.1.acc key := by
  obtain ⟨h1, h2⟩ := foldl_disjoint (read := fun (r : Core × α) k => look {} r.1.acc k) (g := g)
    (mine := fun i k => k % 128 = i ∧ inBanks first count k) (F := fun i k => F i (k / 128 - first)) rows
    (fun i hi r k hk => by rw [hg i hi, if_pos hk]) (fun i hi r k hk => by rw [hg i hi, if_neg hk])
    (hn.imp fun hne k hk hk' => hne (hk.1.symm.trans hk'.1)) r
  split
  next h => exact h1 _ h.1 key ⟨rfl, h.2⟩
  next h => exact h2 key fun i hi hk => h ⟨hk.1 ▸ hi, hk.2⟩

theorem accPer_pos (kind : Nat) : 0 < accPer kind := by
  unfold accPer
  split <;> decide

/-- A row of a bank of each format is full. -/
theorem accPer_width {kind : Nat} (hk : kind = fFp32 ∨ kind = fFp64 ∨ kind = fInt32) :
    2048 / fmtWidth kind = accPer kind ∧ fmtWidth kind * accPer kind = 2048 := by
  rcases hk with rfl | rfl | rfl <;> decide

/-- Column `j` of a tile lies in the tile's banks. -/
theorem col_inBanks {kind : Nat} {accb n j r : Nat} (hj : j < n) (hr : r < 128) :
    ((accb + j / accPer kind) * 128 + r) % 128 = r ∧ ((accb + j / accPer kind) * 128 + r) / 128 - accb = j / accPer kind ∧
    inBanks accb ((n + accPer kind - 1) / accPer kind) ((accb + j / accPer kind) * 128 + r) := by
  have hp := accPer_pos kind
  have hq : j / accPer kind < (n + accPer kind - 1) / accPer kind := by
    rw [Nat.lt_div_iff_mul_lt hp]
    have := Nat.div_mul_le_self j (accPer kind)
    omega
  generalize j / accPer kind = q at hq
  omega

/-! ### A k-step's row -/

/-- A bank's row after a k-step. -/
def Tile.rowAfter (t : Tile) (a : List Fp) (bs : List (List (Option Fp))) (psn : Bool) (q : Nat) (old : AccRow) : AccRow :=
  let kind := accFmt t.af
  { bits := packVec (fmtWidth kind) ((accCols kind (groupLen t.af) (elems old.bits (fmtWidth kind))
      (((bs.drop (q * accPer kind)).take (accPer kind)).map fun b => a.zipWith operandPair b)).map Prod.fst)
    psn := old.psn || psn }

theorem look_addRow (co : Core) (t : Tile) {i : Nat} (hi : i < 128) (a : List Fp) (bs : List (List (Option Fp))) (psn : Bool) (key : Nat) :
    look {} (co.addRow t i a bs psn).1.acc key = if key % 128 = i ∧ inBanks t.accb t.banks key then
      t.rowAfter a bs psn (key / 128 - t.accb) (look {} co.acc key) else look {} co.acc key := by
  unfold Core.addRow
  exact look_banks (α := Nat × Bool) hi (t.rowAfter a bs psn) (fun r q => rfl) t.banks (co, 0, false) key

/-- Element `e` of a bank's row takes the sums of its tile column. -/
theorem elem_rowAfter (t : Tile) (a : List Fp) (bs : List (List (Option Fp))) (psn : Bool) (q : Nat) (old : AccRow) {e : Nat}
    (he : e < accPer (accFmt t.af)) {b : List (Option Fp)} (hb : bs[q * accPer (accFmt t.af) + e]? = some b) :
    elem (t.rowAfter a bs psn q old).bits e (fmtWidth (accFmt t.af)) =
      (chunks (groupLen t.af) (a.zipWith operandPair b).length (a.zipWith operandPair b)).foldl
        (fun acc g => (accAdd (accFmt t.af) acc (groupSum g)).1) (elem old.bits e (fmtWidth (accFmt t.af))) := by
  have hk := accFmt_cases t.af
  obtain ⟨hper, hw⟩ := accPer_width hk
  unfold Tile.rowAfter
  generalize accFmt t.af = kind at he hb hk hper hw ⊢
  have hlen : (elems old.bits (fmtWidth kind)).length = accPer kind := by simp [elems, hper]
  have hold : nth 0 (elems old.bits (fmtWidth kind)) e = elem old.bits e (fmtWidth kind) := by
    rw [elems, nth_map_range _ _ _ _ (by omega)]
  dsimp only
  rw [elem_packVec _ _ _ (by simp [accCols, hlen, hw]), accCols, List.map_map, nth_map_range _ _ _ _ (by omega)]
  have hcol : (((bs.drop (q * accPer kind)).take (accPer kind)).map fun b => a.zipWith operandPair b)[e]? = some (a.zipWith operandPair b) := by
    rw [List.getElem?_map, List.getElem?_take_of_lt he, List.getElem?_drop, hb]
    rfl
  dsimp only [Function.comp]
  rw [hcol, hold]
  dsimp only
  rw [accGroups_fst]
  exact Nat.mod_eq_of_lt (sums_lt hk _ (elem_lt ..))

/-! ### A scaled row -/

/-- A bank's row scaled. -/
def Cmd.rowScaled (c : Cmd) (vs : List Fp) (psn : Bool) (q : Nat) (old : AccRow) : AccRow :=
  let kind := akindFmt c.akind
  let xs := Machine.elems old.bits (fmtWidth kind)
  { bits := packVec (fmtWidth kind) (((List.range xs.length).map fun e =>
      match vs[q * accPer kind + e]? with
      | some v => scaleElem (fpOf kind) (fpDecode (fpOf kind) (nth 0 xs e)) (fpDecode (fpOf fFp32) (bits (c.m 0) 0 32)) v
      | none => (nth 0 xs e, 0)).map Prod.fst)
    psn := old.psn || psn }

theorem look_scaleRow (co : Core) (c : Cmd) {i : Nat} (hi : i < 128) (vs : List Fp) (psn : Bool) (key : Nat) :
    look {} (co.scaleRow c i vs psn).1.acc key = if key % 128 = i ∧ inBanks c.accb c.tbanks key then
      c.rowScaled vs psn (key / 128 - c.accb) (look {} co.acc key) else look {} co.acc key := by
  unfold Core.scaleRow
  exact look_banks (α := Nat × Bool) hi (c.rowScaled vs psn) (fun r q => rfl) c.tbanks (co, 0, false) key

theorem elem_rowScaled (c : Cmd) (vs : List Fp) (psn : Bool) (q : Nat) (old : AccRow) {e : Nat}
    (hk : akindFmt c.akind = fFp32 ∨ akindFmt c.akind = fFp64 ∨ akindFmt c.akind = fInt32) (he : e < accPer (akindFmt c.akind)) {v : Fp}
    (hv : vs[q * accPer (akindFmt c.akind) + e]? = some v) :
    elem (c.rowScaled vs psn q old).bits e (fmtWidth (akindFmt c.akind)) =
      (scaleElem (fpOf (akindFmt c.akind)) (fpDecode (fpOf (akindFmt c.akind)) (elem old.bits e (fmtWidth (akindFmt c.akind))))
        (fpDecode (fpOf fFp32) (bits (c.m 0) 0 32)) v).1 % 2 ^ fmtWidth (akindFmt c.akind) := by
  obtain ⟨hper, hw⟩ := accPer_width hk
  unfold Cmd.rowScaled
  generalize akindFmt c.akind = kind at he hv hk hper hw ⊢
  have hlen : (elems old.bits (fmtWidth kind)).length = accPer kind := by simp [elems, hper]
  have hold : nth 0 (elems old.bits (fmtWidth kind)) e = elem old.bits e (fmtWidth kind) := by
    rw [elems, nth_map_range _ _ _ _ (by omega)]
  dsimp only
  rw [elem_packVec _ _ _ (by simp [hlen, hw]), List.map_map, nth_map_range _ _ _ _ (by omega)]
  dsimp only [Function.comp]
  rw [hv, hold]

end Sys2Proof.Machine
end

section
/-! PROOFS. The elements of a row as an engine reads them, and the pairs of a k-step (spec/02 R53 to R58; spec/08 R216 to R218). -/

namespace Sys2Proof.Machine

/-! ### The bytes that a packet's element depends on -/

/-- Byte `j` of the number of some bytes. -/
theorem leNat_byte (bs : List Byte) (j : Nat) : leNat bs / 2 ^ (8 * j) % 2 ^ 8 = (nth 0 bs j).toNat := by
  have hm : nth 0 (bs.map BitVec.toNat) j = (nth 0 bs j).toNat := by
    unfold nth
    rw [List.getElem?_map]
    cases bs[j]? <;> rfl
  rw [leNat, packNat_elem, hm]
  exact Nat.mod_eq_of_lt (nth 0 bs j).isLt

/-- Half a byte of a number by the byte. -/
theorem nibble_of_byte (x j h : Nat) (hh : h < 2) : x / 2 ^ (8 * j + 4 * h) % 16 = x / 2 ^ (8 * j) % 2 ^ 8 / 2 ^ (4 * h) % 16 := by
  rw [pow_add, ← Nat.div_div_eq_div_mul]
  interval_cases h
  · simp
  · omega

/-- The band scale of a packet by its two bytes. -/
theorem band_of_bytes (x : Nat) : x / 2 ^ 480 % 65536 = x / 2 ^ (8 * 60) % 2 ^ 8 + 256 * (x / 2 ^ (8 * 61) % 2 ^ 8) := by
  have h : x / 2 ^ (8 * 61) = x / 2 ^ 480 / 256 := by
    rw [show 8 * 61 = 480 + 8 from rfl, pow_add, ← Nat.div_div_eq_div_mul]
    rfl
  rw [h, show 8 * 60 = 480 from rfl]
  omega

/-- A packet's element is decoded from the byte of its code, that of its block's scale, and the band scale. -/
theorem packetDecode_congr {fmt n : Nat} {as bs : List Byte} (hc : nth 0 as (n / 2) = nth 0 bs (n / 2))
    (hs : nth 0 as (48 + n / blockLen fmt) = nth 0 bs (48 + n / blockLen fmt))
    (hb : fmt = fB8fp4 → nth 0 as 60 = nth 0 bs 60 ∧ nth 0 as 61 = nth 0 bs 61) :
    packetDecode fmt (leNat as) n = packetDecode fmt (leNat bs) n := by
  have hcode : packetCode fmt (leNat as) n = packetCode fmt (leNat bs) n := by
    have hj : (if fmt = fB8fp4 then 4 * (n / 8) + n % 8 / 2 else 16 * (n / 32) + n % 32 / 2) = n / 2 := by split <;> omega
    unfold packetCode
    dsimp only
    rw [hj, nibble_of_byte _ _ _ (Nat.mod_lt _ (by decide)), nibble_of_byte _ _ _ (Nat.mod_lt _ (by decide)), leNat_byte, leNat_byte, hc]
  have hscale : packetScale fmt (leNat as) n = packetScale fmt (leNat bs) n := by
    unfold packetScale
    rw [show 256 = 2 ^ 8 from rfl, leNat_byte, leNat_byte, hs]
  unfold packetDecode
  dsimp only
  rw [hcode, hscale]
  by_cases hf : fmt = fB8fp4
  · have hband : leNat as / 2 ^ 480 % 65536 = leNat bs / 2 ^ 480 % 65536 := by
      rw [band_of_bytes, band_of_bytes]
      simp only [leNat_byte, (hb hf).1, (hb hf).2]
    rw [hband]
  · simp only [if_neg hf]

/-! ### A row's elements as read -/

theorem byte_mem_unitsOf {a n b : Nat} (h1 : a ≤ b) (h2 : b < a + n) : b / 8 ∈ unitsOf a n := unitsOf_touch.2 ⟨b, h1, h2, rfl⟩

/-- The unit of each byte that a packet's element depends on is among those of its range. -/
theorem packet_elemUnits {fmt base k0 k1 k : Nat} (hp : fmtPacket.contains fmt = true) (h0 : k0 ≤ k) (h1 : k < k1) :
    (base + 64 * (k / 96) + k % 96 / 2) / 8 ∈ elemUnits fmt base k0 k1 ∧
    (base + 64 * (k / 96) + (48 + k % 96 / blockLen fmt)) / 8 ∈ elemUnits fmt base k0 k1 ∧
    (fmt = fB8fp4 → (base + 64 * (k / 96) + 60) / 8 ∈ elemUnits fmt base k0 k1 ∧ (base + 64 * (k / 96) + 61) / 8 ∈ elemUnits fmt base k0 k1) := by
  have hin {u : Nat} (hu : u ∈ unitsOf (base + 64 * (k / 96) + (max k0 (96 * (k / 96)) - 96 * (k / 96)) / 2)
        ((min k1 (96 * (k / 96) + 96) - 1 - 96 * (k / 96)) / 2 - (max k0 (96 * (k / 96)) - 96 * (k / 96)) / 2 + 1) ++
      unitsOf (base + 64 * (k / 96) + 48 + (max k0 (96 * (k / 96)) - 96 * (k / 96)) / blockLen fmt)
        ((min k1 (96 * (k / 96) + 96) - 1 - 96 * (k / 96)) / blockLen fmt - (max k0 (96 * (k / 96)) - 96 * (k / 96)) / blockLen fmt + 1) ++
      (if fmt = fB8fp4 then unitsOf (base + 64 * (k / 96) + 60) 2 else [])) : u ∈ elemUnits fmt base k0 k1 := by
    unfold elemUnits
    rw [if_neg (by omega), if_pos hp]
    refine List.mem_flatMap.2 ⟨k / 96 - k0 / 96, List.mem_range.2 (by omega), ?_⟩
    rw [show k0 / 96 + (k / 96 - k0 / 96) = k / 96 by omega]
    exact hu
  have hlo : max k0 (96 * (k / 96)) - 96 * (k / 96) ≤ k % 96 := by omega
  have hhi : k % 96 ≤ min k1 (96 * (k / 96) + 96) - 1 - 96 * (k / 96) := by omega
  have hlo' := Nat.div_le_div_right (c := blockLen fmt) hlo
  have hhi' := Nat.div_le_div_right (c := blockLen fmt) hhi
  refine ⟨hin (List.mem_append_left _ (List.mem_append_left _ (byte_mem_unitsOf ?_ ?_))),
    hin (List.mem_append_left _ (List.mem_append_right _ (byte_mem_unitsOf ?_ ?_))),
    fun hf => ⟨hin (List.mem_append_right _ ?_), hin (List.mem_append_right _ ?_)⟩⟩
  · omega
  · omega
  · omega
  · omega
  · rw [if_pos hf]
    exact byte_mem_unitsOf (by omega) (by omega)
  · rw [if_pos hf]
    exact byte_mem_unitsOf (by omega) (by omega)

theorem nth_bytes (m : Mem) (a n : Nat) {j : Nat} (hj : j < n) : nth 0 (m.bytes a n) j = m.byte (a + j) := nth_map_range _ _ _ _ hj

/-- A row's elements whose units have been read from a memory are those of the memory. -/
theorem rowElems_of_got {c : Cmd} {m : Mem} {fmt base k0 k1 : Nat} (h : ∀ u ∈ elemUnits fmt base k0 k1, c.got 0 u = some (m.unit u)) :
    rowElems fmt base k0 k1 (fun a n => (c.bytesAt 0 a n).1) = rowElems fmt base k0 k1 m.bytes := by
  refine List.map_congr_left fun t ht => ?_
  have ht := List.mem_range.1 ht
  have hk0 : k0 ≤ k0 + t := Nat.le_add_right ..
  have hk1 : k0 + t < k1 := by omega
  generalize k0 + t = k at hk0 hk1 ⊢
  by_cases hp : fmtPacket.contains fmt = true
  · simp only [if_pos hp]
    obtain ⟨h1, h2, h3⟩ := packet_elemUnits (base := base) hp hk0 hk1
    have hbyte {j : Nat} (hj : j < 64) (hu : (base + 64 * (k / 96) + j) / 8 ∈ elemUnits fmt base k0 k1) :
        nth 0 (c.bytesAt 0 (base + 64 * (k / 96)) 64).1 j = nth 0 (m.bytes (base + 64 * (k / 96)) 64) j := by
      rw [nth_bytesAt _ _ _ _ hj, nth_bytes _ _ _ hj, gotByte_of_got (h _ hu)]
    have hb : k % 96 / blockLen fmt < 12 := by
      rw [Nat.div_lt_iff_lt_mul (by unfold blockLen; split <;> decide)]
      unfold blockLen
      split <;> omega
    exact packetDecode_congr (hbyte (by omega) h1) (hbyte (by omega) h2)
      fun hf => ⟨hbyte (by decide) (h3 hf).1, hbyte (by decide) (h3 hf).2⟩
  · simp only [if_neg hp]
    have hlo := Nat.mul_le_mul_right (fmtBytes fmt) hk0
    have hhi := Nat.mul_le_mul_right (fmtBytes fmt) (Nat.succ_le_of_lt hk1)
    rw [Nat.succ_mul] at hhi
    rw [bytesAt_of_got fun u hu => h u ?_]
    obtain ⟨b, hb1, hb2, rfl⟩ := unitsOf_touch.1 hu
    unfold elemUnits
    rw [if_neg (by omega), if_neg hp, Nat.sub_mul]
    exact byte_mem_unitsOf (by omega) (by omega)

/-! ### The pairs of a k-step -/

/-- Element `k` of a row at `base`. -/
def rowItem (fmt base k : Nat) (get : Nat → Nat → List Byte) : Fp :=
  if fmtPacket.contains fmt then packetDecode fmt (leNat (get (base + 64 * (k / 96)) 64)) (k % 96)
  else numDecode fmt (leNat (get (base + k * fmtBytes fmt) (fmtBytes fmt)))

theorem rowElems_eq (fmt base k0 k1 : Nat) (get : Nat → Nat → List Byte) :
    rowElems fmt base k0 k1 get = (List.range (k1 - k0)).map fun q => rowItem fmt base (k0 + q) get := rfl

/-- A row of A against a column of B. -/
theorem zipWith_operandPair (n : Nat) (a : Nat → Fp) (b : Nat → Option Fp) :
    ((List.range n).map a).zipWith operandPair ((List.range n).map b) = (List.range n).map fun q => operandPair (a q) (b q) := by
  rw [List.zipWith_map, List.zipWith_self]

end Sys2Proof.Machine
end

section
/-! PROOFS. A k-step of the MMA family (spec/08 R215 to R219, R221). -/

namespace Sys2Proof.Machine

/-! ### A routine that goes on to its next boundary (R201, R202) -/

/-- A routine that runs, that nothing overtakes, and that has read nothing of its next step, where no window holds its banks. -/
structure AtBoundary (s : State) (core id : Nat) (c : Cmd) : Prop where
  found : (s.core core).mq.find? (fun e => e.id == id) = some c
  home : c.core = core
  routine : c.op = 3
  awake : s.still core = false
  started : c.started = true
  running : c.running = true
  unfinished : c.finished = false
  first : s.nextRoutine core = none
  unlocked : ∀ b, s.locked core b = false
  unread : c.src = []

/-- Nothing but one core differs. -/
structure OnlyCore (s : State) (core : Nat) (t : State) : Prop where
  outside : t = { s with cores := t.cores }
  other : ∀ k, k ≠ core → t.core k = s.core k

theorem OnlyWaits.onlyCore {s t : State} {core : Nat} (h : OnlyWaits s core t) : OnlyCore s core t := ⟨h.outside, h.other⟩

theorem OnlyCore.setCore {s t : State} {core : Nat} (h : OnlyCore s core t) (x : Core) : OnlyCore s core (t.setCore core x) := by
  refine ⟨?_, fun k hk => (core_setCore_other _ _ hk).trans (h.other k hk)⟩
  conv_lhs => rw [State.setCore, h.outside]
  rfl

/-- The result of a routine that ends: its steps and its flags (R202). -/
def Cmd.stepsAndFlags (y : Cmd) : Nat := min y.progress 0xFFFF * 65536 + y.conds % 32

/-- A routine has gone on by one step, and has ended after its last. -/
def RoutineGoes (s : State) (core : Nat) (c : Cmd) (i : Instr) (t : State) (y : Cmd) (last : Bool) : Prop :=
  exec i s = .next t ∧ t = { s with cores := t.cores } ∧ (∀ k, k ≠ core → t.core k = s.core k) ∧ y.id = c.id ∧
  (t.core core).mq = (s.core core).mq.map (fun e => if e.id = c.id then y else e) ∧ y.progress = c.progress + 1 ∧ y.finished = last ∧
  (last = true → y.result = y.stepsAndFlags ∧ y.status = if y.psn || y.blockPsn then 0x0F else 0x00)

section
variable {s : State} {core id n : Nat} {c : Cmd} {i : Instr} {bad : Cmd → Bool} {advance : State → Cmd → State × Cmd}
  (hc : AtBoundary s core id c) (hn : c.routine = n) (hi : exec i s = .next (s.runRoutine n core id (startWith bad) advance))
include hc hn hi

theorem AtBoundary.exec_advance : exec i s = .next ((advance s c).1.setMatrix core (advance s c).2) := by
  rw [hi, runRoutine_advances hc.found _ hc.started hc.running hc.first]
  simp [hc.routine, hn, hc.awake, hc.unfinished]

/-- What the step leaves alone, where it changes nothing but the core, and not the queue. -/
theorem AtBoundary.exec_step (hu : OnlyCore s core (advance s c).1) (hmq : ((advance s c).1.core core).mq = (s.core core).mq)
    (hid : (advance s c).2.id = c.id) : ∃ t, exec i s = .next t ∧ OnlyCore s core t ∧
      (t.core core).mq = (s.core core).mq.map (fun e => if e.id = c.id then (advance s c).2 else e) ∧
      (t.core core).acc = ((advance s c).1.core core).acc ∧ (t.core core).spm = ((advance s c).1.core core).spm ∧
      (t.core core).wb = ((advance s c).1.core core).wb := by
  refine ⟨_, hc.exec_advance hn hi, hu.setCore _, ?_, ?_, ?_, ?_⟩
  · rw [setMatrix_mq, hmq, hid]
  all_goals rw [State.setMatrix, core_setCore_same]

end

/-! ### The parts of a k-step -/

/-- Column `j` of B over a k-step, and whether it reads a marked unit of the weight buffer. -/
def Cmd.stepColumn (c : Cmd) (wb : Mem) (t : Tile) (k0 k1 j : Nat) : List (Option Fp) × Bool :=
  if t.coop then ((rowElems t.bf (t.bbase + j * t.bstr) k0 k1 fun a n => (c.bytesAt 0 a n).1).map some, false) else t.column wb k0 k1 j

/-- Whether the routine has met a marked operand unit by the end of a k-step. -/
def Cmd.stepPoison (c : Cmd) (wb : Mem) (t : Tile) (k0 k1 : Nat) : Bool :=
  c.psn || c.pulledPoison 0 (t.aUnits k0 k1) || ((List.range t.n).map (c.stepColumn wb t k0 k1)).any Prod.snd || t.sparsePoison wb k0 k1

/-- The columns of B over a k-step. -/
def Cmd.stepColumns (c : Cmd) (wb : Mem) (t : Tile) (k0 k1 : Nat) : List (List (Option Fp)) :=
  ((List.range t.n).map (c.stepColumn wb t k0 k1)).map Prod.fst

/-- One more row of the tile. -/
def Cmd.addTileRow (c : Cmd) (wb : Mem) (t : Tile) (k0 k1 : Nat) (r : Core × Nat × Bool) (i : Nat) : Core × Nat × Bool :=
  let x := r.1.addRow t i (rowElems t.af (t.abase + i * t.astr) k0 k1 fun a n => (c.bytesAt 0 a n).1) (c.stepColumns wb t k0 k1)
    (c.stepPoison wb t k0 k1)
  (x.1, r.2.1 ||| x.2.1, r.2.2 || x.2.2)

/-- The rows of the tile after a k-step. -/
def Cmd.addTile (c : Cmd) (co : Core) (t : Tile) (k0 k1 : Nat) : Core × Nat × Bool :=
  (List.range t.m).foldl (c.addTileRow co.wb t k0 k1) (co, 0, false)

theorem addTile_keeps {γ : Type} (p : Core → γ) (hp : ∀ (c : Core) (m : FMap AccRow), p { c with acc := m } = p c) (c : Cmd) (co : Core)
    (t : Tile) (k0 k1 : Nat) : p (c.addTile co t k0 k1).1 = p co := by
  refine foldl_keeps (fun r : Core × Nat × Bool => p r.1) (c.addTileRow co.wb t k0 k1) (fun r i => ?_) _ _
  exact addRow_keeps p hp ..

theorem look_addTile (c : Cmd) (co : Core) (t : Tile) (k0 k1 : Nat) (hm : t.m ≤ 128) (key : Nat) :
    look {} (c.addTile co t k0 k1).1.acc key = if key % 128 ∈ List.range t.m ∧ inBanks t.accb t.banks key then
      t.rowAfter (rowElems t.af (t.abase + key % 128 * t.astr) k0 k1 fun a n => (c.bytesAt 0 a n).1)
        (c.stepColumns co.wb t k0 k1) (c.stepPoison co.wb t k0 k1) (key / 128 - t.accb)
        (look {} co.acc key)
    else look {} co.acc key := by
  unfold Cmd.addTile
  exact look_rows (g := c.addTileRow co.wb t k0 k1)
    (fun i => t.rowAfter (rowElems t.af (t.abase + i * t.astr) k0 k1 fun a n => (c.bytesAt 0 a n).1) (c.stepColumns co.wb t k0 k1)
      (c.stepPoison co.wb t k0 k1))
    (fun i hi r key => look_addRow r.1 t (lt_of_lt_of_le (List.mem_range.1 hi) hm) _ _ _ key) List.nodup_range (co, 0, false) key

/-- The row of element (r, j) of the tile after a k-step. -/
theorem look_addTile_el (c : Cmd) (co : Core) (t : Tile) (k0 k1 : Nat) (hm : t.m ≤ 128) {r j : Nat} (hr : r < t.m) (hj : j < t.n) :
    look {} (c.addTile co t k0 k1).1.acc ((t.accb + j / accPer (accFmt t.af)) * 128 + r) =
      t.rowAfter (rowElems t.af (t.abase + r * t.astr) k0 k1 fun a n => (c.bytesAt 0 a n).1)
        (c.stepColumns co.wb t k0 k1) (c.stepPoison co.wb t k0 k1) (j / accPer (accFmt t.af))
        (look {} co.acc ((t.accb + j / accPer (accFmt t.af)) * 128 + r)) := by
  obtain ⟨h1, h2, h3⟩ := col_inBanks (kind := accFmt t.af) (accb := t.accb) hj (lt_of_lt_of_le hr hm)
  rw [look_addTile _ _ _ _ _ hm, if_pos ⟨by rw [h1]; exact List.mem_range.2 hr, h3⟩, h1, h2]

/-- An element of the tile after a k-step, its row of A and its column of B given. -/
theorem elem_addTile {c : Cmd} {co : Core} {t : Tile} {k0 k1 r j : Nat} (hm : t.m ≤ 128) (hr : r < t.m) (hj : j < t.n) {a : Nat → Fp}
    {b : Nat → Option Fp} (ha : (rowElems t.af (t.abase + r * t.astr) k0 k1 fun a n => (c.bytesAt 0 a n).1) = (List.range (k1 - k0)).map a)
    (hb : (c.stepColumn co.wb t k0 k1 j).1 = (List.range (k1 - k0)).map b) :
    elem (look {} (c.addTile co t k0 k1).1.acc ((t.accb + j / accPer (accFmt t.af)) * 128 + r)).bits (j % accPer (accFmt t.af))
        (fmtWidth (accFmt t.af)) =
      (chunks (groupLen t.af) (k1 - k0) ((List.range (k1 - k0)).map fun q => operandPair (a q) (b q))).foldl
        (fun acc g => (accAdd (accFmt t.af) acc (groupSum g)).1)
        (elem (look {} co.acc ((t.accb + j / accPer (accFmt t.af)) * 128 + r)).bits (j % accPer (accFmt t.af)) (fmtWidth (accFmt t.af))) := by
  have hcol : (c.stepColumns co.wb t k0 k1)[j / accPer (accFmt t.af) * accPer (accFmt t.af) + j % accPer (accFmt t.af)]? =
      some ((List.range (k1 - k0)).map b) := by
    rw [Cmd.stepColumns, Nat.div_add_mod', List.getElem?_map, List.getElem?_map, List.getElem?_range hj, ← hb]
    rfl
  rw [look_addTile_el _ _ _ _ _ hm hr hj, elem_rowAfter _ _ _ _ _ _ (Nat.mod_lt _ (accPer_pos _)) hcol, ha, zipWith_operandPair]
  simp

/-! ### The operands of a k-step (R216, R217) -/

/-- What the limits of the MMA family say of the tile. -/
theorem mma_limits {c : Cmd} (h : c.mmaBad = false) : c.tile.m ≤ 128 ∧ (c.routine = 1 → c.tile.layout = 0) ∧
    (c.routine ≠ 1 → c.tile.layout = 1) := by
  unfold Cmd.mmaBad at h
  simp only [Bool.or_eq_false_iff, decide_eq_false_iff_not, beq_eq_false_iff_ne] at h
  obtain ⟨⟨⟨⟨⟨⟨⟨⟨⟨⟨⟨⟨⟨-, hlay⟩, hpair⟩, hm⟩, -⟩, -⟩, -⟩, -⟩, -⟩, -⟩, -⟩, -⟩, -⟩, -⟩ := h
  refine ⟨by omega, fun hr => ?_, fun hr => ?_⟩
  · have : ¬c.tile.layout = 1 := by simpa [hr] using hpair
    omega
  · simpa [hr] using hpair

theorem coop_limits {c : Cmd} (h : c.coopBad = false) : c.tile.m ≤ 128 := by
  unfold Cmd.coopBad at h
  simp only [Bool.or_eq_false_iff, bne_eq_false_iff_eq] at h
  obtain ⟨⟨⟨⟨⟨⟨⟨⟨⟨-, hm⟩, -⟩, -⟩, -⟩, -⟩, -⟩, -⟩, -⟩, -⟩ := h
  omega

/-- Element (k, j) of B. -/
def Tile.bItem (t : Tile) (wb store : Mem) (k j : Nat) : Option Fp :=
  if t.coop then some (rowItem t.bf (t.bbase + j * t.bstr) k store.bytes)
  else if t.layout = 0 then some (rowItem t.bf (t.bbase + j * t.bstr) k wb.bytes)
  else if t.trans then t.sparse wb j k else t.sparse wb k j

/-- The units that a k-step reads have been read from a memory. -/
def Cmd.hasUnits (c : Cmd) (m : Mem) (us : List Nat) : Prop := ∀ u ∈ us, c.got 0 u = some (m.unit u)

theorem row_of_hasUnits {c : Cmd} {m : Mem} {t : Tile} {k0 k1 r : Nat} (h : c.hasUnits m (t.aUnits k0 k1)) (hr : r < t.m) :
    (rowElems t.af (t.abase + r * t.astr) k0 k1 fun a n => (c.bytesAt 0 a n).1) =
      (List.range (k1 - k0)).map fun q => rowItem t.af (t.abase + r * t.astr) (k0 + q) m.bytes := by
  rw [rowElems_of_got fun u hu => h u (List.mem_append_left _ (List.mem_flatMap.2 ⟨r, List.mem_range.2 hr, hu⟩)), rowElems_eq]

theorem column_of_hasUnits {c : Cmd} {m wb : Mem} {t : Tile} {k0 k1 j : Nat} (h : c.hasUnits m (t.aUnits k0 k1)) (hj : j < t.n) :
    (c.stepColumn wb t k0 k1 j).1 = (List.range (k1 - k0)).map fun q => t.bItem wb m (k0 + q) j := by
  unfold Cmd.stepColumn Tile.bItem
  by_cases hc : t.coop = true
  · simp only [if_pos hc]
    have hu : ∀ u ∈ elemUnits t.bf (t.bbase + j * t.bstr) k0 k1, c.got 0 u = some (m.unit u) := fun u hu => h u <| by
      refine List.mem_append_right _ ?_
      rw [if_pos hc]
      exact List.mem_flatMap.2 ⟨j, List.mem_range.2 hj, hu⟩
    rw [rowElems_of_got hu, rowElems_eq, List.map_map]
    rfl
  · simp only [if_neg hc]
    unfold Tile.column
    by_cases hl : t.layout = 0
    · simp only [if_pos hl, rowElems_eq, List.map_map]
      rfl
    · simp only [if_neg hl]

/-- With no mark anywhere a k-step reads none. -/
theorem stepPoison_unmarked {c : Cmd} {m wb : Mem} {t : Tile} {k0 k1 : Nat} (h : c.hasUnits m (t.aUnits k0 k1)) (hc : c.psn = false)
    (hm : ∀ u, m.mark u = false) (hw : ∀ u, wb.mark u = false) : c.stepPoison wb t k0 k1 = false := by
  have hnot (a n : Nat) : wb.poisoned a n = false := by simp [Mem.poisoned, hw]
  have hread : c.pulledPoison 0 (t.aUnits k0 k1) = false := by
    refine List.any_eq_false.2 fun u hu => ?_
    rw [h u hu]
    exact ne_true_of_eq_false (hm u)
  have hcol (j : Nat) : (c.stepColumn wb t k0 k1 j).2 = false := by
    unfold Cmd.stepColumn Tile.column
    split
    · rfl
    · split
      · simp [hw]
      · rfl
  simp [Cmd.stepPoison, hc, hread, hcol, Tile.sparsePoison, hnot]

/-! ### The k-step of a routine -/

/-- The locator that a tile routine's units of A lie at. -/
def Tile.aLoc (t : Tile) : Word := spaceLoc (if t.coop then 1 else 0)

theorem aLoc_space (t : Tile) : locSpace t.aLoc = if t.coop then 1 else 0 := by
  unfold Tile.aLoc
  split <;> decide

theorem locMem_aLoc (s : State) (c : Cmd) (t : Tile) :
    s.locMem c t.aLoc = if t.coop then (s.cluster (clusterOf c.ctx)).store else (s.core c.core).spm := by
  unfold State.locMem
  rw [aLoc_space]
  cases t.coop <;> rfl

/-- A step that reads all of its units at once. -/
theorem tileAdvance_go {s : State} {c : Cmd} {us : List Nat} (hu : c.tile.aUnits (c.tile.stepLo c.progress) (c.tile.stepHi c.progress) = us)
    (h : (s.pull c c.tile.aLoc 0 us).2.pulled 0 us = true) : tileAdvance [] true s c =
      let r := s.pull c c.tile.aLoc 0 us
      let k0 := c.tile.stepLo c.progress
      let k1 := c.tile.stepHi c.progress
      let x := r.1.tileStep r.2 c.tile k0 k1
      if c.tile.layout = 1 ∧ (c.tile.blocks k0 k1).any (fun n => !maskValid (c.tile.mask (s.core c.core).wb n)) = true then
        (r.1, r.2.routineEnd stBadmask)
      else (x.1, if c.tile.k ≤ k1 then x.2.goodEnd else x.2) := by
  unfold tileAdvance
  subst hu
  dsimp only
  rw [show (s.pull c (spaceLoc (if c.tile.coop = true then 1 else 0)) 0 (List.filter
    (fun u => decide (u < 2 ^ (if c.tile.coop = true then 22 else 17))) [])) = (s, c) from rfl]
  rw [Tile.aLoc] at h ⊢
  simp only [if_true, Bool.not_true, Bool.false_or, h, Bool.false_eq_true, if_false]

end Sys2Proof.Machine
end

section
/-! PROOFS. What a k-step leaves (spec/08 R202, R203, R217, R218). -/

namespace Sys2Proof.Machine

theorem stepHi_eq (t : Tile) (n : Nat) : t.stepHi n = min t.k (n * kStep t.af + kStep t.af) := by rw [Tile.stepHi, Nat.add_one_mul]

/-- The memory that A, and B of MMA.COOP, is read from. -/
def State.tileMem (s : State) (c : Cmd) : Mem := if c.tile.coop then (s.cluster (clusterOf c.ctx)).store else (s.core c.core).spm

section
variable {s : State} {core id : Nat} {c : Cmd} (hc : AtBoundary s core id c)
include hc

/-- The units of a step are read at once, and nothing else changes but requests that waited. -/
theorem AtBoundary.pulls {l : Word} (hl : locSpace l < 2) (us : List Nat) : ∃ u m, s.pull c l 0 us = (u, { c with src := m }) ∧
    ({ c with src := m } : Cmd).pulled 0 us = true ∧ ({ c with src := m } : Cmd).hasUnits (s.locMem c l) us ∧ OnlyWaits s core u := by
  have hu : ∀ b, s.locked c.core b = false := by rw [hc.home]; exact hc.unlocked
  obtain ⟨h1, h2⟩ := pull_fresh (k := 0) (us := us) hl hu hc.unread
  obtain ⟨h3, h4, -⟩ := pull_free (k := 0) hl us s c hu
  rw [hc.home] at h3
  rw [h4] at h1 h2
  refine ⟨_, _, Prod.ext rfl h4, h1, fun u hm => ?_, h3⟩
  rw [h2, if_pos hm]

theorem AtBoundary.pullsTile (us : List Nat) : ∃ u m, s.pull c c.tile.aLoc 0 us = (u, { c with src := m }) ∧
    ({ c with src := m } : Cmd).pulled 0 us = true ∧ ({ c with src := m } : Cmd).hasUnits (s.tileMem c) us ∧ OnlyWaits s core u := by
  have hl : locSpace c.tile.aLoc < 2 := by
    rw [aLoc_space]
    split <;> decide
  rw [show s.tileMem c = s.locMem c c.tile.aLoc from (locMem_aLoc ..).symm]
  exact hc.pulls hl us

variable {n : Nat} {i : Instr} {bad : Cmd → Bool} (hn : c.routine = n)
  (hi : exec i s = .next (s.runRoutine n core id (startWith bad) (tileAdvance [] true)))
include hn hi

/-- An invalid mask ends the routine (R218). -/
theorem AtBoundary.badMask_ends (hl : c.tile.layout = 1)
    (hm : ∃ n ∈ c.tile.blocks (c.tile.stepLo c.progress) (c.tile.stepHi c.progress), ¬maskValid (c.tile.mask (s.core core).wb n) = true) :
    ∃ t y, exec i s = .next t ∧ t = { s with cores := t.cores } ∧ (t.core core).acc = (s.core core).acc ∧
      (t.core core).mq = (s.core core).mq.map (fun e => if e.id = c.id then y else e) ∧ y.finished = true ∧ y.status = 0x13 ∧
      y.result = c.stepsAndFlags := by
  obtain ⟨u, m, hp, h1, -, h3⟩ := hc.pullsTile (c.tile.aUnits (c.tile.stepLo c.progress) (c.tile.stepHi c.progress))
  have hany : (c.tile.blocks (c.tile.stepLo c.progress) (c.tile.stepHi c.progress)).any
      (fun n => !maskValid (c.tile.mask (s.core c.core).wb n)) = true := by
    rw [hc.home]
    obtain ⟨n, hn, hv⟩ := hm
    exact List.any_eq_true.2 ⟨n, hn, by simpa using hv⟩
  have hadv : tileAdvance [] true s c = (u, ({ c with src := m } : Cmd).routineEnd stBadmask) := by
    rw [tileAdvance_go rfl (by rw [hp]; exact h1), hp]
    exact if_pos ⟨hl, hany⟩
  obtain ⟨w, hw⟩ := h3.own
  obtain ⟨t, ht, hout, hmq, hacc, -, -⟩ := hc.exec_step hn hi (by rw [hadv]; exact h3.onlyCore) (by rw [hadv, hw]) (by rw [hadv]; rfl)
  refine ⟨t, _, ht, hout.outside, by rw [hacc, hadv, hw], hmq, ?_⟩
  rw [hadv]
  exact ⟨rfl, rfl, rfl⟩

/-- A k-step: the elements of the tile, and what else it leaves. -/
theorem AtBoundary.kStep_goes (hm : c.tile.m ≤ 128)
    (hv : ¬(c.tile.layout = 1 ∧ (c.tile.blocks (c.tile.stepLo c.progress) (c.tile.stepHi c.progress)).any
      (fun n => !maskValid (c.tile.mask (s.core core).wb n)) = true)) {a : Nat → Nat → Fp} {b : Nat → Nat → Option Fp}
    (ha : ∀ r k, a r k = rowItem c.tile.af (c.tile.abase + r * c.tile.astr) k (s.tileMem c).bytes)
    (hb : ∀ k j, b k j = c.tile.bItem (s.core core).wb (s.tileMem c) k j) :
    let t0 := c.tile
    let kind := accFmt t0.af
    let step := kStep t0.af
    let k0 := c.progress * step
    let k1 := min t0.k (k0 + step)
    let key (j r : Nat) : Nat := (t0.accb + j / accPer kind) * 128 + r
    ∃ t y, RoutineGoes s core c i t y (decide (t0.k ≤ k0 + step)) ∧
      (∀ r j, r < t0.m → j < t0.n →
        elem (look {} (t.core core).acc (key j r)).bits (j % accPer kind) (fmtWidth kind) =
          (chunks (groupLen t0.af) (k1 - k0) ((List.range (k1 - k0)).map fun q => operandPair (a r (k0 + q)) (b (k0 + q) j))).foldl
            (fun acc g => (accAdd kind acc (groupSum g)).1)
            (elem (look {} (s.core core).acc (key j r)).bits (j % accPer kind) (fmtWidth kind)) ∧
        (look {} (t.core core).acc (key j r)).psn = ((look {} (s.core core).acc (key j r)).psn || y.psn)) ∧
      (∀ key, (key % 128 ≥ t0.m ∨ key / 128 < t0.accb ∨ t0.accb + t0.banks ≤ key / 128) →
        look {} (t.core core).acc key = look {} (s.core core).acc key) ∧
      (c.psn = true → y.psn = true) ∧
      (c.psn = false → (∀ u, (s.tileMem c).mark u = false) → (∀ u, (s.core core).wb.mark u = false) → y.psn = false) ∧
      (t.core core).spm = (s.core core).spm ∧ (t.core core).wb = (s.core core).wb := by
  intro t0 kind step k0 k1 key
  obtain ⟨u, m, hpull, h1, h2, h3⟩ := hc.pullsTile (t0.aUnits k0 k1)
  obtain rfl := hc.home
  have hk1 : t0.stepHi c.progress = k1 := stepHi_eq ..
  obtain ⟨w, hw⟩ := h3.own
  have hacc0 : (u.core c.core).acc = (s.core c.core).acc := by rw [hw]
  have hwb0 : (u.core c.core).wb = (s.core c.core).wb := by rw [hw]
  generalize hc1 : ({ c with src := m } : Cmd) = c1 at hpull h1 h2
  generalize hx : u.tileStep c1 t0 k0 k1 = x
  have hx1 : x.1 = u.setCore c.core (c1.addTile (u.core c.core) t0 k0 k1).1 := by rw [← hx, ← hc1]; rfl
  have hx2 : x.2.psn = c1.stepPoison (s.core c.core).wb t0 k0 k1 := by rw [← hx, ← hwb0, ← hc1]; rfl
  have hx3 : x.2.id = c.id ∧ x.2.progress = c.progress + 1 ∧ x.2.finished = c.finished := by rw [← hx, ← hc1]; exact ⟨rfl, rfl, rfl⟩
  have hadv : tileAdvance [] true s c = (x.1, if t0.k ≤ k1 then x.2.goodEnd else x.2) := by
    rw [tileAdvance_go (us := t0.aUnits k0 k1) (by rw [hk1]; rfl) (by rw [hpull]; exact h1), hpull]
    dsimp only
    rw [hk1]
    rw [hk1] at hv
    exact (if_neg hv).trans (by rw [← hx]; rfl)
  have hco : x.1.core c.core = (c1.addTile (u.core c.core) t0 k0 k1).1 := by rw [hx1, core_setCore_same]
  have hkeep {γ : Type} (p : Core → γ) (hp : ∀ (c : Core) (m : FMap AccRow), p { c with acc := m } = p c)
      (hq : ∀ (c : Core) (m : List Waiting), p { c with waits := m } = p c) : p (x.1.core c.core) = p (s.core c.core) := by
    rw [hco, addTile_keeps p hp, hw, hq]
  generalize hy : (if t0.k ≤ k1 then x.2.goodEnd else x.2) = y at hadv
  have hend (p : Cmd → Prop) (h1 : p x.2.goodEnd) (h2 : p x.2) : p y := by
    rw [← hy]
    split
    · exact h1
    · exact h2
  have hyid : y.id = c.id := hend (·.id = c.id) hx3.1 hx3.1
  have hpsn : y.psn = c1.stepPoison (s.core c.core).wb t0 k0 k1 := hend (·.psn = _) hx2 hx2
  have hlast : t0.k ≤ k1 ↔ t0.k ≤ k0 + step := by rw [le_min_iff]; exact and_iff_right (Nat.le_refl _)
  obtain ⟨t, ht, hout, hmq, hacc, hspm, hwb⟩ := hc.exec_step hn hi (by rw [hadv, hx1]; exact h3.onlyCore.setCore _)
    (by rw [hadv]; exact hkeep Core.mq (fun _ _ => rfl) (fun _ _ => rfl)) (by rw [hadv]; exact hyid)
  rw [hadv] at hacc hspm hwb hmq
  rw [hco] at hacc
  refine ⟨t, y, ⟨ht, hout.outside, hout.other, hyid, hmq, hend (·.progress = _) hx3.2.1 hx3.2.1, ?_, fun hl => ?_⟩,
    fun p j hp hj => ⟨?_, ?_⟩, fun key hkey => ?_, fun hpre => ?_, fun hpre hm1 hm2 => ?_, ?_, ?_⟩
  · rw [← hy]
    split
    next h => exact (decide_eq_true (hlast.1 h)).symm
    next h => rw [hx3.2.2, hc.unfinished, decide_eq_false fun hle => h (hlast.2 hle)]
  · rw [← hy, if_pos (hlast.2 (of_decide_eq_true hl))]
    exact ⟨rfl, rfl⟩
  · rw [hacc, elem_addTile hm hp hj (row_of_hasUnits h2 hp) (column_of_hasUnits h2 hj), hacc0, hwb0]
    simp only [ha, hb]
    rfl
  · rw [hacc, look_addTile_el _ _ _ _ _ hm hp hj, hpsn, hacc0, hwb0]
    rfl
  · rw [hacc, look_addTile _ _ _ _ _ hm, if_neg, hacc0]
    rw [List.mem_range]
    change key % 128 ≥ c.tile.m ∨ key / 128 < c.tile.accb ∨ c.tile.accb + c.tile.banks ≤ key / 128 at hkey
    omega
  · rw [hpsn, Cmd.stepPoison, show c1.psn = true by rw [← hc1]; exact hpre]
    rfl
  · rw [hpsn]
    exact stepPoison_unmarked h2 (by rw [← hc1]; exact hpre) hm1 hm2
  · rw [hspm]
    exact hkeep Core.spm (fun _ _ => rfl) (fun _ _ => rfl)
  · rw [hwb]
    exact hkeep Core.wb (fun _ _ => rfl) (fun _ _ => rfl)

end

end Sys2Proof.Machine
end

section
/-! PROOFS. ACC.SCALE: what its eight rows become (spec/08 R225, R227). -/

namespace Sys2Proof.Machine

theorem akindFmt_cases (k : Nat) : akindFmt k = fFp32 ∨ akindFmt k = fFp64 ∨ akindFmt k = fInt32 := by
  unfold akindFmt
  split <;> simp

theorem tile_limits {c : Cmd} (h : c.tileBad = false) : c.tm ≤ 128 := by
  unfold Cmd.tileBad at h
  simp only [Bool.or_eq_false_iff, decide_eq_false_iff_not] at h
  obtain ⟨⟨⟨-, hm⟩, -⟩, -⟩ := h
  omega

theorem scale_limits {c : Cmd} (h : c.scaleBad = false) : c.tm ≤ 128 := by
  unfold Cmd.scaleBad at h
  simp only [Bool.or_eq_false_iff] at h
  obtain ⟨⟨⟨⟨h, -⟩, -⟩, -⟩, -⟩ := h
  exact tile_limits h

theorem mem_groupRows {c : Cmd} {g i : Nat} : i ∈ c.groupRows g ↔ i < c.tm ∧ i / 8 = g := by simp [Cmd.groupRows]

theorem groupRows_nodup (c : Cmd) (g : Nat) : (c.groupRows g).Nodup := List.nodup_range.filter _

/-! ### The rows scaled -/

/-- One more row of the tile scaled. -/
def Cmd.scaleRowStep (c : Cmd) (vs : List Fp) (x : Core × Nat × Bool) (i : Nat) : Core × Nat × Bool :=
  let y := x.1.scaleRow c i vs c.psn
  (y.1, x.2.1 ||| y.2.1, x.2.2 || y.2.2)

/-- The rows of the next group scaled. -/
def Cmd.scaleGroup (c : Cmd) (vs : List Fp) (co : Core) : Core × Nat × Bool :=
  (c.groupRows c.progress).foldl (c.scaleRowStep vs) (co, 0, false)

theorem scaleGroup_keeps {γ : Type} (p : Core → γ) (hp : ∀ (c : Core) (m : FMap AccRow), p { c with acc := m } = p c) (c : Cmd) (vs : List Fp)
    (co : Core) : p (c.scaleGroup vs co).1 = p co := by
  refine foldl_keeps (fun r : Core × Nat × Bool => p r.1) (c.scaleRowStep vs) (fun _ _ => ?_) _ _
  exact scaleRow_keeps p hp ..

theorem look_scaleGroup (c : Cmd) (vs : List Fp) (co : Core) (hm : c.tm ≤ 128) (key : Nat) :
    look {} (c.scaleGroup vs co).1.acc key = if key % 128 ∈ c.groupRows c.progress ∧ inBanks c.accb c.tbanks key then
      c.rowScaled vs c.psn (key / 128 - c.accb) (look {} co.acc key) else look {} co.acc key :=
  look_rows (g := c.scaleRowStep vs) (fun _ => c.rowScaled vs c.psn)
    (fun _ hi r key => look_scaleRow r.1 c (lt_of_lt_of_le (mem_groupRows.1 hi).1 hm) _ _ key) (groupRows_nodup ..) (co, 0, false) key

/-- An element of the tile after its group has been scaled. -/
theorem elem_scaleGroup {c : Cmd} {co : Core} (hm : c.tm ≤ 128) (v : Nat → Fp) {r j : Nat} (hr : r < c.tm) (hj : j < c.tn) :
    let kind := akindFmt c.akind
    let key := (c.accb + j / accPer kind) * 128 + r
    elem (look {} (c.scaleGroup ((List.range c.tn).map v) co).1.acc key).bits (j % accPer kind) (fmtWidth kind) =
      if r / 8 = c.progress then
        (scaleElem (fpOf kind) (fpDecode (fpOf kind) (elem (look {} co.acc key).bits (j % accPer kind) (fmtWidth kind)))
          (fpDecode (fpOf fFp32) (bits (c.m 0) 0 32)) (v j)).1 % 2 ^ fmtWidth kind
      else elem (look {} co.acc key).bits (j % accPer kind) (fmtWidth kind) := by
  intro kind key
  obtain ⟨h1, h2, h3⟩ := col_inBanks (kind := kind) (accb := c.accb) hj (lt_of_lt_of_le hr hm)
  have hv : ((List.range c.tn).map v)[j / accPer kind * accPer kind + j % accPer kind]? = some (v j) := by
    rw [Nat.div_add_mod', List.getElem?_map, List.getElem?_range hj]
    rfl
  rw [look_scaleGroup _ _ _ hm]
  by_cases hg : r / 8 = c.progress
  · rw [if_pos ⟨by rw [h1]; exact mem_groupRows.2 ⟨hr, hg⟩, h3⟩, h2, if_pos hg]
    exact elem_rowScaled c _ _ _ _ (akindFmt_cases _) (Nat.mod_lt _ (accPer_pos _)) hv
  · rw [if_neg fun h => hg (by rw [h1] at h; exact (mem_groupRows.1 h.1).2), if_neg hg]

/-- The scale of a column whose units have been read. -/
theorem scaleOf_of_hasUnits {c : Cmd} {m : Mem} (h : c.hasUnits m c.scaleUnits) {j : Nat} (hj : j < c.tn) : c.scaleOf j =
    if c.scaleCols then fpDecode (fpOf fFp32) (m.nat (c.vaddr + 4 * j) 4) else .fin false 1 0 false := by
  unfold Cmd.scaleOf
  by_cases hc : c.scaleCols = true
  · rw [if_pos hc, if_pos hc, bytesAt_of_got fun u hu => h u ?_]
    · rfl
    · obtain ⟨b, hb1, hb2, rfl⟩ := unitsOf_touch.1 hu
      rw [Cmd.scaleUnits, if_pos hc]
      exact byte_mem_unitsOf (by omega) (by omega)
  · rw [if_neg hc, if_neg hc]

/-- A step of ACC.SCALE that reads all of its units at once. -/
theorem scaleAdvance_go {s u : State} {c c1 : Cmd} (hp : s.pull c (spaceLoc 0) 0 c.scaleUnits = (u, c1))
    (h : c1.pulled 0 c.scaleUnits = true) : scaleAdvance [] true s c =
      let c2 : Cmd := { c1 with psn := c1.psn || c1.pulledPoison 0 c.scaleUnits }
      let x := c2.scaleGroup ((List.range c2.tn).map c2.scaleOf) (u.core c1.core)
      let c3 : Cmd := { c2 with conds := c2.conds ||| x.2.1, blockPsn := c2.blockPsn || x.2.2, progress := c2.progress + 1 }
      (u.setCore c1.core x.1, if 8 * c3.progress < c3.tm then c3 else c3.goodEnd) := by
  have h0 : s.pull c (spaceLoc 0) 0 ([].filter c.scaleUnits.contains) = (s, c) := rfl
  unfold scaleAdvance
  simp only [h0, if_true, hp, h, Bool.not_true, Bool.or_self, Bool.false_eq_true, if_false]
  rfl

theorem AtBoundary.scale_goes {s : State} {core id n : Nat} {c : Cmd} (hc : AtBoundary s core id c) {i : Instr} {bad : Cmd → Bool}
    (hn : c.routine = n) (hi : exec i s = .next (s.runRoutine n core id (startWith bad) (scaleAdvance [] true))) (hm : c.tm ≤ 128) :
    let kind := akindFmt c.akind
    let key (j r : Nat) : Nat := (c.accb + j / accPer kind) * 128 + r
    let v (j : Nat) : Fp := if c.scaleCols then fpDecode (fpOf fFp32) ((s.core core).spm.nat (c.vaddr + 4 * j) 4) else .fin false 1 0 false
    ∃ t y, RoutineGoes s core c i t y (decide (c.tm ≤ 8 * (c.progress + 1))) ∧
      (t.core core).spm = (s.core core).spm ∧ (t.core core).wb = (s.core core).wb ∧
      (∀ r j, r < c.tm → j < c.tn → elem (look {} (t.core core).acc (key j r)).bits (j % accPer kind) (fmtWidth kind) =
        if r / 8 = c.progress then
          (scaleElem (fpOf kind) (fpDecode (fpOf kind) (elem (look {} (s.core core).acc (key j r)).bits (j % accPer kind) (fmtWidth kind)))
            (fpDecode (fpOf fFp32) (bits (c.m 0) 0 32)) (v j)).1 % 2 ^ fmtWidth kind
        else elem (look {} (s.core core).acc (key j r)).bits (j % accPer kind) (fmtWidth kind)) ∧
      ∀ key, (key % 128 / 8 ≠ c.progress ∨ key / 128 < c.accb ∨ c.accb + c.tbanks ≤ key / 128) →
        look {} (t.core core).acc key = look {} (s.core core).acc key := by
  intro kind key v
  obtain rfl := hc.home
  obtain ⟨u, m, hpull, h1, h2, h3⟩ := hc.pulls (l := spaceLoc 0) (by decide) c.scaleUnits
  obtain ⟨w, hw⟩ := h3.own
  have hacc0 : (u.core c.core).acc = (s.core c.core).acc := by rw [hw]
  have hadv := scaleAdvance_go hpull h1
  generalize hc2 : ({ c with src := m, psn := c.psn || ({ c with src := m } : Cmd).pulledPoison 0 c.scaleUnits } : Cmd) = c2
  have hvs : (List.range c2.tn).map c2.scaleOf = (List.range c.tn).map v := by
    rw [← hc2]
    exact List.map_congr_left fun j hj => scaleOf_of_hasUnits h2 (List.mem_range.1 hj)
  generalize hx : c2.scaleGroup ((List.range c.tn).map v) (u.core c.core) = x
  generalize hc3 : ({ c2 with conds := c2.conds ||| x.2.1, blockPsn := c2.blockPsn || x.2.2, progress := c2.progress + 1 } : Cmd) = c3
  have hf3 : c3.id = c.id ∧ c3.progress = c.progress + 1 ∧ c3.finished = c.finished ∧ c3.tm = c.tm := by
    rw [← hc3, ← hc2]
    exact ⟨rfl, rfl, rfl, rfl⟩
  obtain ⟨hid, hprog, hfin, htm⟩ := hf3
  replace hadv : scaleAdvance [] true s c = (u.setCore c.core x.1, if 8 * (c.progress + 1) < c.tm then c3 else c3.goodEnd) := by
    rw [hadv, ← hprog, ← htm, ← hc3, ← hx, ← hvs, ← hc2]
  have hkeep {γ : Type} (p : Core → γ) (hp : ∀ (c : Core) (m : FMap AccRow), p { c with acc := m } = p c)
      (hq : ∀ (c : Core) (m : List Waiting), p { c with waits := m } = p c) : p ((u.setCore c.core x.1).core c.core) = p (s.core c.core) := by
    rw [core_setCore_same, ← hx, scaleGroup_keeps p hp, hw, hq]
  generalize hy : (if 8 * (c.progress + 1) < c.tm then c3 else c3.goodEnd) = y at hadv
  have hyid : y.id = c.id := by rw [← hy]; split <;> exact hid
  obtain ⟨t, ht, hout, hmq, hacc, hspm, hwb⟩ := hc.exec_step hn hi (by rw [hadv]; exact h3.onlyCore.setCore _)
    (by rw [hadv]; exact hkeep Core.mq (fun _ _ => rfl) (fun _ _ => rfl)) (by rw [hadv]; exact hyid)
  rw [hadv] at hacc hspm hwb hmq
  rw [core_setCore_same, ← hx] at hacc
  refine ⟨t, y, ⟨ht, hout.outside, hout.other, hyid, hmq, ?_, ?_, fun hl => ?_⟩, ?_, ?_, fun r j hr hj => ?_, fun key hkey => ?_⟩
  · rw [← hy]
    split <;> exact hprog
  · rw [← hy]
    split
    next h => rw [hfin, hc.unfinished, decide_eq_false (by omega)]
    next h => exact (decide_eq_true (by omega)).symm
  · rw [← hy, if_neg (by have := of_decide_eq_true hl; omega)]
    exact ⟨rfl, rfl⟩
  · rw [hspm]
    exact hkeep Core.spm (fun _ _ => rfl) (fun _ _ => rfl)
  · rw [hwb]
    exact hkeep Core.wb (fun _ _ => rfl) (fun _ _ => rfl)
  · rw [hacc, ← hacc0, ← hc2]
    exact elem_scaleGroup (c := { c with src := m, psn := _ }) hm v hr hj
  · have hout' : ¬(key % 128 ∈ c.groupRows c.progress ∧ inBanks c.accb c.tbanks key) := by
      rw [mem_groupRows]
      omega
    rw [hacc, ← hacc0, ← hc2]
    exact (look_scaleGroup { c with src := m, psn := _ } _ _ hm key).trans (if_neg hout')

end Sys2Proof.Machine
end

section
/-! PROOFS. ACC.EXPORT: the bytes that its eight rows become (spec/08 R225, R226). -/

namespace Sys2Proof.Machine

theorem look_filterKeys {α : Type} (d : α) (m : FMap α) (f : Nat → Bool) (k : Nat) :
    look d (m.filter fun e => f e.1) k = if f k = true then look d m k else d := by
  induction m with
  | nil => simp [look]
  | cons p r ih =>
    obtain ⟨j, v⟩ := p
    by_cases hj : j = k
    · subst hj
      by_cases hf : f j = true
      · simp [hf, look]
      · simp [hf, ih]
    · by_cases hf : f j = true
      · simp [hf, look, hj, ih]
      · simp [hf, look, hj, ih]

/-! ### The bytes of a row -/

theorem chunks_lengths {α : Type} (n : Nat) (hn : 0 < n) (fuel : Nat) (l : List α) (h : l.length ≤ fuel) :
    (chunks n fuel l).length = (l.length + (n - 1)) / n := by
  induction fuel generalizing l with
  | zero =>
    have : l = [] := List.length_eq_zero_iff.1 (by omega)
    subst this
    simp [chunks, Nat.div_eq_of_lt (show n - 1 < n by omega)]
  | succ fuel ih =>
    cases l with
    | nil => simp [chunks, Nat.div_eq_of_lt (show n - 1 < n by omega)]
    | cons x r =>
      rw [chunks, List.length_cons, ih _ (by simp at h ⊢; omega), List.length_drop]
      by_cases hle : n ≤ (x :: r).length
      · rw [show (x :: r).length + (n - 1) = (x :: r).length - n + (n - 1) + n by omega, Nat.add_div_right _ hn]
      · rw [Nat.sub_eq_zero_of_le (by omega), Nat.zero_add, Nat.div_eq_of_lt (by omega)]
        rw [show (x :: r).length + (n - 1) = r.length + n by rw [List.length_cons]; omega, Nat.add_div_right _ hn, Nat.div_eq_of_lt]
        rw [List.length_cons] at hle
        omega
      · simp

theorem length_flatMap_const {α β : Type} (l : List α) (f : α → List β) (n : Nat) (h : ∀ x ∈ l, (f x).length = n) :
    (l.flatMap f).length = l.length * n := by
  induction l with
  | nil => simp
  | cons x r ih =>
    rw [List.flatMap_cons, List.length_append, h x (List.mem_cons_self ..), ih fun y hy => h y (List.mem_cons_of_mem _ hy), List.length_cons,
      Nat.add_one_mul, Nat.add_comm]

theorem getElem?_flatMap_const {α β : Type} {n : Nat} (hn : 0 < n) (l : List α) (f : α → List β) (h : ∀ x ∈ l, (f x).length = n) (i : Nat) :
    (l.flatMap f)[i]? = (l[i / n]?).bind fun x => (f x)[i % n]? := by
  induction l generalizing i with
  | nil => simp
  | cons x r ih =>
    have hx := h x (List.mem_cons_self ..)
    rw [List.flatMap_cons]
    by_cases hi : i < n
    · rw [List.getElem?_append_left (by omega), Nat.div_eq_of_lt hi, Nat.mod_eq_of_lt hi]
      rfl
    · obtain ⟨k, rfl⟩ : ∃ k, i = k + n := ⟨i - n, by omega⟩
      rw [List.getElem?_append_right (by omega), hx, Nat.add_sub_cancel, ih fun y hy => h y (List.mem_cons_of_mem _ hy),
        Nat.add_div_right _ hn, Nat.add_mod_right]
      rfl

theorem exportRow_length (c : Cmd) (xs : List Nat) : (c.exportRow xs).1.length = rowBytes c.dfmt xs.length := by
  unfold Cmd.exportRow rowBytes
  dsimp only
  split
  · dsimp only
    rw [length_flatMap_const _ _ 64 fun _ _ => leBytes_length .., List.length_map, chunks_lengths 96 (by decide) _ _ (by simp),
      List.length_map, Nat.mul_comm]
  · dsimp only
    rw [length_flatMap_const _ _ (fmtBytes c.dfmt) fun _ _ => leBytes_length .., List.length_map]

/-- The elements of a tile row are those of its columns, bank by bank. -/
theorem tileRow_elems (co : Core) (c : Cmd) (i : Nat) : (co.tileRow c i).1 = (List.range c.tn).map fun j =>
    elem (look {} co.acc ((c.accb + j / accPer (akindFmt c.akind)) * 128 + i)).bits (j % accPer (akindFmt c.akind)) (fmtWidth (akindFmt c.akind)) := by
  unfold Core.tileRow Cmd.tbanks
  have hp := accPer_pos (akindFmt c.akind)
  obtain ⟨hper, -⟩ := accPer_width (akindFmt_cases c.akind)
  dsimp only
  rw [List.flatMap_map]
  refine List.ext_getElem? fun j => ?_
  by_cases hj : j < c.tn
  · have hq : j / accPer (akindFmt c.akind) < (c.tn + accPer (akindFmt c.akind) - 1) / accPer (akindFmt c.akind) := by
      rw [Nat.lt_div_iff_mul_lt hp]
      have := Nat.div_mul_le_self j (accPer (akindFmt c.akind))
      omega
    have hr := Nat.mod_lt j hp
    rw [List.getElem?_take_of_lt hj, getElem?_flatMap_const hp _ _ fun _ _ => by simp [elems, hper], List.getElem?_range hq, List.getElem?_map,
      List.getElem?_range hj]
    simp only [Option.bind_some, Option.map_some, elems, hper, List.getElem?_map, List.getElem?_range hr]
  · rw [List.getElem?_eq_none (by simp; omega), List.getElem?_eq_none (by simp; omega)]

/-- No byte of a row all of whose elements are unmarked is marked. -/
theorem unitMarked_false {co : Core} {c : Cmd} {i : Nat} (h : ∀ j, j < c.tn →
    (look {} co.acc ((c.accb + j / accPer (akindFmt c.akind)) * 128 + i)).psn = false) (base n u : Nat) :
    c.unitMarked (co.tileRow c i).2 base n u = false := by
  have hsrc (k q : Nat) (hk : c.srcBank k = some q) : nth false (co.tileRow c i).2 q = false := by
    unfold Cmd.srcBank at hk
    dsimp only at hk
    generalize (if fmtPacket.contains c.dfmt = true then _ else _ : Nat) = e at hk
    split at hk
    next he =>
      obtain rfl := Option.some.inj hk
      have hp := accPer_pos (akindFmt c.akind)
      have hq : e / accPer (akindFmt c.akind) < c.tbanks := by
        rw [Cmd.tbanks, Nat.lt_div_iff_mul_lt hp]
        have := Nat.div_mul_le_self e (accPer (akindFmt c.akind))
        omega
      rw [Core.tileRow]
      dsimp only
      rw [List.map_map, nth_map_range _ _ _ _ hq]
      exact h e he
    · cases hk
  unfold Cmd.unitMarked
  refine List.any_eq_false.2 fun j _ => ?_
  cases hb : c.srcBank (8 * u + j - base) with
  | none => simp
  | some q => simp [hsrc _ _ hb]

/-! ### Rows written in turn -/

/-- Rows written in turn at ascending places: a byte has the value of the last row that holds it. -/
theorem byte_rows {rows : List Nat} (hs : rows.Pairwise (· < ·)) (at_ : Nat → Nat) (bs : Nat → List Byte) (n : Nat)
    (hn : ∀ r ∈ rows, (bs r).length = n) (m : Mem) :
    let m' := rows.foldl (fun m r => m.putUnits (at_ r) (bs r) false (unitsOf (at_ r) n)) m
    (∀ r ∈ rows, ∀ z, z < n → (∀ q ∈ rows, r < q → ¬(at_ q ≤ at_ r + z ∧ at_ r + z < at_ q + n)) → m'.byte (at_ r + z) = nth 0 (bs r) z) ∧
    ∀ w, (∀ r ∈ rows, ¬(at_ r ≤ w ∧ w < at_ r + n)) → m'.byte w = m.byte w := by
  induction rows generalizing m with
  | nil => exact ⟨fun r hr => absurd hr List.not_mem_nil, fun _ _ => rfl⟩
  | cons x l ih =>
    obtain ⟨hx, hl⟩ := List.pairwise_cons.1 hs
    obtain ⟨h1, h2⟩ := ih hl (fun r hr => hn r (List.mem_cons_of_mem _ hr)) (m.putUnits (at_ x) (bs x) false (unitsOf (at_ x) n))
    have hlen := hn x (List.mem_cons_self ..)
    refine ⟨fun r hr z hz hlater => ?_, fun w hw => ?_⟩
    · rcases List.mem_cons.1 hr with rfl | hr
      · rw [List.foldl_cons, h2 _ fun q hq => hlater q (List.mem_cons_of_mem _ hq) (hx q hq), ← hlen, byte_putUnits_all, if_pos (by omega),
          Nat.add_sub_cancel_left]
      · exact h1 r hr z hz fun q hq => hlater q (List.mem_cons_of_mem _ hq)
    · rw [List.foldl_cons, h2 _ fun q hq => hw q (List.mem_cons_of_mem _ hq), ← hlen, byte_putUnits_all, if_neg]
      rw [hlen]
      exact hw x (List.mem_cons_self ..)

/-! ### The writes of a group -/

/-- A unit of a row goes into the scratchpad. -/
def Cmd.exportUnit (c : Cmd) (co : Core) (m : Mem) (p : Nat × Nat) : Mem :=
  let row := co.tileRow c p.1
  let bs := (c.exportRow row.1).1
  m.blend p.2 (unitPart p.2 (c.rowAt p.1) bs).1 (unitPart p.2 (c.rowAt p.1) bs).2 (c.unitMarked row.2 (c.rowAt p.1) bs.length p.2)

/-- The next unit of a group, where no window holds the core's banks. -/
theorem exportWrite_next {s : State} {c : Cmd} {i u : Nat} {r : List Nat} (hu : u < 2 ^ 17) (hl : ∀ b, s.locked c.core b = false)
    (ht : c.todo = exportKey i u :: r) : ∃ t, exportWrite (s, c) (exportKey i u) = (t, { c with todo := r }) ∧ OnlyCore s c.core t ∧
      ∃ w, t.core c.core = { s.core c.core with waits := w, spm := c.exportUnit (s.core c.core) (s.core c.core).spm (i, u) } := by
  have hmod : exportKey i u % 2 ^ 17 = u := by
    unfold exportKey
    omega
  have hdiv : exportKey i u / 2 ^ 17 = i := by
    unfold exportKey
    omega
  obtain ⟨h1, h2⟩ := locReach_free (freeAt_unlocked (c := c) (l := spaceLoc 0) (by decide) hl u)
  obtain ⟨w, hw⟩ := h2.own
  have hfind : c.todo.find? (fun k => k % 2 ^ 17 == u) = some (exportKey i u) := by
    rw [ht, List.find?_cons_of_pos (p := fun k => k % 2 ^ 17 == u) (beq_iff_eq.2 hmod)]
  have herase : c.todo.erase (exportKey i u) = r := by rw [ht, List.erase_cons_head]
  have hwrite (s : State) (mask : Nat) (data : Word) (psn : Bool) : s.writeLoc c (spaceLoc 0) u mask data psn =
    s.setCore c.core { s.core c.core with spm := (s.core c.core).spm.blend u mask data psn } := rfl
  unfold exportWrite
  dsimp only
  rw [hmod, hdiv, hfind, h1, herase, if_neg (by simp), if_neg (by simp), hwrite]
  refine ⟨_, rfl, h2.onlyCore.setCore _, w, ?_⟩
  rw [core_setCore_same, hw]
  rfl

/-- The units of a group written in turn. -/
theorem exportWrites (l : List (Nat × Nat)) (hu : ∀ p ∈ l, p.2 < 2 ^ 17) {s : State} {c : Cmd} (hl : ∀ b, s.locked c.core b = false)
    (ht : c.todo = l.map fun p => exportKey p.1 p.2) : ∃ t, c.todo.foldl exportWrite (s, c) = (t, { c with todo := [] }) ∧
      OnlyCore s c.core t ∧
      ∃ w, t.core c.core = { s.core c.core with waits := w, spm := l.foldl (c.exportUnit (s.core c.core)) (s.core c.core).spm } := by
  induction l generalizing s c with
  | nil =>
    rw [ht]
    exact ⟨s, by rw [← ht.trans List.map_nil]; rfl, ⟨rfl, fun _ _ => rfl⟩, (s.core c.core).waits, rfl⟩
  | cons p r ih =>
    obtain ⟨t, h1, h2, w, hw⟩ := exportWrite_next (hu p (List.mem_cons_self ..)) hl ht
    have hl' : ∀ b, t.locked c.core b = false := fun b => by
      rw [← hl b]
      refine locked_congr (fun k => ?_) ..
      rw [h2.outside]
      rfl
    obtain ⟨t', g1, g2, w', hw'⟩ := ih (fun q hq => hu q (List.mem_cons_of_mem _ hq)) (s := t)
      (c := { c with todo := r.map fun p => exportKey p.1 p.2 }) hl' rfl
    refine ⟨t', ?_, ⟨?_, fun k hk => (g2.other k hk).trans (h2.other k hk)⟩, w', ?_⟩
    · rw [ht, List.map_cons, List.foldl_cons, h1]
      exact g1
    · rw [g2.outside, h2.outside]
    · rw [hw', hw]
      rfl

end Sys2Proof.Machine
end

section
/-! PROOFS. A group of ACC.EXPORT from its opening to its end (spec/08 R225, R226). -/

namespace Sys2Proof.Machine

/-- The units of a group, the rows in order. -/
def Cmd.groupUnits (c : Cmd) : List (Nat × Nat) :=
  (c.groupRows c.progress).flatMap fun i => (unitsOf (c.rowAt i) (rowBytes c.dfmt c.tn)).map fun u => (i, u)

theorem openGroup_todo (c : Cmd) (co : Core) : (c.openGroup co).todo = c.groupUnits.map fun p => exportKey p.1 p.2 := by
  simp [Cmd.openGroup, Cmd.groupUnits, List.map_flatMap, List.map_map, Function.comp_def]

/-- What the limits of ACC.EXPORT say of the tile. -/
theorem export_limits {c : Cmd} (h : c.exportBad = false) : c.tm ≤ 128 ∧ c.accb + c.tbanks ≤ 8 ∧
    c.daddr + (c.tm - 1) * c.dstride + rowBytes c.dfmt c.tn ≤ 2 ^ 20 := by
  unfold Cmd.exportBad at h
  simp only [Bool.or_eq_false_iff, decide_eq_false_iff_not] at h
  obtain ⟨⟨⟨⟨⟨⟨ht, -⟩, -⟩, -⟩, -⟩, -⟩, hlim⟩ := h
  have hb := ht
  unfold Cmd.tileBad at hb
  simp only [Bool.or_eq_false_iff, decide_eq_false_iff_not] at hb
  exact ⟨tile_limits ht, Nat.le_of_not_lt hb.2, Nat.le_of_not_lt hlim⟩

theorem groupUnits_lt {c : Cmd} (h : c.daddr + (c.tm - 1) * c.dstride + rowBytes c.dfmt c.tn ≤ 2 ^ 20) {p : Nat × Nat} (hp : p ∈ c.groupUnits) :
    p.2 < 2 ^ 17 := by
  obtain ⟨i, hi, hp⟩ := List.mem_flatMap.1 hp
  obtain ⟨u, hu, rfl⟩ := List.mem_map.1 hp
  obtain ⟨b, h1, h2, rfl⟩ := unitsOf_touch.1 hu
  have hm := Nat.mul_le_mul_right c.dstride (show i ≤ c.tm - 1 by have := (mem_groupRows.1 hi).1; omega)
  unfold Cmd.rowAt at h2
  dsimp only
  omega

/-- The units of a group whose rows are unmarked, written in turn: its rows, written in turn. -/
theorem groupUnits_foldl {c : Cmd} {co : Core} (h : ∀ i ∈ c.groupRows c.progress, ∀ j, j < c.tn →
    (look {} co.acc ((c.accb + j / accPer (akindFmt c.akind)) * 128 + i)).psn = false) (m : Mem) :
    c.groupUnits.foldl (c.exportUnit co) m = (c.groupRows c.progress).foldl (fun m i =>
      m.putUnits (c.rowAt i) (c.exportRow (co.tileRow c i).1).1 false (unitsOf (c.rowAt i) (rowBytes c.dfmt c.tn))) m := by
  unfold Cmd.groupUnits
  rw [List.foldl_flatMap]
  refine List.foldl_ext _ _ _ fun m i hi => ?_
  rw [List.foldl_map]
  refine List.foldl_ext _ _ _ fun m u _ => ?_
  unfold Cmd.exportUnit
  dsimp only
  rw [unitMarked_false (h i hi)]

/-- What ACC.EXPORT leaves of the accumulator. -/
theorem look_clearBanks (co : Core) {b n e : Nat} (h : b + (n + e - 1) / e ≤ 8) (key : Nat) :
    look {} (co.clearBanks (tileBanks b n e)).acc key =
      if b ≤ key / 128 ∧ key / 128 < b + (n + e - 1) / e then {} else look {} co.acc key := by
  have hmem : (tileBanks b n e).contains (key / 128) = true ↔ b ≤ key / 128 ∧ key / 128 < b + (n + e - 1) / e := by
    simp only [tileBanks, List.contains_iff_mem, List.mem_filter, List.mem_map, List.mem_range, decide_eq_true_eq]
    constructor
    · rintro ⟨⟨q, hq, hk⟩, -⟩
      omega
    · rintro ⟨h1, h2⟩
      exact ⟨⟨key / 128 - b, by omega, by omega⟩, by omega⟩
  unfold Core.clearBanks
  rw [look_filterKeys {} co.acc (fun k => !(tileBanks b n e).contains (k / 128))]
  by_cases hk : (tileBanks b n e).contains (key / 128) = true
  · rw [if_pos (hmem.1 hk), hk]
    rfl
  · rw [if_neg fun hh => hk (hmem.2 hh), (Bool.not_eq_true _).mp hk]
    rfl

/-- A group of ACC.EXPORT, all of it written at once. -/
theorem exportAdvance_go {s u : State} {c c1 : Cmd} (hph : c.phase = 0) (hp : (c.openGroup (s.core c.core)).todo.foldl exportWrite
      (s, c.openGroup (s.core c.core)) = (u, c1)) (h : c1.todo = []) : exportAdvance [] true s c =
      let c2 : Cmd := { c1 with phase := 0, progress := c1.progress + 1 }
      if 8 * c2.progress < c2.tm then (u, c2)
      else (if bit (c2.m 1) 23 then u.setCore c2.core ((u.core c2.core).clearBanks (tileBanks c2.accb c2.tn (accPer (akindFmt c2.akind)))) else u,
        c2.goodEnd) := by
  unfold exportAdvance
  simp only [hph, if_true, List.foldl_nil, hp, h, List.isEmpty_nil, Bool.not_true, Bool.false_eq_true, if_false]

theorem AtBoundary.export_goes {s : State} {core id n : Nat} {c : Cmd} (hc : AtBoundary s core id c) {i : Instr} {bad : Cmd → Bool}
    (hn : c.routine = n) (hi : exec i s = .next (s.runRoutine n core id (startWith bad) (exportAdvance [] true))) (hgood : c.exportBad = false)
    (hph : c.phase = 0) :
    let kind := akindFmt c.akind
    let rows := c.groupRows c.progress
    let n := rowBytes c.dfmt c.tn
    let row (r : Nat) : List Byte := (c.exportRow ((s.core core).tileRow c r).1).1
    let last := decide (c.tm ≤ 8 * (c.progress + 1))
    ∃ t y, RoutineGoes s core c i t y last ∧ (t.core core).wb = (s.core core).wb ∧
      ((∀ r ∈ rows, ∀ j, j < c.tn → (look {} (s.core core).acc ((c.accb + j / accPer kind) * 128 + r)).psn = false) →
        (∀ r ∈ rows, ∀ z, z < n → (∀ q ∈ rows, r < q → ¬(c.rowAt q ≤ c.rowAt r + z ∧ c.rowAt r + z < c.rowAt q + n)) →
          (t.core core).spm.byte (c.rowAt r + z) = nth 0 (row r) z) ∧
        ∀ w, (∀ r ∈ rows, ¬(c.rowAt r ≤ w ∧ w < c.rowAt r + n)) → (t.core core).spm.byte w = (s.core core).spm.byte w) ∧
      ∀ key, look {} (t.core core).acc key =
        if last = true ∧ bit (c.m 1) 23 = true ∧ c.accb ≤ key / 128 ∧ key / 128 < c.accb + c.tbanks then {}
        else look {} (s.core core).acc key := by
  intro kind rows n row last
  obtain rfl := hc.home
  obtain ⟨-, hbanks, hfit⟩ := export_limits hgood
  obtain ⟨u, hwrites, hu, w, hw⟩ := exportWrites c.groupUnits (fun p hp => groupUnits_lt hfit hp) (s := s) (c := c.openGroup (s.core c.core))
    hc.unlocked (openGroup_todo ..)
  have hadv := exportAdvance_go hph hwrites rfl
  generalize hc2 : ({ c.openGroup (s.core c.core) with todo := [], phase := 0, progress := c.progress + 1 } : Cmd) = c2
  have hf2 : c2.id = c.id ∧ c2.progress = c.progress + 1 ∧ c2.finished = c.finished := by
    rw [← hc2]
    exact ⟨rfl, rfl, rfl⟩
  obtain ⟨hid, hprog, hfin⟩ := hf2
  generalize hv : (if last = true ∧ bit (c.m 1) 23 = true then u.setCore c.core ((u.core c.core).clearBanks
    (tileBanks c.accb c.tn (accPer kind))) else u) = v
  generalize hy : (if last = true then c2.goodEnd else c2) = y
  replace hadv : exportAdvance [] true s c = (v, y) := by
    by_cases h : 8 * (c.progress + 1) < c.tm
    · have hl : ¬last = true := fun hl => absurd (of_decide_eq_true hl) (by omega)
      rw [if_neg fun hh => hl hh.1] at hv
      rw [if_neg hl] at hy
      rw [hadv, ← hv, ← hy, ← hc2]
      exact if_pos h
    · have hl : last = true := decide_eq_true (by omega)
      simp only [hl, true_and] at hv
      rw [if_pos hl] at hy
      rw [hadv, ← hv, ← hy, ← hc2]
      exact if_neg h
  have hvo : OnlyCore s c.core v := by
    rw [← hv]
    split
    · exact hu.setCore _
    · exact hu
  have hkeep {γ : Type} (p : Core → γ) (hp : ∀ (c : Core) (m : FMap AccRow), p { c with acc := m } = p c)  :
      p (v.core c.core) = p (u.core c.core) := by
    rw [← hv]
    split
    · rw [core_setCore_same]
      exact hp ..
    · rfl
  have hyid : y.id = c.id := by rw [← hy]; split <;> exact hid
  obtain ⟨t, ht, hout, hmq, hacc, hspm, hwb⟩ := hc.exec_step hn hi (by rw [hadv]; exact hvo)
    (by rw [hadv, hkeep Core.mq fun _ _ => rfl]; exact (congrArg Core.mq hw :)) (by rw [hadv]; exact hyid)
  rw [hadv] at hacc hspm hwb hmq
  replace hspm := hspm.trans ((hkeep Core.spm fun _ _ => rfl).trans (congrArg Core.spm hw))
  replace hwb := hwb.trans ((hkeep Core.wb fun _ _ => rfl).trans (congrArg Core.wb hw))
  refine ⟨t, y, ⟨ht, hout.outside, hout.other, hyid, hmq, ?_, ?_, fun hl => ?_⟩, hwb, fun hmark => ?_, fun key => ?_⟩
  · rw [← hy]
    split <;> exact hprog
  · rw [← hy]
    split
    next h => exact h.symm
    next h => rw [hfin, hc.unfinished, (Bool.not_eq_true _).mp h]
  · rw [← hy, if_pos hl]
    exact ⟨rfl, rfl⟩
  · have hrows : (t.core c.core).spm = rows.foldl (fun m i =>
        m.putUnits (c.rowAt i) (row i) false (unitsOf (c.rowAt i) (rowBytes c.dfmt c.tn))) (s.core c.core).spm :=
      hspm.trans (groupUnits_foldl hmark _)
    rw [hrows]
    exact byte_rows (List.pairwise_lt_range.filter _) c.rowAt row n (fun r _ => by rw [exportRow_length, tileRow_elems]; simp [n]) _
  · rw [hacc, ← hv]
    have hua : (u.core c.core).acc = (s.core c.core).acc := (congrArg Core.acc hw :)
    by_cases hl : last = true ∧ bit (c.m 1) 23 = true
    · rw [if_pos hl, core_setCore_same, look_clearBanks _ hbanks, hua]
      simp only [hl, true_and]
      rfl
    · rw [if_neg hl, if_neg fun h => hl ⟨h.1, h.2.1⟩, hua]

end Sys2Proof.Machine
end

section
/-! PROOFS. Which routine runs, and what one step of it does. -/

namespace Sys2Proof.Machine

/-- The moves of each routine's command while it does not run. -/
theorem routines_move (core id : Nat) (us : List Nat) (go : Bool) (s : State) :
    RoutineMoves (.mma core id us go) 1 Cmd.mmaBad core id s ∧ RoutineMoves (.mmaNm core id us go) 2 Cmd.mmaBad core id s ∧
    RoutineMoves (.mmaNmt core id us go) 3 Cmd.mmaBad core id s ∧ RoutineMoves (.mmaCoop core id us go) 4 Cmd.coopBad core id s ∧
    RoutineMoves (.accExport core id us go) 6 Cmd.exportBad core id s ∧ RoutineMoves (.accScale core id us go) 7 Cmd.scaleBad core id s :=
  ⟨routineMoves_of rfl, routineMoves_of rfl, routineMoves_of rfl, routineMoves_of rfl, routineMoves_of rfl, routineMoves_of rfl⟩

/-- The formats and the places of the operands, routine by routine. -/
theorem tile_coop (c : Cmd) : c.tile.coop = (c.routine == 4) ∧ c.tile.trans = (c.routine == 3) ∧ (c.routine = 4 → c.tile.layout = 0) := by
  refine ⟨rfl, rfl, fun h => ?_⟩
  simp [Cmd.tile, h]

/-- The bytes of an exported row, element by element or packet by packet. -/
theorem exportRow_bytes (c : Cmd) (xs : List Nat) : (c.exportRow xs).1 =
    if fmtPacket.contains c.dfmt then (chunks 96 xs.length (xs.map (fpDecode (fpOf (akindFmt c.akind))))).flatMap fun g =>
      leBytes 64 (packetOf c.dfmt (bits (c.m 1) 32 16) c.expRm g).1
    else xs.flatMap fun e => leBytes (fmtBytes c.dfmt) (convert c.dfmt (akindFmt c.akind) { mode := c.expRm } e).1 := by
  unfold Cmd.exportRow
  dsimp only
  split <;> rw [List.flatMap_map]

/-- What the limits say of the tile of each routine. -/
theorem routine_limits {c : Cmd} (hr : c.routine = 1 ∨ c.routine = 2 ∨ c.routine = 3 ∨ c.routine = 4)
    (h : (if c.routine = 4 then c.coopBad else c.mmaBad) = false) : c.tile.m ≤ 128 ∧ (c.routine = 1 → c.tile.layout = 0) ∧
    (c.tile.layout = 1 ↔ c.routine = 2 ∨ c.routine = 3) := by
  obtain ⟨-, -, hlay4⟩ := tile_coop c
  by_cases h4 : c.routine = 4
  · rw [if_pos h4] at h
    exact ⟨coop_limits h, by omega, by rw [hlay4 h4]; omega⟩
  · rw [if_neg h4] at h
    obtain ⟨hm, h1, h2⟩ := mma_limits h
    refine ⟨hm, h1, fun hl => ?_, fun h23 => h2 (by omega)⟩
    by_contra hn
    rw [h1 (by omega)] at hl
    cases hl

/-- Each routine of the MMA family goes on by `tileAdvance`. -/
theorem exec_mmaFamily {core id : Nat} {s : State} {r : Nat} (hr : r = 1 ∨ r = 2 ∨ r = 3 ∨ r = 4) : ∃ bad, exec (match r with
      | 1 => Instr.mma core id [] true
      | 2 => .mmaNm core id [] true
      | 3 => .mmaNmt core id [] true
      | _ => .mmaCoop core id [] true) s = .next (s.runRoutine r core id (startWith bad) (tileAdvance [] true)) := by
  rcases hr with rfl | rfl | rfl | rfl
  · exact ⟨Cmd.mmaBad, rfl⟩
  · exact ⟨Cmd.mmaBad, rfl⟩
  · exact ⟨Cmd.mmaBad, rfl⟩
  · exact ⟨Cmd.coopBad, rfl⟩

/-- Settles O51, routine by routine: the moves that the queue makes are one lemma for all six, and each step is a fold over rows of the
tile whose keys do not meet. -/
theorem matrixRoutinesRun : Obligations.MatrixRoutinesRun := by
  unfold Obligations.MatrixRoutinesRun
  refine ⟨fun core id us go s => ⟨fun c hrun => ?_, fun x hx => ?_⟩, fun core id s c => ?_, fun kind acc ps hk h => ?_⟩
  · rw [nextRoutine_idle hrun]
    exact bestOf_eq_some
  · obtain ⟨h1, h2, h3, h4, h6, h7⟩ := routines_move core id us go s
    simp only [List.mem_cons, List.not_mem_nil, or_false] at hx
    rcases hx with rfl | rfl | rfl | rfl | rfl | rfl
    · exact h1
    · exact h2
    · exact h3
    · exact h4
    · exact h6
    · exact h7
  · intro co el marked result goes hfound hhome hop hawake hstarted hrunning hfin hfirst hunlocked hunread t0 kind step k0 k1 item store a b pairs
      sum i masks
    have hc : AtBoundary s core id c := ⟨hfound, hhome, hop, hawake, hstarted, hrunning, hfin, hfirst, hunlocked, hunread⟩
    refine ⟨fun hr hgood hk hm => ?_, fun hr hgood hm => ?_, fun hr hgood hph hk => ?_, fun hr hgood hk => ?_⟩
    · have hcases : c.routine = 1 ∨ c.routine = 2 ∨ c.routine = 3 ∨ c.routine = 4 := by simpa using hr
      obtain ⟨hcoop, htrans, -⟩ := tile_coop c
      obtain ⟨hlm, hlay1, hlay⟩ := routine_limits hcases hgood
      obtain ⟨bad, hi⟩ := exec_mmaFamily (core := core) (id := id) (s := s) hcases
      have hmem : s.tileMem c = if c.routine = 4 then store else co.spm := by
        simp only [State.tileMem, hcoop, beq_iff_eq]
        rw [hhome]
      have ha (r k : Nat) : a r k = rowItem c.tile.af (c.tile.abase + r * c.tile.astr) k (s.tileMem c).bytes := by
        rw [hmem]
        dsimp only [a]
        split <;> rfl
      have hb (k j : Nat) : b k j = c.tile.bItem co.wb (s.tileMem c) k j := by
        rw [hmem]
        dsimp only [b]
        unfold Tile.bItem
        rcases hcases with h | h | h | h
        · simp only [hcoop, h, hlay1 h]
          rfl
        · simp only [hcoop, htrans, h, hlay.2 (.inl h)]
          rfl
        · simp only [hcoop, htrans, h, hlay.2 (.inr h)]
          rfl
        · simp only [hcoop, h]
          rfl
      have hv : ¬(c.tile.layout = 1 ∧ (c.tile.blocks (c.tile.stepLo c.progress) (c.tile.stepHi c.progress)).any
          (fun n => !maskValid (c.tile.mask co.wb n)) = true) := by
        rintro ⟨hl, hany⟩
        obtain ⟨n, hn, hbad⟩ := List.any_eq_true.1 hany
        rw [stepHi_eq] at hn
        have hvalid : maskValid (c.tile.mask co.wb n) = true := hm (hlay.1 hl) n hn
        rw [hvalid] at hbad
        cases hbad
      obtain ⟨t, y, hgo, hel, hout, hpsn, hclean, hspm, hwb⟩ := hc.kStep_goes rfl hi hlm hv ha hb
      refine ⟨t, y, hgo, hel, hout, hpsn, fun hp hmark => hclean hp (fun u => ?_) fun u => (hmark u).2.1, hspm, hwb⟩
      rw [hmem]
      split
      · exact (hmark u).2.2
      · exact (hmark u).1
    · have hcases : c.routine = 2 ∨ c.routine = 3 := by simpa using hr
      obtain ⟨bad, hi⟩ := exec_mmaFamily (core := core) (id := id) (s := s) (r := c.routine) (by omega)
      obtain ⟨-, -, hlay⟩ := routine_limits (c := c) (by omega) (by rw [if_neg (by omega)]; exact hgood)
      refine hc.badMask_ends rfl hi (hlay.2 hcases) ?_
      by_contra hn
      refine hm fun _ n hmem => ?_
      by_contra hbad
      exact hn ⟨n, by rw [stepHi_eq]; exact hmem, hbad⟩
    · obtain ⟨t, y, hgo, hwb, hbytes, hacc⟩ := hc.export_goes (i := .accExport core id [] true) hr rfl hgood hph
      have hrow (r : Nat) : (c.exportRow ((s.core core).tileRow c r).1).1 = _ :=
        (exportRow_bytes c _).trans (by rw [tileRow_elems, List.length_map, List.length_range])
      simp only [hrow] at hbytes
      exact ⟨t, y, hgo, hwb, hbytes, hacc⟩
    · exact hc.scale_goes hr rfl (scale_limits hgood)
  · rw [groupSum_nan h, accAdd_nan hk]

end Sys2Proof.Machine
end

section
/-! PROOFS. What the copy engine's events leave besides their moves (spec/09 R229, R235, R241). -/

namespace Sys2Proof.Machine

/-! ### Ends and signals leave the data -/

/-- Memory, every scratchpad, every cluster store and the updates on their way stand. -/
structure SameData (s t : State) : Prop where
  mem : t.mem = s.mem
  updates : t.updates = s.updates
  spm : ∀ k, (t.core k).spm = (s.core k).spm
  store : ∀ k, (t.cluster k).store = (s.cluster k).store

theorem SameData.refl (s : State) : SameData s s := ⟨rfl, rfl, fun _ => rfl, fun _ => rfl⟩

theorem SameData.trans {s t u : State} (h : SameData s t) (g : SameData t u) : SameData s u :=
  ⟨g.mem.trans h.mem, g.updates.trans h.updates, fun k => (g.spm k).trans (h.spm k), fun k => (g.store k).trans (h.store k)⟩

theorem sameData_setCore {s : State} {k : Nat} {x : Core} (h : x.spm = (s.core k).spm) : SameData s (s.setCore k x) := by
  refine ⟨rfl, rfl, fun j => ?_, fun _ => rfl⟩
  rw [core_setCore]
  split
  next hj => rw [h, hj]
  · rfl

theorem sameData_setCtx (s : State) (k : Nat) (x : Ctx) : SameData s (s.setCtx k x) := ⟨rfl, rfl, fun _ => rfl, fun _ => rfl⟩

theorem sameData_setCopy (s : State) (core : Nat) (c : Cmd) : SameData s (s.setCopy core c) := sameData_setCore rfl

theorem sameData_showWrites (s : State) (id : Nat) : SameData s (s.showWrites id) := ⟨rfl, rfl, fun _ => rfl, fun _ => rfl⟩

theorem sameData_setSem (s : State) (cl : Nat) (i : TaskInfo) (n : Nat) (x : Sem) : SameData s (s.setSem cl i n x) := by
  unfold State.setSem
  split
  · exact ⟨rfl, rfl, fun _ => rfl, fun _ => rfl⟩
  · refine ⟨rfl, rfl, fun _ => rfl, fun k => ?_⟩
    rw [cluster_setCluster]
    split
    next h => rw [h]
    · rfl

theorem sameData_testWaits (s : State) (cl : Nat) (i : TaskInfo) (n : Nat) (l : List Nat) : SameData s (s.testWaits cl i n l) := by
  rw [(testWaits_spec s cl i n l).1]
  exact ⟨rfl, rfl, fun _ => rfl, fun _ => rfl⟩

theorem sameData_noteTeams (s : State) : SameData s s.noteTeams :=
  ⟨rfl, rfl, fun _ => rfl, look_map_same ({} : Cluster) s.clusters
    (g := fun p => (p.1, { p.2 with slots := p.2.slots.map fun r => (r.1, s.noteTeam r.2) })) Cluster.store (fun _ => rfl) fun _ => rfl⟩

theorem sameData_signal (s : State) (cl : Nat) (i : TaskInfo) (n : Nat) (inc : ℤ) : SameData s (s.signal cl i n inc) := by
  unfold State.signal State.semChange
  dsimp only
  have h := (sameData_setSem s cl i n ((s.sem cl i n).add inc)).trans (sameData_testWaits _ cl i n (s.ctxs.map Prod.fst))
  split
  · exact h.trans (sameData_noteTeams _)
  · exact h

theorem sameData_landScalar (s : State) (k n : Nat) (v : SReg) : SameData s (s.landScalar k n v) := by
  unfold State.landScalar
  dsimp only
  split
  · exact sameData_setCore rfl
  · exact (sameData_setCtx ..).trans (sameData_setCore rfl)

theorem sameData_arriveWord (s : State) (k e n : Nat) (w : Word) : SameData s (s.arriveWord k e (.s n) w) := by
  unfold State.arriveWord
  dsimp only
  split
  · exact sameData_setCtx ..
  · exact (sameData_setCtx ..).trans (sameData_landScalar ..)

/-- A command that leaves its queue, its status kept by its task. -/
def State.leaveQueue (s : State) (c : Cmd) : State :=
  let out (l : List Cmd) : List Cmd := l.filter fun x => x.id != c.id
  let co := s.core c.core
  let s := s.setCore c.core { co with cq := out co.cq, mq := out co.mq, lq := out co.lq, mqstat := out co.mqstat }
  s.setCtx c.ctx { s.ctx c.ctx with arch := (s.ctx c.ctx).arch.noteStatus c.id c.status }

theorem sameData_leaveQueue (s : State) (c : Cmd) : SameData s (s.leaveQueue c) := by
  unfold State.leaveQueue
  refine SameData.trans ?_ (sameData_setCtx ..)
  exact sameData_setCore rfl

/-- A token that lands: its command leaves its queue, and where the token is waited for a word arrives. -/
theorem landToken_cases (s : State) (c : Cmd) : s.landToken c = s.leaveQueue c ∨
    ∃ j w, s.landToken c = (s.leaveQueue c).arriveWord c.ctx j (.s c.d) w := by
  unfold State.landToken
  dsimp only
  split
  · exact .inr ⟨_, _, rfl⟩
  · exact .inl rfl

theorem sameData_landToken (s : State) (c : Cmd) : SameData s (s.landToken c) := by
  obtain h | ⟨j, w, h⟩ := landToken_cases s c
  · rw [h]
    exact sameData_leaveQueue ..
  · rw [h]
    exact (sameData_leaveQueue ..).trans (sameData_arriveWord ..)

theorem landToken_clusters (s : State) (c : Cmd) : (s.landToken c).clusters = s.clusters := by
  have harrive (u : State) (k e n : Nat) (w : Word) : (u.arriveWord k e (.s n) w).clusters = u.clusters := by
    unfold State.arriveWord
    dsimp only
    split
    · rfl
    · obtain ⟨cs, co, h⟩ := landWord_outside u k e n w
      rw [h]
  obtain h | ⟨j, w, h⟩ := landToken_cases s c
  · rw [h]
    rfl
  · rw [h, harrive]
    rfl

theorem sameData_complete (s : State) (c : Cmd) : SameData s (s.complete c) := by
  refine (sameData_showWrites s c.id).trans (SameData.trans ?_ (sameData_landToken _ c))
  unfold State.cmdSignal
  split
  · exact sameData_signal ..
  · exact .refl _

theorem sameData_objectEnd (s : State) (c : Cmd) (n : Nat) (signal : Bool) : SameData s (s.objectEnd c n signal) := by
  refine (sameData_showWrites s c.id).trans ?_
  change SameData (s.showWrites c.id) ((s.showWrites c.id).remoteSignal _)
  unfold State.remoteSignal
  split
  · exact .refl _
  · split
    · exact sameData_signal ..
    · exact .refl _

theorem sameData_send (s : State) (kind dest : Nat) (body : List Byte) : SameData s (s.send kind dest body) :=
  ⟨rfl, rfl, fun _ => rfl, fun _ => rfl⟩

theorem sameData_copyRest (s : State) (c : Cmd) : SameData s (s.copyRest c).1 := by
  unfold State.copyRest
  split
  · exact .refl s
  · split
    · split
      · exact sameData_objectEnd ..
      · split
        · exact sameData_send ..
        · exact .refl s
    · split <;> exact .refl s

theorem sameData_chunkRest (s : State) (c : Cmd) : SameData s (s.chunkRest c).1 := by
  unfold State.chunkRest
  split
  · exact .refl s
  · dsimp only
    repeat' split
    all_goals exact .refl s

theorem sameData_credRest (s : State) (c : Cmd) : SameData s (s.credRest c).1 := by
  unfold State.credRest
  split
  · exact .refl s
  · split
    · split
      · split
        · exact .refl s
        · exact sameData_objectEnd ..
      · split
        · exact sameData_send ..
        · exact .refl s
    · split <;> exact .refl s

theorem sameData_rest (s : State) (c : Cmd) : SameData s (s.rest_ c).1 := by
  unfold State.rest_
  split
  · exact sameData_copyRest s c
  · split
    · exact sameData_credRest s c
    · exact sameData_chunkRest s c

/-! ### One move -/

/-- A started command of the copy engine that has not ended, on a core whose engines do not stand still. -/
structure Copying (s : State) (core id : Nat) (c : Cmd) : Prop where
  found : (s.core core).copyCmd id = some c
  home : c.core = core
  awake : s.still core = false
  started : c.started = true
  unfinished : c.finished = false

theorem Copying.id {s : State} {core n : Nat} {c : Cmd} (h : Copying s core n c) : c.id = n := by
  simpa using List.find?_some h.found

theorem remoteAnswer_none (s : State) (c done : Cmd) : s.remoteAnswer c 0 done = (s, c) := by
  unfold State.remoteAnswer
  simp

theorem Copying.exec_eq {s : State} {core id : Nat} {c : Cmd} (h : Copying s core id c) (o : Bool × Nat) :
    exec (.copyCommandCompletion core id 0 [o]) s =
      let x := s.move c o
      let x := x.1.rest_ x.2
      let x := x.1.rest_ x.2
      .next (if x.2.finished then (x.1.setCopy core x.2).complete x.2 else x.1.setCopy core x.2) := by
  show execCopyCommandCompletion core id 0 [o] s = _
  unfold execCopyCommandCompletion
  rw [h.found]
  simp [h.awake, h.started, h.unfinished, remoteAnswer_none, State.moves]

/-- One move of a command: what follows it leaves the data. -/
theorem Copying.moves {s : State} {core id : Nat} {c : Cmd} (h : Copying s core id c) (o : Bool × Nat) :
    ∃ t, exec (.copyCommandCompletion core id 0 [o]) s = .next t ∧ SameData (s.move c o).1 t := by
  refine ⟨_, h.exec_eq o, ?_⟩
  have h1 := (sameData_rest (s.move c o).1 (s.move c o).2).trans (sameData_rest _ ((s.move c o).1.rest_ (s.move c o).2).2)
  split
  · exact (h1.trans (sameData_setCopy ..)).trans (sameData_complete ..)
  · exact h1.trans (sameData_setCopy ..)

/-- One move of a command that brings nothing to an end. -/
theorem Copying.moves_only {s u : State} {core id : Nat} {c c' : Cmd} (h : Copying s core id c) {o : Bool × Nat} (hm : s.move c o = (u, c'))
    (hr : u.rest_ c' = (u, c')) : exec (.copyCommandCompletion core id 0 [o]) s =
      .next (if c'.finished then (u.setCopy core c').complete c' else u.setCopy core c') := by
  rw [h.exec_eq o]
  simp only [hm, hr]

/-- A command that has ended rests. -/
theorem rest_finished {s : State} {c : Cmd} (h : c.finished = true) : s.rest_ c = (s, c) := by
  unfold State.rest_ State.copyRest State.credRest State.chunkRest
  simp [h]

/-- A copy with units left to move, or a block to build, has come to no end. -/
theorem copyRest_busy {s : State} {c : Cmd} (hop : c.op ≤ 3) (h : c.todo ≠ [] ∨ (c.op = 2 ∧ (c.sub = 2 ∨ c.sub = 3) ∧ c.phase = 0)) :
    s.rest_ c = (s, c) := by
  unfold State.rest_ State.copyRest
  rw [if_pos hop]
  rcases h with h | ⟨h2, hs, hp⟩
  · have : c.todo.isEmpty = false := by simpa using h
    simp [this]
  · split
    · rfl
    · rcases hs with hs | hs <;> simp [h2, hs, hp]

/-- The command in its place in the queue once it has been changed. -/
theorem copyCmd_setCopy {s : State} {core id : Nat} {c c' : Cmd} (hf : (s.core core).copyCmd id = some c) (hid : c'.id = id) :
    ((s.setCopy core c').core core).copyCmd id = some c' := by
  rw [State.setCopy, core_setCore_same]
  unfold Core.copyCmd at hf ⊢
  dsimp only
  generalize (s.core core).cq = l at hf
  induction l with
  | nil => cases hf
  | cons x r ih =>
    rw [List.map_cons]
    by_cases hx : x.id = id
    · rw [if_pos (hx.trans hid.symm), List.find?_cons_of_pos (by simp [hid])]
    · rw [List.find?_cons_of_neg (by simpa using hx)] at hf
      rw [if_neg fun h => hx (h.trans hid), List.find?_cons_of_neg (by simpa using hx)]
      exact ih hf

end Sys2Proof.Machine
end

section
/-! PROOFS. What an engine's writes leave, byte by byte (spec/07 R172; spec/09 R238). -/

namespace Sys2Proof.Machine

/-! ### Sums of fields -/

theorem packNat_concat (w : Nat) (l : List Nat) (x : Nat) : packNat w (l ++ [x]) = packNat w l + x % 2 ^ w * 2 ^ (w * l.length) := by
  induction l with
  | nil => simp [packNat]
  | cons y r ih =>
    rw [List.cons_append, packNat, ih, packNat, List.length_cons, Nat.mul_succ, pow_add]
    ring

/-- Fields summed in their places are the number that they make up. -/
theorem sum_fields (w n : Nat) (p : Nat → Bool) (f : Nat → Nat) (hf : ∀ j, f j < 2 ^ w) :
    ((List.range n).filter p).foldl (fun x j => x + f j * 2 ^ (w * j)) 0 = packNat w ((List.range n).map fun j => if p j = true then f j else 0) := by
  induction n with
  | zero => rfl
  | succ n ih =>
    rw [List.range_succ, List.filter_append, List.foldl_append, ih, List.map_append, List.map_singleton, packNat_concat]
    cases hp : p n
    · simp [hp]
    · simp [hp, Nat.mod_eq_of_lt (hf n)]

/-! ### A unit written -/

/-- Unit `u` of a memory has been written with the bytes, and their poison, that `val` gives: what the statement's `puts` says. -/
def Puts (m m' : Mem) (u : Nat) (val : Nat → Option (Byte × Bool)) : Prop :=
  let psn := (List.range 8).any fun j => ((val (8 * u + j)).getD (0, false)).2
  (psn = false → (∀ a, m'.byte a = if a / 8 = u then ((val a).map Prod.fst).getD (m.byte a) else m.byte a) ∧
    ∀ v, m'.mark v = true ↔ m.mark v = true ∧ ¬(v = u ∧ ∀ j, j < 8 → val (8 * u + j) ≠ none)) ∧
  (psn = true → (∀ a, m'.byte a = if a / 8 = u then 0 else m.byte a) ∧ ∀ v, m'.mark v = true ↔ v = u ∨ m.mark v = true)

theorem eq_255_iff {mask : Nat} (h : mask < 256) : mask = 255 ↔ ∀ j, j < 8 → mask.testBit j = true := by
  constructor
  · rintro rfl j hj
    rw [show 255 = 2 ^ 8 - 1 from rfl, Nat.testBit_two_pow_sub_one]
    exact decide_eq_true hj
  · intro hall
    refine Nat.eq_of_testBit_eq fun j => ?_
    rw [show 255 = 2 ^ 8 - 1 from rfl, Nat.testBit_two_pow_sub_one]
    by_cases hj : j < 8
    · rw [hall j hj, decide_eq_true hj]
    · rw [decide_eq_false hj, Nat.testBit_lt_two_pow (lt_of_lt_of_le h (Nat.pow_le_pow_right (n := 2) (by decide) (by omega : 8 ≤ j)))]

/-- A unit blended with a mask, data and poison that agree with `val`. -/
theorem puts_blend {m : Mem} {u mask : Nat} {data : Word} {psn : Bool} {val : Nat → Option (Byte × Bool)} (hlt : mask < 256)
    (hpsn : psn = (List.range 8).any fun j => ((val (8 * u + j)).getD (0, false)).2)
    (hmask : ∀ j, j < 8 → mask.testBit j = (val (8 * u + j)).isSome)
    (hdata : ∀ j x, j < 8 → val (8 * u + j) = some x → data.extractLsb' (8 * j) 8 = x.1) : Puts m (m.blend u mask data psn) u val := by
  unfold Puts
  rw [← hpsn]
  refine ⟨fun h => ⟨fun a => ?_, fun v => ?_⟩, fun h => ⟨fun a => ?_, fun v => ?_⟩⟩ <;> subst h
  · rw [byte_blend]
    by_cases ha : a / 8 = u
    · have hj : a % 8 < 8 := Nat.mod_lt _ (by decide)
      have hm := hmask (a % 8) hj
      have hd := hdata (a % 8)
      rw [← ha, Nat.div_add_mod] at hm hd
      simp only [ha, true_and, if_true]
      rw [hm]
      cases hv : val a with
      | none => simp
      | some x => simp [hd x hj hv]
    · simp [ha]
  · rw [mark_blend]
    have hall : mask = 255 ↔ ∀ j, j < 8 → val (8 * u + j) ≠ none := by
      rw [eq_255_iff hlt]
      refine forall₂_congr fun j hj => ?_
      rw [hmask j hj, Option.isSome_iff_ne_none]
    rw [← hall]
    by_cases h : v = u ∧ mask = 255
    · simp [h]
    · simp [h]
  · exact byte_blend_poison ..
  · rw [mark_blend_poison]
    by_cases h : v = u <;> simp [h]

/-! ### Bytes at an address written -/

/-- `n` bytes at `a` have been written, all of them poisoned or none: what the statement's `puts2` says. -/
def Puts2 (m m' : Mem) (a n : Nat) (bs : List Byte) (psn : Bool) : Prop :=
  (psn = false → (∀ b, m'.byte b = if a ≤ b ∧ b < a + n then nth 0 bs (b - a) else m.byte b) ∧
    ∀ v, m'.mark v = true ↔ m.mark v = true ∧ ¬(a ≤ 8 * v ∧ 8 * v + 8 ≤ a + n)) ∧
  (psn = true → (∀ b, m'.byte b = if b / 8 ∈ unitsOf a n then 0 else m.byte b) ∧ ∀ v, m'.mark v = true ↔ v ∈ unitsOf a n ∨ m.mark v = true)

theorem puts2_putUnits (m : Mem) (a : Nat) (bs : List Byte) (psn : Bool) :
    Puts2 m (m.putUnits a bs psn (unitsOf a bs.length)) a bs.length bs psn := by
  refine ⟨fun h => ⟨fun b => ?_, fun v => ?_⟩, fun h => ⟨fun b => ?_, fun v => ?_⟩⟩ <;> subst h
  · exact byte_putUnits_all ..
  · rw [mark_putUnits_all]
    by_cases h : a ≤ 8 * v ∧ 8 * v + 8 ≤ a + bs.length
    · simp [h]
    · simp [h]
  · exact byte_putUnits_poison ..
  · rw [mark_putUnits_poison]
    by_cases h : v ∈ unitsOf a bs.length <;> simp [h]

/-- Of poisoned bytes it does not matter which they are. -/
theorem Puts2.poisoned {m m' : Mem} {a n : Nat} {bs cs : List Byte} {psn : Bool} (h : Puts2 m m' a n bs psn) (hp : psn = true) :
    Puts2 m m' a n cs psn := ⟨fun hf => absurd (hp.symm.trans hf) (by decide), h.2⟩

/-- An element written unit by unit at a locator of the scratchpad or of the cluster store. -/
theorem writeElem_near {s : State} {c : Cmd} {k : Nat} (h : locSpace (c.q k) < 2) (a : Nat) (bs : List Byte) (psn : Bool) :
    (s.writeElem c k a bs psn).locMem c (c.q k) = (s.locMem c (c.q k)).putUnits a bs psn (unitsOf a bs.length) ∧
    ∃ co cl, s.writeElem c k a bs psn = { s with cores := co, clusters := cl } := by
  unfold State.writeElem Mem.putUnits
  generalize unitsOf a bs.length = us
  induction us generalizing s with
  | nil => exact ⟨rfl, _, _, rfl⟩
  | cons u r ih =>
    obtain ⟨h1, co, cl, h2⟩ := writeLoc_near (s := s) h u (unitPart u a bs).1 (unitPart u a bs).2 psn
    obtain ⟨g1, co', cl', g2⟩ := ih (s := s.writeLoc c (c.q k) u (unitPart u a bs).1 (unitPart u a bs).2 psn)
    refine ⟨?_, co', cl', ?_⟩
    · rw [List.foldl_cons, List.foldl_cons, g1, h1]
    · rw [List.foldl_cons, g2, h2]

theorem SameData.locMem {s t : State} (h : SameData s t) (c : Cmd) (l : Word) : t.locMem c l = s.locMem c l := by
  unfold State.locMem
  rw [h.spm, h.store]

/-! ### A destination unit of a copy -/

/-- Whether a copy writes the byte at `a`. -/
def Cmd.writesAt (c : Cmd) (a : Nat) : Bool :=
  decide (c.dstAt ≤ a) && decide (a < c.dstAt + c.dstLen) && (c.deps (a - c.dstAt)).isSome

theorem dstIn_eq (c : Cmd) (u : Nat) : c.dstIn u =
    ((List.range 8).filter fun j => c.writesAt (8 * u + j)).map fun j => (j, 8 * u + j - c.dstAt) := rfl

theorem unitOut_mask (c : Cmd) (u : Nat) : (c.unitOut u).1 < 256 ∧ ∀ j, j < 8 → (c.unitOut u).1.testBit j = c.writesAt (8 * u + j) := by
  have h : (c.unitOut u).1 = ((List.range 8).filter fun j => c.writesAt (8 * u + j)).foldl (fun m j => m + 2 ^ j) 0 := by
    unfold Cmd.unitOut
    dsimp only
    rw [dstIn_eq, List.foldl_map]
  obtain ⟨h1, h2⟩ := testBit_maskSum (fun j => c.writesAt (8 * u + j)) 8
  rw [h]
  refine ⟨h1, fun j hj => ?_⟩
  rw [h2, decide_eq_true hj, Bool.true_and]

theorem unitOut_data (c : Cmd) (u : Nat) {j : Nat} (hj : j < 8) (h : c.writesAt (8 * u + j) = true) :
    (c.unitOut u).2.1.extractLsb' (8 * j) 8 = (c.dstByte (8 * u + j - c.dstAt)).1 := by
  have hd : (c.unitOut u).2.1 = BitVec.ofNat 64 (packNat 8 ((List.range 8).map fun j =>
      if c.writesAt (8 * u + j) = true then (c.dstByte (8 * u + j - c.dstAt)).1.toNat else 0)) := by
    rw [← sum_fields 8 8 _ (fun j => (c.dstByte (8 * u + j - c.dstAt)).1.toNat) fun j => BitVec.isLt _]
    unfold Cmd.unitOut
    dsimp only
    rw [dstIn_eq, List.foldl_map]
  rw [hd]
  generalize hl : (List.range 8).map (fun j => if c.writesAt (8 * u + j) = true then (c.dstByte (8 * u + j - c.dstAt)).1.toNat else 0) = l
  have he := packNat_elem 8 l j
  have hlt := packNat_lt 8 l
  rw [← hl, nth_map_range _ _ _ _ hj, hl, if_pos h, Nat.mod_eq_of_lt (BitVec.isLt _)] at he
  have hlen : l.length = 8 := by rw [← hl]; simp
  rw [hlen] at hlt
  refine BitVec.eq_of_toNat_eq ?_
  rw [BitVec.extractLsb'_toNat, BitVec.toNat_ofNat, Nat.mod_eq_of_lt hlt, Nat.shiftRight_eq_div_pow, he]

theorem unitOut_psn (c : Cmd) (u : Nat) : (c.unitOut u).2.2.1 =
    (List.range 8).any fun j => c.writesAt (8 * u + j) && c.dstPsn (8 * u + j - c.dstAt) := by
  unfold Cmd.unitOut
  rw [dstIn_eq]
  simp only [List.any_map, List.any_filter]
  rfl

/-- A copy's unit written into unit `pu` of a memory, where `val` gives its bytes. -/
theorem puts_unitOut (c : Cmd) (m : Mem) (u pu : Nat) {val : Nat → Option (Byte × Bool)} (hval : ∀ j, j < 8 → val (8 * pu + j) =
      if c.writesAt (8 * u + j) = true then some ((c.dstByte (8 * u + j - c.dstAt)).1, c.dstPsn (8 * u + j - c.dstAt)) else none) :
    Puts m (m.blend pu (c.unitOut u).1 (c.unitOut u).2.1 (c.unitOut u).2.2.1) pu val := by
  obtain ⟨hlt, hmask⟩ := unitOut_mask c u
  refine puts_blend hlt ?_ (fun j hj => ?_) fun j x hj hx => ?_
  · rw [unitOut_psn]
    rw [Bool.eq_iff_iff, List.any_eq_true, List.any_eq_true]
    refine exists_congr fun j => and_congr_right fun hj => ?_
    rw [hval j (List.mem_range.1 hj)]
    cases c.writesAt (8 * u + j) <;> simp
  · rw [hmask j hj, hval j hj]
    cases c.writesAt (8 * u + j) <;> rfl
  · rw [hval j hj] at hx
    cases hw : c.writesAt (8 * u + j) with
    | false => simp [hw] at hx
    | true =>
      rw [hw, if_pos rfl] at hx
      rw [unitOut_data c u hj hw, ← Option.some.inj hx]

end Sys2Proof.Machine
end

section
/-! PROOFS. Converting copies: a byte is built from its own element or block alone (spec/02 R53 to R60; spec/09 R243). -/

namespace Sys2Proof.Machine

/-! ### Fields of a number -/

theorem natSet_eq (x lo len v : Nat) :
    natSet x lo len v = 2 ^ lo * (2 ^ len * (x / 2 ^ lo / 2 ^ len) + v % 2 ^ len) + x % 2 ^ lo := by
  have h1 := Nat.div_add_mod x (2 ^ lo)
  have h2 := Nat.div_add_mod (x / 2 ^ lo) (2 ^ len)
  have h3 : x = 2 ^ lo * (2 ^ len * (x / 2 ^ lo / 2 ^ len)) + x / 2 ^ lo % 2 ^ len * 2 ^ lo + x % 2 ^ lo := by
    rw [Nat.mul_comm (x / 2 ^ lo % 2 ^ len), ← Nat.mul_add, h2, h1]
  unfold natSet
  rw [Nat.mul_add, Nat.mul_comm (2 ^ lo) (v % 2 ^ len)]
  omega

theorem testBit_natSet (x lo len v i : Nat) : (natSet x lo len v).testBit i =
    if lo ≤ i ∧ i < lo + len then v.testBit (i - lo) else x.testBit i := by
  rw [natSet_eq, Nat.testBit_two_pow_mul_add _ (Nat.mod_lt _ (by positivity))]
  by_cases h1 : i < lo
  · rw [if_pos h1, if_neg (by omega), Nat.testBit_mod_two_pow]
    simp [h1]
  · rw [if_neg h1, Nat.testBit_two_pow_mul_add _ (Nat.mod_lt _ (by positivity))]
    by_cases h2 : i - lo < len
    · rw [if_pos h2, if_pos (by omega), Nat.testBit_mod_two_pow]
      simp [h2]
    · rw [if_neg h2, if_neg (by omega), Nat.testBit_div_two_pow, Nat.testBit_div_two_pow]
      congr 1
      omega

/-- Two bytes that agree bit by bit. -/
theorem byte_eq_of_testBit {x y j : Nat} (h : ∀ i, 8 * j ≤ i → i < 8 * j + 8 → x.testBit i = y.testBit i) :
    x / 2 ^ (8 * j) % 256 = y / 2 ^ (8 * j) % 256 := by
  rw [show 256 = 2 ^ 8 from rfl]
  refine Nat.eq_of_testBit_eq fun i => ?_
  rw [Nat.testBit_mod_two_pow, Nat.testBit_mod_two_pow, Nat.testBit_div_two_pow, Nat.testBit_div_two_pow]
  by_cases hi : i < 8
  · rw [h (i + 8 * j) (by omega) (by omega)]
  · simp [hi]

/-! ### A packet's byte (R53, R57) -/

theorem blockLen_cases (fmt : Nat) : (fmt = fB8fp4 ∧ blockLen fmt = 8) ∨ (fmt ≠ fB8fp4 ∧ blockLen fmt = 32) := by
  unfold blockLen
  by_cases h : fmt = fB8fp4
  · exact .inl ⟨h, if_pos h⟩
  · exact .inr ⟨h, if_neg h⟩

/-- Block `j` of a packet has no bit of the bytes of the other blocks. -/
theorem testBit_packetSetBlock {fmt j y i : Nat} (hj : j < 96 / blockLen fmt) (hne : j ≠ blockAt fmt y) (h1 : 8 * y ≤ i) (h2 : i < 8 * y + 8)
    (pkt : Nat) (b : Block) : (packetSetBlock fmt pkt j b).testBit i = pkt.testBit i := by
  unfold packetSetBlock blockAt at *
  dsimp only
  rw [testBit_natSet, testBit_natSet]
  rcases blockLen_cases fmt with ⟨-, hk⟩ | ⟨-, hk⟩
  · rw [hk] at hj hne ⊢
    split at hne
    · rw [if_neg (by omega), if_neg (by omega)]
    · rw [if_neg (by omega), if_neg (by omega)]
  · rw [hk] at hj hne ⊢
    split at hne
    · rw [if_neg (by omega), if_neg (by omega)]
    · rw [if_neg (by omega), if_neg (by omega)]

/-- A block set in two packets that agree on a byte: they still do. -/
theorem testBit_packetSetBlock_congr {fmt j i p p' : Nat} (h : p.testBit i = p'.testBit i) (b : Block) :
    (packetSetBlock fmt p j b).testBit i = (packetSetBlock fmt p' j b).testBit i := by
  unfold packetSetBlock
  dsimp only
  simp only [testBit_natSet, h]

/-- The block of elements `k·j` to `k·j + k - 1`, quantised. -/
def blockOf (fmt band mode : Nat) (xs : List Fp) (j : Nat) : Block :=
  let part := (xs.drop (blockLen fmt * j)).take (blockLen fmt)
  if part = [] then { scale := 0, codes := List.replicate (blockLen fmt) 0, flags := 0 } else quantBlock fmt band mode (fun _ => 0) part

theorem packetOf_fst (fmt band mode : Nat) (xs : List Fp) : (packetOf fmt band mode xs).1 =
    packetTail fmt ((List.range (96 / blockLen fmt)).foldl (fun p j => packetSetBlock fmt p j (blockOf fmt band mode xs j)) 0) band := by
  unfold packetOf
  dsimp only
  congr 1
  refine List.foldl_ext _ _ _ fun p j hj => ?_
  rw [nth_map_range _ _ _ _ (List.mem_range.1 hj)]
  rfl

/-- A byte of a packet depends on the elements of its own block alone. -/
theorem packetOf_byte_congr {fmt : Nat} (band mode : Nat) {xs ys : List Fp} {y : Nat}
    (h : (xs.drop (blockLen fmt * blockAt fmt y)).take (blockLen fmt) = (ys.drop (blockLen fmt * blockAt fmt y)).take (blockLen fmt)) :
    (packetOf fmt band mode xs).1 / 2 ^ (8 * y) % 256 = (packetOf fmt band mode ys).1 / 2 ^ (8 * y) % 256 := by
  refine byte_eq_of_testBit fun i h1 h2 => ?_
  have hblock : blockOf fmt band mode xs (blockAt fmt y) = blockOf fmt band mode ys (blockAt fmt y) := by
    unfold blockOf
    rw [h]
  have hfold : ∀ (l : List Nat), (∀ j ∈ l, j < 96 / blockLen fmt) → ∀ p p' : Nat, p.testBit i = p'.testBit i →
      (l.foldl (fun p j => packetSetBlock fmt p j (blockOf fmt band mode xs j)) p).testBit i =
      (l.foldl (fun p j => packetSetBlock fmt p j (blockOf fmt band mode ys j)) p').testBit i := by
    intro l hl
    induction l with
    | nil => exact fun p p' hp => hp
    | cons j r ih =>
      intro p p' hp
      refine ih (fun n hn => hl n (List.mem_cons_of_mem _ hn)) _ _ ?_
      dsimp only
      by_cases hj : j = blockAt fmt y
      · rw [hj, hblock]
        exact testBit_packetSetBlock_congr hp _
      · have hlt := hl j (List.mem_cons_self ..)
        rw [testBit_packetSetBlock hlt hj h1 h2, testBit_packetSetBlock hlt hj h1 h2, hp]
  rw [packetOf_fst, packetOf_fst]
  have hbody := hfold (List.range (96 / blockLen fmt)) (fun j hj => List.mem_range.1 hj) 0 0 rfl
  unfold packetTail
  split
  · simp only [testBit_natSet, hbody]
  · simp only [testBit_natSet, hbody]

theorem packetOf_ofNat_congr {fmt : Nat} (band mode : Nat) {xs ys : List Fp} {y : Nat}
    (h : (xs.drop (blockLen fmt * blockAt fmt y)).take (blockLen fmt) = (ys.drop (blockLen fmt * blockAt fmt y)).take (blockLen fmt)) :
    BitVec.ofNat 8 ((packetOf fmt band mode xs).1 / 2 ^ (8 * y)) = BitVec.ofNat 8 ((packetOf fmt band mode ys).1 / 2 ^ (8 * y)) := by
  refine BitVec.eq_of_toNat_eq ?_
  rw [BitVec.toNat_ofNat, BitVec.toNat_ofNat]
  exact packetOf_byte_congr band mode h

/-- The elements of one block kept, the others zero. -/
theorem ownBlock_take (k b : Nat) (es : List Fp) :
    (((((List.range es.length).zip es).map fun p => if p.1 / k = b then p.2 else Fp.zero false).drop (k * b)).take k) =
      (es.drop (k * b)).take k := by
  refine List.ext_getElem? fun i => ?_
  by_cases hi : i < k
  · rw [List.getElem?_take_of_lt hi, List.getElem?_take_of_lt hi, List.getElem?_drop, List.getElem?_drop, List.getElem?_map]
    by_cases hm : k * b + i < es.length
    · have hz : ((List.range es.length).zip es)[k * b + i]? = some (k * b + i, es[k * b + i]) :=
        List.getElem?_zip_eq_some.2 ⟨List.getElem?_range hm, List.getElem?_eq_getElem hm⟩
      have hb : (k * b + i) / k = b := by
        rw [Nat.mul_add_div (by omega), Nat.div_eq_of_lt hi, Nat.add_zero]
      rw [hz, List.getElem?_eq_getElem hm, Option.map_some, if_pos hb]
    · rw [List.getElem?_eq_none (by simp; omega), List.getElem?_eq_none (by omega)]
      rfl
  · rw [List.getElem?_eq_none (by simp; omega), List.getElem?_eq_none (by simp; omega)]

end Sys2Proof.Machine
end

section
/-! PROOFS. The bytes that a converting copy writes (spec/09 R243). -/

namespace Sys2Proof.Machine

/-- `n` source bytes from byte `y` on, as a command has read them. -/
def Cmd.srcBytes (c : Cmd) (y n : Nat) : List Byte := (List.range n).map fun j => (c.srcByte (y + j)).1

@[simp] theorem srcBytes_length (c : Cmd) (y n : Nat) : (c.srcBytes y n).length = n := by simp [Cmd.srcBytes]

theorem srcBytes_slice (c : Cmd) (y : Nat) {n a m : Nat} (h : a + m ≤ n) : ((c.srcBytes y n).drop a).take m = c.srcBytes (y + a) m := by
  refine List.ext_getElem? fun i => ?_
  by_cases hi : i < m
  · rw [List.getElem?_take_of_lt hi, List.getElem?_drop]
    unfold Cmd.srcBytes
    rw [List.getElem?_map, List.getElem?_map, List.getElem?_range (by omega), List.getElem?_range hi, Option.map_some, Option.map_some,
      Nat.add_assoc]
  · rw [List.getElem?_eq_none (by simp; omega), List.getElem?_eq_none (by simp; omega)]

theorem fmtBytes_pos (f : Nat) : 0 < fmtBytes f := by
  unfold fmtBytes fmtWidth
  split <;> decide

/-- Where the window of source bytes that element `g` and the 95 after it come from starts. -/
def winLo (sf g : Nat) : Nat := if fmtPacket.contains sf then g / 96 * 64 else g * fmtBytes sf

/-- How many of a window's bytes the source still has. -/
def winLen (sf n g : Nat) : Nat :=
  if fmtPacket.contains sf then min 64 (min (96 * blockBytes sf) (n - winLo sf g)) else min (96 * blockBytes sf) (n - winLo sf g)

/-- The elements of a whole packet's worth of source are those of its window. -/
theorem sourceElems_window (c : Cmd) (sf n p : Nat) : sourceElems sf (c.srcBytes 0 n) (p * 96) 96 =
    sourceElems sf (c.srcBytes (winLo sf (p * 96)) (winLen sf n (p * 96))) 0 96 := by
  unfold sourceElems
  by_cases hp : fmtPacket.contains sf = true
  · rw [if_pos hp, if_pos hp]
    have hlo : winLo sf (p * 96) = p * 64 := by rw [winLo, if_pos hp, Nat.mul_div_cancel _ (by decide)]
    have hlen : winLen sf n (p * 96) = min 64 (min (96 * 64) (n - p * 64)) := by rw [winLen, if_pos hp, hlo, blockBytes, if_pos hp]
    rw [hlen, hlo]
    have hf : ∀ j ∈ List.range 96, decide ((p * 96 + j) / 96 < (c.srcBytes 0 n).length / 64) =
        decide ((0 + j) / 96 < (c.srcBytes (p * 64) (min 64 (min (96 * 64) (n - p * 64)))).length / 64) := fun j hj => by
      have := List.mem_range.1 hj
      simp only [srcBytes_length, decide_eq_decide]
      omega
    rw [List.filter_congr hf]
    refine List.map_congr_left fun j hj => ?_
    obtain ⟨hj, hc⟩ := List.mem_filter.1 hj
    have hj := List.mem_range.1 hj
    rw [srcBytes_length, decide_eq_true_eq] at hc
    rw [srcBytes_slice _ _ (by omega), srcBytes_slice _ _ (by omega), show 0 + (p * 96 + j) / 96 * 64 = p * 64 + (0 + j) / 96 * 64 by omega,
      show (p * 96 + j) % 96 = (0 + j) % 96 by omega]
  · rw [if_neg hp, if_neg hp]
    dsimp only
    have hs := fmtBytes_pos sf
    have hlo : winLo sf (p * 96) = p * 96 * fmtBytes sf := by rw [winLo, if_neg hp]
    have hlen : winLen sf n (p * 96) = min (96 * fmtBytes sf) (n - p * 96 * fmtBytes sf) := by rw [winLen, if_neg hp, hlo, blockBytes, if_neg hp]
    rw [hlen, hlo]
    have hstep (j : Nat) : (p * 96 + j) * fmtBytes sf = p * 96 * fmtBytes sf + j * fmtBytes sf ∧
        (p * 96 + j + 1) * fmtBytes sf = p * 96 * fmtBytes sf + (j * fmtBytes sf + fmtBytes sf) ∧
        (0 + j + 1) * fmtBytes sf = j * fmtBytes sf + fmtBytes sf := by
      refine ⟨by ring, by ring, by ring⟩
    have htop (j : Nat) (hj : j < 96) : j * fmtBytes sf + fmtBytes sf ≤ 96 * fmtBytes sf := by
      rw [← Nat.succ_mul]
      exact Nat.mul_le_mul_right _ hj
    have hf : ∀ j ∈ List.range 96, decide ((p * 96 + j + 1) * fmtBytes sf ≤ (c.srcBytes 0 n).length) =
        decide ((0 + j + 1) * fmtBytes sf ≤ (c.srcBytes (p * 96 * fmtBytes sf) (min (96 * fmtBytes sf) (n - p * 96 * fmtBytes sf))).length) :=
      fun j hj => by
        have h1 := htop j (List.mem_range.1 hj)
        obtain ⟨-, h2, h3⟩ := hstep j
        simp only [srcBytes_length, decide_eq_decide, h2, h3]
        omega
    rw [List.filter_congr hf]
    refine List.map_congr_left fun j hj => ?_
    obtain ⟨hj, hc⟩ := List.mem_filter.1 hj
    have h1 := htop j (List.mem_range.1 hj)
    obtain ⟨h0, -, h3⟩ := hstep j
    rw [srcBytes_length, decide_eq_true_eq, h3] at hc
    rw [srcBytes_slice _ _ (by rw [h0]; omega), srcBytes_slice _ _ (by rw [Nat.zero_add]; omega), h0, Nat.zero_add, Nat.zero_add]

/-- A byte of a packet of a converting copy. -/
theorem cvtByte_packet (c : Cmd) (sf df band n x : Nat) (hd : fmtPacket.contains df = true) :
    (cvtByte sf df band (c.srcBytes (winLo sf (x / 64 * 96)) (winLen sf n (x / 64 * 96))) (x - x / 64 * 64)).1 =
      BitVec.ofNat 8 ((packetOf df band 0 (sourceElems sf (c.srcBytes 0 n) (x / 64 * 96) 96)).1 / 2 ^ (8 * (x % 64))) := by
  have hx : x - x / 64 * 64 = x % 64 := by omega
  unfold cvtByte
  rw [if_pos hd, hx]
  dsimp only
  rw [Nat.mod_mod, show x % 64 / 64 * 96 = 0 by omega, sourceElems_window]
  exact packetOf_ofNat_congr band 0 (ownBlock_take ..)

/-- A byte of an element of a converting copy. -/
theorem cvtByte_element (c : Cmd) {sf df n x : Nat} (band : Nat) (hd : ¬fmtPacket.contains df = true)
    (hx : x / fmtBytes df < if fmtPacket.contains sf then n / 64 * 96 else n / fmtBytes sf) :
    (cvtByte sf df band (c.srcBytes (winLo sf (x / fmtBytes df / 96 * 96)) (winLen sf n (x / fmtBytes df / 96 * 96)))
        (x - x / fmtBytes df / 96 * 96 * fmtBytes df)).1 =
      BitVec.ofNat 8 ((if fmtPacket.contains sf then
          (fromPacket df (leNat (c.srcBytes (64 * (x / fmtBytes df / 96)) 64)) sf (x / fmtBytes df % 96)).1
        else (convert df sf rne (leNat (c.srcBytes (x / fmtBytes df * fmtBytes sf) (fmtBytes sf)))).1) / 2 ^ (8 * (x % fmtBytes df))) := by
  have he := fmtBytes_pos df
  obtain ⟨y, r, hr, rfl⟩ : ∃ y r, r < fmtBytes df ∧ x = y * fmtBytes df + r :=
    ⟨x / fmtBytes df, x % fmtBytes df, Nat.mod_lt _ he, (Nat.div_add_mod' ..).symm⟩
  have hdiv (z : Nat) : (z * fmtBytes df + r) / fmtBytes df = z := by
    rw [Nat.mul_comm, Nat.mul_add_div he, Nat.div_eq_of_lt hr, Nat.add_zero]
  have hmod (z : Nat) : (z * fmtBytes df + r) % fmtBytes df = r := by
    rw [Nat.mul_comm, Nat.mul_add_mod, Nat.mod_eq_of_lt hr]
  have hsub : y * fmtBytes df + r - y / 96 * 96 * fmtBytes df = y % 96 * fmtBytes df + r := by
    have h : y * fmtBytes df = y / 96 * 96 * fmtBytes df + y % 96 * fmtBytes df := by rw [← Nat.add_mul, Nat.div_add_mod']
    omega
  rw [hdiv] at hx
  simp only [hdiv, hmod, hsub]
  unfold cvtByte
  rw [if_neg hd]
  dsimp only
  rw [hdiv, hmod]
  by_cases hp : fmtPacket.contains sf = true
  · rw [if_pos hp] at hx
    have hlo : winLo sf (y / 96 * 96) = y / 96 * 64 := by rw [winLo, if_pos hp, Nat.mul_div_cancel _ (by decide)]
    have hlen : winLen sf n (y / 96 * 96) = 64 := by
      rw [winLen, if_pos hp, hlo, blockBytes, if_pos hp]
      omega
    rw [if_pos hp, if_pos hp, hlen, hlo, srcBytes_slice _ _ (by omega), Nat.mod_mod,
      show y / 96 * 64 + y % 96 / 96 * 64 = 64 * (y / 96) by omega]
  · rw [if_neg hp] at hx
    have hs := fmtBytes_pos sf
    have hlo : winLo sf (y / 96 * 96) = y / 96 * 96 * fmtBytes sf := by rw [winLo, if_neg hp]
    have hlen : winLen sf n (y / 96 * 96) = min (96 * fmtBytes sf) (n - y / 96 * 96 * fmtBytes sf) := by
      rw [winLen, if_neg hp, hlo, blockBytes, if_neg hp]
    have h1 : y * fmtBytes sf = y / 96 * 96 * fmtBytes sf + y % 96 * fmtBytes sf := by rw [← Nat.add_mul, Nat.div_add_mod']
    have h2 : y % 96 * fmtBytes sf + fmtBytes sf ≤ 96 * fmtBytes sf := by
      rw [← Nat.succ_mul]
      exact Nat.mul_le_mul_right _ (Nat.mod_lt _ (by decide))
    have h3 : y * fmtBytes sf + fmtBytes sf ≤ n := by
      rw [← Nat.succ_mul]
      exact (Nat.le_div_iff_mul_le hs).1 hx
    rw [if_neg hp, if_neg hp, hlen, hlo, srcBytes_slice _ _ (by omega), h1]

end Sys2Proof.Machine
end

section
/-! PROOFS. What a copy's destination bytes are (spec/09 R243 to R245). -/

namespace Sys2Proof.Machine

/-- A byte of a converting copy as the statement gives it, before the checksum's test bit. -/
def Cmd.convertedByte (c : Cmd) (x : Nat) : Byte :=
  if c.fmt ∈ fmtPacket then
    BitVec.ofNat 8 ((packetOf c.fmt (bits (c.q 3) 48 16) 0 (sourceElems c.sfmt (c.srcBytes 0 c.len) (x / 64 * 96) 96)).1 / 2 ^ (8 * (x % 64)))
  else BitVec.ofNat 8 ((if c.sfmt ∈ fmtPacket then
      (fromPacket c.fmt (leNat (c.srcBytes (64 * (x / fmtBytes c.fmt / 96)) 64)) c.sfmt (x / fmtBytes c.fmt % 96)).1
    else (convert c.fmt c.sfmt rne (leNat (c.srcBytes (x / fmtBytes c.fmt * fmtBytes c.sfmt) (fmtBytes c.sfmt)))).1) /
      2 ^ (8 * (x % fmtBytes c.fmt)))

section
variable {c : Cmd} (hop : c.op = 2)
include hop

theorem dstLen_converting (hs : c.sub = 0) : c.dstLen =
    if c.fmt ∈ fmtPacket ∧ c.sfmt ∈ fmtPacket then c.len else if c.fmt ∈ fmtPacket then 64 * ((c.len / fmtBytes c.sfmt + 95) / 96)
      else if c.sfmt ∈ fmtPacket then c.len / 64 * 96 * fmtBytes c.fmt else c.len / fmtBytes c.sfmt * fmtBytes c.fmt := by
  unfold Cmd.dstLen cvtLen
  simp only [hop, hs, List.contains_iff_mem]
  by_cases h1 : c.fmt ∈ fmtPacket <;> by_cases h2 : c.sfmt ∈ fmtPacket <;> simp [h1, h2]

theorem dstByte_converting (hs : c.sub = 0) {x : Nat} (hx : x < c.dstLen) : (c.dstByte x).1 =
    if x = 0 ∧ bit (c.q 2) 63 = true ∧ bit (c.q 2) 61 = true then c.convertedByte x ^^^ 1 else c.convertedByte x := by
  have hraw : (let g := if fmtPacket.contains c.fmt then x / 64 * 96 else x / fmtBytes c.fmt / 96 * 96
      cvtByte c.sfmt c.fmt (bits (c.q 3) 48 16) (c.srcBytes (winLo c.sfmt g) (winLen c.sfmt c.len g))
        (x - (if fmtPacket.contains c.fmt then x / 64 * 64 else g * fmtBytes c.fmt))).1 = c.convertedByte x := by
    unfold Cmd.convertedByte
    by_cases hd : c.fmt ∈ fmtPacket
    · have hd' : fmtPacket.contains c.fmt = true := List.contains_iff_mem.2 hd
      simp only [if_pos hd, hd', if_true]
      exact cvtByte_packet c c.sfmt c.fmt _ c.len x hd'
    · have hd' : ¬fmtPacket.contains c.fmt = true := fun h => hd (List.contains_iff_mem.1 h)
      have hlt : x / fmtBytes c.fmt < if fmtPacket.contains c.sfmt then c.len / 64 * 96 else c.len / fmtBytes c.sfmt := by
        rw [dstLen_converting hop hs, if_neg fun h => hd h.1, if_neg hd] at hx
        by_cases hsf : c.sfmt ∈ fmtPacket
        · rw [if_pos hsf] at hx
          rw [if_pos (List.contains_iff_mem.2 hsf)]
          exact (Nat.div_lt_iff_lt_mul (fmtBytes_pos _)).2 hx
        · rw [if_neg hsf] at hx
          rw [if_neg fun h => hsf (List.contains_iff_mem.1 h)]
          exact (Nat.div_lt_iff_lt_mul (fmtBytes_pos _)).2 hx
      simp only [if_neg hd, if_neg hd']
      rw [cvtByte_element c _ hd' hlt]
      simp only [List.contains_iff_mem]
  have hchk : c.checks = bit (c.q 2) 63 := by simp [Cmd.checks, hop, hs, Cmd.cken]
  unfold Cmd.dstByte
  simp only [hop, hs, hchk, Cmd.cktest, Bool.and_eq_true, decide_eq_true_eq, and_assoc]
  split
  · exact congrArg (· ^^^ 1) hraw
  · exact hraw

theorem dstPsn_converting (hs : c.sub = 0) (x : Nat) : c.dstPsn x = (cvtDeps c.sfmt c.fmt x).any fun y => (c.srcByte y).2 := by
  unfold Cmd.dstPsn Cmd.deps
  simp [hop, hs]

/-- A transposing copy's byte is of the element of the other row and column (R244). -/
theorem dst_transposing (hs : c.sub = 1) {x y : Nat} (h : c.xposeFrom x = some y) : (c.dstByte x).1 =
      (if y + fmtBytes c.fmt ≤ c.room (c.q 0) then (c.srcByte (y + x % fmtBytes c.fmt)).1 else 0) ∧
    c.dstPsn x = (if y + fmtBytes c.fmt ≤ c.room (c.q 0) then ((List.range (fmtBytes c.fmt)).map (y + ·)).any fun y => (c.srcByte y).2 else false) := by
  have hchk : c.checks = false := by simp [Cmd.checks, hop, hs]
  unfold Cmd.dstByte Cmd.dstPsn Cmd.deps
  simp only [hop, hs, h, hchk, Bool.and_false, Bool.false_and, Bool.false_eq_true, if_false, Option.getD_some]
  refine ⟨trivial, ?_⟩
  rw [if_neg (by decide)]
  split
  · rfl
  · rfl

/-- A built block's byte (R245). -/
theorem dst_built (hs : c.sub = 2 ∨ c.sub = 3) (x : Nat) : (c.dstByte x).1 = nth 0 c.out x ∧ c.dstPsn x = nth false c.outPsn x := by
  have hchk : c.checks = false := by rcases hs with hs | hs <;> simp [Cmd.checks, hop, hs]
  unfold Cmd.dstByte Cmd.dstPsn
  rcases hs with hs | hs <;> simp [hop, hs, hchk]

/-- Which bytes a copy with an address as its destination writes. -/
theorem writesAt_iff (a : Nat) : c.writesAt a = true ↔ c.addr (c.q 1) ≤ a ∧ a - c.addr (c.q 1) < c.dstLen ∧
    (c.sub = 1 → (c.xposeFrom (a - c.addr (c.q 1))).isSome = true) := by
  have hat : c.dstAt = c.addr (c.q 1) := by simp [Cmd.dstAt, hop]
  have hdeps (x : Nat) : (c.deps x).isSome = true ↔ (c.sub = 1 → (c.xposeFrom x).isSome = true) := by
    unfold Cmd.deps
    simp only [hop]
    match hs : c.sub with
    | 0 => simp
    | 1 => cases c.xposeFrom x <;> simp
    | n + 2 => simp
  unfold Cmd.writesAt
  simp only [Bool.and_eq_true, decide_eq_true_eq, hat, hdeps, and_assoc]
  refine and_congr_right fun h => and_congr_left fun _ => ?_
  omega

end

end Sys2Proof.Machine
end

section
/-! PROOFS. The moves of a copy: a unit read, a unit written, a block built (spec/09 R238, R243 to R245). -/

namespace Sys2Proof.Machine

section
variable {s : State} {core id : Nat} {c : Cmd} (hc : Copying s core id c)
include hc

/-- A source unit that has not been read is read (R238). -/
theorem Copying.reads_unit (hop : c.op ≤ 3) {u : Nat} (hu : u ∈ unitsOf c.srcAt c.srcLen) (hg : c.got 0 u = none) (hf : s.freeAt c (c.q 0) u)
    (hbusy : c.todo ≠ [] ∨ (c.op = 2 ∧ (c.sub = 2 ∨ c.sub = 3) ∧ c.phase = 0)) :
    ∃ t, exec (.copyCommandCompletion core id 0 [(false, u)]) s = .next t ∧ t.mem = s.mem ∧ t.clusters = s.clusters ∧
      (t.core core).spm = (s.core core).spm ∧ (t.core core).copyCmd id = some (c.keep 0 u ((s.locMem c (c.q 0)).unit u)) := by
  obtain ⟨hr, hw⟩ := locReach_free hf
  have hmove : s.move c (false, u) = ((s.locReach c (c.q 0) u).1, c.keep 0 u ((s.locMem c (c.q 0)).unit u)) := by
    unfold State.move State.copyMove State.copyRead
    simp [hc.unfinished, hop, hu, hg, hr, readLoc_near hf.space, hw.locMem]
  have hrest : (s.locReach c (c.q 0) u).1.rest_ (c.keep 0 u ((s.locMem c (c.q 0)).unit u)) = _ := copyRest_busy hop hbusy
  refine ⟨_, hc.moves_only hmove hrest, ?_⟩
  rw [if_neg (by exact ne_true_of_eq_false hc.unfinished)]
  have hw' : OnlyWaits s core (s.locReach c (c.q 0) u).1 := hc.home ▸ hw
  have hcl : (s.locReach c (c.q 0) u).1.clusters = s.clusters := by rw [hw.outside]
  have hmm : (s.locReach c (c.q 0) u).1.mem = s.mem := by rw [hw.outside]
  refine ⟨hmm, hcl, ((sameData_setCopy ..).spm core).trans hw'.spm, copyCmd_setCopy (c := c) ?_ hc.id⟩
  obtain ⟨w, h⟩ := hw'.own
  rw [h]
  exact hc.found

/-- A destination unit all of whose sources have been read is written (R238). -/
theorem Copying.writes_unit (hop : c.op = 2) {u : Nat} (hu : u ∈ c.todo) (hw : c.canWrite u = true) (hf : s.freeAt c (c.q 1) u)
    (hph : ¬((c.sub = 2 ∨ c.sub = 3) ∧ c.phase = 0)) :
    ∃ t, exec (.copyCommandCompletion core id 0 [(true, u)]) s = .next t ∧ t.mem = s.mem ∧ t.locMem c (c.q 1) =
      (s.locMem c (c.q 1)).blend u (c.unitOut u).1 (c.unitOut u).2.1 (c.unitOut u).2.2.1 := by
  obtain ⟨hr, hwait⟩ := locReach_free hf
  have hmove : (s.move c (true, u)).1 =
      (s.locReach c (c.q 1) u).1.writeLoc c (c.q 1) u (c.unitOut u).1 (c.unitOut u).2.1 (c.unitOut u).2.2.1 := by
    have hph' : ((c.sub == 2 || c.sub == 3) && c.phase == 0) = false := by simpa using hph
    unfold State.move State.copyMove State.copyWrite
    simp [hc.unfinished, hop, hu, hw, hr, hph']
  obtain ⟨h1, co, cl, h2⟩ := writeLoc_near (s := (s.locReach c (c.q 1) u).1) (c := c) hf.space u (c.unitOut u).1 (c.unitOut u).2.1
    (c.unitOut u).2.2.1
  obtain ⟨t, ht, hs⟩ := hc.moves (true, u)
  rw [hmove] at hs
  refine ⟨t, ht, ?_, ?_⟩
  · rw [hs.mem, h2, hwait.outside]
  · rw [hs.locMem, h1, hwait.locMem]

/-- A block that cannot be built ends the copy (R245). -/
theorem Copying.build_ends (hop : c.op = 2) (hs : c.sub = 2 ∨ c.sub = 3) (hph : c.phase = 0) {code : Nat} (hb : c.build = c.end_ code 0 0) :
    exec (.copyCommandCompletion core id 0 [(true, 0)]) s = .next ((s.setCopy core (c.end_ code 0 0)).complete (c.end_ code 0 0)) := by
  have hmove : s.move c (true, 0) = (s, c.end_ code 0 0) := by
    unfold State.move State.copyMove
    rcases hs with hs | hs <;> simp [hc.unfinished, hop, hs, hph, hb]
  rw [hc.moves_only hmove (rest_finished rfl)]
  rfl

/-- A block that has been built is to be written (R245). -/
theorem Copying.build_goes (hop : c.op = 2) (hs : c.sub = 2 ∨ c.sub = 3) (hph : c.phase = 0) {out : List Byte} {psn : List Bool}
    (hd : c.dstUnits ≠ []) (hb : c.build = { c with phase := 1, out := out, outPsn := psn, todo := c.dstUnits }) :
    exec (.copyCommandCompletion core id 0 [(true, 0)]) s =
      .next (s.setCopy core { c with phase := 1, out := out, outPsn := psn, todo := c.dstUnits }) := by
  have hmove : s.move c (true, 0) = (s, { c with phase := 1, out := out, outPsn := psn, todo := c.dstUnits }) := by
    unfold State.move State.copyMove
    rcases hs with hs | hs <;> simp [hc.unfinished, hop, hs, hph, hb]
  rw [hc.moves_only hmove (copyRest_busy (by rw [hop]; decide) (.inl hd))]
  exact congrArg _ (if_neg (ne_true_of_eq_false hc.unfinished))

end

/-! ### Building a block (R245) -/

theorem hasRange_mono {c : Cmd} {k a n m : Nat} (h : c.hasRange k a n = true) (hm : m ≤ n) : c.hasRange k a m = true := by
  unfold Cmd.hasRange at *
  rw [List.all_eq_true] at *
  intro u hu
  obtain ⟨b, h1, h2, rfl⟩ := unitsOf_touch.1 hu
  exact h _ (unitsOf_touch.2 ⟨b, h1, by omega, rfl⟩)

theorem build_compressing {c : Cmd} (hs : c.sub = 3) (hr : c.hasRange 0 c.srcAt c.srcLen = true) :
    let b := c.bytesAt 0 c.srcAt c.srcLen
    let blk := compressBlock b.1
    (c.dstLen < blk.length → c.build = c.end_ stToolarge 0 0) ∧
    (blk.length ≤ c.dstLen → c.build = { c with
      phase := 1, out := blk ++ List.replicate (c.dstLen - blk.length) 0
      outPsn := List.replicate blk.length (b.2.contains true) ++ List.replicate (c.dstLen - blk.length) false, todo := c.dstUnits }) := by
  intro b blk
  unfold Cmd.build
  rw [if_neg (by rw [hs]; decide), hr]
  exact ⟨fun h => if_pos h, fun h => if_neg (Nat.not_lt_of_le h)⟩

theorem build_expanding {c : Cmd} (hs : c.sub = 2) (hlen : 32 ≤ c.srcLen) (hr : c.hasRange 0 c.srcAt c.srcLen = true) :
    let h := (c.bytesAt 0 c.srcAt 32).1
    let used := if headerOk h then min (blkUsed h) c.srcLen else 32
    let b := c.bytesAt 0 c.srcAt used
    (∀ r, decodeBlock c.srcLen b.1 b.2 = some r → r.1.length = c.len → c.build = { c with
      phase := 1, out := r.1, outPsn := r.2, todo := c.dstUnits }) ∧
    ((∀ r, decodeBlock c.srcLen b.1 b.2 = some r → r.1.length ≠ c.len) → c.build = c.end_ stBadstream 0 0) := by
  intro h used b
  have hmin : min 32 c.srcLen = 32 := Nat.min_eq_left hlen
  have hused : used ≤ c.srcLen := by
    dsimp only [used]
    split
    · exact Nat.min_le_right ..
    · exact hlen
  have hb : c.build = match decodeBlock c.srcLen b.1 b.2 with
      | some r => if r.1.length = c.len then { c with phase := 1, out := r.1, outPsn := r.2, todo := c.dstUnits } else c.end_ stBadstream 0 0
      | none => c.end_ stBadstream 0 0 := by
    unfold Cmd.build
    rw [if_pos hs, hmin, hasRange_mono hr hlen]
    dsimp only
    rw [show (if headerOk (c.bytesAt 0 c.srcAt 32).1 = true then min (blkUsed (c.bytesAt 0 c.srcAt 32).1) c.srcLen else 32) = used from rfl,
      hasRange_mono hr hused]
    rfl
  rw [hb]
  refine ⟨fun r hd hl => ?_, fun hn => ?_⟩
  · rw [hd]
    exact if_pos hl
  · cases hd : decodeBlock c.srcLen b.1 b.2 with
    | none => rfl
    | some r => exact if_neg (hn r hd)

end Sys2Proof.Machine
end

section
/-! PROOFS. A copy to an object of this module (spec/09 R240, R241). -/

namespace Sys2Proof.Machine

theorem mergesNone_lines {s : State} (h : s.mergesNone = true) : (∀ k, (s.core k).lines = []) ∧ ∀ a l, s.barred a l = false := by
  unfold State.mergesNone at h
  rw [Bool.and_eq_true, List.all_eq_true] at h
  obtain ⟨h1, h2⟩ := h
  refine ⟨fun k => ?_, fun a l => ?_⟩
  · rcases look_default_or_mem ({} : Core) s.cores k with hk | hk
    · rw [State.core, hk]
    · exact List.isEmpty_iff.1 (h1 _ hk)
  · refine List.any_eq_false.2 fun u hu => ?_
    have hm : u.merged = false := by
      simp only [Bool.not_eq_true', List.any_eq_false] at h2
      simpa using h2 u hu
    simp [hm]

/-- Bytes of a unit of memory written by an agent where no merge is asked for. -/
theorem agentSet_mem {s : State} (h : s.mergesNone = true) (a : Nat × Nat) (r : URef) (mask : Nat) (data : Word) (psn : Bool) :
    (s.agentSet a (some r) mask data psn).mem = s.mem.blend r.pu mask data psn := by
  unfold State.agentSet
  dsimp only
  rw [touchLine_quiet s (mergesNone_lines h).1]
  unfold State.engineSet State.hiding
  split <;> rfl

theorem reach_none {s : State} (h : s.mergesNone = true) (a : Nat × Nat) (r : URef) : s.reach a (some r) = (s, true) := by
  unfold State.reach
  dsimp only
  rw [touchLine_quiet s (mergesNone_lines h).1, (mergesNone_lines h).2]
  rfl

/-- A semaphore of a cluster depends on the clusters alone. -/
theorem sem_of_clusters {s t : State} (h : t.clusters = s.clusters) (cl n : Nat) : t.sem cl {} n = s.sem cl {} n := by
  show look {} (t.cluster cl).sems n = look {} (s.cluster cl).sems n
  unfold State.cluster
  rw [h]

/-- A command that asks for no signal leaves the clusters as it completes. -/
theorem complete_clusters {s : State} {c : Cmd} (h : c.sigen = false) : (s.complete c).clusters = s.clusters := by
  unfold State.complete State.cmdSignal
  rw [landToken_clusters, h]
  rfl

section
variable {s : State} {core id : Nat} {c : Cmd} (hc : Copying s core id c) (hop : c.op = 3) (hown : nameSerial c.rName = s.part.serial)
include hc hop hown

/-- A unit of an object of this module is written into the object's memory. -/
theorem Copying.writes_object (hrem : c.remote = 2) (hmg : s.mergesNone = true) {u : Nat} {p : Page} (hu : u ∈ c.todo) (hw : c.canWrite u = true)
    (hp : pageOf (look [] c.pages 16) ((extBase (look 0 c.extents 16) + 8 * u) / 65536) = some p) :
    ∃ t, exec (.copyCommandCompletion core id 0 [(true, u)]) s = .next t ∧ t.mem =
      s.mem.blend ((p.frame * 65536 + (extBase (look 0 c.extents 16) + 8 * u) % 65536) / 8)
        (c.unitOut u).1 (c.unitOut u).2.1 (c.unitOut u).2.2.1 := by
  have hown' : s.ownObject c = true := beq_iff_eq.2 hown
  have hat : unitOn (c.slotPages objSlot) (c.objectVa (8 * u) / 8) = some (p.unit (c.objectVa (8 * u) / 8)) := by
    have hva : c.objectVa (8 * u) / 8 / 8192 = (extBase (look 0 c.extents 16) + 8 * u) / 65536 := by
      rw [Nat.div_div_eq_div_mul]
      rfl
    rw [unitOn, hva, show c.slotPages objSlot = look [] c.pages 16 from rfl, hp]
    rfl
  have hmove : (s.move c (true, u)).1 =
      s.agentSet c.agent (some (p.unit (c.objectVa (8 * u) / 8))) (c.unitOut u).1 (c.unitOut u).2.1 (c.unitOut u).2.2.1 := by
    unfold State.move State.copyMove State.copyWrite
    simp [hc.unfinished, hop, hu, hw, hrem, hown', hat, reach_none hmg]
  obtain ⟨t, ht, hs⟩ := hc.moves (true, u)
  refine ⟨t, ht, ?_⟩
  rw [hs.mem, hmove, agentSet_mem hmg]
  congr 1
  show p.frame * 8192 + (extBase (look 0 c.extents 16) + 8 * u) / 8 % 8192 = _
  omega

/-- A copy to an object of this module whose units are all written signals its target (R241). -/
theorem Copying.object_signals (htodo : c.todo = []) (hsig : c.sigen = false) (hrs : c.rSigen = true) (hst : c.copyEnd.status ≠ stCksum)
    (hcl : s.part.hasCluster c.rClus = true) (u : Nat) : ∃ t, exec (.copyCommandCompletion core id 0 [(true, u)]) s = .next t ∧ t.mem = s.mem ∧
      t.sem c.rClus {} c.rSem = (s.sem c.rClus {} c.rSem).add (if c.rBytes then c.dstLen else 1 : Nat) := by
  have hown' : s.ownObject c = true := beq_iff_eq.2 hown
  have hmove : s.move c (true, u) = (s, c) := by
    unfold State.move State.copyMove State.copyWrite
    simp [hc.unfinished, hop, htodo]
  generalize hv : (s.showWrites c.id).signal c.rClus {} c.rSem (if c.rBytes then c.dstLen else 1 : Nat) = v
  have hend : s.objectEnd c c.dstLen true = v := by
    unfold State.objectEnd
    rw [hrs, ← hv]
    exact if_pos hcl
  have hne : (c.copyEnd.status != stCksum) = true := bne_iff_ne.2 hst
  have hfin : c.copyEnd.finished = true := rfl
  have hsig' : c.copyEnd.sigen = false := hsig
  have hrest : s.rest_ c = (v, c.copyEnd) := by
    unfold State.rest_ State.copyRest
    simp [hc.unfinished, hop, htodo, hown', hne, hend]
  generalize c.copyEnd = e at hfin hsig' hrest
  have hexec := hc.exec_eq (true, u)
  simp only [hmove, hrest, rest_finished hfin, hfin, if_true] at hexec
  refine ⟨_, hexec, ?_, ?_⟩
  · have h1 := sameData_rest s c
    rw [hrest] at h1
    exact ((h1.trans (sameData_setCopy v core e)).trans (sameData_complete _ e)).mem
  · rw [sem_of_clusters (t := (v.setCopy core e).complete e) (s := v) (complete_clusters hsig'), ← hv]
    exact (semChange_spec (s.showWrites c.id) c.rClus {} c.rSem _).2.2.2.2 (.inl rfl)

end

/-- A signal's addition as the statement gives it (R252). -/
theorem Sem.add_eq (x : Sem) (inc : ℤ) : x.add inc =
    if x.bal.toInt + inc < -(2 ^ 31) then { bal := 0x80000000, mark := true }
    else if 2 ^ 31 ≤ x.bal.toInt + inc then { bal := 0x7FFFFFFF, mark := true }
    else { bal := BitVec.ofInt 32 (x.bal.toInt + inc), mark := x.mark } := by
  unfold Sem.add Sem.value
  dsimp only
  by_cases h1 : x.bal.toInt + inc < -2147483648
  · rw [if_pos h1, if_pos (show x.bal.toInt + inc < -(2 ^ 31) by omega)]
    rfl
  · rw [if_neg h1, if_neg (show ¬x.bal.toInt + inc < -(2 ^ 31) by omega)]
    by_cases h2 : x.bal.toInt + inc > 2147483647
    · rw [if_pos h2, if_pos (show 2 ^ 31 ≤ x.bal.toInt + inc by omega)]
      rfl
    · rw [if_neg h2, if_neg (show ¬2 ^ 31 ≤ x.bal.toInt + inc by omega)]

end Sys2Proof.Machine
end

section
/-! PROOFS. The elements of GATH, SCAE and CRED (spec/09 R247 to R249). -/

namespace Sys2Proof.Machine

/-! ### An update posted -/

/-- An element update on its way: of a command, with its operation, place, value and poison. -/
structure ElemUpdate (c : Cmd) (op : Rmw) (ps : List Page) (va val : Nat) (psn : Bool) (u : Update) : Prop where
  pa : u.pa = pagePa ps va
  cmd : u.cmd = some (c.core, c.id)
  op : u.op = op
  fmt : u.fmt = c.fmt
  status : u.status = .transit
  va : u.va = va
  val : u.val = val
  psn : u.psn = psn

theorem postElem_updates {s : State} {c : Cmd} {va : Nat} (n val : Nat) (psn : Bool)
    (h : pageOf (c.slotPages (locSlot (c.q 1))) (va / 65536) ≠ none) :
    ∃ u, ElemUpdate c c.elemOp (c.slotPages (locSlot (c.q 1))) va val psn u ∧ (s.postElem c n va val psn).updates = s.updates ++ [u] := by
  obtain ⟨l, -, -, hout⟩ := noteWrite_spec s c.ctx (c.slotPages (locSlot (c.q 1))) va c.esize
  have hn : ¬(pageOf (c.slotPages (locSlot (c.q 1))) (va / 65536)).isNone = true := by simpa using h
  unfold State.postElem
  dsimp only
  rw [if_neg hn, hout]
  exact ⟨_, ⟨rfl, rfl, rfl, rfl, rfl, rfl, rfl, rfl⟩, rfl⟩

/-- Updates posted in turn stand in turn. -/
theorem postElems_updates {c : Cmd} (va val : Nat → Nat) (psn : Nat → Bool) (l : List Nat) (s : State)
    (h : ∀ n ∈ l, pageOf (c.slotPages (locSlot (c.q 1))) (va n / 65536) ≠ none) :
    ∃ us : List Update, (l.foldl (fun s n => s.postElem c n (va n) (val n) (psn n)) s).updates = s.updates ++ us ∧
      us.map (fun u => (u.va, u.val, u.psn)) = l.map (fun n => (va n, val n, psn n)) ∧
      ∀ u ∈ us, ElemUpdate c c.elemOp (c.slotPages (locSlot (c.q 1))) u.va u.val u.psn u := by
  induction l generalizing s with
  | nil => exact ⟨[], by simp, rfl, by simp⟩
  | cons n r ih =>
    obtain ⟨u, hu, hs⟩ := postElem_updates (s := s) n (val n) (psn n) (h n (List.mem_cons_self ..))
    obtain ⟨us, h1, h2, h3⟩ := ih (s.postElem c n (va n) (val n) (psn n)) fun m hm => h m (List.mem_cons_of_mem _ hm)
    refine ⟨u :: us, ?_, ?_, fun v hv => ?_⟩
    · rw [List.foldl_cons, h1, hs, List.append_assoc]
      rfl
    · rw [List.map_cons, List.map_cons, h2, hu.va, hu.val, hu.psn]
    · rcases List.mem_cons.1 hv with rfl | hv
      · rw [hu.va, hu.val, hu.psn]
        exact hu
      · exact h3 v hv

/-! ### An element of the cluster store, or of the scratchpad -/

/-- A read and a write at once: a poisoned value poisons its location, a marked location stays (R248). -/
theorem addInStore_spec {s : State} {c : Cmd} (h1 : locSpace (c.q 1) = 1) (a val : Nat) (psn : Bool) :
    let old := (s.cluster (clusterOf c.ctx)).store
    let t := (s.addInStore c a val psn).1
    t.mem = s.mem ∧ (psn = false → old.poisoned a c.esize = true → t = s) ∧
    (psn = true ∨ old.poisoned a c.esize = false → Puts2 old (t.locMem c (c.q 1)) a c.esize
      (leBytes c.esize (rmwNew c.elemOp c.fmt (old.nat a c.esize) val 0)) psn) := by
  intro old t
  have hlt : locSpace (c.q 1) < 2 := by omega
  have hold : s.locMem c (c.q 1) = old := by
    unfold State.locMem
    rw [if_neg (by omega)]
  have hput (bs : List Byte) (p : Bool) (hl : bs.length = c.esize) : (s.writeElem c 1 a bs p).mem = s.mem ∧
      Puts2 old ((s.writeElem c 1 a bs p).locMem c (c.q 1)) a c.esize bs p := by
    obtain ⟨hm, co, cl, hs⟩ := writeElem_near (s := s) hlt a bs p
    rw [hm, hold, ← hl]
    exact ⟨by rw [hs], puts2_putUnits ..⟩
  by_cases hp : psn = true
  · have ht : t = s.writeElem c 1 a (leBytes c.esize 0) true := by
      show (s.addInStore c a val psn).1 = _
      unfold State.addInStore
      rw [if_pos hp]
    obtain ⟨g1, g2⟩ := hput (leBytes c.esize 0) true (leBytes_length ..)
    rw [ht]
    refine ⟨g1, fun hf => absurd (hp.symm.trans hf) (by decide), fun _ => ?_⟩
    rw [hp]
    exact g2.poisoned rfl
  · by_cases hm : old.poisoned a c.esize = true
    · have ht : t = s := by
        show (s.addInStore c a val psn).1 = _
        unfold State.addInStore
        rw [if_neg hp]
        exact congrArg _ (if_pos hm)
      rw [ht]
      exact ⟨rfl, fun _ _ => rfl, fun hh => absurd hm (by rcases hh with hh | hh <;> simp_all)⟩
    · have ht : t = s.writeElem c 1 a (leBytes c.esize (rmwNew c.elemOp c.fmt (old.nat a c.esize) val 0)) false := by
        show (s.addInStore c a val psn).1 = _
        unfold State.addInStore
        rw [if_neg hp]
        exact congrArg _ (if_neg hm)
      obtain ⟨g1, g2⟩ := hput (leBytes c.esize (rmwNew c.elemOp c.fmt (old.nat a c.esize) val 0)) false (leBytes_length ..)
      rw [ht, show psn = false by simpa using hp]
      exact ⟨g1, fun _ hh => absurd hh hm, fun _ => g2⟩

/-- A request served leaves whether the others wait. -/
theorem lockHolds_askUnit {s : State} {core cmd u v : Nat} (hu : s.lockHolds core cmd u = false) (hv : v ≠ u) :
    (s.askUnit core cmd u).1.lockHolds core cmd v = s.lockHolds core cmd v := by
  unfold State.askUnit
  simp only [hu, Bool.false_eq_true, if_false]
  split
  · rfl
  · have hfind : ((s.core core).waits.filter fun x => !(x.cmd == cmd && x.unit == u)).find? (fun x => x.cmd == cmd && x.unit == v) =
        (s.core core).waits.find? fun x => x.cmd == cmd && x.unit == v := by
      rw [List.find?_filter]
      congr 1
      funext x
      by_cases h : x.unit = v
      · simp [h, hv, beq_eq_decide]
      · simp [h]
    unfold State.lockHolds
    rw [core_setCore_same]
    dsimp only
    rw [hfind]
    rfl

theorem askUnits_free (us : List Nat) (hn : us.Nodup) {s : State} {core cmd : Nat} (h : ∀ u ∈ us, s.lockHolds core cmd u = false) :
    (s.askUnits core cmd us).2 = true ∧ OnlyWaits s core (s.askUnits core cmd us).1 := by
  induction us generalizing s with
  | nil => exact ⟨rfl, .refl ..⟩
  | cons u r ih =>
    obtain ⟨hu, hr⟩ := List.nodup_cons.1 hn
    have h0 := h u (List.mem_cons_self ..)
    obtain ⟨g1, g2⟩ := askUnit_free h0
    obtain ⟨i1, i2⟩ := ih hr (s := (s.askUnit core cmd u).1) fun v hv => by
      rw [lockHolds_askUnit h0 fun he => hu (he ▸ hv)]
      exact h v (List.mem_cons_of_mem _ hv)
    unfold State.askUnits
    exact ⟨by simp [g1, i1], g2.trans i2⟩

theorem unitsOf_nodup (a n : Nat) : (unitsOf a n).Nodup := by
  unfold unitsOf
  split
  · exact List.nodup_nil
  · exact List.nodup_range.map fun _ _ h => Nat.add_left_cancel h

end Sys2Proof.Machine
end

section
/-! PROOFS. The chunks of GATH and SCAE (spec/09 R247, R248). -/

namespace Sys2Proof.Machine

/-! ### The elements of a chunk -/

theorem mem_chunk {c : Cmd} {n : Nat} : n ∈ c.chunk ↔ 64 * c.chunkNo ≤ n ∧ n < 64 * c.chunkNo + 64 ∧ n < bits (c.q 2) 0 48 := by
  unfold Cmd.chunk Cmd.chunkLen Cmd.chunkAt Cmd.count
  simp only [List.mem_map, List.mem_range]
  constructor
  · rintro ⟨i, hi, rfl⟩
    omega
  · intro h
    exact ⟨n - 64 * c.chunkNo, by omega, by omega⟩

theorem indexOf_eq (c : Cmd) (n : Nat) : c.indexOf n =
    (leNat (c.bytesAt 3 (c.addr (c.q 3) + 4 * n) 4).1, (c.bytesAt 3 (c.addr (c.q 3) + 4 * n) 4).2.contains true) := by
  rw [Nat.mul_comm]
  rfl

/-- The bytes of element `n` of a destination are those whose offset, in whole elements, is `n`. -/
theorem offset_in_elem {e a d n : Nat} (he : 0 < e) : (a + n * e ≤ d ∧ d < a + n * e + e) ↔ a ≤ d ∧ (d - a) / e = n := by
  rw [Nat.div_eq_iff he]
  constructor
  · rintro ⟨h1, h2⟩
    omega
  · rintro ⟨h1, h2, h3⟩
    omega

theorem esize_pos (c : Cmd) : 0 < c.esize := fmtBytes_pos c.fmt

/-! ### What GATH writes -/

/-- The byte that GATH writes at an address of its destination in the chunk, and its poison. -/
def Cmd.gathVal (c : Cmd) (d : Nat) : Option (Byte × Bool) :=
  if c.addr (c.q 1) ≤ d ∧ (d - c.addr (c.q 1)) / c.esize ∈ c.chunk then
    some (nth 0 (c.gathered ((d - c.addr (c.q 1)) / c.esize)).1 ((d - c.addr (c.q 1)) % c.esize),
      (c.gathered ((d - c.addr (c.q 1)) / c.esize)).2)
  else none

/-- The elements of the chunk with bytes in a destination unit. -/
def Cmd.gathHere (c : Cmd) (u : Nat) : List Nat := c.chunk.filter fun n => (unitsOf (c.elemAt 1 n) c.esize).contains u

/-- The chunk's bytes, as GATH writes them into a destination unit. -/
def Cmd.gathBytes (c : Cmd) (u : Nat) : List Byte :=
  c.chunk.flatMap fun n => if (c.gathHere u).contains n then (c.gathered n).1 else leBytes c.esize 0

theorem gathered_length (c : Cmd) (n : Nat) : (c.gathered n).1.length = c.esize := by
  unfold Cmd.gathered
  split
  · exact leBytes_length ..
  · exact bytesAt_length ..

theorem mem_gathHere {c : Cmd} {u n : Nat} : n ∈ c.gathHere u ↔ n ∈ c.chunk ∧
    ∃ d, d / 8 = u ∧ c.addr (c.q 1) ≤ d ∧ (d - c.addr (c.q 1)) / c.esize = n := by
  unfold Cmd.gathHere
  rw [List.mem_filter, List.contains_iff_mem, unitsOf_touch]
  refine and_congr_right fun _ => exists_congr fun d => ?_
  rw [← offset_in_elem (esize_pos c)]
  exact ⟨fun ⟨h1, h2, h3⟩ => ⟨h3, h1, h2⟩, fun ⟨h3, h1, h2⟩ => ⟨h1, h2, h3⟩⟩

theorem gathPiece_length (c : Cmd) (u : Nat) : ∀ n ∈ c.chunk,
    (if (c.gathHere u).contains n then (c.gathered n).1 else leBytes c.esize 0).length = c.esize := by
  intro n _
  split
  · exact gathered_length ..
  · exact leBytes_length ..

theorem gathBytes_length (c : Cmd) (u : Nat) : (c.gathBytes u).length = c.chunkLen * c.esize := by
  unfold Cmd.gathBytes
  rw [length_flatMap_const _ _ _ (gathPiece_length c u)]
  simp [Cmd.chunk]

/-- The chunk's bytes start at its first element and end after its last. -/
theorem gathVal_isSome (c : Cmd) (d : Nat) : (c.gathVal d).isSome = true ↔
    c.elemAt 1 c.chunkAt ≤ d ∧ d < c.elemAt 1 c.chunkAt + c.chunkLen * c.esize := by
  have he := esize_pos c
  have h1 : (c.gathVal d).isSome = true ↔ c.addr (c.q 1) ≤ d ∧ (d - c.addr (c.q 1)) / c.esize ∈ c.chunk := by
    unfold Cmd.gathVal
    split
    next h => exact iff_of_true rfl h
    next h => exact iff_of_false (by simp) h
  have h2 : (d - c.addr (c.q 1)) / c.esize ∈ c.chunk ↔
      c.chunkAt * c.esize ≤ d - c.addr (c.q 1) ∧ d - c.addr (c.q 1) < (c.chunkAt + c.chunkLen) * c.esize := by
    rw [← Nat.le_div_iff_mul_le he, ← Nat.div_lt_iff_lt_mul he, mem_chunk]
    unfold Cmd.chunkLen Cmd.chunkAt Cmd.count
    omega
  rw [h1, h2, Nat.add_mul]
  show _ ↔ c.addr (c.q 1) + c.chunkAt * c.esize ≤ d ∧ d < c.addr (c.q 1) + c.chunkAt * c.esize + c.chunkLen * c.esize
  omega

/-- A byte that GATH writes into a unit is the one of its element. -/
theorem nth_gathBytes {c : Cmd} {u d : Nat} {x : Byte × Bool} (hd : d / 8 = u) (hx : c.gathVal d = some x) :
    nth 0 (c.gathBytes u) (d - c.elemAt 1 c.chunkAt) = x.1 := by
  have he := esize_pos c
  obtain ⟨hlo, hhi⟩ := (gathVal_isSome c d).1 (by rw [hx]; rfl)
  unfold Cmd.gathVal at hx
  split at hx
  next h =>
    obtain ⟨hle, hn⟩ := h
    obtain ⟨i, hi⟩ : ∃ i, d - c.elemAt 1 c.chunkAt = i := ⟨_, rfl⟩
    have hdi : d - c.addr (c.q 1) = c.chunkAt * c.esize + i := by
      have : c.elemAt 1 c.chunkAt = c.addr (c.q 1) + c.chunkAt * c.esize := rfl
      omega
    have hq : (d - c.addr (c.q 1)) / c.esize = c.chunkAt + i / c.esize := by
      rw [hdi, Nat.add_comm, Nat.add_mul_div_right _ _ he, Nat.add_comm]
    have hr : (d - c.addr (c.q 1)) % c.esize = i % c.esize := by rw [hdi, Nat.add_comm, Nat.add_mul_mod_self_right]
    have hil : i / c.esize < c.chunkLen := by
      rw [Nat.div_lt_iff_lt_mul he]
      omega
    have hhere : (c.gathHere u).contains (c.chunkAt + i / c.esize) = true :=
      List.contains_iff_mem.2 (mem_gathHere.2 ⟨hq ▸ hn, d, hd, hle, hq⟩)
    have hpos : i % c.esize < (c.gathered (c.chunkAt + i / c.esize)).1.length := by
      rw [gathered_length]
      exact Nat.mod_lt _ he
    rw [← Option.some.inj hx, hi, hq, hr, nth, nth, Cmd.gathBytes, getElem?_flatMap_const he _ _ (gathPiece_length c u), Cmd.chunk,
      List.getElem?_map, List.getElem?_range hil]
    simp only [Option.map_some, Option.bind_some, hhere, if_true]
  · cases hx

/-- A unit of GATH's destination is poisoned when an element with bytes in it is. -/
theorem gathHere_psn (c : Cmd) (u : Nat) : ((c.gathHere u).any fun n => (c.gathered n).2) =
    (List.range 8).any fun j => ((c.gathVal (8 * u + j)).getD (0, false)).2 := by
  rw [Bool.eq_iff_iff, List.any_eq_true, List.any_eq_true]
  constructor
  · rintro ⟨n, hn, hp⟩
    obtain ⟨hc, d, hd, hle, hdn⟩ := mem_gathHere.1 hn
    refine ⟨d % 8, List.mem_range.2 (Nat.mod_lt _ (by decide)), ?_⟩
    rw [← hd, Nat.div_add_mod, Cmd.gathVal, hdn, if_pos ⟨hle, hc⟩]
    exact hp
  · rintro ⟨j, hj, hp⟩
    have hj := List.mem_range.1 hj
    unfold Cmd.gathVal at hp
    split at hp
    next h => exact ⟨_, mem_gathHere.2 ⟨h.2, 8 * u + j, by omega, h.1, rfl⟩, hp⟩
    · cases hp

theorem puts_gathered (c : Cmd) (m : Mem) (u : Nat) :
    let p := unitPart u (c.elemAt 1 c.chunkAt) (c.gathBytes u)
    Puts m (m.blend u p.1 p.2 ((c.gathHere u).any fun n => (c.gathered n).2)) u c.gathVal := by
  intro p
  refine puts_blend (unitPart_mask_lt ..) (gathHere_psn c u) (fun j hj => ?_) fun j x hj hx => ?_
  · rw [Bool.eq_iff_iff, (unitPart_spec _ _ _ j hj).1, decide_eq_true_iff, gathVal_isSome, gathBytes_length]
  · rw [(unitPart_spec _ _ _ j hj).2 ((gathVal_isSome c _).1 (by rw [hx]; rfl)).1]
    exact nth_gathBytes (by omega) hx

section
variable {s : State} {core id : Nat} {c : Cmd} (hc : Copying s core id c)
include hc

/-- A unit of GATH's destination is written once the data of its elements have been read. -/
theorem Copying.gathers (hop : c.op = 4) (hph : c.phase = 1) {u : Nat} (hu : u ∈ c.todo) (hf : s.freeAt c (c.q 1) u)
    (hk : ∀ n ∈ c.chunk, (c.indexOf n).2 = true ∨ c.hasRange 0 (c.targetAt n) c.esize = true) :
    ∃ t, exec (.copyCommandCompletion core id 0 [(true, u)]) s = .next t ∧ t.mem = s.mem ∧
      Puts (s.locMem c (c.q 1)) (t.locMem c (c.q 1)) u c.gathVal := by
  obtain ⟨hr, hwait⟩ := locReach_free hf
  have hknown : ((c.gathHere u).all fun n => (c.indexOf n).2 || c.hasRange 0 (c.targetAt n) c.esize) = true := by
    rw [List.all_eq_true]
    intro n hn
    rw [Bool.or_eq_true]
    exact hk n (mem_gathHere.1 hn).1
  have hmove : (s.move c (true, u)).1 = (s.locReach c (c.q 1) u).1.writeLoc c (c.q 1) u
      (unitPart u (c.elemAt 1 c.chunkAt) (c.gathBytes u)).1 (unitPart u (c.elemAt 1 c.chunkAt) (c.gathBytes u)).2
      ((c.gathHere u).any fun n => (c.gathered n).2) := by
    have hgo : (!c.todo.contains u || !(c.gathHere u).all fun n => (c.indexOf n).2 || c.hasRange 0 (c.targetAt n) c.esize) = false := by
      rw [hknown, List.contains_iff_mem.2 hu]
      rfl
    have h1 : s.move c (true, u) = s.gathWrite c u := by
      unfold State.move
      simp [hc.unfinished, hop, hph]
    have h2 : s.gathWrite c u = _ := (if_neg (ne_true_of_eq_false hgo)).trans (if_neg (by simp [hr]))
    rw [h1, h2]
    rfl
  obtain ⟨h1, co, cl, h2⟩ := writeLoc_near (s := (s.locReach c (c.q 1) u).1) (c := c) hf.space u
    (unitPart u (c.elemAt 1 c.chunkAt) (c.gathBytes u)).1 (unitPart u (c.elemAt 1 c.chunkAt) (c.gathBytes u)).2
    ((c.gathHere u).any fun n => (c.gathered n).2)
  obtain ⟨t, ht, hs⟩ := hc.moves (true, u)
  rw [hmove] at hs
  refine ⟨t, ht, ?_, ?_⟩
  · rw [hs.mem, h2, hwait.outside]
  · rw [hs.locMem, h1, hwait.locMem]
    exact puts_gathered ..

/-! ### What SCAE adds -/

/-- SCAE's next element of the chunk in the cluster store. -/
theorem Copying.scatters (hop : c.op = 5) (hph : c.phase = 1) {n : Nat} {r : List Nat} (ht : c.todo = n :: r) :
    ∃ t, exec (.copyCommandCompletion core id 0 [(true, 0)]) s = .next t ∧
      SameData (s.addInStore c (c.targetAt n) (c.elemVal 0 n).1 (c.elemVal 0 n).2).1 t := by
  have hmove : (s.move c (true, 0)).1 = (s.addInStore c (c.targetAt n) (c.elemVal 0 n).1 (c.elemVal 0 n).2).1 := by
    unfold State.move State.scaeNext
    simp [hc.unfinished, hop, hph, ht]
  obtain ⟨t, ht, hs⟩ := hc.moves (true, 0)
  exact ⟨t, ht, hmove ▸ hs⟩

/-- SCAE's updates of memory are posted in order, all of a chunk whose indices and values have been read and whose targets pass. -/
theorem Copying.posts_chunk (hop : c.op = 5) (h2 : locSpace (c.q 1) = 2) (hph : c.phase = 0) (hread : c.chunkRead = true)
    (hok : s.chunkCheck c = 0) (hp : ∀ n ∈ c.chunk, pageOf (c.slotPages (locSlot (c.q 1))) (c.targetAt n / 65536) ≠ none) :
    ∃ t us, exec (.copyCommandCompletion core id 0 [(true, 0)]) s = .next t ∧ t.updates = s.updates ++ us ∧
      us.map (fun u => (u.va, u.val, u.psn)) =
        (c.chunk.filter fun n => !(c.indexOf n).2).map (fun n => (c.targetAt n, (c.elemVal 0 n).1, (c.elemVal 0 n).2)) ∧
      ∀ u ∈ us, ElemUpdate c c.elemOp (c.slotPages (locSlot (c.q 1))) u.va u.val u.psn u := by
  generalize hc' : { c with
    psn := c.psn || c.chunk.any fun n => (c.indexOf n).2 || (c.elemVal 0 n).2
    skipped := c.skipped + (c.chunkLen - (c.chunk.filter fun n => !(c.indexOf n).2).length) } = c'
  have hmove : (s.move c (true, 0)).1 = (c.chunk.filter fun n => !(c.indexOf n).2).foldl
      (fun s n => s.postElem c' n (c.targetAt n) (c.elemVal 0 n).1 (c.elemVal 0 n).2) s := by
    have h1 : s.move c (true, 0) = s.openChunk c := by
      unfold State.move
      simp [hc.unfinished, hop, hph]
    have hopen : s.openChunk c = _ := (if_neg (by simp [hread])).trans ((if_neg (not_not_intro hok)).trans
      ((if_neg (by rw [hop]; decide)).trans (if_pos h2)))
    rw [h1, hopen, ← hc']
    rfl
  have hpages : c'.slotPages (locSlot (c'.q 1)) = c.slotPages (locSlot (c.q 1)) := by
    subst hc'
    rfl
  obtain ⟨us, g1, g2, g3⟩ := postElems_updates (c := c') c.targetAt (fun n => (c.elemVal 0 n).1) (fun n => (c.elemVal 0 n).2)
    (c.chunk.filter fun n => !(c.indexOf n).2) s fun n hn => hpages ▸ hp n (List.mem_filter.1 hn).1
  obtain ⟨t, ht, hs⟩ := hc.moves (true, 0)
  refine ⟨t, us, ht, by rw [hs.updates, hmove, g1], g2, fun u hu => ?_⟩
  obtain ⟨k1, k2, k3, k4, k5, k6, k7, k8⟩ := g3 u hu
  subst hc'
  exact ⟨k1, k2, k3, k4, k5, k6, k7, k8⟩

end

end Sys2Proof.Machine
end

section
/-! PROOFS. The moves of CRED, and the operation of an element update (spec/09 R249). -/

namespace Sys2Proof.Machine

/-! ### The operation of an element update -/

theorem elemRmw_float {fmt : Nat} (h : fmt ∈ fmtF) : elemRmw 0 fmt = .fadd ∧ elemRmw 1 fmt = .fmax ∧ elemRmw 2 fmt = .fmin ∧
    elemRmw 3 fmt = .fmaxp ∧ elemRmw 4 fmt = .fminp := by
  have hf : fmtF.contains fmt = true := List.contains_iff_mem.2 h
  exact ⟨if_pos hf, if_pos hf, if_pos hf, if_pos hf, if_pos hf⟩

theorem elemRmw_int {fmt : Nat} (h : fmt ∉ fmtF) : elemRmw 0 fmt = .add ∧
    ∀ sub, (sub = 1 ∨ sub = 3 → elemRmw sub fmt = if fmtSigned fmt then .maxs else .maxn) ∧
      (sub = 2 ∨ sub = 4 → elemRmw sub fmt = if fmtSigned fmt then .mins else .minn) := by
  have hf : ¬fmtF.contains fmt = true := fun hc => h (List.contains_iff_mem.1 hc)
  refine ⟨if_neg hf, fun sub => ⟨fun hs => ?_, fun hs => ?_⟩⟩
  · rcases hs with rfl | rfl
    · exact if_neg hf
    · exact if_neg hf
  · rcases hs with rfl | rfl
    · exact if_neg hf
    · exact if_neg hf

theorem fmtWidth_eq (f : Nat) : fmtWidth f = 8 * fmtBytes f := by
  unfold fmtBytes fmtWidth
  split <;> rfl

theorem elemOp_of_cred {c : Cmd} (h : c.op = 6) : c.elemOp = elemRmw c.sub c.fmt := by
  unfold Cmd.elemOp
  rw [if_pos h]

theorem elemOp_of_scae {c : Cmd} (h : c.op = 5) : c.elemOp = elemRmw 0 c.fmt := by
  unfold Cmd.elemOp
  rw [if_neg (by rw [h]; decide)]

/-! ### The elements of a CRED -/

section
variable {s : State} {core id : Nat} {c : Cmd} (hc : Copying s core id c) (hop : c.op = 6) {n : Nat}
include hc hop

theorem Copying.move_cred : s.move c (true, n) = s.credWrite c n := by
  unfold State.move
  simp [hc.unfinished, hop]

variable (hn : n ∈ c.todo) (hr : c.hasRange 0 (c.elemAt 0 n) c.esize = true)

omit hc hop in
include hn hr in
/-- An element still to do, whose source has been read, is taken up. -/
theorem credWrite_goes : (!c.todo.contains n || !c.hasRange 0 (c.elemAt 0 n) c.esize) = false := by
  rw [hr, List.contains_iff_mem.2 hn]
  rfl

include hn hr

/-- An element in the scratchpad whose location has been read is written. -/
theorem Copying.cred_spm (h0 : locSpace (c.q 1) = 0) (hr1 : c.hasRange 1 (c.elemAt 1 n) c.esize = true)
    (hf : ∀ u ∈ unitsOf (c.elemAt 1 n) c.esize, s.lockHolds c.core c.id u = false) :
    ∃ t, exec (.copyCommandCompletion core id 0 [(true, n)]) s = .next t ∧ t.mem = s.mem ∧
      Puts2 (s.core c.core).spm (t.core c.core).spm (c.elemAt 1 n) c.esize
        (leBytes c.esize (rmwNew c.elemOp c.fmt (c.elemVal 1 n).1 (c.elemVal 0 n).1 0)) ((c.elemVal 0 n).2 || (c.elemVal 1 n).2) := by
  obtain ⟨hg, hw⟩ := askUnits_free _ (unitsOf_nodup ..) hf
  generalize hbs : leBytes c.esize (rmwNew c.elemOp c.fmt (c.elemVal 1 n).1 (c.elemVal 0 n).1 0) = bs
  generalize hps : ((c.elemVal 0 n).2 || (c.elemVal 1 n).2) = psn
  have hlen : bs.length = c.esize := hbs ▸ leBytes_length ..
  have hmove : (s.move c (true, n)).1 =
      (s.askUnits c.core c.id (unitsOf (c.elemAt 1 n) c.esize)).1.writeElem c 1 (c.elemAt 1 n) bs psn := by
    have hdo : s.credWrite c n = _ := (if_neg (ne_true_of_eq_false (credWrite_goes hn hr))).trans ((if_neg (by omega)).trans
      ((if_neg (by omega)).trans ((if_neg (by omega)).trans ((if_neg (by simp [hr1])).trans (if_neg (by simp [hg]))))))
    rw [hc.move_cred hop, hdo, ← hbs, ← hps]
  obtain ⟨hm, co, cl, ho⟩ := writeElem_near (s := (s.askUnits c.core c.id (unitsOf (c.elemAt 1 n) c.esize)).1) (k := 1) (c := c)
    (by omega) (c.elemAt 1 n) bs psn
  obtain ⟨t, ht, hs⟩ := hc.moves (true, n)
  rw [hmove] at hs
  have hloc (r : State) : r.locMem c (c.q 1) = (r.core c.core).spm := if_pos h0
  refine ⟨t, ht, ?_, ?_⟩
  · rw [hs.mem, ho, hw.outside]
  · rw [← hloc s, ← hloc t, hs.locMem, hm, hw.locMem, ← hlen]
    exact puts2_putUnits ..

/-- An element in the cluster store is read and written at once. -/
theorem Copying.cred_store (h1 : locSpace (c.q 1) = 1) : ∃ t, exec (.copyCommandCompletion core id 0 [(true, n)]) s = .next t ∧
    SameData (s.addInStore c (c.elemAt 1 n) (c.elemVal 0 n).1 (c.elemVal 0 n).2).1 t := by
  have hmove : (s.move c (true, n)).1 = (s.addInStore c (c.elemAt 1 n) (c.elemVal 0 n).1 (c.elemVal 0 n).2).1 := by
    have hdo : s.credWrite c n = _ := (if_neg (ne_true_of_eq_false (credWrite_goes hn hr))).trans ((if_neg (by omega)).trans
      ((if_neg (by omega)).trans (if_pos h1)))
    rw [hc.move_cred hop, hdo]
  obtain ⟨t, ht, hs⟩ := hc.moves (true, n)
  exact ⟨t, ht, hmove ▸ hs⟩

/-- The first element still to do in memory is posted. -/
theorem Copying.cred_memory (h2 : locSpace (c.q 1) = 2) (hhead : c.todo.head? = some n)
    (hp : pageOf (c.slotPages (locSlot (c.q 1))) (c.elemAt 1 n / 65536) ≠ none) :
    ∃ t u, exec (.copyCommandCompletion core id 0 [(true, n)]) s = .next t ∧ t.updates = s.updates ++ [u] ∧
      ElemUpdate c c.elemOp (c.slotPages (locSlot (c.q 1))) (c.elemAt 1 n) (c.elemVal 0 n).1 (c.elemVal 0 n).2 u := by
  obtain ⟨u, hu, hup⟩ := postElem_updates (s := s) n (c.elemVal 0 n).1 (c.elemVal 0 n).2 hp
  have hmove : (s.move c (true, n)).1 = s.postElem c n (c.elemAt 1 n) (c.elemVal 0 n).1 (c.elemVal 0 n).2 := by
    have hdo : s.credWrite c n = _ := (if_neg (ne_true_of_eq_false (credWrite_goes hn hr))).trans ((if_neg (by omega)).trans
      ((if_pos h2).trans (if_pos hhead)))
    rw [hc.move_cred hop, hdo]
  obtain ⟨t, ht, hs⟩ := hc.moves (true, n)
  exact ⟨t, u, ht, by rw [hs.updates, hmove, hup], hu⟩

/-- An element of an object of this module is posted, its value within the element's width. -/
theorem Copying.cred_object (h3 : locSpace (c.q 1) = 3) (hown : nameSerial c.rName = s.part.serial) (hrem : c.remote = 2) :
    ∃ t u, exec (.copyCommandCompletion core id 0 [(true, n)]) s = .next t ∧ t.updates = s.updates ++ [u] ∧
      ElemUpdate c c.elemOp (c.slotPages objSlot) (c.objectVa (c.rOff + n * c.esize)) ((c.elemVal 0 n).1 % 2 ^ (8 * c.esize))
        (c.elemVal 0 n).2 u := by
  have hown' : s.ownObject c = true := beq_iff_eq.2 hown
  generalize hx : s.postRemote none (some (c.core, c.id)) (c.slotPages objSlot) (c.objectVa (c.rOff + n * c.esize)) c.fmt c.sub
    (c.elemVal 0 n).1 (c.elemVal 0 n).2 = x
  have hmove : (s.move c (true, n)).1 = x.1 := by
    have hdo : s.credWrite c n = _ := (if_neg (ne_true_of_eq_false (credWrite_goes hn hr))).trans ((if_pos h3).trans
      ((if_neg (not_not_intro hrem)).trans (if_pos hown')))
    rw [hc.move_cred hop, hdo, ← hx]
  obtain ⟨t, ht, hs⟩ := hc.moves (true, n)
  refine ⟨t, x.2, ht, by rw [hs.updates, hmove, ← hx]; rfl, ?_⟩
  subst hx
  exact ⟨rfl, rfl, (elemOp_of_cred hop).symm, rfl, rfl, rfl, by rw [Cmd.esize, ← fmtWidth_eq]; rfl, rfl⟩

end

end Sys2Proof.Machine
end

section
/-! PROOFS. The bytes of a copy and of GATH as the statement gives them (spec/09 R238, R243 to R245, R248). -/

namespace Sys2Proof.Machine

/-! ### What a copy writes -/

/-- The byte that a copy writes at an address of its destination, and its poison. -/
def Cmd.copyVal (c : Cmd) (a : Nat) : Option (Byte × Bool) :=
  if c.writesAt a = true then some ((c.dstByte (a - c.dstAt)).1, c.dstPsn (a - c.dstAt)) else none

theorem puts_copy (c : Cmd) (m : Mem) (u : Nat) : Puts m (m.blend u (c.unitOut u).1 (c.unitOut u).2.1 (c.unitOut u).2.2.1) u c.copyVal :=
  puts_unitOut c m u u fun _ _ => rfl

theorem cvtDeps_of_not_packet {df : Nat} (h : df ∉ fmtPacket) (sf x : Nat) : cvtDeps sf df x = elemDeps sf (x / fmtBytes df) :=
  if_neg fun hc => h (List.contains_iff_mem.1 hc)

/-- The byte of the converted element or packet, and its poison, as the statement gives them (R243). -/
def Cmd.convertedVal (c : Cmd) (x : Nat) : Byte × Bool :=
  let marked (l : List Nat) : Bool := l.any fun y => (c.srcByte y).2
  let element (x : Nat) : Nat :=
    if c.sfmt ∈ fmtPacket then (fromPacket c.fmt (leNat (c.srcBytes (64 * (x / 96)) 64)) c.sfmt (x % 96)).1
    else (convert c.fmt c.sfmt rne (leNat (c.srcBytes (x * fmtBytes c.sfmt) (fmtBytes c.sfmt)))).1
  if c.fmt ∈ fmtPacket then
    (BitVec.ofNat 8 ((packetOf c.fmt (bits (c.q 3) 48 16) 0 (sourceElems c.sfmt (c.srcBytes 0 c.len) (x / 64 * 96) 96)).1 / 2 ^ (8 * (x % 64))),
      marked (cvtDeps c.sfmt c.fmt x))
  else (BitVec.ofNat 8 (element (x / fmtBytes c.fmt) / 2 ^ (8 * (x % fmtBytes c.fmt))), marked (elemDeps c.sfmt (x / fmtBytes c.fmt)))

theorem convertedVal_eq (c : Cmd) (x : Nat) :
    c.convertedVal x = (c.convertedByte x, (cvtDeps c.sfmt c.fmt x).any fun y => (c.srcByte y).2) := by
  unfold Cmd.convertedVal Cmd.convertedByte
  by_cases h : c.fmt ∈ fmtPacket
  · simp only [if_pos h]
  · simp only [if_neg h, cvtDeps_of_not_packet h]

/-- The byte of the element of the other row and column, as the statement gives it (R244). -/
def Cmd.transposedVal (c : Cmd) (x : Nat) : Option (Byte × Bool) :=
  let e := fmtBytes c.fmt
  let j := x / c.dstr
  let i := x % c.dstr / e
  let y := i * c.sstr + j * e
  if j < c.cols ∧ i < c.rows ∧ j * c.dstr + (i + 1) * e ≤ c.room (c.q 1) then
    some (if y + e ≤ c.room (c.q 0) then
      ((c.srcByte (y + x % e)).1, ((List.range e).map (y + ·)).any fun y => (c.srcByte y).2) else (0, false)) else none

section
variable {c : Cmd} (hop : c.op = 2)
include hop

theorem copyVal_outside {a : Nat} (h : a < c.addr (c.q 1) ∨ c.dstLen ≤ a - c.addr (c.q 1)) : c.copyVal a = none := by
  unfold Cmd.copyVal
  rw [if_neg]
  rw [writesAt_iff hop]
  omega

theorem copyVal_inside {a : Nat} (h : ¬(a < c.addr (c.q 1) ∨ c.dstLen ≤ a - c.addr (c.q 1)))
    (hx : c.sub = 1 → (c.xposeFrom (a - c.addr (c.q 1))).isSome = true) :
    c.copyVal a = some ((c.dstByte (a - c.addr (c.q 1))).1, c.dstPsn (a - c.addr (c.q 1))) := by
  have hat : c.dstAt = c.addr (c.q 1) := if_neg (by rw [hop]; decide)
  unfold Cmd.copyVal
  rw [if_pos ((writesAt_iff hop a).2 ⟨by omega, by omega, hx⟩), hat]

theorem copyVal_converting (hs : c.sub = 0) {a : Nat} (h : ¬(a < c.addr (c.q 1) ∨ c.dstLen ≤ a - c.addr (c.q 1))) :
    let x := a - c.addr (c.q 1)
    c.copyVal a = some (if x = 0 ∧ bit (c.q 2) 63 = true ∧ bit (c.q 2) 61 = true then (c.convertedVal x).1 ^^^ 1 else (c.convertedVal x).1,
      (c.convertedVal x).2) := by
  intro x
  rw [copyVal_inside hop h fun h1 => absurd (hs.symm.trans h1) (by decide), dstByte_converting hop hs (by omega), dstPsn_converting hop hs,
    convertedVal_eq]

theorem copyVal_transposing (hs : c.sub = 1) {a : Nat} (h : ¬(a < c.addr (c.q 1) ∨ c.dstLen ≤ a - c.addr (c.q 1))) :
    c.copyVal a = c.transposedVal (a - c.addr (c.q 1)) := by
  generalize hx : a - c.addr (c.q 1) = x
  unfold Cmd.transposedVal
  by_cases hp : x / c.dstr < c.cols ∧ x % c.dstr / fmtBytes c.fmt < c.rows ∧
      x / c.dstr * c.dstr + (x % c.dstr / fmtBytes c.fmt + 1) * fmtBytes c.fmt ≤ c.room (c.q 1)
  · have hfrom : c.xposeFrom x = some (x % c.dstr / fmtBytes c.fmt * c.sstr + x / c.dstr * fmtBytes c.fmt) := if_pos hp
    obtain ⟨h1, h2⟩ := dst_transposing hop hs hfrom
    rw [copyVal_inside hop h fun _ => by rw [hx, hfrom]; rfl, hx, h1, h2]
    simp only [if_pos hp]
    split
    · rfl
    · rfl
  · have hfrom : c.xposeFrom x = none := if_neg hp
    simp only [if_neg hp]
    unfold Cmd.copyVal
    rw [if_neg]
    rw [writesAt_iff hop, hx, hfrom]
    exact fun hw => absurd (hw.2.2 hs) (by decide)

theorem copyVal_built (hs : c.sub = 2 ∨ c.sub = 3) {a : Nat} (h : ¬(a < c.addr (c.q 1) ∨ c.dstLen ≤ a - c.addr (c.q 1))) :
    c.copyVal a = some (nth 0 c.out (a - c.addr (c.q 1)), nth false c.outPsn (a - c.addr (c.q 1))) := by
  obtain ⟨h1, h2⟩ := dst_built hop hs (a - c.addr (c.q 1))
  rw [copyVal_inside hop h fun h1 => by omega, h1, h2]

end

/-- The byte that a copy to an object puts in unit `pu`, where it writes unit `u` (R240). -/
theorem objectVal {c : Cmd} (hop : c.op = 3) (u pu b : Nat) : (if b / 8 ≠ pu ∨ 8 * u + b % 8 < c.rOff ∨ c.rOff + c.len ≤ 8 * u + b % 8 then none
      else some ((c.dstByte (8 * u + b % 8 - c.rOff)).1, (c.srcByte (8 * u + b % 8 - c.rOff)).2)) =
    if b / 8 = pu then c.copyVal (8 * u + b % 8) else none := by
  have hat : c.dstAt = c.rOff := if_pos hop
  have hlen : c.dstLen = c.len := by simp [Cmd.dstLen, hop]
  have hdeps (x : Nat) : c.deps x = some [x] := by simp [Cmd.deps, hop]
  have hpsn (x : Nat) : c.dstPsn x = (c.srcByte x).2 := by simp [Cmd.dstPsn, hop, hdeps]
  have hw : c.writesAt (8 * u + b % 8) = true ↔ c.rOff ≤ 8 * u + b % 8 ∧ 8 * u + b % 8 < c.rOff + c.len := by
    simp [Cmd.writesAt, hat, hlen, hdeps]
  unfold Cmd.copyVal
  by_cases hb : b / 8 = pu
  · rw [if_pos hb]
    by_cases hin : c.writesAt (8 * u + b % 8) = true
    · rw [if_neg (by have := hw.1 hin; omega), if_pos hin, hat, hpsn]
    · rw [if_pos (by have := mt hw.2 hin; omega), if_neg hin]
  · rw [if_pos (.inl hb), if_neg hb]

/-! ### What GATH writes -/

theorem nth_leBytes_zero (n i : Nat) : nth 0 (leBytes n 0) i = (0 : Byte) := by
  by_cases h : i < n
  · rw [nth_leBytes _ _ _ h, Nat.zero_shiftRight]
    rfl
  · rw [nth, List.getElem?_eq_none (by rw [leBytes_length]; omega)]
    rfl

theorem gathVal_eq (c : Cmd) (a : Nat) : c.gathVal a =
    if a < c.addr (c.q 1) ∨ (a - c.addr (c.q 1)) / c.esize < 64 * c.chunkNo ∨ 64 * c.chunkNo + 64 ≤ (a - c.addr (c.q 1)) / c.esize ∨
        bits (c.q 2) 0 48 ≤ (a - c.addr (c.q 1)) / c.esize then none
    else some (if (c.indexOf ((a - c.addr (c.q 1)) / c.esize)).2 = true then (0, true) else
      (nth 0 (c.bytesAt 0 (c.targetAt ((a - c.addr (c.q 1)) / c.esize)) c.esize).1 ((a - c.addr (c.q 1)) % c.esize),
        (c.bytesAt 0 (c.targetAt ((a - c.addr (c.q 1)) / c.esize)) c.esize).2.contains true)) := by
  unfold Cmd.gathVal Cmd.gathered
  simp only [mem_chunk]
  generalize (a - c.addr (c.q 1)) / c.esize = n
  by_cases h : a < c.addr (c.q 1) ∨ n < 64 * c.chunkNo ∨ 64 * c.chunkNo + 64 ≤ n ∨ bits (c.q 2) 0 48 ≤ n
  · rw [if_pos h, if_neg (by omega)]
  · rw [if_neg h, if_pos (by omega)]
    by_cases hl : (c.indexOf n).2 = true
    · rw [if_pos hl, if_pos hl, nth_leBytes_zero]
    · rw [if_neg hl, if_neg hl]

end Sys2Proof.Machine
end

section
/-! PROOFS. The writes of the copy engine (spec/09 R238 to R249). -/

namespace Sys2Proof.Machine

/-- What an element read and written at once in the cluster store leaves there. -/
theorem addInStore_left {s t : State} {c : Cmd} {a val : Nat} {psn : Bool} (h1 : locSpace (c.q 1) = 1)
    (h : SameData (s.addInStore c a val psn).1 t) :
    let old := (s.cluster (clusterOf c.ctx)).store
    let new := (t.cluster (clusterOf c.ctx)).store
    t.mem = s.mem ∧ (psn = false → old.poisoned a c.esize = true → new = old) ∧
    (psn = true ∨ old.poisoned a c.esize = false → Puts2 old new a c.esize
      (leBytes c.esize (rmwNew c.elemOp c.fmt (old.nat a c.esize) val 0)) psn) := by
  intro old new
  obtain ⟨hm, hstay, hput⟩ := addInStore_spec (s := s) h1 a val psn
  have hnew : new = (s.addInStore c a val psn).1.locMem c (c.q 1) := by
    rw [← h.locMem, State.locMem, if_neg (by omega)]
  refine ⟨h.mem.trans hm, fun hp hmark => ?_, fun hp => ?_⟩
  · rw [hnew, hstay hp hmark, State.locMem, if_neg (by omega)]
  · rw [hnew]
    exact hput hp

/-- Settles O49, a command code at a time: the move that a code makes writes what its lemma says (`writes_unit`, `writes_object`, `gathers`,
`scatters`, `cred_store` and the like), and the event's rest, which may end the command, leaves the data (`Copying.moves`). -/
theorem engineWrites : Obligations.EngineWrites := by
  unfold Obligations.EngineWrites
  refine ⟨fun fmt => ⟨elemRmw_float, elemRmw_int⟩, ?_⟩
  intro core id s c co cl e run store free puts puts2 hfound home _ hawake hstarted hunfinished
  have hc : Copying s core id c := ⟨hfound, home, hawake, hstarted, hunfinished⟩
  obtain rfl := home
  refine ⟨fun hop => ?_, fun hop hown hrem hmg => ?_, fun hop => ?_, fun hop n hn hr => ?_⟩
  · -- CPYT
    intro src dst sf n flip bytes marked sw element converted transposed val
    have hval (hsub : c.sub < 4) : val = c.copyVal := by
      funext a
      by_cases hout : a < c.addr dst ∨ c.dstLen ≤ a - c.addr dst
      · exact (if_pos hout).trans (copyVal_outside hop hout).symm
      · refine (if_neg hout).trans ?_
        interval_cases hs : c.sub
        · rw [copyVal_converting hop hs hout]
          have hflip (x : Nat) (b : Byte) :
              flip x b = if x = 0 ∧ bit (c.q 2) 63 = true ∧ bit (c.q 2) 61 = true then b ^^^ 1 else b := by
            simp only [flip, hs, true_and]
          rw [← hflip]
          rfl
        · exact (copyVal_transposing hop hs hout).symm
        · exact (copyVal_built hop (.inl hs) hout).symm
        · exact (copyVal_built hop (.inr hs) hout).symm
    refine ⟨fun hs => dstLen_converting hop hs, fun u hu hg hf hbusy => ?_, fun u hu hw hf hsub _ => ?_, fun hs hph hr hd => ?_,
      fun hs hph hlen hr hd => ?_⟩
    · exact hc.reads_unit (by omega) hu hg hf (hbusy.imp_right fun h => ⟨hop, h⟩)
    · obtain ⟨t, ht, hm, hl⟩ := hc.writes_unit hop hu hw hf (by omega)
      refine ⟨t, ht, hm, ?_⟩
      rw [hval (by omega)]
      change Puts (s.locMem c (c.q 1)) (t.locMem c (c.q 1)) u c.copyVal
      exact hl ▸ puts_copy ..
    · intro b blk x pad
      have hsl : c.srcLen = n := by simp [Cmd.srcLen, hop, hs]; rfl
      obtain ⟨h1, h2⟩ := build_compressing hs (hsl ▸ hr)
      rw [hsl] at h1 h2
      exact ⟨fun h => hc.build_ends hop (.inr hs) hph (h1 h), fun h => hc.build_goes hop (.inr hs) hph hd (h2 h)⟩
    · intro h used b x
      obtain ⟨h1, h2⟩ := build_expanding hs hlen hr
      exact ⟨fun r hr hl => hc.build_goes hop (.inl hs) hph hd (h1 r hr hl), fun hn => hc.build_ends hop (.inl hs) hph (h2 hn)⟩
  · -- CPYR to an object of this module
    intro base
    refine ⟨fun u p _ hu hw hp => ?_, fun htodo hsig hrs hst hcl u => ?_⟩
    · intro pa val
      obtain ⟨t, ht, hm⟩ := hc.writes_object hop hown hrem hmg hu hw hp
      refine ⟨t, ht, ?_⟩
      change Puts s.mem t.mem pa val
      rw [hm]
      refine puts_unitOut c s.mem u pa fun j hj => (objectVal hop u pa _).trans ?_
      rw [if_pos (by omega), show (8 * pa + j) % 8 = j by omega]
      rfl
    · obtain ⟨t, ht, hm, hsem⟩ := hc.object_signals hop hown htodo hsig hrs hst hcl u
      refine ⟨t, ht, hm, ?_⟩
      have hlen : c.dstLen = c.len := by simp [Cmd.dstLen, hop]
      have hinc : ((if c.rBytes then c.len else 1 : Nat) : Int) = if (fld c.block 26 1).testBit 1 then (c.len : Int) else 1 := by
        rw [Nat.cast_ite]
        rfl
      rw [hsem, Sem.add_eq, hlen, hinc]
  · -- GATH and SCAE
    intro first count here idx lost from_ to_ given dirty
    have hidx (n : Nat) : c.indexOf n = (idx n, lost n) := indexOf_eq c n
    refine ⟨fun h4 hph u hu hf hk => ?_, fun h5 h1 hph n r ht => ?_, fun h5 h2 hph hread hok hp => ?_⟩
    · intro val
      have hfrom (n : Nat) : c.targetAt n = from_ n := by
        unfold Cmd.targetAt Cmd.target
        rw [if_pos h4, hidx]
        rfl
      have hval : val = c.gathVal := by
        funext a
        rw [gathVal_eq, hidx, hfrom]
        rfl
      obtain ⟨t, g, hm, hp⟩ := hc.gathers h4 hph hu hf fun n hn => by
        rw [hidx, hfrom]
        exact hk n (mem_chunk.1 hn)
      exact ⟨t, g, hm, hval ▸ hp⟩
    · have hto : c.targetAt n = to_ n := by
        unfold Cmd.targetAt Cmd.target
        rw [if_neg (by omega), hidx]
        rfl
      obtain ⟨t, g, hs⟩ := hc.scatters h5 hph ht
      rw [hto] at hs
      have hleft := addInStore_left h1 hs
      rw [elemOp_of_scae h5] at hleft
      exact ⟨t, g, hleft⟩
    · have hto (n : Nat) : c.targetAt n = to_ n := by
        unfold Cmd.targetAt Cmd.target
        rw [if_neg (by omega), hidx]
        rfl
      obtain ⟨t, us, g, hup, hmap, hall⟩ := hc.posts_chunk h5 h2 hph hread hok fun n hn => hto n ▸ hp n (mem_chunk.1 hn)
      simp only [hidx, hto] at hmap
      refine ⟨t, us, g, hup, hmap, fun u hu => ?_⟩
      obtain ⟨kpa, kcmd, kop, kfmt, kstatus, -, -, -⟩ := hall u hu
      exact ⟨kcmd.trans (by rw [hc.id]), kop.trans (elemOp_of_scae h5), kfmt, kstatus, kpa⟩
  · -- CRED
    intro x op a psn posts
    have hposts {ps : List Page} {va val : Nat} (hv : val % 2 ^ (8 * e) = leNat x.1 % 2 ^ (8 * e))
        (h : ∃ t u, exec (.copyCommandCompletion c.core id 0 [(true, n)]) s = .next t ∧ t.updates = s.updates ++ [u] ∧
          ElemUpdate c c.elemOp ps va val psn u) : posts va := by
      obtain ⟨t, u, g, hup, hu⟩ := h
      exact ⟨t, u, g, hup, hu.va, hu.op.trans (elemOp_of_cred hop), hu.fmt, hu.psn, hu.val ▸ hv, hu.cmd.trans (by rw [hc.id]), hu.status⟩
    refine ⟨fun h0 hr1 hf => ?_, fun h1 => ?_, fun h2 hhead hp => ?_, fun h3 hown hrem => ?_⟩
    · intro y
      have hput := hc.cred_spm hop hn hr h0 hr1 hf
      rw [elemOp_of_cred hop] at hput
      exact hput
    · obtain ⟨t, g, hs⟩ := hc.cred_store hop hn hr h1
      have hleft := addInStore_left h1 hs
      rw [elemOp_of_cred hop] at hleft
      exact ⟨t, g, hleft⟩
    · exact hposts rfl (hc.cred_memory hop hn hr h2 hhead hp)
    · exact hposts (Nat.mod_mod ..) (hc.cred_object hop hn hr h3 hown hrem)

end Sys2Proof.Machine
end

section
/-! PROOFS. Tensor descriptors: the conditions on their own fields (spec/03 R70), and the mapping from index tuples to representatives
(R73, R74). -/

namespace Sys2Proof.Machine

/-! ### The conditions of a descriptor's fields (R70) -/

theorem groupKind_lt (d : Desc) (g : Nat) : d.groupKind g < 8 := Nat.mod_lt _ (by decide)

/-- The conditions on one symmetry group. -/
theorem groupOk_iff (d : Desc) (g : Nat) :
    let kind := d.groupKind g
    let slots := maskSlots (d.groupMask g)
    let n := d.extOf (slots.headD 0)
    d.groupOk g = true ↔ bits d.sym (16 * g + 11) 5 = 0 ∧ kind ≤ 5 ∧ (kind = 0 ↔ d.groupMask g = 0) ∧ (∀ j ∈ slots, j < d.rank) ∧
      (kind ∈ [1, 2, 3] → ∀ j ∈ slots, d.extOf j = n) ∧ (kind ∈ [1, 2] → 2 ≤ slots.length) ∧ (kind = 2 → slots.length ≤ n) ∧
      (kind = 3 → slots.length = 2) ∧ (kind ∈ [4, 5] → slots.length = 1) ∧ (kind = 5 → 2 ≤ n) := by
  have hlt := groupKind_lt d g
  unfold Desc.groupOk
  dsimp only
  generalize d.groupKind g = kind at hlt ⊢
  generalize maskSlots (d.groupMask g) = slots
  have hmask : ((kind == 0) == (d.groupMask g == 0)) = true ↔ (kind = 0 ↔ d.groupMask g = 0) := by
    rw [beq_iff_eq, Bool.eq_iff_iff, beq_iff_eq, beq_iff_eq]
  simp only [Bool.and_eq_true, hmask, beq_iff_eq, List.all_eq_true, decide_eq_true_eq, and_assoc]
  -- One case for each kind of R69; the kinds 6 and 7 meet neither side.
  refine and_congr_right fun _ => ?_
  interval_cases kind <;> simp <;> tauto

theorem descFormats_iff (f : Nat) : descFormats.contains f = true ↔ 1 ≤ f ∧ f ≤ 8 ∨ 0x10 ≤ f ∧ f ≤ 0x17 := by
  simp only [descFormats, List.contains_iff_mem, List.mem_cons, List.not_mem_nil, or_false]
  omega

theorem packet_iff (d : Desc) : d.packet = true ↔ d.fmt = 7 ∨ d.fmt = 8 := by simp [Desc.packet, fmtPacket]

theorem zero_mem_maskSlots (m : Nat) : 0 ∈ maskSlots m ↔ m.testBit 0 = true := by simp [maskSlots]

/-- The conditions on the slots' extents. -/
theorem extents_iff (d : Desc) : ((List.range 8).all fun j => if j < d.rank then d.extOf j != 0 else d.extOf j == 0) = true ↔
    ∀ j, j < 8 → (d.extOf j ≠ 0 ↔ j < d.rank) := by
  simp only [List.all_eq_true, List.mem_range]
  refine forall₂_congr fun j _ => ?_
  by_cases h : j < d.rank <;> simp [h]

theorem formOk_iff (d : Desc) :
    let kind (g : Nat) := d.groupKind g
    let slots (g : Nat) := maskSlots (d.groupMask g)
    let n (g : Nat) := d.extOf ((slots g).headD 0)
    d.formOk = true ↔ d.clean = true ∧ (d.bkind = false → bits d.base 56 72 = 0 ∧ bits d.base 4 4 = 0) ∧
      1 ≤ d.rank ∧ d.rank ≤ 8 ∧ (∀ j, j < 8 → (d.extOf j ≠ 0 ↔ j < d.rank)) ∧
      (1 ≤ d.fmt ∧ d.fmt ≤ 8 ∨ 0x10 ≤ d.fmt ∧ d.fmt ≤ 0x17) ∧
      (∀ g, g < 4 → bits d.sym (16 * g + 11) 5 = 0 ∧ kind g ≤ 5 ∧ (kind g = 0 ↔ d.groupMask g = 0) ∧ (∀ j ∈ slots g, j < d.rank) ∧
        (kind g ∈ [1, 2, 3] → ∀ j ∈ slots g, d.extOf j = n g) ∧ (kind g ∈ [1, 2] → 2 ≤ (slots g).length) ∧
        (kind g = 2 → (slots g).length ≤ n g) ∧ (kind g = 3 → (slots g).length = 2) ∧ (kind g ∈ [4, 5] → (slots g).length = 1) ∧
        (kind g = 5 → 2 ≤ n g) ∧ (kind g ∈ [2, 5] → d.fmt < 0x14)) ∧
      (∀ g h, g < 4 → h < 4 → g ≠ h → d.groupMask g &&& d.groupMask h = 0) ∧
      (d.fmt = 7 ∨ d.fmt = 8 → 2 ≤ d.rank ∧ ∀ g, g < 4 → 0 ∉ slots g) ∧
      d.rcount = d.factors.foldl (fun c f => c * f.count) 1 ∧ d.rcount < 2 ^ 48 := by
  intro kind slots n
  have hbase : (d.bkind || (bits d.base 56 72 == 0 && bits d.base 4 4 == 0)) = true ↔
      (d.bkind = false → bits d.base 56 72 = 0 ∧ bits d.base 4 4 = 0) := by
    cases d.bkind <;> simp
  have hgroups : (List.range 4).all d.groupOk = true ∧
      ((List.range 4).all fun g => !((d.groupKind g == 2 || d.groupKind g == 5) && decide (0x14 ≤ d.fmt))) = true ↔
      ∀ g, g < 4 → bits d.sym (16 * g + 11) 5 = 0 ∧ kind g ≤ 5 ∧ (kind g = 0 ↔ d.groupMask g = 0) ∧ (∀ j ∈ slots g, j < d.rank) ∧
        (kind g ∈ [1, 2, 3] → ∀ j ∈ slots g, d.extOf j = n g) ∧ (kind g ∈ [1, 2] → 2 ≤ (slots g).length) ∧
        (kind g = 2 → (slots g).length ≤ n g) ∧ (kind g = 3 → (slots g).length = 2) ∧ (kind g ∈ [4, 5] → (slots g).length = 1) ∧
        (kind g = 5 → 2 ≤ n g) ∧ (kind g ∈ [2, 5] → d.fmt < 0x14) := by
    simp only [List.all_eq_true, List.mem_range, ← forall₂_and]
    refine forall₂_congr fun g _ => ?_
    have hfmt : (!((d.groupKind g == 2 || d.groupKind g == 5) && decide (0x14 ≤ d.fmt))) = true ↔ (kind g ∈ [2, 5] → d.fmt < 0x14) := by
      simp [kind, imp_iff_not_or, not_or]
    rw [hfmt]
    refine (and_congr_left' (groupOk_iff d g)).trans ?_
    simp only [and_assoc, kind, slots, n]
  have hapart : ((List.range 4).all fun g => (List.range 4).all fun h => g == h || d.groupMask g &&& d.groupMask h == 0) = true ↔
      ∀ g h, g < 4 → h < 4 → g ≠ h → d.groupMask g &&& d.groupMask h = 0 := by
    simp only [List.all_eq_true, List.mem_range, Bool.or_eq_true, beq_iff_eq, or_iff_not_imp_left]
    exact ⟨fun a g h hg hh => a g hg h hh, fun a g hg h hh => a g h hg hh⟩
  have hpacket : (!d.packet || (decide (2 ≤ d.rank) && (List.range 4).all fun g => !(d.groupMask g).testBit 0)) = true ↔
      (d.fmt = 7 ∨ d.fmt = 8 → 2 ≤ d.rank ∧ ∀ g, g < 4 → 0 ∉ slots g) := by
    rw [← packet_iff]
    simp only [slots, zero_mem_maskSlots]
    cases d.packet <;> simp
  unfold Desc.formOk
  dsimp only
  simp only [Bool.and_eq_true, hbase, extents_iff, descFormats_iff, hapart, hpacket, decide_eq_true_eq, beq_iff_eq]
  constructor
  · rintro ⟨⟨⟨⟨⟨⟨⟨⟨⟨⟨hclean, hb⟩, hr1⟩, hr8⟩, hext⟩, hfmt⟩, hg⟩, hmasks⟩, hodd⟩, hpkt⟩, hcount, hlt⟩
    exact ⟨hclean, hb, hr1, hr8, hext, hfmt, hgroups.1 ⟨hg, hodd⟩, hmasks, hpkt, hcount, hcount ▸ hlt⟩
  · rintro ⟨hclean, hb, hr1, hr8, hext, hfmt, hg, hmasks, hpkt, hcount, hlt⟩
    obtain ⟨hg, hodd⟩ := hgroups.2 hg
    exact ⟨⟨⟨⟨⟨⟨⟨⟨⟨⟨hclean, hb⟩, hr1⟩, hr8⟩, hext⟩, hfmt⟩, hg⟩, hmasks⟩, hodd⟩, hpkt⟩, hcount, hcount ▸ hlt⟩

/-! ### The mapping of index tuples (R74) -/

/-- The mapping over the factors, from a scale on: a factor of sign 0 makes the whole a structural zero; else signs and multiplicities
multiply, and the index is the mixed-radix number of the factors' indices. -/
theorem mapFactors_spec (idx : List Nat) (fs : List Factor) (scale : Nat) :
    ((∃ f ∈ fs, (f.map idx).s = 0) → (mapFactors idx fs scale).s = 0) ∧
    ((∀ f ∈ fs, (f.map idx).s ≠ 0) → (mapFactors idx fs scale).s ≠ 0 ∧
      (mapFactors idx fs scale).s = (fs.map fun f => (f.map idx).s).prod ∧
      (mapFactors idx fs scale).m = (fs.map fun f => (f.map idx).m).prod ∧
      (mapFactors idx fs scale).k = ((List.range fs.length).map fun i =>
        (nth ({ k := 0, s := 1, m := 1 } : Mapped) (fs.map fun f : Factor => f.map idx) i).k * (scale * ((fs.take i).map Factor.count).prod)).sum) := by
  induction fs generalizing scale with
  | nil => simp [mapFactors]
  | cons f r ih =>
    obtain ⟨hzero, hlive⟩ := ih (scale * f.count)
    unfold mapFactors
    dsimp only
    refine ⟨fun hf => ?_, fun hf => ?_⟩
    · rw [if_pos]
      simp only [List.exists_mem_cons_iff] at hf
      exact hf.imp_right hzero
    · obtain ⟨hhead, htail⟩ := List.forall_mem_cons.1 hf
      obtain ⟨hne, hs, hm, hk⟩ := hlive htail
      rw [if_neg (by simp [hhead, hne])]
      refine ⟨mul_ne_zero hhead hne, by simp [hs], by simp [hm], ?_⟩
      simp only [hk, List.length_cons, List.range_succ_eq_map, List.map_cons, List.sum_cons, List.map_map]
      simp [nth, mul_assoc, Function.comp_def]

theorem foldl_mul_eq_prod {α M : Type} [CommMonoid M] (g : α → M) (l : List α) : l.foldl (fun c x => c * g x) 1 = (l.map g).prod := by
  rw [List.prod_eq_foldl, List.foldl_map]

theorem foldl_add_eq_sum {α : Type} (g : α → Nat) (l : List α) : l.foldl (fun c x => c + g x) 0 = (l.map g).sum := by
  rw [List.sum_eq_foldl, List.foldl_map]

/-! ### Each factor's own mapping (R74) -/

theorem insertDown_eq (x : Nat) (l : List Nat) : insertDown x l = l.orderedInsert (fun y z => z ≤ y) x := by
  induction l with
  | nil => rfl
  | cons y r ih => rw [insertDown, List.orderedInsert_cons, ih]

theorem sortDown_eq (l : List Nat) : sortDown l = l.insertionSort (fun y z => z ≤ y) := by
  induction l with
  | nil => rfl
  | cons x r ih => rw [sortDown, List.insertionSort_cons, ih, insertDown_eq]

theorem sortDown_perm (l : List Nat) : (sortDown l).Perm l := by
  rw [sortDown_eq]
  exact List.perm_insertionSort _ l

theorem sortDown_pairwise (l : List Nat) : (sortDown l).Pairwise fun y z => z ≤ y := by
  have htotal : Std.Total fun y z : Nat => z ≤ y := ⟨fun y z => le_total z y⟩
  have htrans : IsTrans Nat fun y z => z ≤ y := ⟨fun _ _ _ h g => le_trans g h⟩
  rw [sortDown_eq]
  exact List.pairwise_insertionSort _ l

/-- Distinct values sort into a strictly decreasing list. -/
theorem sortDown_strict {l : List Nat} (h : l.Nodup) : (sortDown l).Pairwise fun y z => z < y :=
  ((sortDown_pairwise l).and ((sortDown_perm l).nodup_iff.2 h)).imp fun {_ _} ⟨hle, hne⟩ => lt_of_le_of_ne hle (Ne.symm hne)

theorem rankSum_eq (add : Bool) (u : List Nat) :
    rankSum add u = ((List.range u.length).map fun t =>
      choose (if add then nth 0 u t + (u.length - 1 - t) else nth 0 u t) (u.length - t)).sum := by
  induction u with
  | nil => rfl
  | cons x r ih =>
    simp only [rankSum, ih, List.length_cons, List.range_succ_eq_map, List.map_cons, List.sum_cons, List.map_map]
    congr 1
    refine congrArg List.sum (List.map_congr_left fun t _ => ?_)
    simp only [Function.comp, nth, List.getElem?_cons_succ, Nat.succ_eq_add_one]
    rw [show r.length + 1 - 1 - (t + 1) = r.length - 1 - t by omega, show r.length + 1 - (t + 1) = r.length - t by omega]

theorem hasRepeat_iff (l : List Nat) : hasRepeat l = true ↔ ¬l.Nodup := by
  induction l with
  | nil => simp [hasRepeat]
  | cons x r ih =>
    rw [hasRepeat, Bool.or_eq_true, ih, List.nodup_cons, List.contains_iff_mem]
    tauto

theorem map_nth_range {α : Type} (d : α) (l : List α) : (List.range l.length).map (nth d l) = l := by
  refine List.ext_getElem (by simp) fun j hj _ => ?_
  have hj : j < l.length := by simpa using hj
  simp [nth, hj]

/-- The pairs of places a < b with ascending values, counted place by place. -/
theorem ascents_eq (v : List Nat) :
    ascents v = ((List.range v.length).map fun a =>
      (List.range v.length).countP fun b => decide (a < b) && decide (nth 0 v a < nth 0 v b)).sum := by
  induction v with
  | nil => rfl
  | cons x r ih =>
    have hfirst : (r.filter fun y => x < y).length = (List.range r.length).countP fun b => decide (x < nth 0 r b) := by
      rw [← List.countP_eq_length_filter]
      conv_lhs => rw [← map_nth_range 0 r, List.countP_map]
      rfl
    rw [ascents, ih, hfirst, List.length_cons, List.range_succ_eq_map, List.map_cons, List.sum_cons, List.map_map]
    simp only [nth, List.length_cons, lt_add_iff_pos_left, Order.lt_add_one_iff, zero_le, getElem?_pos, List.getElem_cons_zero,
      Option.getD_some, lt_self_iff_false, decide_false, Bool.and_self, Bool.false_eq_true, not_false_eq_true, List.countP_cons_of_neg,
      List.countP_map, Function.comp_def, Nat.succ_eq_add_one, decide_true, List.getElem?_cons_succ, Bool.true_and, not_lt_zero,
      Bool.false_and, Order.add_one_le_iff]
    rfl

/-- The factor's mapping, kind by kind (R74). -/
theorem factor_map_spec (f : Factor) (idx : List Nat) :
    let v := f.slots.map (nth 0 idx)
    let x := nth 0 v 0
    let k := v.length
    let c := f.n - 1 - x
    let m := f.map idx
    let ups := ((List.range k).map fun a => (List.range k).countP fun b => decide (a < b) && decide (nth 0 v a < nth 0 v b)).sum
    (f.kind = .free → m = { k := x, s := 1, m := 1 }) ∧
    (f.kind = .sym → m.s = 1 ∧ ∃ u : List Nat, u.Perm v ∧ u.Pairwise (fun y z => z ≤ y) ∧
      m.k = ((List.range k).map fun t => choose (nth 0 u t + (k - 1 - t)) (k - t)).sum) ∧
    (f.kind = .anti → (¬v.Nodup → m.s = 0) ∧ (v.Nodup → m.m = factorial k ∧ m.s = (if ups % 2 = 0 then 1 else -1) ∧
      ∃ u : List Nat, u.Perm v ∧ u.Pairwise (fun y z => z < y) ∧
        m.k = ((List.range k).map fun t => choose (nth 0 u t) (k - t)).sum)) ∧
    (f.kind = .cyc → m = { k := (nth 0 v 1 + f.n - x) % f.n, s := 1, m := f.n }) ∧
    (f.kind = .even → m = { k := min x c, s := 1, m := if x = c then 1 else 2 }) ∧
    (f.kind = .odd → (x = c → m.s = 0) ∧ (x ≠ c → m = { k := min x c, s := if c < x then -1 else 1, m := 2 })) := by
  intro v x k c m ups
  have hx : v.headD 0 = x := by cases h : v <;> simp [x, h, nth]
  have hperm := sortDown_perm v
  have hmap : m = f.map idx := rfl
  unfold Factor.map at hmap
  rw [show (f.slots.map fun j => nth 0 idx j) = v from rfl] at hmap
  simp only [hx] at hmap
  refine ⟨fun hf => ?_, fun hf => ?_, fun hf => ?_, fun hf => ?_, fun hf => ?_, fun hf => ?_⟩ <;> rw [hf] at hmap <;>
    dsimp only at hmap
  · exact hmap
  · rw [hmap]
    refine ⟨rfl, sortDown v, hperm, sortDown_pairwise v, ?_⟩
    rw [rankSum_eq, hperm.length_eq]
    rfl
  · refine ⟨fun hv => ?_, fun hv => ?_⟩
    · rw [hmap, if_pos ((hasRepeat_iff v).2 hv)]
    · rw [hmap, if_neg (by rw [hasRepeat_iff]; exact not_not_intro hv)]
      refine ⟨rfl, by rw [ascents_eq], sortDown v, hperm, sortDown_strict hv, ?_⟩
      rw [rankSum_eq, hperm.length_eq]
      rfl
  · exact hmap
  · rw [hmap]
    by_cases h : x = c
    · rw [if_pos h, if_pos h, ← h, min_self]
    · rw [if_neg h, if_neg h]
  · refine ⟨fun h => ?_, fun h => ?_⟩
    · rw [hmap, if_pos h]
    · rw [hmap, if_neg h]

end Sys2Proof.Machine
end

section
/-! PROOFS. LDT and STT through a tensor descriptor: the checks in their order, the element, and what becomes of it (spec/03 R75, R77, R78; spec/07
R179, R180) -/

namespace Sys2Proof.Machine

/-! ### What a read in place leaves (R302) -/

/-- The state `t` that reads in `s` leave: only copies that L1s hold, and what may be missed, have changed, and every byte stands. -/
structure JustRead (s t : State) : Prop where
  only    : MemOnly s t
  mem     : t.mem = s.mem
  spoiled : t.spoiled = s.spoiled
  seen    : ∀ k sc pa, t.seenAt k sc pa = s.seenAt k sc pa

section
variable {s t u : State}

theorem JustRead.trans (h : JustRead s t) (g : JustRead t u) : JustRead s u :=
  ⟨h.only.trans g.only, g.mem.trans h.mem, g.spoiled.trans h.spoiled, fun k sc pa => (g.seen k sc pa).trans (h.seen k sc pa)⟩

variable (h : JustRead s t)
include h

theorem JustRead.ctxs : t.ctxs = s.ctxs := by rw [h.only.1]
theorem JustRead.cur : t.cur = s.cur := by rw [h.only.1]
theorem JustRead.me : t.me = s.me := by rw [h.only.1]; rfl
theorem JustRead.arch : t.arch = s.arch := by rw [h.only.1]; rfl
theorem JustRead.myCore : t.myCore = s.myCore := by rw [h.only.1]; rfl
theorem JustRead.delays : t.delays = s.delays := by rw [h.only.1]; rfl
theorem JustRead.misses : t.misses = s.misses := by rw [h.only.1]; rfl

theorem JustRead.checkExt (core : Nat) (ps : List Page) (e : BitVec 128) (off : Int) (n align : Nat) (write : Bool) :
    t.checkExt core ps e off n align write = s.checkExt core ps e off n align write := by rw [h.only.1]; rfl

theorem JustRead.watchHit (l : List (Nat × Nat)) (rd wr : Bool) : t.watchHit l rd wr = s.watchHit l rd wr := by rw [h.only.1]; rfl

theorem JustRead.seenBytes (k : Nat) (ps : List Page) (va n : Nat) : t.seenBytes k ps va n = s.seenBytes k ps va n := by
  simp only [State.seenBytes, h.seen]

theorem JustRead.tensorAt (bs : List Byte) (psn write : Bool) (v : VReg) : t.tensorAt bs psn write v = s.tensorAt bs psn write v := by
  unfold State.tensorAt
  simp only [h.arch, h.myCore, h.checkExt]

theorem JustRead.quiet {k : Nat} (hq : s.quiet k) : t.quiet k := by
  obtain ⟨hu, hl, hc⟩ := hq
  refine ⟨by rw [h.only.1]; exact hu, fun c => ?_, by rw [h.only.ctx]; exact hc⟩
  rw [h.only.2 c]
  exact hl c

theorem JustRead.stands : StandsBut s t fun _ => False := fun k sc pa _ => h.seen k sc pa

theorem JustRead.onlyAccess : OnlyAccess s t :=
  ⟨h.only.1.trans (by rw [← h.ctxs]), h.only.2, fun k _ => h.only.ctx k⟩

/-- A trap taken in the state that a read has left. -/
theorem JustRead.traps {i : Instr} {cause info : Nat} (hi : exec i s = .next (t.takeTrap cause info)) : TrapsAfterRead i s cause info :=
  ⟨t, h.onlyAccess, h.mem, h.ctxs, h.stands, hi⟩

/-- A change of the executing context alone, after a read: where its task stands the same, so does every byte. -/
theorem JustRead.setMe {c : Ctx} (hb : c.bound = s.me.bound) (hi : c.arch.info = s.arch.info) :
    OnlyAccess s (t.setMe c) ∧ StandsBut s (t.setMe c) fun _ => False := by
  have hother : ∀ k, k ≠ s.cur.ctx → (t.setMe c).ctx k = s.ctx k := fun k hk => by
    rw [ctx_setMe_other _ _ (by rw [h.cur]; exact hk), h.only.ctx]
  refine ⟨⟨?_, h.only.2, hother⟩, fun k sc pa _ => ?_⟩
  · have h1 := h.only.1
    unfold State.setMe State.setCtx
    rw [h1]
  · rw [← h.seen]
    refine seenAt_congr (s := t) (t := t.setMe c) (fun j => ?_) (fun _ _ => rfl) rfl rfl k sc pa
    by_cases hj : j = s.cur.ctx
    · have hme : (t.setMe c).ctx j = c := by rw [hj, ← h.cur]; exact me_setMe t c
      rw [hme, h.only.ctx, hj]
      exact ⟨hb, hi⟩
    · rw [hother j hj, h.only.ctx]
      exact ⟨rfl, rfl⟩

/-- A result made pending after a read. -/
theorem JustRead.loads {i : Instr} {dst : SbDst} {what : Payload} (hi : exec i s = .next (t.emitSb dst what)) :
    LoadsAt i s s dst what s.arch.poisons := by
  obtain ⟨ho, hst⟩ := h.setMe (c := { t.me with sb := t.me.sb ++ [{ dst := dst, what := what }] }) (by rw [h.me]) (by rw [h.me]; rfl)
  refine ⟨_, hi, ho, h.mem, ?_, hst⟩
  rw [State.emitSb, me_setMe, h.me]
  rfl

end

/-- A step in place of a quiet context reads the bytes seen, and goes on in the state that its reads leave. -/
theorem readingNow_quiet {s : State} (hq : s.quiet s.cur.ctx) (hm : s.misses = false) (ps : List Page) (va n : Nat) :
    ∃ t, JustRead s t ∧
      ∀ k, readingNow s ps va n k = k t (s.seenBytes s.cur.ctx ps va n).1 (s.seenBytes s.cur.ctx ps va n).2 := by
  obtain ⟨hb, honly, hmem, hsp, hseen⟩ := readUnits_bytes s s.cur.ctx ps va n
  refine ⟨_, ⟨honly, hmem, hsp, hseen⟩, fun k => ?_⟩
  unfold readingNow
  rw [inPlace_eq _ _ hq.2.2 (ready_quiet s _ _ hq _), if_pos rfl]
  dsimp only
  rw [hm, hb]

/-! ### The element's load (R77, R180) -/

/-- A load of a quiet context that the device does not put off answers what it makes of the units seen. -/
theorem loading_quiet {s : State} (hq : s.quiet s.cur.ctx) (hm : s.misses = false) (hd : s.delays = false) (ps : List Page) (va n : Nat)
    (dst : SbDst) (form : LoadForm) : ∃ t, JustRead s t ∧ loading s (urefs ps va n) va n dst form false =
      .ok (t.emitSb dst (form.landed va n (urefs ps va n) ((urefs ps va n).map fun u => s.unitSeen s.cur.ctx u.sc u.pu)).1) := by
  obtain ⟨t, hload, honly, hmem, hsp, hseen⟩ := loadNow_spec s s.cur.ctx ps va n form false
  refine ⟨t, ⟨honly, hmem, hsp, hseen⟩, ?_⟩
  unfold loading
  rw [access_now _ _ _ hd hq.2.2 (ready_quiet s _ _ hq _), hm, hload]
  rfl

/-- Whether a byte of a range is seen marked, unit by unit. -/
theorem seenBytes_marked (s : State) (k : Nat) (ps : List Page) (va n : Nat) :
    (s.seenBytes k ps va n).2 = (unitsOf va n).any fun u => (s.unitSeen k (unitIn ps u).sc (unitIn ps u).pu).2 := by
  rw [← unitBytes_seen, urefs_eq]
  simp [unitBytes, List.any_map, Function.comp_def]

/-- The units of a part of a range are units of the range. -/
theorem unitsOf_subset {va n a m : Nat} (h1 : va ≤ a) (h2 : a + m ≤ va + n) {u : Nat} (hu : u ∈ unitsOf a m) : u ∈ unitsOf va n := by
  obtain ⟨b, hb1, hb2, rfl⟩ := unitsOf_touch.1 hu
  exact unitsOf_touch.2 ⟨b, by omega, by omega, rfl⟩

/-- What a tensor's element lands as: its poison is that of its own ranges, where they lie within the bytes read. -/
theorem landed_elem (s : State) (k fmt : Nat) (p : Option Nat) (neg : Bool) (ps : List Page) (va n : Nat) (ranges : List (Nat × Nat))
    (hr : ∀ q ∈ ranges, va ≤ q.1 ∧ q.1 + q.2 ≤ va + n) :
    (LoadForm.landed (.elem fmt p neg ranges) va n (urefs ps va n) ((urefs ps va n).map fun u => s.unitSeen k u.sc u.pu)).1 =
      let psn := ranges.any fun q => (s.seenBytes k ps q.1 q.2).2
      .scalar { val := if psn then 0 else BitVec.ofNat 64 (elemValue fmt p neg (s.seenBytes k ps va n).1), psn := psn } := by
  have hpsn : (((urefs ps va n).zip ((urefs ps va n).map fun u => s.unitSeen k u.sc u.pu)).any fun x =>
      x.2.2 && ranges.any fun r => (unitsOf r.1 r.2).contains x.1.vu) = ranges.any fun q => (s.seenBytes k ps q.1 q.2).2 := by
    rw [urefs_eq, List.map_map, List.zip_map', List.any_map, Bool.eq_iff_iff]
    simp only [List.any_eq_true, Function.comp, Bool.and_eq_true, seenBytes_marked, List.contains_iff_mem, (unitIn_locator ps).vu]
    constructor
    · rintro ⟨u, -, hp, q, hq, hu⟩
      exact ⟨q, hq, u, hu, hp⟩
    · rintro ⟨q, hq, u, hu, hp⟩
      obtain ⟨hlo, hhi⟩ := hr q hq
      exact ⟨u, unitsOf_subset hlo hhi hu, hp, q, hq, hu⟩
  unfold LoadForm.landed
  dsimp only
  rw [hpsn, unitBytes_seen]
  cases ranges.any fun q => (s.seenBytes k ps q.1 q.2).2 <;> rfl


/-! ### The checks of LDT and STT (R180) -/

section
variable {f : LT} {s : State} {write : Bool} (k : State → TensorAt → SlotResult)

theorem tensor_vector (hv : (s.rdV f.a).psn = true) : tensor f write s k = .trap s 9 (f.a.toNat + 64) := by
  unfold tensor
  exact if_pos hv

theorem tensor_slot (hv : (s.rdV f.a).psn = false) (hs : f.slot.toNat ∈ s.arch.eBad) : tensor f write s k =
    .trap { s with draws := s.draws + 1 } 9 (f.slot.toNat + Config.freeValue s.draws % 4 * 64) := by
  unfold tensor slotKept
  dsimp only
  rw [if_neg (by simp [hv]), if_pos (by simpa using hs), Nat.mod_eq_of_lt (by omega : f.slot.toNat < 64)]

variable (hv : (s.rdV f.a).psn = false) (hs : f.slot.toNat ∉ s.arch.eBad)
include hv hs

/-- Past the index vector and the slot come the vector's tag and the descriptor's location. -/
theorem tensor_kept : tensor f write s k = tagged s [s.mayBe f.a [0x30, 0x16]] (
    checked (s.checkExt s.myCore (s.arch.slotPages f.slot.toNat) (s.arch.extent f.slot.toNat) f.disp.toInt 64 64 false) (
      readingNow s (s.arch.slotPages f.slot.toNat) (extBase (s.arch.extent f.slot.toNat) + f.disp.toInt.toNat) 64 fun s' bs psn =>
        checked (s'.tensorAt bs psn write (s.rdV f.a)).1 (k s' (s'.tensorAt bs psn write (s.rdV f.a)).2))) := by
  unfold tensor slotKept
  dsimp only
  rw [if_neg (by simp [hv]), if_neg (by simpa using hs)]

theorem tensor_tag (h1 : (s.rdV f.a).tag ≠ 0x30) (h2 : (s.rdV f.a).tag ≠ 0x16) : tensor f write s k =
    .trap s 1 (f.a.toNat + (s.rdV f.a).tag * 256 + 0xFF * 65536) := by
  rw [tensor_kept k hv hs, tagged, firstBad_mayBe_bad _ _ _ _ (by simp [h1, h2])]
  dsimp only
  rw [fmtInfo_mayBe, Nat.mod_eq_of_lt f.a.isLt]

variable (ht : (s.rdV f.a).tag = 0x30 ∨ (s.rdV f.a).tag = 0x16)
include ht

/-- Past the tag comes the descriptor's location. -/
theorem tensor_tagged : tensor f write s k =
    checked (s.checkExt s.myCore (s.arch.slotPages f.slot.toNat) (s.arch.extent f.slot.toNat) f.disp.toInt 64 64 false) (
      readingNow s (s.arch.slotPages f.slot.toNat) (extBase (s.arch.extent f.slot.toNat) + f.disp.toInt.toNat) 64 fun s' bs psn =>
        checked (s'.tensorAt bs psn write (s.rdV f.a)).1 (k s' (s'.tensorAt bs psn write (s.rdV f.a)).2)) := by
  rw [tensor_kept k hv hs, tagged, firstBad_cons, if_pos (by simpa [State.mayBe] using ht)]
  rfl

theorem tensor_located {code : Nat} (hc : code ≠ 0) (hl : s.checkExt s.myCore (s.arch.slotPages f.slot.toNat)
    (s.arch.extent f.slot.toNat) f.disp.toInt 64 64 false = code) : tensor f write s k = .fatal code := by
  rw [tensor_tagged k hv hs ht, hl]
  exact if_neg hc

end

theorem checked_zero (k : SlotResult) : checked 0 k = k := rfl

theorem checked_fails {code : Nat} (h : code ≠ 0) (k : SlotResult) : checked code k = .fatal code := if_neg h

section
variable {s : State} {l : List (Nat × Nat)} {rd wr : Bool}

theorem watching_some {w : Nat} (h : s.watchHit l rd wr = some w) (k : SlotResult) : watching s l rd wr k = .trap s 8 w := by
  rw [watching_eq, h]

theorem watching_none (h : s.watchHit l rd wr = none) (k : SlotResult) : watching s l rd wr k = k := by rw [watching_eq, h]

end

/-- The access that `queueLate` puts off. -/
def State.lateOf (s : State) (us : List URef) (va n : Nat) (op : LateOp) : Late :=
  { id := s.nextId, refs := us, va := va, n := n, op := op, old := s.misses }

/-- An access put off joins those of its context, and nothing else changes. -/
theorem leaves_queueLate (s : State) (us : List URef) (va n : Nat) (op : LateOp) :
    Leaves s (s.queueLate us va n op) { s.me with late := s.me.late ++ [s.lateOf us va n op] } := by
  obtain ⟨⟨hmods, hother⟩, hme⟩ := leaves_setMe s { s.me with late := s.me.late ++ [s.lateOf us va n op] }
  exact ⟨⟨rfl, hother⟩, hme⟩

/-- A load put off, with its destination pending for it. -/
theorem joinsLate_load {i : Instr} {s r : State} {us : List URef} {va n : Nat} {op : LateOp} {dst : SbDst}
    (hi : exec i s = .next ((r.queueLate us va n op).emitSb dst (.late r.nextId))) :
    JoinsLate i s r (r.lateOf us va n op) [{ dst := dst, what := .late r.nextId }] r.arch := by
  obtain ⟨hlate, hme⟩ := leaves_queueLate r us va n op
  obtain ⟨hsent, hpends⟩ := leaves_emitSb (r.queueLate us va n op) dst (.late r.nextId)
  refine ⟨_, hi, hlate.trans hsent, ?_⟩
  rw [hpends, hme]
  rfl

theorem JustRead.tensorVa {s t : State} (h : JustRead s t) (x : TensorAt) : t.tensorVa x = s.tensorVa x := by
  rw [State.tensorVa, h.arch]
  rfl

/-- The conditions under which LDT and STT take a descriptor of a task with the state `a` (R70, R180). -/
def Arch.describes (a : Arch) (d : Desc) (psn write : Bool) : Prop :=
  psn = false ∧ d.formOk = true ∧ d.bkind = false ∧ (a.extent d.eslot).getLsbD 24 = true ∧
  (extBase (a.extent d.eslot) + d.offset) % d.align = 0 ∧ d.offset + d.span ≤ extLen (a.extent d.eslot) ∧
  (write = true → d.packet = false)

theorem describes_iff (a : Arch) (d : Desc) (psn write : Bool) :
    a.describes d psn write ↔ ¬(psn || !a.descOk d || (write && d.packet)) = true := by
  have hbit : extValid (a.extent d.eslot) = (a.extent d.eslot).getLsbD 24 := rfl
  unfold Arch.describes Arch.descOk
  dsimp only
  rw [hbit]
  cases psn <;> cases write <;> simp [and_assoc]

/-- The place of a representative from the start of its storage (R75). -/
theorem place_eq (d : Desc) (k : Nat) : d.place k =
    (if d.packet then 64 * (k / d.extOf 0 * ((d.extOf 0 + 95) / 96) + k % d.extOf 0 / 96)
     else k * if d.packet then 64 else fmtBytes d.fmt, if d.packet then 64 else fmtBytes d.fmt) := by
  unfold Desc.place
  cases d.packet <;> rfl

/-- The tensor's element that an index vector names by a descriptor. -/
def Desc.elementAt (d : Desc) (v : VReg) : TensorAt :=
  let m := d.map (indexTuple v d.rank)
  { d := d, m := m, off := d.offset + (d.place m.k).1, size := (d.place m.k).2 }

/-- Whether every index lies within its extent. -/
def Desc.within (d : Desc) (v : VReg) : Prop := ∀ j, j < d.rank → nth 0 (indexTuple v d.rank) j < d.extOf j

/-- The checks of R168 for a tensor's element. -/
def State.elementCode (s : State) (t : TensorAt) (write : Bool) : Nat :=
  s.checkExt s.myCore (s.arch.slotPages t.d.eslot) (s.arch.extent t.d.eslot) t.off t.size t.size write

/-- The tensor checks in their order: the descriptor, the indices, and the element unless it is structurally zero (R180). -/
theorem tensorAt_spec (s : State) (bs : List Byte) (psn write : Bool) (v : VReg) :
    let d := descOf bs
    let r := s.tensorAt bs psn write v
    r.2 = d.elementAt v ∧ (¬s.arch.describes d psn write → r.1 = 9) ∧ (s.arch.describes d psn write → ¬d.within v → r.1 = 8) ∧
    (s.arch.describes d psn write → d.within v →
      r.1 = if (d.elementAt v).m.s = 0 then 0 else s.elementCode (d.elementAt v) write) := by
  intro d r
  have hwithin : d.within v ↔
      ¬((List.range d.rank).any fun j => decide (d.extOf j ≤ nth 0 (indexTuple v d.rank) j)) = true := by
    simp [Desc.within]
  have hr : r = if psn || !s.arch.descOk d || (write && d.packet) then (9, d.elementAt v)
      else if ((List.range d.rank).any fun j => decide (d.extOf j ≤ nth 0 (indexTuple v d.rank) j)) then (8, d.elementAt v)
      else if (d.elementAt v).m.s = 0 then (0, d.elementAt v) else (s.elementCode (d.elementAt v) write, d.elementAt v) := rfl
  rw [describes_iff, hwithin, hr]
  refine ⟨?_, fun h => ?_, fun h g => ?_, fun h g => ?_⟩
  · split_ifs <;> rfl
  · rw [if_pos (not_not.1 h)]
  · rw [if_neg h, if_pos (not_not.1 g)]
  · rw [if_neg h, if_neg g]
    split_ifs <;> rfl

/-- LDT or STT whose vector, slot and location pass their checks, in a quiet context: it reads its descriptor, and makes the tensor
checks on the bytes seen. -/
theorem tensor_read {f : LT} {s : State} (write : Bool) (hv : (s.rdV f.a).psn = false) (hs : f.slot.toNat ∉ s.arch.eBad)
    (ht : (s.rdV f.a).tag = 0x30 ∨ (s.rdV f.a).tag = 0x16)
    (hl : s.checkExt s.myCore (s.arch.slotPages f.slot.toNat) (s.arch.extent f.slot.toNat) f.disp.toInt 64 64 false = 0)
    (hq : s.quiet s.cur.ctx) (hm : s.misses = false) :
    let x := s.seenBytes s.cur.ctx (s.arch.slotPages f.slot.toNat)
      (extBase (s.arch.extent f.slot.toNat) + f.disp.toInt.toNat) 64
    ∃ t, JustRead s t ∧ ∀ k, tensor f write s k =
      checked (s.tensorAt x.1 x.2 write (s.rdV f.a)).1 (k t ((descOf x.1).elementAt (s.rdV f.a))) := by
  intro x
  obtain ⟨t, hread, hrun⟩ := readingNow_quiet hq hm (s.arch.slotPages f.slot.toNat)
    (extBase (s.arch.extent f.slot.toNat) + f.disp.toInt.toNat) 64
  refine ⟨t, hread, fun k => ?_⟩
  rw [tensor_tagged k hv hs ht, hl, checked_zero, hrun, hread.tensorAt, (tensorAt_spec ..).1]

/-! ### LDT at its element (R77, R180) -/

/-- LDT past its checks. -/
def ldtElement (f : LT) (s : State) (t : TensorAt) : SlotResult :=
  if t.m.s = 0 then .ok (s.emitSb (.s f.d.toNat) (.scalar {}))
  else
    watching s ((tensorRanges t (s.tensorVa t)).take 1) true false (
      loading s (urefs (s.arch.slotPages t.d.eslot) (s.tensorVa t) t.size) (s.tensorVa t) t.size (.s f.d.toNat)
        (t.form (s.tensorVa t)) false)

theorem exec_ldt (f : LT) (s : State) : exec (.ldt f) s = finish s (tensor f false s (ldtElement f)) := rfl

/-- The bytes whose poison counts for an element are among those read. -/
theorem tensorRanges_within {t : TensorAt} (ht : t.size = if t.d.packet then 64 else fmtBytes t.d.fmt) (va : Nat) :
    ∀ q ∈ tensorRanges t va, va ≤ q.1 ∧ q.1 + q.2 ≤ va + t.size := by
  have hn : t.d.inPacket t.m.k < 96 := Nat.mod_lt _ (by decide)
  intro q hq
  unfold tensorRanges at hq
  by_cases hp : t.d.packet = true
  · rw [if_pos hp] at hq ht
    generalize t.d.inPacket t.m.k = n at hn hq
    by_cases hb : t.d.fmt = fB8fp4
    · simp only [hb, blockLen, if_true, List.cons_append, List.nil_append, List.mem_cons, List.not_mem_nil, or_false] at hq
      rcases hq with rfl | rfl | rfl <;> dsimp only <;> omega
    · simp only [hb, blockLen, if_false, List.append_nil, List.mem_cons, List.not_mem_nil, or_false] at hq
      rcases hq with rfl | rfl <;> dsimp only <;> omega
  · rw [if_neg hp] at hq
    rw [List.mem_singleton.1 hq]
    exact ⟨le_rfl, le_rfl⟩

section
variable {f : LT} {s s' : State} {t : TensorAt} (h : JustRead s s') (hi : exec (.ldt f) s = finish s (ldtElement f s' t))
include h hi

theorem ldt_zero (hz : t.m.s = 0) : LoadsAt (.ldt f) s s (.s f.d.toNat) (.scalar {}) s.arch.poisons := by
  refine h.loads (hi.trans ?_)
  rw [ldtElement, if_pos hz]
  rfl

variable (hz : t.m.s ≠ 0)
include hz

/-- An element that is stored is watched, and then loaded. -/
theorem ldt_stored : exec (.ldt f) s = finish s (
    watching s' ((tensorRanges t (s.tensorVa t)).take 1) true false (
      loading s' (urefs (s.arch.slotPages t.d.eslot) (s.tensorVa t) t.size) (s.tensorVa t) t.size (.s f.d.toNat)
        (t.form (s.tensorVa t)) false)) := by
  rw [hi, ldtElement, if_neg hz, h.tensorVa, h.arch]

theorem ldt_watched {w : Nat} (hw : s.watchHit ((tensorRanges t (s.tensorVa t)).take 1) true false = some w) :
    TrapsAfterRead (.ldt f) s 8 w := by
  refine h.traps ((ldt_stored h hi hz).trans ?_)
  rw [watching_some ((h.watchHit ..).trans hw)]
  rfl

variable (hw : s.watchHit ((tensorRanges t (s.tensorVa t)).take 1) true false = none)
include hw

theorem ldt_late (hd : s.delays = true) : ∃ r l, OnlyAccess s r ∧ r.mem = s.mem ∧ r.ctxs = s.ctxs ∧ StandsBut s r (fun _ => False) ∧
    l.refs = urefs (s.arch.slotPages t.d.eslot) (s.tensorVa t) t.size ∧ l.op = .load (t.form (s.tensorVa t)) false ∧
    JoinsLate (.ldt f) s r l [{ dst := .s f.d.toNat, what := .late l.id }] r.arch := by
  have hrun := ldt_stored h hi hz
  rw [watching_none ((h.watchHit ..).trans hw), loading, access_later _ _ _ (h.delays.trans hd)] at hrun
  exact ⟨s', s'.lateOf (urefs (s.arch.slotPages t.d.eslot) (s.tensorVa t) t.size) (s.tensorVa t) t.size (.load (t.form (s.tensorVa t)) false),
    h.onlyAccess, h.mem, h.ctxs, h.stands, rfl, rfl, joinsLate_load hrun⟩

theorem ldt_loads (hd : s.delays = false) (hq : s.quiet s.cur.ctx) (hm : s.misses = false)
    (ht : t.size = if t.d.packet then 64 else fmtBytes t.d.fmt) :
    let psn := (tensorRanges t (s.tensorVa t)).any fun q => (s.seenBytes s.cur.ctx (s.arch.slotPages t.d.eslot) q.1 q.2).2
    LoadsAt (.ldt f) s s (.s f.d.toNat) (.scalar {
      val := if psn then 0 else BitVec.ofNat 64 (elemValue t.d.fmt (if t.d.packet then some (t.d.inPacket t.m.k) else none)
        (decide (t.m.s < 0)) (s.seenBytes s.cur.ctx (s.arch.slotPages t.d.eslot) (s.tensorVa t) t.size).1)
      psn := psn }) s.arch.poisons := by
  intro psn
  have hrun := ldt_stored h hi hz
  rw [watching_none ((h.watchHit ..).trans hw)] at hrun
  obtain ⟨u, hu, hload⟩ := loading_quiet (h.cur ▸ h.quiet hq) (h.misses.trans hm) (h.delays.trans hd) (s.arch.slotPages t.d.eslot)
    (s.tensorVa t) t.size (.s f.d.toNat) (t.form (s.tensorVa t))
  refine (h.trans hu).loads (hrun.trans ?_)
  rw [hload, TensorAt.form, landed_elem _ _ _ _ _ _ _ _ _ (tensorRanges_within ht _)]
  simp only [h.seenBytes, h.cur]
  rfl

end

/-! ### STT at its element (R78, R180) -/

/-- STT past its checks, with the source `b`. -/
def sttElement (f : LT) (b : SReg) (s : State) (t : TensorAt) : SlotResult :=
  let v := b.val.toNat % 2 ^ fmtWidth t.d.fmt
  if t.m.s = 0 then
    if storesZero t.d.fmt v b.psn then .ok s
    else if s.cur.csw.getLsbD 21 then .trap s 3 (f.a.toNat + f.slot.toNat * 64 + f.disp.toNat * 1024)
    else .ok (s.setArch { s.arch with csw := s.arch.csw ||| BitVec.ofNat 64 (2 ^ 13) })
  else
    watching s [(s.tensorVa t, t.size)] false true (
      storing s b.psn f.b.toNat 0 fun r =>
        storingTo r (s.arch.slotPages t.d.eslot) (s.tensorVa t) (leBytes t.size (if t.m.s < 0 then negElem t.d.fmt v else v)) b.psn)

theorem exec_stt (f : LT) (s : State) : exec (.stt f) s = finish s (tensor f true s (sttElement f (s.rdS f.b))) := rfl

theorem storesZero_iff (fmt v : Nat) (psn : Bool) :
    storesZero fmt v psn = true ↔ psn = false ∧ (if fmt ∈ fmtFloat then v % 2 ^ (fmtWidth fmt - 1) = 0 else v = 0) := by
  unfold storesZero
  by_cases h : fmt ∈ fmtFloat <;> simp [h]

/-- Poisoned data go on, with F_PSN set, where PSN is not enabled (R172). -/
theorem storing_goes {s : State} {psn : Bool} (h : psn = true → s.cur.csw.getLsbD 23 = false) (reg kind : Nat) (k : State → SlotResult) :
    storing s psn reg kind k = k (s.notedPsn psn) := by
  cases psn
  · rfl
  · unfold storing
    rw [if_neg (by simp), if_neg (by rw [h rfl]; simp)]
    rfl

theorem storing_traps {s : State} (h : s.cur.csw.getLsbD 23 = true) (reg kind : Nat) (k : State → SlotResult) :
    storing s true reg kind k = .trap s 5 (reg % 64 + kind * 64) := by
  unfold storing
  rw [if_neg (by simp), if_pos h]

/-! #### The state in which F_PSN has been set -/

section
variable (s : State) (psn : Bool)

theorem notedPsn_ctx (k : Nat) : ((s.notedPsn psn).ctx k).bound = (s.ctx k).bound ∧
    ((s.notedPsn psn).ctx k).arch.info = (s.ctx k).arch.info ∧ ((s.notedPsn psn).ctx k).late = (s.ctx k).late := by
  cases psn
  · exact ⟨rfl, rfl, rfl⟩
  · by_cases hk : k = s.cur.ctx
    · subst hk
      have hme : (s.notedPsn true).ctx s.cur.ctx = { s.me with arch := { s.arch with csw := s.arch.csw ||| BitVec.ofNat 64 (2 ^ 15) } } :=
        me_setArch s _
      rw [hme]
      exact ⟨rfl, rfl, rfl⟩
    · have hother : (s.notedPsn true).ctx k = s.ctx k := ctx_setArch_other s _ hk
      rw [hother]
      exact ⟨rfl, rfl, rfl⟩

theorem notedPsn_modules : (s.notedPsn psn).mem = s.mem ∧ (s.notedPsn psn).cores = s.cores ∧ (s.notedPsn psn).spoiled = s.spoiled ∧
    (s.notedPsn psn).updates = s.updates ∧ (s.notedPsn psn).cur = s.cur := by
  cases psn <;> exact ⟨rfl, rfl, rfl, rfl, rfl⟩

theorem notedPsn_seenAt (k : Nat) (sc : Bool) (pa : Nat) : (s.notedPsn psn).seenAt k sc pa = s.seenAt k sc pa := by
  obtain ⟨hmem, hcores, hsp, -, -⟩ := notedPsn_modules s psn
  refine seenAt_congr (s := s) (fun j => ⟨(notedPsn_ctx s psn j).1, (notedPsn_ctx s psn j).2.1⟩) (fun c pu => ?_) hmem hsp k sc pa
  rw [State.core, hcores]
  rfl

theorem notedPsn_quiet {k : Nat} (h : s.quiet k) : (s.notedPsn psn).quiet k := by
  obtain ⟨hu, hl, hc⟩ := h
  obtain ⟨-, hcores, -, hup, -⟩ := notedPsn_modules s psn
  refine ⟨by rw [hup]; exact hu, fun c => ?_, by rw [(notedPsn_ctx s psn k).2.2]; exact hc⟩
  rw [State.core, hcores]
  exact hl c

theorem JustRead.notedPsn {s t : State} (h : JustRead s t) : JustRead (s.notedPsn psn) (t.notedPsn psn) := by
  obtain ⟨hm, hc, hsp, -, -⟩ := notedPsn_modules s psn
  obtain ⟨gm, gc, gsp, -, -⟩ := notedPsn_modules t psn
  refine ⟨⟨?_, fun c => ?_⟩, by rw [hm, gm, h.mem], by rw [hsp, gsp, h.spoiled], fun k sc pa => ?_⟩
  · cases psn
    · exact h.only.1
    · rw [h.only.1]
      rfl
  · have hs : (s.notedPsn psn).core c = s.core c := by rw [State.core, hc]; rfl
    have ht : (t.notedPsn psn).core c = t.core c := by rw [State.core, gc]; rfl
    rw [hs, ht]
    exact h.only.2 c
  · rw [notedPsn_seenAt, notedPsn_seenAt, h.seen]

end

theorem storedAt_congr {r r' t : State} (h : ∀ k sc pa, r'.seenAt k sc pa = r.seenAt k sc pa) (k : Nat) (ps : List Page) (va : Nat)
    (bs : List Byte) (psn : Bool) (hst : StoredAt r' t k ps va bs psn) : StoredAt r t k ps va bs psn := by
  unfold StoredAt StandsBut at hst ⊢
  simpa only [h] using hst

/-- A store put off, its pages noted. -/
theorem joinsLate_store {i : Instr} {s r : State} {us : List URef} {ps : List Page} {va n : Nat} {op : LateOp}
    (hi : exec i s = .next ((r.noteWrite r.cur.ctx ps va n).queueLate us va n op)) :
    ∃ w, JoinsLate i s r (r.lateOf us va n op) [] { r.arch with wrote := w } := by
  obtain ⟨w, hmine, hother, honly⟩ := noteWrite_spec r r.cur.ctx ps va n
  have hnoted : OnlyMine r (r.noteWrite r.cur.ctx ps va n) := ⟨by rw [honly]; rfl, hother⟩
  obtain ⟨hlate, hme⟩ := leaves_queueLate (r.noteWrite r.cur.ctx ps va n) us va n op
  have hl : (r.noteWrite r.cur.ctx ps va n).lateOf us va n op = r.lateOf us va n op := by rw [honly]; rfl
  have hme' : (r.noteWrite r.cur.ctx ps va n).me = r.me.noted w := by
    rw [State.me, hnoted.cur_eq]
    exact hmine
  refine ⟨w, _, hi, hnoted.trans hlate, ?_⟩
  rw [hme, hl, hme', List.append_nil]
  rfl

/-- A store of a quiet context that the device does not put off, after reads in place. -/
theorem storesAt_of {i : Instr} {s r r' : State} {ps : List Page} {va : Nat} {bs : List Byte} {psn : Bool} (h : JustRead r r')
    (hcur : r.cur = s.cur) (hn : bs.length < 65528) (hsp : r.unspoiled)
    (hi : exec i s = .next (r'.storedNow s.cur.ctx ps va bs psn)) : StoresAt i s r ps va bs psn := by
  obtain ⟨w, hst, hmine, hother, honly, hcore⟩ := storedNow_spec r' s.cur.ctx ps va bs psn hn (h.spoiled.trans hsp)
  refine ⟨_, w, hi, ⟨?_, fun c => ?_, fun k hk => ?_⟩, storedAt_congr h.seen _ _ _ _ _ hst, ?_⟩
  · rw [honly]
    simp only
    rw [h.only.1]
  · rw [hcore, h.only.2]
  · rw [hother k (hcur ▸ hk), h.only.ctx]
  · have hc : (r'.storedNow s.cur.ctx ps va bs psn).cur = s.cur := by
      rw [honly]
      exact h.cur.trans hcur
    rw [State.me, hc, hmine, h.only.ctx, ← hcur]
    rfl

/-- The bytes that a source stores to an element: those of its value, negated where the element's sign is negative (R77). -/
def TensorAt.stored (t : TensorAt) (b : SReg) : List Byte :=
  leBytes t.size (if t.m.s < 0 then negElem t.d.fmt (b.val.toNat % 2 ^ fmtWidth t.d.fmt) else b.val.toNat % 2 ^ fmtWidth t.d.fmt)

theorem stored_length (t : TensorAt) (b : SReg) : (t.stored b).length = t.size := leBytes_length ..

section
variable {f : LT} {s s' : State} {t : TensorAt} (h : JustRead s s') (hi : exec (.stt f) s = finish s (sttElement f (s.rdS f.b) s' t))
include h hi

section
variable (hz : t.m.s = 0)
include hz

/-- A zero stored to a structurally zero element is dropped. -/
theorem stt_dropped (h0 : storesZero t.d.fmt ((s.rdS f.b).val.toNat % 2 ^ fmtWidth t.d.fmt) (s.rdS f.b).psn = true) :
    ∃ u, exec (.stt f) s = .next u ∧ OnlyAccess s u ∧ u.mem = s.mem ∧ u.me = s.me ∧ StandsBut s u fun _ => False := by
  refine ⟨s', hi.trans ?_, h.onlyAccess, h.mem, h.me, h.stands⟩
  rw [sttElement, if_pos hz, if_pos h0]
  rfl

variable (h0 : ¬storesZero t.d.fmt ((s.rdS f.b).val.toNat % 2 ^ fmtWidth t.d.fmt) (s.rdS f.b).psn = true)
include h0

theorem stt_symv (hc : s.cur.csw.getLsbD 21 = true) :
    TrapsAfterRead (.stt f) s 3 (f.a.toNat + f.slot.toNat * 64 + f.disp.toNat * 1024) := by
  refine h.traps (hi.trans ?_)
  rw [sttElement, if_pos hz, if_neg h0, h.cur, if_pos hc]
  rfl

theorem stt_noted (hc : s.cur.csw.getLsbD 21 = false) :
    ∃ u, exec (.stt f) s = .next u ∧ OnlyAccess s u ∧ u.mem = s.mem ∧
      u.me = { s.me with arch := { s.arch with csw := s.arch.csw ||| BitVec.ofNat 64 (2 ^ 13) } } ∧ StandsBut s u fun _ => False := by
  obtain ⟨honly, hst⟩ := h.setMe (c := { s'.me with arch := { s'.arch with csw := s'.arch.csw ||| BitVec.ofNat 64 (2 ^ 13) } })
    (by rw [h.me]) (by rw [h.arch])
  refine ⟨_, hi.trans ?_, honly, h.mem, ?_, hst⟩
  · rw [sttElement, if_pos hz, if_neg h0, h.cur, if_neg (by rw [hc]; decide)]
    rfl
  · rw [me_setMe, h.me, h.arch]

end

section
variable (hz : t.m.s ≠ 0)
include hz

/-- An element that is stored is watched, and then written. -/
theorem stt_stored : exec (.stt f) s = finish s (
    watching s' [(s.tensorVa t, t.size)] false true (
      storing s' (s.rdS f.b).psn f.b.toNat 0 fun r =>
        storingTo r (s.arch.slotPages t.d.eslot) (s.tensorVa t) (t.stored (s.rdS f.b)) (s.rdS f.b).psn)) := by
  rw [hi, sttElement, if_neg hz, h.tensorVa, h.arch]
  rfl

theorem stt_watched {w : Nat} (hw : s.watchHit [(s.tensorVa t, t.size)] false true = some w) : TrapsAfterRead (.stt f) s 8 w := by
  refine h.traps ((stt_stored h hi hz).trans ?_)
  rw [watching_some ((h.watchHit ..).trans hw)]
  rfl

variable (hw : s.watchHit [(s.tensorVa t, t.size)] false true = none)
include hw

theorem stt_psn (hp : (s.rdS f.b).psn = true) (hc : s.cur.csw.getLsbD 23 = true) : TrapsAfterRead (.stt f) s 5 f.b.toNat := by
  refine h.traps ((stt_stored h hi hz).trans ?_)
  rw [watching_none ((h.watchHit ..).trans hw), hp, storing_traps (h.cur ▸ hc), Nat.mod_eq_of_lt f.b.isLt]
  rfl

variable (hp : (s.rdS f.b).psn = true → s.cur.csw.getLsbD 23 = false)
include hp

/-- Past WATCH and PSN comes the store itself. -/
theorem stt_writes : exec (.stt f) s = finish s (
    storingTo (s'.notedPsn (s.rdS f.b).psn) (s.arch.slotPages t.d.eslot) (s.tensorVa t) (t.stored (s.rdS f.b)) (s.rdS f.b).psn) := by
  rw [stt_stored h hi hz, watching_none ((h.watchHit ..).trans hw), storing_goes (h.cur ▸ hp)]

theorem stt_late (hd : s.delays = true) : ∃ r l w, OnlyAccess (s.notedPsn (s.rdS f.b).psn) r ∧ r.mem = s.mem ∧
    r.ctxs = (s.notedPsn (s.rdS f.b).psn).ctxs ∧ StandsBut s r (fun _ => False) ∧
    l.refs = urefs (s.arch.slotPages t.d.eslot) (s.tensorVa t) t.size ∧ l.op = .store (t.stored (s.rdS f.b)) (s.rdS f.b).psn ∧
    JoinsLate (.stt f) s r l [] { r.arch with wrote := w } := by
  have hr := h.notedPsn (s.rdS f.b).psn
  have hd' : (s'.notedPsn (s.rdS f.b).psn).delays = true := by
    rw [State.delays, (notedPsn_modules ..).2.2.2.2, h.cur]
    exact hd
  have hrun := stt_writes h hi hz hw hp
  rw [storingTo, access_later _ _ _ hd'] at hrun
  obtain ⟨w, hj⟩ := joinsLate_store hrun
  refine ⟨_, _, w, hr.onlyAccess, hr.mem.trans (notedPsn_modules ..).1, hr.ctxs, fun k sc pa _ => ?_, ?_, rfl, hj⟩
  · rw [hr.seen, notedPsn_seenAt]
  · rw [State.lateOf, stored_length]

theorem stt_stores (hd : s.delays = false) (hq : s.quiet s.cur.ctx) (hn : t.size < 65528) (hsp : s.unspoiled) :
    StoresAt (.stt f) s (s.notedPsn (s.rdS f.b).psn) (s.arch.slotPages t.d.eslot) (s.tensorVa t) (t.stored (s.rdS f.b))
      (s.rdS f.b).psn := by
  have hr := h.notedPsn (s.rdS f.b).psn
  obtain ⟨-, -, hspoiled, -, hcur⟩ := notedPsn_modules s (s.rdS f.b).psn
  have hcur' : (s'.notedPsn (s.rdS f.b).psn).cur = s.cur := hr.cur.trans hcur
  have hq' : (s'.notedPsn (s.rdS f.b).psn).quiet (s'.notedPsn (s.rdS f.b).psn).cur.ctx := by
    rw [hcur']
    exact notedPsn_quiet _ _ (h.quiet hq)
  have hd' : (s'.notedPsn (s.rdS f.b).psn).delays = false := by
    rw [State.delays, hcur']
    exact hd
  refine storesAt_of hr hcur ((stored_length ..).trans_lt hn) (hspoiled.trans hsp) ((stt_writes h hi hz hw hp).trans ?_)
  rw [storingTo, access_now _ _ _ hd' hq'.2.2 (ready_quiet _ _ _ hq' _), hcur']
  rfl

end

end

/-! ### The statement -/

/-- The element as LDT lands it: a packet element's value in FP32, any other's bits (R77). -/
theorem elemValue_eq (fmt n : Nat) (packet neg : Bool) (bs : List Byte) :
    elemValue fmt (if packet then some n else none) neg bs =
      if packet then (fpRound (fpOf 0x02) rne (if neg then (packetDecode fmt (leNat bs) n).neg else packetDecode fmt (leNat bs) n)).1
      else if neg then negElem fmt (leNat bs) else leNat bs := by
  cases packet <;> rfl

theorem fmtBytes_le (f : Nat) : fmtBytes f ≤ 64 := by
  unfold fmtBytes fmtWidth
  split <;> decide

/-- Settles O20: the descriptor's conditions group by group (`formOk_iff`), the mapping by induction over the factors (`mapFactors_spec`) and
kind by kind (`factor_map_spec`), and LDT and STT as far as their element (`tensor_read`, `tensorAt_spec`) and there. -/
theorem tensorElements : Obligations.TensorElements := by
  unfold Obligations.TensorElements
  refine ⟨formOk_iff, fun d idx => ?_, ?_⟩
  · intro fs at_ scale
    obtain ⟨hzero, hlive⟩ := mapFactors_spec idx fs 1
    refine ⟨hzero, fun h => ?_, fun f _ => factor_map_spec f idx⟩
    obtain ⟨-, hs, hm, hk⟩ := hlive h
    simp only [foldl_mul_eq_prod, foldl_add_eq_sum, scale]
    simp only [one_mul] at hk
    exact ⟨hs, hm, hk⟩
  · intro f s k v b e ps at_ x d es on idx m size rows off va t good within code reach both
    have ht : d.elementAt v = t := by
      dsimp only [Desc.elementAt]
      rw [place_eq]
      rfl
    have hsize : t.size = if t.d.packet then 64 else fmtBytes t.d.fmt := rfl
    refine ⟨fun hv => ⟨?_, ?_⟩, fun hv hs => ⟨?_, ?_⟩, fun hv hs h30 h16 => ⟨?_, ?_⟩, fun hv hs htag =>
      ⟨fun hat => ⟨?_, ?_⟩, fun hat hq hm => ?_⟩⟩
    · exact congrArg (finish s) (tensor_vector _ hv)
    · exact congrArg (finish s) (tensor_vector _ hv)
    · exact ⟨_, Nat.mod_lt _ (by decide), by rw [exec_ldt, tensor_slot _ hv hs]; rfl⟩
    · exact ⟨_, Nat.mod_lt _ (by decide), by rw [exec_stt, tensor_slot _ hv hs]; rfl⟩
    · exact congrArg (finish s) (tensor_tag _ hv hs h30 h16)
    · exact congrArg (finish s) (tensor_tag _ hv hs h30 h16)
    · exact dies_of (by rw [exec_ldt, tensor_located _ hv hs htag hat rfl])
    · exact dies_of (by rw [exec_stt, tensor_located _ hv hs htag hat rfl])
    obtain ⟨sl, hl, hldt⟩ := tensor_read false hv hs htag hat hq hm
    obtain ⟨st, hst, hstt⟩ := tensor_read true hv hs htag hat hq hm
    have hspec (write : Bool) := tensorAt_spec s x.1 x.2 write v
    have hdies : ∀ q ∈ [(Instr.ldt f, false), (Instr.stt f, true)], ∀ c, c ≠ 0 → (s.tensorAt x.1 x.2 q.2 v).1 = c → Dies q.1 s c := by
      intro q hq c hc he
      simp only [List.mem_cons, List.not_mem_nil, or_false] at hq
      rcases hq with rfl | rfl
      · exact dies_of (by rw [exec_ldt, hldt, he, checked_fails hc])
      · exact dies_of (by rw [exec_stt, hstt, he, checked_fails hc])
    have hpass (write : Bool) (hg : good write) (hw : within) (hr : reach write) : (s.tensorAt x.1 x.2 write v).1 = 0 := by
      obtain ⟨-, -, -, hcode⟩ := hspec write
      rw [hcode hg hw, ht]
      by_cases hz : t.m.s = 0
      · exact if_pos hz
      · rw [if_neg hz]
        exact hr hz
    refine ⟨fun q hmem => ?_, fun hg hw hr => ?_, fun hg hw hr => ?_⟩
    · obtain ⟨-, hbad, hindex, hcode⟩ := hspec q.2
      refine ⟨fun h => hdies q hmem 9 (by decide) (hbad h), fun hg hw => hdies q hmem 8 (by decide) (hindex hg hw), fun hg hw hz hc => ?_⟩
      refine hdies q hmem _ hc ((hcode hg hw).trans ?_)
      rw [ht, if_neg hz]
      rfl
    · have hi : exec (.ldt f) s = finish s (ldtElement f sl t) := by
        rw [exec_ldt, hldt, hpass false hg hw hr, checked_zero, ht]
      refine ⟨ldt_zero hl hi, fun hz => ⟨fun w => ldt_watched hl hi hz, ldt_late (t := t) hl hi hz, fun hhit hd => ?_⟩⟩
      have hload := ldt_loads hl hi hz hhit hd hq hm hsize
      rw [elemValue_eq] at hload
      simp only [decide_eq_true_eq] at hload ⊢
      exact hload
    · have hi : exec (.stt f) s = finish s (sttElement f b st t) := by
        rw [exec_stt, hstt, hpass true hg hw hr, checked_zero, ht]
      refine ⟨fun hz h0 => stt_dropped hst hi hz ((storesZero_iff _ _ _).2 h0),
        fun hz h0 hc => stt_symv hst hi hz (mt (storesZero_iff _ _ _).1 h0) hc,
        fun hz h0 hc => stt_noted hst hi hz (mt (storesZero_iff _ _ _).1 h0) hc,
        fun hz => ⟨fun w hhit => stt_watched hst hi hz hhit, fun hhit => ⟨stt_psn hst hi hz hhit, fun hp hd => ?_, fun hp hd hsp => ?_⟩⟩⟩
      · exact stt_late (t := t) hst hi hz hhit hp hd
      · have hn : t.size < 65528 := by
          rw [hsize]
          have := fmtBytes_le t.d.fmt
          split <;> omega
        exact stt_stores (t := t) hst hi hz hhit hp hd hq hn hsp

end Sys2Proof.Machine
end

section
/-! PROOFS. CONTRACT's partial sums between two passes (spec/16 R366): a block with a summation format that R223 does not list. -/

namespace Sys2Proof.Machine

/-- An element that lies past the end of a register image is zero. -/
theorem elem_of_past_end (v : Vec) {i w : Nat} (h : 2048 ≤ w * i) : elem v i w = 0 := by
  unfold elem
  rw [Nat.shiftRight_eq_div_pow, Nat.div_eq_of_lt (BitVec.toNat_lt_twoPow_of_le h), Nat.zero_mod]

/-- A fold whose every step gives the same first component ends with it. -/
theorem foldl_fst_of_steps {α β γ : Type} {f : α × β → γ → α × β} {q : α} (h : ∀ v o, (f v o).1 = q) {l : List γ} (hl : l ≠ [])
    (v : α × β) : (l.foldl f v).1 = q := by
  obtain ⟨l', o, rfl⟩ := (List.eq_nil_or_concat l).resolve_left hl
  rw [List.concat_eq_append, List.foldl_append]
  exact h _ o

theorem getElem?_map_zip {α β γ : Type} (g : α × β → γ) {xs : List α} {ys : List β} {j : Nat} {x : α} {y : β} (hx : xs[j]? = some x)
    (hy : ys[j]? = some y) : ((xs.zip ys).map g)[j]? = some (g (x, y)) := by
  rw [List.getElem?_map, List.getElem?_zip_eq_some (z := (x, y)) |>.2 ⟨hx, hy⟩]
  rfl

/-- An orbit of which an input reads a NaN makes the sum the quiet NaN of the summation format, whatever it was (R365). -/
theorem Cmd.orbitStep_nan (c : Cmd) {env : List (Nat × Nat)} (hl : c.orbitLive env = true) (hk : c.accf ≠ fInt32) {i : Nat}
    (hi : i ∈ c.inputs) (hn : (c.opRead i (c.opIdx i env)).1.isNan = true) (mult acc : Nat) (psn : Bool) :
    (c.orbitStep env mult acc psn).1 = (fpOf c.accf).qnan := by
  have hany : ((c.inputs.map fun i => c.opRead i (c.opIdx i env)).map Prod.fst).any Fp.isNan = true :=
    List.any_eq_true.2 ⟨_, List.mem_map_of_mem (List.mem_map_of_mem hi), hn⟩
  unfold Cmd.orbitStep
  simp only [hl, hany, Bool.not_true, Bool.false_eq_true, if_false, Bool.true_or, if_true]
  exact congrArg Prod.fst (accAdd_nan hk acc)

/-- CONTRACT in its first pass of two over 65 orbits and 5 tuples. Its summation format is 0x07, which the check of R224 refuses: its
elements are 512 bits wide, so that an accumulator row holds 4 of them where `accPer` counts 64. X is a cyclic pair of slots with one
letter, so that every orbit reads element 0. -/
def wideWalk : Cmd := {
  id := 9, ctx := 0, slot := 0, op := 3, d := 7, toks := [], routine := 5, started := true, running := true
  block := [1, 7] ++ List.replicate 62 0 ++ leBytes 64 (65 + 0x303 * 2 ^ 256 + 2 * 2 ^ 368 + 2 * 2 ^ 376) ++ List.replicate 64 0 ++
    leBytes 64 (5 * 2 ^ 320)
  extents := [(16, 0)], pages := [(16, [{ vp := 0, frame := 0 }])] }

/-- Element 0 of X is an FP32 NaN. -/
def wideState : State := { mem := { cells := [(2, 0xC0), (3, 0x7F)] }, cores := [(0, { mq := [wideWalk] })] }

/-- `wideWalk` with some units read. -/
def wideRead (src : FMap (Option (Word × Bool))) : Cmd := { wideWalk with src := src }

theorem wideWalk_map (v : Nat) : (wideWalk.desc 0).map [v, v] = { k := 0, s := 1, m := 65 } := by
  have hf : (wideWalk.desc 0).factors = [{ kind := .cyc, slots := [0, 1], n := 65 }] := by decide +kernel
  unfold Desc.map
  rw [hf]
  simp [mapFactors, Factor.map, nth]

/-- Every tuple of X that an orbit names repeats its one letter. -/
theorem wideRead_opIdx (src : FMap (Option (Word × Bool))) (env : List (Nat × Nat)) :
    (wideRead src).opIdx 0 env = [valueOf env 0, valueOf env 0] := by
  have hl : wideWalk.lets 0 = [0, 0] := by decide +kernel
  show (wideWalk.lets 0).map (valueOf env) = _
  rw [hl]
  rfl

theorem wideRead_live (src : FMap (Option (Word × Bool))) (env : List (Nat × Nat)) : (wideRead src).orbitLive env = true := by
  have hi : wideWalk.inputs = [0] := by decide +kernel
  show wideWalk.inputs.all (fun i => ((wideWalk.desc i).map ((wideRead src).opIdx i env)).s != 0) = true
  rw [hi, List.all_cons, wideRead_opIdx, wideWalk_map]
  rfl

theorem wideRead_startSum (src : FMap (Option (Word × Bool))) (f : Formed) : (wideRead src).startSum f = (0, false, 0) := by
  have ha : (wideRead src).adds = false := by
    show wideWalk.adds = _
    decide +kernel
  unfold Cmd.startSum
  rw [ha]
  rfl

/-- Once unit 0 has been read, every orbit reads a NaN. -/
theorem wideRead_nan {src : FMap (Option (Word × Bool))} (h : (wideRead src).got 0 0 = some (wideState.unit 0)) (v : Nat) :
    ((wideRead src).opRead 0 [v, v]).1.isNan = true := by
  have hu : (wideRead src).opUnits 0 0 = [0] := by
    show wideWalk.opUnits 0 0 = _
    decide +kernel
  have hv : wideState.unit 0 = (0x7FC00000, false) := by decide +kernel
  have hp : (wideRead src).pulledPoison 0 [0] = false := by simp [Cmd.pulledPoison, h, hv]
  have hb : ((wideRead src).bytesAt 0 0 4).1 = [0, 0, 0xC0, 0x7F] := by
    unfold Cmd.bytesAt
    rw [show unitsOf 0 4 = [0] from rfl, List.map_singleton, h, hv]
    decide +kernel
  have hplace : ((wideRead src).desc 0).place 0 = (0, 4) := by
    show (wideWalk.desc 0).place 0 = _
    decide +kernel
  have hbase : (wideRead src).opBase 0 = 0 := rfl
  have hmap : ((wideRead src).desc 0).map [v, v] = { k := 0, s := 1, m := 65 } := wideWalk_map v
  have hpk : ((wideRead src).desc 0).packet = false := by
    show (wideWalk.desc 0).packet = _
    decide +kernel
  have hfmt : ((wideRead src).desc 0).fmt = 2 := by
    show (wideWalk.desc 0).fmt = _
    decide +kernel
  unfold Cmd.opRead
  simp only [hmap, hu, hp, hplace, hbase, hpk, hfmt, Nat.add_zero, hb, one_ne_zero, Bool.false_eq_true, if_false]
  decide +kernel

/-- So every orbit makes the sum the quiet NaN of the summation format. -/
theorem wideRead_orbitStep {src : FMap (Option (Word × Bool))} (h : (wideRead src).got 0 0 = some (wideState.unit 0))
    (env : List (Nat × Nat)) (mult acc : Nat) (psn : Bool) : ((wideRead src).orbitStep env mult acc psn).1 = (fpOf 7).qnan := by
  have hk : (wideRead src).accf = 7 := by
    show wideWalk.accf = _
    decide +kernel
  have hi : 0 ∈ (wideRead src).inputs := by
    show 0 ∈ wideWalk.inputs
    decide +kernel
  rw [(wideRead src).orbitStep_nan (wideRead_live src env) (by rw [hk]; decide) hi (by rw [wideRead_opIdx]; exact wideRead_nan h _), hk]

/-- Refutes O52: CONTRACT's partial sums of a pass that is not its block's last are claimed to stand in the workspace for every block, but a
format of 512-bit elements, which R224 refuses at the start and the statement does not exclude, gives the fifth sum no room in its row. -/
theorem not_contractLodeAndStreams : ¬ Obligations.ContractLodeAndStreams := by
  unfold Obligations.ContractLodeAndStreams
  intro h
  obtain ⟨hcontract, -, -⟩ := h
  obtain ⟨-, hpass, -⟩ := hcontract 0 9 [] wideState wideWalk (by decide +kernel) rfl rfl rfl rfl rfl
  obtain ⟨-, -, -, hrun⟩ := hpass rfl rfl (by decide +kernel) rfl
  obtain ⟨t, y, -, -, -, -, -, -, r, hr, hgot, hmid, -⟩ := hrun rfl rfl (by decide +kernel) (by decide +kernel)
    ⟨plain_of_mergesNone (by decide +kernel), rfl, by decide +kernel⟩
  have hr : r = wideRead r.src := hr
  have hread : (wideRead r.src).got 0 0 = some (wideState.unit 0) := by
    rw [← hr, (hgot 0 0 (by decide)).1 ⟨1, by decide +kernel⟩]
    decide +kernel
  obtain ⟨-, -, -, -, hacc, -⟩ := hmid (by decide +kernel)
  have hfirst : wideWalk.progress % max 1 ((orbitCount wideWalk.walkFactors + 63) / 64) = 0 := by decide +kernel
  have hblock : wideWalk.progress / max 1 ((orbitCount wideWalk.walkFactors + 63) / 64) = 0 := by decide +kernel
  have htuple : (wideWalk.blockTuples 0)[4]? = some { k := some 4, idx := [], canon := true, val := 0, psn := false } := by decide +kernel
  have hstart : ((wideWalk.blockTuples 0).map fun f => ((r.startSum f).1, (r.startSum f).2.1))[4]? = some (0, false) := by
    rw [List.getElem?_map, htuple, Option.map_some, hr, wideRead_startSum]
  simp only [hfirst, hblock, if_true] at hacc
  have hrow := hacc 4 _ (getElem?_map_zip _ htuple hstart)
  rw [elem_of_past_end _ (by decide +kernel), hr, foldl_fst_of_steps (q := (fpOf 7).qnan)] at hrow
  · exact absurd hrow (by decide +kernel)
  · exact fun v o => wideRead_orbitStep hread ..
  · decide +kernel

end Sys2Proof.Machine
end
